-- ==== Sys2Proof/Word.lean ====
section
/-! DEFINITION. The word types of the KB-1536 (R7, R14, R71) and their plainest arithmetic. -/

namespace Sys2Proof

/-- A byte of memory. -/
abbrev Byte := BitVec 8

/-- A 32-bit element position of a vector register (R5, R98). -/
abbrev Elem := BitVec 32

/-- A 64-bit scalar register or system register value (R71, R92). -/
abbrev Word := BitVec 64

/-- An instruction word (R14). -/
abbrev IWord := BitVec 96

/-- An instruction address: 57 bits (R40, R86). -/
abbrev Addr := BitVec 57

/-- The bytes of an instruction (R14). -/
def instrBytes : Nat := 12

end Sys2Proof
end

