-- ==== Sys2Proof/Syntax.lean ====
section
/-! DEFINITION. The syntax: operands (R22 to R27), control fields (R18, R19), and ONE inductive Instr
with a constructor for every row of spec/opcode_table.json. Rows 0 to 176 are instructions of
OP 0x00 to 0xE8, and the other rows are steps of agents that no instruction word names. -/

namespace Sys2Proof

/-- The element formats of R30. -/
inductive Fmt where
  | i8 | i16 | i32 | i64 | n8 | n16 | n32 | n64
  | f32 | f16 | bf16 | e4m3 | e5m2 | e2m1 | vq2
  | i16x2 | i8x4 | f16x2 | e4m3x4 | e2m1x8
deriving DecidableEq, Repr

/-- The relations of R31. -/
inductive Rel where
  | eq | ne | lt | ge | le | gt
deriving DecidableEq, Repr

/-- The scopes of R32 and R217. -/
inductive Scope where
  | hart | core | cluster | device | system
deriving DecidableEq, Repr

/-- Guard and hints of a word: G (R18), the H field (R19), and bit 71, which is CH's low bit in a
memory instruction only (R21). -/
structure Ctl where
  neg : Bool
  p   : BitVec 3
  h   : BitVec 6
  chl : Bool
deriving DecidableEq, Repr

/-- Operand modifiers (R22, R25, R26). -/
structure Mods where
  hs  : Bool
  swz : BitVec 3
  neg : Bool
  abs : Bool
deriving DecidableEq, Repr

/-- No modifier. -/
def Mods.none : Mods := ⟨false, 0, false, false⟩

/-- A scalar register read as a source, with its swizzle (R22, R24, R26). -/
structure SSrc where
  n   : BitVec 6
  swz : BitVec 3
deriving DecidableEq, Repr

/-- An operand field by its class (R23, R27). A number outside a class's legal range has no term. -/
inductive Operand where
  | s (n : BitVec 6) (m : Mods)
  | v (n : BitVec 5) (m : Mods)
  | q (n : BitVec 4)
  | pm (n : BitVec 4)
  | acc (n : BitVec 2)
  | port (n : BitVec 4)
  | imm (i : BitVec 14)
  | immW (i : BitVec 32)
  | none
deriving DecidableEq, Repr

/-- Format, saturation and operands of a kind-T scalar instruction (R74, R76). -/
structure SOps where
  fmt : Fmt
  sat : Bool
  d   : Operand
  a   : Operand
  b   : Operand
deriving DecidableEq, Repr

/-- The X field of a vector instruction (R108). -/
structure VX where
  msk : Bool
  mn  : BitVec 3
  mz  : Bool
  rm  : BitVec 3
  aux : BitVec 5
  wd  : Bool
  sel : BitVec 4
deriving DecidableEq, Repr

/-- Format, saturation, operands and X of a vector instruction (R107, R108). -/
structure VOps where
  fmt : Fmt
  sat : Bool
  d   : Operand
  a   : Operand
  b   : Operand
  x   : VX
deriving DecidableEq, Repr

/-- A vector load or store (R202). dswz is the swizzle of D, which is a source in a store alone (R24). -/
structure VMOps where
  fmt : Fmt
  d   : BitVec 5
  dswz : BitVec 3
  a   : SSrc
  b   : Operand
  msk : Bool
  mn  : BitVec 3
  mz  : Bool
  sc  : Bool
  si  : Bool
deriving DecidableEq, Repr

/-- Where an uncorrectable state error strikes (R432, R435). -/
inductive StateLoc where
  | hart (h : Nat)
  | barrier (core idx : Nat)
  | comm (cluster : Nat)
  | accumulator (core slot row col : Nat)
  | owner (frame : Nat)
  | dram (pa : Nat)
  | stashLine (core pline : Nat)
  | cacheLine (pa : Nat)
  | cleanLine (pa : Nat)
  | translation (i : Nat)
  | queueProcessor
  | journalLine
deriving DecidableEq, Repr

/-- Every row of spec/opcode_table.json. -/
inductive Instr where
  -- OP 0x00
  | nop (c : Ctl)
  | pad (c : Ctl)
  -- control flow, OP 0x01 to 0x0A (R86 to R91)
  | br (c : Ctl) (disp : BitVec 32)
  | brl (c : Ctl) (disp : BitVec 64)
  | bc (c : Ctl) (rel : Rel) (nat : Bool) (a : BitVec 6) (b : Operand) (disp : BitVec 36)
  | dbnz (c : Ctl) (d : BitVec 6) (disp : BitVec 32)
  | call (c : Ctl) (d : BitVec 6) (disp : BitVec 32)
  | calll (c : Ctl) (link : BitVec 6) (disp : BitVec 64)
  | jcall (c : Ctl) (d : BitVec 6) (a : SSrc)
  | jr (c : Ctl) (a : SSrc)
  | ret (c : Ctl) (a : SSrc)
  | ifpf (c : Ctl) (level : BitVec 2) (a : SSrc) (b : Operand)
  -- scalar arithmetic, OP 0x10 to 0x27 (R76 to R80)
  | add (c : Ctl) (o : SOps)
  | sub (c : Ctl) (o : SOps)
  | addi (c : Ctl) (o : SOps) (simm : BitVec 18)
  | mul (c : Ctl) (o : SOps)
  | mulh (c : Ctl) (o : SOps)
  | div (c : Ctl) (o : SOps)
  | rem (c : Ctl) (o : SOps)
  | min (c : Ctl) (o : SOps)
  | max (c : Ctl) (o : SOps)
  | and (c : Ctl) (o : SOps)
  | or (c : Ctl) (o : SOps)
  | xor (c : Ctl) (o : SOps)
  | andn (c : Ctl) (o : SOps)
  | shl (c : Ctl) (o : SOps)
  | shr (c : Ctl) (o : SOps)
  | sra (c : Ctl) (o : SOps)
  | rot (c : Ctl) (o : SOps)
  | clz (c : Ctl) (o : SOps)
  | ctz (c : Ctl) (o : SOps)
  | popc (c : Ctl) (o : SOps)
  | bfx (c : Ctl) (o : SOps) (pos len1 : BitVec 6)
  | bfi (c : Ctl) (o : SOps) (pos len1 : BitVec 6)
  | sext (c : Ctl) (o : SOps)
  | zext (c : Ctl) (o : SOps)
  -- moves, predicates, system registers, OP 0x28 to 0x2F (R81 to R85, R92)
  | li (c : Ctl) (d b : Operand)
  | lih (c : Ctl) (d : BitVec 6) (b : Operand)
  | mov (c : Ctl) (d a : Operand)
  | lea (c : Ctl) (d a : BitVec 6) (b : Operand) (sh : BitVec 3) (disp : BitVec 15)
  | cmp (c : Ctl) (rel : Rel) (nat : Bool) (d : BitVec 3) (a : BitVec 6) (b : Operand)
  | sel (c : Ctl) (d a b : Operand) (pneg : Bool) (pn : BitVec 3)
  | pand (c : Ctl) (d a b : BitVec 3)
  | por (c : Ctl) (d a b : BitVec 3)
  | pxor (c : Ctl) (d a b : BitVec 3)
  | pnot (c : Ctl) (d a : BitVec 3)
  | getsr (c : Ctl) (d : Operand) (idx : BitVec 12)
  | putsr (c : Ctl) (idx : BitVec 12) (a : Operand)
  -- scalar memory, OP 0x30 to 0x35 (R199 to R201)
  | ld (c : Ctl) (fmt : Fmt) (d : Operand) (a : BitVec 6) (b : Operand)
  | st (c : Ctl) (fmt : Fmt) (d : Operand) (a : BitVec 6) (b : Operand)
  | ldAq (c : Ctl) (fmt : Fmt) (sc : Scope) (d : Operand) (a : BitVec 6) (b : Operand)
  | stRl (c : Ctl) (fmt : Fmt) (sc : Scope) (d : Operand) (a : BitVec 6) (b : Operand)
  | ldx (c : Ctl) (fmt : Fmt) (d : Operand) (a b : BitVec 6) (disp : BitVec 18)
  | prf (c : Ctl) (a : BitVec 6) (b : Operand)
  -- vector integer, OP 0x40 to 0x57 (R111 to R117)
  | vadd (c : Ctl) (o : VOps)
  | vsub (c : Ctl) (o : VOps)
  | vmul (c : Ctl) (o : VOps)
  | vmulh (c : Ctl) (o : VOps)
  | vmadd (c : Ctl) (o : VOps)
  | vmin (c : Ctl) (o : VOps)
  | vmax (c : Ctl) (o : VOps)
  | vabsd (c : Ctl) (o : VOps)
  | vavg (c : Ctl) (o : VOps)
  | vand (c : Ctl) (o : VOps)
  | vor (c : Ctl) (o : VOps)
  | vxor (c : Ctl) (o : VOps)
  | vandn (c : Ctl) (o : VOps)
  | vshl (c : Ctl) (o : VOps)
  | vshr (c : Ctl) (o : VOps)
  | vsra (c : Ctl) (o : VOps)
  | vcmp (c : Ctl) (o : VOps)
  | vsel (c : Ctl) (o : VOps)
  | vmov (c : Ctl) (o : VOps)
  | vbcast (c : Ctl) (o : VOps)
  | vid (c : Ctl) (o : VOps)
  | vclz (c : Ctl) (o : VOps)
  | vpopc (c : Ctl) (o : VOps)
  | vdot4 (c : Ctl) (o : VOps)
  -- vector floating point, OP 0x60 to 0x6E (R118 to R122)
  | vfadd (c : Ctl) (o : VOps)
  | vfsub (c : Ctl) (o : VOps)
  | vfmul (c : Ctl) (o : VOps)
  | vfma (c : Ctl) (o : VOps)
  | vfmin (c : Ctl) (o : VOps)
  | vfmax (c : Ctl) (o : VOps)
  | vfcmp (c : Ctl) (o : VOps)
  | vfdiv (c : Ctl) (o : VOps)
  | vfsqrt (c : Ctl) (o : VOps)
  | vfrcp (c : Ctl) (o : VOps)
  | vfrsq (c : Ctl) (o : VOps)
  | vfexp2 (c : Ctl) (o : VOps)
  | vflog2 (c : Ctl) (o : VOps)
  | vfscl (c : Ctl) (o : VOps)
  | vfrnd (c : Ctl) (o : VOps)
  -- permutes, reductions, conversions, masks, OP 0x80 to 0x8F (R123 to R133)
  | vxch (c : Ctl) (o : VOps)
  | vperm (c : Ctl) (o : VOps)
  | vslide (c : Ctl) (o : VOps)
  | vcompress (c : Ctl) (o : VOps)
  | vexpand (c : Ctl) (o : VOps)
  | vred (c : Ctl) (o : VOps)
  | vredsc (c : Ctl) (o : VOps)
  | vdot (c : Ctl) (o : VOps)
  | vcvt (c : Ctl) (o : VOps)
  | vpack (c : Ctl) (o : VOps)
  | vunpack (c : Ctl) (o : VOps)
  | mand (c : Ctl) (d a b : BitVec 3)
  | mor (c : Ctl) (d a b : BitVec 3)
  | mnot (c : Ctl) (d a : BitVec 3)
  | mpopc (c : Ctl) (d : Operand) (a : BitVec 3) (x : VX)
  | mfirst (c : Ctl) (d : Operand) (a : BitVec 3) (x : VX)
  -- vector memory and stash control, OP 0x90 to 0x9C (R202 to R214)
  | vld (c : Ctl) (o : VMOps)
  | vlds (c : Ctl) (o : VMOps)
  | vldx (c : Ctl) (o : VMOps)
  | vst (c : Ctl) (o : VMOps)
  | vsts (c : Ctl) (o : VMOps)
  | vstx (c : Ctl) (o : VMOps)
  | vldq (c : Ctl) (fmt : Fmt) (q : BitVec 3) (a : SSrc) (b : Operand)
  | vstq (c : Ctl) (fmt : Fmt) (q : BitVec 3) (a : SSrc) (b : Operand)
  | vbind (c : Ctl) (fmt : Fmt) (sc st : Bool) (q : BitVec 3) (a : SSrc)
  | vunbind (c : Ctl) (q : BitVec 3)
  | stmap (c : Ctl) (slot : BitVec 5) (soff : BitVec 7) (a : BitVec 6) (b : Operand)
  | stwb (c : Ctl) (a : BitVec 6) (b : Operand)
  | stdrop (c : Ctl) (a : BitVec 6) (b : Operand)
  -- matrix, OP 0xA0 to 0xA9 (R146 to R157)
  | setts (c : Ctl) (wf : Fmt) (m n k : Operand)
  | wfmt (c : Ctl) (wf : Fmt) (acc : BitVec 2) (a : Operand)
  | wload (c : Ctl) (acc : BitVec 2) (a : BitVec 6) (b : Operand) (kofs : BitVec 12)
  | mscale (c : Ctl) (ofB : Bool) (a : BitVec 6) (b : Operand) (count : BitVec 12)
  | mzero (c : Ctl) (acc : BitVec 2)
  | maccLd (c : Ctl) (acc : BitVec 2) (v : BitVec 5) (row0 : BitVec 6)
  | mova (c : Ctl) (fmt : Fmt) (sat : Bool) (v : BitVec 5) (acc : BitVec 2) (rm : BitVec 3) (row0 : BitVec 6)
  | mma (c : Ctl) (fmt : Fmt) (acc : BitVec 2) (a : BitVec 6) (b : Operand) (kofs : BitVec 12)
  | mwait (c : Ctl) (acc : Option (BitVec 2))
  | mstat (c : Ctl) (d : Operand) (acc : BitVec 2)
  -- atomics, barriers, semaphores, fences, OP 0xB0 to 0xBC (R251 to R268)
  | amo (c : Ctl) (op : BitVec 3) (sc : Scope) (fmt : Fmt) (d : Operand) (a : BitVec 6) (b : Operand) (disp : BitVec 13)
  | vamo (c : Ctl) (op : BitVec 3) (sc : Scope) (fmt : Fmt) (d : BitVec 5) (a : BitVec 6) (b : BitVec 5) (msk : Bool) (mn : BitVec 3) (scaled si : Bool)
  | barInit (c : Ctl) (a b : Operand)
  | barArrive (c : Ctl) (d a b : Operand)
  | barExpect (c : Ctl) (a b : Operand)
  | barWait (c : Ctl) (a b : Operand)
  | barTest (c : Ctl) (d a : Operand)
  | semTas (c : Ctl) (a : Operand)
  | semClr (c : Ctl) (a : Operand)
  | crLd (c : Ctl) (d a : Operand)
  | crSt (c : Ctl) (a b : Operand)
  | fnc (c : Ctl) (dir : BitVec 2) (sc : Scope)
  | wait (c : Ctl) (rel : Rel) (nat : Bool) (d : Operand) (a : SSrc) (b : Operand) (sc : Scope) (w32 : Bool)
  -- ports, loop nest, launch, purge, OP 0xC0 to 0xC7 (R279 to R285, R374, R379)
  | push (c : Ctl) (d : Operand) (k : BitVec 3) (b : Operand)
  | pop (c : Ctl) (d : Operand) (k : BitVec 3)
  | peek (c : Ctl) (d : Operand) (k : BitVec 3)
  | qlen (c : Ctl) (d : Operand) (port : BitVec 4)
  | cpwp (c : Ctl) (d : Operand) (k : BitVec 3) (b : Operand)
  | zloop (c : Ctl) (a : BitVec 6) (len1 : BitVec 4)
  | lnch (c : Ctl) (d : Operand) (a : BitVec 6)
  | ipurge (c : Ctl) (a : BitVec 6) (b : Operand)
  -- lanes, blocks, farms, marked loops, tiles, yield, OP 0xD0 to 0xDA
  | setvl (c : Ctl) (fmt : Fmt) (d b : Operand)
  | vfetch (c : Ctl) (m : Option (BitVec 3)) (disp : BitVec 32)
  | vpret (c : Ctl)
  | farmNext (c : Ctl) (d : BitVec 6) (m : BitVec 3) (v : BitVec 5)
  | lprec (c : Ctl) (d : BitVec 6) (a : Option (BitVec 6)) (len : BitVec 14) (nc : BitVec 2) (k0 k1 k2 k3 : BitVec 3) (tr : BitVec 3)
  | lpend (c : Ctl)
  | lpjoin (c : Ctl)
  | treqFixed (c : Ctl) (n : BitVec 2)
  | treqNeg (c : Ctl) (n : BitVec 2) (disp : BitVec 32)
  | treqPool (c : Ctl) (n : BitVec 2) (a : BitVec 6) (disp : BitVec 32)
  | trel (c : Ctl) (n : BitVec 2)
  | doffretFinished (c : Ctl)
  | doffretSummarised (c : Ctl)
  | doffretRefused (c : Ctl)
  | yield (c : Ctl)
  -- traps, debug, time, OP 0xE0 to 0xE8
  | trap (c : Ctl) (b : Operand)
  | tret (c : Ctl)
  | ecall (c : Ctl) (b : Operand)
  | halt (c : Ctl)
  | sync (c : Ctl)
  | brk (c : Ctl) (b : Operand)
  | wmark (c : Ctl) (d : Operand)
  | tsc (c : Ctl) (d : Operand)
  | cnt (c : Ctl) (d a : Operand)
  -- steps of the hart that no word names; h is a package hart number 8 x core + hart
  | preciseVectorTrap (h : Nat)
  | queueWaitEnd (h : Nat)
  | loadStreamFetch (h q : Nat)
  | storeStreamWrite (h q : Nat)
  | barWaitCompletes (h : Nat)
  | semaphoreGrant (cluster bit : Nat)
  | waitSatisfied (h : Nat)
  | popDataArrives (h : Nat)
  -- engines; k is a port pair of hart h, n a count of bytes
  | copy (h k n : Nat)
  | copyDecrement (h k n : Nat)
  | gather (h k : Nat)
  | scatter (h k : Nat)
  | reduction (h k : Nat)
  | attention (h k : Nat)
  | allReduce (h k : Nat)
  | collectiveTimeout (h k : Nat) (missing : List Nat)
  | resultAppend (h k : Nat)
  | atlrGo
  | eportWrite (h : Nat) (v : BitVec 64)
  -- replay, tiles, pre-emption
  | replayIteration (h : Nat)
  | doffEntry (h : Nat)
  | refusalDelayEnd (core slot : Nat)
  | yieldRequest (h : Nat)
  | quantumExpiry (h : Nat)
  | forcedSave (h : Nat)
  | contextRestore (i h : Nat)
  -- host and peers; a read asks for as many bytes as data has
  | hostLinkAccess (write : Bool) (pa : Nat) (data : List (BitVec 8))
  | peerAccess (peer : Nat) (write : Bool) (pa : Nat) (data : List (BitVec 8))
  -- queue processor and scheduler
  | queueSchedule (q : Nat)
  | packetNop (q : Nat)
  | packetLaunch (q : Nat)
  | packetFence (q : Nat)
  | packetSignal (q : Nat)
  | packetEdge (q : Nat)
  | packetModuleLoad (q : Nat)
  | packetModuleUnload (q : Nat)
  | cidAssign (seq : Nat)
  | leasingDone (seq : Nat)
  | hartPlacement (seq rank h : Nat)
  | launchEnd (seq : Nat)
  -- translation, ownership, migration, peers, partitions
  | shootdown (n : BitVec 32)
  | shootdownComplete
  | fownWrite (owner : BitVec 16) (frame : BitVec 36)
  | fownRead (frame : BitVec 36)
  | migrationStart (src : BitVec 36)
  | migrationLineCopy
  | peerLinkUp (peer : Nat)
  | peerLoss (peer : Nat)
  | partitionGroupWrite (core : Nat) (high : Bool) (v : BitVec 64)
  | phartWrite (core : Nat) (v : BitVec 64)
  | crownWrite (cluster : Nat) (v : BitVec 64)
  -- debug
  | step (h tag : Nat)
  | fjoirHalt (h tag : Nat)
  | resume (h tag : Nat)
  | rstep (h tag : Nat) (w : BitVec 32)
  | rdreg (h tag : Nat) (idx : Nat)
  | wrreg (h tag : Nat) (idx : Nat) (v : BitVec 64)
  | rdmem (tag pa : Nat)
  | wrmem (tag pa : Nat) (v : BitVec 64)
  | ltlWrite (h : Nat) (v : BitVec 64)
  | lctlLostClear (h : Nat)
  | counterLatch
  -- faults and repair
  | uncorrectableStateError (loc : StateLoc)
  | rpoisGo (frame : BitVec 36)
  | scrubRow (bank row : Nat) (lines bad corrected : List Nat)
  | sparesExhausted (bank : Nat)
  | watchdogExpiry (q : Nat)
  | coreRailLoss
  -- power and cooling; z is a zone, and a measured value comes with its event
  | powerCapStep (watts : BitVec 16)
  | railOvercurrent
  | throttleDown (z : Nat)
  | throttleUp (z : Nat)
  | sgateWrite (core : Nat) (v : BitVec 64)
  | bankWake (core bank : Nat)
  | wgateWrite (v : BitVec 16)
  | zminWrite (z : Nat) (v : BitVec 5)
  | ctrapClear (v : BitVec 4)
  | overTemperature (z : Nat) (temp : BitVec 12)
  | lowFlow (z : Nat) (flow : BitVec 10)
  | dryChannel (z : Nat)
  | pressureLoss (z : Nat) (kpa : BitVec 16)
  | evacValveClose (z : Nat)
  | evacPurge (z : Nat)
  | evacRefill (z : Nat)
  | evacCheck (z : Nat) (wet : Bool)
  | coldReset
  | firmwareUpdate (image : List (BitVec 8)) (complete : Bool)
  -- refused words, unassigned frames, packets that waited, expiries
  | illegalInstruction (w : BitVec 96)
  | fjoirUnassignedCode (code : BitVec 8) (tag : Nat)
  | packetFenceSatisfied (q : Nat)
  | packetEdgeTaken (q : Nat)
  | collectivePacket (h k rank : Nat) (failed : Bool) (data : List (BitVec 32))
  | refusalWindowExpiry (h : Nat)
  | lowFlowRecovery (z : Nat) (flow : BitVec 10)
  | valveRegulation (z : Nat) (valve : BitVec 8) (flow : BitVec 10)
deriving DecidableEq, Repr

end Sys2Proof
end

