-- ==== Sys2Proof/WellFormed.lean ====
section
/-! DEFINITION. Which terms of Instr are legal instruction words: operand classes (R23), modifiers (R24),
formats (R30), and the X fields of each instruction. A row that has no instruction word is not well formed. -/

namespace Sys2Proof

/-! ## Formats (R30, R45, R52) -/

/-- Format code FN[4:0] (R30). -/
def Fmt.code : Fmt → BitVec 5
  | .i8 => 0x00 | .i16 => 0x01 | .i32 => 0x02 | .i64 => 0x03
  | .n8 => 0x04 | .n16 => 0x05 | .n32 => 0x06 | .n64 => 0x07
  | .f32 => 0x08 | .f16 => 0x09 | .bf16 => 0x0A | .e4m3 => 0x0B | .e5m2 => 0x0C | .e2m1 => 0x0D | .vq2 => 0x0E
  | .i16x2 => 0x10 | .i8x4 => 0x11 | .f16x2 => 0x12 | .e4m3x4 => 0x13 | .e2m1x8 => 0x14

/-- The format of a code (R30). -/
def Fmt.ofCode (b : BitVec 5) : Option Fmt :=
  match b.toNat with
  | 0 => some .i8 | 1 => some .i16 | 2 => some .i32 | 3 => some .i64
  | 4 => some .n8 | 5 => some .n16 | 6 => some .n32 | 7 => some .n64
  | 8 => some .f32 | 9 => some .f16 | 10 => some .bf16 | 11 => some .e4m3 | 12 => some .e5m2
  | 13 => some .e2m1 | 14 => some .vq2
  | 16 => some .i16x2 | 17 => some .i8x4 | 18 => some .f16x2 | 19 => some .e4m3x4 | 20 => some .e2m1x8
  | _ => none

/-- Width in bits of one element (R42, R45, R52). -/
def Fmt.width : Fmt → Nat
  | .i8 | .n8 | .e4m3 | .e5m2 | .i8x4 | .e4m3x4 => 8
  | .i16 | .n16 | .f16 | .bf16 | .i16x2 | .f16x2 | .vq2 => 16
  | .i32 | .n32 | .f32 => 32
  | .i64 | .n64 => 64
  | .e2m1 | .e2m1x8 => 4

/-- Packing factor P (R52). -/
def Fmt.pack : Fmt → Nat
  | .i16x2 | .f16x2 => 2
  | .i8x4 | .e4m3x4 => 4
  | .e2m1x8 => 8
  | _ => 1

/-- Signed integer formats, the packed ones among them (R110). -/
def Fmt.signed : Fmt → Bool
  | .i8 | .i16 | .i32 | .i64 | .i16x2 | .i8x4 => true
  | _ => false

/-- Natural formats. -/
def Fmt.natural : Fmt → Bool
  | .n8 | .n16 | .n32 | .n64 => true
  | _ => false

/-- Integer formats. -/
def Fmt.isInt (f : Fmt) : Bool := f.signed || f.natural

/-- Floating-point formats, the packed ones among them (R45). -/
def Fmt.isFloat : Fmt → Bool
  | .f32 | .f16 | .bf16 | .e4m3 | .e5m2 | .e2m1 | .f16x2 | .e4m3x4 | .e2m1x8 => true
  | _ => false

/-- The formats of a scalar kind-T instruction (R75). -/
def Fmt.scalar : Fmt → Bool
  | .i8 | .i16 | .i32 | .i64 | .n8 | .n16 | .n32 | .n64 => true
  | _ => false

/-- The vector formats: all codes except .i64, .n64 and .vq2 (R114). -/
def Fmt.vector : Fmt → Bool
  | .i64 | .n64 | .vq2 => false
  | _ => true

/-- IA of R111. -/
def Fmt.ia : Fmt → Bool
  | .i8 | .i16 | .i32 | .n8 | .n16 | .n32 | .i16x2 | .i8x4 => true
  | _ => false

/-- FA of R118. -/
def Fmt.fa : Fmt → Bool
  | .f32 | .f16 | .bf16 | .f16x2 => true
  | _ => false

/-- Packed forms. -/
def Fmt.packed (f : Fmt) : Bool := f.pack ≠ 1

/-- Non-packed vector formats (R129, R202). -/
def Fmt.npv (f : Fmt) : Bool := f.vector && !f.packed

/-- The formats of a vector memory access (R202). -/
def Fmt.vmem (f : Fmt) : Bool := f.npv && decide (f ≠ .e2m1)

/-- The weight formats of setts and wfmt (R146). -/
def Fmt.weight : Fmt → Bool
  | .i8 | .f16 | .bf16 | .e4m3 | .e5m2 | .e2m1 | .vq2 => true
  | _ => false

/-- The destination formats of stochastic rounding (R57). -/
def Fmt.rsr : Fmt → Bool
  | .i8 | .n8 | .e4m3 | .e5m2 | .e2m1 | .i8x4 | .e4m3x4 | .e2m1x8 => true
  | _ => false

/-! ## Small fields -/

/-- Relation code (R31). -/
def Rel.code : Rel → BitVec 3
  | .eq => 0 | .ne => 1 | .lt => 2 | .ge => 3 | .le => 4 | .gt => 5

/-- The relation of a code; 110 and 111 are unassigned (R31). -/
def Rel.ofCode (b : BitVec 3) : Option Rel :=
  match b.toNat with
  | 0 => some .eq | 1 => some .ne | 2 => some .lt | 3 => some .ge | 4 => some .le | 5 => some .gt
  | _ => none

/-- Scope code (R32). -/
def Scope.code : Scope → BitVec 3
  | .hart => 0 | .core => 1 | .cluster => 2 | .device => 3 | .system => 4

/-- The scope of a code; 101 to 111 are unassigned (R32). -/
def Scope.ofCode (b : BitVec 3) : Option Scope :=
  match b.toNat with
  | 0 => some .hart | 1 => some .core | 2 => some .cluster | 3 => some .device | 4 => some .system
  | _ => none

/-- FN[2] is zero with eq and ne (R31). -/
def relOk (r : Rel) (nat : Bool) : Bool := !nat || (decide (r ≠ .eq) && decide (r ≠ .ne))

/-! ## Operand classes -/

namespace Operand

/-- The modifiers of an operand; none where the class has none. -/
def mods : Operand → Mods
  | .s _ m | .v _ m => m
  | _ => Mods.none

/-- Class 000. -/
def isS : Operand → Bool | .s _ _ => true | _ => false
/-- Class 001. -/
def isV : Operand → Bool | .v _ _ => true | _ => false
/-- q0 to q7. -/
def isQs : Operand → Bool | .q n => decide (n.toNat < 8) | _ => false
/-- q8 to q15. -/
def isQv : Operand → Bool | .q n => decide (8 ≤ n.toNat) | _ => false
/-- p0 to p7. -/
def isP : Operand → Bool | .pm n => decide (n.toNat < 8) | _ => false
/-- m0 to m7. -/
def isM : Operand → Bool | .pm n => decide (8 ≤ n.toNat) | _ => false
/-- a0 to a3. -/
def isAcc : Operand → Bool | .acc _ => true | _ => false
/-- cmd0 to cmd7. -/
def isCmd : Operand → Bool | .port n => decide (n.toNat < 8) | _ => false
/-- res0 to res7. -/
def isRes : Operand → Bool | .port n => decide (8 ≤ n.toNat) | _ => false
/-- A 14-bit immediate. -/
def isImm14 : Operand → Bool | .imm _ => true | _ => false
/-- An immediate of either width. -/
def isImm : Operand → Bool | .imm _ | .immW _ => true | _ => false
/-- Class 111. -/
def isNone : Operand → Bool | .none => true | _ => false
/-- s or q0 to q7. -/
def isSq (o : Operand) : Bool := o.isS || o.isQs
/-- The mark "vector" of R107. -/
def isVec (o : Operand) : Bool := o.isV || o.isQv
/-- The mark "scalar" of R107. -/
def isScal (o : Operand) : Bool := o.isS || o.isQs || o.isImm14
/-- No modifier at all. -/
def plain (o : Operand) : Bool := decide (o.mods = Mods.none)
/-- A swizzle and nothing else (R81, R84). -/
def swzOnly (o : Operand) : Bool := !o.mods.hs && !o.mods.neg && !o.mods.abs
/-- Modifiers of a scalar kind-T source (R24, R74). -/
def modsInt (f : Fmt) (o : Operand) : Bool :=
  !o.mods.hs && (f.signed || (!o.mods.neg && !o.mods.abs))
/-- Modifiers of a source (R24, R109): wd says whether the operation is widening, neg whether NEG and ABS are accepted. -/
def modsVec (wd neg : Bool) (o : Operand) : Bool :=
  (wd || !o.mods.hs) && (neg || (!o.mods.neg && !o.mods.abs))

end Operand

/-! ## Families -/

/-- X rules shared by OP 0x40 to 0x8F: a mask field without MK, and rounding codes (R53, R108). -/
def VX.base (x : VX) : Bool :=
  (x.msk || (decide (x.mn = 0) && !x.mz)) && decide (x.rm ≠ 5) && decide (x.rm ≠ 6)

/-- X of an instruction that uses only the mask. -/
def VX.maskOnly (x : VX) : Bool :=
  x.base && decide (x.rm = 0) && decide (x.aux = 0) && !x.wd && decide (x.sel = 0)

/-- X of an instruction that rounds, without stochastic rounding (R57). -/
def VX.round (x : VX) : Bool :=
  x.base && decide (x.rm ≠ 4) && decide (x.aux = 0) && decide (x.sel = 0)

/-- The relation held in AUX (R113). -/
def VX.rel (x : VX) : Option Rel :=
  if x.aux.extractLsb' 0 2 = 0 then Rel.ofCode (x.aux.extractLsb' 2 3) else none

/-- The source format held in AUX (R108). -/
def VX.sfmt (x : VX) : Option Fmt := Fmt.ofCode x.aux

/-- A kind-T scalar instruction of R76 and R77. -/
def sopsOk (satOk immOk : Bool) (o : SOps) : Bool :=
  o.fmt.scalar && (satOk || !o.sat) && o.d.isSq && o.d.plain && o.a.isSq && o.a.modsInt o.fmt
    && (o.b.isSq || (immOk && o.b.isImm)) && o.b.modsInt o.fmt

/-- A kind-T scalar instruction with one source (R78, R80). -/
def sops1Ok (fmts : Fmt → Bool) (o : SOps) : Bool :=
  fmts o.fmt && !o.sat && o.d.isSq && o.d.plain && o.a.isSq && o.a.modsInt o.fmt && o.b.isNone

/-- bfx and bfi (R79). -/
def bfOk (dOk : Operand → Bool) (o : SOps) (pos len1 : BitVec 6) : Bool :=
  (decide (o.fmt = .i32) || decide (o.fmt = .i64) || decide (o.fmt = .n32) || decide (o.fmt = .n64))
    && !o.sat && dOk o.d && o.d.plain && o.a.isSq && o.a.modsInt o.fmt && o.b.isNone
    && decide (pos.toNat + len1.toNat + 1 ≤ o.fmt.width)

/-- WD and modifiers of a two-source vector instruction (R109). -/
def wdOk (allowed : Bool) (o : VOps) : Bool :=
  !o.x.wd || (allowed && (decide (o.fmt = .i32) || decide (o.fmt = .n32) || decide (o.fmt = .f32))
    && o.a.isVec && o.b.isVec)

/-- Modifiers of the sources of a vector instruction read in format f. -/
def vmodsOk (f : Fmt) (o : VOps) : Bool :=
  o.d.plain && o.a.modsVec o.x.wd (f.signed || f.isFloat) && o.b.modsVec o.x.wd (f.signed || f.isFloat)

/-- A two-source elementwise instruction (R111, R119). -/
def v2Ok (fmts : Fmt → Bool) (satOk wd rnd dV : Bool) (o : VOps) : Bool :=
  fmts o.fmt && (satOk || !o.sat) && (if dV then o.d.isV else o.d.isVec) && o.a.isVec
    && (o.b.isVec || o.b.isScal) && vmodsOk o.fmt o && wdOk wd o
    && (if rnd then o.x.round else { o.x with wd := false }.maskOnly)

/-- A vector shift (R112): NEG and ABS of a scalar amount act on its signed 64-bit value, in every format (R24, R25). -/
def vshiftOk (satOk : Bool) (o : VOps) : Bool :=
  o.fmt.ia && (satOk || !o.sat) && o.d.isVec && o.a.isVec && (o.b.isVec || o.b.isScal) && o.d.plain
    && o.a.modsVec false o.fmt.signed && o.b.modsVec false (o.fmt.signed || o.b.isScal) && o.x.maskOnly

/-- A one-source elementwise instruction: D vector, A as given, B class 111. -/
def v1Ok (fmts aOk : Fmt → Operand → Bool) (rnd : Bool) (o : VOps) : Bool :=
  fmts o.fmt o.a && aOk o.fmt o.a && !o.sat && o.d.isVec && o.b.isNone && vmodsOk o.fmt o && !o.x.wd
    && (if rnd then o.x.round else o.x.maskOnly)

/-- A comparison into a mask (R113, R121). -/
def vcmpOk (fmts : Fmt → Bool) (o : VOps) : Bool :=
  fmts o.fmt && !o.sat && o.d.isM && o.a.isVec && (o.b.isVec || o.b.isScal) && vmodsOk o.fmt o
    && o.x.rel.isSome && { o.x with aux := 0 }.maskOnly

/-- The destination of a reduction (R124). -/
def Operand.isRedD (o : Operand) : Bool := (o.isS || o.isQs || o.isV) && o.plain

/-- The formats of vcvt (R129). -/
def cvtPair (d s : Fmt) : Bool :=
  (d.npv && s.npv)
    || (decide (d = .i16x2) && decide (s = .f16x2)) || (decide (d = .f16x2) && decide (s = .i16x2))
    || (decide (d = .i8x4) && decide (s = .e4m3x4)) || (decide (d = .e4m3x4) && decide (s = .i8x4))

/-- vcvt, vpack and vunpack: pair says which formats, rsr whether stochastic rounding is admitted
(R55, R57, R129 to R131). -/
def cvtOk (pair : Fmt → Fmt → Bool) (rsr : Bool) (o : VOps) : Bool :=
  match o.x.sfmt with
  | none => false
  | some sf => pair o.fmt sf && o.d.isVec && o.d.plain && o.a.isVec
      && o.a.modsVec false (sf.signed || sf.isFloat) && o.b.isNone && o.x.base
      && (decide (o.x.rm ≠ 4) || (rsr && o.fmt.rsr)) && !o.x.wd && decide (o.x.sel = 0)

/-- A vector load or store (R202). DEDUCED (log 120): no rule forbids a modifier on its sources, so SWZ is legal on each, a
store's data among them, and NEG and ABS on a signed stride and on indices read as signed. -/
def vmemOk (idx stride store : Bool) (o : VMOps) : Bool :=
  o.fmt.vmem && (if idx then o.b.isV else (o.b.isS || o.b.isImm14)) && o.b.modsVec false (stride || o.si)
    && (store || decide (o.dswz = 0))
    && (o.msk || (decide (o.mn = 0) && !o.mz)) && (!store || !o.mz) && (idx || (!o.sc && !o.si))

/-- The s or imm14 positions. -/
def Operand.isSi (o : Operand) : Bool := (o.isS || o.isImm14) && o.plain
/-- The s, q0 to q7 or imm14 positions. -/
def Operand.isSqi (o : Operand) : Bool := (o.isSq || o.isImm14) && o.plain
/-- The s or immediate of either width positions. -/
def Operand.isSii (o : Operand) : Bool := (o.isS || o.isImm) && o.plain
/-- The s, q0 to q7 or immediate of either width positions. -/
def Operand.isSqii (o : Operand) : Bool := (o.isSq || o.isImm) && o.plain
/-- A plain s or q0 to q7. -/
def Operand.isSqp (o : Operand) : Bool := o.isSq && o.plain

/-- Displacement bits 1:0 are zero (R87). -/
def dispOk {n : Nat} (d : BitVec n) : Bool := decide (d.extractLsb' 0 2 = 0)

/-! ## System register indices (R93) -/

/-- The indices this manual assigns; every other index is an illegal encoding (R93). -/
def srAssigned (i : BitVec 12) : Bool :=
  let n := i.toNat
  n ≤ 0x004 || (0x008 ≤ n && n ≤ 0x00C) || (0x100 ≤ n && n ≤ 0x104) || n == 0x110 || n == 0x111
    || n == 0x200 || (0x210 ≤ n && n ≤ 0x213) || n == 0x220
    || (0x400 ≤ n && n ≤ 0x408) || (0x410 ≤ n && n ≤ 0x412) || n == 0x414 || n == 0x420
    || (0x430 ≤ n && n ≤ 0x432) || n == 0x440 || n == 0x450 || n == 0x451
    || (0x460 ≤ n && n ≤ 0x462) || (0x464 ≤ n && n ≤ 0x466) || (0x468 ≤ n && n ≤ 0x46A)
    || (0x470 ≤ n && n ≤ 0x472) || n == 0x474 || (0x476 ≤ n && n ≤ 0x479)
    || n == 0x480 || n == 0x481 || n == 0x490 || n == 0x494
    || (0x800 ≤ n && n ≤ 0x803) || n == 0x809 || (0x840 ≤ n && n ≤ 0x843)
    || (0x880 ≤ n && n ≤ 0x886) || n == 0x888 || n == 0x891

/-- The assigned indices that no level may write: cid, pid, wcur, lpix, lpcause, lhd, lat, zmon, cpool. -/
def srReadOnly (i : BitVec 12) : Bool :=
  let n := i.toNat
  n == 0x00A || n == 0x00B || n == 0x00C || n == 0x110 || n == 0x111 || n == 0x212 || n == 0x410
    || n == 0x882 || n == 0x886

/-! ## The instruction -/

/-- Guard and hints of an instruction; none for a row that no word names. -/
def Instr.ctl? : Instr → Option Ctl
  | .nop c | .pad c | .br c _ | .brl c _ | .bc c _ _ _ _ _ | .dbnz c _ _ | .call c _ _ | .calll c _ _
  | .jcall c _ _ | .jr c _ | .ret c _ | .ifpf c _ _ _
  | .add c _ | .sub c _ | .addi c _ _ | .mul c _ | .mulh c _ | .div c _ | .rem c _ | .min c _ | .max c _
  | .and c _ | .or c _ | .xor c _ | .andn c _ | .shl c _ | .shr c _ | .sra c _ | .rot c _ | .clz c _
  | .ctz c _ | .popc c _ | .bfx c _ _ _ | .bfi c _ _ _ | .sext c _ | .zext c _
  | .li c _ _ | .lih c _ _ | .mov c _ _ | .lea c _ _ _ _ _ | .cmp c _ _ _ _ _ | .sel c _ _ _ _ _
  | .pand c _ _ _ | .por c _ _ _ | .pxor c _ _ _ | .pnot c _ _ | .getsr c _ _ | .putsr c _ _
  | .ld c _ _ _ _ | .st c _ _ _ _ | .ldAq c _ _ _ _ _ | .stRl c _ _ _ _ _ | .ldx c _ _ _ _ _ | .prf c _ _
  | .vadd c _ | .vsub c _ | .vmul c _ | .vmulh c _ | .vmadd c _ | .vmin c _ | .vmax c _ | .vabsd c _
  | .vavg c _ | .vand c _ | .vor c _ | .vxor c _ | .vandn c _ | .vshl c _ | .vshr c _ | .vsra c _
  | .vcmp c _ | .vsel c _ | .vmov c _ | .vbcast c _ | .vid c _ | .vclz c _ | .vpopc c _ | .vdot4 c _
  | .vfadd c _ | .vfsub c _ | .vfmul c _ | .vfma c _ | .vfmin c _ | .vfmax c _ | .vfcmp c _ | .vfdiv c _
  | .vfsqrt c _ | .vfrcp c _ | .vfrsq c _ | .vfexp2 c _ | .vflog2 c _ | .vfscl c _ | .vfrnd c _
  | .vxch c _ | .vperm c _ | .vslide c _ | .vcompress c _ | .vexpand c _ | .vred c _ | .vredsc c _
  | .vdot c _ | .vcvt c _ | .vpack c _ | .vunpack c _
  | .mand c _ _ _ | .mor c _ _ _ | .mnot c _ _ | .mpopc c _ _ _ | .mfirst c _ _ _
  | .vld c _ | .vlds c _ | .vldx c _ | .vst c _ | .vsts c _ | .vstx c _ | .vldq c _ _ _ _ | .vstq c _ _ _ _
  | .vbind c _ _ _ _ _ | .vunbind c _ | .stmap c _ _ _ _ | .stwb c _ _ | .stdrop c _ _
  | .setts c _ _ _ _ | .wfmt c _ _ _ | .wload c _ _ _ _ | .mscale c _ _ _ _ | .mzero c _ | .maccLd c _ _ _
  | .mova c _ _ _ _ _ _ | .mma c _ _ _ _ _ | .mwait c _ | .mstat c _ _
  | .amo c _ _ _ _ _ _ _ | .vamo c _ _ _ _ _ _ _ _ _ _ | .barInit c _ _ | .barArrive c _ _ _
  | .barExpect c _ _ | .barWait c _ _ | .barTest c _ _ | .semTas c _ | .semClr c _ | .crLd c _ _
  | .crSt c _ _ | .fnc c _ _ | .wait c _ _ _ _ _ _ _
  | .push c _ _ _ | .pop c _ _ | .peek c _ _ | .qlen c _ _ | .cpwp c _ _ _ | .zloop c _ _ | .lnch c _ _
  | .ipurge c _ _ | .setvl c _ _ _ | .vfetch c _ _ | .vpret c | .farmNext c _ _ _
  | .lprec c _ _ _ _ _ _ _ _ _ | .lpend c | .lpjoin c | .treqFixed c _ | .treqNeg c _ _ | .treqPool c _ _ _
  | .trel c _ | .doffretFinished c | .doffretSummarised c | .doffretRefused c | .yield c
  | .trap c _ | .tret c | .ecall c _ | .halt c | .sync c | .brk c _ | .wmark c _ | .tsc c _ | .cnt c _ _ => some c
  | _ => none

/-- The memory instructions of R21. -/
def Instr.isMem : Instr → Bool
  | .ld .. | .st .. | .ldAq .. | .stRl .. | .ldx .. | .prf .. | .vld .. | .vlds .. | .vldx .. | .vst ..
  | .vsts .. | .vstx .. | .vldq .. | .vstq .. | .vbind .. | .vunbind .. | .stmap .. | .stwb .. | .stdrop ..
  | .amo .. | .vamo .. => true
  | _ => false

/-- The loop mark's fields (R309). -/
def lprecOk (d : BitVec 6) (a : Option (BitVec 6)) (len : BitVec 14) (nc : BitVec 2)
    (k0 k1 k2 k3 tr : BitVec 3) : Bool :=
  decide (d ≠ 0) && decide (1 ≤ len.toNat) && decide (len.toNat ≤ 1024) && decide (tr ≠ 1)
    && decide (k0 ≠ 7) && decide (k1 ≠ 7) && decide (k2 ≠ 7) && decide (k3 ≠ 7)
    && (decide (1 ≤ nc.toNat) || decide (k1 = 0)) && (decide (2 ≤ nc.toNat) || decide (k2 = 0))
    && (decide (3 ≤ nc.toNat) || decide (k3 = 0))
    && (match a with
        | none => decide (nc = 0) && decide (k0 = 0)
        | some r => decide (r ≠ 0) && decide (r.toNat + nc.toNat ≤ 63))

/-- The fields of an instruction beside its guard are legal. DEDUCED (log 120): jr, ret and jcall (R90), ifpf (R91), vldq and
vstq (R206), vbind (R207) and wait (R268) forbid no modifier, so SWZ is legal on each of their sources, and NEG and ABS on the
comparison value of a signed wait (R24). -/
def Instr.formOk : Instr → Bool
  | .nop _ | .pad _ => true
  | .br _ d => dispOk d
  | .brl _ d => dispOk d
  | .bc _ r n _ b d => relOk r n && b.isSi && dispOk d
  | .dbnz _ d disp => decide (d ≠ 0) && dispOk disp
  | .call _ _ d => dispOk d
  | .calll _ _ d => dispOk d
  | .jcall .. | .jr .. | .ret .. => true
  | .ifpf _ l _ b => decide (l ≠ 0) && (b.isS || b.isImm) && b.swzOnly
  | .add _ o | .sub _ o | .mul _ o | .div _ o | .shl _ o => sopsOk true true o
  | .mulh _ o | .rem _ o | .min _ o | .max _ o | .and _ o | .or _ o | .xor _ o | .andn _ o
  | .shr _ o | .sra _ o | .rot _ o => sopsOk false true o
  | .addi _ o _ =>
      o.fmt.scalar && o.d.isSq && o.d.plain && o.a.isSq && o.a.modsInt o.fmt
        && (o.b.isSq || o.b.isNone) && o.b.modsInt o.fmt
  | .clz _ o | .ctz _ o | .popc _ o => sops1Ok Fmt.scalar o
  | .bfx _ o p l => bfOk Operand.isSq o p l
  | .bfi _ o p l => bfOk Operand.isS o p l
  | .sext _ o => sops1Ok (fun f => decide (f = .i8) || decide (f = .i16) || decide (f = .i32)) o
  | .zext _ o => sops1Ok (fun f => decide (f = .n8) || decide (f = .n16) || decide (f = .n32)) o
  | .li _ d b => d.isSqp && b.isImm
  | .lih _ _ b => b.isImm
  | .mov _ d a => (d.isSq || d.isP) && d.plain && (a.isSq || a.isP) && a.swzOnly
  | .lea _ _ _ b _ _ => b.isSi
  | .cmp _ r n _ _ b => relOk r n && b.isSii
  | .sel _ d a b _ _ => d.isSqp && a.isSq && a.swzOnly && (b.isSq || b.isImm14) && b.swzOnly
  | .pand .. | .por .. | .pxor .. | .pnot .. => true
  | .getsr _ d i => d.isSqp && srAssigned i
  | .putsr _ i a => a.isSqp && srAssigned i && !srReadOnly i
  | .ld _ f d _ b | .st _ f d _ b => f.scalar && d.isSqp && b.isSii
  | .ldAq _ f _ d _ b | .stRl _ f _ d _ b => f.scalar && d.isSqp && b.isSi
  | .ldx _ f d _ _ _ => f.scalar && d.isSqp
  | .prf _ _ b => b.isSi
  | .vadd _ o | .vsub _ o | .vabsd _ o => v2Ok Fmt.ia true false false false o
  | .vmul _ o => v2Ok Fmt.ia true true false false o
  | .vmulh _ o => v2Ok Fmt.ia false true false false o
  | .vmadd _ o => v2Ok Fmt.ia true true false true o
  | .vmin _ o | .vmax _ o | .vavg _ o | .vand _ o | .vor _ o | .vxor _ o | .vandn _ o =>
      v2Ok Fmt.ia false false false false o
  | .vshr _ o | .vsra _ o => vshiftOk false o
  | .vshl _ o => vshiftOk true o
  | .vcmp _ o => vcmpOk Fmt.ia o
  | .vsel _ o => v2Ok Fmt.vector false false false false o && o.x.msk && !o.x.mz
  | .vmov _ o => v1Ok (fun f _ => f.vector) (fun _ a => a.isVec) false o
  | .vbcast _ o => v1Ok (fun f _ => f.vector) (fun _ a => a.isScal) false o
  | .vid _ o => v1Ok (fun f _ => f.ia) (fun _ a => a.isNone) false o && !o.x.msk
  | .vclz _ o | .vpopc _ o => v1Ok (fun f _ => f.ia) (fun _ a => a.isVec) false o
  | .vdot4 _ o => v2Ok (fun f => decide (f = .i8x4)) true false false true o
  | .vfadd _ o | .vfsub _ o | .vfdiv _ o => v2Ok Fmt.fa false false true false o && !o.x.wd
  -- R119 gives class 111 in B to vfsqrt alone, so vfrnd carries a B that it does not use. DEDUCED (log 20), safe
  | .vfscl _ o | .vfrnd _ o => v2Ok Fmt.fa false false true false o && !o.x.wd
  | .vfmul _ o => v2Ok Fmt.fa false true true false o
  | .vfma _ o => v2Ok Fmt.fa false true true true o
  | .vfmin _ o | .vfmax _ o => v2Ok Fmt.fa false false false false o
  | .vfcmp _ o => vcmpOk Fmt.fa o
  | .vfsqrt _ o => v1Ok (fun f _ => f.fa) (fun _ a => a.isVec) true o
  | .vfrcp _ o | .vfrsq _ o | .vfexp2 _ o | .vflog2 _ o => v1Ok (fun f _ => f.fa) (fun _ a => a.isVec) false o
  | .vxch _ o =>
      v1Ok (fun f _ => f.vector) (fun _ a => a.isVec) false { o with x := { o.x with sel := 0 } }
        && decide (o.x.sel.toNat ≤ 12)
  | .vperm _ o =>
      o.fmt.vector && !o.sat && o.d.isVec && o.a.isVec && o.b.isVec && o.x.maskOnly && vmodsOk o.fmt o
        && o.b.modsVec false false
  | .vslide _ o =>
      o.fmt.vector && !o.sat && o.d.isVec && o.a.isVec && o.b.isScal && o.x.maskOnly && o.d.plain
        && o.a.modsVec false (o.fmt.signed || o.fmt.isFloat) && o.b.modsVec false true
  | .vcompress _ o | .vexpand _ o =>
      v1Ok (fun f _ => f.vector) (fun _ a => a.isVec) false o && o.x.msk && (o.x.mz || o.d.isV)
  | .vred _ o =>
      (o.fmt.ia || o.fmt.fa) && (!o.sat || (o.fmt.ia && decide (o.x.sel = 0))) && o.d.isRedD && o.a.isVec
        && o.b.isNone && vmodsOk o.fmt o && o.x.base && !o.x.mz && decide (o.x.aux = 0) && !o.x.wd
        && decide (o.x.sel.toNat ≤ (if o.fmt.fa then 2 else 5)) && decide (o.x.rm ≠ 4)
        && (decide (o.x.rm = 0) || (o.fmt.fa && decide (o.x.sel = 0)))
  | .vredsc _ o =>
      o.fmt.fa && !o.sat && o.d.isRedD && o.a.isVec && o.b.isV && vmodsOk o.fmt o
        && o.b.modsVec false false && o.x.round && !o.x.mz && !o.x.wd
  | .vdot _ o =>
      o.fmt.fa && !o.sat && o.d.isRedD && o.a.isVec && o.b.isVec && vmodsOk o.fmt o && o.x.round && !o.x.mz && !o.x.wd
  | .vcvt _ o => cvtOk cvtPair true o
  | .vpack _ o => cvtOk (fun d s => d.packed && s.npv) true o
  | .vunpack _ o => cvtOk (fun d s => d.npv && s.packed) false o
  | .mand .. | .mor .. | .mnot .. => true
  | .mpopc _ d _ x | .mfirst _ d _ x =>
      d.isSqp && x.base && !x.mz && decide (x.rm = 0) && decide (x.aux = 0) && !x.wd && decide (x.sel.toNat < 4)
  | .vld _ o => vmemOk false false false o
  | .vlds _ o => vmemOk false true false o
  | .vldx _ o => vmemOk true false false o
  | .vst _ o => vmemOk false false true o
  | .vsts _ o => vmemOk false true true o
  | .vstx _ o => vmemOk true false true o
  | .vldq _ f _ _ b | .vstq _ f _ _ b => f.vmem && (b.isS || b.isImm14) && b.swzOnly
  | .vbind _ f sc dir _ _ => f.vmem && (!sc || (!dir && (decide (f = .e4m3) || decide (f = .e5m2))))
  | .vunbind .. => true
  | .stmap _ _ _ _ b | .stwb _ _ b | .stdrop _ _ b => b.isSi
  | .setts _ wf m n k => wf.weight && m.isSi && n.isSi && k.isSi
  | .wfmt _ wf _ a => wf.weight && (if wf = .vq2 then a.isS && a.plain else a.isNone)
  | .wload _ _ _ b _ => b.isSi
  | .mscale _ _ _ b _ => b.isSi
  | .mzero .. | .maccLd .. => true
  | .mova _ f sat _ _ rm _ =>
      (decide (f = .i32) || decide (f = .f32) || decide (f = .f16) || decide (f = .bf16))
        && (!sat || decide (f = .f16) || decide (f = .bf16))
        && decide (rm ≠ 4) && decide (rm ≠ 5) && decide (rm ≠ 6) && (decide (f ≠ .f32) || decide (rm = 7))
  | .mma _ f _ _ b _ => f.weight && decide (f ≠ .vq2) && b.isSi
  | .mwait .. => true
  | .mstat _ d _ => d.isSqp
  | .amo _ op _ f d _ b _ =>
      (decide (f = .i32) || decide (f = .i64) || decide (f = .n32) || decide (f = .n64))
        && d.isSqp && (decide (op ≠ 7) || d.isS) && b.isSqi
  | .vamo _ op _ f _ _ _ mk mn _ _ =>
      (decide (f = .i32) || decide (f = .n32) || (decide (f = .f32) && decide (op.toNat ≤ 2)))
        && decide (op.toNat ≤ 5) && (mk || decide (mn = 0))
  | .barInit _ a b => a.isSqi && b.isSii
  | .barArrive _ d a b => d.isSqp && a.isSqi && (b.isSii || b.isNone)
  | .barExpect _ a b => a.isSqi && (b.isSii || b.isNone)
  | .barWait _ a b => a.isSqi && b.isSqi
  | .barTest _ d a => d.isSqp && a.isSqi
  | .semTas _ a | .semClr _ a => a.isSi
  | .crLd _ d a => d.isSqp && a.isSi
  | .crSt _ a b => a.isSi && b.isSqii
  | .fnc .. => true
  | .wait _ r n d _ b _ _ => relOk r n && d.isSqp && (b.isSq || b.isImm14) && b.modsVec false (!n)
  | .push _ d _ b | .cpwp _ d _ b => d.isSqp && b.isSqii
  | .pop _ d _ | .peek _ d _ | .qlen _ d _ => d.isSqp
  | .zloop .. => true
  | .lnch _ d _ => d.isSqp
  | .ipurge _ _ b => b.isSii
  | .setvl _ f d b => f.vector && d.isSqp && b.isSqii
  | .vfetch _ _ d => dispOk d
  | .vpret _ => true
  | .farmNext _ d _ _ => decide (d ≠ 0)
  | .lprec _ d a len nc k0 k1 k2 k3 tr => lprecOk d a len nc k0 k1 k2 k3 tr
  | .lpend _ | .lpjoin _ | .treqFixed .. | .trel .. => true
  | .treqNeg _ _ d | .treqPool _ _ _ d => dispOk d
  | .doffretFinished _ | .doffretSummarised _ | .doffretRefused _ | .yield _ => true
  | .trap _ b | .ecall _ b => b.isSii
  | .tret _ | .halt _ | .sync _ => true
  | .brk _ b => b.isImm14 || b.isNone
  | .wmark _ d | .tsc _ d => d.isSqp
  | .cnt _ d a => d.isSqp && a.isSqi
  | _ => false

/-- The guard is not the negation of p0 (R18), and bit 71 is a hint in a memory instruction only (R21). -/
def Ctl.ok (mem : Bool) (c : Ctl) : Bool := !(c.neg && decide (c.p = 0)) && (mem || !c.chl)

/-- A legal instruction word (R35). -/
def Instr.wf (i : Instr) : Bool :=
  match i.ctl? with
  | some c => c.ok i.isMem && i.formOk
  | none => false

end Sys2Proof
end

