-- ==== Sys2Proof/Decode.lean ====
section
/-! DEFINITION. The decoder (R14 to R37), total on any bytes and refusing by name, and the encoder. The
decoder reads the fields of the word into a candidate term and accepts it only if the term is well formed
and its own encoding is the whole word, so no bit of a word is silently ignored (R37). -/

namespace Sys2Proof

/-! ## Fields of a word (R17, R22) -/

/-- Modifier bits 8:3 of an operand field (R22). -/
def Mods.bits (m : Mods) : BitVec 6 :=
  BitVec.ofBool m.hs ++ m.swz ++ BitVec.ofBool m.neg ++ BitVec.ofBool m.abs

/-- Modifiers read from an operand field. -/
def Mods.ofField (f : BitVec 18) : Mods :=
  ⟨f.getLsbD 8, f.extractLsb' 5 3, f.getLsbD 4, f.getLsbD 3⟩

/-- The 18-bit field of an operand (R22, R23, R27). -/
def Operand.field : Operand → BitVec 18
  | .s n m => 0#3 ++ n ++ m.bits ++ 0#3
  | .v n m => 1#3 ++ 0#1 ++ n ++ m.bits ++ 0#3
  | .q n => 2#3 ++ 0#2 ++ n ++ 0#9
  | .pm n => 3#3 ++ 0#2 ++ n ++ 0#9
  | .acc n => 4#3 ++ 0#4 ++ n ++ 0#9
  | .port n => 5#3 ++ 0#2 ++ n ++ 0#9
  | .imm i => 6#3 ++ 0#1 ++ i
  | .immW i => 6#3 ++ 1#1 ++ i.extractLsb' 18 14
  | .none => 7#3 ++ 0#15

/-- The X field that a 32-bit immediate in B fills (R27); zero otherwise. -/
def Operand.xlow : Operand → BitVec 18
  | .immW i => i.extractLsb' 0 18
  | _ => 0

/-- The operand of a field; x holds the low bits of a 32-bit immediate. -/
def Operand.ofField (f x : BitVec 18) : Operand :=
  match (f.extractLsb' 15 3).toNat with
  | 0 => .s (f.extractLsb' 9 6) (Mods.ofField f)
  | 1 => .v (f.extractLsb' 9 5) (Mods.ofField f)
  | 2 => .q (f.extractLsb' 9 4)
  | 3 => .pm (f.extractLsb' 9 4)
  | 4 => .acc (f.extractLsb' 9 2)
  | 5 => .port (f.extractLsb' 9 4)
  | 6 => if f.getLsbD 14 then .immW (f.extractLsb' 0 14 ++ x) else .imm (f.extractLsb' 0 14)
  | _ => .none

/-- A word from its fields (R17); bit 71 is or-ed with CH's low bit, which only a memory instruction has. -/
def mkWord (op : BitVec 8) (fn : BitVec 6) (c : Ctl) (d a b x : BitVec 18) : IWord :=
  op ++ fn ++ BitVec.ofBool c.neg ++ c.p ++ c.h ++ (d ||| (BitVec.ofBool c.chl ++ 0#17)) ++ a ++ b ++ x

/-- The guard and hints of a word. -/
def ctlOf (mem : Bool) (w : IWord) : Ctl :=
  ⟨w.getLsbD 81, w.extractLsb' 78 3, w.extractLsb' 72 6, mem && w.getLsbD 71⟩

/-- A class-111 field. -/
def noneField : BitVec 18 := 0x38000#18
/-- A scalar register field without modifiers. -/
def sField (n : BitVec 6) : BitVec 18 := 0#3 ++ n ++ 0#9
/-- The field of a scalar source and its swizzle. -/
def srcField (a : SSrc) : BitVec 18 := 0#3 ++ a.n ++ 0#1 ++ a.swz ++ 0#5
/-- A vector register field with a swizzle and no other modifier. -/
def vsField (n : BitVec 5) (swz : BitVec 3) : BitVec 18 := 1#3 ++ 0#1 ++ n ++ 0#1 ++ swz ++ 0#5
/-- A vector register field without modifiers. -/
def vField (n : BitVec 5) : BitVec 18 := 1#3 ++ 0#1 ++ n ++ 0#9
/-- A vector queue register field, q8 to q15. -/
def qField (n : BitVec 3) : BitVec 18 := 2#3 ++ 1#3 ++ n ++ 0#9
/-- A predicate field. -/
def pField (n : BitVec 3) : BitVec 18 := 3#3 ++ 0#3 ++ n ++ 0#9
/-- A mask field. -/
def mField (n : BitVec 3) : BitVec 18 := 3#3 ++ 1#3 ++ n ++ 0#9
/-- An accumulator field. -/
def accField (n : BitVec 2) : BitVec 18 := 4#3 ++ 0#4 ++ n ++ 0#9
/-- A command port field, cmd0 to cmd7. -/
def cmdField (k : BitVec 3) : BitVec 18 := 5#3 ++ 0#3 ++ k ++ 0#9
/-- A result port field, res0 to res7. -/
def resField (k : BitVec 3) : BitVec 18 := 5#3 ++ 1#3 ++ k ++ 0#9

/-- FN of kind T (R30). -/
def fnT (f : Fmt) (sat : Bool) : BitVec 6 := BitVec.ofBool sat ++ f.code
/-- FN of kind C (R31). -/
def fnC (r : Rel) (nat : Bool) : BitVec 6 := r.code ++ BitVec.ofBool nat ++ 0#2
/-- FN of an atomic (R32). -/
def fnA (op : BitVec 3) (sc : Scope) : BitVec 6 := op ++ sc.code

/-- X of a vector instruction (R108). -/
def VX.bits (x : VX) : BitVec 18 :=
  BitVec.ofBool x.msk ++ x.mn ++ BitVec.ofBool x.mz ++ x.rm ++ x.aux ++ BitVec.ofBool x.wd ++ x.sel

/-- X of a vector instruction, read. -/
def VX.ofBits (x : BitVec 18) : VX :=
  ⟨x.getLsbD 17, x.extractLsb' 14 3, x.getLsbD 13, x.extractLsb' 10 3, x.extractLsb' 5 5, x.getLsbD 4,
    x.extractLsb' 0 4⟩

/-! ## The encoder -/

/-- A kind-T scalar instruction (R76). -/
def encS (op : BitVec 8) (c : Ctl) (o : SOps) : IWord :=
  mkWord op (fnT o.fmt o.sat) c o.d.field o.a.field o.b.field o.b.xlow
/-- A kind-T scalar instruction with its own X. -/
def encSX (op : BitVec 8) (c : Ctl) (o : SOps) (x : BitVec 18) : IWord :=
  mkWord op (fnT o.fmt o.sat) c o.d.field o.a.field o.b.field x
/-- A vector instruction (R108). -/
def encV (op : BitVec 8) (c : Ctl) (o : VOps) : IWord :=
  mkWord op (fnT o.fmt o.sat) c o.d.field o.a.field o.b.field o.x.bits
/-- A vector load or store (R202). -/
def encVM (op : BitVec 8) (c : Ctl) (o : VMOps) : IWord :=
  mkWord op (fnT o.fmt false) c (vsField o.d o.dswz) (srcField o.a) o.b.field
    (BitVec.ofBool o.msk ++ o.mn ++ BitVec.ofBool o.mz ++ BitVec.ofBool o.sc ++ BitVec.ofBool o.si ++ 0#11)
/-- FN zero, three operand fields, X zero or the low bits of a 32-bit immediate. -/
def enc3 (op : BitVec 8) (c : Ctl) (d a : BitVec 18) (b : Operand) : IWord :=
  mkWord op 0 c d a b.field b.xlow
/-- FN zero, three raw operand fields and X. -/
def encZ (op : BitVec 8) (c : Ctl) (d a b x : BitVec 18) : IWord := mkWord op 0 c d a b x

/-- The words of a well-formed instruction (R14, R17); zero for a row that has none. -/
def encode : Instr → IWord
  | .nop c => mkWord 0x00 0x00 c noneField noneField noneField 0
  | .pad c => mkWord 0x00 0x3F c noneField noneField noneField 0
  | .br c d => enc3 0x01 c noneField noneField (.immW d)
  | .brl c d => 0x02#8 ++ 0#6 ++ BitVec.ofBool c.neg ++ c.p ++ c.h ++ d ++ 0#8
  | .bc c r n a b d =>
      mkWord 0x03 (fnC r n) c (d.extractLsb' 18 18) (sField a) b.field (d.extractLsb' 0 18)
  | .dbnz c d disp => enc3 0x04 c (sField d) noneField (.immW disp)
  | .call c d disp => enc3 0x05 c (sField d) noneField (.immW disp)
  | .calll c l d => 0x06#8 ++ 0#6 ++ BitVec.ofBool c.neg ++ c.p ++ c.h ++ d ++ l ++ 0#2
  | .jcall c d a => encZ 0x07 c (sField d) (srcField a) noneField 0
  | .jr c a => encZ 0x08 c noneField (srcField a) noneField 0
  | .ret c a => encZ 0x09 c noneField (srcField a) noneField 0
  | .ifpf c l a b => mkWord 0x0A (0#4 ++ l) c noneField (srcField a) b.field b.xlow
  | .add c o => encS 0x10 c o
  | .sub c o => encS 0x11 c o
  | .addi c o i => encSX 0x12 c o i
  | .mul c o => encS 0x13 c o
  | .mulh c o => encS 0x14 c o
  | .div c o => encS 0x15 c o
  | .rem c o => encS 0x16 c o
  | .min c o => encS 0x17 c o
  | .max c o => encS 0x18 c o
  | .and c o => encS 0x19 c o
  | .or c o => encS 0x1A c o
  | .xor c o => encS 0x1B c o
  | .andn c o => encS 0x1C c o
  | .shl c o => encS 0x1D c o
  | .shr c o => encS 0x1E c o
  | .sra c o => encS 0x1F c o
  | .rot c o => encS 0x20 c o
  | .clz c o => encS 0x21 c o
  | .ctz c o => encS 0x22 c o
  | .popc c o => encS 0x23 c o
  | .bfx c o p l => encSX 0x24 c o (p ++ l ++ 0#6)
  | .bfi c o p l => encSX 0x25 c o (p ++ l ++ 0#6)
  | .sext c o => encS 0x26 c o
  | .zext c o => encS 0x27 c o
  | .li c d b => enc3 0x28 c d.field noneField b
  | .lih c d b => enc3 0x29 c (sField d) noneField b
  | .mov c d a => encZ 0x2A c d.field a.field noneField 0
  | .lea c d a b sh disp => encZ 0x2B c (sField d) (sField a) b.field (sh ++ disp)
  | .cmp c r n d a b => mkWord 0x2C (fnC r n) c (pField d) (sField a) b.field b.xlow
  | .sel c d a b pneg pn => encZ 0x2D c d.field a.field b.field (BitVec.ofBool pneg ++ pn ++ 0#14)
  | .pand c d a b => mkWord 0x2E 0 c (pField d) (pField a) (pField b) 0
  | .por c d a b => mkWord 0x2E 1 c (pField d) (pField a) (pField b) 0
  | .pxor c d a b => mkWord 0x2E 2 c (pField d) (pField a) (pField b) 0
  | .pnot c d a => mkWord 0x2E 3 c (pField d) (pField a) noneField 0
  | .getsr c d i => mkWord 0x2F 0 c d.field noneField noneField (0#6 ++ i)
  | .putsr c i a => mkWord 0x2F 1 c noneField a.field noneField (0#6 ++ i)
  | .ld c f d a b => mkWord 0x30 (fnT f false) c d.field (sField a) b.field b.xlow
  | .st c f d a b => mkWord 0x31 (fnT f false) c d.field (sField a) b.field b.xlow
  | .ldAq c f sc d a b => mkWord 0x32 (fnT f false) c d.field (sField a) b.field (sc.code ++ 0#15)
  | .stRl c f sc d a b => mkWord 0x33 (fnT f false) c d.field (sField a) b.field (sc.code ++ 0#15)
  | .ldx c f d a b disp => mkWord 0x34 (fnT f false) c d.field (sField a) (sField b) disp
  | .prf c a b => encZ 0x35 c 0 (sField a) b.field 0
  | .vadd c o => encV 0x40 c o
  | .vsub c o => encV 0x41 c o
  | .vmul c o => encV 0x42 c o
  | .vmulh c o => encV 0x43 c o
  | .vmadd c o => encV 0x44 c o
  | .vmin c o => encV 0x45 c o
  | .vmax c o => encV 0x46 c o
  | .vabsd c o => encV 0x47 c o
  | .vavg c o => encV 0x48 c o
  | .vand c o => encV 0x49 c o
  | .vor c o => encV 0x4A c o
  | .vxor c o => encV 0x4B c o
  | .vandn c o => encV 0x4C c o
  | .vshl c o => encV 0x4D c o
  | .vshr c o => encV 0x4E c o
  | .vsra c o => encV 0x4F c o
  | .vcmp c o => encV 0x50 c o
  | .vsel c o => encV 0x51 c o
  | .vmov c o => encV 0x52 c o
  | .vbcast c o => encV 0x53 c o
  | .vid c o => encV 0x54 c o
  | .vclz c o => encV 0x55 c o
  | .vpopc c o => encV 0x56 c o
  | .vdot4 c o => encV 0x57 c o
  | .vfadd c o => encV 0x60 c o
  | .vfsub c o => encV 0x61 c o
  | .vfmul c o => encV 0x62 c o
  | .vfma c o => encV 0x63 c o
  | .vfmin c o => encV 0x64 c o
  | .vfmax c o => encV 0x65 c o
  | .vfcmp c o => encV 0x66 c o
  | .vfdiv c o => encV 0x67 c o
  | .vfsqrt c o => encV 0x68 c o
  | .vfrcp c o => encV 0x69 c o
  | .vfrsq c o => encV 0x6A c o
  | .vfexp2 c o => encV 0x6B c o
  | .vflog2 c o => encV 0x6C c o
  | .vfscl c o => encV 0x6D c o
  | .vfrnd c o => encV 0x6E c o
  | .vxch c o => encV 0x80 c o
  | .vperm c o => encV 0x81 c o
  | .vslide c o => encV 0x82 c o
  | .vcompress c o => encV 0x83 c o
  | .vexpand c o => encV 0x84 c o
  | .vred c o => encV 0x85 c o
  | .vredsc c o => encV 0x86 c o
  | .vdot c o => encV 0x87 c o
  | .vcvt c o => encV 0x88 c o
  | .vpack c o => encV 0x89 c o
  | .vunpack c o => encV 0x8A c o
  | .mand c d a b => encZ 0x8B c (mField d) (mField a) (mField b) 0
  | .mor c d a b => encZ 0x8C c (mField d) (mField a) (mField b) 0
  | .mnot c d a => encZ 0x8D c (mField d) (mField a) noneField 0
  | .mpopc c d a x => encZ 0x8E c d.field (mField a) noneField x.bits
  | .mfirst c d a x => encZ 0x8F c d.field (mField a) noneField x.bits
  | .vld c o => encVM 0x90 c o
  | .vlds c o => encVM 0x91 c o
  | .vldx c o => encVM 0x92 c o
  | .vst c o => encVM 0x93 c o
  | .vsts c o => encVM 0x94 c o
  | .vstx c o => encVM 0x95 c o
  | .vldq c f q a b => mkWord 0x96 (fnT f false) c (qField q) (srcField a) b.field 0
  | .vstq c f q a b => mkWord 0x97 (fnT f false) c (qField q) (srcField a) b.field 0
  | .vbind c f sc dir q a =>
      mkWord 0x98 (fnT f false) c (qField q) (srcField a) noneField (0#16 ++ BitVec.ofBool sc ++ BitVec.ofBool dir)
  | .vunbind c q => encZ 0x99 c (qField q) noneField noneField 0
  | .stmap c slot soff a b => encZ 0x9A c 0 (sField a) b.field (slot ++ soff ++ 0#6)
  | .stwb c a b => encZ 0x9B c 0 (sField a) b.field 0
  | .stdrop c a b => encZ 0x9C c 0 (sField a) b.field 0
  | .setts c wf m n k => encZ 0xA0 c m.field n.field k.field (0#13 ++ wf.code)
  | .wfmt c wf acc a => mkWord 0xA1 (fnT wf false) c (accField acc) a.field noneField 0
  | .wload c acc a b kofs => encZ 0xA2 c (accField acc) (sField a) b.field (kofs ++ 0#6)
  | .mscale c ofB a b count =>
      encZ 0xA3 c noneField (sField a) b.field (count ++ 0#5 ++ BitVec.ofBool ofB)
  | .mzero c acc => encZ 0xA4 c (accField acc) noneField noneField 0
  | .maccLd c acc v row0 => encZ 0xA5 c (accField acc) (vField v) noneField (0#12 ++ row0)
  | .mova c f sat v acc rm row0 =>
      mkWord 0xA6 (fnT f sat) c (vField v) (accField acc) noneField (rm ++ 0#9 ++ row0)
  | .mma c f acc a b kofs => mkWord 0xA7 (fnT f false) c (accField acc) (sField a) b.field (kofs ++ 0#6)
  | .mwait c acc =>
      encZ 0xA8 c (match acc with | some n => accField n | none => noneField) noneField noneField 0
  | .mstat c d acc => encZ 0xA9 c d.field (accField acc) noneField 0
  | .amo c op sc f d a b disp => mkWord 0xB0 (fnA op sc) c d.field (sField a) b.field (f.code ++ disp)
  | .vamo c op sc f d a b mk mn scaled si =>
      mkWord 0xB1 (fnA op sc) c (vField d) (sField a) (vField b)
        (BitVec.ofBool mk ++ mn ++ BitVec.ofBool scaled ++ BitVec.ofBool si ++ f.code ++ 0#7)
  | .barInit c a b => enc3 0xB2 c noneField a.field b
  | .barArrive c d a b => enc3 0xB3 c d.field a.field b
  | .barExpect c a b => enc3 0xB4 c noneField a.field b
  | .barWait c a b => enc3 0xB5 c noneField a.field b
  | .barTest c d a => encZ 0xB6 c d.field a.field noneField 0
  | .semTas c a => encZ 0xB7 c noneField a.field noneField 0
  | .semClr c a => encZ 0xB8 c noneField a.field noneField 0
  | .crLd c d a => encZ 0xB9 c d.field a.field noneField 0
  | .crSt c a b => enc3 0xBA c noneField a.field b
  | .fnc c dir sc => mkWord 0xBB (0#1 ++ dir ++ sc.code) c noneField noneField noneField 0
  | .wait c r n d a b sc w32 =>
      mkWord 0xBC (fnC r n) c d.field (srcField a) b.field (sc.code ++ BitVec.ofBool w32 ++ 0#14)
  | .push c d k b => enc3 0xC0 c d.field (cmdField k) b
  | .pop c d k => encZ 0xC1 c d.field (resField k) noneField 0
  | .peek c d k => encZ 0xC2 c d.field (resField k) noneField 0
  | .qlen c d port => encZ 0xC3 c d.field (Operand.port port).field noneField 0
  | .cpwp c d k b => enc3 0xC4 c d.field (cmdField k) b
  | .zloop c a len1 => encZ 0xC5 c noneField (sField a) noneField (len1 ++ 0#14)
  | .lnch c d a => encZ 0xC6 c d.field (sField a) noneField 0
  | .ipurge c a b => enc3 0xC7 c noneField (sField a) b
  | .setvl c f d b => mkWord 0xD0 (fnT f false) c d.field noneField b.field b.xlow
  | .vfetch c m disp =>
      enc3 0xD1 c (match m with | some n => mField n | none => noneField) noneField (.immW disp)
  | .vpret c => encZ 0xD2 c noneField noneField noneField 0
  | .farmNext c d m v => encZ 0xD3 c (sField d) (mField m) (vField v) 0
  | .lprec c d a len nc k0 k1 k2 k3 tr =>
      encZ 0xD4 c (sField d) (match a with | some r => sField r | none => noneField) (Operand.imm len).field
        (nc ++ k0 ++ k1 ++ k2 ++ k3 ++ tr ++ 0#1)
  | .lpend c => encZ 0xD5 c noneField noneField noneField 0
  | .lpjoin c => encZ 0xD6 c noneField noneField noneField 0
  | .treqFixed c n => mkWord 0xD7 0 c (accField n) noneField noneField 0
  | .treqNeg c n disp => mkWord 0xD7 1 c (accField n) noneField (Operand.immW disp).field (Operand.immW disp).xlow
  | .treqPool c n a disp =>
      mkWord 0xD7 2 c (accField n) (sField a) (Operand.immW disp).field (Operand.immW disp).xlow
  | .trel c n => encZ 0xD8 c (accField n) noneField noneField 0
  | .doffretFinished c => mkWord 0xD9 0 c noneField noneField noneField 0
  | .doffretSummarised c => mkWord 0xD9 1 c noneField noneField noneField 0
  | .doffretRefused c => mkWord 0xD9 2 c noneField noneField noneField 0
  | .yield c => encZ 0xDA c noneField noneField noneField 0
  | .trap c b => enc3 0xE0 c noneField noneField b
  | .tret c => encZ 0xE1 c noneField noneField noneField 0
  | .ecall c b => enc3 0xE2 c noneField noneField b
  | .halt c => encZ 0xE3 c noneField noneField noneField 0
  | .sync c => encZ 0xE4 c noneField noneField noneField 0
  | .brk c b => encZ 0xE5 c noneField noneField b.field 0
  | .wmark c d => encZ 0xE6 c d.field noneField noneField 0
  | .tsc c d => encZ 0xE7 c d.field noneField noneField 0
  | .cnt c d a => encZ 0xE8 c d.field a.field noneField 0
  | _ => 0

/-! ## The decoder -/

/-- The fields of a word that the candidates are read from. -/
structure Fields where
  op : Nat
  fn : BitVec 6
  d  : BitVec 18
  a  : BitVec 18
  b  : BitVec 18
  x  : BitVec 18
deriving DecidableEq, Repr

/-- Split a word (R17); D's top bit reads as zero in a memory instruction (R21). -/
def Fields.ofWord (mem : Bool) (w : IWord) : Fields :=
  ⟨(w.extractLsb' 88 8).toNat, w.extractLsb' 82 6,
    if mem then w.extractLsb' 54 18 &&& 0x1FFFF#18 else w.extractLsb' 54 18,
    w.extractLsb' 36 18, w.extractLsb' 18 18, w.extractLsb' 0 18⟩

namespace Fields

/-- Operand D. -/
def dO (f : Fields) : Operand := Operand.ofField f.d f.x
/-- Operand A. -/
def aO (f : Fields) : Operand := Operand.ofField f.a f.x
/-- Operand B. -/
def bO (f : Fields) : Operand := Operand.ofField f.b f.x
/-- D's number. -/
def dN (f : Fields) : BitVec 6 := f.d.extractLsb' 9 6
/-- A's number. -/
def aN (f : Fields) : BitVec 6 := f.a.extractLsb' 9 6
/-- A as a scalar source with its swizzle. -/
def aS (f : Fields) : SSrc := ⟨f.aN, f.a.extractLsb' 5 3⟩
/-- B's number. -/
def bN (f : Fields) : BitVec 6 := f.b.extractLsb' 9 6
/-- D's number as a vector register. -/
def dV (f : Fields) : BitVec 5 := f.d.extractLsb' 9 5
/-- A's number as a vector register. -/
def aV (f : Fields) : BitVec 5 := f.a.extractLsb' 9 5
/-- B's number as a vector register. -/
def bV (f : Fields) : BitVec 5 := f.b.extractLsb' 9 5
/-- D's number modulo 8. -/
def dM (f : Fields) : BitVec 3 := f.d.extractLsb' 9 3
/-- A's number modulo 8. -/
def aM (f : Fields) : BitVec 3 := f.a.extractLsb' 9 3
/-- B's number modulo 8. -/
def bM (f : Fields) : BitVec 3 := f.b.extractLsb' 9 3
/-- D's number as an accumulator. -/
def dT (f : Fields) : BitVec 2 := f.d.extractLsb' 9 2
/-- A's number as an accumulator. -/
def aT (f : Fields) : BitVec 2 := f.a.extractLsb' 9 2
/-- The 32-bit immediate {B[13:0], X} (R27). -/
def i32 (f : Fields) : BitVec 32 := f.b.extractLsb' 0 14 ++ f.x

/-- A kind-T scalar instruction. -/
def s (f : Fields) : Option SOps :=
  (Fmt.ofCode (f.fn.extractLsb' 0 5)).map fun fmt => ⟨fmt, f.fn.getLsbD 5, f.dO, f.aO, f.bO⟩
/-- A vector instruction. -/
def v (f : Fields) : Option VOps :=
  (Fmt.ofCode (f.fn.extractLsb' 0 5)).map fun fmt => ⟨fmt, f.fn.getLsbD 5, f.dO, f.aO, f.bO, VX.ofBits f.x⟩
/-- A vector load or store. -/
def vm (f : Fields) : Option VMOps :=
  (Fmt.ofCode (f.fn.extractLsb' 0 5)).map fun fmt =>
    ⟨fmt, f.dV, f.d.extractLsb' 5 3, f.aS, f.bO, f.x.getLsbD 17, f.x.extractLsb' 14 3, f.x.getLsbD 13, f.x.getLsbD 12, f.x.getLsbD 11⟩
/-- The format of FN. -/
def fmt (f : Fields) : Option Fmt := Fmt.ofCode (f.fn.extractLsb' 0 5)
/-- The relation of FN. -/
def rel (f : Fields) : Option Rel := Rel.ofCode (f.fn.extractLsb' 3 3)
/-- FN[2]. -/
def nat (f : Fields) : Bool := f.fn.getLsbD 2
/-- The scope code in FN[2:0]. -/
def fscope (f : Fields) : Option Scope := Scope.ofCode (f.fn.extractLsb' 0 3)
/-- The scope code in X[17:15]. -/
def xscope (f : Fields) : Option Scope := Scope.ofCode (f.x.extractLsb' 15 3)

end Fields

/-- OP 0x00 to 0x0F (R29). -/
def candControl (c : Ctl) (w : IWord) (f : Fields) : Option Instr :=
  match f.op with
  | 0x00 => if f.fn = 0x3F then some (.pad c) else some (.nop c)
  | 0x01 => some (.br c f.i32)
  | 0x02 => some (.brl c (w.extractLsb' 8 64))
  | 0x03 => f.rel.map fun r => .bc c r f.nat f.aN f.bO (f.d ++ f.x)
  | 0x04 => some (.dbnz c f.dN f.i32)
  | 0x05 => some (.call c f.dN f.i32)
  | 0x06 => some (.calll c (w.extractLsb' 2 6) (w.extractLsb' 8 64))
  | 0x07 => some (.jcall c f.dN f.aS)
  | 0x08 => some (.jr c f.aS)
  | 0x09 => some (.ret c f.aS)
  | 0x0A => some (.ifpf c (f.fn.extractLsb' 0 2) f.aS f.bO)
  | _ => none

/-- OP 0x10 to 0x1F (R76, R77). -/
def candArith (c : Ctl) (f : Fields) : Option Instr :=
  match f.op with
  | 0x10 => f.s.map (.add c)
  | 0x11 => f.s.map (.sub c)
  | 0x12 => f.s.map fun o => .addi c o f.x
  | 0x13 => f.s.map (.mul c)
  | 0x14 => f.s.map (.mulh c)
  | 0x15 => f.s.map (.div c)
  | 0x16 => f.s.map (.rem c)
  | 0x17 => f.s.map (.min c)
  | 0x18 => f.s.map (.max c)
  | 0x19 => f.s.map (.and c)
  | 0x1A => f.s.map (.or c)
  | 0x1B => f.s.map (.xor c)
  | 0x1C => f.s.map (.andn c)
  | 0x1D => f.s.map (.shl c)
  | 0x1E => f.s.map (.shr c)
  | 0x1F => f.s.map (.sra c)
  | _ => none

/-- OP 0x20 to 0x2F (R77 to R85, R92). -/
def candMoves (c : Ctl) (f : Fields) : Option Instr :=
  match f.op with
  | 0x20 => f.s.map (.rot c)
  | 0x21 => f.s.map (.clz c)
  | 0x22 => f.s.map (.ctz c)
  | 0x23 => f.s.map (.popc c)
  | 0x24 => f.s.map fun o => .bfx c o (f.x.extractLsb' 12 6) (f.x.extractLsb' 6 6)
  | 0x25 => f.s.map fun o => .bfi c o (f.x.extractLsb' 12 6) (f.x.extractLsb' 6 6)
  | 0x26 => f.s.map (.sext c)
  | 0x27 => f.s.map (.zext c)
  | 0x28 => some (.li c f.dO f.bO)
  | 0x29 => some (.lih c f.dN f.bO)
  | 0x2A => some (.mov c f.dO f.aO)
  | 0x2B => some (.lea c f.dN f.aN f.bO (f.x.extractLsb' 15 3) (f.x.extractLsb' 0 15))
  | 0x2C => f.rel.map fun r => .cmp c r f.nat f.dM f.aN f.bO
  | 0x2D => some (.sel c f.dO f.aO f.bO (f.x.getLsbD 17) (f.x.extractLsb' 14 3))
  | 0x2E =>
      match f.fn.toNat with
      | 0 => some (.pand c f.dM f.aM f.bM)
      | 1 => some (.por c f.dM f.aM f.bM)
      | 2 => some (.pxor c f.dM f.aM f.bM)
      | 3 => some (.pnot c f.dM f.aM)
      | _ => none
  | 0x2F =>
      match f.fn.toNat with
      | 0 => some (.getsr c f.dO (f.x.extractLsb' 0 12))
      | 1 => some (.putsr c (f.x.extractLsb' 0 12) f.aO)
      | _ => none
  | _ => none

/-- OP 0x30 to 0x3F (R199). -/
def candMem (c : Ctl) (f : Fields) : Option Instr :=
  match f.op with
  | 0x30 => f.fmt.map fun t => .ld c t f.dO f.aN f.bO
  | 0x31 => f.fmt.map fun t => .st c t f.dO f.aN f.bO
  | 0x32 => f.fmt.bind fun t => f.xscope.map fun sc => .ldAq c t sc f.dO f.aN f.bO
  | 0x33 => f.fmt.bind fun t => f.xscope.map fun sc => .stRl c t sc f.dO f.aN f.bO
  | 0x34 => f.fmt.map fun t => .ldx c t f.dO f.aN f.bN f.x
  | 0x35 => some (.prf c f.aN f.bO)
  | _ => none

/-- OP 0x40 to 0x5F (R111 to R117). -/
def candVInt (c : Ctl) (f : Fields) : Option Instr :=
  match f.op with
  | 0x40 => f.v.map (.vadd c)
  | 0x41 => f.v.map (.vsub c)
  | 0x42 => f.v.map (.vmul c)
  | 0x43 => f.v.map (.vmulh c)
  | 0x44 => f.v.map (.vmadd c)
  | 0x45 => f.v.map (.vmin c)
  | 0x46 => f.v.map (.vmax c)
  | 0x47 => f.v.map (.vabsd c)
  | 0x48 => f.v.map (.vavg c)
  | 0x49 => f.v.map (.vand c)
  | 0x4A => f.v.map (.vor c)
  | 0x4B => f.v.map (.vxor c)
  | 0x4C => f.v.map (.vandn c)
  | 0x4D => f.v.map (.vshl c)
  | 0x4E => f.v.map (.vshr c)
  | 0x4F => f.v.map (.vsra c)
  | 0x50 => f.v.map (.vcmp c)
  | 0x51 => f.v.map (.vsel c)
  | 0x52 => f.v.map (.vmov c)
  | 0x53 => f.v.map (.vbcast c)
  | 0x54 => f.v.map (.vid c)
  | 0x55 => f.v.map (.vclz c)
  | 0x56 => f.v.map (.vpopc c)
  | 0x57 => f.v.map (.vdot4 c)
  | _ => none

/-- OP 0x60 to 0x7F (R118 to R122). -/
def candVFloat (c : Ctl) (f : Fields) : Option Instr :=
  match f.op with
  | 0x60 => f.v.map (.vfadd c)
  | 0x61 => f.v.map (.vfsub c)
  | 0x62 => f.v.map (.vfmul c)
  | 0x63 => f.v.map (.vfma c)
  | 0x64 => f.v.map (.vfmin c)
  | 0x65 => f.v.map (.vfmax c)
  | 0x66 => f.v.map (.vfcmp c)
  | 0x67 => f.v.map (.vfdiv c)
  | 0x68 => f.v.map (.vfsqrt c)
  | 0x69 => f.v.map (.vfrcp c)
  | 0x6A => f.v.map (.vfrsq c)
  | 0x6B => f.v.map (.vfexp2 c)
  | 0x6C => f.v.map (.vflog2 c)
  | 0x6D => f.v.map (.vfscl c)
  | 0x6E => f.v.map (.vfrnd c)
  | _ => none

/-- OP 0x80 to 0x8F (R123 to R133). -/
def candVPerm (c : Ctl) (f : Fields) : Option Instr :=
  match f.op with
  | 0x80 => f.v.map (.vxch c)
  | 0x81 => f.v.map (.vperm c)
  | 0x82 => f.v.map (.vslide c)
  | 0x83 => f.v.map (.vcompress c)
  | 0x84 => f.v.map (.vexpand c)
  | 0x85 => f.v.map (.vred c)
  | 0x86 => f.v.map (.vredsc c)
  | 0x87 => f.v.map (.vdot c)
  | 0x88 => f.v.map (.vcvt c)
  | 0x89 => f.v.map (.vpack c)
  | 0x8A => f.v.map (.vunpack c)
  | 0x8B => some (.mand c f.dM f.aM f.bM)
  | 0x8C => some (.mor c f.dM f.aM f.bM)
  | 0x8D => some (.mnot c f.dM f.aM)
  | 0x8E => some (.mpopc c f.dO f.aM (VX.ofBits f.x))
  | 0x8F => some (.mfirst c f.dO f.aM (VX.ofBits f.x))
  | _ => none

/-- OP 0x90 to 0x9F (R202 to R214). -/
def candVMem (c : Ctl) (f : Fields) : Option Instr :=
  match f.op with
  | 0x90 => f.vm.map (.vld c)
  | 0x91 => f.vm.map (.vlds c)
  | 0x92 => f.vm.map (.vldx c)
  | 0x93 => f.vm.map (.vst c)
  | 0x94 => f.vm.map (.vsts c)
  | 0x95 => f.vm.map (.vstx c)
  | 0x96 => f.fmt.map fun t => .vldq c t f.dM f.aS f.bO
  | 0x97 => f.fmt.map fun t => .vstq c t f.dM f.aS f.bO
  | 0x98 => f.fmt.map fun t => .vbind c t (f.x.getLsbD 1) (f.x.getLsbD 0) f.dM f.aS
  | 0x99 => some (.vunbind c f.dM)
  | 0x9A => some (.stmap c (f.x.extractLsb' 13 5) (f.x.extractLsb' 6 7) f.aN f.bO)
  | 0x9B => some (.stwb c f.aN f.bO)
  | 0x9C => some (.stdrop c f.aN f.bO)
  | _ => none

/-- OP 0xA0 to 0xAF (R146). -/
def candMatrix (c : Ctl) (f : Fields) : Option Instr :=
  match f.op with
  | 0xA0 => (Fmt.ofCode (f.x.extractLsb' 0 5)).map fun t => .setts c t f.dO f.aO f.bO
  | 0xA1 => f.fmt.map fun t => .wfmt c t f.dT f.aO
  | 0xA2 => some (.wload c f.dT f.aN f.bO (f.x.extractLsb' 6 12))
  | 0xA3 => some (.mscale c (f.x.getLsbD 0) f.aN f.bO (f.x.extractLsb' 6 12))
  | 0xA4 => some (.mzero c f.dT)
  | 0xA5 => some (.maccLd c f.dT f.aV (f.x.extractLsb' 0 6))
  | 0xA6 => f.fmt.map fun t => .mova c t (f.fn.getLsbD 5) f.dV f.aT (f.x.extractLsb' 15 3) (f.x.extractLsb' 0 6)
  | 0xA7 => f.fmt.map fun t => .mma c t f.dT f.aN f.bO (f.x.extractLsb' 6 12)
  | 0xA8 => some (.mwait c (if f.d = noneField then none else some f.dT))
  | 0xA9 => some (.mstat c f.dO f.aT)
  | _ => none

/-- OP 0xB0 to 0xBF (R251 to R268). -/
def candSync (c : Ctl) (f : Fields) : Option Instr :=
  match f.op with
  | 0xB0 => (Fmt.ofCode (f.x.extractLsb' 13 5)).bind fun t => f.fscope.map fun sc =>
      .amo c (f.fn.extractLsb' 3 3) sc t f.dO f.aN f.bO (f.x.extractLsb' 0 13)
  | 0xB1 => (Fmt.ofCode (f.x.extractLsb' 7 5)).bind fun t => f.fscope.map fun sc =>
      .vamo c (f.fn.extractLsb' 3 3) sc t f.dV f.aN f.bV (f.x.getLsbD 17) (f.x.extractLsb' 14 3)
        (f.x.getLsbD 13) (f.x.getLsbD 12)
  | 0xB2 => some (.barInit c f.aO f.bO)
  | 0xB3 => some (.barArrive c f.dO f.aO f.bO)
  | 0xB4 => some (.barExpect c f.aO f.bO)
  | 0xB5 => some (.barWait c f.aO f.bO)
  | 0xB6 => some (.barTest c f.dO f.aO)
  | 0xB7 => some (.semTas c f.aO)
  | 0xB8 => some (.semClr c f.aO)
  | 0xB9 => some (.crLd c f.dO f.aO)
  | 0xBA => some (.crSt c f.aO f.bO)
  | 0xBB => f.fscope.map fun sc => .fnc c (f.fn.extractLsb' 3 2) sc
  | 0xBC => f.rel.bind fun r => f.xscope.map fun sc => .wait c r f.nat f.dO f.aS f.bO sc (f.x.getLsbD 14)
  | _ => none

/-- OP 0xC0 to 0xCF (R279, R284, R374, R379). -/
def candPort (c : Ctl) (f : Fields) : Option Instr :=
  match f.op with
  | 0xC0 => some (.push c f.dO f.aM f.bO)
  | 0xC1 => some (.pop c f.dO f.aM)
  | 0xC2 => some (.peek c f.dO f.aM)
  | 0xC3 => some (.qlen c f.dO (f.a.extractLsb' 9 4))
  | 0xC4 => some (.cpwp c f.dO f.aM f.bO)
  | 0xC5 => some (.zloop c f.aN (f.x.extractLsb' 14 4))
  | 0xC6 => some (.lnch c f.dO f.aN)
  | 0xC7 => some (.ipurge c f.aN f.bO)
  | _ => none

/-- OP 0xD0 to 0xDF (R165, R174, R180, R309, R333, R400). -/
def candHart (c : Ctl) (f : Fields) : Option Instr :=
  match f.op with
  | 0xD0 => f.fmt.map fun t => .setvl c t f.dO f.bO
  | 0xD1 => some (.vfetch c (if f.d = noneField then none else some f.dM) f.i32)
  | 0xD2 => some (.vpret c)
  | 0xD3 => some (.farmNext c f.dN f.aM f.bV)
  | 0xD4 => some (.lprec c f.dN (if f.a = noneField then none else some f.aN) (f.b.extractLsb' 0 14)
      (f.x.extractLsb' 16 2) (f.x.extractLsb' 13 3) (f.x.extractLsb' 10 3) (f.x.extractLsb' 7 3)
      (f.x.extractLsb' 4 3) (f.x.extractLsb' 1 3))
  | 0xD5 => some (.lpend c)
  | 0xD6 => some (.lpjoin c)
  | 0xD7 =>
      match f.fn.toNat with
      | 0 => some (.treqFixed c f.dT)
      | 1 => some (.treqNeg c f.dT f.i32)
      | 2 => some (.treqPool c f.dT f.aN f.i32)
      | _ => none
  | 0xD8 => some (.trel c f.dT)
  | 0xD9 =>
      match f.fn.toNat with
      | 0 => some (.doffretFinished c)
      | 1 => some (.doffretSummarised c)
      | 2 => some (.doffretRefused c)
      | _ => none
  | 0xDA => some (.yield c)
  | _ => none

/-- OP 0xE0 to 0xEF (R400, R418). -/
def candTrap (c : Ctl) (f : Fields) : Option Instr :=
  match f.op with
  | 0xE0 => some (.trap c f.bO)
  | 0xE1 => some (.tret c)
  | 0xE2 => some (.ecall c f.bO)
  | 0xE3 => some (.halt c)
  | 0xE4 => some (.sync c)
  | 0xE5 => some (.brk c f.bO)
  | 0xE6 => some (.wmark c f.dO)
  | 0xE7 => some (.tsc c f.dO)
  | 0xE8 => some (.cnt c f.dO f.aO)
  | _ => none

/-- OPs of the memory instructions (R21). -/
def memOp (op : Nat) : Bool :=
  (0x30 ≤ op && op ≤ 0x3F) || (0x90 ≤ op && op ≤ 0x9F) || op == 0xB0 || op == 0xB1

/-- The one term that the fields of a word of a given OP can stand for; none for an unassigned OP or FN (R29). -/
def candidateOf (op : Nat) (c : Ctl) (w : IWord) (f : Fields) : Option Instr :=
  match op / 16 with
  | 0x0 => candControl c w f
  | 0x1 => candArith c f
  | 0x2 => candMoves c f
  | 0x3 => candMem c f
  | 0x4 | 0x5 => candVInt c f
  | 0x6 | 0x7 => candVFloat c f
  | 0x8 => candVPerm c f
  | 0x9 => candVMem c f
  | 0xA => candMatrix c f
  | 0xB => candSync c f
  | 0xC => candPort c f
  | 0xD => candHart c f
  | 0xE => candTrap c f
  | _ => none

/-- The one term that a word can stand for, its fields not checked. -/
def candidate (w : IWord) : Option Instr :=
  let op := (w.extractLsb' 88 8).toNat
  candidateOf op (ctlOf (memOp op) w) w (Fields.ofWord (memOp op) w)

/-- Why bytes are no instruction (R35). -/
inductive DecodeError where
  | short
  | guard
  | unassigned
  | operands
  | reservedBits
deriving DecidableEq, Repr

/-- Decode a 96-bit word (R35, R36). -/
def decode (w : IWord) : Except DecodeError Instr :=
  if w.extractLsb' 78 4 = 8#4 then .error .guard
  else match candidate w with
    | none => .error .unassigned
    | some i =>
        if !i.wf then .error .operands
        else if encode i ≠ w then .error .reservedBits
        else .ok i

/-- The little-endian number of a list of bytes. -/
def leNat : List Byte → Nat
  | [] => 0
  | b :: bs => b.toNat + 256 * leNat bs

/-- The n low bytes of a number, lowest first. -/
def leBytes : Nat → Nat → List Byte
  | 0, _ => []
  | n + 1, v => BitVec.ofNat 8 v :: leBytes n (v / 256)

/-- Decode the first 12 of the bytes: word 0 lowest, each word little-endian (R14). -/
def decodeBytes (bs : List Byte) : Except DecodeError (Instr × List Byte) :=
  if bs.length < instrBytes then .error .short
  else match decode (BitVec.ofNat 96 (leNat (bs.take instrBytes))) with
    | .ok i => .ok (i, bs.drop instrBytes)
    | .error e => .error e

/-- The bytes of a word in memory order (R14). -/
def wordBytes (w : IWord) : List Byte := leBytes instrBytes w.toNat

/-- What the decoder reads from an instruction whose bits are w, bit 0 the least significant bit of word 0. -/
def decodeTableWord (nbits w : Nat) : Option Instr :=
  match decodeBytes (wordBytes (BitVec.ofNat 96 (w % 2 ^ nbits))) with
  | .ok (i, _) => some i
  | .error _ => none

end Sys2Proof
end

