-- ==== Sys2Proof/Config.lean ====
section
/-! DEFINITION. What the package fixes (R2, R5, R185, R171, R276) and the values the manual leaves
open: a free value is an opaque constant with no body, so nothing can be proved of it. -/

namespace Sys2Proof.Config

/-- Harts of one core (R161). -/
def hartsPerCore : Nat := 8
/-- Cores of one cluster (R2, R193). -/
def coresPerCluster : Nat := 96
/-- Cores of one compute die (R2). -/
def coresPerDie : Nat := 192
/-- Cores of the package (R2). -/
def cores : Nat := 1536
/-- Lane groups of one core (R162). -/
def laneGroups : Nat := 16
/-- Element positions of one lane group (R163). -/
def positionsPerGroup : Nat := 64
/-- Entries of a scalar queue register (R171). -/
def scalarQueueDepth : Nat := 16
/-- Entries of a vector queue register (R171). -/
def vectorQueueDepth : Nat := 4
/-- Instructions of the vector command queue (R170). -/
def commandQueueDepth : Nat := 64
/-- Words of a command port (R276). -/
def commandPortWords : Nat := 32
/-- Result elements of a result port (R276). -/
def resultPortElements : Nat := 16
/-- Bytes of a core's stash (R2). -/
def stashBytes : Nat := 524288
/-- Ticks of a refusal delay (R338). -/
def refusalDelay : Nat := 250000
/-- Ticks in which refusals count (R341). -/
def refusalWindow : Nat := 1000000

/-- A byte the manual leaves open, drawn with a counter of State (log 14). -/
opaque freeByte : Nat → BitVec 8

/-- A word the manual leaves open, drawn with a counter of State (log 15). -/
opaque freeWord : Nat → BitVec 64

/-- The bank of a pseudo-channel and the row that hold a line, from the bits of its address that select neither its stack
nor its pseudo-channel: the manual does not say (log 21). -/
opaque bankRow : Nat → Nat

/-- The stash bank that holds a line: the manual does not say (log 30). -/
opaque bankOf : Nat → BitVec 6

end Sys2Proof.Config
end

