-- ==== Sys2Proof/Machine/Table.lean ====
section
/-! DEFINITION. Sparse tables: lists of (key, value) with keys rising and no entry equal to the default,
so that equal contents are equal data. Memory, registers, masks, cores and every other numbered thing of
State is one of these. -/

namespace Sys2Proof.Machine

/-- The value at a key; the default where the key is not listed. -/
def tget {α : Type} (d : α) : List (Nat × α) → Nat → α
  | [], _ => d
  | (k', v) :: t, k => if k' = k then v else tget d t k

/-- Insert before the first greater key. -/
def tins {α : Type} (k : Nat) (v : α) : List (Nat × α) → List (Nat × α)
  | [] => [(k, v)]
  | (k', v') :: t => if k < k' then (k, v) :: (k', v') :: t else (k', v') :: tins k v t

/-- Remove a key. -/
def tdel {α : Type} (k : Nat) : List (Nat × α) → List (Nat × α)
  | [] => []
  | (k', v') :: t => if k' = k then tdel k t else (k', v') :: tdel k t

/-- Set a key; the default value is not listed. -/
def tset {α : Type} [DecidableEq α] (d : α) (l : List (Nat × α)) (k : Nat) (v : α) : List (Nat × α) :=
  if v = d then tdel k l else tins k v (tdel k l)

/-- Keys rise strictly and no value is the default. -/
def twf {α : Type} [DecidableEq α] (d : α) : List (Nat × α) → Bool
  | [] => true
  | [(_, v)] => decide (v ≠ d)
  | (k, v) :: (k', v') :: t => decide (v ≠ d) && decide (k < k') && twf d ((k', v') :: t)

/-- Set the keys from k upwards to the values of a list. -/
def tsets {α : Type} [DecidableEq α] (d : α) (l : List (Nat × α)) (k : Nat) : List α → List (Nat × α)
  | [] => l
  | v :: vs => tsets d (tset d l k v) (k + 1) vs

/-- The n values from key k upwards. -/
def tgets {α : Type} (d : α) (l : List (Nat × α)) (k n : Nat) : List α :=
  (List.range n).map fun i => tget d l (k + i)

/-- Values by rising keys from a table whose keys are not below the first. -/
def tdenseFrom {α : Type} (d : α) : Nat → Nat → List (Nat × α) → List α
  | 0, _, _ => []
  | n + 1, k, [] => d :: tdenseFrom d n (k + 1) []
  | n + 1, k, (k', v) :: t =>
      if k' = k then v :: tdenseFrom d n (k + 1) t else d :: tdenseFrom d n (k + 1) ((k', v) :: t)

/-- The n values from key k upwards, in one pass over the table. -/
def tdense {α : Type} (d : α) (l : List (Nat × α)) (k n : Nat) : List α :=
  tdenseFrom d n k (l.filter fun p => k ≤ p.1)

/-- The entries below a key. -/
def tbelow {α : Type} (n : Nat) (l : List (Nat × α)) : List (Nat × α) :=
  l.filter fun p => p.1 < n

/-- Replace every entry from key k to k + vs.length - 1 at once, in one pass over the table. -/
def tfill {α : Type} [DecidableEq α] (d : α) (l : List (Nat × α)) (k : Nat) (vs : List α) : List (Nat × α) :=
  (l.filter fun p => p.1 < k) ++ ((vs.mapIdx fun i v => (k + i, v)).filter fun p => decide (p.2 ≠ d))
    ++ (l.filter fun p => k + vs.length ≤ p.1)

/-- The entries of the keys from k to k + n - 1. -/
def tslice {α : Type} (l : List (Nat × α)) (k n : Nat) : List (Nat × α) :=
  l.filter fun p => decide (k ≤ p.1) && decide (p.1 < k + n)

end Sys2Proof.Machine
end

