-- ==== Sys2Proof/Machine/State.lean ====
section
/-! DEFINITION. The whole package as plain data: every register and every piece of state that the spec
names (INVENTORY.md, '## State'), the reasons a step can stop, and the state after a cold reset. -/

namespace Sys2Proof.Machine

/-! ## Why a step stops -/

/-- Raised by step alone. -/
inductive Fault where
  /-- Raised by step when it is the turn of a hart slot that is empty or in debug halt, which executes nothing until an input
  arrives (R403, R416). Safe: no claim about a next state is made. -/
  | idle
  /-- Raised by step in the quiesced package (R433), which executes nothing until a cold reset. Safe. -/
  | quiesced
deriving DecidableEq, Repr

/-- Raised by exec for an instruction without a meaning. -/
inductive Refusal where
  /-- No meaning yet. Safe: no claim about a next state is made. -/
  | notModelled (mnemonic : String)
deriving DecidableEq, Repr

/-! ## Causes and levels -/

/-- Privilege levels (R4). -/
inductive Level where
  | user | supervisor | management
deriving DecidableEq, Repr

/-- Trap causes (R395). -/
inductive Cause where
  | illegal | privilege | misalignedTarget | fetch | vectorStart | translation | misaligned | range
  | protection | remote | stashMap | stashWindow | stream | vectorThread | tileNotHeld | format | tile
  | doff | barrier | enginePort | loopNest | loopMark | launch | liningFull | breakpoint | software
  | service | dataError
  /-- no cause: the access waits for a home slice whose zone is stopped (R463) -/
  | held
deriving DecidableEq, Repr

/-- A trap and its tval. -/
structure Trap where
  cause : Cause
  tval  : Word
deriving DecidableEq, Repr

/-! ## Parts of a hart -/

/-- What a hart slot does: holds no context, runs one, or holds one in debug halt (R161, R416). -/
inductive Run where
  | empty | running | halted
deriving DecidableEq, Repr

/-- A scale stream binding; a count of 0 means none (R137). -/
structure Binding where
  base  : Word
  pitch : Word
  count : BitVec 12
deriving DecidableEq, Repr

/-- States of the loop mark (R308). -/
inductive MarkState where
  | none | training | plain | replaying | resumed
deriving DecidableEq, Repr

/-- One executed instruction of a training iteration (R313, R314). -/
structure TraceRec where
  iter  : Nat
  pc    : Addr
  instr : Instr
  /-- outcome of its guard -/
  on    : Bool
  /-- outcome of a comparison: a branch taken, or the predicate written -/
  val   : Bool
  /-- address and bytes of an access -/
  acc   : Option (Word × Nat)
  /-- the physical address of an access, and whether it lies on a device page or off the package -/
  pa    : Nat
  far   : Bool
  /-- R312 admits it -/
  ok    : Bool
  /-- the sequence number of the queued instruction whose access is still to be performed -/
  queued : Option Nat
deriving DecidableEq, Repr

/-- How a replay stands (R317, R318). -/
inductive ReplayState where
  | running
  | finished
  | departed (cause detail : Byte)
deriving DecidableEq, Repr

/-- Registers that a loop body writes (R316): scalars, predicates, element 0 of vector registers, and
the bits of element 0 of masks. -/
structure BodyRegs where
  s : List (Nat × Word)
  p : List (Nat × Bool)
  v : List (Nat × Elem)
  m : List (Nat × Byte)
deriving DecidableEq, Repr

/-- The loop mark (R308). -/
structure Mark where
  state  : MarkState
  n      : Word
  t      : Nat
  prec   : Addr
  body   : Addr
  endA   : Addr
  it     : Word
  /-- first carried register; 0 for none -/
  first  : Nat
  kinds  : List (BitVec 3)
  base   : List Word
  delta  : List Word
  joinA  : Addr
  snap   : BodyRegs
  trace  : List TraceRec
  /-- the predicate that guards the lpend; 0 for none -/
  guard  : Nat
  /-- the running replay: its state, its next iteration, its registers, its flags and its window -/
  replay : ReplayState
  next   : Word
  regs   : BodyRegs
  flags  : BitVec 6
  rm     : BitVec 3
  win    : BitVec 32
  slice  : Nat
  /-- carried values at the start of each training iteration, and the level of the marking hart -/
  starts : List (List Word)
  level  : Level
  /-- the shootdowns and the migrations that had ended when the replay began: how many of those of Pkg (R318, R352) -/
  shots  : Nat
  moves  : Nat
deriving DecidableEq, Repr

/-- No loop mark. -/
def Mark.reset : Mark :=
  ⟨.none, 0, 0, 0, 0, 0, 0, 0, [], [], [], 0, ⟨[], [], [], []⟩, [], 0, .finished, 0, ⟨[], [], [], []⟩, 0, 0, 0, 0, [],
    .user, 0, 0⟩

/-- A delivered engine command and its progress (R275 to R302). -/
structure Cmd where
  words   : List Word
  seq     : BitVec 32
  /-- address of the delivering push -/
  pc      : Addr
  level   : Level
  /-- the engine has taken the command -/
  begun   : Bool
  /-- destination bytes written, and bytes counted against the barrier -/
  wp      : Nat
  counted : Nat
  /-- outcome, once every event has been performed: STATUS and AUX -/
  outcome : Option (Byte × Byte)
  /-- a decrement found PEND out of range -/
  badBar  : Bool
  /-- contributions of a collective by rank, failures reported, and a finished sum of the switch -/
  parts   : List (Nat × List Elem)
  failed  : List Nat
  switched : Option (List Elem)
  /-- a bank attention command whose page list is stale -/
  stalled : Bool
  /-- accesses of queued instructions below this sequence number precede its own (R227) -/
  after   : Nat
  /-- what it has written to poisoned lines, as ranges of physical memory (R436) -/
  ext     : List (Nat × Nat)
  /-- the target code of its pair at delivery (R274) -/
  tgt     : Byte
  /-- the tick at which the engine took it, for TMO (R300) -/
  start   : Word
  /-- a collective's group by rank, and its own rank (R300) -/
  group   : List Nat
  rank    : Nat
  /-- the core of the hart that pushed it (R274, R291) -/
  core    : Nat
  /-- it has completed as the fin-th command of its port (R276, R277) -/
  fin     : Option Nat
deriving DecidableEq, Repr

/-- A port pair (R274, R276). -/
structure Port where
  /-- words of the command being pushed, and the sequence number of its header -/
  part    : List Word
  pseq    : BitVec 32
  /-- delivered commands, oldest first -/
  cmds    : List Cmd
  /-- result elements, oldest first -/
  results : List Word
  /-- sequence number and total bytes of the most recently delivered commands that completed, newest first -/
  past    : List (BitVec 32 × Nat)
  /-- sequence numbers in order of delivery, newest first -/
  issued  : List (BitVec 32)
  /-- which of the commands at work the engine goes on with (an input of the schedule), and how many have completed -/
  pick    : Nat
  fins    : Nat
deriving DecidableEq, Repr

/-- An empty port pair. -/
def Port.reset : Port := ⟨[], 0, [], [], [], [], 0, 0⟩

/-- A stash map slot (R190); size 0 means empty. -/
structure StashSlot where
  base : Word
  size : Nat
  soff : Nat
deriving DecidableEq, Repr

/-- An empty stash map slot. -/
def StashSlot.reset : StashSlot := ⟨0, 0, 0⟩

/-- A bound stream (R207, R208). -/
structure Stream where
  fmt   : Fmt
  store : Bool
  sc    : Bool
  base  : Word
  estr  : Word
  vstr  : Word
  count : Nat
  sbase : Word
  sstr  : Word
  len   : Nat
  /-- entries appended by a load stream, or written by a store stream -/
  done  : Nat
  /-- entries a load stream has had removed, or a store stream has had appended -/
  used  : Nat
  /-- flags of the load stream's entries in the queue, oldest first -/
  flags : List (BitVec 6)
  /-- a pending fault of the next entry -/
  trap  : Option Trap
  /-- address, window and sequence number of the vbind (R209, R413, R423) -/
  pc    : Addr
  win   : BitVec 32
  seq   : Nat
  /-- entries that a store stream has still to write and that an instruction behind others in the queue has appended, each
  with that instruction's sequence number (R209) -/
  apps  : List (Nat × Nat)
  /-- level of the vbind: the level of its accesses (R198, R209) -/
  level : Level
deriving DecidableEq, Repr

/-- Scalar values that an instruction of the vector command queue uses: those of its issue (R73, R103, R142). -/
structure Env where
  s     : List (Nat × Word)
  p     : BitVec 8
  n     : Nat
  tm    : BitVec 7
  tn    : BitVec 7
  tk    : BitVec 12
  bindA : Binding
  bindB : Binding
  win   : BitVec 32
  /-- the accumulator's slot was held at issue (R158) -/
  held  : Bool
  /-- address of the instruction -/
  pc    : Addr
  /-- the virtual processors that run it; none outside a block (R176) -/
  grp   : Option (List Nat)
  /-- vector accesses of queued instructions below this sequence number precede its own (R223) -/
  vf    : Nat
  /-- its sequence number in the order of issue -/
  seq   : Nat
  /-- accesses of the scalar agent that queued instructions below sf still make precede its vector accesses, and vector
  accesses below ff its accesses for the scalar agent (R180, R223) -/
  sf    : Nat
  ff    : Nat
  /-- vfmt.RM (R64) -/
  rm    : BitVec 3
  /-- level at issue: the level of its accesses (R142, R143, R198) -/
  level : Level
  /-- a later putsr has written fflags: its flags are lost (R64) -/
  quiet : Bool
  /-- the status word of its slot at issue (R157) -/
  stat  : Word
  /-- scalar registers that a later pass of a zloop has set: its writes to them are lost (R73, R285) -/
  dead  : List Nat
  /-- by queue: entries that later instructions have appended, and entries that they have removed (R173) -/
  late  : List (Nat × Nat)
  freed : List (Nat × Nat)
deriving DecidableEq, Repr

/-- One instruction of the vector command queue (R170). -/
structure VEntry where
  pc    : Addr
  instr : Instr
  env   : Env
  /-- the trap it raised when it began, which waits until it is the oldest (R398), with the stopping element -/
  trap  : Option (Trap × Nat)
  /-- it has stopped at the element that vstart holds (R40) -/
  stopped : Bool
deriving DecidableEq, Repr

/-- An episode of a vector-fetched block (R174 to R178): program counters of the virtual processors that
have not executed vpret, the group that runs, and how far its block has run. -/
structure Episode where
  env   : Env
  pcs   : List (Nat × Addr)
  group : List Nat
  at_   : Addr
  left  : Nat
  /-- the vfetch that started it -/
  vf    : Addr
deriving DecidableEq, Repr

/-- State of a zero-overhead loop (R286). -/
structure ZLoop where
  regs   : List Nat
  base   : List Word
  counts : List Nat
  strides : List (List Int)
  idx    : List Nat
  start  : Addr
  stop   : Addr
deriving DecidableEq, Repr

/-- A part of an access inside one 4 KiB block: its address as it was given, the mapped address that the cluster window
names, the core whose stash holds it, and where it lies. -/
structure Chunk where
  va   : Word
  mva  : Word
  core : Nat
  pa   : Nat
  n    : Nat
  attr : BitVec 2
deriving DecidableEq, Repr

/-- A store of the scalar agent that its instruction has made and no other agent sees yet (R221, R247). -/
structure LateStore where
  chunks : List Chunk
  bytes  : List Byte
deriving DecidableEq, Repr

/-- A snapshot in the lining: the slot of its header, its window, and how many of its ten slots have been appended (R424,
R426). -/
structure Snapshot where
  slot : Word
  win  : BitVec 32
  size : Nat
deriving DecidableEq, Repr

/-- A hart slot and the context it runs (R161, R396, R414). -/
structure Hart where
  run    : Run
  level  : Level
  pc     : Addr
  /-- s1 to s63 (R71) -/
  s      : List (Nat × Word)
  /-- p0 to p7; bit 0 is not used (R71) -/
  p      : BitVec 8
  /-- v0 to v31 (R98) -/
  v      : List (Nat × List (Nat × Elem))
  /-- m0 to m7 (R98) -/
  m      : List (Nat × List (Nat × Byte))
  /-- q0 to q7 (R171) -/
  qs     : List (Nat × List Word)
  /-- q8 to q15, keyed 0 to 7 (R171) -/
  qv     : List (Nat × List (List (Nat × Elem)))
  vl     : BitVec 11
  vstart : BitVec 13
  rm     : BitVec 3
  fflags : BitVec 6
  seed   : BitVec 32
  ctr    : BitVec 32
  yreq   : Bool
  ydl    : BitVec 32
  rank   : BitVec 16
  cid    : BitVec 12
  pid    : Byte
  wcur   : BitVec 32
  tm     : BitVec 7
  tn     : BitVec 7
  tk     : BitVec 12
  bindA  : Binding
  bindB  : Binding
  lpix   : Word
  lpcause  : Byte
  lpdetail : Byte
  mark   : Mark
  /-- tdoff (R343) -/
  dAct   : Bool
  dSlot  : BitVec 2
  dIcnt  : BitVec 9
  dLast  : BitVec 2
  dLslot : BitVec 2
  dNref  : BitVec 2
  dSvst  : BitVec 13
  tdpc   : Word
  /-- times of the refusals that still count (R341) -/
  refusals : List Word
  /-- trap registers (R396) -/
  tVq    : Bool
  tCause : Byte
  tpc    : Word
  tval   : Word
  tspc   : Word
  tscr   : Word
  vqf    : Bool
  pprv   : BitVec 2
  inh    : Bool
  tvec   : BitVec 55
  csave  : BitVec 40
  ydef   : BitVec 32
  /-- of the slot, in no context (R396) -/
  mtvec  : BitVec 55
  psel   : Byte
  lwt    : Byte
  demand : Nat
  eport  : Word
  eseq   : BitVec 32
  ports  : List (Nat × Port)
  /-- dctl (R414); HALTED is run -/
  hreason : BitVec 4
  estep  : Bool
  fj     : Bool
  /-- lctl, lbuf, lhd, ltl (R414) -/
  lPart  : Bool
  lLost  : Bool
  lPol   : BitVec 2
  lEn    : Bool
  lSz    : BitVec 6
  lBase  : BitVec 40
  lhd    : Word
  ltl    : Word
  /-- snapshots in the lining, oldest first (R424) -/
  lMarks : List Snapshot
  /-- the unlogged bit of R447 -/
  unlogged : Bool
  /-- the counters of R422 -/
  counters : List (Nat × Word)
  /-- stash map tables, slot i of core c at key 32 c + i (R190) -/
  stmap  : List (Nat × StashSlot)
  /-- bindings of q8 to q15, keyed 0 to 7 (R207) -/
  streams : List (Nat × Option Stream)
  vcq    : List VEntry
  vseq   : Nat
  episode : Option Episode
  zloop  : Option ZLoop
  /-- an instruction that has issued and waits (R72) -/
  waiting : Option Instr
  /-- the guest time at the issue of the tsc that waits for room in its queue (R421) -/
  tscAt  : Option Word
  /-- a debug halt asked for and not yet taken (R416) -/
  haltReq : Bool
  /-- a tenant switch makes the context leave at its next boundary (R393) -/
  evict  : Bool
  /-- ticks of running time since placement (R372) -/
  ticks  : Nat
  /-- the number of its placement, in the order of time (R372) -/
  turn   : Nat
  /-- the launch of the context; none for firmware -/
  launch : Option Word
  /-- the vector agent is behind: issued instructions stay in the queue (an input of the schedule) -/
  hold   : Bool
  /-- accesses of queued instructions below this sequence number precede later scalar accesses (R267) -/
  fence  : Nat
  /-- accesses of queued instructions below this sequence number precede those of later queued ones (R223) -/
  vfence : Nat
  /-- accesses of the scalar agent below this sequence number precede later vector accesses (R180, R223) -/
  sfence : Nat
  /-- values that vstart, and SEED and CTR, take once the queued instructions below a sequence number have completed,
  oldest first (R64, R95, R339) -/
  vsets  : List (Nat × BitVec 13)
  srsets : List (Nat × BitVec 32 × BitVec 32)
  /-- granules and instructions that the vector streams run in the 2,048 cycles of the drain of a save (an input of the
  schedule, R407) -/
  drainFor : Nat
  /-- stores of the scalar agent become visible late (an input of the schedule), and those that still wait (R247) -/
  lag    : Bool
  sbuf   : List LateStore
  /-- an access of the instruction that has just run waits for a stopped home slice (R463): no effect of it stands -/
  heldUp : Bool
deriving DecidableEq, Repr

/-- A hart slot after a cold reset. Fields whose reset the spec gives hold it; 'loaded' fields hold 0
(log 4); registers without a reset value hold 0 and the level is user (log 5, DESIGN CHOICE, unsafe). -/
def Hart.reset : Hart where
  run := .empty
  level := .user
  pc := 0
  s := []
  p := 0
  v := []
  m := []
  qs := []
  qv := []
  vl := 0
  vstart := 0
  rm := 0
  fflags := 0
  seed := 0
  ctr := 0
  yreq := false
  ydl := 0
  rank := 0
  cid := 0
  pid := 0
  wcur := 0
  tm := 0
  tn := 0
  tk := 0
  bindA := ⟨0, 0, 0⟩
  bindB := ⟨0, 0, 0⟩
  lpix := 0
  lpcause := 0
  lpdetail := 0
  mark := Mark.reset
  dAct := false
  dSlot := 0
  dIcnt := 0
  dLast := 0
  dLslot := 0
  dNref := 0
  dSvst := 0
  tdpc := 0
  refusals := []
  tVq := false
  tCause := 0
  tpc := 0
  tval := 0
  tspc := 0
  tscr := 0
  vqf := false
  pprv := 0
  inh := false
  tvec := 0
  csave := 0
  ydef := 20000
  mtvec := 0
  psel := 0
  lwt := 0
  demand := 0
  eport := 0
  eseq := 0
  ports := []
  hreason := 0
  estep := false
  fj := false
  lPart := false
  lLost := false
  lPol := 0
  lEn := false
  lSz := 0
  lBase := 0
  lhd := 0
  ltl := 0
  lMarks := []
  unlogged := false
  counters := []
  stmap := []
  streams := []
  vcq := []
  vseq := 0
  episode := none
  zloop := none
  waiting := none
  tscAt := none
  haltReq := false
  evict := false
  ticks := 0
  turn := 0
  launch := none
  hold := false
  fence := 0
  vfence := 0
  sfence := 0
  vsets := []
  srsets := []
  drainFor := 2048
  lag := false
  sbuf := []
  heldUp := false

/-! ## Cores, clusters, partitions and zones -/

/-- A named barrier (R258); owner 0 is no launch, otherwise the launch's sequence number + 1. -/
structure Barrier where
  count : BitVec 12
  arr   : BitVec 12
  pend  : BitVec 36
  phase : BitVec 16
  owner : Nat
deriving DecidableEq, Repr

/-- An inactive barrier. -/
def Barrier.reset : Barrier := ⟨0, 0, 0, 0, 0⟩

/-- Claim classes of a tile slot (R331). -/
inductive TileClass where
  | fixed | negotiated | pool
deriving DecidableEq, Repr

/-- A tile slot (R135, R331). The holder is a context key (Hart.key). -/
structure Tile where
  holder : Option Nat
  cls    : TileClass
  doff   : Addr
  /-- element (r, c) at key 64 r + c -/
  acc    : List (Nat × Elem)
  poison : List Nat
  /-- weight row k, column j at key 64 k + j; for VQ2, index row g at key 64 g + j -/
  weights : List (Nat × BitVec 16)
  codebook : List (Nat × Elem)
  wfmt   : Fmt
  /-- a refusal delay runs until this tick -/
  delay  : Option Word
deriving DecidableEq, Repr

/-- A free slot as R136 sets it. -/
def Tile.reset : Tile := ⟨none, .fixed, 0, [], [], [], [], .i8, none⟩

/-- An entry of the recall queue (R336); hart is a context key, 0 to 11 its priority; none for a tenant
switch (R344). -/
structure Recall where
  slot : Nat
  key  : Option Nat
  cls  : TileClass
  doff : Addr
  prio : Nat
deriving DecidableEq, Repr

/-- A core (R162, R169, R257, R258, R331 to R336, R392, R457). DEDUCED (log 123): vathr is one register of the core, as R169
says of cdens. -/
structure Core where
  /-- lane group i is held by hart h: entry h + 1 at key i; 0 is free -/
  lat    : List (Nat × Nat)
  cdens  : BitVec 7
  vathr  : Byte
  tres   : BitVec 36
  phart  : Word
  pgrpl  : Word
  pgrph  : Word
  sgate  : Word
  barriers : List (Nat × Barrier)
  tiles  : List (Nat × Tile)
  recalls : List Recall
deriving DecidableEq, Repr

/-- A core after a cold reset; phart, pgrpl and pgrph are loaded (log 4). -/
def Core.reset : Core := ⟨[], 25, 16, 0, 0, 0, 0, BitVec.allOnes 64, [], [], []⟩

/-- A waiting sem.tas (R266). -/
structure SemReq where
  bit  : Nat
  hart : Nat
deriving DecidableEq, Repr

/-- The communication registers of a cluster and their owner (R265, R392). -/
structure Cluster where
  sem   : BitVec 256
  cr    : List (Nat × Word)
  wait  : List SemReq
  crEn  : Bool
  crPid : Byte
deriving DecidableEq, Repr

/-- A cluster after a cold reset (bits and registers: log 5). -/
def Cluster.reset : Cluster := ⟨0, [], [], false, 0⟩

/-- A partition's registers (R193, R392, R421). -/
structure Part where
  ptroot : BitVec 40
  pways  : BitVec 16
  cwBase : BitVec 31
  cwEn   : Bool
  gtoff  : Word
  gtMul  : BitVec 32
  gtHide : Bool
  gtSh   : BitVec 6
  /-- ticks in which some context of the partition ran -/
  ran    : Word
deriving DecidableEq, Repr

/-- A partition after a cold reset. -/
def Part.reset : Part := ⟨0, 0, 0, false, 0, 1, false, 0, 0⟩

/-- A cooling zone (R458 to R463). -/
structure Zone where
  zmin  : BitVec 5
  valve : Byte
  temp  : BitVec 12
  volt  : BitVec 12
  proc  : Byte
  flow  : BitVec 10
  cond  : BitVec 2
  evac  : BitVec 3
  att   : BitVec 2
  f     : BitVec 5
  vent  : Bool
  /-- F is held at 4 by LF (R462) -/
  lfHold : Bool
deriving DecidableEq, Repr

/-- A compute zone after a cold reset, with the loaded ZMIN of R460. -/
def Zone.compute : Zone := ⟨4, 0, 0, 0, 0, 0, 0, 0, 0, 16, false, false⟩
/-- A base-die zone after a cold reset. -/
def Zone.base : Zone := { Zone.compute with zmin := 13 }
/-- Zone 80, which has no valve. -/
def Zone.bypass : Zone := { Zone.compute with zmin := 0 }

/-! ## Launches, queues and saved contexts -/

/-- States of a launch (R370). -/
inductive LState where
  | parsed | leasing | ready | running | ended
deriving DecidableEq, Repr

/-- A declared range (R368). -/
structure Range where
  base : Word
  len  : Nat
  elastic : Bool
deriving DecidableEq, Repr

/-- The lining of a context that has ended: its buffer, its slots in use, and its snapshots (R448). -/
structure LogRange where
  base  : Nat
  slots : Nat
  tail  : Word
  head  : Word
  marks : List Snapshot
deriving DecidableEq, Repr

/-- A launch (R368 to R373, R179). -/
structure Launch where
  seq    : Word
  pid    : Byte
  /-- none for a launch of lnch -/
  queue  : Option Nat
  slot   : Word
  st     : LState
  cid    : Option (BitVec 12)
  entry  : Word
  param  : Word
  harts  : Nat
  lreq   : Nat
  pri    : Nat
  therm  : Nat
  tag    : BitVec 32
  cpl    : Word
  sig    : Word
  eport  : Word
  recov  : Bool
  farm   : Bool
  compact : Bool
  bitmap : Bool
  flo    : Word
  fhi    : Word
  fbmp   : Word
  seed   : BitVec 32
  weight : Byte
  ranges : List Range
  /-- Cloche has granted flow: units per zone of its class at the grant (R461) -/
  units  : Option Nat
  /-- ranks placed so far, and contexts ended -/
  placed : Nat
  ended  : Nat
  /-- the STATUS it will end with -/
  status : Byte
  /-- it is being stopped: harts stop at their next boundaries (R399, R445) -/
  stopping : Bool
  /-- leased pages of 64 KiB by virtual page number (R386) -/
  leases : List Nat
  /-- frames written (R448) -/
  frames : List Nat
  /-- a context of it had the unlogged bit set when it ended (R447) -/
  unlogged : Bool
  /-- linings of its contexts that have ended, and frames poisoned by its recovery (R448) -/
  logs   : List LogRange
  torn   : Nat
  /-- farm record: next unclaimed element, and pooled strips by start with their active offsets (R179, R180) -/
  next   : Word
  pool   : List (Word × List Nat)
deriving DecidableEq, Repr

/-- A packet parsed and not retired (R363). -/
structure Packet where
  slot  : Word
  bytes : List Byte
  /-- conditions of a FENCE already seen to hold -/
  seen  : List Nat
deriving DecidableEq, Repr

/-- A partition's reset after an expiry, between its steps (R445). -/
structure Reset where
  pid   : Byte
  /-- the last step taken, and the tick of the expiry -/
  step  : Nat
  t0    : Word
  /-- HEAD of the queue at the expiry -/
  head  : Word
  /-- launches removed in step 1, launches stopped in step 2, and launches that step 5 has still to end -/
  removed : List Word
  stopped : List Word
  left    : List Word
  /-- launches whose last hart had halted before the expiry, which are not stopped (R446) -/
  halted  : List Word
deriving DecidableEq, Repr

/-- A queue of the queue processor (R363, R444). -/
structure Queue where
  packet : Option Packet
  wd     : Nat
  /-- TAIL as the processor read it when it last scheduled the queue: it parses the slots below (R363) -/
  till   : Option Word
  /-- the reset that an expiry of it has begun -/
  expiry : Option Reset
deriving DecidableEq, Repr

/-- A queue without a parsed packet. -/
def Queue.reset : Queue := ⟨none, 0, none, none⟩

/-- Why a context was saved (R409). -/
inductive Reason where
  | yield | forced | elastic | tenant
deriving DecidableEq, Repr

/-- A saved context (R407 to R410). The opaque regions of its area are compared at restore. -/
structure Saved where
  hart   : Hart
  /-- the package hart number it had -/
  slotNo : Nat
  spc    : Word
  vpc    : Word
  groups : Nat
  reason : Reason
  fva    : Word
  opaqueCells : List Host.Cell
deriving DecidableEq, Repr

/-! ## The package -/

/-- A translation cache: of a core, of a base die, of a compute die's collective engine, or of a bank attention engine
(R384). -/
inductive Cache where
  | core (n : Nat)
  | base (n : Nat)
  | collective (n : Nat)
  | attention (n : Nat)
deriving DecidableEq, Repr

/-- A cached leaf (R384). -/
structure TlbEntry where
  cache : Cache
  pid  : Byte
  va   : Nat
  size : Nat
  pa   : Nat
  u    : Bool
  x    : Bool
  attr : BitVec 2
deriving DecidableEq, Repr

/-- Whose line a stash holds: the partition and the identifier of the contexts (R189, R393). -/
structure Holder where
  pid   : Byte
  cid   : BitVec 12
deriving DecidableEq, Repr

/-- A dirty line of a stash, with its holder and the bytes at its home (R195). -/
structure Dirty where
  core  : Nat
  pid   : Byte
  cid   : BitVec 12
  vline : Nat
  pline : Nat
  home  : List Byte
deriving DecidableEq, Repr

/-- A word that an instruction cache of a hart holds (R16, R379): its physical address and its bytes. -/
structure CachedWord where
  hart  : Nat
  pa    : Nat
  bytes : List Byte
deriving DecidableEq, Repr

/-- Answers of the package to Fjoir commands, to the host and to peers (R389, R415). -/
inductive Reply where
  | fjoir (tag : Nat) (status : Byte) (words : List Word)
  | data (bytes : List Byte) (poison : Bool)
  | done
  | error
  | cxlUncorrectable
deriving DecidableEq, Repr

/-- What comes next from outside one hart's program: which agent acts, an event, or time that passes. -/
inductive Turn where
  | hart (n : Nat)
  | event (i : Instr)
  /-- ticks of the global time base, and cycles of each running context -/
  | elapse (ticks cycles : Nat)
  /-- counter c of hart h, one of those that count cycles or evictions, advances by n (R422) -/
  | count (h c n : Nat)
  /-- hart h's vector agent falls behind, or not -/
  | hold (h : Nat) (on : Bool)
  /-- a dirty line is displaced (R191) -/
  | writeBack (pline : Nat)
  /-- the drain of hart h's next save runs n granules and instructions (R407) -/
  | drainFor (h n : Nat)
  /-- hart h's scalar stores become visible late, or not, and the oldest late one does (R247) -/
  | lag (h : Nat) (on : Bool)
  | lateStore (h : Nat)
  /-- the engine of pair k of context h takes its commands up to the n-th that is at work, and goes on with that one (R275) -/
  | engine (h k n : Nat)
  /-- the instruction caches of hart h fill with the word at a physical address, or drop it (R16) -/
  | cacheWord (h pa : Nat)
  | dropWord (h pa : Nat)
  /-- the link to a peer is lost while accesses of harts are on their way to it: for each of the harts, its elements below a
  number have been answered, and of the stores after them those of some elements arrive (R391) -/
  | lossInFlight (peer : Nat) (harts : List (Nat × Nat × List Nat))
  /-- an error is corrected at an access to a line of DRAM, or in other storage (R432, R434) -/
  | corrected (pa : Option Nat)
  /-- the monitor of a zone is read: rail voltage, process and conductance (R458, R460) -/
  | sense (z : Nat) (volt : BitVec 12) (proc : Byte) (cond : BitVec 2)
  /-- a launch in Leasing has its leases and reaches the grant of flow (R461) -/
  | flowQueue (seq : Nat)
  /-- the next step of the reset that an expiry of queue q has begun (R445) -/
  | resetStep (q : Nat)
  /-- a complete firmware image is written through the Fjoir port (R465) -/
  | fjoirImage (image : List Byte)
deriving DecidableEq, Repr

/-- Package registers (R361, R385, R388 to R391, R414, R430, R440, R460). -/
structure Pkg where
  qtBase : BitVec 40
  qtNq   : Byte
  sqnt   : BitVec 32
  tsvaVa : BitVec 41
  tsvaPid : Byte
  tsnN   : BitVec 32
  tsnBusy : Bool
  /-- the range of the shootdown in progress -/
  sdVa   : BitVec 41
  sdPid  : Byte
  sdN    : BitVec 32
  fownOwner : BitVec 16
  fownFrame : BitVec 36
  migSrc : BitVec 36
  migBusy : Bool
  migErr : Bool
  migDst : BitVec 36
  /-- lines of the migration in progress already copied; forwarding goes on until a shootdown -/
  migDone : Nat
  migFwd : Bool
  /-- the frames of the migration in progress, or forwarded -/
  movSrc : BitVec 36
  movDst : BitVec 36
  /-- finished migrations whose accesses are still forwarded, oldest first: source and destination frame; and those whose
  forwarding the shootdown in progress ends (R390) -/
  fwds   : List (Nat × Nat)
  sdEnds : List (Nat × Nat)
  /-- every shootdown and every migration that has started, oldest first: partition, first page and pages; source and
  destination frame. A replay departs on what started after it, or had not ended before it (R318, R352) -/
  shots  : List (Byte × Nat × Nat)
  moves  : List (Nat × Nat)
  rpstPeer : BitVec 10
  fpeer  : List (Nat × Word)
  peersUp : List Nat
  ctsrBase : BitVec 36
  ctsrK  : BitVec 5
  ctsrEn : Bool
  latches : Word
  /-- what a counter's delta at the next latch is counted from, counter c of package hart n at key 16 n + c -/
  latched : List (Nat × Word)
  /-- the tick of the last latch -/
  latchTick : Option Word
  fjpen  : List (Nat × Word)
  jEn    : Bool
  jBase  : BitVec 36
  jSz    : BitVec 6
  jhead  : Word
  fatal  : Bool
  ue     : BitVec 31
  ce     : BitVec 32
  scrubEn : Bool
  scrubPer : BitVec 32
  thr    : Byte
  bank   : BitVec 16
  /-- spare rows used, by bank; remapped rows; rows and errors of this scrub period -/
  spares : List (Nat × Nat)
  spared : List (Nat × Nat)
  /-- corrected errors of a row in this scrub period, the period's number, and banks that have posted entry 0x08 in it
  (R439) -/
  rowErrs : List (Nat × Nat)
  scrubNo : Nat
  exhausted : List Nat
  rpoisFrame : BitVec 36
  czsel  : BitVec 7
  ctZone : BitVec 7
  ctBits : BitVec 4
  tshut  : Byte
  tcrit  : Byte
  tmax   : Byte
  lowf   : Byte
  pmin   : BitVec 16
  ctcls  : Word
  pcap   : BitVec 16
  pnow   : BitVec 16
  wgate  : BitVec 16
  /-- the global time base (R3) -/
  time   : Word
  quiesced : Bool
  /-- the launch sequence count, incremented at each parse and each lnch, whose new value is the launch's SEQ, and context
  identifiers by the time they were freed (R371) -/
  seqCount : Word
  /-- placements so far (R372) -/
  turns  : Nat
  cids   : List (BitVec 12)
  /-- the queue that was served last (R363), and the launches that wait for flow, first come (R461) -/
  served : Nat
  grants : List Word
  firmware : List Byte
  firmOk : Bool
deriving DecidableEq, Repr

/-- Package registers after a cold reset. 'loaded' fields are 0 (log 4); the time base, the counters and
the reachable bits are 0 (log 5). -/
def Pkg.reset : Pkg where
  qtBase := 0
  qtNq := 0
  sqnt := 10000
  tsvaVa := 0
  tsvaPid := 0
  tsnN := 0
  tsnBusy := false
  sdVa := 0
  sdPid := 0
  sdN := 0
  fownOwner := 0
  fownFrame := 0
  migSrc := 0
  migBusy := false
  migErr := false
  migDst := 0
  migDone := 0
  migFwd := false
  fwds := []
  sdEnds := []
  shots := []
  moves := []
  movSrc := 0
  movDst := 0
  rpstPeer := 0
  fpeer := []
  peersUp := []
  ctsrBase := 0
  ctsrK := 10
  ctsrEn := false
  latches := 0
  latched := []
  latchTick := none
  fjpen := []
  jEn := false
  jBase := 0
  jSz := 0
  jhead := 0
  fatal := false
  ue := 0
  ce := 0
  scrubEn := true
  scrubPer := 3600
  thr := 4
  bank := 0
  spares := []
  spared := []
  rowErrs := []
  scrubNo := 0
  exhausted := []
  rpoisFrame := 0
  czsel := 0
  ctZone := 0
  ctBits := 0
  tshut := 105
  tcrit := 95
  tmax := 85
  lowf := 50
  pmin := 150
  ctcls := 0x0A08060403020100
  pcap := 8000
  pnow := 0
  wgate := 0xFFFF
  time := 0
  quiesced := false
  seqCount := 0
  turns := 0
  cids := (List.range 4096).map fun i => BitVec.ofNat 12 i
  served := 255
  grants := []
  firmware := []
  firmOk := true

/-- The package. -/
structure State where
  /-- the package hart number that acts, 8 x core + hart, and its slot -/
  cur    : Nat
  hart   : Hart
  /-- every other hart slot -/
  others : List (Nat × Hart)
  cores  : List (Nat × Core)
  clusters : List (Nat × Cluster)
  parts  : List (Nat × Part)
  zonesC : List (Nat × Zone)
  zonesB : List (Nat × Zone)
  /-- zone 80 -/
  zoneX  : Zone
  pkg    : Pkg
  /-- bytes of the physical address space -/
  mem    : List Host.Cell
  /-- poisoned lines, writer tags and residue-mode rows (R436, R425, R437) -/
  poison : List Nat
  tags   : List (Nat × BitVec 28)
  residue : List Nat
  owners : List (Nat × BitVec 16)
  dirty  : List Dirty
  tlb    : List TlbEntry
  /-- words that the instruction caches hold and that may be older than memory (R16) -/
  icache : List CachedWord
  launches : List Launch
  saved  : List Saved
  /-- contexts that have halted while a delivered command or a replay of theirs still runs (R403), each
  with the package hart number it had -/
  orphans : List (Nat × Hart)
  queues : List (Nat × Queue)
  replies : List Reply
  schedule : List Turn
  /-- how many free values have been drawn (the model's own field, log 14, log 15) -/
  fresh  : Nat
deriving DecidableEq, Repr

/-- The package right after a cold reset (R8): every hart slot empty, memory with nothing listed. -/
def State.reset : State where
  cur := 0
  hart := Hart.reset
  others := []
  cores := []
  clusters := []
  parts := []
  zonesC := []
  zonesB := []
  zoneX := Zone.bypass
  pkg := Pkg.reset
  mem := []
  poison := []
  tags := []
  residue := []
  owners := []
  dirty := []
  tlb := []
  icache := []
  launches := []
  saved := []
  orphans := []
  queues := []
  replies := []
  schedule := []
  fresh := 0

end Sys2Proof.Machine
end

