-- ==== Sys2Proof/Machine/Ops.lean ====
section
/-! DEFINITION. The named operations over registers, cores, physical memory and the lining, and the one
operation by which every context ends. -/

namespace Sys2Proof.Machine

/-- The three outcomes of a step. -/
abbrev Out := Host.Outcome State Fault Refusal

/-! ## Bits and bytes -/

/-- Byte i of a 64-bit register. -/
def byteOf (w : Word) (i : Nat) : Byte := w.extractLsb' (8 * i) 8

/-- Replace byte i of a 64-bit register. -/
def setByte (w : Word) (i : Nat) (b : Byte) : Word :=
  (w &&& ~~~((0xFF : Word) <<< (8 * i))) ||| (b.setWidth 64 <<< (8 * i))

/-- The bytes of a word of n bytes, lowest first (R7). -/
def bytesOf (n : Nat) (w : Word) : List Byte := leBytes n w.toNat

/-- The 64-bit value of little-endian bytes (R7). -/
def wordOf (bs : List Byte) : Word := BitVec.ofNat 64 (leNat bs)

/-- A signed reading of the low w bits of a number. -/
def signedOf (w n : Nat) : Int :=
  let x := n % 2 ^ w
  if 2 * x < 2 ^ w then (x : Int) else (x : Int) - (2 ^ w : Nat)

/-- The low w bits of an integer as a natural number. -/
def wrapNat (w : Nat) (x : Int) : Nat := (x % ((2 ^ w : Nat) : Int)).toNat

/-! ## The focused hart -/

namespace State

/-- Change the focused hart. -/
def onH (f : Hart → Hart) (s : State) : State := { s with hart := f s.hart }

/-- The focused hart at a given level. -/
def atLevel (l : Level) (s : State) : State := s.onH fun h => { h with level := l }

/-- The slot of package hart n. -/
def hartAt (s : State) (n : Nat) : Hart := if n = s.cur then s.hart else tget Hart.reset s.others n

/-- Focus package hart n: every other slot is kept in others. -/
def focus (n : Nat) (s : State) : State :=
  if n = s.cur then s
  else { s with
    cur := n
    hart := tget Hart.reset s.others n
    others := tset Hart.reset (tset Hart.reset s.others s.cur s.hart) n Hart.reset }

/-- Act on package hart n, and return to the hart focused before. -/
def atHart (n : Nat) (f : State → State) (s : State) : State := (f (s.focus n)).focus s.cur

/-- Change the slot of package hart n. -/
def modHart (n : Nat) (f : Hart → Hart) (s : State) : State := s.atHart n (onH f)

/-- The package hart numbers whose slot is not in its reset state. -/
def slots (s : State) : List Nat := s.cur :: s.others.map (·.1)

/-- Core of the focused hart (R161). -/
def coreNo (s : State) : Nat := s.cur / Config.hartsPerCore
/-- Number of the focused hart within its core. -/
def hartNo (s : State) : Nat := s.cur % Config.hartsPerCore
/-- Cluster of the focused hart (R193). -/
def clusterNo (s : State) : Nat := s.coreNo / Config.coresPerCluster

/-- Core c. -/
def coreAt (s : State) (c : Nat) : Core := tget Core.reset s.cores c
/-- Change core c. -/
def modCore (c : Nat) (f : Core → Core) (s : State) : State :=
  { s with cores := tset Core.reset s.cores c (f (s.coreAt c)) }
/-- Cluster c. -/
def clusterAt (s : State) (c : Nat) : Cluster := tget Cluster.reset s.clusters c
/-- Change cluster c. -/
def modCluster (c : Nat) (f : Cluster → Cluster) (s : State) : State :=
  { s with clusters := tset Cluster.reset s.clusters c (f (s.clusterAt c)) }
/-- Partition p. -/
def partAt (s : State) (p : Byte) : Part := tget Part.reset s.parts p.toNat
/-- Change partition p. -/
def modPart (p : Byte) (f : Part → Part) (s : State) : State :=
  { s with parts := tset Part.reset s.parts p.toNat (f (s.partAt p)) }
/-- Change the package registers. -/
def modPkg (f : Pkg → Pkg) (s : State) : State := { s with pkg := f s.pkg }

/-- Cooling zone z: 0 to 63 compute, 64 to 79 base die, 80 the bypass (R458). -/
def zoneAt (s : State) (z : Nat) : Zone :=
  if z < 64 then tget Zone.compute s.zonesC z
  else if z < 80 then tget Zone.base s.zonesB z else s.zoneX
/-- Change zone z; every number from 80 on is zone 80. -/
def modZone (z : Nat) (f : Zone → Zone) (s : State) : State :=
  if z < 64 then { s with zonesC := tset Zone.compute s.zonesC z (f (s.zoneAt z)) }
  else if z < 80 then { s with zonesB := tset Zone.base s.zonesB z (f (s.zoneAt z)) }
  else { s with zoneX := f s.zoneX }
/-- The zone of core c (R458). -/
def zoneOfCore (c : Nat) : Nat := 8 * (c / 192) + c % 192 / 24

/-- The launch of a sequence number. -/
def launchAt (s : State) (seq : Word) : Option Launch := s.launches.find? fun l => l.seq = seq
/-- Change the launch of a sequence number. -/
def modLaunch (seq : Word) (f : Launch → Launch) (s : State) : State :=
  { s with launches := s.launches.map fun l => if l.seq = seq then f l else l }
/-- The launch of the focused hart. -/
def myLaunch (s : State) : Option Launch := s.hart.launch.bind s.launchAt

end State

/-- Zone z is stopped (R459, R463). -/
def State.zoneOff (s : State) (z : Nat) : Bool := (s.zoneAt z).f = 0

/-- The zone of the focused hart's core is stopped (R459, R463). -/
def zoneStopped (s : State) : Bool := s.zoneOff (State.zoneOfCore s.coreNo)

/-! ## Scalar registers, predicates and queues of the hart (R71, R72) -/

namespace Hart

/-- Read s0 to s63; s0 reads zero. -/
def rs (h : Hart) (n : Nat) : Word := if n = 0 then 0 else tget 0 h.s n
/-- Write s0 to s63; a write to s0 is discarded. -/
def ws (n : Nat) (v : Word) (h : Hart) : Hart := if n = 0 then h else { h with s := tset 0 h.s n v }
/-- Read p0 to p7; p0 reads true. -/
def rp (h : Hart) (n : Nat) : Bool := n == 0 || h.p.getLsbD n
/-- Write p0 to p7; a write to p0 is discarded. -/
def wp (n : Nat) (b : Bool) (h : Hart) : Hart :=
  if n = 0 then h
  else { h with p := (h.p &&& ~~~((1 : BitVec 8) <<< n)) ||| ((BitVec.ofBool b).setWidth 8 <<< n) }
/-- The guard of an instruction (R18). -/
def guard (h : Hart) (c : Ctl) : Bool := xor c.neg (h.rp c.p.toNat)

/-- The entries of q0 to q7. -/
def sq (h : Hart) (n : Nat) : List Word := tget [] h.qs n
/-- Set the entries of q0 to q7. -/
def setSq (n : Nat) (l : List Word) (h : Hart) : Hart := { h with qs := tset [] h.qs n l }
/-- The entries of q8 to q15, n from 0 to 7. -/
def vq (h : Hart) (n : Nat) : List (List (Nat × Elem)) := tget [] h.qv n
/-- Set the entries of q8 to q15. -/
def setVq (n : Nat) (l : List (List (Nat × Elem))) (h : Hart) : Hart := { h with qv := tset [] h.qv n l }

/-- Element position e of v0 to v31 (R98). -/
def rv (h : Hart) (r e : Nat) : Elem := tget 0 (tget [] h.v r) e
/-- Set element position e of a vector register. -/
def wv (r e : Nat) (x : Elem) (h : Hart) : Hart := { h with v := tset [] h.v r (tset 0 (tget [] h.v r) e x) }
/-- The mask bits of position e of m0 to m7 (R98). -/
def rmask (h : Hart) (k e : Nat) : Byte := tget 0 (tget [] h.m k) e
/-- Set the mask bits of position e. -/
def wmask (k e : Nat) (x : Byte) (h : Hart) : Hart :=
  { h with m := tset [] h.m k (tset 0 (tget [] h.m k) e x) }

/-- Port pair k. -/
def port (h : Hart) (k : Nat) : Port := tget Port.reset h.ports k
/-- Change port pair k. -/
def modPort (k : Nat) (f : Port → Port) (h : Hart) : Hart :=
  { h with ports := tset Port.reset h.ports k (f (h.port k)) }
/-- The binding of q8 to q15. -/
def stream (h : Hart) (q : Nat) : Option Stream := tget none h.streams q
/-- Set the binding of q8 to q15. -/
def setStream (q : Nat) (b : Option Stream) (h : Hart) : Hart :=
  { h with streams := tset none h.streams q b }
/-- Counter c (R422). -/
def counter (h : Hart) (c : Nat) : Word := tget 0 h.counters c
/-- Add to counter c. -/
def bump (c n : Nat) (h : Hart) : Hart :=
  { h with counters := tset 0 h.counters c (h.counter c + BitVec.ofNat 64 n) }
/-- Set flags (R59): the device only ever sets them. -/
def flag (f : BitVec 6) (h : Hart) : Hart := { h with fflags := h.fflags ||| f }

/-- The context that a slot runs: launch and rank, or the slot itself for firmware (the model's own key). -/
def key (h : Hart) (n : Nat) : Nat :=
  match h.launch with
  | none => n
  | some q => 65536 * (q.toNat + 1) + h.rank.toNat

/-- The holder of the lines that its accesses bring into a stash. -/
def holder (h : Hart) : Holder := ⟨h.pid, h.cid⟩

end Hart

/-! ## Addresses -/

/-- The 64-bit form of an instruction address, with a granule suffix (R40). -/
def pcWord (a : Addr) (suffix : Nat) : Word := BitVec.ofNat 7 suffix ++ a

/-- A saved program counter as a register holds it: bits 1:0 of the address are 0 (R40). -/
def pcField (w : Word) : Word := w &&& ~~~(3 : Word)

/-- The address of a saved program counter; its suffix is ignored (R40, R41). -/
def pcOf (w : Word) : Addr := (pcField w).extractLsb' 0 57

/-- Bits 63:57 equal bit 56 (R184). -/
def canonical (va : Word) : Bool := va.extractLsb' 57 7 == (if va.getLsbD 56 then 0x7F#7 else 0#7)

/-- Sign extension of a displacement to an instruction address. -/
def dispAddr {n : Nat} (d : BitVec n) : Addr := d.signExtend 57

/-! ## Physical memory (R185, R380, R388, R390, R425, R436) -/

/-- Device memory of this package. -/
def isDevice (pa : Nat) : Bool := pa < 2 ^ 40
/-- Host memory. -/
def isHost (pa : Nat) : Bool := 2 ^ 50 ≤ pa && pa < 2 ^ 51
/-- Device memory of a peer. -/
def isPeer (pa : Nat) : Bool := 2 ^ 51 ≤ pa && pa < (0x800 + 576) * 2 ^ 40
/-- The peer of an address. -/
def peerOf (pa : Nat) : Nat := pa / 2 ^ 40 - 0x800
/-- An address in some region of R380. -/
def inRegion (pa : Nat) : Bool := isDevice pa || isHost pa || isPeer pa
/-- The home slice of a physical address (R185). -/
def homeSlice (pa : Nat) : Nat := 16 * (pa / 2 ^ 11 % 16) + pa / 2 ^ 7 % 16

/-- The canonical form of memory: addresses rise strictly, and no entry equals what an unlisted address reads as. -/
def Memory.wf (m : List Host.Cell) : Bool := twf 0 m

namespace State

/-- A byte at its place. What an unlisted byte reads as is 0: DESIGN CHOICE (log 3), unsafe. -/
def rawByte (s : State) (a : Nat) : Byte := tget 0 s.mem a

/-- Where finished migrations have moved a frame whose accesses are still forwarded, the oldest one first (R390). -/
def moved (s : State) (frame : Nat) : Nat := s.pkg.fwds.foldl (fun f p => if f = p.1 then p.2 else f) frame

/-- The frames through which an access to a frame is forwarded, the last one first (R390). -/
def framesOf (s : State) (frame : Nat) : List Nat :=
  s.pkg.fwds.foldl (fun l p => if l.headD frame = p.1 then p.2 :: l else l) [frame]

/-- Where an access to a moved or moving frame is served (R390). -/
def forward (s : State) (pa : Nat) : Nat :=
  let pa := if s.pkg.fwds = [] then pa else s.moved (pa / 2 ^ 16) * 2 ^ 16 + pa % 2 ^ 16
  if s.pkg.migFwd && pa / 2 ^ 16 == s.pkg.movSrc.toNat && decide (pa % 2 ^ 16 / 128 < s.pkg.migDone)
  then s.pkg.movDst.toNat * 2 ^ 16 + pa % 2 ^ 16 else pa

/-- Read one byte of physical memory. -/
def byte (s : State) (pa : Nat) : Byte := s.rawByte (s.forward pa)

/-- Read n bytes of physical memory. -/
def bytes (s : State) (pa n : Nat) : List Byte := (List.range n).map fun i => s.byte (pa + i)

/-- Read a little-endian 64-bit word of physical memory. -/
def word8 (s : State) (pa : Nat) : Word := wordOf (s.bytes pa 8)

/-- A line is poisoned (R436). -/
def poisonedAt (s : State) (pa : Nat) : Bool := s.poison.contains (s.forward pa / 128)

/-- Some line of a range is poisoned. -/
def poisoned (s : State) (pa n : Nat) : Bool :=
  s.poison ≠ [] && (List.range n).any fun i => s.poisonedAt (pa + i)

/-- A byte of device memory lies at a home slice whose base-die zone is stopped: its accesses stall (R463). -/
def homeStopped (s : State) (pa : Nat) : Bool :=
  s.zonesB ≠ [] && isDevice pa && s.zoneOff (64 + s.forward pa / 2 ^ 11 % 16)

/-- The owner of a frame (R388). -/
def owner (s : State) (frame : Nat) : BitVec 16 := tget 0 s.owners frame

/-- The writer tag of a line (R425). -/
def tag (s : State) (line : Nat) : BitVec 28 := tget (BitVec.allOnes 28) s.tags line

/-- The pseudo-channel of a line within its stack: four for each home slice, selected by pa[16:15] (R185). Their order in
the number is the model's choice (log 21, DESIGN CHOICE). -/
def channelOf (pa : Nat) : Nat := 4 * (pa / 2 ^ 7 % 16) + pa / 2 ^ 15 % 4

/-- The bank of a line as rspare numbers it: stack, pseudo-channel and bank (R185, R440). -/
def bankOf (pa : Nat) : Nat := 4096 * (pa / 2 ^ 11 % 16) + 64 * channelOf pa + Config.bankRow (pa / 2 ^ 17) % 64

/-- The row of a line: its bank and its number there (R437, R439). -/
def rowOf (pa : Nat) : Nat := bankOf pa + 65536 * (Config.bankRow (pa / 2 ^ 17) / 64)

/-- Lines that a range of physical memory reaches. -/
def linesIn (pa n : Nat) : List Nat := (List.range ((pa + n - 1) / 128 + 1 - pa / 128)).map fun i => pa / 128 + i

/-- Some line of a range lies at a stopped home slice: an access to it waits (R463). -/
def rangeHeld (pa n : Nat) (s : State) : Bool := s.zonesB ≠ [] && (linesIn pa n).any fun l => s.homeStopped (l * 128)

/-- A write of the controller re-encodes the residue-mode rows that it reaches (R437). -/
def recode (pa n : Nat) (s : State) : State :=
  if s.residue = [] then s
  else
    let rows := ((linesIn pa n).filter fun l => isDevice (l * 128)).map fun l => rowOf (s.forward (l * 128))
    { s with residue := s.residue.filter fun r => !rows.contains r }

/-- Write one byte, without tag. -/
def putByte (pa : Nat) (b : Byte) (s : State) : State := { s with mem := tset 0 s.mem (s.forward pa) b }

/-- Write bytes, without tag. -/
def putBytes (pa : Nat) : List Byte → State → State
  | [], s => s
  | b :: bs, s => putBytes (pa + 1) bs (s.putByte pa b)

/-- Set the writer tag of every line of a range of device memory. -/
def setTags (pa n : Nat) (t : BitVec 28) (s : State) : State :=
  (List.range ((pa + n - 1) / 128 + 1 - pa / 128)).foldl
    (fun s i => { s with tags := tset (BitVec.allOnes 28) s.tags (s.forward ((pa / 128 + i) * 128) / 128) t }) s

/-- A write of n ≥ 1 bytes to memory: it sets tags, and re-encodes a residue-mode row (R425, R437). -/
def write (pa : Nat) (bs : List Byte) (t : BitVec 28) (s : State) : State :=
  let s' := s.putBytes pa bs
  let s' := s'.recode pa bs.length
  if isDevice pa then s'.setTags pa bs.length t else s'

/-- Every byte of a line lies in one of the writes. -/
def coveredLine (ws : List (Nat × Nat)) (line : Nat) : Bool :=
  (List.range 128).all fun i =>
    ws.any fun w => decide (w.1 ≤ line * 128 + i) && decide (line * 128 + i < w.1 + w.2)

/-- Clear the poison of every line that the writes of one instruction or command cover whole (R436). -/
def cover (ws : List (Nat × Nat)) (s : State) : State :=
  if s.poison = [] then s
  else { s with poison := s.poison.filter fun line => !coveredLine ws line }

/-- Poison a line. -/
def setPoison (line : Nat) (s : State) : State :=
  if s.poison.contains line then s else { s with poison := line :: s.poison }

/-- A frame of a launch was written (R448). -/
def markFrame (launch : Option Word) (pa : Nat) (s : State) : State :=
  match launch with
  | none => s
  | some q =>
      if isDevice pa then
        let f := s.moved (pa / 2 ^ 16)
        s.modLaunch q fun l => if l.frames.contains f then l else { l with frames := f :: l.frames }
      else s

/-! ## Dirty stash lines (R187, R191, R195) -/

/-- Write a dirty line back: its home value is its value. -/
def clean (pline : Nat) (s : State) : State := { s with dirty := s.dirty.filter fun d => d.pline ≠ pline }

/-- Write back the lines that satisfy a test. -/
def cleanIf (f : Dirty → Bool) (s : State) : State := { s with dirty := s.dirty.filter fun d => !f d }

/-- An access to a private page moves a dirty line to the accessor's stash (R187). -/
def moveLine (core : Nat) (o : Holder) (vline pline : Nat) (s : State) : State :=
  { s with dirty := s.dirty.map fun d =>
      if d.pline = pline then { d with core := core, pid := o.pid, cid := o.cid, vline := vline } else d }

/-- A store to a private page makes its line dirty; the home keeps its bytes. -/
def soil (core : Nat) (o : Holder) (vline pline : Nat) (s : State) : State :=
  if s.dirty.any fun d => d.pline = pline then s.moveLine core o vline pline
  else { s with dirty :=
    ⟨core, o.pid, o.cid, vline, pline, (List.range 128).map fun i => s.byte (pline * 128 + i)⟩ :: s.dirty }

/-- A write that is not made through a dirty line reaches the bytes at its home as well (R187, R188, R195). -/
def patchHome (pa : Nat) (bs : List Byte) (s : State) : State :=
  if s.dirty = [] then s
  else { s with dirty := s.dirty.map fun (d : Dirty) => { d with
      home := d.home.zipIdx.map fun (p : Byte × Nat) =>
        let a := d.pline * 128 + p.2
        if pa ≤ a && a < pa + bs.length then bs.getD (a - pa) p.1 else p.1 } }

/-- Write by the device itself or by an external agent: the tag is all ones (R425). -/
def writeDev (pa : Nat) (bs : List Byte) (s : State) : State :=
  (s.patchHome pa bs).write pa bs (BitVec.allOnes 28)

/-- Lines of a part. -/
def linesOf (c : Chunk) : List Nat := linesIn c.pa c.n

/-- A part as ranges of physical memory where its bytes are served: line by line while a frame is moving (R390, R436). -/
def spans (s : State) (c : Chunk) : List (Nat × Nat) :=
  if !s.pkg.migFwd then [(s.forward c.pa, c.n)]
  else (linesOf c).map fun l =>
    let lo := max c.pa (l * 128)
    (s.forward lo, min (c.pa + c.n) (l * 128 + 128) - lo)

/-- Rows of a stack that a near-bank writer has written come to be in residue mode (R437). -/
def residueRows (stack : Nat) (ws : List (Nat × Nat)) (s : State) : State :=
  let lines := (ws.flatMap fun w => linesIn w.1 w.2).filter fun l => isDevice (l * 128) && l / 16 % 16 == stack
  { s with residue := (lines.map (fun l => rowOf (l * 128)) ++ s.residue).eraseDups }

/-- Stash map tables of every context of a cid that runs, is halted or is saved. -/
def mapsOf (s : State) (cid : BitVec 12) : List (Nat × StashSlot) :=
  (s.slots.flatMap fun n =>
    let h := s.hartAt n
    if h.run ≠ .empty && h.cid = cid then h.stmap else [])
    ++ s.saved.flatMap fun c => if c.hart.cid = cid then c.hart.stmap else []

/-- The offset in the stash of a core at which a context's map holds a line; none outside every mapped range (R190). -/
def mappedAt (s : State) (core : Nat) (cid : BitVec 12) (vline : Nat) : Option Nat :=
  ((s.mapsOf cid).find? fun e => e.1 / 32 == core && decide (e.2.base.toNat ≤ vline * 128)
    && decide (vline * 128 < e.2.base.toNat + e.2.size)).map fun e => e.2.soff + vline * 128 - e.2.base.toNat

/-- A line comes to be held in a core's stash: a line of another context at its mapped offset is written back (R190), and
its bank has power (R457). -/
def holdLine (core : Nat) (cid : BitVec 12) (vline pline : Nat) (s : State) : State :=
  let s :=
    if !s.dirty.any fun d => d.core = core && d.cid ≠ cid then s
    else
      match s.mappedAt core cid vline with
      | none => s
      | some o => s.cleanIf fun d => d.core = core && d.cid ≠ cid && s.mappedAt core d.cid d.vline == some o
  if (s.coreAt core).sgate = BitVec.allOnes 64 then s
  else s.modCore core fun c => { c with sgate := c.sgate ||| ((1 : Word) <<< (Config.bankOf pline).toNat) }

/-- Take the lines of a part of an access to the stash of its core, each by f. -/
def eachLine (cid : BitVec 12) (c : Chunk) (f : Nat → Nat → State → State) (s : State) : State :=
  (linesOf c).foldl (fun s l =>
    let vline := c.mva.toNat / 128 + (l - c.pa / 128)
    f vline l (s.holdLine c.core cid vline l)) s

/-- A store to a private page makes its lines dirty, and any other is made at the home (R187, R195). -/
def soilChunk (o : Holder) (c : Chunk) (bs : List Byte) (s : State) : State :=
  if c.attr = 0 then s.eachLine o.cid c (soil c.core o) else s.patchHome c.pa bs

end State

/-! ## The lining (R423 to R426) -/

/-- The lining of a hart is enabled and its size is in range (R414). -/
def Hart.lining (h : Hart) : Bool := h.lEn && 12 ≤ h.lSz.toNat && h.lSz.toNat ≤ 40

/-- Slots of the buffer. -/
def Hart.lSlots (h : Hart) : Nat := 2 ^ h.lSz.toNat / 64

/-- Policy 00, or 11, which acts as it. -/
def Hart.lStop (h : Hart) : Bool := h.lPol = 0 || h.lPol = 3

/-- Slots appended and not freed. -/
def Hart.lUsed (h : Hart) : Nat := (h.lhd - h.ltl).toNat

/-- A slot belongs to one of the snapshots (R424). -/
def inSnapshot (marks : List Snapshot) (i : Word) : Bool := marks.any fun m => decide ((i - m.slot).toNat < m.size)

/-- A lining record (R423). -/
structure Record where
  addr : Word
  old  : Word
  new  : Word
  kind : Nat
  size : Nat
  pc   : Word
  qual : Word
  win  : BitVec 32
deriving DecidableEq, Repr

/-- The 64 bytes of a record (R423). -/
def Record.bytes (r : Record) (time : Word) (cid : BitVec 12) (rank : BitVec 16) : List Byte :=
  bytesOf 8 r.addr ++ bytesOf 8 r.old ++ bytesOf 8 r.new ++ bytesOf 8 time ++ leBytes 4 r.win.toNat
    ++ leBytes 2 (cid.toNat + 4096 * r.kind) ++ leBytes 2 rank.toNat ++ leBytes 1 r.size ++ leBytes 7 0
    ++ bytesOf 8 r.pc ++ bytesOf 8 r.qual

/-- Physical address of a slot. -/
def Hart.lSlot (h : Hart) (i : Word) : Nat := h.lBase.toNat * 4096 + 64 * (i.toNat % h.lSlots)

namespace State

/-- Make room for n records: the oldest windows are discarded, or nothing is appended any more (R426). The window before the
snapshot that a wmark is opening is the current one until wcur moves on (R420). The caller has checked room under policy 00.
-/
def makeRoom (n : Nat) : Nat → State → State
  | 0, s => s
  | fuel + 1, s =>
      let h := s.hart
      if h.lUsed + n ≤ h.lSlots then s
      else
        match h.lMarks.find? fun m => decide (h.ltl < m.slot) && decide (m.slot < h.lhd) with
        | some m =>
            if h.lPol = 1 ∧ m.win ≠ h.wcur + 1 then
              makeRoom n fuel (s.onH fun h => { h with
                ltl := m.slot, lMarks := h.lMarks.filter fun x => decide (m.slot ≤ x.slot) })
            else s.onH fun h => { h with lLost := true }
        | none => s.onH fun h => { h with lLost := true }

/-- Put 64 bytes into the next slot (R423). -/
def appendSlot (bs : List Byte) (s : State) : State :=
  (s.writeDev (s.hart.lSlot s.hart.lhd) bs).onH fun h =>
    { h with lhd := h.lhd + 1, counters := tset 0 h.counters 14 (h.counter 14 + 1) }

/-- Append slots in order, until one finds no room and its policy appends nothing more (R426). -/
def appendSlots : List (List Byte) → State → State
  | [], s => s
  | b :: bs, s =>
      let s := s.makeRoom 1 (s.hart.lMarks.length + 1)
      if s.hart.lLost then s else appendSlots bs (s.appendSlot b)

/-- Append one record of the focused hart's context (R423). -/
def append (r : Record) (s : State) : State :=
  if !s.hart.lining || s.hart.lLost then s
  else
    let s := s.makeRoom 1 (s.hart.lMarks.length + 1)
    if s.hart.lLost then s
    else
      (s.appendSlot (r.bytes s.pkg.time s.hart.cid s.hart.rank)).onH fun h =>
        { h with unlogged := h.unlogged || r.kind == 3 || r.kind == 4 || r.kind == 5 }

/-- Under policy 00 or 11, n more records do not fit (R426). -/
def noRoom (s : State) (n : Nat) : Bool :=
  s.hart.lining && !s.hart.lLost && s.hart.lStop && decide (s.hart.lSlots < s.hart.lUsed + n)

/-- One of the next n slots lies at a stopped home slice: the access whose records they are to hold waits (R463). -/
def appendHeld (n : Nat) (s : State) : Bool :=
  s.zonesB ≠ [] && s.hart.lining && !s.hart.lLost
    && (List.range n).any fun k => s.rangeHeld (s.hart.lSlot (s.hart.lhd + BitVec.ofNat 64 k)) 64

/-- How many records fit under policy 00 or 11. -/
def room (s : State) : Nat := s.hart.lSlots - s.hart.lUsed

/-- A write of the context is logged: its tag is the context's, otherwise all ones (R425). -/
def logged (s : State) : Bool := s.hart.lining && !s.hart.lLost

/-- The writer tag of the focused hart's writes: RANK above CID (log 22, DESIGN CHOICE, safe). -/
def myTag (s : State) : BitVec 28 := if s.logged then s.hart.rank ++ s.hart.cid else BitVec.allOnes 28

/-- A write of either agent that the lining does not hold sets the unlogged bit (R447). -/
def noteWrite (s : State) : State :=
  if s.hart.lining && s.hart.lStop && !s.hart.lLost then s else s.onH fun h => { h with unlogged := true }

/-! ## Late scalar stores (R221, R247) -/

/-- The parts of a late store become visible. -/
def lateChunks : List Chunk → List Byte → State → State
  | [], _, s => s
  | c :: cs, bs, s =>
      let s := (s.soilChunk s.hart.holder c (bs.take c.n)).write c.pa (bs.take c.n) s.myTag
      lateChunks cs (bs.drop c.n) (s.markFrame s.hart.launch c.pa).noteWrite

/-- The oldest late store of the focused hart becomes visible. -/
def lateStore (s : State) : State :=
  match s.hart.sbuf with
  | [] => s
  | x :: xs =>
      (lateChunks x.chunks x.bytes (s.onH fun h => { h with sbuf := xs })).cover
        (x.chunks.flatMap s.spans)

/-- Every late store of the focused hart becomes visible. -/
def lateStores (s : State) : State := s.hart.sbuf.foldl (fun s _ => s.lateStore) s

end State

/-- The parts of a range that lie inside one aligned 8-byte word each: offset and length (R423). -/
def pieces (va : Word) (n : Nat) : List (Nat × Nat) :=
  let first := 8 - va.toNat % 8
  if n ≤ first then [(0, n)]
  else (0, first) :: (List.range ((n - first + 7) / 8)).map fun i =>
    (first + 8 * i, min 8 (n - first - 8 * i))

/-! ## Lane groups (R162, R392) -/

/-- The partition of a lane group. -/
def Core.groupPid (c : Core) (g : Nat) : Byte := if g < 8 then byteOf c.pgrpl g else byteOf c.pgrph (g - 8)
/-- The groups held by hart h of a core, in increasing number. -/
def Core.heldBy (c : Core) (h : Nat) : List Nat :=
  (List.range Config.laneGroups).filter fun g => tget 0 c.lat g = h + 1
/-- The free groups of a partition, in increasing number. -/
def Core.freeOf (c : Core) (p : Byte) : List Nat :=
  (List.range Config.laneGroups).filter fun g => decide (tget 0 c.lat g = 0) && decide (c.groupPid g = p)
/-- Gpart: the number of groups that a partition owns on a core (R162). -/
def Core.gpart (c : Core) (p : Byte) : Nat :=
  ((List.range Config.laneGroups).filter fun g => decide (c.groupPid g = p)).length
/-- Release every group of hart h. -/
def Core.release (h : Nat) (c : Core) : Core :=
  { c with lat := (c.heldBy h).foldl (fun l g => tset 0 l g 0) c.lat }

/-- Groups held by the focused hart. -/
def State.groups (s : State) : Nat := ((s.coreAt s.coreNo).heldBy s.hartNo).length

/-- The vector length an instruction uses: the lesser of VL and 64 x GROUPS (R168). -/
def State.vlen (s : State) : Nat := min s.hart.vl.toNat (64 * s.groups)

/-! ## Tile slots (R331 to R337) -/

/-- Tile slot n of a core. -/
def Core.tile (c : Core) (n : Nat) : Tile := tget Tile.reset c.tiles n
/-- Set tile slot n. -/
def Core.setTile (n : Nat) (t : Tile) (c : Core) : Core := { c with tiles := tset Tile.reset c.tiles n t }

/-- The head request of a slot: the least priority number, first come (R336). -/
def headOf (n : Nat) : List Recall → Option Recall
  | [] => none
  | r :: rs =>
      match headOf n rs with
      | none => if r.slot = n then some r else none
      | some q => if r.slot = n && decide (r.prio ≤ q.prio) then some r else some q

/-- Free slot n of a core, discarding its state, and grant it to its head request (R136, R337). -/
def Core.freeTile (n : Nat) (c : Core) : Core :=
  let recalls := c.recalls.filter fun r => !(r.slot == n && r.key.isNone)
  match headOf n recalls with
  | some ⟨_, some k, cls, doff, _⟩ =>
      { c with recalls := recalls.filter fun r => !(r.slot == n && r.key == some k)
               tiles := tset Tile.reset c.tiles n { Tile.reset with holder := some k, cls := cls, doff := doff } }
  | _ => { c with recalls := recalls, tiles := tset Tile.reset c.tiles n Tile.reset }

/-- Release every slot that a context holds on a core, and withdraw its request (R331). -/
def Core.dropTiles (k : Nat) (c : Core) : Core :=
  let c := { c with recalls := c.recalls.filter fun r => !(r.key == some k) }
  (List.range 4).foldl (fun c n => if (c.tile n).holder = some k then c.freeTile n else c) c

namespace State

/-- The priority number of a launch's contexts (R334); firmware has 0 (log 23, DESIGN CHOICE). -/
def prioOf (s : State) (launch : Option Word) : Nat :=
  match launch.bind s.launchAt with
  | some l => l.pri
  | none => 0

/-- Withdraw a waiting request of package hart n: it has no effect (R72, R266, R334). -/
def withdraw (n : Nat) (s : State) : State :=
  let c := n / Config.hartsPerCore
  let k := (s.hartAt n).key n
  let s := s.modCore c fun co => { co with recalls := co.recalls.filter fun r => !(r.key == some k) }
  s.modCluster (c / Config.coresPerCluster) fun cl => { cl with wait := cl.wait.filter fun r => r.hart ≠ n }

/-- The counters of a slot change by a context that comes or goes: the deltas of the next latch keep what the
slot has counted (R430). -/
def carryCounters (n : Nat) (comes : Bool) (h : Hart) (s : State) : State :=
  s.modPkg fun p => { p with latched := h.counters.foldl (fun l c =>
    let k := 16 * n + c.1
    tset 0 l k (if comes then tget 0 l k + c.2 else tget 0 l k - c.2)) p.latched }

/-- A context empties its stash map table: the dirty lines of its slots are written back first (R213). -/
def emptyMaps (h : Hart) (s : State) : State :=
  s.cleanIf fun d => decide (d.cid = h.cid) && h.stmap.any fun e =>
    decide (e.1 / 32 = d.core) && decide (e.2.base.toNat ≤ d.vline * 128)
      && decide (d.vline * 128 < e.2.base.toNat + e.2.size)

end State

/-- A slot whose context has ended: its queues and ports are discarded, and its registers keep what they hold (R403). -/
def Hart.ended (h : Hart) : Hart :=
  { h with
    run := .empty, launch := none, qs := [], qv := [], streams := [], vcq := [], episode := none, zloop := none
    vsets := [], srsets := [], ports := [], stmap := [], counters := [], demand := 0, refusals := [], waiting := none
    haltReq := false, evict := false, yreq := false, ydl := 0, inh := false, vqf := false, dAct := false
    ticks := 0, lag := false, sbuf := [], hold := false, lEn := false, unlogged := false, lMarks := []
    mark := if h.mark.state = .replaying then Mark.reset else h.mark }

namespace State

/-- The clearing sequencer of a core: what the core's stash and translation cache hold for a partition goes (R393). -/
def sequence (core : Nat) (p : Byte) (s : State) : State :=
  let s := s.cleanIf fun d => decide (d.core = core) && decide (d.pid = p)
  { s with tlb := s.tlb.filter fun e => !(decide (e.cache = .core core) && decide (e.pid = p)) }

/-- The slot of a context that has left holds x; where a tenant switch reassigns the hart, the clearing sequencer zeroes its
registers (R393). -/
def vacate (x : Hart) (s : State) : State :=
  if s.hart.evict then (s.sequence s.coreNo s.hart.pid).onH fun _ => Hart.reset else s.onH fun _ => x

/-- Every slot that a context holds on a core is released (R331). -/
def dropTiles (k : Nat) (s : State) : State :=
  { s with cores := s.cores.map fun (p : Nat × Core) => (p.1, p.2.dropTiles k) }

/-- End the tenure of the focused hart's context: lane groups, requests, stash maps, queues and ports end, and its
performed writes remain (R183, R213, R403); its tile holdings end with it or later (R331, R445). The slot becomes empty. -/
def leaveWith (tiles : Bool) (s : State) : State :=
  let s := s.lateStores
  let n := s.cur
  let k := s.hart.key n
  let s := (s.withdraw n).carryCounters n false s.hart
  let s := s.modCore s.coreNo fun c => (c.release s.hartNo)
  let s := if tiles then s.dropTiles k else s
  let s := s.emptyMaps s.hart
  s.vacate s.hart.ended

/-- End the tenure of the focused hart's context with its tile holdings. -/
def leave (s : State) : State := s.leaveWith true

/-- The lining of a context, for its launch's recovery (R448). -/
def logOf (h : Hart) : LogRange := ⟨h.lBase.toNat * 4096, h.lSlots, h.ltl, h.lhd, h.lMarks⟩

/-- Bookkeeping of a launch when one of its contexts has ended. -/
def countEnd (h : Hart) (s : State) : State :=
  match h.launch with
  | none => s
  | some q => s.modLaunch q fun l => { l with
      ended := l.ended + 1
      unlogged := l.unlogged || h.unlogged
      logs := if h.lhd = 0 then l.logs else logOf h :: l.logs }

/-- Bytes of a copy command that are written and still to be counted against its barrier (R291). -/
def uncounted (c : Cmd) : Bool := (c.words.headD 0).getLsbD 35 && decide (c.counted < c.wp)

/-- A delivered command or a replay of the context still runs (R277, R322). -/
def hasWork (h : Hart) : Bool :=
  h.mark.state == .replaying && h.mark.replay == .running
    || h.ports.any fun p => p.2.cmds.any fun c => c.outcome.isNone || uncounted c

/-- Stop every hart and every saved context of a launch at its boundary, with its commands and replays,
and record the STATUS it ends with (R277, R322, R399), and the unlogged bits of its contexts, those included that have halted
before their replays stopped (R447); tile holdings end with the contexts or later (R445). -/
def stopLaunchWith (tiles : Bool) (q : Word) (status : Byte) (s : State) : State :=
  let s := s.slots.foldl (fun s n =>
    let h := s.hartAt n
    if h.run ≠ .empty && h.launch = some q then s.atHart n fun s => (s.lateStores.countEnd s.lateStores.hart).leaveWith tiles
    else s) s
  let gone := s.saved.filter fun c => c.hart.launch = some q
  let s := gone.foldl (fun (s : State) c =>
    let s := (s.countEnd c.hart).emptyMaps c.hart
    if tiles then s.dropTiles (c.hart.key 0) else s) s
  let unlogged := s.orphans.any fun c => c.2.launch == some q && c.2.unlogged
  let s := { s with
    saved := s.saved.filter fun c => c.hart.launch ≠ some q
    orphans := s.orphans.filter fun c => c.2.launch ≠ some q }
  s.modLaunch q fun l => { l with stopping := true, status := status, unlogged := l.unlogged || unlogged }

/-- Stop a launch with its tile holdings. -/
def stopLaunch (q : Word) (status : Byte) (s : State) : State := s.stopLaunchWith true q status

/-- The physical address of the journal area (R441). -/
def journalBase (s : State) : Nat := s.pkg.jBase.toNat * 2 ^ 16

/-- C: the entries that the journal area holds (R440, R441). -/
def journalSize (s : State) : Nat :=
  let sz := s.pkg.jSz.toNat
  (2 ^ (if 16 ≤ sz && sz ≤ 32 then sz else 16) - 64) / 320

/-- Where entry i of the journal lies (R441). -/
def journalSlot (s : State) (i : Nat) : Nat := s.journalBase + 64 + 320 * (i % s.journalSize)

/-- The next journal entry would be written at a stopped home slice: what posts it waits (R463). -/
def journalHeld (s : State) : Bool :=
  s.pkg.jEn && (s.rangeHeld s.journalBase 64 || s.rangeHeld (s.journalSlot s.pkg.jhead.toNat) 320)

/-- The journal's control line holds JHEAD and C, and zeros behind them (R441). -/
def writeControl (s : State) : State :=
  s.writeDev s.journalBase (bytesOf 8 s.pkg.jhead ++ leBytes 8 s.journalSize ++ leBytes 48 0)

/-- The journal is enabled: its control line is written, and its frames belong to the supervisor (R441, R465). -/
def enableJournal (s : State) : State :=
  let frames := (List.range ((64 + 320 * s.journalSize) / 65536 + 1)).map fun k => s.pkg.jBase.toNat + k
  let s := s.modPkg fun p => { p with jEn := true }
  ({ s with owners := frames.foldl (fun o f => tset 0 o f 1) s.owners } : State).writeControl

/-- Journal entry (R441, R442): the area lies at BASE x 2^16. -/
def journal (type code : Byte) (pid : Option Byte) (queue : Option Nat) (cid : Option (BitVec 12))
    (slot lseq pc qual aux : Word) (payload : List Byte) (s : State) : State :=
  if !s.pkg.jEn then s
  else
    let i := s.pkg.jhead
    let a := s.journalSlot i.toNat
    let rest := bytesOf 8 s.pkg.time ++ [type, code, pid.getD 0, if pid.isNone then 1 else 0]
      ++ leBytes 2 (queue.getD 0xFFFF) ++ leBytes 2 (match cid with | some c => c.toNat | none => 0xFFFF)
      ++ bytesOf 8 slot ++ bytesOf 8 lseq ++ bytesOf 8 pc ++ bytesOf 8 qual ++ bytesOf 8 aux
      ++ payload ++ leBytes (256 - payload.length) 0
    let s := s.writeDev a (bytesOf 8 (BitVec.allOnes 64))
    let s := s.writeDev (a + 8) rest
    let s := s.writeDev a (bytesOf 8 i)
    (s.modPkg fun p => { p with jhead := i + 1 }).writeControl

/-- A package fault: journal entry 0x09, rasst.FATAL, an uncorrectable error message, and the quiesced
state (R432, R433, R474). -/
def packageFault (cls : Byte) (aux : Word) (s : State) : State :=
  let s := s.journal 0x09 cls none none none 0 (BitVec.allOnes 64) 0 0 aux []
  { s.modPkg fun p => { p with fatal := true, quiesced := true } with
      replies := s.replies ++ [.cxlUncorrectable] }

/-- Whether a data address lies in an elastic range of the launch and in no pinned one (R368). -/
def isElastic (s : State) (va : Word) : Bool :=
  match s.myLaunch with
  | none => false
  | some l =>
      let hit := l.ranges.filter fun r => decide (r.base.toNat ≤ va.toNat) && decide (va.toNat < r.base.toNat + r.len)
      hit ≠ [] && hit.all fun r => r.elastic

/-- Whether a data address lies in a pinned range of the launch. -/
def isPinned (s : State) (va : Word) : Bool :=
  match s.myLaunch with
  | none => false
  | some l => l.ranges.any fun r =>
      !r.elastic && decide (r.base.toNat ≤ va.toNat) && decide (va.toNat < r.base.toNat + r.len)

end State

/-! ## Causes (R395) -/

/-- The code of a cause (R395). -/
def Cause.code : Cause → Byte
  | .illegal => 0x01 | .privilege => 0x02 | .misalignedTarget => 0x03 | .fetch => 0x04 | .vectorStart => 0x05
  | .translation => 0x06 | .misaligned => 0x07 | .range => 0x08 | .protection => 0x09 | .remote => 0x0A
  | .stashMap => 0x0B | .stashWindow => 0x0C | .stream => 0x0D | .vectorThread => 0x0E | .tileNotHeld => 0x0F
  | .format => 0x10 | .tile => 0x11 | .doff => 0x12 | .barrier => 0x13 | .enginePort => 0x14 | .loopNest => 0x15
  | .loopMark => 0x16 | .launch => 0x17 | .liningFull => 0x18 | .breakpoint => 0x19 | .software => 0x1A
  | .service => 0x1B | .dataError => 0x1C | .held => 0

/-- The PPRV code of a level (R396). -/
def Level.code : Level → BitVec 2
  | .user => 0 | .supervisor => 1 | .management => 2

/-- The level of a PPRV code; 3 acts as 2 (R396). -/
def Level.ofCode (b : BitVec 2) : Level :=
  if b = 0 then .user else if b = 1 then .supervisor else .management

/-- The number of a level, for comparisons (R94). -/
def Level.rank : Level → Nat
  | .user => 0 | .supervisor => 1 | .management => 2

/-! ## Instructions of the vector command queue (R170, R39) -/

/-- Format and operands of a vector instruction of OP 0x40 to 0x8B. -/
def vopsOf : Instr → Option VOps
  | .vadd _ o | .vsub _ o | .vmul _ o | .vmulh _ o | .vmadd _ o | .vmin _ o | .vmax _ o | .vabsd _ o
  | .vavg _ o | .vand _ o | .vor _ o | .vxor _ o | .vandn _ o | .vshl _ o | .vshr _ o | .vsra _ o
  | .vcmp _ o | .vsel _ o | .vmov _ o | .vbcast _ o | .vid _ o | .vclz _ o | .vpopc _ o | .vdot4 _ o
  | .vfadd _ o | .vfsub _ o | .vfmul _ o | .vfma _ o | .vfmin _ o | .vfmax _ o | .vfcmp _ o | .vfdiv _ o
  | .vfsqrt _ o | .vfrcp _ o | .vfrsq _ o | .vfexp2 _ o | .vflog2 _ o | .vfscl _ o | .vfrnd _ o
  | .vxch _ o | .vperm _ o | .vslide _ o | .vcompress _ o | .vexpand _ o | .vred _ o | .vredsc _ o
  | .vdot _ o | .vcvt _ o | .vpack _ o | .vunpack _ o => some o
  | _ => none

/-- A queue register among an instruction's operands makes it whole (R105). -/
def namesQueue (os : List Operand) : Bool := os.any fun o => match o with | .q _ => true | _ => false

/-- An instruction that R39 can stop at an element. -/
def stoppable (i : Instr) : Bool :=
  match i, vopsOf i with
  | .vld .., _ | .vlds .., _ | .vldx .., _ | .vst .., _ | .vsts .., _ | .vstx .., _ => true
  | .vxch .., _ | .vperm .., _ | .vslide .., _ | .vcompress .., _ | .vexpand .., _ | .vred .., _ | .vredsc .., _
  | .vdot .., _ | .vpack .., _ | .vunpack .., _ => false
  | _, some o => !namesQueue [o.d, o.a, o.b]
  | _, none => false

/-- The packing factor that cuts an instruction into granules (R38). -/
def granulePack (i : Instr) : Nat :=
  match i, vopsOf i with
  | .vdot4 .., _ => 1
  | .vcvt _ o, _ | .vpack _ o, _ | .vunpack _ o, _ =>
      max o.fmt.pack (match o.x.sfmt with | some f => f.pack | none => 1)
  | _, some o => o.fmt.pack
  | _, none => 1

/-- Granule(e) of an instruction (R38). -/
def granuleOf (i : Instr) (e : Nat) : Nat := e / (8 * granulePack i)

/-! ## Saving a context (R407 to R410) -/

/-- A training loop is abandoned: the hart runs every remaining iteration itself (R314). -/
def Hart.abandon (h : Hart) : Hart :=
  if h.mark.state = .training then { h with mark := { h.mark with state := .plain, trace := [] }, lpcause := 3 } else h

/-- Instructions of the queue that are older than an episode, which has gone on beside them in the other vector stream (R172).
-/
def Hart.before (h : Hart) (ep : Episode) : List VEntry := h.vcq.filter fun e => decide (e.env.seq < ep.env.seq)

/-- The episode of the hart, where no unfinished instruction is older. -/
def Hart.oldestEpisode (h : Hart) : Option Episode := h.episode.filter fun ep => (h.before ep).isEmpty

/-- The oldest instruction of the remainder with the granule at which it stopped (R40, R407); an episode's is
its vfetch. -/
def Hart.oldest (h : Hart) : Option (Addr × Nat) :=
  match h.oldestEpisode, h.vcq with
  | some e, _ => some (e.vf, 0)
  | none, v :: _ => some (v.pc, if v.stopped then granuleOf v.instr h.vstart.toNat else 0)
  | none, [] => none

/-- Forget the traps that the queue and the bound streams hold: what raised them is tried again (R211, R402, R412). -/
def Hart.clearTraps (h : Hart) : Hart :=
  { h with
    vcq := h.vcq.map fun (e : VEntry) => { e with trap := none }
    streams := h.streams.map fun (p : Nat × Option Stream) => (p.1, p.2.map fun b => { b with trap := none }) }

/-! ## vstart, fflags and srseed in program order (R64, R95, R339) -/

/-- An instruction of the vector access stream (R170). -/
def isAccess : Instr → Bool
  | .vld .. | .vlds .. | .vldx .. | .vst .. | .vsts .. | .vstx .. | .vldq .. | .vstq .. | .vbind .. | .vunbind ..
  | .stmap .. | .stwb .. | .stdrop .. | .vamo .. => true
  | _ => false

/-- The vector streams have no unfinished instruction. -/
def Hart.idle (h : Hart) : Bool := h.vcq.isEmpty && h.episode.isNone

/-- Set vstart for the instructions that issue from now on: at once where no earlier one is unfinished, or for the
queue that a handler or the debugger finds frozen (R41, R95, R402, R417). -/
def Hart.setVstart (v : BitVec 13) (h : Hart) : Hart :=
  if h.idle || h.vqf || h.run == .halted then { h with vstart := v } else { h with vsets := h.vsets ++ [(h.vseq, v)] }

/-- Set SEED and CTR for the instructions that issue from now on (R64); the debugger sets what the register holds. -/
def Hart.setSeed (seed ctr : BitVec 32) (h : Hart) : Hart :=
  if h.idle || h.run == .halted then { h with seed := seed, ctr := ctr }
  else { h with srsets := h.srsets ++ [(h.vseq, seed, ctr)] }

/-- Set fflags: the flags of the instructions that are unfinished are lost (R64). -/
def Hart.setFflags (f : BitVec 6) (h : Hart) : Hart :=
  if h.run == .halted then { h with fflags := f }
  else { h with
    fflags := f
    vcq := h.vcq.map fun (e : VEntry) => { e with env := { e.env with quiet := true } }
    episode := h.episode.map fun ep => { ep with env := { ep.env with quiet := true } } }

/-- Some unfinished instruction of the queue that satisfies a test, or an episode, has a sequence number below n. -/
def Hart.unfinishedBelow (ok : Instr → Bool) (n : Nat) (h : Hart) : Bool :=
  h.vcq.any (fun e => ok e.instr && decide (e.env.seq < n))
    || (match h.episode with | some ep => decide (ep.env.seq < n) | none => false)

/-- vstart, SEED and CTR take the values whose earlier instructions have completed; the vector access stream uses
neither SEED nor CTR. -/
def Hart.settle (h : Hart) : Hart :=
  let h := h.vsets.foldl (fun (x : Hart) (p : Nat × BitVec 13) =>
    if x.unfinishedBelow (fun _ => true) p.1 then x else { x with vstart := p.2, vsets := x.vsets.drop 1 }) h
  h.srsets.foldl (fun (x : Hart) (p : Nat × BitVec 32 × BitVec 32) =>
    if x.unfinishedBelow (fun i => !isAccess i) p.1 then x
    else { x with seed := p.2.1, ctr := p.2.2, srsets := x.srsets.drop 1 }) h

/-- VPC of the header (R409). -/
def Hart.vpcWord (h : Hart) : Word :=
  match h.oldest with
  | some (a, g) => pcWord a g
  | none => 0

/-- The code of a save's reason (R409). -/
def Reason.code : Reason → Nat
  | .yield => 1 | .forced => 2 | .elastic => 3 | .tenant => 4

/-- Physical address of the save area. -/
def Hart.area (h : Hart) : Nat := h.csave.toNat * 4096

/-- Regions of the header that CHK covers or that must keep their bytes (R409). -/
def headerRegions : List (Nat × Nat) := [(8, 8), (18, 3), (22, 2), (40, 216)]

/-- The opaque regions of a save area: offset and length (R409). -/
def opaqueRegions : List (Nat × Nat) := [(0x300, 3328), (0x1000, 61440), (0x32000, 131072)]

namespace State

/-- Replace a long run of bytes by the device itself. -/
def fillDev (pa : Nat) (bs : List Byte) (s : State) : State :=
  if s.pkg.migFwd || s.pkg.fwds ≠ [] then s.writeDev pa bs
  else
    let n := bs.length
    { s with
      mem := tfill 0 (s.patchHome pa bs).mem pa bs
      dirty := (s.patchHome pa bs).dirty
      residue := (s.recode pa n).residue
      tags := s.tags.filter fun p => decide (p.1 * 128 + 128 ≤ pa) || decide (pa + n ≤ p.1 * 128) }

/-- Bytes that the manual leaves open (log 12). -/
def freeBytes (n : Nat) (s : State) : List Byte := (List.range n).map fun i => Config.freeByte (s.fresh + i)

/-- Write an opaque region. -/
def fillOpaque (pa n : Nat) (s : State) : State :=
  let s' := s.fillDev pa (s.freeBytes n)
  { s' with fresh := s.fresh + n }

/-- What the regions hold that a restore compares (R409). -/
def opaqueAt (s : State) (area : Nat) : List Host.Cell :=
  (headerRegions ++ opaqueRegions).flatMap fun r => tslice s.mem (area + r.1) r.2

/-- Write the area at csave (R409). -/
def writeArea (reason : Reason) (spc fva : Word) (groups : Nat) (s : State) : State :=
  let h := s.hart
  let a := h.area
  let chk := Config.freeWord s.fresh
  let header := bytesOf 8 spc ++ bytesOf 8 h.vpcWord ++ leBytes 2 h.vstart.toNat ++ leBytes 2 h.vl.toNat
    ++ leBytes 1 groups ++ leBytes 1 reason.code ++ leBytes 2 h.cid.toNat ++ bytesOf 8 fva
    ++ bytesOf 8 s.pkg.time ++ bytesOf 8 chk ++ leBytes 208 0
  let sregs := (List.range 64).flatMap fun k => bytesOf 8 (h.rs k)
  let vregs := (List.range 32).flatMap fun k => (List.range 1024).flatMap fun e =>
    leBytes 4 (if e < h.vl.toNat then (h.rv k e).toNat else 0)
  let masks := (List.range 8).flatMap fun k => (List.range 1024).map fun e =>
    if e < h.vl.toNat then h.rmask k e else 0
  let s := { s with fresh := s.fresh + 1 }
  let s := s.fillDev a (header ++ sregs)
  let s := s.fillOpaque (a + 0x300) 3328
  let s := s.fillOpaque (a + 0x1000) 61440
  let s := s.fillDev (a + 0x10000) (vregs ++ masks)
  s.fillOpaque (a + 0x32000) 131072

/-- The focused hart's save area lies at a stopped home slice: its save waits (R463). -/
def areaHeld (s : State) : Bool := s.rangeHeld s.hart.area 0x52000

/-- Save the focused hart's context (R407, R408): the streams have stopped, the area is written, its lane
groups are released, its tiles, commands and replays stay with it, and its slot becomes empty. -/
def saveContext (reason : Reason) (spc fva : Word) (s : State) : State :=
  let s := (s.lateStores.withdraw s.cur).onH Hart.abandon
  let groups := s.groups
  let s := s.writeArea reason spc fva groups
  let h := s.hart
  let kept := { h.clearTraps with
    waiting := none
    yreq := false
    ydl := 0
    pc := pcOf spc
    drainFor := 2048
    lag := false }
  let c : Saved := ⟨kept, s.cur, spc, h.vpcWord, groups, reason, fva, s.opaqueAt h.area⟩
  let s := { s with saved := s.saved ++ [c] }.carryCounters s.cur false h
  let s := s.modCore s.coreNo (Core.release s.hartNo)
  let s := s.cleanIf fun d => decide (d.core = s.coreNo) && decide (d.cid = h.cid)
  s.vacate { Hart.reset with mtvec := s.hart.mtvec, psel := s.hart.psel }

/-! ## Taking a trap (R395 to R399) -/

/-- The task of the focused hart ends with STATUS 2 (R399). A context of no launch, which is firmware,
just ends (log 24). -/
def endTask (s : State) : State :=
  match s.hart.launch with
  | some q => s.stopLaunch q 2
  | none => s.leave

/-- A trap that ends the task (R399). -/
def terminal (s : State) (t : Trap) : Bool :=
  t.cause == .range || t.cause == .fetch || (t.cause == .translation && s.isPinned t.tval)
    || (s.hart.dAct && t.cause != .doff) || s.hart.inh

/-- What tcause, tpc and tval hold where no handler runs: an Illegal Instruction and a fetch fault are recorded there whenever
they are raised (R15, R36, R395), and no other terminal trap is (log 116, DEDUCED). -/
def recordTrap (vq : Bool) (t : Trap) (pc : Addr) (h : Hart) : Hart :=
  if t.cause = .fetch || t.cause = .illegal then
    { h with tVq := vq, tCause := t.cause.code, tpc := pcWord pc 0, tval := t.tval }
  else h

/-- The end that a terminal trap brings: at management level a package fault of class 7, otherwise the end of the task (R397,
R399, R474). -/
def terminate (vq : Bool) (t : Trap) (pc : Addr) (s : State) : State :=
  let s := s.onH (recordTrap vq t pc)
  if s.hart.level = .management then s.packageFault 7 (t.cause.code.setWidth 64) else s.endTask

/-- A trap that saves the context instead (R412). -/
def elasticTrap (s : State) (t : Trap) : Bool := t.cause == .translation && s.isElastic t.tval

/-- Enter the handler (R397, R398): saved registers, level and the handler's address. A waiting instruction
is left without effect. -/
def enterHandler (vq : Bool) (t : Trap) (tpc tspc : Word) (s : State) : State :=
  let s := (s.withdraw s.cur).onH Hart.abandon
  s.onH fun h => { h with
    waiting := none
    tVq := vq
    tCause := t.cause.code
    tpc := tpc
    tval := t.tval
    tspc := tspc
    vqf := h.vqf || vq
    pprv := h.level.code
    inh := true
    level := if h.level = .management then .management else .supervisor
    pc := if h.level = .management then h.mtvec ++ (0 : BitVec 2) else h.tvec ++ (0 : BitVec 2) }

/-- The Illegal Instruction of a word: tval is its bits 95:32 (R36). -/
def illegalTrap (w : BitVec 96) : Trap := ⟨.illegal, w.extractLsb' 32 64⟩

/-- Take a trap raised by the scalar stream's instruction at pc, which resumes at resume (R397, R399, R412). An access that
waits for a stopped home slice is no trap, and neither is the save of an elastic fault that waits for one: the instruction has
no effect and is tried again (R463). -/
def takeTrapTo (t : Trap) (resume : Addr) (s : State) : State :=
  if t.cause = .held || (!s.terminal t && s.elasticTrap t && s.areaHeld) then s.onH fun h => { h with heldUp := true }
  else if s.terminal t then s.terminate false t s.hart.pc
  else if s.elasticTrap t then s.saveContext .elastic (pcWord s.hart.pc 0) t.tval
  else s.enterHandler false t (pcWord s.hart.pc 0) (pcWord resume 0)

/-- Take a trap whose instruction executes again on return. -/
def takeTrap (t : Trap) (s : State) : State := s.takeTrapTo t s.hart.pc

/-- Take the trap of the oldest instruction of the vector command queue: instr at pc, stopped at element e
(R398). The scalar stream stops at its boundary, and the queue is frozen. An elastic fault whose save waits for a stopped home
slice is raised again (R463). -/
def takeVectorTrap (t : Trap) (instr : Instr) (pc : Addr) (stopped : Bool) (e : Nat) (s : State) : State :=
  let s := if stopped then s.onH fun h => { h with vstart := BitVec.ofNat 13 e } else s
  if s.terminal t then s.terminate true t pc
  else if s.elasticTrap t then if s.areaHeld then s else s.saveContext .elastic (pcWord s.hart.pc 0) t.tval
  else s.enterHandler true t (pcWord pc (if stopped then granuleOf instr e else 0)) (pcWord s.hart.pc 0)

/-- Return from a handler (R402). -/
def returnTrap (s : State) : State :=
  s.onH fun h => { h with
    level := Level.ofCode h.pprv, inh := false, vqf := false, waiting := none, pc := pcOf h.tspc }

/-- A Doff Violation of code (R342): the holding ends, the routine ends, and the trap is taken at tdpc. -/
def doffViolation (code : Nat) (s : State) : State :=
  let h := s.hart
  let n := h.dSlot
  let s := s.modCore s.coreNo fun c =>
    if (c.tile n.toNat).holder = some (h.key s.cur) then c.freeTile n.toNat else c
  let s := s.onH fun h => { h.setVstart h.dSvst with
    dAct := false
    dLast := 0
    dLslot := n
    pc := pcOf h.tdpc }
  s.takeTrap ⟨.doff, BitVec.ofNat 64 (code + 65536 * n.toNat)⟩

/-! ## The frame of an instruction of the scalar stream -/

/-- Complete an instruction: the next one is at pc + 12 (R14). -/
def advance (s : State) : State := s.onH fun h => { h with pc := h.pc + 12, waiting := none }

/-- Complete a transfer of control. -/
def jump (a : Addr) (s : State) : State := s.onH fun h => { h with pc := a, waiting := none }

/-- An issued instruction waits (R72). -/
def await (i : Instr) (s : State) : State := s.onH fun h => { h with waiting := some i, tscAt := none }

end State

/-- An instruction with a true guard runs; any other has no effect (R18). -/
def guarded (c : Ctl) (s : State) (f : State → State) : Out :=
  if s.hart.guard c then .next (f s) else .next s.advance

end Sys2Proof.Machine
end

