-- ==== Sys2Proof/Machine/Access.lean ====
section
/-! DEFINITION. Virtual memory: the cluster window, page-table walks, the checks of R198 in their order,
and checked loads, stores and fetches with the lining (R184 to R198, R380 to R391, R423 to R426, R436). -/

namespace Sys2Proof.Machine

/-- On whose behalf an access is made (R198, R278, R362, R388). -/
structure Agent where
  pid    : Byte
  level  : Level
  core   : Nat
  /-- the translation cache it uses; the queue processor has none (R384) -/
  cache  : Option Cache
  cid    : BitVec 12
  /-- the launch and its declared ranges; none without a launch -/
  launch : Option Word
  ranges : Option (List Range)
deriving DecidableEq, Repr

/-- The holder of the lines that its accesses bring into a stash. -/
def Agent.holder (a : Agent) : Holder := ⟨a.pid, a.cid⟩

/-- Kinds of access (R198, R382). -/
inductive Kind where
  | load | store | rmw | fetch
deriving DecidableEq, Repr

/-- A requested access. -/
structure Req where
  va    : Word
  n     : Nat
  kind  : Kind
  /-- of a vector instruction, an engine or a bound stream, which no device page admits -/
  vec   : Bool
  /-- natural alignment is required -/
  al    : Bool
deriving DecidableEq, Repr

/-- A checked access: its parts in order, and the leaves that its walks read. -/
structure Acc where
  chunks : List Chunk
  fills  : List TlbEntry
deriving DecidableEq, Repr

/-! ## Walks (R381, R382, R384) -/

/-- Outcome of a walk: a leaf; an invalid or malformed entry; a table outside device memory; a table to wait for. -/
inductive Walk where
  | leaf (e : TlbEntry)
  | invalid
  | badTable
  /-- the table lies at home slices that are stopped (R463) -/
  | held
deriving DecidableEq, Repr

/-- log2 of the page size at a level (R381). -/
def levelShift : Nat → Nat
  | 0 => 16 | 1 => 21 | 2 => 30 | 3 => 39 | _ => 48

/-- The index bits of a level (R381). -/
def levelIndex (l : Nat) (va : Word) : Nat := va.toNat / 2 ^ levelShift l % (if l = 0 then 32 else 512)

/-- A valid entry is malformed (R382). -/
def malformed (l : Nat) (e : Word) : Bool :=
  e.extractLsb' 52 12 ≠ 0 || e.extractLsb' 6 2 ≠ 0
    || (if e.getLsbD 1 then decide (3 ≤ l) || decide ((e.extractLsb' 8 44).toNat * 256 % 2 ^ levelShift l ≠ 0)
        else l == 0 || decide (e.extractLsb' 2 4 ≠ 0))

/-- Walk from the table of level l (R381). -/
def State.walkFrom (s : State) (pid : Byte) (va : Word) : Nat → Nat → Walk
  | l, table =>
      if !isDevice table then .badTable
      else if s.homeStopped (table + 8 * levelIndex l va) then .held
      else
        let e := s.word8 (table + 8 * levelIndex l va)
        if !e.getLsbD 0 || malformed l e then .invalid
        else
          let addr := (e.extractLsb' 8 44).toNat * 256
          if e.getLsbD 1 then
            let size := 2 ^ levelShift l
            .leaf ⟨.core 0, pid, va.toNat % 2 ^ 57 / size * size, size, addr, e.getLsbD 5, e.getLsbD 4, e.extractLsb' 2 2⟩
          else
            match l with
            | 0 => .invalid
            | l' + 1 => s.walkFrom pid va l' addr

/-- Every leaf of a partition below the table of level l that maps the addresses from va on (R381). -/
def State.leavesFrom (s : State) (pid : Byte) : Nat → Nat → Nat → List TlbEntry
  | l, table, va =>
      if !isDevice table then []
      else
        (List.range (if l = 0 then 32 else 512)).flatMap fun i =>
          let e := s.word8 (table + 8 * i)
          let addr := (e.extractLsb' 8 44).toNat * 256
          let size := 2 ^ levelShift l
          if !e.getLsbD 0 || malformed l e then []
          else if e.getLsbD 1 then
            [⟨.core 0, pid, va + i * size, size, addr, e.getLsbD 5, e.getLsbD 4, e.extractLsb' 2 2⟩]
          else
            match l with
            | 0 => []
            | l' + 1 => s.leavesFrom pid l' addr (va + i * size)

/-- Every leaf of a partition's tables. -/
def State.leaves (s : State) (pid : Byte) : List TlbEntry := s.leavesFrom pid 4 ((s.partAt pid).ptroot.toNat * 4096) 0

/-- The translation of a partition's address: a leaf of the translation cache, and true, or a walk (R384). -/
def State.lookup (s : State) (cache : Option Cache) (pid : Byte) (va : Word) : Walk × Bool :=
  let v := va.toNat % 2 ^ 57
  match s.tlb.find? fun e =>
      cache = some e.cache && e.pid = pid && decide (e.va ≤ v) && decide (v < e.va + e.size) with
  | some e => (.leaf e, true)
  | none =>
      match s.walkFrom pid va 4 ((s.partAt pid).ptroot.toNat * 4096), cache with
      | .leaf e, some c => (.leaf { e with cache := c }, false)
      | w, _ => (w, false)

namespace State

/-! ## The cluster window (R193, R194) -/

/-- The address that an access names, and the core that holds it: none for a Stash Window Fault. -/
def window (s : State) (a : Agent) (va : Word) : Option (Word × Nat) :=
  let p := s.partAt a.pid
  if p.cwEn && va.extractLsb' 26 31 = p.cwBase then
    let o := (va.extractLsb' 0 26).toNat
    if 48 * 2 ^ 20 ≤ o then none
    else
      let core := a.core / Config.coresPerCluster * Config.coresPerCluster + o / Config.stashBytes
      let so := o % Config.stashBytes
      match (s.mapsOf a.cid).find? fun e =>
          e.1 / 32 == core && decide (e.2.soff ≤ so) && decide (so < e.2.soff + e.2.size) with
      | some e => some (e.2.base + BitVec.ofNat 64 (so - e.2.soff), core)
      | none => none
  else some (va, a.core)

/-! ## The checks (R198) -/

/-- The owner of a frame admits an agent (R388). -/
def admits (s : State) (a : Agent) (pa : Nat) : Bool :=
  let o := s.owner (pa / 2 ^ 16)
  !isDevice pa || (if a.level = .user then o = 0x0100 + a.pid.setWidth 16
    else o = 0x0001 || o.extractLsb' 8 8 = 1)

end State

/-- An address lies in the declared memory of a launch (R368). -/
def inRanges (rs : List Range) (va : Word) : Bool :=
  rs.any fun r => decide (r.base.toNat ≤ va.toNat) && decide (va.toNat < r.base.toNat + r.len)

/-- Split an access at 4 KiB boundaries: address and length of each part. -/
def blocks : Nat → Word → Nat → List (Word × Nat)
  | 0, _, _ => []
  | fuel + 1, va, n =>
      if n = 0 then []
      else
        let k := min n (4096 - va.toNat % 4096)
        (va, k) :: blocks fuel (va + BitVec.ofNat 64 k) (n - k)

namespace State

/-- Resolve every part through the window. -/
def resolve (s : State) (a : Agent) : List (Word × Nat) → Option (List (Word × Nat × Word × Nat))
  | [] => some []
  | (va, n) :: t =>
      match s.window a va, s.resolve a t with
      | some (m, c), some r => some ((va, n, m, c) :: r)
      | _, _ => none

/-- Translate every part: the parts with their leaves, or the trap of the first part without translation. -/
def translate (s : State) (a : Agent) :
    List (Word × Nat × Word × Nat) → Except Trap (List (Chunk × Option TlbEntry × Bool))
  | [] => .ok []
  | (va, n, m, c) :: t =>
      match s.lookup a.cache a.pid m with
      | (.invalid, _) => .error ⟨.translation, m⟩
      | (.held, _) => .error ⟨.held, m⟩
      | (.badTable, _) =>
          match s.translate a t with
          | .error e => .error e
          | .ok r => .ok ((⟨va, m, c, 0, n, 0⟩, none, false) :: r)
      | (.leaf e, hit) =>
          match s.translate a t with
          | .error e => .error e
          | .ok r => .ok ((⟨va, m, c, e.pa + (m.toNat % 2 ^ 57 - e.va), n, e.attr⟩, some e, hit) :: r)

/-- The permission check of one part (R198 order 5, R187, R380, R382, R388). -/
def permitted (s : State) (a : Agent) (q : Req) (p : Chunk × Option TlbEntry × Bool) : Bool :=
  match p.2.1 with
  | none => false
  | some e =>
      (e.u || a.level ≠ .user)
        && (match q.kind with
            | .load => true
            | .store | .rmw => decide (e.attr ≠ 1)
            | .fetch => e.x)
        && (e.attr ≠ 3 || (!q.vec && q.va.toNat % q.n == 0 && (q.kind == .load || q.kind == .store)))
        && inRegion p.1.pa && s.admits a p.1.pa

/-- A part lies at a peer that cannot be reached (R391). -/
def unreachable (s : State) (c : Chunk) : Bool := isPeer c.pa && !s.pkg.peersUp.contains (peerOf c.pa)

/-- A part has lines at home slices whose zone is stopped (R463). -/
def waitsFor (s : State) (c : Chunk) : Bool := (linesOf c).any fun l => s.homeStopped (l * 128)

/-- The addresses of the records of a store, in order (R423). -/
def recordAddrs (acc : Acc) : List Word :=
  acc.chunks.flatMap fun c => (pieces c.mva c.n).map fun p => c.mva + BitVec.ofNat 64 p.1

/-- A write of the focused hart's context waits for the slots of its lining records (R423, R463). -/
def recordsHeld (s : State) (a : Agent) (kind : Kind) (chunks : List Chunk) : Bool :=
  s.zonesB ≠ [] && (kind = .store || kind = .rmw)
    && (match a.cache with | some (.core _) => a.cid == s.hart.cid && a.launch == s.hart.launch | _ => false)
    && s.appendHeld (recordAddrs ⟨chunks, []⟩).length

/-- Check(va, size, kind): the first failing check is raised (R198, R194, R391, R436). -/
def check (s : State) (a : Agent) (q : Req) : Except Trap Acc :=
  if q.n = 0 then .ok ⟨[], []⟩
  else if !(canonical q.va && canonical (q.va + BitVec.ofNat 64 (q.n - 1))) then .error ⟨.translation, q.va⟩
  else if q.al && q.va.toNat % q.n ≠ 0 then .error ⟨.misaligned, q.va⟩
  else
    match s.resolve a (blocks (q.n / 4096 + 2) q.va q.n) with
    | none => .error ⟨.stashWindow, q.va⟩
    | some ps =>
        let va := match ps with | (_, _, m, _) :: _ => m | [] => q.va
        if q.kind ≠ .fetch && (match a.ranges with | some rs => ps.any fun p => !inRanges rs p.2.2.1 | none => false)
        then .error ⟨.range, va⟩
        else
          match s.translate a ps with
          | .error e => .error e
          | .ok cs =>
              let chunks := cs.map (·.1)
              if !cs.all (s.permitted a q) then .error ⟨.protection, va⟩
              else if chunks.any s.unreachable then .error ⟨.remote, va⟩
              else if chunks.any s.waitsFor || s.recordsHeld a q.kind chunks then .error ⟨.held, va⟩
              else if q.kind ≠ .store && chunks.any (fun c => s.poisoned c.pa c.n) then .error ⟨.dataError, va⟩
              else .ok ⟨chunks, if a.cache.isNone then [] else cs.filterMap fun c => if c.2.2 then none else c.2.1⟩

/-! ## Performing an access -/

/-- Keep the leaves that a walk read (R384). -/
def keep (fills : List TlbEntry) (s : State) : State :=
  if fills = [] then s else { s with tlb := s.tlb ++ fills.filter fun e => !s.tlb.contains e }

/-- A load of a private page moves its dirty lines to the accessing core, and one of a read-only page fills that core's stash
(R187, R190). -/
def touch (o : Holder) (c : Chunk) (s : State) : State :=
  if c.attr = 0 then s.eachLine o.cid c (moveLine c.core o)
  else if c.attr = 1 then s.eachLine o.cid c fun _ _ s => s
  else s

/-- The bytes of an access. -/
def bytesAt (s : State) (acc : Acc) : List Byte := acc.chunks.flatMap fun c => s.bytes c.pa c.n

/-- Perform a load: its bytes, and the state after it. -/
def loadAt (o : Holder) (acc : Acc) (s : State) : List Byte × State :=
  (s.bytesAt acc, acc.chunks.foldl (fun s c => s.touch o c) (s.keep acc.fills))

end State

/-- How a store is recorded (R413, R423). -/
structure RecMeta where
  kind : Nat
  pc   : Word
  qual : Word
  win  : BitVec 32
deriving DecidableEq, Repr

namespace State

/-- The records of a list of stores fit, or the address of the first that does not (R426). -/
def logFull (s : State) (addrs : List Word) : Option Word :=
  if s.noRoom addrs.length then some (addrs.getD s.room 0) else none

/-- A write that leaves the chip or reaches a device page is of KIND 4 (R423). -/
def kindOf (m : RecMeta) (c : Chunk) : Nat := if !isDevice c.pa || c.attr = 3 then 4 else m.kind

/-- Append the records of one part (R423). -/
def logChunk (m : RecMeta) (c : Chunk) (bs : List Byte) (s : State) : State :=
  if !s.logged then s
  else
    (pieces c.mva c.n).foldl (fun s p =>
      let k := kindOf m c
      s.append ⟨c.mva + BitVec.ofNat 64 p.1, if k = 4 then 0 else wordOf (s.bytes (c.pa + p.1) p.2),
        wordOf ((bs.drop p.1).take p.2), k, p.2, m.pc, m.qual, m.win⟩) s

/-- Perform one part of a store by the focused hart. -/
def storeChunk (m : RecMeta) (c : Chunk) (bs : List Byte) (s : State) : State :=
  let s := s.logChunk m c bs
  let s := s.soilChunk s.hart.holder c bs
  let s := s.write c.pa bs s.myTag
  let s := s.markFrame s.hart.launch c.pa
  s.noteWrite

/-- Perform the parts of a store in order. -/
def storeChunks (m : RecMeta) : List Chunk → List Byte → State → State
  | [], _, s => s
  | c :: cs, bs, s => storeChunks m cs (bs.drop c.n) (s.storeChunk m c (bs.take c.n))

/-- Perform a store of the focused hart: its bytes at its parts. -/
def storeAt (m : RecMeta) (acc : Acc) (bs : List Byte) (s : State) : State :=
  storeChunks m acc.chunks bs (s.keep acc.fills)

/-- The parts of a store as ranges of physical memory, for poison (R436). -/
def extents (s : State) (acc : Acc) : List (Nat × Nat) := acc.chunks.flatMap s.spans

/-! ## Accesses of the focused hart -/

/-- The focused hart as an accessor. -/
def agent (s : State) : Agent :=
  ⟨s.hart.pid, s.hart.level, s.coreNo, some (.core s.coreNo), s.hart.cid, s.hart.launch, s.myLaunch.map (·.ranges)⟩

/-- The focused hart as an accessor at a given level. -/
def agentAt (s : State) (l : Level) : Agent := { s.agent with level := l }

/-- A load of the hart: a trap, or the bytes and the state after. -/
def load (s : State) (va : Word) (n : Nat) (vec al : Bool) : Except Trap (List Byte × State) :=
  match s.check s.agent ⟨va, n, .load, vec, al⟩ with
  | .error t => .error t
  | .ok acc => .ok (s.loadAt s.hart.holder acc)

/-- A store of the hart, one unit of the lining (R426). -/
def store (s : State) (va : Word) (bs : List Byte) (vec al : Bool) (m : RecMeta) : Except Trap State :=
  match s.check s.agent ⟨va, bs.length, .store, vec, al⟩ with
  | .error t => .error t
  | .ok acc =>
      match s.logFull (recordAddrs acc) with
      | some a => .error ⟨.liningFull, a⟩
      | none => .ok ((s.storeAt m acc bs).cover (s.extents acc))

/-- The record of a store by the scalar instruction at pc. -/
def recOf (s : State) (kind : Nat) : RecMeta := ⟨kind, pcWord s.hart.pc 0, 0, s.hart.wcur⟩

/-! ## Fetching an instruction (R14, R395) -/

/-- What the focused hart's instruction caches hold of the word at a physical address (R16). -/
def cachedWord (s : State) (pa : Nat) : Option (List Byte) :=
  (s.icache.find? fun (w : CachedWord) => w.hart == s.cur && w.pa == pa).map fun (w : CachedWord) => w.bytes

/-- The instruction caches of hart h hold the word at a physical address as it is now, unless they hold it already (R16). -/
def fillWord (h pa : Nat) (s : State) : State :=
  if s.icache.any fun w => w.hart == h && w.pa == pa then s else { s with icache := ⟨h, pa, s.bytes pa 4⟩ :: s.icache }

/-- The instruction caches drop the words that satisfy a test. -/
def dropWords (f : CachedWord → Bool) (s : State) : State :=
  if s.icache = [] then s else { s with icache := s.icache.filter fun w => !f w }

/-- The parts of a range with their translations, as the accessor itself would use them: a cached one while it stands (R379,
R383, R384). -/
def walksOf (s : State) (g : Agent) (va : Word) (n : Nat) : List (Word × Walk) :=
  (blocks (n / 4096 + 2) va n).filterMap fun p =>
    (s.window g p.1).map fun m => (m.1, (s.lookup g.cache g.pid m.1).1)

/-- A walk of a purge waits for a stopped home slice (R463). -/
def purgeHeld (g : Agent) (va : Word) (n : Nat) (s : State) : Bool :=
  s.zonesB ≠ [] && (s.walksOf g va n).any fun w => match w.2 with | .held => true | _ => false

/-- Every instruction cache drops the frames of the pages that a range of an accessor's addresses touches; pages without
translation are skipped (R378, R379). -/
def purge (g : Agent) (va : Word) (n : Nat) (s : State) : State :=
  if s.icache = [] then s
  else
    let frames := (s.walksOf g va n).filterMap fun w =>
      match w.2 with
      | .leaf e => some ((e.pa + (w.1.toNat % 2 ^ 57 - e.va)) / 65536)
      | _ => none
    s.dropWords fun w => frames.contains (w.pa / 65536)

/-- One 4-byte word of an instruction, or the trap of the first byte that cannot be fetched. -/
def fetchWord (s : State) (a : Addr) : Except Trap (List Byte × State) :=
  let va := a.signExtend 64
  match s.check s.agent ⟨va, 4, .fetch, false, false⟩ with
  | .error t => .error (if t.cause = .held then t else ⟨.fetch, va⟩)
  | .ok acc =>
      let pa := match acc.chunks with | c :: _ => c.pa | [] => 0
      .ok (match s.cachedWord pa with | some bs => bs | none => s.bytesAt acc, s.keep acc.fills)

/-- The 12 bytes of the instruction at an address. -/
def fetch (s : State) (a : Addr) : Except Trap (List Byte × State) :=
  match s.fetchWord a with
  | .error t => .error t
  | .ok (b0, s0) =>
      match s0.fetchWord (a + 4) with
      | .error t => .error t
      | .ok (b1, s1) =>
          match s1.fetchWord (a + 8) with
          | .error t => .error t
          | .ok (b2, s2) => .ok (b0 ++ b1 ++ b2, s2)

end State

end Sys2Proof.Machine
end

