-- ==== Sys2Proof/Machine/Flags.lean ====
section
/-! DEFINITION. The flags of fflags (R59) and the integer results that set one (R42 to R44). -/

namespace Sys2Proof.Machine

/-- A set of flags (R59). -/
abbrev Flags := BitVec 6

/-- An integer result was saturated. -/
def fIS : Flags := 0x20
/-- Invalid operation. -/
def fNV : Flags := 0x10
/-- Division by zero. -/
def fDZ : Flags := 0x08
/-- Overflow. -/
def fOF : Flags := 0x04
/-- Tiny and inexact. -/
def fUF : Flags := 0x02
/-- Inexact. -/
def fNX : Flags := 0x01

/-- A flag on a condition. -/
def flagIf (b : Bool) (f : Flags) : Flags := if b then f else 0

/-- Least value of an integer format (R42). -/
def fmtLo (f : Fmt) : Int := if f.signed then -(2 ^ (f.width - 1) : Nat) else 0
/-- Greatest value of an integer format (R42). -/
def fmtHi (f : Fmt) : Int :=
  if f.signed then (2 ^ (f.width - 1) : Nat) - 1 else (2 ^ f.width : Nat) - 1

/-- A w-bit pattern read in the format's signedness (R42). -/
def fmtRead (f : Fmt) (n : Nat) : Int := if f.signed then signedOf f.width n else ((n % 2 ^ f.width : Nat) : Int)

/-- Wrap(fmt, x) (R43). -/
def wrapTo (f : Fmt) (x : Int) : Int := fmtRead f (wrapNat f.width x)

/-- Sat(fmt, x) without its flag (R43). -/
def clampTo (f : Fmt) (x : Int) : Int := if x < fmtLo f then fmtLo f else if fmtHi f < x then fmtHi f else x

/-- Wrap without .s, Sat with it, with the flag that Sat sets (R43). -/
def fitTo (f : Fmt) (sat : Bool) (x : Int) : Int × Flags :=
  if sat then (clampTo f x, flagIf (decide (clampTo f x ≠ x)) fIS) else (wrapTo f x, 0)

/-- Quotient of R44: all ones for a zero divisor, and the overflow case under .s. -/
def quotient (f : Fmt) (sat : Bool) (a b : Int) : Int × Flags :=
  if b = 0 then (if f.signed then -1 else fmtHi f, 0) else fitTo f sat (Int.tdiv a b)

/-- Remainder of R44. -/
def remainder (a b : Int) : Int := if b = 0 then a else Int.tmod a b

/-- A comparison by a relation code (R31). -/
def relHolds : Rel → Int → Int → Bool
  | .eq, a, b => decide (a = b)
  | .ne, a, b => decide (a ≠ b)
  | .lt, a, b => decide (a < b)
  | .ge, a, b => decide (b ≤ a)
  | .le, a, b => decide (a ≤ b)
  | .gt, a, b => decide (b < a)

/-- A comparison of two 64-bit values, signed or natural (R31, R83). -/
def relHolds64 (r : Rel) (nat : Bool) (a b : Word) : Bool :=
  if nat then relHolds r a.toNat b.toNat else relHolds r a.toInt b.toInt

end Sys2Proof.Machine
end

