-- ==== Sys2Proof/Machine/Float.lean ====
section
/-! DEFINITION. Floating point: exact values, RoundTo with its flags (R45 to R60), exact sums, products,
quotients and roots, the estimates of R122, and conversions (R128). -/

namespace Sys2Proof.Machine

/-! ## Formats -/

/-- The format of one subelement (R52). -/
def elemFmt : Fmt → Fmt
  | .i16x2 => .i16 | .i8x4 => .i8 | .f16x2 => .f16 | .e4m3x4 => .e4m3 | .e2m1x8 => .e2m1
  | f => f

/-- Fraction bits (R45). -/
def fracBits : Fmt → Nat
  | .f32 => 23 | .f16 => 10 | .bf16 => 7 | .e4m3 => 3 | .e5m2 => 2 | _ => 1

/-- Exponent bits (R45). -/
def expBits : Fmt → Nat
  | .f32 | .bf16 => 8 | .f16 | .e5m2 => 5 | .e4m3 => 4 | _ => 2

/-- Exponent bias (R45). -/
def expBias : Fmt → Nat
  | .f32 | .bf16 => 127 | .f16 | .e5m2 => 15 | .e4m3 => 7 | _ => 1

/-- The format has infinities (R45). -/
def hasInf : Fmt → Bool
  | .f32 | .f16 | .bf16 | .e5m2 => true
  | _ => false

/-- Pattern of the largest finite magnitude (R45). -/
def maxFinite : Fmt → Nat
  | .f32 => 0x7F7FFFFF | .f16 => 0x7BFF | .bf16 => 0x7F7F | .e4m3 => 0x7E | .e5m2 => 0x7B | _ => 7

/-- The canonical NaN (R46); e2m1 has none and reads +0 (R55). -/
def canonNaN : Fmt → Nat
  | .f32 => 0x7FC00000 | .f16 => 0x7E00 | .bf16 => 0x7FC0 | .e4m3 => 0x7F | .e5m2 => 0x7E | _ => 0

/-- Pattern of +∞ (R45). -/
def infBits (f : Fmt) : Nat := (2 ^ expBits f - 1) * 2 ^ fracBits f

/-- The sign bit of a format. -/
def signBit (f : Fmt) : Nat := 2 ^ (fracBits f + expBits f)

/-! ## Exact values -/

/-- An exact value: a NaN, quiet or signalling; an infinity; or ± m × 2^e, where sticky says that the true
magnitude lies strictly between m and m + 1 units. -/
inductive Fp where
  | nan (sig : Bool)
  | inf (neg : Bool)
  | fin (neg : Bool) (m : Nat) (e : Int) (sticky : Bool)
deriving DecidableEq, Repr

/-- The value of a pattern (R45, R46). -/
def fpOf (f : Fmt) (b : Nat) : Fp :=
  let fb := fracBits f
  let neg := b / signBit f % 2 = 1
  let ex := b / 2 ^ fb % 2 ^ expBits f
  let fr := b % 2 ^ fb
  if hasInf f && ex == 2 ^ expBits f - 1 then
    if fr = 0 then .inf neg else .nan (fr / 2 ^ (fb - 1) = 0)
  else if f = .e4m3 && ex == 15 && fr == 7 then .nan false
  else if ex = 0 then .fin neg fr (1 - (expBias f : Int) - fb) false
  else .fin neg (2 ^ fb + fr) ((ex : Int) - expBias f - fb) false

/-- A signalling NaN operand sets NV (R46). -/
def sigFlag : Fp → Flags
  | .nan true => fNV
  | _ => 0

/-- An integer as a value. -/
def fpInt (x : Int) : Fp := .fin (decide (x < 0)) x.natAbs 0 false

/-! ## Rounding (R53 to R56) -/

/-- Rounding modes; stochastic rounding carries its 16 random bits (R56). -/
inductive RMode where
  | rne | rtz | rup | rdn | rsr (u : Nat)
deriving DecidableEq, Repr

/-- SrBits (R56). -/
def srBits (seed ctr e : Nat) : Nat :=
  let x := (seed * 0x9E3779B9 + ctr * 0x85EBCA6B + e * 0xC2B2AE35) % 2 ^ 32
  let x := (x ^^^ (x / 2 ^ 16)) * 0x7FEB352D % 2 ^ 32
  let x := (x ^^^ (x / 2 ^ 15)) * 0x846CA68B % 2 ^ 32
  x ^^^ (x / 2 ^ 16)

/-- The mode of a code after vfmt.RM; u is the random bits where stochastic rounding is admitted (R53, R57, R62). -/
def modeOf (code rm : BitVec 3) (u : Option Nat) : RMode :=
  match (if code = 7 then rm else code).toNat with
  | 1 => .rtz | 2 => .rup | 3 => .rdn
  | 4 => match u with | some u => .rsr u | none => .rne
  | _ => .rne

/-- The mode of a code is stochastic (R56). -/
def isStochastic (code rm : BitVec 3) : Bool := (if code = 7 then rm else code) = 4

/-- m / 2^k rounded to an integer, and whether that was inexact. -/
def shiftRound (mode : RMode) (neg : Bool) (m k : Nat) (sticky : Bool) : Nat × Bool :=
  if m = 0 && !sticky then (0, false)
  else if Nat.log2 m + 20 < k then
    (match mode with | .rup => if neg then 0 else 1 | .rdn => if neg then 1 else 0 | _ => 0, true)
  else
    let q := m / 2 ^ k
    let r := m % 2 ^ k
    let inexact := r ≠ 0 || sticky
    let up := match mode with
      | .rne => decide (2 ^ k < 2 * r) || (decide (2 * r = 2 ^ k) && k ≠ 0 && (sticky || q % 2 == 1))
      | .rtz => false
      | .rup => !neg && inexact
      | .rdn => neg && inexact
      | .rsr u => decide (u < r * 65536 / 2 ^ k)
    (if up then q + 1 else q, inexact)

/-- Scale a magnitude to units of 2^E and round. -/
def roundAt (mode : RMode) (neg : Bool) (m : Nat) (e E : Int) (sticky : Bool) : Nat × Bool :=
  if e < E then shiftRound mode neg m (E - e).toNat sticky else (m * 2 ^ (e - E).toNat, sticky)

/-- The mode rounds an overflow away from zero (R55). -/
def overflowAway (mode : RMode) (neg : Bool) : Bool :=
  match mode with
  | .rne | .rsr _ => true
  | .rtz => false
  | .rup => !neg
  | .rdn => neg

/-- The result of an overflow (R55). -/
def overflowBits (f : Fmt) (mode : RMode) (sat neg : Bool) : Nat :=
  let s := if neg then signBit f else 0
  if sat || f = .e2m1 || !overflowAway mode neg then s + maxFinite f
  else if hasInf f then s + infBits f else canonNaN f

/-- RoundTo(fmt, mode, x): the pattern and the flags OF, UF and NX, and NV for a NaN that becomes e2m1
(R54, R55, R60). Tininess is judged after a rounding with unbounded exponent (R47). DESIGN CHOICE (log 90): under stochastic
rounding that rounding draws the same random bits. -/
def roundTo (f : Fmt) (mode : RMode) (sat : Bool) (x : Fp) : Nat × Flags :=
  match x with
  | .nan _ => (canonNaN f, flagIf (decide (f = .e2m1)) fNV)
  | .inf neg =>
      if sat || !hasInf f then (overflowBits f mode sat neg, fOF ||| fNX)
      else ((if neg then signBit f else 0) + infBits f, 0)
  | .fin neg m e sticky =>
      let s := if neg then signBit f else 0
      if m = 0 && !sticky then (s, 0)
      else
        let fb : Int := fracBits f
        let emin : Int := 1 - expBias f
        let lx : Int := Nat.log2 m + e
        if (expBias f : Int) + 2 < lx then (overflowBits f mode sat neg, fOF ||| fNX)
        else
          let E := max (lx - fb) (emin - fb)
          let (r, inexact) := roundAt mode neg m e E sticky
          let bits := (E - (emin - fb)).toNat * 2 ^ fracBits f + r
          if maxFinite f < bits then (overflowBits f mode sat neg, fOF ||| fNX)
          else
            let tiny := decide (lx < emin)
              && !(lx == emin - 1 && (roundAt mode neg m e (lx - fb) sticky).1 == 2 ^ (fracBits f + 1))
            (s + bits, flagIf inexact fNX ||| flagIf (inexact && tiny) fUF)

/-! ## Exact operations -/

/-- Exact sum of two values (R54, R60): rdn says that the mode rounds toward −∞, which signs a zero sum. -/
def fpAdd (rdn : Bool) (a b : Fp) : Fp × Flags :=
  match a, b with
  | .nan _, _ | _, .nan _ => (.nan false, sigFlag a ||| sigFlag b)
  | .inf x, .inf y => if x = y then (.inf x, 0) else (.nan false, fNV)
  | .inf x, _ => (.inf x, 0)
  | _, .inf y => (.inf y, 0)
  | .fin x m e _, .fin y n g _ =>
      let k := min e g
      let p : Int := (m * 2 ^ (e - k).toNat : Nat)
      let q : Int := (n * 2 ^ (g - k).toNat : Nat)
      let t := (if x then -p else p) + (if y then -q else q)
      if t = 0 then (.fin (if x = y then x else rdn) 0 k false, 0)
      else (.fin (decide (t < 0)) t.natAbs k false, 0)

/-- Negate a value. -/
def fpNeg : Fp → Fp
  | .nan s => .nan s
  | .inf n => .inf (!n)
  | .fin n m e s => .fin (!n) m e s

/-- Exact product (R60). -/
def fpMul (a b : Fp) : Fp × Flags :=
  match a, b with
  | .nan _, _ | _, .nan _ => (.nan false, sigFlag a ||| sigFlag b)
  | .inf x, .inf y => (.inf (xor x y), 0)
  | .inf x, .fin y n _ _ => if n = 0 then (.nan false, fNV) else (.inf (xor x y), 0)
  | .fin x m _ _, .inf y => if m = 0 then (.nan false, fNV) else (.inf (xor x y), 0)
  | .fin x m e _, .fin y n g _ => (.fin (xor x y) (m * n) (e + g) false, 0)

/-- a × b + d, exact (R119). -/
def fpFma (rdn : Bool) (a b d : Fp) : Fp × Flags :=
  let (p, f) := fpMul a b
  let (r, g) := fpAdd rdn p d
  (r, f ||| g)

/-- Scale by a power of two. -/
def fpScale (a : Fp) (k : Int) : Fp :=
  match a with
  | .fin n m e s => .fin n m (e + k) s
  | x => x

/-- Quotient with its special cases (R119). -/
def fpDiv (a b : Fp) : Fp × Flags :=
  match a, b with
  | .nan _, _ | _, .nan _ => (.nan false, sigFlag a ||| sigFlag b)
  | .inf _, .inf _ => (.nan false, fNV)
  | .inf x, .fin y _ _ _ => (.inf (xor x y), 0)
  | .fin x _ _ _, .inf y => (.fin (xor x y) 0 0 false, 0)
  | .fin x m e _, .fin y n g _ =>
      if n = 0 then (if m = 0 then (.nan false, fNV) else (.inf (xor x y), fDZ))
      else (.fin (xor x y) (m * 2 ^ 80 / n) (e - g - 80) (decide (m * 2 ^ 80 % n ≠ 0)), 0)

/-- Integer square root, bit by bit. -/
def isqrtFrom (n : Nat) : Nat → Nat → Nat
  | 0, r => r
  | b + 1, r => isqrtFrom n b (if (r + 2 ^ b) * (r + 2 ^ b) ≤ n then r + 2 ^ b else r)

/-- Integer square root. -/
def isqrt (n : Nat) : Nat := isqrtFrom n (Nat.log2 n / 2 + 1) 0

/-- A magnitude with an even exponent. -/
def evenExp (m : Nat) (e : Int) : Nat × Int := if e % 2 = 0 then (m, e) else (2 * m, e - 1)

/-- Square root with its special cases (R119). -/
def fpSqrt (a : Fp) : Fp × Flags :=
  match a with
  | .nan _ => (.nan false, sigFlag a)
  | .inf n => if n then (.nan false, fNV) else (.inf false, 0)
  | .fin n m e _ =>
      if m = 0 then (.fin n 0 0 false, 0)
      else if n then (.nan false, fNV)
      else
        let (m', e') := evenExp m e
        let x := m' * 2 ^ 120
        let q := isqrt x
        (.fin false q (e' / 2 - 60) (decide (q * q ≠ x)), 0)

/-! ## Estimates (R122) -/

/-- floor(ln 2 × 2^256). -/
def ln2 : Nat := 80260960185991308862233904206310070533990667611589946606122867505419956976171

/-- The sum of the series of exp(y / 2^256) × 2^256 from a term on. -/
def expSeries : Nat → Nat → Nat → Nat → Nat
  | 0, _, _, _ => 0
  | fuel + 1, i, term, y => term + expSeries fuel (i + 1) (term * y / 2 ^ 256 / (i + 1)) y

/-- 2^a for a finite nonzero a: exact for an integer, otherwise to 240 bits, enough that no tie and no
neighbour of R122 is met (log 25). -/
def exp2Of (neg : Bool) (m : Nat) (e : Int) : Fp :=
  if 0 ≤ e || m % 2 ^ (-e).toNat == 0 then
    let n : Int := if 0 ≤ e then (m * 2 ^ e.toNat : Nat) else (m / 2 ^ (-e).toNat : Nat)
    .fin false 1 (if neg then -n else n) false
  else
    let k := (-e).toNat
    let n : Int := (m / 2 ^ k : Nat)
    let r := m % 2 ^ k
    let (n, f) := if neg then (-n - 1, 2 ^ k - r) else (n, r)
    .fin false (expSeries 70 0 (2 ^ 256) (f * ln2 / 2 ^ k)) (n - 256) true

/-- Bits of log2(y / 2^512) for 2^512 ≤ y < 2^513, most significant first. -/
def log2Bits : Nat → Nat → Nat → Nat
  | 0, _, t => t
  | fuel + 1, y, t =>
      let z := y * y / 2 ^ 512
      if 2 ^ 513 ≤ z then log2Bits fuel (z / 2) (2 * t + 1) else log2Bits fuel z (2 * t)

/-- log2 of a finite positive a: exact for a power of two, otherwise to 128 fraction bits (log 25). -/
def log2Of (m : Nat) (e : Int) : Fp :=
  let l := Nat.log2 m
  let E : Int := e + l
  if m = 2 ^ l then fpInt E
  else
    let t := log2Bits 128 (m * 2 ^ 512 / 2 ^ l) 0
    let v : Int := E * (2 ^ 128 : Nat) + t
    if 0 ≤ v then .fin false v.toNat (-128) true else .fin true ((-v).toNat - 1) (-128) true

/-- Significant bits of an estimate (R122). -/
def estBits : Fmt → Nat
  | .f32 => 16 | .f16 => 11 | _ => 8

/-- RoundSig(p, v), and whether it was inexact (R122). -/
def roundSig (p : Nat) (x : Fp) : Fp × Bool :=
  match x with
  | .fin n m e s =>
      if m = 0 then (x, s)
      else
        let E : Int := Nat.log2 m + e + 1 - p
        let (r, i) := roundAt .rne n m e E s
        (.fin n r E false, i)
  | x => (x, false)

/-- Est(fmt, v) with its flags (R122). DESIGN CHOICE (log 91): a tiny result that only RoundSig makes inexact sets UF. -/
def est (f : Fmt) (v : Fp) : Nat × Flags :=
  let (x, i) := roundSig (estBits f) v
  let (b, g) := roundTo f .rne false x
  let tiny := match x with
    | .fin _ m e _ => decide ((Nat.log2 m : Int) + e < 1 - expBias f)
    | _ => false
  (b, g ||| flagIf i fNX ||| flagIf (i && tiny) fUF)

/-- vfrcp (R122). -/
def fpRcp (a : Fp) : Fp × Flags :=
  match a with
  | .nan _ => (.nan false, sigFlag a)
  | .inf n => (.fin n 0 0 false, 0)
  | .fin n m e _ =>
      if m = 0 then (.inf n, fDZ)
      else (.fin n (2 ^ 200 / m) (-200 - e) (decide (2 ^ 200 % m ≠ 0)), 0)

/-- vfrsq (R122). -/
def fpRsq (a : Fp) : Fp × Flags :=
  match a with
  | .nan _ => (.nan false, sigFlag a)
  | .inf n => if n then (.nan false, fNV) else (.fin false 0 0 false, 0)
  | .fin n m e _ =>
      if m = 0 then (.inf n, fDZ)
      else if n then (.nan false, fNV)
      else
        let (m', e') := evenExp m e
        let q := isqrt (2 ^ 400 / m')
        (.fin false q (-200 - e' / 2) (decide (q * q * m' ≠ 2 ^ 400)), 0)

/-- vfexp2 (R122). -/
def fpExp2 (a : Fp) : Fp × Flags :=
  match a with
  | .nan _ => (.nan false, sigFlag a)
  | .inf n => (if n then .fin false 0 0 false else .inf false, 0)
  | .fin n m e _ => if m = 0 then (.fin false 1 0 false, 0) else (exp2Of n m e, 0)

/-- vflog2 (R122). -/
def fpLog2 (a : Fp) : Fp × Flags :=
  match a with
  | .nan _ => (.nan false, sigFlag a)
  | .inf n => if n then (.nan false, fNV) else (.inf false, 0)
  | .fin n m e _ =>
      if m = 0 then (.inf true, fDZ) else if n then (.nan false, fNV) else (log2Of m e, 0)

/-! ## Comparisons (R120, R121) -/

/-- The magnitude of a pattern with its sign, for the order of values of one format. -/
def fpKey (f : Fmt) (b : Nat) : Int :=
  if b / signBit f % 2 = 1 then -((b % signBit f : Nat) : Int) else ((b % signBit f : Nat) : Int)

/-- The pattern is a NaN. -/
def isNaN (f : Fmt) (b : Nat) : Bool := match fpOf f b with | .nan _ => true | _ => false

/-- The lesser (or, with greater, the greater) of two patterns, with −0 below +0 (R120). -/
def fpMinMax (f : Fmt) (greater : Bool) (a b : Nat) : Nat × Flags :=
  let g := sigFlag (fpOf f a) ||| sigFlag (fpOf f b)
  let less := decide (fpKey f a < fpKey f b) || (fpKey f a == fpKey f b && decide (b / signBit f % 2 < a / signBit f % 2))
  (if isNaN f a then (if isNaN f b then canonNaN f else b)
   else if isNaN f b then a
   else if less != greater then a else b, g)

/-- A comparison of two patterns with its flag (R121). -/
def fpCmp (f : Fmt) (r : Rel) (a b : Nat) : Bool × Flags :=
  let nan := isNaN f a || isNaN f b
  let quiet := r == .eq || r == .ne
  (if nan then r == .ne else relHolds r (fpKey f a) (fpKey f b),
   if quiet then sigFlag (fpOf f a) ||| sigFlag (fpOf f b) else flagIf nan fNV)

/-- Round to an integral value (R119, vfrnd). -/
def fpIntegral (f : Fmt) (mode : RMode) (a : Nat) : Nat × Flags :=
  match fpOf f a with
  | .nan s => (canonNaN f, flagIf s fNV)
  | .inf _ => (a, 0)
  | .fin n m e _ =>
      let (r, i) := roundAt mode n m e 0 false
      if 0 ≤ e then (a, 0) else ((roundTo f mode false (.fin n r 0 false)).1, flagIf i fNX)

/-! ## Conversions (R58, R128) -/

/-- A value to an integer format (R58). -/
def fpToInt (f : Fmt) (mode : RMode) (x : Fp) : Int × Flags :=
  match x with
  | .nan _ => (0, fNV)
  | .inf n => (if n then fmtLo f else fmtHi f, fNV)
  | .fin n m e s =>
      if (80 : Int) < Nat.log2 m + e then (if n then fmtLo f else fmtHi f, fNV)
      else
        let (r, i) := roundAt mode n m e 0 s
        let y : Int := if n then -(r : Int) else r
        if clampTo f y ≠ y then (clampTo f y, fNV) else (y, flagIf i fNX)

/-- Cvt(dfmt, sfmt, mode, x) on patterns of the element formats (R128). -/
def cvt (d s : Fmt) (sat : Bool) (mode : RMode) (x : Nat) : Nat × Flags :=
  if s.isFloat then
    let v := fpOf s x
    if d.isFloat then
      let (b, g) := roundTo d mode sat v
      (b, g ||| sigFlag v)
    else
      let (y, g) := fpToInt d mode v
      (wrapNat d.width y, g)
  else
    let v := fmtRead s x
    if d.isFloat then roundTo d mode sat (fpInt v)
    else
      let (y, g) := fitTo d sat v
      (wrapNat d.width y, g)

end Sys2Proof.Machine
end

