-- ==== Sys2Proof/Machine/Operands.lean ====
section
/-! DEFINITION. Every operand form: modifiers (R24 to R26), scalar sources and destinations (R72, R74),
elements, masks and vector destinations (R98 to R110), and queues bound to streams (R208, R211). -/

namespace Sys2Proof.Machine

/-! ## Modifiers (R25, R26) -/

/-- A swizzle of one container (R26). -/
def swz (m : BitVec 3) (c : BitVec 32) : BitVec 32 :=
  let b (i : Nat) : BitVec 8 := c.extractLsb' (8 * i) 8
  match m.toNat with
  | 0 => c
  | 1 => b 1 ++ b 0 ++ b 3 ++ b 2
  | 2 => b 1 ++ b 0 ++ b 1 ++ b 0
  | 3 => b 3 ++ b 2 ++ b 3 ++ b 2
  | 4 => b 0 ++ b 1 ++ b 2 ++ b 3
  | 5 => b 0 ++ b 0 ++ b 0 ++ b 0
  | 6 => b 2 ++ b 3 ++ b 0 ++ b 1
  | _ => c.rotateLeft 4

/-- A swizzle of both containers of a scalar (R25). -/
def swz64 (m : BitVec 3) (w : Word) : Word := swz m (w.extractLsb' 32 32) ++ swz m (w.extractLsb' 0 32)

/-- ABS, then NEG, of an exact integer (R25). -/
def absNeg (m : Mods) (x : Int) : Int :=
  let x := if m.abs then (x.natAbs : Int) else x
  if m.neg then -x else x

/-- A full 64-bit value after its modifiers (R25). DEDUCED (log 99): under .s ABS and NEG are exact and saturate once, and a
value that they saturate sets IS. -/
def full64 (sat : Bool) (m : Mods) (w : Word) : Word × Flags :=
  let (x, g) := fitTo .i64 sat (absNeg m (swz64 m.swz w).toInt)
  (BitVec.ofInt 64 x, g)

/-- The value of a scalar source (R25). -/
def Hart.src (h : Hart) (a : SSrc) : Word := swz64 a.swz (h.rs a.n.toNat)

/-! ## Scalar operands (R72, R74) -/

/-- Opnd(fmt, x) of R74. -/
def opnd (f : Fmt) (sat : Bool) (m : Mods) (w : Word) : Int × Flags :=
  fitTo f sat (absNeg m (fmtRead f (swz64 m.swz w).toNat))

/-- Ext(fmt, y) of R74. -/
def ext (f : Fmt) (x : Int) : Word := BitVec.ofInt 64 (wrapTo f x)

/-- Take a scalar source: its 64-bit value, and the hart without the queue entry it removes; none while
its queue is empty (R72). -/
def takeS (o : Operand) (h : Hart) : Option (Word × Hart) :=
  match o with
  | .s n _ => some (h.rs n.toNat, h)
  | .q n =>
      match h.sq n.toNat with
      | [] => none
      | x :: t => some (x, h.setSq n.toNat t)
  | .imm i => some (i.signExtend 64, h)
  | .immW i => some (i.signExtend 64, h)
  | .pm n => some (if h.rp n.toNat then 1 else 0, h)
  | _ => some (0, h)

/-- Give a scalar result to its destination; none while its queue is full (R72). -/
def putS (o : Operand) (v : Word) (h : Hart) : Option Hart :=
  match o with
  | .s n _ => some (h.ws n.toNat v)
  | .q n => if Config.scalarQueueDepth ≤ (h.sq n.toNat).length then none
      else some (h.setSq n.toNat (h.sq n.toNat ++ [v]))
  | .pm n => some (h.wp n.toNat (v ≠ 0))
  | _ => some h

/-- Run a scalar instruction of up to two sources and one destination: it waits without effect while an
entry or room is missing (R72). -/
def alu (i : Instr) (a b d : Operand) (f : Word → Word → Word × Flags) (s : State) : State :=
  match takeS a s.hart with
  | none => s.await i
  | some (x, h) =>
      match takeS b h with
      | none => s.await i
      | some (y, h) =>
          match putS d (f x y).1 (h.flag (f x y).2) with
          | none => s.await i
          | some h => { s with hart := h }.advance

/-- Run a scalar instruction that reads two sources and decides what follows from them. -/
def withSources (i : Instr) (a b : Operand) (f : Word → Word → State → State) (s : State) : State :=
  match takeS a s.hart with
  | none => s.await i
  | some (x, h) =>
      match takeS b h with
      | none => s.await i
      | some (y, h) => f x y { s with hart := h }

/-- Deliver a result and complete; the instruction waits without effect while its queue is full. -/
def deliver (i : Instr) (before : State) (d : Operand) (v : Word) (s : State) : State :=
  match putS d v s.hart with
  | none => before.await i
  | some h => { s with hart := h }.advance

/-! ## Vector operands (R98 to R107) -/

/-- A vector operand as its instruction reads it: a whole vector, or one 64-bit value (R107). -/
inductive VSrc where
  | vec (t : List (Nat × Elem))
  | scal (w : Word)
deriving DecidableEq, Repr

/-- Outcome of a queue access. -/
inductive Got (α : Type) where
  | ok (a : α)
  | wait
  | trap (t : Trap)
deriving DecidableEq, Repr

/-- Outcome of an instruction of the vector command queue: it has completed; it waits on a queue; or it
raises a trap, stopped at element e with the effects of the elements below it (R39). -/
inductive VRes where
  | done (s : State)
  | wait
  | trap (t : Trap) (s : State) (e : Nat)
deriving DecidableEq, Repr

/-- A scalar register of an instruction's issue (R73). -/
def Env.rs (v : Env) (n : Nat) : Word := if n = 0 then 0 else tget 0 v.s n

/-- The value of a scalar source at an instruction's issue (R25, R73). -/
def Env.src (v : Env) (a : SSrc) : Word := swz64 a.swz (v.rs a.n.toNat)

/-- Stream Fault with code 1: a misuse of a binding (R211). -/
def streamMisuse : Trap := ⟨.stream, 1⟩

/-- Remove the head of a vector queue, n from 0 to 7 (R171, R208, R211). -/
def popV (n : Nat) (h : Hart) : Got (List (Nat × Elem) × Hart) :=
  match h.stream n with
  | none =>
      match h.vq n with
      | [] => .wait
      | t :: r => .ok (t, h.setVq n r)
  | some b =>
      if b.store then .trap (b.trap.getD streamMisuse)
      else
        match h.vq n with
        | [] => match b.trap with | some t => .trap t | none => .wait
        | t :: r =>
            let b' := { b with used := b.used + 1, flags := b.flags.tail }
            .ok (t, ((h.setVq n r).flag (b.flags.headD 0)).setStream n
              (if b'.used = b'.count then none else some b'))

/-- Append to a vector queue (R171, R208, R211). -/
def pushV (n : Nat) (t : List (Nat × Elem)) (h : Hart) : Got Hart :=
  match h.stream n with
  | none => if Config.vectorQueueDepth ≤ (h.vq n).length then .wait else .ok (h.setVq n (h.vq n ++ [t]))
  | some b =>
      if !b.store then .trap streamMisuse
      else
        match b.trap with
        | some t => .trap t
        | none =>
            if Config.vectorQueueDepth ≤ (h.vq n).length then .wait
            else .ok ((h.setVq n (h.vq n ++ [t])).setStream n (some { b with used := b.used + 1 }))

/-- Take a source of a vector instruction (R107). -/
def takeV (o : Operand) (v : Env) (h : Hart) : Got (VSrc × Hart) :=
  match o with
  | .v n _ => .ok (.vec (tget [] h.v n.toNat), h)
  | .s n _ => .ok (.scal (v.rs n.toNat), h)
  | .imm i => .ok (.scal (i.signExtend 64), h)
  | .q n =>
      if n.toNat < 8 then
        match h.sq n.toNat with
        | [] => .wait
        | x :: t => .ok (.scal x, h.setSq n.toNat t)
      else
        match popV (n.toNat - 8) h with
        | .ok (t, h) => .ok (.vec t, h)
        | .wait => .wait
        | .trap t => .trap t
  | _ => .ok (.scal 0, h)

/-- What a vector destination holds before: the register, or zeros for a new queue entry (R107). -/
def oldV (o : Operand) (h : Hart) : List (Nat × Elem) :=
  match o with
  | .v n _ => tget [] h.v n.toNat
  | _ => []

/-- Give a vector to its destination (R107). -/
def putV (o : Operand) (t : List (Nat × Elem)) (h : Hart) : Got Hart :=
  match o with
  | .v n _ => .ok { h with v := tset [] h.v n.toNat t }
  | .q n => pushV (n.toNat - 8) t h
  | _ => .ok h

/-! ## Elements (R99, R100, R109, R110) -/

/-- The container that supplies element e. -/
def VSrc.container (x : VSrc) (p e : Nat) : BitVec 32 :=
  match x with
  | .vec t => tget 0 t (e / p)
  | .scal w => w.setWidth 32

/-- The pattern of element e before ABS and NEG (R25, R52, R100, R107, R109). -/
def rawElem (f : Fmt) (m : Mods) (wd : Bool) (x : VSrc) (e : Nat) : Nat :=
  let c := swz m.swz (x.container f.pack e)
  if wd then
    let half : BitVec 16 := if m.hs then c.extractLsb' 16 16 else c.extractLsb' 0 16
    if f.isFloat then half.toNat * 65536
    else if f.signed then (half.signExtend 32).toNat else half.toNat
  else
    match x with
    | .vec _ => c.toNat / 2 ^ (e % f.pack * (32 / f.pack)) % 2 ^ f.width
    | .scal _ => c.toNat % 2 ^ f.width

/-- VOpnd of an integer format (R110). DEDUCED (log 99): ABS and NEG are exact and saturate once, as in R74. -/
def intElem (f : Fmt) (sat : Bool) (m : Mods) (wd : Bool) (x : VSrc) (e : Nat) : Int × Flags :=
  fitTo f sat (absNeg m (fmtRead f (rawElem f m wd x e)))

/-- VOpnd of a floating-point format, as a pattern (R25, R118). -/
def fpElem (f : Fmt) (m : Mods) (wd : Bool) (x : VSrc) (e : Nat) : Nat :=
  let b := rawElem f m wd x e
  let sb := signBit (elemFmt f)
  let b := if m.abs then b % sb else b
  if m.neg then (if sb ≤ b then b - sb else b + sb) else b

/-- An element copied after R25 (R114, R115, R123). -/
def moveElem (f : Fmt) (m : Mods) (x : VSrc) (e : Nat) : Nat :=
  if f.isFloat then fpElem f m false x e else wrapNat f.width (intElem f false m false x e).1

/-- A result in its 32-bit position (R100). -/
def extElem (f : Fmt) (b : Nat) : Elem :=
  if f = .i8 then ((BitVec.ofNat 8 b).signExtend 32)
  else if f = .i16 then ((BitVec.ofNat 16 b).signExtend 32)
  else BitVec.ofNat 32 (b % 2 ^ f.width)

/-- Write element e of a vector (R52, R100). -/
def setElem (f : Fmt) (e b : Nat) (t : List (Nat × Elem)) : List (Nat × Elem) :=
  if f.pack = 1 then tset 0 t e (extElem f b)
  else
    let sh := e % f.pack * (32 / f.pack)
    let old := (tget 0 t (e / f.pack)).toNat
    let low := old % 2 ^ sh
    let high := old / 2 ^ (sh + f.width) * 2 ^ (sh + f.width)
    tset 0 t (e / f.pack) (BitVec.ofNat 32 (high + b % 2 ^ f.width * 2 ^ sh + low))

/-! ## Masks (R101, R102) -/

/-- Mask bit of element e of mask k. -/
def mbit (h : Hart) (k p e : Nat) : Bool := (h.rmask k (e / p)).getLsbD (e % p * (8 / p))

/-- Write the mask bits of element e. -/
def setMbits (p e : Nat) (b : Bool) (t : List (Nat × Byte)) : List (Nat × Byte) :=
  let w := 8 / p
  let m : Byte := BitVec.ofNat 8 ((2 ^ w - 1) * 2 ^ (e % p * w))
  let old := tget 0 t (e / p)
  tset 0 t (e / p) (if b then old ||| m else old &&& ~~~m)

/-- Act(e) of an enabling mask (R110). -/
def active (h : Hart) (msk : Bool) (mn : BitVec 3) (p e : Nat) : Bool := !msk || mbit h mn.toNat p e

/-- The elements of an instruction from a first one on; inside a block, those of its group (R134, R176). -/
def elements (v : Env) (p first n : Nat) : List Nat :=
  let all := (List.range (n - first)).map fun i => first + i
  match v.grp with
  | none => all
  | some g => all.filter fun e => g.contains (e / p)

/-- Vector Start Fault of a whole instruction (R105). -/
def vectorStart (h : Hart) : Trap := ⟨.vectorStart, h.vstart.setWidth 64⟩

/-- A vector instruction takes its sources A and B, unless it is whole and vstart is not 0 (R105, R107). -/
def withV (whole : Bool) (a b : Operand) (v : Env) (f : VSrc → VSrc → Hart → VRes) (s : State) : VRes :=
  if whole && s.hart.vstart ≠ 0 then .trap (vectorStart s.hart) s 0
  else
    match takeV a v s.hart with
    | .wait => .wait
    | .trap t => .trap t s 0
    | .ok (x, h) =>
        match takeV b v h with
        | .wait => .wait
        | .trap t => .trap t s 0
        | .ok (y, h) => f x y h

/-- A vector instruction completes with a vector result. -/
def finishV (s : State) (d : Operand) (t : List (Nat × Elem)) (h : Hart) : VRes :=
  match putV d t { h with vstart := 0 } with
  | .ok h => .done { s with hart := h }
  | .wait => .wait
  | .trap t => .trap t s 0

/-- A vector instruction completes with a scalar result for s, q0 to q7 or an element (R124). -/
def finishS (s : State) (d : Operand) (w : Word) (h : Hart) : VRes :=
  match putS d w h with
  | some h => .done { s with hart := h }
  | none => .wait

/-- The elementwise mould of R110: F gives the pattern and the flags of an active element from A, B and the
old destination. -/
def mould (o : VOps) (f : Fmt) (F : Hart → VSrc → VSrc → VSrc → Nat → Nat × Flags) (v : Env) (s : State) : VRes :=
  withV (namesQueue [o.d, o.a, o.b]) o.a o.b v (fun x y h =>
    let old := oldV o.d h
    let r := (elements v f.pack h.vstart.toNat (f.pack * v.n)).foldl (fun (acc : List (Nat × Elem) × Flags) e =>
      if active h o.x.msk o.x.mn f.pack e then
        let (b, g) := F h x y (.vec old) e
        (setElem f e b acc.1, acc.2 ||| g)
      else if o.x.mz then (setElem f e 0 acc.1, acc.2)
      else acc) (old, 0)
    finishV s o.d r.1 (h.flag r.2)) s

end Sys2Proof.Machine
end

