-- ==== Sys2Proof/Machine/ScalarMem.lean ====
section
/-! DEFINITION. OP 0x30 to 0x35: the scalar memory instructions (R199 to R201). A plain store may
become visible late; order marks and scopes beyond that order add nothing in a model whose accesses are performed one at a
time (log 1). -/

namespace Sys2Proof.Machine

/-- Bytes of an element. -/
def fmtBytes (f : Fmt) : Nat := f.width / 8

/-- Perform a load into D, or take its trap (R199, R200). -/
def loadTo (i : Instr) (f : Fmt) (d : Operand) (al : Bool) (ea : Word) (s : State) : State :=
  match s.load ea (fmtBytes f) false al with
  | .error t => s.takeTrap t
  | .ok (bs, s') => deliver i s d (ext f (fmtRead f (leNat bs))) s'

/-- A store to device memory that makes no record can become visible late (R221, R247). -/
def mayLag (acc : Acc) (s : State) : Bool :=
  s.hart.lag && !s.logged && acc.chunks.all fun c => isDevice c.pa && c.attr ≠ 3

/-- A plain store of the scalar agent: where its stores become visible late, it waits behind those that do (R221, R247). -/
def State.plainStore (va : Word) (bs : List Byte) (s : State) : Except Trap State :=
  if !s.hart.lag then s.store va bs false false (s.recOf 0)
  else
    match s.check s.agent ⟨va, bs.length, .store, false, false⟩ with
    | .error t => .error t
    | .ok acc =>
        if mayLag acc s then .ok ((s.keep acc.fills).onH fun h => { h with sbuf := h.sbuf ++ [⟨acc.chunks, bs⟩] })
        else s.lateStores.store va bs false false (s.recOf 0)

/-- Perform a store of D, or take its trap (R199, R200). -/
def storeFrom (i : Instr) (f : Fmt) (d : Operand) (al : Bool) (ea : Word) (s : State) : State :=
  match takeS d s.hart with
  | none => s.await i
  | some (v, h) =>
      let s' := { s with hart := h }
      let bs := bytesOf (fmtBytes f) v
      match (if al then s'.store ea bs false true (s.recOf 0) else s'.plainStore ea bs) with
      | .error t => s.takeTrap t
      | .ok s' => s'.advance

/-- ld (R199). -/
def execLd (c : Ctl) (f : Fmt) (d : Operand) (a : BitVec 6) (b : Operand) (s : State) : Out :=
  guarded c s <| withSources (.ld c f d a b) (.s a Mods.none) b fun x y => loadTo (.ld c f d a b) f d false (x + y)

/-- st (R199). -/
def execSt (c : Ctl) (f : Fmt) (d : Operand) (a : BitVec 6) (b : Operand) (s : State) : Out :=
  guarded c s <| withSources (.st c f d a b) (.s a Mods.none) b fun x y => storeFrom (.st c f d a b) f d false (x + y)

/-- ld.aq (R200). -/
def execLdAq (c : Ctl) (f : Fmt) (sc : Scope) (d : Operand) (a : BitVec 6) (b : Operand) (s : State) : Out :=
  guarded c s <| withSources (.ldAq c f sc d a b) (.s a Mods.none) b fun x y =>
    loadTo (.ldAq c f sc d a b) f d true (x + y)

/-- st.rl (R200). -/
def execStRl (c : Ctl) (f : Fmt) (sc : Scope) (d : Operand) (a : BitVec 6) (b : Operand) (s : State) : Out :=
  guarded c s <| withSources (.stRl c f sc d a b) (.s a Mods.none) b fun x y =>
    storeFrom (.stRl c f sc d a b) f d true (x + y)

/-- ldx (R199). -/
def execLdx (c : Ctl) (f : Fmt) (d : Operand) (a b : BitVec 6) (disp : BitVec 18) (s : State) : Out :=
  guarded c s <| withSources (.ldx c f d a b disp) (.s a Mods.none) (.s b Mods.none) fun x y =>
    loadTo (.ldx c f d a b disp) f d false (x + y * BitVec.ofNat 64 (fmtBytes f) + disp.signExtend 64)

/-- prf has no architectural effect and raises no trap (R201). -/
def execPrf (c : Ctl) (_a : BitVec 6) (_b : Operand) (s : State) : Out := guarded c s State.advance

end Sys2Proof.Machine
end

