-- ==== Sys2Proof/Machine/Sync.lean ====
section
/-! DEFINITION. Scalar atomics (R251 to R254), named barriers (R258 to R264), communication registers (R265,
R266), fences (R267) and waiting on a word (R268). -/

namespace Sys2Proof.Machine

/-! ## amo (R251, R252) -/

/-- The value that an atomic writes (R252). -/
def amoNew (f : Fmt) (op : Nat) (old b : Int) : Int :=
  let w := f.width
  match op with
  | 0 => wrapTo f (old + b)
  | 1 => if old ≤ b then old else b
  | 2 => if old ≤ b then b else old
  | 3 => fmtRead f (wrapNat w old &&& wrapNat w b)
  | 4 => fmtRead f (wrapNat w old ||| wrapNat w b)
  | 5 => fmtRead f (wrapNat w old ^^^ wrapNat w b)
  | _ => b

/-- Perform an atomic whose checks have passed: the old value, and the state after it (R252, R426). -/
def amoAt (f : Fmt) (op : Nat) (b expected : Int) (acc : Acc) (s : State) : Except Trap (Int × State) :=
  let old := fmtRead f (leNat (s.bytesAt acc))
  if op = 7 && old ≠ expected then .ok (old, (s.loadAt s.hart.holder acc).2)
  else
    match s.logFull (State.recordAddrs acc) with
    | some a => .error ⟨.liningFull, a⟩
    | none =>
        .ok (old, s.storeAt (s.recOf 1) acc (leBytes (fmtBytes f) (wrapNat f.width (amoNew f op old b))))

/-- amo (R252). -/
def execAmo (c : Ctl) (op : BitVec 3) (sc : Scope) (f : Fmt) (d : Operand) (a : BitVec 6) (b : Operand)
    (disp : BitVec 13) (s : State) : Out :=
  guarded c s fun s =>
    let i := Instr.amo c op sc f d a b disp
    withSources i (.s a Mods.none) b (fun x y s' =>
      match s'.check s'.agent ⟨x + disp.signExtend 64, fmtBytes f, .rmw, false, true⟩ with
      | .error t => s.takeTrap t
      | .ok acc =>
          let expected := match d with | .s n _ => (opnd f false Mods.none (s.hart.rs n.toNat)).1 | _ => 0
          match amoAt f op.toNat (opnd f false Mods.none y).1 expected acc s' with
          | .error t => s.takeTrap t
          | .ok (old, s'') => deliver i s d (ext f old) s'') s

/-! ## Named barriers (R258 to R263) -/

/-- The owner value of the focused hart's launch. -/
def State.ownerTag (s : State) : Nat := match s.hart.launch with | some q => q.toNat + 1 | none => 0

/-- A barrier name: its core and index, or Barrier Fault code 1 (R259, R263). -/
def barrierOf (s : State) (name : Word) : Option (Nat × Nat) :=
  let n := name.toNat
  let c := n / 512 % 128
  if 65536 ≤ n || 96 < c then none
  else some (if c = 0 then s.coreNo else s.clusterNo * Config.coresPerCluster + (c - 1), n % 512)

/-- Barrier k of core c. -/
def State.barrier (s : State) (c k : Nat) : Barrier := tget Barrier.reset (s.coreAt c).barriers k
/-- Set barrier k of core c. -/
def State.setBarrier (c k : Nat) (b : Barrier) (s : State) : State :=
  s.modCore c fun co => { co with barriers := tset Barrier.reset co.barriers k b }

/-- Barrier Fault (R263). -/
def barrierFault (code : Nat) (s : State) : State := s.takeTrap ⟨.barrier, BitVec.ofNat 64 code⟩

/-- The completion check (R261). -/
def Barrier.complete (b : Barrier) : Barrier :=
  if b.arr = 0 && b.pend = 0 then { b with phase := b.phase + 1, arr := b.count } else b

/-- PEND after adding n bytes, if it stays in range (R261). -/
def pendAdd (b : Barrier) (n : Int) : Option (BitVec 36) :=
  let x := b.pend.toInt + n
  if x < -(2 ^ 35 : Nat) || (2 ^ 35 : Nat) ≤ x then none else some (BitVec.ofInt 36 x)

/-- The launch of an owner value still runs (R263). -/
def State.ownerRuns (s : State) (o : Nat) : Bool :=
  o ≠ 0 && s.launches.any fun l => l.seq.toNat + 1 == o && l.st != .ended

/-- A barrier that arrive, expect, wait and test accept (R263, code 2). -/
def usable (s : State) (b : Barrier) : Bool := b.count ≠ 0 && b.owner == s.ownerTag

/-- bar.init (R261). -/
def execBarInit (c : Ctl) (a b : Operand) (s : State) : Out :=
  guarded c s fun s =>
    withSources (.barInit c a b) a b (fun name count s' =>
      match barrierOf s name with
      | none => barrierFault 1 s
      | some (co, k) =>
          let x := s.barrier co k
          if x.owner ≠ s.ownerTag && s.ownerRuns x.owner then barrierFault 2 s
          else if 4095 < count.toNat then barrierFault 4 s
          else
            let n : BitVec 12 := count.setWidth 12
            (s'.setBarrier co k { x with
              count := n, arr := n, pend := 0, owner := if n = 0 then x.owner else s.ownerTag }).advance) s

/-- bar.arrive (R261). -/
def execBarArrive (c : Ctl) (d a b : Operand) (s : State) : Out :=
  guarded c s fun s =>
    let i := Instr.barArrive c d a b
    withSources i a b (fun name n s' =>
      match barrierOf s name with
      | none => barrierFault 1 s
      | some (co, k) =>
          let x := s.barrier co k
          if !usable s x then barrierFault 2 s
          else if x.arr = 0 then barrierFault 3 s
          else if 2 ^ 35 ≤ n.toNat then barrierFault 4 s
          else
            match pendAdd x n.toNat with
            | none => barrierFault 4 s
            | some p =>
                deliver i s d (x.phase.setWidth 64)
                  (s'.setBarrier co k { x with pend := p, arr := x.arr - 1 }.complete)) s

/-- bar.expect (R261). -/
def execBarExpect (c : Ctl) (a b : Operand) (s : State) : Out :=
  guarded c s fun s =>
    withSources (.barExpect c a b) a b (fun name n s' =>
      match barrierOf s name with
      | none => barrierFault 1 s
      | some (co, k) =>
          let x := s.barrier co k
          if !usable s x then barrierFault 2 s
          else if 2 ^ 35 ≤ n.toNat then barrierFault 4 s
          else
            match pendAdd x n.toNat with
            | none => barrierFault 4 s
            | some p => (s'.setBarrier co k { x with pend := p }.complete).advance) s

/-- bar.wait completes once PHASE differs from the token (R262). DESIGN CHOICE (log 95): a waiting one checks the barrier
again, so it raises Barrier Fault 2 where the barrier has become unusable. -/
def execBarWait (c : Ctl) (a b : Operand) (s : State) : Out :=
  guarded c s fun s =>
    let i := Instr.barWait c a b
    withSources i a b (fun name token s' =>
      match barrierOf s name with
      | none => barrierFault 1 s
      | some (co, k) =>
          let x := s.barrier co k
          if !usable s x then barrierFault 2 s
          else if x.phase = token.setWidth 16 then s.await i
          else s'.advance) s

/-- The status word of a barrier (R262). -/
def Barrier.word (b : Barrier) : Word := b.phase ++ b.arr ++ b.pend

/-- bar.test (R262). -/
def execBarTest (c : Ctl) (d a : Operand) (s : State) : Out :=
  guarded c s fun s =>
    let i := Instr.barTest c d a
    withSources i a .none (fun name _ s' =>
      match barrierOf s name with
      | none => barrierFault 1 s
      | some (co, k) =>
          let x := s.barrier co k
          if !usable s x then barrierFault 2 s else deliver i s d x.word s') s

/-! ## Communication registers (R265, R266) -/

/-- The hart's partition owns its cluster's communication registers (R265, R392). -/
def State.ownsComm (s : State) : Bool :=
  (s.clusterAt s.clusterNo).crEn && (s.clusterAt s.clusterNo).crPid = s.hart.pid

/-- The number that a communication instruction names, and the trap of another partition (R265). -/
def withComm (i : Instr) (a b : Operand) (bits : Nat) (f : Nat → Word → State → State) (s : State) : State :=
  withSources i a b (fun x y s' =>
    let n := x.toNat % 2 ^ bits
    if !s.ownsComm then s.takeTrap ⟨.protection, BitVec.ofNat 64 n⟩ else f n y s') s

/-- sem.tas: the first waiting request obtains a clear bit (R266). -/
def execSemTas (c : Ctl) (a : Operand) (s : State) : Out :=
  guarded c s fun s =>
    let i := Instr.semTas c a
    withComm i a .none 8 (fun n _ s' =>
      let cl := s.clusterAt s.clusterNo
      let mine := fun (r : SemReq) => r.bit == n && r.hart == s.cur
      let first := match cl.wait.find? fun r => r.bit == n with
        | some r => r.hart == s.cur
        | none => true
      if !cl.sem.getLsbD n && first then
        (s'.modCluster s.clusterNo fun cl => { cl with
          sem := cl.sem ||| ((1 : BitVec 256) <<< n)
          wait := cl.wait.filter fun r => !mine r }).advance
      else
        (s.modCluster s.clusterNo fun cl => { cl with
          wait := if cl.wait.any mine then cl.wait else cl.wait ++ [⟨n, s.cur⟩] }).await i) s

/-- sem.clr (R265). -/
def execSemClr (c : Ctl) (a : Operand) (s : State) : Out :=
  guarded c s <| withComm (.semClr c a) a .none 8 fun n _ s =>
    (s.modCluster s.clusterNo fun cl => { cl with sem := cl.sem &&& ~~~((1 : BitVec 256) <<< n) }).advance

/-- cr.ld (R265). -/
def execCrLd (c : Ctl) (d a : Operand) (s : State) : Out :=
  guarded c s fun s =>
    withComm (.crLd c d a) a .none 6 (fun n _ s' =>
      deliver (.crLd c d a) s d (tget 0 (s.clusterAt s.clusterNo).cr n) s') s

/-- cr.st (R265). -/
def execCrSt (c : Ctl) (a b : Operand) (s : State) : Out :=
  guarded c s <| withComm (.crSt c a b) a b 6 fun n v s =>
    (s.modCluster s.clusterNo fun cl => { cl with cr := tset 0 cl.cr n v }).advance

/-! ## fnc and wait (R267, R268) -/

/-- Order accesses across a fence: dir 0 sv, 1 vs, 2 vv, 3 all (R223). DESIGN CHOICE (log 101, log 124): a fence does not wait
for the entries of a bound stream, neither the writes of a store stream nor the reads of a load stream. -/
def fenceAt (dir : Nat) (s : State) : State :=
  s.onH fun h => { h with
    fence := if dir = 1 || dir = 3 then h.vseq else h.fence
    vfence := if dir = 2 || dir = 3 then h.vseq else h.vfence
    sfence := if dir = 0 || dir = 3 then h.vseq else h.sfence }

/-- fnc (R267). -/
def execFnc (c : Ctl) (dir : BitVec 2) (_sc : Scope) (s : State) : Out :=
  guarded c s fun s => (fenceAt dir.toNat s).advance

/-- wait (R268): it waits without effect until the word satisfies the relation. -/
def execWait (c : Ctl) (r : Rel) (nat : Bool) (d : Operand) (a : SSrc) (b : Operand) (sc : Scope)
    (w32 : Bool) (s : State) : Out :=
  guarded c s fun s =>
    let i := Instr.wait c r nat d a b sc w32
    withSources i (.s a.n Mods.none) b (fun x y s' =>
      match s'.load (swz64 a.swz x) (if w32 then 4 else 8) false true with
      | .error t => s.takeTrap t
      | .ok (bs, s'') =>
          let v := if w32 && !nat then BitVec.ofInt 64 (signedOf 32 (leNat bs)) else wordOf bs
          if relHolds64 r nat v (full64 false b.mods y).1 then deliver i s d v s'' else s.await i) s

end Sys2Proof.Machine
end

