-- ==== Sys2Proof/Machine/Issue.lean ====
section
/-! DEFINITION. Issuing an instruction to the vector command queue (R73, R103, R170, R399): an instruction
that nothing holds back runs at its issue, and any other waits in the queue with the values of its issue. -/

namespace Sys2Proof.Machine

/-- The accumulator slot that an instruction names. -/
def accOf : Instr → Option Nat
  | .wfmt _ _ a _ | .wload _ a _ _ _ | .mzero _ a | .maccLd _ a _ _ | .mova _ _ _ _ a _ _ | .mma _ _ a _ _ _
  | .mwait _ (some a) | .mstat _ _ a => some a.toNat
  | _ => none

/-- Kmax of a weight format (R141). -/
def kmax : Fmt → Nat
  | .e2m1 | .vq2 => 2048 | .bf16 | .f16 => 512 | _ => 1024

/-- A matrix instruction that works on a slot or an accumulator (R142). -/
def isMatrix : Instr → Bool
  | .wfmt .. | .wload .. | .mzero .. | .maccLd .. | .mova .. | .mma .. => true
  | _ => false

/-- An instruction that every later access of its hart follows: stash control and an acquiring vamo (R212, R225, R254). -/
def fences : Instr → Bool
  | .stmap .. | .stwb .. | .stdrop .. | .vamo .. => true
  | _ => false

namespace State

/-- The focused hart's context holds slot n of its core (R158, R331). -/
def holds (s : State) (n : Nat) : Bool := ((s.coreAt s.coreNo).tile n).holder == some (s.hart.key s.cur)

/-- Matrix work of the focused hart that has not completed, on slot n or on any (R156, R335). -/
def matrixBusy (s : State) (slot : Option Nat) : Bool :=
  s.hart.vcq.any fun e => isMatrix e.instr && (match slot with | none => true | some n => accOf e.instr == some n)

/-- The status word of a slot (R157). -/
def mstatWord (s : State) (n : Nat) : Word :=
  if !s.holds n then 0
  else
    let c := s.coreAt s.coreNo
    let f := (c.tile n).wfmt
    BitVec.ofNat 64 (1 + (if s.matrixBusy (some n) then 2 else 0)
      + (if c.recalls.any fun r => r.slot == n then 4 else 0) + f.code.toNat * 256 + kmax f * 65536)

/-- The values of an instruction's issue (R64, R73, R103, R137, R157, R158, R423). -/
def envOf (s : State) (i : Instr) : Env where
  s := s.hart.s
  p := s.hart.p
  n := s.vlen
  tm := s.hart.tm
  tn := s.hart.tn
  tk := s.hart.tk
  bindA := s.hart.bindA
  bindB := s.hart.bindB
  win := s.hart.wcur
  held := match accOf i with | some n => s.holds n | none => true
  pc := s.hart.pc
  grp := none
  vf := s.hart.vfence
  seq := s.hart.vseq
  sf := s.hart.sfence
  ff := s.hart.fence
  rm := s.hart.rm
  level := s.hart.level
  quiet := false
  stat := match i with | .mstat _ _ n => s.mstatWord n.toNat | _ => 0
  dead := []
  late := []
  freed := []

/-- Put an instruction at the end of the vector command queue. -/
def enqueue (i : Instr) (v : Env) (t : Option (Trap × Nat)) (s : State) : State :=
  s.onH fun h => { h with
    vcq := h.vcq ++ [⟨v.pc, i, v, t, false⟩]
    fence := if fences i then v.seq + 1 else h.fence }

/-- An instruction of the queue has issued: the next one is at pc + 12, and has the next sequence number. -/
def issued (s : State) : State := s.advance.onH fun h => { h with vseq := h.vseq + 1 }

/-- Nothing holds back the instruction that issues next. -/
def vectorIdle (s : State) : Bool := s.hart.vcq.isEmpty && s.hart.episode.isNone && !s.hart.hold

end State

/-- An instruction enters the vector command queue: none may enter a frozen queue, which ends the task, and none a full
one (R170, R399). -/
def entering (i : Instr) (c : Ctl) (f : State → State) (s : State) : Out :=
  guarded c s fun s =>
    if s.hart.vqf then s.endTask
    else if Config.commandQueueDepth ≤ s.hart.vcq.length then s.await i
    else f s

/-- Issue an instruction of the vector command queue whose effect is run. -/
def issueV (i : Instr) (c : Ctl) (run : Env → State → VRes) (s : State) : Out :=
  entering i c (fun s =>
    let v := s.envOf i
    if s.vectorIdle then
      match run v s.issued with
      | .done t => t
      | .wait => s.issued.enqueue i v none
      | .trap t s' e => if t.cause = .held then s.issued.enqueue i v none else s'.enqueue i v (some (t, e))
    else s.issued.enqueue i v none) s

end Sys2Proof.Machine
end

