-- ==== Sys2Proof/Machine/Scalar.lean ====
section
/-! DEFINITION. OP 0x00 to 0x2E: nop and pad (R33, R34), control flow (R86 to R91), scalar arithmetic
(R76 to R80), moves, addresses and predicates (R81 to R85). -/

namespace Sys2Proof.Machine

/-! ## OP 0x00 -/

/-- Illegal Instruction of a word (R36). -/
def illegal (w : IWord) (s : State) : State := s.takeTrap (State.illegalTrap w)

/-- nop (R33). -/
def execNop (c : Ctl) (s : State) : Out := guarded c s State.advance

/-- pad, which traps as a word that is no instruction does (R34). -/
def isPad : Instr → Bool
  | .pad _ => true
  | _ => false

/-- pad raises Illegal Instruction whatever its guard (R34). -/
def execPad (c : Ctl) (s : State) : Out := .next (illegal (encode (.pad c)) s)

/-- A word that is no instruction (R35, R36). -/
def execIllegalInstruction (w : BitVec 96) (s : State) : Out := .next (illegal w s)

/-! ## Control flow -/

/-- The link value of a call (R86). -/
def linkOf (s : State) : Word := pcWord (s.hart.pc + 12) 0

/-- br (R87). -/
def execBr (c : Ctl) (d : BitVec 32) (s : State) : Out :=
  guarded c s fun s => s.jump (s.hart.pc + dispAddr d)

/-- brl (R87). -/
def execBrl (c : Ctl) (d : BitVec 64) (s : State) : Out :=
  guarded c s fun s => s.jump (s.hart.pc + dispAddr d)

/-- bc (R88). -/
def execBc (c : Ctl) (r : Rel) (nat : Bool) (a : BitVec 6) (b : Operand) (d : BitVec 36) (s : State) : Out :=
  guarded c s <| withSources (.bc c r nat a b d) (.s a Mods.none) b fun x y s =>
    if relHolds64 r nat x y then s.jump (s.hart.pc + dispAddr d) else s.advance

/-- dbnz (R89). -/
def execDbnz (c : Ctl) (d : BitVec 6) (disp : BitVec 32) (s : State) : Out :=
  guarded c s fun s =>
    let x := s.hart.rs d.toNat - 1
    let s := s.onH (Hart.ws d.toNat x)
    if x ≠ 0 then s.jump (s.hart.pc + dispAddr disp) else s.advance

/-- call (R87). -/
def execCall (c : Ctl) (d : BitVec 6) (disp : BitVec 32) (s : State) : Out :=
  guarded c s fun s => (s.onH (Hart.ws d.toNat (linkOf s))).jump (s.hart.pc + dispAddr disp)

/-- calll (R87). -/
def execCalll (c : Ctl) (link : BitVec 6) (disp : BitVec 64) (s : State) : Out :=
  guarded c s fun s => (s.onH (Hart.ws link.toNat (linkOf s))).jump (s.hart.pc + dispAddr disp)

/-- A transfer to the address in A, or Misaligned Target (R90). -/
def indirect (a : Word) (link : State → State) (s : State) : State :=
  if a.extractLsb' 0 2 ≠ 0 then s.takeTrap ⟨.misalignedTarget, a⟩ else (link s).jump (pcOf a)

/-- jcall (R90). -/
def execJcall (c : Ctl) (d : BitVec 6) (a : SSrc) (s : State) : Out :=
  guarded c s fun s => indirect (s.hart.src a) (fun s => s.onH (Hart.ws d.toNat (linkOf s))) s

/-- jr (R90). -/
def execJr (c : Ctl) (a : SSrc) (s : State) : Out := guarded c s fun s => indirect (s.hart.src a) id s

/-- ret (R90). -/
def execRet (c : Ctl) (a : SSrc) (s : State) : Out := guarded c s fun s => indirect (s.hart.src a) id s

/-- ifpf has no architectural effect (R91). -/
def execIfpf (c : Ctl) (_level : BitVec 2) (_a : SSrc) (_b : Operand) (s : State) : Out :=
  guarded c s State.advance

/-! ## Arithmetic and logic (R76) -/

/-- A kind-T computation: the operands of R74, the exact result, and Result. -/
def intAlu (o : SOps) (f : Int → Int → Int) (x y : Word) : Word × Flags :=
  let (a, ga) := opnd o.fmt o.sat o.a.mods x
  let (b, gb) := opnd o.fmt o.sat o.b.mods y
  let (r, gr) := fitTo o.fmt o.sat (f a b)
  (ext o.fmt r, ga ||| gb ||| gr)

/-- A kind-T computation on w-bit patterns. -/
def bitAlu (o : SOps) (f : Nat → Nat → Nat) (x y : Word) : Word × Flags :=
  let w := o.fmt.width
  intAlu o (fun a b => (f (wrapNat w a) (wrapNat w b) : Nat)) x y

/-- add (R76). -/
def execAdd (c : Ctl) (o : SOps) (s : State) : Out :=
  guarded c s <| alu (.add c o) o.a o.b o.d (intAlu o fun a b => a + b)

/-- sub (R76). -/
def execSub (c : Ctl) (o : SOps) (s : State) : Out :=
  guarded c s <| alu (.sub c o) o.a o.b o.d (intAlu o fun a b => a - b)

/-- addi (R76). -/
def execAddi (c : Ctl) (o : SOps) (simm : BitVec 18) (s : State) : Out :=
  guarded c s <| alu (.addi c o simm) o.a o.b o.d (intAlu o fun a b => a + b + simm.toInt)

/-- mul (R76). -/
def execMul (c : Ctl) (o : SOps) (s : State) : Out :=
  guarded c s <| alu (.mul c o) o.a o.b o.d (intAlu o fun a b => a * b)

/-- mulh (R76). -/
def execMulh (c : Ctl) (o : SOps) (s : State) : Out :=
  guarded c s <| alu (.mulh c o) o.a o.b o.d (intAlu o fun a b => a * b / (2 ^ o.fmt.width : Nat))

/-- div (R76, R44). -/
def execDiv (c : Ctl) (o : SOps) (s : State) : Out :=
  guarded c s <| alu (.div c o) o.a o.b o.d fun x y =>
    let (a, ga) := opnd o.fmt o.sat o.a.mods x
    let (b, gb) := opnd o.fmt o.sat o.b.mods y
    let (r, gr) := quotient o.fmt o.sat a b
    (ext o.fmt r, ga ||| gb ||| gr)

/-- rem (R76, R44). -/
def execRem (c : Ctl) (o : SOps) (s : State) : Out :=
  guarded c s <| alu (.rem c o) o.a o.b o.d (intAlu o remainder)

/-- min (R76). -/
def execMin (c : Ctl) (o : SOps) (s : State) : Out :=
  guarded c s <| alu (.min c o) o.a o.b o.d (intAlu o fun a b => if a ≤ b then a else b)

/-- max (R76). -/
def execMax (c : Ctl) (o : SOps) (s : State) : Out :=
  guarded c s <| alu (.max c o) o.a o.b o.d (intAlu o fun a b => if a ≤ b then b else a)

/-- and (R76). -/
def execAnd (c : Ctl) (o : SOps) (s : State) : Out :=
  guarded c s <| alu (.and c o) o.a o.b o.d (bitAlu o fun a b => a &&& b)

/-- or (R76). -/
def execOr (c : Ctl) (o : SOps) (s : State) : Out :=
  guarded c s <| alu (.or c o) o.a o.b o.d (bitAlu o fun a b => a ||| b)

/-- xor (R76). -/
def execXor (c : Ctl) (o : SOps) (s : State) : Out :=
  guarded c s <| alu (.xor c o) o.a o.b o.d (bitAlu o fun a b => a ^^^ b)

/-- andn (R76). -/
def execAndn (c : Ctl) (o : SOps) (s : State) : Out :=
  guarded c s <| alu (.andn c o) o.a o.b o.d (bitAlu o fun a b => a &&& (2 ^ o.fmt.width - 1 - b))

/-! ## Shifts (R77) -/

/-- Shift left of an operand by n (R77): exact before Wrap or Sat. -/
def shlInt (w : Nat) (a : Int) (n : Nat) : Int := a * (2 ^ min n w : Nat)
/-- Shift right of a pattern, filling with zeros (R77). -/
def shrNat (w a n : Nat) : Nat := a / 2 ^ min n w
/-- Shift right of a pattern, filling with its top bit (R77). -/
def sraNat (w a n : Nat) : Nat := wrapNat w (signedOf w a / (2 ^ min n w : Nat))
/-- Rotation left of a pattern (R77). -/
def rotNat (w a n : Nat) : Nat := a * 2 ^ (n % w) % 2 ^ w + a / 2 ^ (w - n % w)

/-- A shift or rotation: the amount is B's full 64-bit value (R77). -/
def shiftAlu (o : SOps) (f : Int → Nat → Int) (x y : Word) : Word × Flags :=
  let (a, ga) := opnd o.fmt o.sat o.a.mods x
  let (n, gb) := full64 o.sat o.b.mods y
  let (r, gr) := fitTo o.fmt o.sat (f a n.toNat)
  (ext o.fmt r, ga ||| gb ||| gr)

/-- shl (R77). -/
def execShl (c : Ctl) (o : SOps) (s : State) : Out :=
  guarded c s <| alu (.shl c o) o.a o.b o.d (shiftAlu o (shlInt o.fmt.width))

/-- shr (R77). -/
def execShr (c : Ctl) (o : SOps) (s : State) : Out :=
  guarded c s <| alu (.shr c o) o.a o.b o.d
    (shiftAlu o fun a n => (shrNat o.fmt.width (wrapNat o.fmt.width a) n : Nat))

/-- sra (R77). -/
def execSra (c : Ctl) (o : SOps) (s : State) : Out :=
  guarded c s <| alu (.sra c o) o.a o.b o.d
    (shiftAlu o fun a n => (sraNat o.fmt.width (wrapNat o.fmt.width a) n : Nat))

/-- rot (R77). -/
def execRot (c : Ctl) (o : SOps) (s : State) : Out :=
  guarded c s <| alu (.rot c o) o.a o.b o.d
    (shiftAlu o fun a n => (rotNat o.fmt.width (wrapNat o.fmt.width a) n : Nat))

/-! ## Counts, bit fields and extensions (R78 to R80) -/

/-- Leading zeros of a w-bit pattern (R78). -/
def clzNat (w a : Nat) : Nat := if a = 0 then w else w - 1 - Nat.log2 a
/-- One bits of a w-bit pattern (R78). -/
def popcNat (w a : Nat) : Nat := ((List.range w).filter fun i => a.testBit i).length
/-- Trailing zeros of a w-bit pattern (R78). -/
def ctzNat (w a : Nat) : Nat := ((List.range w).find? fun i => a.testBit i).getD w

/-- A count over the pattern of A (R78). -/
def countAlu (o : SOps) (f : Nat → Nat → Nat) (x _y : Word) : Word × Flags :=
  (BitVec.ofNat 64 (f o.fmt.width (wrapNat o.fmt.width (opnd o.fmt false o.a.mods x).1)), 0)

/-- clz (R78). -/
def execClz (c : Ctl) (o : SOps) (s : State) : Out :=
  guarded c s <| alu (.clz c o) o.a .none o.d (countAlu o clzNat)

/-- ctz (R78). -/
def execCtz (c : Ctl) (o : SOps) (s : State) : Out :=
  guarded c s <| alu (.ctz c o) o.a .none o.d (countAlu o ctzNat)

/-- popc (R78). -/
def execPopc (c : Ctl) (o : SOps) (s : State) : Out :=
  guarded c s <| alu (.popc c o) o.a .none o.d (countAlu o popcNat)

/-- bfx (R79). -/
def execBfx (c : Ctl) (o : SOps) (pos len1 : BitVec 6) (s : State) : Out :=
  guarded c s <| alu (.bfx c o pos len1) o.a .none o.d fun x _ =>
    let len := len1.toNat + 1
    let f := wrapNat o.fmt.width (opnd o.fmt false o.a.mods x).1 / 2 ^ pos.toNat % 2 ^ len
    (BitVec.ofInt 64 (if o.fmt.signed then signedOf len f else (f : Int)), 0)

/-- bfi: D is the first source (R79). -/
def execBfi (c : Ctl) (o : SOps) (pos len1 : BitVec 6) (s : State) : Out :=
  guarded c s fun s =>
    let d := wrapNat o.fmt.width (opnd o.fmt false Mods.none (match o.d with | .s n _ => s.hart.rs n.toNat | _ => 0)).1
    alu (.bfi c o pos len1) o.a .none o.d (fun x _ =>
      let a := wrapNat o.fmt.width (opnd o.fmt false o.a.mods x).1
      let p := 2 ^ pos.toNat
      let l := 2 ^ (len1.toNat + 1)
      (ext o.fmt ((d % p + a % l * p + d / (p * l) * (p * l) : Nat) : Int), 0)) s

/-- sext and zext write Ext of the operand (R80). -/
def extAlu (o : SOps) (x _y : Word) : Word × Flags := (ext o.fmt (opnd o.fmt false o.a.mods x).1, 0)

/-- sext (R80). -/
def execSext (c : Ctl) (o : SOps) (s : State) : Out := guarded c s <| alu (.sext c o) o.a .none o.d (extAlu o)

/-- zext (R80). -/
def execZext (c : Ctl) (o : SOps) (s : State) : Out := guarded c s <| alu (.zext c o) o.a .none o.d (extAlu o)

/-! ## Moves and addresses (R81, R82) -/

/-- li (R81). -/
def execLi (c : Ctl) (d b : Operand) (s : State) : Out :=
  guarded c s <| alu (.li c d b) b .none d fun x _ => (x, 0)

/-- lih (R81). -/
def execLih (c : Ctl) (d : BitVec 6) (b : Operand) (s : State) : Out :=
  guarded c s <| alu (.lih c d b) b (.s d Mods.none) (.s d Mods.none) fun x y =>
    ((x.extractLsb' 0 32 : BitVec 32) ++ (y.extractLsb' 0 32 : BitVec 32), 0)

/-- mov (R81). -/
def execMov (c : Ctl) (d a : Operand) (s : State) : Out :=
  guarded c s <| alu (.mov c d a) a .none d fun x _ => (swz64 a.mods.swz x, 0)

/-- lea (R82). -/
def execLea (c : Ctl) (d a : BitVec 6) (b : Operand) (sh : BitVec 3) (disp : BitVec 15) (s : State) : Out :=
  guarded c s <| alu (.lea c d a b sh disp) (.s a Mods.none) b (.s d Mods.none) fun x y =>
    (x + y <<< sh.toNat + disp.signExtend 64, 0)

/-! ## Predicates (R83 to R85) -/

/-- cmp (R83). -/
def execCmp (c : Ctl) (r : Rel) (nat : Bool) (d : BitVec 3) (a : BitVec 6) (b : Operand) (s : State) : Out :=
  guarded c s <| withSources (.cmp c r nat d a b) (.s a Mods.none) b fun x y s =>
    (s.onH (Hart.wp d.toNat (relHolds64 r nat x y))).advance

/-- sel: both sources are read (R84). -/
def execSel (c : Ctl) (d a b : Operand) (pneg : Bool) (pn : BitVec 3) (s : State) : Out :=
  guarded c s fun s =>
    let p := xor pneg (s.hart.rp pn.toNat)
    alu (.sel c d a b pneg pn) a b d (fun x y =>
      (if p then swz64 a.mods.swz x else swz64 b.mods.swz y, 0)) s

/-- pand (R85). -/
def execPand (c : Ctl) (d a b : BitVec 3) (s : State) : Out :=
  guarded c s fun s => (s.onH (Hart.wp d.toNat (s.hart.rp a.toNat && s.hart.rp b.toNat))).advance

/-- por (R85). -/
def execPor (c : Ctl) (d a b : BitVec 3) (s : State) : Out :=
  guarded c s fun s => (s.onH (Hart.wp d.toNat (s.hart.rp a.toNat || s.hart.rp b.toNat))).advance

/-- pxor (R85). -/
def execPxor (c : Ctl) (d a b : BitVec 3) (s : State) : Out :=
  guarded c s fun s => (s.onH (Hart.wp d.toNat (xor (s.hart.rp a.toNat) (s.hart.rp b.toNat)))).advance

/-- pnot (R85). -/
def execPnot (c : Ctl) (d a : BitVec 3) (s : State) : Out :=
  guarded c s fun s => (s.onH (Hart.wp d.toNat (!s.hart.rp a.toNat))).advance

end Sys2Proof.Machine
end

