-- ==== Sys2Proof/Machine/Vector.lean ====
section
/-! DEFINITION. OP 0x40 to 0x8F: elementwise integer and floating-point instructions (R111 to R122),
permutes (R123), reductions (R124 to R127), conversions (R128 to R131) and masks (R132, R133). -/

namespace Sys2Proof.Machine

/-! ## Integer elementwise (R111) -/

/-- The mould with an exact integer operation on a, b and d. -/
def intMould (o : VOps) (f : Int → Int → Int → Int) (v : Env) (s : State) : VRes :=
  mould o o.fmt (fun _ x y d e =>
    let (a, ga) := intElem o.fmt o.sat o.a.mods o.x.wd x e
    let (b, gb) := intElem o.fmt o.sat o.b.mods o.x.wd y e
    let (r, g) := fitTo o.fmt o.sat (f a b (intElem o.fmt false Mods.none false d e).1)
    (wrapNat o.fmt.width r, ga ||| gb ||| g)) v s

/-- The mould with an operation on w-bit patterns. -/
def bitMould (o : VOps) (f : Nat → Nat → Nat) (v : Env) (s : State) : VRes :=
  mould o o.fmt (fun _ x y _ e =>
    (f (wrapNat o.fmt.width (intElem o.fmt false o.a.mods false x e).1)
      (wrapNat o.fmt.width (intElem o.fmt false o.b.mods false y e).1), 0)) v s

/-- The shift amount of element e: the full value of a scalar B, or the natural value of a pattern (R112). -/
def shiftAmount (o : VOps) (y : VSrc) (e : Nat) : Nat × Flags :=
  match y with
  | .scal w => let (n, g) := full64 o.sat o.b.mods w; (n.toNat, g)
  | .vec _ => let (b, g) := intElem o.fmt o.sat o.b.mods false y e; (wrapNat o.fmt.width b, g)

/-- The mould of a shift (R112). -/
def shiftMould (o : VOps) (f : Int → Nat → Int) (v : Env) (s : State) : VRes :=
  mould o o.fmt (fun _ x y _ e =>
    let (a, ga) := intElem o.fmt o.sat o.a.mods false x e
    let (n, gb) := shiftAmount o y e
    let (r, g) := fitTo o.fmt o.sat (f a n)
    (wrapNat o.fmt.width r, ga ||| gb ||| g)) v s

/-- vadd (R111). -/
def runVadd (o : VOps) : Env → State → VRes := intMould o fun a b _ => a + b
/-- vsub (R111). -/
def runVsub (o : VOps) : Env → State → VRes := intMould o fun a b _ => a - b
/-- vmul (R111). -/
def runVmul (o : VOps) : Env → State → VRes := intMould o fun a b _ => a * b
/-- vmulh (R111). -/
def runVmulh (o : VOps) : Env → State → VRes := intMould o fun a b _ => a * b / (2 ^ o.fmt.width : Nat)
/-- vmadd (R111). -/
def runVmadd (o : VOps) : Env → State → VRes := intMould o fun a b d => a * b + d
/-- vmin (R111). -/
def runVmin (o : VOps) : Env → State → VRes := intMould o fun a b _ => if a ≤ b then a else b
/-- vmax (R111). -/
def runVmax (o : VOps) : Env → State → VRes := intMould o fun a b _ => if a ≤ b then b else a
/-- vabsd (R111). -/
def runVabsd (o : VOps) : Env → State → VRes := intMould o fun a b _ => ((a - b).natAbs : Int)
/-- vavg (R111). -/
def runVavg (o : VOps) : Env → State → VRes := intMould o fun a b _ => (a + b + 1) / 2
/-- vand (R111). -/
def runVand (o : VOps) : Env → State → VRes := bitMould o fun a b => a &&& b
/-- vor (R111). -/
def runVor (o : VOps) : Env → State → VRes := bitMould o fun a b => a ||| b
/-- vxor (R111). -/
def runVxor (o : VOps) : Env → State → VRes := bitMould o fun a b => a ^^^ b
/-- vandn (R111). -/
def runVandn (o : VOps) : Env → State → VRes := bitMould o fun a b => a &&& (2 ^ o.fmt.width - 1 - b)
/-- vshl (R112). -/
def runVshl (o : VOps) : Env → State → VRes := shiftMould o (shlInt o.fmt.width)
/-- vshr (R112). -/
def runVshr (o : VOps) : Env → State → VRes :=
  shiftMould o fun a n => (shrNat o.fmt.width (wrapNat o.fmt.width a) n : Nat)
/-- vsra (R112). -/
def runVsra (o : VOps) : Env → State → VRes :=
  shiftMould o fun a n => (sraNat o.fmt.width (wrapNat o.fmt.width a) n : Nat)

/-- The number of a mask operand. -/
def maskNo (o : Operand) : Nat := match o with | .pm n => n.toNat - 8 | _ => 0

/-- The mould of a comparison into a mask (R113, R121). -/
def cmpMould (o : VOps) (F : Rel → VSrc → VSrc → Nat → Bool × Flags) (v : Env) (s : State) : VRes :=
  withV (namesQueue [o.a, o.b]) o.a o.b v (fun x y h =>
    let k := maskNo o.d
    let r := o.x.rel.getD .eq
    let p := o.fmt.pack
    let m := (elements v p h.vstart.toNat (p * v.n)).foldl (fun (acc : List (Nat × Byte) × Flags) e =>
      if active h o.x.msk o.x.mn p e then
        let (b, g) := F r x y e
        (setMbits p e b acc.1, acc.2 ||| g)
      else if o.x.mz then (setMbits p e false acc.1, acc.2)
      else acc) (tget [] h.m k, 0)
    let h := { h with m := tset [] h.m k m.1, vstart := 0 }
    .done { s with hart := h.flag m.2 }) s

/-- vcmp (R113). -/
def runVcmp (o : VOps) : Env → State → VRes :=
  cmpMould o fun r x y e =>
    (relHolds r (intElem o.fmt false o.a.mods false x e).1 (intElem o.fmt false o.b.mods false y e).1, 0)

/-- vsel: the mask selects (R114). -/
def runVsel (o : VOps) : Env → State → VRes :=
  mould { o with x := { o.x with msk := false } } o.fmt fun h x y _ e =>
    (if mbit h o.x.mn.toNat o.fmt.pack e then moveElem o.fmt o.a.mods x e else moveElem o.fmt o.b.mods y e, 0)

/-- vmov (R115). -/
def runVmov (o : VOps) : Env → State → VRes := mould o o.fmt fun _ x _ _ e => (moveElem o.fmt o.a.mods x e, 0)
/-- vbcast (R115). -/
def runVbcast (o : VOps) : Env → State → VRes := mould o o.fmt fun _ x _ _ e => (moveElem o.fmt o.a.mods x e, 0)
/-- vid (R115). -/
def runVid (o : VOps) : Env → State → VRes := mould o o.fmt fun _ _ _ _ e => (e % 2 ^ o.fmt.width, 0)

/-- A count over each element's pattern (R116). -/
def countMould (o : VOps) (f : Nat → Nat → Nat) : Env → State → VRes :=
  mould o o.fmt fun _ x _ _ e =>
    (f o.fmt.width (wrapNat o.fmt.width (intElem o.fmt false o.a.mods false x e).1), 0)

/-- vclz (R116). -/
def runVclz (o : VOps) : Env → State → VRes := countMould o clzNat
/-- vpopc (R116). -/
def runVpopc (o : VOps) : Env → State → VRes := countMould o popcNat

/-- vdot4, by positions (R117). -/
def runVdot4 (o : VOps) : Env → State → VRes :=
  mould o .i32 fun _ x y d e =>
    let t := (List.range 4).foldl (fun (acc : Int × Flags) k =>
      let (a, ga) := intElem .i8x4 o.sat o.a.mods false x (4 * e + k)
      let (b, gb) := intElem .i8x4 o.sat o.b.mods false y (4 * e + k)
      (acc.1 + a * b, acc.2 ||| ga ||| gb)) (0, 0)
    let (r, g) := fitTo .i32 o.sat (t.1 + (intElem .i32 false Mods.none false d e).1)
    (wrapNat 32 r, t.2 ||| g)

/-! ## Floating-point elementwise (R118 to R122) -/

/-- The mode of an instruction that admits no stochastic rounding (R53, R57). -/
def modeV (o : VOps) (h : Hart) : RMode := modeOf o.x.rm h.rm none

/-- The mould of an operation with one rounding (R119). -/
def fpMould (o : VOps) (f : Bool → Fp → Fp → Fp → Fp × Flags) : Env → State → VRes :=
  mould o o.fmt fun h x y d e =>
    let k := elemFmt o.fmt
    let mode := modeV o h
    let (r, g) := f (mode == .rdn) (fpOf k (fpElem o.fmt o.a.mods o.x.wd x e))
      (fpOf k (fpElem o.fmt o.b.mods o.x.wd y e)) (fpOf k (fpElem o.fmt Mods.none false d e))
    let (b, g') := roundTo k mode false r
    (b, g ||| g')

/-- vfadd (R119). -/
def runVfadd (o : VOps) : Env → State → VRes := fpMould o fun rdn a b _ => fpAdd rdn a b
/-- vfsub (R119). -/
def runVfsub (o : VOps) : Env → State → VRes := fpMould o fun rdn a b _ => fpAdd rdn a (fpNeg b)
/-- vfmul (R119). -/
def runVfmul (o : VOps) : Env → State → VRes := fpMould o fun _ a b _ => fpMul a b
/-- vfma (R119). -/
def runVfma (o : VOps) : Env → State → VRes := fpMould o fun rdn a b d => fpFma rdn a b d
/-- vfdiv (R119). -/
def runVfdiv (o : VOps) : Env → State → VRes := fpMould o fun _ a b _ => fpDiv a b
/-- vfsqrt (R119). -/
def runVfsqrt (o : VOps) : Env → State → VRes := fpMould o fun _ a _ _ => fpSqrt a

/-- The exponent that vfscl adds: an integer of B (R119). -/
def scaleOf (o : VOps) (y : VSrc) (e : Nat) : Int :=
  match y with
  | .scal w => wrapTo .i32 (absNeg o.b.mods (signedOf 32 (swz o.b.mods.swz (w.setWidth 32)).toNat))
  | .vec _ =>
      let w := o.fmt.width
      signedOf w (wrapNat w (absNeg o.b.mods (signedOf w (rawElem o.fmt o.b.mods false y e))))

/-- vfscl (R119). -/
def runVfscl (o : VOps) : Env → State → VRes :=
  mould o o.fmt fun h x y _ e =>
    let k := elemFmt o.fmt
    let a := fpOf k (fpElem o.fmt o.a.mods false x e)
    let (b, g) := roundTo k (modeV o h) false (fpScale a (scaleOf o y e))
    (b, g ||| sigFlag a)

/-- vfrnd (R118, R119): a signalling NaN of either source sets NV. -/
def runVfrnd (o : VOps) : Env → State → VRes :=
  mould o o.fmt fun h x y _ e =>
    let k := elemFmt o.fmt
    let (b, g) := fpIntegral k (modeV o h) (fpElem o.fmt o.a.mods false x e)
    (b, g ||| sigFlag (fpOf k (fpElem o.fmt o.b.mods false y e)))

/-- vfmin (R120). -/
def runVfmin (o : VOps) : Env → State → VRes :=
  mould o o.fmt fun _ x y _ e =>
    fpMinMax (elemFmt o.fmt) false (fpElem o.fmt o.a.mods false x e) (fpElem o.fmt o.b.mods false y e)
/-- vfmax (R120). -/
def runVfmax (o : VOps) : Env → State → VRes :=
  mould o o.fmt fun _ x y _ e =>
    fpMinMax (elemFmt o.fmt) true (fpElem o.fmt o.a.mods false x e) (fpElem o.fmt o.b.mods false y e)

/-- vfcmp (R121). -/
def runVfcmp (o : VOps) : Env → State → VRes :=
  cmpMould o fun r x y e =>
    fpCmp (elemFmt o.fmt) r (fpElem o.fmt o.a.mods false x e) (fpElem o.fmt o.b.mods false y e)

/-- The mould of an estimate (R122). -/
def estMould (o : VOps) (f : Fp → Fp × Flags) : Env → State → VRes :=
  mould o o.fmt fun _ x _ _ e =>
    let k := elemFmt o.fmt
    let (r, g) := f (fpOf k (fpElem o.fmt o.a.mods false x e))
    let (b, g') := est k r
    (b, g ||| g')

/-- vfrcp (R122). -/
def runVfrcp (o : VOps) : Env → State → VRes := estMould o fpRcp
/-- vfrsq (R122). -/
def runVfrsq (o : VOps) : Env → State → VRes := estMould o fpRsq
/-- vfexp2 (R122). -/
def runVfexp2 (o : VOps) : Env → State → VRes := estMould o fpExp2
/-- vflog2 (R122). -/
def runVflog2 (o : VOps) : Env → State → VRes := estMould o fpLog2

/-! ## Permutes (R123) -/

/-- A whole instruction that writes each active element of 0 .. n-1 from A and B. -/
def permute (o : VOps) (F : Nat → VSrc → VSrc → Nat → Nat) (v : Env) (s : State) : VRes :=
  withV true o.a o.b v (fun x y h =>
    let n := o.fmt.pack * v.n
    let t := (List.range n).foldl (fun t e =>
      if active h o.x.msk o.x.mn o.fmt.pack e then setElem o.fmt e (F n x y e) t
      else if o.x.mz then setElem o.fmt e 0 t else t) (oldV o.d h)
    finishV s o.d t h) s

/-- vxch (R123). -/
def runVxch (o : VOps) : Env → State → VRes :=
  permute o fun n x _ e =>
    let j := e ^^^ 2 ^ o.x.sel.toNat
    moveElem o.fmt o.a.mods x (if j < n then j else e)

/-- vperm (R123). -/
def runVperm (o : VOps) : Env → State → VRes :=
  permute o fun n x y e =>
    let j := rawElem o.fmt o.b.mods false y e
    if j < n then moveElem o.fmt o.a.mods x j else 0

/-- vslide: k is B's full 64-bit signed value (R123). -/
def runVslide (o : VOps) : Env → State → VRes :=
  permute o fun n x y e =>
    let k := match y with | .scal w => (full64 false o.b.mods w).1.toInt | .vec _ => 0
    let j := (e : Int) + k
    if 0 ≤ j && j < n then moveElem o.fmt o.a.mods x j.toNat else 0

/-- The active elements of an instruction, in increasing order. -/
def activeList (o : VOps) (h : Hart) (n : Nat) : List Nat :=
  (List.range n).filter fun e => active h o.x.msk o.x.mn o.fmt.pack e

/-- vcompress (R123). -/
def runVcompress (o : VOps) (v : Env) (s : State) : VRes :=
  withV true o.a o.b v (fun x _ h =>
    let n := o.fmt.pack * v.n
    let act := activeList o h n
    let t := (act.zipIdx).foldl (fun t p => setElem o.fmt p.2 (moveElem o.fmt o.a.mods x p.1) t) (oldV o.d h)
    let t := if o.x.mz then
        (List.range (n - act.length)).foldl (fun t i => setElem o.fmt (act.length + i) 0 t) t
      else t
    finishV s o.d t h) s

/-- vexpand (R123). -/
def runVexpand (o : VOps) (v : Env) (s : State) : VRes :=
  withV true o.a o.b v (fun x _ h =>
    let n := o.fmt.pack * v.n
    let act := activeList o h n
    let base := if o.x.mz then (List.range n).foldl (fun t e => setElem o.fmt e 0 t) (oldV o.d h) else oldV o.d h
    let t := (act.zipIdx).foldl (fun t p => setElem o.fmt p.1 (moveElem o.fmt o.a.mods x p.2) t) base
    finishV s o.d t h) s

/-! ## Reductions and dot products (R65 to R67, R124 to R127) -/

/-- One level of a pairwise tree. -/
def pairLevel (f : Nat → Nat → Nat × Flags) : List Nat → List Nat × Flags
  | a :: b :: t =>
      let (x, g) := f a b
      let (r, g') := pairLevel f t
      (x :: r, g ||| g')
  | l => (l, 0)

/-- The levels of a pairwise tree. -/
def pairLevels (f : Nat → Nat → Nat × Flags) : Nat → List Nat → List Nat × Flags
  | 0, l => (l, 0)
  | k + 1, l =>
      let (r, g) := pairLevel f l
      let (r', g') := pairLevels f k r
      (r', g ||| g')

/-- log2 of the least power of two ≥ n. -/
def ceilLog2 (n : Nat) : Nat := if n ≤ 1 then 0 else Nat.log2 (n - 1) + 1

/-- PairTree over at least one value (R65). -/
def pairTree (f : Nat → Nat → Nat × Flags) (ident : Nat) (l : List Nat) : Nat × Flags :=
  let k := ceilLog2 l.length
  let (r, g) := pairLevels f k (l ++ List.replicate (2 ^ k - l.length) ident)
  (r.headD ident, g)

/-- −0 of a format (R65). -/
def negZero (f : Fmt) : Nat := signBit (elemFmt f)

/-- Addition of two patterns with one rounding. -/
def addBits (f : Fmt) (mode : RMode) (a b : Nat) : Nat × Flags :=
  let (r, g) := fpAdd (mode == .rdn) (fpOf f a) (fpOf f b)
  let (x, g') := roundTo f mode false r
  (x, g ||| g')

/-- The operation of vred by SEL (R124), and its identity (R65): for an integer minimum or maximum the
greatest or least value of the format (log 26). -/
def redOp (o : VOps) (mode : RMode) : (Nat → Nat → Nat × Flags) × Nat :=
  let f := elemFmt o.fmt
  let w := f.width
  if f.isFloat then
    match o.x.sel.toNat with
    | 0 => (addBits f mode, negZero f)
    | 1 => (fpMinMax f false, infBits f)
    | _ => (fpMinMax f true, signBit f + infBits f)
  else
    match o.x.sel.toNat with
    | 0 => (fun a b => let (r, g) := fitTo f o.sat (fmtRead f a + fmtRead f b); (wrapNat w r, g), 0)
    | 1 => (fun a b => (if fmtRead f a ≤ fmtRead f b then a else b, 0), wrapNat w (fmtHi f))
    | 2 => (fun a b => (if fmtRead f a ≤ fmtRead f b then b else a, 0), wrapNat w (fmtLo f))
    | 3 => (fun a b => (a &&& b, 0), 2 ^ w - 1)
    | 4 => (fun a b => (a ||| b, 0), 0)
    | _ => (fun a b => (a ^^^ b, 0), 0)

/-- Deliver a reduction's result in format f to D (R124). -/
def reduceTo (s : State) (d : Operand) (f : Fmt) (r : Nat) (h : Hart) : VRes :=
  match d with
  | .v .. => finishV s d (setElem f 0 r (oldV d h)) h
  | _ => finishS s d (if f.isFloat then BitVec.ofNat 64 r else ext f (fmtRead f r)) h

/-- The outcome at n = 0: a queue receives the identity (R127). -/
def reduceNone (s : State) (d : Operand) (f : Fmt) (ident : Nat) (h : Hart) : VRes :=
  match d with
  | .q _ => reduceTo s d f ident h
  | _ => .done { s with hart := h }

/-- An element of a reduction after its modifiers. -/
def redElem (o : VOps) (x : VSrc) (e : Nat) : Nat × Flags :=
  if o.fmt.isFloat then (fpElem o.fmt o.a.mods false x e, 0)
  else
    let (a, g) := intElem o.fmt o.sat o.a.mods false x e
    (wrapNat o.fmt.width a, g)

/-- The elements of a reduction, with masked-off elements at the identity. -/
def redElems (o : VOps) (h : Hart) (x : VSrc) (n ident : Nat) : List Nat × Flags :=
  (List.range n).foldr (fun e acc =>
    if active h o.x.msk o.x.mn o.fmt.pack e then
      let (a, g) := redElem o x e
      (a :: acc.1, acc.2 ||| g)
    else (ident :: acc.1, acc.2)) ([], 0)

/-- The result of a reduction: a NaN is the canonical one, also that of a lone element (R46, R124). -/
def redNaN (f : Fmt) (r : Nat) : Nat × Flags :=
  if f.isFloat && isNaN f r then (canonNaN f, sigFlag (fpOf f r)) else (r, 0)

/-- vred (R124). -/
def runVred (o : VOps) (v : Env) (s : State) : VRes :=
  withV true o.a o.b v (fun x _ h =>
    let (f, ident) := redOp o (modeV o h)
    let n := o.fmt.pack * v.n
    if n = 0 then reduceNone s o.d o.fmt ident h
    else
      let (l, g) := redElems o h x n ident
      let (r, g') := pairTree f ident l
      let (r, g'') := redNaN (elemFmt o.fmt) r
      reduceTo s o.d o.fmt r (h.flag (g ||| g' ||| g''))) s

/-- Cut a list into blocks of 32. -/
def blocks32 : Nat → List Nat → List (List Nat)
  | 0, _ => []
  | fuel + 1, l => if l.isEmpty then [] else l.take 32 :: blocks32 fuel (l.drop 32)

/-- A value times an E8M0 scale, with one rounding (R48, R67). -/
def scaleBits (f : Fmt) (mode : RMode) (a E : Nat) : Nat × Flags :=
  if E = 255 then (canonNaN f, fNV ||| sigFlag (fpOf f a))
  else
    let x := fpOf f a
    let (b, g) := roundTo f mode false (fpScale x ((E : Int) - 127))
    (b, g ||| sigFlag x)

/-- vredsc (R125, R67). -/
def runVredsc (o : VOps) (v : Env) (s : State) : VRes :=
  withV true o.a o.b v (fun x y h =>
    let f := elemFmt o.fmt
    let mode := modeV o h
    let n := o.fmt.pack * v.n
    if n = 0 then reduceNone s o.d o.fmt (negZero f) h
    else
      let (l, g) := redElems o h x n (negZero f)
      let sums := (blocks32 (n / 32 + 1) l).zipIdx.map fun p =>
        let (r, g1) := pairTree (addBits f mode) (negZero f) p.1
        let E := (swz o.b.mods.swz (y.container 1 (p.2 / 4))).toNat / 2 ^ (8 * (p.2 % 4)) % 256
        let (r', g2) := scaleBits f mode r E
        (r', g1 ||| g2)
      let (r, g') := pairTree (addBits f mode) (negZero f) (sums.map (·.1))
      reduceTo s o.d o.fmt r (h.flag (sums.foldl (fun a p => a ||| p.2) (g ||| g')))) s

/-- The first level of vdot: two exact products, one rounding (R66). -/
def dotLevel (mode : RMode) : List (Fp × Flags) → List Nat × Flags
  | a :: b :: t =>
      let (x, g) := fpAdd (mode == .rdn) a.1 b.1
      let (r, g1) := roundTo .f32 mode false x
      let (l, g2) := dotLevel mode t
      (r :: l, a.2 ||| b.2 ||| g ||| g1 ||| g2)
  | [a] =>
      let (x, g) := fpAdd (mode == .rdn) a.1 (.fin true 0 0 false)
      let (r, g1) := roundTo .f32 mode false x
      ([r], a.2 ||| g ||| g1)
  | [] => ([], 0)

/-- vdot (R126, R66). -/
def runVdot (o : VOps) (v : Env) (s : State) : VRes :=
  withV true o.a o.b v (fun x y h =>
    let f := elemFmt o.fmt
    let mode := modeV o h
    let n := o.fmt.pack * v.n
    if n = 0 then reduceNone s o.d .f32 (negZero .f32) h
    else
      let products := (List.range n).map fun e =>
        if active h o.x.msk o.x.mn o.fmt.pack e then
          fpMul (fpOf f (fpElem o.fmt o.a.mods false x e)) (fpOf f (fpElem o.fmt o.b.mods false y e))
        else (.fin true 0 0 false, 0)
      let (r, g) :=
        if n = 1 then
          let p := products.headD (.fin true 0 0 false, 0)
          let (r, g) := roundTo .f32 mode false p.1
          (r, g ||| p.2)
        else
          let (l, g) := dotLevel mode products
          let (r, g') := pairTree (addBits .f32 mode) (negZero .f32) l
          (r, g ||| g')
      reduceTo s o.d .f32 r (h.flag g)) s

/-! ## Conversion and packing (R128 to R131) -/

/-- The source format of a conversion. -/
def srcFmt (o : VOps) : Fmt := o.x.sfmt.getD .f32

/-- A conversion rounds stochastically (R56, R57). -/
def stochastic (o : VOps) (h : Hart) : Bool := o.fmt.rsr && isStochastic o.x.rm h.rm

/-- Element e of A after R25, as a pattern, with IS where an integer saturates (R25, R128). -/
def cvtSource (o : VOps) (x : VSrc) (e : Nat) : Nat × Flags :=
  let f := srcFmt o
  if f.isFloat then (fpElem f o.a.mods false x e, 0)
  else
    let (i, g) := intElem f o.sat o.a.mods false x e
    (wrapNat f.width i, g)

/-- Cvt of element e of A (R128); sr tells that the instruction admits stochastic rounding (R57). -/
def cvtElem (sr : Bool) (o : VOps) (h : Hart) (x : VSrc) (e : Nat) : Nat × Flags :=
  let u := srBits h.seed.toNat h.ctr.toNat e / 65536
  let mode := modeOf o.x.rm h.rm (if sr && o.fmt.rsr then some u else none)
  let (a, g) := cvtSource o x e
  let (b, g') := cvt (elemFmt o.fmt) (elemFmt (srcFmt o)) o.sat mode a
  (b, g ||| g')

/-- Count a completed stochastic instruction (R56). DESIGN CHOICE (log 89): one that rounds nothing, because its source is an
integer or no element is active, counts too. -/
def countSr (o : VOps) (before : Hart) (r : VRes) : VRes :=
  match r with
  | .done s => if stochastic o before then .done (s.onH fun h => { h with ctr := h.ctr + 1 }) else .done s
  | r => r

/-- vcvt (R129). -/
def runVcvt (o : VOps) (v : Env) (s : State) : VRes :=
  countSr o s.hart (mould o o.fmt (fun h x _ _ e => cvtElem true o h x e) v s)

/-- vpack (R130). -/
def runVpack (o : VOps) (v : Env) (s : State) : VRes :=
  countSr o s.hart (withV true o.a o.b v (fun x _ h =>
    let p := o.fmt.pack
    let r := (List.range ((v.n + p - 1) / p * p)).foldl (fun (acc : List (Nat × Elem) × Flags) i =>
      if v.n ≤ i then (setElem o.fmt i 0 acc.1, acc.2)
      else if active h o.x.msk o.x.mn 1 i then
        let (b, g) := cvtElem true o h x i
        (setElem o.fmt i b acc.1, acc.2 ||| g)
      else if o.x.mz then (setElem o.fmt i 0 acc.1, acc.2)
      else acc) (oldV o.d h, 0)
    finishV s o.d r.1 (h.flag r.2)) s)

/-- vunpack (R131). -/
def runVunpack (o : VOps) (v : Env) (s : State) : VRes :=
  withV true o.a o.b v (fun x _ h =>
    let r := (List.range v.n).foldl (fun (acc : List (Nat × Elem) × Flags) e =>
      if active h o.x.msk o.x.mn 1 e then
        let (b, g) := cvtElem false o h x e
        (setElem o.fmt e b acc.1, acc.2 ||| g)
      else if o.x.mz then (setElem o.fmt e 0 acc.1, acc.2)
      else acc) (oldV o.d h, 0)
    finishV s o.d r.1 (h.flag r.2)) s

/-! ## Masks (R132, R133) -/

/-- Combine masks on positions 0 .. vl-1 (R132). -/
def maskOp (d : BitVec 3) (f : Hart → Nat → Byte) (v : Env) (s : State) : VRes :=
  withV true .none .none v (fun _ _ h =>
    let m := (List.range v.n).foldl (fun m e => tset 0 m e (f h e)) (tget [] h.m d.toNat)
    .done { s with hart := { h with m := tset [] h.m d.toNat m } }) s

/-- mand (R132). -/
def runMand (d a b : BitVec 3) : Env → State → VRes :=
  maskOp d fun h e => h.rmask a.toNat e &&& h.rmask b.toNat e
/-- mor (R132). -/
def runMor (d a b : BitVec 3) : Env → State → VRes :=
  maskOp d fun h e => h.rmask a.toNat e ||| h.rmask b.toNat e
/-- mnot (R132). -/
def runMnot (d a : BitVec 3) : Env → State → VRes := maskOp d fun h e => ~~~h.rmask a.toNat e

/-- Inspect a mask: the counted elements, in increasing order (R133). -/
def maskScan (d : Operand) (a : BitVec 3) (x : VX) (f : List Nat → Word) (v : Env) (s : State) : VRes :=
  withV true .none .none v (fun _ _ h =>
    let p := 2 ^ (x.sel.toNat % 4)
    let l := (List.range (p * v.n)).filter fun e => mbit h a.toNat p e && active h x.msk x.mn p e
    finishS s d (f l) h) s

/-- mpopc (R133). -/
def runMpopc (d : Operand) (a : BitVec 3) (x : VX) : Env → State → VRes :=
  maskScan d a x fun l => BitVec.ofNat 64 l.length
/-- mfirst (R133). -/
def runMfirst (d : Operand) (a : BitVec 3) (x : VX) : Env → State → VRes :=
  maskScan d a x fun l => match l with | [] => BitVec.allOnes 64 | e :: _ => BitVec.ofNat 64 e

/-! ## Issue -/

/-- vadd issues (R170). -/
def execVadd (c : Ctl) (o : VOps) (s : State) : Out := issueV (.vadd c o) c (runVadd o) s
/-- vsub issues (R170). -/
def execVsub (c : Ctl) (o : VOps) (s : State) : Out := issueV (.vsub c o) c (runVsub o) s
/-- vmul issues (R170). -/
def execVmul (c : Ctl) (o : VOps) (s : State) : Out := issueV (.vmul c o) c (runVmul o) s
/-- vmulh issues (R170). -/
def execVmulh (c : Ctl) (o : VOps) (s : State) : Out := issueV (.vmulh c o) c (runVmulh o) s
/-- vmadd issues (R170). -/
def execVmadd (c : Ctl) (o : VOps) (s : State) : Out := issueV (.vmadd c o) c (runVmadd o) s
/-- vmin issues (R170). -/
def execVmin (c : Ctl) (o : VOps) (s : State) : Out := issueV (.vmin c o) c (runVmin o) s
/-- vmax issues (R170). -/
def execVmax (c : Ctl) (o : VOps) (s : State) : Out := issueV (.vmax c o) c (runVmax o) s
/-- vabsd issues (R170). -/
def execVabsd (c : Ctl) (o : VOps) (s : State) : Out := issueV (.vabsd c o) c (runVabsd o) s
/-- vavg issues (R170). -/
def execVavg (c : Ctl) (o : VOps) (s : State) : Out := issueV (.vavg c o) c (runVavg o) s
/-- vand issues (R170). -/
def execVand (c : Ctl) (o : VOps) (s : State) : Out := issueV (.vand c o) c (runVand o) s
/-- vor issues (R170). -/
def execVor (c : Ctl) (o : VOps) (s : State) : Out := issueV (.vor c o) c (runVor o) s
/-- vxor issues (R170). -/
def execVxor (c : Ctl) (o : VOps) (s : State) : Out := issueV (.vxor c o) c (runVxor o) s
/-- vandn issues (R170). -/
def execVandn (c : Ctl) (o : VOps) (s : State) : Out := issueV (.vandn c o) c (runVandn o) s
/-- vshl issues (R170). -/
def execVshl (c : Ctl) (o : VOps) (s : State) : Out := issueV (.vshl c o) c (runVshl o) s
/-- vshr issues (R170). -/
def execVshr (c : Ctl) (o : VOps) (s : State) : Out := issueV (.vshr c o) c (runVshr o) s
/-- vsra issues (R170). -/
def execVsra (c : Ctl) (o : VOps) (s : State) : Out := issueV (.vsra c o) c (runVsra o) s
/-- vcmp issues (R170). -/
def execVcmp (c : Ctl) (o : VOps) (s : State) : Out := issueV (.vcmp c o) c (runVcmp o) s
/-- vsel issues (R170). -/
def execVsel (c : Ctl) (o : VOps) (s : State) : Out := issueV (.vsel c o) c (runVsel o) s
/-- vmov issues (R170). -/
def execVmov (c : Ctl) (o : VOps) (s : State) : Out := issueV (.vmov c o) c (runVmov o) s
/-- vbcast issues (R170). -/
def execVbcast (c : Ctl) (o : VOps) (s : State) : Out := issueV (.vbcast c o) c (runVbcast o) s
/-- vid issues (R170). -/
def execVid (c : Ctl) (o : VOps) (s : State) : Out := issueV (.vid c o) c (runVid o) s
/-- vclz issues (R170). -/
def execVclz (c : Ctl) (o : VOps) (s : State) : Out := issueV (.vclz c o) c (runVclz o) s
/-- vpopc issues (R170). -/
def execVpopc (c : Ctl) (o : VOps) (s : State) : Out := issueV (.vpopc c o) c (runVpopc o) s
/-- vdot4 issues (R170). -/
def execVdot4 (c : Ctl) (o : VOps) (s : State) : Out := issueV (.vdot4 c o) c (runVdot4 o) s
/-- vfadd issues (R170). -/
def execVfadd (c : Ctl) (o : VOps) (s : State) : Out := issueV (.vfadd c o) c (runVfadd o) s
/-- vfsub issues (R170). -/
def execVfsub (c : Ctl) (o : VOps) (s : State) : Out := issueV (.vfsub c o) c (runVfsub o) s
/-- vfmul issues (R170). -/
def execVfmul (c : Ctl) (o : VOps) (s : State) : Out := issueV (.vfmul c o) c (runVfmul o) s
/-- vfma issues (R170). -/
def execVfma (c : Ctl) (o : VOps) (s : State) : Out := issueV (.vfma c o) c (runVfma o) s
/-- vfmin issues (R170). -/
def execVfmin (c : Ctl) (o : VOps) (s : State) : Out := issueV (.vfmin c o) c (runVfmin o) s
/-- vfmax issues (R170). -/
def execVfmax (c : Ctl) (o : VOps) (s : State) : Out := issueV (.vfmax c o) c (runVfmax o) s
/-- vfcmp issues (R170). -/
def execVfcmp (c : Ctl) (o : VOps) (s : State) : Out := issueV (.vfcmp c o) c (runVfcmp o) s
/-- vfdiv issues (R170). -/
def execVfdiv (c : Ctl) (o : VOps) (s : State) : Out := issueV (.vfdiv c o) c (runVfdiv o) s
/-- vfsqrt issues (R170). -/
def execVfsqrt (c : Ctl) (o : VOps) (s : State) : Out := issueV (.vfsqrt c o) c (runVfsqrt o) s
/-- vfrcp issues (R170). -/
def execVfrcp (c : Ctl) (o : VOps) (s : State) : Out := issueV (.vfrcp c o) c (runVfrcp o) s
/-- vfrsq issues (R170). -/
def execVfrsq (c : Ctl) (o : VOps) (s : State) : Out := issueV (.vfrsq c o) c (runVfrsq o) s
/-- vfexp2 issues (R170). -/
def execVfexp2 (c : Ctl) (o : VOps) (s : State) : Out := issueV (.vfexp2 c o) c (runVfexp2 o) s
/-- vflog2 issues (R170). -/
def execVflog2 (c : Ctl) (o : VOps) (s : State) : Out := issueV (.vflog2 c o) c (runVflog2 o) s
/-- vfscl issues (R170). -/
def execVfscl (c : Ctl) (o : VOps) (s : State) : Out := issueV (.vfscl c o) c (runVfscl o) s
/-- vfrnd issues (R170). -/
def execVfrnd (c : Ctl) (o : VOps) (s : State) : Out := issueV (.vfrnd c o) c (runVfrnd o) s
/-- vxch issues (R170). -/
def execVxch (c : Ctl) (o : VOps) (s : State) : Out := issueV (.vxch c o) c (runVxch o) s
/-- vperm issues (R170). -/
def execVperm (c : Ctl) (o : VOps) (s : State) : Out := issueV (.vperm c o) c (runVperm o) s
/-- vslide issues (R170). -/
def execVslide (c : Ctl) (o : VOps) (s : State) : Out := issueV (.vslide c o) c (runVslide o) s
/-- vcompress issues (R170). -/
def execVcompress (c : Ctl) (o : VOps) (s : State) : Out := issueV (.vcompress c o) c (runVcompress o) s
/-- vexpand issues (R170). -/
def execVexpand (c : Ctl) (o : VOps) (s : State) : Out := issueV (.vexpand c o) c (runVexpand o) s
/-- vred issues (R170). -/
def execVred (c : Ctl) (o : VOps) (s : State) : Out := issueV (.vred c o) c (runVred o) s
/-- vredsc issues (R170). -/
def execVredsc (c : Ctl) (o : VOps) (s : State) : Out := issueV (.vredsc c o) c (runVredsc o) s
/-- vdot issues (R170). -/
def execVdot (c : Ctl) (o : VOps) (s : State) : Out := issueV (.vdot c o) c (runVdot o) s
/-- vcvt issues (R170). -/
def execVcvt (c : Ctl) (o : VOps) (s : State) : Out := issueV (.vcvt c o) c (runVcvt o) s
/-- vpack issues (R170). -/
def execVpack (c : Ctl) (o : VOps) (s : State) : Out := issueV (.vpack c o) c (runVpack o) s
/-- vunpack issues (R170). -/
def execVunpack (c : Ctl) (o : VOps) (s : State) : Out := issueV (.vunpack c o) c (runVunpack o) s
/-- mand issues (R170). -/
def execMand (c : Ctl) (d a b : BitVec 3) (s : State) : Out :=
  issueV (.mand c d a b) c (runMand d a b) s
/-- mor issues (R170). -/
def execMor (c : Ctl) (d a b : BitVec 3) (s : State) : Out :=
  issueV (.mor c d a b) c (runMor d a b) s
/-- mnot issues (R170). -/
def execMnot (c : Ctl) (d a : BitVec 3) (s : State) : Out :=
  issueV (.mnot c d a) c (runMnot d a) s
/-- mpopc issues (R170). -/
def execMpopc (c : Ctl) (d : Operand) (a : BitVec 3) (x : VX) (s : State) : Out :=
  issueV (.mpopc c d a x) c (runMpopc d a x) s
/-- mfirst issues (R170). -/
def execMfirst (c : Ctl) (d : Operand) (a : BitVec 3) (x : VX) (s : State) : Out :=
  issueV (.mfirst c d a x) c (runMfirst d a x) s

end Sys2Proof.Machine
end

