-- ==== Sys2Proof/Machine/VectorMem.lean ====
section
/-! DEFINITION. OP 0x90 to 0x9C and vamo: vector loads and stores (R202 to R205), queue transfers (R206), bound
streams (R207 to R211), stash control (R212 to R214) and vector atomics (R255, R256). -/

namespace Sys2Proof.Machine

/-! ## Elements of vector loads and stores (R202 to R205) -/

/-- A scalar operand or offset of a vector memory instruction at its issue, after its modifiers (R25). -/
def Env.operand (v : Env) (o : Operand) : Word :=
  match o with
  | .s n m => (full64 false m (v.rs n.toNat)).1
  | .imm i => i.signExtend 64
  | _ => 0

/-- Address of element e of vld and vst (R203). -/
def eaUnit (o : VMOps) (v : Env) (e : Nat) : Word :=
  v.src o.a + v.operand o.b + BitVec.ofNat 64 (e * fmtBytes o.fmt)

/-- Address of element e of vlds and vsts (R203). -/
def eaStride (o : VMOps) (v : Env) (e : Nat) : Word := v.src o.a + BitVec.ofNat 64 e * v.operand o.b

/-- An index as a byte offset (R203). -/
def idxOf (si : Bool) (scale : Nat) (x : Elem) : Word :=
  (if si then x.signExtend 64 else x.setWidth 64) * BitVec.ofNat 64 scale

/-- Index e of vldx and vstx, after its modifiers: an element of .i32 or of .n32 (R25, R203). -/
def indexElem (o : VMOps) (h : Hart) (e : Nat) : Elem :=
  match o.b with
  | .v n m => BitVec.ofNat 32 (moveElem (if o.si then .i32 else .n32) m (.vec (tget [] h.v n.toNat)) e)
  | _ => 0

/-- Address of element e of vldx and vstx; the indices are those before the instruction (R203, R205). -/
def eaIndex (o : VMOps) (v : Env) (h : Hart) (e : Nat) : Word :=
  v.src o.a + idxOf o.si (if o.sc then fmtBytes o.fmt else 1) (indexElem o h e)

/-- The record of a vector store (R413, R423). -/
def recV (v : Env) (kind : Nat) : RecMeta := ⟨kind, pcWord v.pc 0, 0, v.win⟩

/-- Load the elements of a list in order; the trap stops at its element (R203). -/
def loadElems (o : VMOps) (v : Env) (ea : Nat → Word) (act : Nat → Bool) : List Nat → State → State × Option (Trap × Nat)
  | [], s => (s, none)
  | e :: es, s =>
      if act e then
        match s.load (ea e) (fmtBytes o.fmt) true true with
        | .error t => (s, some (t, e))
        | .ok (bs, s) =>
            loadElems o v ea act es (s.onH (Hart.wv o.d.toNat e (extElem o.fmt (leNat bs))))
      else if o.mz then loadElems o v ea act es (s.onH (Hart.wv o.d.toNat e 0))
      else loadElems o v ea act es s

/-- Store the elements of a list in order, with the extents written (R203, R436). -/
def storeElems (o : VMOps) (v : Env) (data : Nat → Elem) (ea : Nat → Word) (act : Nat → Bool) :
    List Nat → List (Nat × Nat) → State → State × List (Nat × Nat) × Option (Trap × Nat)
  | [], ws, s => (s, ws, none)
  | e :: es, ws, s =>
      if act e then
        let a := ea e
        let n := fmtBytes o.fmt
        match s.check s.agent ⟨a, n, .store, true, true⟩ with
        | .error t => (s, ws, some (t, e))
        | .ok acc =>
            match s.logFull (State.recordAddrs acc) with
            | some x => (s, ws, some (⟨.liningFull, x⟩, e))
            | none =>
                storeElems o v data ea act es (s.extents acc ++ ws)
                  (s.storeAt (recV v 0) acc (leBytes n (data e).toNat))
      else storeElems o v data ea act es ws s

/-- An element-stoppable load (R203). -/
def loadVector (o : VMOps) (ea : Hart → Nat → Word) (v : Env) (s : State) : VRes :=
  let h := s.hart
  let act := active h o.msk o.mn 1
  match loadElems o v (ea h) act (elements v 1 h.vstart.toNat v.n) s with
  | (s, some (t, e)) => .trap t s e
  | (s, none) => .done (s.onH fun h => { h with vstart := 0 })

/-- An element-stoppable store (R203). -/
def storeVector (o : VMOps) (ea : Hart → Nat → Word) (v : Env) (s : State) : VRes :=
  let h := s.hart
  let act := active h o.msk o.mn 1
  match storeElems o v (fun e => swz o.dswz (h.rv o.d.toNat e)) (ea h) act (elements v 1 h.vstart.toNat v.n) [] s with
  | (s, ws, some (t, e)) => .trap t (s.cover ws) e
  | (s, ws, none) => .done ((s.cover ws).onH fun h => { h with vstart := 0 })

/-- vld (R203). -/
def runVld (o : VMOps) (v : Env) : State → VRes := loadVector o (fun _ => eaUnit o v) v
/-- vlds (R203). -/
def runVlds (o : VMOps) (v : Env) : State → VRes := loadVector o (fun _ => eaStride o v) v
/-- vldx (R203). -/
def runVldx (o : VMOps) (v : Env) : State → VRes := loadVector o (eaIndex o v) v
/-- vst (R203). -/
def runVst (o : VMOps) (v : Env) : State → VRes := storeVector o (fun _ => eaUnit o v) v
/-- vsts (R203). -/
def runVsts (o : VMOps) (v : Env) : State → VRes := storeVector o (fun _ => eaStride o v) v
/-- vstx (R203). -/
def runVstx (o : VMOps) (v : Env) : State → VRes := storeVector o (eaIndex o v) v

/-! ## Whole transfers of vectors -/

/-- Check every element of a transfer by an accessor: the checked elements, or the trap of the lowest that fails. -/
def checkAll (n : Nat) (kind : Kind) (g : Agent) (s : State) : List Word → Except Trap (List Acc)
  | [] => .ok []
  | a :: as =>
      match s.check g ⟨a, n, kind, true, true⟩ with
      | .error t => .error t
      | .ok acc =>
          match checkAll n kind g s as with
          | .error t => .error t
          | .ok r => .ok (acc :: r)

/-- Read checked elements into a vector. -/
def readAll (f : Fmt) : List Acc → Nat → List (Nat × Elem) → State → List (Nat × Elem) × State
  | [], _, t, s => (t, s)
  | acc :: as, e, t, s =>
      let (bs, s) := s.loadAt s.hart.holder acc
      readAll f as (e + 1) (tset 0 t e (extElem f (leNat bs))) s

/-- Write checked elements of a vector. -/
def writeAll (f : Fmt) (m : RecMeta) : List Acc → Nat → List (Nat × Elem) → State → State
  | [], _, _, s => s
  | acc :: as, e, t, s =>
      writeAll f m as (e + 1) t (s.storeAt m acc (leBytes (fmtBytes f) (tget 0 t e).toNat))

/-- Store a whole vector as one unit: every check, then room for every record, then the writes (R206, R426). -/
def storeWhole (f : Fmt) (m : RecMeta) (g : Agent) (as : List Word) (t : List (Nat × Elem)) (s : State) : Except Trap State :=
  match checkAll (fmtBytes f) .store g s as with
  | .error t => .error t
  | .ok accs =>
      match s.logFull (accs.flatMap State.recordAddrs) with
      | some a => .error ⟨.liningFull, a⟩
      | none => .ok ((writeAll f m accs 0 t s).cover (accs.flatMap s.extents))

/-- Element addresses of vldq and vstq (R206). -/
def eaQueue (f : Fmt) (a : SSrc) (b : Operand) (v : Env) : List Word :=
  (List.range v.n).map fun e => v.src a + v.operand b + BitVec.ofNat 64 (e * fmtBytes f)

/-- vldq (R206). DESIGN CHOICE (log 94): on a store-bound queue with a pending write fault, Stream Fault comes first. -/
def runVldq (f : Fmt) (q : BitVec 3) (a : SSrc) (b : Operand) (v : Env) (s : State) : VRes :=
  if s.hart.vstart ≠ 0 then .trap (vectorStart s.hart) s 0
  else if (s.hart.stream q.toNat).isSome then .trap streamMisuse s 0
  else if Config.vectorQueueDepth ≤ (s.hart.vq q.toNat).length then .wait
  else
    match checkAll (fmtBytes f) .load s.agent s (eaQueue f a b v) with
    | .error t => .trap t s 0
    | .ok accs =>
        let (t, s) := readAll f accs 0 [] s
        .done (s.onH fun h => h.setVq q.toNat (h.vq q.toNat ++ [t]))

/-- vstq (R206). DESIGN CHOICE (log 94): on a store-bound queue with a pending write fault, Stream Fault comes first. -/
def runVstq (f : Fmt) (q : BitVec 3) (a : SSrc) (b : Operand) (v : Env) (s : State) : VRes :=
  if s.hart.vstart ≠ 0 then .trap (vectorStart s.hart) s 0
  else if (s.hart.stream q.toNat).isSome then .trap streamMisuse s 0
  else
    match s.hart.vq q.toNat with
    | [] => .wait
    | t :: rest =>
        match storeWhole f (recV v 0) s.agent (eaQueue f a b v) t s with
        | .error t => .trap t s 0
        | .ok s => .done (s.onH (Hart.setVq q.toNat rest))

/-! ## Bound streams (R207 to R211) -/

/-- vbind (R207). DESIGN CHOICE (logs 93, 94): Misaligned Access comes before Stream Fault 2, and Stream Fault 2 before a fault
of the descriptor's load and before a pending write fault of the queue. -/
def runVbind (f : Fmt) (sc st : Bool) (q : BitVec 3) (a : SSrc) (v : Env) (s : State) : VRes :=
  let va := v.src a
  if canonical va && va.toNat % 64 ≠ 0 then .trap ⟨.misaligned, va⟩ s 0
  else if (s.hart.stream q.toNat).isSome || s.hart.vq q.toNat ≠ [] then .trap ⟨.stream, 2⟩ s 0
  else
    match s.load va 64 true true with
    | .error t => .trap t s 0
    | .ok (bs, s') =>
        let w := fun (i : Nat) => wordOf ((bs.drop i).take 8)
        let count := leNat ((bs.drop 24).take 4)
        if (bs.drop 28).take 4 ≠ [0, 0, 0, 0] || (bs.drop 48).any fun b => b ≠ 0 then .trap ⟨.stream, 4⟩ s 0
        else
          let b : Stream := ⟨f, st, sc, w 0, w 8, w 16, count, w 32, w 40, v.n, 0, 0, [], none, v.pc, v.win, v.seq,
            [], v.level⟩
          .done (if count = 0 then s' else s'.onH (Hart.setStream q.toNat (some b)))

/-- vunbind (R210, R211). -/
def runVunbind (q : BitVec 3) (_v : Env) (s : State) : VRes :=
  match s.hart.stream q.toNat with
  | none => .done s
  | some b =>
      if b.store then
        match b.trap with
        | some t => .trap t s 0
        | none => if s.hart.vq q.toNat ≠ [] then .wait else .done (s.onH (Hart.setStream q.toNat none))
      else .done (s.onH fun h => (h.setStream q.toNat none).setVq q.toNat [])

/-- A queued access of the vector agent whose order against the accesses of bound streams counts (R209). -/
def streamOrder : Instr → Bool
  | .vld .. | .vlds .. | .vldx .. | .vst .. | .vsts .. | .vstx .. | .vldq .. | .vstq .. | .vamo .. | .wfmt .. | .wload ..
  | .mma .. | .stmap .. | .stwb .. | .stdrop .. => true
  | _ => false

/-- Addresses of the elements of entry j of a stream (R208). -/
def Stream.addrs (b : Stream) (j : Nat) : List Word :=
  (List.range b.len).map fun e => b.base + BitVec.ofNat 64 j * b.vstr + BitVec.ofNat 64 e * b.estr

/-- Scale bytes of entry j: one for every 32 elements (R208). -/
def Stream.scaleAddrs (b : Stream) (j : Nat) : List Word :=
  if b.sc then (List.range ((b.len + 31) / 32)).map fun k =>
    b.sbase + BitVec.ofNat 64 j * b.sstr + BitVec.ofNat 64 k
  else []

/-- Scale the elements of an entry to f32, with the flags of the roundings (R208). -/
def scaleEntry (b : Stream) (t scales : List (Nat × Elem)) : List (Nat × Elem) × Flags :=
  (List.range b.len).foldl (fun (acc : List (Nat × Elem) × Flags) e =>
    let x := fpOf b.fmt (tget 0 t e).toNat
    let E := (tget 0 scales (e / 32)).toNat % 256
    let nan := E = 255 || (match x with | .nan _ => true | _ => false)
    let (r, g) := if nan then (canonNaN .f32, fNV) else roundTo .f32 .rne false (fpScale x ((E : Int) - 127))
    (tset 0 acc.1 e (BitVec.ofNat 32 r), acc.2 ||| g)) ([], 0)

/-- Some queued access of the vector agent, or an episode, has a sequence number below n. -/
def vectorBelow (ok : Instr → Bool) (n : Nat) (h : Hart) : Bool :=
  h.vcq.any (fun e => ok e.instr && decide (e.env.seq < n))
    || (match h.episode with | some ep => decide (ep.env.seq < n) | none => false)

/-- A bound stream of the focused hart goes on: the hart runs, its vector streams are not frozen, and its zone is not stopped
(R398, R416, R463). -/
def streamsRun (s : State) : Bool := s.hart.run == .running && !s.hart.vqf && !zoneStopped s

/-- A load stream of the focused hart fetches its next entry into q8 + q, after the vector accesses that are earlier than
its vbind (R208, R209, R211). DESIGN CHOICE (log 87): where an element and a scale byte both fail, the element's fault is
reported. -/
def fetchEntry (q : Nat) (s : State) : Option State :=
  match s.hart.stream q with
  | none => none
  | some b =>
      if b.store || b.trap.isSome || b.count ≤ b.done || Config.vectorQueueDepth ≤ (s.hart.vq q).length
          || !streamsRun s || vectorBelow streamOrder b.seq s.hart then none
      else
        match checkAll (fmtBytes b.fmt) .load (s.agentAt b.level) s (b.addrs b.done),
            checkAll 1 .load (s.agentAt b.level) s (b.scaleAddrs b.done) with
        | .error t, _ | _, .error t =>
            if t.cause = .held then none else some (s.onH (Hart.setStream q (some { b with trap := some t })))
        | .ok accs, .ok sc =>
            let (t, s) := readAll b.fmt accs 0 [] s
            let (scales, s) := readAll .n8 sc 0 [] s
            let (t, g) := if b.sc then scaleEntry b t scales else (t, 0)
            some (s.onH fun h => (h.setVq q (h.vq q ++ [t])).setStream q
              (some { b with done := b.done + 1, flags := b.flags ++ [g] }))

/-- Queued vector accesses that the next write of a store stream follows: those that are earlier than the instruction that
has appended its entry (R209). -/
def appendedBehind (b : Stream) (h : Hart) : Bool :=
  match b.apps.find? fun p => p.1 == b.done with
  | some p => vectorBelow streamOrder p.2 h
  | none => false

/-- A store stream of the focused hart writes its oldest entry, after the stores that are earlier than the instruction that
has appended it (R208, R209, R211). -/
def writeEntry (q : Nat) (s : State) : Option State :=
  match s.hart.stream q with
  | none => none
  | some b =>
      if !b.store || b.trap.isSome || b.count ≤ b.done || !streamsRun s || appendedBehind b s.hart then none
      else
        match s.hart.vq q with
        | [] => none
        | t :: rest =>
            let s := s.lateStores
            match storeWhole b.fmt ⟨0, pcWord b.pc 0, 0, b.win⟩ (s.agentAt b.level) (b.addrs b.done) t s with
            | .error e => if e.cause = .held then none else some (s.onH (Hart.setStream q (some { b with trap := some e })))
            | .ok s => some (s.onH fun h => (h.setVq q rest).setStream q
                (if b.done + 1 = b.count then none
                  else some { b with done := b.done + 1, apps := b.apps.filter fun p => p.1 ≠ b.done }))

/-- An event of the device performs where it can, and anywhere else nothing has happened yet: what it serves stays
outstanding, and a later turn may serve it. -/
def due (s : State) (r : Option State) : Out := .next (r.getD s)

/-- A load stream of hart h fetches an entry (R208). -/
def execLoadStreamFetch (h q : Nat) (s : State) : Out :=
  due s ((fetchEntry q (s.focus h)).map (State.focus s.cur))

/-- A store stream of hart h writes an entry (R208). -/
def execStoreStreamWrite (h q : Nat) (s : State) : Out :=
  due s ((writeEntry q (s.focus h)).map (State.focus s.cur))

/-! ## Stash control (R212 to R214) -/

/-- A line overlaps the range of n bytes from a. -/
def lineIn (a : Word) (n : Nat) (vline : Nat) : Bool :=
  let x := ((vline * 128 + 127 : Nat) + (2 ^ 64 - a.toNat)) % 2 ^ 64
  n ≠ 0 && decide (x < n + 127)

/-- Stash map slots of other contexts of the hart's cid, and of this context beside slot k, on a core (R213). -/
def rivalSlots (s : State) (core k : Nat) : List StashSlot :=
  let mine := s.hart.stmap.filter fun e => e.1 / 32 == core && e.1 != 32 * core + k
  let live := s.slots.flatMap fun n =>
    let h := s.hartAt n
    if n ≠ s.cur && h.run ≠ .empty && h.cid = s.hart.cid then h.stmap.filter fun e => e.1 / 32 == core else []
  let saved := s.saved.flatMap fun c =>
    if c.hart.cid = s.hart.cid then c.hart.stmap.filter fun e => e.1 / 32 == core else []
  (mine ++ live ++ saved).map (·.2)

/-- Write back the dirty lines of a slot on the executing core (R191). -/
def cleanSlot (x : StashSlot) (s : State) : State :=
  s.cleanIf fun d => decide (d.core = s.coreNo) && decide (d.cid = s.hart.cid) && lineIn x.base x.size d.vline

/-- stmap (R213). -/
def runStmap (slot : BitVec 5) (soff : BitVec 7) (a : BitVec 6) (b : Operand) (v : Env) (s : State) : VRes :=
  let base := v.rs a.toNat
  let size := (v.operand b).toNat
  let off := soff.toNat * 4096
  let key := 32 * s.coreNo + slot.toNat
  let old := tget StashSlot.reset s.hart.stmap key
  let put := fun (x : StashSlot) (s : State) =>
    s.onH fun h => { h with stmap := tset StashSlot.reset h.stmap key x }
  let fault := fun (code : Nat) => VRes.trap ⟨.stashMap, BitVec.ofNat 64 code⟩ s 0
  if size = 0 then .done (put StashSlot.reset (cleanSlot old s))
  else if size < 4096 || 524288 < size || 2 ^ Nat.log2 size ≠ size then fault 1
  else if !canonical base || base.toNat % size ≠ 0 then fault 2
  else if off % size ≠ 0 || 524288 < off + size then fault 3
  else if (rivalSlots s s.coreNo slot.toNat).any fun x =>
      decide (x ≠ ⟨base, size, off⟩) && decide (x.soff < off + size) && decide (off < x.soff + x.size) then fault 4
  else .done (put ⟨base, size, off⟩ (cleanSlot old s))

/-- stwb (R214). -/
def runStwb (a : BitVec 6) (b : Operand) (v : Env) (s : State) : VRes :=
  let va := v.rs a.toNat
  let n := (v.operand b).toNat
  .done (s.cleanIf fun d =>
    decide (d.core = s.coreNo) && decide (d.cid = s.hart.cid) && lineIn va n d.vline)

/-- Insert a line by its virtual address. -/
def insertLine (d : Dirty) : List Dirty → List Dirty
  | [] => [d]
  | e :: es => if d.vline ≤ e.vline then d :: e :: es else e :: insertLine d es

/-- The dirty lines that stdrop drops, in order of address (log 19). -/
def droppedLines (s : State) (va : Word) (n : Nat) : List Dirty :=
  (s.dirty.filter fun d =>
    decide (d.core = s.coreNo) && decide (d.cid = s.hart.cid) && lineIn va n d.vline).foldr insertLine []

/-- Drop one dirty line: its KIND 2 records, then its home bytes (R195, R423). -/
def dropLine (v : Env) (d : Dirty) (s : State) : State :=
  let pa := d.pline * 128
  let va := BitVec.ofNat 64 (d.vline * 128)
  let s := if s.logged then (List.range 16).foldl (fun s i =>
      s.append ⟨va + BitVec.ofNat 64 (8 * i), wordOf ((List.range 8).map fun j => s.byte (pa + 8 * i + j)),
        wordOf ((d.home.drop (8 * i)).take 8), 2, 8, pcWord v.pc 0, 0, v.win⟩) s
    else s
  { s.putBytes pa d.home with dirty := s.dirty.filter fun e => e.pline ≠ d.pline }

/-- stdrop (R214, R426). -/
def runStdrop (a : BitVec 6) (b : Operand) (v : Env) (s : State) : VRes :=
  let ds := droppedLines s (v.rs a.toNat) (v.operand b).toNat
  let addrs := ds.flatMap fun d => (List.range 16).map fun i => BitVec.ofNat 64 (d.vline * 128 + 8 * i)
  if s.appendHeld addrs.length then .wait
  else match s.logFull addrs with
  | some x => .trap ⟨.liningFull, x⟩ s 0
  | none => .done (ds.foldl (fun s d => dropLine v d s) s)

/-! ## vamo (R255, R256) -/

/-- Combine one operation on two values of a format. -/
def amoCombine (f : Fmt) (op : Nat) (a b : Nat) : Nat × Flags :=
  if f.isFloat then
    match op with
    | 0 => addBits .f32 .rne a b
    | 1 => fpMinMax .f32 false a b
    | _ => fpMinMax .f32 true a b
  else (wrapNat 32 (amoNew f op (fmtRead f a) (fmtRead f b)), 0)

/-- The combined operand of the elements of one address (R256). -/
def amoOperand (f : Fmt) (op : Nat) (l : List Nat) : Nat × Flags :=
  match l with
  | [] => (0, 0)
  | x :: t =>
      if f.isFloat && op == 0 then pairTree (addBits .f32 .rne) (negZero .f32) (x :: t)
      else t.foldl (fun (acc : Nat × Flags) y => let (r, g) := amoCombine f op acc.1 y; (r, acc.2 ||| g)) (x, 0)

/-- Group the active elements by address, in order of their first element. -/
def groupAddrs : List (Word × Nat) → List (Word × List Nat) → List (Word × List Nat)
  | [], g => g
  | (a, x) :: t, g =>
      groupAddrs t (if g.any fun p => p.1 = a then g.map fun p => if p.1 = a then (a, p.2 ++ [x]) else p
        else g ++ [(a, [x])])

/-- One read-modify-write of vamo (R256). -/
def amoOne (f : Fmt) (op : Nat) (v : Env) (acc : Acc) (xs : List Nat) (s : State) : State :=
  let mem := leNat (s.bytesAt acc)
  let (x, g) := amoOperand f op xs
  let (r, g') := amoCombine f op mem x
  (s.storeAt (recV v 1) acc (leBytes 4 r)).onH (Hart.flag (g ||| g'))

/-- A vamo executes at the home slices: a line lies on no private page, or its addresses are too many for the atomic cache of
the core (R257). -/
def vamoAtHome (s : State) (n : Nat) (accs : List Acc) : Bool :=
  let div := (s.coreAt s.coreNo).vathr.toNat
  div == 0 || decide (n / div < accs.length) || accs.any fun a => a.chunks.any fun c => c.attr ≠ 0

/-- An access that is performed at its home, through no stash. DESIGN CHOICE (log 102): a line that is dirty in a stash stays
so. -/
def Acc.atHome (a : Acc) : Acc :=
  { a with chunks := a.chunks.map fun (c : Chunk) => { c with attr := if c.attr = 0 then 2 else c.attr } }

/-- vamo (R256, R257). -/
def runVamo (op : BitVec 3) (f : Fmt) (d : BitVec 5) (a : BitVec 6) (b : BitVec 5) (msk : Bool)
    (mn : BitVec 3) (scaled si : Bool) (v : Env) (s : State) : VRes :=
  let h := s.hart
  if h.vstart ≠ 0 then .trap (vectorStart h) s 0
  else
    let es := (List.range v.n).filter (active h msk mn 1)
    let ea := fun (e : Nat) => v.rs a.toNat + idxOf si (if scaled then 4 else 1) (h.rv b.toNat e)
    match checkAll 4 .rmw s.agent s (es.map ea) with
    | .error t => .trap t s 0
    | .ok _ =>
        let gs := groupAddrs (es.map fun e => (ea e, (h.rv d.toNat e).toNat)) []
        match checkAll 4 .rmw s.agent s (gs.map (·.1)) with
        | .error t => .trap t s 0
        | .ok accs =>
            match s.logFull (accs.flatMap State.recordAddrs) with
            | some x => .trap ⟨.liningFull, x⟩ s 0
            | none =>
                let accs := if vamoAtHome s v.n accs then accs.map Acc.atHome else accs
                .done ((accs.zip gs).foldl (fun s p => amoOne f op.toNat v p.1 p.2.2 s) s)

/-! ## Issue -/

/-- vld issues (R170). -/
def execVld (c : Ctl) (o : VMOps) (s : State) : Out := issueV (.vld c o) c (runVld o) s
/-- vlds issues (R170). -/
def execVlds (c : Ctl) (o : VMOps) (s : State) : Out := issueV (.vlds c o) c (runVlds o) s
/-- vldx issues (R170). -/
def execVldx (c : Ctl) (o : VMOps) (s : State) : Out := issueV (.vldx c o) c (runVldx o) s
/-- vst issues (R170). -/
def execVst (c : Ctl) (o : VMOps) (s : State) : Out := issueV (.vst c o) c (runVst o) s
/-- vsts issues (R170). -/
def execVsts (c : Ctl) (o : VMOps) (s : State) : Out := issueV (.vsts c o) c (runVsts o) s
/-- vstx issues (R170). -/
def execVstx (c : Ctl) (o : VMOps) (s : State) : Out := issueV (.vstx c o) c (runVstx o) s
/-- vldq issues (R170). -/
def execVldq (c : Ctl) (f : Fmt) (q : BitVec 3) (a : SSrc) (b : Operand) (s : State) : Out :=
  issueV (.vldq c f q a b) c (runVldq f q a b) s
/-- vstq issues (R170). -/
def execVstq (c : Ctl) (f : Fmt) (q : BitVec 3) (a : SSrc) (b : Operand) (s : State) : Out :=
  issueV (.vstq c f q a b) c (runVstq f q a b) s
/-- vbind issues (R170). -/
def execVbind (c : Ctl) (f : Fmt) (sc st : Bool) (q : BitVec 3) (a : SSrc) (s : State) : Out :=
  issueV (.vbind c f sc st q a) c (runVbind f sc st q a) s
/-- vunbind issues (R170). -/
def execVunbind (c : Ctl) (q : BitVec 3) (s : State) : Out := issueV (.vunbind c q) c (runVunbind q) s
/-- stmap issues (R170). -/
def execStmap (c : Ctl) (slot : BitVec 5) (soff : BitVec 7) (a : BitVec 6) (b : Operand) (s : State) : Out :=
  issueV (.stmap c slot soff a b) c (runStmap slot soff a b) s
/-- stwb issues (R170). -/
def execStwb (c : Ctl) (a : BitVec 6) (b : Operand) (s : State) : Out := issueV (.stwb c a b) c (runStwb a b) s
/-- stdrop issues (R170). -/
def execStdrop (c : Ctl) (a : BitVec 6) (b : Operand) (s : State) : Out := issueV (.stdrop c a b) c (runStdrop a b) s
/-- vamo issues (R170). -/
def execVamo (c : Ctl) (op : BitVec 3) (sc : Scope) (f : Fmt) (d : BitVec 5) (a : BitVec 6) (b : BitVec 5)
    (msk : Bool) (mn : BitVec 3) (scaled si : Bool) (s : State) : Out :=
  issueV (.vamo c op sc f d a b msk mn scaled si) c (runVamo op f d a b msk mn scaled si) s

end Sys2Proof.Machine
end

