-- ==== Sys2Proof/Machine/Matrix.lean ====
section
/-! DEFINITION. OP 0xA0 to 0xA9: shapes, weights, scales, accumulators and multiply steps (R135 to R160). -/

namespace Sys2Proof.Machine

/-! ## Shapes and formats (R139, R141, R147) -/

/-- A pair of left-operand and weight formats that mma accepts (R139). -/
def mmaPair (a w : Fmt) : Bool :=
  match a, w with
  | .i8, .i8 => true
  | .e4m3, .e4m3 | .e4m3, .e5m2 | .e4m3, .vq2 | .e5m2, .e4m3 | .e5m2, .e5m2 | .e5m2, .vq2 => true
  | .e2m1, .e2m1 | .e2m1, .vq2 => true
  | .bf16, .bf16 => true
  | .f16, .f16 => true
  | _, _ => false

/-- A natural value of an s or imm14 position (R146). -/
def natOperand (h : Hart) (o : Operand) : Nat :=
  match o with
  | .s n _ => (h.rs n.toNat).toNat
  | .imm i => (i.signExtend 64 : Word).toNat
  | _ => 0

/-- setts, in the scalar stream (R147). -/
def execSetts (c : Ctl) (wf : Fmt) (m n k : Operand) (s : State) : Out :=
  guarded c s fun s => (s.onH fun h => { h with
    tm := BitVec.ofNat 7 (min (natOperand h m) 64)
    tn := BitVec.ofNat 7 (min (natOperand h n) 64)
    tk := BitVec.ofNat 12 (min (natOperand h k) (kmax wf)) }).advance

/-- mscale, an instruction of the vector command queue whose whole effect is on the instructions that issue after it
(R142, R150, log 40). -/
def execMscale (c : Ctl) (ofB : Bool) (a : BitVec 6) (b : Operand) (count : BitVec 12) (s : State) : Out :=
  entering (.mscale c ofB a b count) c (fun s => (s.onH fun h =>
    let x : Binding := if count = 0 then ⟨0, 0, 0⟩
      else ⟨h.rs a.toNat, BitVec.ofNat 64 (natOperand h b), count⟩
    if ofB then { h with bindB := x } else { h with bindA := x }).advance) s

/-! ## Reads of matrix instructions (R143, R158) -/

/-- Cut a range at 128-byte lines. -/
def linePieces : Nat → Word → Nat → List (Word × Nat)
  | 0, _, _ => []
  | fuel + 1, va, n =>
      if n = 0 then []
      else
        let k := min n (128 - va.toNat % 128)
        (va, k) :: linePieces fuel (va + BitVec.ofNat 64 k) (n - k)

/-- The first trap of a list of checks that satisfies a test. -/
def firstTrap (p : Cause → Bool) : List (Except Trap Acc) → Option Trap
  | [] => none
  | .error t :: l => if p t.cause then some t else firstTrap p l
  | .ok _ :: l => firstTrap p l

/-- Read ranges of memory: every check of every byte first, in the order of R158, then the bytes. DESIGN CHOICE (log 100): of
several bytes that fail checks of one order, the first in the order of the list. -/
def readRanges (rs : List (Word × Nat)) (s : State) : Except Trap (List (List Byte) × State) :=
  let checks := rs.map fun r => (linePieces (r.2 / 128 + 2) r.1 r.2).map fun p =>
    s.check s.agent ⟨p.1, p.2, .load, true, false⟩
  let all := checks.flatMap id
  match firstTrap (fun c => c != .remote && c != .dataError) all with
  | some t => .error t
  | none =>
      match firstTrap (fun c => c == .remote) all with
      | some t => .error t
      | none =>
          match firstTrap (fun _ => true) all with
          | some t => .error t
          | none =>
              let accs := checks.map fun l => l.filterMap fun r => match r with | .ok a => some a | .error _ => none
              .ok (accs.map fun l => l.flatMap s.bytesAt,
                (accs.flatMap id).foldl (fun s a => (s.loadAt s.hart.holder a).2) s)

/-! ## Slots -/

/-- Change the focused hart's tile slot n. -/
def State.modTile (n : Nat) (f : Tile → Tile) (s : State) : State :=
  s.modCore s.coreNo fun c => c.setTile n (f (c.tile n))

/-- Tile slot n of the focused hart's core. -/
def State.tileAt (s : State) (n : Nat) : Tile := (s.coreAt s.coreNo).tile n

/-- Format Fault (R159). -/
def formatFault (code operand slot : Nat) : Trap :=
  ⟨.format, BitVec.ofNat 64 (code + 256 * operand + 65536 * slot)⟩

/-- A matrix instruction that names slot n runs only while the slot is held, at issue and now (R158). -/
def withSlot (n : Nat) (v : Env) (f : Tile → State → VRes) (s : State) : VRes :=
  if !(v.held && s.holds n) then .trap ⟨.tileNotHeld, BitVec.ofNat 64 n⟩ s 0 else f (s.tileAt n) s

/-- Little-endian words of a list of bytes. -/
def wordsOf (k : Nat) (bs : List Byte) (n : Nat) : List Nat :=
  (List.range n).map fun i => leNat ((bs.drop (k * i)).take k)

/-- wfmt (R148). -/
def runWfmt (wf : Fmt) (n : BitVec 2) (a : Operand) (v : Env) : State → VRes :=
  withSlot n.toNat v fun _ s =>
    if wf = .vq2 then
      let va := v.operand a
      if va.toNat % 4 ≠ 0 then .trap (formatFault 4 2 n.toNat) s 0
      else
        match readRanges [(va, 1024)] s with
        | .error t => .trap t s 0
        | .ok (bs, s) =>
            let book := (wordsOf 4 (bs.flatMap id) 256).zipIdx.foldl
              (fun (t : List (Nat × Elem)) p => tset 0 t p.2 (BitVec.ofNat 32 p.1)) []
            .done (s.modTile n.toNat fun t => { t with wfmt := wf, weights := [], codebook := book })
    else .done (s.modTile n.toNat fun t => { t with wfmt := wf, weights := [] })

/-- Elements of a row of nibbles, bytes or 16-bit words (R149, R152). -/
def rowElems (f : Fmt) (bs : List Byte) (n : Nat) : List Nat :=
  if f = .e2m1 then
    (List.range n).map fun j => ((bs.getD (j / 2) 0).toNat / (if j % 2 = 0 then 1 else 16)) % 16
  else wordsOf (fmtBytes f) bs n

/-- Bytes of a row of n elements. -/
def rowBytes (f : Fmt) (n : Nat) : Nat := if f = .e2m1 then (n + 1) / 2 else n * fmtBytes f

/-- The 16-bit formats whose addresses and pitches must be even (R149, R152). -/
def is16 (f : Fmt) : Bool := f == .bf16 || f == .f16

/-- The depth an instruction uses: the lesser of tk and the slot's limit (R138). -/
def depthOf (v : Env) (t : Tile) : Nat := min v.tk.toNat (kmax t.wfmt)

/-- kofs is out of place for the slot's weights (R149, R152, code 3). -/
def badKofs (t : Tile) (kofs tk : Nat) : Bool :=
  kmax t.wfmt < kofs + tk || (t.wfmt == .vq2 && kofs % 8 != 0)

/-- wload (R149). -/
def runWload (n : BitVec 2) (a : BitVec 6) (b : Operand) (kofs : BitVec 12) (v : Env) : State → VRes :=
  withSlot n.toNat v fun t s =>
    let addr := v.rs a.toNat
    let pitch := v.operand b
    let tk := depthOf v t
    let tn := min v.tn.toNat 64
    if badKofs t kofs.toNat tk then .trap (formatFault 3 1 n.toNat) s 0
    else if is16 t.wfmt && (addr.getLsbD 0 || pitch.getLsbD 0) then .trap (formatFault 4 1 n.toNat) s 0
    else if tk = 0 || tn = 0 then .done s
    else
      let rows := if t.wfmt = .vq2 then (tk + 7) / 8 else tk
      let first := if t.wfmt = .vq2 then kofs.toNat / 8 else kofs.toNat
      match readRanges ((List.range rows).map fun k => (addr + BitVec.ofNat 64 k * pitch, rowBytes t.wfmt tn)) s with
      | .error e => .trap e s 0
      | .ok (bss, s) =>
          .done (s.modTile n.toNat fun t => { t with
            weights := bss.zipIdx.foldl (fun w p =>
              (rowElems t.wfmt p.1 tn).zipIdx.foldl (fun w q =>
                tset 0 w (64 * (first + p.2) + q.2) (BitVec.ofNat 16 q.1)) w) t.weights })

/-- mzero (R151, R435). -/
def runMzero (n : BitVec 2) (v : Env) : State → VRes :=
  withSlot n.toNat v fun _ s => .done (s.modTile n.toNat fun t => { t with acc := [], poison := [] })

/-- Elements that mova and macc.ld transfer: (e, accumulator key) (R154, R155). -/
def accElems (v : Env) (row0 : Nat) : List (Nat × Nat) :=
  ((List.range v.n).map fun e => (e, 64 * (row0 + e / 64) + e % 64)).filter fun p => p.2 < 4096

/-- macc.ld (R155). -/
def runMaccLd (n : BitVec 2) (r : BitVec 5) (row0 : BitVec 6) (v : Env) (s : State) : VRes :=
  if s.hart.vstart ≠ 0 then .trap (vectorStart s.hart) s 0
  else
    withSlot n.toNat v (fun _ s =>
      let es := accElems v row0.toNat
      .done (s.modTile n.toNat fun t => { t with
        acc := es.foldl (fun a p => tset 0 a p.2 (s.hart.rv r.toNat p.1)) t.acc
        poison := t.poison.filter fun k => !es.any fun p => p.2 = k })) s

/-- mova (R154, R435). DESIGN CHOICE (log 100): of several poisoned elements tval names the first in element order (R158). -/
def runMova (f : Fmt) (sat : Bool) (d : BitVec 5) (n : BitVec 2) (rm : BitVec 3) (row0 : BitVec 6)
    (v : Env) (s : State) : VRes :=
  if s.hart.vstart ≠ 0 then .trap (vectorStart s.hart) s 0
  else
    withSlot n.toNat v (fun t s =>
      let es := accElems v row0.toNat
      match es.find? fun p => t.poison.contains p.2 with
      | some p => .trap ⟨.dataError, BitVec.ofNat 64 (65536 * n.toNat + p.2)⟩ s 0
      | none =>
          let mode := modeOf rm s.hart.rm none
          let r := es.foldl (fun (acc : List (Nat × Elem) × Flags) p =>
            let x := (tget 0 t.acc p.2).toNat
            let (b, g) := if f = .f32 then (x, 0) else cvt f .f32 sat mode x
            (tset 0 acc.1 p.1 (extElem f b), acc.2 ||| g)) (tget [] s.hart.v d.toNat, 0)
          .done (s.onH fun h => { h with v := tset [] h.v d.toNat r.1 }.flag r.2)) s

/-! ## mma (R68, R69, R152) -/

/-- The eight weights of a VQ2 index (R49), exact. -/
def vqDecode (idx entry : Nat) : List Fp :=
  let s7 := (popcNat 7 (idx / 2)) % 2
  (List.range 8).map fun j =>
    let m := entry / 2 ^ (3 * j) % 8
    let sgn := if j < 7 then idx / 2 ^ (1 + j) % 2 else s7
    .fin (sgn == 1) (2 * m + idx % 2) (-1) false

/-- An operand element as an exact value. -/
def elemValue (f : Fmt) (b : Nat) : Fp := if f = .i8 then fpInt (signedOf 8 b) else fpOf f b

/-- Weight rows kofs to kofs + tk - 1 of a slot, each of 64 columns, exact (R152). -/
def weightRows (t : Tile) (kofs tk : Nat) : List (List Fp) :=
  if t.wfmt = .vq2 then
    let groups := (List.range ((tk + 7) / 8)).map fun g =>
      (tdense 0 t.weights (64 * (kofs / 8 + g)) 64).map fun i =>
        vqDecode i.toNat (tget 0 t.codebook (i.toNat / 256)).toNat
    ((groups.flatMap fun cols => (List.range 8).map fun k => cols.map fun w => w.getD k (fpInt 0)).take tk)
  else
    (List.range tk).map fun k => (tdense 0 t.weights (64 * (kofs + k)) 64).map fun b => elemValue t.wfmt b.toNat

/-- Sum of products of one K-block, exact, with its flags (R68). A zero sum is +0 (log 27). -/
def blockSum : List (Fp × Fp) → Fp × Flags
  | [] => (.fin false 0 0 false, 0)
  | (a, b) :: t =>
      let (r, g) := blockSum t
      match fpMul a b, r with
      | (.nan _, _), _ => (.nan false, fNV)
      | _, .nan _ => (.nan false, g)
      | (p, _), r => let (x, g') := fpAdd false p r; (x, g ||| g')

/-- Add one scaled K-block to an accumulator element (R68). -/
def addBlock (acc : Nat) (S : Fp × Flags) (ea eb : Nat) : Nat × Flags :=
  let nan := ea = 255 || eb = 255
  let S' : Fp × Flags := if nan then (.nan false, fNV ||| S.2) else S
  let x : Int := (ea : Int) - 127 + ((eb : Int) - 127)
  let (r, g) := fpAdd false (fpOf .f32 acc) (fpScale S'.1 x)
  let (b, g') := roundTo .f32 .rne false r
  (b, S'.2 ||| g ||| g')

/-- One accumulator element over every K-block: row of A, column of B and their scales by block. -/
def mmaElem : Nat → List Fp → List Fp → List Nat → List Nat → Nat → Nat × Flags
  | 0, _, _, _, _, acc => (acc, 0)
  | nb + 1, ra, cb, sa, sb, acc =>
      let (x, g) := addBlock acc (blockSum ((ra.take 32).zip (cb.take 32))) (sa.headD 127) (sb.headD 127)
      let (r, g') := mmaElem nb (ra.drop 32) (cb.drop 32) sa.tail sb.tail x
      (r, g ||| g')

/-- A format whose operand needs bound scales (R69). -/
def needsScales (f : Fmt) : Bool := f == .e4m3 || f == .e5m2 || f == .e2m1 || f == .vq2

/-- An operand has too few bound scales (R69). -/
def fewScales (f : Fmt) (b : Binding) (nb : Nat) : Bool :=
  (needsScales f || b.count ≠ 0) && decide (b.count.toNat < nb)

/-- The ranges of the scale bytes of an operand (R150). -/
def scaleRanges (b : Binding) (rows nb : Nat) : List (Word × Nat) :=
  if b.count = 0 then [] else (List.range rows).map fun i => (b.base + BitVec.ofNat 64 i * b.pitch, nb)

/-- The trap of R152 and R159, if a Format Fault applies. -/
def mmaFault (f : Fmt) (t : Tile) (n kofs tk nb : Nat) (addr pitch : Word) (v : Env) : Option Trap :=
  if !mmaPair f t.wfmt then some (formatFault 2 3 n)
  else if badKofs t kofs tk then some (formatFault 3 1 n)
  else if is16 f && (addr.getLsbD 0 || pitch.getLsbD 0) then some (formatFault 4 0 n)
  else if fewScales f v.bindA nb then some (formatFault 1 0 n)
  else if fewScales t.wfmt v.bindB nb then some (formatFault 1 1 n)
  else none

/-- mma (R152). -/
def runMma (f : Fmt) (n : BitVec 2) (a : BitVec 6) (b : Operand) (kofs : BitVec 12) (v : Env) : State → VRes :=
  withSlot n.toNat v fun t s =>
    let addr := v.rs a.toNat
    let pitch := v.operand b
    let tk := depthOf v t
    let tm := min v.tm.toNat 64
    let tn := min v.tn.toNat 64
    let nb := (tk + 31) / 32
    match mmaFault f t n.toNat kofs.toNat tk nb addr pitch v with
    | some e => .trap e s 0
    | none =>
        if tk = 0 || tm = 0 || tn = 0 then .done s
        else
          let ra := (List.range tm).map fun i => (addr + BitVec.ofNat 64 i * pitch, rowBytes f tk)
          match readRanges (ra ++ scaleRanges v.bindA tm nb ++ scaleRanges v.bindB tn nb) s with
          | .error e => .trap e s 0
          | .ok (bss, s) =>
              let rows := (bss.take tm).map fun bs => (rowElems f bs tk).map (elemValue f)
              let rest := bss.drop tm
              let sa := if v.bindA.count = 0 then [] else rest.take tm
              let sb := if v.bindA.count = 0 then rest else rest.drop tm
              let nats := fun (l : List Byte) => l.map BitVec.toNat
              let weights := weightRows t kofs.toNat tk
              let cols := (List.range tn).map fun j => weights.map fun r => r.getD j (fpInt 0)
              let r := rows.zipIdx.foldl (fun (acc : List (Nat × Elem) × Flags) p =>
                cols.zipIdx.foldl (fun (acc : List (Nat × Elem) × Flags) q =>
                  let k := 64 * p.2 + q.2
                  let (x, g) := mmaElem nb p.1 q.1 (nats (sa.getD p.2 [])) (nats (sb.getD q.2 []))
                    (tget 0 acc.1 k).toNat
                  (tset 0 acc.1 k (BitVec.ofNat 32 x), acc.2 ||| g)) acc) (t.acc, 0)
              .done ((s.modTile n.toNat fun t => { t with acc := r.1 }).onH (Hart.flag r.2))

/-! ## Waiting and status (R156 to R158) -/

/-- mwait, when every earlier instruction of its stream has completed (R156, R158). -/
def runMwait (acc : Option (BitVec 2)) (v : Env) (s : State) : VRes :=
  match acc with
  | some n => withSlot n.toNat v (fun _ s => .done s) s
  | none => .done s

/-- mwait issues (R142, R156). -/
def execMwait (c : Ctl) (acc : Option (BitVec 2)) (s : State) : Out := issueV (.mwait c acc) c (runMwait acc) s

/-- mstat writes the status of its slot at issue (R157). -/
def runMstat (d : Operand) (v : Env) (s : State) : VRes := finishS s d v.stat s.hart

/-- mstat issues (R142). -/
def execMstat (c : Ctl) (d : Operand) (n : BitVec 2) (s : State) : Out := issueV (.mstat c d n) c (runMstat d) s

/-! ## Issue -/

/-- wfmt issues (R142). -/
def execWfmt (c : Ctl) (wf : Fmt) (n : BitVec 2) (a : Operand) (s : State) : Out :=
  issueV (.wfmt c wf n a) c (runWfmt wf n a) s
/-- wload issues (R142). -/
def execWload (c : Ctl) (n : BitVec 2) (a : BitVec 6) (b : Operand) (kofs : BitVec 12) (s : State) : Out :=
  issueV (.wload c n a b kofs) c (runWload n a b kofs) s
/-- mzero issues (R142). -/
def execMzero (c : Ctl) (n : BitVec 2) (s : State) : Out := issueV (.mzero c n) c (runMzero n) s
/-- macc.ld issues (R142). -/
def execMaccLd (c : Ctl) (n : BitVec 2) (r : BitVec 5) (row0 : BitVec 6) (s : State) : Out :=
  issueV (.maccLd c n r row0) c (runMaccLd n r row0) s
/-- mova issues (R142). -/
def execMova (c : Ctl) (f : Fmt) (sat : Bool) (d : BitVec 5) (n : BitVec 2) (rm : BitVec 3) (row0 : BitVec 6)
    (s : State) : Out := issueV (.mova c f sat d n rm row0) c (runMova f sat d n rm row0) s
/-- mma issues (R142). -/
def execMma (c : Ctl) (f : Fmt) (n : BitVec 2) (a : BitVec 6) (b : Operand) (kofs : BitVec 12) (s : State) : Out :=
  issueV (.mma c f n a b kofs) c (runMma f n a b kofs) s

end Sys2Proof.Machine
end

