-- ==== Sys2Proof/Machine/Lanes.lean ====
section
/-! DEFINITION. Lanes and streams: setvl (R164 to R167), control-mode vfetch and vpret (R174 to R178), and
strip claims (R179, R180). -/

namespace Sys2Proof.Machine

/-! ## Renegotiation (R164) -/

/-- A hart in a negotiation: number, demand, weight and target. -/
structure Claim where
  h : Nat
  dem : Nat
  w : Nat
  t : Nat
deriving DecidableEq, Repr

/-- Every claim with a demand gets one group, in increasing hart number, while groups are left. -/
def firstGroups : Nat → List Claim → List Claim × Nat
  | left, [] => ([], left)
  | left, c :: cs =>
      if left = 0 then
        let (r, l) := firstGroups 0 cs
        (c :: r, l)
      else
        let (r, l) := firstGroups (left - 1) cs
        ({ c with t := 1 } :: r, l)

/-- The unmet claim with the greatest weight, ties to the lowest hart. -/
def heaviest : List Claim → Option Claim
  | [] => none
  | c :: cs =>
      match heaviest cs with
      | none => if c.t < c.dem then some c else none
      | some b => if c.t < c.dem && decide (b.w ≤ c.w) then some c else some b

/-- Further rounds while groups and unmet demands are left; each round gives at least one group. -/
def rounds : Nat → Nat → List Claim → List Claim
  | 0, _, cs => cs
  | fuel + 1, left, cs =>
      let u := cs.filter fun c => c.t < c.dem
      if left = 0 || u.isEmpty then cs
      else
        let W := (u.map (·.w)).sum
        let gain := fun (c : Claim) => if c.t < c.dem then min (left * c.w / W) (c.dem - c.t) else 0
        let give := (cs.map gain).sum
        if give = 0 then
          match heaviest cs with
          | some b => rounds fuel (left - 1) (cs.map fun c => if c.h = b.h then { c with t := c.t + 1 } else c)
          | none => cs
        else rounds fuel (left - give) (cs.map fun c => { c with t := c.t + gain c })

/-- The targets of every claim (R164). -/
def targets (gpart : Nat) (cs : List Claim) : List Claim :=
  let (cs, left) := firstGroups gpart cs
  rounds 16 left cs

namespace State

/-- The claims of the focused hart's partition on its core, with dem as the focused hart's demand (R164). -/
def claims (dem : Nat) (s : State) : List Claim :=
  ((List.range Config.hartsPerCore).map fun i =>
      let n := Config.hartsPerCore * s.coreNo + i
      (i, if n = s.cur then { s.hart with demand := dem } else s.hartAt n)).filterMap fun p =>
    if p.2.run ≠ .empty && p.2.pid = s.hart.pid && p.2.demand ≠ 0
    then some ⟨p.1, p.2.demand, max p.2.lwt.toNat 1, 0⟩ else none

/-- The focused hart comes to hold g groups: it releases its highest, or takes the lowest that are free. -/
def regroup (g : Nat) (s : State) : State :=
  let held := (s.coreAt s.coreNo).heldBy s.hartNo
  let free := (s.coreAt s.coreNo).freeOf s.hart.pid
  s.modCore s.coreNo fun c =>
    let lat := (held.drop g).foldl (fun l i => tset 0 l i 0) c.lat
    { c with lat := (free.take (g - held.length)).foldl (fun l i => tset 0 l i (s.hartNo + 1)) lat }

/-- Migrate: positions at or above vl read zero in every vector, mask and vector queue entry (R166). -/
def migrate (vl : Nat) (s : State) : State :=
  s.onH fun h => { h with
    vl := BitVec.ofNat 11 vl
    v := (List.range 32).foldl (fun t r => tset [] t r (tbelow vl (tget [] h.v r))) []
    m := (List.range 8).foldl (fun t k => tset [] t k (tbelow vl (tget [] h.m k))) []
    qv := h.qv.map fun (p : Nat × List (List (Nat × Elem))) => (p.1, p.2.map (tbelow vl)) }

end State

/-- The grant of a request: demand, groups and vector length (R165). -/
def grant (f : Fmt) (req : Nat) (s : State) : Nat × Nat × Nat :=
  let core := s.coreAt s.coreNo
  let gpart := core.gpart s.hart.pid
  let pos := (req + f.pack - 1) / f.pack
  let dem := min ((pos + 63) / 64) gpart
  let t := match (targets gpart (s.claims dem)).find? fun c => c.h = s.hartNo with
    | some c => c.t
    | none => 0
  let g := min dem (min t (s.groups + (core.freeOf s.hart.pid).length))
  (dem, g, min pos (64 * g))

/-- An instruction of the queue that reads or writes lane state, or a vector queue (R167). -/
def laneWork : Instr → Bool
  | .wfmt .. | .wload .. | .mzero .. | .mma .. | .mwait .. | .mstat .. => false
  | _ => true

/-- setvl (R165 to R167). -/
def execSetvl (c : Ctl) (f : Fmt) (d b : Operand) (s : State) : Out :=
  guarded c s fun s =>
    let i := Instr.setvl c f d b
    if s.hart.episode.isSome || s.hart.vcq.any fun e => laneWork e.instr then s.await i
    else if s.hart.streams.any fun p => p.2.isSome then s.takeTrap ⟨.stream, 3⟩
    else
      withSources i .none b (fun _ req s' =>
        let (dem, g, vl) := grant f req.toNat s
        deliver i s d (BitVec.ofNat 64 (min req.toNat (f.pack * vl)))
          (((s'.onH fun h => { h with demand := dem }).regroup g).migrate vl)) s

/-! ## Vector-fetched blocks (R174, R175, R178) -/

/-- Control-mode vfetch starts an episode (R175). -/
def runVfetch (m : Option (BitVec 3)) (disp : BitVec 32) (v : Env) (s : State) : VRes :=
  let h := s.hart
  if h.vstart ≠ 0 then .trap (vectorStart h) s 0
  else
    let es := (List.range v.n).filter fun e => match m with | some k => mbit h k.toNat 1 e | none => true
    if es.isEmpty then .done s
    else .done (s.onH fun h => { h with
      episode := some ⟨v, es.map fun e => (e, v.pc + dispAddr disp), [], 0, 0, v.pc⟩ })

/-- vfetch issues (R170). -/
def execVfetch (c : Ctl) (m : Option (BitVec 3)) (disp : BitVec 32) (s : State) : Out :=
  issueV (.vfetch c m disp) c (runVfetch m disp) s

/-- vpret of the control thread (R178). -/
def runVpret (_v : Env) (s : State) : VRes := .trap ⟨.vectorThread, 1⟩ s 0

/-- vpret issues (R170). -/
def execVpret (c : Ctl) (s : State) : Out := issueV (.vpret c) c runVpret s

/-! ## Strip farms (R179, R180) -/

/-- Bytes of an activity bitmap, each read as a load of the scalar agent (R180). DESIGN CHOICE (log 46): of several bytes that
fail a check, the one of the lowest address is reported. -/
def loadBytes : List Word → State → Except Trap (List Byte × State)
  | [], s => .ok ([], s)
  | a :: as, s =>
      match s.load a 1 false false with
      | .error t => .error t
      | .ok (b, s) =>
          match loadBytes as s with
          | .error t => .error t
          | .ok (bs, s) => .ok (b ++ bs, s)

/-- The active offsets of a strip of len elements from start (R179, R180). -/
def activeOf (l : Launch) (start : Word) (len : Nat) (s : State) : Except Trap (List Nat × State) :=
  if !l.bitmap then .ok (List.range len, s)
  else
    let o := (start - l.flo).toNat
    let first := o / 8
    match loadBytes ((List.range ((o + len - 1) / 8 + 1 - first)).map fun k => l.fbmp + BitVec.ofNat 64 (first + k)) s with
    | .error t => .error t
    | .ok (bs, s) =>
        .ok ((List.range len).filter fun i => (bs.getD ((o + i) / 8 - first) 0).getLsbD ((o + i) % 8), s)

/-- Insert a strip into a pool by its start. -/
def poolInsert (start : Word) (act : List Nat) : List (Word × List Nat) → List (Word × List Nat)
  | [] => [(start, act)]
  | p :: ps => if start < p.1 then (start, act) :: p :: ps else p :: poolInsert start act ps

/-- The strips that are taken together: in order of start while their active total is at most n (R180). -/
def poolFit : Nat → List (Word × List Nat) → List (Word × List Nat)
  | _, [] => []
  | n, p :: ps => if p.2.length ≤ n then p :: poolFit (n - p.2.length) ps else []

/-- Deliver a strip: D, the mask at its active positions, and the scatter-back indices (R180). -/
def farmDeliver (d : BitVec 6) (m : BitVec 3) (r : BitVec 5) (n : Nat) (D : Word) (active : List Nat)
    (index : Nat → Nat) (s : State) : State :=
  s.onH fun h =>
    let mask := active.foldl (fun t i => setMbits 1 i true t) []
    let vec := (List.range n).foldl (fun t e => tset 0 t e (BitVec.ofNat 32 (index e))) (tget [] h.v r.toNat)
    { h.ws d.toNat D with m := tset [] h.m m.toNat mask, v := tset [] h.v r.toNat vec }

/-- The loop of farm.next (R180): full tells that the pool held 8 strips when it began. -/
def farmLoop (d : BitVec 6) (m : BitVec 3) (r : BitVec 5) (n dens : Nat) (full : Bool) : Nat → State → VRes
  | 0, s => .done s
  | fuel + 1, s =>
      match s.myLaunch with
      | none => .trap ⟨.vectorThread, 3⟩ s 0
      | some l =>
          let plain := fun (start : Word) (act : List Nat) (s : State) =>
            farmDeliver d m r n (start - l.flo) act (fun e => (start - l.flo).toNat + e) s
          if l.next.toNat < l.fhi.toNat && !full then
            let len := min n (l.fhi.toNat - l.next.toNat)
            match activeOf l l.next len s with
            | .error t => .trap t s 0
            | .ok (act, s) =>
                let s := s.modLaunch l.seq fun l => { l with next := l.next + BitVec.ofNat 64 len }
                if l.compact && decide (act.length * 100 / n < dens) && decide (l.pool.length < 8) then
                  farmLoop d m r n dens false fuel
                    (s.modLaunch l.seq fun x => { x with pool := poolInsert l.next act x.pool })
                else .done (plain l.next act s)
          else
            match l.pool with
            | [] => .done (s.onH (Hart.ws d.toNat (BitVec.allOnes 64)))
            | p :: ps =>
                match poolFit n l.pool with
                | [] => .done (plain p.1 p.2 (s.modLaunch l.seq fun x => { x with pool := ps }))
                | taken =>
                    let s := s.modLaunch l.seq fun x => { x with pool := l.pool.drop taken.length }
                    let es := taken.flatMap fun q => q.2.map fun i => (q.1 - l.flo).toNat + i
                    .done (farmDeliver d m r n (BitVec.ofNat 64 (2 ^ 63 + es.length)) (List.range es.length)
                      (fun e => es.getD e 0) s)

/-- farm.next (R180). DESIGN CHOICE (log 46): Vector Start Fault comes before Vector-Thread Fault code 3, and that before code
4. -/
def runFarmNext (d : BitVec 6) (m : BitVec 3) (r : BitVec 5) (v : Env) (s : State) : VRes :=
  if s.hart.vstart ≠ 0 then .trap (vectorStart s.hart) s 0
  else
    match s.myLaunch with
    | none => .trap ⟨.vectorThread, 3⟩ s 0
    | some l =>
        if !l.farm then .trap ⟨.vectorThread, 3⟩ s 0
        else if v.n = 0 then .trap ⟨.vectorThread, 4⟩ s 0
        else farmLoop d m r v.n (min (s.coreAt s.coreNo).cdens.toNat 100) (decide (8 ≤ l.pool.length)) 10 s

/-- farm.next issues (R170). -/
def execFarmNext (c : Ctl) (d : BitVec 6) (m : BitVec 3) (r : BitVec 5) (s : State) : Out :=
  issueV (.farmNext c d m r) c (runFarmNext d m r) s

end Sys2Proof.Machine
end

