-- ==== Sys2Proof/Machine/Queue.lean ====
section
/-! DEFINITION. The vector command queue: which of its instructions may run (R73, R170 to R173, R223), one
step of it, the episodes of vector-fetched blocks (R176 to R178), and its precise traps (R398). -/

namespace Sys2Proof.Machine

/-- The effect of an instruction of the vector command queue; every other instruction never enters it. -/
def runQueued (i : Instr) : Env → State → VRes :=
  match i with
  | .vadd _ o => runVadd o
  | .vsub _ o => runVsub o
  | .vmul _ o => runVmul o
  | .vmulh _ o => runVmulh o
  | .vmadd _ o => runVmadd o
  | .vmin _ o => runVmin o
  | .vmax _ o => runVmax o
  | .vabsd _ o => runVabsd o
  | .vavg _ o => runVavg o
  | .vand _ o => runVand o
  | .vor _ o => runVor o
  | .vxor _ o => runVxor o
  | .vandn _ o => runVandn o
  | .vshl _ o => runVshl o
  | .vshr _ o => runVshr o
  | .vsra _ o => runVsra o
  | .vcmp _ o => runVcmp o
  | .vsel _ o => runVsel o
  | .vmov _ o => runVmov o
  | .vbcast _ o => runVbcast o
  | .vid _ o => runVid o
  | .vclz _ o => runVclz o
  | .vpopc _ o => runVpopc o
  | .vdot4 _ o => runVdot4 o
  | .vfadd _ o => runVfadd o
  | .vfsub _ o => runVfsub o
  | .vfmul _ o => runVfmul o
  | .vfma _ o => runVfma o
  | .vfmin _ o => runVfmin o
  | .vfmax _ o => runVfmax o
  | .vfcmp _ o => runVfcmp o
  | .vfdiv _ o => runVfdiv o
  | .vfsqrt _ o => runVfsqrt o
  | .vfrcp _ o => runVfrcp o
  | .vfrsq _ o => runVfrsq o
  | .vfexp2 _ o => runVfexp2 o
  | .vflog2 _ o => runVflog2 o
  | .vfscl _ o => runVfscl o
  | .vfrnd _ o => runVfrnd o
  | .vxch _ o => runVxch o
  | .vperm _ o => runVperm o
  | .vslide _ o => runVslide o
  | .vcompress _ o => runVcompress o
  | .vexpand _ o => runVexpand o
  | .vred _ o => runVred o
  | .vredsc _ o => runVredsc o
  | .vdot _ o => runVdot o
  | .vcvt _ o => runVcvt o
  | .vpack _ o => runVpack o
  | .vunpack _ o => runVunpack o
  | .vld _ o => runVld o
  | .vlds _ o => runVlds o
  | .vldx _ o => runVldx o
  | .vst _ o => runVst o
  | .vsts _ o => runVsts o
  | .vstx _ o => runVstx o
  | .mand _ d a b => runMand d a b
  | .mor _ d a b => runMor d a b
  | .mnot _ d a => runMnot d a
  | .mpopc _ d a x => runMpopc d a x
  | .mfirst _ d a x => runMfirst d a x
  | .vldq _ f q a b => runVldq f q a b
  | .vstq _ f q a b => runVstq f q a b
  | .vbind _ f sc st q a => runVbind f sc st q a
  | .vunbind _ q => runVunbind q
  | .stmap _ k o a b => runStmap k o a b
  | .stwb _ a b => runStwb a b
  | .stdrop _ a b => runStdrop a b
  | .wfmt _ f n a => runWfmt f n a
  | .wload _ n a b k => runWload n a b k
  | .mzero _ n => runMzero n
  | .maccLd _ n r k => runMaccLd n r k
  | .mova _ f sat d n rm k => runMova f sat d n rm k
  | .mma _ f n a b k => runMma f n a b k
  | .vamo _ op _ f d a b msk mn scaled si => runVamo op f d a b msk mn scaled si
  | .vfetch _ m disp => runVfetch m disp
  | .mwait _ n => runMwait n
  | .mstat _ d _ => runMstat d
  | .vpret _ => runVpret
  | .farmNext _ d m r => runFarmNext d m r
  | _ => fun _ s => .done s

/-- Run an instruction of the queue with vfmt.RM and the level as at its issue, without the flags that a later putsr has
overwritten, and without the registers that a later pass of a zloop has set (R64, R73, R142, R143, R285). -/
def runEntry (i : Instr) (v : Env) (s : State) : VRes :=
  let back := State.onH fun x => { x with
    rm := s.hart.rm
    level := s.hart.level
    fflags := if v.quiet then s.hart.fflags else x.fflags
    s := v.dead.foldl (fun l n => tset 0 l n (s.hart.rs n)) x.s }
  match runQueued i v (s.onH fun x => { x with rm := v.rm, level := v.level }) with
  | .done t => .done (back t)
  | .wait => .wait
  | .trap t s' e => if t.cause = .held then .wait else .trap t (back s') e

/-! ## Streams and dependencies (R73, R170 to R173) -/

/-- A register that one stream can write and another can use. -/
inductive Res where
  | s (n : Nat) | p (n : Nat) | q (n : Nat) | v (n : Nat) | m (n : Nat) | acc (n : Nat)
deriving DecidableEq, Repr

/-- The register that an operand names. -/
def opRes : Operand → List Res
  | .s n _ => [.s n.toNat]
  | .v n _ => [.v n.toNat]
  | .q n => [.q n.toNat]
  | .pm n => if n.toNat < 8 then [.p n.toNat] else [.m (n.toNat - 8)]
  | .acc n => [.acc n.toNat]
  | _ => []

/-- Registers of the lanes, queues and slots that an instruction of the queue reads; its scalar sources are
those of its issue (R73). -/
def readsOf (i : Instr) : List Res :=
  match i, vopsOf i with
  | _, some o => opRes o.a ++ opRes o.b ++ [.m o.x.mn.toNat]
  | .vld _ o, _ | .vlds _ o, _ | .vldx _ o, _ => opRes o.b ++ if o.msk then [.m o.mn.toNat] else []
  | .vst _ o, _ | .vsts _ o, _ | .vstx _ o, _ =>
      .v o.d.toNat :: opRes o.b ++ if o.msk then [.m o.mn.toNat] else []
  | .mand _ _ a b, _ | .mor _ _ a b, _ => [.m a.toNat, .m b.toNat]
  | .mnot _ _ a, _ => [.m a.toNat]
  | .mpopc _ _ a x, _ | .mfirst _ _ a x, _ => [.m a.toNat, .m x.mn.toNat]
  | .vstq _ _ q .., _ | .vbind _ _ _ _ q _, _ | .vunbind _ q, _ => [.q (q.toNat + 8)]
  | .mova _ _ _ _ n .., _ => [.acc n.toNat]
  | .maccLd _ _ r _, _ => [.v r.toNat]
  | .vamo _ _ _ _ d _ b _ mn .., _ => [.v d.toNat, .v b.toNat, .m mn.toNat]
  | _, _ => []

/-- Registers that an instruction of the queue writes; a scalar destination is one of them. -/
def writesOf (i : Instr) : List Res :=
  match i, vopsOf i with
  | _, some o => opRes o.d
  | .vld _ o, _ | .vlds _ o, _ | .vldx _ o, _ => [.v o.d.toNat]
  | .mand _ d .., _ | .mor _ d .., _ | .mnot _ d .., _ => [.m d.toNat]
  | .mpopc _ d .., _ | .mfirst _ d .., _ | .mstat _ d _, _ => opRes d
  | .vldq _ _ q .., _ | .vbind _ _ _ _ q _, _ | .vunbind _ q, _ => [.q (q.toNat + 8)]
  | .wfmt _ _ n _, _ | .wload _ n .., _ | .mzero _ n, _ | .maccLd _ n .., _ | .mma _ _ n .., _ => [.acc n.toNat]
  | .mova _ _ _ d .., _ => [.v d.toNat]
  | .farmNext _ d m r, _ => [.s d.toNat, .m m.toNat, .v r.toNat]
  | _, _ => []

/-- A register that the scalar stream and the queue share. -/
def sharedRes : Res → Bool
  | .s n => n != 0
  | .p n => n != 0
  | _ => false

/-- Some shared register is in both lists. -/
def meet (x y : List Res) : Bool := x.any fun r => sharedRes r && y.contains r

/-- The predicate that guards an instruction; 0 for none. -/
def guardOf (i : Instr) : Nat := match i.ctl? with | some c => c.p.toNat | none => 0

/-- That predicate as a list. -/
def guardRes (i : Instr) : List Res := [.p (guardOf i)]

/-- mwait, behind which no instruction of its hart issues (R156). -/
def isMwait : Instr → Bool
  | .mwait .. => true
  | _ => false

/-- Queued work lets an instruction's guard not be read yet: a mwait, or a writer of the predicate (R18, R73, R156). -/
def behindQueue (i : Instr) (h : Hart) : Bool :=
  h.vcq.any fun e => isMwait e.instr || meet (writesOf e.instr) (guardRes i)

/-- Some queue register is in both lists. -/
def meetQueue (x y : List Res) : Bool :=
  x.any fun r => (match r with | .q _ => true | _ => false) && y.contains r

/-- Registers that a queued instruction has still to write: a later pass of a zloop has set the others (R285). -/
def writesLeft (e : VEntry) : List Res :=
  if e.env.dead.isEmpty then writesOf e.instr
  else (writesOf e.instr).filter fun r => match r with | .s n => !e.env.dead.contains n | _ => true

/-- An instruction that accesses memory for the vector agent, or orders its accesses (R216, R224); a vunbind completes the
writes of a store stream (R209, R210). -/
def usesMem : Instr → Bool
  | .vld .. | .vlds .. | .vldx .. | .vst .. | .vsts .. | .vstx .. | .vldq .. | .vstq .. | .vbind .. | .vunbind ..
  | .wfmt .. | .wload .. | .mma .. | .vamo .. | .stmap .. | .stwb .. | .stdrop .. | .vfetch .. => true
  | _ => false

/-- An instruction whose accesses no other access of the queue may pass (R212, R221, R224, log 1). -/
def ordersMem : Instr → Bool
  | .vst .. | .vsts .. | .vstx .. | .vstq .. | .vunbind .. | .vamo .. | .stmap .. | .stwb .. | .stdrop ..
  | .vfetch .. => true
  | _ => false

/-- farm.next, whose reads of the activity bitmap are accesses of the scalar agent (R180). -/
def isFarm : Instr → Bool
  | .farmNext .. => true
  | _ => false

/-- A queue register is no ordinary dependency: its appends and its removals are each in order (R172). -/
def Res.isQueue : Res → Bool
  | .q _ => true
  | _ => false

/-! ### Memory that an instruction accesses -/

/-- The physical ranges that the focused hart's accesses at some addresses reach, at a level: what has no translation is not
accessed. -/
def State.reach (l : Level) (rs : List (Word × Nat)) (s : State) : List (Nat × Nat) :=
  let g := s.agentAt l
  rs.flatMap fun r => (blocks (r.2 / 4096 + 2) r.1 r.2).flatMap fun p =>
    match s.window g p.1 with
    | none => []
    | some (m, core) =>
        match s.lookup g.cache g.pid m with
        | (.leaf e, _) => s.spans ⟨p.1, m, core, e.pa + (m.toNat % 2 ^ 57 - e.va), p.2, e.attr⟩
        | _ => []

/-- Two lists of ranges share a byte. -/
def sharesByte (x y : List (Nat × Nat)) : Bool :=
  x.any fun a => y.any fun b => decide (a.1 < b.1 + b.2) && decide (b.1 < a.1 + a.2)

/-- Addresses of a vector load or store, of every element: none where its indices are still to be written. -/
def vmemRanges (o : VMOps) (v : Env) (h : Hart) (early : List Res) (i : Instr) : Option (List (Word × Nat)) :=
  let each := fun (ea : Nat → Word) => some ((List.range v.n).map fun e => (ea e, fmtBytes o.fmt))
  match i, o.b with
  | .vld .., _ | .vst .., _ => some [(eaUnit o v 0, v.n * fmtBytes o.fmt)]
  | .vlds .., _ | .vsts .., _ => each (eaStride o v)
  | _, .v k _ => if early.contains (.v k.toNat) then none else each (eaIndex o v h)
  | _, _ => none

/-- The ranges that an instruction of the queue may access, where they are known before it runs: early are the registers and
slots that instructions before it have still to write. -/
def accessRanges (early : List Res) (e : VEntry) (s : State) : Option (List (Word × Nat)) :=
  let v := e.env
  match e.instr with
  | .vld _ o | .vlds _ o | .vldx _ o | .vst _ o | .vsts _ o | .vstx _ o => vmemRanges o v s.hart early e.instr
  | .vldq _ f _ a b | .vstq _ f _ a b => some [(v.src a + v.operand b, v.n * fmtBytes f)]
  | .vbind _ _ _ _ _ a => some [(v.src a, 64)]
  | .wfmt _ wf _ a => some (if wf = .vq2 then [(v.operand a, 1024)] else [])
  | .wload _ n a b _ =>
      let f := if early.contains (.acc n.toNat) then .bf16 else (s.tileAt n.toNat).wfmt
      some ((List.range v.tk.toNat).map fun k => (v.rs a.toNat + BitVec.ofNat 64 k * v.operand b, rowBytes f v.tn.toNat))
  | .mma _ f _ a b _ =>
      let tm := v.tm.toNat
      let nb := (v.tk.toNat + 31) / 32
      some (((List.range tm).map fun k => (v.rs a.toNat + BitVec.ofNat 64 k * v.operand b, rowBytes f v.tk.toNat))
        ++ scaleRanges v.bindA tm nb ++ scaleRanges v.bindB v.tn.toNat nb)
  | _ => none

/-- Two instructions of the queue may access a common byte. -/
def sameBytes (early : List Res) (o e : VEntry) (s : State) : Bool :=
  match accessRanges early o s, accessRanges early e s with
  | some x, some y => sharesByte (s.reach o.env.level x) (s.reach e.env.level y)
  | _, _ => true

/-- Accesses of a later instruction of the queue wait for those of an earlier one: where a fence, an acquiring vamo or stash
control orders them, where the later one stores, and where they share a byte (R212, R219 to R225, R231). DESIGN CHOICE
(log 101): stash control does not wait for the entries of a store stream that are still to be written. -/
def memConflict (early : List Res) (s : State) (o e : VEntry) : Bool :=
  if isFarm o.instr then usesMem e.instr && (fences e.instr || decide (o.env.seq < e.env.sf))
  else if isFarm e.instr then usesMem o.instr && (fences o.instr || decide (o.env.seq < e.env.ff))
  else usesMem o.instr && usesMem e.instr
    && (fences o.instr || ordersMem e.instr || decide (o.env.seq < e.env.vf) || sameBytes early o e s)

/-- vbind or vunbind. -/
def isBind : Instr → Bool
  | .vbind .. | .vunbind .. => true
  | _ => false

/-- A later instruction of the queue waits for an earlier one of the other stream. An episode begins beside earlier accesses:
it is the instructions of its blocks that wait for them (R172). -/
def conflict (early : List Res) (s : State) (o e : VEntry) : Bool :=
  let ro := readsOf o.instr; let wo := writesOf o.instr
  let re := readsOf e.instr; let we := writesOf e.instr
  let dep := fun (x y : List Res) => x.any fun r => !r.isQueue && y.contains r
  let same := fun (x y : List Res) => x.any fun r => r.isQueue && y.contains r
  let episode := fun (i : Instr) => match i with | .vfetch .. | .vpret .. => true | _ => false
  episode o.instr || dep wo re || dep wo we || dep ro we || same wo we || same ro re
    || ((isBind o.instr || isBind e.instr) && (same wo re || same ro we))
    || (!episode e.instr && memConflict early s o e)

/-- Entries that queue register n holds. -/
def Hart.qlen (h : Hart) (n : Nat) : Nat := if n < 8 then (h.sq n).length else (h.vq (n - 8)).length

/-- Entries that queue register n can hold (R171). -/
def queueDepth (n : Nat) : Nat := if n < 8 then Config.scalarQueueDepth else Config.vectorQueueDepth

/-- The queues of a list of registers, one for each time it is named. -/
def queueRegs (l : List Res) : List Nat := l.filterMap fun r => match r with | .q n => some n | _ => none

/-- A queued instruction that a later one passes remembers the entries that the later one has appended and removed
(R173). -/
def passedBy (appended removed : List Nat) (e : VEntry) : VEntry :=
  let count := fun (l : List (Nat × Nat)) (ns : List Nat) => ns.foldl (fun l n => tset 0 l n (tget 0 l n + 1)) l
  if appended.isEmpty && removed.isEmpty then e
  else { e with env := { e.env with late := count e.env.late appended, freed := count e.env.freed removed } }

/-- Queues to which an instruction appends an entry as it completes, and those from which it removes one. -/
def appendsTo (i : Instr) : List Nat := if isBind i then [] else queueRegs (writesOf i)
def removesFrom (i : Instr) : List Nat := if isBind i then [] else queueRegs (readsOf i)

/-- Earlier instructions alone have left the entries and the room that an instruction needs, one for each queue register that
it names: what later ones append or remove never ends its wait (R72, R172, R173). -/
def queueReady (h : Hart) (e : VEntry) : Bool :=
  let removes := removesFrom e.instr
  let appends := appendsTo e.instr
  removes.all (fun n => tget 0 e.env.late n = 0 || decide (tget 0 e.env.late n + removes.count n ≤ h.qlen n))
    && appends.all (fun n => tget 0 e.env.freed n = 0
      || decide (h.qlen n + tget 0 e.env.freed n + appends.count n ≤ queueDepth n))

/-- An instruction of the vector agent that makes write events (R216). -/
def writesMem : Instr → Bool
  | .vst .. | .vsts .. | .vstx .. | .vstq .. | .vamo .. | .vfetch .. => true
  | _ => false

/-- An instruction of the vector agent that stores to memory, or drops what was stored. -/
def storesMem (i : Instr) : Bool := writesMem i || match i with | .stdrop .. => true | _ => false

/-- A removal among the given instructions finds no entry of queue q8 + q before its load stream has fetched one: avail are
the entries left for it, and loads tells that a load stream is bound that has entries to fetch. A binding begins with an empty
queue (R211 code 2). -/
def owesFetch (q : Nat) : Nat → Bool → List VEntry → Bool
  | _, _, [] => false
  | avail, loads, e :: es =>
      let k := (removesFrom e.instr).count (q + 8)
      if loads && decide (avail < k) then true
      else
        match e.instr with
        | .vbind _ _ _ st n _ => if n.toNat = q then owesFetch q 0 (!st) es else owesFetch q avail loads es
        | .vunbind _ n => owesFetch q (if n.toNat = q then 0 else avail) (n.toNat ≠ q && loads) es
        | i => owesFetch q (avail - k + (appendsTo i).count (q + 8)) loads es

/-- Some of the given instructions, in their order, removes an entry that its load stream has not fetched: no store that is
later than they are may be performed (R209). -/
def unfetched (h : Hart) (es : List VEntry) : Bool :=
  (List.range 8).any fun q =>
    owesFetch q (h.vq q).length
      (match h.stream q with | some b => !b.store && decide (b.done < b.count) | none => false) es

/-- An instruction that uses vstart (R106). -/
def usesVstart : Instr → Bool
  | .wfmt .. | .wload .. | .mzero .. | .mma .. | .mwait .. | .mstat .. | .vbind .. | .vunbind .. | .stmap .. | .stwb ..
  | .stdrop .. => false
  | _ => true

/-- vstart, SEED and CTR have the values that an instruction uses (R64, R95). -/
def settledFor (h : Hart) (e : VEntry) : Bool :=
  (!usesVstart e.instr || h.vsets.all fun p => decide (e.env.seq < p.1))
    && (isAccess e.instr || h.srsets.all fun p => decide (e.env.seq < p.1))

/-- An instruction may begin after the earlier ones that are still in the queue: those of its stream have
completed, it depends on none, and vstart is 0 or it is the oldest (R39, R170, R398). -/
def mayBegin (s : State) (earlier : List VEntry) (e : VEntry) : Bool :=
  let h := s.hart
  let early := earlier.flatMap fun o => writesOf o.instr
  e.trap.isNone && (earlier.isEmpty || decide (h.vstart = 0))
    && (earlier.all fun o => isAccess o.instr != isAccess e.instr && !conflict early s o e)
    && settledFor h e && queueReady h e
    && !((match e.instr with | .vfetch .. => false | i => storesMem i) && unfetched h earlier)

/-- An instruction of the queue has completed after others that are still in it: the store stream to which it has appended
remembers it (R209), and so do the earlier instructions (R173). -/
def behind (earlier : List VEntry) (e : VEntry) (pre post : Hart) : Hart :=
  if earlier.isEmpty then post
  else
    let h := { post with vcq := post.vcq.zipIdx.map fun (p : VEntry × Nat) =>
      if p.2 < earlier.length then passedBy (appendsTo e.instr) (removesFrom e.instr) p.1 else p.1 }
    { h with streams := h.streams.map fun (p : Nat × Option Stream) =>
      match p.2, pre.stream p.1 with
      | some b, some a =>
          if b.store && decide (a.used < b.used) then (p.1, some { b with apps := b.apps ++ [(a.used, e.env.seq)] }) else p
      | _, _ => p }

/-- Where an access lies: the physical address of its first part, and whether a part lies on a device page or off the package;
0 where a check fails. -/
def placeOf (g : Agent) (q : Req) (s : State) : Nat × Bool :=
  match s.check g q with
  | .ok a => ((a.chunks.map fun (c : Chunk) => c.pa).headD 0, a.chunks.any fun c => c.attr == 3 || !isDevice c.pa)
  | .error _ => (0, false)

/-- The trace of a training holds where a queued load or store of it has gone, once that access has been performed (R314,
R315). -/
def notePlace (e : VEntry) (pre post : State) : State :=
  if post.hart.mark.state ≠ .training then post
  else
    let kind := if storesMem e.instr then Kind.store else Kind.load
    post.onH fun h => { h with mark := { h.mark with trace := h.mark.trace.map fun (r : TraceRec) =>
      match r.acc with
      | some (va, n) =>
          if r.queued = some e.env.seq then
            let p := placeOf (pre.agentAt e.env.level) ⟨va, n, kind, false, false⟩ pre
            { r with pa := p.1, far := p.2, queued := none }
          else r
      | none => r } }

/-- Run the first instruction of the queue that may begin and does not wait, among those that a test admits. A trap of an
instruction that is not the oldest leaves it not begun (R398 item 4). -/
def runFirst (ok : VEntry → Bool) (earlier : List VEntry) : List VEntry → State → Option (VEntry × State)
  | [], _ => none
  | e :: es, s =>
      let next := runFirst ok (earlier ++ [e]) es s
      if ok e && mayBegin s earlier e then
        match runEntry e.instr e.env (s.onH fun h => { h with vcq := earlier ++ es }) with
        | .done s' => some (e, notePlace e s (s'.onH (behind earlier e s.hart)))
        | .wait => next
        | .trap t s' k =>
            if earlier.isEmpty then some (e, s'.onH fun h => { h with vcq := { e with trap := some (t, k) } :: es })
            else next
      else next

namespace State

/-! ## Episodes (R176 to R178) -/

/-- The participants with the lowest program counter, and that program counter. -/
def lowest : List (Nat × Addr) → Option (Addr × List Nat)
  | [] => none
  | (e, a) :: t =>
      match lowest t with
      | none => some (a, [e])
      | some (b, g) => if a < b then some (a, [e]) else if a = b then some (a, e :: g) else some (b, g)

/-- The group that runs: a block in progress, or the next one. -/
def pickGroup (ep : Episode) : Option Episode :=
  if ep.group ≠ [] then some ep
  else
    match lowest ep.pcs with
    | none => none
    | some (a, g) => some { ep with group := g, at_ := a, left := 16 }

/-- The instructions that a block admits (R177). -/
def admitted (i : Instr) : Bool :=
  match i with
  | .vfetch .. | .vpret .. | .vld .. | .vlds .. | .vldx .. | .vst .. | .vsts .. | .vstx .. => true
  | _ => (vopsOf i).isSome && stoppable i

/-- The group of a block leaves it: each of its participants goes on at f, or is done. -/
def endBlock (ep : Episode) (f : Nat → Option Addr) (s : State) : State :=
  let pcs := ep.pcs.filterMap fun p => if ep.group.contains p.1 then (f p.1).map fun a => (p.1, a) else some p
  s.onH fun h => { h with episode := if pcs.isEmpty then none else some { ep with pcs := pcs, group := [] } }

/-- The block goes on after the instruction at its address. -/
def nextInBlock (ep : Episode) (s : State) : State :=
  if ep.left ≤ 1 then s.endBlock ep fun _ => some (ep.at_ + 12)
  else s.onH fun h => { h with episode := some { ep with at_ := ep.at_ + 12, left := ep.left - 1 } }

/-- A trap that a block's instruction raises: the trap, the instruction, its address, and the element at which it stopped
where it stops at one. -/
structure BlockTrap where
  trap    : Trap
  instr   : Instr
  pc      : Addr
  stopped : Bool
  elem    : Nat
deriving DecidableEq, Repr

/-- An instruction of a block may run beside the accesses that are older than its episode: it belongs to the other stream and
depends on none of them (R170, R172). -/
def besideOlder (ep : Episode) (i : Instr) (s : State) : Bool :=
  let older := s.hart.before ep
  match i with
  | .vfetch .. | .vpret .. => true
  | _ => older.all fun o => isAccess o.instr != isAccess i
      && !conflict (older.flatMap fun o => writesOf o.instr) s o ⟨ep.at_, i, ep.env, none, false⟩

/-- Run one instruction of a block (R176); none where it waits. The trap of a block's instruction suspends the episode there;
pad raises Illegal Instruction, whatever its guard (R34). -/
def runBlock (ep : Episode) (i : Instr) (c : Ctl) (s : State) : Option (State × Option BlockTrap) :=
  let here := fun (s : State) => s.onH fun h => { h with episode := some ep }
  if isPad i then some (here s, some ⟨State.illegalTrap (encode i), i, ep.at_, false, 0⟩)
  else if !({ s.hart with p := ep.env.p }.guard c) then some (s.nextInBlock ep, none)
  else if !admitted i then some (here s, some ⟨⟨.vectorThread, 2⟩, i, ep.at_, false, 0⟩)
  else if !besideOlder ep i s then none
  else
    match i with
    | .vpret _ => some (s.endBlock ep fun _ => none, none)
    | .vfetch _ m disp => some (s.endBlock ep fun e =>
        some (match m with
          | some k => if mbit s.hart k.toNat 1 e then ep.at_ + dispAddr disp else ep.at_ + 12
          | none => ep.at_ + dispAddr disp), none)
    | _ =>
        match runEntry i { ep.env with pc := ep.at_, grp := some ep.group } s with
        | .done s' => some (s'.nextInBlock ep, none)
        | .wait => none
        | .trap t s' k => some (here s', some ⟨t, i, ep.at_, true, k⟩)

/-- Fetch, decode and run an instruction of a block; none where it waits, as one whose trap is not the oldest does (R398). -/
def episodeRun (ep : Episode) (s : State) : Option (State × Option BlockTrap) :=
  let oldest := fun (r : State × Option BlockTrap) => r.2.isNone || (s.hart.before ep).isEmpty
  Option.filter oldest <|
  match pickGroup ep with
  | none => some (s.onH fun h => { h with episode := none }, none)
  | some ep =>
      let here := fun (s : State) => s.onH fun h => { h with episode := some ep }
      let nop : Instr := .nop ⟨false, 0, 0, false⟩
      match (s.atLevel ep.env.level).fetch ep.at_ with
      | .error t => if t.cause = .held then none else some (here s, some ⟨t, nop, ep.at_, false, 0⟩)
      | .ok (bs, u) =>
          let s := u.atLevel s.hart.level
          let w : IWord := BitVec.ofNat 96 (leNat bs)
          match decode w with
          | .error _ => some (here s, some ⟨State.illegalTrap w, nop, ep.at_, false, 0⟩)
          | .ok i => s.runBlock ep i (ctlOf false w)

/-- Run the first instruction that may begin among those that are older than the episode. -/
def olderRun (ep : Episode) (s : State) : Option (VEntry × State) :=
  runFirst (fun e => decide (e.env.seq < ep.env.seq)) [] s.hart.vcq s

/-- One step of the vector streams with an episode: of an older access, or else of the episode, the trap of whose instruction is
taken. -/
def episodeStep (ep : Episode) (s : State) : Option State :=
  match s.olderRun ep with
  | some p => some p.2
  | none =>
      (s.episodeRun ep).map fun r => match r with
        | (s, none) => s
        | (s, some b) => (s.takeVectorTrap b.trap b.instr b.pc b.stopped b.elem).onH Hart.clearTraps

/-! ## Steps of the queue -/

/-- The vector streams of the focused hart run: its queue is not frozen and its vector agent is not behind. -/
def vectorRuns (s : State) : Bool := s.hart.run == .running && !s.hart.vqf && !s.hart.hold

/-- One step of the vector streams: none where neither has an instruction that can run. -/
def vectorStep (s : State) : Option State :=
  if !s.vectorRuns then none
  else
    match s.hart.episode with
    | some ep => (s.episodeStep ep).map (State.onH Hart.settle)
    | none => (runFirst (fun _ => true) [] s.hart.vcq s).map fun p => p.2.onH Hart.settle

/-! ## The drain of a save (R407) -/

/-- An instruction whose beginning ends the drain of a save (R407 step 2). -/
def startsSlot : Instr → Bool
  | .mma .. | .wload .. | .wfmt .. => true
  | _ => false

/-- Granules that an instruction of the queue has still to perform; 1 for one that no element stops. -/
def granulesLeft (e : VEntry) (h : Hart) : Nat :=
  if stoppable e.instr then max 1 ((e.env.n + 7) / 8 - granuleOf e.instr h.vstart.toNat) else 1

/-- Perform k granules of the oldest instruction, from vstart, and stop there: its trap, or the state in which it has
stopped. -/
def runGranules (k : Nat) (e : VEntry) (es : List VEntry) (s : State) : VRes :=
  let g := granuleOf e.instr s.hart.vstart.toNat
  let stop := { e with stopped := true }
  match runEntry e.instr { e.env with grp := some ((List.range (8 * k)).map fun i => 8 * g + i) }
      (s.onH fun h => { h with vcq := es }) with
  | .done t => .done (t.onH fun x => { x with
      vcq := stop :: es, vstart := BitVec.ofNat 13 ((g + k) * 8 * granulePack e.instr), ctr := s.hart.ctr })
  | .wait => .wait
  | .trap t s' j => .trap t (s'.onH fun x => { x with vcq := stop :: es, vstart := BitVec.ofNat 13 j }) j

/-- The oldest instruction, where it is in progress when the time of a drain ends: it stops at a granule boundary. -/
def drainStop (left : Nat) (s : State) : State :=
  match s.hart.vcq with
  | [] => s
  | e :: es =>
      if stoppable e.instr && mayBegin s [] e then
        match s.runGranules left e es with
        | .done t => t
        | .wait => s
        | .trap _ t _ => t
      else s

/-- The drain of a save, for as many granules and instructions as it has time for (R407 step 2). An episode is suspended
where it stands, at the element where its instruction stopped. -/
def drain : Nat → Nat → State → State
  | 0, _, s => s
  | fuel + 1, left, s =>
      if left = 0 || !s.vectorRuns then s
      else
        match s.hart.episode with
        | some ep =>
            match runFirst (fun e => decide (e.env.seq < ep.env.seq) && decide (granulesLeft e s.hart ≤ left)) [] s.hart.vcq s,
                s.episodeRun ep with
            | some (e, t), _ => drain fuel (left - granulesLeft e s.hart) (t.onH Hart.settle)
            | none, some (s, none) => drain fuel (left - 1) (s.onH Hart.settle)
            | none, some (s, some b) => if b.stopped then s.onH fun h => { h with vstart := BitVec.ofNat 13 b.elem } else s
            | none, none => if (s.hart.before ep).isEmpty then s else s.drainStop left
        | none =>
            match runFirst (fun e => !startsSlot e.instr && decide (granulesLeft e s.hart ≤ left)) [] s.hart.vcq s with
            | some (e, t) => drain fuel (left - granulesLeft e s.hart) (t.onH Hart.settle)
            | none => s.drainStop left

/-- The drain of a save, and the stop of its oldest instruction where a trap has stopped it at an element. -/
def drainAll (s : State) : State :=
  let s := State.drain s.hart.drainFor s.hart.drainFor s
  match s.hart.vcq with
  | e :: es =>
      match e.trap with
      | some (_, k) =>
          if stoppable e.instr then
            s.onH fun h => { h with vstart := BitVec.ofNat 13 k, vcq := { e with stopped := true } :: es }
          else s
      | none => s
  | [] => s

/-! ## Precise traps (R398) -/

/-- Take the trap of the oldest instruction of the queue, if it has raised one. A hart in debug halt takes none (R416). An
elastic fault saves the context instead, and the other vector stream goes on in the drain of the save (R407, R412). -/
def takePending (s : State) : Option State :=
  match s.hart.vcq with
  | [] => none
  | e :: _ =>
      match e.trap with
      | none => none
      | some (t, k) =>
          if s.hart.vqf || s.hart.run ≠ .running then none
          else
            let s := if s.elasticTrap t && !s.terminal t && !s.areaHeld then s.drainAll else s
            let stop := fun (e : VEntry) => { e with stopped := e.stopped || stoppable e.instr }
            some (((s.onH fun h => { h with vcq := h.vcq.modifyHead stop }).takeVectorTrap t e.instr e.env.pc
              (stoppable e.instr) k).onH Hart.clearTraps)

end State

end Sys2Proof.Machine
end

