-- ==== Sys2Proof/Machine/System.lean ====
section
/-! DEFINITION. System registers: getsr and putsr (R92 to R95) of every index that the manual assigns, and the
effects of their writes on the package (R165, R274, R332, R385, R388, R390, R392, R436, R457, R460, R461). -/

namespace Sys2Proof.Machine

/-! ## Fields -/

/-- The w bits of a register from bit lo. -/
def fld (v : Word) (lo w : Nat) : BitVec w := v.extractLsb' lo w

/-- A field at bit lo of a register whose other bits are zero. -/
def at_ {w : Nat} (lo : Nat) (x : BitVec w) : Word := (x.setWidth 64) <<< lo

/-- A one-bit field at bit lo. -/
def bit (lo : Nat) (b : Bool) : Word := at_ lo (BitVec.ofBool b)

/-- The code of a mark state (R308). -/
def MarkState.code : MarkState → BitVec 3
  | .none => 0 | .training => 1 | .plain => 2 | .replaying => 3 | .resumed => 4

/-! ## Quiet work (R95, R403, R404) -/

/-- Every earlier instruction of the vector streams has completed. -/
def State.quiet (s : State) : Bool := s.hart.idle

/-! ## Counting refusals (R341, R343) -/

/-- Forget the refusals that are older than the window. -/
def Hart.forget (now : Word) (h : Hart) : Hart :=
  let live := h.refusals.filter fun t => (now - t).toNat < Config.refusalWindow
  { h with refusals := live, dNref := h.dNref - BitVec.ofNat 2 (min h.dNref.toNat (h.refusals.length - live.length)) }

/-! ## The flow allocation table (R461) -/

/-- The partition of hart i of a core (R392). -/
def Core.hartPid (c : Core) (i : Nat) : Byte := byteOf c.phart i

/-- A partition owns a hart slot on a core of compute zone z (R461). -/
def State.ownsIn (s : State) (p : Byte) (z : Nat) : Bool :=
  (List.range 24).any fun i =>
    (List.range Config.hartsPerCore).any fun k => (s.coreAt (192 * (z / 8) + 24 * (z % 8) + i)).hartPid k = p

/-- A launch has been granted flow and counts (R461). -/
def Launch.granted (l : Launch) : Bool := l.units.isSome && (l.st == .leasing || l.st == .ready || l.st == .running)

/-- SHARE of a zone, with one more launch counted or none (R461). -/
def State.shareWith (s : State) (extra : Option (Byte × Nat)) (z : Nat) : Nat :=
  let zmin := (s.zoneAt z).zmin.toNat
  if 64 ≤ z then (if z < 80 then zmin else 0)
  else
    let held := s.launches.map fun l =>
      if l.granted && s.ownsIn l.pid z then l.units.getD 0 else 0
    let more := match extra with | some (p, u) => if s.ownsIn p z then u else 0 | none => 0
    max zmin (min 16 (zmin + held.sum + more))

/-- SHARE of a zone; the bypass has its fixed flow (R458, R461). -/
def State.share (s : State) (z : Nat) : Nat := if z < 80 then s.shareWith none z else 104

/-- The sum of every SHARE. -/
def State.shares (s : State) (extra : Option (Byte × Nat)) : Nat :=
  ((List.range 80).map fun z => s.shareWith extra z).sum

/-- FREE: the units that are not granted (R461); 0 where the shares exceed them. -/
def State.freeUnits (s : State) : Nat := 1024 - 104 - s.shares none

/-! ## Reading (R92) -/

/-- lat (R169). -/
def Core.latWord (c : Core) : Word :=
  (List.range Config.laneGroups).foldl (fun w i =>
    let h := tget 0 c.lat i
    if h = 0 then w else w ||| at_ (4 * i) (BitVec.ofNat 4 (8 + (h - 1)))) 0

/-- tdoff (R343). -/
def Hart.tdoffWord (h : Hart) : Word :=
  bit 0 h.dAct ||| at_ 2 h.dSlot ||| at_ 4 h.dNref ||| at_ 16 h.dLslot ||| at_ 18 h.dLast ||| at_ 20 h.dIcnt
    ||| at_ 32 h.dSvst

/-- zmon (R460). -/
def Zone.monWord (z : Zone) : Word :=
  at_ 52 z.temp ||| at_ 40 z.volt ||| at_ 32 z.proc ||| at_ 22 z.flow ||| at_ 20 z.cond ||| at_ 17 z.evac
    ||| at_ 15 z.att ||| at_ 0 z.f

/-- The value of a hart register, index 0x000 to 0x213 (R93, R414). -/
def readHart (s : State) (i : Nat) : Word :=
  let h := s.hart
  match i with
  | 0x000 => at_ 0 h.vl ||| at_ 16 (BitVec.ofNat 5 s.groups)
  | 0x001 => at_ 0 h.vstart
  | 0x002 => at_ 0 h.rm
  | 0x003 => at_ 0 h.fflags
  | 0x004 => at_ 32 h.seed ||| at_ 0 h.ctr
  | 0x008 => bit 0 h.yreq
  | 0x009 => at_ 0 h.ydl
  | 0x00A => at_ 16 h.rank ||| at_ 0 h.cid
  | 0x00B => at_ 0 h.pid
  | 0x00C => at_ 0 h.wcur
  | 0x100 => at_ 0 h.tm
  | 0x101 => at_ 0 h.tn
  | 0x102 => at_ 0 h.tk
  | 0x103 => (h.forget s.pkg.time).tdoffWord
  | 0x104 => h.tdpc
  | 0x110 => h.lpix
  | 0x111 => at_ 16 h.mark.state.code ||| at_ 8 h.lpdetail ||| at_ 0 h.lpcause
  | 0x200 => bit 0 h.fj ||| bit 1 h.estep ||| bit 2 (h.run == .halted) ||| at_ 4 h.hreason
  | 0x210 => bit 0 h.lEn ||| at_ 1 h.lPol ||| bit 3 h.lLost ||| bit 4 h.lPart
  | 0x211 => at_ 12 h.lBase ||| at_ 58 h.lSz
  | 0x212 => h.lhd
  | 0x213 => h.ltl
  | _ => 0

/-- The value of a trap, lane, engine or partition register, index 0x220 to 0x4FF. -/
def readSuper (s : State) (i : Nat) : Word :=
  let h := s.hart
  let c := s.coreAt s.coreNo
  let p := s.pkg
  match i with
  | 0x220 => bit 0 p.ctsrEn ||| at_ 5 p.ctsrK ||| at_ 16 p.ctsrBase
  | 0x400 => at_ 0 h.tCause ||| bit 8 h.tVq
  | 0x401 => h.tpc
  | 0x402 => h.tval
  | 0x403 => h.tspc
  | 0x404 => bit 0 h.inh ||| at_ 1 h.pprv ||| bit 3 h.vqf
  | 0x405 => at_ 2 h.tvec
  | 0x406 => h.tscr
  | 0x407 => at_ 12 h.csave
  | 0x408 => at_ 0 h.ydef
  | 0x410 => c.latWord
  | 0x411 => at_ 0 h.lwt
  | 0x412 => at_ 0 c.cdens
  | 0x414 => at_ 0 c.vathr
  | 0x420 => bit 0 (s.partAt h.pid).cwEn ||| at_ 26 (s.partAt h.pid).cwBase
  | 0x430 => h.eport
  | 0x431 => at_ 0 h.eseq
  | 0x440 => at_ 0 c.tres
  | 0x450 => at_ 12 p.qtBase ||| at_ 0 p.qtNq
  | 0x451 => at_ 0 p.sqnt
  | 0x460 => at_ 0 h.psel
  | 0x461 => at_ 12 (s.partAt h.psel).ptroot
  | 0x462 => at_ 0 (s.partAt h.psel).pways
  | 0x464 => at_ 16 p.tsvaVa ||| at_ 8 p.tsvaPid
  | 0x465 => bit 63 p.tsnBusy ||| at_ 0 p.tsnN
  | 0x466 => at_ 48 p.fownOwner ||| at_ 0 p.fownFrame
  | 0x468 => bit 63 p.migBusy ||| bit 62 p.migErr ||| at_ 0 p.migSrc
  | 0x469 => at_ 0 p.migDst
  | 0x46A => bit 63 (p.peersUp.contains p.rpstPeer.toNat) ||| at_ 0 p.rpstPeer
  | 0x470 => c.phart
  | 0x471 => c.pgrpl
  | 0x472 => c.pgrph
  | 0x474 => bit 8 (s.clusterAt s.clusterNo).crEn ||| at_ 0 (s.clusterAt s.clusterNo).crPid
  | 0x476 => tget 0 p.fpeer 0
  | 0x477 => tget 0 p.fpeer 1
  | 0x478 => tget 0 p.fpeer 2
  | 0x479 => tget 0 p.fpeer 3
  | 0x480 => (s.partAt h.psel).gtoff
  | 0x481 => at_ 32 (s.partAt h.psel).gtMul ||| bit 8 (s.partAt h.psel).gtHide ||| at_ 0 (s.partAt h.psel).gtSh
  | 0x490 => bit 63 p.jEn ||| at_ 16 p.jBase ||| at_ 0 p.jSz
  | 0x494 => c.sgate
  | _ => 0

/-- The value of a management register, index 0x800 upwards. -/
def readManage (s : State) (i : Nat) : Word :=
  let p := s.pkg
  match i with
  | 0x800 => bit 63 p.fatal ||| at_ 32 p.ue ||| at_ 0 p.ce
  | 0x801 => bit 63 p.scrubEn ||| at_ 0 p.scrubPer
  | 0x802 => at_ 60 (BitVec.ofNat 4 (8 - tget 0 p.spares p.bank.toNat)) ||| at_ 32 p.thr ||| at_ 0 p.bank
  | 0x803 => at_ 0 p.rpoisFrame
  | 0x809 => at_ 2 s.hart.mtvec
  | 0x840 => tget 0 p.fjpen 0
  | 0x841 => tget 0 p.fjpen 1
  | 0x842 => tget 0 p.fjpen 2
  | 0x843 => tget 0 p.fjpen 3
  | 0x880 => at_ 0 p.czsel
  | 0x881 =>
      let z := min p.czsel.toNat 80
      at_ 32 (s.zoneAt z).valve ||| at_ 16 (BitVec.ofNat 10 (s.share z)) ||| at_ 8 (s.zoneAt z).zmin
  | 0x882 => (s.zoneAt (min p.czsel.toNat 80)).monWord
  | 0x883 => at_ 8 p.ctZone ||| at_ 0 p.ctBits
  | 0x884 => at_ 56 p.tshut ||| at_ 48 p.tcrit ||| at_ 40 p.tmax ||| at_ 32 p.lowf ||| at_ 16 p.pmin
  | 0x885 => p.ctcls
  | 0x886 => at_ 0 (BitVec.ofNat 10 s.freeUnits)
  | 0x888 => at_ 16 p.pcap ||| at_ 0 p.pnow
  | 0x891 => at_ 0 p.wgate
  | _ => 0

/-- The value of a system register for the focused hart (R92). Write-only fields read zero. -/
def readSr (s : State) (i : BitVec 12) : Word :=
  let n := i.toNat
  if n < 0x220 then readHart s n else if n < 0x800 then readSuper s n else readManage s n

/-! ## Effects of writes on the package -/

namespace State

/-- Change every context: those on hart slots, saved ones and those that have halted with work (R403). -/
def mapContexts (f : Hart → Hart) (s : State) : State :=
  { s with
    hart := f s.hart
    others := s.others.map fun (p : Nat × Hart) => (p.1, f p.2)
    saved := s.saved.map fun (c : Saved) => { c with hart := f c.hart }
    orphans := s.orphans.map fun (p : Nat × Hart) => (p.1, f p.2) }

/-- The late stores of every hart become visible. -/
def showStores (s : State) : State :=
  (s.slots.filter fun n => !(s.hartAt n).sbuf.isEmpty).foldl (fun s n => s.atHart n lateStores) s

/-- Every delivered bank attention command rereads its page list (R274, R299). -/
def rereadLists (s : State) : State :=
  s.mapContexts fun h => { h with ports := h.ports.map fun (p : Nat × Port) =>
    (p.1, { p.2 with cmds := p.2.cmds.map fun (c : Cmd) => { c with stalled := false } }) }

/-- Write the frame ownership table: every line of the frame is written back first (R388). -/
def setOwner (o : BitVec 16) (frame : BitVec 36) (s : State) : State :=
  if !isDevice (frame.toNat * 65536) then s
  else
    let s := s.showStores.cleanIf fun d => d.pline / 512 = frame.toNat
    { s with owners := tset 0 s.owners frame.toNat o }

/-- Write fown (R388). -/
def writeFown (rd : Bool) (o : BitVec 16) (frame : BitVec 36) (s : State) : State :=
  if rd then
    s.modPkg fun p => { p with
      fownFrame := frame
      fownOwner := if isDevice (frame.toNat * 65536) then s.owner frame.toNat else p.fownOwner }
  else (s.setOwner o frame).modPkg fun p => { p with fownFrame := frame, fownOwner := o }

/-- A page of 64 KiB of a partition lies in the range of a shootdown; N = 0 covers every page (R385). -/
def covers (pkg : Pkg) (pid : Byte) (page : Nat) : Bool :=
  pid = pkg.sdPid && (pkg.sdN = 0 || (decide (pkg.sdVa.toNat ≤ page) && decide (page < pkg.sdVa.toNat + pkg.sdN.toNat)))

/-- A cached leaf overlaps the range of the shootdown in progress (R385). -/
def shotEntry (pkg : Pkg) (e : TlbEntry) : Bool :=
  e.pid = pkg.sdPid && (pkg.sdN = 0 || (decide (e.va < (pkg.sdVa.toNat + pkg.sdN.toNat) * 65536)
    && decide (pkg.sdVa.toNat * 65536 < e.va + e.size)))

/-- The frame of a physical address is mapped by an invalidated leaf. -/
def shotFrame (gone : List TlbEntry) (frame : Nat) : Bool :=
  gone.any fun e => decide (e.pa ≤ frame * 65536 + 65535) && decide (frame * 65536 < e.pa + e.size)

/-- The partition's tables map a frame in the range of the shootdown in progress (R385, R390). -/
def mappedIn (s : State) (frame : Nat) : Bool :=
  shotFrame ((s.leaves s.pkg.sdPid).filter (shotEntry s.pkg)) frame

/-- Bank attention commands of a partition whose page list covers a frame, or a page of its pool, of the range stall (R299,
R385): entry k is the word at PL + 8k. DESIGN CHOICE (log 107): what a range of addresses covers. -/
def stallLists (s : State) (pid : Byte) (frames : Nat → Bool) (pages : Nat → Bool) : State :=
  let stalls := fun (h : Hart) (c : Cmd) =>
    h.pid == pid && c.outcome.isNone && ((c.words.headD 0).extractLsb' 8 8 : BitVec 8) == 0x30
      && (List.range ((c.words.getD 7 0).toNat % 2 ^ 32)).any fun k =>
        pages (((c.words.getD 3 0).toNat % 2 ^ 57) / 65536 + k) ||
        match s.lookup none h.pid (c.words.getD 6 0 + BitVec.ofNat 64 (8 * k)) with
        | (.leaf e, _) =>
            let a := e.pa + ((c.words.getD 6 0 + BitVec.ofNat 64 (8 * k)).toNat % 2 ^ 57 - e.va)
            frames ((s.word8 a).toNat % 2 ^ 52 / 65536)
        | _ => false
  s.mapContexts fun h => { h with ports := h.ports.map fun (p : Nat × Port) =>
    (p.1, { p.2 with cmds := p.2.cmds.map fun (c : Cmd) => { c with stalled := c.stalled || stalls h c } }) }

/-- Start a shootdown: its leaves leave every translation cache at once, and stale page lists stall (R385). -/
def startShootdown (n : BitVec 32) (s : State) : State :=
  let s := s.modPkg fun p => { p with
    tsnBusy := true, tsnN := n, sdVa := p.tsvaVa, sdPid := p.tsvaPid, sdN := n
    shots := p.shots ++ [(p.tsvaPid, p.tsvaVa.toNat, n.toNat)] }
  let gone := s.tlb.filter (shotEntry s.pkg)
  let s := s.stallLists s.pkg.sdPid (fun f => shotFrame gone f || s.mappedIn f) (covers s.pkg s.pkg.sdPid)
  let ends := s.pkg.fwds.filter fun m => s.mappedIn m.2
  { s.modPkg fun p => { p with sdEnds := ends } with tlb := s.tlb.filter fun e => !shotEntry s.pkg e }

/-- A shootdown completes: BUSY reads 0, covered leases end, the accesses that it waits for are performed, and the forwarding
of a finished migration ends whose new entry it shot down (R385, R386, R390, log 29). -/
def endShootdown (s : State) : State :=
  let s := s.showStores
  let pkg := s.pkg
  let s := { s with launches := s.launches.map fun (l : Launch) =>
    { l with leases := l.leases.filter fun page => !covers pkg l.pid page } }
  s.modPkg fun p => { p with
    tsnBusy := false, fwds := p.fwds.filter (fun m => !p.sdEnds.contains m), sdEnds := [] }

/-- Start a migration, unless one runs (R390). -/
def startMigration (src : BitVec 36) (s : State) : State :=
  if s.pkg.migBusy then s
  else if s.owner src.toNat ≠ s.owner s.pkg.migDst.toNat then
    s.modPkg fun p => { p with migSrc := src, migErr := true }
  else s.modPkg fun p => { p with
    migSrc := src, migErr := false, migBusy := true, migDone := 0, migFwd := true, movSrc := src, movDst := p.migDst
    moves := p.moves ++ [(src.toNat, p.migDst.toNat)] }

/-- The partitions' groups of a core form aligned blocks (R392). -/
def blocksOk (c : Core) : Bool :=
  (List.range Config.laneGroups).all fun g =>
    let own := (List.range Config.laneGroups).filter fun k => decide (c.groupPid k = c.groupPid g)
    let n := own.length
    let first := own.headD 0
    (n == 1 || n == 2 || n == 4 || n == 8 || n == 16) && first % n == 0
      && own == (List.range n).map fun k => first + k

/-- A tenant switch begins on a core for an outgoing partition (R344): its waiting requests there are withdrawn
(log 88), its negotiated and pool slots are recalled with priority 0, and its fixed holdings end. -/
def recallTenant (core : Nat) (p : Byte) (s : State) : State :=
  let here := (List.range Config.hartsPerCore).filterMap fun i =>
    let n := Config.hartsPerCore * core + i
    let h := s.hartAt n
    if h.run ≠ .empty && h.pid = p then some (h.key n) else none
  let keys := here ++ s.saved.filterMap fun c => if c.hart.pid = p then some (c.hart.key c.slotNo) else none
  let mine := fun (k : Option Nat) => match k with | some k => keys.contains k | none => false
  s.modCore core fun c =>
    let c := { c with recalls := c.recalls.filter fun r => !mine r.key }
    (List.range 4).foldl (fun (c : Core) n =>
      if !mine (c.tile n).holder then c
      else if (c.tile n).cls = .fixed then c.freeTile n
      else { c with recalls := c.recalls ++ [⟨n, none, (c.tile n).cls, 0, 0⟩] }) c

/-- The outgoing partitions of a core whose assignment changes: each once. -/
def recallTenants (core : Nat) (ps : List Byte) (s : State) : State :=
  ps.eraseDups.foldl (fun s p => s.recallTenant core p) s

/-- Reassign hart i of a core: a context of another partition leaves at its next boundary, and the clearing sequencer runs
then; it clears an empty slot at once (R392, R393). -/
def reassign (core : Nat) (old new : Byte) (i : Nat) (s : State) : State :=
  let n := Config.hartsPerCore * core + i
  if (s.hartAt n).run ≠ .empty then
    s.modHart n fun h => if h.pid ≠ new then { h with evict := true } else h
  else (s.sequence core old).modHart n fun _ => Hart.reset

/-- Write phart of a core (R392, R393). -/
def writePhart (core : Nat) (v : Word) (s : State) : State :=
  let old := s.coreAt core
  let moved := (List.range Config.hartsPerCore).filter fun i => old.hartPid i ≠ byteOf v i
  let s := s.recallTenants core (moved.map old.hartPid)
  let s := moved.foldl (fun (s : State) i => s.reassign core (old.hartPid i) (byteOf v i) i) s
  s.modCore core fun c => { c with phart := v }

/-- A saved context with a remainder that no core can take any more ends its launch (R411). -/
def strandedLaunches (s : State) : List Word :=
  s.saved.filterMap fun c =>
    if c.vpc ≠ 0 && !(List.range Config.cores).any fun k => decide (c.groups ≤ (s.coreAt k).gpart c.hart.pid)
    then c.hart.launch else none

/-- Write pgrpl or pgrph of a core, unless it breaks the block rule (R392, R393, R411). -/
def writePgrp (core : Nat) (high : Bool) (v : Word) (s : State) : State :=
  let old := s.coreAt core
  let new := if high then { old with pgrph := v } else { old with pgrpl := v }
  if !blocksOk new then s
  else
    let moved := (List.range Config.laneGroups).filter fun g => old.groupPid g ≠ new.groupPid g
    let s := s.recallTenants core (moved.map old.groupPid)
    let s := (moved.map old.groupPid).eraseDups.foldl (fun (s : State) p => s.sequence core p) s
    let s := s.modCore core fun c => { c with pgrpl := new.pgrpl, pgrph := new.pgrph }
    if moved = [] then s else s.strandedLaunches.eraseDups.foldl (fun s q => s.stopLaunch q 2) s

/-- Write crown: a new owner finds the registers zero (R265, R393). DESIGN CHOICE (log 96): waiting sem.tas requests keep
their places in the list. -/
def writeCrown (cluster : Nat) (en : Bool) (p : Byte) (s : State) : State :=
  s.modCluster cluster fun c =>
    if c.crEn = en && c.crPid = p then c else { c with crEn := en, crPid := p, sem := 0, cr := [] }

/-- Write sgate of a core: a gated bank is written back first (R196, R457, log 30). -/
def writeSgate (core : Nat) (v : Word) (s : State) : State :=
  let gated := (s.coreAt core).sgate &&& ~~~v
  let s := if gated = 0 then s else s.cleanIf fun d => d.core = core && gated.getLsbD (Config.bankOf d.pline).toNat
  s.modCore core fun c => { c with sgate := v }

/-- Write wgate: a gated way is written back, which changes no value (R457). -/
def writeWgate (v : BitVec 16) (s : State) : State := s.modPkg fun p => { p with wgate := v }

/-- A line of memory holds a line of a frame, wherever a migration has moved that line (R390). -/
def holdsLine (frame : Nat) (s : State) (line : Nat) : Bool :=
  s.forward (frame * 65536 + line % 512 * 128) / 128 == line

/-- Zero a frame and clear its poison (R436). -/
def clearFrame (frame : Nat) (s : State) : State :=
  { s with
    mem := s.mem.filter fun c => !s.holdsLine frame (c.1 / 128)
    dirty := s.dirty.filter fun d => !s.holdsLine frame (s.forward (d.pline * 128) / 128)
    poison := s.poison.filter fun l => !s.holdsLine frame l
    tags := s.tags.filter fun t => !s.holdsLine frame t.1
    residue := (s.recode (frame * 65536) 65536).residue }

/-- Write rpois (R436, R440). -/
def writeRpois (go : Bool) (frame : BitVec 36) (s : State) : State :=
  let s := s.modPkg fun p => { p with rpoisFrame := frame }
  if go && isDevice (frame.toNat * 65536) then s.clearFrame frame.toNat else s

/-- Write eport: a pair whose engine changes loses its partly pushed words (R274). -/
def writeEport (v : Word) (s : State) : State :=
  s.onH fun h =>
    let h' := (List.range 8).foldl (fun (h' : Hart) k =>
      if byteOf h.eport k = byteOf v k then h' else h'.modPort k fun p => { p with part := [] }) h
    { h' with eport := v }

end State

/-! ## Writing (R92) -/

/-- Write a hart register, index 0x000 to 0x213. -/
def writeHart (i : Nat) (v : Word) (s : State) : State :=
  match i with
  | 0x000 => s.onH fun h => { h with vl := fld v 0 11 }
  | 0x001 => s.onH (Hart.setVstart (fld v 0 13))
  | 0x002 => s.onH fun h => { h with rm := fld v 0 3 }
  | 0x003 => s.onH (Hart.setFflags (fld v 0 6))
  | 0x004 => s.onH (Hart.setSeed (fld v 32 32) (fld v 0 32))
  | 0x008 => s.onH fun h => { h with yreq := v.getLsbD 0 }
  | 0x009 => s.onH fun h => { h with ydl := fld v 0 32 }
  | 0x100 => s.onH fun h => { h with tm := fld v 0 7 }
  | 0x101 => s.onH fun h => { h with tn := fld v 0 7 }
  | 0x102 => s.onH fun h => { h with tk := fld v 0 12 }
  | 0x103 => s.onH fun h => { h.forget s.pkg.time with
      dSvst := fld v 32 13, dIcnt := fld v 20 9, dLast := fld v 18 2, dLslot := fld v 16 2, dNref := fld v 4 2 }
  | 0x104 => s.onH fun h => { h with tdpc := pcField v }
  | 0x200 => s.onH fun h => { h with fj := v.getLsbD 0, estep := v.getLsbD 1 }
  | 0x210 => s.onH fun h => { h with
      lEn := v.getLsbD 0, lPol := fld v 1 2, lLost := h.lLost && !v.getLsbD 3 }
  | 0x211 => s.onH fun h => { h with lBase := fld v 12 40, lSz := fld v 58 6 }
  | 0x213 => s.onH fun h => if v < h.ltl || h.lhd < v then h else { h with ltl := v }
  | _ => s

/-- Write a supervisor register, index 0x220 to 0x4FF. -/
def writeSuper (i : Nat) (v : Word) (s : State) : State :=
  let core := s.coreNo
  match i with
  | 0x220 => s.modPkg fun p => { p with ctsrEn := v.getLsbD 0, ctsrK := fld v 5 5, ctsrBase := fld v 16 36 }
  | 0x400 => s.onH fun h => { h with tCause := fld v 0 8, tVq := v.getLsbD 8 }
  | 0x401 => s.onH fun h => { h with tpc := pcField v }
  | 0x402 => s.onH fun h => { h with tval := v }
  | 0x403 => s.onH fun h => { h with tspc := pcField v }
  | 0x404 => s.onH fun h => { h with pprv := fld v 1 2 }
  | 0x405 => s.onH fun h => { h with tvec := fld v 2 55 }
  | 0x406 => s.onH fun h => { h with tscr := v }
  | 0x407 => s.onH fun h => { h with csave := fld v 12 40 }
  | 0x408 => s.onH fun h => { h with ydef := fld v 0 32 }
  | 0x411 => s.onH fun h => { h with lwt := fld v 0 8 }
  | 0x412 => s.modCore core fun c => { c with cdens := fld v 0 7 }
  | 0x414 => s.modCore core fun c => { c with vathr := fld v 0 8 }
  | 0x420 => s.modPart s.hart.pid fun p => { p with cwEn := v.getLsbD 0, cwBase := fld v 26 31 }
  | 0x430 => s.writeEport v
  | 0x431 => s.onH fun h => { h with eseq := fld v 0 32 }
  | 0x432 => if v.getLsbD 0 then s.rereadLists else s
  | 0x440 => s.modCore core fun c => { c with tres := fld v 0 36 }
  | 0x450 => s.modPkg fun p => { p with qtBase := fld v 12 40, qtNq := fld v 0 8 }
  | 0x451 => s.modPkg fun p => { p with sqnt := fld v 0 32 }
  | 0x460 => s.onH fun h => { h with psel := fld v 0 8 }
  | 0x461 => s.modPart s.hart.psel fun p => { p with ptroot := fld v 12 40 }
  | 0x462 => s.modPart s.hart.psel fun p => { p with pways := fld v 0 16 }
  | 0x464 => s.modPkg fun p => { p with tsvaVa := fld v 16 41, tsvaPid := fld v 8 8 }
  | 0x465 =>
      if !v.getLsbD 63 then s.modPkg fun p => { p with tsnN := fld v 0 32 }
      else if s.pkg.tsnBusy then s else s.startShootdown (fld v 0 32)
  | 0x466 => s.writeFown (v.getLsbD 47) (fld v 48 16) (fld v 0 36)
  | 0x468 => if v.getLsbD 63 then s.startMigration (fld v 0 36) else s.modPkg fun p => { p with migSrc := fld v 0 36 }
  | 0x469 => s.modPkg fun p => { p with migDst := fld v 0 36 }
  | 0x46A => s.modPkg fun p => { p with rpstPeer := fld v 0 10 }
  | 0x470 => s.writePhart core v
  | 0x471 => s.writePgrp core false v
  | 0x472 => s.writePgrp core true v
  | 0x474 => s.writeCrown s.clusterNo (v.getLsbD 8) (fld v 0 8)
  | 0x476 => s.modPkg fun p => { p with fpeer := tset 0 p.fpeer 0 v }
  | 0x477 => s.modPkg fun p => { p with fpeer := tset 0 p.fpeer 1 v }
  | 0x478 => s.modPkg fun p => { p with fpeer := tset 0 p.fpeer 2 v }
  | 0x479 => s.modPkg fun p => { p with fpeer := tset 0 p.fpeer 3 v }
  | 0x480 => s.modPart s.hart.psel fun p => { p with gtoff := v }
  | 0x481 => s.modPart s.hart.psel fun p => { p with gtMul := fld v 32 32, gtHide := v.getLsbD 8, gtSh := fld v 0 6 }
  | 0x490 =>
      let s := s.modPkg fun p => { p with jEn := v.getLsbD 63, jBase := fld v 16 36, jSz := fld v 0 6 }
      if v.getLsbD 63 then s.writeControl else s
  | 0x494 => s.writeSgate core v
  | _ => s

/-- Write a management register, index 0x800 upwards. -/
def writeManage (i : Nat) (v : Word) (s : State) : State :=
  match i with
  | 0x800 => s.modPkg fun p => { p with ue := fld v 32 31, ce := fld v 0 32 }
  | 0x801 => s.modPkg fun p => { p with scrubEn := v.getLsbD 63, scrubPer := fld v 0 32 }
  | 0x802 => s.modPkg fun p => { p with thr := fld v 32 8, bank := fld v 0 16 }
  | 0x803 => s.writeRpois (v.getLsbD 63) (fld v 0 36)
  | 0x809 => s.onH fun h => { h with mtvec := fld v 2 55 }
  | 0x840 => s.modPkg fun p => { p with fjpen := tset 0 p.fjpen 0 v }
  | 0x841 => s.modPkg fun p => { p with fjpen := tset 0 p.fjpen 1 v }
  | 0x842 => s.modPkg fun p => { p with fjpen := tset 0 p.fjpen 2 v }
  | 0x843 => s.modPkg fun p => { p with fjpen := tset 0 p.fjpen 3 v }
  | 0x880 => s.modPkg fun p => { p with czsel := fld v 0 7 }
  | 0x881 => s.modZone (min s.pkg.czsel.toNat 80) fun z => { z with zmin := fld v 8 5 }
  | 0x883 => s.modPkg fun p => { p with ctBits := p.ctBits &&& ~~~(fld v 0 4) }
  | 0x884 => s.modPkg fun p => { p with
      tshut := fld v 56 8, tcrit := fld v 48 8, tmax := fld v 40 8, lowf := fld v 32 8, pmin := fld v 16 16 }
  | 0x885 => s.modPkg fun p => { p with ctcls := v }
  | 0x888 => s.modPkg fun p => { p with pcap := fld v 16 16 }
  | 0x891 => s.writeWgate (fld v 0 16)
  | _ => s

/-- Write a system register of the focused hart, field by field (R92). -/
def writeSr (i : BitVec 12) (v : Word) (s : State) : State :=
  let n := i.toNat
  if n < 0x220 then writeHart n v s else if n < 0x800 then writeSuper n v s else writeManage n v s

/-! ## Access by level (R93, R94) -/

/-- The least level of an index range (R94). -/
def srLevel (i : BitVec 12) : Level :=
  if i.toNat < 0x200 then .user else if i.toNat < 0x800 then .supervisor else .management

/-- The indices that user level may write (R93): vstart, vfmt, fflags and srseed. -/
def srUserWritable (i : BitVec 12) : Bool := decide (1 ≤ i.toNat) && decide (i.toNat ≤ 4)

/-- Registers that queued work writes (R95). -/
def srQueued (i : BitVec 12) : Bool := i = 0x001 || i = 0x003 || i = 0x004

/-- A register that queued work writes can be read: that work has completed, or it is frozen and a handler reads the vstart
at which it stands (R95, R178, R402, log 28). -/
def State.readable (idx : BitVec 12) (s : State) : Bool := s.quiet || (s.hart.vqf && idx = 0x001)

/-- getsr (R92, R94, R95). -/
def execGetsr (c : Ctl) (d : Operand) (idx : BitVec 12) (s : State) : Out :=
  guarded c s fun s =>
    if s.hart.level.rank < (srLevel idx).rank then s.takeTrap ⟨.privilege, idx.setWidth 64⟩
    else if srQueued idx && !s.readable idx then s.await (.getsr c d idx)
    else deliver (.getsr c d idx) s d (readSr s idx) s

/-- putsr takes effect for the later instructions, whatever is still queued (R64, R92, R94, R95). -/
def execPutsr (c : Ctl) (idx : BitVec 12) (a : Operand) (s : State) : Out :=
  guarded c s fun s =>
    if s.hart.level.rank < (srLevel idx).rank || (s.hart.level = .user && !srUserWritable idx)
    then s.takeTrap ⟨.privilege, idx.setWidth 64⟩
    else withSources (.putsr c idx a) a .none (fun v _ s => writeSr idx v s.advance) s

end Sys2Proof.Machine
end

