-- ==== Sys2Proof/Machine/Traps.lean ====
section
/-! DEFINITION. trap, ecall, tret, halt, sync and yield (R400 to R406), brk, wmark, tsc and cnt (R418 to R424), and
debug halt (R416). -/

namespace Sys2Proof.Machine

/-- An instruction that a doff routine must not execute raises Doff Violation code 2 there (R340). -/
def unlessDoff (f : State → State) (s : State) : State := if s.hart.dAct then s.doffViolation 2 else f s

/-! ## Trap instructions (R401, R402) -/

/-- trap (R401). -/
def execTrap (c : Ctl) (b : Operand) (s : State) : Out :=
  guarded c s <| withSources (.trap c b) b .none fun x _ s => s.takeTrapTo ⟨.software, x⟩ (s.hart.pc + 12)

/-- ecall (R401). -/
def execEcall (c : Ctl) (b : Operand) (s : State) : Out :=
  guarded c s <| withSources (.ecall c b) b .none fun x _ s => s.takeTrapTo ⟨.service, x⟩ (s.hart.pc + 12)

/-- tret (R402). -/
def execTret (c : Ctl) (s : State) : Out :=
  guarded c s fun s =>
    if s.hart.level = .user || !s.hart.inh then s.takeTrap ⟨.privilege, 0⟩ else s.returnTrap

/-! ## halt, sync and yield (R403 to R406) -/

/-- The hart ends: its halt has retired (R422), its tenure ends, and delivered commands and a replay run on (R277, R322,
R403). -/
def endHart (s : State) : State :=
  let s := s.lateStores
  let h := s.hart
  let n := s.cur
  let s := ((s.countEnd h).onH (Hart.bump 1 1)).leave
  if State.hasWork h then { s with orphans := s.orphans ++ [(n, h)] } else s

/-- halt (R403). It waits for every earlier instruction, in a handler too. -/
def execHalt (c : Ctl) (s : State) : Out :=
  guarded c s <| unlessDoff fun s =>
    if !s.quiet then s.await (.halt c) else if s.hart.inh then s.endTask else endHart s

/-- sync (R404). -/
def execSync (c : Ctl) (s : State) : Out :=
  guarded c s fun s => if !s.quiet then s.await (.sync c) else (fenceAt 3 s).advance

/-- yield (R406). One that saves the context has retired (R422). -/
def execYield (c : Ctl) (s : State) : Out :=
  guarded c s <| unlessDoff fun s =>
    if s.hart.inh || !s.hart.yreq then (s.onH Hart.abandon).advance
    else if s.areaHeld then s.await (.yield c)
    else (s.drainAll.onH (Hart.bump 1 1)).saveContext .yield (pcWord (s.hart.pc + 12) 0) 0

/-! ## Debug halt and breakpoints (R416, R419) -/

/-- Enter debug halt (R416): the streams stop as in a save, and the remainder stays in the queue, to begin again. -/
def State.debugHalt (reason : BitVec 4) (s : State) : State :=
  ((s.lateStores.withdraw s.cur).drainAll).onH fun h => { h.clearTraps with
    run := .halted, hreason := reason, waiting := none, haltReq := false }

/-- brk (R419). -/
def execBrk (c : Ctl) (b : Operand) (s : State) : Out :=
  guarded c s fun s =>
    if s.hart.dAct then s.advance
    else if s.hart.fj then s.debugHalt 2
    else s.takeTrap ⟨.breakpoint, match takeS b s.hart with | some (x, _) => x | none => 0⟩

/-! ## Marks (R420, R424) -/

/-- The 576 payload bytes of a snapshot (R424). -/
def snapshotBytes (s : State) (next : Addr) : List Byte :=
  let h := s.hart
  ((List.range 63).flatMap fun k => bytesOf 8 (h.rs (k + 1)))
    ++ bytesOf 8 (pcWord next 0) ++ bytesOf 8 (readHart s 0) ++ bytesOf 8 (at_ 0 h.vstart)
    ++ [h.p &&& 0xFE ||| 1, h.fflags.setWidth 8, h.rm.setWidth 8] ++ leBytes 5 0
    ++ bytesOf 8 (readHart s 4) ++ leBytes 32 0

/-- Append the snapshot of window w: a header and nine payload records (R424). Each slot is an append of its own: where policy
10 finds the buffer full, those before it stand (R426). -/
def State.appendSnapshot (w : BitVec 32) (s : State) : State :=
  if !s.logged then s
  else
    let pay := snapshotBytes s (s.hart.pc + 12)
    let head : Record := ⟨0, 0, 0, 6, 0, pcWord s.hart.pc 0, 0, w⟩
    let first := s.hart.lhd
    let s := s.appendSlots [head.bytes s.pkg.time s.hart.cid s.hart.rank]
    if s.hart.lLost then s
    else
      (State.appendSlots ((List.range 9).map fun i => (pay.drop (64 * i)).take 64)
        (s.onH fun h => { h with lMarks := h.lMarks ++ [⟨first, w, 10⟩] })).onH fun h => { h with
          lMarks := h.lMarks.map fun m => if m.slot = first then { m with size := (h.lhd - first).toNat } else m }

/-- Every entry that an earlier instruction has appended to a store stream has been written, or its write is to be tried again
(R425). -/
def State.streamsWritten (s : State) : Bool :=
  s.hart.streams.all fun p => match p.2 with
    | some b => !b.store || b.trap.isSome || (s.hart.vq p.1).isEmpty
    | none => true

/-- wmark (R420, R425). -/
def execWmark (c : Ctl) (d : Operand) (s : State) : Out :=
  guarded c s fun s =>
    if !s.quiet || !s.streamsWritten || s.appendHeld 10 then s.await (.wmark c d)
    else
      let w := s.hart.wcur + 1
      if s.noRoom 10 then s.takeTrap ⟨.liningFull, 0⟩
      else deliver (.wmark c d) s d (w.setWidth 64) ((s.appendSnapshot w).onH fun h => { h with wcur := w })

/-! ## Time and counters (R421, R422) -/

/-- G(T) of a partition (R421). -/
def guestTime (p : Part) (time : Word) : Word :=
  let t := if p.gtHide then p.ran else time
  BitVec.ofNat 64 ((t - p.gtoff).toNat * p.gtMul.toNat / 2 ^ p.gtSh.toNat)

/-- tsc writes the guest time as it stands at its issue; one that waits for room in its queue keeps it (R421). -/
def execTsc (c : Ctl) (d : Operand) (s : State) : Out :=
  guarded c s fun s =>
    let now := guestTime (s.partAt s.hart.pid) s.pkg.time
    let t := if s.hart.waiting = some (.tsc c d) then s.hart.tscAt.getD now else now
    match putS d t s.hart with
    | none => (s.await (.tsc c d)).onH fun h => { h with tscAt := some t }
    | some h => ({ s with hart := h } : State).advance

/-- cnt (R422). -/
def execCnt (c : Ctl) (d a : Operand) (s : State) : Out :=
  guarded c s fun s =>
    withSources (.cnt c d a) a .none (fun x _ s' =>
      deliver (.cnt c d a) s d (if x.toNat < 16 then s.hart.counter x.toNat else BitVec.allOnes 64) s') s

end Sys2Proof.Machine
end

