-- ==== Sys2Proof/Machine/Tiles.lean ====
section
/-! DEFINITION. Tile slots: treq, trel, doffret, the recall queue and doff routines (R331 to R344). -/

namespace Sys2Proof.Machine

/-! ## Claims (R334, R335) -/

/-- Slot n of a core is reserved, and for which partition (R332). -/
def Core.reserved (c : Core) (n : Nat) : Bool × Byte := (c.tres.getLsbD (9 * n + 8), c.tres.extractLsb' (9 * n) 8)

/-- Tile Fault (R334, R341). -/
def tileFault (code : Nat) (s : State) : State := s.takeTrap ⟨.tile, BitVec.ofNat 64 code⟩

/-- Grant slot n to the focused hart's context (R334). -/
def State.grantTile (n : Nat) (cls : TileClass) (doff : Addr) (s : State) : State :=
  s.modCore s.coreNo fun c =>
    c.setTile n { Tile.reset with holder := some (s.hart.key s.cur), cls := cls, doff := doff }

/-- The claim of a slot: held already, a fault, granted, refused at once, or to wait for (R334). -/
inductive Claimed where
  | held | violation | fault (code : Nat) | granted | refused | waits
deriving DecidableEq, Repr

/-- What a request for slot n of class cls meets (R334). -/
def claim (n : Nat) (cls : TileClass) (s : State) : Claimed :=
  let c := s.coreAt s.coreNo
  let k := s.hart.key s.cur
  let (rv, p) := c.reserved n
  if (c.tile n).holder = some k then .held
  else if s.hart.dAct then .violation
  else if cls = .fixed && !(rv && p = s.hart.pid) then .fault 1
  else if cls ≠ .fixed && rv then .fault 2
  else if cls = .pool then (if (c.tile n).holder.isNone then .granted else .refused)
  else if (c.tile n).holder.isNone && !c.recalls.any fun r => r.slot == n && r.key != some k then .granted
  else .waits

/-- Queue the request of the focused hart's context for slot n, once (R336). -/
def State.request (n : Nat) (cls : TileClass) (doff : Addr) (s : State) : State :=
  let k := s.hart.key s.cur
  s.modCore s.coreNo fun c =>
    if c.recalls.any fun r => r.slot == n && r.key == some k then c
    else { c with recalls := c.recalls ++ [⟨n, some k, cls, doff, s.prioOf s.hart.launch⟩] }

/-- The focused hart's request for slot n waits in the recall queue. -/
def State.requested (n : Nat) (s : State) : Bool :=
  (s.coreAt s.coreNo).recalls.any fun r => r.slot == n && r.key == some (s.hart.key s.cur)

/-- A waiting claim: the slot is granted, or the request waits in the recall queue until it is (R334). A request that has
entered the queue is not checked again: a later write to tres governs later requests (R332). -/
def treqWait (i : Instr) (n : Nat) (cls : TileClass) (doff : Addr) (s : State) : State :=
  if s.requested n && !s.holds n then s.await i
  else
    match claim n cls s with
    | .held => s.advance
    | .violation => s.doffViolation 2
    | .fault code => tileFault code s
    | .granted => (s.grantTile n cls doff).advance
    | .refused | .waits => (s.request n cls doff).await i

/-- treq.fixed (R334). -/
def execTreqFixed (c : Ctl) (n : BitVec 2) (s : State) : Out :=
  guarded c s fun s => treqWait (.treqFixed c n) n.toNat .fixed 0 s

/-- treq.neg (R334). -/
def execTreqNeg (c : Ctl) (n : BitVec 2) (disp : BitVec 32) (s : State) : Out :=
  guarded c s fun s => treqWait (.treqNeg c n disp) n.toNat .negotiated (s.hart.pc + dispAddr disp) s

/-- treq.pool (R334). -/
def execTreqPool (c : Ctl) (n : BitVec 2) (a : BitVec 6) (disp : BitVec 32) (s : State) : Out :=
  guarded c s fun s =>
    match claim n.toNat .pool s with
    | .held => (s.onH (Hart.ws a.toNat 1)).advance
    | .violation => s.doffViolation 2
    | .fault code => tileFault code s
    | .granted => ((s.grantTile n.toNat .pool (s.hart.pc + dispAddr disp)).onH (Hart.ws a.toNat 1)).advance
    | .refused | .waits => (s.onH (Hart.ws a.toNat 0)).advance

/-- End a holding of the focused hart's context, and grant the slot (R335, R337). -/
def State.releaseTile (n : Nat) (s : State) : State :=
  if s.holds n then s.modCore s.coreNo (Core.freeTile n) else s

/-- trel (R335). -/
def execTrel (c : Ctl) (n : BitVec 2) (s : State) : Out :=
  guarded c s fun s =>
    if !s.holds n.toNat then s.advance
    else if s.matrixBusy (some n.toNat) then s.await (.trel c n)
    else (s.releaseTile n.toNat).advance

/-! ## The end of a doff routine (R341, R342, R344) -/

/-- The routine returns with an outcome; vstart takes SVST for the instructions after it (R339, R341). -/
def doffReturn (last : BitVec 2) (s : State) : State :=
  s.onH fun h => { h.setVstart h.dSvst with
    dLast := last, dLslot := h.dSlot, dAct := false, pc := pcOf h.tdpc, waiting := none }

/-- doffret of outcome finished or summarised (R341). -/
def doffDone (i : Instr) (last : BitVec 2) (s : State) : State :=
  if !s.hart.dAct then tileFault 3 s
  else if s.matrixBusy (some s.hart.dSlot.toNat) then s.await i
  else doffReturn last (s.releaseTile s.hart.dSlot.toNat)

/-- doffret.finished (R341). -/
def execDoffretFinished (c : Ctl) (s : State) : Out :=
  guarded c s fun s => doffDone (.doffretFinished c) 1 s

/-- doffret.summarised (R341). -/
def execDoffretSummarised (c : Ctl) (s : State) : Out :=
  guarded c s fun s => doffDone (.doffretSummarised c) 2 s

/-- The recall that the routine answers comes from a tenant switch (R344). -/
def State.tenantRecall (n : Nat) (s : State) : Bool :=
  match headOf n (s.coreAt s.coreNo).recalls with
  | some r => r.key.isNone
  | none => false

/-- doffret.refused (R341, R344). -/
def execDoffretRefused (c : Ctl) (s : State) : Out :=
  guarded c s fun s =>
    if !s.hart.dAct then tileFault 3 s
    else
      let n := s.hart.dSlot.toNat
      let s := s.onH (Hart.forget s.pkg.time)
      if s.tenantRecall n then s.doffViolation 4
      else if s.hart.dNref = 3 then s.doffViolation 3
      else
        let s := s.onH fun h => { h with refusals := h.refusals ++ [s.pkg.time], dNref := h.dNref + 1 }
        let s := if s.holds n then
            s.modTile n fun t => { t with delay := some (s.pkg.time + BitVec.ofNat 64 Config.refusalDelay) }
          else s
        doffReturn 3 s

/-! ## Recalls (R338, R339) -/

/-- A refusal delay runs (R338). -/
def Tile.delayed (t : Tile) (now : Word) : Bool :=
  match t.delay with
  | none => false
  | some e => now < e

/-- A recall for slot n is signalled to the focused hart (R338). -/
def State.recalled (s : State) (n : Nat) : Bool :=
  let c := s.coreAt s.coreNo
  let t := c.tile n
  s.holds n && t.cls ≠ .fixed && !t.delayed s.pkg.time
    && match headOf n c.recalls with
      | some r => decide (r.prio ≤ s.prioOf s.hart.launch)
      | none => false

/-- vstart as the instructions that issue from now on use it: the value last set, or 0 where earlier work that is unfinished
leaves it so (R106, R339). -/
def Hart.laterVstart (h : Hart) : BitVec 13 :=
  let uses := fun (n : Nat) => (h.vcq.any fun e => usesVstart e.instr && decide (n ≤ e.env.seq))
    || (match h.episode with | some ep => decide (n ≤ ep.env.seq) | none => false)
  if h.vqf then h.vstart
  else
    match h.vsets.getLast? with
    | some p => if uses p.1 then 0 else p.2
    | none => if uses 0 then 0 else h.vstart

/-- A trel that has issued and waits for matrix work: it ends its holding, and no recall displaces it (R335). -/
def State.releasing (s : State) : Bool :=
  match s.hart.waiting with
  | some (.trel c n) => s.hart.vqf || !behindQueue (.trel c n) s.hart
  | _ => false

/-- The focused hart enters a doff routine at its boundary, for the lowest slot that is recalled (R339, log 31). It does not
wait for queued work: SVST is the value that this work leaves in vstart (log 32). Whatever waits is displaced (log 103), but
for a trel that has issued (DESIGN CHOICE). -/
def State.doffEntry (s : State) : Option State :=
  let h := s.hart
  if h.run ≠ .running || h.dAct || s.releasing then none
  else
    match (List.range 4).find? s.recalled with
    | none => none
    | some n =>
        let doff := (s.tileAt n).doff
        some ((s.withdraw s.cur).onH fun h => { h.setVstart 0 with
          waiting := none, tdpc := pcWord h.pc 0, dSvst := h.laterVstart, dAct := true
          dSlot := BitVec.ofNat 2 n, dIcnt := 0, pc := doff })

/-- The refusal delay of a slot ends (R338). -/
def execRefusalDelayEnd (core slot : Nat) (s : State) : Out :=
  due s (match ((s.coreAt core).tile slot).delay with
    | some e => if s.pkg.time < e then none
        else some (s.modCore core fun c => c.setTile slot { c.tile slot with delay := none })
    | none => none)

/-- Refusals of hart h leave the window of 1,000,000 ticks (R341, R343). -/
def execRefusalWindowExpiry (h : Nat) (s : State) : Out :=
  due s (if ((s.hartAt h).refusals.any fun t => !((s.pkg.time - t).toNat < Config.refusalWindow : Bool)) then
      some (s.modHart h (Hart.forget s.pkg.time)) else none)

end Sys2Proof.Machine
end

