-- ==== Sys2Proof/Machine/Ports.lean ====
section
/-! DEFINITION. The port instructions push, pop, peek, qlen and cpwp (R274 to R283) and zloop (R284 to R287). -/

namespace Sys2Proof.Machine

/-! ## Engines (R274) -/

/-- The engine that a pair is bound to. -/
inductive Engine where
  | copy (channel : Nat)
  | indirect
  | reduction
  | attention (stack : Nat)
  | collective
deriving DecidableEq, Repr

/-- The engine of a target code for a hart of a rank; none is unbound (R274). -/
def engineOf (t : Byte) (rank : Nat) : Option Engine :=
  let n := t.toNat
  if n = 0 then none
  else if n ≤ 4 then some (.copy (n - 1))
  else if n = 5 then some (.copy (rank % 4))
  else if 0x10 ≤ n && n < 0x50 then some .indirect
  else if 0x50 ≤ n && n < 0x60 then some .reduction
  else if 0x60 ≤ n && n < 0xE0 then some (.attention ((n - 0x60) / 8))
  else if n = 0xE0 then some .collective else none

/-- The engine of pair k of a hart. -/
def Hart.engine (h : Hart) (k : Nat) : Option Engine := engineOf (byteOf h.eport k) h.rank.toNat

/-- A copy channel. -/
def isCopy : Engine → Bool
  | .copy _ => true
  | _ => false

/-- The engine accepts an operation code (R289, R292, R294, R296, R300). -/
def Engine.accepts (e : Engine) (opc : Nat) : Bool :=
  match e with
  | .copy _ => opc == 0x01
  | .indirect => opc == 0x10 || opc == 0x11
  | .reduction => opc == 0x20
  | .attention _ => opc == 0x30
  | .collective => opc == 0x40

/-- OPC of a header (R275). -/
def opcOf (w : Word) : Nat := (byteOf w 1).toNat
/-- LEN of a header (R275). -/
def lenOf (w : Word) : Nat := (byteOf w 0).toNat

/-- Engine Port Fault of a port operand (R283). -/
def portFault (code port : Nat) (s : State) : State := s.takeTrap ⟨.enginePort, BitVec.ofNat 64 (code + 256 * port)⟩

/-- Words in a command port: undelivered, and delivered but not taken (R276). -/
def Port.used (p : Port) : Nat :=
  p.part.length + ((p.cmds.filter fun c => !c.begun).map fun c => c.words.length).sum

/-! ## push (R280) -/

/-- Deliver a command of pair k: its KIND 5 record comes first (R423, R426). -/
def deliverCmd (k : Nat) (words : List Word) (seq : BitVec 32) (s : State) : State :=
  let h := s.hart
  let cmd : Cmd :=
    ⟨words, seq, h.pc, h.level, false, 0, 0, none, false, [], [], none, false, h.vseq, [],
      byteOf h.eport k, 0, [], 0, s.coreNo, none⟩
  let w := words.headD 0
  let writes := match h.engine k with | some e => e.accepts (opcOf w) | none => false
  let s := if writes && s.logged then
      s.append ⟨0, 0, 0, 5, 0, pcWord h.pc 0, at_ 62 (1 : BitVec 2) ||| seq.setWidth 64, h.wcur⟩ else s
  s.onH fun h => h.modPort k fun p =>
    { p with part := [], cmds := p.cmds ++ [cmd], issued := seq :: p.issued }

/-- Append a word to a command port (R280): none while it is full, and while the lining's next slot lies at a stopped home slice
(R463). -/
def pushWord (k : Nat) (x : Word) (s : State) : Option (Except Trap (BitVec 32 × State)) :=
  let h := s.hart
  let p := h.port k
  let first := p.part.isEmpty
  let len := lenOf (if first then x else p.part.headD 0)
  if first && (len = 0 || 16 < len) then
    some (.error ⟨.enginePort, BitVec.ofNat 64 (2 + 256 * k)⟩)
  else if Config.commandPortWords ≤ p.used || s.appendHeld 1 then none
  else
    let seq := if first then h.eseq else p.pseq
    let words := p.part ++ [x]
    let s' := s.onH fun h =>
      { h.modPort k (fun p => { p with part := words, pseq := seq }) with eseq := if first then h.eseq + 1 else h.eseq }
    if words.length < len then some (.ok (seq, s'))
    else if (match h.engine k with | some e => e.accepts (opcOf (words.headD 0)) | none => false) && s.noRoom 1 then
      some (.error ⟨.liningFull, 0⟩)
    else some (.ok (seq, deliverCmd k words seq s'))

/-- push (R280, R283). -/
def execPush (c : Ctl) (d : Operand) (k : BitVec 3) (b : Operand) (s : State) : Out :=
  guarded c s fun s =>
    let i := Instr.push c d k b
    if (s.hart.engine k.toNat).isNone then portFault 1 k.toNat s
    else
      withSources i b .none (fun x _ s' =>
        match pushWord k.toNat x s' with
        | none => s.await i
        | some (.error t) => s.takeTrap t
        | some (.ok (seq, s'')) => deliver i s d (seq.setWidth 64) s'') s

/-! ## pop, peek, qlen and cpwp (R281, R282) -/

/-- The oldest result of pair k, a fault, or a wait (R281, R283). -/
def withResult (i : Instr) (k : Nat) (f : Word → List Word → State → State) (s : State) : State :=
  match (s.hart.port k).results with
  | [] => if (s.hart.engine k).isNone then portFault 1 (8 + k) s else s.await i
  | x :: t => f x t s

/-- pop (R281). -/
def execPop (c : Ctl) (d : Operand) (k : BitVec 3) (s : State) : Out :=
  guarded c s <| withResult (.pop c d k) k.toNat fun x t s =>
    deliver (.pop c d k) s d x (s.onH (Hart.modPort k.toNat fun p => { p with results := t }))

/-- peek (R281). -/
def execPeek (c : Ctl) (d : Operand) (k : BitVec 3) (s : State) : Out :=
  guarded c s <| withResult (.peek c d k) k.toNat fun x _ s => deliver (.peek c d k) s d x s

/-- qlen (R281). -/
def execQlen (c : Ctl) (d : Operand) (port : BitVec 4) (s : State) : Out :=
  guarded c s fun s =>
    let k := port.toNat % 8
    let p := s.hart.port k
    let n := if (s.hart.engine k).isNone then 0
      else if port.toNat < 8 then Config.commandPortWords - p.used else p.results.length
    deliver (.qlen c d port) s d (BitVec.ofNat 64 n) s

/-- The write pointer that cpwp reads (R282). DESIGN CHOICE (log 104): of a copy that failed, the bytes written. -/
def Port.pointer (p : Port) (seq : BitVec 32) : Word :=
  match p.cmds.find? fun c => c.seq = seq && (c.outcome.isNone || p.past.all fun q => q.1 ≠ seq) with
  | some c =>
      if !c.begun then 0
      else if c.outcome.isSome && !(p.issued.take 16).contains seq then BitVec.allOnes 64
      else BitVec.ofNat 64 c.wp
  | none =>
      match p.past.find? fun q => q.1 = seq with
      | some q => if (p.issued.take 16).contains seq then BitVec.ofNat 64 q.2 else BitVec.allOnes 64
      | none => 0

/-- cpwp (R282, R283). -/
def execCpwp (c : Ctl) (d : Operand) (k : BitVec 3) (b : Operand) (s : State) : Out :=
  guarded c s fun s =>
    let i := Instr.cpwp c d k b
    match s.hart.engine k.toNat with
    | none => portFault 1 k.toNat s
    | some e =>
        if !isCopy e then portFault 3 k.toNat s
        else withSources i b .none (fun x _ s' => deliver i s d ((s'.hart.port k.toNat).pointer (x.setWidth 32)) s') s

/-! ## zloop (R284 to R287) -/

/-- A block of memory that an instruction reads as one access at an aligned address (R198): n bytes at va, a
multiple of al. No device page holds it (R187). -/
def loadBlock (va : Word) (n al : Nat) (s : State) : Except Trap (List Byte × State) :=
  if canonical va && canonical (va + BitVec.ofNat 64 (n - 1)) && va.toNat % al ≠ 0 then .error ⟨.misaligned, va⟩
  else s.load va n true false

/-- A nest descriptor that R287 accepts (code 1). -/
def nestOk (d : List Byte) : Bool :=
  let w := leNat (d.take 4)
  let nd := w % 8
  let nr := w / 8 % 8
  let regs := (d.drop 4).take 4
  1 ≤ nd && nd ≤ 6 && nr ≤ 4 && w / 64 == 0
    && (regs.take nr).all (fun r => 1 ≤ r.toNat && r.toNat ≤ 63) && (regs.drop nr).all (fun r => r == 0)
    && decide (regs.take nr).Nodup

/-- The loop state of a descriptor at its first tuple (R285). -/
def nestOf (d : List Byte) (h : Hart) (start stop : Addr) : ZLoop :=
  let w := leNat (d.take 4)
  let nd := w % 8
  let nr := w / 8 % 8
  let regs := ((d.drop 4).take nr).map BitVec.toNat
  let u32 := fun (o : Nat) => leNat ((d.drop o).take 4)
  { regs := regs
    base := regs.map h.rs
    counts := (List.range nd).map fun k => u32 (8 + 4 * k)
    strides := (List.range nr).map fun i => (List.range nd).map fun k => signedOf 32 (u32 (32 + 24 * i + 4 * k))
    idx := List.replicate nd 0
    start := start
    stop := stop }

/-- The next tuple, dimension 0 fastest; none after the last (R285). -/
def nextTuple : List Nat → List Nat → Option (List Nat)
  | [], _ | _, [] => none
  | i :: is, n :: ns => if i + 1 < n then some ((i + 1) :: is) else (nextTuple is ns).map (0 :: ·)

/-- Set the stepped registers for a tuple (R285). -/
def ZLoop.setRegs (z : ZLoop) (h : Hart) : Hart :=
  (z.regs.zip (z.base.zip z.strides)).foldl (fun (h : Hart) p =>
    h.ws p.1 (p.2.1 + BitVec.ofInt 64 ((z.idx.zip p.2.2).map fun q => (q.1 : Int) * q.2).sum)) h

/-- zloop (R285, R287). It waits for queued writes of the registers that it steps, which it reads (R73). DESIGN CHOICE (log
97): a hart has one loop state, which a zloop of its trap handler replaces. -/
def execZloop (c : Ctl) (a : BitVec 6) (len1 : BitVec 4) (s : State) : Out :=
  guarded c s <| unlessDoff fun s =>
    let va := s.hart.rs a.toNat
    match loadBlock va 128 64 s with
    | .error t =>
        s.takeTrap (if t.cause = .remote || t.cause = .dataError then { t with tval := va } else t)
    | .ok (d, s') =>
        if !nestOk d then s.takeTrap ⟨.loopNest, 1⟩
        else
          let start := s.hart.pc + 12
          let stop := start + 12 * (len1.setWidth 57 + 1)
          let z := nestOf d s'.hart start stop
          if z.counts.contains 0 then s'.jump stop
          else if !s.hart.vqf && s.hart.vcq.any fun e => meet (writesLeft e) (z.regs.map Res.s) then
            s'.await (.zloop c a len1)
          else (s'.onH fun h => { z.setRegs h with zloop := some z }).advance

/-- Queued instructions that write registers which the hart has set since lose those writes (R73). -/
def Hart.overtake (rs : List Nat) (h : Hart) : Hart :=
  if h.idle then h
  else { h with
    vcq := h.vcq.map fun (e : VEntry) => { e with env := { e.env with dead := e.env.dead ++ rs } } }

/-- After the last instruction of a pass: the next tuple, or the end of the loop (R285). -/
def State.loopBack (s : State) : State :=
  match s.hart.zloop with
  | none => s
  | some z =>
      if s.hart.pc ≠ z.stop then s
      else
        match nextTuple z.idx z.counts with
        | none => s.onH fun h => { h with zloop := none }
        | some t =>
            let z := { z with idx := t }
            s.onH fun h => { (z.setRegs h).overtake z.regs with zloop := some z, pc := z.start }

/-- An instruction that no body of a zloop holds, by its OP (R287). -/
def nestForbids (op : Nat) : Bool :=
  (0x01 ≤ op && op ≤ 0x0F) || op == 0xC5 || op == 0xC6 || (0xD1 ≤ op && op ≤ 0xDA) || (0xE0 ≤ op && op ≤ 0xE4)
    || op == 0xE6

/-- An address lies in the body of the loop that runs. -/
def Hart.inNest (h : Hart) (a : Addr) : Bool :=
  match h.zloop with
  | none => false
  | some z => decide (z.start ≤ a) && decide (a < z.stop)

end Sys2Proof.Machine
end

