-- ==== Sys2Proof/Machine/Engines.lean ====
section
/-! DEFINITION. The asynchronous engines: copy, indirect streams, base-die reduction, bank attention and
collectives, and the results that they append (R274 to R278, R288 to R302). -/

namespace Sys2Proof.Machine

/-! ## The context that an event names -/

/-- Hart numbers of the package's slots. -/
def slotCount : Nat := Config.hartsPerCore * Config.cores

/-- A context with the package hart number of its slot: h is that number, or above the slots an even offset
names a saved context and an odd one a context that has halted with work (R277, R403). -/
def ctxOf (s : State) (h : Nat) : Option (Nat × Hart) :=
  if h < slotCount then
    let x := s.hartAt h
    if x.run = .empty then none else some (h, x)
  else if (h - slotCount) % 2 = 0 then s.saved[(h - slotCount) / 2]?.map fun c => (c.slotNo, c.hart)
  else s.orphans[(h - slotCount) / 2]?

/-- Change that context. -/
def modCtx (h : Nat) (f : Hart → Hart) (s : State) : State :=
  if h < slotCount then s.modHart h f
  else if (h - slotCount) % 2 = 0 then
    { s with saved := s.saved.modify ((h - slotCount) / 2) fun (c : Saved) => { c with hart := f c.hart } }
  else { s with orphans := s.orphans.modify ((h - slotCount) / 2) fun (p : Nat × Hart) => (p.1, f p.2) }

/-- Change the n-th command of a list that satisfies a test. -/
def modNth (p : Cmd → Bool) (f : Cmd → Cmd) : Nat → List Cmd → List Cmd
  | _, [] => []
  | n, c :: cs =>
      if !p c then c :: modNth p f n cs
      else match n with
        | 0 => f c :: cs
        | n + 1 => c :: modNth p f n cs

/-- A command whose outcome is not known. -/
def Cmd.live (c : Cmd) : Bool := c.outcome.isNone

/-- Which command of those that satisfy a test the engine goes on with. -/
def Port.workOn (p : Port) (ok : Cmd → Bool) : Nat := if p.pick < (p.cmds.filter ok).length then p.pick else 0

/-- The command that the engine goes on with, among those that satisfy a test. -/
def Port.job (p : Port) (ok : Cmd → Bool) : Option Cmd := (p.cmds.filter ok)[p.workOn ok]?

/-- Every event of the command has been performed: its outcome is known and its bytes are counted (R276, R291). -/
def Cmd.over (c : Cmd) : Bool := c.outcome.isSome && !State.uncounted c

/-- Number the commands that have completed, in the order of their completion (R276, R277). -/
def Port.settle (p : Port) : Port :=
  { p with
    cmds := p.cmds.map fun (c : Cmd) => if c.over && c.fin.isNone then { c with fin := some p.fins } else c
    fins := p.fins + 1 }

/-- Change the command, among those that satisfy a test, that the engine of pair k goes on with. -/
def modJob (ok : Cmd → Bool) (h k : Nat) (f : Cmd → Cmd) (s : State) : State :=
  modCtx h (Hart.modPort k fun p => Port.settle { p with cmds := modNth ok f (p.workOn ok) p.cmds }) s

/-- Change the earliest command of pair k that has bytes to count (R291). -/
def modOwing (h k : Nat) (f : Cmd → Cmd) (s : State) : State :=
  modCtx h (Hart.modPort k fun p => Port.settle { p with cmds := modNth State.uncounted f 0 p.cmds }) s

/-- Change the command that the engine of pair k works on. -/
def modCmd (h k : Nat) (f : Cmd → Cmd) (s : State) : State := modJob Cmd.live h k f s

/-- The command's outcome: its STATUS and AUX (R276). -/
def finish (h k : Nat) (status aux : Byte) (s : State) : State :=
  modCmd h k (fun c => { c with begun := true, outcome := some (status, aux) }) s

/-- Bits of word i of a command. -/
def Cmd.field (c : Cmd) (i lo w : Nat) : Nat := (c.words.getD i 0).toNat / 2 ^ lo % 2 ^ w

/-- Dimensions of a copy command. -/
def Cmd.nd (c : Cmd) : Nat := c.field 0 32 3

/-- Counts of a copy command, innermost first. -/
def Cmd.counts (c : Cmd) : List Nat := (List.range c.nd).map fun d => c.field (if d = 0 then 3 else 2 * d + 2) 0 32

/-- Bytes of a copy command. -/
def Cmd.total (c : Cmd) : Nat := c.counts.foldl (· * ·) 1

/-- Every access of a command has been performed: its outcome is known, or it is a copy that has written all of its bytes
(R290), and its barrier has been counted down for all of them, which are accesses of its channel too (R264, R291). -/
def Cmd.performed (c : Cmd) : Bool :=
  c.over || (c.begun && c.field 0 8 8 == 0x01 && decide (c.total ≤ c.wp) && !State.uncounted c)

/-- The commands of a port that were delivered before the n-th of those whose outcome is not known. -/
def beforeLive : Nat → List Cmd → List Cmd
  | _, [] => []
  | n, c :: cs =>
      if !c.live then c :: beforeLive n cs
      else match n with
        | 0 => []
        | n + 1 => c :: beforeLive n cs

/-! ## Checked accesses of an engine (R278) -/

/-- What an access of an engine meets. -/
inductive Ans (α : Type) where
  | ok (a : α)
  /-- it waits for the page (R278) -/
  | stall
  /-- it ends the task -/
  | stop
  | bad (status : Byte)

/-- Go on with the result of an access, if there is one. -/
def Ans.bind {α β : Type} (x : Ans α) (f : α → Ans β) : Ans β :=
  match x with
  | .ok a => f a
  | .stall => .stall
  | .stop => .stop
  | .bad e => .bad e

/-- A command at work: its context's number, its pair, and its accessor. -/
structure Job where
  h     : Nat
  k     : Nat
  agent : Agent
  /-- a copy channel, which shares its core's stash (R197) -/
  local_ : Bool
  cmd   : Cmd

/-- A data address lies in a range of the launch of a kind. -/
def Agent.inRange (a : Agent) (elastic : Bool) (va : Word) : Bool :=
  match a.ranges with
  | none => false
  | some rs => inRanges (rs.filter fun r => r.elastic == elastic) va

/-- The outcome of a failed check of an engine's access (R276, R278, R368). DESIGN CHOICE (log 128): an untranslated page
outside every declared range, as in a context without a launch, gives STATUS 2. -/
def Job.refusal (j : Job) (t : Trap) : Ans α :=
  match t.cause with
  | .held => .stall
  | .range => .stop
  | .dataError => .bad 3
  | .translation =>
      if j.agent.inRange false t.tval then .stop else if j.agent.inRange true t.tval then .stall else .bad 2
  | _ => .bad 2

/-- Check an access of an engine. -/
def Job.check (j : Job) (va : Word) (n : Nat) (kind : Kind) (al : Bool) (s : State) : Ans Acc :=
  match s.check j.agent ⟨va, n, kind, true, al⟩ with
  | .ok acc => .ok acc
  | .error t => j.refusal t

/-- The stashes at an engine's access to private pages (R187, R195): a copy channel acts as its core, and any other
engine leaves a dirty line where it is. -/
def Job.stash (j : Job) (acc : Acc) (store : Bool) (s : State) : State :=
  if j.local_ then
    acc.chunks.foldl (fun s c => if store then s.soilChunk j.agent.holder c [] else s.touch j.agent.holder c) (s.keep acc.fills)
  else s.keep acc.fills

/-- Perform a read of an engine. -/
def Job.read (j : Job) (va : Word) (n : Nat) (s : State) : Ans (List Byte × State) :=
  (j.check va n .load false s).bind fun acc => .ok (s.bytesAt acc, j.stash acc false s)

/-- Perform the parts of a write: the tag is all ones, and no record is made (R423, R425). A copy channel writes private
pages through the lines of its core's stash (R197). -/
def putChunks (local_ : Bool) (launch : Option Word) : List Chunk → List Byte → State → State
  | [], _, s => s
  | c :: cs, bs, s =>
      let w := bs.take c.n
      putChunks local_ launch cs (bs.drop c.n)
        ((if local_ && c.attr = 0 then s.write c.pa w (BitVec.allOnes 28) else s.writeDev c.pa w).markFrame launch c.pa)

/-- Perform a checked write of an engine. -/
def Job.put (j : Job) (acc : Acc) (bs : List Byte) (s : State) : State :=
  putChunks j.local_ j.agent.launch acc.chunks bs (j.stash acc true s)

/-- Perform a write of an engine: the state, and the ranges that it wrote. -/
def Job.write (j : Job) (va : Word) (bs : List Byte) (al : Bool) (s : State) : Ans (List (Nat × Nat) × State) :=
  (j.check va bs.length .store al s).bind fun acc => .ok (s.extents acc, j.put acc bs s)

/-- The state at the end of a stopped command: its launch ends with STATUS 2 (R278). -/
def Job.stopTask (j : Job) (s : State) : State :=
  match j.agent.launch with
  | some q => s.stopLaunch q 2
  | none => s

/-- Conclude a command that ran as a whole: none while a page is missing. -/
def Job.conclude (j : Job) (s : State) : Ans (Byte × Byte × State) → Option State
  | .ok (status, aux, s') => some (finish j.h j.k status aux s')
  | .bad e => some (finish j.h j.k e 0 s)
  | .stop => some (j.stopTask s)
  | .stall => none

/-- Read a list of words of n bytes each. -/
def Job.readMany (j : Job) (n : Nat) : List Word → State → Ans (List Nat × State)
  | [], s => .ok ([], s)
  | a :: as, s =>
      (j.read a n s).bind fun (b, s) => (j.readMany n as s).bind fun (r, s) => .ok (leNat b :: r, s)

/-! ## Taking a command (R227, R275) -/

/-- The queued instructions that precede a command's accesses have performed (R227). DESIGN CHOICE (log 101): the entries of a
store stream that are still to be written do not count as earlier than the push. -/
def Hart.released (h : Hart) (after : Nat) : Bool :=
  h.vcq.all (fun e => !(ordersMem e.instr && decide (e.env.seq < after)))
    && match h.episode with | some e => decide (after ≤ e.env.seq) | none => true

/-- The translation cache of an engine, for a hart of core c and a target code (R384). -/
def Engine.cache (e : Engine) (c : Nat) (t : Byte) : Cache :=
  match e with
  | .copy _ => .core c
  | .indirect => .base ((t.toNat - 0x10) / 4)
  | .reduction => .base (t.toNat - 0x50)
  | .attention _ => .attention (t.toNat - 0x60)
  | .collective => .collective (c / Config.coresPerDie)

/-- The zone of an engine is stopped, for a hart of core c and a target code (R458, R463): a copy channel is in its core's
zone, and a base-die engine in its stack's. DESIGN CHOICE (log 119): a collective engine is in no zone that stops. -/
def Engine.stopped (e : Engine) (c : Nat) (t : Byte) (s : State) : Bool :=
  match e with
  | .copy _ => s.zoneOff (State.zoneOfCore c)
  | .indirect => s.zoneOff (64 + (t.toNat - 0x10) / 4)
  | .reduction => s.zoneOff (64 + (t.toNat - 0x50))
  | .attention n => s.zoneOff (64 + n)
  | .collective => false

/-- The engine of a command is in a stopped zone. -/
def Cmd.stopped (c : Cmd) (rank : Nat) (s : State) : Bool :=
  match engineOf c.tgt rank with
  | none => false
  | some e => e.stopped c.core c.tgt s

/-- The commands before the one that the engine goes on with have been taken and have performed their accesses, which
precede its own (R219, R221), and it has been taken or can be: the writes before its push have performed (R227, R275). -/
def Port.mayWork (p : Port) (x : Hart) (c : Cmd) : Bool :=
  (beforeLive (p.workOn Cmd.live) p.cmds).all Cmd.performed && (c.begun || x.released c.after)

/-- The command that the engine of pair k works on, and its accessor: the pushing context's, at the core of the push (R274,
R278); none while the engine's zone is stopped (R463). -/
def jobAt (h k : Nat) (s : State) : Option (Engine × Job) :=
  match ctxOf s h with
  | none => none
  | some (_, x) =>
      match (x.port k).job Cmd.live with
      | none => none
      | some c =>
          match engineOf c.tgt x.rank.toNat with
          | none => none
          | some e =>
              if (x.port k).mayWork x c && !e.stopped c.core c.tgt s then
                some (e, ⟨h, k, ⟨x.pid, c.level, c.core, some (e.cache c.core c.tgt), x.cid, x.launch,
                  (x.launch.bind s.launchAt).map (·.ranges)⟩, isCopy e, c⟩)
              else none

/-- The engine of pair k takes its commands, in order, up to the n-th that is at work, and goes on with that one (R275), once
every access of those before it has been performed (R219, R221). -/
def takeCommands (h k n : Nat) (s : State) : Option State :=
  match ctxOf s h with
  | none => none
  | some (_, x) =>
      let live := ((x.port k).cmds.filter Cmd.live).take (n + 1)
      if live.length ≤ n || live.any (Cmd.stopped · x.rank.toNat s) || !live.all (fun c => c.begun || x.released c.after)
          || !(beforeLive n (x.port k).cmds).all Cmd.performed then none
      else
        let take := fun (cs : List Cmd) => (List.range (n + 1)).foldl (fun cs i =>
          modNth Cmd.live (fun c => { c with begun := true }) i cs) cs
        some (modCtx h (Hart.modPort k fun p => { p with pick := n, cmds := take p.cmds }) s)

/-- An event of an engine: a command that the engine does not accept, or that is malformed, ends with STATUS 1
and nothing performed (R276); otherwise run says what it does. -/
def engineEvent (h k opc : Nat) (is : Engine → Bool) (wellFormed : Cmd → Bool) (run : Job → State → Option State)
    (s : State) : Out :=
  due s (match jobAt h k s with
    | none => none
    | some (e, j) =>
        if !is e then none
        else if !e.accepts (opcOf (j.cmd.words.headD 0)) then some (finish h k 1 0 s)
        else if opcOf (j.cmd.words.headD 0) ≠ opc then none
        else if !wellFormed j.cmd then some (finish h k 1 0 s)
        else run j s)

/-! ## The copy engine (R289 to R291) -/

/-- BAR of a copy command. -/
def Cmd.bar (c : Cmd) : Nat := c.field 0 36 16
/-- BEN of a copy command. -/
def Cmd.ben (c : Cmd) : Bool := c.field 0 35 1 = 1

/-- A copy command is well formed (R289, R291). -/
def copyOk (c : Cmd) : Bool :=
  c.field 0 52 12 == 0 && decide (1 ≤ c.nd) && decide (c.nd ≤ 6) && c.words.length == 4 + 2 * (c.nd - 1)
    && c.field 3 32 32 == 0 && ((List.range (c.nd - 1)).all fun d => c.field (2 * d + 4) 32 32 == 0)
    && !(c.ben && decide (96 < c.bar / 512))

/-- The tuple of a position in nest order (R290). -/
def tupleAt : List Nat → Nat → List Nat
  | [], _ => []
  | n :: ns, x => x % n :: tupleAt ns (x / n)

/-- Source and destination addresses of byte x of a copy (R290). -/
def Cmd.addrs (c : Cmd) (x : Nat) : Word × Word :=
  match tupleAt c.counts x with
  | [] => (0, 0)
  | b :: is =>
      let sum := fun (lo : Nat) => ((is.zipIdx).map fun p => (p.1 : Int) * signedOf 32 (c.field (2 * p.2 + 5) lo 32)).sum
      (c.words.getD 1 0 + BitVec.ofInt 64 (b + sum 0), c.words.getD 2 0 + BitVec.ofInt 64 (b + sum 32))

/-- Add ranges that were written; a range that goes on where the last one ended extends it. -/
def addExt (ext new : List (Nat × Nat)) : List (Nat × Nat) :=
  new.foldl (fun l w =>
    match l with
    | x :: t => if x.1 + x.2 = w.1 then (x.1, x.2 + w.2) :: t else w :: l
    | [] => [w]) ext

/-- Clear the poison of the lines that new writes reach and that all writes of the command cover (R436). -/
def coverNew (ext new : List (Nat × Nat)) (s : State) : State :=
  if s.poison = [] then s
  else { s with poison := s.poison.filter fun line =>
    !(new.any (fun w => decide (w.1 / 128 ≤ line) && decide (line ≤ (w.1 + w.2 - 1) / 128)) && State.coveredLine ext line) }

/-- Copy one byte (R290): an outcome, or the state after it. -/
def copyByte (j : Job) (c : Cmd) (s : State) : Ans (Cmd × State) :=
  let (so, dst) := c.addrs c.wp
  (j.read so 1 s).bind fun (bs, s) => (j.write dst bs false s).bind fun (w, s) =>
    let ext := addExt c.ext w
    .ok ({ c with begun := true, wp := c.wp + 1, ext := ext }, coverNew ext w s)

/-- Copy at most n bytes in nest order. -/
def copyBytes (j : Job) : Nat → Cmd → State → Option State
  | n, c, s =>
      if c.total ≤ c.wp then some (modCmd j.h j.k (fun _ => { c with begun := true, outcome := some (0, 0) }) s)
      else
        match n with
        | 0 => if c.wp = j.cmd.wp then none else some (modCmd j.h j.k (fun _ => c) s)
        | n + 1 =>
            match copyByte j c s with
            | .ok (c, s) => copyBytes j n c s
            | .stall => if c.wp = j.cmd.wp then none else some (modCmd j.h j.k (fun _ => c) s)
            | .stop => some (j.stopTask s)
            | .bad e => some (modCmd j.h j.k (fun _ => { c with begun := true, outcome := some (e, 0) }) s)

/-- The copy channel copies n bytes (R290). -/
def execCopy (h k n : Nat) (s : State) : Out :=
  engineEvent h k 0x01 isCopy copyOk (fun j s => copyBytes j n j.cmd s) s

/-- The copy channel counts n bytes of its earliest command that owes them against the barrier that BAR names (R219, R261,
R264, R291): core field 0 means the core of the hart that pushed the command. -/
def execCopyDecrement (h k n : Nat) (s : State) : Out :=
  due s (match ctxOf s h with
    | none => none
    | some (_, x) =>
        match (x.port k).cmds.find? State.uncounted with
        | none => none
        | some c =>
            if n = 0 || 4096 < n || c.wp < c.counted + n || !copyOk c || c.stopped x.rank.toNat s then none
            else
              let f := c.bar / 512
              let co := if f = 0 then c.core else c.core / Config.coresPerCluster * Config.coresPerCluster + (f - 1)
              let b := s.barrier co (c.bar % 512)
              let mark := fun (bad : Bool) (s : State) =>
                modOwing h k (fun c => { c with counted := c.counted + n, badBar := c.badBar || bad }) s
              some (match pendAdd b (-(n : Int)) with
                | none => mark true s
                | some p => mark false (s.setBarrier co (c.bar % 512) { b with pend := p }.complete)))

/-! ## Results (R276, R277) -/

/-- The result element of a command (R276). -/
def Cmd.result (c : Cmd) (status aux : Byte) : Word :=
  (c.words.headD 0).extractLsb' 16 16 ++ status ++ aux ++ c.seq

/-- The command of a list that has completed first. -/
def firstOver : List Cmd → Option Cmd
  | [] => none
  | c :: cs =>
      match c.fin, firstOver cs with
      | none, r => r
      | some _, none => some c
      | some n, some d => if n ≤ d.fin.getD 0 then some c else some d

/-- Append the result of the command that has completed first, where the result port has room (R276, R277). DESIGN CHOICE
(log 121): a copy whose decrement was out of range reports STATUS 4 in place of 0 only. -/
def Port.appendOne (p : Port) : Option Port :=
  match firstOver p.cmds with
  | none => none
  | some c =>
      match c.outcome with
      | none => none
      | some (status, aux) =>
          if Config.resultPortElements ≤ p.results.length then none
          else
            let status := if status = 0 && c.badBar then 4 else status
            some { p with
              cmds := p.cmds.filter fun d => d.fin ≠ c.fin || c.fin.isNone
              results := p.results ++ [c.result status aux]
              past := (c.seq, c.wp) :: p.past }

/-- An engine appends a result: the context is on a slot (R277), and the engine's zone runs (R463). -/
def execResultAppend (h k : Nat) (s : State) : Out :=
  due s (match ctxOf s h with
    | none => none
    | some (_, x) =>
        if slotCount ≤ h || (firstOver (x.port k).cmds).any (Cmd.stopped · x.rank.toNat s) then none
        else (x.port k).appendOne.map fun p => modCtx h (Hart.modPort k fun _ => p) s)

/-- Append results while the port has room. -/
def Port.appendAll : Nat → Port → Port
  | 0, p => p
  | n + 1, p =>
      match p.appendOne with
      | none => p
      | some p => appendAll n p

/-- A restored context receives the results of the commands that completed while it was saved (R277). -/
def Hart.appendResults (h : Hart) : Hart :=
  { h with ports := h.ports.map fun (p : Nat × Port) => (p.1, p.2.appendAll Config.resultPortElements) }

/-! ## Indirect stream engines (R292, R293) -/

/-- An indirect stream command is well formed (R292). -/
def indirectOk (c : Cmd) : Bool :=
  c.words.length == 8 && c.field 0 38 26 == 0 && (c.field 0 36 2 == 1 || c.field 0 36 2 == 2)
    && c.field 2 32 32 == 0 && c.field 5 32 32 == 0 && c.words.getD 7 0 == 0

/-- Read an index entry (R293). -/
def readIndex (j : Job) (base : Word) (i : Int) (s : State) : Ans (Int × State) :=
  let n : Nat := if j.cmd.field 0 35 1 = 1 then 8 else 4
  (j.read (base + BitVec.ofInt 64 (i * (n : Int))) n s).bind fun (bs, s) =>
    .ok (if j.cmd.field 0 34 1 = 1 then signedOf (8 * n) (leNat bs) else (leNat bs : Int), s)

/-- The effective address of element i (R293). -/
def indirectAddr (j : Job) (i : Nat) (s : State) : Ans (Word × State) :=
  let c := j.cmd
  let chase := (readIndex j (c.words.getD 1 0) i s).bind fun (x, s) =>
    if c.field 0 36 2 = 2 then readIndex j (c.words.getD 3 0) x s else .ok (x, s)
  chase.bind fun (x, s) => .ok (c.words.getD 4 0 + BitVec.ofInt 64 (x * (c.field 5 0 32 : Nat)), s)

/-- Move element i (R293). -/
def indirectElem (j : Job) (scatter : Bool) (i : Nat) (s : State) : Ans (List (Nat × Nat) × State) :=
  let c := j.cmd
  let n := 2 ^ c.field 0 32 2
  let lin := c.words.getD 6 0 + BitVec.ofNat 64 (i * n)
  (indirectAddr j i s).bind fun (ea, s) =>
    (j.read (if scatter then lin else ea) n s).bind fun (bs, s) => j.write (if scatter then ea else lin) bs false s

/-- Move the elements from i on; a refused element leaves its target (R293). DESIGN CHOICE (log 105): the elements are performed
in increasing order, and the STATUS is that of the first that fails. -/
def indirectElems (j : Job) (scatter : Bool) : Nat → Nat → Byte → List (Nat × Nat) → State → Option State
  | 0, _, status, ext, s => some (finish j.h j.k status 0 (s.cover ext))
  | n + 1, i, status, ext, s =>
      match indirectElem j scatter i s with
      | .ok (w, s) => indirectElems j scatter n (i + 1) status (addExt ext w) s
      | .bad e => indirectElems j scatter n (i + 1) (if status = 0 then e else status) ext s
      | .stop => some (j.stopTask s)
      | .stall => none

/-- An engine of the indirect streams. -/
def isIndirect (e : Engine) : Bool := e == .indirect

/-- An indirect stream engine gathers (R293). -/
def execGather (h k : Nat) (s : State) : Out :=
  engineEvent h k 0x10 isIndirect indirectOk (fun j s => indirectElems j false (j.cmd.field 2 0 32) 0 0 [] s) s

/-- An indirect stream engine scatters (R293). -/
def execScatter (h k : Nat) (s : State) : Out :=
  engineEvent h k 0x11 isIndirect indirectOk (fun j s => indirectElems j true (j.cmd.field 2 0 32) 0 0 [] s) s

/-! ## The base-die reduction engine (R294, R295) -/

/-- A reduction command is well formed (R294). -/
def reductionOk (c : Cmd) : Bool :=
  c.words.length == 6 && c.field 0 40 24 == 0 && c.field 0 33 3 == 0 && c.field 2 32 32 == 0

/-- The element format of a command's FMT bit. -/
def Cmd.fmt (c : Cmd) : Fmt := if c.field 0 32 1 = 0 then .f32 else .bf16

/-- Bytes of an element. -/
def Cmd.esize (c : Cmd) : Nat := if c.field 0 32 1 = 0 then 4 else 2

/-- The sum of one element over the buffers' elements: its bytes and flags (R295). DEDUCED (log 129): a lone NaN, which no node
combines, comes out canonical too. -/
def sumElem (c : Cmd) (xs : List Nat) : List Byte × Flags :=
  let (r, g) := pairTree (addBits c.fmt .rne) (negZero c.fmt) xs
  let (r, g') := redNaN c.fmt r
  (leBytes c.esize r, g ||| g')

/-- The sum of one element over the buffers (R295). -/
def reduceElem (j : Job) (bufs : List Word) (e : Nat) (s : State) : Ans (List Byte × Flags × State) :=
  let c := j.cmd
  (j.readMany c.esize (bufs.map fun b => b + BitVec.ofNat 64 (e * c.esize)) s).bind fun (xs, s) =>
    let (bs, g) := sumElem c xs
    .ok (bs, g, s)

/-- The bytes of an element of each buffer, each of them the initial one or the present one, as a free bit says. -/
def readEither (j : Job) (before : State) : List Word → State → Ans (List Nat × State)
  | [], s => .ok ([], s)
  | a :: as, s =>
      let n := j.cmd.esize
      (j.read a n before).bind fun (old, _) =>
        (j.read a n s).bind fun (now, s) =>
          let mix := (old.zip now).zipIdx.map fun p =>
            if (Config.freeByte (s.fresh + p.2)).getLsbD 0 then p.1.1 else p.1.2
          (readEither j before as { s with fresh := s.fresh + n }).bind fun (r, s) => .ok (leNat mix :: r, s)

/-- DST overlaps a buffer and does not equal it (R295). -/
def reduceOverlap (c : Cmd) (bufs : List Word) : Bool :=
  let n := c.field 2 0 32 * c.esize
  let d := (c.words.getD 3 0).toNat
  bufs.any fun b => b.toNat ≠ d && decide (b.toNat < d + n) && decide (d < b.toNat + n)

/-- Sum and write the elements of a list: the first failure's STATUS, the flags and the writes. Once one has failed, a free
bit says for each other element whether it is written. sum gives an element's bytes and flags (R295, log 14).
DESIGN CHOICE (log 106): the elements before the first failure are written. -/
def reduceElems (j : Job) (sum : Nat → State → Ans (List Byte × Flags × State)) :
    List Nat → Byte → Flags → List (Nat × Nat) → State → Ans (Byte × Flags × State)
  | [], status, g, ext, s => .ok (status, g, s.cover ext)
  | e :: es, status, g, ext, s =>
      let c := j.cmd
      match sum e s with
      | .ok (bs, g', s') =>
          let skip := status ≠ 0 && (Config.freeByte s'.fresh).getLsbD 0
          let s' := { s' with fresh := s'.fresh + 1 }
          if skip then reduceElems j sum es status (g ||| g') ext s'
          else
            match j.write (c.words.getD 3 0 + BitVec.ofNat 64 (e * c.esize)) bs false s' with
            | .ok (w, s') => reduceElems j sum es status (g ||| g') (addExt ext w) s'
            | .bad x => reduceElems j sum es (if status = 0 then x else status) (g ||| g') ext s'
            | .stop => .stop
            | .stall => .stall
      | .bad x => reduceElems j sum es (if status = 0 then x else status) g ext s
      | .stop => .stop
      | .stall => .stall

/-- The elements of a list in an order that free values give (log 14). -/
def freeOrder : Nat → List Nat → Nat → List Nat
  | 0, l, _ => l
  | n + 1, l, fresh =>
      let k := (Config.freeWord fresh).toNat % max l.length 1
      l.getD k 0 :: freeOrder n (l.eraseIdx k) (fresh + 1)

/-- Sum and write every element. DST that overlaps a buffer without being equal to it is unsupported: the elements are then
summed in a free order, each from bytes that are the initial ones or those that the engine has written (R295). -/
def reduceAll (j : Job) (bufs : List Word) (s : State) : Ans (Byte × Flags × State) :=
  let n := j.cmd.field 2 0 32
  if reduceOverlap j.cmd bufs then
    reduceElems j (fun e t =>
        (readEither j s (bufs.map fun b => b + BitVec.ofNat 64 (e * j.cmd.esize)) t).bind fun (xs, t) =>
          let (bs, g) := sumElem j.cmd xs
          .ok (bs, g, t))
      (freeOrder n (List.range n) s.fresh) 0 0 [] { s with fresh := s.fresh + n }
  else reduceElems j (reduceElem j bufs) (List.range n) 0 0 [] s

/-- Run a reduction (R295). DESIGN CHOICE (log 125): BLIST is read with N = 0 too. -/
def reduce (j : Job) (s : State) : Ans (Byte × Byte × State) :=
  let c := j.cmd
  let nb := c.field 0 36 4 + 1
  (j.readMany 8 ((List.range nb).map fun i => c.words.getD 1 0 + BitVec.ofNat 64 (8 * i)) s).bind fun (bufs, s) =>
    let bufs := bufs.map (BitVec.ofNat 64)
    (reduceAll j bufs s).bind fun (status, g, s) =>
      let aux := (g &&& 0x1F).setWidth 8
      if status ≠ 0 then .ok (status, aux, s)
      else
        match j.write (c.words.getD 4 0) (bytesOf 8 (c.words.getD 5 0)) true s with
        | .ok (w, s) => .ok (0, aux, s.cover w)
        | .bad e => .ok (e, aux, s)
        | .stop => .stop
        | .stall => .stall

/-- The base-die reduction engine runs a command (R295). -/
def execReduction (h k : Nat) (s : State) : Out :=
  engineEvent h k 0x20 (· == .reduction) reductionOk (fun j s => j.conclude s (reduce j s)) s

/-! ## Bank attention engines (R296 to R299) -/

/-- An attention command is well formed (R296). -/
def attentionOk (c : Cmd) : Bool :=
  c.words.length == 8 && c.field 0 36 28 == 0 && decide (1 ≤ c.field 0 32 4) && decide (c.field 0 32 4 ≤ 8)
    && c.field 7 32 32 == 0

/-- DB and the length of a row (R296). -/
def Cmd.db (c : Cmd) : Nat := c.field 0 32 4
/-- RB (R296). -/
def Cmd.rb (c : Cmd) : Nat := 64 * ((34 * c.db + 63) / 64)

/-- A row: its values, its E8M0 scales and its residue bytes. -/
structure Row where
  x : List Int
  e : List Nat
  r : List Nat

/-- The row of its bytes (R296). -/
def rowOfBytes (db : Nat) (bs : List Byte) : Row :=
  ⟨(bs.take (32 * db)).map fun b => b.toInt, ((bs.drop (32 * db)).take db).map BitVec.toNat,
    ((bs.drop (33 * db)).take db).map BitVec.toNat⟩

/-- Block b of a row's values. -/
def Row.block (r : Row) (b : Nat) : List Int := (r.x.drop (32 * b)).take 32

/-- Every residue byte is right (R296, R298). -/
def Row.residueOk (r : Row) (db : Nat) : Bool :=
  (List.range db).all fun b => (((r.block b).sum % 15).toNat == r.r.getD b 0)

/-- Physical bytes of the key-value pool (R299): each 64 KiB has an entry of the page list. fuel bounds the
entries. It waits for the home slices of a stopped zone (R463). DESIGN CHOICE (log 108): an address past
the last entry gives STATUS 2. -/
def poolBytes (j : Job) : Nat → Word → Nat → State → Ans (List Byte)
  | 0, _, _, _ => .ok []
  | fuel + 1, va, n, s =>
      let c := j.cmd
      let off := (va - c.words.getD 3 0).toNat
      let k := min n (65536 - off % 65536)
      if n = 0 then .ok []
      else if c.field 7 0 32 ≤ off / 65536 then .bad 2
      else
        (j.read (c.words.getD 6 0 + BitVec.ofNat 64 (8 * (off / 65536))) 8 s).bind fun (bs, _) =>
          let e := wordOf bs
          let pa := (e.extractLsb' 16 36).toNat * 65536 + off % 65536
          if !e.getLsbD 0 || e.extractLsb' 52 12 ≠ 0 || e.extractLsb' 1 15 ≠ 0 || !isDevice pa || !s.admits j.agent pa
          then .bad 2
          else if s.rangeHeld pa k then .stall
          else if s.poisoned pa k then .bad 3
          else (poolBytes j fuel (va + BitVec.ofNat 64 k) (n - k) s).bind fun r => .ok (s.bytes pa k ++ r)

/-- The score of a token before scaling; a scale of 255 is a NaN and sets NV (R48, R297). -/
def dotRows (db : Nat) (q k : Row) : Nat × Flags :=
  let ts := (List.range db).map fun b =>
    let s := (((q.block b).zip (k.block b)).map fun p => p.1 * p.2).sum
    let eq := q.e.getD b 0
    let ek := k.e.getD b 0
    if eq = 255 || ek = 255 then (canonNaN .f32, fNV)
    else roundTo .f32 .rne false (fpScale (fpInt s) ((eq : Int) + ek - 254))
  let (r, g) := pairTree (addBits .f32 .rne) (negZero .f32) (ts.map (·.1))
  (r, ts.foldl (fun g t => g ||| t.2) g)

/-- The running state of an attention: m, l, o as f32 patterns, and the flags (R297). -/
structure Soft where
  m : Nat
  l : Nat
  o : List Nat
  g : Flags

/-- Round an exact result to f32 with its flags. -/
def f32Of (x : Fp × Flags) : Nat × Flags :=
  let (r, g) := roundTo .f32 .rne false x.1
  (r, g ||| x.2)

/-- Est(f32, 2^(a - b)) of two f32 patterns (R122, R297). -/
def estExp2 (a b : Nat) : Nat × Flags :=
  let (d, g) := fpAdd false (fpOf .f32 a) (fpNeg (fpOf .f32 b))
  let (v, g') := fpExp2 d
  let (r, g'') := est .f32 v
  (r, g ||| g' ||| g'')

/-- One token (R297). -/
def Soft.token (db : Nat) (sc : Nat) (q k v : Row) (t : Soft) : Soft :=
  let (d, g0) := dotRows db q k
  let (x, g1) := f32Of (fpMul (fpOf .f32 d) (fpOf .f32 sc))
  let (m2, g2) := fpMinMax .f32 true t.m x
  let (r, g3) := estExp2 t.m m2
  let (a, g4) := estExp2 x m2
  let sum := fun (u w : Fp) =>
    let (p, f) := fpMul u (fpOf .f32 r)
    let (z, f') := fpAdd false p w
    f32Of (z, f ||| f')
  let (l, g5) := sum (fpOf .f32 t.l) (fpOf .f32 a)
  let os := (t.o.zip v.x).zipIdx.map fun p =>
    let ev := v.e.getD (p.2 / 32) 0
    let (y, f) := fpMul (fpOf .f32 a) (fpInt p.1.2)
    let (z, f') := sum (fpOf .f32 p.1.1) (if ev = 255 then .nan false else fpScale y ((ev : Int) - 127))
    (z, f ||| f' ||| flagIf (ev = 255) fNV)
  ⟨m2, l, os.map (·.1), os.foldl (fun (g : Flags) (p : Nat × Flags) => g ||| p.2) (t.g ||| g0 ||| g1 ||| g2 ||| g3 ||| g4 ||| g5)⟩

/-- The tokens from t on (R297, R298). -/
def attendFrom (j : Job) (q : Row) : Nat → Nat → Soft → State → Ans (Soft × State)
  | 0, _, acc, s => .ok (acc, s)
  | n + 1, t, acc, s =>
      let c := j.cmd
      (j.read (c.words.getD 2 0 + BitVec.ofNat 64 (4 * (t / 16))) 4 s).bind fun (bt, s) =>
        let page := c.words.getD 3 0 + BitVec.ofNat 64 (32 * c.rb * leNat bt)
        (poolBytes j 8 (page + BitVec.ofNat 64 (c.rb * (t % 16))) (34 * c.db) s).bind fun kb =>
          (poolBytes j 8 (page + BitVec.ofNat 64 (c.rb * (16 + t % 16))) (34 * c.db) s).bind fun vb =>
            let key := rowOfBytes c.db kb
            let val := rowOfBytes c.db vb
            if !key.residueOk c.db || !val.residueOk c.db then .bad 7
            else attendFrom j q n (t + 1) (acc.token c.db (c.field 4 32 32) q key val) s

/-- The stack of a physical address: 16 stacks, each with 16 home slices (R185). -/
def stackOf (pa : Nat) : Nat := homeSlice pa / 16

/-- Run an attention command (R297); its OUT rows in its own stack come to be in residue mode (R437). DESIGN CHOICE (log 122): Q
is read and checked with L = 0 too. DESIGN CHOICE (log 127): where OUT is refused, none of it is written. -/
def attend (j : Job) (stack : Nat) (s : State) : Ans (Byte × Byte × State) :=
  let c := j.cmd
  (j.read (c.words.getD 1 0) (34 * c.db) s).bind fun (qb, s) =>
    let q := rowOfBytes c.db qb
    if !q.residueOk c.db then .bad 7
    else
      (attendFrom j q (c.field 4 0 32) 0 ⟨signBit .f32 + infBits .f32, 0, List.replicate (32 * c.db) 0, 0⟩ s).bind
        fun (acc, s) =>
          let outs := acc.o.map fun o => f32Of (fpDiv (fpOf .f32 o) (fpOf .f32 acc.l))
          let g := outs.foldl (fun (g : Flags) (p : Nat × Flags) => g ||| p.2) acc.g
          (j.write (c.words.getD 5 0) (outs.flatMap fun (p : Nat × Flags) => leBytes 4 p.1) false s).bind fun (w, s) =>
            .ok (0, (g &&& 0x1F).setWidth 8, (s.cover w).residueRows stack w)

/-- The stack of a bank attention engine. -/
def stackOfJob (j : Job) : Nat := match engineOf j.cmd.tgt 0 with | some (.attention n) => n | _ => 0

/-- A bank attention engine. -/
def isAttention (e : Engine) : Bool := match e with | .attention _ => true | _ => false

/-- A bank attention engine runs a command, unless its page list is stale (R297, R299). -/
def execAttention (h k : Nat) (s : State) : Out :=
  engineEvent h k 0x30 isAttention attentionOk
    (fun j s => if j.cmd.stalled && j.cmd.field 4 0 32 ≠ 0 then none else j.conclude s (attend j (stackOfJob j) s)) s

/-- atlr.GO: every stalled command rereads its page list (R274, R299). -/
def execAtlrGo (s : State) : Out := .next s.rereadLists

/-- A write of eport of hart h (R274). -/
def execEportWrite (h : Nat) (v : BitVec 64) (s : State) : Out := .next (s.atHart h (State.writeEport v))

/-! ## The collective engine (R300 to R302) -/

/-- A collective command is well formed (R300). DESIGN CHOICE (log 109): bits 63:32 of words 3 and 6 are reserved. -/
def collectiveOk (c : Cmd) : Bool :=
  c.words.length == 8 && c.field 0 34 30 == 0 && c.field 3 32 32 == 0 && c.field 6 32 32 == 0
    && c.words.getD 7 0 == 0 && c.field 4 0 3 == 0 && c.field 5 0 6 == 0

/-- NOSW of a collective. -/
def Cmd.nosw (c : Cmd) : Bool := c.field 0 33 1 = 1

/-- Take a collective: read its group table, and stage the own contribution (R300, R301). -/
def beginCollective (j : Job) (s : State) : Option State :=
  let c := j.cmd
  let grp := c.words.getD 4 0
  let table := (j.readMany 2 [grp, grp + 2] s).bind fun (gr, s) =>
    let g := gr.getD 0 0
    let rank := gr.getD 1 0
    if g < 2 || 576 < g || g ≤ rank then .bad 1
    else (j.readMany 2 ((List.range g).map fun r => grp + BitVec.ofNat 64 (4 + 2 * r)) s).bind fun (pkgs, s) =>
      if (pkgs.any fun p => decide (575 < p)) || !decide pkgs.Nodup then .bad 1
      else (j.readMany c.esize ((List.range (c.field 3 0 32)).map fun e =>
          c.words.getD 1 0 + BitVec.ofNat 64 (e * c.esize)) s).bind fun (own, s) => .ok (rank, pkgs, own, s)
  match table with
  | .ok (rank, pkgs, own, s) =>
      some (modCmd j.h j.k (fun c => { c with
        begun := true, start := s.pkg.time, group := pkgs, rank := rank
        parts := [(rank, own.map (BitVec.ofNat 32))] }) s)
  | .bad e => some (finish j.h j.k e 0 s)
  | .stop => some (j.stopTask s)
  | .stall => none

/-- Element e of a rank's contribution. -/
def Cmd.part (c : Cmd) (r e : Nat) : Nat := (match c.parts.find? fun (p : Nat × List Elem) => decide (p.1 = r) with
    | some p => p.2.getD e 0
    | none => 0).toNat

/-- The ring's sum of element e in chunk x (R301): from rank x + 1 in ring order to rank x. -/
def ringSum (c : Cmd) (x e : Nat) : Nat :=
  let g := c.group.length
  (List.range (g - 1)).foldl (fun acc i => (addBits c.fmt .rne acc (c.part ((x + 2 + i) % g) e)).1)
    (c.part ((x + 1) % g) e)

/-- The sums: the switch's, or the ring's, whose division into chunks is not stated (log 33). -/
def collectiveSums (c : Cmd) (fresh : Nat) : List Nat :=
  match c.switched with
  | some l => l.map BitVec.toNat
  | none => (List.range (c.field 3 0 32)).map fun e =>
      ringSum c ((Config.freeWord (fresh + e)).toNat % c.group.length) e

/-- Every sum is known: every rank has contributed, or the switch has summed (R301). -/
def Cmd.complete (c : Cmd) : Bool :=
  c.failed == [] && (c.switched.isSome || c.parts.length == c.group.length)

/-- Write DST and the status block of a collective that succeeded (R301); which flags AUX reports of sums that several engines
share is not stated (log 33). DESIGN CHOICE (log 126): a refused DST is not written in part, and STB is not written after it,
and a refused STB leaves DST written. -/
def completeCollective (j : Job) (s : State) : Ans (Byte × Byte × State) :=
  let c := j.cmd
  let sums := collectiveSums c s.fresh
  let aux := Config.freeByte s.fresh &&& 0x1F
  let s := { s with fresh := s.fresh + sums.length + 1 }
  (j.write (c.words.getD 2 0) (sums.flatMap fun (x : Nat) => leBytes c.esize x) false s).bind fun (w, s) =>
    match j.write (c.words.getD 5 0) (bytesOf 8 0) false s with
    | .ok (w', s) => .ok (0, aux, s.cover (w ++ w'))
    | .stall => .stall
    | .stop => .stop
    | .bad e => .ok (e, aux, s.cover w)

/-- A collective engine. -/
def isCollective (e : Engine) : Bool := e == .collective

/-- The collective engine takes a command, or ends one whose sums it holds (R301). -/
def execAllReduce (h k : Nat) (s : State) : Out :=
  engineEvent h k 0x40 isCollective collectiveOk (fun j s =>
    if j.cmd.group.isEmpty then beginCollective j s
    else if j.cmd.complete then j.conclude s (completeCollective j s) else none) s

/-- TMO of a collective has passed (R300, R302). -/
def Cmd.overdue (c : Cmd) (s : State) : Bool :=
  decide (max (c.field 6 0 32) 1 * 1000 ≤ (s.pkg.time - c.start).toNat)

/-- A contribution or a failure report of a rank arrives, or, as rank G, the switch's sums (R301, R302): a
contribution that comes after TMO is no contribution (log 113). -/
def execCollectivePacket (h k rank : Nat) (failed : Bool) (data : List (BitVec 32)) (s : State) : Out :=
  engineEvent h k 0x40 isCollective collectiveOk (fun j s =>
    let c := j.cmd
    let g := c.group.length
    if c.group.isEmpty || rank = c.rank || g < rank then none
    else if failed then
      (if rank = g || c.failed.contains rank then none
       else some (modCmd h k (fun c => { c with failed := rank :: c.failed }) s))
    else if data.length ≠ c.field 3 0 32 then none
    else if rank = g then
      (if c.nosw || c.switched.isSome then none else some (modCmd h k (fun c => { c with switched := some data }) s))
    else if c.overdue s || c.parts.any fun p => p.1 = rank then none
    else some (modCmd h k (fun c => { c with parts := c.parts ++ [(rank, data)] }) s)) s

/-- The mask of missing ranks, in 72 bytes (R302). -/
def missingMask (missing : List Nat) : List Byte :=
  leBytes 72 (missing.foldl (fun m r => m + 2 ^ r) 0)

/-- A set of missing ranks that the engine can find (R302): those that have failed and, once TMO has passed, ranks
whose contribution it does not hold, on the ring all of them. A collective whose sums are known misses no rank. -/
def missingOk (c : Cmd) (late : Bool) (missing : List Nat) : Bool :=
  let here := fun (r : Nat) => c.parts.any fun (p : Nat × List Elem) => decide (p.1 = r)
  missing ≠ [] && decide missing.Nodup && (missing.all fun r => decide (r < c.group.length) && decide (r ≠ c.rank))
    && (c.failed.all fun r => missing.contains r)
    && (missing.all fun r => c.failed.contains r || (late && !here r && c.switched.isNone))
    && (!(late && (c.nosw || decide (1 < c.parts.length))) || (List.range c.group.length).all fun r =>
        missing.contains r == (c.failed.contains r || !here r))

/-- A participant did not contribute within TMO, or reported failure (R302). -/
def execCollectiveTimeout (h k : Nat) (missing : List Nat) (s : State) : Out :=
  engineEvent h k 0x40 isCollective collectiveOk (fun j s =>
    let c := j.cmd
    if c.group.isEmpty || (c.failed == [] && !c.overdue s) || !missingOk c (c.overdue s) missing then none
    else
      let bs := bytesOf 8 (BitVec.ofNat 64 missing.length) ++ missingMask missing ++ leBytes 48 0
      j.conclude s ((j.write (c.words.getD 5 0) bs false s).bind fun (w, s) =>
        .ok (5, BitVec.ofNat 8 (min missing.length 255), s.cover w))) s

end Sys2Proof.Machine
end

