-- ==== Sys2Proof/Machine/Replay.lean ====
section
/-! DEFINITION. Marked loops and their replay by the Milliners: lprec, lpend, lpjoin, training, confirmation, and one
replayed iteration (R308 to R325). -/

namespace Sys2Proof.Machine

/-! ## What a body instruction reads and writes (R312, R313) -/

/-- The scalar operations of three operands that a body may hold (R312). -/
def scalarBody : Instr → Option SOps
  | .add _ o | .sub _ o | .addi _ o _ | .mul _ o | .min _ o | .max _ o | .and _ o | .or _ o | .xor _ o
  | .shl _ o | .shr _ o | .sra _ o => some o
  | _ => none

/-- The vector operations that a body may hold, with the formats of R312. -/
def vectorBody : Instr → Option VOps
  | .vadd _ o | .vsub _ o | .vmul _ o | .vmin _ o | .vmax _ o | .vand _ o | .vor _ o | .vxor _ o
  | .vshl _ o | .vshr _ o | .vsra _ o | .vcmp _ o | .vfadd _ o | .vfsub _ o | .vfmul _ o
  | .vfmin _ o | .vfmax _ o | .vfcmp _ o =>
      if (o.fmt == .i32 || o.fmt == .n32 || o.fmt == .f32) && !o.x.msk then some o else none
  | .vsel _ o => if o.fmt == .i32 || o.fmt == .n32 || o.fmt == .f32 then some o else none
  | .vcvt _ o =>
      if ((o.fmt == .f32 && o.x.sfmt == some .bf16) || (o.fmt == .bf16 && o.x.sfmt == some .f32)) && !o.x.msk
      then some o else none
  | _ => none

/-- A register or immediate without a modifier, and no queue. -/
def plainOperand : Operand → Bool
  | .s _ m | .v _ m => m == Mods.none
  | .q _ => false
  | _ => true

/-- R312 admits an instruction of the body from body to endA, at pc, where vl is 1 or not. -/
def bodyAdmits (body endA pc : Addr) (one : Bool) (i : Instr) : Bool :=
  let fmt := fun (f : Fmt) => f == .i32 || f == .n32 || f == .i64 || f == .n64
  let target := fun (a : Addr) => decide (body ≤ a) && decide (a ≤ endA)
  match i, scalarBody i, vectorBody i with
  | _, some o, _ => fmt o.fmt && !o.sat && plainOperand o.d && plainOperand o.a && plainOperand o.b
  | _, _, some o => one && !o.sat
  | .ld _ _ d _ b, _, _ | .st _ _ d _ b, _, _ => plainOperand d && plainOperand b
  | .ldx _ _ d .., _, _ => plainOperand d
  | .vld _ o, _, _ | .vst _ o, _, _ => one && !o.msk
  | .cmp _ _ _ _ _ b, _, _ => plainOperand b
  | .sel _ d a b .., _, _ => plainOperand d && plainOperand a && plainOperand b
  | .li _ d _, _, _ => plainOperand d
  | .mov _ d a, _, _ =>
      plainOperand d && plainOperand a && !(match d with | .pm _ => true | _ => false)
        && !(match a with | .pm _ => true | _ => false)
  | .br _ d, _, _ => target (pc + dispAddr d)
  | .bc _ _ _ _ _ d, _, _ => target (pc + dispAddr d)
  | _, _, _ => false

/-- s0 and p0 are no registers of a body. -/
def realRes (l : List Res) : List Res := l.filter fun r => r ≠ .s 0 && r ≠ .p 0

/-- Registers that a body instruction reads, without its guard. -/
def bodyReads (i : Instr) : List Res :=
  realRes <| match i, scalarBody i, vopsOf i with
    | _, some o, _ => opRes o.a ++ opRes o.b
    | _, _, some o => opRes o.a ++ opRes o.b ++ if o.x.msk then [.m o.x.mn.toNat] else []
    | .ld _ _ _ a b, _, _ => .s a.toNat :: opRes b
    | .st _ _ d a b, _, _ => .s a.toNat :: (opRes d ++ opRes b)
    | .ldx _ _ _ a b _, _, _ => [.s a.toNat, .s b.toNat]
    | .vld _ o, _, _ => .s o.a.n.toNat :: opRes o.b
    | .vst _ o, _, _ => .s o.a.n.toNat :: .v o.d.toNat :: opRes o.b
    | .cmp _ _ _ _ a b, _, _ | .bc _ _ _ a b _, _, _ => .s a.toNat :: opRes b
    | .sel _ _ a b _ pn, _, _ => .p pn.toNat :: (opRes a ++ opRes b)
    | .li _ _ b, _, _ => opRes b
    | .mov _ _ a, _, _ => opRes a
    | _, _, _ => []

/-- Registers whose values are the address of a body access. -/
def bodyAddress (i : Instr) : List Res :=
  match i with
  | .ld _ _ _ a b | .st _ _ _ a b => realRes (.s a.toNat :: opRes b)
  | .ldx _ _ _ a b _ => realRes [.s a.toNat, .s b.toNat]
  | .vld _ o | .vst _ o => realRes (.s o.a.n.toNat :: opRes o.b)
  | _ => []

/-- Registers that a body instruction writes. -/
def bodyWrites (i : Instr) : List Res :=
  realRes <| match i, scalarBody i, vopsOf i with
    | _, some o, _ => opRes o.d
    | _, _, some o => opRes o.d
    | .ld _ _ d .., _, _ | .ldx _ _ d .., _, _ | .sel _ d .., _, _ | .li _ d _, _, _ | .mov _ d _, _, _ => opRes d
    | .vld _ o, _, _ => [.v o.d.toNat]
    | .cmp _ _ _ d .., _, _ => [.p d.toNat]
    | _, _, _ => []

/-- A body load. -/
def isLoad : Instr → Bool
  | .ld .. | .ldx .. | .vld .. => true
  | _ => false

/-- A body store. -/
def isStore : Instr → Bool
  | .st .. | .vst .. => true
  | _ => false

/-- An operation of R313. -/
def isOperation (i : Instr) : Bool :=
  (scalarBody i).isSome || (vectorBody i).isSome
    || match i with | .cmp .. | .sel .. | .li .. | .mov .. => true | _ => false

/-- The value of a scalar operand that is no queue. -/
def scalarValue (o : Operand) (h : Hart) : Word := match takeS o h with | some (x, _) => x | none => 0

/-- Address and bytes of a body access. -/
def bodyAccess (i : Instr) (h : Hart) : Option (Word × Nat) :=
  match i with
  | .ld _ f _ a b | .st _ f _ a b => some (h.rs a.toNat + scalarValue b h, fmtBytes f)
  | .ldx _ f _ a b disp =>
      some (h.rs a.toNat + h.rs b.toNat * BitVec.ofNat 64 (fmtBytes f) + disp.signExtend 64, fmtBytes f)
  | .vld _ o | .vst _ o => some (h.src o.a + (full64 false o.b.mods (scalarValue o.b h)).1, fmtBytes o.fmt)
  | _ => none

/-- The outcome of a comparison: whether a branch is taken, or the predicate. -/
def pathValue (i : Instr) (h : Hart) : Bool :=
  match i with
  | .bc _ r nat a b _ | .cmp _ r nat _ a b => relHolds64 r nat (h.rs a.toNat) (scalarValue b h)
  | _ => true

/-- Control goes to the target of an instruction whose guard is true (R87 to R90). -/
def transfers (i : Instr) (h : Hart) : Bool :=
  match i with
  | .br .. | .brl .. | .call .. | .calll .. | .jcall .. | .jr .. | .ret .. => true
  | .bc .. => pathValue i h
  | .dbnz _ d _ => h.rs d.toNat ≠ 1
  | _ => false

/-! ## Training (R314) -/

/-- Record an instruction that the scalar stream executed at pre, and abandon a training that control leaves
(R313, R314). A doff routine records nothing (R339). An access that waits in the queue is placed when it is performed. -/
def noteTrace (i : Instr) (pre post : State) : State :=
  let m := pre.hart.mark
  if m.state ≠ .training || post.hart.mark.state ≠ .training || pre.hart.dAct || post.hart.waiting.isSome
    || post.hart.run ≠ .running then post
  else
    let pc := pre.hart.pc
    let on := match i.ctl? with | some c => pre.hart.guard c | none => true
    let moved := decide (post.hart.pc ≠ pc + 12) || (on && transfers i pre.hart)
    let inside := decide (m.body ≤ pc) && decide (pc < m.endA)
    if moved && !(decide (m.body ≤ post.hart.pc) && decide (post.hart.pc ≤ m.endA)) then post.onH Hart.abandon
    else if !inside then post
    else
      let acc := if on then bodyAccess i pre.hart else none
      let waits := post.hart.vcq.any fun e => decide (e.env.seq = pre.hart.vseq)
      let place := match acc with
        | none => (0, false)
        | some (va, n) =>
            if waits then (0, false)
            else placeOf pre.agent ⟨va, n, if isStore i then .store else .load, false, false⟩ pre
      let val := on && pathValue i pre.hart
      let r : TraceRec := ⟨m.it.toNat, pc, i, on, val, acc, place.1, place.2,
        bodyAdmits m.body m.endA pc (pre.hart.vl = 1) i, if waits then some pre.hart.vseq else none⟩
      post.onH fun h => { h with mark := { h.mark with trace := h.mark.trace ++ [r] } }

/-! ## Confirmation (R315, R316) -/

/-- Predicates that some guard of the trace or that of the lpend reads. -/
def Mark.guards (m : Mark) : List Nat := ((m.guard :: m.trace.map fun r => guardOf r.instr).filter (· ≠ 0)).eraseDups

/-- The path predicate of a record: each bc is one, whatever its guard, and so is each predicate that a cmp writes and a
guard reads (R313). -/
def pathKey (guards : List Nat) (r : TraceRec) : Option (Addr × Nat) :=
  match r.instr with
  | .bc .. => some (r.pc, 0)
  | .cmp _ _ _ d .. => if r.on && guards.contains d.toNat then some (0, d.toNat) else none
  | _ => none

/-- Path predicates in the order of their first execution (R318). -/
def pathsOf (guards : List Nat) (l : List TraceRec) : List (Addr × Nat) := (l.filterMap (pathKey guards)).eraseDups

/-- Streams, each a memory instruction that accesses memory, in the order of their first execution (R313, R318). -/
def streamsOf (l : List TraceRec) : List Addr := ((l.filter fun r => r.acc.isSome).map fun r => r.pc).eraseDups

/-- Operations, each an instruction that some iteration executes with a true guard (R313). -/
def operationsOf (l : List TraceRec) : List Addr :=
  ((l.filter fun r => r.on && isOperation r.instr).map fun r => r.pc).eraseDups

/-- The comparand of a path predicate is loop-invariant (R313). -/
def invariantB (written : List Res) (i : Instr) : Bool :=
  match i with
  | .cmp _ _ _ _ _ b | .bc _ _ _ _ b _ => !namesQueue [b] && !(opRes b).any written.contains
  | _ => true

/-- Some constant stride leads through the addresses of the iterations (R315 condition 3). -/
def hasStride : List (Nat × Word) → Bool
  | [] | [_] => true
  | (i, a) :: (j, b) :: t =>
      let n := j - i
      (List.range n).any fun k =>
        let d := (b - a).toNat + k * 2 ^ 64
        d % n == 0 && t.all fun q => q.2 == a + BitVec.ofNat 64 ((q.1 - i) * (d / n))

/-- No address depends on a value loaded in the body (R315 condition 6). -/
def loadFree : List TraceRec → List Res → Bool
  | [], _ => true
  | r :: t, taint =>
      if !r.on then loadFree t taint
      else if (bodyAddress r.instr).any taint.contains then false
      else
        let w := bodyWrites r.instr
        if isLoad r.instr || (bodyReads r.instr).any taint.contains then loadFree t (w ++ taint)
        else loadFree t (taint.filter fun x => !w.contains x)

/-- Every register that is read before the body writes it, and that the body writes, is carried (condition 8). -/
def carriedOnly (written carried : List Res) : List TraceRec → List Res → Bool
  | [], _ => true
  | r :: t, seen =>
      let reads := realRes [.p (guardOf r.instr)] ++ if r.on then bodyReads r.instr else []
      (reads.all fun x => !written.contains x || seen.contains x || carried.contains x)
        && carriedOnly written carried t (if r.on then bodyWrites r.instr ++ seen else seen)

/-- Values of affine registers flow only into addresses and their own updates (R316). -/
def affineOnly (aff others : List Res) : List TraceRec → List Res → Bool
  | [], _ => true
  | r :: t, D =>
      if !r.on then affineOnly aff others t D
      else
        let hit := (bodyReads r.instr).filter D.contains
        let w := bodyWrites r.instr
        if hit = [] then affineOnly aff others t (D.filter fun x => !w.contains x || aff.contains x)
        else if isLoad r.instr then affineOnly aff others t (D.filter fun x => !w.contains x || aff.contains x)
        else if isStore r.instr then
          (match r.instr with
            | .st _ _ d .. => !(opRes d).any D.contains
            | _ => true) && affineOnly aff others t D
        else
          ((scalarBody r.instr).isSome
            || match r.instr with | .mov .. | .li .. => true | .sel .. => true | _ => false)
            && !w.any others.contains && affineOnly aff others t (w ++ D)

/-- The operation of a reduction kind (R316). -/
def isReduction (kind : Nat) (reg : Res) (i : Instr) : Bool :=
  let op := match i with
    | .add .. => 1 | .min .. => 2 | .max .. => 3 | .and .. => 4 | .or .. => 5 | .xor .. => 6 | _ => 0
  match scalarBody i with
  | none => false
  | some o =>
      op == kind && o.fmt == .i64 && opRes o.d == [reg]
        && ((opRes o.a == [reg]) != (opRes o.b == [reg]))

/-- A carried register obeys R316. -/
def carriedOk (trace : List TraceRec) (starts : List (List Word)) (j kind : Nat) (reg : Res) : Bool :=
  if kind = 0 then
    let v := fun (i : Nat) => (starts.getD i []).getD j 0
    (List.range starts.length).all fun i => v i == v 0 + BitVec.ofNat 64 i * (v 1 - v 0)
  else
    let on := trace.filter fun r => r.on
    let writers := ((on.filter fun r => (bodyWrites r.instr).contains reg).map fun r => r.pc).eraseDups
    writers.length == 1
      && (on.all fun r => if writers.contains r.pc then isReduction kind reg r.instr
          else !(bodyReads r.instr).contains reg)

/-- The carried registers of a mark. -/
def Mark.carried (m : Mark) : List (Nat × Nat × Res) :=
  (m.kinds.zipIdx).map fun p => (p.2, p.1.toNat, Res.s (m.first + p.2))

/-- Registers that the body writes in training. -/
def Mark.written (m : Mark) : List Res :=
  ((m.trace.filter fun r => r.on).flatMap fun r => bodyWrites r.instr).eraseDups

/-- The first condition of R315 that fails; 0 for none. -/
def failedCondition (m : Mark) : Nat :=
  let its := (List.range m.t).map fun i => m.trace.filter fun r => r.iter = i
  let guards := m.guards
  let written := m.written
  let carried := m.carried
  let regs := carried.map fun c => c.2.2
  let aff := (carried.filter fun c => c.2.1 = 0).map fun c => c.2.2
  let streams := streamsOf m.trace
  let stride := fun (k : Addr) =>
    let at_ := ((m.trace.filter fun r => r.pc == k).filterMap fun r => r.acc.map fun a => (r.iter, a)).eraseDups
    hasStride (at_.map fun q => (q.1, q.2.1)) && at_.all fun q => q.2.1.toNat % q.2.2 == 0
  let sign := fun (l : List TraceRec) => l.map fun r =>
    (r.pc, r.on, match r.instr with | .bc .. => r.val | _ => false)
  if !m.trace.all fun r => r.ok then 1
  else if streams = [] || 8 < streams.length then 2
  else if !streams.all stride then 3
  else if its.any fun l => decide (16 < (operationsOf l).length) then 4
  else if 4 < (pathsOf guards m.trace).length
      || !m.trace.all (fun r => (pathKey guards r).isNone || invariantB written r.instr) then 5
  else if !loadFree m.trace [] then 6
  else if !its.all fun l => sign l == sign (its.headD []) then 7
  else if !(its.all fun l => carriedOnly written regs l []) || !(carried.all fun c => carriedOk m.trace m.starts c.1 c.2.1 c.2.2)
      || !affineOnly aff (regs.filter fun r => !aff.contains r) (its.headD []) aff then 8
  else if m.trace.any fun r => r.far then 9
  else 0

/-- The slice of the coordinating Milliner (R314): that of the first store stream of iteration 0, or else of its
first load stream. -/
def coordinator (m : Mark) : Nat :=
  let acc := m.trace.filter fun r => r.iter = 0 && r.acc.isSome
  match acc.find? fun r => isStore r.instr, acc with
  | some r, _ => homeSlice r.pa
  | none, r :: _ => homeSlice r.pa
  | none, [] => 0

/-- Replays that a slice's Milliner runs (R315). -/
def replaysAt (slice : Nat) (s : State) : Nat :=
  let runs := fun (h : Hart) => h.mark.state == .replaying && h.mark.replay == .running && h.mark.slice == slice
  ((s.slots.map s.hartAt).filter runs).length + (s.saved.filter fun c => runs c.hart).length
    + (s.orphans.filter fun p => runs p.2).length

/-- Confirm (R315): none, or the CAUSE and DETAIL that it sets. -/
def confirm (s : State) : Option (Byte × Byte) :=
  let m := s.hart.mark
  let f := failedCondition m
  if f ≠ 0 then some (2, BitVec.ofNat 8 f)
  else if 4 ≤ replaysAt (coordinator m) s then some (5, BitVec.ofNat 8 (coordinator m)) else none

/-! ## Registers of a replay (R316, R319) -/

/-- Every register that a body could use. DEDUCED (log 131): the mask bit of element 0 is read as the 8 bits of position 0,
all of which a comparison of a body writes (R101). -/
def captureRegs (h : Hart) : BodyRegs :=
  ⟨h.s, (List.range 8).map fun k => (k, h.rp k), (List.range 32).map fun r => (r, h.rv r 0),
    (List.range 8).map fun k => (k, h.rmask k 0)⟩

/-- Those of them that are in a list. -/
def BodyRegs.only (b : BodyRegs) (l : List Res) : BodyRegs :=
  let has := fun (r : Res) => l.contains r
  ⟨(List.range 64).filterMap fun k => if has (.s k) then some (k, tget 0 b.s k) else none,
    b.p.filter fun p => has (.p p.1), b.v.filter fun p => has (.v p.1), b.m.filter fun p => has (.m p.1)⟩

/-- Put registers into a hart. -/
def BodyRegs.put (b : BodyRegs) (h : Hart) : Hart :=
  let h := b.s.foldl (fun (h : Hart) p => h.ws p.1 p.2) h
  let h := b.p.foldl (fun (h : Hart) p => h.wp p.1 p.2) h
  let h := b.v.foldl (fun (h : Hart) p => h.wv p.1 0 p.2) h
  b.m.foldl (fun (h : Hart) p => h.wmask p.1 0 p.2) h

/-- Δ of carried register j. -/
def Mark.step (m : Mark) (j : Nat) : Word := m.delta.getD j 0

/-- The carried registers at the start of iteration i: affine ones by their rule, reductions as the replay has
combined them (R319). -/
def Mark.carriedAt (m : Mark) (i : Word) (h : Hart) : Hart :=
  m.carried.foldl (fun (h : Hart) c =>
    let reg := m.first + c.1
    h.ws reg (if c.2.1 = 0 then m.base.getD c.1 0 + i * m.step c.1 else tget 0 m.regs.s reg)) h

/-! ## lprec, lpend and lpjoin (R310, R311, R319) -/

/-- Loop Mark Fault (R322). -/
def loopFault (code : Nat) (s : State) : State := s.takeTrap ⟨.loopMark, BitVec.ofNat 64 code⟩

/-- A brk lies among the n instructions from a (R310). -/
def hasBrk (s : State) (a : Addr) (n : Nat) : Bool :=
  (List.range n).any fun k =>
    match s.fetch (a + BitVec.ofNat 57 (12 * k)) with
    | .ok (bs, _) => (match decode (BitVec.ofNat 96 (leNat bs)) with | .ok (.brk ..) => true | _ => false)
    | .error _ => false

/-- lprec (R310). -/
def execLprec (c : Ctl) (d : BitVec 6) (a : Option (BitVec 6)) (len : BitVec 14) (nc : BitVec 2)
    (k0 k1 k2 k3 tr : BitVec 3) (s : State) : Out :=
  guarded c s <| unlessDoff fun s =>
    let h := s.hart
    if h.mark.state ≠ .none then loopFault 1 s
    else
      let n := h.rs d.toNat
      let body := h.pc + 12
      let endA := body + 12 * len.setWidth 57
      let first := match a with | some r => r.toNat | none => 0
      let kinds := match a with | some _ => [k0, k1, k2, k3].take (nc.toNat + 1) | none => []
      let base := (List.range kinds.length).map fun j => h.rs (first + j)
      let m : Mark := { Mark.reset with
        n := n, t := if tr = 0 then 3 else tr.toNat, prec := h.pc, body := body, endA := endA
        first := first, kinds := kinds, base := base, starts := [base] }
      let set := fun (st : MarkState) (cause : Byte) (pc : Addr) =>
        s.onH fun h => { h with
          mark := { m with state := st }, lpcause := cause, lpdetail := 0, pc := pc, waiting := none }
      if n = 0 then set .plain 4 (endA + 12)
      else if h.estep || hasBrk s body len.toNat then set .plain 6 body
      else set .training 0 body

/-- Begin the replay of iterations T to N - 1 (R311, R316, R317, R323). -/
def startReplay (it : Word) (s : State) : State :=
  s.onH fun h =>
    let m := h.mark
    let carried := m.carried.map fun c => c.2.2
    let regs := captureRegs h
    { h with
      waiting := none
      pc := m.endA + 12
      mark := { m with
        state := .replaying, it := it, replay := .running, next := it, regs := regs
        snap := regs.only (m.written.filter fun r => !carried.contains r)
        delta := (List.range m.kinds.length).map fun j => (m.starts.getD 1 []).getD j 0 - m.base.getD j 0
        flags := 0, rm := h.rm, win := h.wcur, slice := coordinator m, level := h.level
        shots := s.pkg.shots.length - if s.pkg.tsnBusy then 1 else 0
        moves := s.pkg.moves.length - if s.pkg.migBusy then 1 else 0
        trace := m.trace.filter fun r => r.iter = 0 } }

/-- lpend (R311). -/
def execLpend (c : Ctl) (s : State) : Out :=
  guarded c s <| unlessDoff fun s =>
    let h := s.hart
    let m := h.mark
    if m.state = .none || h.pc ≠ m.endA then loopFault 2 s
    else
      let it := m.it + 1
      if it < m.n then
        let now := (List.range m.kinds.length).map fun j => h.rs (m.first + j)
        let m' : Mark := { m with
          it := it, guard := c.p.toNat, starts := if m.state = .training then m.starts ++ [now] else m.starts }
        let back := fun (m : Mark) (s : State) => s.onH fun h => { h with mark := m, pc := m.body, waiting := none }
        if m.state = .training && it.toNat == m.t then
          if !s.quiet then s.await (.lpend c)
          else
            let s := s.onH fun h => { h with mark := m' }
            match confirm s with
            | none => startReplay it s
            | some (cause, detail) =>
                (back { m' with state := .plain, trace := [] } s).onH fun h => { h with lpcause := cause, lpdetail := detail }
        else back m' s
      else
        let plain := m.state = .training
        s.onH fun h => { h with
          waiting := none
          lpcause := if plain then 4 else h.lpcause
          lpdetail := if plain then 0 else h.lpdetail
          mark := if m.state = .resumed then Mark.reset
            else { m with it := it, state := if plain then .plain else m.state, trace := if plain then [] else m.trace }
          pc := if m.state = .resumed then m.joinA + 12 else m.endA + 12 }

/-- The hand-back of a replay that has ended (R319, R320). -/
def handBack (s : State) : State :=
  s.onH fun h =>
    let m := h.mark
    let fill := fun (i : Word) (h : Hart) =>
      { m.snap.put (m.carriedAt i h) with fflags := h.fflags ||| m.flags, waiting := none, lpix := i }
    match m.replay with
    | .departed cause detail =>
        let h := fill m.next h
        { h with
          lpcause := cause, lpdetail := detail, pc := m.body
          mark := { m with state := .resumed, it := m.next, joinA := h.pc, trace := [] } }
    | _ =>
        let h := fill m.n h
        { h with lpcause := 1, lpdetail := 0, mark := Mark.reset, pc := h.pc + 12 }

/-- lpjoin (R319). -/
def execLpjoin (c : Ctl) (s : State) : Out :=
  guarded c s <| unlessDoff fun s =>
    let m := s.hart.mark
    if !s.quiet then s.await (.lpjoin c)
    else
      match m.state with
      | .none => s.advance
      | .replaying => if m.replay = .running then s.await (.lpjoin c) else handBack s
      | st =>
          (s.onH fun h => { h with
            lpcause := if st = .training then 3 else h.lpcause
            lpdetail := if st = .training then 0 else h.lpdetail
            lpix := m.it
            mark := Mark.reset }).advance

/-! ## One replayed iteration (R317, R318, R323) -/

/-- The next state of an outcome, or the state itself. -/
def orSame (s : State) : Out → State
  | .next t => t
  | _ => s

/-- Run an operation of the body on the replay's registers; none while it waits on a queue. DESIGN CHOICE (log 130): a vector
operation that would trap on a bound queue has no effect, and the replay goes on. -/
def replayOp (i : Instr) (s : State) : Option State :=
  let queued := fun (f : Env → State → VRes) =>
    match f { s.envOf i with n := 1 } s with | .done t => some t | .wait => none | .trap .. => some s
  match i with
  | .add c o => some (orSame s (execAdd c o s))
  | .sub c o => some (orSame s (execSub c o s))
  | .addi c o k => some (orSame s (execAddi c o k s))
  | .mul c o => some (orSame s (execMul c o s))
  | .min c o => some (orSame s (execMin c o s))
  | .max c o => some (orSame s (execMax c o s))
  | .and c o => some (orSame s (execAnd c o s))
  | .or c o => some (orSame s (execOr c o s))
  | .xor c o => some (orSame s (execXor c o s))
  | .shl c o => some (orSame s (execShl c o s))
  | .shr c o => some (orSame s (execShr c o s))
  | .sra c o => some (orSame s (execSra c o s))
  | .cmp c r nat d a b => some (orSame s (execCmp c r nat d a b s))
  | .sel c d a b neg pn => some (orSame s (execSel c d a b neg pn s))
  | .li c d b => some (orSame s (execLi c d b s))
  | .mov c d a => some (orSame s (execMov c d a s))
  | i => queued (runQueued i)

/-- A page of the iteration is not resident under a lease, or it has been shot down or migrated since the replay began: a
shootdown or a migration takes effect between two iterations, and the next one meets it, also where it has ended by then (R318,
R352, log 117). A frame that an earlier migration still forwards has moved with the frame it is forwarded to (R390). -/
def notHeld (s : State) (acc : Acc) : Bool :=
  acc.chunks.any fun c =>
    let page := c.mva.toNat % 2 ^ 57 / 65536
    let frames := s.framesOf (c.pa / 65536)
    !(match s.myLaunch with | some l => l.leases.contains page | none => false)
      || ((s.pkg.shots.drop s.hart.mark.shots).any fun d =>
        d.1 == s.hart.pid && (d.2.2 == 0 || decide (d.2.1 ≤ page) && decide (page < d.2.1 + d.2.2)))
      || ((s.pkg.moves.drop s.hart.mark.moves).any fun d => frames.contains d.1 || frames.contains d.2)

/-- The record of a replayed store (R413, R423): PC is the lprec, and QUAL its iteration. -/
def replayRec (s : State) (prec : Addr) (i : Word) : RecMeta :=
  ⟨3, pcWord prec 0, 0x8000000000000000 ||| (i &&& 0x3FFFFFFFFFFFFFFF), s.hart.wcur⟩

/-- Perform the parts of a replayed store beside the memory: rows of the Milliner's own stack come to be in
residue mode (R323, R437). -/
def replayChunks (slice : Nat) (m : RecMeta) : List Chunk → List Byte → State → State
  | [], _, s => s
  | c :: cs, bs, s =>
      let s := s.logChunk m c (bs.take c.n)
      let s := s.patchHome c.pa (bs.take c.n)
      let s := (s.write c.pa (bs.take c.n) s.myTag).markFrame s.hart.launch c.pa
      let s := s.residueRows (slice / 16) (s.spans c)
      replayChunks slice m cs (bs.drop c.n) s

/-- A replay as an accessor: its context's checks, and the translation cache of the Milliner's base die (R317, R384). -/
def replayAgent (slice : Nat) (s : State) : Agent := { s.agent with cache := some (.base (slice / 16)) }

/-- An access of the replay: the CAUSE of a departure, or the state after it. -/
def replayAccess (slice : Nat) (prec : Addr) (it : Word) (i : Instr) (s : State) : Except Byte State :=
  match bodyAccess i s.hart with
  | none => .ok s
  | some (va, n) =>
      match s.check (replayAgent slice s) ⟨va, n, if isStore i then .store else .load, true, true⟩ with
      | .error t => .error (if t.cause = .dataError then 0x12 else 0x11)
      | .ok acc =>
          if notHeld s acc then .error 0x11
          else
            let bs := s.bytesAt acc
            match i with
            | .ld _ f d .. | .ldx _ f d .. =>
                .ok ((s.keep acc.fills).onH fun h => (putS d (ext f (fmtRead f (leNat bs))) h).getD h)
            | .vld _ o => .ok ((s.keep acc.fills).onH (Hart.wv o.d.toNat 0 (extElem o.fmt (leNat bs))))
            | _ =>
                let data := match i with
                  | .st _ _ d .. => bytesOf n (scalarValue d s.hart)
                  | .vst _ o => leBytes n (swz o.dswz (s.hart.rv o.d.toNat 0)).toNat
                  | _ => []
                match s.logFull (State.recordAddrs acc) with
                | some _ => .error 0x13
                | none =>
                    .ok ((replayChunks slice (replayRec s prec it) acc.chunks data (s.keep acc.fills)).cover
                      (s.extents acc))

/-- The number of a path predicate or a stream (R318). -/
def numberIn {α : Type} [BEq α] (l : List α) (x : α) : Byte := BitVec.ofNat 8 (l.idxOf x)

/-- Run an operation of the trained path for its addresses alone: its guard counts as it was in training. -/
def replayForced (i : Instr) (s : State) : State :=
  match i.ctl? with
  | none => (replayOp i s).getD s
  | some c =>
      let t := (replayOp i (s.onH (Hart.wp c.p.toNat (!c.neg)))).getD s
      if (bodyWrites i).contains (.p c.p.toNat) then t else t.onH (Hart.wp c.p.toNat (s.hart.rp c.p.toNat))

/-- Check every access of an iteration: the stream and the records of each of its stores, the departure of the first access
that fails, or none while an access waits for a stopped home slice (R318, R463). A poisoned line is met at the read. -/
def replayChecks (m : Mark) : List TraceRec → List (Byte × List Word) → State →
    Except (Option (Byte × Byte)) (List (Byte × List Word))
  | [], rooms, _ => .ok rooms
  | r :: t, rooms, s =>
      match r.on, bodyAccess r.instr s.hart with
      | false, _ => replayChecks m t rooms s
      | true, none =>
          match r.instr with
          | .br .. | .bc .. => replayChecks m t rooms s
          | i => replayChecks m t rooms (replayForced i s)
      | true, some (va, n) =>
          let stream := numberIn (streamsOf m.trace) r.pc
          match ({ s with poison := [] } : State).check (replayAgent m.slice s)
              ⟨va, n, if isStore r.instr then .store else .load, true, true⟩ with
          | .error e => if e.cause = .held then .error none else .error (some (0x11, stream))
          | .ok acc =>
              if notHeld s acc then .error (some (0x11, stream))
              else replayChecks m t (if isStore r.instr then rooms ++ [(stream, State.recordAddrs acc)] else rooms) s

/-- The first store whose records find no room behind those of the stores before it (R318, R325). -/
def noRoomFor (s : State) : Nat → List (Byte × List Word) → Option Byte
  | _, [] => none
  | n, (stream, addrs) :: t =>
      if s.noRoom (n + addrs.length) then some stream else noRoomFor s (n + addrs.length) t

/-- Run the trained path from a record on, once every access has passed its checks: a departure, or none while an operation
waits (R318). -/
def replayPath (m : Mark) : List TraceRec → State → Except (Option (Byte × Byte)) State
  | [], s => .ok s
  | r :: t, s =>
      let paths := pathsOf m.guards m.trace
      let on := match r.instr.ctl? with | some c => s.hart.guard c | none => true
      if on ≠ r.on then .error (some (0x10, numberIn paths (0, guardOf r.instr)))
      else if !on then replayPath m t s
      else if (pathKey m.guards r).isSome && pathValue r.instr s.hart ≠ r.val then
        .error (some (0x10, numberIn paths ((pathKey m.guards r).getD (0, 0))))
      else if r.acc.isSome then
        match replayAccess m.slice m.prec m.next r.instr s with
        | .error cause => .error (some (cause, numberIn (streamsOf m.trace) r.pc))
        | .ok s => replayPath m t s
      else
        match r.instr with
        | .br .. | .bc .. => replayPath m t s
        | i =>
            match replayOp i s with
            | none => .error none
            | some s => replayPath m t s

/-- The two phases of an iteration: a departure, or none while it waits (R318). -/
def replayIteration (m : Mark) (s : State) : Except (Option (Byte × Byte)) State :=
  match replayChecks m m.trace [] s with
  | .error e => .error e
  | .ok rooms =>
      if s.appendHeld (rooms.map fun r => r.2.length).sum then .error none
      else match noRoomFor s 0 rooms with
      | some stream => .error (some (0x13, stream))
      | none => replayPath m m.trace s

/-- The replay's own hart: the context's, with the registers of the iteration. Random bits of a stochastic
rounding are not stated for a replay (log 34). -/
def replayHart (x : Hart) (free : Word) : Hart :=
  let m := x.mark
  let h : Hart := { x with
    run := .running, level := m.level, pc := m.prec, s := [], p := 0, v := [], m := [], vl := 1, vstart := 0
    rm := m.rm, fflags := m.flags, seed := free.setWidth 32, wcur := m.win
    mark := { Mark.reset with shots := m.shots, moves := m.moves }, dAct := false
    vcq := [], episode := none, vqf := false, hold := false, zloop := none, waiting := none }
  m.carriedAt m.next (m.regs.put h)

/-- What a replay leaves in its context: its records (R323), and the queues that its operations use. -/
def keepRecords (r : Hart) (onSlot : Bool) (h : Hart) : Hart :=
  { h with
    qs := r.qs, qv := r.qv, streams := r.streams
    lhd := r.lhd, ltl := r.ltl, lLost := r.lLost, lMarks := r.lMarks, unlogged := r.unlogged
    counters := if onSlot then r.counters else h.counters }

/-- One iteration of the replay of context x on package hart n, in one step: a departure performs none of its
writes (R318). None while an access waits for a stopped home slice. -/
def replayOnce (h n : Nat) (x : Hart) (s : State) : Option State :=
  let m := x.mark
  let s1 := s.focus n
  let aside : List Saved := if h = n then [] else [⟨s1.hart, n, 0, 0, 0, .yield, 0, []⟩]
  let start := { s1 with
    hart := replayHart x (Config.freeWord s.fresh), saved := s1.saved ++ aside, fresh := s.fresh + 1 }
  match replayIteration m start with
  | .error none => none
  | .error (some (cause, detail)) =>
      some (modCtx h (fun y => { y with mark := { y.mark with replay := .departed cause detail } }) s)
  | .ok r =>
      let back : State := ({ r with hart := s1.hart, saved := s.saved }).focus s.cur
      some (modCtx h (fun y => { keepRecords r.hart (decide (h < slotCount)) y with
        mark := { y.mark with
          next := m.next + 1
          regs := captureRegs r.hart
          flags := r.hart.fflags
          replay := if m.next + 1 = m.n then .finished else .running } }) back)

/-- The Milliner runs the next iteration of a context's replay (R317, R318), unless the zone of its base die is stopped
(R463). -/
def execReplayIteration (h : Nat) (s : State) : Out :=
  due s (match ctxOf s h with
    | none => none
    | some (n, x) =>
        if x.mark.state ≠ .replaying || x.mark.replay ≠ .running || s.zoneOff (64 + x.mark.slice / 16) then none
        else replayOnce h n x s)

end Sys2Proof.Machine
end

