-- ==== Sys2Proof/Machine/Launching.lean ====
section
/-! DEFINITION. Command queues and packets, launches from their parse to their end, placement, lnch and ipurge
(R361 to R379), and the flow grant (R461). -/

namespace Sys2Proof.Machine

/-! ## Accesses of the queue processor (R362) -/

/-- The queue processor acts as a user-level context of a partition; it has no stash map, so the cluster window
names nothing for it (R362). -/
def queueAgent (pid : Byte) : Agent := ⟨pid, .user, Config.cores, none, 0, none, none⟩

/-- Check an access of the queue processor. -/
def queueCheck (pid : Byte) (va : Word) (n : Nat) (kind : Kind) (s : State) : Option Acc :=
  match s.check (queueAgent pid) ⟨va, n, kind, false, false⟩ with
  | .ok acc => some acc
  | .error _ => none

/-- A read of the queue processor; none where it is refused or poisoned. -/
def queueRead (pid : Byte) (va : Word) (n : Nat) (s : State) : Option (List Byte × State) :=
  (queueCheck pid va n .load s).map fun acc => (s.bytesAt acc, s.keep acc.fills)

/-- A write of the queue processor; none where it is refused. -/
def queueWrite (pid : Byte) (va : Word) (bs : List Byte) (s : State) : Option State :=
  (queueCheck pid va bs.length .store s).map fun acc => putChunks false none acc.chunks bs (s.keep acc.fills)

/-- A read-modify-write of a 64-bit word; none where it is refused or poisoned. -/
def queueRmw (pid : Byte) (va : Word) (f : Word → Word) (s : State) : Option State :=
  (queueCheck pid va 8 .rmw s).map fun acc =>
    putChunks false none acc.chunks (bytesOf 8 (f (wordOf (s.bytesAt acc)))) (s.keep acc.fills)

/-! ## The queue table (R361, R362) -/

/-- Physical address of queue q's 256 bytes. -/
def queueBase (s : State) (q : Nat) : Nat := s.pkg.qtBase.toNat * 4096 + 256 * q

/-- A field of queue q: n bytes from offset o. -/
def queueField (s : State) (q o n : Nat) : Nat := leNat (s.bytes (queueBase s q + o) n)

/-- The partition of queue q. -/
def queuePid (s : State) (q : Nat) : Byte := s.byte (queueBase s q + 12)

/-- HEAD of queue q. -/
def queueHead (s : State) (q : Nat) : Word := BitVec.ofNat 64 (queueField s q 24 8)

/-- Queue q exists and is parsed. -/
def queueOn (s : State) (q : Nat) : Bool :=
  decide (q ≤ s.pkg.qtNq.toNat) && (s.byte (queueBase s q + 14)).getLsbD 0

/-- A power of two from 16 to 65,536. -/
def slotsOk (n : Nat) : Bool := (List.range 13).any fun k => n == 2 ^ (k + 4)

/-- The control line of queue q is well formed (R362). -/
def controlOk (s : State) (q : Nat) : Bool :=
  let ring := BitVec.ofNat 64 (queueField s q 0 8)
  ring.toNat % 4096 == 0 && canonical ring && slotsOk (queueField s q 8 4) && decide (queueField s q 13 1 ≤ 11)
    && queueField s q 15 1 == 0 && queueField s q 20 4 == 0 && queueField s q 40 88 == 0

/-- Change a queue's state in the processor. -/
def modQueue (q : Nat) (f : Queue → Queue) (s : State) : State :=
  { s with queues := tset Queue.reset s.queues q (f (tget Queue.reset s.queues q)) }

/-- The state of queue q in the processor. -/
def queueAt (s : State) (q : Nat) : Queue := tget Queue.reset s.queues q

/-- The partition is being reset: none of its queues is parsed and none of their watchdogs counts (R445). -/
def resetting (s : State) (p : Byte) : Bool :=
  s.queues.any fun (x : Nat × Queue) => match x.2.expiry with | some r => r.pid == p | none => false

/-- A launch that a reset has removed, has stopped or is about to stop, and will end (R445, R446). -/
def inReset (s : State) (seq : Word) : Bool :=
  s.queues.any fun (x : Nat × Queue) => match x.2.expiry with
    | some r => r.stopped.contains seq || r.removed.contains seq || (r.step = 1 && (s.launchAt seq).any fun l =>
        l.pid == r.pid && l.st == .running && !l.stopping && !r.halted.contains seq)
    | none => false

/-- An access of the queue processor waits for a stopped home slice (R463). -/
def queueHeld (pid : Byte) (va : Word) (n : Nat) (s : State) : Bool :=
  s.zonesB ≠ [] && match s.check (queueAgent pid) ⟨va, n, .load, false, false⟩ with
    | .error t => t.cause == .held
    | .ok _ => false

/-- The queue's lines of the queue table, or the next journal entry, lie at a stopped home slice: the processor waits (R463). -/
def tableHeld (s : State) (q : Nat) : Bool := s.rangeHeld (queueBase s q) 256 || s.journalHeld

/-- Slots of queue q written and not consumed (R362). -/
def queueAvail (s : State) (q : Nat) : Nat := (BitVec.ofNat 64 (queueField s q 128 8) - queueHead s q).toNat

/-- Slots that a scheduled queue has still to parse: from HEAD up to the TAIL that the processor read (R363). -/
def slotsLeft (s : State) (q : Nat) : Nat :=
  match (queueAt s q).till with
  | none => 0
  | some t =>
      let n := (t - queueHead s q).toNat
      if n ≤ queueAvail s q then n else 0

/-- A queue waits to be scheduled: its tail line shows slots, the processor has parsed those that it knew of, and no packet of
the queue is parsed (R363). -/
def queueWaits (s : State) (q : Nat) : Bool :=
  queueOn s q && !resetting s (queuePid s q) && (queueAt s q).packet.isNone && slotsLeft s q == 0 && queueAvail s q ≠ 0

/-- The place of a queue in the round that follows the queue served last (R363). -/
def roundPlace (s : State) (q : Nat) : Nat := (q + 255 - s.pkg.served % 256) % 256

/-- No other queue that waits comes before queue q in the round (R363). -/
def inTurn (s : State) (q : Nat) : Bool :=
  (List.range (s.pkg.qtNq.toNat + 1)).all fun k => k == q || !queueWaits s k || decide (roundPlace s q < roundPlace s k)

/-- Stop a queue at a packet's slot (R362, R364). -/
def stopQueue (q : Nat) (code : Byte) (slot : Word) (s : State) : State :=
  let b := queueBase s q
  let pid := queuePid s q
  let s := s.writeDev (b + 32) (bytesOf 8 slot)
  let s := s.writeDev (b + 14) [s.byte (b + 14) &&& 0xFE]
  let s := modQueue q (fun x => { x with packet := none, till := none }) s
  s.journal 0x03 code (some pid) (some q) none slot (BitVec.allOnes 64) 0 0 0 []

/-- Retire n slots of a queue from a slot on: HEAD moves past them, and the watchdog starts anew (R363, R444). -/
def retireSlots (q : Nat) (slot : Word) (n : Nat) (s : State) : State :=
  (s.writeDev (queueBase s q + 24) (bytesOf 8 (slot + BitVec.ofNat 64 n))) |>
    modQueue q fun x => { x with packet := none, wd := 0 }

/-- Retire the packet of a queue. -/
def retire (q : Nat) (p : Packet) (s : State) : State := retireSlots q p.slot (p.bytes.length / 64) s

/-! ## Packets (R364 to R368, R378) -/

/-- A little-endian field of a packet. -/
def pf (p : List Byte) (o n : Nat) : Nat := leNat ((p.drop o).take n)

/-- A 64-bit field of a packet. -/
def pw (p : List Byte) (o : Nat) : Word := wordOf ((p.drop o).take 8)

/-- TYPE and NS minus 1 that R364 gives a type; none for an unknown type. -/
def packetSlots : Nat → Option Nat
  | 0 => some 1 | 1 => some 4 | 2 => some 4 | 3 => some 1 | 4 => some 1 | 5 => some 1 | _ => none

/-- The first nonzero byte from offset o on, among n. -/
def firstNonzero (p : List Byte) (o n : Nat) : Option Nat :=
  ((List.range n).map fun i => o + i).find? fun i => p.getD i 0 ≠ 0

/-- The first bad byte of a header (R364). -/
def headerBad (p : List Byte) : Option Nat :=
  match packetSlots (pf p 0 1) with
  | none => some 0
  | some n =>
      if pf p 1 1 ≠ n - 1 then some 1 else firstNonzero p 2 2

/-- The first bad byte of range entry r of a LAUNCH packet with nr ranges (R368). -/
def rangeBad (p : List Byte) (nr r : Nat) : Option Nat :=
  let o := 128 + 16 * r
  if nr ≤ r then firstNonzero p o 16
  else if pf p o 8 % 65536 ≠ 0 then some o
  else
    let len := pf p (o + 8) 5
    if len = 0 || len % 65536 ≠ 0 || pf p (o + 8) 8 / 2 ^ 40 % 2 ^ 23 ≠ 0 then some (o + 8) else none

/-- The first bad byte of a LAUNCH packet behind its header (R368). -/
def launchBad (p : List Byte) : Option Nat :=
  let flags := pf p 56 8
  let nr := flags / 256 % 16
  if pf p 8 1 % 4 ≠ 0 || !canonical (pw p 8) then some 8
  else if pf p 24 4 = 0 || 65535 < pf p 24 4 then some 24
  else if 1024 < pf p 28 2 then some 28
  else if 11 < pf p 30 1 then some 30
  else if 7 < pf p 31 1 then some 31
  else if pf p 32 8 % 16 ≠ 0 then some 32
  else if pf p 40 8 % 8 ≠ 0 then some 40
  else if flags / 4096 ≠ 0 || flags / 16 % 16 ≠ 0 || 8 < nr || (flags / 2 % 4 ≠ 0 && flags % 2 = 0) then some 56
  else if flags % 2 = 1 && (pf p 72 8 < pf p 64 8 || 2 ^ 32 < pf p 72 8 - pf p 64 8) then some 64
  else
    match firstNonzero p 93 35 with
    | some i => some i
    | none => ((List.range 8).filterMap (rangeBad p nr)).head?

/-- The first bad byte of a packet (R364 to R368, R378). -/
def packetBad (p : List Byte) : Option Nat :=
  match headerBad p with
  | some i => some i
  | none =>
      match pf p 0 1 with
      | 1 => launchBad p
      | 2 =>
          let nc := pf p 8 1 % 16
          if nc = 0 || 12 < nc then some 8
          else ((List.range nc).map fun c => 16 + 16 * c).find? fun o => 5 < pf p o 1 % 8
      | 3 => if pf p 8 8 % 8 ≠ 0 then some 8 else if 1 < pf p 24 1 then some 24 else none
      | 4 => if pf p 8 8 % 8 ≠ 0 then some 8 else none
      | 5 =>
          if pf p 8 1 = 0 || 2 < pf p 8 1 then some 8
          else if pf p 16 8 % 65536 ≠ 0 then some 16
          else if pf p 24 8 = 0 || pf p 24 8 % 65536 ≠ 0 then some 24 else none
      | _ => none

/-- The declared ranges of a LAUNCH packet (R368). -/
def packetRanges (p : List Byte) : List Range :=
  (List.range (pf p 57 1 % 16)).map fun r =>
    ⟨pw p (128 + 16 * r), pf p (136 + 16 * r) 5, (pw p (136 + 16 * r)).getLsbD 63⟩

/-- The launch of a LAUNCH packet (R368, R371, R179). -/
def launchOf (p : List Byte) (seq : Word) (pid : Byte) (queue : Option Nat) (slot : Word) (pri : Nat) : Launch :=
  let flags := pf p 56 1
  { seq := seq, pid := pid, queue := queue, slot := slot, st := .parsed, cid := none
    entry := pw p 8, param := pw p 16, harts := pf p 24 4, lreq := pf p 28 2, pri := pri, therm := pf p 31 1
    tag := BitVec.ofNat 32 (pf p 4 4), cpl := pw p 32, sig := pw p 40, eport := pw p 48
    recov := flags / 8 % 2 = 1, farm := flags % 2 = 1, compact := flags / 2 % 2 = 1, bitmap := flags / 4 % 2 = 1
    flo := pw p 64, fhi := pw p 72, fbmp := pw p 80, seed := BitVec.ofNat 32 (pf p 88 4)
    weight := BitVec.ofNat 8 (pf p 92 1), ranges := packetRanges p, units := none, placed := 0, ended := 0
    status := 0, stopping := false, leases := [], frames := [], unlogged := false, logs := [], torn := 0
    next := pw p 64, pool := [] }

/-! ## Parsing (R362, R363) -/

/-- Read the slots of a packet from slot i on (R362). -/
def readSlots (pid : Byte) (ring : Word) (slots : Nat) : Nat → Word → State → Option (List Byte × State)
  | 0, _, s => some ([], s)
  | n + 1, i, s =>
      match queueRead pid (ring + BitVec.ofNat 64 (64 * (i.toNat % slots))) 64 s with
      | none => none
      | some (b, s) => (readSlots pid ring slots n (i + 1) s).map fun r => (b ++ r.1, r.2)

/-- Parse the packet at HEAD, once all of its slots are among the avail slots below TAIL (R363, R364); a queue with a part of a
packet waits to be scheduled again. -/
def parsePacket (q avail : Nat) (s : State) : State :=
  let head := queueHead s q
  let ring := BitVec.ofNat 64 (queueField s q 0 8)
  let slots := queueField s q 8 4
  match readSlots (queuePid s q) ring slots 1 head s with
  | none => stopQueue q 2 head s
  | some (h, s') =>
      let n := pf h 1 1 % 16 + 1
      if avail < n then modQueue q (fun x => { x with till := none }) s
      else if (headerBad h).isSome then stopQueue q 0 head s'
      else
        match readSlots (queuePid s q) ring slots n head s with
        | none => stopQueue q 2 head s
        | some (p, s') =>
            if (packetBad p).isSome then stopQueue q 0 head s'
            else
              let s' := modQueue q (fun x => { x with packet := some ⟨head, p, []⟩ }) s'
              if pf p 0 1 = 1 then s' else
                s'.journal 0x01 (BitVec.ofNat 8 (pf p 0 1)) (some (queuePid s q)) (some q) none head
                  (BitVec.allOnes 64) 0 0 (BitVec.ofNat 64 (pf p 4 4)) p

/-- A slot of the packet at HEAD lies at a stopped home slice (R463). -/
def ringHeld (q : Nat) (s : State) : Bool :=
  s.zonesB ≠ [] && (List.range 4).any fun (i : Nat) =>
    queueHeld (queuePid s q) (BitVec.ofNat 64 (queueField s q 0 8)
      + BitVec.ofNat 64 (64 * (((queueHead s q).toNat + i) % queueField s q 8 4))) 64 s

/-- The processor parses the packet at HEAD of a queue. It goes on with a scheduled queue up to the TAIL it has read, and else
schedules the queue in its turn: it checks the control line and reads TAIL (R362 to R364, log 114). -/
def execQueueSchedule (q : Nat) (s : State) : Out :=
  due s (
    if !queueOn s q || resetting s (queuePid s q) || tableHeld s q then none
    else if (queueAt s q).packet.isNone && slotsLeft s q ≠ 0 then
      (if ringHeld q s then none else some (parsePacket q (slotsLeft s q) s))
    else if !inTurn s q then none
    else if !controlOk s q then some (stopQueue q 1 (queueHead s q) s)
    else
      let tail := BitVec.ofNat 64 (queueField s q 128 8)
      let s := modQueue q (fun x => { x with till := some tail }) (s.modPkg fun p => { p with served := q })
      if (queueAt s q).packet.isSome || queueAvail s q = 0 then some s
      else if ringHeld q s then none else some (parsePacket q (queueAvail s q) s))

/-- An access for a packet waits for a stopped home slice (R463). -/
def packetHeld (q : Nat) (p : Packet) (s : State) : Bool :=
  s.zonesB ≠ [] && match pf p.bytes 0 1 with
    | 2 => (List.range (pf p.bytes 8 1 % 16)).any fun c => queueHeld (queuePid s q) (pw p.bytes (16 + 16 * c) &&& ~~~7) 8 s
    | 3 | 4 => queueHeld (queuePid s q) (pw p.bytes 8) 8 s
    | 5 => s.purgeHeld (queueAgent (queuePid s q)) (pw p.bytes 16) (pf p.bytes 24 8)
    | _ => false

/-- Act on the parsed packet of a type of an enabled queue. -/
def withPacket (q type : Nat) (f : Packet → State → Option State) (s : State) : Out :=
  due s (match (queueAt s q).packet with
    | none => none
    | some p =>
        if queueOn s q && pf p.bytes 0 1 == type && !resetting s (queuePid s q) && !tableHeld s q && !packetHeld q p s
        then f p s else none)

/-- A NOP retires at once (R364). -/
def execPacketNop (q : Nat) (s : State) : Out := withPacket q 0 (fun p s => some (retire q p s)) s

/-- QUAL of the name of a queue-processor event of a launch (R413). -/
def launchQual (seq : Word) : Word := 0xC000000000000000 ||| (seq &&& 0x3FFFFFFFFFFFFFFF)

/-- A LAUNCH creates its launch in Parsed; the packet retires when the launch enters Ready (R364, R370, R371). -/
def execPacketLaunch (q : Nat) (s : State) : Out :=
  withPacket q 1 (fun p s =>
    if s.launches.any fun l => l.queue == some q && l.slot == p.slot && (l.st == .parsed || l.st == .leasing) then none
    else
      let seq := s.pkg.seqCount + 1
      let l := launchOf p.bytes seq (queuePid s q) (some q) p.slot
        (max (pf p.bytes 30 1) (queueField s q 13 1))
      let s := s.journal 0x01 1 (some (queuePid s q)) (some q) none p.slot seq l.entry (launchQual seq)
        (BitVec.ofNat 64 (pf p.bytes 4 4)) p.bytes
      some ({ s with launches := s.launches ++ [l] }.modPkg fun k => { k with seqCount := seq })) s

/-! ## FENCE, SIGNAL, EDGE and MODULE (R365 to R367, R378) -/

/-- One pass over the conditions of a FENCE: those seen to hold; none where a read is refused (R365). -/
def fencePass (pid : Byte) (p : List Byte) : List Nat → List Nat → State → Option (List Nat × State)
  | [], seen, s => some (seen, s)
  | c :: cs, seen, s =>
      if seen.contains c then fencePass pid p cs seen s
      else
        let a := pw p (16 + 16 * c)
        match queueRead pid (a &&& ~~~7) 8 s with
        | none => none
        | some (b, s) =>
            let holds := match Rel.ofCode (a.extractLsb' 0 3) with
              | some r => relHolds64 r true (wordOf b) (pw p (24 + 16 * c))
              | none => false
            fencePass pid p cs (if holds then c :: seen else seen) s

/-- One pass over a FENCE: the packet retires once every condition has held (R365). -/
def fenceStep (q : Nat) (p : Packet) (s : State) : State × Bool :=
  let nc := pf p.bytes 8 1 % 16
  match fencePass (queuePid s q) p.bytes (List.range nc) p.seen s with
  | none => (stopQueue q 2 p.slot s, false)
  | some (seen, s) =>
      if (List.range nc).all seen.contains then (retire q p s, true)
      else (modQueue q (fun x => { x with packet := some { p with seen := seen } }) s, false)

/-- A FENCE reads its counters (R365). -/
def execPacketFence (q : Nat) (s : State) : Out := withPacket q 2 (fun p s => some (fenceStep q p s).1) s

/-- Reads of a waiting FENCE find every condition satisfied (R365). -/
def execPacketFenceSatisfied (q : Nat) (s : State) : Out :=
  withPacket q 2 (fun p s => let r := fenceStep q p s; if r.2 then some r.1 else none) s

/-- A SIGNAL writes or adds (R366). -/
def execPacketSignal (q : Nat) (s : State) : Out :=
  withPacket q 3 (fun p s =>
    let pid := queuePid s q
    let done := if pf p.bytes 24 1 = 0 then queueWrite pid (pw p.bytes 8) (bytesOf 8 (pw p.bytes 16)) s
      else queueRmw pid (pw p.bytes 8) (· + pw p.bytes 16) s
    some (match done with | none => stopQueue q 2 p.slot s | some s => retire q p s)) s

/-- One attempt of an EDGE: it takes a free slot and retires, or waits (R367). -/
def edgeStep (q : Nat) (p : Packet) (s : State) : State × Bool :=
  let pid := queuePid s q
  let a := pw p.bytes 8
  match queueCheck pid a 8 .rmw s with
  | none => (stopQueue q 2 p.slot s, false)
  | some acc =>
      if (wordOf (s.bytesAt acc)).toInt < 1 then (s, false)
      else
        match queueRmw pid a (· - 1) s with
        | none => (stopQueue q 2 p.slot s, false)
        | some s => (retire q p s, true)

/-- An EDGE reads its counter (R367). -/
def execPacketEdge (q : Nat) (s : State) : Out := withPacket q 4 (fun p s => some (edgeStep q p s).1) s

/-- A waiting EDGE takes a slot (R367). -/
def execPacketEdgeTaken (q : Nat) (s : State) : Out :=
  withPacket q 4 (fun p s => let r := edgeStep q p s; if r.2 then some r.1 else none) s

/-- A MODULE load acts as ipurge over its range, with the partition's translation (R378, R379). -/
def execPacketModuleLoad (q : Nat) (s : State) : Out :=
  withPacket q 5 (fun p s => if pf p.bytes 8 1 = 1 then
    some (retire q p (s.purge (queueAgent (queuePid s q)) (pw p.bytes 16) (pf p.bytes 24 8))) else none) s

/-- A MODULE unload waits for the launches whose entry lies in the range (R378). -/
def execPacketModuleUnload (q : Nat) (s : State) : Out :=
  withPacket q 5 (fun p s =>
    let base := pf p.bytes 16 8
    let busy := s.launches.any fun l => l.pid == queuePid s q && (l.st == .leasing || l.st == .ready || l.st == .running)
      && decide (base ≤ l.entry.toNat) && decide (l.entry.toNat < base + pf p.bytes 24 8)
    if pf p.bytes 8 1 = 2 && !busy then some (retire q p (s.purge (queueAgent (queuePid s q)) (pw p.bytes 16) (pf p.bytes 24 8)))
    else none) s

/-! ## Parsed, Leasing, Ready (R370, R371, R386, R461) -/

/-- The first launch in Parsed receives the identifier that was freed least recently (R371); one that a reset has removed starts
no more (R445). -/
def execCidAssign (seq : Nat) (s : State) : Out :=
  due s (match s.launches.find? fun l => l.st = .parsed && !l.stopping, s.pkg.cids with
    | some l, c :: cs =>
        if l.seq.toNat ≠ seq then none
        else some ((s.modLaunch l.seq fun l => { l with st := .leasing, cid := some c }).modPkg fun p => { p with cids := cs })
    | _, _ => none)

/-- Addresses of the pages of 64 KiB of the pinned ranges of a launch. -/
def pinnedAddrs (l : Launch) : List Word :=
  (l.ranges.filter fun r => !r.elastic).flatMap fun r =>
    (List.range (r.len / 65536)).map fun i => r.base + BitVec.ofNat 64 (65536 * i)

/-- Those pages by their numbers. -/
def pinnedPages (l : Launch) : List Nat := (pinnedAddrs l).map fun a => a.toNat % 2 ^ 57 / 65536

/-- A page of a partition is resident: its translation is valid (R370, R382). -/
def resident (s : State) (pid : Byte) (page : Nat) : Bool :=
  match s.lookup none pid (BitVec.ofNat 64 (page * 65536)) with
  | (.leaf _, _) => true
  | _ => false

/-- A launch in Leasing whose pinned pages are resident, so that none lies at an address that is not canonical, takes its
leases, and waits for flow behind the launches that have done so before (R370, R386, R461). -/
def reachGrant (l : Launch) (s : State) : Option State :=
  let pages := pinnedPages l
  if l.st ≠ .leasing || l.stopping || !(pinnedAddrs l).all canonical || !pages.all (resident s l.pid) then none
  else
    some ((s.modLaunch l.seq fun l => { l with leases := pages }).modPkg fun p => { p with
      grants := if p.grants.contains l.seq then p.grants else p.grants ++ [l.seq] })

/-- A launch reaches the grant of flow. -/
def flowQueue (seq : Nat) (s : State) : Option State :=
  match s.launches.find? fun l => l.seq.toNat = seq with
  | none => none
  | some l => reachGrant l s

/-- The launch that waits first for flow has its leases and receives its flow: it enters Ready, behind the launches that are
there (R370, R372, R461). -/
def grantFlow (l : Launch) (s : State) : Option State :=
  let units := (byteOf s.pkg.ctcls l.therm).toNat
  if s.pkg.grants.head? ≠ some l.seq || !(pinnedPages l).all l.leases.contains
      || 1024 - 104 < s.shares (some (l.pid, units)) then none
  else
    let s := s.modPkg fun p => { p with grants := p.grants.drop 1 }
    some { s with launches := (s.launches.filter fun x => x.seq ≠ l.seq) ++ [{ l with st := .ready, units := some units }] }

/-- A launch in Leasing takes its leases and its flow, in its turn. -/
def lease (l : Launch) (s : State) : Option State :=
  match reachGrant l s with
  | none => none
  | some s => (s.launchAt l.seq).bind fun l => grantFlow l s

/-- A launch leaves Leasing, and its packet retires, also where its queue was stopped meanwhile and still has the packet at HEAD
(R363, R364, R370). -/
def execLeasingDone (seq : Nat) (s : State) : Out :=
  due s (match s.launches.find? fun l => l.seq.toNat = seq with
    | none => none
    | some l =>
        match lease l s with
        | none => none
        | some s =>
            match l.queue with
            | none => some s
            | some q =>
                if tableHeld s q then none
                else match (queueAt s q).packet with
                | none => some (if queueHead s q = l.slot then retireSlots q l.slot 4 s else s)
                | some p => some (if p.slot = l.slot then retire q p s else s))

/-! ## Placement (R372, R373) -/

/-- Hart slots that a partition owns. -/
def ownedHarts (s : State) (p : Byte) : Nat :=
  ((List.range Config.cores).map fun c =>
    ((List.range Config.hartsPerCore).filter fun i => decide ((s.coreAt c).hartPid i = p)).length).sum

/-- Free hart slots of core c on which a launch's hart may be placed (R372, R392, R461). -/
def fittingSlots (l : Launch) (s : State) (c : Nat) : List Nat :=
  if (l.lreq ≠ 0 && (s.coreAt c).gpart l.pid = 0) || (s.zoneAt (State.zoneOfCore c)).evac ≠ 0 then []
  else ((List.range Config.hartsPerCore).filter fun i =>
    decide ((s.coreAt c).hartPid i = l.pid) && (s.hartAt (Config.hartsPerCore * c + i)).run == .empty).map fun i =>
      Config.hartsPerCore * c + i

/-- Committed lane requests of core c (R372). -/
def committed (s : State) (c : Nat) : Nat :=
  ((List.range Config.hartsPerCore).map fun i =>
    match (s.hartAt (Config.hartsPerCore * c + i)).launch.bind s.launchAt with
    | some l => l.lreq
    | none => 0).sum

/-- The core that the rule of R372 chooses among those with a fitting slot. -/
def chosenCore (l : Launch) (s : State) : Option Nat :=
  (List.range Config.cores).foldl (fun best c =>
    if fittingSlots l s c = [] then best
    else
      match best with
      | none => some c
      | some b => if committed s c < committed s b then some c else best) none

/-- The start state of rank r of a launch in its slot (R373). -/
def startHart (l : Launch) (r : Nat) (slot : Hart) : Hart :=
  { Hart.reset with
    run := .running
    level := .user
    pc := pcOf l.entry
    s := tset 0 (tset 0 (tset 0 [] 2 l.param) 3 (BitVec.ofNat 64 r)) 4 (BitVec.ofNat 64 l.harts)
    seed := l.seed
    rank := BitVec.ofNat 16 r
    cid := l.cid.getD 0
    pid := l.pid
    eport := l.eport
    lwt := l.weight
    launch := some l.seq
    mtvec := slot.mtvec }

/-- Number the placement of the context on hart h (R372). -/
def numberTurn (h : Nat) (s : State) : State :=
  (s.modHart h fun x => { x with turn := s.pkg.turns }).modPkg fun p => { p with turns := p.turns + 1 }

/-- Place the next rank of a launch on hart h. -/
def placeOn (l : Launch) (r h : Nat) (s : State) : State :=
  (numberTurn h (s.modHart h (startHart l r))).modLaunch l.seq fun l => { l with placed := r + 1, st := .running }

/-- Place the ranks from r on, n of them, each on the chosen core's lowest fitting slot: all or none. -/
def placeRest (l : Launch) : Nat → Nat → State → Option State
  | 0, _, s => some s
  | n + 1, r, s =>
      match chosenCore l s with
      | none => none
      | some c =>
          match fittingSlots l s c with
          | [] => none
          | h :: _ => placeRest l n (r + 1) (placeOn l r h s)

/-- A launch waits ahead of another in its partition's ready list, and the other may not pass it (R372). -/
def isAhead (l x : Launch) (s : State) : Bool :=
  x.pid == l.pid && x.seq != l.seq && !x.stopping && decide (x.placed < x.harts) && (x.st == .ready || x.st == .running)
    && (decide (x.pri < l.pri) || (x.pri == l.pri
      && decide ((s.launches.findIdx fun y => y.seq = x.seq) < (s.launches.findIdx fun y => y.seq = l.seq))))
    && (decide (x.harts ≤ ownedHarts s x.pid) || (chosenCore x s).isSome)

/-- The scheduler places the next hart of a launch on hart h, or all harts of a gang launch, the first of them on
h (R372, R373). -/
def execHartPlacement (seq rank h : Nat) (s : State) : Out :=
  due s (match s.launches.find? fun l => l.seq.toNat = seq with
    | none => none
    | some l =>
        if !(l.st == .ready || l.st == .running) || l.stopping || rank ≠ l.placed || l.harts ≤ rank
          || (s.launches.any fun x => isAhead l x s) then none
        else
          match chosenCore l s with
          | none => none
          | some c =>
              if !(fittingSlots l s c).contains h then none
              else
                let s := placeOn l rank h s
                if l.harts ≤ ownedHarts s l.pid then placeRest l (l.harts - rank - 1) (rank + 1) s else some s)

/-- The next hart of a launch, or every hart of a gang launch, can be placed (R372). -/
def placeable (l : Launch) (s : State) : Bool :=
  if l.harts ≤ ownedHarts s l.pid then (placeRest l (l.harts - l.placed) l.placed s).isSome else (chosenCore l s).isSome

/-- The first launch of a partition's ready list: by PRI, then by its entry to Ready (R372). -/
def headLaunch (s : State) (p : Byte) : Option Launch :=
  (s.launches.filter fun l =>
      l.pid == p && !l.stopping && decide (l.placed < l.harts) && (l.st == .ready || l.st == .running)).foldl
    (fun best l => match best with | none => some l | some b => if l.pri < b.pri then some l else some b) none

/-! ## The end of a launch (R369, R258, R370, R371) -/

/-- Barriers that a launch owns become inactive (R258). -/
def clearBarriers (tag : Nat) (s : State) : State :=
  { s with cores := s.cores.map fun (p : Nat × Core) => (p.1, { p.2 with
      barriers := p.2.barriers.filter fun b => b.2.owner ≠ tag }) }

/-- Announce a launch's end: journal entry 0x02, completion record and signal (R369, R441). A refused record or signal is
not written (log 35). -/
def announceEnd (l : Launch) (status : Byte) (s : State) : State :=
  let s := s.journal 0x02 status (some l.pid) l.queue l.cid l.slot l.seq l.entry (launchQual l.seq)
    (BitVec.ofNat 64 l.torn) []
  let record := leBytes 4 status.toNat ++ leBytes 4 l.tag.toNat ++ bytesOf 8 l.seq
  let s := (queueWrite l.pid l.cpl record s).getD s
  if l.sig = 0 then s else (queueRmw l.pid l.sig (· + 1) s).getD s

/-- What a launch holds ends: its barriers, its leases and its identifier (R258, R371, R387). -/
def freeLaunch (l : Launch) (s : State) : State :=
  let s := clearBarriers (l.seq.toNat + 1) s
  let s := s.modLaunch l.seq fun l => { l with leases := [] }
  s.modPkg fun p => { p with
    cids := match l.cid with | some c => p.cids ++ [c] | none => p.cids
    grants := p.grants.filter (· ≠ l.seq) }

/-- An ended launch is forgotten, and its queue's watchdog starts anew (R370, R444). -/
def forgetLaunch (l : Launch) (s : State) : State :=
  let s := { s with
    launches := s.launches.filter fun x => x.seq ≠ l.seq
    orphans := s.orphans.filter fun p => p.2.launch ≠ some l.seq }
  match l.queue with
  | some q => modQueue q (fun x => { x with wd := 0 }) s
  | none => s

/-- The launch's end (R369, R370, R371, R441). -/
def closeLaunch (l : Launch) (status : Byte) (s : State) : State :=
  forgetLaunch l (freeLaunch l (announceEnd l status s))

/-- The end of a launch waits for a stopped home slice (R463). -/
def endHeld (l : Launch) (s : State) : Bool :=
  s.journalHeld || queueHeld l.pid l.cpl 16 s || (l.sig ≠ 0 && queueHeld l.pid l.sig 8 s)

/-- Some context of a launch is on a slot or saved. -/
def hasContexts (s : State) (seq : Word) : Bool :=
  (s.slots.any fun n => (s.hartAt n).run ≠ .empty && (s.hartAt n).launch == some seq)
    || s.saved.any fun c => c.hart.launch == some seq

/-- A launch ends once its harts, commands and replays have ended (R369). -/
def execLaunchEnd (seq : Nat) (s : State) : Out :=
  due s (match s.launches.find? fun l => l.seq.toNat = seq with
    | none => none
    | some l =>
        if l.st ≠ .running || inReset s l.seq || endHeld l s || hasContexts s l.seq || !(l.stopping || l.ended == l.harts)
          || (s.orphans.any fun p => p.2.launch == some l.seq && State.hasWork p.2) then none
        else some (closeLaunch l l.status s))

/-! ## lnch and ipurge (R374, R379) -/

/-- The queued accesses that precede a launch have been performed (R376). -/
def accessesDone (s : State) : Bool := s.hart.episode.isNone && !s.hart.vcq.any fun e => usesMem e.instr

/-- The queued writes that precede a purge have been performed (R379). DESIGN CHOICE (log 101): the entries of a store stream
that are still to be written are not waited for. -/
def writesDone (s : State) : Bool := s.hart.episode.isNone && !s.hart.vcq.any fun e => writesMem e.instr

/-- The first range of a packet that lies in no pinned range of the launcher (R374). -/
def strayRange (own : List Range) (rs : List Range) : Option Nat :=
  (rs.zipIdx.find? fun p => !own.any fun r =>
    !r.elastic && decide (r.base.toNat ≤ p.1.base.toNat) && decide (p.1.base.toNat + p.1.len ≤ r.base.toNat + r.len)).map
      fun p => p.2

/-- Launch Fault (R374). -/
def launchFault (code byte : Nat) (s : State) : State := s.takeTrap ⟨.launch, BitVec.ofNat 64 (code + 256 * byte)⟩

/-- lnch (R374, R441). -/
def execLnch (c : Ctl) (d : Operand) (a : BitVec 6) (s : State) : Out :=
  guarded c s <| unlessDoff fun s =>
    let i := Instr.lnch c d a
    let va := s.hart.rs a.toNat
    if !accessesDone s || s.journalHeld then s.await i
    else if canonical va && va.toNat % 64 ≠ 0 then s.takeTrap ⟨.misaligned, va⟩
    else
      match loadBytes ((List.range 256).map fun k => va + BitVec.ofNat 64 k) s with
      | .error t => s.takeTrap t
      | .ok (p, s') =>
          match (if pf p 0 1 = 1 then packetBad p else some 0) with
          | some b => launchFault 1 b s
          | none =>
              let own := match s.myLaunch with | some l => l.ranges | none => []
              match strayRange own (packetRanges p), s.pkg.cids with
              | some r, _ => launchFault 2 (128 + 16 * r) s
              | none, [] => s.await i
              | none, id :: ids =>
                  if 64 ≤ (s.launches.filter fun l => l.pid == s.hart.pid && l.queue.isNone).length then s.await i
                  else
                    let seq := s.pkg.seqCount + 1
                    let l : Launch := { launchOf p seq s.hart.pid none 0 (max (pf p 30 1) (s.prioOf s.hart.launch)) with
                      st := .leasing, cid := some id }
                    let s' := { s' with launches := s'.launches ++ [l] }.modPkg fun k =>
                      { k with seqCount := seq, cids := ids }
                    let s' := s'.journal 0x01 1 (some s.hart.pid) none (some id) 0 seq l.entry (launchQual seq)
                      (BitVec.ofNat 64 (pf p 4 4)) p
                    deliver i s d seq ((lease l s').getD ((reachGrant l s').getD s'))

/-- ipurge waits for the earlier writes of the hart, and every instruction cache drops the frames of its range, which the hart
translates as it fetches (R379). -/
def execIpurge (c : Ctl) (a : BitVec 6) (b : Operand) (s : State) : Out :=
  guarded c s fun s =>
    let i := Instr.ipurge c a b
    if !writesDone s then s.await i else withSources i b .none (fun n _ s' =>
      let va := s.hart.rs a.toNat
      let n := min n.toNat (2 ^ 32)
      if s.purgeHeld s.agent va n then s.await i else (s'.purge s.agent va n).advance) s

end Sys2Proof.Machine
end

