-- ==== Sys2Proof/Machine/Preempt.lean ====
section
/-! DEFINITION. Pre-emption and restore: yield requests, quantum expiry, forced saves, and the restore of a saved
context (R372, R405 to R412). -/

namespace Sys2Proof.Machine

/-! ## Yield requests (R372, R405) -/

/-- Set yreq and load the deadline (R405). -/
def Hart.askYield (h : Hart) : Hart := { h with yreq := true, ydl := h.ydef }

/-- The contexts of a partition that have been asked to yield give up their slots. -/
def yielded (s : State) (p : Byte) : State :=
  (s.slots.filter fun n => (s.hartAt n).run ≠ .empty && (s.hartAt n).pid == p && (s.hartAt n).yreq).foldl
    (fun s n => s.modHart n fun x => { x with run := .empty }) s

/-- A context comes before another among those asked to yield: a greater priority number, then the one placed last (R372). -/
def yieldsBefore (s : State) (x y : Hart) : Bool :=
  decide (s.prioOf y.launch < s.prioOf x.launch) || (s.prioOf x.launch == s.prioOf y.launch && decide (y.turn < x.turn))

/-- A running context of the partition of a launch, of greater priority number, that has not been asked to yield (R372). -/
def canYield (s : State) (l : Launch) (x : Hart) : Bool :=
  x.run == .running && x.pid == l.pid && x.launch.isSome && !x.yreq && decide (l.pri < s.prioOf x.launch)

/-- The scheduler asks the context of hart h to yield: the head of its partition's ready list cannot be placed, also not in
the slots that the contexts asked before it give up, and h comes first among those of greater priority number (R372,
R405). -/
def execYieldRequest (h : Nat) (s : State) : Out :=
  due s (let x := s.hartAt h
    match headLaunch s x.pid with
    | none => none
    | some l =>
        if !canYield s l x || placeable l (yielded s x.pid)
          || (s.slots.any fun n => canYield s l (s.hartAt n) && yieldsBefore s (s.hartAt n) x) then none
        else some (s.modHart h Hart.askYield))

/-- The page whose absence saved a context is resident (R412). -/
def elasticReady (s : State) (c : Saved) : Bool :=
  c.reason ≠ .elastic || resident s c.hart.pid (c.fva.toNat % 2 ^ 57 / 65536)

/-- Contexts of a partition and priority that are ready and not on a slot (R372); a saved one whose page is missing is not
ready (R412). -/
def readyContexts (s : State) (p : Byte) (pri : Nat) : Nat :=
  ((s.launches.filter fun l => l.pid == p && l.pri == pri && (l.st == .ready || l.st == .running) && !l.stopping).map
      fun l => l.harts - l.placed).sum
    + (s.saved.filter fun c => c.hart.pid == p && s.prioOf c.hart.launch == pri && elasticReady s c).length

/-- Free hart slots of a partition. -/
def freeSlots (s : State) (p : Byte) : Nat :=
  ownedHarts s p - (s.slots.filter fun n => (s.hartAt n).run ≠ .empty && (s.hartAt n).pid == p).length

/-- Running time after which a context is asked to yield: QUANT x its weight (R372). -/
def quantumOf (x : Hart) (s : State) : Nat := max s.pkg.sqnt.toNat 1 * max x.lwt.toNat 1

/-- Ready contexts of the priority of a running one outnumber their free slots (R372). -/
def contested (x : Hart) (s : State) : Bool :=
  x.launch.isSome && !x.yreq && decide (freeSlots s x.pid < readyContexts s x.pid (s.prioOf x.launch))

/-- The running time of the context of hart h reaches its quantum while others of its priority wait (R372). -/
def execQuantumExpiry (h : Nat) (s : State) : Out :=
  due s (let x := s.hartAt h
    if x.run = .empty || x.ticks < quantumOf x s || !contested x s then none else some (s.modHart h Hart.askYield))

/-! ## Forced saves (R406, R407) -/

/-- The deadline of the focused hart has passed, and no doff routine and no handler defers it (R406). -/
def deadlinePassed (h : Hart) : Bool := h.run == .running && h.yreq && h.ydl = 0 && !h.dAct && !h.inh

/-- Save the focused hart's context at its boundary (R407, R408). -/
def saveAtBoundary (reason : Reason) (s : State) : State :=
  (s.lateStores.withdraw s.cur).drainAll |> fun s => s.saveContext reason (pcWord s.hart.pc 0) 0

/-! ## Restore (R183, R372, R410 to R412) -/

/-- Tile slots that a context holds are on the core of hart h (R344, R372). -/
def tilesHere (s : State) (c : Saved) (h : Nat) : Bool :=
  s.cores.all fun p => p.1 == h / Config.hartsPerCore
    || (List.range 4).all fun n => (p.2.tile n).holder ≠ some (c.hart.key c.slotNo)

/-- A saved context fits hart h (R344, R372, R410, R461). -/
def fitsHart (s : State) (i : Nat) (c : Saved) (h : Nat) : Bool :=
  let k := h / Config.hartsPerCore
  let core := s.coreAt k
  let lreq := match c.hart.launch.bind s.launchAt with | some l => l.lreq | none => 0
  decide (h < slotCount) && (s.hartAt h).run == .empty && decide (core.hartPid (h % Config.hartsPerCore) = c.hart.pid)
    && (c.hart.launch.isSome || c.slotNo == h)
    && (c.vpc = 0 || decide (c.groups ≤ (core.freeOf c.hart.pid).length))
    && (lreq == 0 || core.gpart c.hart.pid ≠ 0) && (s.zoneAt (State.zoneOfCore k)).evac = 0
    && tilesHere s c h && elasticReady s c
    && !(s.saved.take i).any fun x => x.hart.pid == c.hart.pid && s.prioOf x.hart.launch == s.prioOf c.hart.launch
          && elasticReady s x

/-- A saved context may be placed on hart h: among the cores that it fits, h's has the least committed lane requests, ties going
to the lowest number (R372). -/
def restorable (s : State) (i : Nat) (c : Saved) (h : Nat) : Bool :=
  let k := h / Config.hartsPerCore
  let fits := fun (k : Nat) => (List.range Config.hartsPerCore).any fun j => fitsHart s i c (Config.hartsPerCore * k + j)
  let n := committed s k
  fitsHart s i c h && !((List.range k).any fun k => fits k && decide (committed s k ≤ n))
    && (n == 0 || !(List.range Config.cores).any fun k => decide (committed s k < n) && fits k)

/-- The vector elements below n of a register of the area. -/
def areaElems (s : State) (pa n : Nat) : List (Nat × Elem) :=
  (List.range n).foldl (fun t e => tset 0 t e (BitVec.ofNat 32 (leNat (s.bytes (pa + 4 * e) 4)))) []

/-- The context as its area gives it back (R183, R409, R410). -/
def restoredHart (s : State) (c : Saved) (slot : Hart) : Hart :=
  let a := c.hart.area
  let h := c.hart
  let vl := h.vl.toNat
  { h with
    run := .running
    pc := pcOf (s.word8 a)
    vstart := BitVec.ofNat 13 (leNat (s.bytes (a + 16) 2))
    s := (List.range 63).foldl (fun t k => tset 0 t (k + 1) (s.word8 (a + 0x108 + 8 * k))) []
    v := (List.range 32).foldl (fun t k => tset [] t k (areaElems s (a + 0x10000 + 4096 * k) vl)) []
    m := (List.range 8).foldl (fun t k => tset [] t k
      ((List.range vl).foldl (fun t e => tset 0 t e (s.byte (a + 0x30000 + 1024 * k + e))) [])) []
    vl := if c.vpc = 0 then 0 else h.vl
    demand := if c.vpc = 0 then h.demand else c.groups
    evict := false
    ticks := 0
    mtvec := slot.mtvec
    psel := slot.psel }

/-- Lease the page whose fault saved a context (R386, R412). -/
def leaseFault (c : Saved) (s : State) : State :=
  match c.reason, c.hart.launch with
  | .elastic, some q => s.modLaunch q fun l =>
      let page := c.fva.toNat % 2 ^ 57 / 65536
      if l.leases.contains page then l else { l with leases := page :: l.leases }
  | _, _ => s

/-- Restore saved context i onto hart h; a forbidden change of its area ends its task (R409, R410). -/
def restore (i h : Nat) (c : Saved) (s : State) : State :=
  if s.opaqueAt c.hart.area ≠ c.opaqueCells then
    match c.hart.launch with
    | some q => s.stopLaunch q 2
    | none => { s with saved := s.saved.eraseIdx i }
  else
    let x := restoredHart s c (s.hartAt h)
    let s := { s with saved := s.saved.eraseIdx i } |> leaseFault c
    (numberTurn h (s.modHart h fun _ => x.appendResults)).carryCounters h true x |>
      State.atHart h fun s => if c.vpc = 0 then s else s.regroup c.groups

/-- The scheduler restores saved context i onto hart h (R372, R410). -/
def execContextRestore (i h : Nat) (s : State) : Out :=
  due s (match s.saved[i]? with
    | none => none
    | some c => if restorable s i c h && !s.rangeHeld c.hart.area 0x52000 then some (restore i h c s) else none)

end Sys2Proof.Machine
end

