-- ==== Sys2Proof/Machine/Fabric.lean ====
section
/-! DEFINITION. Steps of the package's fabric: host and peer accesses (R360, R389), shootdowns (R385), frame ownership
(R388), migration (R390), peer links (R391), partition assignments (R392, R393) and power gating (R457). -/

namespace Sys2Proof.Machine

/-! ## External agents (R389) -/

/-- OWNER values that an external agent is admitted to, given those of partitions (R389). -/
def externAdmits (part : Byte → Bool) (kernel : Bool) (o : BitVec 16) : Bool :=
  (kernel && o = 0x0001) || (o.extractLsb' 8 8 = 1 && part (o.extractLsb' 0 8))

/-- Every byte of a range is device memory that an external agent is admitted to (R389). -/
def externMay (part : Byte → Bool) (kernel : Bool) (pa n : Nat) (s : State) : Bool :=
  (List.range n).all fun i => isDevice (pa + i) && externAdmits part kernel (s.owner ((pa + i) / 65536))

/-- A read by an external agent: the bytes and the poison indication (R436). -/
def externRead (pa n : Nat) (s : State) : State :=
  { s with replies := s.replies ++ [.data (s.bytes pa n) (s.poisoned pa n)] }

/-- A write by an external agent: its tag is all ones (R425), and a line that it covers loses its poison (R436). -/
def externWrite (pa : Nat) (data : List Byte) (s : State) : State :=
  (s.writeDev pa data).cover [(s.forward pa, data.length)]

/-- Append a reply. -/
def State.reply (r : Reply) (s : State) : State := { s with replies := s.replies ++ [r] }

/-- A host access through CXL.mem or CXL.cache; a refused read gets the error completion, and a refused write is
dropped (R389). -/
def execHostLinkAccess (write : Bool) (pa : Nat) (data : List (BitVec 8)) (s : State) : Out :=
  due s (
    if !externMay (fun _ => true) true pa data.length s then some (if write then s else s.reply .error)
    else if s.rangeHeld pa data.length then none
    else some (if write then externWrite pa data s else externRead pa data.length s))

/-- Bit p of a register of four words. -/
def bit256 (t : List (Nat × Word)) (p : Byte) : Bool := (tget 0 t (p.toNat / 64)).getLsbD (p.toNat % 64)

/-- A peer's access through UALink; a refused access gets the error completion (R389). -/
def execPeerAccess (peer : Nat) (write : Bool) (pa : Nat) (data : List (BitVec 8)) (s : State) : Out :=
  due s (
    if !s.pkg.peersUp.contains peer then none
    else if !externMay (bit256 s.pkg.fpeer) false pa data.length s then some (s.reply .error)
    else if s.rangeHeld pa data.length then none
    else some (if write then (externWrite pa data s).reply .done else externRead pa data.length s))

/-! ## Shootdown and ownership (R385, R388) -/

/-- Writing tsn with GO = 1; it has no effect while BUSY (R385). -/
def execShootdown (n : BitVec 32) (s : State) : Out := .next (if s.pkg.tsnBusy then s else s.startShootdown n)

/-- The shootdown in progress completes (R385). -/
def execShootdownComplete (s : State) : Out := due s (if s.pkg.tsnBusy then some s.endShootdown else none)

/-- Writing fown with RD = 0 (R388). -/
def execFownWrite (owner : BitVec 16) (frame : BitVec 36) (s : State) : Out := .next (s.writeFown false owner frame)

/-- Writing fown with RD = 1 (R388). -/
def execFownRead (frame : BitVec 36) (s : State) : Out := .next (s.writeFown true 0 frame)

/-! ## Migration (R390) -/

/-- Writing migs with GO = 1 (R390). -/
def execMigrationStart (src : BitVec 36) (s : State) : Out := .next (s.startMigration src)

/-- Copy line i of the migrating frame: it is recalled from the stashes, and its bytes, its tag and its poison bit
move (R390, R425). -/
def copyLine (i : Nat) (s : State) : State :=
  let src := s.pkg.movSrc.toNat * 512 + i
  let dst := s.pkg.movDst.toNat * 512 + i
  let bs := (List.range 128).map fun j => s.rawByte (src * 128 + j)
  let bad := s.poison.contains src
  let s := s.cleanIf fun d => d.pline = src || d.pline = dst
  { s with
    mem := tsets 0 s.mem (dst * 128) bs
    tags := tset (BitVec.allOnes 28) s.tags dst (s.tag src)
    poison := if bad then (if s.poison.contains dst then s.poison else dst :: s.poison)
      else s.poison.filter (· ≠ dst)
    residue := s.residue.filter (· ≠ State.rowOf (dst * 128)) }

/-- Every line has been copied: accesses go on being forwarded, and a frame that launches have written is the destination
(R390, R448). -/
def State.endMigration (s : State) : State :=
  let src := s.pkg.movSrc.toNat
  let dst := s.pkg.movDst.toNat
  let s := { s with launches := s.launches.map fun (l : Launch) =>
    { l with frames := (l.frames.map fun f => if f = src then dst else f).eraseDups } }
  s.modPkg fun p => { p with migBusy := false, migFwd := false, fwds := p.fwds ++ [(src, dst)] }

/-- The next line is copied, once neither home slice is stopped (R463); the last one clears BUSY (R390). -/
def execMigrationLineCopy (s : State) : Out :=
  let line := fun (frame : BitVec 36) => s.rangeHeld (frame.toNat * 65536 + s.pkg.migDone * 128) 128
  due s (if !s.pkg.migBusy || line s.pkg.movSrc || line s.pkg.movDst then none
    else
      let n := s.pkg.migDone
      let s := (copyLine n s).modPkg fun p => { p with migDone := n + 1 }
      some (if n + 1 < 512 then s else s.endMigration))

/-! ## Peers (R391) -/

/-- A link handshake with a peer completes (R391). -/
def execPeerLinkUp (peer : Nat) (s : State) : Out :=
  due s (if 576 ≤ peer || s.pkg.peersUp.contains peer then none
    else some (s.modPkg fun p => { p with peersUp := p.peersUp ++ [peer] }))

/-- A peer is lost: its reachable bit and its cached translations go (R391). -/
def execPeerLoss (peer : Nat) (s : State) : Out :=
  due s (if !s.pkg.peersUp.contains peer then none
    else some { s.modPkg fun p => { p with peersUp := p.peersUp.filter (· ≠ peer) } with
      tlb := s.tlb.filter fun e => !(isPeer e.pa && peerOf e.pa == peer) })

/-! ## Partition assignments (R392, R393) -/

/-- Writing pgrpl or pgrph of a core (R392, R393, R411). -/
def execPartitionGroupWrite (core : Nat) (high : Bool) (v : BitVec 64) (s : State) : Out :=
  .next (s.writePgrp core high v)

/-- Writing phart of a core (R392, R393). -/
def execPhartWrite (core : Nat) (v : BitVec 64) (s : State) : Out := .next (s.writePhart core v)

/-- Writing crown of a cluster (R265, R393). -/
def execCrownWrite (cluster : Nat) (v : BitVec 64) (s : State) : Out :=
  .next (s.writeCrown cluster (v.getLsbD 8) (v.extractLsb' 0 8))

/-! ## Power gating (R196, R457) -/

/-- Writing sgate of a core (R457). -/
def execSgateWrite (core : Nat) (v : BitVec 64) (s : State) : Out := .next (s.writeSgate core v)

/-- An access wakes a gated stash bank: its bit becomes 1 (R457). -/
def execBankWake (core bank : Nat) (s : State) : Out :=
  due s (if (s.coreAt core).sgate.getLsbD bank || 64 ≤ bank then none
    else some (s.modCore core fun c => { c with sgate := c.sgate ||| ((1 : Word) <<< bank) }))

/-- Writing wgate (R457). -/
def execWgateWrite (v : BitVec 16) (s : State) : Out := .next (s.writeWgate v)

/-- A frame is zeroed and its poison cleared (R436). -/
def execRpoisGo (frame : BitVec 36) (s : State) : Out := .next (s.writeRpois true frame)

end Sys2Proof.Machine
end

