-- ==== Sys2Proof/Machine/Perform.lean ====
section
/-! DEFINITION. The meaning of an instruction of a word, for the steps that the device makes on a hart's behalf: the
completion of a waiting instruction and a Fjoir STEP. -/

namespace Sys2Proof.Machine

/-- Perform an instruction on the focused hart. The rows that no word names are not performed by a hart. -/
def perform (i : Instr) (s : State) : Out :=
  match i with
  | .nop c => execNop c s
  | .pad c => execPad c s
  | .br c disp => execBr c disp s
  | .brl c disp => execBrl c disp s
  | .bc c rel nat a b disp => execBc c rel nat a b disp s
  | .dbnz c d disp => execDbnz c d disp s
  | .call c d disp => execCall c d disp s
  | .calll c link disp => execCalll c link disp s
  | .jcall c d a => execJcall c d a s
  | .jr c a => execJr c a s
  | .ret c a => execRet c a s
  | .ifpf c level a b => execIfpf c level a b s
  | .add c o => execAdd c o s
  | .sub c o => execSub c o s
  | .addi c o simm => execAddi c o simm s
  | .mul c o => execMul c o s
  | .mulh c o => execMulh c o s
  | .div c o => execDiv c o s
  | .rem c o => execRem c o s
  | .min c o => execMin c o s
  | .max c o => execMax c o s
  | .and c o => execAnd c o s
  | .or c o => execOr c o s
  | .xor c o => execXor c o s
  | .andn c o => execAndn c o s
  | .shl c o => execShl c o s
  | .shr c o => execShr c o s
  | .sra c o => execSra c o s
  | .rot c o => execRot c o s
  | .clz c o => execClz c o s
  | .ctz c o => execCtz c o s
  | .popc c o => execPopc c o s
  | .bfx c o pos len1 => execBfx c o pos len1 s
  | .bfi c o pos len1 => execBfi c o pos len1 s
  | .sext c o => execSext c o s
  | .zext c o => execZext c o s
  | .li c d b => execLi c d b s
  | .lih c d b => execLih c d b s
  | .mov c d a => execMov c d a s
  | .lea c d a b sh disp => execLea c d a b sh disp s
  | .cmp c rel nat d a b => execCmp c rel nat d a b s
  | .sel c d a b pneg pn => execSel c d a b pneg pn s
  | .pand c d a b => execPand c d a b s
  | .por c d a b => execPor c d a b s
  | .pxor c d a b => execPxor c d a b s
  | .pnot c d a => execPnot c d a s
  | .getsr c d idx => execGetsr c d idx s
  | .putsr c idx a => execPutsr c idx a s
  | .ld c fmt d a b => execLd c fmt d a b s
  | .st c fmt d a b => execSt c fmt d a b s
  | .ldAq c fmt sc d a b => execLdAq c fmt sc d a b s
  | .stRl c fmt sc d a b => execStRl c fmt sc d a b s
  | .ldx c fmt d a b disp => execLdx c fmt d a b disp s
  | .prf c a b => execPrf c a b s
  | .vadd c o => execVadd c o s
  | .vsub c o => execVsub c o s
  | .vmul c o => execVmul c o s
  | .vmulh c o => execVmulh c o s
  | .vmadd c o => execVmadd c o s
  | .vmin c o => execVmin c o s
  | .vmax c o => execVmax c o s
  | .vabsd c o => execVabsd c o s
  | .vavg c o => execVavg c o s
  | .vand c o => execVand c o s
  | .vor c o => execVor c o s
  | .vxor c o => execVxor c o s
  | .vandn c o => execVandn c o s
  | .vshl c o => execVshl c o s
  | .vshr c o => execVshr c o s
  | .vsra c o => execVsra c o s
  | .vcmp c o => execVcmp c o s
  | .vsel c o => execVsel c o s
  | .vmov c o => execVmov c o s
  | .vbcast c o => execVbcast c o s
  | .vid c o => execVid c o s
  | .vclz c o => execVclz c o s
  | .vpopc c o => execVpopc c o s
  | .vdot4 c o => execVdot4 c o s
  | .vfadd c o => execVfadd c o s
  | .vfsub c o => execVfsub c o s
  | .vfmul c o => execVfmul c o s
  | .vfma c o => execVfma c o s
  | .vfmin c o => execVfmin c o s
  | .vfmax c o => execVfmax c o s
  | .vfcmp c o => execVfcmp c o s
  | .vfdiv c o => execVfdiv c o s
  | .vfsqrt c o => execVfsqrt c o s
  | .vfrcp c o => execVfrcp c o s
  | .vfrsq c o => execVfrsq c o s
  | .vfexp2 c o => execVfexp2 c o s
  | .vflog2 c o => execVflog2 c o s
  | .vfscl c o => execVfscl c o s
  | .vfrnd c o => execVfrnd c o s
  | .vxch c o => execVxch c o s
  | .vperm c o => execVperm c o s
  | .vslide c o => execVslide c o s
  | .vcompress c o => execVcompress c o s
  | .vexpand c o => execVexpand c o s
  | .vred c o => execVred c o s
  | .vredsc c o => execVredsc c o s
  | .vdot c o => execVdot c o s
  | .vcvt c o => execVcvt c o s
  | .vpack c o => execVpack c o s
  | .vunpack c o => execVunpack c o s
  | .mand c d a b => execMand c d a b s
  | .mor c d a b => execMor c d a b s
  | .mnot c d a => execMnot c d a s
  | .mpopc c d a x => execMpopc c d a x s
  | .mfirst c d a x => execMfirst c d a x s
  | .vld c o => execVld c o s
  | .vlds c o => execVlds c o s
  | .vldx c o => execVldx c o s
  | .vst c o => execVst c o s
  | .vsts c o => execVsts c o s
  | .vstx c o => execVstx c o s
  | .vldq c fmt q a b => execVldq c fmt q a b s
  | .vstq c fmt q a b => execVstq c fmt q a b s
  | .vbind c fmt sc st q a => execVbind c fmt sc st q a s
  | .vunbind c q => execVunbind c q s
  | .stmap c slot soff a b => execStmap c slot soff a b s
  | .stwb c a b => execStwb c a b s
  | .stdrop c a b => execStdrop c a b s
  | .setts c wf m n k => execSetts c wf m n k s
  | .wfmt c wf acc a => execWfmt c wf acc a s
  | .wload c acc a b kofs => execWload c acc a b kofs s
  | .mscale c ofB a b count => execMscale c ofB a b count s
  | .mzero c acc => execMzero c acc s
  | .maccLd c acc v row0 => execMaccLd c acc v row0 s
  | .mova c fmt sat v acc rm row0 => execMova c fmt sat v acc rm row0 s
  | .mma c fmt acc a b kofs => execMma c fmt acc a b kofs s
  | .mwait c acc => execMwait c acc s
  | .mstat c d acc => execMstat c d acc s
  | .amo c op sc fmt d a b disp => execAmo c op sc fmt d a b disp s
  | .vamo c op sc fmt d a b msk mn scaled si => execVamo c op sc fmt d a b msk mn scaled si s
  | .barInit c a b => execBarInit c a b s
  | .barArrive c d a b => execBarArrive c d a b s
  | .barExpect c a b => execBarExpect c a b s
  | .barWait c a b => execBarWait c a b s
  | .barTest c d a => execBarTest c d a s
  | .semTas c a => execSemTas c a s
  | .semClr c a => execSemClr c a s
  | .crLd c d a => execCrLd c d a s
  | .crSt c a b => execCrSt c a b s
  | .fnc c dir sc => execFnc c dir sc s
  | .wait c rel nat d a b sc w32 => execWait c rel nat d a b sc w32 s
  | .push c d k b => execPush c d k b s
  | .pop c d k => execPop c d k s
  | .peek c d k => execPeek c d k s
  | .qlen c d port => execQlen c d port s
  | .cpwp c d k b => execCpwp c d k b s
  | .zloop c a len1 => execZloop c a len1 s
  | .lnch c d a => execLnch c d a s
  | .ipurge c a b => execIpurge c a b s
  | .setvl c fmt d b => execSetvl c fmt d b s
  | .vfetch c m disp => execVfetch c m disp s
  | .vpret c => execVpret c s
  | .farmNext c d m v => execFarmNext c d m v s
  | .lprec c d a len nc k0 k1 k2 k3 tr => execLprec c d a len nc k0 k1 k2 k3 tr s
  | .lpend c => execLpend c s
  | .lpjoin c => execLpjoin c s
  | .treqFixed c n => execTreqFixed c n s
  | .treqNeg c n disp => execTreqNeg c n disp s
  | .treqPool c n a disp => execTreqPool c n a disp s
  | .trel c n => execTrel c n s
  | .doffretFinished c => execDoffretFinished c s
  | .doffretSummarised c => execDoffretSummarised c s
  | .doffretRefused c => execDoffretRefused c s
  | .yield c => execYield c s
  | .trap c b => execTrap c b s
  | .tret c => execTret c s
  | .ecall c b => execEcall c b s
  | .halt c => execHalt c s
  | .sync c => execSync c s
  | .brk c b => execBrk c b s
  | .wmark c d => execWmark c d s
  | .tsc c d => execTsc c d s
  | .cnt c d a => execCnt c d a s
  | _ => .next s

end Sys2Proof.Machine
end

