-- ==== Sys2Proof/Machine/HartStep.lean ====
section
/-! DEFINITION. One step of a hart: what it does at an instruction boundary (R338, R393, R398, R406, R416), the steps of
its vector streams, and fetching, holding back and running an instruction of its scalar stream. -/

namespace Sys2Proof.Machine

/-! ## Dependencies on queued work (R73, R172, R223, R225) -/

/-- The operands of a scalar instruction of OP 0x10 to 0x3F whose three fields are operands. -/
def sopsOf : Instr → Option SOps
  | .add _ o | .sub _ o | .addi _ o _ | .mul _ o | .mulh _ o | .div _ o | .rem _ o | .min _ o | .max _ o | .and _ o
  | .or _ o | .xor _ o | .andn _ o | .shl _ o | .shr _ o | .sra _ o | .rot _ o | .clz _ o | .ctz _ o | .popc _ o
  | .bfx _ o _ _ | .bfi _ o _ _ | .sext _ o | .zext _ o => some o
  | _ => none

/-- Registers of the scalar stream that an instruction reads beside its guard. A zloop reads its stepped registers too, which
its descriptor names (R285). -/
def scalarSources (i : Instr) : List Res :=
  match i with
  | .bfi _ o _ _ => opRes o.d ++ opRes o.a
  | .bc _ _ _ a b _ | .prf _ a b | .lea _ _ a b _ _ | .cmp _ _ _ _ a b | .ld _ _ _ a b
  | .ldAq _ _ _ _ a b | .ipurge _ a b => .s a.toNat :: opRes b
  | .ifpf _ _ a b | .wait _ _ _ _ a b _ _ => .s a.n.toNat :: opRes b
  | .dbnz _ d _ => [.s d.toNat]
  | .jcall _ _ a | .jr _ a | .ret _ a => [.s a.n.toNat]
  | .zloop _ a _ | .lnch _ _ a => [.s a.toNat]
  | .li _ _ b | .push _ _ _ b | .cpwp _ _ _ b | .setvl _ _ _ b | .trap _ b | .ecall _ b | .brk _ b => opRes b
  | .lih _ d b => .s d.toNat :: opRes b
  | .mov _ _ a | .putsr _ _ a | .barTest _ _ a | .semTas _ a | .semClr _ a | .crLd _ _ a | .cnt _ _ a => opRes a
  | .sel _ _ a b _ pn => .p pn.toNat :: opRes a ++ opRes b
  | .pand _ _ a b | .por _ _ a b | .pxor _ _ a b => [.p a.toNat, .p b.toNat]
  | .pnot _ _ a => [.p a.toNat]
  | .st _ _ d a b | .stRl _ _ _ d a b => .s a.toNat :: opRes d ++ opRes b
  | .ldx _ _ _ a b _ => [.s a.toNat, .s b.toNat]
  | .setts _ _ m n k => opRes m ++ opRes n ++ opRes k
  | .amo _ op _ _ d a b _ => .s a.toNat :: opRes b ++ if op = 7 then opRes d else []
  | .barInit _ a b | .barArrive _ _ a b | .barExpect _ a b | .barWait _ a b | .crSt _ a b => opRes a ++ opRes b
  | .lprec _ d a _ nc .. =>
      .s d.toNat :: match a with | some r => (List.range (nc.toNat + 1)).map fun k => Res.s (r.toNat + k) | none => []
  | _ => match sopsOf i with | some o => opRes o.a ++ opRes o.b | none => []

/-- Registers of the scalar stream that an instruction reads. -/
def scalarReads (i : Instr) : List Res := scalarSources i ++ guardRes i

/-- Registers of the scalar stream that an instruction writes. -/
def scalarWrites (i : Instr) : List Res :=
  match i with
  | .dbnz _ d _ | .call _ d _ | .calll _ d _ | .jcall _ d _ | .lih _ d _ | .lea _ d .. | .treqPool _ _ d _ => [.s d.toNat]
  | .cmp _ _ _ d _ _ | .pand _ d .. | .por _ d .. | .pxor _ d .. | .pnot _ d _ => [.p d.toNat]
  | .li _ d _ | .mov _ d _ | .sel _ d .. | .getsr _ d _ | .ld _ _ d .. | .ldAq _ _ _ d .. | .ldx _ _ d .. | .amo _ _ _ _ d ..
  | .barArrive _ d .. | .barTest _ d _ | .crLd _ d _ | .wait _ _ _ d .. | .push _ d .. | .pop _ d _ | .peek _ d _
  | .qlen _ d _ | .cpwp _ d .. | .lnch _ d _ | .setvl _ _ d _ | .wmark _ d | .tsc _ d | .cnt _ d _ => opRes d
  | _ => match sopsOf i with | some o => opRes o.d | none => []

/-- Scalar registers and predicates that an instruction of the queue uses as they are at its issue (R73, R103). -/
def issueSources (i : Instr) : List Res :=
  match i, vopsOf i with
  | _, some o => opRes o.a ++ opRes o.b
  | .vld _ o, _ | .vlds _ o, _ | .vldx _ o, _ | .vst _ o, _ | .vsts _ o, _ | .vstx _ o, _ => .s o.a.n.toNat :: opRes o.b
  | .vldq _ _ _ a b, _ | .vstq _ _ _ a b, _ => .s a.n.toNat :: opRes b
  | .stmap _ _ _ a b, _ | .stwb _ a b, _ | .stdrop _ a b, _ | .wload _ _ a b _, _
  | .mscale _ _ a b _, _ | .mma _ _ _ a b _, _ => .s a.toNat :: opRes b
  | .vbind _ _ _ _ _ a, _ => [.s a.n.toNat]
  | .vamo _ _ _ _ _ a .., _ => [.s a.toNat]
  | .wfmt _ _ _ a, _ => opRes a
  | _, _ => []

/-- A queued instruction that has not completed writes a register that an instruction names, appends to a queue that
it appends to, or removes from a queue that it removes from (R73, R172). -/
def scalarConflict (i : Instr) (e : VEntry) : Bool :=
  meet (writesLeft e) (scalarReads i ++ scalarWrites i)
    || meetQueue (writesOf e.instr) (scalarWrites i) || meetQueue (readsOf e.instr) (scalarReads i)

/-- An instruction of the scalar agent that makes an access event (R216, R267). -/
def scalarAccess : Instr → Bool
  | .ld .. | .st .. | .ldAq .. | .stRl .. | .ldx .. | .amo .. | .wait .. | .zloop .. | .lnch .. | .barInit ..
  | .barArrive .. | .barExpect .. | .barWait .. | .barTest .. | .semTas .. | .semClr .. | .crLd .. | .crSt .. => true
  | _ => false

/-- An instruction of the scalar agent that stores to memory. -/
def scalarStore : Instr → Bool
  | .st .. | .stRl .. | .amo .. | .lnch .. => true
  | _ => false

/-- An instruction whose write is releasing (R200, R254, R264, R266). -/
def releases : Instr → Bool
  | .stRl .. | .amo .. | .barInit .. | .barArrive .. | .barExpect .. | .semClr .. => true
  | _ => false

/-- Some queued access of the vector agent below a sequence number has not been performed. -/
def accessesBelow (n : Nat) (h : Hart) : Bool := vectorBelow usesMem n h

/-- Some of the given instructions ends a binding of queue q8 + q to a store stream that has entries to write: bound tells
that a store stream is bound before them, and owes that entries of it are to be written. -/
def endsStores (q : Nat) : Bool → Bool → List VEntry → Bool
  | _, _, [] => false
  | bound, owes, e :: es =>
      match e.instr with
      | .vbind _ _ _ st n _ => if n.toNat = q then endsStores q st false es else endsStores q bound owes es
      | .vunbind _ n => if n.toNat = q then (bound && owes) || endsStores q false false es else endsStores q bound owes es
      | i => endsStores q bound (owes || (appendsTo i).contains (q + 8)) es

/-- Queued work that a store of the scalar agent must not pass: a removal whose entry has not been fetched, and the end of a
store stream's binding, whose entries are written first (R209). -/
def holdsStores (h : Hart) : Bool :=
  unfetched h h.vcq || (List.range 8).any fun q =>
    endsStores q (match h.stream q with | some b => b.store | none => false) (h.vq q ≠ []) h.vcq

/-- Addresses that an instruction of the scalar agent reads from memory, where it writes none: none for any other access. -/
def scalarLoads (i : Instr) (h : Hart) : Option (List (Word × Nat)) :=
  let word := fun (o : Operand) => match o with | .s n _ => h.rs n.toNat | .imm v => v.signExtend 64 | _ => 0
  match i with
  | .ld _ f _ a b | .ldAq _ f _ _ a b => some [(h.rs a.toNat + word b, fmtBytes f)]
  | .ldx _ f _ a b d => some [(h.rs a.toNat + h.rs b.toNat * BitVec.ofNat 64 (fmtBytes f) + d.signExtend 64, fmtBytes f)]
  | .wait _ _ _ _ a _ _ w => some [(h.src a, if w then 4 else 8)]
  | .zloop _ a _ => some [(h.rs a.toNat, 128)]
  | .barWait .. | .barTest .. | .crLd .. => some []
  | _ => none

/-- The part of the activity bitmap from which the focused hart's farm.next may still read, as an address and a length: none
where its launch has no bitmap or every strip is claimed (R180). -/
def bitmapRange (s : State) : Option (Word × Nat) :=
  match s.myLaunch with
  | some l =>
      let first := (l.next - l.flo).toNat / 8
      if l.bitmap && decide (l.next.toNat < l.fhi.toNat) then some (l.fbmp + BitVec.ofNat 64 first, ((l.fhi - l.flo).toNat + 7) / 8 - first) else none
  | none => none

/-- The leaves by which the focused hart's accesses can be translated: cached ones, and those of its partition's tables. -/
def hartLeaves (s : State) : List TlbEntry :=
  (s.tlb.filter fun e => s.agent.cache = some e.cache && e.pid = s.hart.pid) ++ s.leaves s.hart.pid

/-- The addresses by which the focused hart names a mapped address: itself, and its places in the cluster window (R193). -/
def namesOf (m : Word) (s : State) : List Word :=
  let base : Word := (s.partAt s.hart.pid).cwBase.setWidth 64 <<< 26
  m :: (s.mapsOf s.hart.cid).map fun e =>
    base + BitVec.ofNat 64 (e.1 / 32 % Config.coresPerCluster * Config.stashBytes + e.2.soff) + (m - e.2.base)

/-- The focused hart reads a byte of physical memory by an address of a range. -/
def rangeReaches (r : Word × Nat) (pa : Nat) (s : State) : Bool :=
  let frames := (s.pkg.movSrc.toNat :: s.pkg.fwds.map fun p => p.1).map fun f => f * 65536 + pa % 65536
  ((pa :: frames).filter fun q => s.forward q = pa).any fun q =>
    (hartLeaves s).any fun e => decide (e.pa ≤ q) && decide (q < e.pa + e.size) &&
      (namesOf ((BitVec.ofNat 57 (e.va + (q - e.pa))).signExtend 64) s).any fun va =>
        decide ((va - r.1).toNat < r.2) && (s.reach s.hart.level [(va, 1)]).contains (pa, 1)

/-- Some address of a range lies on a device page. -/
def rangeDevice (r : Word × Nat) (s : State) : Bool :=
  (hartLeaves s).any fun e => e.attr = 3 && decide (e.va < r.1.toNat % 2 ^ 57 + r.2) && decide (r.1.toNat % 2 ^ 57 < e.va + e.size)

/-- A queued farm.next, whose loads of the bitmap are the scalar agent's, precedes an access of that agent: one that writes,
and one that reads a byte of the bitmap or a device page (R219, R221, R222, R231). -/
def farmHolds (i : Instr) (s : State) : Bool :=
  s.hart.vcq.any (fun e => isFarm e.instr) && match bitmapRange s, scalarLoads i s.hart with
    | none, _ => false
    | some _, none => true
    | some r, some x =>
        (s.reach s.hart.level x).any (fun c => (List.range c.2).any fun k => rangeReaches r (c.1 + k) s)
          || (rangeDevice r s && x.any fun y => rangeDevice y s)

/-- Work in the queue holds back an instruction of the scalar stream (R73, R172, R209, R219 to R225). DESIGN CHOICE (log 101):
the entries of a store stream that are still to be written hold back no release, atomic or fence. DESIGN CHOICE (log 124): the
reads of a load stream, whose entry an earlier instruction of the queue has still to remove, hold back no bar.init,
bar.arrive, bar.expect, sem.clr or fnc. -/
def heldBack (i : Instr) (s : State) : Bool :=
  let h := s.hart
  h.vcq.any (scalarConflict i)
    || (scalarAccess i && (accessesBelow h.fence h || farmHolds i s))
    || (releases i && accessesBelow h.vseq h)
    || (scalarStore i && holdsStores h)

/-- An instruction of the queue issues with its scalar sources, which queued work must have written (R73); those of a
vfetch are every scalar register and predicate (R175). -/
def issueHeldBack (i : Instr) (h : Hart) : Bool :=
  h.vcq.any fun e =>
    match i with
    | .vfetch .. => (writesLeft e).any sharedRes
    | _ => meet (writesLeft e) (issueSources i ++ guardRes i)

/-- An instruction of the vector command queue (R170). -/
def isQueued (i : Instr) : Bool :=
  (vopsOf i).isSome || isAccess i
    || match i with
      | .mand .. | .mor .. | .mnot .. | .mpopc .. | .mfirst .. | .wfmt .. | .wload .. | .mzero .. | .maccLd ..
      | .mova .. | .mma .. | .mscale .. | .mwait .. | .mstat .. | .vfetch .. | .vpret .. | .farmNext .. => true
      | _ => false

/-- The guard of an instruction holds (R18). -/
def guardHolds (i : Instr) (h : Hart) : Bool := match i.ctl? with | some c => h.guard c | none => true

/-- An instruction waits for work in the queue before it runs: for the predicate of its guard, and where the guard holds for
the registers it uses and the accesses it follows (R18, R73, R156). Frozen work holds nothing back (log 28). -/
def mustWait (i : Instr) (s : State) : Bool :=
  let h := s.hart
  !h.vqf && (behindQueue i h
    || (guardHolds i h && if isQueued i then issueHeldBack i h else heldBack i s))

/-! ## Around an instruction -/

/-- OP of a word. -/
def opOf (w : IWord) : Nat := (w.extractLsb' 88 8).toNat

/-- Count an instruction of a doff routine: true when it would exceed the bound (R340). An instruction that waits
counts once. -/
def State.countDoff (s : State) : Bool × State :=
  if !s.hart.dAct || s.hart.waiting.isSome then (false, s)
  else if 256 ≤ s.hart.dIcnt.toNat then (true, s)
  else (false, s.onH fun h => { h with dIcnt := h.dIcnt + 1 })

/-- What follows an instruction that the scalar stream has run (R285, R314, R422): the next pass of a zloop, also where
a handler returns to the end of its body (log 85), the trace of a training, the count of retired instructions
(log 36), and the queued instructions that it has passed (R173). -/
def afterInstr (i : Instr) (pre post : State) : State :=
  if post.cur ≠ pre.cur || post.hart.waiting.isSome || post.hart.run ≠ .running then post
  else
    let post := noteTrace i pre post
    let entered := (post.hart.inh && !pre.hart.inh) || (post.hart.dAct && !pre.hart.dAct) || post.pkg.quiesced
    let post := if entered then post else post.onH (Hart.bump 1 1)
    let pass := passedBy (queueRegs (scalarWrites i)) (queueRegs (scalarReads i))
    let post := if entered || isQueued i || !guardHolds i pre.hart then post
      else post.onH fun h => { h with vcq := h.vcq.map pass }
    let back := pre.hart.inNest pre.hart.pc || (pre.hart.inh && !post.hart.inh)
    if back && !entered then post.loopBack else post

/-- An elastic fault of the scalar stream has saved the context: the save drains the vector streams first (R407, R412). -/
def drainedFault (pre post : State) : State :=
  if pre.hart.idle || post.saved.length ≤ pre.saved.length then post
  else
    match post.saved.getLast? with
    | some c => if c.reason = .elastic then pre.drainAll.saveContext .elastic (pcWord pre.hart.pc 0) c.fva else post
    | none => post

/-- Apply what follows to an outcome. -/
def afterOut (i : Instr) (pre : State) (o : Out) : Out :=
  match o with
  | .next post => .next (afterInstr i pre (drainedFault pre post))
  | o => o

/-- An instruction that a nest's body must not hold, with a true guard (R18, R287). -/
def nestFault (i : Instr) (s : State) : Bool :=
  s.hart.inNest s.hart.pc && nestForbids (opOf (encode i)) && guardHolds i s.hart

/-- An instruction before which the hart's late stores become visible: another access of its scalar agent, or an instruction
that orders or publishes its stores (R221, R223, R227, R267, R379). -/
def showsStores : Instr → Bool
  | .st .. => false
  | .fnc _ dir _ => dir = 0 || dir = 3
  | .push .. | .cpwp .. | .ipurge .. | .sync _ | .putsr .. | .farmNext .. | .lprec .. | .lpend _ | .lpjoin _ => true
  | i => scalarAccess i || fences i

/-- Run an instruction of the scalar stream by a given meaning, held back by queued work where it must be. -/
def runInstr (run : Instr → State → Out) (i : Instr) (s : State) : Out :=
  if mustWait i s then .next (s.await i)
  else if nestFault i s then .next (s.takeTrap ⟨.loopNest, 2⟩)
  else
    let s := if s.hart.sbuf.isEmpty || !showsStores i then s else s.lateStores
    match run i s with
    | .next t => if t.hart.heldUp then .next (s.await i) else afterOut i s (.next t)
    | o => o

/-- What comes before the instruction at pc: the bound of a doff routine (R340). -/
def beforeInstr (run : State → Out) (s : State) : Out :=
  match s.countDoff with
  | (true, s) => .next (s.doffViolation 1)
  | (false, s) => run s

/-- Decode and run the instruction at pc whose bytes have been fetched; a word that is no instruction is illegal, and pad as
such a word is, before anything else that it could raise (R14, R34 to R36). -/
def runWord (run : Instr → State → Out) (w : IWord) (s : State) : Out :=
  match decode w with
  | .error _ => execIllegalInstruction w s
  | .ok i => if isPad i then run i s else beforeInstr (runInstr run i) s

/-- A mwait has not completed: nothing later of its hart issues, an instruction that would trap included (R156). Frozen work
holds nothing back (log 28). -/
def State.awaitsMatrix (s : State) : Bool := !s.hart.vqf && s.hart.vcq.any fun e => isMwait e.instr

/-- Fetch the instruction at pc and run it, once every mwait has completed (R14, R156, R395). -/
def fetchAndRun (run : Instr → State → Out) (s : State) : Out :=
  if s.awaitsMatrix then .next s else
  match s.fetch s.hart.pc with
  | .error t => .next (if t.cause = .held then s else s.takeTrap t)
  | .ok (bs, s) => runWord run (BitVec.ofNat 96 (leNat bs)) s

/-! ## Boundaries -/

/-- A waiting treq whose slot has been granted completes (R337). -/
def settleTreq (s : State) : Option State :=
  match s.hart.waiting with
  | some (.treqFixed c n) | some (.treqNeg c n _) =>
      if s.hart.run = .running && s.holds n.toNat then
        match runInstr perform (s.hart.waiting.getD (.treqFixed c n)) s with
        | .next t => if t.hart.waiting.isNone then some t else none
        | _ => none
      else none
  | _ => none

/-- The focused hart with a granted request completed. -/
def granted (s : State) : State := (settleTreq s).getD s

/-- What happens at the boundary before the next instruction; none where nothing does. A granted request completes (R337),
the trap of the oldest queued instruction is taken (R398), a recall is taken (R339), a tenant switch or a passed deadline
saves the context (R393, R406), unless the save waits for a stopped home slice (R463), and a debug halt begins (R416). -/
def boundary (s : State) : Option State :=
  match settleTreq s with
  | some s' => some s'
  | none =>
      match s.takePending with
      | some s' => some s'
      | none =>
          match s.doffEntry with
          | some s' => some s'
          | none =>
              let h := s.hart
              if h.evict && !h.dAct && !h.inh then some (if s.areaHeld then s else saveAtBoundary .tenant s)
              else if deadlinePassed h then some (if s.areaHeld then s else saveAtBoundary .forced s)
              else if h.haltReq && !h.dAct && !h.inh then some (s.debugHalt 1)
              else none

/-- What hart h meets between two instructions, at a boundary, unless its zone is stopped (R463). -/
def betweenInstrs (h : Nat) (meets : State → Option State) (s : State) : Out :=
  due s (if zoneStopped (s.focus h) then none else (meets (granted (s.focus h))).map (State.focus s.cur))

/-- The trap of hart h's oldest queued instruction is taken (R398). -/
def execPreciseVectorTrap (h : Nat) (s : State) : Out := betweenInstrs h State.takePending s

/-- Hart h enters a doff routine (R339). -/
def execDoffEntry (h : Nat) (s : State) : Out := betweenInstrs h State.doffEntry s

/-- The yield deadline of hart h forces a save (R406). -/
def execForcedSave (h : Nat) (s : State) : Out :=
  betweenInstrs h (fun x =>
    if deadlinePassed (s.hartAt h) && !(s.focus h).areaHeld then some (saveAtBoundary .forced x) else none) s

/-- One step of the focused hart, its scalar instructions by a given meaning. A waiting instruction is tried again, and in a
stopped zone nothing issues (R463). -/
def hartStep (run : Instr → State → Out) (s : State) : Out :=
  if s.hart.run ≠ .running then .fault .idle
  else if zoneStopped s then .next s
  else
    match boundary s with
    | some s' => .next s'
    | none =>
        match s.vectorStep with
        | some s' => .next s'
        | none =>
            match s.hart.waiting with
            | some i => runInstr run i s
            | none => fetchAndRun run s

/-! ## Completion of what waits (R172, R262, R266, R268, R281) -/

/-- The waiting instruction of hart h completes, if it is of a kind and can. -/
def completes (kind : Instr → Bool) (h : Nat) (s : State) : Option State :=
  let x := s.focus h
  match x.hart.waiting with
  | none => none
  | some i =>
      if !kind i || x.hart.run ≠ .running || zoneStopped x then none
      else
        match runInstr perform i x with
        | .next t => if t.cur = h && t.hart.waiting = some i then none else some (t.focus s.cur)
        | _ => none

/-- Some register of a list is a queue. -/
def anyQueue (l : List Res) : Bool := l.any Res.isQueue

/-- An instruction that waits on a queue register proceeds: one of the scalar stream, or else one of the vector
streams (R172). -/
def execQueueWaitEnd (h : Nat) (s : State) : Out :=
  due s (match completes (fun i => anyQueue (scalarReads i ++ scalarWrites i)) h s with
    | some t => some t
    | none =>
        let x := s.focus h
        if zoneStopped x || !x.hart.vcq.any fun e => anyQueue (readsOf e.instr ++ writesOf e.instr) then none
        else x.vectorStep.map (State.focus s.cur))

/-- A waiting bar.wait completes (R262). -/
def execBarWaitCompletes (h : Nat) (s : State) : Out :=
  due s (completes (fun i => match i with | .barWait .. => true | _ => false) h s)

/-- A clear bit goes to the first waiting request for it (R266). -/
def execSemaphoreGrant (cluster bit : Nat) (s : State) : Out :=
  due s (match (s.clusterAt cluster).wait.find? fun r => r.bit = bit with
    | none => none
    | some r => completes (fun i => match i with | .semTas .. => true | _ => false) r.hart s)

/-- A waiting wait finds a satisfying value (R268). -/
def execWaitSatisfied (h : Nat) (s : State) : Out :=
  due s (completes (fun i => match i with | .wait .. => true | _ => false) h s)

/-- A pop or peek that waits on an empty result port completes (R281). -/
def execPopDataArrives (h : Nat) (s : State) : Out :=
  due s (completes (fun i => match i with | .pop .. | .peek .. => true | _ => false) h s)

end Sys2Proof.Machine
end

