-- ==== Sys2Proof/Machine/Debug.lean ====
section
/-! DEFINITION. The Fjoir port: its commands in the order of R415, debug halt and RESUME (R416), STEP (R417), reverse
steps over the lining (R427, R428), and the counter time series (R430). -/

namespace Sys2Proof.Machine

/-! ## Command frames (R415) -/

/-- Answer a command frame. -/
def fjoir (tag : Nat) (status : Byte) (words : List Word) (s : State) : State := s.reply (.fjoir tag status words)

/-- The partition of a hart slot admits the Fjoir port (R415 check 2). -/
def fjoirMay (h : Nat) (s : State) : Bool :=
  bit256 s.pkg.fjpen ((s.coreAt (h / Config.hartsPerCore)).hartPid (h % Config.hartsPerCore))

/-- A command on a hart: the checks 2 to 4 of R415, with the command's own condition beside HALTED. -/
def onHalted (h tag : Nat) (ok : Hart → Bool) (f : State → State) (s : State) : Out :=
  .next (
    if !fjoirMay h s then fjoir tag 8 [] s
    else if slotCount ≤ h || (s.hartAt h).run = .empty then fjoir tag 12 [] s
    else if (s.hartAt h).run ≠ .halted || !ok (s.hartAt h) then fjoir tag 1 [] s
    else f s)

/-- A frame whose CODE is unassigned (R415). -/
def execFjoirUnassignedCode (code : BitVec 8) (tag : Nat) (s : State) : Out :=
  due s (if 1 ≤ code.toNat && code.toNat ≤ 8 then none else some (fjoir tag 9 [] s))

/-- HALT: the halt is taken at the next boundary (R415, R416). -/
def execFjoirHalt (h tag : Nat) (s : State) : Out :=
  .next (
    if !fjoirMay h s then fjoir tag 8 [] s
    else if slotCount ≤ h || (s.hartAt h).run = .empty then fjoir tag 12 [] s
    else if (s.hartAt h).run = .halted then fjoir tag 0 [] s
    else fjoir tag 0 [] (s.modHart h fun x => { x with haltReq := true }))

/-- Leave debug halt; a context whose reverse step stopped part-way ends its task (R416, R428). -/
def resumeHart (s : State) : State :=
  if s.hart.lPart then s.endTask
  else s.onH fun h => { h.clearTraps with run := .running, hreason := 0 }

/-- RESUME (R415, R416). -/
def execResume (h tag : Nat) (s : State) : Out :=
  onHalted h tag (fun _ => true) (fun s => fjoir tag 0 [] (s.atHart h resumeHart)) s

/-! ## STEP (R417) -/

/-- One unit of the oldest instruction of the queue: the elements of one granule, or the whole instruction. A training notes
where its access has gone (R314, R315). -/
def stepEntry (e : VEntry) (es : List VEntry) (s : State) : State :=
  let cut := stoppable e.instr
  let r := if !queueReady s.hart e then .wait
    else if 1 < State.granulesLeft e s.hart then s.runGranules 1 e es
    else runEntry e.instr e.env (s.onH fun h => { h with vcq := es })
  match r with
  | .done t => (notePlace e s t).onH Hart.settle
  | .wait => s
  | .trap t s' k =>
      ((s'.onH fun x => { x with vcq := { e with stopped := e.stopped || cut } :: es }).takeVectorTrap
        t e.instr e.env.pc cut k).onH Hart.clearTraps

/-- One unit of the oldest unfinished instruction of the focused hart, which runs meanwhile; where its scalar stream issues, a
recall is taken first (DEDUCED, log 110). -/
def stepUnit (s : State) : State :=
  let entry := fun (s : State) => match s.hart.vcq with | e :: es => stepEntry e es s | [] => s
  match s.takePending with
  | some s' => s'
  | none =>
      let fresh := (granted s).doffEntry.getD (granted s)
      if s.hart.vqf then orSame s (fetchAndRun perform fresh)
      else
        match s.hart.oldestEpisode with
        | some ep => ((s.episodeStep ep).getD s).onH Hart.settle
        | none =>
            if !s.hart.vcq.isEmpty then entry s
            else
              let s := fresh
              let t := orSame s (fetchAndRun perform (s.onH fun h => { h with hold := true }))
              if t.cur = s.cur && t.hart.run == .running && t.hart.episode.isNone && !t.hart.vqf then entry t else t

/-- Perform one unit and halt again with HREASON 3. An instruction that waits is left without effect (log 37). -/
def stepHart (s : State) : State :=
  let hold := s.hart.hold
  let t := stepUnit (s.onH fun h => { h with run := .running, hreason := 0 })
  if t.hart.run = .empty then t
  else
    let t := t.onH fun h => { h with hold := hold }
    if t.hart.run = .halted then t
    else (t.withdraw t.cur).onH fun h => { h with run := .halted, hreason := 3, waiting := none }

/-- STEP (R415, R417). In a stopped zone no hart issues: the step waits, once its checks have passed (R463). -/
def execStep (h tag : Nat) (s : State) : Out :=
  onHalted h tag Hart.estep (fun s =>
    if zoneStopped (s.focus h) then s else fjoir tag 0 [] (s.atHart h stepHart)) s

/-! ## Registers and memory (R415) -/

/-- RDREG (R415). -/
def execRdreg (h tag : Nat) (idx : Nat) (s : State) : Out :=
  onHalted h tag (fun _ => true) (fun s =>
    if idx < 0x1000 then
      if srAssigned (BitVec.ofNat 12 idx) then fjoir tag 0 [readSr (s.focus h) (BitVec.ofNat 12 idx)] s
      else fjoir tag 10 [] s
    else if idx < 0x1040 then fjoir tag 0 [(s.hartAt h).rs (idx - 0x1000)] s
    else fjoir tag 10 [] s) s

/-- WRREG (R415). -/
def execWrreg (h tag : Nat) (idx : Nat) (v : BitVec 64) (s : State) : Out :=
  onHalted h tag (fun _ => true) (fun s =>
    if idx < 0x1000 then
      if srAssigned (BitVec.ofNat 12 idx) && !srReadOnly (BitVec.ofNat 12 idx) then
        fjoir tag 0 [] (s.atHart h (writeSr (BitVec.ofNat 12 idx) v))
      else fjoir tag 10 [] s
    else if idx < 0x1040 then fjoir tag 0 [] (s.modHart h (Hart.ws (idx - 0x1000) v))
    else fjoir tag 10 [] s) s

/-- A word of memory that the Fjoir port may access: the STATUS of a refusal (R389, R415 check 6). -/
def fjoirMem (pa : Nat) (s : State) : Option Byte :=
  if pa % 8 ≠ 0 || !inRegion pa || (isPeer pa && !s.pkg.peersUp.contains (peerOf pa)) then some 11
  else if isDevice pa && !externAdmits (bit256 s.pkg.fjpen) true (s.owner (pa / 65536)) then some 8
  else none

/-- RDMEM (R415). An access to a stopped home slice waits (R463). -/
def execRdmem (tag pa : Nat) (s : State) : Out :=
  due s (match fjoirMem pa s with
    | some st => some (fjoir tag st [] s)
    | none => if s.rangeHeld pa 8 then none else some (fjoir tag 0 [s.word8 pa] s))

/-- WRMEM (R415). -/
def execWrmem (tag pa : Nat) (v : BitVec 64) (s : State) : Out :=
  due s (match fjoirMem pa s with
    | some st => some (fjoir tag st [] s)
    | none => if s.rangeHeld pa 8 then none else some (fjoir tag 0 [] (externWrite pa (bytesOf 8 v) s)))

/-! ## The lining's registers (R414, R426) -/

/-- A write to ltl of hart h (R414). -/
def execLtlWrite (h : Nat) (v : BitVec 64) (s : State) : Out := .next (s.atHart h (writeHart 0x213 v))

/-- Writing 1 to lctl.LOST of hart h (R414, R426). -/
def execLctlLostClear (h : Nat) (s : State) : Out := .next (s.modHart h fun x => { x with lLost := false })

/-! ## Records of the lining, read back (R423) -/

/-- A record in the buffer. -/
structure Logged where
  addr : Word
  old  : List Byte
  new  : List Byte
  time : Word
  kind : Nat
  cid  : BitVec 12
  rank : BitVec 16
  size : Nat
deriving DecidableEq, Repr

/-- The record at a physical address. -/
def loggedAt (pa : Nat) (s : State) : Logged :=
  let bs := s.bytes pa 64
  let u := fun (o n : Nat) => leNat ((bs.drop o).take n)
  ⟨wordOf (bs.take 8), (bs.drop 8).take (u 40 1), (bs.drop 16).take (u 40 1), wordOf ((bs.drop 24).take 8),
    u 36 2 / 4096, BitVec.ofNat 12 (u 36 2), BitVec.ofNat 16 (u 38 2), u 40 1⟩

/-- The home of a record's bytes under a partition's current translation, by a translation cache or by none; none where it has
no translation. -/
def recordHome (cache : Option Cache) (pid : Byte) (r : Logged) (s : State) : Option Nat :=
  match s.lookup cache pid r.addr with
  | (.leaf e, _) => some (e.pa + (r.addr.toNat % 2 ^ 57 - e.va))
  | _ => none

/-- The record at a physical address, or its bytes, lie at a stopped home slice, or its walk waits for one (R463). -/
def recordHeld (cache : Option Cache) (pid : Byte) (slot : Nat) (s : State) : Bool :=
  s.zonesB ≠ [] && (s.rangeHeld slot 64
    || match s.lookup cache pid (loggedAt slot s).addr with
      | (.held, _) => true
      | (.leaf e, _) => s.rangeHeld (e.pa + ((loggedAt slot s).addr.toNat % 2 ^ 57 - e.va)) 8
      | _ => false)

/-- Undo one record where its line's tag passes and its bytes are NEW: OLD is written and the tag stays (R425, R427,
R448). -/
def undo (cache : Option Cache) (pid : Byte) (mine : BitVec 28 → Bool) (r : Logged) (s : State) : Option State :=
  match recordHome cache pid r s with
  | none => none
  | some pa =>
      if isDevice pa && r.size ≤ 8 && mine (s.tag (s.forward pa / 128)) && s.bytes pa r.size == r.new then
        some (((s.patchHome pa r.old).putBytes pa r.old).recode pa r.size)
      else none

/-! ## RSTEP (R427, R428) -/

/-- The record slots from HEAD - 1 down to h + 1. -/
def slotsAbove (hart : Hart) (h : Word) : List Word :=
  ((List.range ((hart.lhd - h).toNat - 1)).map fun k => hart.lhd - 1 - BitVec.ofNat 64 k).filter fun i =>
    !inSnapshot hart.lMarks i

/-- HEAD moves down to a slot, and the snapshots above it go. -/
def Hart.lower (i : Word) (h : Hart) : Hart :=
  { h with lhd := i, lMarks := h.lMarks.filter fun m => decide (m.slot < i) }

/-- Undo the records of a list of slots: the slot of the first that fails, how many were undone, and the state. -/
def undoSlots : List Word → Nat → State → Option Word × Nat × State
  | [], n, s => (none, n, s)
  | i :: is, n, s =>
      let r := loggedAt (s.hart.lSlot i) s
      if 2 < r.kind then undoSlots is n s
      else
        match undo (some (.core s.coreNo)) s.hart.pid (fun t => t == s.hart.rank ++ s.hart.cid) r s with
        | none => (some i, n, s)
        | some s => undoSlots is (n + 1) (s.onH (Hart.lower i))

/-- Give the registers of a snapshot back (R424, R427). -/
def restoreSnapshot (h : Word) (w : BitVec 32) (s : State) : State :=
  let bs := (List.range 9).flatMap fun k => s.bytes (s.hart.lSlot (h + 1 + BitVec.ofNat 64 k)) 64
  let u := fun (o n : Nat) => leNat ((bs.drop o).take n)
  s.onH fun x =>
    { x.lower (h + 10) with
      s := (List.range 63).foldl (fun t k => tset 0 t (k + 1) (BitVec.ofNat 64 (u (8 * k) 8))) []
      pc := pcOf (BitVec.ofNat 64 (u 504 8))
      vl := BitVec.ofNat 11 (u 512 8)
      vstart := BitVec.ofNat 13 (u 520 8)
      p := BitVec.ofNat 8 (u 528 1) &&& 0xFE
      fflags := BitVec.ofNat 6 (u 529 1)
      rm := BitVec.ofNat 3 (u 530 1)
      seed := BitVec.ofNat 32 (u 540 4)
      ctr := BitVec.ofNat 32 (u 536 4)
      wcur := w
      hreason := 4 }

/-- A reverse step of the focused hart: STATUS, the words of the response, and the state (R427, R428). A window whose snapshot
LOST has cut short counts as absent (DESIGN CHOICE, log 118). -/
def reverseStep (w : BitVec 32) (s : State) : Byte × List Word × State :=
  let h := s.hart
  if h.mark.state == .replaying && h.mark.replay == .running then (6, [], s)
  else
    match h.lMarks.reverse.find? fun m => m.win = w && m.size = 10 && decide (h.ltl ≤ m.slot) && decide (m.slot < h.lhd) with
    | none => (2, [], s)
    | some m =>
        let slots := slotsAbove h m.slot
        match slots.find? fun i => 3 ≤ (loggedAt (h.lSlot i) s).kind && (loggedAt (h.lSlot i) s).kind ≤ 5 with
        | some i => (if (loggedAt (h.lSlot i) s).kind = 4 then 4 else 5, [i], s)
        | none =>
            match undoSlots slots 0 s with
            | (some i, 0, s) => (3, [i], s)
            | (some i, _, s) => (7, [i], s.onH fun x => { x with lPart := true })
            | (none, _, s) => (0, [], restoreSnapshot m.slot w s)

/-- A reverse step waits for a stopped home slice: some record in the lining, or its bytes, lies at one (R463). -/
def reverseHeld (s : State) : Bool :=
  s.zonesB ≠ [] && (List.range s.hart.lUsed).any fun k =>
    recordHeld (some (.core s.coreNo)) s.hart.pid (s.hart.lSlot (s.hart.ltl + BitVec.ofNat 64 k)) s

/-- RSTEP (R415, R427). -/
def execRstep (h tag : Nat) (w : BitVec 32) (s : State) : Out :=
  onHalted h tag (fun _ => true) (fun s =>
    let r := reverseStep w (s.focus h)
    if r.1 ≠ 6 && r.1 ≠ 2 && reverseHeld (s.focus h) then s else fjoir tag r.1 r.2.1 (r.2.2.focus s.cur)) s

/-! ## The counter time series (R430, R431) -/

/-- Ticks between latches (R430). -/
def latchPeriod (p : Pkg) : Nat :=
  let k := p.ctsrK.toNat
  2 ^ (if 10 ≤ k && k ≤ 24 then k else 10) * 10 / 27

/-- A latch falls on the present tick and has not been made. -/
def latchDue (p : Pkg) : Bool :=
  p.ctsrEn && p.time.toNat % latchPeriod p == 0 && p.latchTick != some p.time

/-- A counter's delta, saturated at 32 bits (R430). -/
def delta32 (now before : Word) : Nat := min (now - before).toNat (2 ^ 32 - 1)

/-- The record of a core (R430). -/
def latchRecord (core : Nat) (s : State) : List Byte :=
  let harts := (List.range Config.hartsPerCore).map fun i => (Config.hartsPerCore * core + i)
  bytesOf 8 s.pkg.time ++ bytesOf 8 s.pkg.latches ++ leBytes 2 core ++ harts.map (fun n => (s.hartAt n).pid)
    ++ leBytes 38 0
    ++ harts.flatMap fun n => (List.range 16).flatMap fun c =>
        leBytes 4 (delta32 ((s.hartAt n).counter c) (tget 0 s.pkg.latched (16 * n + c)))

/-- A latch: every core writes its record, and the deltas start anew (R430). -/
def execCounterLatch (s : State) : Out :=
  due s (if !latchDue s.pkg then none
    else
      let base := s.pkg.ctsrBase.toNat * 65536
      let t := (List.range Config.cores).foldl (fun (t : State) c =>
        t.fillDev (base + 576 * (64 * c + s.pkg.latches.toNat % 64)) (latchRecord c s)) s
      let latched := s.slots.foldl (fun l n =>
        (s.hartAt n).counters.foldl (fun l p => tset 0 l (16 * n + p.1) p.2) l) []
      some (t.modPkg fun p => { p with latches := p.latches + 1, latchTick := some p.time, latched := latched }))

end Sys2Proof.Machine
end

