-- ==== Sys2Proof/Machine/Recovery.lean ====
section
/-! DEFINITION. Uncorrectable errors (R432, R435), scrubbing and sparing (R437 to R439), recovery of stopped launches
(R447, R448), the queue watchdog (R444, R445) and the loss of a core rail (R474). -/

namespace Sys2Proof.Machine

/-! ## Recovery of a stopped launch (R447, R448) -/

/-- A record with the place that orders its undo: TIME, RANK and slot. -/
structure Undo where
  rec_ : Logged
  slot : Word
deriving DecidableEq, Repr

/-- An undo precedes another: decreasing TIME, then decreasing RANK, then decreasing slot (R448). -/
def Undo.before (x y : Undo) : Bool :=
  decide (y.rec_.time < x.rec_.time)
    || (x.rec_.time == y.rec_.time
      && (decide (y.rec_.rank < x.rec_.rank) || (x.rec_.rank == y.rec_.rank && decide (y.slot ≤ x.slot))))

/-- Insert into a sorted list, before the first element that does not precede it. -/
def sortInsert {α : Type} (le : α → α → Bool) (x : α) : List α → List α
  | [] => [x]
  | y :: ys => if le x y then x :: y :: ys else y :: sortInsert le x ys

/-- Sort a list. -/
def sortBy {α : Type} (le : α → α → Bool) : List α → List α
  | [] => []
  | x :: xs => sortInsert le x (sortBy le xs)

/-- Slots of one lining whose records are not part of a snapshot. -/
def slotsOf (l : LogRange) : List Word :=
  ((List.range (l.head - l.tail).toNat).map fun k => l.tail + BitVec.ofNat 64 k).filter fun i =>
    !inSnapshot l.marks i

/-- Where a slot of a lining lies. -/
def LogRange.at_ (l : LogRange) (i : Word) : Nat := l.base + 64 * (i.toNat % l.slots)

/-- The records of one lining that are not part of a snapshot. -/
def undosOf (l : LogRange) (s : State) : List Undo := (slotsOf l).map fun i => ⟨loggedAt (l.at_ i) s, i⟩

/-- Undo records in order, by the queue processor, whose accesses walk the table (R384, R449); false once one has failed. -/
def rollbackAll (pid : Byte) (cid : BitVec 12) : List Undo → Bool × State → Bool × State
  | [], r => r
  | u :: us, (ok, s) =>
      match undo none pid (fun t => t.setWidth 12 == cid) u.rec_ s with
      | some s => rollbackAll pid cid us (ok, s)
      | none => rollbackAll pid cid us (false, s)

/-- Undo the records of every lining of a launch (R448). -/
def rollback (l : Launch) (s : State) : Bool × State :=
  let us := sortBy Undo.before (l.logs.flatMap fun r => undosOf r s)
  rollbackAll l.pid (l.cid.getD 0) us (true, s)

/-- Poison every line of a list of frames, where a migration has moved it (R390, R448). -/
def poisonFrames (fs : List Nat) (s : State) : State :=
  let lines := fs.flatMap fun f => (List.range 512).map fun i => s.forward ((f * 512 + i) * 128) / 128
  { s with poison := (lines.filter fun l => !s.poison.contains l) ++ s.poison }

/-- The launch ends with a STATUS; a torn launch has its frames poisoned (R448). -/
def markEnd (l : Launch) (status : Byte) (s : State) : State :=
  let torn := status = 4
  let s := if torn then poisonFrames l.frames s else s
  s.modLaunch l.seq fun l => { l with status := status, torn := if torn then l.frames.length else 0 }

/-- The rollback of a launch waits for a stopped home slice (R463). -/
def rollbackHeld (q : Word) (s : State) : Bool :=
  s.zonesB ≠ [] && match s.launchAt q with
    | some l => l.recov && !l.unlogged && l.logs.any fun r => (slotsOf r).any fun i => recordHeld none l.pid (r.at_ i) s
    | none => false

/-- Recover a launch whose contexts have stopped (R448). -/
def recoverLaunch (q : Word) (s : State) : State :=
  match s.launchAt q with
  | none => s
  | some l =>
      if !l.recov then markEnd l 4 s
      else if l.unlogged then markEnd l 3 s
      else
        let r := rollback l s
        markEnd l (if r.1 then 3 else 4) r.2

/-- Stop a running launch and recover it; one that is already stopping is left (R446). -/
def stopAndRecover (q : Word) (s : State) : State :=
  match s.launchAt q with
  | none => s
  | some l => if l.stopping || l.st ≠ .running then s else recoverLaunch q (s.stopLaunch q 4)

/-! ## Uncorrectable errors (R432, R435) -/

/-- Count an uncorrectable error; UE saturates (R440). -/
def countUe (s : State) : State := s.modPkg fun p => { p with ue := if p.ue = BitVec.allOnes 31 then p.ue else p.ue + 1 }

/-- Count corrected errors; CE saturates (R440). -/
def countCe (n : Nat) (s : State) : State :=
  s.modPkg fun p => { p with ce := BitVec.ofNat 32 (min (p.ce.toNat + n) (2 ^ 32 - 1)) }

/-- The partition that owns a frame of device memory (R388). -/
def framePid (s : State) (pa : Nat) : Option Byte :=
  let o := (s.owner (pa / 65536)).toNat
  if 0x100 ≤ o && o < 0x200 then some (BitVec.ofNat 8 o) else none

/-- Journal entry 0x06 for a launch or for none, and the partition that it concerns (R435, R441, log 84). -/
def errorEntry (code : Byte) (l : Option Launch) (pid : Option Byte) (pa : Nat) (s : State) : State :=
  s.journal 0x06 code ((l.map (·.pid)).or pid) (l.bind (·.queue)) (l.bind (·.cid)) (match l with | some l => l.slot | none => 0)
    (match l with | some l => l.seq | none => BitVec.allOnes 64) 0 0 (BitVec.ofNat 64 pa) []

/-- An address lies in the control line of the journal that is in use (R441). -/
def journalControl (s : State) (pa : Nat) : Bool :=
  s.pkg.jEn && decide (s.journalBase ≤ pa) && decide (pa < s.journalBase + 64)

/-- The lines that an error at an address poisons: its own, and in an entry of the journal that is in use all of that entry's
(R435, R442). -/
def errorLines (s : State) (pa : Nat) : List Nat :=
  let first := s.journalBase + 64
  if s.pkg.jEn && decide (first ≤ pa) && decide (pa < first + 320 * s.journalSize) then
    State.linesIn (first + (pa - first) / 320 * 320) 320
  else [pa / 128]

/-- Lines of device memory are poisoned by an error at an address, in a location of a code (R435, R441, R442). -/
def poisonAs (code : Byte) (pa : Nat) (s : State) : State :=
  let s' := if journalControl s pa then (countUe s).packageFault 6 0
    else errorEntry code none (framePid s pa) pa (countUe s)
  (errorLines s pa).foldl (fun (s : State) l => s.setPoison l) s'

/-- A line of device memory is poisoned by an error: location 5 in a residue-mode row, otherwise 1; in the control
line of the journal it is a package fault as well (R435, R437, R442). -/
def poisonLine (pa : Nat) (s : State) : State :=
  poisonAs (if s.residue.contains (State.rowOf pa) then 5 else 1) pa s

/-- The launch of an owner value of a barrier. -/
def ownerLaunch (o : Nat) (s : State) : Option Launch :=
  if o = 0 then none else s.launchAt (BitVec.ofNat 64 (o - 1))

/-- The error strikes state that launches own: it is journalled once, for its one launch or its partition, and they are
stopped and recovered (R435). -/
def stopOwners (code : Byte) (one : Option Launch) (pid : Option Byte) (ls : List Launch) (s : State) : State :=
  ls.foldl (fun (s : State) l => stopAndRecover l.seq s) (errorEntry code one pid 0 (countUe s))

/-- The recovery of some of the owners waits for a stopped home slice (R463). -/
def ownersHeld (ls : List Launch) (s : State) : Bool :=
  s.zonesB ≠ [] && ls.any fun l => !l.stopping && l.st == .running && rollbackHeld l.seq (s.stopLaunch l.seq 4)

/-- The error strikes state that launches own, once their recovery need not wait. -/
def strikeOwners (code : Byte) (one : Option Launch) (pid : Option Byte) (ls : List Launch) (s : State) : Out :=
  due s (if ownersHeld ls s then none else some (stopOwners code one pid ls s))

/-! ## Scrubbing and sparing (R434, R437 to R439) -/

/-- Spare a row, while its bank has spare rows (R439, R441). -/
def spareRow (row : Nat) (s : State) : State :=
  let bank := row % 65536
  let used := tget 0 s.pkg.spares bank
  if 8 ≤ used then s
  else
    (s.modPkg fun p => { p with
      spares := tset 0 p.spares bank (used + 1), spared := p.spared ++ [(bank, row / 65536)] }).journal
      0x07 0 none none none 0 (BitVec.allOnes 64) 0 0 (BitVec.ofNat 64 row) []

/-- A new scrub period of PER seconds, a tick being 1 ns (R3), begins with no corrected errors counted and no entry of
exhaustion posted (R439, R440). -/
def scrubPeriod (s : State) : State :=
  let n := s.pkg.time.toNat / (1000000000 * max 1 s.pkg.scrubPer.toNat)
  if s.pkg.scrubNo = n then s else s.modPkg fun p => { p with scrubNo := n, rowErrs := [], exhausted := [] }

/-- Count n corrected errors of a row: whether they reach THR in this period (R439, R440). -/
def countRow (n row : Nat) (s : State) : Bool × State :=
  let s := scrubPeriod (countCe n s)
  let before := tget 0 s.pkg.rowErrs row
  let thr := max 1 s.pkg.thr.toNat
  (decide (before < thr) && decide (thr ≤ before + n),
    s.modPkg fun p => { p with rowErrs := tset 0 p.rowErrs row (before + n) })

/-- An error is corrected: at an access to a row of DRAM that is not in residue mode, or in other storage (R432, R434,
R439). -/
def corrected (pa : Option Nat) (s : State) : Option State :=
  match pa with
  | none => some (countCe 1 s)
  | some pa =>
      if !isDevice pa || s.residue.contains (State.rowOf pa) then none
      else
        let r := countRow 1 (State.rowOf pa) s
        some (if r.1 then spareRow (State.rowOf pa) r.2 else r.2)

/-- The scrubber visits a row, which holds the given lines, some of them with errors that it corrects and some with errors
that it cannot; a residue-mode row corrects nothing (R434, R438, R439). It visits none while the zone of its base die is
stopped (R459, R463). -/
def execScrubRow (bank row : Nat) (lines bad corrected : List Nat) (s : State) : Out :=
  due s (
    let id := bank + 65536 * row
    if !s.pkg.scrubEn || 65536 ≤ bank || s.zoneOff (64 + bank / 4096) || !bad.all lines.contains || !corrected.all lines.contains
      || !lines.all (fun l => isDevice (l * 128) && State.rowOf (l * 128) == id)
      || (s.residue.contains id && corrected ≠ []) then none
    else
      let s := bad.foldl (fun s l => poisonLine (l * 128) s) s
      let s := { s with residue := s.residue.filter fun r => r ≠ id }
      let r := countRow corrected.length id s
      some (if r.1 || bad ≠ [] then spareRow id r.2 else r.2))

/-- A bank without spare rows posts its entry, once in a scrub period (R439). -/
def execSparesExhausted (bank : Nat) (s : State) : Out :=
  let t := scrubPeriod s
  due s (if tget 0 t.pkg.spares bank < 8 || t.pkg.exhausted.contains bank then none
    else some ((t.modPkg fun p => { p with exhausted := bank :: p.exhausted }).journal
      0x08 0 none none none 0 (BitVec.allOnes 64) 0 0 (BitVec.ofNat 64 bank) []))

/-! ## Where uncorrectable errors lie (R435) -/

/-- An uncorrectable error (R432, R435). -/
def execUncorrectableStateError (loc : StateLoc) (s : State) : Out :=
  match loc with
  | .hart h =>
      let l := (s.hartAt h).launch.bind s.launchAt
      strikeOwners 4 l none l.toList s
  | .barrier core idx =>
      let l := ownerLaunch (s.barrier core idx).owner s
      strikeOwners 7 l none l.toList s
  | .comm cluster =>
      let c := s.clusterAt cluster
      if c.crEn then
        strikeOwners 7 none (some c.crPid) (s.launches.filter fun l => l.pid == c.crPid && l.st == .running) s
      else strikeOwners 7 none none [] s
  | .accumulator core slot row col =>
      let k := 64 * row + col
      .next ((errorEntry 7 none none 0 (countUe s)).modCore core fun c =>
        let t := c.tile slot
        c.setTile slot { t with poison := if t.poison.contains k then t.poison else k :: t.poison })
  | .owner frame =>
      let s := errorEntry 6 none none (frame * 65536) (countUe s)
      .next { s with owners := tset 0 s.owners frame 0 }
  | .dram pa => due s (if isDevice pa then some (spareRow (State.rowOf pa) (poisonLine pa s)) else none)
  | .stashLine core pline => due s (
      if s.dirty.any fun d => d.core = core && d.pline = pline then some (poisonAs 2 (s.forward (pline * 128)) (s.clean pline))
      else none)
  | .cacheLine pa => due s (if isDevice pa then some (poisonAs 3 pa s) else none)
  | .cleanLine pa => .next ((countUe s).dropWords fun w => w.pa / 128 == pa / 128)
  | .translation i => due s (
      if i < s.tlb.length then some { countUe s with tlb := s.tlb.eraseIdx i } else none)
  | .queueProcessor => .next ((countUe s).packageFault 5 0)
  | .journalLine => .next ((countUe s).packageFault 6 0)

/-! ## The queue watchdog (R444 to R446) -/

/-- WDOG of queue q in ticks; 0 disables it (R362, R444). -/
def wdogTicks (s : State) (q : Nat) : Nat := queueField s q 16 4 * 1000

/-- Queue q has outstanding work (R444). -/
def outstanding (s : State) (q : Nat) : Bool :=
  (queueAt s q).packet.isSome || s.launches.any fun l => l.queue == some q

/-- Slot n, which holds h, is a partition's and empty. -/
def emptySlotOf (p : Byte) (s : State) (n : Nat) (h : Hart) : Bool :=
  h.run == .empty && decide (n < slotCount) && (s.coreAt (n / Config.hartsPerCore)).hartPid (n % Config.hartsPerCore) == p

/-- The clearing sequencer runs steps 1 to 3 of R393 for a partition's own state: its slots that its contexts have left are
zeroed; and its translations and communication registers end (R445 step 4, R455). -/
def clearPartition (p : Byte) (s : State) : State :=
  let s := s.cleanIf fun d => decide (d.pid = p)
  let s := { s with
    hart := if emptySlotOf p s s.cur s.hart then Hart.reset else s.hart
    others := s.others.filter fun x => !emptySlotOf p s x.1 x.2
    tlb := s.tlb.filter fun e => e.pid ≠ p
    clusters := s.clusters.map fun (c : Nat × Cluster) =>
      (c.1, if c.2.crEn && c.2.crPid = p then { c.2 with sem := 0, cr := [] } else c.2) }
  { s with clusters := s.clusters.filter fun c => c.2 ≠ Cluster.reset }

/-- Every queue of a partition among the queues of the table. -/
def queuesOf (s : State) (p : Byte) : List Nat :=
  (List.range (s.pkg.qtNq.toNat + 1)).filter fun q => queuePid s q = p

/-- Sequence numbers in increasing order. -/
def bySeq (ls : List Word) : List Word := sortBy (fun (x y : Word) => decide (x ≤ y)) ls

/-- Step 1 of a reset: the expired queue's launches that do not run are removed, and its packet with them; launches whose last
hart has halted by now end normally (R445, R446). -/
def expire (q : Nat) (s : State) : State :=
  let p := queuePid s q
  let head := queueHead s q
  let mine := s.launches.filter fun l => l.queue == some q
  let oldest := (sortBy (fun (x y : Launch) => decide (x.seq ≤ y.seq)) mine).head?
  let removed := (mine.filter fun l => l.st ≠ .running).map (·.seq)
  let halted := (s.launches.filter fun l => l.pid == p && l.st == .running && !l.stopping && l.ended == l.harts).map (·.seq)
  let s := match oldest with
    | some l => s.journal 0x04 0 (some p) (some q) l.cid head l.seq l.entry (launchQual l.seq) 0 []
    | none => s.journal 0x04 0 (some p) (some q) none head (BitVec.allOnes 64) 0 0 0 []
  let s := removed.foldl (fun (s : State) k => s.modLaunch k fun l => { l with status := 3, stopping := true }) s
  let s := s.modPkg fun k => { k with grants := k.grants.filter fun x => !removed.contains x }
  let s := (q :: queuesOf s p).foldl (fun s k => modQueue k (fun x => { x with wd := 0 }) s) s
  modQueue q (fun x => { x with packet := none, till := none, expiry := some ⟨p, 1, s.pkg.time, head, removed, [], [], halted⟩ }) s

/-- Step 2 of a reset: every running launch of the partition stops, but for those whose last hart had halted before the expiry
(R445, R446). -/
def stopPartition (q : Nat) (r : Reset) (s : State) : State :=
  let running := s.launches.filter fun l => l.pid == r.pid && l.st == .running && !r.halted.contains l.seq
  let fresh := bySeq ((running.filter fun l => !l.stopping).map (·.seq))
  let s := fresh.foldl (fun (s : State) k => s.stopLaunchWith false k 4) s
  modQueue q (fun x => { x with expiry := some { r with step := 2, stopped := running.map (·.seq), left := fresh } }) s

/-- Step 3 of a reset: the launches that it has stopped are recovered, in increasing SEQ (R445, R448). -/
def recoverStopped (q : Nat) (r : Reset) (s : State) : State :=
  let s := r.left.foldl (fun s k => recoverLaunch k s) s
  modQueue q (fun x => { x with expiry := some { r with step := 3, left := bySeq (r.stopped ++ r.removed) } }) s

/-- Step 4 of a reset: the partition's own state is cleared; tile holdings, barriers, leases and identifiers end (R445). -/
def clearStopped (q : Nat) (r : Reset) (s : State) : State :=
  let s := clearPartition r.pid s
  let mine := fun (k : Nat) => r.stopped.any fun q => k / 65536 == q.toNat + 1
  let s := { s with cores := s.cores.map fun (p : Nat × Core) => (p.1, (List.range 4).foldl (fun (c : Core) n =>
    match (c.tile n).holder with
    | some k => if mine k then c.freeTile n else c
    | none => c) p.2) }
  let s := (r.left.filterMap s.launchAt).foldl (fun s l => freeLaunch l s) s
  modQueue q (fun x => { x with expiry := some { r with step := 4 } }) s

/-- Step 5 of a reset: the launches end one by one, in increasing SEQ, and then the reset is done (R445). -/
def endStopped (q : Nat) (r : Reset) (s : State) : Option State :=
  match r.left with
  | k :: ks =>
      let next := modQueue q (fun x => { x with expiry := some { r with left := ks } })
      match s.launchAt k with
      | none => some (next s)
      | some l => if endHeld l s then none else some (next (forgetLaunch l (announceEnd l l.status s)))
  | [] =>
      if tableHeld s q then none else
      let n := r.removed.length + r.stopped.length
      let s := s.journal 0x05 0 (some r.pid) (some q) none r.head (BitVec.allOnes 64) 0 0 (BitVec.ofNat 64 n) []
      let b := queueBase s q
      let s := s.writeDev (b + 32) (bytesOf 8 r.head)
      let s := s.writeDev (b + 14) [s.byte (b + 14) &&& 0xFE]
      some (modQueue q (fun x => { x with expiry := none }) s)

/-- The next step of the reset that an expiry of queue q has begun; step 5 goes on from launch to launch (R445). -/
def resetStep (q : Nat) (s : State) : Option State :=
  match (queueAt s q).expiry with
  | none => none
  | some r =>
      match r.step with
      | 1 => some (stopPartition q r s)
      | 2 => if r.left.any fun k => rollbackHeld k s then none else some (recoverStopped q r s)
      | 3 => some (clearStopped q r s)
      | _ => endStopped q r s

/-- Step 2 of every reset ends within 10 µs of its expiry (R445). -/
def stopsInTime (ticks : Nat) (s : State) : Bool :=
  s.queues.all fun (x : Nat × Queue) => match x.2.expiry with
    | some r => r.step ≠ 1 || decide ((s.pkg.time - r.t0).toNat + ticks ≤ 10000)
    | none => true

/-- The watchdog of queue q expires (R444, R445). -/
def execWatchdogExpiry (q : Nat) (s : State) : Out :=
  due s (if q ≤ s.pkg.qtNq.toNat && wdogTicks s q ≠ 0 && outstanding s q && !resetting s (queuePid s q) && !tableHeld s q
    && decide (wdogTicks s q ≤ (queueAt s q).wd) then some (expire q s) else none)

/-! ## Loss of a core rail (R432, R474) -/

/-- The core rail is lost. -/
def execCoreRailLoss (s : State) : Out := .next (s.packageFault 1 0)

end Sys2Proof.Machine
end

