-- ==== Sys2Proof/Machine/Cooling.lean ====
section
/-! DEFINITION. Power, cooling zones, sensor traps, evacuation, cold reset and the firmware image (R456 to R465). -/

namespace Sys2Proof.Machine

/-! ## Clock fractions (R456, R459) -/

/-- One step down, to no lower than 4; a stopped zone stays stopped (R459). -/
def Zone.down (z : Zone) : Zone := if 4 < z.f.toNat then { z with f := z.f - 1 } else z

/-- F := 4 at once; a stopped zone stays stopped (R456, R462). -/
def Zone.brake (z : Zone) : Zone := if z.f = 0 then z else { z with f := 4 }

/-- Change every compute zone. -/
def everyCompute (f : Zone → Zone) (s : State) : State := (List.range 64).foldl (fun s z => s.modZone z f) s

/-- The 1 ms average of package power is measured; above PCAP every compute zone steps down (R456). -/
def execPowerCapStep (watts : BitVec 16) (s : State) : Out :=
  let s := s.modPkg fun p => { p with pnow := watts }
  .next (if s.pkg.pcap < watts then everyCompute Zone.down s else s)

/-- The core rails carry more than 16,000 A (R456). -/
def execRailOvercurrent (s : State) : Out := .next (everyCompute Zone.brake s)

/-- A zone is short (R459). -/
def short (z : Nat) (s : State) : Bool :=
  decide ((s.zoneAt z).flow.toNat < s.share z) || decide (8 * s.pkg.tmax.toNat ≤ (s.zoneAt z).temp.toNat)

/-- R459 applies to a zone: it is valved, runs, and is not held by LF. -/
def regulated (z : Nat) (s : State) : Bool :=
  decide (z < 80) && (s.zoneAt z).f ≠ 0 && (s.zoneAt z).evac = 0 && !(s.zoneAt z).lfHold

/-- A short zone steps down (R459). -/
def execThrottleDown (z : Nat) (s : State) : Out :=
  due s (if regulated z s && short z s && 4 < (s.zoneAt z).f.toNat then some (s.modZone z Zone.down) else none)

/-- A zone that is not short steps up (R459). -/
def execThrottleUp (z : Nat) (s : State) : Out :=
  due s (if regulated z s && !short z s && (s.zoneAt z).f.toNat < 16 then
    some (s.modZone z fun x => { x with f := x.f + 1 }) else none)

/-! ## Cloche's registers (R460, R461) -/

/-- Writing ZMIN of a zone: its SHARE follows (R461). -/
def execZminWrite (z : Nat) (v : BitVec 5) (s : State) : Out := .next (s.modZone (min z 80) fun x => { x with zmin := v })

/-- Writing ctrap clears the bits written as 1 (R460). -/
def execCtrapClear (v : BitVec 4) (s : State) : Out := .next (s.modPkg fun p => { p with ctBits := p.ctBits &&& ~~~v })

/-- Cloche moves a valve: the flow that results is measured (R461). -/
def execValveRegulation (z : Nat) (valve : BitVec 8) (flow : BitVec 10) (s : State) : Out :=
  due s (if z < 80 && ((s.zoneAt z).evac = 0 || (s.zoneAt z).evac = 4) then
    some (s.modZone z fun x => { x with valve := valve, flow := flow }) else none)

/-! ## Sensor traps (R462, R464) -/

/-- A sensor trap sets its bit and ZONE (R460, R462). -/
def sensorTrap (bit z : Nat) (s : State) : State :=
  s.modPkg fun p => { p with ctBits := p.ctBits ||| ((1 : BitVec 4) <<< bit), ctZone := BitVec.ofNat 7 z }

/-- A temperature is measured: at TCRIT the zone brakes, and at TSHUT the package faults. OT of an evacuating zone is
ignored (R462, R464). -/
def execOverTemperature (z : Nat) (temp : BitVec 12) (s : State) : Out :=
  due s (if 80 ≤ z then none
    else
      let s := s.modZone z fun x => { x with temp := temp }
      let hot := decide (8 * s.pkg.tcrit.toNat ≤ temp.toNat) && (s.zoneAt z).evac = 0
      let s := if hot then (sensorTrap 0 z s).modZone z Zone.brake else s
      some (if 8 * s.pkg.tshut.toNat ≤ temp.toNat then s.packageFault 3 (BitVec.ofNat 64 z) else s))

/-- A flow is below LOWF per cent of SHARE (R462). -/
def lowFlow (z : Nat) (flow : BitVec 10) (s : State) : Bool :=
  decide (100 * flow.toNat < s.pkg.lowf.toNat * s.share z)

/-- The monitor of a zone is read: rail voltage, process, and conductance, which is 0 wet, 1 marginal or 2 dry (R458, R460,
R463). -/
def sense (z : Nat) (volt : BitVec 12) (proc : Byte) (cond : BitVec 2) (s : State) : Option State :=
  if 80 ≤ z || cond = 3 then none else some (s.modZone z fun x => { x with volt := volt, proc := proc, cond := cond })

/-- Some zone is being purged (R463 step 3). -/
def purging (s : State) : Bool := (List.range 80).any fun z => (s.zoneAt z).evac = 3

/-- A flow is measured that has been low for 100 µs: LF, unless a purge masks it (R462, R464). -/
def execLowFlow (z : Nat) (flow : BitVec 10) (s : State) : Out :=
  due s (if 80 ≤ z || !lowFlow z flow s then none
    else
      let s := s.modZone z fun x => { x with flow := flow }
      some (if purging s then s
        else (sensorTrap 1 z s).modZone z fun x => { x.brake with lfHold := true }))

/-- The flow of a zone held by LF recovers (R462). -/
def execLowFlowRecovery (z : Nat) (flow : BitVec 10) (s : State) : Out :=
  due s (if 80 ≤ z || !(s.zoneAt z).lfHold || lowFlow z flow s then none
    else some (s.modZone z fun x => { x with flow := flow, lfHold := false }))

/-- The inlet pressure has been below PMIN for 1 ms: the package faults (R462). -/
def execPressureLoss (z : Nat) (kpa : BitVec 16) (s : State) : Out :=
  due s (if s.pkg.pmin ≤ kpa then none else some ((sensorTrap 3 z s).packageFault 4 (BitVec.ofNat 64 z)))

/-! ## Dry-channel evacuation (R463, R464) -/

/-- Three dry samples: step 1 stops the zone; DRY of an evacuating zone is ignored (R463, R464, log 38). -/
def execDryChannel (z : Nat) (s : State) : Out :=
  due s (if 80 ≤ z then none
    else if (s.zoneAt z).evac ≠ 0 then some s
    else some ((sensorTrap 2 z s).modZone z fun x => { x with cond := 2, evac := 1, att := 0, f := 0, lfHold := false }))

/-- Step 2: the valve closes, with the vent shut (R463). -/
def execEvacValveClose (z : Nat) (s : State) : Out :=
  due s (if z < 80 && (s.zoneAt z).evac = 1 then
    some (s.modZone z fun x => { x with evac := 2, valve := 0, vent := false }) else none)

/-- Step 3: the purge, which waits while another zone is purged (R463, R464). -/
def execEvacPurge (z : Nat) (s : State) : Out :=
  due s (if z < 80 && (s.zoneAt z).evac = 2 && !purging s then
    some (s.modZone z fun x => { x with evac := 3, valve := 255, vent := true }) else none)

/-- Step 4: the vent closes, and Cloche regulates the valve (R463). -/
def execEvacRefill (z : Nat) (s : State) : Out :=
  due s (if z < 80 && (s.zoneAt z).evac = 3 then some (s.modZone z fun x => { x with evac := 4, vent := false }) else none)

/-- Every valve opens to 255 (R463, R465). -/
def openValves (s : State) : State :=
  (List.range 80).foldl (fun (s : State) k => s.modZone k fun x => { x with valve := 255 }) s

/-- Step 5: a wet zone runs again at F = 4, and a dry one tries again; the third failure faults the package with every
valve open (R463). -/
def execEvacCheck (z : Nat) (wet : Bool) (s : State) : Out :=
  due s (if !(z < 80 && (s.zoneAt z).evac = 4) then none
    else if wet then some (s.modZone z fun x => { x with cond := 0, evac := 0, f := 4, lfHold := false })
    else
      let s := s.modZone z fun x => { x with att := x.att + 1 }
      if (s.zoneAt z).att = 3 then
        some ((openValves s).packageFault 2 (BitVec.ofNat 64 z))
      else some (s.modZone z fun x => { x with evac := 2, valve := 0, vent := false }))

/-! ## Cold reset and firmware (R465) -/

/-- Zones that are not wet. -/
def notWet (s : State) : List Nat := (List.range 80).filter fun z => (s.zoneAt z).cond ≠ 0

/-- A cold reset, and the bring-up that follows it where the image is complete: step 2 opens the valves and samples the
channels, whose conductance no reset changes, and it stops there where a zone is not wet; a bring-up that goes on loads the
registers (log 4) and enables the journal, whose control line is written (R441, R465, log 78). The flash keeps its image, and
inputs that have not arrived are still to come. -/
def execColdReset (s : State) : Out :=
  let r := { State.reset with schedule := s.schedule }
  let r := (notWet s).foldl (fun (r : State) z => r.modZone z fun x => { x with cond := (s.zoneAt z).cond }) r
  let wet := notWet s == []
  let r := if s.pkg.firmOk && !wet then openValves r else r
  let r := r.modPkg fun p => { p with
    firmware := s.pkg.firmware, firmOk := s.pkg.firmOk, quiesced := !(s.pkg.firmOk && wet) }
  .next (if s.pkg.firmOk && wet then r.enableJournal else r)

/-- The firmware image is rewritten in place through CXL.io. An interrupted update leaves no complete image, and after one
CXL.io brings none (R465). -/
def execFirmwareUpdate (image : List (BitVec 8)) (complete : Bool) (s : State) : Out :=
  .next (s.modPkg fun p => { p with firmware := image, firmOk := p.firmOk && complete })

/-- A complete firmware image is written through the Fjoir port (R465). -/
def fjoirImage (image : List Byte) (s : State) : State := s.modPkg fun p => { p with firmware := image, firmOk := true }

end Sys2Proof.Machine
end

