-- ==== Sys2Proof/Machine/Dispatch.lean ====
section
/-! DEFINITION. One arm for every constructor of Instr: the meaning of each instruction and event. -/

namespace Sys2Proof.Machine

/-- The meaning of an instruction or of an event in a state. -/
def exec (i : Instr) (s : State) : Host.Outcome State Fault Refusal :=
  match i with
  | .nop c => Sys2Proof.Machine.execNop c s
  | .pad c => Sys2Proof.Machine.execPad c s
  | .br c disp => Sys2Proof.Machine.execBr c disp s
  | .brl c disp => Sys2Proof.Machine.execBrl c disp s
  | .bc c rel nat a b disp => Sys2Proof.Machine.execBc c rel nat a b disp s
  | .dbnz c d disp => Sys2Proof.Machine.execDbnz c d disp s
  | .call c d disp => Sys2Proof.Machine.execCall c d disp s
  | .calll c link disp => Sys2Proof.Machine.execCalll c link disp s
  | .jcall c d a => Sys2Proof.Machine.execJcall c d a s
  | .jr c a => Sys2Proof.Machine.execJr c a s
  | .ret c a => Sys2Proof.Machine.execRet c a s
  | .ifpf c level a b => Sys2Proof.Machine.execIfpf c level a b s
  | .add c o => Sys2Proof.Machine.execAdd c o s
  | .sub c o => Sys2Proof.Machine.execSub c o s
  | .addi c o simm => Sys2Proof.Machine.execAddi c o simm s
  | .mul c o => Sys2Proof.Machine.execMul c o s
  | .mulh c o => Sys2Proof.Machine.execMulh c o s
  | .div c o => Sys2Proof.Machine.execDiv c o s
  | .rem c o => Sys2Proof.Machine.execRem c o s
  | .min c o => Sys2Proof.Machine.execMin c o s
  | .max c o => Sys2Proof.Machine.execMax c o s
  | .and c o => Sys2Proof.Machine.execAnd c o s
  | .or c o => Sys2Proof.Machine.execOr c o s
  | .xor c o => Sys2Proof.Machine.execXor c o s
  | .andn c o => Sys2Proof.Machine.execAndn c o s
  | .shl c o => Sys2Proof.Machine.execShl c o s
  | .shr c o => Sys2Proof.Machine.execShr c o s
  | .sra c o => Sys2Proof.Machine.execSra c o s
  | .rot c o => Sys2Proof.Machine.execRot c o s
  | .clz c o => Sys2Proof.Machine.execClz c o s
  | .ctz c o => Sys2Proof.Machine.execCtz c o s
  | .popc c o => Sys2Proof.Machine.execPopc c o s
  | .bfx c o pos len1 => Sys2Proof.Machine.execBfx c o pos len1 s
  | .bfi c o pos len1 => Sys2Proof.Machine.execBfi c o pos len1 s
  | .sext c o => Sys2Proof.Machine.execSext c o s
  | .zext c o => Sys2Proof.Machine.execZext c o s
  | .li c d b => Sys2Proof.Machine.execLi c d b s
  | .lih c d b => Sys2Proof.Machine.execLih c d b s
  | .mov c d a => Sys2Proof.Machine.execMov c d a s
  | .lea c d a b sh disp => Sys2Proof.Machine.execLea c d a b sh disp s
  | .cmp c rel nat d a b => Sys2Proof.Machine.execCmp c rel nat d a b s
  | .sel c d a b pneg pn => Sys2Proof.Machine.execSel c d a b pneg pn s
  | .pand c d a b => Sys2Proof.Machine.execPand c d a b s
  | .por c d a b => Sys2Proof.Machine.execPor c d a b s
  | .pxor c d a b => Sys2Proof.Machine.execPxor c d a b s
  | .pnot c d a => Sys2Proof.Machine.execPnot c d a s
  | .getsr c d idx => Sys2Proof.Machine.execGetsr c d idx s
  | .putsr c idx a => Sys2Proof.Machine.execPutsr c idx a s
  | .ld c fmt d a b => Sys2Proof.Machine.execLd c fmt d a b s
  | .st c fmt d a b => Sys2Proof.Machine.execSt c fmt d a b s
  | .ldAq c fmt sc d a b => Sys2Proof.Machine.execLdAq c fmt sc d a b s
  | .stRl c fmt sc d a b => Sys2Proof.Machine.execStRl c fmt sc d a b s
  | .ldx c fmt d a b disp => Sys2Proof.Machine.execLdx c fmt d a b disp s
  | .prf c a b => Sys2Proof.Machine.execPrf c a b s
  | .vadd c o => Sys2Proof.Machine.execVadd c o s
  | .vsub c o => Sys2Proof.Machine.execVsub c o s
  | .vmul c o => Sys2Proof.Machine.execVmul c o s
  | .vmulh c o => Sys2Proof.Machine.execVmulh c o s
  | .vmadd c o => Sys2Proof.Machine.execVmadd c o s
  | .vmin c o => Sys2Proof.Machine.execVmin c o s
  | .vmax c o => Sys2Proof.Machine.execVmax c o s
  | .vabsd c o => Sys2Proof.Machine.execVabsd c o s
  | .vavg c o => Sys2Proof.Machine.execVavg c o s
  | .vand c o => Sys2Proof.Machine.execVand c o s
  | .vor c o => Sys2Proof.Machine.execVor c o s
  | .vxor c o => Sys2Proof.Machine.execVxor c o s
  | .vandn c o => Sys2Proof.Machine.execVandn c o s
  | .vshl c o => Sys2Proof.Machine.execVshl c o s
  | .vshr c o => Sys2Proof.Machine.execVshr c o s
  | .vsra c o => Sys2Proof.Machine.execVsra c o s
  | .vcmp c o => Sys2Proof.Machine.execVcmp c o s
  | .vsel c o => Sys2Proof.Machine.execVsel c o s
  | .vmov c o => Sys2Proof.Machine.execVmov c o s
  | .vbcast c o => Sys2Proof.Machine.execVbcast c o s
  | .vid c o => Sys2Proof.Machine.execVid c o s
  | .vclz c o => Sys2Proof.Machine.execVclz c o s
  | .vpopc c o => Sys2Proof.Machine.execVpopc c o s
  | .vdot4 c o => Sys2Proof.Machine.execVdot4 c o s
  | .vfadd c o => Sys2Proof.Machine.execVfadd c o s
  | .vfsub c o => Sys2Proof.Machine.execVfsub c o s
  | .vfmul c o => Sys2Proof.Machine.execVfmul c o s
  | .vfma c o => Sys2Proof.Machine.execVfma c o s
  | .vfmin c o => Sys2Proof.Machine.execVfmin c o s
  | .vfmax c o => Sys2Proof.Machine.execVfmax c o s
  | .vfcmp c o => Sys2Proof.Machine.execVfcmp c o s
  | .vfdiv c o => Sys2Proof.Machine.execVfdiv c o s
  | .vfsqrt c o => Sys2Proof.Machine.execVfsqrt c o s
  | .vfrcp c o => Sys2Proof.Machine.execVfrcp c o s
  | .vfrsq c o => Sys2Proof.Machine.execVfrsq c o s
  | .vfexp2 c o => Sys2Proof.Machine.execVfexp2 c o s
  | .vflog2 c o => Sys2Proof.Machine.execVflog2 c o s
  | .vfscl c o => Sys2Proof.Machine.execVfscl c o s
  | .vfrnd c o => Sys2Proof.Machine.execVfrnd c o s
  | .vxch c o => Sys2Proof.Machine.execVxch c o s
  | .vperm c o => Sys2Proof.Machine.execVperm c o s
  | .vslide c o => Sys2Proof.Machine.execVslide c o s
  | .vcompress c o => Sys2Proof.Machine.execVcompress c o s
  | .vexpand c o => Sys2Proof.Machine.execVexpand c o s
  | .vred c o => Sys2Proof.Machine.execVred c o s
  | .vredsc c o => Sys2Proof.Machine.execVredsc c o s
  | .vdot c o => Sys2Proof.Machine.execVdot c o s
  | .vcvt c o => Sys2Proof.Machine.execVcvt c o s
  | .vpack c o => Sys2Proof.Machine.execVpack c o s
  | .vunpack c o => Sys2Proof.Machine.execVunpack c o s
  | .mand c d a b => Sys2Proof.Machine.execMand c d a b s
  | .mor c d a b => Sys2Proof.Machine.execMor c d a b s
  | .mnot c d a => Sys2Proof.Machine.execMnot c d a s
  | .mpopc c d a x => Sys2Proof.Machine.execMpopc c d a x s
  | .mfirst c d a x => Sys2Proof.Machine.execMfirst c d a x s
  | .vld c o => Sys2Proof.Machine.execVld c o s
  | .vlds c o => Sys2Proof.Machine.execVlds c o s
  | .vldx c o => Sys2Proof.Machine.execVldx c o s
  | .vst c o => Sys2Proof.Machine.execVst c o s
  | .vsts c o => Sys2Proof.Machine.execVsts c o s
  | .vstx c o => Sys2Proof.Machine.execVstx c o s
  | .vldq c fmt q a b => Sys2Proof.Machine.execVldq c fmt q a b s
  | .vstq c fmt q a b => Sys2Proof.Machine.execVstq c fmt q a b s
  | .vbind c fmt sc st q a => Sys2Proof.Machine.execVbind c fmt sc st q a s
  | .vunbind c q => Sys2Proof.Machine.execVunbind c q s
  | .stmap c slot soff a b => Sys2Proof.Machine.execStmap c slot soff a b s
  | .stwb c a b => Sys2Proof.Machine.execStwb c a b s
  | .stdrop c a b => Sys2Proof.Machine.execStdrop c a b s
  | .setts c wf m n k => Sys2Proof.Machine.execSetts c wf m n k s
  | .wfmt c wf acc a => Sys2Proof.Machine.execWfmt c wf acc a s
  | .wload c acc a b kofs => Sys2Proof.Machine.execWload c acc a b kofs s
  | .mscale c ofB a b count => Sys2Proof.Machine.execMscale c ofB a b count s
  | .mzero c acc => Sys2Proof.Machine.execMzero c acc s
  | .maccLd c acc v row0 => Sys2Proof.Machine.execMaccLd c acc v row0 s
  | .mova c fmt sat v acc rm row0 => Sys2Proof.Machine.execMova c fmt sat v acc rm row0 s
  | .mma c fmt acc a b kofs => Sys2Proof.Machine.execMma c fmt acc a b kofs s
  | .mwait c acc => Sys2Proof.Machine.execMwait c acc s
  | .mstat c d acc => Sys2Proof.Machine.execMstat c d acc s
  | .amo c op sc fmt d a b disp => Sys2Proof.Machine.execAmo c op sc fmt d a b disp s
  | .vamo c op sc fmt d a b msk mn scaled si => Sys2Proof.Machine.execVamo c op sc fmt d a b msk mn scaled si s
  | .barInit c a b => Sys2Proof.Machine.execBarInit c a b s
  | .barArrive c d a b => Sys2Proof.Machine.execBarArrive c d a b s
  | .barExpect c a b => Sys2Proof.Machine.execBarExpect c a b s
  | .barWait c a b => Sys2Proof.Machine.execBarWait c a b s
  | .barTest c d a => Sys2Proof.Machine.execBarTest c d a s
  | .semTas c a => Sys2Proof.Machine.execSemTas c a s
  | .semClr c a => Sys2Proof.Machine.execSemClr c a s
  | .crLd c d a => Sys2Proof.Machine.execCrLd c d a s
  | .crSt c a b => Sys2Proof.Machine.execCrSt c a b s
  | .fnc c dir sc => Sys2Proof.Machine.execFnc c dir sc s
  | .wait c rel nat d a b sc w32 => Sys2Proof.Machine.execWait c rel nat d a b sc w32 s
  | .push c d k b => Sys2Proof.Machine.execPush c d k b s
  | .pop c d k => Sys2Proof.Machine.execPop c d k s
  | .peek c d k => Sys2Proof.Machine.execPeek c d k s
  | .qlen c d port => Sys2Proof.Machine.execQlen c d port s
  | .cpwp c d k b => Sys2Proof.Machine.execCpwp c d k b s
  | .zloop c a len1 => Sys2Proof.Machine.execZloop c a len1 s
  | .lnch c d a => Sys2Proof.Machine.execLnch c d a s
  | .ipurge c a b => Sys2Proof.Machine.execIpurge c a b s
  | .setvl c fmt d b => Sys2Proof.Machine.execSetvl c fmt d b s
  | .vfetch c m disp => Sys2Proof.Machine.execVfetch c m disp s
  | .vpret c => Sys2Proof.Machine.execVpret c s
  | .farmNext c d m v => Sys2Proof.Machine.execFarmNext c d m v s
  | .lprec c d a len nc k0 k1 k2 k3 tr => Sys2Proof.Machine.execLprec c d a len nc k0 k1 k2 k3 tr s
  | .lpend c => Sys2Proof.Machine.execLpend c s
  | .lpjoin c => Sys2Proof.Machine.execLpjoin c s
  | .treqFixed c n => Sys2Proof.Machine.execTreqFixed c n s
  | .treqNeg c n disp => Sys2Proof.Machine.execTreqNeg c n disp s
  | .treqPool c n a disp => Sys2Proof.Machine.execTreqPool c n a disp s
  | .trel c n => Sys2Proof.Machine.execTrel c n s
  | .doffretFinished c => Sys2Proof.Machine.execDoffretFinished c s
  | .doffretSummarised c => Sys2Proof.Machine.execDoffretSummarised c s
  | .doffretRefused c => Sys2Proof.Machine.execDoffretRefused c s
  | .yield c => Sys2Proof.Machine.execYield c s
  | .trap c b => Sys2Proof.Machine.execTrap c b s
  | .tret c => Sys2Proof.Machine.execTret c s
  | .ecall c b => Sys2Proof.Machine.execEcall c b s
  | .halt c => Sys2Proof.Machine.execHalt c s
  | .sync c => Sys2Proof.Machine.execSync c s
  | .brk c b => Sys2Proof.Machine.execBrk c b s
  | .wmark c d => Sys2Proof.Machine.execWmark c d s
  | .tsc c d => Sys2Proof.Machine.execTsc c d s
  | .cnt c d a => Sys2Proof.Machine.execCnt c d a s
  | .preciseVectorTrap h => Sys2Proof.Machine.execPreciseVectorTrap h s
  | .queueWaitEnd h => Sys2Proof.Machine.execQueueWaitEnd h s
  | .loadStreamFetch h q => Sys2Proof.Machine.execLoadStreamFetch h q s
  | .storeStreamWrite h q => Sys2Proof.Machine.execStoreStreamWrite h q s
  | .barWaitCompletes h => Sys2Proof.Machine.execBarWaitCompletes h s
  | .semaphoreGrant cluster bit => Sys2Proof.Machine.execSemaphoreGrant cluster bit s
  | .waitSatisfied h => Sys2Proof.Machine.execWaitSatisfied h s
  | .popDataArrives h => Sys2Proof.Machine.execPopDataArrives h s
  | .copy h k n => Sys2Proof.Machine.execCopy h k n s
  | .copyDecrement h k n => Sys2Proof.Machine.execCopyDecrement h k n s
  | .gather h k => Sys2Proof.Machine.execGather h k s
  | .scatter h k => Sys2Proof.Machine.execScatter h k s
  | .reduction h k => Sys2Proof.Machine.execReduction h k s
  | .attention h k => Sys2Proof.Machine.execAttention h k s
  | .allReduce h k => Sys2Proof.Machine.execAllReduce h k s
  | .collectiveTimeout h k missing => Sys2Proof.Machine.execCollectiveTimeout h k missing s
  | .resultAppend h k => Sys2Proof.Machine.execResultAppend h k s
  | .atlrGo => Sys2Proof.Machine.execAtlrGo s
  | .eportWrite h v => Sys2Proof.Machine.execEportWrite h v s
  | .replayIteration h => Sys2Proof.Machine.execReplayIteration h s
  | .doffEntry h => Sys2Proof.Machine.execDoffEntry h s
  | .refusalDelayEnd core slot => Sys2Proof.Machine.execRefusalDelayEnd core slot s
  | .yieldRequest h => Sys2Proof.Machine.execYieldRequest h s
  | .quantumExpiry h => Sys2Proof.Machine.execQuantumExpiry h s
  | .forcedSave h => Sys2Proof.Machine.execForcedSave h s
  | .contextRestore n h => Sys2Proof.Machine.execContextRestore n h s
  | .hostLinkAccess write pa data => Sys2Proof.Machine.execHostLinkAccess write pa data s
  | .peerAccess peer write pa data => Sys2Proof.Machine.execPeerAccess peer write pa data s
  | .queueSchedule q => Sys2Proof.Machine.execQueueSchedule q s
  | .packetNop q => Sys2Proof.Machine.execPacketNop q s
  | .packetLaunch q => Sys2Proof.Machine.execPacketLaunch q s
  | .packetFence q => Sys2Proof.Machine.execPacketFence q s
  | .packetSignal q => Sys2Proof.Machine.execPacketSignal q s
  | .packetEdge q => Sys2Proof.Machine.execPacketEdge q s
  | .packetModuleLoad q => Sys2Proof.Machine.execPacketModuleLoad q s
  | .packetModuleUnload q => Sys2Proof.Machine.execPacketModuleUnload q s
  | .cidAssign seq => Sys2Proof.Machine.execCidAssign seq s
  | .leasingDone seq => Sys2Proof.Machine.execLeasingDone seq s
  | .hartPlacement seq rank h => Sys2Proof.Machine.execHartPlacement seq rank h s
  | .launchEnd seq => Sys2Proof.Machine.execLaunchEnd seq s
  | .shootdown n => Sys2Proof.Machine.execShootdown n s
  | .shootdownComplete => Sys2Proof.Machine.execShootdownComplete s
  | .fownWrite owner frame => Sys2Proof.Machine.execFownWrite owner frame s
  | .fownRead frame => Sys2Proof.Machine.execFownRead frame s
  | .migrationStart src => Sys2Proof.Machine.execMigrationStart src s
  | .migrationLineCopy => Sys2Proof.Machine.execMigrationLineCopy s
  | .peerLinkUp peer => Sys2Proof.Machine.execPeerLinkUp peer s
  | .peerLoss peer => Sys2Proof.Machine.execPeerLoss peer s
  | .partitionGroupWrite core high v => Sys2Proof.Machine.execPartitionGroupWrite core high v s
  | .phartWrite core v => Sys2Proof.Machine.execPhartWrite core v s
  | .crownWrite cluster v => Sys2Proof.Machine.execCrownWrite cluster v s
  | .step h tag => Sys2Proof.Machine.execStep h tag s
  | .fjoirHalt h tag => Sys2Proof.Machine.execFjoirHalt h tag s
  | .resume h tag => Sys2Proof.Machine.execResume h tag s
  | .rstep h tag w => Sys2Proof.Machine.execRstep h tag w s
  | .rdreg h tag idx => Sys2Proof.Machine.execRdreg h tag idx s
  | .wrreg h tag idx v => Sys2Proof.Machine.execWrreg h tag idx v s
  | .rdmem tag pa => Sys2Proof.Machine.execRdmem tag pa s
  | .wrmem tag pa v => Sys2Proof.Machine.execWrmem tag pa v s
  | .ltlWrite h v => Sys2Proof.Machine.execLtlWrite h v s
  | .lctlLostClear h => Sys2Proof.Machine.execLctlLostClear h s
  | .counterLatch => Sys2Proof.Machine.execCounterLatch s
  | .uncorrectableStateError loc => Sys2Proof.Machine.execUncorrectableStateError loc s
  | .rpoisGo frame => Sys2Proof.Machine.execRpoisGo frame s
  | .scrubRow bank row lines bad corrected => Sys2Proof.Machine.execScrubRow bank row lines bad corrected s
  | .sparesExhausted bank => Sys2Proof.Machine.execSparesExhausted bank s
  | .watchdogExpiry q => Sys2Proof.Machine.execWatchdogExpiry q s
  | .coreRailLoss => Sys2Proof.Machine.execCoreRailLoss s
  | .powerCapStep watts => Sys2Proof.Machine.execPowerCapStep watts s
  | .railOvercurrent => Sys2Proof.Machine.execRailOvercurrent s
  | .throttleDown z => Sys2Proof.Machine.execThrottleDown z s
  | .throttleUp z => Sys2Proof.Machine.execThrottleUp z s
  | .sgateWrite core v => Sys2Proof.Machine.execSgateWrite core v s
  | .bankWake core bank => Sys2Proof.Machine.execBankWake core bank s
  | .wgateWrite v => Sys2Proof.Machine.execWgateWrite v s
  | .zminWrite z v => Sys2Proof.Machine.execZminWrite z v s
  | .ctrapClear v => Sys2Proof.Machine.execCtrapClear v s
  | .overTemperature z temp => Sys2Proof.Machine.execOverTemperature z temp s
  | .lowFlow z flow => Sys2Proof.Machine.execLowFlow z flow s
  | .dryChannel z => Sys2Proof.Machine.execDryChannel z s
  | .pressureLoss z kpa => Sys2Proof.Machine.execPressureLoss z kpa s
  | .evacValveClose z => Sys2Proof.Machine.execEvacValveClose z s
  | .evacPurge z => Sys2Proof.Machine.execEvacPurge z s
  | .evacRefill z => Sys2Proof.Machine.execEvacRefill z s
  | .evacCheck z wet => Sys2Proof.Machine.execEvacCheck z wet s
  | .coldReset => Sys2Proof.Machine.execColdReset s
  | .firmwareUpdate image complete => Sys2Proof.Machine.execFirmwareUpdate image complete s
  | .illegalInstruction w => Sys2Proof.Machine.execIllegalInstruction w s
  | .fjoirUnassignedCode code tag => Sys2Proof.Machine.execFjoirUnassignedCode code tag s
  | .packetFenceSatisfied q => Sys2Proof.Machine.execPacketFenceSatisfied q s
  | .packetEdgeTaken q => Sys2Proof.Machine.execPacketEdgeTaken q s
  | .collectivePacket h k rank failed data => Sys2Proof.Machine.execCollectivePacket h k rank failed data s
  | .refusalWindowExpiry h => Sys2Proof.Machine.execRefusalWindowExpiry h s
  | .lowFlowRecovery z flow => Sys2Proof.Machine.execLowFlowRecovery z flow s
  | .valveRegulation z valve flow => Sys2Proof.Machine.execValveRegulation z valve flow s

end Sys2Proof.Machine
end

