-- ==== Sys2Proof/Machine/Turns.lean ====
section
/-! DEFINITION. What comes next from outside one hart's program: a hart's turn, an event, time that passes and the other
inputs of the schedule (log 1, log 2); and placing an instruction where the next step fetches it (log 6). -/

namespace Sys2Proof.Machine

/-! ## Time (R3, R372, R405, R421, R422, R444) -/

/-- Cycles of a core among those of a core at full clock: its zone runs at F/16, and not at all where F is 0 (R459). -/
def cyclesOf (s : State) (n cycles : Nat) : Nat :=
  cycles * (s.zoneAt (State.zoneOfCore (n / Config.hartsPerCore))).f.toNat / 16

/-- A hart's share of time that passes: its running time, its deadline and its RUN counter (R372, R405, R422). -/
def Hart.elapse (ticks cycles : Nat) (h : Hart) : Hart :=
  if h.run ≠ .running then h
  else
    { h.bump 0 cycles with
      ticks := h.ticks + ticks
      ydl := if h.yreq then h.ydl - BitVec.ofNat 32 (min h.ydl.toNat cycles) else h.ydl }

/-- Partitions with a running context. -/
def runningPids (s : State) : List Byte :=
  ((s.slots.map s.hartAt).filterMap fun h => if h.run = .running then some h.pid else none).eraseDups

/-- A context does not run past its quantum while others of its priority wait (R372). -/
def withinQuantum (ticks : Nat) (s : State) : Bool :=
  s.slots.all fun n =>
    let x := s.hartAt n
    !(x.run = .running && contested x s) || decide (x.ticks + ticks ≤ quantumOf x s)

/-- The queues of the table. -/
def tableQueues (s : State) : List Nat := List.range (s.pkg.qtNq.toNat + 1)

/-- No expiry and no latch lies within the time that passes: each is an event of its own (R430, R444). An expiry that waits
for a stopped home slice comes late (R463). -/
def mayElapse (ticks : Nat) (s : State) : Bool :=
  (tableQueues s).all (fun q => wdogTicks s q == 0 || !outstanding s q || resetting s (queuePid s q) || tableHeld s q
      || decide ((queueAt s q).wd + ticks ≤ wdogTicks s q))
    && !latchDue s.pkg && withinQuantum ticks s && stopsInTime ticks s
    && (!s.pkg.ctsrEn
      || decide (s.pkg.time.toNat + ticks ≤ (s.pkg.time.toNat / latchPeriod s.pkg + 1) * latchPeriod s.pkg))

/-- Time passes: the time base, the running time of contexts and partitions, deadlines and watchdogs advance. -/
def elapse (ticks cycles : Nat) (s : State) : State :=
  let pids := runningPids s
  let qs := (tableQueues s).filter fun q => outstanding s q && !resetting s (queuePid s q)
  let s := s.modPkg fun p => { p with time := p.time + BitVec.ofNat 64 ticks }
  let s := pids.foldl (fun (s : State) p => s.modPart p fun x => { x with ran := x.ran + BitVec.ofNat 64 ticks }) s
  let s := { s with
    hart := s.hart.elapse ticks (cyclesOf s s.cur cycles)
    others := s.others.map fun (p : Nat × Hart) => (p.1, p.2.elapse ticks (cyclesOf s p.1 cycles)) }
  qs.foldl (fun s q => modQueue q (fun x => { x with wd := x.wd + ticks }) s) s

/-! ## Turns -/

/-- A row of the opcode table that is an event, not an instruction of a hart. -/
def isEvent (i : Instr) : Bool :=
  i.ctl?.isNone && match i with | .illegalInstruction _ => false | _ => true

/-- A vector load or store that stops at an element. -/
def isVectorAccess (i : Instr) : Bool := stoppable i && isAccess i

/-- The vector load or store that the focused hart's vector streams perform next, at its elements of a list: the outcome, and
how the hart stands where it stops there. -/
def accessAt (es : Nat → Bool) (s : State) : Option (VRes × (Hart → Hart)) :=
  if !s.vectorRuns then none
  else
    match s.hart.oldestEpisode, s.hart.vcq with
    | some ep, _ =>
        match State.pickGroup ep with
        | none => none
        | some ep =>
            match (s.atLevel ep.env.level).fetch ep.at_ with
            | .error _ => none
            | .ok (bs, _) =>
                let w : IWord := BitVec.ofNat 96 (leNat bs)
                match decode w with
                | .error _ => none
                | .ok i =>
                    if isVectorAccess i && { s.hart with p := ep.env.p }.guard (ctlOf false w) then
                      some (runEntry i { ep.env with pc := ep.at_, grp := some (ep.group.filter es) } s,
                        fun h => { h with episode := some ep })
                    else none
    | none, e :: t =>
        if isVectorAccess e.instr && mayBegin s [] e then
          some (runEntry e.instr { e.env with grp := some ((List.range e.env.n).filter es) } (s.onH fun h => { h with vcq := t }),
            fun h => { h with vcq := { e with stopped := true } :: t })
        else none
    | none, [] => none

/-- The elements below b of the vector load or store in progress have been answered: it stands at b (R391). -/
def answered (b : Nat) (s : State) : State :=
  if b ≤ s.hart.vstart.toNat then s
  else
    match accessAt (fun e => decide (e < b)) s with
    | some (.done t, stands) => t.onH fun h => { stands h with vstart := BitVec.ofNat 13 b }
    | _ => s

/-- Memory as the stores that arrive leave it: those of some elements of the vector store in progress, or else of the hart's
next step. -/
def arrivals (run : Instr → State → Out) (es : List Nat) (s : State) : List Host.Cell :=
  if es = [] then s.mem
  else
    match accessAt es.contains s with
    | some (.done t, _) => t.mem
    | some (.trap _ t _, _) => t.mem
    | some (.wait, _) => s.mem
    | none => (orSame s (hartStep run s)).mem

/-- The queued instruction, behind others, whose accesses the streams were to perform next, where they meet the loss: its
number, and the trap that waits at it. -/
def lostBehind (up down : State) : Option (Nat × Trap) :=
  if !up.vectorRuns || up.hart.episode.isSome then none
  else
    match runFirst (fun _ => true) [] up.hart.vcq up, up.hart.vcq.head? with
    | some (e, _), some first =>
        if e.env.seq = first.env.seq then none
        else
          match runEntry e.instr e.env down with
          | .trap t _ _ => if t.cause = .remote then some (e.env.seq, t) else none
          | _ => none
    | _, _ => none

/-- The accesses of the focused hart that are on their way meet the loss of a peer: some are answered, some stores arrive, and
the next access there raises Remote Unreachable at its instruction (R391). -/
def meetLoss (run : Instr → State → Out) (peer b : Nat) (es : List Nat) (s : State) : State :=
  let up := answered b s
  let lo := (0x800 + peer) * 2 ^ 40
  let sent := arrivals run es up
  let down : State := { up with
    mem := up.mem.filter (fun c => c.1 < lo) ++ sent.filter (fun c => lo ≤ c.1 && c.1 < lo + 2 ^ 40)
      ++ up.mem.filter (fun c => lo + 2 ^ 40 ≤ c.1)
    pkg := { up.pkg with peersUp := up.pkg.peersUp.filter (· ≠ peer) } }
  let met := match boundary up, lostBehind up down with
    | none, some (k, t) => down.onH fun h => { h with
        vcq := h.vcq.map fun (e : VEntry) => if e.env.seq = k then { e with trap := some (t, 0) } else e }
    | _, _ => orSame down (hartStep run down)
  met.modPkg fun p => { p with peersUp := up.pkg.peersUp }

/-- The link to a peer is lost while accesses of some harts are on their way (R391). -/
def lossInFlight (run : Instr → State → Out) (peer : Nat) (harts : List (Nat × Nat × List Nat)) (s : State) : Out :=
  if (harts.any fun x => decide (slotCount ≤ x.1)) || !s.pkg.peersUp.contains peer then .next s
  else execPeerLoss peer (harts.foldl (fun s x => s.atHart x.1 (meetLoss run peer x.2.1 x.2.2)) s)

/-- What the quiesced package still serves: reads by the host, CXL.io's firmware update, and a cold reset (R433). -/
def quiescedServes (i : Instr) : Bool :=
  match i with
  | .hostLinkAccess w .. => !w
  | .coldReset | .firmwareUpdate .. => true
  | _ => false

/-- A turn that the quiesced package does not take: one of a hart, an engine or the queue processor, or an event that it does
not serve (R433). -/
def quiescedStops (t : Turn) : Bool :=
  match t with
  | .hart _ | .engine .. | .lossInFlight .. | .flowQueue _ | .resetStep _ => true
  | .event i => !quiescedServes i
  | _ => false

/-- A counter of R422 that counts cycles or evictions, which the model leaves to the schedule: RUN follows the time that passes,
RET the instructions and LREC the lining. -/
def timedCounter (c : Nat) : Bool := decide (2 ≤ c) && decide (c < 16) && c != 14

/-- Perform one turn, instructions and events by a given meaning. -/
def takeTurn (run : Instr → State → Out) (t : Turn) (s : State) : Out :=
  if s.pkg.quiesced && quiescedStops t then .fault .quiesced
  else match t with
  | .event i => if isEvent i then run i s else .next s
  | .hart n => if slotCount ≤ n then .next s else hartStep run (s.focus n)
  | .elapse ticks cycles => due s (if mayElapse ticks s then some (elapse ticks cycles s) else none)
  | .count h c n => due s (if h < slotCount && timedCounter c && (s.hartAt h).run = .running then some (s.modHart h (Hart.bump c n)) else none)
  | .hold h on => due s (if h < slotCount then some (s.modHart h fun x => { x with hold := on }) else none)
  | .writeBack pline => due s (if s.homeStopped (pline * 128) then none else some (s.clean pline))
  | .drainFor h n => due s (if h < slotCount then some (s.modHart h fun x => { x with drainFor := n }) else none)
  | .lag h on => due s (if h < slotCount then
      some (s.atHart h fun s => (if on then s else s.lateStores).onH fun x => { x with lag := on }) else none)
  | .lateStore h => due s (if h < slotCount && !(s.hartAt h).sbuf.isEmpty then some (s.atHart h State.lateStore) else none)
  | .engine h k n => due s (takeCommands h k n s)
  | .cacheWord h pa => due s (if h < slotCount && pa % 4 = 0 then some (s.fillWord h pa) else none)
  | .dropWord h pa => .next (s.dropWords fun w => w.hart == h && w.pa == pa)
  | .lossInFlight peer harts => lossInFlight run peer harts s
  | .corrected pa => due s (corrected pa s)
  | .sense z volt proc cond => due s (sense z volt proc cond s)
  | .flowQueue seq => due s (flowQueue seq s)
  | .resetStep q => due s (resetStep q s)
  | .fjoirImage image => .next (fjoirImage image s)

/-- The next step: the first turn of the schedule, or else a step of the focused hart. -/
def nextStep (run : Instr → State → Out) (s : State) : Out :=
  match s.schedule with
  | t :: ts => takeTurn run t { s with schedule := ts }
  | [] => if s.pkg.quiesced then .fault .quiesced else hartStep run s

/-! ## Placing an instruction (log 6) -/

/-- The frames that hold a placed instruction: frame 1 for the page of pc and frame 2 for the page after it. -/
def placedFrame (k : Nat) : Nat := k + 1

/-- Map page k after that of pc for the focused hart, readable and executable at its level, in device memory of its
partition without poison. -/
def mapPlaced (k : Nat) (s : State) : State :=
  let page := (s.hart.pc.toNat / 65536 + k) % 2 ^ 41
  let e : TlbEntry := ⟨.core s.coreNo, s.hart.pid, page * 65536, 65536, placedFrame k * 65536, true, true, 1⟩
  { s with
    tlb := e :: s.tlb
    owners := tset 0 s.owners (placedFrame k) (0x0100 + s.hart.pid.setWidth 16)
    poison := s.poison.filter fun l => l / 512 ≠ placedFrame k }

/-- Give the focused slot a context that runs, and put 12 bytes at its program counter. -/
def placeWord (bs : List Byte) (s : State) : State :=
  let s := { s with schedule := [], icache := [] }.modPkg fun p => { p with quiesced := false }
  let s := (s.onH fun h => { h with run := .running, waiting := none }) |> mapPlaced 0 |> mapPlaced 1
  s.putBytes (65536 + s.hart.pc.toNat % 65536) bs

end Sys2Proof.Machine
end

