-- ==== Sys2Proof/Machine/Step.lean ====
section
/-! DEFINITION. The step of the machine, and an instruction placed where it fetches. -/

namespace Sys2Proof.Machine

/-- One step: the first turn of the schedule, or else a step of the focused hart. -/
def step (s : State) : Host.Outcome State Fault Refusal := nextStep exec s

/-- The state with the instruction of the table's bits w where step fetches next (log 6). -/
def State.withFetchWord (s : State) (nbits w : Nat) : State :=
  placeWord (wordBytes (BitVec.ofNat 96 (w % 2 ^ nbits))) s

end Sys2Proof.Machine
end

