-- ==== Sys2Proof/Safety.lean ====
section
/-! DEFINITION. What counts as a safe run, and the terms in which claims about single instructions are stated: when the
operands of an instruction can be read, what a result of a format is, and what state an instruction leaves. -/

namespace Sys2Proof.Safety

open Sys2Proof.Machine

/-! ## Runs -/

/-- A run of n steps is safe when no step of it stops in a fault or a refusal. -/
def Runs (n : Nat) (s : State) : Prop := ∃ t, Host.Core.run core n s = .next t

/-- Memory is in its canonical form: the invariant of the memory that every step keeps. -/
def MemoryForm (s : State) : Prop := Memory.wf s.mem = true

/-! ## Operands of the scalar stream (R72, R74) -/

/-- Two scalar sources can be read, A before B: their values, and the hart without the queue entries they remove. -/
def Sources (a b : Operand) (h : Hart) (x y : Word) (h' : Hart) : Prop :=
  ∃ h1, takeS a h = some (x, h1) ∧ takeS b h1 = some (y, h')

/-- A scalar destination has room: a queue register is not full. -/
def Room (o : Operand) (h : Hart) : Prop := ∀ n, o = .q n → (h.sq n.toNat).length < Config.scalarQueueDepth

/-- An instruction of the scalar stream has completed with hart h: the next one is at pc + 12 (R14). -/
def completed (s : State) (h : Hart) : State := { s with hart := { h with pc := h.pc + 12, waiting := none } }

/-- A value of an integer format (R42). -/
def InRange (f : Fmt) (r : Int) : Prop := fmtLo f ≤ r ∧ r ≤ fmtHi f

/-- r and g are the result and the flag of an exact value e: the value of the format that is congruent to e modulo
2^w, or with .s the nearest value of the format, with IS where that changes it (R43). -/
def ResultIs (f : Fmt) (sat : Bool) (e r : Int) (g : Flags) : Prop :=
  InRange f r ∧
    (if sat then
      (InRange f e → r = e ∧ g = 0) ∧ (e < fmtLo f → r = fmtLo f ∧ g = fIS) ∧ (fmtHi f < e → r = fmtHi f ∧ g = fIS)
    else g = 0 ∧ ∃ k : Int, e = r + k * (2 ^ f.width : Nat))

/-- The instruction i, with operands o, completes with the result of the exact function e of its operands (R74, R76). -/
def ScalarResult (i : Instr) (c : Ctl) (o : SOps) (e : Int → Int → Int) : Prop :=
  ∀ s x y h, s.hart.guard c = true → Sources o.a o.b s.hart x y h → Room o.d h →
    ∃ r g h', ResultIs o.fmt o.sat (e (opnd o.fmt o.sat o.a.mods x).1 (opnd o.fmt o.sat o.b.mods y).1) r g ∧
      putS o.d (ext o.fmt r)
        (h.flag ((opnd o.fmt o.sat o.a.mods x).2 ||| (opnd o.fmt o.sat o.b.mods y).2 ||| g)) = some h' ∧
      Machine.exec i s = .next (completed s h')

/-- The same with the amount of a shift: B's full 64-bit value (R77). -/
def ShiftResult (i : Instr) (c : Ctl) (o : SOps) (e : Int → Nat → Int) : Prop :=
  ∀ s x y h, s.hart.guard c = true → Sources o.a o.b s.hart x y h → Room o.d h →
    ∃ r g h', ResultIs o.fmt o.sat (e (opnd o.fmt o.sat o.a.mods x).1 (full64 o.sat o.b.mods y).1.toNat) r g ∧
      putS o.d (ext o.fmt r)
        (h.flag ((opnd o.fmt o.sat o.a.mods x).2 ||| (full64 o.sat o.b.mods y).2 ||| g)) = some h' ∧
      Machine.exec i s = .next (completed s h')

/-- The instruction i reads A alone, and completes with the value v of it and no flag. -/
def UnaryResult (i : Instr) (c : Ctl) (a d : Operand) (v : Word → Word → Prop) : Prop :=
  ∀ s x h, s.hart.guard c = true → takeS a s.hart = some (x, h) → Room d h →
    ∃ r h', v x r ∧ putS d r h = some h' ∧ Machine.exec i s = .next (completed s h')

/-- A transfer of control to an address (R86). -/
def jumped (s : State) (a : Addr) : State := { s with hart := { s.hart with pc := a, waiting := none } }

/-- The pattern of an operand of the format. -/
def pattern (o : SOps) (x : Word) : Nat := wrapNat o.fmt.width (opnd o.fmt false o.a.mods x).1

/-- u is what the end of task q with STATUS 2 leaves of s: every hart that ran it is empty, no saved or halted context of it
is left, its launch is being stopped with that STATUS, and other launches and, where no store is late, memory are as
before (R399). -/
def TaskEnds (q : Word) (s u : State) : Prop :=
  u.hart.run = .empty ∧ (∀ n, (u.hartAt n).run ≠ .empty → (u.hartAt n).launch ≠ some q) ∧
  (∀ c ∈ u.saved, c.hart.launch ≠ some q) ∧ (∀ c ∈ u.orphans, c.2.launch ≠ some q) ∧
  (∀ l ∈ u.launches, l.seq = q → l.stopping = true ∧ l.status = 2) ∧
  (∀ l, l.seq ≠ q → (l ∈ u.launches ↔ l ∈ s.launches)) ∧ u.cur = s.cur ∧
  ((∀ n, (s.hartAt n).sbuf = []) → u.mem = s.mem)

/-! ## Instructions of the vector command queue (R39, R98 to R110, R170) -/

/-- Nothing keeps an instruction of the queue from its effect: its guard is true, no trap has frozen the queue, and no
queued work comes before it. -/
def Issues (c : Ctl) (s : State) : Prop :=
  s.hart.guard c = true ∧ s.hart.vqf = false ∧ s.vectorIdle = true

/-- Two vector sources can be read, A before B. -/
def VSources (a b : Operand) (v : Env) (h : Hart) (x y : VSrc) (h' : Hart) : Prop :=
  ∃ h1, takeV a v h = .ok (x, h1) ∧ takeV b v h1 = .ok (y, h')

/-- A vector destination takes a result: a queue register has room, and a stream bound to it stores and has not
failed. -/
def VRoom (d : Operand) (h : Hart) : Prop :=
  match d with
  | .q n => (h.vq (n.toNat - 8)).length < Config.vectorQueueDepth ∧
      ∀ b, h.stream (n.toNat - 8) = some b → b.store = true ∧ b.trap = none
  | _ => True

/-- The pattern of element e of a vector (R98, R100, R52). -/
def elemOf (f : Fmt) (t : List (Nat × Elem)) (e : Nat) : Nat := rawElem f Mods.none false (.vec t) e

/-- What a mask and a zeroing bit make of element e: the new value where it is active, zero where it is not and MZ is
set, and otherwise what it was (R110). -/
def masked (act mz : Bool) (new old : Nat) : Nat := if act then new else if mz then 0 else old

/-- The next state of an instruction of the queue that completed with hart h. -/
def ranQueued (s : State) (h : Hart) : State := { s.issued with hart := h }

/-- The elementwise mould: i completes; the elements from vstart to the end of the vector length hold their results, of
pattern F and flags F, where the mask has them active, and every other element of D what it held; vstart becomes 0 and
the flags of the active elements are set (R105, R107, R110). -/
def Elementwise (i : Instr) (c : Ctl) (o : VOps) (f : Fmt)
    (F : Hart → VSrc → VSrc → List (Nat × Elem) → Nat → Nat × Flags) : Prop :=
  ∀ s x y h, Issues c s → (namesQueue [o.d, o.a, o.b] = true → s.hart.vstart = 0) →
    VSources o.a o.b (s.envOf i) s.issued.hart x y h → VRoom o.d h →
    ∃ t g h', exec i s = .next (ranQueued s h') ∧ putV o.d t ({ h.flag g with vstart := 0 }) = .ok h' ∧
      (∀ e, elemOf f t e =
        if s.hart.vstart.toNat ≤ e ∧ e < f.pack * s.vlen then
          masked (active h o.x.msk o.x.mn f.pack e) o.x.mz ((F h x y (oldV o.d h) e).1 % 2 ^ f.width)
            (elemOf f (oldV o.d h) e)
        else elemOf f (oldV o.d h) e) ∧
      ∀ k, g.getLsbD k = true ↔ ∃ e, s.hart.vstart.toNat ≤ e ∧ e < f.pack * s.vlen ∧
        active h o.x.msk o.x.mn f.pack e = true ∧ (F h x y (oldV o.d h) e).2.getLsbD k = true

/-- Operand of element e of an integer format, with the flag that .s sets (R25, R43, R109, R110). -/
def intOf (o : VOps) (m : Mods) (x : VSrc) (e : Nat) : Int × Flags := intElem o.fmt o.sat m o.x.wd x e

/-- An exact integer function of a, b and the old d, wrapped or saturated (R43, R111). -/
def intF (o : VOps) (f : Int → Int → Int → Int) (_h : Hart) (x y : VSrc) (d : List (Nat × Elem)) (e : Nat) :
    Nat × Flags :=
  let r := fitTo o.fmt o.sat (f (intOf o o.a.mods x e).1 (intOf o o.b.mods y e).1
    (intElem o.fmt false Mods.none false (.vec d) e).1)
  (wrapNat o.fmt.width r.1, (intOf o o.a.mods x e).2 ||| (intOf o o.b.mods y e).2 ||| r.2)

/-- The pattern of an operand of element e. -/
def patOf (o : VOps) (m : Mods) (x : VSrc) (e : Nat) : Nat :=
  wrapNat o.fmt.width (intElem o.fmt false m false x e).1

/-- A function of the patterns of a and b, without flags. -/
def patF (f : Nat → Nat → Nat) (o : VOps) (_h : Hart) (x y : VSrc) (_d : List (Nat × Elem)) (e : Nat) : Nat × Flags :=
  (f (patOf o o.a.mods x e) (patOf o o.b.mods y e), 0)

/-- A shift by the amount of element e (R112). -/
def shiftF (o : VOps) (f : Int → Nat → Int) (_h : Hart) (x y : VSrc) (_d : List (Nat × Elem)) (e : Nat) : Nat × Flags :=
  let a := intElem o.fmt o.sat o.a.mods false x e
  let r := fitTo o.fmt o.sat (f a.1 (shiftAmount o y e).1)
  (wrapNat o.fmt.width r.1, a.2 ||| (shiftAmount o y e).2 ||| r.2)

/-- A floating-point operation of a, b and the old d with one rounding to the format in the instruction's mode (R53,
R60, R119). -/
def fpF (o : VOps) (f : Bool → Fp → Fp → Fp → Fp × Flags) (h : Hart) (x y : VSrc) (d : List (Nat × Elem)) (e : Nat) :
    Nat × Flags :=
  let k := elemFmt o.fmt
  let r := f (modeV o h == .rdn) (fpOf k (fpElem o.fmt o.a.mods o.x.wd x e)) (fpOf k (fpElem o.fmt o.b.mods o.x.wd y e))
    (fpOf k (fpElem o.fmt Mods.none false (.vec d) e))
  let q := roundTo k (modeV o h) false r.1
  (q.1, r.2 ||| q.2)

/-- An estimate of one operand (R122). -/
def estF (o : VOps) (f : Fp → Fp × Flags) (_h : Hart) (x _y : VSrc) (_d : List (Nat × Elem)) (e : Nat) : Nat × Flags :=
  let k := elemFmt o.fmt
  let r := f (fpOf k (fpElem o.fmt o.a.mods false x e))
  ((est k r.1).1, r.2 ||| (est k r.1).2)

/-- Bit j of the mask bits of element e (R101). -/
def maskBit (m : List (Nat × Byte)) (p e j : Nat) : Bool := (tget 0 m (e / p)).getLsbD (e % p * (8 / p) + j)

/-- A comparison into a mask: i completes; the mask bits of the elements from vstart to the end of the vector length hold
the outcome where the mask has them active, and every other bit what it held (R101, R110, R113). -/
def ComparesInto (i : Instr) (c : Ctl) (o : VOps) (F : Rel → VSrc → VSrc → Nat → Bool × Flags) : Prop :=
  ∀ s x y h k r, Issues c s → (namesQueue [o.a, o.b] = true → s.hart.vstart = 0) →
    VSources o.a o.b (s.envOf i) s.issued.hart x y h → o.d = .pm (k + 8) → k.toNat < 8 → o.x.rel = some r →
    ∃ m g, exec i s = .next (ranQueued s { h with
        m := tset [] h.m k.toNat m, vstart := 0, fflags := h.fflags ||| g }) ∧
      (∀ e j, j < 8 / o.fmt.pack → maskBit m o.fmt.pack e j =
        if s.hart.vstart.toNat ≤ e ∧ e < o.fmt.pack * s.vlen then
          (if active h o.x.msk o.x.mn o.fmt.pack e then (F r x y e).1
            else !o.x.mz && maskBit (tget [] h.m k.toNat) o.fmt.pack e j)
        else maskBit (tget [] h.m k.toNat) o.fmt.pack e j) ∧
      ∀ b, g.getLsbD b = true ↔ ∃ e, s.hart.vstart.toNat ≤ e ∧ e < o.fmt.pack * s.vlen ∧
        active h o.x.msk o.x.mn o.fmt.pack e = true ∧ (F r x y e).2.getLsbD b = true

/-- A whole instruction that writes each active element of the vector length with pattern F, and no flag (R105, R123). -/
def PermutesInto (i : Instr) (c : Ctl) (o : VOps) (F : Nat → VSrc → VSrc → Nat → Nat) : Prop :=
  ∀ s x y h, Issues c s → s.hart.vstart = 0 → VSources o.a o.b (s.envOf i) s.issued.hart x y h → VRoom o.d h →
    ∃ t h', exec i s = .next (ranQueued s h') ∧ putV o.d t { h with vstart := 0 } = .ok h' ∧
      ∀ e, elemOf o.fmt t e =
        if e < o.fmt.pack * s.vlen then
          masked (active h o.x.msk o.x.mn o.fmt.pack e) o.x.mz (F (o.fmt.pack * s.vlen) x y e % 2 ^ o.fmt.width)
            (elemOf o.fmt (oldV o.d h) e)
        else elemOf o.fmt (oldV o.d h) e

/-- A reduction has delivered pattern r of format f: to element 0 of a vector register, the other elements keeping what
they held, or as a scalar (R124). -/
def ReducedTo (s : State) (d : Operand) (f : Fmt) (r : Nat) (g : Flags) (h : Hart) (t : State) : Prop :=
  match d with
  | .v k _ => ∃ u, t = ranQueued s { h.flag g with vstart := 0, v := tset [] h.v k.toNat u } ∧
      ∀ e, elemOf f u e = if e = 0 then r % 2 ^ f.width else elemOf f (tget [] h.v k.toNat) e
  | d => ∃ h', putS d (if f.isFloat then BitVec.ofNat 64 r else ext f (fmtRead f r)) (h.flag g) = some h' ∧
      t = ranQueued s h'

/-- A whole instruction that reduces the elements of the vector length by R: over no element a register keeps its value
and a queue receives the identity (R127). -/
def Reduces (i : Instr) (c : Ctl) (o : VOps) (f : Fmt) (ident : RMode → Nat)
    (R : RMode → Hart → VSrc → VSrc → Nat → Nat × Flags) : Prop :=
  ∀ s x y h, Issues c s → s.hart.vstart = 0 → VSources o.a o.b (s.envOf i) s.issued.hart x y h → Room o.d h →
    let n := o.fmt.pack * s.vlen
    (0 < n → ∃ t, exec i s = .next t ∧
      ReducedTo s o.d f (R (modeV o h) h x y n).1 (R (modeV o h) h x y n).2 h t) ∧
    (n = 0 → (∀ k, o.d ≠ .q k) → exec i s = .next (ranQueued s h)) ∧
    (n = 0 → ∀ k, o.d = .q k → ∃ t, exec i s = .next t ∧ ReducedTo s o.d f (ident (modeV o h)) 0 h t)

/-! ## Accesses of the vector agent (R198, R203, R206) -/

/-- A state that differs from s in the hart, and in which translations are cached, which stash holds a line and which banks of
the stashes have power, alone: a load changes nothing else (R184, R187, R457). -/
def loaded (s t : State) (h : Hart) : Prop :=
  t = { s with hart := h, tlb := t.tlb, dirty := t.dirty, cores := t.cores } ∧
    ∀ c, t.coreAt c = { s.coreAt c with sgate := (t.coreAt c).sgate }

/-- Loads of n bytes at the addresses of a list, one after the other, pass their checks: the bytes that each reads, and
the state after the last. -/
def LoadsOf (n : Nat) : List Word → State → List (List Byte) → State → Prop
  | [], s, bs, t => bs = [] ∧ t = s
  | a :: as, s, bs, t => ∃ b s' bs', s.load a n true true = .ok (b, s') ∧ LoadsOf n as s' bs' t ∧ bs = b :: bs'

/-- Stores of the bytes of a list at their addresses, one after the other, pass their checks and their records fit: the
checked accesses with their bytes, and the state after the last. -/
def StoresOf (m : RecMeta) : List (Word × List Byte) → State → List (Acc × List Byte) → State → Prop
  | [], s, ws, t => ws = [] ∧ t = s
  | p :: ps, s, ws, t => ∃ acc ws', s.check s.agent ⟨p.1, p.2.length, .store, true, true⟩ = .ok acc ∧
      s.logFull (State.recordAddrs acc) = none ∧ StoresOf m ps (s.storeAt m acc p.2) ws' t ∧ ws = (acc, p.2) :: ws'

/-- A scalar operand of a vector memory instruction, after its modifiers (R25). -/
def operandOf (h : Hart) (o : Operand) : Word :=
  match o with
  | .s n m => (full64 false m (h.rs n.toNat)).1
  | .imm i => i.signExtend 64
  | _ => 0

/-- How a store of the vector instruction at pc is recorded (R413, R423). -/
def recordOf (kind : Nat) (s : State) : RecMeta := ⟨kind, pcWord s.hart.pc 0, 0, s.hart.wcur⟩

/-- The instruction completes in state u, with v delivered to its destination (R71, R72). -/
def Delivers (i : Instr) (s u : State) (d : Operand) (v : Word) : Prop :=
  Room d u.hart → ∃ h', putS d v u.hart = some h' ∧ exec i s = .next (completed u h')

/-- A line of 128 bytes of virtual memory overlaps the n bytes from an address, addresses taken modulo 2^64. -/
def overlaps (a : Word) (n vline : Nat) : Prop :=
  ∃ k < n, ∃ j < 128, a + BitVec.ofNat 64 k = BitVec.ofNat 64 (128 * vline + j)

/-- Element j of a row of elements in memory (R149, R152). -/
def rowElem (f : Fmt) (bs : List Byte) (j : Nat) : Nat :=
  if f = .e2m1 then (bs.getD (j / 2) 0).toNat / 16 ^ (j % 2) % 16 else leNat ((bs.drop (fmtBytes f * j)).take (fmtBytes f))

/-! ## Commands of the engines and replays (R290 to R302, R317) -/

/-- Reads of n bytes at the addresses of a list by an engine, one after the other, pass their checks: the value of each, lowest
byte first, and the state after the last. -/
def JobReads (j : Job) (n : Nat) : List Word → State → List Nat → State → Prop
  | [], s, xs, t => xs = [] ∧ t = s
  | a :: as, s, xs, t => ∃ b u ys, j.read a n s = .ok (b, u) ∧ JobReads j n as u ys t ∧ xs = leNat b :: ys

/-- An index entry of an indirect stream command: signed where SI is set (R292). -/
def entryOf (c : Cmd) (n : Nat) (bs : List Byte) : Int :=
  if c.field 0 34 1 = 1 then signedOf (8 * n) (leNat bs) else leNat bs

/-- An indirect stream command moves element i in state s, which leaves state t with the ranges w written: the index, through
the table where LEV is 2, and then the 2^ESZ bytes between DATA + index * SCALE and LIN + i * 2^ESZ (R292, R293). -/
def MovesElem (j : Job) (scatter : Bool) (i : Nat) (s t : State) (w : List (Nat × Nat)) : Prop :=
  let c := j.cmd
  let n := 2 ^ c.field 0 32 2
  let k : Nat := if c.field 0 35 1 = 1 then 8 else 4
  let lin := c.words.getD 6 0 + BitVec.ofNat 64 (i * n)
  ∃ b s1 x s2 bs s3, j.read (c.words.getD 1 0 + BitVec.ofInt 64 ((i : Int) * k)) k s = .ok (b, s1) ∧
    (c.field 0 36 2 = 1 → x = entryOf c k b ∧ s2 = s1) ∧
    (c.field 0 36 2 = 2 → ∃ b', x = entryOf c k b' ∧
      j.read (c.words.getD 3 0 + BitVec.ofInt 64 (entryOf c k b * k)) k s1 = .ok (b', s2)) ∧
    let ea := c.words.getD 4 0 + BitVec.ofInt 64 (x * c.field 5 0 32)
    j.read (if scatter then lin else ea) n s2 = .ok (bs, s3) ∧ j.write (if scatter then ea else lin) bs false s3 = .ok (w, t)

/-- The ranges that the writes of n elements make together. -/
def written (w : Nat → List (Nat × Nat)) (n : Nat) : List (Nat × Nat) := (List.range n).foldl (fun l e => addExt l (w e)) []

/-- The flags of n elements. -/
def allFlags (g : Nat → Flags) (n : Nat) : Flags := (List.range n).foldl (fun a e => a ||| g e) 0

/-- AUX of an arithmetic engine: NV, DZ, OF, UF and NX (R276). -/
def auxOf (g : Flags) : Byte := (g &&& 0x1F).setWidth 8

/-- Value i, scale b and residue byte b of the bytes of an attention row (R296). -/
def rowValue (bs : List Byte) (i : Nat) : Int := (bs.getD i 0).toInt
def rowScale (db : Nat) (bs : List Byte) (b : Nat) : Nat := (bs.getD (32 * db + b) 0).toNat
def rowResidue (db : Nat) (bs : List Byte) (b : Nat) : Nat := (bs.getD (33 * db + b) 0).toNat

/-- Every residue byte of a row is its block's sum modulo 15 (R296, R298). -/
def ResidueRight (db : Nat) (bs : List Byte) : Prop :=
  ∀ b < db, (rowResidue db bs b : Int) = ((List.range 32).map fun i => rowValue bs (32 * b + i)).sum % 15

/-- T[b] of R297, and its flags: the exact product sum of block b with both scales, rounded once; a scale of 255 is a NaN. -/
def blockTerm (db : Nat) (q k : List Byte) (b : Nat) : Nat × Flags :=
  if rowScale db q b = 255 ∨ rowScale db k b = 255 then (canonNaN .f32, fNV)
  else roundTo .f32 .rne false
    (fpScale (fpInt ((List.range 32).map fun i => rowValue q (32 * b + i) * rowValue k (32 * b + i)).sum)
      ((rowScale db q b : Int) + rowScale db k b - 254))

/-- An f32 value rounded from an exact one that carries flags. -/
def roundF32 (x : Fp × Flags) : Nat × Flags :=
  ((roundTo .f32 .rne false x.1).1, (roundTo .f32 .rne false x.1).2 ||| x.2)

/-- x * y + z, exactly, with the flags of its operations. -/
def mulAdd (x y z : Fp) : Fp × Flags :=
  ((fpAdd false (fpMul x y).1 z).1, (fpMul x y).2 ||| (fpAdd false (fpMul x y).1 z).2)

/-- Est(f32, 2^(x - y)) and its flags (R122). -/
def expDiff (x y : Nat) : Nat × Flags :=
  let d := fpAdd false (fpOf .f32 x) (fpNeg (fpOf .f32 y))
  ((est .f32 (fpExp2 d.1).1).1, d.2 ||| (fpExp2 d.1).2 ||| (est .f32 (fpExp2 d.1).1).2)

/-- The sequence of R297 for one token, its key row k and its value row v: m, l, o and the flags so far become those after it.
-/
def softToken (db sc : Nat) (q k v : List Byte) (t : Soft) : Soft :=
  let dot := pairTree (addBits .f32 .rne) (negZero .f32) ((List.range db).map fun b => (blockTerm db q k b).1)
  let x := roundF32 (fpMul (fpOf .f32 dot.1) (fpOf .f32 sc))
  let m := fpMinMax .f32 true t.m x.1
  let r := expDiff t.m m.1
  let a := expDiff x.1 m.1
  let up (y z : Fp) : Nat × Flags := roundF32 (mulAdd y (fpOf .f32 r.1) z)
  let l := up (fpOf .f32 t.l) (fpOf .f32 a.1)
  let o (i : Nat) : Nat × Flags :=
    let ev := rowScale db v (i / 32)
    let p := fpMul (fpOf .f32 a.1) (fpInt (rowValue v i))
    let y := up (fpOf .f32 (t.o.getD i 0)) (if ev = 255 then .nan false else fpScale p.1 ((ev : Int) - 127))
    (y.1, p.2 ||| y.2 ||| (if ev = 255 then fNV else 0))
  ⟨m.1, l.1, (List.range (32 * db)).map fun i => (o i).1,
    t.g ||| allFlags (fun b => (blockTerm db q k b).2) db ||| dot.2 ||| x.2 ||| m.2 ||| r.2 ||| a.2 ||| l.2
      ||| allFlags (fun i => (o i).2) (32 * db)⟩

/-- The records of a training, run one after the other on the registers of a replay: each guard and each path predicate is as in
training, an access and an operation have their effect, and a record whose guard was false none (R317, R318). -/
def BodyRuns (m : Mark) : List TraceRec → State → State → Prop
  | [], s, t => t = s
  | r :: rs, s, t =>
      (match r.instr.ctl? with | some c => s.hart.guard c | none => true) = r.on ∧
      (r.on = false → BodyRuns m rs s t) ∧
      (r.on = true → ((pathKey m.guards r).isSome = true → pathValue r.instr s.hart = r.val) ∧ ∃ u, BodyRuns m rs u t ∧
        if r.acc.isSome then replayAccess m.slice m.prec m.next r.instr s = .ok u
        else if (match r.instr with | .br .. | .bc .. => true | _ => false) then u = s
        else replayOp r.instr s = some u)

end Sys2Proof.Safety
end

