-- ==== Sys2Proof/Certificates/Slice0/Obligations.lean ====
section
/-! DEFINITION. The statements for the provers, from the numbered rules of spec/. -/

open Sys2Proof Sys2Proof.Machine Sys2Proof.Safety

/-! ## Encoding -/

/-- Decoding the bytes of a well-formed instruction, whatever follows them, gives the instruction and what follows (R14, R17,
R22, R27). -/
def Obligations.DecodeEncode : Prop :=
  ∀ (i : Instr) (rest : List Byte), i.wf = true → decodeBytes (wordBytes (encode i) ++ rest) = .ok (i, rest)

/-- A word decodes only to a well-formed instruction whose encoding is the whole word: no bit is ignored, and a word stands for
at most one instruction (R35, R37). -/
def Obligations.DecodeStrict : Prop :=
  (∀ w i, decode w = .ok i → i.wf = true ∧ encode i = w) ∧
    ∀ v w i, decode v = .ok i → decode w = .ok i → v = w

/-- The words that the spec works out field by field decode to their instructions; they are written here as the spec gives them,
word 2, word 1 and word 0 (R17, R22, R27, R34, R88). -/
def Obligations.DecodeWords : Prop :=
  let c : Ctl := ⟨false, 0, 0, false⟩
  let s (n : BitVec 6) : Operand := .s n Mods.none
  let v (n : BitVec 5) : Operand := .v n Mods.none
  let x : VX := ⟨false, 0, false, 0, 0, false, 0⟩
  decode 0x100ED4018000800028C00000 =
    .ok (.add ⟨true, 3, 0x14, false⟩ ⟨.i64, false, s 3, s 4, .s 5 ⟨false, 1, true, false⟩⟩) ∧
  decode 0x034000FFFFC080002803FFDC = .ok (.bc c .lt false 4 (s 5) (BitVec.ofInt 36 (-36))) ∧
  decode 0x036000000001200C00000024 = .ok (.bc c .ge false 9 (.imm 0) 36) ∧
  decode 0x030000FFFFC1200C0003FFF4 = .ok (.bc c .eq false 9 (.imm 0) (BitVec.ofInt 36 (-12))) ∧
  decode 0x632000218008800229C28800 =
    .ok (.vfma c ⟨.f32, false, v 3, v 4, .v 5 ⟨false, 3, true, false⟩, ⟨true, 2, false, 2, 0, false, 0⟩⟩) ∧
  decode 0x800800220008000E00000005 = .ok (.vxch c ⟨.i32, false, v 4, v 0, .none, { x with sel := 5 }⟩) ∧
  decode 0x922000228000800230025000 = .ok (.vldx c ⟨.f32, 5, 0, ⟨4, 0⟩, v 6, true, 1, false, true, false⟩) ∧
  decode 0xA72C00808001A00C00A00000 = .ok (.mma c .e4m3 1 13 (.imm 40) 0) ∧
  decode 0xA701C0808001400048000000 = .ok (.mma ⟨false, 7, 0, false⟩ .i8 1 10 (s 9) 0) ∧
  decode 0xB00C00018001400008006008 = .ok (.amo c 0 .device .i64 (s 3) 10 (s 1) 8) ∧
  decode 0xB300001800066000D8000000 = .ok (.barArrive c (s 48) (s 51) (s 27)) ∧
  decode 0xC000000480284000A0000000 = .ok (.push c (s 9) 2 (s 20)) ∧
  decode 0xC60000048002800E00000000 = .ok (.lnch c (s 9) 20) ∧
  decode 0xD40000028000C00C00220086 = .ok (.lprec c 5 (some 6) 8 2 0 0 1 0 3) ∧
  decode 0xD70400808038000D00000600 = .ok (.treqNeg c 1 0x600) ∧
  decode 0x00FC00E00038000E00000000 = .ok (.pad c)

/-! ## The scalar stream -/

/-- add, sub, addi, mul, mulh, min and max complete with the exact function of their operands, wrapped, or saturated with .s
(R74, R76). -/
def Obligations.ScalarArithmetic : Prop :=
  ∀ (c : Ctl) (o : SOps) (simm : BitVec 18),
    ScalarResult (.add c o) c o (fun a b => a + b) ∧ ScalarResult (.sub c o) c o (fun a b => a - b) ∧
    ScalarResult (.addi c o simm) c o (fun a b => a + b + simm.toInt) ∧
    ScalarResult (.mul c o) c o (fun a b => a * b) ∧
    ScalarResult (.mulh c o) c o (fun a b => a * b / (2 ^ o.fmt.width : Nat)) ∧
    ScalarResult (.min c o) c o min ∧ ScalarResult (.max c o) c o max

/-- and, or, xor and andn complete with the bitwise function of the patterns of their operands: bit i of the result is that of
bits i (R76). -/
def Obligations.ScalarLogic : Prop :=
  ∀ (c : Ctl) (o : SOps),
    let bitwise (i : Instr) (f : Bool → Bool → Bool) : Prop :=
      ∃ e : Int → Int → Int, ScalarResult i c o e ∧
        ∀ a b, ∃ n : Nat, e a b = n ∧ ∀ k, n.testBit k =
          (decide (k < o.fmt.width) && f ((wrapNat o.fmt.width a).testBit k) ((wrapNat o.fmt.width b).testBit k))
    bitwise (.and c o) (fun p q => p && q) ∧ bitwise (.or c o) (fun p q => p || q) ∧
      bitwise (.xor c o) xor ∧ bitwise (.andn c o) (fun p q => p && !q)

/-- div and rem: the quotient rounded toward zero and the remainder with the sign of the dividend; a zero divisor gives all ones
and the dividend, and no flag of its own (R44, R76). -/
def Obligations.ScalarDivision : Prop :=
  ∀ (c : Ctl) (o : SOps), o.fmt.scalar = true →
    ScalarResult (.rem c o) c o (fun a b => if b = 0 then a else Int.tmod a b) ∧
    ∀ s x y h, s.hart.guard c = true → Sources o.a o.b s.hart x y h → Room o.d h →
      let a := opnd o.fmt o.sat o.a.mods x
      let b := opnd o.fmt o.sat o.b.mods y
      ∃ r g h', putS o.d (ext o.fmt r) (h.flag (a.2 ||| b.2 ||| g)) = some h' ∧
        exec (.div c o) s = .next (completed s h') ∧
        (b.1 = 0 → g = 0 ∧ wrapNat o.fmt.width r = 2 ^ o.fmt.width - 1) ∧
        (b.1 ≠ 0 → ResultIs o.fmt o.sat (Int.tdiv a.1 b.1) r g)

/-- shl, shr, sra and rot by B's full 64-bit value; an amount of the width or more shifts every bit out, and a rotation takes it
modulo the width (R77). -/
def Obligations.ScalarShifts : Prop :=
  ∀ (c : Ctl) (o : SOps),
    let w := o.fmt.width
    ShiftResult (.shl c o) c o (fun a n => a * (2 ^ min n w : Nat)) ∧
    (∃ e, ShiftResult (.shr c o) c o e ∧ ∀ a n, ∃ m : Nat, e a n = m ∧
      ∀ k, m.testBit k = (wrapNat w a).testBit (k + min n w)) ∧
    (∃ e, ShiftResult (.sra c o) c o e ∧ ∀ a n, ∃ m : Nat, e a n = m ∧
      ∀ k, m.testBit k = (decide (k < w) && (wrapNat w a).testBit (min (k + min n w) (w - 1)))) ∧
    (∃ e, ShiftResult (.rot c o) c o e ∧ ∀ a n, ∃ m : Nat, e a n = m ∧
      ∀ k, m.testBit k = (decide (k < w) && (wrapNat w a).testBit ((k + (w - n % w)) % w)))

/-- clz, ctz and popc write the count over the pattern of A, and set no flag; bfx extracts a field with the sign of its format,
bfi replaces a field of D, and sext and zext write the value of the operand (R78 to R80). -/
def Obligations.CountsAndFields : Prop :=
  (∀ (c : Ctl) (o : SOps), o.b = .none →
     let w := o.fmt.width
     UnaryResult (.clz c o) c o.a o.d (fun x r =>
       if pattern o x = 0 then r.toNat = w
       else r.toNat < w ∧ 2 ^ (w - 1 - r.toNat) ≤ pattern o x ∧ pattern o x < 2 ^ (w - r.toNat)) ∧
     UnaryResult (.ctz c o) c o.a o.d (fun x r =>
       if pattern o x = 0 then r.toNat = w
       else r.toNat < w ∧ 2 ^ r.toNat ∣ pattern o x ∧ ¬ 2 ^ (r.toNat + 1) ∣ pattern o x) ∧
     UnaryResult (.popc c o) c o.a o.d (fun x r =>
       r.toNat = ((Finset.range w).filter fun k => (pattern o x).testBit k = true).card)) ∧
  (∀ (c : Ctl) (o : SOps) (pos len1 : BitVec 6),
     (Instr.wf (.bfx c o pos len1) = true → UnaryResult (.bfx c o pos len1) c o.a o.d (fun x r =>
       ∀ k < 64, r.getLsbD k =
         (if k ≤ len1.toNat then (pattern o x).testBit (pos.toNat + k)
           else o.fmt.signed && (pattern o x).testBit (pos.toNat + len1.toNat)))) ∧
     (Instr.wf (.bfi c o pos len1) = true → ∀ s x h n m, o.d = .s n m → s.hart.guard c = true →
       takeS o.a s.hart = some (x, h) →
       ∃ r : Word, exec (.bfi c o pos len1) s = .next (completed s (h.ws n.toNat r)) ∧
         ∀ k < 64, r.getLsbD k =
           (let old := wrapNat o.fmt.width (fmtRead o.fmt (s.hart.rs n.toNat).toNat)
            let bit (j : Nat) : Bool :=
              if pos.toNat ≤ j ∧ j ≤ pos.toNat + len1.toNat then (pattern o x).testBit (j - pos.toNat) else old.testBit j
            if k < o.fmt.width then bit k else o.fmt.signed && bit (o.fmt.width - 1))) ∧
     (Instr.wf (.sext c o) = true → UnaryResult (.sext c o) c o.a o.d (fun x r =>
       r.toInt = (opnd o.fmt false o.a.mods x).1)) ∧
     (Instr.wf (.zext c o) = true → UnaryResult (.zext c o) c o.a o.d (fun x r =>
       (r.toNat : Int) = (opnd o.fmt false o.a.mods x).1)))

/-- li, lih, mov, lea and sel move values without arithmetic beside lea's address (R81, R82, R84). -/
def Obligations.Moves : Prop :=
  (∀ c d b, UnaryResult (.li c d b) c b d (fun x r => r = x)) ∧
  (∀ c d b s x h, s.hart.guard c = true → takeS b s.hart = some (x, h) →
    exec (.lih c d b) s = .next (completed s (h.ws d.toNat
      (BitVec.ofNat 64 (x.toNat % 2 ^ 32 * 2 ^ 32 + (s.hart.rs d.toNat).toNat % 2 ^ 32))))) ∧
  (∀ c d a, UnaryResult (.mov c d a) c a d (fun x r => r = swz64 a.mods.swz x)) ∧
  (∀ c d a b sh disp s y h, s.hart.guard c = true → takeS b s.hart = some (y, h) →
    exec (.lea c d a b sh disp) s = .next (completed s (h.ws d.toNat
      (s.hart.rs a.toNat + y * BitVec.ofNat 64 (2 ^ sh.toNat) + BitVec.ofInt 64 disp.toInt)))) ∧
  (∀ c d a b neg pn s x y h, s.hart.guard c = true → Sources a b s.hart x y h → Room d h →
    ∃ h', putS d (if xor neg (s.hart.rp pn.toNat) then swz64 a.mods.swz x else swz64 b.mods.swz y) h = some h' ∧
      exec (.sel c d a b neg pn) s = .next (completed s h'))

/-- cmp writes the outcome of its relation, and the predicate instructions their function; a write to p0 is discarded (R71, R83,
R85). -/
def Obligations.Predicates : Prop :=
  (∀ c r nat d a b s y h, s.hart.guard c = true → takeS b s.hart = some (y, h) →
    exec (.cmp c r nat d a b) s = .next (completed s (h.wp d.toNat
      (if nat then
        match r with
        | .eq => decide (s.hart.rs a.toNat = y) | .ne => decide (s.hart.rs a.toNat ≠ y)
        | .lt => (s.hart.rs a.toNat).ult y | .ge => y.ule (s.hart.rs a.toNat)
        | .le => (s.hart.rs a.toNat).ule y | .gt => y.ult (s.hart.rs a.toNat)
      else
        match r with
        | .eq => decide (s.hart.rs a.toNat = y) | .ne => decide (s.hart.rs a.toNat ≠ y)
        | .lt => (s.hart.rs a.toNat).slt y | .ge => y.sle (s.hart.rs a.toNat)
        | .le => (s.hart.rs a.toNat).sle y | .gt => y.slt (s.hart.rs a.toNat))))) ∧
  ∀ c d a b s, s.hart.guard c = true →
    let after (v : Bool) : State := completed s (s.hart.wp d.toNat v)
    exec (.pand c d a b) s = .next (after (s.hart.rp a.toNat && s.hart.rp b.toNat)) ∧
    exec (.por c d a b) s = .next (after (s.hart.rp a.toNat || s.hart.rp b.toNat)) ∧
    exec (.pxor c d a b) s = .next (after (xor (s.hart.rp a.toNat) (s.hart.rp b.toNat))) ∧
    exec (.pnot c d a) s = .next (after (!s.hart.rp a.toNat))

/-- Direct transfers go to their own address plus the displacement modulo 2^57, and indirect transfers to the address in A, read
before the link is written; a call writes the address of the next instruction, bc and dbnz go on there where they do not branch,
and an indirect target whose bits 1:0 are not zero raises Misaligned Target and writes no link (R86 to R90). A is read after its
swizzle (R24 to R26; log 120, DEDUCED). -/
def Obligations.Transfers : Prop :=
  ((∀ c d s, s.hart.guard c = true →
     exec (.br c d) s = .next (jumped s (s.hart.pc + BitVec.ofInt 57 d.toInt))) ∧
   (∀ c d s, s.hart.guard c = true →
     exec (.brl c d) s = .next (jumped s (s.hart.pc + BitVec.ofInt 57 d.toInt))) ∧
   (∀ c d disp s, s.hart.guard c = true → exec (.call c d disp) s =
     .next (jumped { s with hart := s.hart.ws d.toNat (BitVec.ofNat 64 (s.hart.pc + 12).toNat) }
       (s.hart.pc + BitVec.ofInt 57 disp.toInt))) ∧
   (∀ c d disp s, s.hart.guard c = true → exec (.calll c d disp) s =
     .next (jumped { s with hart := s.hart.ws d.toNat (BitVec.ofNat 64 (s.hart.pc + 12).toNat) }
       (s.hart.pc + BitVec.ofInt 57 disp.toInt))) ∧
   (∀ c r nat a b d s y h, s.hart.guard c = true → takeS b s.hart = some (y, h) →
     exec (.bc c r nat a b d) s = .next
       (if relHolds64 r nat (s.hart.rs a.toNat) y
         then jumped { s with hart := h } (h.pc + BitVec.ofInt 57 d.toInt) else completed s h)) ∧
   ∀ c d disp s, s.hart.guard c = true → d ≠ 0 →
     exec (.dbnz c d disp) s = .next
       (let h := s.hart.ws d.toNat (s.hart.rs d.toNat - 1)
        if s.hart.rs d.toNat = 1 then completed s h
        else jumped { s with hart := h } (s.hart.pc + BitVec.ofInt 57 disp.toInt))) ∧
  (∀ (c : Ctl) (d : BitVec 6) (a : SSrc) (s : State), s.hart.guard c = true →
     let t := swz64 a.swz (s.hart.rs a.n.toNat)
     (t.toNat % 4 = 0 →
       exec (.jcall c d a) s = .next
         (jumped { s with hart := s.hart.ws d.toNat (BitVec.ofNat 64 (s.hart.pc + 12).toNat) } (BitVec.ofNat 57 t.toNat)) ∧
       exec (.jr c a) s = .next (jumped s (BitVec.ofNat 57 t.toNat)) ∧
       exec (.ret c a) s = .next (jumped s (BitVec.ofNat 57 t.toNat))) ∧
     (t.toNat % 4 ≠ 0 →
       exec (.jcall c d a) s = .next (s.takeTrap ⟨.misalignedTarget, t⟩) ∧
       exec (.jr c a) s = .next (s.takeTrap ⟨.misalignedTarget, t⟩) ∧
       exec (.ret c a) s = .next (s.takeTrap ⟨.misalignedTarget, t⟩)))

/-- nop, ifpf and prf have no effect beside the program counter, whatever their operands (R33, R91, R201). -/
def Obligations.NoEffect : Prop :=
  ∀ (c : Ctl) (l : BitVec 2) (x : SSrc) (a : BitVec 6) (b : Operand) (s : State),
    exec (.nop c) s = .next (completed s s.hart) ∧ exec (.ifpf c l x b) s = .next (completed s s.hart) ∧
      exec (.prf c a b) s = .next (completed s s.hart)

/-- The guard is the named predicate, negated where the word says so; p0 reads true, and its negation is no legal guard. An
instruction whose guard is false changes nothing but the program counter, which advances by 12; pad raises its trap all the same
(R18, R34). -/
def Obligations.GuardedOff : Prop :=
  (∀ (c : Ctl) (h : Hart), h.guard c = xor c.neg (decide (c.p = 0) || h.p.getLsbD c.p.toNat)) ∧
  (∀ (i : Instr) (c : Ctl), i.ctl? = some c → i.wf = true → ¬ (c.neg = true ∧ c.p = 0)) ∧
  ∀ (i : Instr) (c : Ctl) (s : State), i.ctl? = some c → s.hart.guard c = false → (∀ c', i ≠ .pad c') →
    exec i s = .next (completed s s.hart)

/-- ld, ld.aq and ldx whose access passes its checks write the bytes at their address, lowest first, extended by their format
(R7, R199, R200). -/
def Obligations.ScalarLoads : Prop :=
  ∀ (c : Ctl) (f : Fmt) (sc : Scope) (d : Operand) (a b : BitVec 6) (bo : Operand) (disp : BitVec 18) (s : State),
    s.hart.guard c = true →
    let loads (i : Instr) (h : Hart) (al : Bool) (ea : Word) : Prop :=
      let s1 : State := { s with hart := h }
      ∀ acc, s1.check s1.agent ⟨ea, f.width / 8, .load, false, al⟩ = .ok acc →
        let s2 := (s1.loadAt s1.hart.holder acc).2
        Room d s2.hart → ∃ h', putS d (ext f (fmtRead f (leNat (s1.bytesAt acc)))) s2.hart = some h' ∧
          exec i s = .next (completed s2 h')
    (∀ y h, takeS bo s.hart = some (y, h) →
      loads (.ld c f d a bo) h false (s.hart.rs a.toNat + y) ∧
      loads (.ldAq c f sc d a bo) h true (s.hart.rs a.toNat + y)) ∧
    loads (.ldx c f d a b disp) s.hart false
      (s.hart.rs a.toNat + s.hart.rs b.toNat * BitVec.ofNat 64 (f.width / 8) + BitVec.ofInt 64 disp.toInt)

/-- st and st.rl whose access passes its checks and whose records fit perform the store of the low bytes of D at their
address, where the bytes then read back; an access that fails a check, or whose records do not fit, takes its trap with no
effect; a plain store becomes visible late where its hart lags (R7, R199, R200, R247, R426). That late stores become visible
in the order of their instructions is the model's choice (log 1, DESIGN CHOICE): R221 lets a store become visible after a
later one. -/
def Obligations.ScalarStores : Prop :=
  ∀ (c : Ctl) (f : Fmt) (sc : Scope) (d : Operand) (a : BitVec 6) (bo : Operand) (s : State) (y v : Word) (h h1 : Hart),
    s.hart.guard c = true → takeS bo s.hart = some (y, h) → takeS d h = some (v, h1) →
    let s1 : State := { s with hart := h1 }
    let bs := leBytes (f.width / 8) v.toNat
    let req (al : Bool) : Req := ⟨s.hart.rs a.toNat + y, f.width / 8, .store, false, al⟩
    let stores (i : Instr) (al : Bool) : Prop :=
      (∀ acc, s1.check s1.agent (req al) = .ok acc → s1.logFull (State.recordAddrs acc) = none →
        let t := (s1.storeAt (s1.recOf 0) acc bs).cover (s1.extents acc)
        exec i s = .next (completed t t.hart) ∧
        (s.logged = false → s.pkg.migFwd = false → s.pkg.fwds = [] →
          acc.chunks.Pairwise (fun c d => c.pa + c.n ≤ d.pa ∨ d.pa + d.n ≤ c.pa) →
          (completed t t.hart).bytesAt acc = bs)) ∧
      (∀ acc x, s1.check s1.agent (req al) = .ok acc → s1.logFull (State.recordAddrs acc) = some x →
        exec i s = .next (({ s with hart := h } : State).takeTrap ⟨.liningFull, x⟩)) ∧
      ∀ e, s1.check s1.agent (req al) = .error e → exec i s = .next (({ s with hart := h } : State).takeTrap e)
    (s.hart.lag = false → stores (.st c f d a bo) false) ∧ stores (.stRl c f sc d a bo) true ∧
    ∀ acc, s.hart.lag = true → s.logged = false → s1.check s1.agent (req false) = .ok acc →
      (∀ p ∈ acc.chunks, isDevice p.pa = true ∧ p.attr ≠ 3) →
      exec (.st c f d a bo) s =
        .next (completed (s1.keep acc.fills) { h1 with sbuf := s.hart.sbuf ++ [⟨acc.chunks, bs⟩] })

/-! ## Traps and what ends or leaves a hart's run -/

/-- A trap of the scalar stream that is not terminal and does not save the context enters the handler: tcause, tpc, tval,
tspc, tstat, level and pc change as R397 says, a training is abandoned (R314), a waiting instruction is withdrawn, and nothing
else of the hart changes. A trap is terminal where R399 says; it then ends the task with STATUS 2, and at management level it
is a package fault. tpc holds the address of an instruction that could not be fetched (R15), and after an Illegal Instruction
tcause, tpc and tval hold its code, its address and its bits 95:32 (R36). An instruction that enters a frozen queue ends the
task as well (R397, R399, R412, R474). By log 116 a terminal fetch fault writes tcause and tval too, and no other terminal
trap writes any of the three. By logs 16 and 17 an elastic fault and a vector trap of earlier work are terminal too inside a
doff routine or a handler. -/
def Obligations.TrapEntry : Prop :=
  (∀ (t : Trap) (resume : Addr) (s : State), t.cause ≠ .held → s.terminal t = false → s.elasticTrap t = false →
    let u := s.takeTrapTo t resume
    u.hart = { s.hart.abandon with
      waiting := none
      tVq := false
      tCause := t.cause.code
      tpc := BitVec.ofNat 64 s.hart.pc.toNat
      tval := t.tval
      tspc := BitVec.ofNat 64 resume.toNat
      pprv := s.hart.level.code
      inh := true
      level := if s.hart.level = .management then .management else .supervisor
      pc := BitVec.ofNat 57 (4 * (if s.hart.level = .management then s.hart.mtvec else s.hart.tvec).toNat) } ∧
    u.mem = s.mem ∧ u.pkg = s.pkg ∧ u.cur = s.cur ∧ u.others = s.others) ∧
  (∀ (t : Trap) (s : State), s.terminal t = true ↔
    (t.cause = .range ∨ t.cause = .fetch ∨ (t.cause = .translation ∧ s.isPinned t.tval = true) ∨
      (s.hart.dAct = true ∧ t.cause ≠ .doff) ∨ s.hart.inh = true)) ∧
  (∀ (t : Trap) (resume : Addr) (s : State), t.cause ≠ .held → s.terminal t = true →
    let u := s.takeTrapTo t resume
    (∀ q, s.hart.level ≠ .management → s.hart.launch = some q → TaskEnds q s u) ∧
    (t.cause = .fetch ∨ t.cause = .illegal → s.hart.evict = false →
      u.hart.tVq = false ∧ u.hart.tCause = t.cause.code ∧ u.hart.tpc = BitVec.ofNat 64 s.hart.pc.toNat ∧ u.hart.tval = t.tval) ∧
    (s.hart.level = .management → u.pkg.fatal = true ∧ u.pkg.quiesced = true ∧
      u.hart = (if t.cause = .fetch ∨ t.cause = .illegal then { s.hart with
        tVq := false, tCause := t.cause.code, tpc := BitVec.ofNat 64 s.hart.pc.toNat, tval := t.tval } else s.hart) ∧
      u.replies = s.replies ++ [.cxlUncorrectable])) ∧
  ∀ (i : Instr) (c : Ctl) (s : State), i.ctl? = some c → isQueued i = true → s.hart.guard c = true →
    s.hart.vqf = true → exec i s = .next s.endTask ∧ ∀ q, s.hart.launch = some q → TaskEnds q s s.endTask

/-- trap, ecall, and a brk that no debugger serves take their trap at a hart outside a handler and a doff routine: the cause,
B's value in tval, and the address to return to, which is the next instruction for trap and ecall and their own for brk;
registers and memory keep their values (R395, R397, R401, R419). -/
def Obligations.SystemCalls : Prop :=
  ∀ (c : Ctl) (b : Operand) (s : State) (x : Word) (h : Hart),
    s.hart.guard c = true → takeS b s.hart = some (x, h) → s.hart.inh = false → s.hart.dAct = false →
    let enters (i : Instr) (g : Hart) (cause : Byte) (resume : Addr) : Prop :=
      ∃ t, exec i s = .next t ∧ t.hart.tCause = cause ∧ t.hart.tval = x ∧
        t.hart.tpc = BitVec.ofNat 64 s.hart.pc.toNat ∧ t.hart.tspc = BitVec.ofNat 64 resume.toNat ∧
        t.hart.inh = true ∧ t.hart.pprv = s.hart.level.code ∧ t.hart.vqf = s.hart.vqf ∧
        t.hart.level ≠ .user ∧
        t.hart.s = g.s ∧ t.hart.p = g.p ∧ t.hart.v = g.v ∧ t.hart.m = g.m ∧ t.hart.qs = g.qs ∧ t.mem = s.mem
    enters (.trap c b) h 0x1A (s.hart.pc + 12) ∧ enters (.ecall c b) h 0x1B (s.hart.pc + 12) ∧
      (s.hart.fj = false → enters (.brk c b) s.hart 0x19 s.hart.pc)

/-- pad, and a word that is no instruction, raise Illegal Instruction whatever the guard: tcause holds its code, tpc the
instruction's address with suffix 0, tval bits 95:32 of the word, and no register, predicate, mask, queue, byte of memory or
flag changes (R34, R36). -/
def Obligations.IllegalInstruction : Prop :=
  ∀ (c : Ctl) (w : IWord) (s : State), s.hart.inh = false → s.hart.dAct = false →
    let traps (i : Instr) (v : Word) : Prop :=
      ∃ t, exec i s = .next t ∧ t.hart.tCause = 0x01 ∧ t.hart.tpc = BitVec.ofNat 64 s.hart.pc.toNat ∧ t.hart.tval = v ∧
        t.hart.s = s.hart.s ∧ t.hart.p = s.hart.p ∧ t.hart.v = s.hart.v ∧ t.hart.m = s.hart.m ∧
        t.hart.qs = s.hart.qs ∧ t.hart.qv = s.hart.qv ∧ t.hart.fflags = s.hart.fflags ∧
        t.hart.vstart = s.hart.vstart ∧ t.hart.lhd = s.hart.lhd ∧ t.mem = s.mem
    traps (.illegalInstruction w) (BitVec.ofNat 64 (w.toNat / 2 ^ 32)) ∧
      (c = ⟨false, 0, 0, false⟩ → traps (.pad c) 0x00FC00E00038000E)

/-- tret raises Privilege Violation with tval 0 at user level and outside a handler; otherwise the level becomes PPRV, INH and
VQF become 0, and the hart resumes at the address in tspc, whose suffix is ignored and whose bits 1:0 read 0 (R40, R41,
R402). -/
def Obligations.TrapReturn : Prop :=
  ∀ (c : Ctl) (s : State), s.hart.guard c = true →
    ((s.hart.level = .user ∨ s.hart.inh = false) → exec (.tret c) s = .next (s.takeTrap ⟨.privilege, 0⟩)) ∧
    (s.hart.level ≠ .user → s.hart.inh = true → exec (.tret c) s = .next { s with hart := { s.hart with
      level := match s.hart.pprv.toNat with | 0 => .user | 1 => .supervisor | _ => .management
      inh := false
      vqf := false
      waiting := none
      pc := BitVec.ofNat 57 (4 * (s.hart.tspc.toNat / 4)) } })

/-- halt of a hart with nothing outstanding ends its context, outside a doff routine and a handler: its slot becomes empty with
its registers as they stand, its lane groups are free, its queues and ports are discarded, and memory keeps its bytes; in a
handler halt ends the task. sync of a hart with nothing outstanding, and yield without a request, complete; yield with a request
saves the context, which resumes at the next instruction (R403, R404, R406, R408). By log 47 halt ends the hart at management
level too, and by log 39 an emptied slot keeps mtvec and psel. -/
def Obligations.EndsAndYields : Prop :=
  (∀ (c : Ctl) (s : State), s.hart.guard c = true → s.hart.dAct = false → s.hart.inh = false → s.quiet = true →
     s.hart.evict = false →
     ∃ t, exec (.halt c) s = .next t ∧ t.hart.run = .empty ∧ t.hart.launch = none ∧
       t.hart.s = s.hart.s ∧ t.hart.p = s.hart.p ∧ t.hart.v = s.hart.v ∧ t.hart.m = s.hart.m ∧ t.hart.vl = s.hart.vl ∧
       t.hart.vstart = s.hart.vstart ∧ t.hart.fflags = s.hart.fflags ∧ t.hart.lpix = s.hart.lpix ∧
       t.hart.lpcause = s.hart.lpcause ∧ t.hart.dLast = s.hart.dLast ∧ t.hart.dNref = s.hart.dNref ∧
       t.hart.qs = [] ∧ t.hart.qv = [] ∧ t.hart.ports = [] ∧ t.hart.streams = [] ∧ t.hart.stmap = [] ∧
       (t.coreAt t.coreNo).heldBy t.hartNo = [] ∧ t.cur = s.cur ∧ (s.hart.sbuf = [] → t.mem = s.mem) ∧
       (State.hasWork s.hart = true → s.hart.sbuf = [] → t.orphans = s.orphans ++ [(s.cur, s.hart)])) ∧
  (∀ (c : Ctl) (s : State), s.hart.guard c = true → s.hart.dAct = false → s.hart.inh = true → s.quiet = true →
     exec (.halt c) s = .next s.endTask ∧ ∀ q, s.hart.launch = some q → TaskEnds q s s.endTask) ∧
  (∀ (c : Ctl) (s : State), s.hart.guard c = true → s.hart.dAct = false →
     (s.quiet = true → exec (.sync c) s =
       .next (completed s { s.hart with fence := s.hart.vseq, vfence := s.hart.vseq, sfence := s.hart.vseq })) ∧
     (s.hart.yreq = false → exec (.yield c) s = .next (completed s s.hart.abandon)) ∧
     (s.hart.yreq = true → s.hart.inh = false → s.hart.idle = true → s.hart.evict = false → s.areaHeld = false →
       ∃ t k, exec (.yield c) s = .next t ∧ t.saved = s.saved ++ [k] ∧
       k.reason = .yield ∧ k.spc = BitVec.ofNat 64 (s.hart.pc + 12).toNat ∧ k.vpc = 0 ∧ k.hart.s = s.hart.s ∧
       k.hart.demand = s.hart.demand ∧
       t.hart = { Hart.reset with mtvec := s.hart.mtvec, psel := s.hart.psel }))

/-- tsc writes the guest time of the partition at its issue, also where it has waited for room in its queue since, cnt the
count that A selects or all ones, and wmark the number of the window that it opens, once the streams have written what earlier
instructions appended (R420 to R422, R425). -/
def Obligations.TimeAndMarks : Prop :=
  (∀ c d s, s.hart.guard c = true →
    let p := s.partAt s.hart.pid
    let host := if p.gtHide then p.ran else s.pkg.time
    let now := BitVec.ofNat 64 ((host - p.gtoff).toNat * p.gtMul.toNat / 2 ^ p.gtSh.toNat)
    let writes (t : Word) : Prop := Room d s.hart → ∃ h', putS d t s.hart = some h' ∧
      exec (.tsc c d) s = .next (completed s h')
    (s.hart.waiting = none → writes now ∧ (putS d now s.hart = none → ∃ u, exec (.tsc c d) s = .next u ∧
      u = { s with hart := { s.hart with waiting := some (.tsc c d), tscAt := some now } })) ∧
    ∀ t, s.hart.waiting = some (.tsc c d) → s.hart.tscAt = some t → writes t) ∧
  (∀ c d a s x h, s.hart.guard c = true → takeS a s.hart = some (x, h) → Room d h →
    ∃ h', putS d (if x.toNat < 16 then s.hart.counter x.toNat else BitVec.allOnes 64) h = some h' ∧
      exec (.cnt c d a) s = .next (completed s h')) ∧
  ∀ c d s, s.hart.guard c = true → s.quiet = true → s.streamsWritten = true → s.noRoom 10 = false →
    s.appendHeld 10 = false →
    let u := (s.appendSnapshot (s.hart.wcur + 1)).onH fun h => { h with wcur := s.hart.wcur + 1 }
    Room d u.hart → ∃ h', putS d (BitVec.ofNat 64 (s.hart.wcur + 1).toNat) u.hart = some h' ∧
      exec (.wmark c d) s = .next (completed u h')

/-! ## The machine's step -/

/-- Where nothing else is due, a step of the machine fetches the 12 bytes at pc and runs the instruction they decode to, with
what surrounds it: the count of a doff routine's instructions, the instructions a nest forbids, the wait for queued work, the
late stores that the instruction must not pass, and what follows an instruction; a word that is no instruction is an illegal
instruction, whatever the state, and pad is one like it; bytes that cannot be fetched are a fetch fault. While a mwait has not
completed nothing is fetched (R14, R34 to R36, R73, R156, R285, R287, R340, R395). -/
def Obligations.StepRunsDecoded : Prop :=
  ∀ s : State, s.schedule = [] → s.pkg.quiesced = false → s.hart.run = .running →
    zoneStopped s = false → boundary s = none → s.vectorStep = none → s.hart.waiting = none →
    (s.hart.vqf = false → (∃ e ∈ s.hart.vcq, ∃ c n, e.instr = .mwait c n) → step s = .next s) ∧
    ((s.hart.vqf = true ∨ ∀ e ∈ s.hart.vcq, ∀ c n, e.instr ≠ .mwait c n) →
    (∀ t, s.fetch s.hart.pc = .error t → t.cause ≠ .held → step s = .next (s.takeTrap t)) ∧
    ∀ (u : State) (bs : List Byte), s.fetch s.hart.pc = .ok (bs, u) →
    let w : IWord := BitVec.ofNat 96 (leNat bs)
    let v := u.countDoff.2
    (∀ e, decode w = .error e → step s = exec (.illegalInstruction w) u) ∧
    (∀ c, decode w = .ok (.pad c) → step s = exec (.pad c) u) ∧
    (∀ i, decode w = .ok i → (∀ c, i ≠ .pad c) → u.countDoff.1 = true → step s = .next (v.doffViolation 1)) ∧
    (u.countDoff.1 = false → ∀ i, decode w = .ok i → (∀ c, i ≠ .pad c) →
      (mustWait i v = true → step s = .next (v.await i)) ∧
      (mustWait i v = false → nestFault i v = true → step s = .next (v.takeTrap ⟨.loopNest, 2⟩)) ∧
      (mustWait i v = false → nestFault i v = false →
        let x := if v.hart.sbuf = [] ∨ showsStores i = false then v else v.lateStores
        ∀ t, exec i x = .next t →
          (t.hart.heldUp = true → step s = .next (x.await i)) ∧
          (t.hart.heldUp = false → step s = .next (afterInstr i x (drainedFault x t)) ∧
            (x.hart.idle = true → drainedFault x t = t)))) ∧
    (u.hart.dAct = false → u.countDoff = (false, u)))

/-- Only a cold reset ends the quiesced state, in which no step of a hart, an engine, a replay or a queue is taken, the hart's
own step that an empty schedule leaves included, and of the host's and the peers' accesses only the host's reads are served
(R433); that a quiesced package serves these and an image's arrival alone is the model's reading (log 79). -/
def Obligations.OnlyColdResetEndsQuiescence : Prop :=
  ∀ s t : State, s.pkg.quiesced = true → step s = .next t →
    (t.pkg.quiesced = true ∨ s.schedule.head? = some (.event .coldReset)) ∧
    s.schedule ≠ [] ∧ (∀ n, s.schedule.head? ≠ some (.hart n)) ∧ (∀ p l, s.schedule.head? ≠ some (.lossInFlight p l)) ∧
    (∀ h k n, s.schedule.head? ≠ some (.engine h k n)) ∧ (∀ q, s.schedule.head? ≠ some (.resetStep q)) ∧
    (∀ q, s.schedule.head? ≠ some (.flowQueue q)) ∧
    (∀ i, s.schedule.head? = some (.event i) →
      i = .coldReset ∨ (∃ image ok, i = .firmwareUpdate image ok) ∨ ∃ pa data, i = .hostLinkAccess false pa data)

/-- Memory is in its canonical form after a cold reset. -/
def Obligations.MemoryFormAtReset : Prop := MemoryForm State.reset

/-- Every step keeps memory in its canonical form, whatever acts: an instruction, an engine, a replay, the queue processor, the
host, a debugger or the package itself. -/
def Obligations.MemoryFormKept : Prop := ∀ s t : State, MemoryForm s → step s = .next t → MemoryForm t

/-- Two states whose memories are in canonical form and read alike at every address hold the same memory: reading through an
address is all there is to a memory, and a byte reads back as it was written. -/
def Obligations.MemoryIsItsReads : Prop :=
  (∀ s t : State, MemoryForm s → MemoryForm t → (∀ a, s.rawByte a = t.rawByte a) → s.mem = t.mem) ∧
  ∀ (s : State) (pa : Nat) (bs : List Byte), s.pkg.migFwd = false → s.pkg.fwds = [] →
    (s.putBytes pa bs).bytes pa bs.length = bs ∧
    ∀ a, a < pa ∨ pa + bs.length ≤ a → (s.putBytes pa bs).byte a = s.byte a

/-- After a cold reset every hart slot is empty, and the system registers whose reset value the spec gives hold it, on every
hart (R8, R59, R62, R63, R106, R138, R168, R169, R257, R321, R332, R343, R361, R385, R388, R390 to R392, R396, R405, R414, R421,
R430, R440, R460). -/
def Obligations.ResetState : Prop :=
  (∀ h, (State.reset.hartAt h).run = .empty) ∧
  ∀ h, let r (i : BitVec 12) : Word := readSr (State.reset.focus h) i
    (∀ i ∈ ([0x000, 0x001, 0x002, 0x003, 0x004, 0x008, 0x009, 0x00A, 0x00B, 0x100, 0x101, 0x102, 0x103, 0x104, 0x110, 0x111,
      0x200, 0x210, 0x211, 0x212, 0x213, 0x400, 0x401, 0x402, 0x403, 0x404, 0x406, 0x410, 0x420, 0x430, 0x431, 0x440,
      0x460, 0x462, 0x464, 0x465, 0x466, 0x468, 0x469, 0x46A, 0x474, 0x476, 0x477, 0x478, 0x479, 0x480, 0x800, 0x803,
      0x840, 0x841, 0x842, 0x843, 0x880, 0x883] : List (BitVec 12)), r i = 0) ∧
    r 0x220 = 10 <<< 5 ∧ r 0x408 = 20000 ∧ r 0x412 = 25 ∧ r 0x414 = 16 ∧ r 0x451 = 10000 ∧ r 0x481 = 1 <<< 32 ∧
    r 0x494 = BitVec.allOnes 64 ∧ r 0x801 = 0x8000000000000E10 ∧ r 0x802 = 0x8000000400000000 ∧ r 0x882 = 16 ∧
    r 0x884 = BitVec.ofNat 64 (105 * 2 ^ 56 + 95 * 2 ^ 48 + 85 * 2 ^ 40 + 50 * 2 ^ 32 + 150 * 2 ^ 16) ∧
    r 0x885 = 0x0A08060403020100 ∧ r 0x886 = 456 ∧ r 0x888 = 8000 <<< 16 ∧ r 0x891 = 0xFFFF

/-- The checks of an access within 4 KiB of virtual memory, outside the cluster window, in their order: the first that fails is
raised, with its trap value; where none fails, the access reaches the bytes that its translation names. An access that needs a
table, a line or the slot of a lining record at a stopped home slice waits: it gets the model's mark of one that is held (R184,
R194, R198, R380, R382, R384, R388, R391, R436, R463). By log 8 a fetch from a device page is refused. -/
def Obligations.AccessChecks : Prop :=
  ∀ (s : State) (a : Agent) (q : Req), 0 < q.n → q.va.toNat % 4096 + q.n ≤ 4096 → (s.partAt a.pid).cwEn = false →
    let c1 : Prop := ∀ x : Word, (x = q.va ∨ x = q.va + BitVec.ofNat 64 (q.n - 1)) → ∀ k, 56 ≤ k → k < 64 →
      x.getLsbD k = x.getLsbD 56
    let c2 : Prop := q.al = true → q.va.toNat % q.n = 0
    let c3 : Prop := q.kind = .fetch ∨ ∀ rs, a.ranges = some rs →
      ∃ r ∈ rs, r.base.toNat ≤ q.va.toNat ∧ q.va.toNat < r.base.toNat + r.len
    (¬ c1 → s.check a q = .error ⟨.translation, q.va⟩) ∧
    (c1 → ¬ c2 → s.check a q = .error ⟨.misaligned, q.va⟩) ∧
    (c1 → c2 → ¬ c3 → s.check a q = .error ⟨.range, q.va⟩) ∧
    (c1 → c2 → c3 → (s.lookup a.cache a.pid q.va).1 = .invalid → s.check a q = .error ⟨.translation, q.va⟩) ∧
    (c1 → c2 → c3 → (s.lookup a.cache a.pid q.va).1 = .badTable → s.check a q = .error ⟨.protection, q.va⟩) ∧
    (c1 → c2 → c3 → (s.lookup a.cache a.pid q.va).1 = .held → s.check a q = .error ⟨.held, q.va⟩) ∧
    ∀ e, c1 → c2 → c3 → (s.lookup a.cache a.pid q.va).1 = .leaf e →
      let pa := e.pa + (q.va.toNat % 2 ^ 57 - e.va)
      let owner := s.owner (pa / 65536)
      let c5 : Prop := (a.level = .user → e.u = true) ∧ (q.kind = .fetch → e.x = true) ∧
        (q.kind = .store ∨ q.kind = .rmw → e.attr ≠ 1) ∧
        (e.attr = 3 → q.vec = false ∧ q.va.toNat % q.n = 0 ∧ (q.kind = .load ∨ q.kind = .store)) ∧
        inRegion pa = true ∧
        (isDevice pa = true → (a.level = .user → owner = 0x0100 + a.pid.setWidth 16) ∧
          (a.level ≠ .user → owner = 1 ∨ owner.toNat / 256 = 1))
      let c6 : Prop := isPeer pa = true → peerOf pa ∈ s.pkg.peersUp
      let records : Prop := (q.kind = .store ∨ q.kind = .rmw) ∧ (∃ k, a.cache = some (.core k)) ∧ a.cid = s.hart.cid ∧
        a.launch = s.hart.launch ∧ s.appendHeld (pieces q.va q.n).length = true
      let stopped : Prop := (∃ l, pa / 128 ≤ l ∧ l * 128 < pa + q.n ∧ s.homeStopped (l * 128) = true) ∨ records
      let c7 : Prop := q.kind = .store ∨ s.poisoned pa q.n = false
      (¬ c5 → s.check a q = .error ⟨.protection, q.va⟩) ∧
      (c5 → ¬ c6 → s.check a q = .error ⟨.remote, q.va⟩) ∧
      (c5 → c6 → stopped → s.check a q = .error ⟨.held, q.va⟩) ∧
      (c5 → c6 → ¬ stopped → ¬ c7 → s.check a q = .error ⟨.dataError, q.va⟩) ∧
      (c5 → c6 → ¬ stopped → c7 → ∃ acc, s.check a q = .ok acc ∧ s.bytesAt acc = s.bytes pa q.n ∧
        (s.pkg.migFwd = false → s.extents acc = [(s.forward pa, q.n)]))

/-! ## The vector instructions -/

/-- The integer elementwise instructions write, for each active element, their exact function wrapped or saturated, their
function of the patterns, a shift, a move or a count, and keep every other element, register and byte (R43, R105, R107, R110 to
R117). By log 99 (DEDUCED) -|x| of the most negative value under .s is exact and saturated once. -/
def Obligations.VectorInteger : Prop :=
  ∀ (c : Ctl) (o : VOps), o.fmt.vector = true →
    let w := o.fmt.width
    let each (i : Instr) (F : Hart → VSrc → VSrc → List (Nat × Elem) → Nat → Nat × Flags) := Elementwise i c o o.fmt F
    each (.vadd c o) (intF o fun a b _ => a + b) ∧ each (.vsub c o) (intF o fun a b _ => a - b) ∧
    each (.vmul c o) (intF o fun a b _ => a * b) ∧ each (.vmulh c o) (intF o fun a b _ => a * b / (2 ^ w : Nat)) ∧
    each (.vmadd c o) (intF o fun a b d => a * b + d) ∧
    each (.vmin c o) (intF o fun a b _ => min a b) ∧ each (.vmax c o) (intF o fun a b _ => max a b) ∧
    each (.vabsd c o) (intF o fun a b _ => |a - b|) ∧ each (.vavg c o) (intF o fun a b _ => (a + b + 1) / 2) ∧
    each (.vand c o) (patF (fun a b => a &&& b) o) ∧ each (.vor c o) (patF (fun a b => a ||| b) o) ∧
    each (.vxor c o) (patF (fun a b => a ^^^ b) o) ∧
    each (.vandn c o) (patF (fun a b => a &&& (2 ^ w - 1 - b)) o) ∧
    each (.vshl c o) (shiftF o fun a n => a * (2 ^ min n w : Nat)) ∧
    each (.vshr c o) (shiftF o fun a n => (wrapNat w a / 2 ^ min n w : Nat)) ∧
    each (.vsra c o) (shiftF o fun a n => (wrapNat w (signedOf w (wrapNat w a) / (2 ^ min n w : Nat)) : Nat)) ∧
    Elementwise (.vsel c o) c { o with x := { o.x with msk := false } } o.fmt (fun h x y _ e =>
      (if mbit h o.x.mn.toNat o.fmt.pack e then moveElem o.fmt o.a.mods x e else moveElem o.fmt o.b.mods y e, 0)) ∧
    each (.vmov c o) (fun _ x _ _ e => (moveElem o.fmt o.a.mods x e, 0)) ∧
    each (.vbcast c o) (fun _ x _ _ e => (moveElem o.fmt o.a.mods x e, 0)) ∧
    each (.vid c o) (fun _ _ _ _ e => (e % 2 ^ w, 0)) ∧
    each (.vclz c o) (patF (fun a _ => clzNat w a) { o with b := o.a }) ∧
    each (.vpopc c o) (patF (fun a _ => popcNat w a) { o with b := o.a }) ∧
    Elementwise (.vdot4 c o) c o .i32 (fun _ x y d e =>
      let a (k : Nat) := intElem .i8x4 o.sat o.a.mods false x (4 * e + k)
      let b (k : Nat) := intElem .i8x4 o.sat o.b.mods false y (4 * e + k)
      let r := fitTo .i32 o.sat ((a 0).1 * (b 0).1 + (a 1).1 * (b 1).1 + (a 2).1 * (b 2).1 + (a 3).1 * (b 3).1
        + (intElem .i32 false Mods.none false (.vec d) e).1)
      (wrapNat 32 r.1, (a 0).2 ||| (b 0).2 ||| (a 1).2 ||| (b 1).2 ||| (a 2).2 ||| (b 2).2 ||| (a 3).2 ||| (b 3).2 ||| r.2))

/-- The floating-point elementwise instructions write, for each active element, their operation rounded once in the mode of the
instruction, a minimum or maximum, or an estimate, with its flags, and keep everything else (R53, R60, R105, R110, R118 to
R122). By log 20 a signalling NaN in B of vfrnd sets NV too, and the estimates are computed as logs 25 and 91 say. -/
def Obligations.VectorFloat : Prop :=
  ∀ (c : Ctl) (o : VOps), o.fmt.vector = true →
    let k := elemFmt o.fmt
    let each (i : Instr) (F : Hart → VSrc → VSrc → List (Nat × Elem) → Nat → Nat × Flags) := Elementwise i c o o.fmt F
    each (.vfadd c o) (fpF o fun rdn a b _ => fpAdd rdn a b) ∧
    each (.vfsub c o) (fpF o fun rdn a b _ => fpAdd rdn a (fpNeg b)) ∧
    each (.vfmul c o) (fpF o fun _ a b _ => fpMul a b) ∧ each (.vfma c o) (fpF o fun rdn a b d => fpFma rdn a b d) ∧
    each (.vfdiv c o) (fpF o fun _ a b _ => fpDiv a b) ∧ each (.vfsqrt c o) (fpF o fun _ a _ _ => fpSqrt a) ∧
    each (.vfscl c o) (fun h x y _ e =>
      let a := fpOf k (fpElem o.fmt o.a.mods false x e)
      let r := roundTo k (modeV o h) false (fpScale a (scaleOf o y e))
      (r.1, r.2 ||| sigFlag a)) ∧
    each (.vfrnd c o) (fun h x y _ e =>
      let r := fpIntegral k (modeV o h) (fpElem o.fmt o.a.mods false x e)
      (r.1, r.2 ||| sigFlag (fpOf k (fpElem o.fmt o.b.mods false y e)))) ∧
    each (.vfmin c o) (fun _ x y _ e =>
      fpMinMax k false (fpElem o.fmt o.a.mods false x e) (fpElem o.fmt o.b.mods false y e)) ∧
    each (.vfmax c o) (fun _ x y _ e =>
      fpMinMax k true (fpElem o.fmt o.a.mods false x e) (fpElem o.fmt o.b.mods false y e)) ∧
    each (.vfrcp c o) (estF o fpRcp) ∧ each (.vfrsq c o) (estF o fpRsq) ∧
    each (.vfexp2 c o) (estF o fpExp2) ∧ each (.vflog2 c o) (estF o fpLog2)

/-- Comparisons write the mask bits of the active elements of the vector length, mask logic combines the positions of the vector
length, and mpopc and mfirst count the active elements of a mask and find the first (R101, R113, R121, R132, R133). -/
def Obligations.VectorMasks : Prop :=
  (∀ (c : Ctl) (o : VOps), o.fmt.vector = true →
    ComparesInto (.vcmp c o) c o (fun r x y e =>
      (relHolds r (intElem o.fmt false o.a.mods false x e).1 (intElem o.fmt false o.b.mods false y e).1, 0)) ∧
    ComparesInto (.vfcmp c o) c o (fun r x y e =>
      fpCmp (elemFmt o.fmt) r (fpElem o.fmt o.a.mods false x e) (fpElem o.fmt o.b.mods false y e))) ∧
  ∀ (c : Ctl) (d a b : BitVec 3) (s : State), Issues c s → s.hart.vstart = 0 →
    let combines (i : Instr) (f : Nat → Byte) : Prop :=
      ∃ m, exec i s = .next (ranQueued s { s.issued.hart with m := tset [] s.hart.m d.toNat m }) ∧
        ∀ e, tget 0 m e = if e < s.vlen then f e else s.hart.rmask d.toNat e
    combines (.mand c d a b) (fun e => s.hart.rmask a.toNat e &&& s.hart.rmask b.toNat e) ∧
    combines (.mor c d a b) (fun e => s.hart.rmask a.toNat e ||| s.hart.rmask b.toNat e) ∧
    combines (.mnot c d a) (fun e => ~~~s.hart.rmask a.toNat e) ∧
    ∀ (od : Operand) (x : VX), Room od s.hart →
      let p := 2 ^ (x.sel.toNat % 4)
      let counted := (Finset.range (p * s.vlen)).filter fun e =>
        maskBit (tget [] s.hart.m a.toNat) p e 0 = true ∧ active s.hart x.msk x.mn p e = true
      (∃ h', putS od (BitVec.ofNat 64 counted.card) s.issued.hart = some h' ∧
        exec (.mpopc c od a x) s = .next (ranQueued s h')) ∧
      ∃ v h', putS od v s.issued.hart = some h' ∧ exec (.mfirst c od a x) s = .next (ranQueued s h') ∧
        (counted = ∅ → v = BitVec.allOnes 64) ∧ ∀ e ∈ counted, (∀ j ∈ counted, e ≤ j) → v.toNat = e

/-- The permutes write each active element of the vector length from the element of A that they name, or zero where it lies
outside; vcompress packs the active elements, and vexpand spreads elements to the active places (R105, R123). -/
def Obligations.VectorPermutes : Prop :=
  ∀ (c : Ctl) (o : VOps), o.fmt.vector = true →
    let el (x : VSrc) (e : Nat) : Nat := moveElem o.fmt o.a.mods x e
    PermutesInto (.vxch c o) c o (fun n x _ e =>
      if e ^^^ 2 ^ o.x.sel.toNat < n then el x (e ^^^ 2 ^ o.x.sel.toNat) else el x e) ∧
    PermutesInto (.vperm c o) c o (fun n x y e =>
      if rawElem o.fmt o.b.mods false y e < n then el x (rawElem o.fmt o.b.mods false y e) else 0) ∧
    PermutesInto (.vslide c o) c o (fun n x y e =>
      let k := match y with | .scal w => (full64 false o.b.mods w).1.toInt | .vec _ => 0
      if 0 ≤ (e : Int) + k ∧ (e : Int) + k < n then el x ((e : Int) + k).toNat else 0) ∧
    ∀ s x y h, Issues c s → s.hart.vstart = 0 → VRoom o.d h →
      let n := o.fmt.pack * s.vlen
      let act := (List.range n).filter fun e => active h o.x.msk o.x.mn o.fmt.pack e
      let old (e : Nat) : Nat := elemOf o.fmt (oldV o.d h) e
      (VSources o.a o.b (s.envOf (.vcompress c o)) s.issued.hart x y h →
        ∃ t h', exec (.vcompress c o) s = .next (ranQueued s h') ∧ putV o.d t { h with vstart := 0 } = .ok h' ∧
          ∀ e, elemOf o.fmt t e =
            if hx : e < act.length then el x act[e] % 2 ^ o.fmt.width
            else if e < n ∧ o.x.mz = true then 0 else old e) ∧
      (VSources o.a o.b (s.envOf (.vexpand c o)) s.issued.hart x y h →
        ∃ t h', exec (.vexpand c o) s = .next (ranQueued s h') ∧ putV o.d t { h with vstart := 0 } = .ok h' ∧
          ∀ e, elemOf o.fmt t e =
            if e < n then
              masked (active h o.x.msk o.x.mn o.fmt.pack e) o.x.mz
                (el x (act.filter fun j => decide (j < e)).length % 2 ^ o.fmt.width) (old e)
            else old e)

/-- vred, vredsc and vdot reduce the elements of the vector length by the pairwise tree of R65, over blocks of 32 with their
scales, or over products of which the first level adds two exactly; masked-off elements count as the identity, and a NaN is
the canonical one (R46, R65 to R67, R124 to R127). The identities of an integer minimum and maximum are those of log 26, and
by log 99 (DEDUCED) -|x| of the most negative value under .s is exact and saturated once. -/
def Obligations.VectorReductions : Prop :=
  ∀ (c : Ctl) (o : VOps), o.fmt.vector = true →
    let f := elemFmt o.fmt
    Reduces (.vred c o) c o o.fmt (fun mode => (redOp o mode).2) (fun mode h x _ n =>
      let l := redElems o h x n (redOp o mode).2
      let r := pairTree (redOp o mode).1 (redOp o mode).2 l.1
      let q := redNaN f r.1
      (q.1, l.2 ||| r.2 ||| q.2)) ∧
    Reduces (.vredsc c o) c o o.fmt (fun _ => negZero f) (fun mode h x y n =>
      let l := redElems o h x n (negZero f)
      let sums := (blocks32 (n / 32 + 1) l.1).zipIdx.map fun p =>
        let t := pairTree (addBits f mode) (negZero f) p.1
        let q := scaleBits f mode t.1 ((swz o.b.mods.swz (y.container 1 (p.2 / 4))).toNat / 2 ^ (8 * (p.2 % 4)) % 256)
        (q.1, t.2 ||| q.2)
      let r := pairTree (addBits f mode) (negZero f) (sums.map (·.1))
      (r.1, sums.foldl (fun a p => a ||| p.2) (l.2 ||| r.2))) ∧
    Reduces (.vdot c o) c o .f32 (fun _ => negZero .f32) (fun mode h x y n =>
      let products := (List.range n).map fun e =>
        if active h o.x.msk o.x.mn o.fmt.pack e then
          fpMul (fpOf f (fpElem o.fmt o.a.mods false x e)) (fpOf f (fpElem o.fmt o.b.mods false y e))
        else (.fin true 0 0 false, 0)
      if n = 1 then
        let p := products.headD (.fin true 0 0 false, 0)
        let r := roundTo .f32 mode false p.1
        (r.1, r.2 ||| p.2)
      else
        let l := dotLevel mode products
        let r := pairTree (addBits .f32 mode) (negZero .f32) l.1
        (r.1, l.2 ||| r.2))

/-- vcvt, vpack and vunpack convert each active element, rounding in the mode of the instruction, and a vcvt or vpack
stochastically with the bits of srseed where it asks for that and the format admits it; a completed stochastic instruction
counts in srseed, and everything else is kept (R56, R57, R128 to R131). By log 89 the count is that of every such instruction,
whatever its source or mask, by log 90 tininess is judged with the same random bits, and by log 99 (DEDUCED) -|x| of the most
negative integer under .s is exact and saturated once. -/
def Obligations.VectorConversions : Prop :=
  ∀ (c : Ctl) (o : VOps), o.fmt.vector = true →
    ∀ s x y h, Issues c s → VRoom o.d h →
      let after (h' : Hart) : State := ranQueued s { h' with ctr := h'.ctr + (if stochastic o s.hart then 1 else 0) }
      let old (e : Nat) : Nat := elemOf o.fmt (oldV o.d h) e
      let cv (sr : Bool) (e : Nat) := cvtElem sr o h x e
      let flags (sr : Bool) (g : Flags) (p lo n : Nat) : Prop := ∀ k, g.getLsbD k = true ↔
        ∃ e, lo ≤ e ∧ e < n ∧ active h o.x.msk o.x.mn p e = true ∧ (cv sr e).2.getLsbD k = true
      ((namesQueue [o.d, o.a, o.b] = true → s.hart.vstart = 0) →
        VSources o.a o.b (s.envOf (.vcvt c o)) s.issued.hart x y h →
        ∃ t g h', exec (.vcvt c o) s = .next (after h') ∧ putV o.d t { h.flag g with vstart := 0 } = .ok h' ∧
          (∀ e, elemOf o.fmt t e = if s.hart.vstart.toNat ≤ e ∧ e < o.fmt.pack * s.vlen then
            masked (active h o.x.msk o.x.mn o.fmt.pack e) o.x.mz ((cv true e).1 % 2 ^ o.fmt.width) (old e) else old e) ∧
          flags true g o.fmt.pack s.hart.vstart.toNat (o.fmt.pack * s.vlen)) ∧
      (s.hart.vstart = 0 → VSources o.a o.b (s.envOf (.vpack c o)) s.issued.hart x y h →
        ∃ t g h', exec (.vpack c o) s = .next (after h') ∧ putV o.d t { h.flag g with vstart := 0 } = .ok h' ∧
          (∀ e, elemOf o.fmt t e =
            if e < s.vlen then
              masked (active h o.x.msk o.x.mn 1 e) o.x.mz ((cv true e).1 % 2 ^ o.fmt.width) (old e)
            else if e < (s.vlen + o.fmt.pack - 1) / o.fmt.pack * o.fmt.pack then 0 else old e) ∧
          flags true g 1 0 s.vlen) ∧
      (s.hart.vstart = 0 → VSources o.a o.b (s.envOf (.vunpack c o)) s.issued.hart x y h →
        ∃ t g h', exec (.vunpack c o) s = .next (ranQueued s h') ∧ putV o.d t { h.flag g with vstart := 0 } = .ok h' ∧
          (∀ e, elemOf o.fmt t e = if e < s.vlen then
            masked (active h o.x.msk o.x.mn 1 e) o.x.mz ((cv false e).1 % 2 ^ o.fmt.width) (old e) else old e) ∧
          flags false g 1 0 s.vlen)

/-! ## Vector memory, queues, streams and the stash -/

/-- vld, vlds and vldx whose active elements pass their checks, each in turn, load them; an inactive element becomes zero with
MZ and keeps its value without; vstart becomes 0 and memory keeps its bytes. Where the first check to fail is that of element e,
the elements below it are performed, no other is, and the instruction heads the queue with its trap at element e (R39, R110,
R203 to R205). -/
def Obligations.VectorLoads : Prop :=
  ∀ (c : Ctl) (o : VMOps) (s : State), Issues c s →
    let n := fmtBytes o.fmt
    let act (e : Nat) : Bool := active s.hart o.msk o.mn 1 e
    let es := (List.range s.vlen).filter fun e => decide (s.hart.vstart.toNat ≤ e) && act e
    let loads (i : Instr) (ea : Nat → Word) : Prop :=
      let holds (v' : List (Nat × List (Nat × Elem))) (bs : List (List Byte)) (hi : Nat) : Prop :=
        ∀ r e, tget 0 (tget [] v' r) e =
          if r = o.d.toNat ∧ s.hart.vstart.toNat ≤ e ∧ e < hi then
            (if act e then extElem o.fmt (leNat (bs.getD (es.idxOf e) [])) else if o.mz then 0 else s.hart.rv r e)
          else s.hart.rv r e
      (∀ bs t, LoadsOf n (es.map ea) s.issued bs t →
        t.mem = s.mem ∧ ∃ v', exec i s = .next { t with hart := { t.hart with v := v', vstart := 0 } } ∧
          holds v' bs s.vlen) ∧
      ∀ below e above bs t trap, es = below ++ e :: above → LoadsOf n (below.map ea) s.issued bs t →
        t.load (ea e) n true true = .error trap → trap.cause ≠ .held →
        t.mem = s.mem ∧ ∃ v', exec i s = .next { t with hart := { t.hart with
            v := v', vcq := [⟨s.hart.pc, i, s.envOf i, some (trap, e), false⟩] } } ∧ holds v' bs e
    let base := swz64 o.a.swz (s.hart.rs o.a.n.toNat)
    loads (.vld c o) (fun e => base + operandOf s.hart o.b + BitVec.ofNat 64 (e * fmtBytes o.fmt)) ∧
    loads (.vlds c o) (fun e => base + BitVec.ofNat 64 e * operandOf s.hart o.b) ∧
    ∀ k m, o.b = .v k m →
      let raw (e : Nat) : Elem := swz m.swz (s.hart.rv k.toNat e)
      let index (e : Nat) : Elem := BitVec.ofInt 32 (absNeg m (if o.si then (raw e).toInt else (raw e).toNat))
      loads (.vldx c o) (fun e => base + (if o.si then (index e).signExtend 64 else (index e).setWidth 64)
        * BitVec.ofNat 64 (if o.sc then fmtBytes o.fmt else 1))

/-- vst, vsts and vstx whose active elements pass their checks, each in turn, and whose records fit, store the active elements
alone; vstart becomes 0 and registers keep their values. Where nothing is logged and no frame moves, every byte outside the
ranges stored to keeps its value, and where no two elements overlap each reads back at its address. Where the first check to
fail is that of element e, or its record is the first without room, the elements below it alone are stored, and the instruction
heads the queue with its trap at element e (R7, R39, R203 to R205, R423, R426, R436). -/
def Obligations.VectorStores : Prop :=
  ∀ (c : Ctl) (o : VMOps) (s : State), Issues c s →
    let n := fmtBytes o.fmt
    let es := (List.range s.vlen).filter fun e => decide (s.hart.vstart.toNat ≤ e) && active s.hart o.msk o.mn 1 e
    let data (e : Nat) : List Byte := leBytes n (swz o.dswz (s.hart.rv o.d.toNat e)).toNat
    let stores (i : Instr) (ea : Nat → Word) : Prop :=
      let stored (l : List Nat) (ps : List (Acc × List Byte)) (u : State) : Prop :=
        u.hart.v = s.hart.v ∧ u.hart.s = s.hart.s ∧ u.hart.m = s.hart.m ∧ ps.map (fun p => p.2) = l.map data ∧
          (s.logged = false → s.pkg.migFwd = false → s.pkg.fwds = [] →
            (∀ a, (∀ w ∈ ps.flatMap (fun p => s.extents p.1), a < w.1 ∨ w.1 + w.2 ≤ a) → u.byte a = s.byte a) ∧
            ((ps.flatMap fun p => p.1.chunks).Pairwise (fun c d => c.pa + c.n ≤ d.pa ∨ d.pa + d.n ≤ c.pa) →
              ∀ p ∈ ps, u.bytesAt p.1 = p.2))
      (∀ ps t, StoresOf (recordOf 0 s) (es.map fun e => (ea e, data e)) s.issued ps t →
        let u : State := { t.cover (ps.flatMap fun p => s.extents p.1) with hart := { t.hart with vstart := 0 } }
        exec i s = .next u ∧ stored es ps u) ∧
      ∀ below e above ps t trap, es = below ++ e :: above →
        StoresOf (recordOf 0 s) (below.map fun e => (ea e, data e)) s.issued ps t →
        (t.check t.agent ⟨ea e, n, .store, true, true⟩ = .error trap ∧ trap.cause ≠ .held ∨
          ∃ acc x, t.check t.agent ⟨ea e, n, .store, true, true⟩ = .ok acc ∧
            t.logFull (State.recordAddrs acc) = some x ∧ trap = ⟨.liningFull, x⟩) →
        let u : State := { t.cover (ps.flatMap fun p => s.extents p.1) with hart := { t.hart with
          vcq := [⟨s.hart.pc, i, s.envOf i, some (trap, e), false⟩] } }
        exec i s = .next u ∧ stored below ps u
    let base := swz64 o.a.swz (s.hart.rs o.a.n.toNat)
    stores (.vst c o) (fun e => base + operandOf s.hart o.b + BitVec.ofNat 64 (e * fmtBytes o.fmt)) ∧
    stores (.vsts c o) (fun e => base + BitVec.ofNat 64 e * operandOf s.hart o.b) ∧
    ∀ k m, o.b = .v k m →
      let raw (e : Nat) : Elem := swz m.swz (s.hart.rv k.toNat e)
      let index (e : Nat) : Elem := BitVec.ofInt 32 (absNeg m (if o.si then (raw e).toInt else (raw e).toNat))
      stores (.vstx c o) (fun e => base + (if o.si then (index e).signExtend 64 else (index e).setWidth 64)
        * BitVec.ofNat 64 (if o.sc then fmtBytes o.fmt else 1))

/-- vldq appends the vector that it loads to its queue, and vstq removes the head of its queue and stores it, each after every
element has passed its checks; vbind binds its queue to the stream of a descriptor, and a count of 0 binds nothing; vunbind ends
a load stream with its entries, and a store stream that has written all of them; a load stream with room fetches its next entry,
scaled where it has scales, after the vector accesses that are earlier than its vbind, and a store stream writes its oldest
entry, after those that are earlier than the instruction that has appended it, and ends with its last (R206 to R211, R423). By
log 18 a load stream stays bound until its last entry is removed, and a store stream ends with its last write; a stream accesses
memory at the level of its vbind (log 86). -/
def Obligations.QueuesAndStreams : Prop :=
  (∀ (c : Ctl) (f : Fmt) (q : BitVec 3) (a : SSrc) (b : Operand) (s : State) (acc : Nat → Acc),
     Issues c s → s.hart.vstart = 0 → s.hart.stream q.toNat = none →
     let passes (k : Kind) : Prop := ∀ e < s.vlen, s.issued.check s.issued.agent
       ⟨s.hart.src a + operandOf s.hart b + BitVec.ofNat 64 (e * fmtBytes f), fmtBytes f, k, true, true⟩ = .ok (acc e)
     (passes .load → (s.hart.vq q.toNat).length < Config.vectorQueueDepth → ∃ t x,
       exec (.vldq c f q a b) s = .next t ∧
       loaded s.issued t (s.issued.hart.setVq q.toNat (s.hart.vq q.toNat ++ [x])) ∧
       ∀ e, tget 0 x e = if e < s.vlen then extElem f (leNat (s.bytesAt (acc e))) else 0) ∧
     (passes .store → s.issued.logFull ((List.range s.vlen).flatMap fun e => State.recordAddrs (acc e)) = none →
       ∀ x rest, s.hart.vq q.toNat = x :: rest →
         let u := ((List.range s.vlen).foldl (fun (u : State) e =>
           u.storeAt (recordOf 0 s) (acc e) (leBytes (fmtBytes f) (tget 0 x e).toNat)) s.issued).cover
             ((List.range s.vlen).flatMap fun e => s.extents (acc e))
         exec (.vstq c f q a b) s = .next { u with hart := u.hart.setVq q.toNat rest })) ∧
  ((∀ (c : Ctl) (f : Fmt) (sc st : Bool) (q : BitVec 3) (a : SSrc) (s t : State) (bs : List Byte),
     Issues c s → (s.hart.src a).toNat % 64 = 0 → s.hart.stream q.toNat = none → s.hart.vq q.toNat = [] →
     s.issued.load (s.hart.src a) 64 true true = .ok (bs, t) → (∀ k, 28 ≤ k → k < 32 ∨ 48 ≤ k → bs.getD k 0 = 0) →
     let w (k : Nat) : Word := BitVec.ofNat 64 (leNat ((bs.drop k).take 8))
     let count := leNat ((bs.drop 24).take 4)
     let bound : Stream := ⟨f, st, sc, w 0, w 8, w 16, count, w 32, w 40, s.vlen, 0, 0, [], none, s.hart.pc,
       s.hart.wcur, s.hart.vseq, [], s.hart.level⟩
     exec (.vbind c f sc st q a) s = .next
       (if count = 0 then t else { t with hart := t.hart.setStream q.toNat (some bound) })) ∧
   ∀ (c : Ctl) (q : BitVec 3) (s : State), Issues c s →
     (s.hart.stream q.toNat = none → exec (.vunbind c q) s = .next s.issued) ∧
     ∀ b, s.hart.stream q.toNat = some b →
       (b.store = false → exec (.vunbind c q) s =
         .next (ranQueued s ((s.issued.hart.setStream q.toNat none).setVq q.toNat []))) ∧
       (b.store = true → b.trap = none → s.hart.vq q.toNat = [] → exec (.vunbind c q) s =
         .next (ranQueued s (s.issued.hart.setStream q.toNat none)))) ∧
  (∀ (h q : Nat) (s : State) (b : Stream) (acc sacc : Nat → Acc),
     let u := s.focus h
     let ea (e : Nat) : Word := b.base + BitVec.ofNat 64 b.done * b.vstr + BitVec.ofNat 64 e * b.estr
     let passes (k : Kind) : Prop :=
       ∀ e < b.len, u.check { u.agent with level := b.level } ⟨ea e, fmtBytes b.fmt, k, true, true⟩ = .ok (acc e)
     u.hart.stream q = some b → b.trap = none → b.done < b.count → u.hart.run = .running → u.hart.vqf = false →
     zoneStopped u = false →
     (b.store = false → vectorBelow streamOrder b.seq u.hart = false →
       (u.hart.vq q).length < Config.vectorQueueDepth → passes .load →
       (b.sc = true → ∀ k < (b.len + 31) / 32, u.check { u.agent with level := b.level }
         ⟨b.sbase + BitVec.ofNat 64 b.done * b.sstr + BitVec.ofNat 64 k, 1, .load, true, true⟩ = .ok (sacc k)) →
       let el (e : Nat) : Nat := leNat (u.bytesAt (acc e))
       let scale (e : Nat) : Nat := leNat (u.bytesAt (sacc (e / 32)))
       ∃ t x g, exec (.loadStreamFetch h q) s = .next (t.focus s.cur) ∧
         loaded u t ((u.hart.setVq q (u.hart.vq q ++ [x])).setStream q
           (some { b with done := b.done + 1, flags := b.flags ++ [g] })) ∧
         (b.sc = false → g = 0) ∧
         ∀ e, tget 0 x e = if b.len ≤ e then 0 else if b.sc = false then extElem b.fmt (el e)
           else if scale e % 256 = 255 ∨ ∃ n, fpOf b.fmt (extElem b.fmt (el e)).toNat = .nan n then 0x7FC00000
           else BitVec.ofNat 32 (roundTo .f32 .rne false
             (fpScale (fpOf b.fmt (extElem b.fmt (el e)).toNat) (((scale e % 256 : Nat) : Int) - 127))).1) ∧
     (b.store = true → appendedBehind b u.hart = false → u.hart.sbuf = [] → passes .store →
       u.logFull ((List.range b.len).flatMap fun e => State.recordAddrs (acc e)) = none →
       ∀ x rest, u.hart.vq q = x :: rest →
         let w := ((List.range b.len).foldl (fun (w : State) e =>
           w.storeAt ⟨0, pcWord b.pc 0, 0, b.win⟩ (acc e) (leBytes (fmtBytes b.fmt) (tget 0 x e).toNat)) u).cover
             ((List.range b.len).flatMap fun e => u.extents (acc e))
         let b' : Option Stream := if b.done + 1 = b.count then none
           else some { b with done := b.done + 1, apps := b.apps.filter fun p => p.1 ≠ b.done }
         exec (.storeStreamWrite h q) s =
           .next (({ w with hart := (w.hart.setVq q rest).setStream q b' } : State).focus s.cur)))

/-- stmap empties a slot or maps an aligned power of two of memory that overlaps no other slot; stwb writes back, and stdrop
drops, the dirty lines of the context on the executing core that overlap a range: a dropped line holds again the bytes of its
home (R191, R195, R213, R214). By log 19 a dropped line keeps the tag of its discarded write. -/
def Obligations.StashControl : Prop :=
  (∀ (c : Ctl) (slot : BitVec 5) (soff : BitVec 7) (a : BitVec 6) (b : Operand) (s : State), Issues c s →
    let base := s.hart.rs a.toNat
    let size := (operandOf s.hart b).toNat
    let key := 32 * s.coreNo + slot.toNat
    let maps (x : StashSlot) : Prop := ∃ t, exec (.stmap c slot soff a b) s = .next t ∧ t.mem = s.mem ∧
      t = { s.issued with hart := { s.issued.hart with stmap := tset StashSlot.reset s.hart.stmap key x }
                          dirty := t.dirty }
    (size = 0 → maps ⟨0, 0, 0⟩) ∧
    ∀ n, 12 ≤ n → n ≤ 19 → size = 2 ^ n → canonical base = true → base.toNat % size = 0 →
      (soff.toNat * 4096) % size = 0 → soff.toNat * 4096 + size ≤ 524288 →
      (∀ x ∈ rivalSlots s s.coreNo slot.toNat, x = ⟨base, size, soff.toNat * 4096⟩ ∨
        soff.toNat * 4096 + size ≤ x.soff ∨ x.soff + x.size ≤ soff.toNat * 4096) →
      maps ⟨base, size, soff.toNat * 4096⟩) ∧
  ∀ (c : Ctl) (a : BitVec 6) (b : Operand) (s : State), Issues c s →
    let hit (d : Dirty) : Prop := d.core = s.coreNo ∧ d.cid = s.hart.cid ∧
      overlaps (s.hart.rs a.toNat) (operandOf s.hart b).toNat d.vline
    (∃ t, exec (.stwb c a b) s = .next t ∧ t = { s.issued with dirty := t.dirty } ∧
      ∀ d, d ∈ t.dirty ↔ d ∈ s.dirty ∧ ¬ hit d) ∧
    (s.logged = false → s.pkg.migFwd = false → s.pkg.fwds = [] → s.dirty.Pairwise (fun d e => d.pline ≠ e.pline) →
      (∀ d ∈ s.dirty, d.home.length = 128) →
      ∃ t, exec (.stdrop c a b) s = .next t ∧ t = { s.issued with dirty := t.dirty, mem := t.mem } ∧
        (∀ d, d ∈ t.dirty ↔ d ∈ s.dirty ∧ ¬ hit d) ∧
        ∀ p, (∀ d ∈ s.dirty, hit d → d.pline = p / 128 → t.byte p = d.home.getD (p % 128) 0) ∧
          ((∀ d ∈ s.dirty, hit d → d.pline ≠ p / 128) → t.byte p = s.byte p))

/-! ## Tiles and matrix work -/

/-- setts, mscale, mstat and mwait: shapes limited to 64, 64 and the format's depth, a scale binding or none, the status word of
a slot, and a wait that ends where no earlier work is queued, or enters the queue to trap there where its slot is not held
(R142, R147, R150, R156 to R158). That mscale and mstat act at their issue, also with work queued, is log 40. -/
def Obligations.MatrixControl : Prop :=
  ∀ (c : Ctl) (s : State), s.hart.guard c = true →
    (∀ wf m n k, exec (.setts c wf m n k) s = .next (completed s { s.hart with
      tm := BitVec.ofNat 7 (min (natOperand s.hart m) 64)
      tn := BitVec.ofNat 7 (min (natOperand s.hart n) 64)
      tk := BitVec.ofNat 12 (min (natOperand s.hart k)
        (if wf = .e2m1 ∨ wf = .vq2 then 2048 else if wf = .bf16 ∨ wf = .f16 then 512 else 1024)) })) ∧
    (∀ ofB a b count, s.hart.vqf = false → s.hart.vcq.length < Config.commandQueueDepth →
      let x : Binding := if count = 0 then ⟨0, 0, 0⟩
        else ⟨s.hart.rs a.toNat, BitVec.ofNat 64 (natOperand s.hart b), count⟩
      exec (.mscale c ofB a b count) s =
        .next (completed s (if ofB then { s.hart with bindB := x } else { s.hart with bindA := x }))) ∧
    (Issues c s →
      (∀ d (n : BitVec 2), Room d s.hart → ∃ h', exec (.mstat c d n) s = .next (ranQueued s h') ∧
        putS d (if s.holds n.toNat then
            BitVec.ofNat 64 (1 + (if (s.coreAt s.coreNo).recalls.any fun r => r.slot == n.toNat then 4 else 0)
              + (s.tileAt n.toNat).wfmt.code.toNat * 2 ^ 8 + kmax (s.tileAt n.toNat).wfmt * 2 ^ 16)
          else 0) s.issued.hart = some h') ∧
      exec (.mwait c none) s = .next s.issued ∧
      ∀ n : BitVec 2,
        (s.holds n.toNat = true → exec (.mwait c (some n)) s = .next s.issued) ∧
        (s.holds n.toNat = false → exec (.mwait c (some n)) s = .next (ranQueued s { s.issued.hart with
          vcq := [⟨s.hart.pc, .mwait c (some n), s.envOf (.mwait c (some n)),
            some (⟨.tileNotHeld, n.setWidth 64⟩, 0), false⟩] })))

/-- wfmt, wload, mzero and macc.ld on a slot that is held: the format with cleared weights and its codebook, the weight elements
of the rows read from memory, a zero accumulator, and accumulator elements from a vector register; every other weight and
accumulator element keeps its value (R138, R148, R149, R151, R155). -/
def Obligations.TileLoads : Prop :=
  ∀ (c : Ctl) (n : BitVec 2) (s : State), Issues c s → s.holds n.toNat = true →
    let t := s.tileAt n.toNat
    let becomes (i : Instr) (u : State) (t' : Tile) : Prop := exec i s = .next (u.modTile n.toNat fun _ => t')
    (∀ wf a, wf ≠ .vq2 → becomes (.wfmt c wf n a) s.issued { t with wfmt := wf, weights := [] }) ∧
    (∀ a bs u, (operandOf s.hart a).toNat % 4 = 0 → readRanges [(operandOf s.hart a, 1024)] s.issued = .ok (bs, u) →
      ∃ book, becomes (.wfmt c .vq2 n a) u { t with wfmt := .vq2, weights := [], codebook := book } ∧
        ∀ k, tget 0 book k = if k < 256 then BitVec.ofNat 32 (leNat (((bs.headD []).drop (4 * k)).take 4)) else 0) ∧
    (∀ (a : BitVec 6) (b : Operand) (kofs : BitVec 12) bs u,
      let tk := min s.hart.tk.toNat (kmax t.wfmt)
      let tn := min s.hart.tn.toNat 64
      let rows := if t.wfmt = .vq2 then (tk + 7) / 8 else tk
      let first := if t.wfmt = .vq2 then kofs.toNat / 8 else kofs.toNat
      0 < tk → 0 < tn → kofs.toNat + tk ≤ kmax t.wfmt → (t.wfmt = .vq2 → kofs.toNat % 8 = 0) →
      (t.wfmt = .bf16 ∨ t.wfmt = .f16 → (s.hart.rs a.toNat).toNat % 2 = 0 ∧ (operandOf s.hart b).toNat % 2 = 0) →
      readRanges ((List.range rows).map fun k =>
        (s.hart.rs a.toNat + BitVec.ofNat 64 k * operandOf s.hart b, rowBytes t.wfmt tn)) s.issued = .ok (bs, u) →
      ∃ w, becomes (.wload c n a b kofs) u { t with weights := w } ∧
        ∀ k j, j < 64 → tget 0 w (64 * k + j) =
          if first ≤ k ∧ k < first + rows ∧ j < tn then BitVec.ofNat 16 (rowElem t.wfmt (bs.getD (k - first) []) j)
          else tget 0 t.weights (64 * k + j)) ∧
    becomes (.mzero c n) s.issued { t with acc := [], poison := [] } ∧
    ∀ (r : BitVec 5) (row0 : BitVec 6), s.hart.vstart = 0 → ∃ a p,
      becomes (.maccLd c n r row0) s.issued { t with acc := a, poison := p } ∧
      let hit (k : Nat) : Prop := 64 * row0.toNat ≤ k ∧ k < 4096 ∧ k - 64 * row0.toNat < s.vlen
      (∀ k, hit k → tget 0 a k = s.hart.rv r.toNat (k - 64 * row0.toNat)) ∧
      (∀ k, ¬ hit k → tget 0 a k = tget 0 t.acc k) ∧ ∀ k, k ∈ p ↔ k ∈ t.poison ∧ ¬ hit k

/-- mova converts accumulator elements that are not poisoned into a vector register, and mma adds to each accumulator element of
the shape its K-blocks of 32 products, each summed exactly, scaled and rounded once; every other element keeps its value (R68,
R69, R138, R152, R154, R435). A K-block whose exact sum is 0 counts as +0 (log 27). -/
def Obligations.TileComputes : Prop :=
  ∀ (c : Ctl) (n : BitVec 2) (s : State), Issues c s → s.holds n.toNat = true →
    let t := s.tileAt n.toNat
    (∀ (f : Fmt) (sat : Bool) (d : BitVec 5) (rm : BitVec 3) (row0 : BitVec 6), s.hart.vstart = 0 →
      let hit (e : Nat) : Prop := e < s.vlen ∧ 64 * row0.toNat + e < 4096
      (∀ e, hit e → 64 * row0.toNat + e ∉ t.poison) →
      let x (e : Nat) : Nat := (tget 0 t.acc (64 * row0.toNat + e)).toNat
      let y (e : Nat) : Nat × Flags := if f = .f32 then (x e, 0) else cvt f .f32 sat (modeOf rm s.hart.rm none) (x e)
      ∃ u g, exec (.mova c f sat d n rm row0) s =
          .next (ranQueued s { s.issued.hart.flag g with v := tset [] s.hart.v d.toNat u }) ∧
        (∀ e, hit e → tget 0 u e = extElem f (y e).1) ∧ (∀ e, ¬ hit e → tget 0 u e = s.hart.rv d.toNat e) ∧
        ∀ k, g.getLsbD k = true ↔ ∃ e, hit e ∧ (y e).2.getLsbD k = true) ∧
    ∀ (f : Fmt) (a : BitVec 6) (b : Operand) (kofs : BitVec 12) bs u,
      let tk := min s.hart.tk.toNat (kmax t.wfmt)
      let tm := min s.hart.tm.toNat 64
      let tn := min s.hart.tn.toNat 64
      let nb := (tk + 31) / 32
      let A := s.hart.bindA
      let B := s.hart.bindB
      0 < tk → 0 < tm → 0 < tn →
      mmaFault f t n.toNat kofs.toNat tk nb (s.hart.rs a.toNat) (operandOf s.hart b) (s.envOf (.mma c f n a b kofs)) = none →
      readRanges (((List.range tm).map fun i => (s.hart.rs a.toNat + BitVec.ofNat 64 i * operandOf s.hart b, rowBytes f tk))
        ++ scaleRanges A tm nb ++ scaleRanges B tn nb) s.issued = .ok (bs, u) →
      let row (i : Nat) : List Fp := (List.range tk).map fun k => elemValue f (rowElem f (bs.getD i []) k)
      let col (j : Nat) : List Fp := (weightRows t kofs.toNat tk).map fun r => r.getD j (fpInt 0)
      let scaleA (i : Nat) : List Nat := if A.count = 0 then [] else (bs.getD (tm + i) []).map BitVec.toNat
      let scaleB (j : Nat) : List Nat :=
        if B.count = 0 then [] else (bs.getD ((if A.count = 0 then tm else 2 * tm) + j) []).map BitVec.toNat
      let r (i j : Nat) : Nat × Flags :=
        mmaElem nb (row i) (col j) (scaleA i) (scaleB j) (tget 0 t.acc (64 * i + j)).toNat
      ∃ acc g, exec (.mma c f n a b kofs) s =
          .next (((u.modTile n.toNat fun _ => { t with acc := acc })).onH (Hart.flag g)) ∧
        (∀ i j, j < 64 → tget 0 acc (64 * i + j) =
          if i < tm ∧ j < tn then BitVec.ofNat 32 (r i j).1 else tget 0 t.acc (64 * i + j)) ∧
        ∀ k, g.getLsbD k = true ↔ ∃ i < tm, ∃ j < tn, (r i j).2.getLsbD k = true

/-! ## Atomics and synchronisation -/

/-- amo delivers the old value and stores the new one, a compare-and-exchange only where the old value is the expected one;
vamo performs one read-modify-write for each distinct address, in the order of their first elements, with the combined operand
of the elements there, at the home slices where vathr or a page asks for that (R252, R255 to R257). What an access at the home
slices does to a line that is dirty in a stash is the model's choice (log 102): the line stays dirty and its home bytes change
too. That vathr is one register of the core is log 123 (DEDUCED). -/
def Obligations.Atomics : Prop :=
  (∀ (c : Ctl) (op : BitVec 3) (sc : Scope) (f : Fmt) (d : Operand) (a : BitVec 6) (b : Operand) (disp : BitVec 13)
      (s : State) (y : Word) (h : Hart) (acc : Acc),
    s.hart.guard c = true → takeS b s.hart = some (y, h) →
    let u : State := { s with hart := h }
    let i := Instr.amo c op sc f d a b disp
    let w := f.width
    u.check u.agent ⟨s.hart.rs a.toNat + disp.signExtend 64, w / 8, .rmw, false, true⟩ = .ok acc →
    let old := fmtRead f (leNat (u.bytesAt acc))
    let v := (opnd f false Mods.none y).1
    let expected : Int := match d with | .s n _ => (opnd f false Mods.none (s.hart.rs n.toNat)).1 | _ => 0
    let new : Int := match op.toNat with
      | 0 => old + v
      | 1 => min old v
      | 2 => max old v
      | 3 => (wrapNat w old &&& wrapNat w v : Nat)
      | 4 => (wrapNat w old ||| wrapNat w v : Nat)
      | 5 => (wrapNat w old ^^^ wrapNat w v : Nat)
      | _ => v
    ((op = 7 → old = expected) → u.logFull (State.recordAddrs acc) = none →
      Delivers i s (u.storeAt (recordOf 1 s) acc (leBytes (w / 8) (wrapNat w new))) d (ext f old)) ∧
    (op = 7 → old ≠ expected → Delivers i s (u.loadAt u.hart.holder acc).2 d (ext f old))) ∧
  ∀ (c : Ctl) (op : BitVec 3) (sc : Scope) (f : Fmt) (d : BitVec 5) (a : BitVec 6) (b : BitVec 5) (msk : Bool)
      (mn : BitVec 3) (scaled si : Bool) (s : State) (acc : Word → Acc),
    Issues c s → s.hart.vstart = 0 →
    let i := Instr.vamo c op sc f d a b msk mn scaled si
    let es := (List.range s.vlen).filter (active s.hart msk mn 1)
    let ea (e : Nat) : Word := s.hart.rs a.toNat
      + (if si then (s.hart.rv b.toNat e).signExtend 64 else (s.hart.rv b.toNat e).setWidth 64)
        * BitVec.ofNat 64 (if scaled then 4 else 1)
    (∀ e ∈ es, s.issued.check s.issued.agent ⟨ea e, 4, .rmw, true, true⟩ = .ok (acc (ea e))) →
    let groups := (es.map ea).eraseDups.map fun x =>
      (x, (es.filter fun e => decide (ea e = x)).map fun e => (s.hart.rv d.toNat e).toNat)
    s.issued.logFull (groups.flatMap fun g => State.recordAddrs (acc g.1)) = none →
    let div := (s.coreAt s.coreNo).vathr.toNat
    let home : Prop := div = 0 ∨ s.vlen / div < groups.length ∨ ∃ g ∈ groups, ∃ p ∈ (acc g.1).chunks, p.attr ≠ 0
    let performs (place : Acc → Acc) : Prop := exec i s =
      .next (groups.foldl (fun (u : State) g => amoOne f op.toNat (s.envOf i) (place (acc g.1)) g.2 u) s.issued)
    (home → performs Acc.atHome) ∧ (¬ home → performs id)

/-- The named barriers: bar.init sets the counts, bar.arrive and bar.expect count and complete the phase once nothing is
outstanding, bar.wait ends once the phase differs from its token, and bar.test reads the barrier; communication registers of the
cluster that the partition owns, a fence, and a wait that ends when its word satisfies the relation (R259, R261, R262, R265 to
R268). By log 42 (DEDUCED) a context without a launch is owner 0, as which it initialises and uses barriers. -/
def Obligations.BarriersAndSemaphores : Prop :=
  (∀ (c : Ctl) (a b d : Operand) (s : State) (name n : Word) (h : Hart) (co k : Nat),
     s.hart.guard c = true → name.toNat < 65536 → name.toNat / 512 ≤ 96 → k = name.toNat % 512 →
     co = (if name.toNat / 512 = 0 then s.coreNo else 96 * s.clusterNo + (name.toNat / 512 - 1)) →
     let x := s.barrier co k
     let u : State := { s with hart := h }
     let sets (y : Barrier) : State := u.setBarrier co k y
     let checked (y : Barrier) : Barrier :=
       if y.arr = 0 ∧ y.pend = 0 then { y with phase := y.phase + 1, arr := y.count } else y
     let usable : Prop := x.count ≠ 0 ∧ x.owner = s.ownerTag
     let fits : Prop := n.toNat < 2 ^ 35 ∧ x.pend.toInt + n.toNat < 2 ^ 35
     (Sources a b s.hart name n h → (x.owner = s.ownerTag ∨ s.ownerRuns x.owner = false) → n.toNat ≤ 4095 →
       exec (.barInit c a b) s = .next (completed (sets ⟨n.setWidth 12, n.setWidth 12, 0, x.phase,
         if n.setWidth 12 = (0 : BitVec 12) then x.owner else s.ownerTag⟩) h)) ∧
     (Sources a b s.hart name n h → usable → fits → x.arr ≠ 0 →
       Delivers (.barArrive c d a b) s
         (sets (checked { x with pend := x.pend + n.setWidth 36, arr := x.arr - 1 })) d (x.phase.setWidth 64)) ∧
     (Sources a b s.hart name n h → usable → fits → exec (.barExpect c a b) s =
       .next (completed (sets (checked { x with pend := x.pend + n.setWidth 36 })) h)) ∧
     (Sources a b s.hart name n h → usable → x.phase ≠ n.setWidth 16 →
       exec (.barWait c a b) s = .next (completed u h)) ∧
     (takeS a s.hart = some (name, h) → usable →
       Delivers (.barTest c d a) s u d (x.phase ++ x.arr ++ x.pend))) ∧
  (∀ (c : Ctl) (a b d : Operand) (s : State) (x y : Word) (h : Hart), s.hart.guard c = true →
     let cl := s.clusterAt s.clusterNo
     let u : State := { s with hart := h }
     let becomes (cl' : Cluster) : State := completed (u.modCluster s.clusterNo fun _ => cl') h
     let n := x.toNat % 256
     (cl.crEn = true → cl.crPid = s.hart.pid →
       (takeS a s.hart = some (x, h) → cl.sem.getLsbD n = false →
         (∀ r, (cl.wait.find? fun r => r.bit == n) = some r → r.hart = s.cur) →
         exec (.semTas c a) s = .next (becomes { cl with
           sem := cl.sem ||| 1#256 <<< n
           wait := cl.wait.filter fun r => !(r.bit == n && r.hart == s.cur) })) ∧
       (takeS a s.hart = some (x, h) →
         exec (.semClr c a) s = .next (becomes { cl with sem := cl.sem &&& ~~~(1#256 <<< n) })) ∧
       (takeS a s.hart = some (x, h) → Delivers (.crLd c d a) s u d (tget 0 cl.cr (x.toNat % 64))) ∧
       (Sources a b s.hart x y h →
         exec (.crSt c a b) s = .next (becomes { cl with cr := tset 0 cl.cr (x.toNat % 64) y }))) ∧
     (¬ (cl.crEn = true ∧ cl.crPid = s.hart.pid) → takeS a s.hart = some (x, h) →
       exec (.semClr c a) s = .next (s.takeTrap ⟨.protection, BitVec.ofNat 64 n⟩)) ∧
     (∀ (dir : BitVec 2) (sc : Scope), exec (.fnc c dir sc) s = .next (completed s { s.hart with
       fence := if dir = 1 ∨ dir = 3 then s.hart.vseq else s.hart.fence
       vfence := if dir = 2 ∨ dir = 3 then s.hart.vseq else s.hart.vfence
       sfence := if dir = 0 ∨ dir = 3 then s.hart.vseq else s.hart.sfence })) ∧
     ∀ (r : Rel) (nat : Bool) (ra : SSrc) (sc : Scope) (w32 : Bool) (bs : List Byte) (t : State),
       takeS b s.hart = some (y, h) →
       u.load (s.hart.src ra) (if w32 then 4 else 8) false true = .ok (bs, t) →
       let v : Word := if w32 && !nat then BitVec.ofInt 64 (signedOf 32 (leNat bs)) else BitVec.ofNat 64 (leNat bs)
       relHolds64 r nat v (full64 false b.mods y).1 = true → Delivers (.wait c r nat d ra b sc w32) s t d v)

/-! ## Ports, lanes, slots and loops -/

/-- push appends a word to the command of its port pair, whose last word delivers it and records it where its engine writes
memory; pop and peek give the oldest result, qlen a count and cpwp a copy's progress (R274 to R276, R280 to R282, R423). The
KIND 5 record has ADDR 0 and is made for an OPC that the engine accepts alone (log 49). -/
def Obligations.EnginePorts : Prop :=
  (∀ (c : Ctl) (d b : Operand) (k : BitVec 3) (s : State) (x : Word) (h : Hart) (e : Engine),
    s.hart.guard c = true → s.hart.engine k.toNat = some e → takeS b s.hart = some (x, h) →
    let p := h.port k.toNat
    let words := p.part ++ [x]
    let seq : BitVec 32 := if p.part = [] then h.eseq else p.pseq
    let len := (words.headD 0).toNat % 256
    let g : Hart := { h with eseq := if p.part = [] then h.eseq + 1 else h.eseq }
    (p.part = [] → 1 ≤ len ∧ len ≤ 16) → p.used < 32 → s.appendHeld 1 = false →
    (words.length < len → Delivers (.push c d k b) s
      { s with hart := g.modPort k.toNat fun p => { p with part := words, pseq := seq } } d (seq.setWidth 64)) ∧
    (len ≤ words.length →
      let writes := e.accepts ((words.headD 0).toNat / 256 % 256)
      let u : State := { s with hart := g.modPort k.toNat fun p => { p with part := words, pseq := seq } }
      (writes = true → u.noRoom 1 = false) →
      let u' := if writes && u.logged then
          u.append ⟨0, 0, 0, 5, 0, pcWord s.hart.pc 0, 0x4000000000000000 ||| seq.setWidth 64, s.hart.wcur⟩ else u
      ∃ cmd : Cmd, cmd.words = words ∧ cmd.seq = seq ∧ cmd.pc = s.hart.pc ∧ cmd.level = s.hart.level ∧
        cmd.begun = false ∧ cmd.wp = 0 ∧ cmd.counted = 0 ∧ cmd.outcome = none ∧ cmd.fin = none ∧
        cmd.tgt = byteOf s.hart.eport k.toNat ∧ cmd.core = s.coreNo ∧
        Delivers (.push c d k b) s { u' with hart := u'.hart.modPort k.toNat fun p =>
          { p with part := [], cmds := p.cmds ++ [cmd], issued := seq :: p.issued } } d (seq.setWidth 64))) ∧
  (∀ (c : Ctl) (d : Operand) (k : BitVec 3) (s : State) (x : Word) (rest : List Word),
    s.hart.guard c = true → (s.hart.port k.toNat).results = x :: rest →
    Delivers (.peek c d k) s s d x ∧
    Delivers (.pop c d k) s { s with hart := s.hart.modPort k.toNat fun p => { p with results := rest } } d x) ∧
  (∀ (c : Ctl) (d : Operand) (port : BitVec 4) (s : State), s.hart.guard c = true →
    let p := s.hart.port (port.toNat % 8)
    Delivers (.qlen c d port) s s d (BitVec.ofNat 64
      (if s.hart.engine (port.toNat % 8) = none then 0 else if port.toNat < 8 then 32 - p.used else p.results.length))) ∧
  ∀ (c : Ctl) (d b : Operand) (k : BitVec 3) (s : State) (x : Word) (h : Hart) (n : Nat),
    s.hart.guard c = true → s.hart.engine k.toNat = some (.copy n) → takeS b s.hart = some (x, h) →
    Delivers (.cpwp c d k b) s { s with hart := h } d ((h.port k.toNat).pointer (x.setWidth 32))

/-- setvl renegotiates the hart's lane groups when nothing is queued or bound: the hart holds the least of its demand, its
target among the claims of its partition, and the groups that it holds or that are free; vl is the lesser of the positions asked
for and those of its groups, and positions at or above vl read zero (R164 to R166). -/
def Obligations.SetVectorLength : Prop :=
  ∀ (c : Ctl) (f : Fmt) (d b : Operand) (s : State) (req : Word) (h : Hart),
    s.hart.guard c = true → s.hart.episode = none → s.hart.vcq = [] → (∀ q, q ∈ s.hart.streams → q.2 = none) →
    takeS b s.hart = some (req, h) → Room d h →
    let pos := (req.toNat + f.pack - 1) / f.pack
    let dem := min ((pos + 63) / 64) ((s.coreAt s.coreNo).gpart s.hart.pid)
    let target := match (targets ((s.coreAt s.coreNo).gpart s.hart.pid) (s.claims dem)).find? fun k => k.h = s.hartNo with
      | some k => k.t
      | none => 0
    let g := min dem (min target (s.groups + ((s.coreAt s.coreNo).freeOf s.hart.pid).length))
    let vl := min pos (64 * g)
    g ≤ dem ∧ ∃ t, exec (.setvl c f d b) s = .next t ∧ t.hart.demand = dem ∧ t.hart.vl = BitVec.ofNat 11 vl ∧
      t.groups = g ∧ t.hart.pc = h.pc + 12 ∧ t.mem = s.mem ∧ t.hart.p = h.p ∧ t.hart.fflags = h.fflags ∧
      (∀ r < 32, ∀ e, t.hart.rv r e = if e < vl then h.rv r e else 0) ∧
      (∀ k < 8, ∀ e, t.hart.rmask k e = if e < vl then h.rmask k e else 0) ∧
      (∀ n m, d = .s n m → ∀ r, t.hart.rs r =
        if r = n.toNat ∧ r ≠ 0 then BitVec.ofNat 64 (min req.toNat (f.pack * vl)) else h.rs r)

/-- vfetch of the control thread starts an episode of the elements that take part, and none where there are none; a vfetch of
a block sends each virtual processor of its group to the block that it names or on; a vpret of the block ends it for the
virtual processors of its group, and the episode with the last of them; vpret of the control thread raises Vector Thread Fault
1, which its entry of the queue holds, also behind queued work; farm.next claims the next strip, or delivers all ones when the
farm is done (R174 to R180). An older access of the other stream that can go on does so first (R172; log 132, DEDUCED). That
its vpret is a queued trap is log 83. -/
def Obligations.Strips : Prop :=
  (∀ (c : Ctl) (m : Option (BitVec 3)) (disp : BitVec 32) (s : State), Issues c s → s.hart.vstart = 0 →
    let es := (List.range s.vlen).filter fun e => match m with | some k => mbit s.hart k.toNat 1 e | none => true
    exec (.vfetch c m disp) s = .next (if es = [] then s.issued else ranQueued s { s.issued.hart with
      episode := some ⟨s.envOf (.vfetch c m disp), es.map fun e => (e, s.hart.pc + BitVec.ofInt 57 disp.toInt), [], 0, 0,
        s.hart.pc⟩ })) ∧
  (∀ (c : Ctl) (s : State), Issues c s →
    exec (.vpret c) s = .next (ranQueued s { s.issued.hart with
      vcq := [⟨s.hart.pc, .vpret c, s.envOf (.vpret c), some (⟨.vectorThread, 1⟩, 0), false⟩] })) ∧
  (∀ (c : Ctl) (s : State), s.hart.guard c = true → s.hart.vqf = false → s.vectorIdle = false →
    s.hart.vcq.length < Config.commandQueueDepth →
    exec (.vpret c) s = .next (ranQueued s { s.issued.hart with
      vcq := s.hart.vcq ++ [⟨s.hart.pc, .vpret c, s.envOf (.vpret c), none, false⟩] })) ∧
  (∀ (c : Ctl) (s : State) (e : VEntry) (es : List VEntry), s.hart.run = .running → s.hart.vqf = false →
    s.hart.hold = false → s.hart.episode = none → s.hart.vcq = e :: es → e.instr = .vpret c → e.trap = none →
    settledFor s.hart e = true →
    ∃ t, s.vectorStep = some t ∧ t.mem = s.mem ∧
      t.hart.vcq = { e with trap := some (⟨.vectorThread, 1⟩, 0) } :: es) ∧
  (∀ (c : Ctl) (ep : Episode) (s u : State) (bs : List Byte),
    s.hart.run = .running → s.hart.vqf = false → s.hart.hold = false → s.hart.episode = some ep → ep.group ≠ [] →
    s.olderRun ep = none →
    (s.atLevel ep.env.level).fetch ep.at_ = .ok (bs, u) → decode (BitVec.ofNat 96 (leNat bs)) = .ok (.vpret c) →
    ({ s.hart with p := ep.env.p } : Hart).guard c = true →
    let left := ep.pcs.filter fun p => !ep.group.contains p.1
    ∃ t, s.vectorStep = some t ∧ t.mem = s.mem ∧ t.hart.s = s.hart.s ∧ t.hart.v = s.hart.v ∧ t.hart.pc = s.hart.pc ∧
      t.hart.episode = if left = [] then none else some { ep with pcs := left, group := [] }) ∧
  (∀ (c : Ctl) (m : Option (BitVec 3)) (disp : BitVec 32) (ep : Episode) (s u : State) (bs : List Byte),
    s.hart.run = .running → s.hart.vqf = false → s.hart.hold = false → s.hart.episode = some ep → ep.group ≠ [] →
    s.olderRun ep = none →
    ep.pcs ≠ [] → (s.atLevel ep.env.level).fetch ep.at_ = .ok (bs, u) →
    decode (BitVec.ofNat 96 (leNat bs)) = .ok (.vfetch c m disp) →
    ({ s.hart with p := ep.env.p } : Hart).guard c = true →
    let goes (e : Nat) : Addr :=
      if (match m with | some k => mbit s.hart k.toNat 1 e | none => true) then ep.at_ + BitVec.ofInt 57 disp.toInt
      else ep.at_ + 12
    ∃ t, s.vectorStep = some t ∧ t.mem = s.mem ∧ t.hart.s = s.hart.s ∧ t.hart.v = s.hart.v ∧ t.hart.pc = s.hart.pc ∧
      t.hart.episode = some { ep with
        pcs := ep.pcs.map fun p => if ep.group.contains p.1 then (p.1, goes p.1) else p
        group := [] }) ∧
  ∀ (c : Ctl) (d : BitVec 6) (m : BitVec 3) (r : BitVec 5) (s : State) (l : Launch),
    Issues c s → s.hart.vstart = 0 → s.myLaunch = some l → l.farm = true → 0 < s.vlen →
    (l.fhi.toNat ≤ l.next.toNat → l.pool = [] → exec (.farmNext c d m r) s =
      .next (ranQueued s (s.issued.hart.ws d.toNat (BitVec.allOnes 64)))) ∧
    (l.next.toNat < l.fhi.toNat → l.pool.length < 8 → l.bitmap = false → l.compact = false →
      let len := min s.vlen (l.fhi.toNat - l.next.toNat)
      ∃ mask vec, exec (.farmNext c d m r) s = .next ({ s.modLaunch l.seq fun l => { l with
            next := l.next + BitVec.ofNat 64 len } with hart := { s.issued.hart.ws d.toNat (l.next - l.flo) with
              m := tset [] s.hart.m m.toNat mask, v := tset [] s.hart.v r.toNat vec } }) ∧
        (∀ e, (tget 0 mask e : Byte) = if e < len then 0xFF else 0) ∧
        ∀ e, tget 0 vec e = if e < s.vlen then BitVec.ofNat 32 ((l.next - l.flo).toNat + e) else s.hart.rv r.toNat e)

/-- Claims of tile slots: a slot that the context holds already, or that is free and admits its class, is granted; treq.pool
delivers 1, or 0 where the slot is held by another; trel frees a slot, and a doff routine returns with its outcome to where the
hart was (R331, R334, R335, R341). -/
def Obligations.TileClaims : Prop :=
  ∀ (c : Ctl) (n : BitVec 2) (s : State), s.hart.guard c = true →
    let co := s.coreAt s.coreNo
    let granted (cls : TileClass) (doff : Addr) : State := s.modCore s.coreNo fun co =>
      co.setTile n.toNat ⟨some (s.hart.key s.cur), cls, doff, [], [], [], [], .i8, none⟩
    let reserved := co.tres.getLsbD (9 * n.toNat + 8) = true
    let free := (co.tile n.toNat).holder = none ∧ ∀ r ∈ co.recalls, r.slot ≠ n.toNat
    (s.holds n.toNat = true →
      exec (.treqFixed c n) s = .next (completed s s.hart) ∧
      (∀ disp, exec (.treqNeg c n disp) s = .next (completed s s.hart)) ∧
      ∀ a disp, exec (.treqPool c n a disp) s = .next (completed s (s.hart.ws a.toNat 1))) ∧
    (free → s.hart.dAct = false →
      (reserved → co.tres.extractLsb' (9 * n.toNat) 8 = s.hart.pid →
        exec (.treqFixed c n) s = .next (completed (granted .fixed 0) s.hart)) ∧
      (¬ reserved →
        (∀ disp, exec (.treqNeg c n disp) s =
          .next (completed (granted .negotiated (s.hart.pc + BitVec.ofInt 57 disp.toInt)) s.hart)) ∧
        ∀ a disp, exec (.treqPool c n a disp) s =
          .next (completed (granted .pool (s.hart.pc + BitVec.ofInt 57 disp.toInt)) (s.hart.ws a.toNat 1)))) ∧
    (∀ k a disp, ¬ reserved → s.hart.dAct = false → (co.tile n.toNat).holder = some k → k ≠ s.hart.key s.cur →
      exec (.treqPool c n a disp) s = .next (completed s (s.hart.ws a.toNat 0))) ∧
    (s.holds n.toNat = false → exec (.trel c n) s = .next (completed s s.hart)) ∧
    (s.holds n.toNat = true → s.hart.vcq = [] →
      exec (.trel c n) s = .next (completed (s.modCore s.coreNo (Core.freeTile n.toNat)) s.hart)) ∧
    (s.hart.dAct = true → s.hart.vcq = [] → s.hart.episode = none →
      let back (last : BitVec 2) (h : Hart) : Hart := { h with
        dLast := last, dLslot := h.dSlot, dAct := false, vstart := h.dSvst, pc := BitVec.ofNat 57 (4 * (h.tdpc.toNat / 4))
        waiting := none }
      let freed : State := if s.holds s.hart.dSlot.toNat then
        s.modCore s.coreNo (Core.freeTile s.hart.dSlot.toNat) else s
      exec (.doffretFinished c) s = .next { freed with hart := back 1 s.hart } ∧
      exec (.doffretSummarised c) s = .next { freed with hart := back 2 s.hart } ∧
      let g := s.hart.forget s.pkg.time
      (g.dNref ≠ 3 → (∀ r, headOf s.hart.dSlot.toNat co.recalls = some r → r.key ≠ none) →
        ∃ cores, exec (.doffretRefused c) s = .next { s with
          cores := cores
          hart := back 3 { g with refusals := g.refusals ++ [s.pkg.time], dNref := g.dNref + 1 } }))

/-- zloop runs a body over the tuples of its descriptor. The descriptor gives the counts, the stepped registers and their
strides; the registers' values before the loop are their bases; the first pass has every index 0, and a loop of which a count is
0 is skipped. A register of the loop is its base plus the sum of index times stride. At the end of its body a loop goes back to
it with the next tuple, index 0 fastest, and ends after the last tuple (R284, R285, R287). By log 52 (DEDUCED) a register number
above 63 is a bad descriptor as 0 is, and by log 97 (DESIGN CHOICE) a nest that a handler begins replaces the one it
interrupted. -/
def Obligations.LoopNests : Prop :=
  (∀ (c : Ctl) (a : BitVec 6) (len1 : BitVec 4) (s t : State) (d : List Byte),
    s.hart.guard c = true → s.hart.dAct = false → (s.hart.rs a.toNat).toNat % 64 = 0 →
    s.load (s.hart.rs a.toNat) 128 true false = .ok (d, t) → d.length = 128 →
    let u32 (k : Nat) : Nat := leNat ((d.drop k).take 4)
    let nd := u32 0 % 8
    let nr := u32 0 / 8 % 8
    let reg (i : Nat) : Nat := (d.getD (4 + i) 0).toNat
    let count (k : Nat) : Nat := u32 (8 + 4 * k)
    let start := s.hart.pc + 12
    let stop := start + BitVec.ofNat 57 (12 * (len1.toNat + 1))
    let ok : Prop := 1 ≤ nd ∧ nd ≤ 6 ∧ nr ≤ 4 ∧ u32 0 < 64 ∧ (∀ i < 4, if i < nr then 1 ≤ reg i ∧ reg i ≤ 63 else reg i = 0) ∧
      ∀ i < nr, ∀ j < i, reg i ≠ reg j
    (¬ ok → exec (.zloop c a len1) s = .next (s.takeTrap ⟨.loopNest, 1⟩)) ∧
    (ok → (∃ k < nd, count k = 0) →
      exec (.zloop c a len1) s = .next { t with hart := { t.hart with pc := stop, waiting := none } }) ∧
    (ok → (∀ k < nd, count k ≠ 0) → (s.hart.vcq = [] ∨ s.hart.vqf = true) → ∃ z : ZLoop,
      z.regs = (List.range nr).map reg ∧ z.base = (List.range nr).map (fun i => s.hart.rs (reg i)) ∧
      z.counts = (List.range nd).map count ∧
      z.strides = (List.range nr).map (fun i => (List.range nd).map fun k =>
        (BitVec.ofNat 32 (u32 (32 + 24 * i + 4 * k))).toInt) ∧
      z.idx = List.replicate nd 0 ∧ z.start = start ∧ z.stop = stop ∧
      exec (.zloop c a len1) s = .next (completed t { z.setRegs t.hart with zloop := some z, pc := s.hart.pc }))) ∧
  (∀ (z : ZLoop) (h : Hart), z.regs.Nodup → (∀ r ∈ z.regs, r ≠ 0) → z.regs.length = z.base.length →
    z.regs.length = z.strides.length →
    (∀ j < z.regs.length, (z.setRegs h).rs (z.regs.getD j 0) = z.base.getD j 0
      + BitVec.ofInt 64 ((z.idx.zip (z.strides.getD j [])).map fun q => (q.1 : Int) * q.2).sum) ∧
    ∀ r, r ∉ z.regs → (z.setRegs h).rs r = h.rs r) ∧
  (∀ (s : State) (z : ZLoop), s.hart.zloop = some z →
    let n := z.counts.length
    let legal (x : List Nat) : Prop := x.length = n ∧ ∀ k < n, x.getD k 0 < z.counts.getD k 0
    let place (x : List Nat) : Nat := ((List.range n).map fun k => x.getD k 0 * (z.counts.take k).prod).sum
    (s.hart.pc ≠ z.stop → s.loopBack = s) ∧
    (s.hart.pc = z.stop → legal z.idx → place z.idx + 1 < z.counts.prod → ∃ x t, legal x ∧ place x = place z.idx + 1 ∧
      s.loopBack = t ∧ (s.hart.vcq = [] → t.hart.vcq = []) ∧
      t = { s with hart := { ({ z with idx := x } : ZLoop).setRegs s.hart with
        zloop := some { z with idx := x }, pc := z.start, vcq := t.hart.vcq } }) ∧
    (s.hart.pc = z.stop → legal z.idx → ¬ place z.idx + 1 < z.counts.prod →
      s.loopBack = { s with hart := { s.hart with zloop := none } })) ∧
  ∀ (i : Instr) (pre post : State), pre.hart.inNest pre.hart.pc = true → post.cur = pre.cur → post.hart.waiting = none →
    post.hart.run = .running → post.hart.inh = pre.hart.inh → post.hart.dAct = pre.hart.dAct →
    ∃ u : State, afterInstr i pre post = u.loopBack ∧ u.mem = post.mem ∧ u.hart.s = post.hart.s ∧
      u.hart.pc = post.hart.pc ∧ u.hart.zloop = post.hart.zloop

/-- lprec marks a loop and begins its training, or its plain run where it has no iteration or is stepped; lpend goes back to the
body while iterations remain and the loop trains no more, and otherwise past its end, also where a loop ends within its
training; lpjoin without a loop mark does nothing, ends a loop in training, that runs plain or that is resumed, and takes back a
replay that has finished or departed: carried registers get their values at the iteration it reached, an affine one its base
plus that number of steps, body registers those of the snapshot, and every other keeps its own (R309 to R311, R319, R320). -/
def Obligations.LoopMarks : Prop :=
  ∀ (c : Ctl) (s : State), s.hart.guard c = true → s.hart.dAct = false →
    (∀ (d : BitVec 6) (a : Option (BitVec 6)) (len : BitVec 14) (nc : BitVec 2) (k0 k1 k2 k3 tr : BitVec 3),
      s.hart.mark.state = .none →
      let n := s.hart.rs d.toNat
      let body := s.hart.pc + 12
      let last := body + BitVec.ofNat 57 (12 * len.toNat)
      ∃ m cause, exec (.lprec c d a len nc k0 k1 k2 k3 tr) s = .next { s with hart := { s.hart with
          mark := m, lpcause := cause, lpdetail := 0, waiting := none, pc := if n = 0 then last + 12 else body } } ∧
        m.n = n ∧ m.it = 0 ∧ m.prec = s.hart.pc ∧ m.body = body ∧ m.endA = last ∧
        m.t = (if tr = 0 then 3 else tr.toNat) ∧
        (n = 0 → m.state = .plain ∧ cause = 4) ∧
        (n ≠ 0 → s.hart.estep = true → m.state = .plain ∧ cause = 6) ∧
        (n ≠ 0 → s.hart.estep = false → hasBrk s body len.toNat = false → m.state = .training ∧ cause = 0)) ∧
    (∀ m, s.hart.mark = m → s.hart.pc = m.endA → (m.state = .plain ∨ m.state = .resumed) →
      (m.it + 1 < m.n → exec (.lpend c) s = .next { s with hart := { s.hart with
        mark := { m with it := m.it + 1, guard := c.p.toNat }, pc := m.body, waiting := none } }) ∧
      (¬ m.it + 1 < m.n → ∃ m', exec (.lpend c) s = .next { s with hart := { s.hart with
        mark := m', pc := if m.state = .resumed then m.joinA + 12 else m.endA + 12, waiting := none } } ∧
        (m.state = .resumed → m' = Mark.reset) ∧ (m.state = .plain → m' = { m with it := m.it + 1 }))) ∧
    (∀ m, s.hart.mark = m → s.hart.pc = m.endA → m.state = .training → m.it + 1 < m.n →
      let now := (List.range m.kinds.length).map fun j => s.hart.rs (m.first + j)
      let m' : Mark := { m with it := m.it + 1, guard := c.p.toNat, starts := m.starts ++ [now] }
      ((m.it + 1).toNat ≠ m.t →
        exec (.lpend c) s = .next { s with hart := { s.hart with mark := m', pc := m.body, waiting := none } }) ∧
      ((m.it + 1).toNat = m.t → s.quiet = true →
        ∃ t, exec (.lpend c) s = .next t ∧ t.mem = s.mem ∧ t.hart.s = s.hart.s ∧
          (confirm { s with hart := { s.hart with mark := m' } } = none →
            t.hart.mark.state = .replaying ∧ t.hart.mark.next = m.it + 1 ∧ t.hart.pc = m.endA + 12) ∧
          (∀ cause detail, confirm { s with hart := { s.hart with mark := m' } } = some (cause, detail) →
            t.hart.mark.state = .plain ∧ t.hart.lpcause = cause ∧ t.hart.lpdetail = detail ∧ t.hart.pc = m.body))) ∧
    (∀ m, s.hart.mark = m → s.hart.pc = m.endA → m.state = .training → ¬ m.it + 1 < m.n →
      exec (.lpend c) s = .next { s with hart := { s.hart with
        mark := { m with it := m.it + 1, state := .plain, trace := [] }
        lpcause := 4, lpdetail := 0, pc := m.endA + 12, waiting := none } }) ∧
    (s.quiet = true →
      (s.hart.mark.state = .none → exec (.lpjoin c) s = .next (completed s s.hart)) ∧
      (s.hart.mark.state = .plain → exec (.lpjoin c) s =
        .next (completed s { s.hart with lpix := s.hart.mark.it, mark := Mark.reset })) ∧
      (s.hart.mark.state = .resumed → exec (.lpjoin c) s =
        .next (completed s { s.hart with lpix := s.hart.mark.it, mark := Mark.reset })) ∧
      (s.hart.mark.state = .training → exec (.lpjoin c) s = .next (completed s { s.hart with
        lpix := s.hart.mark.it, lpcause := 3, lpdetail := 0, mark := Mark.reset })) ∧
      (s.hart.mark.state = .replaying → ∀ x, s.hart.mark.replay = x → x ≠ .running →
        let m := s.hart.mark
        let ended := if x = .finished then m.n else m.next
        let snapped (r : Nat) : Prop := ∃ v, (r, v) ∈ m.snap.s
        let carries (r : Nat) : Prop := ∃ j < m.kinds.length, r = m.first + j
        ∃ t, exec (.lpjoin c) s = .next t ∧ t.mem = s.mem ∧ t.hart.waiting = none ∧
          (∀ j < m.kinds.length, 0 < m.first + j → ¬ snapped (m.first + j) → t.hart.rs (m.first + j) =
            if m.kinds.getD j 0 = 0 then m.base.getD j 0 + ended * m.delta.getD j 0 else tget 0 m.regs.s (m.first + j)) ∧
          (m.snap.s.Pairwise (fun a b => a.1 ≠ b.1) → ∀ r v, 0 < r → (r, v) ∈ m.snap.s → t.hart.rs r = v) ∧
          (∀ r, ¬ snapped r → ¬ carries r → t.hart.rs r = s.hart.rs r) ∧
          t.hart.fflags = s.hart.fflags ||| s.hart.mark.flags ∧
          (x = .finished → t.hart.mark = Mark.reset ∧ t.hart.lpcause = 1 ∧ t.hart.lpdetail = 0 ∧
            t.hart.lpix = s.hart.mark.n ∧ t.hart.pc = s.hart.pc + 12) ∧
          ∀ cause detail, x = .departed cause detail → t.hart.mark.state = .resumed ∧
            t.hart.mark.joinA = s.hart.pc ∧ t.hart.mark.it = s.hart.mark.next ∧ t.hart.lpcause = cause ∧
            t.hart.lpdetail = detail ∧ t.hart.lpix = s.hart.mark.next ∧ t.hart.pc = s.hart.mark.body))

/-- lnch of a well-formed packet whose ranges lie in pinned ranges of the launcher creates a launch with the next sequence
number and the identifier freed least recently, and delivers that number; ipurge waits for earlier writes, and then every
instruction cache drops the frames of the pages that its range touches, in the hart's translation; a length of 0 drops none
(R374, R379). -/
def Obligations.NestedLaunches : Prop :=
  ∀ (c : Ctl) (s : State), s.hart.guard c = true → s.hart.episode = none →
    (∀ (d : Operand) (a : BitVec 6) (p : List Byte) (t : State) (id : BitVec 12) (ids : List (BitVec 12)),
      s.hart.vcq = [] → s.hart.dAct = false → (s.hart.rs a.toNat).toNat % 64 = 0 →
      loadBytes ((List.range 256).map fun k => s.hart.rs a.toNat + BitVec.ofNat 64 k) s = .ok (p, t) →
      pf p 0 1 = 1 → packetBad p = none →
      strayRange (match s.myLaunch with | some l => l.ranges | none => []) (packetRanges p) = none →
      s.pkg.cids = id :: ids → (∀ l ∈ s.launches, l.seq ≠ s.pkg.seqCount + 1) →
      (s.launches.filter fun l => l.pid == s.hart.pid && l.queue.isNone).length < 64 → s.journalHeld = false →
      Room d s.hart →
      ∃ u l, exec (.lnch c d a) s = .next u ∧
        putS d (s.pkg.seqCount + 1) s.hart = some { u.hart with pc := s.hart.pc, waiting := s.hart.waiting } ∧
        u.hart.pc = s.hart.pc + 12 ∧ u.pkg.seqCount = s.pkg.seqCount + 1 ∧ u.pkg.cids = ids ∧ l ∈ u.launches ∧
        l.seq = s.pkg.seqCount + 1 ∧ l.cid = some id ∧ l.pid = s.hart.pid ∧ l.queue = none ∧ l.entry = pw p 8 ∧
        l.param = pw p 16 ∧ l.harts = pf p 24 4 ∧ l.pri = max (pf p 30 1) (s.prioOf s.hart.launch) ∧
        (l.st = .leasing ∨ l.st = .ready)) ∧
    ∀ (a : BitVec 6) (b : Operand) (x : Word) (h : Hart), takeS b s.hart = some (x, h) →
      let n := min x.toNat (2 ^ 32)
      let base := s.hart.rs a.toNat
      ((∃ e ∈ s.hart.vcq, writesMem e.instr = true) → exec (.ipurge c a b) s = .next (s.await (.ipurge c a b))) ∧
      ((∀ e ∈ s.hart.vcq, writesMem e.instr = false) → s.purgeHeld s.agent base n = false →
      ∃ words, exec (.ipurge c a b) s = .next { completed s h with icache := words } ∧ (∀ w ∈ words, w ∈ s.icache) ∧
        (n = 0 → words = s.icache) ∧
        ∀ p ∈ blocks (n / 4096 + 2) base n, ∀ m core e, s.window s.agent p.1 = some (m, core) →
          (s.lookup s.agent.cache s.hart.pid m).1 = .leaf e → ∀ w ∈ words,
          w.pa / 65536 ≠ (e.pa + (m.toNat % 2 ^ 57 - e.va)) / 65536)

/-- getsr delivers a system register and putsr writes its fields; either is turned away below the level of its index, and a
user-level write but for vstart, vfmt, fflags and srseed; a read of what queued work writes waits for that work, but for the
vstart of a frozen queue (log 28); what is written to a register's fields reads back, once earlier work leaves vstart and srseed
(R40, R64, R92 to R95). -/
def Obligations.SystemRegisters : Prop :=
  ∀ (c : Ctl) (d a : Operand) (idx : BitVec 12) (s : State) (x : Word) (h : Hart), s.hart.guard c = true →
    let i := idx.toNat
    let below : Prop := (0x200 ≤ i ∧ s.hart.level = .user) ∨ (0x800 ≤ i ∧ s.hart.level ≠ .management)
    let user : Prop := s.hart.level = .user ∧ ¬ (1 ≤ i ∧ i ≤ 4)
    (below → exec (.getsr c d idx) s = .next (s.takeTrap ⟨.privilege, idx.setWidth 64⟩)) ∧
    let settled : Prop := i ∈ [0x001, 0x003, 0x004] → s.quiet = true ∨ (s.hart.vqf = true ∧ i = 0x001)
    (¬ below → settled → Delivers (.getsr c d idx) s s d (readSr s idx)) ∧
    (¬ below → ¬ settled → exec (.getsr c d idx) s = .next (s.await (.getsr c d idx))) ∧
    (below ∨ user → exec (.putsr c idx a) s = .next (s.takeTrap ⟨.privilege, idx.setWidth 64⟩)) ∧
    (¬ below → ¬ user → takeS a s.hart = some (x, h) →
      ∃ t, exec (.putsr c idx a) s = .next t ∧
        (i ≠ 0x471 → i ≠ 0x472 → s.hart.run ≠ .empty → t.hart.pc = h.pc + 12) ∧
        (i ≠ 0x803 → i ≠ 0x490 → (∀ n, (s.hartAt n).sbuf = []) → t.mem = s.mem) ∧
        ∀ mask, (i = 0x001 ∨ i = 0x004 → s.quiet = true) → (i, mask) ∈
          ([(0x001, 0x1FFF), (0x002, 7), (0x003, 0x3F), (0x004, 0xFFFFFFFFFFFFFFFF), (0x008, 1), (0x009, 0xFFFFFFFF),
            (0x100, 0x7F), (0x101, 0x7F), (0x102, 0xFFF), (0x104, 0xFFFFFFFFFFFFFFFC), (0x211, 0xFC0FFFFFFFFFF000),
            (0x401, 0xFFFFFFFFFFFFFFFC), (0x402, 0xFFFFFFFFFFFFFFFF), (0x403, 0xFFFFFFFFFFFFFFFC),
            (0x405, 0x01FFFFFFFFFFFFFC), (0x406, 0xFFFFFFFFFFFFFFFF), (0x407, 0x000FFFFFFFFFF000),
            (0x408, 0xFFFFFFFF), (0x411, 0xFF), (0x412, 0x7F), (0x414, 0xFF), (0x430, 0xFFFFFFFFFFFFFFFF),
            (0x431, 0xFFFFFFFF), (0x440, 0xFFFFFFFFF), (0x451, 0xFFFFFFFF), (0x460, 0xFF), (0x469, 0xFFFFFFFFF),
            (0x480, 0xFFFFFFFFFFFFFFFF), (0x494, 0xFFFFFFFFFFFFFFFF), (0x809, 0x01FFFFFFFFFFFFFC), (0x880, 0x7F),
            (0x885, 0xFFFFFFFFFFFFFFFF), (0x891, 0xFFFF)] : List (Nat × Word)) → readSr t idx = x &&& mask)

/-! ## The package around the harts -/

/-- The host, a reachable peer and the Fjoir port read and write the device memory that its owners admit them to, whole and
untagged, where no home slice of theirs is stopped; a line that a stash holds dirty stays so; a refused read gets the error
completion and a refused host write is dropped; a peer's link comes up, and with its loss its cached translations go (R195,
R389, R391, R415, R436, R463). -/
def Obligations.HostAndPeers : Prop :=
  ∀ (pa : Nat) (data : List Byte) (s : State), s.rangeHeld pa data.length = false →
    let admitted (ok : BitVec 16 → Prop) : Prop :=
      ∀ k < data.length, pa + k < 2 ^ 40 ∧ ok (s.owner ((pa + k) / 65536))
    let held (d : Dirty) : Nat × Byte × BitVec 12 × Nat × Nat := (d.core, d.pid, d.cid, d.vline, d.pline)
    let wrote (i : Instr) (r : List Reply) : Prop := ∃ t, exec i s = .next t ∧ t.replies = s.replies ++ r ∧
      t.hart = s.hart ∧ t.others = s.others ∧ t.cur = s.cur ∧ t.pkg = s.pkg ∧ t.dirty.map held = s.dirty.map held ∧
      (s.pkg.migFwd = false → s.pkg.fwds = [] → t.bytes pa data.length = data ∧
        ∀ a, a < pa ∨ pa + data.length ≤ a → t.byte a = s.byte a)
    let read (i : Instr) (r : Reply) : Prop := exec i s = .next { s with replies := s.replies ++ [r] }
    let host (o : BitVec 16) : Prop := o = 1 ∨ o.toNat / 256 = 1
    let peerOk (o : BitVec 16) : Prop := o.toNat / 256 = 1 ∧ bit256 s.pkg.fpeer (o.setWidth 8) = true
    let fjoirOk (o : BitVec 16) : Prop := o = 1 ∨ (o.toNat / 256 = 1 ∧ bit256 s.pkg.fjpen (o.setWidth 8) = true)
    (admitted host →
      wrote (.hostLinkAccess true pa data) [] ∧
      read (.hostLinkAccess false pa data) (.data (s.bytes pa data.length) (s.poisoned pa data.length))) ∧
    (¬ admitted host →
      exec (.hostLinkAccess true pa data) s = .next s ∧
      exec (.hostLinkAccess false pa data) s = .next { s with replies := s.replies ++ [.error] }) ∧
    (∀ peer ∈ s.pkg.peersUp,
      (admitted peerOk → wrote (.peerAccess peer true pa data) [.done] ∧
        read (.peerAccess peer false pa data) (.data (s.bytes pa data.length) (s.poisoned pa data.length))) ∧
      (¬ admitted peerOk → ∀ w, exec (.peerAccess peer w pa data) s =
        .next { s with replies := s.replies ++ [.error] }) ∧
      ∃ t, exec (.peerLoss peer) s = .next t ∧
        t = { s with pkg := t.pkg, tlb := s.tlb.filter fun e => !(isPeer e.pa && peerOf e.pa == peer) } ∧
        t.pkg = { s.pkg with peersUp := s.pkg.peersUp.filter (· ≠ peer) }) ∧
    (∀ peer, peer < 576 → peer ∉ s.pkg.peersUp → exec (.peerLinkUp peer) s =
      .next { s with pkg := { s.pkg with peersUp := s.pkg.peersUp ++ [peer] } }) ∧
    (data.length = 8 → pa % 8 = 0 → admitted fjoirOk → ∀ tag,
      wrote (.wrmem tag pa (BitVec.ofNat 64 (leNat data))) [.fjoir tag 0 []] ∧
      read (.rdmem tag pa) (.fjoir tag 0 [BitVec.ofNat 64 (leNat (s.bytes pa 8))])) ∧
    (pa % 8 ≠ 0 → ∀ tag v,
      exec (.rdmem tag pa) s = .next { s with replies := s.replies ++ [.fjoir tag 11 []] } ∧
      exec (.wrmem tag pa v) s = .next { s with replies := s.replies ++ [.fjoir tag 11 []] })

/-- The Fjoir port on a hart that it may reach: HALT asks for a halt, and RESUME, STEP, RDREG, WRREG and RSTEP act on a halted
one; a hart that it may not reach, that holds no context, or that is not in the state that the command needs, gets STATUS 8,
12 or 1, the first of them that holds; a STEP in a stopped zone waits; writes of ltl and of lctl.LOST (R414 to R417, R427,
R463). By log 71 a HALT is answered at once, and by log 37 a STEP of an instruction that would wait leaves the hart halted
there. -/
def Obligations.DebugPort : Prop :=
  ∀ (h tag : Nat) (s : State),
    let x := s.hartAt h
    let answer (st : Byte) (ws : List Word) (t : State) : State := { t with replies := t.replies ++ [.fjoir tag st ws] }
    (∀ code : BitVec 8, code.toNat = 0 ∨ 8 < code.toNat →
      exec (.fjoirUnassignedCode code tag) s = .next (answer 9 [] s)) ∧
    (fjoirMay h s = false → exec (.fjoirHalt h tag) s = .next (answer 8 [] s) ∧
      exec (.resume h tag) s = .next (answer 8 [] s) ∧ exec (.step h tag) s = .next (answer 8 [] s) ∧
      ∀ w, exec (.rstep h tag w) s = .next (answer 8 [] s)) ∧
    (fjoirMay h s = true → h < 12288 →
      (x.run = .empty → exec (.fjoirHalt h tag) s = .next (answer 12 [] s) ∧
        exec (.resume h tag) s = .next (answer 12 [] s) ∧ exec (.step h tag) s = .next (answer 12 [] s) ∧
        ∀ w, exec (.rstep h tag w) s = .next (answer 12 [] s)) ∧
      (x.run = .running → exec (.resume h tag) s = .next (answer 1 [] s) ∧
        ∀ w, exec (.rstep h tag w) s = .next (answer 1 [] s)) ∧
      (x.run = .running ∨ (x.run = .halted ∧ x.estep = false) → exec (.step h tag) s = .next (answer 1 [] s)) ∧
      (x.run = .running → exec (.fjoirHalt h tag) s =
        .next (answer 0 [] (s.modHart h fun x => { x with haltReq := true }))) ∧
      (x.run = .halted →
        (x.lPart = false → exec (.resume h tag) s = .next (answer 0 [] (s.modHart h fun x =>
          { x.clearTraps with run := .running, hreason := 0 }))) ∧
        (x.estep = true → zoneStopped (s.focus h) = false →
          exec (.step h tag) s = .next (answer 0 [] (s.atHart h stepHart))) ∧
        (x.estep = true → zoneStopped (s.focus h) = true → exec (.step h tag) s = .next s) ∧
        (∀ idx : BitVec 12, srAssigned idx = true →
          exec (.rdreg h tag idx.toNat) s = .next (answer 0 [readSr (s.focus h) idx] s) ∧
          (srReadOnly idx = false → ∀ v, exec (.wrreg h tag idx.toNat v) s =
            .next (answer 0 [] (s.atHart h (writeSr idx v))))) ∧
        (∀ k < 64, exec (.rdreg h tag (0x1000 + k)) s = .next (answer 0 [x.rs k] s) ∧
          ∀ v, exec (.wrreg h tag (0x1000 + k) v) s = .next (answer 0 [] (s.modHart h (Hart.ws k v)))) ∧
        ∀ w, reverseHeld (s.focus h) = false → ∃ t, exec (.rstep h tag w) s =
            .next (answer (reverseStep w (s.focus h)).1 (reverseStep w (s.focus h)).2.1 t) ∧
          ((∀ m ∈ x.lMarks, m.win ≠ w) → x.mark.state = .none →
            t = (s.focus h).focus s.cur ∧ (reverseStep w (s.focus h)).1 = 2))) ∧
    (∀ u : State, (stepHart u).hart.run ≠ .running) ∧
    (∀ v, exec (.ltlWrite h v) s = .next (s.modHart h fun x =>
      if v < x.ltl ∨ x.lhd < v then x else { x with ltl := v })) ∧
    exec (.lctlLostClear h) s = .next (s.modHart h fun x => { x with lLost := false })

/-- What waits completes once it can: an instruction that issued and waits, an instruction of the queue, which has the effect
that it has when it issues to an idle queue, the trap of the oldest queued instruction, a recall, a refusal delay and the window
of refusals (R72, R170, R172, R262, R266, R268, R281, R338, R339, R341, R398). A hart of a stopped zone takes neither a trap of
its queue nor a recall (R463). By log 31 (DESIGN CHOICE) the lowest slot number of several recalls is answered, and by log 103
(DESIGN CHOICE) a recall withdraws whatever instruction waits, also treq, sync, fnc and halt, which R339 does not list. -/
def Obligations.WaitsEnd : Prop :=
  ∀ (h : Nat) (s : State),
    let x := s.focus h
    let ready (i : Instr) : Prop := x.hart.waiting = some i ∧ x.hart.run = .running ∧ zoneStopped x = false ∧
      mustWait i x = false ∧ nestFault i x = false ∧ x.hart.sbuf = [] ∧ x.hart.heldUp = false
    let ends (i e : Instr) (t : State) : Prop := exec e s = .next ((afterInstr i x t).focus s.cur)
    (∀ (c : Ctl) (a b : Operand) (name token : Word) (g : Hart) (co k : Nat), ready (.barWait c a b) →
      x.hart.guard c = true → Sources a b x.hart name token g → barrierOf x name = some (co, k) →
      (x.barrier co k).count ≠ 0 → (x.barrier co k).owner = x.ownerTag → (x.barrier co k).phase ≠ token.setWidth 16 →
      ends (.barWait c a b) (.barWaitCompletes h) (completed x g)) ∧
    (∀ (c : Ctl) (r : Rel) (nat w32 : Bool) (d b : Operand) (a : SSrc) (sc : Scope) (y : Word) (g g' : Hart)
      (bs : List Byte) (u : State), ready (.wait c r nat d a b sc w32) →
      x.hart.guard c = true → takeS b x.hart = some (y, g) →
      ({ x with hart := g } : State).load (x.hart.src a) (if w32 then 4 else 8) false true = .ok (bs, u) →
      let v : Word := if w32 && !nat then BitVec.ofInt 64 (signedOf 32 (leNat bs)) else BitVec.ofNat 64 (leNat bs)
      relHolds64 r nat v (full64 false b.mods y).1 = true → putS d v u.hart = some g' →
      ends (.wait c r nat d a b sc w32) (.waitSatisfied h) (completed u g')) ∧
    (∀ (c : Ctl) (d : Operand) (k : BitVec 3) (v : Word) (rest : List Word) (g : Hart), x.hart.guard c = true →
      (x.hart.port k.toNat).results = v :: rest →
      (ready (.peek c d k) → putS d v x.hart = some g →
        ends (.peek c d k) (.popDataArrives h) (completed x g)) ∧
      (ready (.pop c d k) → putS d v (x.hart.modPort k.toNat fun p => { p with results := rest }) = some g →
        ends (.pop c d k) (.popDataArrives h) (completed x g))) ∧
    (∀ (c : Ctl) (a : Operand) (v : Word) (g : Hart) (r : SemReq), ready (.semTas c a) → x.hart.guard c = true →
      takeS a x.hart = some (v, g) → (x.clusterAt x.clusterNo).crEn = true →
      (x.clusterAt x.clusterNo).crPid = x.hart.pid →
      let n := v.toNat % 256
      (x.clusterAt x.clusterNo).sem.getLsbD n = false →
      ((x.clusterAt x.clusterNo).wait.find? fun r => r.bit == n) = some r → r.hart = h →
      ends (.semTas c a) (.semaphoreGrant x.clusterNo n) (completed
        (({ x with hart := g } : State).modCluster x.clusterNo fun cl => { cl with
          sem := cl.sem ||| 1#256 <<< n
          wait := cl.wait.filter fun r => !(r.bit == n && r.hart == h) }) g)) ∧
    (∀ (c : Ctl) (d a : Operand) (v : Word) (g g' : Hart), ready (.mov c d a) → x.hart.guard c = true →
      takeS a x.hart = some (v, g) → putS d (swz64 a.mods.swz v) g = some g' →
      ((∃ n, Res.q n ∈ scalarReads (.mov c d a)) ∨ ∃ n, Res.q n ∈ scalarWrites (.mov c d a)) →
      ends (.mov c d a) (.queueWaitEnd h) (completed x g')) ∧
    (∀ u : State, x.hart.waiting = none → zoneStopped x = false → x.vectorStep = some u →
      (∃ e ∈ x.hart.vcq, ∃ n, Res.q n ∈ readsOf e.instr ∨ Res.q n ∈ writesOf e.instr) →
      exec (.queueWaitEnd h) s = .next (u.focus s.cur)) ∧
    (∀ (i : Instr) (t : State), ready i → exec i x = .next t → t.hart.waiting = none → t.hart.heldUp = false →
      let wakes (e : Instr) : Prop := ends i e (drainedFault x t)
      (∀ c a b, i = .barWait c a b → wakes (.barWaitCompletes h)) ∧
      (∀ c r nat d a b sc w, i = .wait c r nat d a b sc w → wakes (.waitSatisfied h)) ∧
      (∀ c d k, i = .pop c d k ∨ i = .peek c d k → wakes (.popDataArrives h)) ∧
      (∀ c a cluster bit r, i = .semTas c a → ((s.clusterAt cluster).wait.find? fun r => r.bit = bit) = some r →
        r.hart = h → wakes (.semaphoreGrant cluster bit)) ∧
      (i.ctl? ≠ none → (∃ n, Res.q n ∈ scalarReads i ++ scalarWrites i) → wakes (.queueWaitEnd h))) ∧
    (∀ (i : Instr) (c : Ctl) (t : State), i.ctl? = some c → isQueued i = true → (∀ c b n y z, i ≠ .mscale c b n y z) →
      Issues c x → x.hart.run = .running →
      let e : VEntry := ⟨x.hart.pc, i, x.envOf i, none, false⟩
      let queued : State := { x.issued with hart := { x.issued.hart with vcq := [e] } }
      mayBegin queued [] e = true → exec i x = .next t →
      (t.hart.vcq = [] → queued.vectorStep =
        some (({ t with hart := { t.hart with rm := x.hart.rm, level := x.hart.level } } : State).onH Hart.settle)) ∧
      ∀ trap k, t.hart.vcq = [{ e with trap := some (trap, k) }] → ∃ f, queued.vectorStep =
        some (({ t with hart := { t.hart with rm := x.hart.rm, level := x.hart.level, fence := f } } : State).onH Hart.settle)) ∧
    (∀ e es t k, x.hart.vcq = e :: es → e.trap = some (t, k) → x.hart.vqf = false → x.hart.run = .running →
      settleTreq x = none → zoneStopped x = false → x.terminal t = false → x.elasticTrap t = false →
      ∃ u : State, exec (.preciseVectorTrap h) s = .next (u.focus s.cur) ∧ u.mem = s.mem ∧
        u.hart.tVq = true ∧ u.hart.vqf = true ∧ u.hart.inh = true ∧ u.hart.tCause = t.cause.code ∧
        u.hart.tval = t.tval ∧ u.hart.tspc = BitVec.ofNat 64 x.hart.pc.toNat ∧
        u.hart.tpc = pcWord e.env.pc (if stoppable e.instr then granuleOf e.instr k else 0) ∧
        (stoppable e.instr = true → u.hart.vstart = BitVec.ofNat 13 k) ∧ u.hart.pprv = x.hart.level.code) ∧
    (zoneStopped x = true → exec (.preciseVectorTrap h) s = .next s ∧ exec (.doffEntry h) s = .next s) ∧
    (∀ n, x.hart.run = .running → x.hart.dAct = false → settleTreq x = none → zoneStopped x = false → x.releasing = false →
      ((List.range 4).find? x.recalled) = some n →
      ∃ u : State, exec (.doffEntry h) s = .next (u.focus s.cur) ∧ u.mem = s.mem ∧ u.hart.dAct = true ∧
        u.hart.pc = (x.tileAt n).doff ∧ u.hart.tdpc = BitVec.ofNat 64 x.hart.pc.toNat ∧ u.hart.vcq = x.hart.vcq ∧
        u.hart.episode = x.hart.episode ∧ u.hart.s = x.hart.s ∧ u.hart.v = x.hart.v ∧
        (x.hart.idle = true → x.hart.vsets = [] → x.hart.vqf = false → u.hart = { x.hart with
          waiting := none
          tdpc := BitVec.ofNat 64 x.hart.pc.toNat
          dSvst := x.hart.vstart
          vstart := 0
          dAct := true
          dSlot := BitVec.ofNat 2 n
          dIcnt := 0
          pc := (x.tileAt n).doff })) ∧
    (∀ core slot e, ((s.coreAt core).tile slot).delay = some e → e ≤ s.pkg.time →
      exec (.refusalDelayEnd core slot) s = .next (s.modCore core fun c =>
        c.setTile slot { c.tile slot with delay := none })) ∧
    (∀ t ∈ (s.hartAt h).refusals, 1000000 ≤ (s.pkg.time - t).toNat →
      ∃ u, exec (.refusalWindowExpiry h) s = .next u ∧
        (u.hartAt h).refusals = (s.hartAt h).refusals.filter fun t => (s.pkg.time - t).toNat < 1000000)

/-- The scheduler: a yield is asked for, a deadline forces a save, a saved context comes back with the registers of its area,
an identifier is given, a launch enters Ready, a rank is placed with its start state, and a launch ends (R369 to R373, R405,
R406, R410, R461); a counter latch and a watchdog expiry start their counts anew, and a reset goes on from step to step and
stops the running launches whose last hart had not halted by the expiry (R430, R444 to R446). By log 69 each later step of a
reset is a turn, by log 64 flow is granted in the order of Pkg.grants, and by log 39 a hart keeps its mtvec at a placement. -/
def Obligations.Scheduling : Prop :=
  ∀ (h seq q : Nat) (s : State),
    let x := s.hartAt h
    let asked : State := s.modHart h fun x => { x with yreq := true, ydl := x.ydef }
    (∀ l, headLaunch s x.pid = some l → canYield s l x = true → placeable l (yielded s x.pid) = false →
      (∀ n ∈ s.slots, canYield s l (s.hartAt n) = true → yieldsBefore s (s.hartAt n) x = false) →
      exec (.yieldRequest h) s = .next asked) ∧
    (x.run ≠ .empty → x.yreq = false → x.launch ≠ none → max s.pkg.sqnt.toNat 1 * max x.lwt.toNat 1 ≤ x.ticks →
      freeSlots s x.pid < readyContexts s x.pid (s.prioOf x.launch) → exec (.quantumExpiry h) s = .next asked) ∧
    (x.run = .running → x.yreq = true → x.ydl = 0 → x.dAct = false → x.inh = false → x.idle = true → x.sbuf = [] →
      x.evict = false → settleTreq (s.focus h) = none → zoneStopped (s.focus h) = false → (s.focus h).areaHeld = false →
      ∃ t k, exec (.forcedSave h) s = .next t ∧ t.saved = s.saved ++ [k] ∧
        k.reason = .forced ∧ k.spc = BitVec.ofNat 64 x.pc.toNat ∧ k.hart.s = x.s ∧ k.hart.demand = x.demand ∧
        (t.hartAt h).run = .empty) ∧
    (∀ i c, s.saved[i]? = some c → restorable s i c h = true → s.opaqueAt c.hart.area = c.opaqueCells →
      s.rangeHeld c.hart.area 0x52000 = false →
      ∃ t, exec (.contextRestore i h) s = .next t ∧ t.saved = s.saved.eraseIdx i ∧ t.mem = s.mem ∧
        (t.hartAt h).run = .running ∧
        (t.hartAt h).pc = BitVec.ofNat 57 (4 * ((s.word8 c.hart.area).toNat / 4)) ∧
        (t.hartAt h).demand = (if c.vpc = 0 then c.hart.demand else c.groups) ∧
        (t.hartAt h).vstart = BitVec.ofNat 13 (leNat (s.bytes (c.hart.area + 16) 2)) ∧
        ∀ k, 1 ≤ k → k < 64 → (t.hartAt h).rs k = s.word8 (c.hart.area + 0x100 + 8 * k)) ∧
    (∀ l c cs, (s.launches.find? fun l => l.st = .parsed && !l.stopping) = some l → l.seq.toNat = seq → s.pkg.cids = c :: cs →
      exec (.cidAssign seq) s = .next { s with
        launches := s.launches.map fun m => if m.seq = l.seq then { m with st := .leasing, cid := some c } else m
        pkg := { s.pkg with cids := cs } }) ∧
    (∀ l, (s.launches.find? fun l => l.seq.toNat = seq) = some l →
      (l.st = .leasing → l.stopping = false → (∀ a ∈ pinnedAddrs l, canonical a = true) →
        (∀ p ∈ pinnedPages l, resident s l.pid p = true) →
        s.shares (some (l.pid, (byteOf s.pkg.ctcls l.therm).toNat)) ≤ 920 →
        let waits := if l.seq ∈ s.pkg.grants then s.pkg.grants else s.pkg.grants ++ [l.seq]
        let enters : State := { s with
          launches := (s.launches.filter fun m => m.seq ≠ l.seq) ++ [{ l with
            st := .ready, leases := pinnedPages l, units := some (byteOf s.pkg.ctcls l.therm).toNat }]
          pkg := { s.pkg with grants := waits.drop 1 } }
        waits.head? = some l.seq →
        (l.queue = none → exec (.leasingDone seq) s = .next enters) ∧
        ∀ k, l.queue = some k → tableHeld s k = false →
          (∀ p, (queueAt s k).packet = some p → p.slot = l.slot → exec (.leasingDone seq) s = .next (retire k p enters)) ∧
          ((queueAt s k).packet = none → queueHead s k = l.slot →
            exec (.leasingDone seq) s = .next (retireSlots k l.slot 4 enters))) ∧
      (∀ c, (l.st = .ready ∨ l.st = .running) → l.stopping = false → l.placed < l.harts →
        (∀ m ∈ s.launches, isAhead l m s = false) → chosenCore l s = some c → h ∈ fittingSlots l s c →
        (ownedHarts s l.pid < l.harts ∨ l.placed + 1 = l.harts) →
        ∃ t, exec (.hartPlacement seq l.placed h) s = .next t ∧ t.mem = s.mem ∧ (t.hartAt h).run = .running ∧
          (t.hartAt h).level = .user ∧ (t.hartAt h).pc = BitVec.ofNat 57 (4 * (l.entry.toNat / 4)) ∧
          (t.hartAt h).psel = 0 ∧ (t.hartAt h).mtvec = x.mtvec ∧ (t.hartAt h).vl = 0 ∧
          (∀ k, (t.hartAt h).rs k = if k = 2 then l.param else if k = 3 then BitVec.ofNat 64 l.placed
            else if k = 4 then BitVec.ofNat 64 l.harts else 0) ∧
          (t.hartAt h).rank = BitVec.ofNat 16 l.placed ∧ (t.hartAt h).launch = some l.seq) ∧
      (l.st = .running → hasContexts s l.seq = false → (l.stopping = true ∨ l.ended = l.harts) →
        inReset s l.seq = false → endHeld l s = false →
        (∀ p ∈ s.orphans, p.2.launch = some l.seq → State.hasWork p.2 = false) →
        ∃ t, exec (.launchEnd seq) s = .next t ∧ (∀ m ∈ t.launches, m.seq ≠ l.seq) ∧
          t.pkg.cids = (match l.cid with | some c => s.pkg.cids ++ [c] | none => s.pkg.cids))) ∧
    (latchDue s.pkg = true → ∃ t, exec .counterLatch s = .next t ∧ t.pkg.latches = s.pkg.latches + 1 ∧
      t.pkg.latchTick = some s.pkg.time) ∧
    (q ≤ s.pkg.qtNq.toNat → wdogTicks s q ≠ 0 → outstanding s q = true → resetting s (queuePid s q) = false →
      wdogTicks s q ≤ (queueAt s q).wd → tableHeld s q = false →
      ∃ t r, exec (.watchdogExpiry q) s = .next t ∧ (queueAt t q).wd = 0 ∧ (queueAt t q).packet = none ∧
        (queueAt t q).expiry = some r ∧ r.pid = queuePid s q ∧ r.step = 1 ∧ r.t0 = s.pkg.time ∧
        (∀ l ∈ s.launches, l.queue = some q → l.st ≠ .running → l.seq ∈ r.removed) ∧
        ∀ l ∈ s.launches, l.pid = r.pid → l.st = .running → l.stopping = false → l.ended = l.harts → l.seq ∈ r.halted) ∧
    (∀ ts r, s.schedule = .resetStep q :: ts → s.pkg.quiesced = false → (queueAt s q).expiry = some r → 1 ≤ r.step →
      r.step ≤ 3 → (r.step = 2 → ∀ k ∈ r.left, rollbackHeld k s = false) →
      ∃ t r', step s = .next t ∧ t.schedule = ts ∧ (queueAt t q).expiry = some r' ∧ r'.step = r.step + 1 ∧
        (r.step = 1 → ∀ l ∈ s.launches, l.pid = r.pid → l.st = .running → (l.seq ∈ r'.stopped ↔ l.seq ∉ r.halted)))

/-- The queue processor serves a queue in its turn: it reads TAIL, stops a queue whose control line is malformed, and parses the
packet at HEAD once all of its slots are written; a queue in its turn goes on up to that TAIL, without another turn; a packet
retires: a NOP at once, a FENCE when each of its conditions has held, a SIGNAL when it has written, an EDGE when it has taken a
slot, a MODULE when no launch runs its code; a LAUNCH creates its launch in Parsed (R362 to R368, R378). That a queue with slots
left is not scheduled anew is log 114. -/
def Obligations.QueuePackets : Prop :=
  ∀ (q : Nat) (s : State), queueOn s q = true → resetting s (queuePid s q) = false → tableHeld s q = false →
    let retired (p : Packet) (u t : State) : Prop := t = retire q p u ∧ (queueAt t q).packet = none ∧ (queueAt t q).wd = 0
      ∧ (u.pkg.migFwd = false → u.pkg.fwds = [] →
          t.bytes (queueBase u q + 24) 8 = bytesOf 8 (p.slot + BitVec.ofNat 64 (p.bytes.length / 64)))
    let head := queueHead s q
    let ring := BitVec.ofNat 64 (queueField s q 0 8)
    let slots := queueField s q 8 4
    let tail := BitVec.ofNat 64 (queueField s q 128 8)
    let avail := (tail - head).toNat
    let parses (u : State) (below : Nat) : Prop := ringHeld q u = false →
      ∀ hd v, readSlots (queuePid s q) ring slots 1 head u = some (hd, v) →
      let n := pf hd 1 1 % 16 + 1
      (below < n → exec (.queueSchedule q) s = .next (modQueue q (fun x => { x with till := none }) u)) ∧
      ∀ p t, n ≤ below → headerBad hd = none →
        readSlots (queuePid s q) ring slots n head u = some (p, t) → packetBad p = none → pf p 0 1 = 1 →
        exec (.queueSchedule q) s = .next (modQueue q (fun x => { x with packet := some ⟨head, p, []⟩ }) t)
    (inTurn s q = true → ((queueAt s q).packet ≠ none ∨ slotsLeft s q = 0) →
      let u : State := modQueue q (fun x => { x with till := some tail }) { s with pkg := { s.pkg with served := q } }
      (controlOk s q = false → ∃ t, exec (.queueSchedule q) s = .next t ∧ (queueAt t q).packet = none ∧
        (s.pkg.jEn = false → s.pkg.migFwd = false → s.pkg.fwds = [] →
          queueOn t q = false ∧ t.bytes (queueBase s q + 32) 8 = bytesOf 8 head)) ∧
      (controlOk s q = true → ((queueAt s q).packet ≠ none ∨ avail = 0) → exec (.queueSchedule q) s = .next u) ∧
      (controlOk s q = true → (queueAt s q).packet = none → 0 < avail → parses u avail)) ∧
    (∀ seen, (queueAt s q).packet = none → (queueAt s q).till = some seen → 0 < (seen - head).toNat →
      (seen - head).toNat ≤ avail → parses s (seen - head).toNat) ∧
    ∀ p, (queueAt s q).packet = some p → packetHeld q p s = false →
      let type := pf p.bytes 0 1
      (type = 0 → ∃ t, exec (.packetNop q) s = .next t ∧ retired p s t) ∧
      (type = 1 → (∀ l ∈ s.launches, l.queue = some q → l.slot = p.slot → l.st ≠ .parsed ∧ l.st ≠ .leasing) →
        ∃ t, exec (.packetLaunch q) s = .next t ∧ t.pkg.seqCount = s.pkg.seqCount + 1 ∧
          t.launches = s.launches ++ [launchOf p.bytes (s.pkg.seqCount + 1) (queuePid s q) (some q) p.slot
            (max (pf p.bytes 30 1) (queueField s q 13 1))]) ∧
      (type = 2 → ∀ seen u, fencePass (queuePid s q) p.bytes (List.range (pf p.bytes 8 1 % 16)) p.seen s = some (seen, u) →
        ((∀ k < pf p.bytes 8 1 % 16, k ∈ seen) →
          (∃ t, exec (.packetFence q) s = .next t ∧ retired p u t) ∧
          ∃ t, exec (.packetFenceSatisfied q) s = .next t ∧ retired p u t) ∧
        (¬ (∀ k < pf p.bytes 8 1 % 16, k ∈ seen) → exec (.packetFence q) s =
          .next (modQueue q (fun x => { x with packet := some { p with seen := seen } }) u))) ∧
      (type = 3 → ∀ u,
        (if pf p.bytes 24 1 = 0 then queueWrite (queuePid s q) (pw p.bytes 8) (bytesOf 8 (pw p.bytes 16)) s
          else queueRmw (queuePid s q) (pw p.bytes 8) (· + pw p.bytes 16) s) = some u →
        ∃ t, exec (.packetSignal q) s = .next t ∧ retired p u t) ∧
      (type = 4 → ∀ acc u, queueCheck (queuePid s q) (pw p.bytes 8) 8 .rmw s = some acc →
        0 < (wordOf (s.bytesAt acc)).toInt → queueRmw (queuePid s q) (pw p.bytes 8) (· - 1) s = some u →
        (∃ t, exec (.packetEdge q) s = .next t ∧ retired p u t) ∧
        ∃ t, exec (.packetEdgeTaken q) s = .next t ∧ retired p u t) ∧
      (type = 5 →
        let purged := s.purge (queueAgent (queuePid s q)) (pw p.bytes 16) (pf p.bytes 24 8)
        (pf p.bytes 8 1 = 1 → ∃ t, exec (.packetModuleLoad q) s = .next t ∧ retired p purged t) ∧
        (pf p.bytes 8 1 = 2 → (∀ l ∈ s.launches, l.pid = queuePid s q →
            l.st = .leasing ∨ l.st = .ready ∨ l.st = .running →
            l.entry.toNat < pf p.bytes 16 8 ∨ pf p.bytes 16 8 + pf p.bytes 24 8 ≤ l.entry.toNat) →
          ∃ t, exec (.packetModuleUnload q) s = .next t ∧ retired p purged t))

/-- Shootdowns, frame ownership, migration and the end of its forwarding, partition assignments, power gating, the zeroing of a
frame, and the writes of eport and of atlr (R265, R274, R299, R385, R388, R390, R392, R436, R457). Which shootdown ends a
forwarding is log 29, and that an assignment leaves memory as it is, with contexts that go later, is log 59. -/
def Obligations.FabricWrites : Prop :=
  ∀ (s : State) (core : Nat) (v : Word),
    let noneLate : Prop := ∀ n, (s.hartAt n).sbuf = []
    (∀ n, (s.pkg.tsnBusy = true → exec (.shootdown n) s = .next s) ∧
      (s.pkg.tsnBusy = false → ∃ t, exec (.shootdown n) s = .next t ∧ t.pkg.tsnBusy = true ∧ t.mem = s.mem ∧
        ∀ e, e ∈ t.tlb ↔ e ∈ s.tlb ∧ ¬ (e.pid = s.pkg.tsvaPid ∧ (n = 0 ∨
          (e.va < (s.pkg.tsvaVa.toNat + n.toNat) * 65536 ∧ s.pkg.tsvaVa.toNat * 65536 < e.va + e.size))))) ∧
    (s.pkg.tsnBusy = true → ∃ t, exec .shootdownComplete s = .next t ∧ t.pkg.tsnBusy = false ∧
      (noneLate → t.mem = s.mem) ∧ (∀ m, m ∈ t.pkg.fwds ↔ m ∈ s.pkg.fwds ∧ m ∉ s.pkg.sdEnds) ∧
      ∀ l ∈ t.launches, ∀ p ∈ l.leases, State.covers s.pkg l.pid p = false) ∧
    (∀ o frame, frame.toNat * 65536 < 2 ^ 40 →
      (∃ t, exec (.fownWrite o frame) s = .next t ∧ (∀ k, t.owner k = if k = frame.toNat then o else s.owner k) ∧
        t.pkg = { s.pkg with fownFrame := frame, fownOwner := o } ∧ (noneLate → t.mem = s.mem ∧
        ∀ d, d ∈ t.dirty ↔ d ∈ s.dirty ∧ d.pline / 512 ≠ frame.toNat)) ∧
      exec (.fownRead frame) s = .next { s with pkg := { s.pkg with
        fownFrame := frame, fownOwner := s.owner frame.toNat } }) ∧
    (∀ src, s.pkg.migBusy = false →
      let started : Pkg := { s.pkg with
        migSrc := src
        migErr := false
        migBusy := true
        migDone := 0
        migFwd := true
        movSrc := src
        movDst := s.pkg.migDst
        moves := s.pkg.moves ++ [(src.toNat, s.pkg.migDst.toNat)] }
      let refused : Pkg := { s.pkg with migSrc := src, migErr := true }
      exec (.migrationStart src) s = .next { s with
        pkg := if s.owner src.toNat = s.owner s.pkg.migDst.toNat then started else refused }) ∧
    (s.pkg.migBusy = true → s.rangeHeld ((s.pkg.movSrc.toNat * 512 + s.pkg.migDone) * 128) 128 = false →
      s.rangeHeld ((s.pkg.movDst.toNat * 512 + s.pkg.migDone) * 128) 128 = false →
      ∃ t, exec .migrationLineCopy s = .next t ∧
      t.pkg = (if s.pkg.migDone + 1 < 512 then { s.pkg with migDone := s.pkg.migDone + 1 }
        else { s.pkg with migDone := s.pkg.migDone + 1, migBusy := false, migFwd := false
                          fwds := s.pkg.fwds ++ [(s.pkg.movSrc.toNat, s.pkg.movDst.toNat)] }) ∧
      ∀ a, t.rawByte a = if a / 128 = s.pkg.movDst.toNat * 512 + s.pkg.migDone
        then s.rawByte ((s.pkg.movSrc.toNat * 512 + s.pkg.migDone) * 128 + a % 128) else s.rawByte a) ∧
    (∀ high : Bool,
      let new : Core := if high then { s.coreAt core with pgrph := v } else { s.coreAt core with pgrpl := v }
      (State.blocksOk new = false → exec (.partitionGroupWrite core high v) s = .next s) ∧
      (State.blocksOk new = true → ∃ t, exec (.partitionGroupWrite core high v) s = .next t ∧
        (t.coreAt core).pgrpl = new.pgrpl ∧ (t.coreAt core).pgrph = new.pgrph ∧ (noneLate → t.mem = s.mem))) ∧
    (∃ t, exec (.phartWrite core v) s = .next t ∧ (t.coreAt core).phart = v ∧ t.mem = s.mem) ∧
    (∀ cluster, ∃ t, exec (.crownWrite cluster v) s = .next t ∧
      (t.clusterAt cluster).crEn = v.getLsbD 8 ∧ (t.clusterAt cluster).crPid = v.setWidth 8 ∧
      (((s.clusterAt cluster).crEn ≠ v.getLsbD 8 ∨ (s.clusterAt cluster).crPid ≠ v.setWidth 8) →
        (t.clusterAt cluster).sem = 0 ∧ (t.clusterAt cluster).cr = [])) ∧
    (∃ t, exec (.sgateWrite core v) s = .next t ∧ (t.coreAt core).sgate = v ∧ t.mem = s.mem) ∧
    (∀ bank < 64, (s.coreAt core).sgate.getLsbD bank = false →
      exec (.bankWake core bank) s = .next (s.modCore core fun c => { c with sgate := c.sgate ||| 1#64 <<< bank })) ∧
    (∀ w, exec (.wgateWrite w) s = .next { s with pkg := { s.pkg with wgate := w } }) ∧
    (∀ frame : BitVec 36, frame.toNat * 65536 < 2 ^ 40 → s.pkg.migFwd = false → s.pkg.fwds = [] →
      ∃ t, exec (.rpoisGo frame) s = .next t ∧ (∀ l ∈ t.poison, l / 512 ≠ frame.toNat) ∧
        ∀ a, t.byte a = if a / 65536 = frame.toNat then 0 else s.byte a) ∧
    (∀ h, ∃ t, exec (.eportWrite h v) s = .next t ∧ (t.hartAt h).eport = v ∧
      ∀ k < 8, byteOf (s.hartAt h).eport k ≠ byteOf v k → ((t.hartAt h).port k).part = []) ∧
    ∃ t, exec .atlrGo s = .next t ∧ t.mem = s.mem ∧ ∀ k, ∀ c ∈ (t.hart.port k).cmds, c.stalled = false

/-- The engines run a command of a port pair that they have taken, in order: a command that the engine does not accept ends
with STATUS 1 and nothing performed; a copy moves its bytes in nest order, its write pointer advances with each, and it counts
them against its barrier; a gather and a scatter move their elements, and go on behind one that is refused; a reduction writes
the pairwise sums of its buffers and then its flag; an attention writes the result of its sequence over the tokens, or nothing
where a row is damaged; a collective reads its group, takes in the contributions, and writes the sums and its status block, or
reports who is missing; a replay runs the trained records for its next iteration. A read of an engine gives the bytes at its
checked address, and a write stores its bytes there and changes no other. A result joins the result port in the order in which
commands complete (R261, R275 to R278, R289 to R302, R317). No command is performed while an earlier copy of its port has
bytes to count (R219, R264), and an engine whose zone is stopped does nothing (R463). The rest is the model's. DEDUCED: an
attention's powers of two (log 25), the flags of its AUX (log 55), STATUS 7 for a damaged Q row (log 60), late contributions
(log 113), the lone NaN of a reduction (log 129), the 8 bits of a mask that a replay hands back (log 131). DESIGN CHOICE: when
an underflow of 2^x is set (log 91), Q with L = 0 (log 122), the order of the elements of a gather or scatter and its STATUS
(log 105), STATUS 4 in place of 0 only (log 121), a replay's free seed (log 34), the free chunks and flags of a ring (log 33),
the zone of a collective (log 119), a buffer list with N = 0 (log 125), a refused access of a collective or of OUT (log 126,
log 127), STATUS 2 outside the declared ranges (log 128), a replayed operation that would trap on a queue (log 130). -/
def Obligations.EngineCommands : Prop :=
  (∀ (j : Job) (va : Word) (s : State),
    (∀ n b u, j.read va n s = .ok (b, u) → ∃ acc, s.check j.agent ⟨va, n, .load, true, false⟩ = .ok acc ∧ b = s.bytesAt acc ∧
      u.mem = s.mem) ∧
    ∀ bs al w u, j.write va bs al s = .ok (w, u) → ∃ acc, s.check j.agent ⟨va, bs.length, .store, true, al⟩ = .ok acc ∧
      w = s.extents acc ∧ (s.pkg.migFwd = false → s.pkg.fwds = [] →
        acc.chunks.Pairwise (fun c d => c.pa + c.n ≤ d.pa ∨ d.pa + d.n ≤ c.pa) →
        u.bytesAt acc = bs ∧ ∀ a, (∀ c ∈ acc.chunks, a < c.pa ∨ c.pa + c.n ≤ a) → u.byte a = s.byte a)) ∧
  ∀ (h k : Nat) (s : State),
    let ended (t : State) (j : Job) (p : Cmd → Prop) : Prop :=
      ∃ n x c, ctxOf t h = some (n, x) ∧ c ∈ (x.port k).cmds ∧ c.seq = j.cmd.seq ∧ p c
    (∀ u e j st aux, jobAt h k u = some (e, j) → (finish h k st aux u).mem = u.mem ∧
      ended (finish h k st aux u) j fun c => c.outcome = some (st, aux)) ∧
    (∀ e j, jobAt h k s = some (e, j) →
      let opc := (j.cmd.words.headD 0).toNat / 256 % 256
      let word (i : Nat) : Word := j.cmd.words.getD i 0
      let size : Nat := if j.cmd.field 0 32 1 = 0 then 4 else 2
      let fmt : Fmt := if j.cmd.field 0 32 1 = 0 then .f32 else .bf16
      let refused (i : Instr) : Prop := e.accepts opc = false → exec i s = .next (finish h k 1 0 s)
      (isCopy e = true → (∀ n, refused (.copy h k n)) ∧ (opc = 1 → copyOk j.cmd = true →
        (j.cmd.total ≤ j.cmd.wp → ∀ n, ∃ t, exec (.copy h k n) s = .next t ∧ t.mem = s.mem) ∧
        (j.cmd.wp < j.cmd.total →
          (∀ b u w v, j.read (j.cmd.addrs j.cmd.wp).1 1 s = .ok (b, u) → j.write (j.cmd.addrs j.cmd.wp).2 b false u = .ok (w, v) →
            ∃ t, exec (.copy h k 1) s = .next t ∧ t.mem = v.mem ∧ ended t j fun c => c.wp = j.cmd.wp + 1 ∧
              c.outcome = if j.cmd.wp + 1 = j.cmd.total then some (0, 0) else none) ∧
          ∀ st, j.read (j.cmd.addrs j.cmd.wp).1 1 s = .bad st →
            ∃ t, exec (.copy h k 1) s = .next t ∧ t.mem = s.mem ∧ ended t j fun c => c.wp = j.cmd.wp ∧
              c.outcome = some (st, 0)))) ∧
      (e = .indirect → refused (.gather h k) ∧ refused (.scatter h k) ∧ (indirectOk j.cmd = true →
        let n := (word 2).toNat % 2 ^ 32
        let moves (scatter : Bool) (i : Instr) : Prop := ∀ (σ : Nat → State) (w : Nat → List (Nat × Nat)) (st : Nat → Byte),
          σ 0 = s → (∀ e < n, (st e = 0 → MovesElem j scatter e (σ e) (σ (e + 1)) (w e)) ∧
            (st e ≠ 0 → indirectElem j scatter e (σ e) = .bad (st e) ∧ σ (e + 1) = σ e ∧ w e = [])) →
          exec i s = .next (finish h k ((((List.range n).map st).find? fun x => x ≠ 0).getD 0) 0
            ((σ n).cover (written w n)))
        (opc = 0x10 → moves false (.gather h k)) ∧ (opc = 0x11 → moves true (.scatter h k)))) ∧
      (e = .reduction → refused (.reduction h k) ∧ (opc = 0x20 → reductionOk j.cmd = true →
        let n := (word 2).toNat % 2 ^ 32
        ∀ (bufs : List Nat) (σ u : Nat → State) (xs : Nat → List Nat) (w : Nat → List (Nat × Nat)) wf v,
          JobReads j 8 ((List.range (j.cmd.field 0 36 4 + 1)).map fun i => word 1 + BitVec.ofNat 64 (8 * i)) s bufs (σ 0) →
          (∀ b ∈ bufs, b = (word 3).toNat ∨ (word 3).toNat + n * size ≤ b ∨ b + n * size ≤ (word 3).toNat) →
          let sum (e : Nat) : Nat × Flags := pairTree (addBits fmt .rne) (negZero fmt) (xs e)
          (∀ e < n,
            JobReads j size (bufs.map fun b => BitVec.ofNat 64 b + BitVec.ofNat 64 (e * size)) (σ e) (xs e) (u e) ∧
            j.write (word 3 + BitVec.ofNat 64 (e * size)) (leBytes size (redNaN fmt (sum e).1).1) false
              { u e with fresh := (u e).fresh + 1 } = .ok (w e, σ (e + 1))) →
          j.write (word 4) (bytesOf 8 (word 5)) true ((σ n).cover (written w n)) = .ok (wf, v) →
          exec (.reduction h k) s = .next (finish h k 0
            (auxOf (allFlags (fun e => (sum e).2 ||| (redNaN fmt (sum e).1).2) n)) (v.cover wf)))) ∧
      (∀ m, e = .attention m → refused (.attention h k) ∧ (opc = 0x30 → attentionOk j.cmd = true → j.cmd.stalled = false →
        let db := j.cmd.field 0 32 4
        let rb := 64 * ((34 * db + 63) / 64)
        let n := (word 4).toNat % 2 ^ 32
        (∀ va bs pl u, let off := (va - word 3).toNat
          0 < 34 * db → off % 65536 + 34 * db ≤ 65536 → off / 65536 < (word 7).toNat % 2 ^ 32 →
          j.read (word 6 + BitVec.ofNat 64 (8 * (off / 65536))) 8 s = .ok (pl, u) →
          let entry := leNat pl
          let pa := entry / 2 ^ 16 % 2 ^ 36 * 65536 + off % 65536
          entry % 2 ^ 16 = 1 → entry < 2 ^ 52 → isDevice pa = true → s.admits j.agent pa = true →
          s.rangeHeld pa (34 * db) = false → s.poisoned pa (34 * db) = false →
          bs = s.bytes pa (34 * db) → poolBytes j 8 va (34 * db) s = .ok bs) ∧
        ∀ qb (σ : Nat → State), j.read (word 1) (34 * db) s = .ok (qb, σ 0) →
          (¬ ResidueRight db qb → exec (.attention h k) s = .next (finish h k 7 0 s)) ∧
          (ResidueRight db qb → ∀ (bt kb vb : Nat → List Byte) w v,
            (∀ t < n, j.read (word 2 + BitVec.ofNat 64 (4 * (t / 16))) 4 (σ t) = .ok (bt t, σ (t + 1)) ∧
              let page := word 3 + BitVec.ofNat 64 (32 * rb * leNat (bt t))
              poolBytes j 8 (page + BitVec.ofNat 64 (rb * (t % 16))) (34 * db) (σ (t + 1)) = .ok (kb t) ∧
              poolBytes j 8 (page + BitVec.ofNat 64 (rb * (16 + t % 16))) (34 * db) (σ (t + 1)) = .ok (vb t) ∧
              ResidueRight db (kb t) ∧ ResidueRight db (vb t)) →
            let a := (List.range n).foldl (fun a t => softToken db ((word 4).toNat / 2 ^ 32) qb (kb t) (vb t) a)
              ⟨0xFF800000, 0, List.replicate (32 * db) 0, 0⟩
            let out (i : Nat) : Nat × Flags := roundF32 (fpDiv (fpOf .f32 (a.o.getD i 0)) (fpOf .f32 a.l))
            j.write (word 5) ((List.range (32 * db)).flatMap fun i => leBytes 4 (out i).1) false (σ n) = .ok (w, v) →
            exec (.attention h k) s = .next (finish h k 0 (auxOf (a.g ||| allFlags (fun i => (out i).2) (32 * db)))
              ((v.cover w).residueRows (stackOfJob j) w))))) ∧
      (e = .collective → refused (.allReduce h k) ∧ (opc = 0x40 → collectiveOk j.cmd = true →
        let n := (word 3).toNat % 2 ^ 32
        let late : Bool := decide (max ((word 6).toNat % 2 ^ 32) 1 * 1000 ≤ (s.pkg.time - j.cmd.start).toNat)
        (j.cmd.group = [] → ∀ g r s1, JobReads j 2 [word 4, word 4 + 2] s [g, r] s1 →
          (g < 2 ∨ 576 < g ∨ g ≤ r → exec (.allReduce h k) s = .next (finish h k 1 0 s)) ∧
          (2 ≤ g → g ≤ 576 → r < g → ∀ pkgs s2,
            JobReads j 2 ((List.range g).map fun r => word 4 + BitVec.ofNat 64 (4 + 2 * r)) s1 pkgs s2 →
            (((∃ p ∈ pkgs, 575 < p) ∨ ¬ pkgs.Nodup) → exec (.allReduce h k) s = .next (finish h k 1 0 s)) ∧
            ((∀ p ∈ pkgs, p ≤ 575) → pkgs.Nodup → ∀ own s3,
              JobReads j size ((List.range n).map fun e => word 1 + BitVec.ofNat 64 (e * size)) s2 own s3 →
              exec (.allReduce h k) s = .next (modCmd h k (fun c => { c with
                begun := true, start := s3.pkg.time, group := pkgs, rank := r
                parts := [(r, own.map (BitVec.ofNat 32))] }) s3)))) ∧
        (j.cmd.group ≠ [] → j.cmd.failed = [] →
          (j.cmd.switched = none → j.cmd.parts.length = j.cmd.group.length) →
          (∀ l, j.cmd.switched = some l → l.length = n) →
          let g := j.cmd.group.length
          let ring (x e : Nat) : Nat := (List.range (g - 1)).foldl (fun a i =>
            (addBits fmt .rne a (j.cmd.part ((x + 2 + i) % g) e)).1) (j.cmd.part ((x + 1) % g) e)
          ∃ sums : List Nat, sums.length = n ∧ (∀ l, j.cmd.switched = some l → sums = l.map BitVec.toNat) ∧
            (j.cmd.switched = none → ∀ e < n, ∃ x < g, sums.getD e 0 = ring x e) ∧
            ∀ w v w' v', j.write (word 2) (sums.flatMap fun x => leBytes size x) false
                { s with fresh := s.fresh + n + 1 } = .ok (w, v) →
              j.write (word 5) (leBytes 8 0) false v = .ok (w', v') →
              ∃ aux, exec (.allReduce h k) s = .next (finish h k 0 aux (v'.cover (w ++ w')))) ∧
        (∀ rank, rank ≠ j.cmd.rank → rank < j.cmd.group.length →
          (rank ∉ j.cmd.failed → ∀ data, exec (.collectivePacket h k rank true data) s =
            .next (modCmd h k (fun c => { c with failed := rank :: c.failed }) s)) ∧
          ((∀ p ∈ j.cmd.parts, p.1 ≠ rank) → late = false → ∀ data : List Elem, data.length = n →
            exec (.collectivePacket h k rank false data) s =
              .next (modCmd h k (fun c => { c with parts := c.parts ++ [(rank, data)] }) s))) ∧
        (∀ missing w u, j.cmd.group ≠ [] → (j.cmd.failed ≠ [] ∨ late = true) →
          let absent (r : Nat) : Prop := ∀ p ∈ j.cmd.parts, p.1 ≠ r
          missing ≠ [] → missing.Nodup → (∀ r ∈ missing, r < j.cmd.group.length ∧ r ≠ j.cmd.rank) →
          (∀ r ∈ j.cmd.failed, r ∈ missing) →
          (∀ r ∈ missing, r ∈ j.cmd.failed ∨ (late = true ∧ absent r ∧ j.cmd.switched = none)) →
          (late = true → (j.cmd.nosw = true ∨ 1 < j.cmd.parts.length) →
            ∀ r < j.cmd.group.length, r ∈ missing ↔ r ∈ j.cmd.failed ∨ absent r) →
          j.write (word 5) (leBytes 8 missing.length ++ missingMask missing ++ leBytes 48 0) false s = .ok (w, u) →
          missing.length < 2 ^ 64 → exec (.collectiveTimeout h k missing) s =
            .next (finish h k 5 (BitVec.ofNat 8 (min missing.length 255)) (u.cover w)))))) ∧
    (∀ n x c m st aux, ctxOf s h = some (n, x) → h < 12288 → c ∈ (x.port k).cmds → c.fin = some m →
      (∀ d ∈ (x.port k).cmds, d ≠ c → ∀ i, d.fin = some i → m < i) →
      c.outcome = some (st, aux) → (x.port k).results.length < 16 → c.stopped x.rank.toNat s = false →
      exec (.resultAppend h k) s = .next (modCtx h (Hart.modPort k fun p => { p with
        cmds := p.cmds.filter fun d => d.fin ≠ some m
        results := p.results ++ [BitVec.ofNat 64 (c.seq.toNat + aux.toNat * 2 ^ 32
          + (if st = 0 ∧ c.badBar = true then 4 else st.toNat) * 2 ^ 40
          + (c.words.headD 0).toNat / 2 ^ 16 % 2 ^ 16 * 2 ^ 48)]
        past := (c.seq, c.wp) :: p.past }) s)) ∧
    (∀ slot x c (n : Nat), ctxOf s h = some (slot, x) → (x.port k).cmds.find? State.uncounted = some c → 1 ≤ n → n ≤ 4096 →
      c.counted + n ≤ c.wp → copyOk c = true → c.stopped x.rank.toNat s = false →
      let f := c.bar / 512
      let co := if f = 0 then c.core else c.core / 96 * 96 + (f - 1)
      let b := s.barrier co (c.bar % 512)
      0 ≤ b.pend.toInt - n + 2 ^ 35 →
      let b' : Barrier := { b with pend := b.pend - BitVec.ofNat 36 n }
      let b'' : Barrier := if b'.arr = 0 ∧ b'.pend = 0 then { b' with phase := b'.phase + 1, arr := b'.count } else b'
      ∃ t, exec (.copyDecrement h k n) s = .next t ∧ t.mem = s.mem ∧ t.barrier co (c.bar % 512) = b'') ∧
    (∀ (c : Cmd) (rank : Nat),
      let t := c.tgt.toNat
      let off (z : Nat) : Prop := c.stopped rank s = true ↔ (s.zoneAt z).f = 0
      (1 ≤ t → t ≤ 5 → off (8 * (c.core / 192) + c.core % 192 / 24)) ∧
      (0x10 ≤ t → t < 0x50 → off (64 + (t - 0x10) / 4)) ∧ (0x50 ≤ t → t < 0x60 → off (64 + (t - 0x50))) ∧
      (0x60 ≤ t → t < 0xE0 → off (64 + (t - 0x60) / 8)) ∧ (t = 0xE0 → c.stopped rank s = false)) ∧
    (∀ slot x c, ctxOf s h = some (slot, x) →
      ((((x.port k).job Cmd.live = some c ∧ c.stopped x.rank.toNat s = true) ∨
          (∃ d rest, (x.port k).cmds = d :: rest ∧ d.outcome ≠ none ∧ State.uncounted d = true)) →
        (∀ n, exec (.copy h k n) s = .next s) ∧
        ∀ i ∈ [Instr.gather h k, .scatter h k, .reduction h k, .attention h k], exec i s = .next s) ∧
      ((s.zoneAt (64 + x.mark.slice / 16)).f = 0 → exec (.replayIteration h) s = .next s)) ∧
    (∀ n x, ctxOf s h = some (n, x) → x.mark.state = .replaying → x.mark.replay = .running →
      (s.zoneAt (64 + x.mark.slice / 16)).f ≠ 0 →
      let m := x.mark
      let at_ : State := s.focus n
      let start : State := { at_ with
        hart := replayHart x (Config.freeWord s.fresh)
        saved := at_.saved ++ (if h = n then [] else [⟨at_.hart, n, 0, 0, 0, .yield, 0, []⟩])
        fresh := s.fresh + 1 }
      (∀ c < m.kinds.length, 0 < m.first + c → m.kinds.getD c 0 = 0 →
        start.hart.rs (m.first + c) = m.base.getD c 0 + m.next * m.delta.getD c 0) ∧
      ∀ rooms r, replayChecks m m.trace [] start = .ok rooms → noRoomFor start 0 rooms = none →
        start.appendHeld (rooms.map fun r => r.2.length).sum = false → BodyRuns m m.trace start r →
        ∃ t y slot, exec (.replayIteration h) s = .next t ∧ t.mem = r.mem ∧ ctxOf t h = some (slot, y) ∧
          y.mark.next = m.next + 1 ∧ y.mark.regs = captureRegs r.hart ∧ y.mark.flags = r.hart.fflags ∧
          y.mark.replay = (if m.next + 1 = m.n then .finished else .running) ∧
          y.s = x.s ∧ y.p = x.p ∧ y.v = x.v ∧ y.m = x.m ∧ y.pc = x.pc ∧ y.fflags = x.fflags) ∧
    (∀ c o t,
      (∀ i ∈ [Instr.add c o, .sub c o, .mul c o, .min c o, .max c o, .and c o, .or c o, .xor c o, .shl c o, .shr c o,
          .sra c o], exec i s = .next t → replayOp i s = some t) ∧
      (∀ imm, exec (.addi c o imm) s = .next t → replayOp (.addi c o imm) s = some t) ∧
      (∀ r nat d a b, exec (.cmp c r nat d a b) s = .next t → replayOp (.cmp c r nat d a b) s = some t) ∧
      (∀ d a b neg p, exec (.sel c d a b neg p) s = .next t → replayOp (.sel c d a b neg p) s = some t) ∧
      ∀ d a, (exec (.li c d a) s = .next t → replayOp (.li c d a) s = some t) ∧
        (exec (.mov c d a) s = .next t → replayOp (.mov c d a) s = some t)) ∧
    (∀ c o t, Issues c s → s.vlen = 1 → t.hart.vcq = [] →
      ∀ i ∈ [Instr.vadd c o, .vsub c o, .vmul c o, .vmin c o, .vmax c o, .vand c o, .vor c o, .vxor c o, .vshl c o, .vshr c o,
          .vsra c o, .vsel c o, .vfadd c o, .vfsub c o, .vfmul c o, .vfmin c o, .vfmax c o, .vcmp c o, .vfcmp c o],
        exec i s = .next t → ∃ u, replayOp i s = some u ∧ u.hart.v = t.hart.v ∧ u.hart.m = t.hart.m ∧
          u.hart.fflags = t.hart.fflags ∧ u.mem = t.mem) ∧
    ∀ (slice : Nat) (prec : Addr) (it : Word) (i : Instr) va n acc, bodyAccess i s.hart = some (va, n) →
      s.check (replayAgent slice s) ⟨va, n, if isStore i then .store else .load, true, true⟩ = .ok acc → notHeld s acc = false →
      let does (u : State) : Prop := replayAccess slice prec it i s = .ok u
      let bs := s.bytesAt acc
      (∀ c f d a b g, i = .ld c f d a b → putS d (ext f (fmtRead f (leNat bs))) s.hart = some g →
        does { s.keep acc.fills with hart := g }) ∧
      (∀ c f d a b disp g, i = .ldx c f d a b disp → putS d (ext f (fmtRead f (leNat bs))) s.hart = some g →
        does { s.keep acc.fills with hart := g }) ∧
      (∀ c o, i = .vld c o →
        does { s.keep acc.fills with hart := s.hart.wv o.d.toNat 0 (extElem o.fmt (leNat bs)) }) ∧
      (isStore i = true → s.logFull (State.recordAddrs acc) = none → ∃ u, does u ∧ u.hart.s = s.hart.s ∧ u.hart.v = s.hart.v ∧
        (s.logged = false → s.pkg.migFwd = false → s.pkg.fwds = [] →
          acc.chunks.Pairwise (fun c d => c.pa + c.n ≤ d.pa ∨ d.pa + d.n ≤ c.pa) →
          (∀ a, (∀ c ∈ acc.chunks, a < c.pa ∨ c.pa + c.n ≤ a) → u.byte a = s.byte a) ∧
          (∀ c f d a b, i = .st c f d a b → u.bytesAt acc = leBytes n (scalarValue d s.hart).toNat) ∧
          ∀ c o, i = .vst c o → u.bytesAt acc = leBytes n (swz o.dswz (s.hart.rv o.d.toNat 0)).toNat))

/-- Cooling zones: steps and brakes of the clock fraction, sensor traps, and the five steps of a dry channel's evacuation; the
registers of Cloche (R456, R459 to R464). By log 38 ATT is 0 when a dry channel is found, and by log 76 LF is masked for every
zone while one is purged. -/
def Obligations.CoolingZones : Prop :=
  ∀ (z : Nat) (s : State), z < 80 →
    let x := s.zoneAt z
    let sets (y : Zone) : State := s.modZone z fun _ => y
    let flagged (b : Nat) (u : State) : State := { u with pkg := { u.pkg with
      ctBits := u.pkg.ctBits ||| 1#4 <<< b, ctZone := BitVec.ofNat 7 z } }
    let regulated : Prop := x.f ≠ 0 ∧ x.evac = 0 ∧ x.lfHold = false
    let isShort : Prop := x.flow.toNat < s.share z ∨ 8 * s.pkg.tmax.toNat ≤ x.temp.toNat
    (regulated → isShort → 4 < x.f.toNat → exec (.throttleDown z) s = .next (sets { x with f := x.f - 1 })) ∧
    (regulated → ¬ isShort → x.f.toNat < 16 → exec (.throttleUp z) s = .next (sets { x with f := x.f + 1 })) ∧
    (∀ w : BitVec 16, ∃ t, exec (.powerCapStep w) s = .next t ∧ t.pkg = { s.pkg with pnow := w } ∧
      (z < 64 → (t.zoneAt z).f = if s.pkg.pcap < w ∧ 4 < x.f.toNat then x.f - 1 else x.f)) ∧
    (∃ t, exec .railOvercurrent s = .next t ∧ t.pkg = s.pkg ∧ (z < 64 → (t.zoneAt z).f = if x.f = 0 then 0 else 4)) ∧
    (∀ v, exec (.zminWrite z v) s = .next (sets { x with zmin := v }) ∧
      exec (.zminWrite 80 v) s = .next { s with zoneX := { s.zoneX with zmin := v } }) ∧
    (∀ v, exec (.ctrapClear v) s = .next { s with pkg := { s.pkg with ctBits := s.pkg.ctBits &&& ~~~v } }) ∧
    (∀ valve flow, x.evac = 0 ∨ x.evac = 4 →
      exec (.valveRegulation z valve flow) s = .next (sets { x with valve := valve, flow := flow })) ∧
    (∀ temp : BitVec 12,
      (temp.toNat < 8 * s.pkg.tcrit.toNat → temp.toNat < 8 * s.pkg.tshut.toNat →
        exec (.overTemperature z temp) s = .next (sets { x with temp := temp })) ∧
      (8 * s.pkg.tcrit.toNat ≤ temp.toNat → temp.toNat < 8 * s.pkg.tshut.toNat → x.evac = 0 →
        ∃ t, exec (.overTemperature z temp) s = .next t ∧ t.pkg = (flagged 0 s).pkg ∧
          t.zoneAt z = { x with temp := temp, f := if x.f = 0 then 0 else 4 }) ∧
      (8 * s.pkg.tshut.toNat ≤ temp.toNat → ∃ t, exec (.overTemperature z temp) s = .next t ∧
        t.pkg.quiesced = true ∧ t.pkg.fatal = true)) ∧
    (∀ flow : BitVec 10, 100 * flow.toNat < s.pkg.lowf.toNat * s.share z →
      ((∀ y < 80, (s.zoneAt y).evac ≠ 3) →
        ∃ t, exec (.lowFlow z flow) s = .next t ∧ t.pkg = (flagged 1 s).pkg ∧
          t.zoneAt z = { x with flow := flow, f := if x.f = 0 then 0 else 4, lfHold := true }) ∧
      ((∃ y < 80, (s.zoneAt y).evac = 3) → exec (.lowFlow z flow) s = .next (sets { x with flow := flow }))) ∧
    (∀ flow : BitVec 10, x.lfHold = true → s.pkg.lowf.toNat * s.share z ≤ 100 * flow.toNat →
      exec (.lowFlowRecovery z flow) s = .next (sets { x with flow := flow, lfHold := false })) ∧
    (∀ kpa : BitVec 16, kpa < s.pkg.pmin → ∃ t, exec (.pressureLoss z kpa) s = .next t ∧ t.pkg.quiesced = true ∧
      t.pkg.fatal = true ∧ t.pkg.ctZone = BitVec.ofNat 7 z) ∧
    (x.evac = 0 → ∃ t, exec (.dryChannel z) s = .next t ∧ t.pkg = (flagged 2 s).pkg ∧
      t.zoneAt z = { x with cond := 2, evac := 1, att := 0, f := 0, lfHold := false }) ∧
    (x.evac = 1 → exec (.evacValveClose z) s = .next (sets { x with evac := 2, valve := 0, vent := false })) ∧
    (x.evac = 2 → (∀ y < 80, (s.zoneAt y).evac ≠ 3) →
      exec (.evacPurge z) s = .next (sets { x with evac := 3, valve := 255, vent := true })) ∧
    (x.evac = 3 → exec (.evacRefill z) s = .next (sets { x with evac := 4, vent := false })) ∧
    (x.evac = 4 →
      exec (.evacCheck z true) s = .next (sets { x with cond := 0, evac := 0, f := 4, lfHold := false }) ∧
      (x.att ≠ 2 → exec (.evacCheck z false) s =
        .next ((sets { x with att := x.att + 1 }).modZone z fun y => { y with evac := 2, valve := 0, vent := false })) ∧
      (x.att = 2 → ∃ t, exec (.evacCheck z false) s = .next t ∧ t.pkg.quiesced = true ∧ t.pkg.fatal = true ∧
        ∀ y < 80, (t.zoneAt y).valve = 255))

/-- Uncorrectable errors, scrubbing and spares, the loss of a core rail, and the cold reset that brings the package up where
its firmware is complete and every zone is wet, and writes the control line of the journal (R432, R435 to R439, R441, R465,
R474); the scrubber of a stopped stack visits no row (R463). By log 74 an error that is a package fault counts in UE first, by
log 73 a row is spared in the step that finds its error, and what a cold reset keeps of memory and image is log 78. -/
def Obligations.ErrorsAndReset : Prop :=
  ∀ (s : State),
    let counted (t : State) : Prop := t.pkg.ue = (if s.pkg.ue = BitVec.allOnes 31 then s.pkg.ue else s.pkg.ue + 1)
    let dies (i : Instr) : Prop := ∃ t, exec i s = .next t ∧ t.pkg.fatal = true ∧ t.pkg.quiesced = true ∧
      t.replies = s.replies ++ [.cxlUncorrectable]
    (∀ pa, pa < 2 ^ 40 → ∃ t, exec (.uncorrectableStateError (.dram pa)) s = .next t ∧ counted t ∧
      pa / 128 ∈ t.poison ∧ (∀ l ∈ s.poison, l ∈ t.poison) ∧
      let bank := State.rowOf pa % 65536
      (tget 0 s.pkg.spares bank < 8 → (bank, State.rowOf pa / 65536) ∈ t.pkg.spared)) ∧
    (∀ core d, d ∈ s.dirty → d.core = core →
      ∃ t, exec (.uncorrectableStateError (.stashLine core d.pline)) s = .next t ∧ counted t ∧
        s.forward (d.pline * 128) / 128 ∈ t.poison ∧ ∀ e ∈ t.dirty, e.pline ≠ d.pline) ∧
    (∀ frame, ∃ t, exec (.uncorrectableStateError (.owner frame)) s = .next t ∧ counted t ∧ t.owner frame = 0) ∧
    (∀ core slot row col, ∃ t, exec (.uncorrectableStateError (.accumulator core slot row col)) s = .next t ∧
      counted t ∧ 64 * row + col ∈ ((t.coreAt core).tile slot).poison) ∧
    (∀ h, (s.hartAt h).launch = none → ∃ t, exec (.uncorrectableStateError (.hart h)) s = .next t ∧ counted t) ∧
    dies (.uncorrectableStateError .queueProcessor) ∧ dies (.uncorrectableStateError .journalLine) ∧
    dies .coreRailLoss ∧
    (∀ bank row lines bad corrected, s.zoneOff (64 + bank / 4096) = true →
      exec (.scrubRow bank row lines bad corrected) s = .next s) ∧
    (∀ bank row lines bad corrected, s.zoneOff (64 + bank / 4096) = false → s.pkg.scrubEn = true → bank < 65536 → (∀ l ∈ bad, l ∈ lines) →
      (∀ l ∈ corrected, l ∈ lines) →
      (∀ l ∈ lines, l * 128 < 2 ^ 40 ∧ State.rowOf (l * 128) = bank + 65536 * row) →
      (bank + 65536 * row ∈ s.residue → corrected = []) →
      ∃ t, exec (.scrubRow bank row lines bad corrected) s = .next t ∧ (∀ l ∈ bad, l ∈ t.poison) ∧
        bank + 65536 * row ∉ t.residue ∧
        t.pkg.ce.toNat = min (s.pkg.ce.toNat + corrected.length) (2 ^ 32 - 1)) ∧
    (∀ bank, 8 ≤ tget 0 s.pkg.spares bank → bank ∉ (scrubPeriod s).pkg.exhausted →
      ∃ t, exec (.sparesExhausted bank) s = .next t ∧ t.hart = s.hart ∧
        t.pkg = { (scrubPeriod s).pkg with
          exhausted := bank :: (scrubPeriod s).pkg.exhausted
          jhead := if s.pkg.jEn then s.pkg.jhead + 1 else s.pkg.jhead }) ∧
    (∀ image complete, exec (.firmwareUpdate image complete) s =
      .next { s with pkg := { s.pkg with firmware := image, firmOk := s.pkg.firmOk && complete } }) ∧
    ∃ t, exec .coldReset s = .next t ∧
      t = { State.reset with
        schedule := s.schedule, zonesC := t.zonesC, zonesB := t.zonesB, pkg := t.pkg, mem := t.mem, owners := t.owners } ∧
      (∀ a, t.rawByte a = if t.pkg.jEn = true ∧ a = 8 then 204 else 0) ∧
      (∀ f, t.owner f = if t.pkg.jEn = true ∧ f = 0 then 0x0001 else 0) ∧
      let wet : Prop := ∀ z < 80, (s.zoneAt z).cond = 0
      (∀ z < 80, (wet ∨ s.pkg.firmOk = false → t.zoneAt z = { State.reset.zoneAt z with cond := (s.zoneAt z).cond }) ∧
        (¬ wet → s.pkg.firmOk = true →
          t.zoneAt z = { State.reset.zoneAt z with cond := (s.zoneAt z).cond, valve := 255 })) ∧
      t.pkg = { Pkg.reset with
        firmware := s.pkg.firmware
        firmOk := s.pkg.firmOk
        jEn := s.pkg.firmOk && (List.range 80).all fun z => (s.zoneAt z).cond = 0
        quiesced := !(s.pkg.firmOk && (List.range 80).all fun z => (s.zoneAt z).cond = 0) }
end

