-- ==== Sys2Proof/Laws/Attention.lean ====
section
/-! SUPPORT. An attention's rows, scores and tokens in the terms of the rows' bytes (R296, R297). -/

namespace Sys2Proof.Safety

open Sys2Proof.Machine

variable {db : Nat} {bs : List Byte}

/-- The values of a row. -/
theorem row_x (h : 34 * db ≤ bs.length) : (rowOfBytes db bs).x = (List.range (32 * db)).map (rowValue bs) := by
  apply List.ext_getElem
  · simp [rowOfBytes]; omega
  · intro i h1 h2
    have : i < bs.length := by simp [rowOfBytes] at h1; omega
    simp [rowOfBytes, rowValue, this]

/-- A block of a row's values. -/
theorem row_block (h : 34 * db ≤ bs.length) {b : Nat} (hb : b < db) :
    (rowOfBytes db bs).block b = (List.range 32).map fun i => rowValue bs (32 * b + i) := by
  unfold Row.block
  rw [row_x h]
  apply List.ext_getElem
  · simp; omega
  · intro i h1 h2
    simp

/-- A scale of a row. -/
theorem row_e (h : 34 * db ≤ bs.length) {b : Nat} (hb : b < db) : (rowOfBytes db bs).e.getD b 0 = rowScale db bs b := by
  have : 32 * db + b < bs.length := by omega
  simp [rowOfBytes, rowScale, List.getD_eq_getElem?_getD, hb, this]

/-- A residue byte of a row. -/
theorem row_r (h : 34 * db ≤ bs.length) {b : Nat} (hb : b < db) : (rowOfBytes db bs).r.getD b 0 = rowResidue db bs b := by
  have : 33 * db + b < bs.length := by omega
  simp [rowOfBytes, rowResidue, List.getD_eq_getElem?_getD, hb, this]

/-- A row is intact exactly where its residue bytes are right (R296, R298). -/
theorem residueOk_iff (h : 34 * db ≤ bs.length) : (rowOfBytes db bs).residueOk db = true ↔ ResidueRight db bs := by
  unfold Row.residueOk ResidueRight
  rw [List.all_eq_true]
  constructor
  · intro hr b hb
    have := hr b (List.mem_range.2 hb)
    rw [row_block h hb, row_r h hb] at this
    simp only [beq_iff_eq] at this
    omega
  · intro hr b hb
    have hb := List.mem_range.1 hb
    rw [row_block h hb, row_r h hb]
    simp only [beq_iff_eq]
    have := hr b hb
    omega

/-- Flags gathered over a list, behind others. -/
theorem foldl_or_map {α : Type} (f : α → Flags) (l : List α) (g : Flags) :
    l.foldl (fun a x => a ||| f x) g = g ||| l.foldl (fun a x => a ||| f x) 0 := by
  induction l generalizing g with
  | nil => simp
  | cons x l ih => rw [List.foldl_cons, List.foldl_cons, ih, ih (0 ||| f x)]; simp [BitVec.or_assoc]

/-- The score of a token: the tree of its blocks' terms, and its flags (R297). -/
theorem dotRows_eq {q k : List Byte} (hq : 34 * db ≤ q.length) (hk : 34 * db ≤ k.length) :
    dotRows db (rowOfBytes db q) (rowOfBytes db k) =
      let t := pairTree (addBits .f32 .rne) (negZero .f32) ((List.range db).map fun b => (blockTerm db q k b).1)
      (t.1, t.2 ||| allFlags (fun b => (blockTerm db q k b).2) db) := by
  have e : ((List.range db).map fun b =>
      let s := ((((rowOfBytes db q).block b).zip ((rowOfBytes db k).block b)).map fun p => p.1 * p.2).sum
      let eq := (rowOfBytes db q).e.getD b 0
      let ek := (rowOfBytes db k).e.getD b 0
      if eq = 255 || ek = 255 then (canonNaN .f32, fNV)
      else roundTo .f32 .rne false (fpScale (fpInt s) ((eq : Int) + ek - 254))) = (List.range db).map (blockTerm db q k) := by
    apply List.map_congr_left
    intro b hb
    have hb := List.mem_range.1 hb
    simp only [row_block hq hb, row_block hk hb, row_e hq hb, row_e hk hb, blockTerm, List.zip_map', List.map_map]
    simp
    rfl
  unfold dotRows
  simp only [e, List.map_map, allFlags, List.foldl_map]
  rw [foldl_or_map]
  rfl

/-- One token in the terms of the rows' bytes (R297). -/
theorem token_eq {sc : Nat} {q k v : List Byte} {t : Soft} (hq : 34 * db ≤ q.length) (hk : 34 * db ≤ k.length)
    (hv : 34 * db ≤ v.length) (ho : t.o.length = 32 * db) :
    t.token db sc (rowOfBytes db q) (rowOfBytes db k) (rowOfBytes db v) = softToken db sc q k v t := by
  unfold Soft.token softToken
  rw [dotRows_eq hq hk]
  simp only [row_x hv]
  have os {α : Type} (f : (Nat × Int) × Nat → α) : (t.o.zip ((List.range (32 * db)).map (rowValue v))).zipIdx.map f
      = (List.range (32 * db)).map fun i => f ((t.o.getD i 0, rowValue v i), i) := by
    apply List.ext_getElem
    · simp [ho]
    · intro i h1 h2
      have : i < t.o.length := by simp [ho] at h2 ⊢; omega
      simp [this]
  have es (i : Nat) (hi : i ∈ List.range (32 * db)) : (rowOfBytes db v).e.getD (i / 32) 0 = rowScale db v (i / 32) :=
    row_e hv (by have := List.mem_range.1 hi; omega)
  have e1 : f32Of = roundF32 := rfl
  have e2 : estExp2 = expDiff := rfl
  rw [e1, e2]
  simp only [os, List.map_map]
  congr 1
  · apply List.map_congr_left
    intro i hi
    simp only [Function.comp_apply, es i hi, mulAdd]
  · rw [List.foldl_map, foldl_or_map]
    congr 1
    · simp only [mulAdd]
      generalize pairTree (addBits .f32 .rne) (negZero .f32) ((List.range db).map fun b => (blockTerm db q k b).1) = d
      generalize allFlags (fun b => (blockTerm db q k b).2) db = a
      rw [BitVec.or_comm d.2 a, ← BitVec.or_assoc t.g a d.2]
    · unfold allFlags
      refine List.foldl_ext _ _ _ fun a i hi => ?_
      simp only [es i hi, mulAdd, flagIf, decide_eq_true_eq]

end Sys2Proof.Safety
end

