-- ==== Sys2Proof/Laws/Encoding.lean ====
section
/-! SUPPORT. Reading back the fields that the encoder writes. -/

namespace Sys2Proof

/-! ## Slices of an append -/

theorem slice_hi {n m : Nat} (x : BitVec n) (y : BitVec m) {i k : Nat} (h : m ≤ i) :
    (x ++ y).extractLsb' i k = x.extractLsb' (i - m) k := by
  apply BitVec.eq_of_getLsbD_eq
  intro j hj
  have h' : ¬ i + j < m := by omega
  simp only [BitVec.getLsbD_extractLsb', BitVec.getLsbD_append, h']
  simp [show i + j - m = i - m + j by omega]

theorem slice_lo {n m : Nat} (x : BitVec n) (y : BitVec m) {i k : Nat} (h : i + k ≤ m) :
    (x ++ y).extractLsb' i k = y.extractLsb' i k := by
  apply BitVec.eq_of_getLsbD_eq
  intro j hj
  have h' : i + j < m := by omega
  simp [BitVec.getLsbD_extractLsb', BitVec.getLsbD_append, h']

theorem slice_all {n : Nat} (x : BitVec n) : x.extractLsb' 0 n = x := by
  apply BitVec.eq_of_getLsbD_eq
  intro j hj
  simp [BitVec.getLsbD_extractLsb', hj]

theorem slice_split {n : Nat} (x : BitVec n) (i j k : Nat) :
    x.extractLsb' (i + k) j ++ x.extractLsb' i k = x.extractLsb' i (j + k) := by
  apply BitVec.eq_of_getLsbD_eq
  intro b hb
  simp only [BitVec.getLsbD_append, BitVec.getLsbD_extractLsb']
  by_cases h : b < k
  · simp [h, hb]
  · have h1 : b - k < j := by omega
    simp [h, hb, h1, show i + k + (b - k) = i + b by omega]

theorem slice36 (d : BitVec 36) : d.extractLsb' 18 18 ++ d.extractLsb' 0 18 = d := by
  have := slice_split d 0 18 18
  simp only [Nat.zero_add] at this
  rw [this, slice_all]

theorem slice_pair {n m k : Nat} (x : BitVec n) (y : BitVec m) (z : BitVec k) :
    (x ++ y ++ z).extractLsb' 0 (m + k) = y ++ z := by
  rw [← slice_split _ 0 m k, slice_hi _ _ (by omega : k ≤ 0 + k), slice_lo _ _ (by omega : 0 + k ≤ k), slice_all]
  simp only [Nat.zero_add, Nat.sub_self]
  rw [slice_lo _ _ (by omega : 0 + m ≤ m), slice_all]

theorem bit_hi {n m : Nat} (x : BitVec n) (y : BitVec m) {i : Nat} (h : m ≤ i) :
    (x ++ y).getLsbD i = x.getLsbD (i - m) := by
  have h' : ¬ i < m := by omega
  simp [BitVec.getLsbD_append, h']

theorem bit_lo {n m : Nat} (x : BitVec n) (y : BitVec m) {i : Nat} (h : i < m) :
    (x ++ y).getLsbD i = y.getLsbD i := by
  simp [BitVec.getLsbD_append, h]

theorem bit_ofBool (b : Bool) : (BitVec.ofBool b).getLsbD 0 = b := by cases b <;> rfl

/-! ## The word -/

variable (op : BitVec 8) (fn : BitVec 6) (c : Ctl) (d a b x : BitVec 18)

theorem mkWord_op : (mkWord op fn c d a b x).extractLsb' 88 8 = op := by
  unfold mkWord
  simp only [slice_hi, slice_all, Nat.reduceLeDiff, Nat.reduceSub]

theorem mkWord_fn : (mkWord op fn c d a b x).extractLsb' 82 6 = fn := by
  unfold mkWord
  simp (disch := decide) only [slice_hi, slice_lo, slice_all, Nat.reduceSub]

theorem mkWord_guard : (mkWord op fn c d a b x).extractLsb' 78 4 = BitVec.ofBool c.neg ++ c.p := by
  unfold mkWord
  simp only [slice_hi, Nat.reduceLeDiff, Nat.reduceSub]
  exact slice_pair _ _ _

theorem mkWord_neg : (mkWord op fn c d a b x).getLsbD 81 = c.neg := by
  unfold mkWord
  rw [bit_hi, bit_hi, bit_hi, bit_hi, bit_hi, bit_hi, bit_lo] <;> first | omega | exact bit_ofBool _

theorem mkWord_p : (mkWord op fn c d a b x).extractLsb' 78 3 = c.p := by
  unfold mkWord
  simp (disch := decide) only [slice_hi, slice_lo, slice_all, Nat.reduceSub]

theorem mkWord_h : (mkWord op fn c d a b x).extractLsb' 72 6 = c.h := by
  unfold mkWord
  simp (disch := decide) only [slice_hi, slice_lo, slice_all, Nat.reduceSub]

theorem mkWord_d : (mkWord op fn c d a b x).extractLsb' 54 18 = d ||| (BitVec.ofBool c.chl ++ 0#17) := by
  unfold mkWord
  simp (disch := decide) only [slice_hi, slice_lo, slice_all, Nat.reduceSub]

theorem mkWord_a : (mkWord op fn c d a b x).extractLsb' 36 18 = a := by
  unfold mkWord
  simp (disch := decide) only [slice_hi, slice_lo, slice_all, Nat.reduceSub]

theorem mkWord_b : (mkWord op fn c d a b x).extractLsb' 18 18 = b := by
  unfold mkWord
  simp (disch := decide) only [slice_hi, slice_lo, slice_all, Nat.reduceSub]

theorem mkWord_x : (mkWord op fn c d a b x).extractLsb' 0 18 = x := by
  unfold mkWord
  simp (disch := decide) only [slice_lo, slice_all]

theorem mkWord_71 : (mkWord op fn c d a b x).getLsbD 71 = (d.getLsbD 17 || c.chl) := by
  have h : (mkWord op fn c d a b x).getLsbD 71 = ((mkWord op fn c d a b x).extractLsb' 54 18).getLsbD 17 := by
    simp [BitVec.getLsbD_extractLsb']
  rw [h, mkWord_d, BitVec.getLsbD_or, bit_hi _ _ (by omega : 17 ≤ 17)]
  rw [Nat.sub_self, bit_ofBool]

/-- Guard and hints read back: bit 71 belongs to D, unless the instruction is a memory instruction, whose D has a
zero there (R21). -/
theorem mkWord_ctl (mem : Bool) (hd : mem = true → d.getLsbD 17 = false) (hc : mem = false → c.chl = false) :
    ctlOf mem (mkWord op fn c d a b x) = c := by
  obtain ⟨neg, p, h, chl⟩ := c
  unfold ctlOf
  rw [mkWord_neg, mkWord_p, mkWord_h, mkWord_71]
  cases mem
  · simp at hc; simp [hc]
  · rw [hd rfl]; rfl

theorem or_zero_top (d : BitVec 18) : d ||| (BitVec.ofBool false ++ 0#17) = d := by
  apply BitVec.eq_of_getLsbD_eq
  intro i hi
  rw [BitVec.getLsbD_or]
  have : (BitVec.ofBool false ++ 0#17).getLsbD i = false := by
    rw [BitVec.getLsbD_append]
    split <;> simp
  rw [this, Bool.or_false]

theorem clear_top (d : BitVec 18) (e : Bool) (h : d.getLsbD 17 = false) :
    (d ||| (BitVec.ofBool e ++ 0#17)) &&& 0x1FFFF#18 = d := by
  apply BitVec.eq_of_getLsbD_eq
  intro i hi
  have hm : (0x1FFFF#18).getLsbD i = decide (i < 17) := by
    revert i; decide
  rw [BitVec.getLsbD_and, BitVec.getLsbD_or, hm, BitVec.getLsbD_append]
  by_cases h' : i < 17
  · simp [h']
  · have : i = 17 := by omega
    subst this; rw [h]; simp

/-- The fields read back (R17). -/
theorem mkWord_fields (mem : Bool) (hd : mem = true → d.getLsbD 17 = false) (hc : mem = false → c.chl = false) :
    Fields.ofWord mem (mkWord op fn c d a b x) = ⟨op.toNat, fn, d, a, b, x⟩ := by
  unfold Fields.ofWord
  rw [mkWord_op, mkWord_fn, mkWord_d, mkWord_a, mkWord_b, mkWord_x]
  cases mem
  · simp only [Bool.false_eq_true, if_false]; rw [hc rfl, or_zero_top]
  · simp only [if_true]; rw [clear_top d c.chl (hd rfl)]

/-! ## The two words with a 64-bit displacement (R27) -/

/-- The word of a transfer with a 64-bit displacement. -/
def longWord (op : BitVec 8) (neg : Bool) (p : BitVec 3) (h : BitVec 6) (e : BitVec 64) (l : BitVec 6) : IWord :=
  op ++ 0#6 ++ BitVec.ofBool neg ++ p ++ h ++ e ++ l ++ 0#2

section
variable (op : BitVec 8) (neg : Bool) (p : BitVec 3) (h : BitVec 6) (e : BitVec 64) (l : BitVec 6)

theorem long_op : (longWord op neg p h e l).extractLsb' 88 8 = op := by
  unfold longWord
  simp (disch := decide) only [slice_hi, slice_lo, slice_all, Nat.reduceSub]

theorem long_guard : (longWord op neg p h e l).extractLsb' 78 4 = BitVec.ofBool neg ++ p := by
  unfold longWord
  simp (disch := decide) only [slice_hi, Nat.reduceSub]
  exact slice_pair _ _ _

theorem long_neg : (longWord op neg p h e l).getLsbD 81 = neg := by
  unfold longWord
  simp (disch := decide) only [bit_hi, bit_lo, bit_ofBool, Nat.reduceSub]

theorem long_p : (longWord op neg p h e l).extractLsb' 78 3 = p := by
  unfold longWord
  simp (disch := decide) only [slice_hi, slice_lo, slice_all, Nat.reduceSub]

theorem long_h : (longWord op neg p h e l).extractLsb' 72 6 = h := by
  unfold longWord
  simp (disch := decide) only [slice_hi, slice_lo, slice_all, Nat.reduceSub]

theorem long_e : (longWord op neg p h e l).extractLsb' 8 64 = e := by
  unfold longWord
  simp (disch := decide) only [slice_hi, slice_lo, slice_all, Nat.reduceSub]

theorem long_l : (longWord op neg p h e l).extractLsb' 2 6 = l := by
  unfold longWord
  simp (disch := decide) only [slice_hi, slice_lo, slice_all, Nat.reduceSub]

end

/-! ## Fields -/

theorem mods_s (n : BitVec 6) (m : Mods) : Mods.ofField (0#3 ++ n ++ m.bits ++ 0#3) = m := by
  obtain ⟨hs, swz, neg, abs⟩ := m
  unfold Mods.ofField Mods.bits
  simp (disch := decide) only [slice_hi, slice_lo, slice_all, bit_hi, bit_lo, bit_ofBool, Nat.reduceSub]

theorem mods_v (n : BitVec 5) (m : Mods) : Mods.ofField (1#3 ++ 0#1 ++ n ++ m.bits ++ 0#3) = m := by
  obtain ⟨hs, swz, neg, abs⟩ := m
  unfold Mods.ofField Mods.bits
  simp (disch := decide) only [slice_hi, slice_lo, slice_all, bit_hi, bit_lo, bit_ofBool, Nat.reduceSub]

/-- An operand field reads back; x holds the low bits of a 32-bit immediate (R22, R23, R27). -/
theorem ofField_field (o : Operand) (x : BitVec 18) (h : ∀ i, o = .immW i → x = o.xlow) :
    Operand.ofField o.field x = o := by
  cases o with
  | s n m =>
      simp only [Operand.field, Operand.ofField, mods_s]
      simp (disch := decide) only [slice_hi, slice_lo, slice_all, Nat.reduceSub]
      rfl
  | v n m =>
      simp only [Operand.field, Operand.ofField, mods_v]
      simp (disch := decide) only [slice_hi, slice_lo, slice_all, Nat.reduceSub]
      rfl
  | q n =>
      simp only [Operand.field, Operand.ofField]
      simp (disch := decide) only [slice_hi, slice_lo, slice_all, Nat.reduceSub]
      rfl
  | pm n =>
      simp only [Operand.field, Operand.ofField]
      simp (disch := decide) only [slice_hi, slice_lo, slice_all, Nat.reduceSub]
      rfl
  | acc n =>
      simp only [Operand.field, Operand.ofField]
      simp (disch := decide) only [slice_hi, slice_lo, slice_all, Nat.reduceSub]
      rfl
  | port n =>
      simp only [Operand.field, Operand.ofField]
      simp (disch := decide) only [slice_hi, slice_lo, slice_all, Nat.reduceSub]
      rfl
  | imm i =>
      simp only [Operand.field, Operand.ofField]
      simp (disch := decide) only [slice_hi, slice_lo, slice_all, bit_hi, bit_lo, Nat.reduceSub]
      rfl
  | immW i =>
      rw [h i rfl]
      simp only [Operand.field, Operand.ofField, Operand.xlow]
      simp (disch := decide) only [slice_hi, slice_lo, slice_all, bit_hi, bit_lo, Nat.reduceSub]
      have := slice_split i 0 14 18
      simp only [Nat.zero_add] at this
      rw [this, slice_all]
      rfl
  | none => rfl

theorem fmt_ofCode (f : Fmt) : Fmt.ofCode f.code = some f := by cases f <;> rfl

theorem rel_ofCode (r : Rel) : Rel.ofCode r.code = some r := by cases r <;> rfl

theorem scope_ofCode (s : Scope) : Scope.ofCode s.code = some s := by cases s <;> rfl

theorem fnT_fmt (f : Fmt) (sat : Bool) : Fmt.ofCode ((fnT f sat).extractLsb' 0 5) = some f := by
  unfold fnT
  rw [slice_lo _ _ (by decide), slice_all, fmt_ofCode]

theorem fnT_sat (f : Fmt) (sat : Bool) : (fnT f sat).getLsbD 5 = sat := by
  unfold fnT
  rw [bit_hi _ _ (by decide)]
  exact bit_ofBool sat

theorem fnC_rel (r : Rel) (n : Bool) : Rel.ofCode ((fnC r n).extractLsb' 3 3) = some r := by
  unfold fnC
  simp (disch := decide) only [slice_hi, slice_all, Nat.reduceSub]
  exact rel_ofCode r

theorem fnC_nat (r : Rel) (n : Bool) : (fnC r n).getLsbD 2 = n := by
  unfold fnC
  simp (disch := decide) only [bit_hi, bit_lo, Nat.reduceSub]
  exact bit_ofBool n

theorem fnA_op (op : BitVec 3) (s : Scope) : (fnA op s).extractLsb' 3 3 = op := by
  unfold fnA
  simp (disch := decide) only [slice_hi, slice_all, Nat.reduceSub]

theorem fnA_scope (op : BitVec 3) (s : Scope) : Scope.ofCode ((fnA op s).extractLsb' 0 3) = some s := by
  unfold fnA
  rw [slice_lo _ _ (by decide), slice_all, scope_ofCode]

theorem vx_ofBits (x : VX) : VX.ofBits x.bits = x := by
  obtain ⟨msk, mn, mz, rm, aux, wd, sel⟩ := x
  unfold VX.ofBits VX.bits
  simp (disch := decide) only [slice_hi, slice_lo, slice_all, bit_hi, bit_lo, bit_ofBool, Nat.reduceSub]

theorem sField_n (n : BitVec 6) : (sField n).extractLsb' 9 6 = n := by
  unfold sField
  simp (disch := decide) only [slice_hi, slice_lo, slice_all, Nat.reduceSub]

theorem vField_n (n : BitVec 5) : (vField n).extractLsb' 9 5 = n := by
  unfold vField
  simp (disch := decide) only [slice_hi, slice_lo, slice_all, Nat.reduceSub]

theorem srcField_n (a : SSrc) : (srcField a).extractLsb' 9 6 = a.n := by
  unfold srcField
  simp (disch := decide) only [slice_hi, slice_lo, slice_all, Nat.reduceSub]

theorem srcField_swz (a : SSrc) : (srcField a).extractLsb' 5 3 = a.swz := by
  unfold srcField
  simp (disch := decide) only [slice_hi, slice_lo, slice_all, Nat.reduceSub]

theorem vsField_n (n : BitVec 5) (m : BitVec 3) : (vsField n m).extractLsb' 9 5 = n := by
  unfold vsField
  simp (disch := decide) only [slice_hi, slice_lo, slice_all, Nat.reduceSub]

theorem vsField_swz (n : BitVec 5) (m : BitVec 3) : (vsField n m).extractLsb' 5 3 = m := by
  unfold vsField
  simp (disch := decide) only [slice_hi, slice_lo, slice_all, Nat.reduceSub]

theorem qField_n (n : BitVec 3) : (qField n).extractLsb' 9 3 = n := by
  unfold qField
  simp (disch := decide) only [slice_hi, slice_lo, slice_all, Nat.reduceSub]

theorem pField_n (n : BitVec 3) : (pField n).extractLsb' 9 3 = n := by
  unfold pField
  simp (disch := decide) only [slice_hi, slice_lo, slice_all, Nat.reduceSub]

theorem mField_n (n : BitVec 3) : (mField n).extractLsb' 9 3 = n := by
  unfold mField
  simp (disch := decide) only [slice_hi, slice_lo, slice_all, Nat.reduceSub]

theorem accField_n (n : BitVec 2) : (accField n).extractLsb' 9 2 = n := by
  unfold accField
  simp (disch := decide) only [slice_hi, slice_lo, slice_all, Nat.reduceSub]

theorem cmdField_n (n : BitVec 3) : (cmdField n).extractLsb' 9 3 = n := by
  unfold cmdField
  simp (disch := decide) only [slice_hi, slice_lo, slice_all, Nat.reduceSub]

theorem resField_n (n : BitVec 3) : (resField n).extractLsb' 9 3 = n := by
  unfold resField
  simp (disch := decide) only [slice_hi, slice_lo, slice_all, Nat.reduceSub]

/-- A 32-bit immediate in B and X reads back (R27). -/
theorem immW_i32 (i : BitVec 32) :
    ((Operand.immW i).field.extractLsb' 0 14 ++ (Operand.immW i).xlow : BitVec 32) = i := by
  simp only [Operand.field, Operand.xlow]
  simp (disch := decide) only [slice_lo, slice_all]
  have := slice_split i 0 14 18
  simp only [Nat.zero_add] at this
  rw [this, slice_all]

/-! ## The round trip -/

theorem guard_ne (neg : Bool) (p : BitVec 3) (h : (neg && decide (p = 0)) = false) :
    ¬ (BitVec.ofBool neg ++ p = 8#4) := by
  revert neg p; decide

/-- The fields of a well-formed instruction are legal. -/
theorem wf_form {i : Instr} (c : Ctl) (hc : i.ctl? = some c) (hw : i.wf = true) : i.formOk = true := by
  unfold Instr.wf at hw
  rw [hc] at hw
  simp only [Bool.and_eq_true] at hw
  exact hw.2

/-- Outside the memory instructions, bit 71 is no hint (R21). -/
theorem chl_false {i : Instr} (c : Ctl) (hc : i.ctl? = some c) (hw : i.wf = true) (h0 : i.isMem = false) :
    c.chl = false := by
  unfold Instr.wf at hw
  rw [hc] at hw
  simp only [Ctl.ok, Bool.and_eq_true, h0, Bool.false_or, Bool.not_eq_true'] at hw
  exact hw.1.2

/-- A word whose candidate is the well-formed instruction it encodes decodes to it. -/
theorem decode_encode_of (i : Instr) (c : Ctl) (hc : i.ctl? = some c) (hw : i.wf = true)
    (hg : (encode i).extractLsb' 78 4 = BitVec.ofBool c.neg ++ c.p) (h : candidate (encode i) = some i) :
    decode (encode i) = .ok i := by
  have hok : (c.neg && decide (c.p = 0)) = false := by
    unfold Instr.wf at hw
    rw [hc] at hw
    simp only [Ctl.ok, Bool.and_eq_true, Bool.not_eq_true'] at hw
    exact hw.1.1
  unfold decode
  rw [hg, if_neg (guard_ne _ _ hok), h]
  simp [hw]

/-- The same for a word built of fields, whose candidate is read from them. -/
theorem decode_mkWord (i : Instr) (c : Ctl) (op : BitVec 8) (fn : BitVec 6) (d a b x : BitVec 18)
    (hc : i.ctl? = some c) (he : encode i = mkWord op fn c d a b x) (hw : i.wf = true)
    (hm : memOp op.toNat = i.isMem) (hd : i.isMem = true → d.getLsbD 17 = false)
    (h : ∀ w, candidateOf op.toNat c w ⟨op.toNat, fn, d, a, b, x⟩ = some i) : decode (encode i) = .ok i := by
  refine decode_encode_of i c hc hw (by rw [he, mkWord_guard]) ?_
  have hl : i.isMem = false → c.chl = false := chl_false c hc hw
  rw [he]
  unfold candidate
  simp only [mkWord_op, hm]
  rw [mkWord_ctl op fn c d a b x _ hd hl, mkWord_fields op fn c d a b x _ hd hl]
  exact h _

/-! ## Bytes of a word (R14) -/

theorem leBytes_length (n v : Nat) : (leBytes n v).length = n := by
  induction n generalizing v with
  | zero => rfl
  | succ n ih => simp [leBytes, ih]

/-- The little-endian number of a number's bytes is the number. -/
theorem leNat_leBytes (n v : Nat) : leNat (leBytes n v) = v % 256 ^ n := by
  induction n generalizing v with
  | zero => simp [leBytes, leNat, Nat.mod_one]
  | succ n ih =>
      simp only [leBytes, leNat, ih, BitVec.toNat_ofNat]
      have h : v % 256 ^ (n + 1) = v % 256 + 256 * (v / 256 % 256 ^ n) := by rw [pow_succ', Nat.mod_mul]
      rw [h, show (2 : Nat) ^ 8 = 256 from rfl]

theorem wordBytes_length (w : IWord) : (wordBytes w).length = 12 := leBytes_length 12 _

theorem ofNat_wordBytes (w : IWord) : BitVec.ofNat 96 (leNat (wordBytes w)) = w := by
  unfold wordBytes instrBytes
  rw [leNat_leBytes]
  apply BitVec.eq_of_toNat_eq
  have := w.isLt
  simp only [BitVec.toNat_ofNat]
  omega

end Sys2Proof
end

