-- ==== Sys2Proof/Laws/Engines.lean ====
section
/-! SUPPORT. The engines' and the replays' own recursions in the terms in which statements speak of them. -/

namespace Sys2Proof.Safety

open Sys2Proof.Machine

/-- An answer of a bind is that of its parts. -/
theorem Ans.bind_ok {α β : Type} {x : Ans α} {f : α → Ans β} {y : β} (h : x.bind f = .ok y) :
    ∃ a, x = .ok a ∧ f a = .ok y := by
  cases x <;> first | exact ⟨_, rfl, h⟩ | cases h

/-- What an engine reads one after the other. -/
theorem jobReads_of_readMany {j : Job} {n : Nat} {as : List Word} :
    ∀ {s t : State} {xs : List Nat}, j.readMany n as s = .ok (xs, t) → JobReads j n as s xs t := by
  induction as with
  | nil => intro s t xs h; cases h; exact ⟨rfl, rfl⟩
  | cons a as ih =>
      intro s t xs h
      obtain ⟨⟨b, u⟩, hb, h⟩ := Ans.bind_ok h
      obtain ⟨⟨ys, v⟩, hy, h⟩ := Ans.bind_ok h
      cases h
      exact ⟨b, u, ys, hb, ih hy, rfl⟩

/-- An element that an indirect stream engine moves. -/
theorem movesElem_of_indirectElem {j : Job} {scatter : Bool} {i : Nat} {s t : State} {w : List (Nat × Nat)}
    (h : indirectElem j scatter i s = .ok (w, t)) : MovesElem j scatter i s t w := by
  obtain ⟨⟨ea, s2⟩, ha, h⟩ := Ans.bind_ok h
  obtain ⟨⟨bs, s3⟩, hr, hw⟩ := Ans.bind_ok h
  obtain ⟨⟨x, u⟩, hc, hx⟩ := Ans.bind_ok ha
  cases hx
  obtain ⟨⟨y, s1⟩, hi, hc⟩ := Ans.bind_ok hc
  obtain ⟨⟨b, v⟩, hb, hi⟩ := Ans.bind_ok hi
  cases hi
  by_cases lev : j.cmd.field 0 36 2 = 2
  · simp only [lev, if_true] at hc
    obtain ⟨⟨b', v'⟩, hb', hc⟩ := Ans.bind_ok hc
    cases hc
    exact ⟨b, _, _, _, bs, s3, hb, fun h => absurd (lev.symm.trans h) (by decide), fun _ => ⟨b', rfl, hb'⟩, hr, hw⟩
  · simp only [lev, if_false] at hc
    cases hc
    exact ⟨b, _, _, _, bs, s3, hb, fun _ => ⟨rfl, rfl⟩, fun h => absurd h lev, hr, hw⟩

/-- A record whose guard is true and the path behind it. -/
theorem bodyRecord {m : Mark} {r : TraceRec} {l : List TraceRec} {s t : State}
    (ih : ∀ {s t : State}, replayPath m l s = .ok t → BodyRuns m l s t)
    (h : (if ((pathKey m.guards r).isSome && decide (pathValue r.instr s.hart ≠ r.val)) = true then
        .error (some (0x10, numberIn (pathsOf m.guards m.trace) ((pathKey m.guards r).getD (0, 0))))
      else if r.acc.isSome then
        match replayAccess m.slice m.prec m.next r.instr s with
        | .error cause => .error (some (cause, numberIn (streamsOf m.trace) r.pc))
        | .ok s => replayPath m l s
      else
        match r.instr with
        | .br .. | .bc .. => replayPath m l s
        | i =>
            match replayOp i s with
            | none => .error none
            | some s => replayPath m l s) = .ok t) :
    ((pathKey m.guards r).isSome = true → pathValue r.instr s.hart = r.val) ∧ ∃ u, BodyRuns m l u t ∧
      if r.acc.isSome then replayAccess m.slice m.prec m.next r.instr s = .ok u
      else if (match r.instr with | .br .. | .bc .. => true | _ => false) then u = s
      else replayOp r.instr s = some u := by
  by_cases hp : (pathKey m.guards r).isSome = true ∧ pathValue r.instr s.hart ≠ r.val
  · simp [hp.1, hp.2] at h
  rw [if_neg (by simpa using hp)] at h
  refine ⟨fun hk => Decidable.not_not.mp fun hv => hp ⟨hk, hv⟩, ?_⟩
  by_cases ha : r.acc.isSome = true
  · rw [if_pos ha] at h
    split at h
    · cases h
    · rename_i u hu
      exact ⟨u, ih h, by rw [if_pos ha]; exact hu⟩
  · rw [if_neg ha] at h
    split at h
    · rename_i hr; exact ⟨s, ih h, by rw [if_neg ha, hr]; rfl⟩
    · rename_i hr; exact ⟨s, ih h, by rw [if_neg ha, hr]; rfl⟩
    · rename_i h1 h2
      split at h
      · cases h
      · rename_i u hu
        refine ⟨u, ih h, ?_⟩
        rw [if_neg ha]
        split
        · rename_i hb; cases hb
        · exact hu

/-- The trained path of an iteration runs its records. -/
theorem bodyRuns_of_replayPath {m : Mark} {l : List TraceRec} :
    ∀ {s t : State}, replayPath m l s = .ok t → BodyRuns m l s t := by
  induction l with
  | nil => intro s t h; cases h; rfl
  | cons r l ih =>
      intro s t h
      simp only [replayPath] at h
      unfold BodyRuns
      cases hc : r.instr.ctl? with
      | none =>
          simp only [hc] at h ⊢
          cases hon : r.on with
          | false => simp [hon] at h
          | true => simp only [hon] at h; exact ⟨rfl, fun off => (nomatch off), fun _ => bodyRecord ih h⟩
      | some c =>
          simp only [hc] at h ⊢
          cases hon : r.on <;> cases hg : s.hart.guard c <;> simp only [hon, hg] at h
          · exact ⟨rfl, fun _ => ih h, fun on => (nomatch on)⟩
          · simp at h
          · simp at h
          · exact ⟨rfl, fun off => (nomatch off), fun _ => bodyRecord ih h⟩

/-- Reads that pass are what an engine reads. -/
theorem readMany_of_jobReads {j : Job} {n : Nat} {as : List Word} :
    ∀ {s t : State} {xs : List Nat}, JobReads j n as s xs t → j.readMany n as s = .ok (xs, t) := by
  induction as with
  | nil => rintro s t xs ⟨rfl, rfl⟩; rfl
  | cons a as ih =>
      rintro s t xs ⟨b, u, ys, hb, hr, rfl⟩
      simp only [Job.readMany, hb, Ans.bind, ih hr]

/-- An element moves where its level is one that the command admits (R292). -/
theorem indirectElem_of_movesElem {j : Job} {scatter : Bool} {i : Nat} {s t : State} {w : List (Nat × Nat)}
    (hl : j.cmd.field 0 36 2 = 1 ∨ j.cmd.field 0 36 2 = 2) (h : MovesElem j scatter i s t w) :
    indirectElem j scatter i s = .ok (w, t) := by
  obtain ⟨b, s1, x, s2, bs, s3, hb, h1, h2, hr, hw⟩ := h
  rcases hl with hl | hl
  · obtain ⟨rfl, rfl⟩ := h1 hl
    simp only [entryOf] at hr hw
    simp only [indirectElem, indirectAddr, readIndex, hb, Ans.bind, hl, OfNat.one_ne_ofNat, if_false, hr, hw]
  · obtain ⟨b', rfl, hb'⟩ := h2 hl
    simp only [entryOf] at hr hw hb'
    simp only [indirectElem, indirectAddr, readIndex, hb, Ans.bind, hl, if_true, hb', hr, hw]

/-- A record whose guard is true and the path behind it. -/
theorem pathRecord {m : Mark} {r : TraceRec} {l : List TraceRec} {s t u : State}
    (hp : (pathKey m.guards r).isSome = true → pathValue r.instr s.hart = r.val) (hu : replayPath m l u = .ok t)
    (hx : if r.acc.isSome then replayAccess m.slice m.prec m.next r.instr s = .ok u
      else if (match r.instr with | .br .. | .bc .. => true | _ => false) then u = s
      else replayOp r.instr s = some u) :
    (if ((pathKey m.guards r).isSome && decide (pathValue r.instr s.hart ≠ r.val)) = true then
        .error (some (0x10, numberIn (pathsOf m.guards m.trace) ((pathKey m.guards r).getD (0, 0))))
      else if r.acc.isSome then
        match replayAccess m.slice m.prec m.next r.instr s with
        | .error cause => .error (some (cause, numberIn (streamsOf m.trace) r.pc))
        | .ok s => replayPath m l s
      else
        match r.instr with
        | .br .. | .bc .. => replayPath m l s
        | i =>
            match replayOp i s with
            | none => .error none
            | some s => replayPath m l s) = .ok t := by
  rw [if_neg (by simpa using hp)]
  by_cases ha : r.acc.isSome = true
  · rw [if_pos ha] at hx ⊢; rw [hx]; exact hu
  · rw [if_neg ha] at hx ⊢
    split at hx <;> simp only [if_true, Bool.false_eq_true, if_false] at hx
    · subst hx; exact hu
    · subst hx; exact hu
    · simp only [hx]; exact hu

/-- Records that run are the trained path of an iteration. -/
theorem replayPath_of_bodyRuns {m : Mark} {l : List TraceRec} :
    ∀ {s t : State}, BodyRuns m l s t → replayPath m l s = .ok t := by
  induction l with
  | nil => rintro s t rfl; rfl
  | cons r l ih =>
      rintro s t ⟨hg, off, on⟩
      simp only [replayPath]
      cases hc : r.instr.ctl? with
      | none =>
          simp only [hc] at hg ⊢
          obtain ⟨hp, u, hu, hx⟩ := on hg.symm
          simp only [← hg]
          exact pathRecord hp (ih hu) hx
      | some c =>
          simp only [hc] at hg ⊢
          cases ho : r.on with
          | false => rw [ho] at hg; simp only [hg]; exact ih (off ho)
          | true =>
              rw [ho] at hg
              obtain ⟨hp, u, hu, hx⟩ := on ho
              simp only [hg]
              exact pathRecord hp (ih hu) hx

/-- The elements of an indirect stream command: each moves or is refused, and the first refusal's STATUS stands (R293). -/
theorem indirectElems_run {j : Job} {scatter : Bool} {σ : Nat → State} {w : Nat → List (Nat × Nat)} {st : Nat → Byte}
    {n : Nat} : ∀ (i : Nat) (status : Byte) (ext : List (Nat × Nat)),
    (∀ e, i ≤ e → e < i + n → (st e = 0 → indirectElem j scatter e (σ e) = .ok (w e, σ (e + 1))) ∧
      (st e ≠ 0 → indirectElem j scatter e (σ e) = .bad (st e) ∧ σ (e + 1) = σ e ∧ w e = [])) →
    indirectElems j scatter n i status ext (σ i) = some (finish j.h j.k
      (((status :: (List.range' i n).map st).find? fun x => x ≠ 0).getD 0) 0
      ((σ (i + n)).cover ((List.range' i n).foldl (fun l e => addExt l (w e)) ext))) := by
  induction n with
  | zero =>
      intro i status ext _
      have : ([status].find? fun x => x ≠ 0).getD 0 = status := by
        rw [List.find?_cons]; by_cases h : status = 0 <;>
          simp only [h, ne_eq, not_true_eq_false, not_false_eq_true, decide_true, decide_false, List.find?_nil, Option.getD_none,
            Option.getD_some]
      simp only [indirectElems, List.range'_zero, List.map_nil, List.foldl_nil, Nat.add_zero, this]
  | succ n ih =>
      intro i status ext h
      obtain ⟨moves, refuses⟩ := h i (le_refl _) (by omega)
      have rest := fun x y => ih (i + 1) x y fun e h1 h2 => h e (by omega) (by omega)
      rw [show i + 1 + n = i + (n + 1) by omega] at rest
      simp only [indirectElems, List.range'_succ, List.map_cons, List.foldl_cons]
      by_cases hs : st i = 0
      · rw [moves hs]
        simp only [rest, List.find?_cons, hs, ne_eq, not_true_eq_false, decide_false]
      · obtain ⟨hb, hσ, hw⟩ := refuses hs
        rw [hb, ← hσ]
        simp only [rest, hw, List.find?_cons, hs, ne_eq, not_false_eq_true, decide_true]
        by_cases h0 : status = 0 <;>
          simp only [h0, hs, if_true, if_false, not_true_eq_false, not_false_eq_true, decide_true, decide_false] <;> rfl

/-- The elements of a reduction that all succeed (R295). -/
theorem reduceElems_run {j : Job} {bufs : List Word} {σ u : Nat → State} {xs : Nat → List Nat} {w : Nat → List (Nat × Nat)}
    {n : Nat} : ∀ (i : Nat) (g : Flags) (ext : List (Nat × Nat)),
    (∀ e, i ≤ e → e < i + n →
      j.readMany j.cmd.esize (bufs.map fun b => b + BitVec.ofNat 64 (e * j.cmd.esize)) (σ e) = .ok (xs e, u e) ∧
      j.write (j.cmd.words.getD 3 0 + BitVec.ofNat 64 (e * j.cmd.esize)) (sumElem j.cmd (xs e)).1 false
        { u e with fresh := (u e).fresh + 1 } = .ok (w e, σ (e + 1))) →
    reduceElems j (reduceElem j bufs) (List.range' i n) 0 g ext (σ i) = .ok (0,
      (List.range' i n).foldl (fun a e => a ||| (sumElem j.cmd (xs e)).2) g,
      (σ (i + n)).cover ((List.range' i n).foldl (fun l e => addExt l (w e)) ext)) := by
  induction n with
  | zero => intro i g ext _; rfl
  | succ n ih =>
      intro i g ext h
      obtain ⟨hr, hw⟩ := h i (le_refl _) (by omega)
      have rest := ih (i + 1) (g ||| (sumElem j.cmd (xs i)).2) (addExt ext (w i)) fun e h1 h2 => h e (by omega) (by omega)
      rw [show i + 1 + n = i + (n + 1) by omega] at rest
      have hs : reduceElem j bufs i (σ i) = .ok ((sumElem j.cmd (xs i)).1, (sumElem j.cmd (xs i)).2, u i) := by
        simp only [reduceElem, hr, Ans.bind]
      simp only [List.range'_succ, reduceElems, hs, List.foldl_cons]
      simp only [ne_eq, not_true_eq_false, decide_false, Bool.false_and, Bool.false_eq_true, if_false, hw, rest]

/-- The tokens of an attention whose rows are all intact (R297). -/
theorem attendFrom_run {j : Job} {q : Row} {σ : Nat → State} {bt kb vb : Nat → List Byte} {n : Nat} :
    ∀ (i : Nat) (acc : Soft),
    (∀ t, i ≤ t → t < i + n →
      j.read (j.cmd.words.getD 2 0 + BitVec.ofNat 64 (4 * (t / 16))) 4 (σ t) = .ok (bt t, σ (t + 1)) ∧
      poolBytes j 8 (j.cmd.words.getD 3 0 + BitVec.ofNat 64 (32 * j.cmd.rb * leNat (bt t)) + BitVec.ofNat 64 (j.cmd.rb * (t % 16)))
        (34 * j.cmd.db) (σ (t + 1)) = .ok (kb t) ∧
      poolBytes j 8 (j.cmd.words.getD 3 0 + BitVec.ofNat 64 (32 * j.cmd.rb * leNat (bt t))
        + BitVec.ofNat 64 (j.cmd.rb * (16 + t % 16))) (34 * j.cmd.db) (σ (t + 1)) = .ok (vb t) ∧
      (rowOfBytes j.cmd.db (kb t)).residueOk j.cmd.db = true ∧ (rowOfBytes j.cmd.db (vb t)).residueOk j.cmd.db = true) →
    attendFrom j q n i acc (σ i) = .ok ((List.range' i n).foldl (fun a t =>
      a.token j.cmd.db (j.cmd.field 4 32 32) q (rowOfBytes j.cmd.db (kb t)) (rowOfBytes j.cmd.db (vb t))) acc, σ (i + n)) := by
  induction n with
  | zero => intro i acc _; rfl
  | succ n ih =>
      intro i acc h
      obtain ⟨hb, hk, hv, ok, ov⟩ := h i (le_refl _) (by omega)
      have rest := fun a => ih (i + 1) a fun t h1 h2 => h t (by omega) (by omega)
      rw [show i + 1 + n = i + (n + 1) by omega] at rest
      simp only [attendFrom, hb, Ans.bind, hk, hv, ok, ov, Bool.not_true, Bool.or_self, Bool.false_eq_true, if_false, rest,
        List.range'_succ, List.foldl_cons]

end Sys2Proof.Safety
end

