-- ==== Sys2Proof/Laws/Held.lean ====
section
/-! SUPPORT. While no base-die zone is stopped, nothing waits for a home slice (R463). -/

namespace Sys2Proof.Machine

variable {s : State}

theorem rangeHeld_none (h : s.zonesB = []) (pa n : Nat) : s.rangeHeld pa n = false := by simp [State.rangeHeld, h]

theorem areaHeld_none (h : s.zonesB = []) : s.areaHeld = false := rangeHeld_none h _ _

theorem appendHeld_none (h : s.zonesB = []) (n : Nat) : s.appendHeld n = false := by simp [State.appendHeld, h]

theorem journalHeld_none (h : s.zonesB = []) : s.journalHeld = false := by simp [State.journalHeld, rangeHeld_none h]

theorem recordsHeld_none (h : s.zonesB = []) (a : Agent) (k : Kind) (cs : List Chunk) : s.recordsHeld a k cs = false := by
  simp [State.recordsHeld, h]

theorem purgeHeld_none (h : s.zonesB = []) (g : Agent) (va : Word) (n : Nat) : s.purgeHeld g va n = false := by
  simp [State.purgeHeld, h]

theorem queueHeld_none (h : s.zonesB = []) (p : Byte) (va : Word) (n : Nat) : queueHeld p va n s = false := by
  simp [queueHeld, h]

theorem tableHeld_none (h : s.zonesB = []) (q : Nat) : tableHeld s q = false := by
  simp [tableHeld, rangeHeld_none h, journalHeld_none h]

theorem ringHeld_none (h : s.zonesB = []) (q : Nat) : ringHeld q s = false := by simp [ringHeld, h]

theorem packetHeld_none (h : s.zonesB = []) (q : Nat) (p : Packet) : packetHeld q p s = false := by simp [packetHeld, h]

theorem endHeld_none (h : s.zonesB = []) (l : Launch) : endHeld l s = false := by
  simp [endHeld, journalHeld_none h, queueHeld_none h]

theorem reverseHeld_none (h : s.zonesB = []) : reverseHeld s = false := by simp [reverseHeld, recordHeld, h]

theorem rollbackHeld_none (h : s.zonesB = []) (k : Word) : rollbackHeld k s = false := by
  simp [rollbackHeld, h]

theorem ownersHeld_none (h : s.zonesB = []) (ls : List Launch) : ownersHeld ls s = false := by simp [ownersHeld, h]

end Sys2Proof.Machine
end

