-- ==== Sys2Proof/Laws/Table.lean ====
section
/-! SUPPORT. Laws of sparse tables: read after write, frames, and the canonical form. -/

namespace Sys2Proof.Machine

variable {α : Type}

/-! ## Reading after a change -/

theorem tget_tdel_same (d : α) (l : List (Nat × α)) (k : Nat) : tget d (tdel k l) k = d := by
  induction l with
  | nil => rfl
  | cons p t ih => obtain ⟨k', v⟩ := p; by_cases h : k' = k <;> simp [tdel, tget, h, ih]

theorem tget_tdel_other (d : α) (l : List (Nat × α)) {k j : Nat} (hj : j ≠ k) :
    tget d (tdel k l) j = tget d l j := by
  induction l with
  | nil => rfl
  | cons p t ih =>
      obtain ⟨k', v⟩ := p
      by_cases h : k' = k
      · subst h; simp [tdel, tget, ih, Ne.symm hj]
      · simp [tdel, tget, h, ih]

theorem tget_tins_other (d : α) (l : List (Nat × α)) (v : α) {k j : Nat} (hj : j ≠ k) :
    tget d (tins k v l) j = tget d l j := by
  induction l with
  | nil => simp [tins, tget, Ne.symm hj]
  | cons p t ih =>
      obtain ⟨k', v'⟩ := p
      by_cases h : k < k' <;> simp [tins, tget, h, ih, Ne.symm hj]

theorem tget_tins_tdel (d : α) (l : List (Nat × α)) (k : Nat) (v : α) : tget d (tins k v (tdel k l)) k = v := by
  induction l with
  | nil => simp [tdel, tins, tget]
  | cons p t ih =>
      obtain ⟨k', v'⟩ := p
      by_cases h : k' = k
      · simp [tdel, h, ih]
      · by_cases h' : k < k' <;> simp [tdel, tins, tget, h, h', ih]

variable [DecidableEq α]

/-- A table reads back what was written. -/
theorem tget_tset_same (d : α) (l : List (Nat × α)) (k : Nat) (v : α) : tget d (tset d l k v) k = v := by
  unfold tset
  split
  · next h => rw [h]; exact tget_tdel_same d l k
  · exact tget_tins_tdel d l k v

/-- A write leaves every other key alone. -/
theorem tget_tset_other (d : α) (l : List (Nat × α)) (v : α) {k j : Nat} (hj : j ≠ k) :
    tget d (tset d l k v) j = tget d l j := by
  unfold tset
  split
  · exact tget_tdel_other d l hj
  · rw [tget_tins_other d _ v hj, tget_tdel_other d l hj]

theorem tget_tset (d : α) (l : List (Nat × α)) (k j : Nat) (v : α) :
    tget d (tset d l k v) j = if j = k then v else tget d l j := by
  split
  · next h => rw [h]; exact tget_tset_same d l k v
  · next h => exact tget_tset_other d l v h

/-! ## The canonical form -/

/-- The canonical form: keys rise strictly, and no value is the default. -/
theorem twf_iff (d : α) (l : List (Nat × α)) :
    twf d l = true ↔ l.Pairwise (fun p q => p.1 < q.1) ∧ ∀ p ∈ l, p.2 ≠ d := by
  induction l with
  | nil => simp [twf]
  | cons p t ih =>
      obtain ⟨k, v⟩ := p
      cases t with
      | nil => simp [twf]
      | cons q t =>
          obtain ⟨k', v'⟩ := q
          simp only [twf, Bool.and_eq_true, decide_eq_true_eq, ih]
          constructor
          · rintro ⟨⟨hv, hk⟩, hp, hd⟩
            refine ⟨List.pairwise_cons.2 ⟨?_, hp⟩, ?_⟩
            · intro r hr
              rcases List.mem_cons.1 hr with h | h
              · rw [h]; exact hk
              · exact lt_trans hk ((List.pairwise_cons.1 hp).1 r h)
            · intro r hr
              rcases List.mem_cons.1 hr with h | h
              · rw [h]; exact hv
              · exact hd r h
          · rintro ⟨hp, hd⟩
            obtain ⟨h1, h2⟩ := List.pairwise_cons.1 hp
            exact ⟨⟨hd (k, v) (by simp), h1 (k', v') (by simp)⟩, h2, fun r hr => hd r (List.mem_cons_of_mem _ hr)⟩

theorem twf_nil (d : α) : twf d ([] : List (Nat × α)) = true := rfl

/-- Leaving entries out keeps the form. -/
theorem twf_filter (d : α) (f : Nat × α → Bool) {l : List (Nat × α)} (h : twf d l = true) :
    twf d (l.filter f) = true := by
  rw [twf_iff] at h ⊢
  exact ⟨h.1.filter f, fun p hp => h.2 p (List.mem_of_mem_filter hp)⟩

theorem tdel_eq_filter {β : Type} (k : Nat) (l : List (Nat × β)) : tdel k l = l.filter fun p => p.1 ≠ k := by
  induction l with
  | nil => rfl
  | cons p t ih => obtain ⟨k', v⟩ := p; by_cases h : k' = k <;> simp [tdel, h, ih]

theorem twf_tdel (d : α) (k : Nat) {l : List (Nat × α)} (h : twf d l = true) : twf d (tdel k l) = true := by
  rw [tdel_eq_filter]; exact twf_filter d _ h

theorem mem_tins {β : Type} {k : Nat} {v : β} {l : List (Nat × β)} {p : Nat × β} :
    p ∈ tins k v l ↔ p = (k, v) ∨ p ∈ l := by
  induction l with
  | nil => simp [tins]
  | cons q t ih =>
      obtain ⟨k', v'⟩ := q
      by_cases h : k < k'
      · simp [tins, h]
      · simp only [tins, h, if_false, List.mem_cons, ih]; tauto

theorem pairwise_tins {β : Type} {k : Nat} {v : β} {l : List (Nat × β)}
    (h : l.Pairwise fun p q => p.1 < q.1) (hk : ∀ p ∈ l, p.1 ≠ k) :
    (tins k v l).Pairwise fun p q => p.1 < q.1 := by
  induction l with
  | nil => simp [tins]
  | cons q t ih =>
      obtain ⟨k', v'⟩ := q
      obtain ⟨h1, h2⟩ := List.pairwise_cons.1 h
      by_cases hlt : k < k'
      · simp only [tins, hlt, if_true]
        refine List.pairwise_cons.2 ⟨fun p hp => ?_, h⟩
        rcases List.mem_cons.1 hp with e | e
        · rw [e]; exact hlt
        · exact lt_trans hlt (h1 p e)
      · simp only [tins, hlt, if_false]
        refine List.pairwise_cons.2 ⟨fun p hp => ?_, ih h2 fun p hp => hk p (List.mem_cons_of_mem _ hp)⟩
        rcases mem_tins.1 hp with e | e
        · have := hk (k', v') (by simp); rw [e]; simp only at this ⊢; omega
        · exact h1 p e

/-- A write keeps the form. -/
theorem twf_tset (d : α) {l : List (Nat × α)} (h : twf d l = true) (k : Nat) (v : α) :
    twf d (tset d l k v) = true := by
  unfold tset
  split
  · exact twf_tdel d k h
  · next hv =>
      have hd := (twf_iff d _).1 (twf_tdel d k h)
      refine (twf_iff d _).2 ⟨pairwise_tins hd.1 fun p hp => ?_, fun p hp => ?_⟩
      · rw [tdel_eq_filter] at hp
        simpa using (List.mem_filter.1 hp).2
      · rcases mem_tins.1 hp with e | e
        · rw [e]; exact hv
        · exact hd.2 p e

theorem twf_tsets (d : α) (vs : List α) : ∀ {l : List (Nat × α)} (k : Nat), twf d l = true →
    twf d (tsets d l k vs) = true := by
  induction vs with
  | nil => exact fun _ h => h
  | cons v vs ih => exact fun k h => ih (k + 1) (twf_tset d h k v)

/-- Replacing a run of entries keeps the form. -/
theorem twf_tfill (d : α) {l : List (Nat × α)} (h : twf d l = true) (k : Nat) (vs : List α) :
    twf d (tfill d l k vs) = true := by
  rw [twf_iff] at h ⊢
  obtain ⟨hp, hd⟩ := h
  have hm : ∀ p ∈ ((vs.mapIdx fun i v => (k + i, v)).filter fun p => decide (p.2 ≠ d)),
      k ≤ p.1 ∧ p.1 < k + vs.length ∧ p.2 ≠ d := by
    intro p hp
    obtain ⟨h1, h2⟩ := List.mem_filter.1 hp
    obtain ⟨i, hi, rfl⟩ := List.mem_mapIdx.1 h1
    simp only [decide_eq_true_eq] at h2
    exact ⟨Nat.le_add_right k i, by simp only; omega, h2⟩
  have hmp : ((vs.mapIdx fun i v => (k + i, v)).filter fun p => decide (p.2 ≠ d)).Pairwise
      fun p q => p.1 < q.1 := by
    refine List.Pairwise.filter _ (List.pairwise_iff_getElem.2 fun i j hi hj hij => ?_)
    simpa using hij
  unfold tfill
  refine ⟨?_, ?_⟩
  · rw [List.pairwise_append, List.pairwise_append]
    refine ⟨⟨hp.filter _, hmp, fun a ha b hb => ?_⟩, hp.filter _, fun a ha b hb => ?_⟩
    · have := (List.mem_filter.1 ha).2
      have := (hm b hb).1
      simp only [decide_eq_true_eq] at *
      omega
    · have hb' := (List.mem_filter.1 hb).2
      simp only [decide_eq_true_eq] at hb'
      rcases List.mem_append.1 ha with ha | ha
      · have := (List.mem_filter.1 ha).2
        simp only [decide_eq_true_eq] at this
        omega
      · have := (hm a ha).2.1
        omega
  · intro p hp
    rcases List.mem_append.1 hp with hp | hp
    · rcases List.mem_append.1 hp with hp | hp
      · exact hd p (List.mem_of_mem_filter hp)
      · exact (hm p hp).2.2
    · exact hd p (List.mem_of_mem_filter hp)

/-! ## Reading a filled run -/

omit [DecidableEq α] in
theorem tget_append (d : α) (l m : List (Nat × α)) (k : Nat) (h : ∀ p ∈ l, p.1 ≠ k) :
    tget d (l ++ m) k = tget d m k := by
  induction l with
  | nil => rfl
  | cons p t ih =>
      obtain ⟨k', v⟩ := p
      have := h (k', v) (by simp)
      simp only [List.cons_append, tget]
      rw [if_neg this]
      exact ih fun p hp => h p (List.mem_cons_of_mem _ hp)

omit [DecidableEq α] in
theorem tget_absent (d : α) (l : List (Nat × α)) (k : Nat) (h : ∀ p ∈ l, p.1 ≠ k) : tget d l k = d := by
  have := tget_append d l [] k h
  simpa [tget] using this

omit [DecidableEq α] in
theorem tget_append_left (d : α) (l m : List (Nat × α)) (k : Nat) (h : ∀ p ∈ m, p.1 ≠ k) :
    tget d (l ++ m) k = tget d l k := by
  induction l with
  | nil => exact tget_absent d m k h
  | cons p t ih => obtain ⟨k', v⟩ := p; simp [tget, ih]

omit [DecidableEq α] in
theorem tget_filter (d : α) (f : Nat → Bool) (l : List (Nat × α)) (k : Nat) (h : f k = true) :
    tget d (l.filter fun p => f p.1) k = tget d l k := by
  induction l with
  | nil => rfl
  | cons p t ih =>
      obtain ⟨k', v⟩ := p
      by_cases hk : k' = k
      · subst hk; simp [h, tget]
      · cases hf : f k' <;> simp [hf, tget, hk, ih]

/-- Filling a run leaves every key outside it alone. -/
theorem tget_tfill_other (d : α) (l : List (Nat × α)) (k : Nat) (vs : List α) {j : Nat}
    (hj : j < k ∨ k + vs.length ≤ j) : tget d (tfill d l k vs) j = tget d l j := by
  have hm : ∀ p ∈ ((vs.mapIdx fun i v => (k + i, v)).filter fun p => decide (p.2 ≠ d)), p.1 ≠ j := by
    intro p hp
    obtain ⟨i, hi, rfl⟩ := List.mem_mapIdx.1 (List.mem_of_mem_filter hp)
    simp only; omega
  unfold tfill
  rcases hj with hj | hj
  · rw [tget_append_left d _ _ j, tget_append_left d _ _ j hm, tget_filter d (fun n => decide (n < k)) l j (by simpa)]
    intro p hp
    have := (List.mem_filter.1 hp).2
    simp only [decide_eq_true_eq] at this
    omega
  · rw [List.append_assoc, tget_append d _ _ j, tget_append d _ _ j hm,
      tget_filter d (fun n => decide (k + vs.length ≤ n)) l j (by simpa)]
    intro p hp
    have := (List.mem_filter.1 hp).2
    simp only [decide_eq_true_eq] at this
    omega

/-- Two tables in canonical form that read alike are equal. -/
theorem twf_ext (d : α) {l m : List (Nat × α)} (hl : twf d l = true) (hm : twf d m = true)
    (h : ∀ k, tget d l k = tget d m k) : l = m := by
  rw [twf_iff] at hl hm
  induction l generalizing m with
  | nil =>
      cases m with
      | nil => rfl
      | cons q t => have := h q.1; simp [tget] at this; exact absurd this.symm (hm.2 q (by simp))
  | cons p t ih =>
      cases m with
      | nil => have := h p.1; simp [tget] at this; exact absurd this (hl.2 p (by simp))
      | cons q u =>
          obtain ⟨pk, pv⟩ := p
          obtain ⟨qk, qv⟩ := q
          obtain ⟨hl1, hl2⟩ := List.pairwise_cons.1 hl.1
          obtain ⟨hm1, hm2⟩ := List.pairwise_cons.1 hm.1
          have absT : ∀ k ≤ pk, tget d t k = d := fun k hk =>
            tget_absent d t k fun r hr => by have := hl1 r hr; simp only at this; omega
          have absU : ∀ k ≤ qk, tget d u k = d := fun k hk =>
            tget_absent d u k fun r hr => by have := hm1 r hr; simp only at this; omega
          have hk : pk = qk := by
            by_contra hne
            rcases Nat.lt_or_gt_of_ne hne with hlt | hlt
            · have := h pk
              simp only [tget, if_true, if_neg (Ne.symm hne)] at this
              rw [absU pk (by omega)] at this
              exact hl.2 (pk, pv) (by simp) this
            · have := h qk
              simp only [tget, if_true, if_neg hne] at this
              rw [absT qk (by omega)] at this
              exact hm.2 (qk, qv) (by simp) this.symm
          subst hk
          have hv : pv = qv := by simpa [tget] using h pk
          subst hv
          have := ih (m := u) ⟨hl2, fun r hr => hl.2 r (List.mem_cons_of_mem _ hr)⟩
            ⟨hm2, fun r hr => hm.2 r (List.mem_cons_of_mem _ hr)⟩ fun k => by
              by_cases hk : pk = k
              · rw [absT k (by omega), absU k (by omega)]
              · simpa [tget, hk] using h k
          rw [this]

end Sys2Proof.Machine
end

