-- ==== Sys2Proof/Laws/State.lean ====
section
/-! SUPPORT. What every named update of State and of a hart leaves of each field: one lemma per field per update, and for an update of one
field the record it is. -/

namespace Sys2Proof.Machine

/-! ## Updates of State -/

@[simp] theorem State.onH_cur (f : Hart → Hart) (s : State) : (s.onH f).cur = s.cur := rfl
@[simp] theorem State.onH_hart (f : Hart → Hart) (s : State) : (s.onH f).hart = f s.hart := rfl
@[simp] theorem State.onH_others (f : Hart → Hart) (s : State) : (s.onH f).others = s.others := rfl
@[simp] theorem State.onH_cores (f : Hart → Hart) (s : State) : (s.onH f).cores = s.cores := rfl
@[simp] theorem State.onH_clusters (f : Hart → Hart) (s : State) : (s.onH f).clusters = s.clusters := rfl
@[simp] theorem State.onH_parts (f : Hart → Hart) (s : State) : (s.onH f).parts = s.parts := rfl
@[simp] theorem State.onH_zonesC (f : Hart → Hart) (s : State) : (s.onH f).zonesC = s.zonesC := rfl
@[simp] theorem State.onH_zonesB (f : Hart → Hart) (s : State) : (s.onH f).zonesB = s.zonesB := rfl
@[simp] theorem State.onH_zoneX (f : Hart → Hart) (s : State) : (s.onH f).zoneX = s.zoneX := rfl
@[simp] theorem State.onH_pkg (f : Hart → Hart) (s : State) : (s.onH f).pkg = s.pkg := rfl
@[simp] theorem State.onH_mem (f : Hart → Hart) (s : State) : (s.onH f).mem = s.mem := rfl
@[simp] theorem State.onH_poison (f : Hart → Hart) (s : State) : (s.onH f).poison = s.poison := rfl
@[simp] theorem State.onH_tags (f : Hart → Hart) (s : State) : (s.onH f).tags = s.tags := rfl
@[simp] theorem State.onH_residue (f : Hart → Hart) (s : State) : (s.onH f).residue = s.residue := rfl
@[simp] theorem State.onH_owners (f : Hart → Hart) (s : State) : (s.onH f).owners = s.owners := rfl
@[simp] theorem State.onH_dirty (f : Hart → Hart) (s : State) : (s.onH f).dirty = s.dirty := rfl
@[simp] theorem State.onH_tlb (f : Hart → Hart) (s : State) : (s.onH f).tlb = s.tlb := rfl
@[simp] theorem State.onH_icache (f : Hart → Hart) (s : State) : (s.onH f).icache = s.icache := rfl
@[simp] theorem State.onH_launches (f : Hart → Hart) (s : State) : (s.onH f).launches = s.launches := rfl
@[simp] theorem State.onH_saved (f : Hart → Hart) (s : State) : (s.onH f).saved = s.saved := rfl
@[simp] theorem State.onH_orphans (f : Hart → Hart) (s : State) : (s.onH f).orphans = s.orphans := rfl
@[simp] theorem State.onH_queues (f : Hart → Hart) (s : State) : (s.onH f).queues = s.queues := rfl
@[simp] theorem State.onH_replies (f : Hart → Hart) (s : State) : (s.onH f).replies = s.replies := rfl
@[simp] theorem State.onH_schedule (f : Hart → Hart) (s : State) : (s.onH f).schedule = s.schedule := rfl
@[simp] theorem State.onH_fresh (f : Hart → Hart) (s : State) : (s.onH f).fresh = s.fresh := rfl

@[simp] theorem State.modPkg_cur (f : Pkg → Pkg) (s : State) : (s.modPkg f).cur = s.cur := rfl
@[simp] theorem State.modPkg_hart (f : Pkg → Pkg) (s : State) : (s.modPkg f).hart = s.hart := rfl
@[simp] theorem State.modPkg_others (f : Pkg → Pkg) (s : State) : (s.modPkg f).others = s.others := rfl
@[simp] theorem State.modPkg_cores (f : Pkg → Pkg) (s : State) : (s.modPkg f).cores = s.cores := rfl
@[simp] theorem State.modPkg_clusters (f : Pkg → Pkg) (s : State) : (s.modPkg f).clusters = s.clusters := rfl
@[simp] theorem State.modPkg_parts (f : Pkg → Pkg) (s : State) : (s.modPkg f).parts = s.parts := rfl
@[simp] theorem State.modPkg_zonesC (f : Pkg → Pkg) (s : State) : (s.modPkg f).zonesC = s.zonesC := rfl
@[simp] theorem State.modPkg_zonesB (f : Pkg → Pkg) (s : State) : (s.modPkg f).zonesB = s.zonesB := rfl
@[simp] theorem State.modPkg_zoneX (f : Pkg → Pkg) (s : State) : (s.modPkg f).zoneX = s.zoneX := rfl
@[simp] theorem State.modPkg_pkg (f : Pkg → Pkg) (s : State) : (s.modPkg f).pkg = f s.pkg := rfl
@[simp] theorem State.modPkg_mem (f : Pkg → Pkg) (s : State) : (s.modPkg f).mem = s.mem := rfl
@[simp] theorem State.modPkg_poison (f : Pkg → Pkg) (s : State) : (s.modPkg f).poison = s.poison := rfl
@[simp] theorem State.modPkg_tags (f : Pkg → Pkg) (s : State) : (s.modPkg f).tags = s.tags := rfl
@[simp] theorem State.modPkg_residue (f : Pkg → Pkg) (s : State) : (s.modPkg f).residue = s.residue := rfl
@[simp] theorem State.modPkg_owners (f : Pkg → Pkg) (s : State) : (s.modPkg f).owners = s.owners := rfl
@[simp] theorem State.modPkg_dirty (f : Pkg → Pkg) (s : State) : (s.modPkg f).dirty = s.dirty := rfl
@[simp] theorem State.modPkg_tlb (f : Pkg → Pkg) (s : State) : (s.modPkg f).tlb = s.tlb := rfl
@[simp] theorem State.modPkg_icache (f : Pkg → Pkg) (s : State) : (s.modPkg f).icache = s.icache := rfl
@[simp] theorem State.modPkg_launches (f : Pkg → Pkg) (s : State) : (s.modPkg f).launches = s.launches := rfl
@[simp] theorem State.modPkg_saved (f : Pkg → Pkg) (s : State) : (s.modPkg f).saved = s.saved := rfl
@[simp] theorem State.modPkg_orphans (f : Pkg → Pkg) (s : State) : (s.modPkg f).orphans = s.orphans := rfl
@[simp] theorem State.modPkg_queues (f : Pkg → Pkg) (s : State) : (s.modPkg f).queues = s.queues := rfl
@[simp] theorem State.modPkg_replies (f : Pkg → Pkg) (s : State) : (s.modPkg f).replies = s.replies := rfl
@[simp] theorem State.modPkg_schedule (f : Pkg → Pkg) (s : State) : (s.modPkg f).schedule = s.schedule := rfl
@[simp] theorem State.modPkg_fresh (f : Pkg → Pkg) (s : State) : (s.modPkg f).fresh = s.fresh := rfl

@[simp] theorem State.modCore_cur (c : Nat) (f : Core → Core) (s : State) : (s.modCore c f).cur = s.cur := rfl
@[simp] theorem State.modCore_hart (c : Nat) (f : Core → Core) (s : State) : (s.modCore c f).hart = s.hart := rfl
@[simp] theorem State.modCore_others (c : Nat) (f : Core → Core) (s : State) : (s.modCore c f).others = s.others := rfl
@[simp] theorem State.modCore_cores (c : Nat) (f : Core → Core) (s : State) : (s.modCore c f).cores = tset Core.reset s.cores c (f (s.coreAt c)) := rfl
@[simp] theorem State.modCore_clusters (c : Nat) (f : Core → Core) (s : State) : (s.modCore c f).clusters = s.clusters := rfl
@[simp] theorem State.modCore_parts (c : Nat) (f : Core → Core) (s : State) : (s.modCore c f).parts = s.parts := rfl
@[simp] theorem State.modCore_zonesC (c : Nat) (f : Core → Core) (s : State) : (s.modCore c f).zonesC = s.zonesC := rfl
@[simp] theorem State.modCore_zonesB (c : Nat) (f : Core → Core) (s : State) : (s.modCore c f).zonesB = s.zonesB := rfl
@[simp] theorem State.modCore_zoneX (c : Nat) (f : Core → Core) (s : State) : (s.modCore c f).zoneX = s.zoneX := rfl
@[simp] theorem State.modCore_pkg (c : Nat) (f : Core → Core) (s : State) : (s.modCore c f).pkg = s.pkg := rfl
@[simp] theorem State.modCore_mem (c : Nat) (f : Core → Core) (s : State) : (s.modCore c f).mem = s.mem := rfl
@[simp] theorem State.modCore_poison (c : Nat) (f : Core → Core) (s : State) : (s.modCore c f).poison = s.poison := rfl
@[simp] theorem State.modCore_tags (c : Nat) (f : Core → Core) (s : State) : (s.modCore c f).tags = s.tags := rfl
@[simp] theorem State.modCore_residue (c : Nat) (f : Core → Core) (s : State) : (s.modCore c f).residue = s.residue := rfl
@[simp] theorem State.modCore_owners (c : Nat) (f : Core → Core) (s : State) : (s.modCore c f).owners = s.owners := rfl
@[simp] theorem State.modCore_dirty (c : Nat) (f : Core → Core) (s : State) : (s.modCore c f).dirty = s.dirty := rfl
@[simp] theorem State.modCore_tlb (c : Nat) (f : Core → Core) (s : State) : (s.modCore c f).tlb = s.tlb := rfl
@[simp] theorem State.modCore_icache (c : Nat) (f : Core → Core) (s : State) : (s.modCore c f).icache = s.icache := rfl
@[simp] theorem State.modCore_launches (c : Nat) (f : Core → Core) (s : State) : (s.modCore c f).launches = s.launches := rfl
@[simp] theorem State.modCore_saved (c : Nat) (f : Core → Core) (s : State) : (s.modCore c f).saved = s.saved := rfl
@[simp] theorem State.modCore_orphans (c : Nat) (f : Core → Core) (s : State) : (s.modCore c f).orphans = s.orphans := rfl
@[simp] theorem State.modCore_queues (c : Nat) (f : Core → Core) (s : State) : (s.modCore c f).queues = s.queues := rfl
@[simp] theorem State.modCore_replies (c : Nat) (f : Core → Core) (s : State) : (s.modCore c f).replies = s.replies := rfl
@[simp] theorem State.modCore_schedule (c : Nat) (f : Core → Core) (s : State) : (s.modCore c f).schedule = s.schedule := rfl
@[simp] theorem State.modCore_fresh (c : Nat) (f : Core → Core) (s : State) : (s.modCore c f).fresh = s.fresh := rfl

@[simp] theorem State.modCluster_cur (c : Nat) (f : Cluster → Cluster) (s : State) : (s.modCluster c f).cur = s.cur := rfl
@[simp] theorem State.modCluster_hart (c : Nat) (f : Cluster → Cluster) (s : State) : (s.modCluster c f).hart = s.hart := rfl
@[simp] theorem State.modCluster_others (c : Nat) (f : Cluster → Cluster) (s : State) : (s.modCluster c f).others = s.others := rfl
@[simp] theorem State.modCluster_cores (c : Nat) (f : Cluster → Cluster) (s : State) : (s.modCluster c f).cores = s.cores := rfl
@[simp] theorem State.modCluster_clusters (c : Nat) (f : Cluster → Cluster) (s : State) : (s.modCluster c f).clusters = tset Cluster.reset s.clusters c (f (s.clusterAt c)) := rfl
@[simp] theorem State.modCluster_parts (c : Nat) (f : Cluster → Cluster) (s : State) : (s.modCluster c f).parts = s.parts := rfl
@[simp] theorem State.modCluster_zonesC (c : Nat) (f : Cluster → Cluster) (s : State) : (s.modCluster c f).zonesC = s.zonesC := rfl
@[simp] theorem State.modCluster_zonesB (c : Nat) (f : Cluster → Cluster) (s : State) : (s.modCluster c f).zonesB = s.zonesB := rfl
@[simp] theorem State.modCluster_zoneX (c : Nat) (f : Cluster → Cluster) (s : State) : (s.modCluster c f).zoneX = s.zoneX := rfl
@[simp] theorem State.modCluster_pkg (c : Nat) (f : Cluster → Cluster) (s : State) : (s.modCluster c f).pkg = s.pkg := rfl
@[simp] theorem State.modCluster_mem (c : Nat) (f : Cluster → Cluster) (s : State) : (s.modCluster c f).mem = s.mem := rfl
@[simp] theorem State.modCluster_poison (c : Nat) (f : Cluster → Cluster) (s : State) : (s.modCluster c f).poison = s.poison := rfl
@[simp] theorem State.modCluster_tags (c : Nat) (f : Cluster → Cluster) (s : State) : (s.modCluster c f).tags = s.tags := rfl
@[simp] theorem State.modCluster_residue (c : Nat) (f : Cluster → Cluster) (s : State) : (s.modCluster c f).residue = s.residue := rfl
@[simp] theorem State.modCluster_owners (c : Nat) (f : Cluster → Cluster) (s : State) : (s.modCluster c f).owners = s.owners := rfl
@[simp] theorem State.modCluster_dirty (c : Nat) (f : Cluster → Cluster) (s : State) : (s.modCluster c f).dirty = s.dirty := rfl
@[simp] theorem State.modCluster_tlb (c : Nat) (f : Cluster → Cluster) (s : State) : (s.modCluster c f).tlb = s.tlb := rfl
@[simp] theorem State.modCluster_icache (c : Nat) (f : Cluster → Cluster) (s : State) : (s.modCluster c f).icache = s.icache := rfl
@[simp] theorem State.modCluster_launches (c : Nat) (f : Cluster → Cluster) (s : State) : (s.modCluster c f).launches = s.launches := rfl
@[simp] theorem State.modCluster_saved (c : Nat) (f : Cluster → Cluster) (s : State) : (s.modCluster c f).saved = s.saved := rfl
@[simp] theorem State.modCluster_orphans (c : Nat) (f : Cluster → Cluster) (s : State) : (s.modCluster c f).orphans = s.orphans := rfl
@[simp] theorem State.modCluster_queues (c : Nat) (f : Cluster → Cluster) (s : State) : (s.modCluster c f).queues = s.queues := rfl
@[simp] theorem State.modCluster_replies (c : Nat) (f : Cluster → Cluster) (s : State) : (s.modCluster c f).replies = s.replies := rfl
@[simp] theorem State.modCluster_schedule (c : Nat) (f : Cluster → Cluster) (s : State) : (s.modCluster c f).schedule = s.schedule := rfl
@[simp] theorem State.modCluster_fresh (c : Nat) (f : Cluster → Cluster) (s : State) : (s.modCluster c f).fresh = s.fresh := rfl

@[simp] theorem State.modPart_cur (p : Byte) (f : Part → Part) (s : State) : (s.modPart p f).cur = s.cur := rfl
@[simp] theorem State.modPart_hart (p : Byte) (f : Part → Part) (s : State) : (s.modPart p f).hart = s.hart := rfl
@[simp] theorem State.modPart_others (p : Byte) (f : Part → Part) (s : State) : (s.modPart p f).others = s.others := rfl
@[simp] theorem State.modPart_cores (p : Byte) (f : Part → Part) (s : State) : (s.modPart p f).cores = s.cores := rfl
@[simp] theorem State.modPart_clusters (p : Byte) (f : Part → Part) (s : State) : (s.modPart p f).clusters = s.clusters := rfl
@[simp] theorem State.modPart_parts (p : Byte) (f : Part → Part) (s : State) : (s.modPart p f).parts = tset Part.reset s.parts p.toNat (f (s.partAt p)) := rfl
@[simp] theorem State.modPart_zonesC (p : Byte) (f : Part → Part) (s : State) : (s.modPart p f).zonesC = s.zonesC := rfl
@[simp] theorem State.modPart_zonesB (p : Byte) (f : Part → Part) (s : State) : (s.modPart p f).zonesB = s.zonesB := rfl
@[simp] theorem State.modPart_zoneX (p : Byte) (f : Part → Part) (s : State) : (s.modPart p f).zoneX = s.zoneX := rfl
@[simp] theorem State.modPart_pkg (p : Byte) (f : Part → Part) (s : State) : (s.modPart p f).pkg = s.pkg := rfl
@[simp] theorem State.modPart_mem (p : Byte) (f : Part → Part) (s : State) : (s.modPart p f).mem = s.mem := rfl
@[simp] theorem State.modPart_poison (p : Byte) (f : Part → Part) (s : State) : (s.modPart p f).poison = s.poison := rfl
@[simp] theorem State.modPart_tags (p : Byte) (f : Part → Part) (s : State) : (s.modPart p f).tags = s.tags := rfl
@[simp] theorem State.modPart_residue (p : Byte) (f : Part → Part) (s : State) : (s.modPart p f).residue = s.residue := rfl
@[simp] theorem State.modPart_owners (p : Byte) (f : Part → Part) (s : State) : (s.modPart p f).owners = s.owners := rfl
@[simp] theorem State.modPart_dirty (p : Byte) (f : Part → Part) (s : State) : (s.modPart p f).dirty = s.dirty := rfl
@[simp] theorem State.modPart_tlb (p : Byte) (f : Part → Part) (s : State) : (s.modPart p f).tlb = s.tlb := rfl
@[simp] theorem State.modPart_icache (p : Byte) (f : Part → Part) (s : State) : (s.modPart p f).icache = s.icache := rfl
@[simp] theorem State.modPart_launches (p : Byte) (f : Part → Part) (s : State) : (s.modPart p f).launches = s.launches := rfl
@[simp] theorem State.modPart_saved (p : Byte) (f : Part → Part) (s : State) : (s.modPart p f).saved = s.saved := rfl
@[simp] theorem State.modPart_orphans (p : Byte) (f : Part → Part) (s : State) : (s.modPart p f).orphans = s.orphans := rfl
@[simp] theorem State.modPart_queues (p : Byte) (f : Part → Part) (s : State) : (s.modPart p f).queues = s.queues := rfl
@[simp] theorem State.modPart_replies (p : Byte) (f : Part → Part) (s : State) : (s.modPart p f).replies = s.replies := rfl
@[simp] theorem State.modPart_schedule (p : Byte) (f : Part → Part) (s : State) : (s.modPart p f).schedule = s.schedule := rfl
@[simp] theorem State.modPart_fresh (p : Byte) (f : Part → Part) (s : State) : (s.modPart p f).fresh = s.fresh := rfl

@[simp] theorem State.modLaunch_cur (q : Word) (f : Launch → Launch) (s : State) : (s.modLaunch q f).cur = s.cur := rfl
@[simp] theorem State.modLaunch_hart (q : Word) (f : Launch → Launch) (s : State) : (s.modLaunch q f).hart = s.hart := rfl
@[simp] theorem State.modLaunch_others (q : Word) (f : Launch → Launch) (s : State) : (s.modLaunch q f).others = s.others := rfl
@[simp] theorem State.modLaunch_cores (q : Word) (f : Launch → Launch) (s : State) : (s.modLaunch q f).cores = s.cores := rfl
@[simp] theorem State.modLaunch_clusters (q : Word) (f : Launch → Launch) (s : State) : (s.modLaunch q f).clusters = s.clusters := rfl
@[simp] theorem State.modLaunch_parts (q : Word) (f : Launch → Launch) (s : State) : (s.modLaunch q f).parts = s.parts := rfl
@[simp] theorem State.modLaunch_zonesC (q : Word) (f : Launch → Launch) (s : State) : (s.modLaunch q f).zonesC = s.zonesC := rfl
@[simp] theorem State.modLaunch_zonesB (q : Word) (f : Launch → Launch) (s : State) : (s.modLaunch q f).zonesB = s.zonesB := rfl
@[simp] theorem State.modLaunch_zoneX (q : Word) (f : Launch → Launch) (s : State) : (s.modLaunch q f).zoneX = s.zoneX := rfl
@[simp] theorem State.modLaunch_pkg (q : Word) (f : Launch → Launch) (s : State) : (s.modLaunch q f).pkg = s.pkg := rfl
@[simp] theorem State.modLaunch_mem (q : Word) (f : Launch → Launch) (s : State) : (s.modLaunch q f).mem = s.mem := rfl
@[simp] theorem State.modLaunch_poison (q : Word) (f : Launch → Launch) (s : State) : (s.modLaunch q f).poison = s.poison := rfl
@[simp] theorem State.modLaunch_tags (q : Word) (f : Launch → Launch) (s : State) : (s.modLaunch q f).tags = s.tags := rfl
@[simp] theorem State.modLaunch_residue (q : Word) (f : Launch → Launch) (s : State) : (s.modLaunch q f).residue = s.residue := rfl
@[simp] theorem State.modLaunch_owners (q : Word) (f : Launch → Launch) (s : State) : (s.modLaunch q f).owners = s.owners := rfl
@[simp] theorem State.modLaunch_dirty (q : Word) (f : Launch → Launch) (s : State) : (s.modLaunch q f).dirty = s.dirty := rfl
@[simp] theorem State.modLaunch_tlb (q : Word) (f : Launch → Launch) (s : State) : (s.modLaunch q f).tlb = s.tlb := rfl
@[simp] theorem State.modLaunch_icache (q : Word) (f : Launch → Launch) (s : State) : (s.modLaunch q f).icache = s.icache := rfl
@[simp] theorem State.modLaunch_launches (q : Word) (f : Launch → Launch) (s : State) : (s.modLaunch q f).launches = s.launches.map fun l => if l.seq = q then f l else l := rfl
@[simp] theorem State.modLaunch_saved (q : Word) (f : Launch → Launch) (s : State) : (s.modLaunch q f).saved = s.saved := rfl
@[simp] theorem State.modLaunch_orphans (q : Word) (f : Launch → Launch) (s : State) : (s.modLaunch q f).orphans = s.orphans := rfl
@[simp] theorem State.modLaunch_queues (q : Word) (f : Launch → Launch) (s : State) : (s.modLaunch q f).queues = s.queues := rfl
@[simp] theorem State.modLaunch_replies (q : Word) (f : Launch → Launch) (s : State) : (s.modLaunch q f).replies = s.replies := rfl
@[simp] theorem State.modLaunch_schedule (q : Word) (f : Launch → Launch) (s : State) : (s.modLaunch q f).schedule = s.schedule := rfl
@[simp] theorem State.modLaunch_fresh (q : Word) (f : Launch → Launch) (s : State) : (s.modLaunch q f).fresh = s.fresh := rfl

@[simp] theorem State.advance_cur (s : State) : (s.advance).cur = s.cur := rfl
@[simp] theorem State.advance_hart (s : State) : (s.advance).hart = { s.hart with pc := s.hart.pc + 12, waiting := none } := rfl
@[simp] theorem State.advance_others (s : State) : (s.advance).others = s.others := rfl
@[simp] theorem State.advance_cores (s : State) : (s.advance).cores = s.cores := rfl
@[simp] theorem State.advance_clusters (s : State) : (s.advance).clusters = s.clusters := rfl
@[simp] theorem State.advance_parts (s : State) : (s.advance).parts = s.parts := rfl
@[simp] theorem State.advance_zonesC (s : State) : (s.advance).zonesC = s.zonesC := rfl
@[simp] theorem State.advance_zonesB (s : State) : (s.advance).zonesB = s.zonesB := rfl
@[simp] theorem State.advance_zoneX (s : State) : (s.advance).zoneX = s.zoneX := rfl
@[simp] theorem State.advance_pkg (s : State) : (s.advance).pkg = s.pkg := rfl
@[simp] theorem State.advance_mem (s : State) : (s.advance).mem = s.mem := rfl
@[simp] theorem State.advance_poison (s : State) : (s.advance).poison = s.poison := rfl
@[simp] theorem State.advance_tags (s : State) : (s.advance).tags = s.tags := rfl
@[simp] theorem State.advance_residue (s : State) : (s.advance).residue = s.residue := rfl
@[simp] theorem State.advance_owners (s : State) : (s.advance).owners = s.owners := rfl
@[simp] theorem State.advance_dirty (s : State) : (s.advance).dirty = s.dirty := rfl
@[simp] theorem State.advance_tlb (s : State) : (s.advance).tlb = s.tlb := rfl
@[simp] theorem State.advance_icache (s : State) : (s.advance).icache = s.icache := rfl
@[simp] theorem State.advance_launches (s : State) : (s.advance).launches = s.launches := rfl
@[simp] theorem State.advance_saved (s : State) : (s.advance).saved = s.saved := rfl
@[simp] theorem State.advance_orphans (s : State) : (s.advance).orphans = s.orphans := rfl
@[simp] theorem State.advance_queues (s : State) : (s.advance).queues = s.queues := rfl
@[simp] theorem State.advance_replies (s : State) : (s.advance).replies = s.replies := rfl
@[simp] theorem State.advance_schedule (s : State) : (s.advance).schedule = s.schedule := rfl
@[simp] theorem State.advance_fresh (s : State) : (s.advance).fresh = s.fresh := rfl

@[simp] theorem State.jump_cur (a : Addr) (s : State) : (s.jump a).cur = s.cur := rfl
@[simp] theorem State.jump_hart (a : Addr) (s : State) : (s.jump a).hart = { s.hart with pc := a, waiting := none } := rfl
@[simp] theorem State.jump_others (a : Addr) (s : State) : (s.jump a).others = s.others := rfl
@[simp] theorem State.jump_cores (a : Addr) (s : State) : (s.jump a).cores = s.cores := rfl
@[simp] theorem State.jump_clusters (a : Addr) (s : State) : (s.jump a).clusters = s.clusters := rfl
@[simp] theorem State.jump_parts (a : Addr) (s : State) : (s.jump a).parts = s.parts := rfl
@[simp] theorem State.jump_zonesC (a : Addr) (s : State) : (s.jump a).zonesC = s.zonesC := rfl
@[simp] theorem State.jump_zonesB (a : Addr) (s : State) : (s.jump a).zonesB = s.zonesB := rfl
@[simp] theorem State.jump_zoneX (a : Addr) (s : State) : (s.jump a).zoneX = s.zoneX := rfl
@[simp] theorem State.jump_pkg (a : Addr) (s : State) : (s.jump a).pkg = s.pkg := rfl
@[simp] theorem State.jump_mem (a : Addr) (s : State) : (s.jump a).mem = s.mem := rfl
@[simp] theorem State.jump_poison (a : Addr) (s : State) : (s.jump a).poison = s.poison := rfl
@[simp] theorem State.jump_tags (a : Addr) (s : State) : (s.jump a).tags = s.tags := rfl
@[simp] theorem State.jump_residue (a : Addr) (s : State) : (s.jump a).residue = s.residue := rfl
@[simp] theorem State.jump_owners (a : Addr) (s : State) : (s.jump a).owners = s.owners := rfl
@[simp] theorem State.jump_dirty (a : Addr) (s : State) : (s.jump a).dirty = s.dirty := rfl
@[simp] theorem State.jump_tlb (a : Addr) (s : State) : (s.jump a).tlb = s.tlb := rfl
@[simp] theorem State.jump_icache (a : Addr) (s : State) : (s.jump a).icache = s.icache := rfl
@[simp] theorem State.jump_launches (a : Addr) (s : State) : (s.jump a).launches = s.launches := rfl
@[simp] theorem State.jump_saved (a : Addr) (s : State) : (s.jump a).saved = s.saved := rfl
@[simp] theorem State.jump_orphans (a : Addr) (s : State) : (s.jump a).orphans = s.orphans := rfl
@[simp] theorem State.jump_queues (a : Addr) (s : State) : (s.jump a).queues = s.queues := rfl
@[simp] theorem State.jump_replies (a : Addr) (s : State) : (s.jump a).replies = s.replies := rfl
@[simp] theorem State.jump_schedule (a : Addr) (s : State) : (s.jump a).schedule = s.schedule := rfl
@[simp] theorem State.jump_fresh (a : Addr) (s : State) : (s.jump a).fresh = s.fresh := rfl

@[simp] theorem State.await_cur (i : Instr) (s : State) : (s.await i).cur = s.cur := rfl
@[simp] theorem State.await_hart (i : Instr) (s : State) : (s.await i).hart = { s.hart with waiting := some i, tscAt := none } := rfl
@[simp] theorem State.await_others (i : Instr) (s : State) : (s.await i).others = s.others := rfl
@[simp] theorem State.await_cores (i : Instr) (s : State) : (s.await i).cores = s.cores := rfl
@[simp] theorem State.await_clusters (i : Instr) (s : State) : (s.await i).clusters = s.clusters := rfl
@[simp] theorem State.await_parts (i : Instr) (s : State) : (s.await i).parts = s.parts := rfl
@[simp] theorem State.await_zonesC (i : Instr) (s : State) : (s.await i).zonesC = s.zonesC := rfl
@[simp] theorem State.await_zonesB (i : Instr) (s : State) : (s.await i).zonesB = s.zonesB := rfl
@[simp] theorem State.await_zoneX (i : Instr) (s : State) : (s.await i).zoneX = s.zoneX := rfl
@[simp] theorem State.await_pkg (i : Instr) (s : State) : (s.await i).pkg = s.pkg := rfl
@[simp] theorem State.await_mem (i : Instr) (s : State) : (s.await i).mem = s.mem := rfl
@[simp] theorem State.await_poison (i : Instr) (s : State) : (s.await i).poison = s.poison := rfl
@[simp] theorem State.await_tags (i : Instr) (s : State) : (s.await i).tags = s.tags := rfl
@[simp] theorem State.await_residue (i : Instr) (s : State) : (s.await i).residue = s.residue := rfl
@[simp] theorem State.await_owners (i : Instr) (s : State) : (s.await i).owners = s.owners := rfl
@[simp] theorem State.await_dirty (i : Instr) (s : State) : (s.await i).dirty = s.dirty := rfl
@[simp] theorem State.await_tlb (i : Instr) (s : State) : (s.await i).tlb = s.tlb := rfl
@[simp] theorem State.await_icache (i : Instr) (s : State) : (s.await i).icache = s.icache := rfl
@[simp] theorem State.await_launches (i : Instr) (s : State) : (s.await i).launches = s.launches := rfl
@[simp] theorem State.await_saved (i : Instr) (s : State) : (s.await i).saved = s.saved := rfl
@[simp] theorem State.await_orphans (i : Instr) (s : State) : (s.await i).orphans = s.orphans := rfl
@[simp] theorem State.await_queues (i : Instr) (s : State) : (s.await i).queues = s.queues := rfl
@[simp] theorem State.await_replies (i : Instr) (s : State) : (s.await i).replies = s.replies := rfl
@[simp] theorem State.await_schedule (i : Instr) (s : State) : (s.await i).schedule = s.schedule := rfl
@[simp] theorem State.await_fresh (i : Instr) (s : State) : (s.await i).fresh = s.fresh := rfl

@[simp] theorem State.putByte_cur (pa : Nat) (b : Byte) (s : State) : (s.putByte pa b).cur = s.cur := rfl
@[simp] theorem State.putByte_hart (pa : Nat) (b : Byte) (s : State) : (s.putByte pa b).hart = s.hart := rfl
@[simp] theorem State.putByte_others (pa : Nat) (b : Byte) (s : State) : (s.putByte pa b).others = s.others := rfl
@[simp] theorem State.putByte_cores (pa : Nat) (b : Byte) (s : State) : (s.putByte pa b).cores = s.cores := rfl
@[simp] theorem State.putByte_clusters (pa : Nat) (b : Byte) (s : State) : (s.putByte pa b).clusters = s.clusters := rfl
@[simp] theorem State.putByte_parts (pa : Nat) (b : Byte) (s : State) : (s.putByte pa b).parts = s.parts := rfl
@[simp] theorem State.putByte_zonesC (pa : Nat) (b : Byte) (s : State) : (s.putByte pa b).zonesC = s.zonesC := rfl
@[simp] theorem State.putByte_zonesB (pa : Nat) (b : Byte) (s : State) : (s.putByte pa b).zonesB = s.zonesB := rfl
@[simp] theorem State.putByte_zoneX (pa : Nat) (b : Byte) (s : State) : (s.putByte pa b).zoneX = s.zoneX := rfl
@[simp] theorem State.putByte_pkg (pa : Nat) (b : Byte) (s : State) : (s.putByte pa b).pkg = s.pkg := rfl
@[simp] theorem State.putByte_mem (pa : Nat) (b : Byte) (s : State) : (s.putByte pa b).mem = tset 0 s.mem (s.forward pa) b := rfl
@[simp] theorem State.putByte_poison (pa : Nat) (b : Byte) (s : State) : (s.putByte pa b).poison = s.poison := rfl
@[simp] theorem State.putByte_tags (pa : Nat) (b : Byte) (s : State) : (s.putByte pa b).tags = s.tags := rfl
@[simp] theorem State.putByte_residue (pa : Nat) (b : Byte) (s : State) : (s.putByte pa b).residue = s.residue := rfl
@[simp] theorem State.putByte_owners (pa : Nat) (b : Byte) (s : State) : (s.putByte pa b).owners = s.owners := rfl
@[simp] theorem State.putByte_dirty (pa : Nat) (b : Byte) (s : State) : (s.putByte pa b).dirty = s.dirty := rfl
@[simp] theorem State.putByte_tlb (pa : Nat) (b : Byte) (s : State) : (s.putByte pa b).tlb = s.tlb := rfl
@[simp] theorem State.putByte_icache (pa : Nat) (b : Byte) (s : State) : (s.putByte pa b).icache = s.icache := rfl
@[simp] theorem State.putByte_launches (pa : Nat) (b : Byte) (s : State) : (s.putByte pa b).launches = s.launches := rfl
@[simp] theorem State.putByte_saved (pa : Nat) (b : Byte) (s : State) : (s.putByte pa b).saved = s.saved := rfl
@[simp] theorem State.putByte_orphans (pa : Nat) (b : Byte) (s : State) : (s.putByte pa b).orphans = s.orphans := rfl
@[simp] theorem State.putByte_queues (pa : Nat) (b : Byte) (s : State) : (s.putByte pa b).queues = s.queues := rfl
@[simp] theorem State.putByte_replies (pa : Nat) (b : Byte) (s : State) : (s.putByte pa b).replies = s.replies := rfl
@[simp] theorem State.putByte_schedule (pa : Nat) (b : Byte) (s : State) : (s.putByte pa b).schedule = s.schedule := rfl
@[simp] theorem State.putByte_fresh (pa : Nat) (b : Byte) (s : State) : (s.putByte pa b).fresh = s.fresh := rfl

/-! ## Updates of a hart, each the record it is -/

theorem Hart.ws_eq (n : Nat) (v : Word) (h : Hart) : h.ws n v = { h with s := if n = 0 then h.s else tset 0 h.s n v } := by
  unfold Hart.ws; split <;> rfl
theorem Hart.wp_eq (n : Nat) (b : Bool) (h : Hart) : h.wp n b = { h with p := if n = 0 then h.p else (h.p &&& ~~~((1 : BitVec 8) <<< n)) ||| ((BitVec.ofBool b).setWidth 8 <<< n) } := by
  unfold Hart.wp; split <;> rfl
theorem Hart.setSq_eq (n : Nat) (l : List Word) (h : Hart) : h.setSq n l = { h with qs := tset [] h.qs n l } := rfl
theorem Hart.setVq_eq (n : Nat) (l : List (List (Nat × Elem))) (h : Hart) : h.setVq n l = { h with qv := tset [] h.qv n l } := rfl
theorem Hart.wv_eq (r e : Nat) (x : Elem) (h : Hart) : h.wv r e x = { h with v := tset [] h.v r (tset 0 (tget [] h.v r) e x) } := rfl
theorem Hart.wmask_eq (k e : Nat) (x : Byte) (h : Hart) : h.wmask k e x = { h with m := tset [] h.m k (tset 0 (tget [] h.m k) e x) } := rfl
theorem Hart.modPort_eq (k : Nat) (f : Port → Port) (h : Hart) : h.modPort k f = { h with ports := tset Port.reset h.ports k (f (h.port k)) } := rfl
theorem Hart.setStream_eq (q : Nat) (b : Option Stream) (h : Hart) : h.setStream q b = { h with streams := tset none h.streams q b } := rfl
theorem Hart.bump_eq (c n : Nat) (h : Hart) : h.bump c n = { h with counters := tset 0 h.counters c (h.counter c + BitVec.ofNat 64 n) } := rfl
theorem Hart.flag_eq (f : BitVec 6) (h : Hart) : h.flag f = { h with fflags := h.fflags ||| f } := rfl

/-! ## Registers read back -/

/-- s0 reads zero (R71). -/
@[simp] theorem Hart.rs_zero (h : Hart) : h.rs 0 = 0 := rfl

/-- p0 reads true (R71). -/
@[simp] theorem Hart.rp_zero (h : Hart) : h.rp 0 = true := rfl

/-- A write to s0 is discarded (R71). -/
@[simp] theorem Hart.ws_zero (v : Word) (h : Hart) : h.ws 0 v = h := rfl

/-- A write to p0 is discarded (R71). -/
@[simp] theorem Hart.wp_zero (b : Bool) (h : Hart) : h.wp 0 b = h := rfl

/-- A scalar register reads back what was written, and every other one what it held. -/
theorem Hart.rs_ws (n k : Nat) (v : Word) (h : Hart) :
    (h.ws n v).rs k = if k = n ∧ n ≠ 0 then v else h.rs k := by
  by_cases hn : n = 0
  · subst hn; simp
  · by_cases hk : k = 0
    · subst hk; simp [Hart.rs, Ne.symm hn]
    · simp [Hart.rs, Hart.ws, hn, hk, tget_tset]

/-- A predicate reads back what was written, and every other one what it held. -/
theorem Hart.rp_wp {n : Nat} (k : Nat) (b : Bool) (h : Hart) (hn : n < 8) :
    (h.wp n b).rp k = if k = n ∧ n ≠ 0 then b else h.rp k := by
  by_cases h0 : n = 0
  · subst h0; simp
  · by_cases hk : k = n
    · subst hk
      have : (k == 0) = false := by simp [h0]
      simp [Hart.rp, Hart.wp, h0, this, hn]
    · simp only [Hart.rp, Hart.wp, h0, if_false, hk, false_and]
      congr 1
      by_cases hlt : k < 8
      · rcases Nat.lt_or_gt_of_ne hk with h1 | h1
        · simp [hlt, h1]
        · have h2 : k - n ≠ 0 := by omega
          simp [hlt, h2]
      · simp [BitVec.getLsbD_of_ge _ _ (Nat.le_of_not_lt hlt)]

/-- A scalar queue holds what it was set to, and every other one what it held. -/
theorem Hart.sq_setSq (n k : Nat) (l : List Word) (h : Hart) :
    (h.setSq n l).sq k = if k = n then l else h.sq k := by
  simp [Hart.sq, Hart.setSq, tget_tset]

/-- A vector element reads back what was written, and every other one what it held. -/
theorem Hart.rv_wv (r e r' e' : Nat) (x : Elem) (h : Hart) :
    (h.wv r e x).rv r' e' = if r' = r ∧ e' = e then x else h.rv r' e' := by
  unfold Hart.rv Hart.wv
  simp only [tget_tset]
  by_cases hr : r' = r
  · subst hr; simp [tget_tset]
  · simp [hr]

/-- A mask position reads back what was written, and every other one what it held. -/
theorem Hart.rmask_wmask (k e k' e' : Nat) (x : Byte) (h : Hart) :
    (h.wmask k e x).rmask k' e' = if k' = k ∧ e' = e then x else h.rmask k' e' := by
  unfold Hart.rmask Hart.wmask
  simp only [tget_tset]
  by_cases hr : k' = k
  · subst hr; simp [tget_tset]
  · simp [hr]

/-- A core holds what it was set to, and every other one what it held. -/
theorem State.coreAt_modCore (c k : Nat) (f : Core → Core) (s : State) :
    (s.modCore c f).coreAt k = if k = c then f (s.coreAt c) else s.coreAt k := by
  simp [State.coreAt, tget_tset]

/-- A cluster holds what it was set to, and every other one what it held. -/
theorem State.clusterAt_modCluster (c k : Nat) (f : Cluster → Cluster) (s : State) :
    (s.modCluster c f).clusterAt k = if k = c then f (s.clusterAt c) else s.clusterAt k := by
  simp [State.clusterAt, tget_tset]

end Sys2Proof.Machine
end

