-- ==== Sys2Proof/Laws/Memory.lean ====
section
/-! SUPPORT. Laws of memory: a read after a write, the frame of a write, and the canonical form. -/

namespace Sys2Proof.Machine.State

/-! ## What the operations leave of the package registers -/

@[simp] theorem putBytes_pkg (bs : List Byte) : ∀ (pa : Nat) (s : State), (s.putBytes pa bs).pkg = s.pkg := by
  induction bs with
  | nil => exact fun _ _ => rfl
  | cons b bs ih => intro pa s; simp [putBytes, ih]

theorem forward_congr {s t : State} (h : t.pkg = s.pkg) (pa : Nat) : t.forward pa = s.forward pa := by
  unfold forward moved; rw [h]

/-- Where no migration is in progress or forwarded, an access is served at its address (R390). -/
theorem forward_of_not_fwd {s : State} (h : s.pkg.migFwd = false) (hf : s.pkg.fwds = []) (pa : Nat) :
    s.forward pa = pa := by
  simp [forward, h, hf]

/-! ## One byte -/

/-- A byte reads back what was written, and every byte served elsewhere reads as before. -/
theorem byte_putByte (s : State) (pa a : Nat) (b : Byte) :
    (s.putByte pa b).byte a = if s.forward a = s.forward pa then b else s.byte a := by
  simp only [byte, rawByte, putByte_mem, forward_congr (putByte_pkg pa b s), tget_tset]

/-! ## Runs of bytes -/

/-- A write of bytes leaves every byte served elsewhere alone. -/
theorem byte_putBytes_other (bs : List Byte) : ∀ (pa a : Nat) (s : State),
    (∀ i < bs.length, s.forward a ≠ s.forward (pa + i)) → (s.putBytes pa bs).byte a = s.byte a := by
  induction bs with
  | nil => exact fun _ _ _ _ => rfl
  | cons b bs ih =>
      intro pa a s h
      have hf : ∀ x, (s.putByte pa b).forward x = s.forward x := fun x => forward_congr (putByte_pkg pa b s) x
      rw [putBytes, ih (pa + 1) a _ fun i hi => ?_, byte_putByte, if_neg]
      · simpa using h 0 (by simp)
      · rw [hf, hf]
        have := h (i + 1) (by simp; omega)
        rwa [show pa + 1 + i = pa + (i + 1) by omega]

/-- Without a migration, the bytes written are the bytes read (R7). -/
theorem byte_putBytes_at (bs : List Byte) : ∀ (pa i : Nat) (s : State), s.pkg.migFwd = false → s.pkg.fwds = [] →
    (hi : i < bs.length) → (s.putBytes pa bs).byte (pa + i) = bs[i] := by
  induction bs with
  | nil => intro _ _ _ _ _ hi; simp at hi
  | cons b bs ih =>
      intro pa i s hm hf hi
      have hm' : (s.putByte pa b).pkg.migFwd = false := by simpa using hm
      have hf' : (s.putByte pa b).pkg.fwds = [] := by simpa using hf
      cases i with
      | zero =>
          rw [putBytes, byte_putBytes_other]
          · simp [byte_putByte]
          · intro j _
            rw [forward_of_not_fwd hm' hf', forward_of_not_fwd hm' hf']
            omega
      | succ i =>
          have := ih (pa + 1) i (s.putByte pa b) hm' hf' (by simpa using hi)
          rw [show pa + (i + 1) = pa + 1 + i by omega]
          simpa [putBytes] using this

/-- Without a migration, a range reads back the bytes that were written to it. -/
theorem bytes_putBytes (pa : Nat) (bs : List Byte) (s : State) (hm : s.pkg.migFwd = false) (hf : s.pkg.fwds = []) :
    (s.putBytes pa bs).bytes pa bs.length = bs := by
  apply List.ext_getElem
  · simp [bytes]
  · intro i h1 h2
    simp [bytes, byte_putBytes_at bs pa i s hm hf h2]

/-! ## A write with its tags -/

@[simp] theorem setTags_mem (pa n : Nat) (t : BitVec 28) (s : State) : (s.setTags pa n t).mem = s.mem := by
  unfold setTags
  generalize List.range _ = l
  induction l generalizing s with
  | nil => rfl
  | cons x l ih => simp only [List.foldl_cons]; rw [ih]

@[simp] theorem setTags_pkg (pa n : Nat) (t : BitVec 28) (s : State) : (s.setTags pa n t).pkg = s.pkg := by
  unfold setTags
  generalize List.range _ = l
  induction l generalizing s with
  | nil => rfl
  | cons x l ih => simp only [List.foldl_cons]; rw [ih]

@[simp] theorem recode_mem (pa n : Nat) (s : State) : (s.recode pa n).mem = s.mem := by
  unfold recode; split <;> rfl

@[simp] theorem recode_pkg (pa n : Nat) (s : State) : (s.recode pa n).pkg = s.pkg := by
  unfold recode; split <;> rfl

@[simp] theorem patchHome_mem (pa : Nat) (bs : List Byte) (s : State) : (s.patchHome pa bs).mem = s.mem := by
  unfold patchHome; split <;> rfl

@[simp] theorem patchHome_pkg (pa : Nat) (bs : List Byte) (s : State) : (s.patchHome pa bs).pkg = s.pkg := by
  unfold patchHome; split <;> rfl

/-- Tags and residue mode change no byte (R425, R437). -/
theorem write_mem (pa : Nat) (bs : List Byte) (t : BitVec 28) (s : State) :
    (s.write pa bs t).mem = (s.putBytes pa bs).mem := by
  unfold write
  dsimp only
  split <;> simp

@[simp] theorem write_pkg (pa : Nat) (bs : List Byte) (t : BitVec 28) (s : State) : (s.write pa bs t).pkg = s.pkg := by
  unfold write
  dsimp only
  split <;> simp

/-- What a write reads as is what its bytes read as. -/
theorem byte_write (pa : Nat) (bs : List Byte) (t : BitVec 28) (s : State) (a : Nat) :
    (s.write pa bs t).byte a = (s.putBytes pa bs).byte a := by
  simp only [byte, rawByte, write_mem, forward_congr (write_pkg pa bs t s), forward_congr (putBytes_pkg bs pa s)]

/-! ## The canonical form -/

theorem wf_putByte {s : State} (h : Memory.wf s.mem = true) (pa : Nat) (b : Byte) :
    Memory.wf (s.putByte pa b).mem = true := twf_tset 0 h _ _

theorem wf_putBytes (bs : List Byte) : ∀ (pa : Nat) {s : State}, Memory.wf s.mem = true →
    Memory.wf (s.putBytes pa bs).mem = true := by
  induction bs with
  | nil => exact fun _ _ h => h
  | cons b bs ih => exact fun pa _ h => ih (pa + 1) (wf_putByte h pa b)

theorem wf_write {s : State} (h : Memory.wf s.mem = true) (pa : Nat) (bs : List Byte) (t : BitVec 28) :
    Memory.wf (s.write pa bs t).mem = true := by
  rw [write_mem]; exact wf_putBytes bs pa h

theorem wf_writeDev {s : State} (h : Memory.wf s.mem = true) (pa : Nat) (bs : List Byte) :
    Memory.wf (s.writeDev pa bs).mem = true :=
  wf_write (s := s.patchHome pa bs) (by simpa using h) pa bs _

theorem wf_fillDev {s : State} (h : Memory.wf s.mem = true) (pa : Nat) (bs : List Byte) :
    Memory.wf (s.fillDev pa bs).mem = true := by
  unfold fillDev
  split
  · exact wf_writeDev h pa bs
  · exact twf_tfill 0 (by simpa [Memory.wf] using h) pa bs

theorem wf_fillOpaque {s : State} (h : Memory.wf s.mem = true) (pa n : Nat) :
    Memory.wf (s.fillOpaque pa n).mem = true := wf_fillDev h pa _

/-- Two memories in canonical form that read alike are the same memory. -/
theorem mem_ext {s t : State} (hs : Memory.wf s.mem = true) (ht : Memory.wf t.mem = true)
    (h : ∀ a, s.rawByte a = t.rawByte a) : s.mem = t.mem := twf_ext 0 hs ht h

end Sys2Proof.Machine.State
end

