-- ==== Sys2Proof/Laws/PerInstr.lean ====
section
/-! SUPPORT. The family RoundTrip: a well-formed instruction decodes from its own encoding, one lemma per
constructor; a row without an instruction word is not well formed. -/

namespace Sys2Proof.Laws

/-! ## Operands that a field holds whole -/

/-- Not a 32-bit immediate. -/
def notW : Operand → Bool
  | .immW _ => false
  | _ => true

theorem read_notW (o : Operand) (x : BitVec 18) (h : notW o = true) : Operand.ofField o.field x = o :=
  ofField_field o x fun i hi => by rw [hi] at h; exact absurd h (by simp [notW])

theorem read_xlow (o : Operand) : Operand.ofField o.field o.xlow = o :=
  ofField_field o o.xlow fun _ _ => rfl

theorem notW_isS {o : Operand} (h : o.isS = true) : notW o = true := by cases o <;> first | rfl | exact absurd h (by simp [Operand.isS])
theorem notW_isV {o : Operand} (h : o.isV = true) : notW o = true := by cases o <;> first | rfl | exact absurd h (by simp [Operand.isV])
theorem notW_isNone {o : Operand} (h : o.isNone = true) : notW o = true := by
  cases o <;> first | rfl | exact absurd h (by simp [Operand.isNone])
theorem notW_isM {o : Operand} (h : o.isM = true) : notW o = true := by cases o <;> first | rfl | exact absurd h (by simp [Operand.isM])
theorem notW_isSq {o : Operand} (h : o.isSq = true) : notW o = true := by
  cases o <;> first | rfl | exact absurd h (by simp [Operand.isSq, Operand.isS, Operand.isQs])
theorem notW_isVec {o : Operand} (h : o.isVec = true) : notW o = true := by
  cases o <;> first | rfl | exact absurd h (by simp [Operand.isVec, Operand.isV, Operand.isQv])
theorem notW_isScal {o : Operand} (h : o.isScal = true) : notW o = true := by
  cases o <;> first | rfl | exact absurd h (by simp [Operand.isScal, Operand.isS, Operand.isQs, Operand.isImm14])
theorem notW_isSi {o : Operand} (h : o.isSi = true) : notW o = true := by
  cases o <;> first | rfl | exact absurd h (by simp [Operand.isSi, Operand.isS, Operand.isImm14])
theorem notW_isSqi {o : Operand} (h : o.isSqi = true) : notW o = true := by
  cases o <;> first | rfl | exact absurd h (by simp [Operand.isSqi, Operand.isSq, Operand.isS, Operand.isQs, Operand.isImm14])
theorem notW_isSqp {o : Operand} (h : o.isSqp = true) : notW o = true := by
  cases o <;> first | rfl | exact absurd h (by simp [Operand.isSqp, Operand.isSq, Operand.isS, Operand.isQs])
theorem notW_isRedD {o : Operand} (h : o.isRedD = true) : notW o = true := by
  cases o <;> first | rfl | exact absurd h (by simp [Operand.isRedD, Operand.isS, Operand.isQs, Operand.isV])
theorem notW_mov {o : Operand} (h : (o.isSq || o.isP) = true) : notW o = true := by
  cases o <;> first | rfl | exact absurd h (by simp [Operand.isSq, Operand.isS, Operand.isQs, Operand.isP])
theorem notW_sel {o : Operand} (h : (o.isSq || o.isImm14) = true) : notW o = true := by
  cases o <;> first | rfl | exact absurd h (by simp [Operand.isSq, Operand.isS, Operand.isQs, Operand.isImm14])
theorem notW_vb {o : Operand} (h : (o.isVec || o.isScal) = true) : notW o = true := by
  cases o <;> first | rfl | exact absurd h (by
    simp [Operand.isVec, Operand.isV, Operand.isQv, Operand.isScal, Operand.isS, Operand.isQs, Operand.isImm14])
theorem notW_brk {o : Operand} (h : (o.isImm14 || o.isNone) = true) : notW o = true := by
  cases o <;> first | rfl | exact absurd h (by simp [Operand.isImm14, Operand.isNone])
theorem notW_addi {o : Operand} (h : (o.isSq || o.isNone) = true) : notW o = true := by
  cases o <;> first | rfl | exact absurd h (by simp [Operand.isSq, Operand.isS, Operand.isQs, Operand.isNone])
theorem notW_vmem {o : Operand} (h : (o.isS || o.isImm14) = true) : notW o = true := by
  cases o <;> first | rfl | exact absurd h (by simp [Operand.isS, Operand.isImm14])

/-- The top bit of the field of a scalar or queue operand is zero. -/
theorem top_isSqp {o : Operand} (h : o.isSqp = true) : o.field.getLsbD 17 = false := by
  cases o with
  | s n m => simp only [Operand.field]; simp (disch := decide) only [bit_hi, Nat.reduceSub]; decide
  | q n => simp only [Operand.field]; simp (disch := decide) only [bit_hi, Nat.reduceSub]; decide
  | _ => simp [Operand.isSqp, Operand.isSq, Operand.isS, Operand.isQs] at h

theorem top_vField (n : BitVec 5) : (vField n).getLsbD 17 = false := by
  unfold vField; simp (disch := decide) only [bit_hi, Nat.reduceSub]; decide

theorem top_vsField (n : BitVec 5) (m : BitVec 3) : (vsField n m).getLsbD 17 = false := by
  unfold vsField; simp (disch := decide) only [bit_hi, Nat.reduceSub]; decide

theorem top_qField (n : BitVec 3) : (qField n).getLsbD 17 = false := by
  unfold qField; simp (disch := decide) only [bit_hi, Nat.reduceSub]; decide

theorem sField_ne_none (n : BitVec 6) : sField n ≠ noneField := by revert n; decide

theorem mField_ne_none (n : BitVec 3) : mField n ≠ noneField := by revert n; decide

theorem accField_ne_none (n : BitVec 2) : accField n ≠ noneField := by revert n; decide

/-! ## Whole operand groups -/

theorem s_read (op : Nat) (o : SOps) (x : BitVec 18) (hd : notW o.d = true) (ha : notW o.a = true)
    (hb : notW o.b = true ∨ x = o.b.xlow) :
    Fields.s ⟨op, fnT o.fmt o.sat, o.d.field, o.a.field, o.b.field, x⟩ = some o := by
  have hB : Operand.ofField o.b.field x = o.b := by
    rcases hb with h | h
    · exact read_notW _ _ h
    · rw [h]; exact read_xlow _
  simp only [Fields.s, Fields.dO, Fields.aO, Fields.bO, fnT_fmt, fnT_sat, Option.map_some, read_notW _ x hd,
    read_notW _ x ha, hB]

theorem v_read (op : Nat) (o : VOps) (hd : notW o.d = true) (ha : notW o.a = true) (hb : notW o.b = true) :
    Fields.v ⟨op, fnT o.fmt o.sat, o.d.field, o.a.field, o.b.field, o.x.bits⟩ = some o := by
  simp only [Fields.v, Fields.dO, Fields.aO, Fields.bO, fnT_fmt, fnT_sat, Option.map_some, read_notW _ _ hd,
    read_notW _ _ ha, read_notW _ _ hb, vx_ofBits]

theorem vm_read (op : Nat) (o : VMOps) (hb : notW o.b = true) :
    Fields.vm ⟨op, fnT o.fmt false, vsField o.d o.dswz, srcField o.a, o.b.field,
      BitVec.ofBool o.msk ++ o.mn ++ BitVec.ofBool o.mz ++ BitVec.ofBool o.sc ++ BitVec.ofBool o.si ++ 0#11⟩
      = some o := by
  simp only [Fields.vm, Fields.dV, Fields.aS, Fields.aN, Fields.bO, fnT_fmt, Option.map_some, read_notW _ _ hb, vsField_n, vsField_swz,
    srcField_n, srcField_swz]
  simp (disch := decide) only [slice_hi, slice_lo, slice_all, bit_hi, bit_lo, bit_ofBool, Nat.reduceSub]

/-! ## The family -/

/-- A well-formed instruction decodes from its own encoding. -/
def RoundTrip.Statement (i : Instr) : Prop := i.wf = true → decode (encode i) = .ok i

namespace RoundTrip

theorem nop (c : Ctl) : Statement (.nop c) := by
  intro hw
  refine decode_mkWord _ c _ _ _ _ _ _ rfl rfl hw rfl ?_ fun w => ?_
  · exact fun h => Bool.noConfusion (show false = true from h)
  · rfl

theorem pad (c : Ctl) : Statement (.pad c) := by
  intro hw
  refine decode_mkWord _ c _ _ _ _ _ _ rfl rfl hw rfl ?_ fun w => ?_
  · exact fun h => Bool.noConfusion (show false = true from h)
  · rfl

theorem br (c : Ctl) (disp : BitVec 32) : Statement (.br c disp) := by
  intro hw
  refine decode_mkWord _ c _ _ _ _ _ _ rfl rfl hw rfl ?_ fun w => ?_
  · exact fun h => Bool.noConfusion (show false = true from h)
  · show (fun (f : Fields) => (some (.br c f.i32) : Option Instr)) ⟨_, _, _, _, _, _⟩ = _
    simp (disch := decide) only [Fields.dO, Fields.aO, Fields.bO, Fields.dN, Fields.aS, Fields.aN, Fields.bN,
      Fields.dV, Fields.aV, Fields.bV, Fields.dM, Fields.aM, Fields.bM, Fields.dT, Fields.aT, Fields.i32,
      Fields.fmt, Fields.rel, Fields.nat, Fields.fscope, Fields.xscope, fnT_fmt, fnT_sat, fnC_rel, fnC_nat,
      fnA_op, fnA_scope, scope_ofCode, fmt_ofCode, vx_ofBits, sField_n, srcField_n, srcField_swz, vField_n,
      qField_n, pField_n, mField_n, accField_n, cmdField_n, resField_n, immW_i32, slice_hi, slice_lo, slice_all,
      bit_hi, bit_lo, bit_ofBool, Nat.reduceSub, Option.map_some, Option.bind_some, read_xlow, slice36]

theorem brl (c : Ctl) (disp : BitVec 64) : Statement (.brl c disp) := by
  intro hw
  have hl : c.chl = false := chl_false c rfl hw rfl
  obtain ⟨neg, p, h, chl⟩ := c
  simp only at hl
  subst hl
  have he : encode (.brl ⟨neg, p, h, false⟩ disp) = longWord 0x02#8 neg p h disp 0#6 := by
    show (0x02#8 ++ 0#6 ++ BitVec.ofBool neg ++ p ++ h ++ disp ++ 0#8 : IWord) = _
    unfold longWord
    apply BitVec.eq_of_getLsbD_eq
    intro i hi
    simp only [BitVec.getLsbD_append]
    by_cases h8 : i < 8
    · have h6 : i - 2 < 6 := by omega
      by_cases h2 : i < 2 <;> simp [h2, h8, h6]
    · have h2 : ¬ i < 2 := by omega
      have h6 : ¬ i - 2 < 6 := by omega
      simp only [h8, h2, h6, if_false, show i - 2 - 6 = i - 8 by omega]
  refine decode_encode_of _ _ rfl hw (by rw [he, long_guard]) ?_
  rw [he]
  unfold candidate
  have hm : memOp (BitVec.toNat 0x02#8) = false := by decide
  simp only [long_op, hm, Fields.ofWord]
  show some (Instr.brl (ctlOf false (longWord 0x02#8 neg p h disp 0#6)) ((longWord 0x02#8 neg p h disp 0#6).extractLsb' 8 64)) = _
  simp only [ctlOf, long_neg, long_p, long_h, long_e, Bool.false_and]

theorem bc (c : Ctl) (rel : Rel) (nat : Bool) (a : BitVec 6) (b : Operand) (disp : BitVec 36) : Statement (.bc c rel nat a b disp) := by
  intro hw
  have hf : (relOk rel nat && b.isSi && dispOk disp) = true := wf_form c rfl hw
  simp only [Bool.and_eq_true] at hf
  have hb : notW b = true := notW_isSi (by tauto)
  refine decode_mkWord _ c _ _ _ _ _ _ rfl rfl hw rfl ?_ fun w => ?_
  · exact fun h => Bool.noConfusion (show false = true from h)
  · show (fun (f : Fields) => (f.rel.map fun r => .bc c r f.nat f.aN f.bO (f.d ++ f.x) : Option Instr)) ⟨_, _, _, _, _, _⟩ = _
    simp (disch := decide) only [Fields.dO, Fields.aO, Fields.bO, Fields.dN, Fields.aS, Fields.aN, Fields.bN,
      Fields.dV, Fields.aV, Fields.bV, Fields.dM, Fields.aM, Fields.bM, Fields.dT, Fields.aT, Fields.i32,
      Fields.fmt, Fields.rel, Fields.nat, Fields.fscope, Fields.xscope, fnT_fmt, fnT_sat, fnC_rel, fnC_nat,
      fnA_op, fnA_scope, scope_ofCode, fmt_ofCode, vx_ofBits, sField_n, srcField_n, srcField_swz, vField_n,
      qField_n, pField_n, mField_n, accField_n, cmdField_n, resField_n, immW_i32, slice_hi, slice_lo, slice_all,
      bit_hi, bit_lo, bit_ofBool, Nat.reduceSub, Option.map_some, Option.bind_some, read_xlow, slice36, read_notW
      _ _ hb]

theorem dbnz (c : Ctl) (d : BitVec 6) (disp : BitVec 32) : Statement (.dbnz c d disp) := by
  intro hw
  refine decode_mkWord _ c _ _ _ _ _ _ rfl rfl hw rfl ?_ fun w => ?_
  · exact fun h => Bool.noConfusion (show false = true from h)
  · show (fun (f : Fields) => (some (.dbnz c f.dN f.i32) : Option Instr)) ⟨_, _, _, _, _, _⟩ = _
    simp (disch := decide) only [Fields.dO, Fields.aO, Fields.bO, Fields.dN, Fields.aS, Fields.aN, Fields.bN,
      Fields.dV, Fields.aV, Fields.bV, Fields.dM, Fields.aM, Fields.bM, Fields.dT, Fields.aT, Fields.i32,
      Fields.fmt, Fields.rel, Fields.nat, Fields.fscope, Fields.xscope, fnT_fmt, fnT_sat, fnC_rel, fnC_nat,
      fnA_op, fnA_scope, scope_ofCode, fmt_ofCode, vx_ofBits, sField_n, srcField_n, srcField_swz, vField_n,
      qField_n, pField_n, mField_n, accField_n, cmdField_n, resField_n, immW_i32, slice_hi, slice_lo, slice_all,
      bit_hi, bit_lo, bit_ofBool, Nat.reduceSub, Option.map_some, Option.bind_some, read_xlow, slice36]

theorem call (c : Ctl) (d : BitVec 6) (disp : BitVec 32) : Statement (.call c d disp) := by
  intro hw
  refine decode_mkWord _ c _ _ _ _ _ _ rfl rfl hw rfl ?_ fun w => ?_
  · exact fun h => Bool.noConfusion (show false = true from h)
  · show (fun (f : Fields) => (some (.call c f.dN f.i32) : Option Instr)) ⟨_, _, _, _, _, _⟩ = _
    simp (disch := decide) only [Fields.dO, Fields.aO, Fields.bO, Fields.dN, Fields.aS, Fields.aN, Fields.bN,
      Fields.dV, Fields.aV, Fields.bV, Fields.dM, Fields.aM, Fields.bM, Fields.dT, Fields.aT, Fields.i32,
      Fields.fmt, Fields.rel, Fields.nat, Fields.fscope, Fields.xscope, fnT_fmt, fnT_sat, fnC_rel, fnC_nat,
      fnA_op, fnA_scope, scope_ofCode, fmt_ofCode, vx_ofBits, sField_n, srcField_n, srcField_swz, vField_n,
      qField_n, pField_n, mField_n, accField_n, cmdField_n, resField_n, immW_i32, slice_hi, slice_lo, slice_all,
      bit_hi, bit_lo, bit_ofBool, Nat.reduceSub, Option.map_some, Option.bind_some, read_xlow, slice36]

theorem calll (c : Ctl) (link : BitVec 6) (disp : BitVec 64) : Statement (.calll c link disp) := by
  intro hw
  have hl : c.chl = false := chl_false c rfl hw rfl
  obtain ⟨neg, p, h, chl⟩ := c
  simp only at hl
  subst hl
  have he : encode (.calll ⟨neg, p, h, false⟩ link disp) = longWord 0x06#8 neg p h disp link := rfl
  refine decode_encode_of _ _ rfl hw (by rw [he, long_guard]) ?_
  rw [he]
  unfold candidate
  have hm : memOp (BitVec.toNat 0x06#8) = false := by decide
  simp only [long_op, hm, Fields.ofWord]
  show some (Instr.calll (ctlOf false (longWord 0x06#8 neg p h disp link))
    ((longWord 0x06#8 neg p h disp link).extractLsb' 2 6) ((longWord 0x06#8 neg p h disp link).extractLsb' 8 64)) = _
  simp only [ctlOf, long_neg, long_p, long_h, long_e, long_l, Bool.false_and]

theorem jcall (c : Ctl) (d : BitVec 6) (a : SSrc) : Statement (.jcall c d a) := by
  intro hw
  refine decode_mkWord _ c _ _ _ _ _ _ rfl rfl hw rfl ?_ fun w => ?_
  · exact fun h => Bool.noConfusion (show false = true from h)
  · show (fun (f : Fields) => (some (.jcall c f.dN f.aS) : Option Instr)) ⟨_, _, _, _, _, _⟩ = _
    simp (disch := decide) only [Fields.dO, Fields.aO, Fields.bO, Fields.dN, Fields.aS, Fields.aN, Fields.bN,
      Fields.dV, Fields.aV, Fields.bV, Fields.dM, Fields.aM, Fields.bM, Fields.dT, Fields.aT, Fields.i32,
      Fields.fmt, Fields.rel, Fields.nat, Fields.fscope, Fields.xscope, fnT_fmt, fnT_sat, fnC_rel, fnC_nat,
      fnA_op, fnA_scope, scope_ofCode, fmt_ofCode, vx_ofBits, sField_n, srcField_n, srcField_swz, vField_n,
      qField_n, pField_n, mField_n, accField_n, cmdField_n, resField_n, immW_i32, slice_hi, slice_lo, slice_all,
      bit_hi, bit_lo, bit_ofBool, Nat.reduceSub, Option.map_some, Option.bind_some, read_xlow, slice36]

theorem jr (c : Ctl) (a : SSrc) : Statement (.jr c a) := by
  intro hw
  refine decode_mkWord _ c _ _ _ _ _ _ rfl rfl hw rfl ?_ fun w => ?_
  · exact fun h => Bool.noConfusion (show false = true from h)
  · show (fun (f : Fields) => (some (.jr c f.aS) : Option Instr)) ⟨_, _, _, _, _, _⟩ = _
    simp (disch := decide) only [Fields.dO, Fields.aO, Fields.bO, Fields.dN, Fields.aS, Fields.aN, Fields.bN,
      Fields.dV, Fields.aV, Fields.bV, Fields.dM, Fields.aM, Fields.bM, Fields.dT, Fields.aT, Fields.i32,
      Fields.fmt, Fields.rel, Fields.nat, Fields.fscope, Fields.xscope, fnT_fmt, fnT_sat, fnC_rel, fnC_nat,
      fnA_op, fnA_scope, scope_ofCode, fmt_ofCode, vx_ofBits, sField_n, srcField_n, srcField_swz, vField_n,
      qField_n, pField_n, mField_n, accField_n, cmdField_n, resField_n, immW_i32, slice_hi, slice_lo, slice_all,
      bit_hi, bit_lo, bit_ofBool, Nat.reduceSub, Option.map_some, Option.bind_some, read_xlow, slice36]

theorem ret (c : Ctl) (a : SSrc) : Statement (.ret c a) := by
  intro hw
  refine decode_mkWord _ c _ _ _ _ _ _ rfl rfl hw rfl ?_ fun w => ?_
  · exact fun h => Bool.noConfusion (show false = true from h)
  · show (fun (f : Fields) => (some (.ret c f.aS) : Option Instr)) ⟨_, _, _, _, _, _⟩ = _
    simp (disch := decide) only [Fields.dO, Fields.aO, Fields.bO, Fields.dN, Fields.aS, Fields.aN, Fields.bN,
      Fields.dV, Fields.aV, Fields.bV, Fields.dM, Fields.aM, Fields.bM, Fields.dT, Fields.aT, Fields.i32,
      Fields.fmt, Fields.rel, Fields.nat, Fields.fscope, Fields.xscope, fnT_fmt, fnT_sat, fnC_rel, fnC_nat,
      fnA_op, fnA_scope, scope_ofCode, fmt_ofCode, vx_ofBits, sField_n, srcField_n, srcField_swz, vField_n,
      qField_n, pField_n, mField_n, accField_n, cmdField_n, resField_n, immW_i32, slice_hi, slice_lo, slice_all,
      bit_hi, bit_lo, bit_ofBool, Nat.reduceSub, Option.map_some, Option.bind_some, read_xlow, slice36]

theorem ifpf (c : Ctl) (level : BitVec 2) (a : SSrc) (b : Operand) : Statement (.ifpf c level a b) := by
  intro hw
  refine decode_mkWord _ c _ _ _ _ _ _ rfl rfl hw rfl ?_ fun w => ?_
  · exact fun h => Bool.noConfusion (show false = true from h)
  · show (fun (f : Fields) => (some (.ifpf c (f.fn.extractLsb' 0 2) f.aS f.bO) : Option Instr)) ⟨_, _, _, _, _, _⟩ = _
    simp (disch := decide) only [Fields.dO, Fields.aO, Fields.bO, Fields.dN, Fields.aS, Fields.aN, Fields.bN,
      Fields.dV, Fields.aV, Fields.bV, Fields.dM, Fields.aM, Fields.bM, Fields.dT, Fields.aT, Fields.i32,
      Fields.fmt, Fields.rel, Fields.nat, Fields.fscope, Fields.xscope, fnT_fmt, fnT_sat, fnC_rel, fnC_nat,
      fnA_op, fnA_scope, scope_ofCode, fmt_ofCode, vx_ofBits, sField_n, srcField_n, srcField_swz, vField_n,
      qField_n, pField_n, mField_n, accField_n, cmdField_n, resField_n, immW_i32, slice_hi, slice_lo, slice_all,
      bit_hi, bit_lo, bit_ofBool, Nat.reduceSub, Option.map_some, Option.bind_some, read_xlow, slice36]

theorem add (c : Ctl) (o : SOps) : Statement (.add c o) := by
  intro hw
  have hf : sopsOk true true o = true := wf_form c rfl hw
  simp only [sopsOk, Bool.and_eq_true] at hf
  obtain ⟨⟨⟨⟨⟨⟨⟨-, -⟩, hd⟩, -⟩, ha⟩, -⟩, -⟩, -⟩ := hf
  refine decode_mkWord _ c _ _ _ _ _ _ rfl rfl hw rfl ?_ fun w => ?_
  · exact fun h => Bool.noConfusion (show false = true from h)
  · show (Fields.s _).map (Instr.add c) = _
    rw [s_read _ o _ (notW_isSq hd) (notW_isSq ha) (.inr rfl)]; rfl

theorem sub (c : Ctl) (o : SOps) : Statement (.sub c o) := by
  intro hw
  have hf : sopsOk true true o = true := wf_form c rfl hw
  simp only [sopsOk, Bool.and_eq_true] at hf
  obtain ⟨⟨⟨⟨⟨⟨⟨-, -⟩, hd⟩, -⟩, ha⟩, -⟩, -⟩, -⟩ := hf
  refine decode_mkWord _ c _ _ _ _ _ _ rfl rfl hw rfl ?_ fun w => ?_
  · exact fun h => Bool.noConfusion (show false = true from h)
  · show (Fields.s _).map (Instr.sub c) = _
    rw [s_read _ o _ (notW_isSq hd) (notW_isSq ha) (.inr rfl)]; rfl

theorem addi (c : Ctl) (o : SOps) (simm : BitVec 18) : Statement (.addi c o simm) := by
  intro hw
  have hf : (o.fmt.scalar && o.d.isSq && o.d.plain && o.a.isSq && o.a.modsInt o.fmt && (o.b.isSq || o.b.isNone) && o.b.modsInt o.fmt) = true := wf_form c rfl hw
  simp only [Bool.and_eq_true] at hf
  have hd : notW o.d = true := notW_isSq (by tauto)
  have ha : notW o.a = true := notW_isSq (by tauto)
  have hb : notW o.b = true := notW_addi (by tauto)
  refine decode_mkWord _ c _ _ _ _ _ _ rfl rfl hw rfl ?_ fun w => ?_
  · exact fun h => Bool.noConfusion (show false = true from h)
  · show (Fields.s _).map (fun o => Instr.addi c o simm) = _
    rw [s_read _ o _ hd ha (.inl hb)]; rfl

theorem mul (c : Ctl) (o : SOps) : Statement (.mul c o) := by
  intro hw
  have hf : sopsOk true true o = true := wf_form c rfl hw
  simp only [sopsOk, Bool.and_eq_true] at hf
  obtain ⟨⟨⟨⟨⟨⟨⟨-, -⟩, hd⟩, -⟩, ha⟩, -⟩, -⟩, -⟩ := hf
  refine decode_mkWord _ c _ _ _ _ _ _ rfl rfl hw rfl ?_ fun w => ?_
  · exact fun h => Bool.noConfusion (show false = true from h)
  · show (Fields.s _).map (Instr.mul c) = _
    rw [s_read _ o _ (notW_isSq hd) (notW_isSq ha) (.inr rfl)]; rfl

theorem mulh (c : Ctl) (o : SOps) : Statement (.mulh c o) := by
  intro hw
  have hf : sopsOk false true o = true := wf_form c rfl hw
  simp only [sopsOk, Bool.and_eq_true] at hf
  obtain ⟨⟨⟨⟨⟨⟨⟨-, -⟩, hd⟩, -⟩, ha⟩, -⟩, -⟩, -⟩ := hf
  refine decode_mkWord _ c _ _ _ _ _ _ rfl rfl hw rfl ?_ fun w => ?_
  · exact fun h => Bool.noConfusion (show false = true from h)
  · show (Fields.s _).map (Instr.mulh c) = _
    rw [s_read _ o _ (notW_isSq hd) (notW_isSq ha) (.inr rfl)]; rfl

theorem div (c : Ctl) (o : SOps) : Statement (.div c o) := by
  intro hw
  have hf : sopsOk true true o = true := wf_form c rfl hw
  simp only [sopsOk, Bool.and_eq_true] at hf
  obtain ⟨⟨⟨⟨⟨⟨⟨-, -⟩, hd⟩, -⟩, ha⟩, -⟩, -⟩, -⟩ := hf
  refine decode_mkWord _ c _ _ _ _ _ _ rfl rfl hw rfl ?_ fun w => ?_
  · exact fun h => Bool.noConfusion (show false = true from h)
  · show (Fields.s _).map (Instr.div c) = _
    rw [s_read _ o _ (notW_isSq hd) (notW_isSq ha) (.inr rfl)]; rfl

theorem rem (c : Ctl) (o : SOps) : Statement (.rem c o) := by
  intro hw
  have hf : sopsOk false true o = true := wf_form c rfl hw
  simp only [sopsOk, Bool.and_eq_true] at hf
  obtain ⟨⟨⟨⟨⟨⟨⟨-, -⟩, hd⟩, -⟩, ha⟩, -⟩, -⟩, -⟩ := hf
  refine decode_mkWord _ c _ _ _ _ _ _ rfl rfl hw rfl ?_ fun w => ?_
  · exact fun h => Bool.noConfusion (show false = true from h)
  · show (Fields.s _).map (Instr.rem c) = _
    rw [s_read _ o _ (notW_isSq hd) (notW_isSq ha) (.inr rfl)]; rfl

theorem min (c : Ctl) (o : SOps) : Statement (.min c o) := by
  intro hw
  have hf : sopsOk false true o = true := wf_form c rfl hw
  simp only [sopsOk, Bool.and_eq_true] at hf
  obtain ⟨⟨⟨⟨⟨⟨⟨-, -⟩, hd⟩, -⟩, ha⟩, -⟩, -⟩, -⟩ := hf
  refine decode_mkWord _ c _ _ _ _ _ _ rfl rfl hw rfl ?_ fun w => ?_
  · exact fun h => Bool.noConfusion (show false = true from h)
  · show (Fields.s _).map (Instr.min c) = _
    rw [s_read _ o _ (notW_isSq hd) (notW_isSq ha) (.inr rfl)]; rfl

theorem max (c : Ctl) (o : SOps) : Statement (.max c o) := by
  intro hw
  have hf : sopsOk false true o = true := wf_form c rfl hw
  simp only [sopsOk, Bool.and_eq_true] at hf
  obtain ⟨⟨⟨⟨⟨⟨⟨-, -⟩, hd⟩, -⟩, ha⟩, -⟩, -⟩, -⟩ := hf
  refine decode_mkWord _ c _ _ _ _ _ _ rfl rfl hw rfl ?_ fun w => ?_
  · exact fun h => Bool.noConfusion (show false = true from h)
  · show (Fields.s _).map (Instr.max c) = _
    rw [s_read _ o _ (notW_isSq hd) (notW_isSq ha) (.inr rfl)]; rfl

theorem and (c : Ctl) (o : SOps) : Statement (.and c o) := by
  intro hw
  have hf : sopsOk false true o = true := wf_form c rfl hw
  simp only [sopsOk, Bool.and_eq_true] at hf
  obtain ⟨⟨⟨⟨⟨⟨⟨-, -⟩, hd⟩, -⟩, ha⟩, -⟩, -⟩, -⟩ := hf
  refine decode_mkWord _ c _ _ _ _ _ _ rfl rfl hw rfl ?_ fun w => ?_
  · exact fun h => Bool.noConfusion (show false = true from h)
  · show (Fields.s _).map (Instr.and c) = _
    rw [s_read _ o _ (notW_isSq hd) (notW_isSq ha) (.inr rfl)]; rfl

theorem or (c : Ctl) (o : SOps) : Statement (.or c o) := by
  intro hw
  have hf : sopsOk false true o = true := wf_form c rfl hw
  simp only [sopsOk, Bool.and_eq_true] at hf
  obtain ⟨⟨⟨⟨⟨⟨⟨-, -⟩, hd⟩, -⟩, ha⟩, -⟩, -⟩, -⟩ := hf
  refine decode_mkWord _ c _ _ _ _ _ _ rfl rfl hw rfl ?_ fun w => ?_
  · exact fun h => Bool.noConfusion (show false = true from h)
  · show (Fields.s _).map (Instr.or c) = _
    rw [s_read _ o _ (notW_isSq hd) (notW_isSq ha) (.inr rfl)]; rfl

theorem xor (c : Ctl) (o : SOps) : Statement (.xor c o) := by
  intro hw
  have hf : sopsOk false true o = true := wf_form c rfl hw
  simp only [sopsOk, Bool.and_eq_true] at hf
  obtain ⟨⟨⟨⟨⟨⟨⟨-, -⟩, hd⟩, -⟩, ha⟩, -⟩, -⟩, -⟩ := hf
  refine decode_mkWord _ c _ _ _ _ _ _ rfl rfl hw rfl ?_ fun w => ?_
  · exact fun h => Bool.noConfusion (show false = true from h)
  · show (Fields.s _).map (Instr.xor c) = _
    rw [s_read _ o _ (notW_isSq hd) (notW_isSq ha) (.inr rfl)]; rfl

theorem andn (c : Ctl) (o : SOps) : Statement (.andn c o) := by
  intro hw
  have hf : sopsOk false true o = true := wf_form c rfl hw
  simp only [sopsOk, Bool.and_eq_true] at hf
  obtain ⟨⟨⟨⟨⟨⟨⟨-, -⟩, hd⟩, -⟩, ha⟩, -⟩, -⟩, -⟩ := hf
  refine decode_mkWord _ c _ _ _ _ _ _ rfl rfl hw rfl ?_ fun w => ?_
  · exact fun h => Bool.noConfusion (show false = true from h)
  · show (Fields.s _).map (Instr.andn c) = _
    rw [s_read _ o _ (notW_isSq hd) (notW_isSq ha) (.inr rfl)]; rfl

theorem shl (c : Ctl) (o : SOps) : Statement (.shl c o) := by
  intro hw
  have hf : sopsOk true true o = true := wf_form c rfl hw
  simp only [sopsOk, Bool.and_eq_true] at hf
  obtain ⟨⟨⟨⟨⟨⟨⟨-, -⟩, hd⟩, -⟩, ha⟩, -⟩, -⟩, -⟩ := hf
  refine decode_mkWord _ c _ _ _ _ _ _ rfl rfl hw rfl ?_ fun w => ?_
  · exact fun h => Bool.noConfusion (show false = true from h)
  · show (Fields.s _).map (Instr.shl c) = _
    rw [s_read _ o _ (notW_isSq hd) (notW_isSq ha) (.inr rfl)]; rfl

theorem shr (c : Ctl) (o : SOps) : Statement (.shr c o) := by
  intro hw
  have hf : sopsOk false true o = true := wf_form c rfl hw
  simp only [sopsOk, Bool.and_eq_true] at hf
  obtain ⟨⟨⟨⟨⟨⟨⟨-, -⟩, hd⟩, -⟩, ha⟩, -⟩, -⟩, -⟩ := hf
  refine decode_mkWord _ c _ _ _ _ _ _ rfl rfl hw rfl ?_ fun w => ?_
  · exact fun h => Bool.noConfusion (show false = true from h)
  · show (Fields.s _).map (Instr.shr c) = _
    rw [s_read _ o _ (notW_isSq hd) (notW_isSq ha) (.inr rfl)]; rfl

theorem sra (c : Ctl) (o : SOps) : Statement (.sra c o) := by
  intro hw
  have hf : sopsOk false true o = true := wf_form c rfl hw
  simp only [sopsOk, Bool.and_eq_true] at hf
  obtain ⟨⟨⟨⟨⟨⟨⟨-, -⟩, hd⟩, -⟩, ha⟩, -⟩, -⟩, -⟩ := hf
  refine decode_mkWord _ c _ _ _ _ _ _ rfl rfl hw rfl ?_ fun w => ?_
  · exact fun h => Bool.noConfusion (show false = true from h)
  · show (Fields.s _).map (Instr.sra c) = _
    rw [s_read _ o _ (notW_isSq hd) (notW_isSq ha) (.inr rfl)]; rfl

theorem rot (c : Ctl) (o : SOps) : Statement (.rot c o) := by
  intro hw
  have hf : sopsOk false true o = true := wf_form c rfl hw
  simp only [sopsOk, Bool.and_eq_true] at hf
  obtain ⟨⟨⟨⟨⟨⟨⟨-, -⟩, hd⟩, -⟩, ha⟩, -⟩, -⟩, -⟩ := hf
  refine decode_mkWord _ c _ _ _ _ _ _ rfl rfl hw rfl ?_ fun w => ?_
  · exact fun h => Bool.noConfusion (show false = true from h)
  · show (Fields.s _).map (Instr.rot c) = _
    rw [s_read _ o _ (notW_isSq hd) (notW_isSq ha) (.inr rfl)]; rfl

theorem clz (c : Ctl) (o : SOps) : Statement (.clz c o) := by
  intro hw
  have hf : (sops1Ok Fmt.scalar o) = true := wf_form c rfl hw
  simp only [sops1Ok, Bool.and_eq_true] at hf
  have hd : notW o.d = true := notW_isSq (by tauto)
  have ha : notW o.a = true := notW_isSq (by tauto)
  refine decode_mkWord _ c _ _ _ _ _ _ rfl rfl hw rfl ?_ fun w => ?_
  · exact fun h => Bool.noConfusion (show false = true from h)
  · show (Fields.s _).map (Instr.clz c) = _
    rw [s_read _ o _ hd ha (.inr rfl)]; rfl

theorem ctz (c : Ctl) (o : SOps) : Statement (.ctz c o) := by
  intro hw
  have hf : (sops1Ok Fmt.scalar o) = true := wf_form c rfl hw
  simp only [sops1Ok, Bool.and_eq_true] at hf
  have hd : notW o.d = true := notW_isSq (by tauto)
  have ha : notW o.a = true := notW_isSq (by tauto)
  refine decode_mkWord _ c _ _ _ _ _ _ rfl rfl hw rfl ?_ fun w => ?_
  · exact fun h => Bool.noConfusion (show false = true from h)
  · show (Fields.s _).map (Instr.ctz c) = _
    rw [s_read _ o _ hd ha (.inr rfl)]; rfl

theorem popc (c : Ctl) (o : SOps) : Statement (.popc c o) := by
  intro hw
  have hf : (sops1Ok Fmt.scalar o) = true := wf_form c rfl hw
  simp only [sops1Ok, Bool.and_eq_true] at hf
  have hd : notW o.d = true := notW_isSq (by tauto)
  have ha : notW o.a = true := notW_isSq (by tauto)
  refine decode_mkWord _ c _ _ _ _ _ _ rfl rfl hw rfl ?_ fun w => ?_
  · exact fun h => Bool.noConfusion (show false = true from h)
  · show (Fields.s _).map (Instr.popc c) = _
    rw [s_read _ o _ hd ha (.inr rfl)]; rfl

theorem bfx (c : Ctl) (o : SOps) (pos : BitVec 6) (len1 : BitVec 6) : Statement (.bfx c o pos len1) := by
  intro hw
  have hf : (bfOk Operand.isSq o pos len1) = true := wf_form c rfl hw
  simp only [bfOk, Bool.and_eq_true] at hf
  have hd : notW o.d = true := notW_isSq (by tauto)
  have ha : notW o.a = true := notW_isSq (by tauto)
  have hb : notW o.b = true := notW_isNone (by tauto)
  refine decode_mkWord _ c _ _ _ _ _ _ rfl rfl hw rfl ?_ fun w => ?_
  · exact fun h => Bool.noConfusion (show false = true from h)
  · show (Fields.s ⟨_, _, _, _, _, _⟩).map (fun o => Instr.bfx c o ((pos ++ len1 ++ 0#6).extractLsb' 12 6) ((pos ++ len1 ++ 0#6).extractLsb' 6 6)) = _
    rw [s_read _ o _ hd ha (.inl hb)]; simp (disch := decide) only [slice_hi, slice_lo, slice_all, Nat.reduceSub, Option.map_some]

theorem bfi (c : Ctl) (o : SOps) (pos : BitVec 6) (len1 : BitVec 6) : Statement (.bfi c o pos len1) := by
  intro hw
  have hf : (bfOk Operand.isS o pos len1) = true := wf_form c rfl hw
  simp only [bfOk, Bool.and_eq_true] at hf
  have hd : notW o.d = true := notW_isS (by tauto)
  have ha : notW o.a = true := notW_isSq (by tauto)
  have hb : notW o.b = true := notW_isNone (by tauto)
  refine decode_mkWord _ c _ _ _ _ _ _ rfl rfl hw rfl ?_ fun w => ?_
  · exact fun h => Bool.noConfusion (show false = true from h)
  · show (Fields.s ⟨_, _, _, _, _, _⟩).map (fun o => Instr.bfi c o ((pos ++ len1 ++ 0#6).extractLsb' 12 6) ((pos ++ len1 ++ 0#6).extractLsb' 6 6)) = _
    rw [s_read _ o _ hd ha (.inl hb)]; simp (disch := decide) only [slice_hi, slice_lo, slice_all, Nat.reduceSub, Option.map_some]

theorem sext (c : Ctl) (o : SOps) : Statement (.sext c o) := by
  intro hw
  have hf : (sops1Ok (fun f => decide (f = .i8) || decide (f = .i16) || decide (f = .i32)) o) = true := wf_form c rfl hw
  simp only [sops1Ok, Bool.and_eq_true] at hf
  have hd : notW o.d = true := notW_isSq (by tauto)
  have ha : notW o.a = true := notW_isSq (by tauto)
  refine decode_mkWord _ c _ _ _ _ _ _ rfl rfl hw rfl ?_ fun w => ?_
  · exact fun h => Bool.noConfusion (show false = true from h)
  · show (Fields.s _).map (Instr.sext c) = _
    rw [s_read _ o _ hd ha (.inr rfl)]; rfl

theorem zext (c : Ctl) (o : SOps) : Statement (.zext c o) := by
  intro hw
  have hf : (sops1Ok (fun f => decide (f = .n8) || decide (f = .n16) || decide (f = .n32)) o) = true := wf_form c rfl hw
  simp only [sops1Ok, Bool.and_eq_true] at hf
  have hd : notW o.d = true := notW_isSq (by tauto)
  have ha : notW o.a = true := notW_isSq (by tauto)
  refine decode_mkWord _ c _ _ _ _ _ _ rfl rfl hw rfl ?_ fun w => ?_
  · exact fun h => Bool.noConfusion (show false = true from h)
  · show (Fields.s _).map (Instr.zext c) = _
    rw [s_read _ o _ hd ha (.inr rfl)]; rfl

theorem li (c : Ctl) (d : Operand) (b : Operand) : Statement (.li c d b) := by
  intro hw
  have hf : (d.isSqp && b.isImm) = true := wf_form c rfl hw
  simp only [Bool.and_eq_true] at hf
  have hd : notW d = true := notW_isSqp (by tauto)
  refine decode_mkWord _ c _ _ _ _ _ _ rfl rfl hw rfl ?_ fun w => ?_
  · exact fun h => Bool.noConfusion (show false = true from h)
  · show (fun (f : Fields) => (some (.li c f.dO f.bO) : Option Instr)) ⟨_, _, _, _, _, _⟩ = _
    simp (disch := decide) only [Fields.dO, Fields.aO, Fields.bO, Fields.dN, Fields.aS, Fields.aN, Fields.bN,
      Fields.dV, Fields.aV, Fields.bV, Fields.dM, Fields.aM, Fields.bM, Fields.dT, Fields.aT, Fields.i32,
      Fields.fmt, Fields.rel, Fields.nat, Fields.fscope, Fields.xscope, fnT_fmt, fnT_sat, fnC_rel, fnC_nat,
      fnA_op, fnA_scope, scope_ofCode, fmt_ofCode, vx_ofBits, sField_n, srcField_n, srcField_swz, vField_n,
      qField_n, pField_n, mField_n, accField_n, cmdField_n, resField_n, immW_i32, slice_hi, slice_lo, slice_all,
      bit_hi, bit_lo, bit_ofBool, Nat.reduceSub, Option.map_some, Option.bind_some, read_xlow, slice36, read_notW
      _ _ hd]

theorem lih (c : Ctl) (d : BitVec 6) (b : Operand) : Statement (.lih c d b) := by
  intro hw
  refine decode_mkWord _ c _ _ _ _ _ _ rfl rfl hw rfl ?_ fun w => ?_
  · exact fun h => Bool.noConfusion (show false = true from h)
  · show (fun (f : Fields) => (some (.lih c f.dN f.bO) : Option Instr)) ⟨_, _, _, _, _, _⟩ = _
    simp (disch := decide) only [Fields.dO, Fields.aO, Fields.bO, Fields.dN, Fields.aS, Fields.aN, Fields.bN,
      Fields.dV, Fields.aV, Fields.bV, Fields.dM, Fields.aM, Fields.bM, Fields.dT, Fields.aT, Fields.i32,
      Fields.fmt, Fields.rel, Fields.nat, Fields.fscope, Fields.xscope, fnT_fmt, fnT_sat, fnC_rel, fnC_nat,
      fnA_op, fnA_scope, scope_ofCode, fmt_ofCode, vx_ofBits, sField_n, srcField_n, srcField_swz, vField_n,
      qField_n, pField_n, mField_n, accField_n, cmdField_n, resField_n, immW_i32, slice_hi, slice_lo, slice_all,
      bit_hi, bit_lo, bit_ofBool, Nat.reduceSub, Option.map_some, Option.bind_some, read_xlow, slice36]

theorem mov (c : Ctl) (d : Operand) (a : Operand) : Statement (.mov c d a) := by
  intro hw
  have hf : ((d.isSq || d.isP) && d.plain && (a.isSq || a.isP) && a.swzOnly) = true := wf_form c rfl hw
  simp only [Bool.and_eq_true] at hf
  have hd : notW d = true := notW_mov (by tauto)
  have ha : notW a = true := notW_mov (by tauto)
  refine decode_mkWord _ c _ _ _ _ _ _ rfl rfl hw rfl ?_ fun w => ?_
  · exact fun h => Bool.noConfusion (show false = true from h)
  · show (fun (f : Fields) => (some (.mov c f.dO f.aO) : Option Instr)) ⟨_, _, _, _, _, _⟩ = _
    simp (disch := decide) only [Fields.dO, Fields.aO, Fields.bO, Fields.dN, Fields.aS, Fields.aN, Fields.bN,
      Fields.dV, Fields.aV, Fields.bV, Fields.dM, Fields.aM, Fields.bM, Fields.dT, Fields.aT, Fields.i32,
      Fields.fmt, Fields.rel, Fields.nat, Fields.fscope, Fields.xscope, fnT_fmt, fnT_sat, fnC_rel, fnC_nat,
      fnA_op, fnA_scope, scope_ofCode, fmt_ofCode, vx_ofBits, sField_n, srcField_n, srcField_swz, vField_n,
      qField_n, pField_n, mField_n, accField_n, cmdField_n, resField_n, immW_i32, slice_hi, slice_lo, slice_all,
      bit_hi, bit_lo, bit_ofBool, Nat.reduceSub, Option.map_some, Option.bind_some, read_xlow, slice36, read_notW
      _ _ hd, read_notW _ _ ha]

theorem lea (c : Ctl) (d : BitVec 6) (a : BitVec 6) (b : Operand) (sh : BitVec 3) (disp : BitVec 15) : Statement (.lea c d a b sh disp) := by
  intro hw
  have hf : (b.isSi) = true := wf_form c rfl hw
  have hb : notW b = true := notW_isSi (by tauto)
  refine decode_mkWord _ c _ _ _ _ _ _ rfl rfl hw rfl ?_ fun w => ?_
  · exact fun h => Bool.noConfusion (show false = true from h)
  · show (fun (f : Fields) => (some (.lea c f.dN f.aN f.bO (f.x.extractLsb' 15 3) (f.x.extractLsb' 0 15)) : Option Instr)) ⟨_, _, _, _, _, _⟩ = _
    simp (disch := decide) only [Fields.dO, Fields.aO, Fields.bO, Fields.dN, Fields.aS, Fields.aN, Fields.bN,
      Fields.dV, Fields.aV, Fields.bV, Fields.dM, Fields.aM, Fields.bM, Fields.dT, Fields.aT, Fields.i32,
      Fields.fmt, Fields.rel, Fields.nat, Fields.fscope, Fields.xscope, fnT_fmt, fnT_sat, fnC_rel, fnC_nat,
      fnA_op, fnA_scope, scope_ofCode, fmt_ofCode, vx_ofBits, sField_n, srcField_n, srcField_swz, vField_n,
      qField_n, pField_n, mField_n, accField_n, cmdField_n, resField_n, immW_i32, slice_hi, slice_lo, slice_all,
      bit_hi, bit_lo, bit_ofBool, Nat.reduceSub, Option.map_some, Option.bind_some, read_xlow, slice36, read_notW
      _ _ hb]

theorem cmp (c : Ctl) (rel : Rel) (nat : Bool) (d : BitVec 3) (a : BitVec 6) (b : Operand) : Statement (.cmp c rel nat d a b) := by
  intro hw
  refine decode_mkWord _ c _ _ _ _ _ _ rfl rfl hw rfl ?_ fun w => ?_
  · exact fun h => Bool.noConfusion (show false = true from h)
  · show (fun (f : Fields) => (f.rel.map fun r => .cmp c r f.nat f.dM f.aN f.bO : Option Instr)) ⟨_, _, _, _, _, _⟩ = _
    simp (disch := decide) only [Fields.dO, Fields.aO, Fields.bO, Fields.dN, Fields.aS, Fields.aN, Fields.bN,
      Fields.dV, Fields.aV, Fields.bV, Fields.dM, Fields.aM, Fields.bM, Fields.dT, Fields.aT, Fields.i32,
      Fields.fmt, Fields.rel, Fields.nat, Fields.fscope, Fields.xscope, fnT_fmt, fnT_sat, fnC_rel, fnC_nat,
      fnA_op, fnA_scope, scope_ofCode, fmt_ofCode, vx_ofBits, sField_n, srcField_n, srcField_swz, vField_n,
      qField_n, pField_n, mField_n, accField_n, cmdField_n, resField_n, immW_i32, slice_hi, slice_lo, slice_all,
      bit_hi, bit_lo, bit_ofBool, Nat.reduceSub, Option.map_some, Option.bind_some, read_xlow, slice36]

theorem sel (c : Ctl) (d : Operand) (a : Operand) (b : Operand) (pneg : Bool) (pn : BitVec 3) : Statement (.sel c d a b pneg pn) := by
  intro hw
  have hf : (d.isSqp && a.isSq && a.swzOnly && (b.isSq || b.isImm14) && b.swzOnly) = true := wf_form c rfl hw
  simp only [Bool.and_eq_true] at hf
  have hd : notW d = true := notW_isSqp (by tauto)
  have ha : notW a = true := notW_isSq (by tauto)
  have hb : notW b = true := notW_sel (by tauto)
  refine decode_mkWord _ c _ _ _ _ _ _ rfl rfl hw rfl ?_ fun w => ?_
  · exact fun h => Bool.noConfusion (show false = true from h)
  · show (fun (f : Fields) => (some (.sel c f.dO f.aO f.bO (f.x.getLsbD 17) (f.x.extractLsb' 14 3)) : Option Instr)) ⟨_, _, _, _, _, _⟩ = _
    simp (disch := decide) only [Fields.dO, Fields.aO, Fields.bO, Fields.dN, Fields.aS, Fields.aN, Fields.bN,
      Fields.dV, Fields.aV, Fields.bV, Fields.dM, Fields.aM, Fields.bM, Fields.dT, Fields.aT, Fields.i32,
      Fields.fmt, Fields.rel, Fields.nat, Fields.fscope, Fields.xscope, fnT_fmt, fnT_sat, fnC_rel, fnC_nat,
      fnA_op, fnA_scope, scope_ofCode, fmt_ofCode, vx_ofBits, sField_n, srcField_n, srcField_swz, vField_n,
      qField_n, pField_n, mField_n, accField_n, cmdField_n, resField_n, immW_i32, slice_hi, slice_lo, slice_all,
      bit_hi, bit_lo, bit_ofBool, Nat.reduceSub, Option.map_some, Option.bind_some, read_xlow, slice36, read_notW
      _ _ hd, read_notW _ _ ha, read_notW _ _ hb]

theorem pand (c : Ctl) (d : BitVec 3) (a : BitVec 3) (b : BitVec 3) : Statement (.pand c d a b) := by
  intro hw
  refine decode_mkWord _ c _ _ _ _ _ _ rfl rfl hw rfl ?_ fun w => ?_
  · exact fun h => Bool.noConfusion (show false = true from h)
  · show (fun (f : Fields) => (some (.pand c f.dM f.aM f.bM) : Option Instr)) ⟨_, _, _, _, _, _⟩ = _
    simp (disch := decide) only [Fields.dO, Fields.aO, Fields.bO, Fields.dN, Fields.aS, Fields.aN, Fields.bN,
      Fields.dV, Fields.aV, Fields.bV, Fields.dM, Fields.aM, Fields.bM, Fields.dT, Fields.aT, Fields.i32,
      Fields.fmt, Fields.rel, Fields.nat, Fields.fscope, Fields.xscope, fnT_fmt, fnT_sat, fnC_rel, fnC_nat,
      fnA_op, fnA_scope, scope_ofCode, fmt_ofCode, vx_ofBits, sField_n, srcField_n, srcField_swz, vField_n,
      qField_n, pField_n, mField_n, accField_n, cmdField_n, resField_n, immW_i32, slice_hi, slice_lo, slice_all,
      bit_hi, bit_lo, bit_ofBool, Nat.reduceSub, Option.map_some, Option.bind_some, read_xlow, slice36]

theorem por (c : Ctl) (d : BitVec 3) (a : BitVec 3) (b : BitVec 3) : Statement (.por c d a b) := by
  intro hw
  refine decode_mkWord _ c _ _ _ _ _ _ rfl rfl hw rfl ?_ fun w => ?_
  · exact fun h => Bool.noConfusion (show false = true from h)
  · show (fun (f : Fields) => (some (.por c f.dM f.aM f.bM) : Option Instr)) ⟨_, _, _, _, _, _⟩ = _
    simp (disch := decide) only [Fields.dO, Fields.aO, Fields.bO, Fields.dN, Fields.aS, Fields.aN, Fields.bN,
      Fields.dV, Fields.aV, Fields.bV, Fields.dM, Fields.aM, Fields.bM, Fields.dT, Fields.aT, Fields.i32,
      Fields.fmt, Fields.rel, Fields.nat, Fields.fscope, Fields.xscope, fnT_fmt, fnT_sat, fnC_rel, fnC_nat,
      fnA_op, fnA_scope, scope_ofCode, fmt_ofCode, vx_ofBits, sField_n, srcField_n, srcField_swz, vField_n,
      qField_n, pField_n, mField_n, accField_n, cmdField_n, resField_n, immW_i32, slice_hi, slice_lo, slice_all,
      bit_hi, bit_lo, bit_ofBool, Nat.reduceSub, Option.map_some, Option.bind_some, read_xlow, slice36]

theorem pxor (c : Ctl) (d : BitVec 3) (a : BitVec 3) (b : BitVec 3) : Statement (.pxor c d a b) := by
  intro hw
  refine decode_mkWord _ c _ _ _ _ _ _ rfl rfl hw rfl ?_ fun w => ?_
  · exact fun h => Bool.noConfusion (show false = true from h)
  · show (fun (f : Fields) => (some (.pxor c f.dM f.aM f.bM) : Option Instr)) ⟨_, _, _, _, _, _⟩ = _
    simp (disch := decide) only [Fields.dO, Fields.aO, Fields.bO, Fields.dN, Fields.aS, Fields.aN, Fields.bN,
      Fields.dV, Fields.aV, Fields.bV, Fields.dM, Fields.aM, Fields.bM, Fields.dT, Fields.aT, Fields.i32,
      Fields.fmt, Fields.rel, Fields.nat, Fields.fscope, Fields.xscope, fnT_fmt, fnT_sat, fnC_rel, fnC_nat,
      fnA_op, fnA_scope, scope_ofCode, fmt_ofCode, vx_ofBits, sField_n, srcField_n, srcField_swz, vField_n,
      qField_n, pField_n, mField_n, accField_n, cmdField_n, resField_n, immW_i32, slice_hi, slice_lo, slice_all,
      bit_hi, bit_lo, bit_ofBool, Nat.reduceSub, Option.map_some, Option.bind_some, read_xlow, slice36]

theorem pnot (c : Ctl) (d : BitVec 3) (a : BitVec 3) : Statement (.pnot c d a) := by
  intro hw
  refine decode_mkWord _ c _ _ _ _ _ _ rfl rfl hw rfl ?_ fun w => ?_
  · exact fun h => Bool.noConfusion (show false = true from h)
  · show (fun (f : Fields) => (some (.pnot c f.dM f.aM) : Option Instr)) ⟨_, _, _, _, _, _⟩ = _
    simp (disch := decide) only [Fields.dO, Fields.aO, Fields.bO, Fields.dN, Fields.aS, Fields.aN, Fields.bN,
      Fields.dV, Fields.aV, Fields.bV, Fields.dM, Fields.aM, Fields.bM, Fields.dT, Fields.aT, Fields.i32,
      Fields.fmt, Fields.rel, Fields.nat, Fields.fscope, Fields.xscope, fnT_fmt, fnT_sat, fnC_rel, fnC_nat,
      fnA_op, fnA_scope, scope_ofCode, fmt_ofCode, vx_ofBits, sField_n, srcField_n, srcField_swz, vField_n,
      qField_n, pField_n, mField_n, accField_n, cmdField_n, resField_n, immW_i32, slice_hi, slice_lo, slice_all,
      bit_hi, bit_lo, bit_ofBool, Nat.reduceSub, Option.map_some, Option.bind_some, read_xlow, slice36]

theorem getsr (c : Ctl) (d : Operand) (idx : BitVec 12) : Statement (.getsr c d idx) := by
  intro hw
  have hf : (d.isSqp && srAssigned idx) = true := wf_form c rfl hw
  simp only [Bool.and_eq_true] at hf
  have hd : notW d = true := notW_isSqp (by tauto)
  refine decode_mkWord _ c _ _ _ _ _ _ rfl rfl hw rfl ?_ fun w => ?_
  · exact fun h => Bool.noConfusion (show false = true from h)
  · show (fun (f : Fields) => (some (.getsr c f.dO (f.x.extractLsb' 0 12)) : Option Instr)) ⟨_, _, _, _, _, _⟩ = _
    simp (disch := decide) only [Fields.dO, Fields.aO, Fields.bO, Fields.dN, Fields.aS, Fields.aN, Fields.bN,
      Fields.dV, Fields.aV, Fields.bV, Fields.dM, Fields.aM, Fields.bM, Fields.dT, Fields.aT, Fields.i32,
      Fields.fmt, Fields.rel, Fields.nat, Fields.fscope, Fields.xscope, fnT_fmt, fnT_sat, fnC_rel, fnC_nat,
      fnA_op, fnA_scope, scope_ofCode, fmt_ofCode, vx_ofBits, sField_n, srcField_n, srcField_swz, vField_n,
      qField_n, pField_n, mField_n, accField_n, cmdField_n, resField_n, immW_i32, slice_hi, slice_lo, slice_all,
      bit_hi, bit_lo, bit_ofBool, Nat.reduceSub, Option.map_some, Option.bind_some, read_xlow, slice36, read_notW
      _ _ hd]

theorem putsr (c : Ctl) (idx : BitVec 12) (a : Operand) : Statement (.putsr c idx a) := by
  intro hw
  have hf : (a.isSqp && srAssigned idx && !srReadOnly idx) = true := wf_form c rfl hw
  simp only [Bool.and_eq_true] at hf
  have ha : notW a = true := notW_isSqp (by tauto)
  refine decode_mkWord _ c _ _ _ _ _ _ rfl rfl hw rfl ?_ fun w => ?_
  · exact fun h => Bool.noConfusion (show false = true from h)
  · show (fun (f : Fields) => (some (.putsr c (f.x.extractLsb' 0 12) f.aO) : Option Instr)) ⟨_, _, _, _, _, _⟩ = _
    simp (disch := decide) only [Fields.dO, Fields.aO, Fields.bO, Fields.dN, Fields.aS, Fields.aN, Fields.bN,
      Fields.dV, Fields.aV, Fields.bV, Fields.dM, Fields.aM, Fields.bM, Fields.dT, Fields.aT, Fields.i32,
      Fields.fmt, Fields.rel, Fields.nat, Fields.fscope, Fields.xscope, fnT_fmt, fnT_sat, fnC_rel, fnC_nat,
      fnA_op, fnA_scope, scope_ofCode, fmt_ofCode, vx_ofBits, sField_n, srcField_n, srcField_swz, vField_n,
      qField_n, pField_n, mField_n, accField_n, cmdField_n, resField_n, immW_i32, slice_hi, slice_lo, slice_all,
      bit_hi, bit_lo, bit_ofBool, Nat.reduceSub, Option.map_some, Option.bind_some, read_xlow, slice36, read_notW
      _ _ ha]

theorem ld (c : Ctl) (fmt : Fmt) (d : Operand) (a : BitVec 6) (b : Operand) : Statement (.ld c fmt d a b) := by
  intro hw
  have hf : (fmt.scalar && d.isSqp && b.isSii) = true := wf_form c rfl hw
  simp only [Bool.and_eq_true] at hf
  have hd : notW d = true := notW_isSqp (by tauto)
  refine decode_mkWord _ c _ _ _ _ _ _ rfl rfl hw rfl ?_ fun w => ?_
  · intro _; exact top_isSqp (by tauto)
  · show (fun (f : Fields) => (f.fmt.map fun t => .ld c t f.dO f.aN f.bO : Option Instr)) ⟨_, _, _, _, _, _⟩ = _
    simp (disch := decide) only [Fields.dO, Fields.aO, Fields.bO, Fields.dN, Fields.aS, Fields.aN, Fields.bN,
      Fields.dV, Fields.aV, Fields.bV, Fields.dM, Fields.aM, Fields.bM, Fields.dT, Fields.aT, Fields.i32,
      Fields.fmt, Fields.rel, Fields.nat, Fields.fscope, Fields.xscope, fnT_fmt, fnT_sat, fnC_rel, fnC_nat,
      fnA_op, fnA_scope, scope_ofCode, fmt_ofCode, vx_ofBits, sField_n, srcField_n, srcField_swz, vField_n,
      qField_n, pField_n, mField_n, accField_n, cmdField_n, resField_n, immW_i32, slice_hi, slice_lo, slice_all,
      bit_hi, bit_lo, bit_ofBool, Nat.reduceSub, Option.map_some, Option.bind_some, read_xlow, slice36, read_notW
      _ _ hd]

theorem st (c : Ctl) (fmt : Fmt) (d : Operand) (a : BitVec 6) (b : Operand) : Statement (.st c fmt d a b) := by
  intro hw
  have hf : (fmt.scalar && d.isSqp && b.isSii) = true := wf_form c rfl hw
  simp only [Bool.and_eq_true] at hf
  have hd : notW d = true := notW_isSqp (by tauto)
  refine decode_mkWord _ c _ _ _ _ _ _ rfl rfl hw rfl ?_ fun w => ?_
  · intro _; exact top_isSqp (by tauto)
  · show (fun (f : Fields) => (f.fmt.map fun t => .st c t f.dO f.aN f.bO : Option Instr)) ⟨_, _, _, _, _, _⟩ = _
    simp (disch := decide) only [Fields.dO, Fields.aO, Fields.bO, Fields.dN, Fields.aS, Fields.aN, Fields.bN,
      Fields.dV, Fields.aV, Fields.bV, Fields.dM, Fields.aM, Fields.bM, Fields.dT, Fields.aT, Fields.i32,
      Fields.fmt, Fields.rel, Fields.nat, Fields.fscope, Fields.xscope, fnT_fmt, fnT_sat, fnC_rel, fnC_nat,
      fnA_op, fnA_scope, scope_ofCode, fmt_ofCode, vx_ofBits, sField_n, srcField_n, srcField_swz, vField_n,
      qField_n, pField_n, mField_n, accField_n, cmdField_n, resField_n, immW_i32, slice_hi, slice_lo, slice_all,
      bit_hi, bit_lo, bit_ofBool, Nat.reduceSub, Option.map_some, Option.bind_some, read_xlow, slice36, read_notW
      _ _ hd]

theorem ldAq (c : Ctl) (fmt : Fmt) (sc : Scope) (d : Operand) (a : BitVec 6) (b : Operand) : Statement (.ldAq c fmt sc d a b) := by
  intro hw
  have hf : (fmt.scalar && d.isSqp && b.isSi) = true := wf_form c rfl hw
  simp only [Bool.and_eq_true] at hf
  have hd : notW d = true := notW_isSqp (by tauto)
  have hb : notW b = true := notW_isSi (by tauto)
  refine decode_mkWord _ c _ _ _ _ _ _ rfl rfl hw rfl ?_ fun w => ?_
  · intro _; exact top_isSqp (by tauto)
  · show (fun (f : Fields) => (f.fmt.bind fun t => f.xscope.map fun sc => .ldAq c t sc f.dO f.aN f.bO : Option Instr)) ⟨_, _, _, _, _, _⟩ = _
    simp (disch := decide) only [Fields.dO, Fields.aO, Fields.bO, Fields.dN, Fields.aS, Fields.aN, Fields.bN,
      Fields.dV, Fields.aV, Fields.bV, Fields.dM, Fields.aM, Fields.bM, Fields.dT, Fields.aT, Fields.i32,
      Fields.fmt, Fields.rel, Fields.nat, Fields.fscope, Fields.xscope, fnT_fmt, fnT_sat, fnC_rel, fnC_nat,
      fnA_op, fnA_scope, scope_ofCode, fmt_ofCode, vx_ofBits, sField_n, srcField_n, srcField_swz, vField_n,
      qField_n, pField_n, mField_n, accField_n, cmdField_n, resField_n, immW_i32, slice_hi, slice_lo, slice_all,
      bit_hi, bit_lo, bit_ofBool, Nat.reduceSub, Option.map_some, Option.bind_some, read_xlow, slice36, read_notW
      _ _ hd, read_notW _ _ hb]

theorem stRl (c : Ctl) (fmt : Fmt) (sc : Scope) (d : Operand) (a : BitVec 6) (b : Operand) : Statement (.stRl c fmt sc d a b) := by
  intro hw
  have hf : (fmt.scalar && d.isSqp && b.isSi) = true := wf_form c rfl hw
  simp only [Bool.and_eq_true] at hf
  have hd : notW d = true := notW_isSqp (by tauto)
  have hb : notW b = true := notW_isSi (by tauto)
  refine decode_mkWord _ c _ _ _ _ _ _ rfl rfl hw rfl ?_ fun w => ?_
  · intro _; exact top_isSqp (by tauto)
  · show (fun (f : Fields) => (f.fmt.bind fun t => f.xscope.map fun sc => .stRl c t sc f.dO f.aN f.bO : Option Instr)) ⟨_, _, _, _, _, _⟩ = _
    simp (disch := decide) only [Fields.dO, Fields.aO, Fields.bO, Fields.dN, Fields.aS, Fields.aN, Fields.bN,
      Fields.dV, Fields.aV, Fields.bV, Fields.dM, Fields.aM, Fields.bM, Fields.dT, Fields.aT, Fields.i32,
      Fields.fmt, Fields.rel, Fields.nat, Fields.fscope, Fields.xscope, fnT_fmt, fnT_sat, fnC_rel, fnC_nat,
      fnA_op, fnA_scope, scope_ofCode, fmt_ofCode, vx_ofBits, sField_n, srcField_n, srcField_swz, vField_n,
      qField_n, pField_n, mField_n, accField_n, cmdField_n, resField_n, immW_i32, slice_hi, slice_lo, slice_all,
      bit_hi, bit_lo, bit_ofBool, Nat.reduceSub, Option.map_some, Option.bind_some, read_xlow, slice36, read_notW
      _ _ hd, read_notW _ _ hb]

theorem ldx (c : Ctl) (fmt : Fmt) (d : Operand) (a : BitVec 6) (b : BitVec 6) (disp : BitVec 18) : Statement (.ldx c fmt d a b disp) := by
  intro hw
  have hf : (fmt.scalar && d.isSqp) = true := wf_form c rfl hw
  simp only [Bool.and_eq_true] at hf
  have hd : notW d = true := notW_isSqp (by tauto)
  refine decode_mkWord _ c _ _ _ _ _ _ rfl rfl hw rfl ?_ fun w => ?_
  · intro _; exact top_isSqp (by tauto)
  · show (fun (f : Fields) => (f.fmt.map fun t => .ldx c t f.dO f.aN f.bN f.x : Option Instr)) ⟨_, _, _, _, _, _⟩ = _
    simp (disch := decide) only [Fields.dO, Fields.aO, Fields.bO, Fields.dN, Fields.aS, Fields.aN, Fields.bN,
      Fields.dV, Fields.aV, Fields.bV, Fields.dM, Fields.aM, Fields.bM, Fields.dT, Fields.aT, Fields.i32,
      Fields.fmt, Fields.rel, Fields.nat, Fields.fscope, Fields.xscope, fnT_fmt, fnT_sat, fnC_rel, fnC_nat,
      fnA_op, fnA_scope, scope_ofCode, fmt_ofCode, vx_ofBits, sField_n, srcField_n, srcField_swz, vField_n,
      qField_n, pField_n, mField_n, accField_n, cmdField_n, resField_n, immW_i32, slice_hi, slice_lo, slice_all,
      bit_hi, bit_lo, bit_ofBool, Nat.reduceSub, Option.map_some, Option.bind_some, read_xlow, slice36, read_notW
      _ _ hd]

theorem prf (c : Ctl) (a : BitVec 6) (b : Operand) : Statement (.prf c a b) := by
  intro hw
  have hf : (b.isSi) = true := wf_form c rfl hw
  have hb : notW b = true := notW_isSi (by tauto)
  refine decode_mkWord _ c _ _ _ _ _ _ rfl rfl hw rfl ?_ fun w => ?_
  · intro _; rfl
  · show (fun (f : Fields) => (some (.prf c f.aN f.bO) : Option Instr)) ⟨_, _, _, _, _, _⟩ = _
    simp (disch := decide) only [Fields.dO, Fields.aO, Fields.bO, Fields.dN, Fields.aS, Fields.aN, Fields.bN,
      Fields.dV, Fields.aV, Fields.bV, Fields.dM, Fields.aM, Fields.bM, Fields.dT, Fields.aT, Fields.i32,
      Fields.fmt, Fields.rel, Fields.nat, Fields.fscope, Fields.xscope, fnT_fmt, fnT_sat, fnC_rel, fnC_nat,
      fnA_op, fnA_scope, scope_ofCode, fmt_ofCode, vx_ofBits, sField_n, srcField_n, srcField_swz, vField_n,
      qField_n, pField_n, mField_n, accField_n, cmdField_n, resField_n, immW_i32, slice_hi, slice_lo, slice_all,
      bit_hi, bit_lo, bit_ofBool, Nat.reduceSub, Option.map_some, Option.bind_some, read_xlow, slice36, read_notW
      _ _ hb]

theorem vadd (c : Ctl) (o : VOps) : Statement (.vadd c o) := by
  intro hw
  have hf : (v2Ok Fmt.ia true false false false o) = true := wf_form c rfl hw
  simp only [v2Ok, Bool.false_eq_true, if_false, if_true, Bool.and_eq_true] at hf
  have hd : notW o.d = true := notW_isVec (by tauto)
  have ha : notW o.a = true := notW_isVec (by tauto)
  have hb : notW o.b = true := notW_vb (by tauto)
  refine decode_mkWord _ c _ _ _ _ _ _ rfl rfl hw rfl ?_ fun w => ?_
  · exact fun h => Bool.noConfusion (show false = true from h)
  · show (Fields.v _).map (Instr.vadd c) = _
    rw [v_read _ o hd ha hb]; rfl

theorem vsub (c : Ctl) (o : VOps) : Statement (.vsub c o) := by
  intro hw
  have hf : (v2Ok Fmt.ia true false false false o) = true := wf_form c rfl hw
  simp only [v2Ok, Bool.false_eq_true, if_false, if_true, Bool.and_eq_true] at hf
  have hd : notW o.d = true := notW_isVec (by tauto)
  have ha : notW o.a = true := notW_isVec (by tauto)
  have hb : notW o.b = true := notW_vb (by tauto)
  refine decode_mkWord _ c _ _ _ _ _ _ rfl rfl hw rfl ?_ fun w => ?_
  · exact fun h => Bool.noConfusion (show false = true from h)
  · show (Fields.v _).map (Instr.vsub c) = _
    rw [v_read _ o hd ha hb]; rfl

theorem vmul (c : Ctl) (o : VOps) : Statement (.vmul c o) := by
  intro hw
  have hf : (v2Ok Fmt.ia true true false false o) = true := wf_form c rfl hw
  simp only [v2Ok, Bool.false_eq_true, if_false, if_true, Bool.and_eq_true] at hf
  have hd : notW o.d = true := notW_isVec (by tauto)
  have ha : notW o.a = true := notW_isVec (by tauto)
  have hb : notW o.b = true := notW_vb (by tauto)
  refine decode_mkWord _ c _ _ _ _ _ _ rfl rfl hw rfl ?_ fun w => ?_
  · exact fun h => Bool.noConfusion (show false = true from h)
  · show (Fields.v _).map (Instr.vmul c) = _
    rw [v_read _ o hd ha hb]; rfl

theorem vmulh (c : Ctl) (o : VOps) : Statement (.vmulh c o) := by
  intro hw
  have hf : (v2Ok Fmt.ia false true false false o) = true := wf_form c rfl hw
  simp only [v2Ok, Bool.false_eq_true, if_false, if_true, Bool.and_eq_true] at hf
  have hd : notW o.d = true := notW_isVec (by tauto)
  have ha : notW o.a = true := notW_isVec (by tauto)
  have hb : notW o.b = true := notW_vb (by tauto)
  refine decode_mkWord _ c _ _ _ _ _ _ rfl rfl hw rfl ?_ fun w => ?_
  · exact fun h => Bool.noConfusion (show false = true from h)
  · show (Fields.v _).map (Instr.vmulh c) = _
    rw [v_read _ o hd ha hb]; rfl

theorem vmadd (c : Ctl) (o : VOps) : Statement (.vmadd c o) := by
  intro hw
  have hf : (v2Ok Fmt.ia true true false true o) = true := wf_form c rfl hw
  simp only [v2Ok, Bool.false_eq_true, if_false, if_true, Bool.and_eq_true] at hf
  have hd : notW o.d = true := notW_isV (by tauto)
  have ha : notW o.a = true := notW_isVec (by tauto)
  have hb : notW o.b = true := notW_vb (by tauto)
  refine decode_mkWord _ c _ _ _ _ _ _ rfl rfl hw rfl ?_ fun w => ?_
  · exact fun h => Bool.noConfusion (show false = true from h)
  · show (Fields.v _).map (Instr.vmadd c) = _
    rw [v_read _ o hd ha hb]; rfl

theorem vmin (c : Ctl) (o : VOps) : Statement (.vmin c o) := by
  intro hw
  have hf : (v2Ok Fmt.ia false false false false o) = true := wf_form c rfl hw
  simp only [v2Ok, Bool.false_eq_true, if_false, if_true, Bool.and_eq_true] at hf
  have hd : notW o.d = true := notW_isVec (by tauto)
  have ha : notW o.a = true := notW_isVec (by tauto)
  have hb : notW o.b = true := notW_vb (by tauto)
  refine decode_mkWord _ c _ _ _ _ _ _ rfl rfl hw rfl ?_ fun w => ?_
  · exact fun h => Bool.noConfusion (show false = true from h)
  · show (Fields.v _).map (Instr.vmin c) = _
    rw [v_read _ o hd ha hb]; rfl

theorem vmax (c : Ctl) (o : VOps) : Statement (.vmax c o) := by
  intro hw
  have hf : (v2Ok Fmt.ia false false false false o) = true := wf_form c rfl hw
  simp only [v2Ok, Bool.false_eq_true, if_false, if_true, Bool.and_eq_true] at hf
  have hd : notW o.d = true := notW_isVec (by tauto)
  have ha : notW o.a = true := notW_isVec (by tauto)
  have hb : notW o.b = true := notW_vb (by tauto)
  refine decode_mkWord _ c _ _ _ _ _ _ rfl rfl hw rfl ?_ fun w => ?_
  · exact fun h => Bool.noConfusion (show false = true from h)
  · show (Fields.v _).map (Instr.vmax c) = _
    rw [v_read _ o hd ha hb]; rfl

theorem vabsd (c : Ctl) (o : VOps) : Statement (.vabsd c o) := by
  intro hw
  have hf : (v2Ok Fmt.ia true false false false o) = true := wf_form c rfl hw
  simp only [v2Ok, Bool.false_eq_true, if_false, if_true, Bool.and_eq_true] at hf
  have hd : notW o.d = true := notW_isVec (by tauto)
  have ha : notW o.a = true := notW_isVec (by tauto)
  have hb : notW o.b = true := notW_vb (by tauto)
  refine decode_mkWord _ c _ _ _ _ _ _ rfl rfl hw rfl ?_ fun w => ?_
  · exact fun h => Bool.noConfusion (show false = true from h)
  · show (Fields.v _).map (Instr.vabsd c) = _
    rw [v_read _ o hd ha hb]; rfl

theorem vavg (c : Ctl) (o : VOps) : Statement (.vavg c o) := by
  intro hw
  have hf : (v2Ok Fmt.ia false false false false o) = true := wf_form c rfl hw
  simp only [v2Ok, Bool.false_eq_true, if_false, if_true, Bool.and_eq_true] at hf
  have hd : notW o.d = true := notW_isVec (by tauto)
  have ha : notW o.a = true := notW_isVec (by tauto)
  have hb : notW o.b = true := notW_vb (by tauto)
  refine decode_mkWord _ c _ _ _ _ _ _ rfl rfl hw rfl ?_ fun w => ?_
  · exact fun h => Bool.noConfusion (show false = true from h)
  · show (Fields.v _).map (Instr.vavg c) = _
    rw [v_read _ o hd ha hb]; rfl

theorem vand (c : Ctl) (o : VOps) : Statement (.vand c o) := by
  intro hw
  have hf : (v2Ok Fmt.ia false false false false o) = true := wf_form c rfl hw
  simp only [v2Ok, Bool.false_eq_true, if_false, if_true, Bool.and_eq_true] at hf
  have hd : notW o.d = true := notW_isVec (by tauto)
  have ha : notW o.a = true := notW_isVec (by tauto)
  have hb : notW o.b = true := notW_vb (by tauto)
  refine decode_mkWord _ c _ _ _ _ _ _ rfl rfl hw rfl ?_ fun w => ?_
  · exact fun h => Bool.noConfusion (show false = true from h)
  · show (Fields.v _).map (Instr.vand c) = _
    rw [v_read _ o hd ha hb]; rfl

theorem vor (c : Ctl) (o : VOps) : Statement (.vor c o) := by
  intro hw
  have hf : (v2Ok Fmt.ia false false false false o) = true := wf_form c rfl hw
  simp only [v2Ok, Bool.false_eq_true, if_false, if_true, Bool.and_eq_true] at hf
  have hd : notW o.d = true := notW_isVec (by tauto)
  have ha : notW o.a = true := notW_isVec (by tauto)
  have hb : notW o.b = true := notW_vb (by tauto)
  refine decode_mkWord _ c _ _ _ _ _ _ rfl rfl hw rfl ?_ fun w => ?_
  · exact fun h => Bool.noConfusion (show false = true from h)
  · show (Fields.v _).map (Instr.vor c) = _
    rw [v_read _ o hd ha hb]; rfl

theorem vxor (c : Ctl) (o : VOps) : Statement (.vxor c o) := by
  intro hw
  have hf : (v2Ok Fmt.ia false false false false o) = true := wf_form c rfl hw
  simp only [v2Ok, Bool.false_eq_true, if_false, if_true, Bool.and_eq_true] at hf
  have hd : notW o.d = true := notW_isVec (by tauto)
  have ha : notW o.a = true := notW_isVec (by tauto)
  have hb : notW o.b = true := notW_vb (by tauto)
  refine decode_mkWord _ c _ _ _ _ _ _ rfl rfl hw rfl ?_ fun w => ?_
  · exact fun h => Bool.noConfusion (show false = true from h)
  · show (Fields.v _).map (Instr.vxor c) = _
    rw [v_read _ o hd ha hb]; rfl

theorem vandn (c : Ctl) (o : VOps) : Statement (.vandn c o) := by
  intro hw
  have hf : (v2Ok Fmt.ia false false false false o) = true := wf_form c rfl hw
  simp only [v2Ok, Bool.false_eq_true, if_false, if_true, Bool.and_eq_true] at hf
  have hd : notW o.d = true := notW_isVec (by tauto)
  have ha : notW o.a = true := notW_isVec (by tauto)
  have hb : notW o.b = true := notW_vb (by tauto)
  refine decode_mkWord _ c _ _ _ _ _ _ rfl rfl hw rfl ?_ fun w => ?_
  · exact fun h => Bool.noConfusion (show false = true from h)
  · show (Fields.v _).map (Instr.vandn c) = _
    rw [v_read _ o hd ha hb]; rfl

theorem vshl (c : Ctl) (o : VOps) : Statement (.vshl c o) := by
  intro hw
  have hf : (vshiftOk true o) = true := wf_form c rfl hw
  simp only [vshiftOk, Bool.and_eq_true] at hf
  have hd : notW o.d = true := notW_isVec (by tauto)
  have ha : notW o.a = true := notW_isVec (by tauto)
  have hb : notW o.b = true := notW_vb (by tauto)
  refine decode_mkWord _ c _ _ _ _ _ _ rfl rfl hw rfl ?_ fun w => ?_
  · exact fun h => Bool.noConfusion (show false = true from h)
  · show (Fields.v _).map (Instr.vshl c) = _
    rw [v_read _ o hd ha hb]; rfl

theorem vshr (c : Ctl) (o : VOps) : Statement (.vshr c o) := by
  intro hw
  have hf : (vshiftOk false o) = true := wf_form c rfl hw
  simp only [vshiftOk, Bool.and_eq_true] at hf
  have hd : notW o.d = true := notW_isVec (by tauto)
  have ha : notW o.a = true := notW_isVec (by tauto)
  have hb : notW o.b = true := notW_vb (by tauto)
  refine decode_mkWord _ c _ _ _ _ _ _ rfl rfl hw rfl ?_ fun w => ?_
  · exact fun h => Bool.noConfusion (show false = true from h)
  · show (Fields.v _).map (Instr.vshr c) = _
    rw [v_read _ o hd ha hb]; rfl

theorem vsra (c : Ctl) (o : VOps) : Statement (.vsra c o) := by
  intro hw
  have hf : (vshiftOk false o) = true := wf_form c rfl hw
  simp only [vshiftOk, Bool.and_eq_true] at hf
  have hd : notW o.d = true := notW_isVec (by tauto)
  have ha : notW o.a = true := notW_isVec (by tauto)
  have hb : notW o.b = true := notW_vb (by tauto)
  refine decode_mkWord _ c _ _ _ _ _ _ rfl rfl hw rfl ?_ fun w => ?_
  · exact fun h => Bool.noConfusion (show false = true from h)
  · show (Fields.v _).map (Instr.vsra c) = _
    rw [v_read _ o hd ha hb]; rfl

theorem vcmp (c : Ctl) (o : VOps) : Statement (.vcmp c o) := by
  intro hw
  have hf : (vcmpOk Fmt.ia o) = true := wf_form c rfl hw
  simp only [vcmpOk, Bool.and_eq_true] at hf
  have hd : notW o.d = true := notW_isM (by tauto)
  have ha : notW o.a = true := notW_isVec (by tauto)
  have hb : notW o.b = true := notW_vb (by tauto)
  refine decode_mkWord _ c _ _ _ _ _ _ rfl rfl hw rfl ?_ fun w => ?_
  · exact fun h => Bool.noConfusion (show false = true from h)
  · show (Fields.v _).map (Instr.vcmp c) = _
    rw [v_read _ o hd ha hb]; rfl

theorem vsel (c : Ctl) (o : VOps) : Statement (.vsel c o) := by
  intro hw
  have hf : (v2Ok Fmt.vector false false false false o && o.x.msk && !o.x.mz) = true := wf_form c rfl hw
  simp only [v2Ok, Bool.false_eq_true, if_false, if_true, Bool.and_eq_true] at hf
  have hd : notW o.d = true := notW_isVec (by tauto)
  have ha : notW o.a = true := notW_isVec (by tauto)
  have hb : notW o.b = true := notW_vb (by tauto)
  refine decode_mkWord _ c _ _ _ _ _ _ rfl rfl hw rfl ?_ fun w => ?_
  · exact fun h => Bool.noConfusion (show false = true from h)
  · show (Fields.v _).map (Instr.vsel c) = _
    rw [v_read _ o hd ha hb]; rfl

theorem vmov (c : Ctl) (o : VOps) : Statement (.vmov c o) := by
  intro hw
  have hf : (v1Ok (fun f _ => f.vector) (fun _ a => a.isVec) false o) = true := wf_form c rfl hw
  simp only [v1Ok, Bool.and_eq_true] at hf
  have hd : notW o.d = true := notW_isVec (by tauto)
  have ha : notW o.a = true := notW_isVec (by tauto)
  have hb : notW o.b = true := notW_isNone (by tauto)
  refine decode_mkWord _ c _ _ _ _ _ _ rfl rfl hw rfl ?_ fun w => ?_
  · exact fun h => Bool.noConfusion (show false = true from h)
  · show (Fields.v _).map (Instr.vmov c) = _
    rw [v_read _ o hd ha hb]; rfl

theorem vbcast (c : Ctl) (o : VOps) : Statement (.vbcast c o) := by
  intro hw
  have hf : (v1Ok (fun f _ => f.vector) (fun _ a => a.isScal) false o) = true := wf_form c rfl hw
  simp only [v1Ok, Bool.and_eq_true] at hf
  have hd : notW o.d = true := notW_isVec (by tauto)
  have ha : notW o.a = true := notW_isScal (by tauto)
  have hb : notW o.b = true := notW_isNone (by tauto)
  refine decode_mkWord _ c _ _ _ _ _ _ rfl rfl hw rfl ?_ fun w => ?_
  · exact fun h => Bool.noConfusion (show false = true from h)
  · show (Fields.v _).map (Instr.vbcast c) = _
    rw [v_read _ o hd ha hb]; rfl

theorem vid (c : Ctl) (o : VOps) : Statement (.vid c o) := by
  intro hw
  have hf : (v1Ok (fun f _ => f.ia) (fun _ a => a.isNone) false o && !o.x.msk) = true := wf_form c rfl hw
  simp only [v1Ok, Bool.and_eq_true] at hf
  have hd : notW o.d = true := notW_isVec (by tauto)
  have ha : notW o.a = true := notW_isNone (by tauto)
  have hb : notW o.b = true := notW_isNone (by tauto)
  refine decode_mkWord _ c _ _ _ _ _ _ rfl rfl hw rfl ?_ fun w => ?_
  · exact fun h => Bool.noConfusion (show false = true from h)
  · show (Fields.v _).map (Instr.vid c) = _
    rw [v_read _ o hd ha hb]; rfl

theorem vclz (c : Ctl) (o : VOps) : Statement (.vclz c o) := by
  intro hw
  have hf : (v1Ok (fun f _ => f.ia) (fun _ a => a.isVec) false o) = true := wf_form c rfl hw
  simp only [v1Ok, Bool.and_eq_true] at hf
  have hd : notW o.d = true := notW_isVec (by tauto)
  have ha : notW o.a = true := notW_isVec (by tauto)
  have hb : notW o.b = true := notW_isNone (by tauto)
  refine decode_mkWord _ c _ _ _ _ _ _ rfl rfl hw rfl ?_ fun w => ?_
  · exact fun h => Bool.noConfusion (show false = true from h)
  · show (Fields.v _).map (Instr.vclz c) = _
    rw [v_read _ o hd ha hb]; rfl

theorem vpopc (c : Ctl) (o : VOps) : Statement (.vpopc c o) := by
  intro hw
  have hf : (v1Ok (fun f _ => f.ia) (fun _ a => a.isVec) false o) = true := wf_form c rfl hw
  simp only [v1Ok, Bool.and_eq_true] at hf
  have hd : notW o.d = true := notW_isVec (by tauto)
  have ha : notW o.a = true := notW_isVec (by tauto)
  have hb : notW o.b = true := notW_isNone (by tauto)
  refine decode_mkWord _ c _ _ _ _ _ _ rfl rfl hw rfl ?_ fun w => ?_
  · exact fun h => Bool.noConfusion (show false = true from h)
  · show (Fields.v _).map (Instr.vpopc c) = _
    rw [v_read _ o hd ha hb]; rfl

theorem vdot4 (c : Ctl) (o : VOps) : Statement (.vdot4 c o) := by
  intro hw
  have hf : (v2Ok (fun f => decide (f = .i8x4)) true false false true o) = true := wf_form c rfl hw
  simp only [v2Ok, Bool.false_eq_true, if_false, if_true, Bool.and_eq_true] at hf
  have hd : notW o.d = true := notW_isV (by tauto)
  have ha : notW o.a = true := notW_isVec (by tauto)
  have hb : notW o.b = true := notW_vb (by tauto)
  refine decode_mkWord _ c _ _ _ _ _ _ rfl rfl hw rfl ?_ fun w => ?_
  · exact fun h => Bool.noConfusion (show false = true from h)
  · show (Fields.v _).map (Instr.vdot4 c) = _
    rw [v_read _ o hd ha hb]; rfl

theorem vfadd (c : Ctl) (o : VOps) : Statement (.vfadd c o) := by
  intro hw
  have hf : (v2Ok Fmt.fa false false true false o && !o.x.wd) = true := wf_form c rfl hw
  simp only [v2Ok, Bool.false_eq_true, if_false, if_true, Bool.and_eq_true] at hf
  have hd : notW o.d = true := notW_isVec (by tauto)
  have ha : notW o.a = true := notW_isVec (by tauto)
  have hb : notW o.b = true := notW_vb (by tauto)
  refine decode_mkWord _ c _ _ _ _ _ _ rfl rfl hw rfl ?_ fun w => ?_
  · exact fun h => Bool.noConfusion (show false = true from h)
  · show (Fields.v _).map (Instr.vfadd c) = _
    rw [v_read _ o hd ha hb]; rfl

theorem vfsub (c : Ctl) (o : VOps) : Statement (.vfsub c o) := by
  intro hw
  have hf : (v2Ok Fmt.fa false false true false o && !o.x.wd) = true := wf_form c rfl hw
  simp only [v2Ok, Bool.false_eq_true, if_false, if_true, Bool.and_eq_true] at hf
  have hd : notW o.d = true := notW_isVec (by tauto)
  have ha : notW o.a = true := notW_isVec (by tauto)
  have hb : notW o.b = true := notW_vb (by tauto)
  refine decode_mkWord _ c _ _ _ _ _ _ rfl rfl hw rfl ?_ fun w => ?_
  · exact fun h => Bool.noConfusion (show false = true from h)
  · show (Fields.v _).map (Instr.vfsub c) = _
    rw [v_read _ o hd ha hb]; rfl

theorem vfmul (c : Ctl) (o : VOps) : Statement (.vfmul c o) := by
  intro hw
  have hf : (v2Ok Fmt.fa false true true false o) = true := wf_form c rfl hw
  simp only [v2Ok, Bool.false_eq_true, if_false, if_true, Bool.and_eq_true] at hf
  have hd : notW o.d = true := notW_isVec (by tauto)
  have ha : notW o.a = true := notW_isVec (by tauto)
  have hb : notW o.b = true := notW_vb (by tauto)
  refine decode_mkWord _ c _ _ _ _ _ _ rfl rfl hw rfl ?_ fun w => ?_
  · exact fun h => Bool.noConfusion (show false = true from h)
  · show (Fields.v _).map (Instr.vfmul c) = _
    rw [v_read _ o hd ha hb]; rfl

theorem vfma (c : Ctl) (o : VOps) : Statement (.vfma c o) := by
  intro hw
  have hf : (v2Ok Fmt.fa false true true true o) = true := wf_form c rfl hw
  simp only [v2Ok, Bool.false_eq_true, if_false, if_true, Bool.and_eq_true] at hf
  have hd : notW o.d = true := notW_isV (by tauto)
  have ha : notW o.a = true := notW_isVec (by tauto)
  have hb : notW o.b = true := notW_vb (by tauto)
  refine decode_mkWord _ c _ _ _ _ _ _ rfl rfl hw rfl ?_ fun w => ?_
  · exact fun h => Bool.noConfusion (show false = true from h)
  · show (Fields.v _).map (Instr.vfma c) = _
    rw [v_read _ o hd ha hb]; rfl

theorem vfmin (c : Ctl) (o : VOps) : Statement (.vfmin c o) := by
  intro hw
  have hf : (v2Ok Fmt.fa false false false false o) = true := wf_form c rfl hw
  simp only [v2Ok, Bool.false_eq_true, if_false, if_true, Bool.and_eq_true] at hf
  have hd : notW o.d = true := notW_isVec (by tauto)
  have ha : notW o.a = true := notW_isVec (by tauto)
  have hb : notW o.b = true := notW_vb (by tauto)
  refine decode_mkWord _ c _ _ _ _ _ _ rfl rfl hw rfl ?_ fun w => ?_
  · exact fun h => Bool.noConfusion (show false = true from h)
  · show (Fields.v _).map (Instr.vfmin c) = _
    rw [v_read _ o hd ha hb]; rfl

theorem vfmax (c : Ctl) (o : VOps) : Statement (.vfmax c o) := by
  intro hw
  have hf : (v2Ok Fmt.fa false false false false o) = true := wf_form c rfl hw
  simp only [v2Ok, Bool.false_eq_true, if_false, if_true, Bool.and_eq_true] at hf
  have hd : notW o.d = true := notW_isVec (by tauto)
  have ha : notW o.a = true := notW_isVec (by tauto)
  have hb : notW o.b = true := notW_vb (by tauto)
  refine decode_mkWord _ c _ _ _ _ _ _ rfl rfl hw rfl ?_ fun w => ?_
  · exact fun h => Bool.noConfusion (show false = true from h)
  · show (Fields.v _).map (Instr.vfmax c) = _
    rw [v_read _ o hd ha hb]; rfl

theorem vfcmp (c : Ctl) (o : VOps) : Statement (.vfcmp c o) := by
  intro hw
  have hf : (vcmpOk Fmt.fa o) = true := wf_form c rfl hw
  simp only [vcmpOk, Bool.and_eq_true] at hf
  have hd : notW o.d = true := notW_isM (by tauto)
  have ha : notW o.a = true := notW_isVec (by tauto)
  have hb : notW o.b = true := notW_vb (by tauto)
  refine decode_mkWord _ c _ _ _ _ _ _ rfl rfl hw rfl ?_ fun w => ?_
  · exact fun h => Bool.noConfusion (show false = true from h)
  · show (Fields.v _).map (Instr.vfcmp c) = _
    rw [v_read _ o hd ha hb]; rfl

theorem vfdiv (c : Ctl) (o : VOps) : Statement (.vfdiv c o) := by
  intro hw
  have hf : (v2Ok Fmt.fa false false true false o && !o.x.wd) = true := wf_form c rfl hw
  simp only [v2Ok, Bool.false_eq_true, if_false, if_true, Bool.and_eq_true] at hf
  have hd : notW o.d = true := notW_isVec (by tauto)
  have ha : notW o.a = true := notW_isVec (by tauto)
  have hb : notW o.b = true := notW_vb (by tauto)
  refine decode_mkWord _ c _ _ _ _ _ _ rfl rfl hw rfl ?_ fun w => ?_
  · exact fun h => Bool.noConfusion (show false = true from h)
  · show (Fields.v _).map (Instr.vfdiv c) = _
    rw [v_read _ o hd ha hb]; rfl

theorem vfsqrt (c : Ctl) (o : VOps) : Statement (.vfsqrt c o) := by
  intro hw
  have hf : (v1Ok (fun f _ => f.fa) (fun _ a => a.isVec) true o) = true := wf_form c rfl hw
  simp only [v1Ok, Bool.and_eq_true] at hf
  have hd : notW o.d = true := notW_isVec (by tauto)
  have ha : notW o.a = true := notW_isVec (by tauto)
  have hb : notW o.b = true := notW_isNone (by tauto)
  refine decode_mkWord _ c _ _ _ _ _ _ rfl rfl hw rfl ?_ fun w => ?_
  · exact fun h => Bool.noConfusion (show false = true from h)
  · show (Fields.v _).map (Instr.vfsqrt c) = _
    rw [v_read _ o hd ha hb]; rfl

theorem vfrcp (c : Ctl) (o : VOps) : Statement (.vfrcp c o) := by
  intro hw
  have hf : (v1Ok (fun f _ => f.fa) (fun _ a => a.isVec) false o) = true := wf_form c rfl hw
  simp only [v1Ok, Bool.and_eq_true] at hf
  have hd : notW o.d = true := notW_isVec (by tauto)
  have ha : notW o.a = true := notW_isVec (by tauto)
  have hb : notW o.b = true := notW_isNone (by tauto)
  refine decode_mkWord _ c _ _ _ _ _ _ rfl rfl hw rfl ?_ fun w => ?_
  · exact fun h => Bool.noConfusion (show false = true from h)
  · show (Fields.v _).map (Instr.vfrcp c) = _
    rw [v_read _ o hd ha hb]; rfl

theorem vfrsq (c : Ctl) (o : VOps) : Statement (.vfrsq c o) := by
  intro hw
  have hf : (v1Ok (fun f _ => f.fa) (fun _ a => a.isVec) false o) = true := wf_form c rfl hw
  simp only [v1Ok, Bool.and_eq_true] at hf
  have hd : notW o.d = true := notW_isVec (by tauto)
  have ha : notW o.a = true := notW_isVec (by tauto)
  have hb : notW o.b = true := notW_isNone (by tauto)
  refine decode_mkWord _ c _ _ _ _ _ _ rfl rfl hw rfl ?_ fun w => ?_
  · exact fun h => Bool.noConfusion (show false = true from h)
  · show (Fields.v _).map (Instr.vfrsq c) = _
    rw [v_read _ o hd ha hb]; rfl

theorem vfexp2 (c : Ctl) (o : VOps) : Statement (.vfexp2 c o) := by
  intro hw
  have hf : (v1Ok (fun f _ => f.fa) (fun _ a => a.isVec) false o) = true := wf_form c rfl hw
  simp only [v1Ok, Bool.and_eq_true] at hf
  have hd : notW o.d = true := notW_isVec (by tauto)
  have ha : notW o.a = true := notW_isVec (by tauto)
  have hb : notW o.b = true := notW_isNone (by tauto)
  refine decode_mkWord _ c _ _ _ _ _ _ rfl rfl hw rfl ?_ fun w => ?_
  · exact fun h => Bool.noConfusion (show false = true from h)
  · show (Fields.v _).map (Instr.vfexp2 c) = _
    rw [v_read _ o hd ha hb]; rfl

theorem vflog2 (c : Ctl) (o : VOps) : Statement (.vflog2 c o) := by
  intro hw
  have hf : (v1Ok (fun f _ => f.fa) (fun _ a => a.isVec) false o) = true := wf_form c rfl hw
  simp only [v1Ok, Bool.and_eq_true] at hf
  have hd : notW o.d = true := notW_isVec (by tauto)
  have ha : notW o.a = true := notW_isVec (by tauto)
  have hb : notW o.b = true := notW_isNone (by tauto)
  refine decode_mkWord _ c _ _ _ _ _ _ rfl rfl hw rfl ?_ fun w => ?_
  · exact fun h => Bool.noConfusion (show false = true from h)
  · show (Fields.v _).map (Instr.vflog2 c) = _
    rw [v_read _ o hd ha hb]; rfl

theorem vfscl (c : Ctl) (o : VOps) : Statement (.vfscl c o) := by
  intro hw
  have hf : (v2Ok Fmt.fa false false true false o && !o.x.wd) = true := wf_form c rfl hw
  simp only [v2Ok, Bool.false_eq_true, if_false, if_true, Bool.and_eq_true] at hf
  have hd : notW o.d = true := notW_isVec (by tauto)
  have ha : notW o.a = true := notW_isVec (by tauto)
  have hb : notW o.b = true := notW_vb (by tauto)
  refine decode_mkWord _ c _ _ _ _ _ _ rfl rfl hw rfl ?_ fun w => ?_
  · exact fun h => Bool.noConfusion (show false = true from h)
  · show (Fields.v _).map (Instr.vfscl c) = _
    rw [v_read _ o hd ha hb]; rfl

theorem vfrnd (c : Ctl) (o : VOps) : Statement (.vfrnd c o) := by
  intro hw
  have hf : (v2Ok Fmt.fa false false true false o && !o.x.wd) = true := wf_form c rfl hw
  simp only [v2Ok, Bool.false_eq_true, if_false, if_true, Bool.and_eq_true] at hf
  have hd : notW o.d = true := notW_isVec (by tauto)
  have ha : notW o.a = true := notW_isVec (by tauto)
  have hb : notW o.b = true := notW_vb (by tauto)
  refine decode_mkWord _ c _ _ _ _ _ _ rfl rfl hw rfl ?_ fun w => ?_
  · exact fun h => Bool.noConfusion (show false = true from h)
  · show (Fields.v _).map (Instr.vfrnd c) = _
    rw [v_read _ o hd ha hb]; rfl

theorem vxch (c : Ctl) (o : VOps) : Statement (.vxch c o) := by
  intro hw
  have hf : (v1Ok (fun f _ => f.vector) (fun _ a => a.isVec) false { o with x := { o.x with sel := 0 } } && decide (o.x.sel.toNat ≤ 12)) = true := wf_form c rfl hw
  simp only [v1Ok, Bool.and_eq_true] at hf
  have hd : notW o.d = true := notW_isVec (by tauto)
  have ha : notW o.a = true := notW_isVec (by tauto)
  have hb : notW o.b = true := notW_isNone (by tauto)
  refine decode_mkWord _ c _ _ _ _ _ _ rfl rfl hw rfl ?_ fun w => ?_
  · exact fun h => Bool.noConfusion (show false = true from h)
  · show (Fields.v _).map (Instr.vxch c) = _
    rw [v_read _ o hd ha hb]; rfl

theorem vperm (c : Ctl) (o : VOps) : Statement (.vperm c o) := by
  intro hw
  have hf : (o.fmt.vector && !o.sat && o.d.isVec && o.a.isVec && o.b.isVec && o.x.maskOnly && vmodsOk o.fmt o && o.b.modsVec false false) = true := wf_form c rfl hw
  simp only [Bool.and_eq_true] at hf
  have hd : notW o.d = true := notW_isVec (by tauto)
  have ha : notW o.a = true := notW_isVec (by tauto)
  have hb : notW o.b = true := notW_isVec (by tauto)
  refine decode_mkWord _ c _ _ _ _ _ _ rfl rfl hw rfl ?_ fun w => ?_
  · exact fun h => Bool.noConfusion (show false = true from h)
  · show (Fields.v _).map (Instr.vperm c) = _
    rw [v_read _ o hd ha hb]; rfl

theorem vslide (c : Ctl) (o : VOps) : Statement (.vslide c o) := by
  intro hw
  have hf : (o.fmt.vector && !o.sat && o.d.isVec && o.a.isVec && o.b.isScal && o.x.maskOnly && o.d.plain && o.a.modsVec false (o.fmt.signed || o.fmt.isFloat) && o.b.modsVec false true) = true := wf_form c rfl hw
  simp only [Bool.and_eq_true] at hf
  have hd : notW o.d = true := notW_isVec (by tauto)
  have ha : notW o.a = true := notW_isVec (by tauto)
  have hb : notW o.b = true := notW_isScal (by tauto)
  refine decode_mkWord _ c _ _ _ _ _ _ rfl rfl hw rfl ?_ fun w => ?_
  · exact fun h => Bool.noConfusion (show false = true from h)
  · show (Fields.v _).map (Instr.vslide c) = _
    rw [v_read _ o hd ha hb]; rfl

theorem vcompress (c : Ctl) (o : VOps) : Statement (.vcompress c o) := by
  intro hw
  have hf : (v1Ok (fun f _ => f.vector) (fun _ a => a.isVec) false o && o.x.msk && (o.x.mz || o.d.isV)) = true := wf_form c rfl hw
  simp only [v1Ok, Bool.and_eq_true] at hf
  have hd : notW o.d = true := notW_isVec (by tauto)
  have ha : notW o.a = true := notW_isVec (by tauto)
  have hb : notW o.b = true := notW_isNone (by tauto)
  refine decode_mkWord _ c _ _ _ _ _ _ rfl rfl hw rfl ?_ fun w => ?_
  · exact fun h => Bool.noConfusion (show false = true from h)
  · show (Fields.v _).map (Instr.vcompress c) = _
    rw [v_read _ o hd ha hb]; rfl

theorem vexpand (c : Ctl) (o : VOps) : Statement (.vexpand c o) := by
  intro hw
  have hf : (v1Ok (fun f _ => f.vector) (fun _ a => a.isVec) false o && o.x.msk && (o.x.mz || o.d.isV)) = true := wf_form c rfl hw
  simp only [v1Ok, Bool.and_eq_true] at hf
  have hd : notW o.d = true := notW_isVec (by tauto)
  have ha : notW o.a = true := notW_isVec (by tauto)
  have hb : notW o.b = true := notW_isNone (by tauto)
  refine decode_mkWord _ c _ _ _ _ _ _ rfl rfl hw rfl ?_ fun w => ?_
  · exact fun h => Bool.noConfusion (show false = true from h)
  · show (Fields.v _).map (Instr.vexpand c) = _
    rw [v_read _ o hd ha hb]; rfl

theorem vred (c : Ctl) (o : VOps) : Statement (.vred c o) := by
  intro hw
  have hf : ((o.fmt.ia || o.fmt.fa) && (!o.sat || (o.fmt.ia && decide (o.x.sel = 0))) && o.d.isRedD && o.a.isVec && o.b.isNone && vmodsOk o.fmt o && o.x.base && !o.x.mz && decide (o.x.aux = 0) && !o.x.wd && decide (o.x.sel.toNat ≤ (if o.fmt.fa then 2 else 5)) && decide (o.x.rm ≠ 4) && (decide (o.x.rm = 0) || (o.fmt.fa && decide (o.x.sel = 0)))) = true := wf_form c rfl hw
  simp only [Bool.and_eq_true] at hf
  have hd : notW o.d = true := notW_isRedD (by tauto)
  have ha : notW o.a = true := notW_isVec (by tauto)
  have hb : notW o.b = true := notW_isNone (by tauto)
  refine decode_mkWord _ c _ _ _ _ _ _ rfl rfl hw rfl ?_ fun w => ?_
  · exact fun h => Bool.noConfusion (show false = true from h)
  · show (Fields.v _).map (Instr.vred c) = _
    rw [v_read _ o hd ha hb]; rfl

theorem vredsc (c : Ctl) (o : VOps) : Statement (.vredsc c o) := by
  intro hw
  have hf : (o.fmt.fa && !o.sat && o.d.isRedD && o.a.isVec && o.b.isV && vmodsOk o.fmt o && o.b.modsVec false false && o.x.round && !o.x.mz && !o.x.wd) = true := wf_form c rfl hw
  simp only [Bool.and_eq_true] at hf
  have hd : notW o.d = true := notW_isRedD (by tauto)
  have ha : notW o.a = true := notW_isVec (by tauto)
  have hb : notW o.b = true := notW_isV (by tauto)
  refine decode_mkWord _ c _ _ _ _ _ _ rfl rfl hw rfl ?_ fun w => ?_
  · exact fun h => Bool.noConfusion (show false = true from h)
  · show (Fields.v _).map (Instr.vredsc c) = _
    rw [v_read _ o hd ha hb]; rfl

theorem vdot (c : Ctl) (o : VOps) : Statement (.vdot c o) := by
  intro hw
  have hf : (o.fmt.fa && !o.sat && o.d.isRedD && o.a.isVec && o.b.isVec && vmodsOk o.fmt o && o.x.round && !o.x.mz && !o.x.wd) = true := wf_form c rfl hw
  simp only [Bool.and_eq_true] at hf
  have hd : notW o.d = true := notW_isRedD (by tauto)
  have ha : notW o.a = true := notW_isVec (by tauto)
  have hb : notW o.b = true := notW_isVec (by tauto)
  refine decode_mkWord _ c _ _ _ _ _ _ rfl rfl hw rfl ?_ fun w => ?_
  · exact fun h => Bool.noConfusion (show false = true from h)
  · show (Fields.v _).map (Instr.vdot c) = _
    rw [v_read _ o hd ha hb]; rfl

theorem vcvt (c : Ctl) (o : VOps) : Statement (.vcvt c o) := by
  intro hw
  have hf : cvtOk cvtPair true o = true := wf_form c rfl hw
  unfold cvtOk at hf
  split at hf
  · exact Bool.noConfusion hf
  simp only [Bool.and_eq_true] at hf
  have hd : notW o.d = true := notW_isVec (by tauto)
  have ha : notW o.a = true := notW_isVec (by tauto)
  have hb : notW o.b = true := notW_isNone (by tauto)
  refine decode_mkWord _ c _ _ _ _ _ _ rfl rfl hw rfl ?_ fun w => ?_
  · exact fun h => Bool.noConfusion (show false = true from h)
  · show (Fields.v _).map (Instr.vcvt c) = _
    rw [v_read _ o hd ha hb]; rfl

theorem vpack (c : Ctl) (o : VOps) : Statement (.vpack c o) := by
  intro hw
  have hf : cvtOk (fun d s => d.packed && s.npv) true o = true := wf_form c rfl hw
  unfold cvtOk at hf
  split at hf
  · exact Bool.noConfusion hf
  simp only [Bool.and_eq_true] at hf
  have hd : notW o.d = true := notW_isVec (by tauto)
  have ha : notW o.a = true := notW_isVec (by tauto)
  have hb : notW o.b = true := notW_isNone (by tauto)
  refine decode_mkWord _ c _ _ _ _ _ _ rfl rfl hw rfl ?_ fun w => ?_
  · exact fun h => Bool.noConfusion (show false = true from h)
  · show (Fields.v _).map (Instr.vpack c) = _
    rw [v_read _ o hd ha hb]; rfl

theorem vunpack (c : Ctl) (o : VOps) : Statement (.vunpack c o) := by
  intro hw
  have hf : cvtOk (fun d s => d.npv && s.packed) false o = true := wf_form c rfl hw
  unfold cvtOk at hf
  split at hf
  · exact Bool.noConfusion hf
  simp only [Bool.and_eq_true] at hf
  have hd : notW o.d = true := notW_isVec (by tauto)
  have ha : notW o.a = true := notW_isVec (by tauto)
  have hb : notW o.b = true := notW_isNone (by tauto)
  refine decode_mkWord _ c _ _ _ _ _ _ rfl rfl hw rfl ?_ fun w => ?_
  · exact fun h => Bool.noConfusion (show false = true from h)
  · show (Fields.v _).map (Instr.vunpack c) = _
    rw [v_read _ o hd ha hb]; rfl

theorem mand (c : Ctl) (d : BitVec 3) (a : BitVec 3) (b : BitVec 3) : Statement (.mand c d a b) := by
  intro hw
  refine decode_mkWord _ c _ _ _ _ _ _ rfl rfl hw rfl ?_ fun w => ?_
  · exact fun h => Bool.noConfusion (show false = true from h)
  · show (fun (f : Fields) => (some (.mand c f.dM f.aM f.bM) : Option Instr)) ⟨_, _, _, _, _, _⟩ = _
    simp (disch := decide) only [Fields.dO, Fields.aO, Fields.bO, Fields.dN, Fields.aS, Fields.aN, Fields.bN,
      Fields.dV, Fields.aV, Fields.bV, Fields.dM, Fields.aM, Fields.bM, Fields.dT, Fields.aT, Fields.i32,
      Fields.fmt, Fields.rel, Fields.nat, Fields.fscope, Fields.xscope, fnT_fmt, fnT_sat, fnC_rel, fnC_nat,
      fnA_op, fnA_scope, scope_ofCode, fmt_ofCode, vx_ofBits, sField_n, srcField_n, srcField_swz, vField_n,
      qField_n, pField_n, mField_n, accField_n, cmdField_n, resField_n, immW_i32, slice_hi, slice_lo, slice_all,
      bit_hi, bit_lo, bit_ofBool, Nat.reduceSub, Option.map_some, Option.bind_some, read_xlow, slice36]

theorem mor (c : Ctl) (d : BitVec 3) (a : BitVec 3) (b : BitVec 3) : Statement (.mor c d a b) := by
  intro hw
  refine decode_mkWord _ c _ _ _ _ _ _ rfl rfl hw rfl ?_ fun w => ?_
  · exact fun h => Bool.noConfusion (show false = true from h)
  · show (fun (f : Fields) => (some (.mor c f.dM f.aM f.bM) : Option Instr)) ⟨_, _, _, _, _, _⟩ = _
    simp (disch := decide) only [Fields.dO, Fields.aO, Fields.bO, Fields.dN, Fields.aS, Fields.aN, Fields.bN,
      Fields.dV, Fields.aV, Fields.bV, Fields.dM, Fields.aM, Fields.bM, Fields.dT, Fields.aT, Fields.i32,
      Fields.fmt, Fields.rel, Fields.nat, Fields.fscope, Fields.xscope, fnT_fmt, fnT_sat, fnC_rel, fnC_nat,
      fnA_op, fnA_scope, scope_ofCode, fmt_ofCode, vx_ofBits, sField_n, srcField_n, srcField_swz, vField_n,
      qField_n, pField_n, mField_n, accField_n, cmdField_n, resField_n, immW_i32, slice_hi, slice_lo, slice_all,
      bit_hi, bit_lo, bit_ofBool, Nat.reduceSub, Option.map_some, Option.bind_some, read_xlow, slice36]

theorem mnot (c : Ctl) (d : BitVec 3) (a : BitVec 3) : Statement (.mnot c d a) := by
  intro hw
  refine decode_mkWord _ c _ _ _ _ _ _ rfl rfl hw rfl ?_ fun w => ?_
  · exact fun h => Bool.noConfusion (show false = true from h)
  · show (fun (f : Fields) => (some (.mnot c f.dM f.aM) : Option Instr)) ⟨_, _, _, _, _, _⟩ = _
    simp (disch := decide) only [Fields.dO, Fields.aO, Fields.bO, Fields.dN, Fields.aS, Fields.aN, Fields.bN,
      Fields.dV, Fields.aV, Fields.bV, Fields.dM, Fields.aM, Fields.bM, Fields.dT, Fields.aT, Fields.i32,
      Fields.fmt, Fields.rel, Fields.nat, Fields.fscope, Fields.xscope, fnT_fmt, fnT_sat, fnC_rel, fnC_nat,
      fnA_op, fnA_scope, scope_ofCode, fmt_ofCode, vx_ofBits, sField_n, srcField_n, srcField_swz, vField_n,
      qField_n, pField_n, mField_n, accField_n, cmdField_n, resField_n, immW_i32, slice_hi, slice_lo, slice_all,
      bit_hi, bit_lo, bit_ofBool, Nat.reduceSub, Option.map_some, Option.bind_some, read_xlow, slice36]

theorem mpopc (c : Ctl) (d : Operand) (a : BitVec 3) (x : VX) : Statement (.mpopc c d a x) := by
  intro hw
  have hf : (d.isSqp && x.base && !x.mz && decide (x.rm = 0) && decide (x.aux = 0) && !x.wd && decide (x.sel.toNat < 4)) = true := wf_form c rfl hw
  simp only [Bool.and_eq_true] at hf
  have hd : notW d = true := notW_isSqp (by tauto)
  refine decode_mkWord _ c _ _ _ _ _ _ rfl rfl hw rfl ?_ fun w => ?_
  · exact fun h => Bool.noConfusion (show false = true from h)
  · show (fun (f : Fields) => (some (.mpopc c f.dO f.aM (VX.ofBits f.x)) : Option Instr)) ⟨_, _, _, _, _, _⟩ = _
    simp (disch := decide) only [Fields.dO, Fields.aO, Fields.bO, Fields.dN, Fields.aS, Fields.aN, Fields.bN,
      Fields.dV, Fields.aV, Fields.bV, Fields.dM, Fields.aM, Fields.bM, Fields.dT, Fields.aT, Fields.i32,
      Fields.fmt, Fields.rel, Fields.nat, Fields.fscope, Fields.xscope, fnT_fmt, fnT_sat, fnC_rel, fnC_nat,
      fnA_op, fnA_scope, scope_ofCode, fmt_ofCode, vx_ofBits, sField_n, srcField_n, srcField_swz, vField_n,
      qField_n, pField_n, mField_n, accField_n, cmdField_n, resField_n, immW_i32, slice_hi, slice_lo, slice_all,
      bit_hi, bit_lo, bit_ofBool, Nat.reduceSub, Option.map_some, Option.bind_some, read_xlow, slice36, read_notW
      _ _ hd]

theorem mfirst (c : Ctl) (d : Operand) (a : BitVec 3) (x : VX) : Statement (.mfirst c d a x) := by
  intro hw
  have hf : (d.isSqp && x.base && !x.mz && decide (x.rm = 0) && decide (x.aux = 0) && !x.wd && decide (x.sel.toNat < 4)) = true := wf_form c rfl hw
  simp only [Bool.and_eq_true] at hf
  have hd : notW d = true := notW_isSqp (by tauto)
  refine decode_mkWord _ c _ _ _ _ _ _ rfl rfl hw rfl ?_ fun w => ?_
  · exact fun h => Bool.noConfusion (show false = true from h)
  · show (fun (f : Fields) => (some (.mfirst c f.dO f.aM (VX.ofBits f.x)) : Option Instr)) ⟨_, _, _, _, _, _⟩ = _
    simp (disch := decide) only [Fields.dO, Fields.aO, Fields.bO, Fields.dN, Fields.aS, Fields.aN, Fields.bN,
      Fields.dV, Fields.aV, Fields.bV, Fields.dM, Fields.aM, Fields.bM, Fields.dT, Fields.aT, Fields.i32,
      Fields.fmt, Fields.rel, Fields.nat, Fields.fscope, Fields.xscope, fnT_fmt, fnT_sat, fnC_rel, fnC_nat,
      fnA_op, fnA_scope, scope_ofCode, fmt_ofCode, vx_ofBits, sField_n, srcField_n, srcField_swz, vField_n,
      qField_n, pField_n, mField_n, accField_n, cmdField_n, resField_n, immW_i32, slice_hi, slice_lo, slice_all,
      bit_hi, bit_lo, bit_ofBool, Nat.reduceSub, Option.map_some, Option.bind_some, read_xlow, slice36, read_notW
      _ _ hd]

theorem vld (c : Ctl) (o : VMOps) : Statement (.vld c o) := by
  intro hw
  have hf : (vmemOk false false false o) = true := wf_form c rfl hw
  simp only [vmemOk, Bool.false_eq_true, if_false, if_true, Bool.and_eq_true] at hf
  have hb : notW o.b = true := notW_vmem (by tauto)
  refine decode_mkWord _ c _ _ _ _ _ _ rfl rfl hw rfl ?_ fun w => ?_
  · intro _; exact top_vsField _ _
  · show (Fields.vm _).map (Instr.vld c) = _
    rw [vm_read _ o hb]; rfl

theorem vlds (c : Ctl) (o : VMOps) : Statement (.vlds c o) := by
  intro hw
  have hf : (vmemOk false true false o) = true := wf_form c rfl hw
  simp only [vmemOk, Bool.false_eq_true, if_false, if_true, Bool.and_eq_true] at hf
  have hb : notW o.b = true := notW_vmem (by tauto)
  refine decode_mkWord _ c _ _ _ _ _ _ rfl rfl hw rfl ?_ fun w => ?_
  · intro _; exact top_vsField _ _
  · show (Fields.vm _).map (Instr.vlds c) = _
    rw [vm_read _ o hb]; rfl

theorem vldx (c : Ctl) (o : VMOps) : Statement (.vldx c o) := by
  intro hw
  have hf : (vmemOk true false false o) = true := wf_form c rfl hw
  simp only [vmemOk, Bool.false_eq_true, if_false, if_true, Bool.and_eq_true] at hf
  have hb : notW o.b = true := notW_isV (by tauto)
  refine decode_mkWord _ c _ _ _ _ _ _ rfl rfl hw rfl ?_ fun w => ?_
  · intro _; exact top_vsField _ _
  · show (Fields.vm _).map (Instr.vldx c) = _
    rw [vm_read _ o hb]; rfl

theorem vst (c : Ctl) (o : VMOps) : Statement (.vst c o) := by
  intro hw
  have hf : (vmemOk false false true o) = true := wf_form c rfl hw
  simp only [vmemOk, Bool.false_eq_true, if_false, if_true, Bool.and_eq_true] at hf
  have hb : notW o.b = true := notW_vmem (by tauto)
  refine decode_mkWord _ c _ _ _ _ _ _ rfl rfl hw rfl ?_ fun w => ?_
  · intro _; exact top_vsField _ _
  · show (Fields.vm _).map (Instr.vst c) = _
    rw [vm_read _ o hb]; rfl

theorem vsts (c : Ctl) (o : VMOps) : Statement (.vsts c o) := by
  intro hw
  have hf : (vmemOk false true true o) = true := wf_form c rfl hw
  simp only [vmemOk, Bool.false_eq_true, if_false, if_true, Bool.and_eq_true] at hf
  have hb : notW o.b = true := notW_vmem (by tauto)
  refine decode_mkWord _ c _ _ _ _ _ _ rfl rfl hw rfl ?_ fun w => ?_
  · intro _; exact top_vsField _ _
  · show (Fields.vm _).map (Instr.vsts c) = _
    rw [vm_read _ o hb]; rfl

theorem vstx (c : Ctl) (o : VMOps) : Statement (.vstx c o) := by
  intro hw
  have hf : (vmemOk true false true o) = true := wf_form c rfl hw
  simp only [vmemOk, Bool.false_eq_true, if_false, if_true, Bool.and_eq_true] at hf
  have hb : notW o.b = true := notW_isV (by tauto)
  refine decode_mkWord _ c _ _ _ _ _ _ rfl rfl hw rfl ?_ fun w => ?_
  · intro _; exact top_vsField _ _
  · show (Fields.vm _).map (Instr.vstx c) = _
    rw [vm_read _ o hb]; rfl

theorem vldq (c : Ctl) (fmt : Fmt) (q : BitVec 3) (a : SSrc) (b : Operand) : Statement (.vldq c fmt q a b) := by
  intro hw
  have hf : (fmt.vmem && (b.isS || b.isImm14) && b.swzOnly) = true := wf_form c rfl hw
  simp only [Bool.and_eq_true] at hf
  have hb : notW b = true := notW_vmem (by tauto)
  refine decode_mkWord _ c _ _ _ _ _ _ rfl rfl hw rfl ?_ fun w => ?_
  · intro _; exact top_qField _
  · show (fun (f : Fields) => (f.fmt.map fun t => .vldq c t f.dM f.aS f.bO : Option Instr)) ⟨_, _, _, _, _, _⟩ = _
    simp (disch := decide) only [Fields.dO, Fields.aO, Fields.bO, Fields.dN, Fields.aS, Fields.aN, Fields.bN,
      Fields.dV, Fields.aV, Fields.bV, Fields.dM, Fields.aM, Fields.bM, Fields.dT, Fields.aT, Fields.i32,
      Fields.fmt, Fields.rel, Fields.nat, Fields.fscope, Fields.xscope, fnT_fmt, fnT_sat, fnC_rel, fnC_nat,
      fnA_op, fnA_scope, scope_ofCode, fmt_ofCode, vx_ofBits, sField_n, srcField_n, srcField_swz, vField_n,
      qField_n, pField_n, mField_n, accField_n, cmdField_n, resField_n, immW_i32, slice_hi, slice_lo, slice_all,
      bit_hi, bit_lo, bit_ofBool, Nat.reduceSub, Option.map_some, Option.bind_some, read_xlow, slice36, read_notW
      _ _ hb]

theorem vstq (c : Ctl) (fmt : Fmt) (q : BitVec 3) (a : SSrc) (b : Operand) : Statement (.vstq c fmt q a b) := by
  intro hw
  have hf : (fmt.vmem && (b.isS || b.isImm14) && b.swzOnly) = true := wf_form c rfl hw
  simp only [Bool.and_eq_true] at hf
  have hb : notW b = true := notW_vmem (by tauto)
  refine decode_mkWord _ c _ _ _ _ _ _ rfl rfl hw rfl ?_ fun w => ?_
  · intro _; exact top_qField _
  · show (fun (f : Fields) => (f.fmt.map fun t => .vstq c t f.dM f.aS f.bO : Option Instr)) ⟨_, _, _, _, _, _⟩ = _
    simp (disch := decide) only [Fields.dO, Fields.aO, Fields.bO, Fields.dN, Fields.aS, Fields.aN, Fields.bN,
      Fields.dV, Fields.aV, Fields.bV, Fields.dM, Fields.aM, Fields.bM, Fields.dT, Fields.aT, Fields.i32,
      Fields.fmt, Fields.rel, Fields.nat, Fields.fscope, Fields.xscope, fnT_fmt, fnT_sat, fnC_rel, fnC_nat,
      fnA_op, fnA_scope, scope_ofCode, fmt_ofCode, vx_ofBits, sField_n, srcField_n, srcField_swz, vField_n,
      qField_n, pField_n, mField_n, accField_n, cmdField_n, resField_n, immW_i32, slice_hi, slice_lo, slice_all,
      bit_hi, bit_lo, bit_ofBool, Nat.reduceSub, Option.map_some, Option.bind_some, read_xlow, slice36, read_notW
      _ _ hb]

theorem vbind (c : Ctl) (fmt : Fmt) (sc : Bool) (st : Bool) (q : BitVec 3) (a : SSrc) : Statement (.vbind c fmt sc st q a) := by
  intro hw
  refine decode_mkWord _ c _ _ _ _ _ _ rfl rfl hw rfl ?_ fun w => ?_
  · intro _; exact top_qField _
  · show (fun (f : Fields) => (f.fmt.map fun t => .vbind c t (f.x.getLsbD 1) (f.x.getLsbD 0) f.dM f.aS : Option Instr)) ⟨_, _, _, _, _, _⟩ = _
    simp (disch := decide) only [Fields.dO, Fields.aO, Fields.bO, Fields.dN, Fields.aS, Fields.aN, Fields.bN,
      Fields.dV, Fields.aV, Fields.bV, Fields.dM, Fields.aM, Fields.bM, Fields.dT, Fields.aT, Fields.i32,
      Fields.fmt, Fields.rel, Fields.nat, Fields.fscope, Fields.xscope, fnT_fmt, fnT_sat, fnC_rel, fnC_nat,
      fnA_op, fnA_scope, scope_ofCode, fmt_ofCode, vx_ofBits, sField_n, srcField_n, srcField_swz, vField_n,
      qField_n, pField_n, mField_n, accField_n, cmdField_n, resField_n, immW_i32, slice_hi, slice_lo, slice_all,
      bit_hi, bit_lo, bit_ofBool, Nat.reduceSub, Option.map_some, Option.bind_some, read_xlow, slice36]

theorem vunbind (c : Ctl) (q : BitVec 3) : Statement (.vunbind c q) := by
  intro hw
  refine decode_mkWord _ c _ _ _ _ _ _ rfl rfl hw rfl ?_ fun w => ?_
  · intro _; exact top_qField _
  · show (fun (f : Fields) => (some (.vunbind c f.dM) : Option Instr)) ⟨_, _, _, _, _, _⟩ = _
    simp (disch := decide) only [Fields.dO, Fields.aO, Fields.bO, Fields.dN, Fields.aS, Fields.aN, Fields.bN,
      Fields.dV, Fields.aV, Fields.bV, Fields.dM, Fields.aM, Fields.bM, Fields.dT, Fields.aT, Fields.i32,
      Fields.fmt, Fields.rel, Fields.nat, Fields.fscope, Fields.xscope, fnT_fmt, fnT_sat, fnC_rel, fnC_nat,
      fnA_op, fnA_scope, scope_ofCode, fmt_ofCode, vx_ofBits, sField_n, srcField_n, srcField_swz, vField_n,
      qField_n, pField_n, mField_n, accField_n, cmdField_n, resField_n, immW_i32, slice_hi, slice_lo, slice_all,
      bit_hi, bit_lo, bit_ofBool, Nat.reduceSub, Option.map_some, Option.bind_some, read_xlow, slice36]

theorem stmap (c : Ctl) (slot : BitVec 5) (soff : BitVec 7) (a : BitVec 6) (b : Operand) : Statement (.stmap c slot soff a b) := by
  intro hw
  have hf : (b.isSi) = true := wf_form c rfl hw
  have hb : notW b = true := notW_isSi (by tauto)
  refine decode_mkWord _ c _ _ _ _ _ _ rfl rfl hw rfl ?_ fun w => ?_
  · intro _; rfl
  · show (fun (f : Fields) => (some (.stmap c (f.x.extractLsb' 13 5) (f.x.extractLsb' 6 7) f.aN f.bO) : Option Instr)) ⟨_, _, _, _, _, _⟩ = _
    simp (disch := decide) only [Fields.dO, Fields.aO, Fields.bO, Fields.dN, Fields.aS, Fields.aN, Fields.bN,
      Fields.dV, Fields.aV, Fields.bV, Fields.dM, Fields.aM, Fields.bM, Fields.dT, Fields.aT, Fields.i32,
      Fields.fmt, Fields.rel, Fields.nat, Fields.fscope, Fields.xscope, fnT_fmt, fnT_sat, fnC_rel, fnC_nat,
      fnA_op, fnA_scope, scope_ofCode, fmt_ofCode, vx_ofBits, sField_n, srcField_n, srcField_swz, vField_n,
      qField_n, pField_n, mField_n, accField_n, cmdField_n, resField_n, immW_i32, slice_hi, slice_lo, slice_all,
      bit_hi, bit_lo, bit_ofBool, Nat.reduceSub, Option.map_some, Option.bind_some, read_xlow, slice36, read_notW
      _ _ hb]

theorem stwb (c : Ctl) (a : BitVec 6) (b : Operand) : Statement (.stwb c a b) := by
  intro hw
  have hf : (b.isSi) = true := wf_form c rfl hw
  have hb : notW b = true := notW_isSi (by tauto)
  refine decode_mkWord _ c _ _ _ _ _ _ rfl rfl hw rfl ?_ fun w => ?_
  · intro _; rfl
  · show (fun (f : Fields) => (some (.stwb c f.aN f.bO) : Option Instr)) ⟨_, _, _, _, _, _⟩ = _
    simp (disch := decide) only [Fields.dO, Fields.aO, Fields.bO, Fields.dN, Fields.aS, Fields.aN, Fields.bN,
      Fields.dV, Fields.aV, Fields.bV, Fields.dM, Fields.aM, Fields.bM, Fields.dT, Fields.aT, Fields.i32,
      Fields.fmt, Fields.rel, Fields.nat, Fields.fscope, Fields.xscope, fnT_fmt, fnT_sat, fnC_rel, fnC_nat,
      fnA_op, fnA_scope, scope_ofCode, fmt_ofCode, vx_ofBits, sField_n, srcField_n, srcField_swz, vField_n,
      qField_n, pField_n, mField_n, accField_n, cmdField_n, resField_n, immW_i32, slice_hi, slice_lo, slice_all,
      bit_hi, bit_lo, bit_ofBool, Nat.reduceSub, Option.map_some, Option.bind_some, read_xlow, slice36, read_notW
      _ _ hb]

theorem stdrop (c : Ctl) (a : BitVec 6) (b : Operand) : Statement (.stdrop c a b) := by
  intro hw
  have hf : (b.isSi) = true := wf_form c rfl hw
  have hb : notW b = true := notW_isSi (by tauto)
  refine decode_mkWord _ c _ _ _ _ _ _ rfl rfl hw rfl ?_ fun w => ?_
  · intro _; rfl
  · show (fun (f : Fields) => (some (.stdrop c f.aN f.bO) : Option Instr)) ⟨_, _, _, _, _, _⟩ = _
    simp (disch := decide) only [Fields.dO, Fields.aO, Fields.bO, Fields.dN, Fields.aS, Fields.aN, Fields.bN,
      Fields.dV, Fields.aV, Fields.bV, Fields.dM, Fields.aM, Fields.bM, Fields.dT, Fields.aT, Fields.i32,
      Fields.fmt, Fields.rel, Fields.nat, Fields.fscope, Fields.xscope, fnT_fmt, fnT_sat, fnC_rel, fnC_nat,
      fnA_op, fnA_scope, scope_ofCode, fmt_ofCode, vx_ofBits, sField_n, srcField_n, srcField_swz, vField_n,
      qField_n, pField_n, mField_n, accField_n, cmdField_n, resField_n, immW_i32, slice_hi, slice_lo, slice_all,
      bit_hi, bit_lo, bit_ofBool, Nat.reduceSub, Option.map_some, Option.bind_some, read_xlow, slice36, read_notW
      _ _ hb]

theorem setts (c : Ctl) (wf : Fmt) (m : Operand) (n : Operand) (k : Operand) : Statement (.setts c wf m n k) := by
  intro hw
  have hf : (wf.weight && m.isSi && n.isSi && k.isSi) = true := wf_form c rfl hw
  simp only [Bool.and_eq_true] at hf
  have hm : notW m = true := notW_isSi (by tauto)
  have hn : notW n = true := notW_isSi (by tauto)
  have hk : notW k = true := notW_isSi (by tauto)
  refine decode_mkWord _ c _ _ _ _ _ _ rfl rfl hw rfl ?_ fun w => ?_
  · exact fun h => Bool.noConfusion (show false = true from h)
  · show (fun (f : Fields) => ((Fmt.ofCode (f.x.extractLsb' 0 5)).map fun t => .setts c t f.dO f.aO f.bO : Option Instr)) ⟨_, _, _, _, _, _⟩ = _
    simp (disch := decide) only [Fields.dO, Fields.aO, Fields.bO, Fields.dN, Fields.aS, Fields.aN, Fields.bN,
      Fields.dV, Fields.aV, Fields.bV, Fields.dM, Fields.aM, Fields.bM, Fields.dT, Fields.aT, Fields.i32,
      Fields.fmt, Fields.rel, Fields.nat, Fields.fscope, Fields.xscope, fnT_fmt, fnT_sat, fnC_rel, fnC_nat,
      fnA_op, fnA_scope, scope_ofCode, fmt_ofCode, vx_ofBits, sField_n, srcField_n, srcField_swz, vField_n,
      qField_n, pField_n, mField_n, accField_n, cmdField_n, resField_n, immW_i32, slice_hi, slice_lo, slice_all,
      bit_hi, bit_lo, bit_ofBool, Nat.reduceSub, Option.map_some, Option.bind_some, read_xlow, slice36, read_notW
      _ _ hm, read_notW _ _ hn, read_notW _ _ hk]

theorem wfmt (c : Ctl) (wf : Fmt) (acc : BitVec 2) (a : Operand) : Statement (.wfmt c wf acc a) := by
  intro hw
  have hf : (wf.weight && (if wf = .vq2 then a.isS && a.plain else a.isNone)) = true := wf_form c rfl hw
  have ha : notW a = true := by
    simp only [Bool.and_eq_true] at hf
    have h2 := hf.2
    split at h2
    · exact notW_isS (by simp only [Bool.and_eq_true] at h2; exact h2.1)
    · exact notW_isNone h2
  refine decode_mkWord _ c _ _ _ _ _ _ rfl rfl hw rfl ?_ fun w => ?_
  · exact fun h => Bool.noConfusion (show false = true from h)
  · show (fun (f : Fields) => (f.fmt.map fun t => Instr.wfmt c t f.dT f.aO : Option Instr)) ⟨_, _, _, _, _, _⟩ = _
    simp only [Fields.fmt, Fields.dT, Fields.aO, fnT_fmt, accField_n, read_notW _ _ ha, Option.map_some]

theorem wload (c : Ctl) (acc : BitVec 2) (a : BitVec 6) (b : Operand) (kofs : BitVec 12) : Statement (.wload c acc a b kofs) := by
  intro hw
  have hf : (b.isSi) = true := wf_form c rfl hw
  have hb : notW b = true := notW_isSi (by tauto)
  refine decode_mkWord _ c _ _ _ _ _ _ rfl rfl hw rfl ?_ fun w => ?_
  · exact fun h => Bool.noConfusion (show false = true from h)
  · show (fun (f : Fields) => (some (.wload c f.dT f.aN f.bO (f.x.extractLsb' 6 12)) : Option Instr)) ⟨_, _, _, _, _, _⟩ = _
    simp (disch := decide) only [Fields.dO, Fields.aO, Fields.bO, Fields.dN, Fields.aS, Fields.aN, Fields.bN,
      Fields.dV, Fields.aV, Fields.bV, Fields.dM, Fields.aM, Fields.bM, Fields.dT, Fields.aT, Fields.i32,
      Fields.fmt, Fields.rel, Fields.nat, Fields.fscope, Fields.xscope, fnT_fmt, fnT_sat, fnC_rel, fnC_nat,
      fnA_op, fnA_scope, scope_ofCode, fmt_ofCode, vx_ofBits, sField_n, srcField_n, srcField_swz, vField_n,
      qField_n, pField_n, mField_n, accField_n, cmdField_n, resField_n, immW_i32, slice_hi, slice_lo, slice_all,
      bit_hi, bit_lo, bit_ofBool, Nat.reduceSub, Option.map_some, Option.bind_some, read_xlow, slice36, read_notW
      _ _ hb]

theorem mscale (c : Ctl) (ofB : Bool) (a : BitVec 6) (b : Operand) (count : BitVec 12) : Statement (.mscale c ofB a b count) := by
  intro hw
  have hf : (b.isSi) = true := wf_form c rfl hw
  have hb : notW b = true := notW_isSi (by tauto)
  refine decode_mkWord _ c _ _ _ _ _ _ rfl rfl hw rfl ?_ fun w => ?_
  · exact fun h => Bool.noConfusion (show false = true from h)
  · show (fun (f : Fields) => (some (.mscale c (f.x.getLsbD 0) f.aN f.bO (f.x.extractLsb' 6 12)) : Option Instr)) ⟨_, _, _, _, _, _⟩ = _
    simp (disch := decide) only [Fields.dO, Fields.aO, Fields.bO, Fields.dN, Fields.aS, Fields.aN, Fields.bN,
      Fields.dV, Fields.aV, Fields.bV, Fields.dM, Fields.aM, Fields.bM, Fields.dT, Fields.aT, Fields.i32,
      Fields.fmt, Fields.rel, Fields.nat, Fields.fscope, Fields.xscope, fnT_fmt, fnT_sat, fnC_rel, fnC_nat,
      fnA_op, fnA_scope, scope_ofCode, fmt_ofCode, vx_ofBits, sField_n, srcField_n, srcField_swz, vField_n,
      qField_n, pField_n, mField_n, accField_n, cmdField_n, resField_n, immW_i32, slice_hi, slice_lo, slice_all,
      bit_hi, bit_lo, bit_ofBool, Nat.reduceSub, Option.map_some, Option.bind_some, read_xlow, slice36, read_notW
      _ _ hb]

theorem mzero (c : Ctl) (acc : BitVec 2) : Statement (.mzero c acc) := by
  intro hw
  refine decode_mkWord _ c _ _ _ _ _ _ rfl rfl hw rfl ?_ fun w => ?_
  · exact fun h => Bool.noConfusion (show false = true from h)
  · show (fun (f : Fields) => (some (.mzero c f.dT) : Option Instr)) ⟨_, _, _, _, _, _⟩ = _
    simp (disch := decide) only [Fields.dO, Fields.aO, Fields.bO, Fields.dN, Fields.aS, Fields.aN, Fields.bN,
      Fields.dV, Fields.aV, Fields.bV, Fields.dM, Fields.aM, Fields.bM, Fields.dT, Fields.aT, Fields.i32,
      Fields.fmt, Fields.rel, Fields.nat, Fields.fscope, Fields.xscope, fnT_fmt, fnT_sat, fnC_rel, fnC_nat,
      fnA_op, fnA_scope, scope_ofCode, fmt_ofCode, vx_ofBits, sField_n, srcField_n, srcField_swz, vField_n,
      qField_n, pField_n, mField_n, accField_n, cmdField_n, resField_n, immW_i32, slice_hi, slice_lo, slice_all,
      bit_hi, bit_lo, bit_ofBool, Nat.reduceSub, Option.map_some, Option.bind_some, read_xlow, slice36]

theorem maccLd (c : Ctl) (acc : BitVec 2) (v : BitVec 5) (row0 : BitVec 6) : Statement (.maccLd c acc v row0) := by
  intro hw
  refine decode_mkWord _ c _ _ _ _ _ _ rfl rfl hw rfl ?_ fun w => ?_
  · exact fun h => Bool.noConfusion (show false = true from h)
  · show (fun (f : Fields) => (some (.maccLd c f.dT f.aV (f.x.extractLsb' 0 6)) : Option Instr)) ⟨_, _, _, _, _, _⟩ = _
    simp (disch := decide) only [Fields.dO, Fields.aO, Fields.bO, Fields.dN, Fields.aS, Fields.aN, Fields.bN,
      Fields.dV, Fields.aV, Fields.bV, Fields.dM, Fields.aM, Fields.bM, Fields.dT, Fields.aT, Fields.i32,
      Fields.fmt, Fields.rel, Fields.nat, Fields.fscope, Fields.xscope, fnT_fmt, fnT_sat, fnC_rel, fnC_nat,
      fnA_op, fnA_scope, scope_ofCode, fmt_ofCode, vx_ofBits, sField_n, srcField_n, srcField_swz, vField_n,
      qField_n, pField_n, mField_n, accField_n, cmdField_n, resField_n, immW_i32, slice_hi, slice_lo, slice_all,
      bit_hi, bit_lo, bit_ofBool, Nat.reduceSub, Option.map_some, Option.bind_some, read_xlow, slice36]

theorem mova (c : Ctl) (fmt : Fmt) (sat : Bool) (v : BitVec 5) (acc : BitVec 2) (rm : BitVec 3) (row0 : BitVec 6) : Statement (.mova c fmt sat v acc rm row0) := by
  intro hw
  refine decode_mkWord _ c _ _ _ _ _ _ rfl rfl hw rfl ?_ fun w => ?_
  · exact fun h => Bool.noConfusion (show false = true from h)
  · show (fun (f : Fields) => (f.fmt.map fun t => .mova c t (f.fn.getLsbD 5) f.dV f.aT (f.x.extractLsb' 15 3) (f.x.extractLsb' 0 6) : Option Instr)) ⟨_, _, _, _, _, _⟩ = _
    simp (disch := decide) only [Fields.dO, Fields.aO, Fields.bO, Fields.dN, Fields.aS, Fields.aN, Fields.bN,
      Fields.dV, Fields.aV, Fields.bV, Fields.dM, Fields.aM, Fields.bM, Fields.dT, Fields.aT, Fields.i32,
      Fields.fmt, Fields.rel, Fields.nat, Fields.fscope, Fields.xscope, fnT_fmt, fnT_sat, fnC_rel, fnC_nat,
      fnA_op, fnA_scope, scope_ofCode, fmt_ofCode, vx_ofBits, sField_n, srcField_n, srcField_swz, vField_n,
      qField_n, pField_n, mField_n, accField_n, cmdField_n, resField_n, immW_i32, slice_hi, slice_lo, slice_all,
      bit_hi, bit_lo, bit_ofBool, Nat.reduceSub, Option.map_some, Option.bind_some, read_xlow, slice36]

theorem mma (c : Ctl) (fmt : Fmt) (acc : BitVec 2) (a : BitVec 6) (b : Operand) (kofs : BitVec 12) : Statement (.mma c fmt acc a b kofs) := by
  intro hw
  have hf : (fmt.weight && decide (fmt ≠ .vq2) && b.isSi) = true := wf_form c rfl hw
  simp only [Bool.and_eq_true] at hf
  have hb : notW b = true := notW_isSi (by tauto)
  refine decode_mkWord _ c _ _ _ _ _ _ rfl rfl hw rfl ?_ fun w => ?_
  · exact fun h => Bool.noConfusion (show false = true from h)
  · show (fun (f : Fields) => (f.fmt.map fun t => .mma c t f.dT f.aN f.bO (f.x.extractLsb' 6 12) : Option Instr)) ⟨_, _, _, _, _, _⟩ = _
    simp (disch := decide) only [Fields.dO, Fields.aO, Fields.bO, Fields.dN, Fields.aS, Fields.aN, Fields.bN,
      Fields.dV, Fields.aV, Fields.bV, Fields.dM, Fields.aM, Fields.bM, Fields.dT, Fields.aT, Fields.i32,
      Fields.fmt, Fields.rel, Fields.nat, Fields.fscope, Fields.xscope, fnT_fmt, fnT_sat, fnC_rel, fnC_nat,
      fnA_op, fnA_scope, scope_ofCode, fmt_ofCode, vx_ofBits, sField_n, srcField_n, srcField_swz, vField_n,
      qField_n, pField_n, mField_n, accField_n, cmdField_n, resField_n, immW_i32, slice_hi, slice_lo, slice_all,
      bit_hi, bit_lo, bit_ofBool, Nat.reduceSub, Option.map_some, Option.bind_some, read_xlow, slice36, read_notW
      _ _ hb]

theorem mwait (c : Ctl) (acc : Option (BitVec 2)) : Statement (.mwait c acc) := by
  intro hw
  cases acc with
  | none => exact decode_mkWord _ c _ _ _ _ _ _ rfl rfl hw rfl (fun h => Bool.noConfusion (show false = true from h)) fun _ => rfl
  | some n =>
      refine decode_mkWord _ c _ _ _ _ _ _ rfl rfl hw rfl (fun h => Bool.noConfusion (show false = true from h)) fun _ => ?_
      show some (Instr.mwait c (if accField n = noneField then none else some ((accField n).extractLsb' 9 2))) = _
      rw [if_neg (accField_ne_none n), accField_n]

theorem mstat (c : Ctl) (d : Operand) (acc : BitVec 2) : Statement (.mstat c d acc) := by
  intro hw
  have hf : (d.isSqp) = true := wf_form c rfl hw
  have hd : notW d = true := notW_isSqp (by tauto)
  refine decode_mkWord _ c _ _ _ _ _ _ rfl rfl hw rfl ?_ fun w => ?_
  · exact fun h => Bool.noConfusion (show false = true from h)
  · show (fun (f : Fields) => (some (.mstat c f.dO f.aT) : Option Instr)) ⟨_, _, _, _, _, _⟩ = _
    simp (disch := decide) only [Fields.dO, Fields.aO, Fields.bO, Fields.dN, Fields.aS, Fields.aN, Fields.bN,
      Fields.dV, Fields.aV, Fields.bV, Fields.dM, Fields.aM, Fields.bM, Fields.dT, Fields.aT, Fields.i32,
      Fields.fmt, Fields.rel, Fields.nat, Fields.fscope, Fields.xscope, fnT_fmt, fnT_sat, fnC_rel, fnC_nat,
      fnA_op, fnA_scope, scope_ofCode, fmt_ofCode, vx_ofBits, sField_n, srcField_n, srcField_swz, vField_n,
      qField_n, pField_n, mField_n, accField_n, cmdField_n, resField_n, immW_i32, slice_hi, slice_lo, slice_all,
      bit_hi, bit_lo, bit_ofBool, Nat.reduceSub, Option.map_some, Option.bind_some, read_xlow, slice36, read_notW
      _ _ hd]

theorem amo (c : Ctl) (op : BitVec 3) (sc : Scope) (fmt : Fmt) (d : Operand) (a : BitVec 6) (b : Operand) (disp : BitVec 13) : Statement (.amo c op sc fmt d a b disp) := by
  intro hw
  have hf : ((decide (fmt = .i32) || decide (fmt = .i64) || decide (fmt = .n32) || decide (fmt = .n64)) && d.isSqp && (decide (op ≠ 7) || d.isS) && b.isSqi) = true := wf_form c rfl hw
  simp only [Bool.and_eq_true] at hf
  have hd : notW d = true := notW_isSqp (by tauto)
  have hb : notW b = true := notW_isSqi (by tauto)
  refine decode_mkWord _ c _ _ _ _ _ _ rfl rfl hw rfl ?_ fun w => ?_
  · intro _; exact top_isSqp (by tauto)
  · show (fun (f : Fields) => ((Fmt.ofCode (f.x.extractLsb' 13 5)).bind fun t => f.fscope.map fun sc => .amo c (f.fn.extractLsb' 3 3) sc t f.dO f.aN f.bO (f.x.extractLsb' 0 13) : Option Instr)) ⟨_, _, _, _, _, _⟩ = _
    simp (disch := decide) only [Fields.dO, Fields.aO, Fields.bO, Fields.dN, Fields.aS, Fields.aN, Fields.bN,
      Fields.dV, Fields.aV, Fields.bV, Fields.dM, Fields.aM, Fields.bM, Fields.dT, Fields.aT, Fields.i32,
      Fields.fmt, Fields.rel, Fields.nat, Fields.fscope, Fields.xscope, fnT_fmt, fnT_sat, fnC_rel, fnC_nat,
      fnA_op, fnA_scope, scope_ofCode, fmt_ofCode, vx_ofBits, sField_n, srcField_n, srcField_swz, vField_n,
      qField_n, pField_n, mField_n, accField_n, cmdField_n, resField_n, immW_i32, slice_hi, slice_lo, slice_all,
      bit_hi, bit_lo, bit_ofBool, Nat.reduceSub, Option.map_some, Option.bind_some, read_xlow, slice36, read_notW
      _ _ hd, read_notW _ _ hb]

theorem vamo (c : Ctl) (op : BitVec 3) (sc : Scope) (fmt : Fmt) (d : BitVec 5) (a : BitVec 6) (b : BitVec 5) (msk : Bool) (mn : BitVec 3) (scaled : Bool) (si : Bool) : Statement (.vamo c op sc fmt d a b msk mn scaled si) := by
  intro hw
  refine decode_mkWord _ c _ _ _ _ _ _ rfl rfl hw rfl ?_ fun w => ?_
  · intro _; exact top_vField _
  · show (fun (f : Fields) => ((Fmt.ofCode (f.x.extractLsb' 7 5)).bind fun t => f.fscope.map fun sc => .vamo c (f.fn.extractLsb' 3 3) sc t f.dV f.aN f.bV (f.x.getLsbD 17) (f.x.extractLsb' 14 3) (f.x.getLsbD 13) (f.x.getLsbD 12) : Option Instr)) ⟨_, _, _, _, _, _⟩ = _
    simp (disch := decide) only [Fields.dO, Fields.aO, Fields.bO, Fields.dN, Fields.aS, Fields.aN, Fields.bN,
      Fields.dV, Fields.aV, Fields.bV, Fields.dM, Fields.aM, Fields.bM, Fields.dT, Fields.aT, Fields.i32,
      Fields.fmt, Fields.rel, Fields.nat, Fields.fscope, Fields.xscope, fnT_fmt, fnT_sat, fnC_rel, fnC_nat,
      fnA_op, fnA_scope, scope_ofCode, fmt_ofCode, vx_ofBits, sField_n, srcField_n, srcField_swz, vField_n,
      qField_n, pField_n, mField_n, accField_n, cmdField_n, resField_n, immW_i32, slice_hi, slice_lo, slice_all,
      bit_hi, bit_lo, bit_ofBool, Nat.reduceSub, Option.map_some, Option.bind_some, read_xlow, slice36]

theorem barInit (c : Ctl) (a : Operand) (b : Operand) : Statement (.barInit c a b) := by
  intro hw
  have hf : (a.isSqi && b.isSii) = true := wf_form c rfl hw
  simp only [Bool.and_eq_true] at hf
  have ha : notW a = true := notW_isSqi (by tauto)
  refine decode_mkWord _ c _ _ _ _ _ _ rfl rfl hw rfl ?_ fun w => ?_
  · exact fun h => Bool.noConfusion (show false = true from h)
  · show (fun (f : Fields) => (some (.barInit c f.aO f.bO) : Option Instr)) ⟨_, _, _, _, _, _⟩ = _
    simp (disch := decide) only [Fields.dO, Fields.aO, Fields.bO, Fields.dN, Fields.aS, Fields.aN, Fields.bN,
      Fields.dV, Fields.aV, Fields.bV, Fields.dM, Fields.aM, Fields.bM, Fields.dT, Fields.aT, Fields.i32,
      Fields.fmt, Fields.rel, Fields.nat, Fields.fscope, Fields.xscope, fnT_fmt, fnT_sat, fnC_rel, fnC_nat,
      fnA_op, fnA_scope, scope_ofCode, fmt_ofCode, vx_ofBits, sField_n, srcField_n, srcField_swz, vField_n,
      qField_n, pField_n, mField_n, accField_n, cmdField_n, resField_n, immW_i32, slice_hi, slice_lo, slice_all,
      bit_hi, bit_lo, bit_ofBool, Nat.reduceSub, Option.map_some, Option.bind_some, read_xlow, slice36, read_notW
      _ _ ha]

theorem barArrive (c : Ctl) (d : Operand) (a : Operand) (b : Operand) : Statement (.barArrive c d a b) := by
  intro hw
  have hf : (d.isSqp && a.isSqi && (b.isSii || b.isNone)) = true := wf_form c rfl hw
  simp only [Bool.and_eq_true] at hf
  have hd : notW d = true := notW_isSqp (by tauto)
  have ha : notW a = true := notW_isSqi (by tauto)
  refine decode_mkWord _ c _ _ _ _ _ _ rfl rfl hw rfl ?_ fun w => ?_
  · exact fun h => Bool.noConfusion (show false = true from h)
  · show (fun (f : Fields) => (some (.barArrive c f.dO f.aO f.bO) : Option Instr)) ⟨_, _, _, _, _, _⟩ = _
    simp (disch := decide) only [Fields.dO, Fields.aO, Fields.bO, Fields.dN, Fields.aS, Fields.aN, Fields.bN,
      Fields.dV, Fields.aV, Fields.bV, Fields.dM, Fields.aM, Fields.bM, Fields.dT, Fields.aT, Fields.i32,
      Fields.fmt, Fields.rel, Fields.nat, Fields.fscope, Fields.xscope, fnT_fmt, fnT_sat, fnC_rel, fnC_nat,
      fnA_op, fnA_scope, scope_ofCode, fmt_ofCode, vx_ofBits, sField_n, srcField_n, srcField_swz, vField_n,
      qField_n, pField_n, mField_n, accField_n, cmdField_n, resField_n, immW_i32, slice_hi, slice_lo, slice_all,
      bit_hi, bit_lo, bit_ofBool, Nat.reduceSub, Option.map_some, Option.bind_some, read_xlow, slice36, read_notW
      _ _ hd, read_notW _ _ ha]

theorem barExpect (c : Ctl) (a : Operand) (b : Operand) : Statement (.barExpect c a b) := by
  intro hw
  have hf : (a.isSqi && (b.isSii || b.isNone)) = true := wf_form c rfl hw
  simp only [Bool.and_eq_true] at hf
  have ha : notW a = true := notW_isSqi (by tauto)
  refine decode_mkWord _ c _ _ _ _ _ _ rfl rfl hw rfl ?_ fun w => ?_
  · exact fun h => Bool.noConfusion (show false = true from h)
  · show (fun (f : Fields) => (some (.barExpect c f.aO f.bO) : Option Instr)) ⟨_, _, _, _, _, _⟩ = _
    simp (disch := decide) only [Fields.dO, Fields.aO, Fields.bO, Fields.dN, Fields.aS, Fields.aN, Fields.bN,
      Fields.dV, Fields.aV, Fields.bV, Fields.dM, Fields.aM, Fields.bM, Fields.dT, Fields.aT, Fields.i32,
      Fields.fmt, Fields.rel, Fields.nat, Fields.fscope, Fields.xscope, fnT_fmt, fnT_sat, fnC_rel, fnC_nat,
      fnA_op, fnA_scope, scope_ofCode, fmt_ofCode, vx_ofBits, sField_n, srcField_n, srcField_swz, vField_n,
      qField_n, pField_n, mField_n, accField_n, cmdField_n, resField_n, immW_i32, slice_hi, slice_lo, slice_all,
      bit_hi, bit_lo, bit_ofBool, Nat.reduceSub, Option.map_some, Option.bind_some, read_xlow, slice36, read_notW
      _ _ ha]

theorem barWait (c : Ctl) (a : Operand) (b : Operand) : Statement (.barWait c a b) := by
  intro hw
  have hf : (a.isSqi && b.isSqi) = true := wf_form c rfl hw
  simp only [Bool.and_eq_true] at hf
  have ha : notW a = true := notW_isSqi (by tauto)
  refine decode_mkWord _ c _ _ _ _ _ _ rfl rfl hw rfl ?_ fun w => ?_
  · exact fun h => Bool.noConfusion (show false = true from h)
  · show (fun (f : Fields) => (some (.barWait c f.aO f.bO) : Option Instr)) ⟨_, _, _, _, _, _⟩ = _
    simp (disch := decide) only [Fields.dO, Fields.aO, Fields.bO, Fields.dN, Fields.aS, Fields.aN, Fields.bN,
      Fields.dV, Fields.aV, Fields.bV, Fields.dM, Fields.aM, Fields.bM, Fields.dT, Fields.aT, Fields.i32,
      Fields.fmt, Fields.rel, Fields.nat, Fields.fscope, Fields.xscope, fnT_fmt, fnT_sat, fnC_rel, fnC_nat,
      fnA_op, fnA_scope, scope_ofCode, fmt_ofCode, vx_ofBits, sField_n, srcField_n, srcField_swz, vField_n,
      qField_n, pField_n, mField_n, accField_n, cmdField_n, resField_n, immW_i32, slice_hi, slice_lo, slice_all,
      bit_hi, bit_lo, bit_ofBool, Nat.reduceSub, Option.map_some, Option.bind_some, read_xlow, slice36, read_notW
      _ _ ha]

theorem barTest (c : Ctl) (d : Operand) (a : Operand) : Statement (.barTest c d a) := by
  intro hw
  have hf : (d.isSqp && a.isSqi) = true := wf_form c rfl hw
  simp only [Bool.and_eq_true] at hf
  have hd : notW d = true := notW_isSqp (by tauto)
  have ha : notW a = true := notW_isSqi (by tauto)
  refine decode_mkWord _ c _ _ _ _ _ _ rfl rfl hw rfl ?_ fun w => ?_
  · exact fun h => Bool.noConfusion (show false = true from h)
  · show (fun (f : Fields) => (some (.barTest c f.dO f.aO) : Option Instr)) ⟨_, _, _, _, _, _⟩ = _
    simp (disch := decide) only [Fields.dO, Fields.aO, Fields.bO, Fields.dN, Fields.aS, Fields.aN, Fields.bN,
      Fields.dV, Fields.aV, Fields.bV, Fields.dM, Fields.aM, Fields.bM, Fields.dT, Fields.aT, Fields.i32,
      Fields.fmt, Fields.rel, Fields.nat, Fields.fscope, Fields.xscope, fnT_fmt, fnT_sat, fnC_rel, fnC_nat,
      fnA_op, fnA_scope, scope_ofCode, fmt_ofCode, vx_ofBits, sField_n, srcField_n, srcField_swz, vField_n,
      qField_n, pField_n, mField_n, accField_n, cmdField_n, resField_n, immW_i32, slice_hi, slice_lo, slice_all,
      bit_hi, bit_lo, bit_ofBool, Nat.reduceSub, Option.map_some, Option.bind_some, read_xlow, slice36, read_notW
      _ _ hd, read_notW _ _ ha]

theorem semTas (c : Ctl) (a : Operand) : Statement (.semTas c a) := by
  intro hw
  have hf : (a.isSi) = true := wf_form c rfl hw
  have ha : notW a = true := notW_isSi (by tauto)
  refine decode_mkWord _ c _ _ _ _ _ _ rfl rfl hw rfl ?_ fun w => ?_
  · exact fun h => Bool.noConfusion (show false = true from h)
  · show (fun (f : Fields) => (some (.semTas c f.aO) : Option Instr)) ⟨_, _, _, _, _, _⟩ = _
    simp (disch := decide) only [Fields.dO, Fields.aO, Fields.bO, Fields.dN, Fields.aS, Fields.aN, Fields.bN,
      Fields.dV, Fields.aV, Fields.bV, Fields.dM, Fields.aM, Fields.bM, Fields.dT, Fields.aT, Fields.i32,
      Fields.fmt, Fields.rel, Fields.nat, Fields.fscope, Fields.xscope, fnT_fmt, fnT_sat, fnC_rel, fnC_nat,
      fnA_op, fnA_scope, scope_ofCode, fmt_ofCode, vx_ofBits, sField_n, srcField_n, srcField_swz, vField_n,
      qField_n, pField_n, mField_n, accField_n, cmdField_n, resField_n, immW_i32, slice_hi, slice_lo, slice_all,
      bit_hi, bit_lo, bit_ofBool, Nat.reduceSub, Option.map_some, Option.bind_some, read_xlow, slice36, read_notW
      _ _ ha]

theorem semClr (c : Ctl) (a : Operand) : Statement (.semClr c a) := by
  intro hw
  have hf : (a.isSi) = true := wf_form c rfl hw
  have ha : notW a = true := notW_isSi (by tauto)
  refine decode_mkWord _ c _ _ _ _ _ _ rfl rfl hw rfl ?_ fun w => ?_
  · exact fun h => Bool.noConfusion (show false = true from h)
  · show (fun (f : Fields) => (some (.semClr c f.aO) : Option Instr)) ⟨_, _, _, _, _, _⟩ = _
    simp (disch := decide) only [Fields.dO, Fields.aO, Fields.bO, Fields.dN, Fields.aS, Fields.aN, Fields.bN,
      Fields.dV, Fields.aV, Fields.bV, Fields.dM, Fields.aM, Fields.bM, Fields.dT, Fields.aT, Fields.i32,
      Fields.fmt, Fields.rel, Fields.nat, Fields.fscope, Fields.xscope, fnT_fmt, fnT_sat, fnC_rel, fnC_nat,
      fnA_op, fnA_scope, scope_ofCode, fmt_ofCode, vx_ofBits, sField_n, srcField_n, srcField_swz, vField_n,
      qField_n, pField_n, mField_n, accField_n, cmdField_n, resField_n, immW_i32, slice_hi, slice_lo, slice_all,
      bit_hi, bit_lo, bit_ofBool, Nat.reduceSub, Option.map_some, Option.bind_some, read_xlow, slice36, read_notW
      _ _ ha]

theorem crLd (c : Ctl) (d : Operand) (a : Operand) : Statement (.crLd c d a) := by
  intro hw
  have hf : (d.isSqp && a.isSi) = true := wf_form c rfl hw
  simp only [Bool.and_eq_true] at hf
  have hd : notW d = true := notW_isSqp (by tauto)
  have ha : notW a = true := notW_isSi (by tauto)
  refine decode_mkWord _ c _ _ _ _ _ _ rfl rfl hw rfl ?_ fun w => ?_
  · exact fun h => Bool.noConfusion (show false = true from h)
  · show (fun (f : Fields) => (some (.crLd c f.dO f.aO) : Option Instr)) ⟨_, _, _, _, _, _⟩ = _
    simp (disch := decide) only [Fields.dO, Fields.aO, Fields.bO, Fields.dN, Fields.aS, Fields.aN, Fields.bN,
      Fields.dV, Fields.aV, Fields.bV, Fields.dM, Fields.aM, Fields.bM, Fields.dT, Fields.aT, Fields.i32,
      Fields.fmt, Fields.rel, Fields.nat, Fields.fscope, Fields.xscope, fnT_fmt, fnT_sat, fnC_rel, fnC_nat,
      fnA_op, fnA_scope, scope_ofCode, fmt_ofCode, vx_ofBits, sField_n, srcField_n, srcField_swz, vField_n,
      qField_n, pField_n, mField_n, accField_n, cmdField_n, resField_n, immW_i32, slice_hi, slice_lo, slice_all,
      bit_hi, bit_lo, bit_ofBool, Nat.reduceSub, Option.map_some, Option.bind_some, read_xlow, slice36, read_notW
      _ _ hd, read_notW _ _ ha]

theorem crSt (c : Ctl) (a : Operand) (b : Operand) : Statement (.crSt c a b) := by
  intro hw
  have hf : (a.isSi && b.isSqii) = true := wf_form c rfl hw
  simp only [Bool.and_eq_true] at hf
  have ha : notW a = true := notW_isSi (by tauto)
  refine decode_mkWord _ c _ _ _ _ _ _ rfl rfl hw rfl ?_ fun w => ?_
  · exact fun h => Bool.noConfusion (show false = true from h)
  · show (fun (f : Fields) => (some (.crSt c f.aO f.bO) : Option Instr)) ⟨_, _, _, _, _, _⟩ = _
    simp (disch := decide) only [Fields.dO, Fields.aO, Fields.bO, Fields.dN, Fields.aS, Fields.aN, Fields.bN,
      Fields.dV, Fields.aV, Fields.bV, Fields.dM, Fields.aM, Fields.bM, Fields.dT, Fields.aT, Fields.i32,
      Fields.fmt, Fields.rel, Fields.nat, Fields.fscope, Fields.xscope, fnT_fmt, fnT_sat, fnC_rel, fnC_nat,
      fnA_op, fnA_scope, scope_ofCode, fmt_ofCode, vx_ofBits, sField_n, srcField_n, srcField_swz, vField_n,
      qField_n, pField_n, mField_n, accField_n, cmdField_n, resField_n, immW_i32, slice_hi, slice_lo, slice_all,
      bit_hi, bit_lo, bit_ofBool, Nat.reduceSub, Option.map_some, Option.bind_some, read_xlow, slice36, read_notW
      _ _ ha]

theorem fnc (c : Ctl) (dir : BitVec 2) (sc : Scope) : Statement (.fnc c dir sc) := by
  intro hw
  refine decode_mkWord _ c _ _ _ _ _ _ rfl rfl hw rfl ?_ fun w => ?_
  · exact fun h => Bool.noConfusion (show false = true from h)
  · show (fun (f : Fields) => (f.fscope.map fun sc => .fnc c (f.fn.extractLsb' 3 2) sc : Option Instr)) ⟨_, _, _, _, _, _⟩ = _
    simp (disch := decide) only [Fields.dO, Fields.aO, Fields.bO, Fields.dN, Fields.aS, Fields.aN, Fields.bN,
      Fields.dV, Fields.aV, Fields.bV, Fields.dM, Fields.aM, Fields.bM, Fields.dT, Fields.aT, Fields.i32,
      Fields.fmt, Fields.rel, Fields.nat, Fields.fscope, Fields.xscope, fnT_fmt, fnT_sat, fnC_rel, fnC_nat,
      fnA_op, fnA_scope, scope_ofCode, fmt_ofCode, vx_ofBits, sField_n, srcField_n, srcField_swz, vField_n,
      qField_n, pField_n, mField_n, accField_n, cmdField_n, resField_n, immW_i32, slice_hi, slice_lo, slice_all,
      bit_hi, bit_lo, bit_ofBool, Nat.reduceSub, Option.map_some, Option.bind_some, read_xlow, slice36]

theorem wait (c : Ctl) (rel : Rel) (nat : Bool) (d : Operand) (a : SSrc) (b : Operand) (sc : Scope) (w32 : Bool) : Statement (.wait c rel nat d a b sc w32) := by
  intro hw
  have hf : (relOk rel nat && d.isSqp && (b.isSq || b.isImm14) && b.modsVec false (!nat)) = true := wf_form c rfl hw
  simp only [Bool.and_eq_true] at hf
  have hd : notW d = true := notW_isSqp (by tauto)
  have hb : notW b = true := notW_sel (by tauto)
  refine decode_mkWord _ c _ _ _ _ _ _ rfl rfl hw rfl ?_ fun w => ?_
  · exact fun h => Bool.noConfusion (show false = true from h)
  · show (fun (f : Fields) => (f.rel.bind fun r => f.xscope.map fun sc => .wait c r f.nat f.dO f.aS f.bO sc (f.x.getLsbD 14) : Option Instr)) ⟨_, _, _, _, _, _⟩ = _
    simp (disch := decide) only [Fields.dO, Fields.aO, Fields.bO, Fields.dN, Fields.aS, Fields.aN, Fields.bN,
      Fields.dV, Fields.aV, Fields.bV, Fields.dM, Fields.aM, Fields.bM, Fields.dT, Fields.aT, Fields.i32,
      Fields.fmt, Fields.rel, Fields.nat, Fields.fscope, Fields.xscope, fnT_fmt, fnT_sat, fnC_rel, fnC_nat,
      fnA_op, fnA_scope, scope_ofCode, fmt_ofCode, vx_ofBits, sField_n, srcField_n, srcField_swz, vField_n,
      qField_n, pField_n, mField_n, accField_n, cmdField_n, resField_n, immW_i32, slice_hi, slice_lo, slice_all,
      bit_hi, bit_lo, bit_ofBool, Nat.reduceSub, Option.map_some, Option.bind_some, read_xlow, slice36, read_notW
      _ _ hd, read_notW _ _ hb]

theorem push (c : Ctl) (d : Operand) (k : BitVec 3) (b : Operand) : Statement (.push c d k b) := by
  intro hw
  have hf : (d.isSqp && b.isSqii) = true := wf_form c rfl hw
  simp only [Bool.and_eq_true] at hf
  have hd : notW d = true := notW_isSqp (by tauto)
  refine decode_mkWord _ c _ _ _ _ _ _ rfl rfl hw rfl ?_ fun w => ?_
  · exact fun h => Bool.noConfusion (show false = true from h)
  · show (fun (f : Fields) => (some (.push c f.dO f.aM f.bO) : Option Instr)) ⟨_, _, _, _, _, _⟩ = _
    simp (disch := decide) only [Fields.dO, Fields.aO, Fields.bO, Fields.dN, Fields.aS, Fields.aN, Fields.bN,
      Fields.dV, Fields.aV, Fields.bV, Fields.dM, Fields.aM, Fields.bM, Fields.dT, Fields.aT, Fields.i32,
      Fields.fmt, Fields.rel, Fields.nat, Fields.fscope, Fields.xscope, fnT_fmt, fnT_sat, fnC_rel, fnC_nat,
      fnA_op, fnA_scope, scope_ofCode, fmt_ofCode, vx_ofBits, sField_n, srcField_n, srcField_swz, vField_n,
      qField_n, pField_n, mField_n, accField_n, cmdField_n, resField_n, immW_i32, slice_hi, slice_lo, slice_all,
      bit_hi, bit_lo, bit_ofBool, Nat.reduceSub, Option.map_some, Option.bind_some, read_xlow, slice36, read_notW
      _ _ hd]

theorem pop (c : Ctl) (d : Operand) (k : BitVec 3) : Statement (.pop c d k) := by
  intro hw
  have hf : (d.isSqp) = true := wf_form c rfl hw
  have hd : notW d = true := notW_isSqp (by tauto)
  refine decode_mkWord _ c _ _ _ _ _ _ rfl rfl hw rfl ?_ fun w => ?_
  · exact fun h => Bool.noConfusion (show false = true from h)
  · show (fun (f : Fields) => (some (.pop c f.dO f.aM) : Option Instr)) ⟨_, _, _, _, _, _⟩ = _
    simp (disch := decide) only [Fields.dO, Fields.aO, Fields.bO, Fields.dN, Fields.aS, Fields.aN, Fields.bN,
      Fields.dV, Fields.aV, Fields.bV, Fields.dM, Fields.aM, Fields.bM, Fields.dT, Fields.aT, Fields.i32,
      Fields.fmt, Fields.rel, Fields.nat, Fields.fscope, Fields.xscope, fnT_fmt, fnT_sat, fnC_rel, fnC_nat,
      fnA_op, fnA_scope, scope_ofCode, fmt_ofCode, vx_ofBits, sField_n, srcField_n, srcField_swz, vField_n,
      qField_n, pField_n, mField_n, accField_n, cmdField_n, resField_n, immW_i32, slice_hi, slice_lo, slice_all,
      bit_hi, bit_lo, bit_ofBool, Nat.reduceSub, Option.map_some, Option.bind_some, read_xlow, slice36, read_notW
      _ _ hd]

theorem peek (c : Ctl) (d : Operand) (k : BitVec 3) : Statement (.peek c d k) := by
  intro hw
  have hf : (d.isSqp) = true := wf_form c rfl hw
  have hd : notW d = true := notW_isSqp (by tauto)
  refine decode_mkWord _ c _ _ _ _ _ _ rfl rfl hw rfl ?_ fun w => ?_
  · exact fun h => Bool.noConfusion (show false = true from h)
  · show (fun (f : Fields) => (some (.peek c f.dO f.aM) : Option Instr)) ⟨_, _, _, _, _, _⟩ = _
    simp (disch := decide) only [Fields.dO, Fields.aO, Fields.bO, Fields.dN, Fields.aS, Fields.aN, Fields.bN,
      Fields.dV, Fields.aV, Fields.bV, Fields.dM, Fields.aM, Fields.bM, Fields.dT, Fields.aT, Fields.i32,
      Fields.fmt, Fields.rel, Fields.nat, Fields.fscope, Fields.xscope, fnT_fmt, fnT_sat, fnC_rel, fnC_nat,
      fnA_op, fnA_scope, scope_ofCode, fmt_ofCode, vx_ofBits, sField_n, srcField_n, srcField_swz, vField_n,
      qField_n, pField_n, mField_n, accField_n, cmdField_n, resField_n, immW_i32, slice_hi, slice_lo, slice_all,
      bit_hi, bit_lo, bit_ofBool, Nat.reduceSub, Option.map_some, Option.bind_some, read_xlow, slice36, read_notW
      _ _ hd]

theorem qlen (c : Ctl) (d : Operand) (port : BitVec 4) : Statement (.qlen c d port) := by
  intro hw
  have hf : d.isSqp = true := wf_form c rfl hw
  have hd : notW d = true := notW_isSqp hf
  refine decode_mkWord _ c _ _ _ _ _ _ rfl rfl hw rfl (fun h => Bool.noConfusion (show false = true from h)) fun _ => ?_
  show some (Instr.qlen c (Operand.ofField d.field 0) ((Operand.port port).field.extractLsb' 9 4)) = _
  rw [read_notW _ _ hd]
  simp only [Operand.field]
  simp (disch := decide) only [slice_hi, slice_lo, slice_all, Nat.reduceSub]

theorem cpwp (c : Ctl) (d : Operand) (k : BitVec 3) (b : Operand) : Statement (.cpwp c d k b) := by
  intro hw
  have hf : (d.isSqp && b.isSqii) = true := wf_form c rfl hw
  simp only [Bool.and_eq_true] at hf
  have hd : notW d = true := notW_isSqp (by tauto)
  refine decode_mkWord _ c _ _ _ _ _ _ rfl rfl hw rfl ?_ fun w => ?_
  · exact fun h => Bool.noConfusion (show false = true from h)
  · show (fun (f : Fields) => (some (.cpwp c f.dO f.aM f.bO) : Option Instr)) ⟨_, _, _, _, _, _⟩ = _
    simp (disch := decide) only [Fields.dO, Fields.aO, Fields.bO, Fields.dN, Fields.aS, Fields.aN, Fields.bN,
      Fields.dV, Fields.aV, Fields.bV, Fields.dM, Fields.aM, Fields.bM, Fields.dT, Fields.aT, Fields.i32,
      Fields.fmt, Fields.rel, Fields.nat, Fields.fscope, Fields.xscope, fnT_fmt, fnT_sat, fnC_rel, fnC_nat,
      fnA_op, fnA_scope, scope_ofCode, fmt_ofCode, vx_ofBits, sField_n, srcField_n, srcField_swz, vField_n,
      qField_n, pField_n, mField_n, accField_n, cmdField_n, resField_n, immW_i32, slice_hi, slice_lo, slice_all,
      bit_hi, bit_lo, bit_ofBool, Nat.reduceSub, Option.map_some, Option.bind_some, read_xlow, slice36, read_notW
      _ _ hd]

theorem zloop (c : Ctl) (a : BitVec 6) (len1 : BitVec 4) : Statement (.zloop c a len1) := by
  intro hw
  refine decode_mkWord _ c _ _ _ _ _ _ rfl rfl hw rfl ?_ fun w => ?_
  · exact fun h => Bool.noConfusion (show false = true from h)
  · show (fun (f : Fields) => (some (.zloop c f.aN (f.x.extractLsb' 14 4)) : Option Instr)) ⟨_, _, _, _, _, _⟩ = _
    simp (disch := decide) only [Fields.dO, Fields.aO, Fields.bO, Fields.dN, Fields.aS, Fields.aN, Fields.bN,
      Fields.dV, Fields.aV, Fields.bV, Fields.dM, Fields.aM, Fields.bM, Fields.dT, Fields.aT, Fields.i32,
      Fields.fmt, Fields.rel, Fields.nat, Fields.fscope, Fields.xscope, fnT_fmt, fnT_sat, fnC_rel, fnC_nat,
      fnA_op, fnA_scope, scope_ofCode, fmt_ofCode, vx_ofBits, sField_n, srcField_n, srcField_swz, vField_n,
      qField_n, pField_n, mField_n, accField_n, cmdField_n, resField_n, immW_i32, slice_hi, slice_lo, slice_all,
      bit_hi, bit_lo, bit_ofBool, Nat.reduceSub, Option.map_some, Option.bind_some, read_xlow, slice36]

theorem lnch (c : Ctl) (d : Operand) (a : BitVec 6) : Statement (.lnch c d a) := by
  intro hw
  have hf : (d.isSqp) = true := wf_form c rfl hw
  have hd : notW d = true := notW_isSqp (by tauto)
  refine decode_mkWord _ c _ _ _ _ _ _ rfl rfl hw rfl ?_ fun w => ?_
  · exact fun h => Bool.noConfusion (show false = true from h)
  · show (fun (f : Fields) => (some (.lnch c f.dO f.aN) : Option Instr)) ⟨_, _, _, _, _, _⟩ = _
    simp (disch := decide) only [Fields.dO, Fields.aO, Fields.bO, Fields.dN, Fields.aS, Fields.aN, Fields.bN,
      Fields.dV, Fields.aV, Fields.bV, Fields.dM, Fields.aM, Fields.bM, Fields.dT, Fields.aT, Fields.i32,
      Fields.fmt, Fields.rel, Fields.nat, Fields.fscope, Fields.xscope, fnT_fmt, fnT_sat, fnC_rel, fnC_nat,
      fnA_op, fnA_scope, scope_ofCode, fmt_ofCode, vx_ofBits, sField_n, srcField_n, srcField_swz, vField_n,
      qField_n, pField_n, mField_n, accField_n, cmdField_n, resField_n, immW_i32, slice_hi, slice_lo, slice_all,
      bit_hi, bit_lo, bit_ofBool, Nat.reduceSub, Option.map_some, Option.bind_some, read_xlow, slice36, read_notW
      _ _ hd]

theorem ipurge (c : Ctl) (a : BitVec 6) (b : Operand) : Statement (.ipurge c a b) := by
  intro hw
  refine decode_mkWord _ c _ _ _ _ _ _ rfl rfl hw rfl ?_ fun w => ?_
  · exact fun h => Bool.noConfusion (show false = true from h)
  · show (fun (f : Fields) => (some (.ipurge c f.aN f.bO) : Option Instr)) ⟨_, _, _, _, _, _⟩ = _
    simp (disch := decide) only [Fields.dO, Fields.aO, Fields.bO, Fields.dN, Fields.aS, Fields.aN, Fields.bN,
      Fields.dV, Fields.aV, Fields.bV, Fields.dM, Fields.aM, Fields.bM, Fields.dT, Fields.aT, Fields.i32,
      Fields.fmt, Fields.rel, Fields.nat, Fields.fscope, Fields.xscope, fnT_fmt, fnT_sat, fnC_rel, fnC_nat,
      fnA_op, fnA_scope, scope_ofCode, fmt_ofCode, vx_ofBits, sField_n, srcField_n, srcField_swz, vField_n,
      qField_n, pField_n, mField_n, accField_n, cmdField_n, resField_n, immW_i32, slice_hi, slice_lo, slice_all,
      bit_hi, bit_lo, bit_ofBool, Nat.reduceSub, Option.map_some, Option.bind_some, read_xlow, slice36]

theorem setvl (c : Ctl) (fmt : Fmt) (d : Operand) (b : Operand) : Statement (.setvl c fmt d b) := by
  intro hw
  have hf : (fmt.vector && d.isSqp && b.isSqii) = true := wf_form c rfl hw
  simp only [Bool.and_eq_true] at hf
  have hd : notW d = true := notW_isSqp (by tauto)
  refine decode_mkWord _ c _ _ _ _ _ _ rfl rfl hw rfl ?_ fun w => ?_
  · exact fun h => Bool.noConfusion (show false = true from h)
  · show (fun (f : Fields) => (f.fmt.map fun t => .setvl c t f.dO f.bO : Option Instr)) ⟨_, _, _, _, _, _⟩ = _
    simp (disch := decide) only [Fields.dO, Fields.aO, Fields.bO, Fields.dN, Fields.aS, Fields.aN, Fields.bN,
      Fields.dV, Fields.aV, Fields.bV, Fields.dM, Fields.aM, Fields.bM, Fields.dT, Fields.aT, Fields.i32,
      Fields.fmt, Fields.rel, Fields.nat, Fields.fscope, Fields.xscope, fnT_fmt, fnT_sat, fnC_rel, fnC_nat,
      fnA_op, fnA_scope, scope_ofCode, fmt_ofCode, vx_ofBits, sField_n, srcField_n, srcField_swz, vField_n,
      qField_n, pField_n, mField_n, accField_n, cmdField_n, resField_n, immW_i32, slice_hi, slice_lo, slice_all,
      bit_hi, bit_lo, bit_ofBool, Nat.reduceSub, Option.map_some, Option.bind_some, read_xlow, slice36, read_notW
      _ _ hd]

theorem vfetch (c : Ctl) (m : Option (BitVec 3)) (disp : BitVec 32) : Statement (.vfetch c m disp) := by
  intro hw
  cases m with
  | none =>
      refine decode_mkWord _ c _ _ _ _ _ _ rfl rfl hw rfl (fun h => Bool.noConfusion (show false = true from h)) fun _ => ?_
      show some (Instr.vfetch c none ((Operand.immW disp).field.extractLsb' 0 14 ++ (Operand.immW disp).xlow)) = _
      rw [immW_i32]
  | some n =>
      refine decode_mkWord _ c _ _ _ _ _ _ rfl rfl hw rfl (fun h => Bool.noConfusion (show false = true from h)) fun _ => ?_
      show some (Instr.vfetch c (if mField n = noneField then none else some ((mField n).extractLsb' 9 3))
        ((Operand.immW disp).field.extractLsb' 0 14 ++ (Operand.immW disp).xlow)) = _
      rw [if_neg (mField_ne_none n), mField_n, immW_i32]

theorem vpret (c : Ctl) : Statement (.vpret c) := by
  intro hw
  refine decode_mkWord _ c _ _ _ _ _ _ rfl rfl hw rfl ?_ fun w => ?_
  · exact fun h => Bool.noConfusion (show false = true from h)
  · rfl

theorem farmNext (c : Ctl) (d : BitVec 6) (m : BitVec 3) (v : BitVec 5) : Statement (.farmNext c d m v) := by
  intro hw
  refine decode_mkWord _ c _ _ _ _ _ _ rfl rfl hw rfl ?_ fun w => ?_
  · exact fun h => Bool.noConfusion (show false = true from h)
  · show (fun (f : Fields) => (some (.farmNext c f.dN f.aM f.bV) : Option Instr)) ⟨_, _, _, _, _, _⟩ = _
    simp (disch := decide) only [Fields.dO, Fields.aO, Fields.bO, Fields.dN, Fields.aS, Fields.aN, Fields.bN,
      Fields.dV, Fields.aV, Fields.bV, Fields.dM, Fields.aM, Fields.bM, Fields.dT, Fields.aT, Fields.i32,
      Fields.fmt, Fields.rel, Fields.nat, Fields.fscope, Fields.xscope, fnT_fmt, fnT_sat, fnC_rel, fnC_nat,
      fnA_op, fnA_scope, scope_ofCode, fmt_ofCode, vx_ofBits, sField_n, srcField_n, srcField_swz, vField_n,
      qField_n, pField_n, mField_n, accField_n, cmdField_n, resField_n, immW_i32, slice_hi, slice_lo, slice_all,
      bit_hi, bit_lo, bit_ofBool, Nat.reduceSub, Option.map_some, Option.bind_some, read_xlow, slice36]

theorem lprec (c : Ctl) (d : BitVec 6) (a : Option (BitVec 6)) (len : BitVec 14) (nc : BitVec 2) (k0 : BitVec 3) (k1 : BitVec 3) (k2 : BitVec 3) (k3 : BitVec 3) (tr : BitVec 3) : Statement (.lprec c d a len nc k0 k1 k2 k3 tr) := by
  intro hw
  have hx : ∀ a' : Option (BitVec 6), some (Instr.lprec c ((sField d).extractLsb' 9 6) a'
      ((Operand.imm len).field.extractLsb' 0 14)
      ((nc ++ k0 ++ k1 ++ k2 ++ k3 ++ tr ++ 0#1).extractLsb' 16 2) ((nc ++ k0 ++ k1 ++ k2 ++ k3 ++ tr ++ 0#1).extractLsb' 13 3)
      ((nc ++ k0 ++ k1 ++ k2 ++ k3 ++ tr ++ 0#1).extractLsb' 10 3) ((nc ++ k0 ++ k1 ++ k2 ++ k3 ++ tr ++ 0#1).extractLsb' 7 3)
      ((nc ++ k0 ++ k1 ++ k2 ++ k3 ++ tr ++ 0#1).extractLsb' 4 3) ((nc ++ k0 ++ k1 ++ k2 ++ k3 ++ tr ++ 0#1).extractLsb' 1 3))
      = some (Instr.lprec c d a' len nc k0 k1 k2 k3 tr) := by
    intro a'
    simp (disch := decide) only [Operand.field, sField_n, slice_hi, slice_lo, slice_all, Nat.reduceSub]
  cases a with
  | none =>
      refine decode_mkWord _ c _ _ _ _ _ _ rfl rfl hw rfl (fun h => Bool.noConfusion (show false = true from h)) fun _ => ?_
      exact hx none
  | some r =>
      refine decode_mkWord _ c _ _ _ _ _ _ rfl rfl hw rfl (fun h => Bool.noConfusion (show false = true from h)) fun _ => ?_
      have h1 : (if sField r = noneField then none else some ((sField r).extractLsb' 9 6)) = some r := by
        rw [if_neg (sField_ne_none r), sField_n]
      show (fun a' : Option (BitVec 6) => some (Instr.lprec c ((sField d).extractLsb' 9 6) a'
        ((Operand.imm len).field.extractLsb' 0 14)
        ((nc ++ k0 ++ k1 ++ k2 ++ k3 ++ tr ++ 0#1).extractLsb' 16 2) ((nc ++ k0 ++ k1 ++ k2 ++ k3 ++ tr ++ 0#1).extractLsb' 13 3)
        ((nc ++ k0 ++ k1 ++ k2 ++ k3 ++ tr ++ 0#1).extractLsb' 10 3) ((nc ++ k0 ++ k1 ++ k2 ++ k3 ++ tr ++ 0#1).extractLsb' 7 3)
        ((nc ++ k0 ++ k1 ++ k2 ++ k3 ++ tr ++ 0#1).extractLsb' 4 3) ((nc ++ k0 ++ k1 ++ k2 ++ k3 ++ tr ++ 0#1).extractLsb' 1 3)))
        (if sField r = noneField then none else some ((sField r).extractLsb' 9 6)) = _
      rw [h1]
      exact hx (some r)

theorem lpend (c : Ctl) : Statement (.lpend c) := by
  intro hw
  refine decode_mkWord _ c _ _ _ _ _ _ rfl rfl hw rfl ?_ fun w => ?_
  · exact fun h => Bool.noConfusion (show false = true from h)
  · rfl

theorem lpjoin (c : Ctl) : Statement (.lpjoin c) := by
  intro hw
  refine decode_mkWord _ c _ _ _ _ _ _ rfl rfl hw rfl ?_ fun w => ?_
  · exact fun h => Bool.noConfusion (show false = true from h)
  · rfl

theorem treqFixed (c : Ctl) (n : BitVec 2) : Statement (.treqFixed c n) := by
  intro hw
  refine decode_mkWord _ c _ _ _ _ _ _ rfl rfl hw rfl ?_ fun w => ?_
  · exact fun h => Bool.noConfusion (show false = true from h)
  · show (fun (f : Fields) => (some (.treqFixed c f.dT) : Option Instr)) ⟨_, _, _, _, _, _⟩ = _
    simp (disch := decide) only [Fields.dO, Fields.aO, Fields.bO, Fields.dN, Fields.aS, Fields.aN, Fields.bN,
      Fields.dV, Fields.aV, Fields.bV, Fields.dM, Fields.aM, Fields.bM, Fields.dT, Fields.aT, Fields.i32,
      Fields.fmt, Fields.rel, Fields.nat, Fields.fscope, Fields.xscope, fnT_fmt, fnT_sat, fnC_rel, fnC_nat,
      fnA_op, fnA_scope, scope_ofCode, fmt_ofCode, vx_ofBits, sField_n, srcField_n, srcField_swz, vField_n,
      qField_n, pField_n, mField_n, accField_n, cmdField_n, resField_n, immW_i32, slice_hi, slice_lo, slice_all,
      bit_hi, bit_lo, bit_ofBool, Nat.reduceSub, Option.map_some, Option.bind_some, read_xlow, slice36]

theorem treqNeg (c : Ctl) (n : BitVec 2) (disp : BitVec 32) : Statement (.treqNeg c n disp) := by
  intro hw
  refine decode_mkWord _ c _ _ _ _ _ _ rfl rfl hw rfl ?_ fun w => ?_
  · exact fun h => Bool.noConfusion (show false = true from h)
  · show (fun (f : Fields) => (some (.treqNeg c f.dT f.i32) : Option Instr)) ⟨_, _, _, _, _, _⟩ = _
    simp (disch := decide) only [Fields.dO, Fields.aO, Fields.bO, Fields.dN, Fields.aS, Fields.aN, Fields.bN,
      Fields.dV, Fields.aV, Fields.bV, Fields.dM, Fields.aM, Fields.bM, Fields.dT, Fields.aT, Fields.i32,
      Fields.fmt, Fields.rel, Fields.nat, Fields.fscope, Fields.xscope, fnT_fmt, fnT_sat, fnC_rel, fnC_nat,
      fnA_op, fnA_scope, scope_ofCode, fmt_ofCode, vx_ofBits, sField_n, srcField_n, srcField_swz, vField_n,
      qField_n, pField_n, mField_n, accField_n, cmdField_n, resField_n, immW_i32, slice_hi, slice_lo, slice_all,
      bit_hi, bit_lo, bit_ofBool, Nat.reduceSub, Option.map_some, Option.bind_some, read_xlow, slice36]

theorem treqPool (c : Ctl) (n : BitVec 2) (a : BitVec 6) (disp : BitVec 32) : Statement (.treqPool c n a disp) := by
  intro hw
  refine decode_mkWord _ c _ _ _ _ _ _ rfl rfl hw rfl ?_ fun w => ?_
  · exact fun h => Bool.noConfusion (show false = true from h)
  · show (fun (f : Fields) => (some (.treqPool c f.dT f.aN f.i32) : Option Instr)) ⟨_, _, _, _, _, _⟩ = _
    simp (disch := decide) only [Fields.dO, Fields.aO, Fields.bO, Fields.dN, Fields.aS, Fields.aN, Fields.bN,
      Fields.dV, Fields.aV, Fields.bV, Fields.dM, Fields.aM, Fields.bM, Fields.dT, Fields.aT, Fields.i32,
      Fields.fmt, Fields.rel, Fields.nat, Fields.fscope, Fields.xscope, fnT_fmt, fnT_sat, fnC_rel, fnC_nat,
      fnA_op, fnA_scope, scope_ofCode, fmt_ofCode, vx_ofBits, sField_n, srcField_n, srcField_swz, vField_n,
      qField_n, pField_n, mField_n, accField_n, cmdField_n, resField_n, immW_i32, slice_hi, slice_lo, slice_all,
      bit_hi, bit_lo, bit_ofBool, Nat.reduceSub, Option.map_some, Option.bind_some, read_xlow, slice36]

theorem trel (c : Ctl) (n : BitVec 2) : Statement (.trel c n) := by
  intro hw
  refine decode_mkWord _ c _ _ _ _ _ _ rfl rfl hw rfl ?_ fun w => ?_
  · exact fun h => Bool.noConfusion (show false = true from h)
  · show (fun (f : Fields) => (some (.trel c f.dT) : Option Instr)) ⟨_, _, _, _, _, _⟩ = _
    simp (disch := decide) only [Fields.dO, Fields.aO, Fields.bO, Fields.dN, Fields.aS, Fields.aN, Fields.bN,
      Fields.dV, Fields.aV, Fields.bV, Fields.dM, Fields.aM, Fields.bM, Fields.dT, Fields.aT, Fields.i32,
      Fields.fmt, Fields.rel, Fields.nat, Fields.fscope, Fields.xscope, fnT_fmt, fnT_sat, fnC_rel, fnC_nat,
      fnA_op, fnA_scope, scope_ofCode, fmt_ofCode, vx_ofBits, sField_n, srcField_n, srcField_swz, vField_n,
      qField_n, pField_n, mField_n, accField_n, cmdField_n, resField_n, immW_i32, slice_hi, slice_lo, slice_all,
      bit_hi, bit_lo, bit_ofBool, Nat.reduceSub, Option.map_some, Option.bind_some, read_xlow, slice36]

theorem doffretFinished (c : Ctl) : Statement (.doffretFinished c) := by
  intro hw
  refine decode_mkWord _ c _ _ _ _ _ _ rfl rfl hw rfl ?_ fun w => ?_
  · exact fun h => Bool.noConfusion (show false = true from h)
  · rfl

theorem doffretSummarised (c : Ctl) : Statement (.doffretSummarised c) := by
  intro hw
  refine decode_mkWord _ c _ _ _ _ _ _ rfl rfl hw rfl ?_ fun w => ?_
  · exact fun h => Bool.noConfusion (show false = true from h)
  · rfl

theorem doffretRefused (c : Ctl) : Statement (.doffretRefused c) := by
  intro hw
  refine decode_mkWord _ c _ _ _ _ _ _ rfl rfl hw rfl ?_ fun w => ?_
  · exact fun h => Bool.noConfusion (show false = true from h)
  · rfl

theorem yield (c : Ctl) : Statement (.yield c) := by
  intro hw
  refine decode_mkWord _ c _ _ _ _ _ _ rfl rfl hw rfl ?_ fun w => ?_
  · exact fun h => Bool.noConfusion (show false = true from h)
  · rfl

theorem trap (c : Ctl) (b : Operand) : Statement (.trap c b) := by
  intro hw
  refine decode_mkWord _ c _ _ _ _ _ _ rfl rfl hw rfl ?_ fun w => ?_
  · exact fun h => Bool.noConfusion (show false = true from h)
  · show (fun (f : Fields) => (some (.trap c f.bO) : Option Instr)) ⟨_, _, _, _, _, _⟩ = _
    simp (disch := decide) only [Fields.dO, Fields.aO, Fields.bO, Fields.dN, Fields.aS, Fields.aN, Fields.bN,
      Fields.dV, Fields.aV, Fields.bV, Fields.dM, Fields.aM, Fields.bM, Fields.dT, Fields.aT, Fields.i32,
      Fields.fmt, Fields.rel, Fields.nat, Fields.fscope, Fields.xscope, fnT_fmt, fnT_sat, fnC_rel, fnC_nat,
      fnA_op, fnA_scope, scope_ofCode, fmt_ofCode, vx_ofBits, sField_n, srcField_n, srcField_swz, vField_n,
      qField_n, pField_n, mField_n, accField_n, cmdField_n, resField_n, immW_i32, slice_hi, slice_lo, slice_all,
      bit_hi, bit_lo, bit_ofBool, Nat.reduceSub, Option.map_some, Option.bind_some, read_xlow, slice36]

theorem tret (c : Ctl) : Statement (.tret c) := by
  intro hw
  refine decode_mkWord _ c _ _ _ _ _ _ rfl rfl hw rfl ?_ fun w => ?_
  · exact fun h => Bool.noConfusion (show false = true from h)
  · rfl

theorem ecall (c : Ctl) (b : Operand) : Statement (.ecall c b) := by
  intro hw
  refine decode_mkWord _ c _ _ _ _ _ _ rfl rfl hw rfl ?_ fun w => ?_
  · exact fun h => Bool.noConfusion (show false = true from h)
  · show (fun (f : Fields) => (some (.ecall c f.bO) : Option Instr)) ⟨_, _, _, _, _, _⟩ = _
    simp (disch := decide) only [Fields.dO, Fields.aO, Fields.bO, Fields.dN, Fields.aS, Fields.aN, Fields.bN,
      Fields.dV, Fields.aV, Fields.bV, Fields.dM, Fields.aM, Fields.bM, Fields.dT, Fields.aT, Fields.i32,
      Fields.fmt, Fields.rel, Fields.nat, Fields.fscope, Fields.xscope, fnT_fmt, fnT_sat, fnC_rel, fnC_nat,
      fnA_op, fnA_scope, scope_ofCode, fmt_ofCode, vx_ofBits, sField_n, srcField_n, srcField_swz, vField_n,
      qField_n, pField_n, mField_n, accField_n, cmdField_n, resField_n, immW_i32, slice_hi, slice_lo, slice_all,
      bit_hi, bit_lo, bit_ofBool, Nat.reduceSub, Option.map_some, Option.bind_some, read_xlow, slice36]

theorem halt (c : Ctl) : Statement (.halt c) := by
  intro hw
  refine decode_mkWord _ c _ _ _ _ _ _ rfl rfl hw rfl ?_ fun w => ?_
  · exact fun h => Bool.noConfusion (show false = true from h)
  · rfl

theorem sync (c : Ctl) : Statement (.sync c) := by
  intro hw
  refine decode_mkWord _ c _ _ _ _ _ _ rfl rfl hw rfl ?_ fun w => ?_
  · exact fun h => Bool.noConfusion (show false = true from h)
  · rfl

theorem brk (c : Ctl) (b : Operand) : Statement (.brk c b) := by
  intro hw
  have hf : (b.isImm14 || b.isNone) = true := wf_form c rfl hw
  have hb : notW b = true := notW_brk (by tauto)
  refine decode_mkWord _ c _ _ _ _ _ _ rfl rfl hw rfl ?_ fun w => ?_
  · exact fun h => Bool.noConfusion (show false = true from h)
  · show (fun (f : Fields) => (some (.brk c f.bO) : Option Instr)) ⟨_, _, _, _, _, _⟩ = _
    simp (disch := decide) only [Fields.dO, Fields.aO, Fields.bO, Fields.dN, Fields.aS, Fields.aN, Fields.bN,
      Fields.dV, Fields.aV, Fields.bV, Fields.dM, Fields.aM, Fields.bM, Fields.dT, Fields.aT, Fields.i32,
      Fields.fmt, Fields.rel, Fields.nat, Fields.fscope, Fields.xscope, fnT_fmt, fnT_sat, fnC_rel, fnC_nat,
      fnA_op, fnA_scope, scope_ofCode, fmt_ofCode, vx_ofBits, sField_n, srcField_n, srcField_swz, vField_n,
      qField_n, pField_n, mField_n, accField_n, cmdField_n, resField_n, immW_i32, slice_hi, slice_lo, slice_all,
      bit_hi, bit_lo, bit_ofBool, Nat.reduceSub, Option.map_some, Option.bind_some, read_xlow, slice36, read_notW
      _ _ hb]

theorem wmark (c : Ctl) (d : Operand) : Statement (.wmark c d) := by
  intro hw
  have hf : (d.isSqp) = true := wf_form c rfl hw
  have hd : notW d = true := notW_isSqp (by tauto)
  refine decode_mkWord _ c _ _ _ _ _ _ rfl rfl hw rfl ?_ fun w => ?_
  · exact fun h => Bool.noConfusion (show false = true from h)
  · show (fun (f : Fields) => (some (.wmark c f.dO) : Option Instr)) ⟨_, _, _, _, _, _⟩ = _
    simp (disch := decide) only [Fields.dO, Fields.aO, Fields.bO, Fields.dN, Fields.aS, Fields.aN, Fields.bN,
      Fields.dV, Fields.aV, Fields.bV, Fields.dM, Fields.aM, Fields.bM, Fields.dT, Fields.aT, Fields.i32,
      Fields.fmt, Fields.rel, Fields.nat, Fields.fscope, Fields.xscope, fnT_fmt, fnT_sat, fnC_rel, fnC_nat,
      fnA_op, fnA_scope, scope_ofCode, fmt_ofCode, vx_ofBits, sField_n, srcField_n, srcField_swz, vField_n,
      qField_n, pField_n, mField_n, accField_n, cmdField_n, resField_n, immW_i32, slice_hi, slice_lo, slice_all,
      bit_hi, bit_lo, bit_ofBool, Nat.reduceSub, Option.map_some, Option.bind_some, read_xlow, slice36, read_notW
      _ _ hd]

theorem tsc (c : Ctl) (d : Operand) : Statement (.tsc c d) := by
  intro hw
  have hf : (d.isSqp) = true := wf_form c rfl hw
  have hd : notW d = true := notW_isSqp (by tauto)
  refine decode_mkWord _ c _ _ _ _ _ _ rfl rfl hw rfl ?_ fun w => ?_
  · exact fun h => Bool.noConfusion (show false = true from h)
  · show (fun (f : Fields) => (some (.tsc c f.dO) : Option Instr)) ⟨_, _, _, _, _, _⟩ = _
    simp (disch := decide) only [Fields.dO, Fields.aO, Fields.bO, Fields.dN, Fields.aS, Fields.aN, Fields.bN,
      Fields.dV, Fields.aV, Fields.bV, Fields.dM, Fields.aM, Fields.bM, Fields.dT, Fields.aT, Fields.i32,
      Fields.fmt, Fields.rel, Fields.nat, Fields.fscope, Fields.xscope, fnT_fmt, fnT_sat, fnC_rel, fnC_nat,
      fnA_op, fnA_scope, scope_ofCode, fmt_ofCode, vx_ofBits, sField_n, srcField_n, srcField_swz, vField_n,
      qField_n, pField_n, mField_n, accField_n, cmdField_n, resField_n, immW_i32, slice_hi, slice_lo, slice_all,
      bit_hi, bit_lo, bit_ofBool, Nat.reduceSub, Option.map_some, Option.bind_some, read_xlow, slice36, read_notW
      _ _ hd]

theorem cnt (c : Ctl) (d : Operand) (a : Operand) : Statement (.cnt c d a) := by
  intro hw
  have hf : (d.isSqp && a.isSqi) = true := wf_form c rfl hw
  simp only [Bool.and_eq_true] at hf
  have hd : notW d = true := notW_isSqp (by tauto)
  have ha : notW a = true := notW_isSqi (by tauto)
  refine decode_mkWord _ c _ _ _ _ _ _ rfl rfl hw rfl ?_ fun w => ?_
  · exact fun h => Bool.noConfusion (show false = true from h)
  · show (fun (f : Fields) => (some (.cnt c f.dO f.aO) : Option Instr)) ⟨_, _, _, _, _, _⟩ = _
    simp (disch := decide) only [Fields.dO, Fields.aO, Fields.bO, Fields.dN, Fields.aS, Fields.aN, Fields.bN,
      Fields.dV, Fields.aV, Fields.bV, Fields.dM, Fields.aM, Fields.bM, Fields.dT, Fields.aT, Fields.i32,
      Fields.fmt, Fields.rel, Fields.nat, Fields.fscope, Fields.xscope, fnT_fmt, fnT_sat, fnC_rel, fnC_nat,
      fnA_op, fnA_scope, scope_ofCode, fmt_ofCode, vx_ofBits, sField_n, srcField_n, srcField_swz, vField_n,
      qField_n, pField_n, mField_n, accField_n, cmdField_n, resField_n, immW_i32, slice_hi, slice_lo, slice_all,
      bit_hi, bit_lo, bit_ofBool, Nat.reduceSub, Option.map_some, Option.bind_some, read_xlow, slice36, read_notW
      _ _ hd, read_notW _ _ ha]

theorem preciseVectorTrap (h : Nat) : Statement (.preciseVectorTrap h) := by
  exact fun h => Bool.noConfusion (show false = true from h)

theorem queueWaitEnd (h : Nat) : Statement (.queueWaitEnd h) := by
  exact fun h => Bool.noConfusion (show false = true from h)

theorem loadStreamFetch (h : Nat) (q : Nat) : Statement (.loadStreamFetch h q) := by
  exact fun h => Bool.noConfusion (show false = true from h)

theorem storeStreamWrite (h : Nat) (q : Nat) : Statement (.storeStreamWrite h q) := by
  exact fun h => Bool.noConfusion (show false = true from h)

theorem barWaitCompletes (h : Nat) : Statement (.barWaitCompletes h) := by
  exact fun h => Bool.noConfusion (show false = true from h)

theorem semaphoreGrant (cluster : Nat) (bit : Nat) : Statement (.semaphoreGrant cluster bit) := by
  exact fun h => Bool.noConfusion (show false = true from h)

theorem waitSatisfied (h : Nat) : Statement (.waitSatisfied h) := by
  exact fun h => Bool.noConfusion (show false = true from h)

theorem popDataArrives (h : Nat) : Statement (.popDataArrives h) := by
  exact fun h => Bool.noConfusion (show false = true from h)

theorem copy (h : Nat) (k : Nat) (n : Nat) : Statement (.copy h k n) := by
  exact fun h => Bool.noConfusion (show false = true from h)

theorem copyDecrement (h : Nat) (k : Nat) (n : Nat) : Statement (.copyDecrement h k n) := by
  exact fun h => Bool.noConfusion (show false = true from h)

theorem gather (h : Nat) (k : Nat) : Statement (.gather h k) := by
  exact fun h => Bool.noConfusion (show false = true from h)

theorem scatter (h : Nat) (k : Nat) : Statement (.scatter h k) := by
  exact fun h => Bool.noConfusion (show false = true from h)

theorem reduction (h : Nat) (k : Nat) : Statement (.reduction h k) := by
  exact fun h => Bool.noConfusion (show false = true from h)

theorem attention (h : Nat) (k : Nat) : Statement (.attention h k) := by
  exact fun h => Bool.noConfusion (show false = true from h)

theorem allReduce (h : Nat) (k : Nat) : Statement (.allReduce h k) := by
  exact fun h => Bool.noConfusion (show false = true from h)

theorem collectiveTimeout (h : Nat) (k : Nat) (missing : List Nat) : Statement (.collectiveTimeout h k missing) := by
  exact fun h => Bool.noConfusion (show false = true from h)

theorem resultAppend (h : Nat) (k : Nat) : Statement (.resultAppend h k) := by
  exact fun h => Bool.noConfusion (show false = true from h)

theorem atlrGo : Statement .atlrGo := by
  exact fun h => Bool.noConfusion (show false = true from h)

theorem eportWrite (h : Nat) (v : BitVec 64) : Statement (.eportWrite h v) := by
  exact fun h => Bool.noConfusion (show false = true from h)

theorem replayIteration (h : Nat) : Statement (.replayIteration h) := by
  exact fun h => Bool.noConfusion (show false = true from h)

theorem doffEntry (h : Nat) : Statement (.doffEntry h) := by
  exact fun h => Bool.noConfusion (show false = true from h)

theorem refusalDelayEnd (core : Nat) (slot : Nat) : Statement (.refusalDelayEnd core slot) := by
  exact fun h => Bool.noConfusion (show false = true from h)

theorem yieldRequest (h : Nat) : Statement (.yieldRequest h) := by
  exact fun h => Bool.noConfusion (show false = true from h)

theorem quantumExpiry (h : Nat) : Statement (.quantumExpiry h) := by
  exact fun h => Bool.noConfusion (show false = true from h)

theorem forcedSave (h : Nat) : Statement (.forcedSave h) := by
  exact fun h => Bool.noConfusion (show false = true from h)

theorem contextRestore (i : Nat) (h : Nat) : Statement (.contextRestore i h) := by
  exact fun h => Bool.noConfusion (show false = true from h)

theorem hostLinkAccess (write : Bool) (pa : Nat) (data : List (BitVec 8)) : Statement (.hostLinkAccess write pa data) := by
  exact fun h => Bool.noConfusion (show false = true from h)

theorem peerAccess (peer : Nat) (write : Bool) (pa : Nat) (data : List (BitVec 8)) : Statement (.peerAccess peer write pa data) := by
  exact fun h => Bool.noConfusion (show false = true from h)

theorem queueSchedule (q : Nat) : Statement (.queueSchedule q) := by
  exact fun h => Bool.noConfusion (show false = true from h)

theorem packetNop (q : Nat) : Statement (.packetNop q) := by
  exact fun h => Bool.noConfusion (show false = true from h)

theorem packetLaunch (q : Nat) : Statement (.packetLaunch q) := by
  exact fun h => Bool.noConfusion (show false = true from h)

theorem packetFence (q : Nat) : Statement (.packetFence q) := by
  exact fun h => Bool.noConfusion (show false = true from h)

theorem packetSignal (q : Nat) : Statement (.packetSignal q) := by
  exact fun h => Bool.noConfusion (show false = true from h)

theorem packetEdge (q : Nat) : Statement (.packetEdge q) := by
  exact fun h => Bool.noConfusion (show false = true from h)

theorem packetModuleLoad (q : Nat) : Statement (.packetModuleLoad q) := by
  exact fun h => Bool.noConfusion (show false = true from h)

theorem packetModuleUnload (q : Nat) : Statement (.packetModuleUnload q) := by
  exact fun h => Bool.noConfusion (show false = true from h)

theorem cidAssign (seq : Nat) : Statement (.cidAssign seq) := by
  exact fun h => Bool.noConfusion (show false = true from h)

theorem leasingDone (seq : Nat) : Statement (.leasingDone seq) := by
  exact fun h => Bool.noConfusion (show false = true from h)

theorem hartPlacement (seq : Nat) (rank : Nat) (h : Nat) : Statement (.hartPlacement seq rank h) := by
  exact fun h => Bool.noConfusion (show false = true from h)

theorem launchEnd (seq : Nat) : Statement (.launchEnd seq) := by
  exact fun h => Bool.noConfusion (show false = true from h)

theorem shootdown (n : BitVec 32) : Statement (.shootdown n) := by
  exact fun h => Bool.noConfusion (show false = true from h)

theorem shootdownComplete : Statement .shootdownComplete := by
  exact fun h => Bool.noConfusion (show false = true from h)

theorem fownWrite (owner : BitVec 16) (frame : BitVec 36) : Statement (.fownWrite owner frame) := by
  exact fun h => Bool.noConfusion (show false = true from h)

theorem fownRead (frame : BitVec 36) : Statement (.fownRead frame) := by
  exact fun h => Bool.noConfusion (show false = true from h)

theorem migrationStart (src : BitVec 36) : Statement (.migrationStart src) := by
  exact fun h => Bool.noConfusion (show false = true from h)

theorem migrationLineCopy : Statement .migrationLineCopy := by
  exact fun h => Bool.noConfusion (show false = true from h)

theorem peerLinkUp (peer : Nat) : Statement (.peerLinkUp peer) := by
  exact fun h => Bool.noConfusion (show false = true from h)

theorem peerLoss (peer : Nat) : Statement (.peerLoss peer) := by
  exact fun h => Bool.noConfusion (show false = true from h)

theorem partitionGroupWrite (core : Nat) (high : Bool) (v : BitVec 64) : Statement (.partitionGroupWrite core high v) := by
  exact fun h => Bool.noConfusion (show false = true from h)

theorem phartWrite (core : Nat) (v : BitVec 64) : Statement (.phartWrite core v) := by
  exact fun h => Bool.noConfusion (show false = true from h)

theorem crownWrite (cluster : Nat) (v : BitVec 64) : Statement (.crownWrite cluster v) := by
  exact fun h => Bool.noConfusion (show false = true from h)

theorem step (h : Nat) (tag : Nat) : Statement (.step h tag) := by
  exact fun h => Bool.noConfusion (show false = true from h)

theorem fjoirHalt (h : Nat) (tag : Nat) : Statement (.fjoirHalt h tag) := by
  exact fun h => Bool.noConfusion (show false = true from h)

theorem resume (h : Nat) (tag : Nat) : Statement (.resume h tag) := by
  exact fun h => Bool.noConfusion (show false = true from h)

theorem rstep (h : Nat) (tag : Nat) (w : BitVec 32) : Statement (.rstep h tag w) := by
  exact fun h => Bool.noConfusion (show false = true from h)

theorem rdreg (h : Nat) (tag : Nat) (idx : Nat) : Statement (.rdreg h tag idx) := by
  exact fun h => Bool.noConfusion (show false = true from h)

theorem wrreg (h : Nat) (tag : Nat) (idx : Nat) (v : BitVec 64) : Statement (.wrreg h tag idx v) := by
  exact fun h => Bool.noConfusion (show false = true from h)

theorem rdmem (tag : Nat) (pa : Nat) : Statement (.rdmem tag pa) := by
  exact fun h => Bool.noConfusion (show false = true from h)

theorem wrmem (tag : Nat) (pa : Nat) (v : BitVec 64) : Statement (.wrmem tag pa v) := by
  exact fun h => Bool.noConfusion (show false = true from h)

theorem ltlWrite (h : Nat) (v : BitVec 64) : Statement (.ltlWrite h v) := by
  exact fun h => Bool.noConfusion (show false = true from h)

theorem lctlLostClear (h : Nat) : Statement (.lctlLostClear h) := by
  exact fun h => Bool.noConfusion (show false = true from h)

theorem counterLatch : Statement .counterLatch := by
  exact fun h => Bool.noConfusion (show false = true from h)

theorem uncorrectableStateError (loc : StateLoc) : Statement (.uncorrectableStateError loc) := by
  exact fun h => Bool.noConfusion (show false = true from h)

theorem rpoisGo (frame : BitVec 36) : Statement (.rpoisGo frame) := by
  exact fun h => Bool.noConfusion (show false = true from h)

theorem scrubRow (bank : Nat) (row : Nat) (lines : List Nat) (bad : List Nat) (corrected : List Nat) : Statement (.scrubRow bank row lines bad corrected) := by
  exact fun h => Bool.noConfusion (show false = true from h)

theorem sparesExhausted (bank : Nat) : Statement (.sparesExhausted bank) := by
  exact fun h => Bool.noConfusion (show false = true from h)

theorem watchdogExpiry (q : Nat) : Statement (.watchdogExpiry q) := by
  exact fun h => Bool.noConfusion (show false = true from h)

theorem coreRailLoss : Statement .coreRailLoss := by
  exact fun h => Bool.noConfusion (show false = true from h)

theorem powerCapStep (watts : BitVec 16) : Statement (.powerCapStep watts) := by
  exact fun h => Bool.noConfusion (show false = true from h)

theorem railOvercurrent : Statement .railOvercurrent := by
  exact fun h => Bool.noConfusion (show false = true from h)

theorem throttleDown (z : Nat) : Statement (.throttleDown z) := by
  exact fun h => Bool.noConfusion (show false = true from h)

theorem throttleUp (z : Nat) : Statement (.throttleUp z) := by
  exact fun h => Bool.noConfusion (show false = true from h)

theorem sgateWrite (core : Nat) (v : BitVec 64) : Statement (.sgateWrite core v) := by
  exact fun h => Bool.noConfusion (show false = true from h)

theorem bankWake (core : Nat) (bank : Nat) : Statement (.bankWake core bank) := by
  exact fun h => Bool.noConfusion (show false = true from h)

theorem wgateWrite (v : BitVec 16) : Statement (.wgateWrite v) := by
  exact fun h => Bool.noConfusion (show false = true from h)

theorem zminWrite (z : Nat) (v : BitVec 5) : Statement (.zminWrite z v) := by
  exact fun h => Bool.noConfusion (show false = true from h)

theorem ctrapClear (v : BitVec 4) : Statement (.ctrapClear v) := by
  exact fun h => Bool.noConfusion (show false = true from h)

theorem overTemperature (z : Nat) (temp : BitVec 12) : Statement (.overTemperature z temp) := by
  exact fun h => Bool.noConfusion (show false = true from h)

theorem lowFlow (z : Nat) (flow : BitVec 10) : Statement (.lowFlow z flow) := by
  exact fun h => Bool.noConfusion (show false = true from h)

theorem dryChannel (z : Nat) : Statement (.dryChannel z) := by
  exact fun h => Bool.noConfusion (show false = true from h)

theorem pressureLoss (z : Nat) (kpa : BitVec 16) : Statement (.pressureLoss z kpa) := by
  exact fun h => Bool.noConfusion (show false = true from h)

theorem evacValveClose (z : Nat) : Statement (.evacValveClose z) := by
  exact fun h => Bool.noConfusion (show false = true from h)

theorem evacPurge (z : Nat) : Statement (.evacPurge z) := by
  exact fun h => Bool.noConfusion (show false = true from h)

theorem evacRefill (z : Nat) : Statement (.evacRefill z) := by
  exact fun h => Bool.noConfusion (show false = true from h)

theorem evacCheck (z : Nat) (wet : Bool) : Statement (.evacCheck z wet) := by
  exact fun h => Bool.noConfusion (show false = true from h)

theorem coldReset : Statement .coldReset := by
  exact fun h => Bool.noConfusion (show false = true from h)

theorem firmwareUpdate (image : List (BitVec 8)) (complete : Bool) : Statement (.firmwareUpdate image complete) := by
  exact fun h => Bool.noConfusion (show false = true from h)

theorem illegalInstruction (w : BitVec 96) : Statement (.illegalInstruction w) := by
  exact fun h => Bool.noConfusion (show false = true from h)

theorem fjoirUnassignedCode (code : BitVec 8) (tag : Nat) : Statement (.fjoirUnassignedCode code tag) := by
  exact fun h => Bool.noConfusion (show false = true from h)

theorem packetFenceSatisfied (q : Nat) : Statement (.packetFenceSatisfied q) := by
  exact fun h => Bool.noConfusion (show false = true from h)

theorem packetEdgeTaken (q : Nat) : Statement (.packetEdgeTaken q) := by
  exact fun h => Bool.noConfusion (show false = true from h)

theorem collectivePacket (h : Nat) (k : Nat) (rank : Nat) (failed : Bool) (data : List (BitVec 32)) : Statement (.collectivePacket h k rank failed data) := by
  exact fun h => Bool.noConfusion (show false = true from h)

theorem refusalWindowExpiry (h : Nat) : Statement (.refusalWindowExpiry h) := by
  exact fun h => Bool.noConfusion (show false = true from h)

theorem lowFlowRecovery (z : Nat) (flow : BitVec 10) : Statement (.lowFlowRecovery z flow) := by
  exact fun h => Bool.noConfusion (show false = true from h)

theorem valveRegulation (z : Nat) (valve : BitVec 8) (flow : BitVec 10) : Statement (.valveRegulation z valve flow) := by
  exact fun h => Bool.noConfusion (show false = true from h)

end RoundTrip

end Sys2Proof.Laws
end

