-- ==== Sys2Proof/Laws/Scalar.lean ====
section
/-! SUPPORT. What the shared operations of the scalar stream do, said once: the results of R43, delivering a result,
and the frame of a computation. -/

namespace Sys2Proof.Machine

open Sys2Proof.Safety

/-! ## Results (R42, R43) -/

theorem width_pos (f : Fmt) : 0 < f.width := by cases f <;> decide

/-- A signed reading is congruent to its pattern and in range. -/
theorem signedOf_spec (w n : Nat) (hw : 0 < w) :
    -((2 ^ (w - 1) : Nat) : Int) ≤ signedOf w n ∧ signedOf w n ≤ (2 ^ (w - 1) : Nat) - 1 ∧
      ∃ k : Int, (n : Int) = signedOf w n + k * (2 ^ w : Nat) := by
  have h2 : 2 ^ w = 2 * 2 ^ (w - 1) := by
    rw [← Nat.pow_succ']; congr 1; omega
  have hp : 0 < 2 ^ (w - 1) := Nat.two_pow_pos _
  have hm := Nat.mod_lt n (show 0 < 2 ^ w by omega)
  have hd := Nat.div_add_mod n (2 ^ w)
  have hdI : ((2 ^ w : Nat) : Int) * ((n / 2 ^ w : Nat) : Int) + ((n % 2 ^ w : Nat) : Int) = (n : Int) := by
    rw [← Nat.cast_mul, ← Nat.cast_add, hd]
  unfold signedOf
  dsimp only
  generalize n % 2 ^ w = x at *
  generalize n / 2 ^ w = q at *
  generalize 2 ^ (w - 1) = p at *
  generalize 2 ^ w = P at *
  subst h2
  by_cases hx : 2 * x < 2 * p
  · rw [if_pos hx]
    refine ⟨by omega, by omega, q, ?_⟩
    rw [Int.mul_comm] at hdI
    omega
  · rw [if_neg hx]
    refine ⟨by omega, by omega, q + 1, ?_⟩
    rw [Int.mul_comm] at hdI
    have : ((q : Int) + 1) * ((2 * p : Nat) : Int) = q * ((2 * p : Nat) : Int) + ((2 * p : Nat) : Int) := by ring
    omega

theorem wrapNat_spec (w : Nat) (e : Int) : ∃ k : Int, e = (wrapNat w e : Int) + k * (2 ^ w : Nat) := by
  have hp : ((2 ^ w : Nat) : Int) ≠ 0 := by exact_mod_cast (Nat.two_pow_pos w).ne'
  refine ⟨e / (2 ^ w : Nat), ?_⟩
  unfold wrapNat
  rw [Int.toNat_of_nonneg (Int.emod_nonneg _ hp)]
  have := Int.emod_add_mul_ediv e (2 ^ w : Nat)
  rw [Int.mul_comm] at this
  omega

/-- Wrap gives the value of the format that is congruent modulo 2^w (R43). -/
theorem wrapTo_spec (f : Fmt) (e : Int) :
    InRange f (wrapTo f e) ∧ ∃ k : Int, e = wrapTo f e + k * (2 ^ f.width : Nat) := by
  obtain ⟨k, hk⟩ := wrapNat_spec f.width e
  unfold wrapTo fmtRead InRange fmtLo fmtHi
  cases hs : f.signed
  · simp only [Bool.false_eq_true, if_false]
    have hp := Nat.two_pow_pos f.width
    have hm := Nat.mod_lt (wrapNat f.width e) hp
    have hd := Nat.div_add_mod (wrapNat f.width e) (2 ^ f.width)
    refine ⟨⟨by omega, by omega⟩, (wrapNat f.width e / 2 ^ f.width : Nat) + k, ?_⟩
    have hdI : ((wrapNat f.width e / 2 ^ f.width : Nat) : Int) * ((2 ^ f.width : Nat) : Int)
        + ((wrapNat f.width e % 2 ^ f.width : Nat) : Int) = (wrapNat f.width e : Int) := by
      rw [Int.mul_comm, ← Nat.cast_mul, ← Nat.cast_add, hd]
    rw [Int.add_mul]
    omega
  · simp only [if_true]
    obtain ⟨h1, h2, j, hj⟩ := signedOf_spec f.width (wrapNat f.width e) (width_pos f)
    refine ⟨⟨h1, h2⟩, j + k, ?_⟩
    rw [Int.add_mul]
    omega

theorem fmtLo_le_fmtHi (f : Fmt) : fmtLo f ≤ fmtHi f := by cases f <;> decide

/-- Result of R43: wrapped, or saturated with its flag. -/
theorem fitTo_spec (f : Fmt) (sat : Bool) (e : Int) : ResultIs f sat e (fitTo f sat e).1 (fitTo f sat e).2 := by
  cases sat
  · obtain ⟨h, k, hk⟩ := wrapTo_spec f e
    exact ⟨h, rfl, k, hk⟩
  · have hle := fmtLo_le_fmtHi f
    unfold ResultIs fitTo clampTo InRange flagIf
    simp only [if_true]
    by_cases h1 : e < fmtLo f
    · have h3 : ¬ fmtHi f < e := by omega
      have h4 : fmtLo f ≠ e := by omega
      simp [h1, hle, h3, h4]
    · by_cases h2 : fmtHi f < e
      · have h4 : fmtHi f ≠ e := by omega
        simp [h1, h2, hle, h4]
      · simp [h1, h2]
        omega

/-! ## Delivering a result (R72) -/

/-- A destination with room takes its result. -/
theorem putS_room {o : Operand} {h : Hart} (hr : Room o h) (v : Word) : ∃ h', putS o v h = some h' := by
  cases o with
  | q n => exact ⟨_, by simp only [putS]; rw [if_neg (by have := hr n rfl; omega)]⟩
  | _ => exact ⟨_, rfl⟩

theorem room_flag {o : Operand} {h : Hart} (hr : Room o h) (g : Flags) : Room o (h.flag g) := hr

/-- A computation whose sources can be read and whose destination has room completes with its result. -/
theorem alu_completes (i : Instr) {a b d : Operand} (f : Word → Word → Word × Flags) {s : State} {x y : Word} {h h' : Hart}
    (hs : Sources a b s.hart x y h) (hp : putS d (f x y).1 (h.flag (f x y).2) = some h') :
    alu i a b d f s = completed s h' := by
  obtain ⟨h1, ha, hb⟩ := hs
  unfold alu
  rw [ha]
  dsimp only
  rw [hb]
  dsimp only
  rw [hp]
  rfl

/-- With a true guard an instruction runs. -/
theorem guarded_on {c : Ctl} {s : State} (f : State → State) (h : s.hart.guard c = true) :
    guarded c s f = .next (f s) := by unfold guarded; rw [if_pos h]

/-- With a false guard it only advances (R18). -/
theorem guarded_off {c : Ctl} {s : State} (f : State → State) (h : s.hart.guard c = false) :
    guarded c s f = .next s.advance := by unfold guarded; rw [if_neg (by rw [h]; exact Bool.false_ne_true)]

/-- A kind-T computation has the result of its exact function. -/
theorem scalarResult_of (i : Instr) (c : Ctl) (o : SOps) (e : Int → Int → Int)
    (h : ∀ s, exec i s = guarded c s (alu i o.a o.b o.d (intAlu o e))) : ScalarResult i c o e := by
  intro s x y h1 hg hs hr
  obtain ⟨h', hp⟩ := putS_room (room_flag hr (intAlu o e x y).2) (intAlu o e x y).1
  refine ⟨_, _, h', fitTo_spec _ _ _, hp, ?_⟩
  rw [h, guarded_on _ hg, alu_completes i (intAlu o e) hs hp]

/-- A shift has the result of its exact function. -/
theorem shiftResult_of (i : Instr) (c : Ctl) (o : SOps) (e : Int → Nat → Int)
    (h : ∀ s, exec i s = guarded c s (alu i o.a o.b o.d (shiftAlu o e))) : ShiftResult i c o e := by
  intro s x y h1 hg hs hr
  obtain ⟨h', hp⟩ := putS_room (room_flag hr (shiftAlu o e x y).2) (shiftAlu o e x y).1
  refine ⟨_, _, h', fitTo_spec _ _ _, hp, ?_⟩
  rw [h, guarded_on _ hg, alu_completes i (shiftAlu o e) hs hp]

end Sys2Proof.Machine
end

