-- ==== Sys2Proof/Laws/Vector.lean ====
section
/-! SUPPORT. What the moulds of the vector instructions do, element by element (R100, R110). -/

namespace Sys2Proof.Machine

open Sys2Proof.Safety

/-! ## One element of a vector -/

theorem pack_dvd (f : Fmt) : f.pack * (32 / f.pack) = 32 ∧ (f.pack = 1 ∨ f.width = 32 / f.pack) := by
  cases f <;> decide

theorem swz_zero (c : BitVec 32) : swz Mods.none.swz c = c := rfl

theorem elemOf_eq (f : Fmt) (t : List (Nat × Elem)) (e : Nat) :
    elemOf f t e = (tget 0 t (e / f.pack)).toNat / 2 ^ (e % f.pack * (32 / f.pack)) % 2 ^ f.width := rfl

theorem width_le (f : Fmt) (h : f.vector = true) : f.width ≤ 32 := by
  revert h; cases f <;> decide

theorem extElem_mod (f : Fmt) (b : Nat) (h : f.width ≤ 32) : (extElem f b).toNat % 2 ^ f.width = b % 2 ^ f.width := by
  have key : ∀ w, w ≤ 32 → (BitVec.ofNat 32 (b % 2 ^ w)).toNat % 2 ^ w = b % 2 ^ w := by
    intro w hw
    rw [BitVec.toNat_ofNat, Nat.mod_eq_of_lt (lt_of_lt_of_le (Nat.mod_lt _ (Nat.two_pow_pos w)) (Nat.pow_le_pow_right (by omega) hw)),
      Nat.mod_mod]
  have sx : ∀ w, 0 < w → w ≤ 32 → ((BitVec.ofNat w b).signExtend 32).toNat % 2 ^ w = b % 2 ^ w := by
    intro w h0 hw
    apply Nat.eq_of_testBit_eq
    intro i
    rw [Nat.testBit_mod_two_pow, Nat.testBit_mod_two_pow]
    by_cases hi : i < w
    · simp only [hi, decide_true, Bool.true_and]
      have h1 : ((BitVec.ofNat w b).signExtend 32).toNat.testBit i = ((BitVec.ofNat w b).signExtend 32).getLsbD i := rfl
      rw [h1, BitVec.getLsbD_signExtend]
      have : i < 32 := by omega
      simp only [this, decide_true, Bool.true_and, hi, if_true, BitVec.getLsbD_ofNat]
    · simp [hi]
  unfold extElem
  split
  · next hf => subst hf; exact sx 8 (by decide) (by decide)
  · split
    · next hf => subst hf; exact sx 16 (by decide) (by decide)
    · exact key f.width h

/-- The bits of a container after w bits at place S were replaced. -/
theorem put_bits (old b S w i : Nat) :
    (old / 2 ^ (S + w) * 2 ^ (S + w) + b % 2 ^ w * 2 ^ S + old % 2 ^ S).testBit i =
      if i < S then old.testBit i else if i < S + w then b.testBit (i - S) else old.testBit i := by
  have h1 : old % 2 ^ S < 2 ^ S := Nat.mod_lt _ (Nat.two_pow_pos S)
  have h2 : 2 ^ S * (b % 2 ^ w) + old % 2 ^ S < 2 ^ (S + w) := by
    have hb : b % 2 ^ w + 1 ≤ 2 ^ w := Nat.mod_lt _ (Nat.two_pow_pos w)
    calc 2 ^ S * (b % 2 ^ w) + old % 2 ^ S < 2 ^ S * (b % 2 ^ w) + 2 ^ S := by omega
      _ = 2 ^ S * (b % 2 ^ w + 1) := by ring
      _ ≤ 2 ^ S * 2 ^ w := Nat.mul_le_mul_left _ hb
      _ = 2 ^ (S + w) := by rw [pow_add]
  have h3 : old / 2 ^ (S + w) * 2 ^ (S + w) + b % 2 ^ w * 2 ^ S + old % 2 ^ S
      = 2 ^ (S + w) * (old / 2 ^ (S + w)) + (2 ^ S * (b % 2 ^ w) + old % 2 ^ S) := by ring
  rw [h3, Nat.testBit_two_pow_mul_add _ h2, Nat.testBit_two_pow_mul_add _ h1, Nat.testBit_mod_two_pow,
    Nat.testBit_mod_two_pow, Nat.testBit_div_two_pow]
  by_cases ha : i < S
  · have : i < S + w := by omega
    simp [ha, this]
  · by_cases hb : i < S + w
    · have : i - S < w := by omega
      simp [ha, hb, this]
    · have : S + w + (i - (S + w)) = i := by omega
      have h' : i - (S + w) + (S + w) = i := by omega
      simp [ha, hb, h']

theorem pack_pos (f : Fmt) : 0 < f.pack := by cases f <;> decide

/-- An element of a container after another value was put at place S: the value there, and what it was elsewhere. -/
theorem slot_put (old b S S' w : Nat) (hS : S + w ≤ 32) (hS' : S' + w ≤ 32) (ho : old < 2 ^ 32)
    (h : S' = S ∨ S' + w ≤ S ∨ S + w ≤ S') :
    (BitVec.ofNat 32 (old / 2 ^ (S + w) * 2 ^ (S + w) + b % 2 ^ w * 2 ^ S + old % 2 ^ S)).toNat / 2 ^ S' % 2 ^ w =
      if S' = S then b % 2 ^ w else old / 2 ^ S' % 2 ^ w := by
  apply Nat.eq_of_testBit_eq
  intro i
  rw [BitVec.toNat_ofNat, Nat.testBit_mod_two_pow, Nat.testBit_div_two_pow, Nat.testBit_mod_two_pow, put_bits]
  by_cases hi : i < w
  · have hi32 : i + S' < 32 := by omega
    by_cases he : S' = S
    · subst he
      have h1 : ¬ i + S' < S' := by omega
      have h2 : i + S' < S' + w := by omega
      simp [hi, hi32, h1, h2, Nat.testBit_mod_two_pow]
    · simp only [he, if_false, hi, decide_true, Bool.true_and, hi32, Nat.testBit_mod_two_pow, Nat.testBit_div_two_pow]
      rcases h with h | h | h
      · exact absurd h he
      · rw [if_pos (by omega)]
      · rw [if_neg (by omega), if_neg (by omega)]
  · by_cases he : S' = S <;> simp [hi, he, Nat.testBit_mod_two_pow]

/-- Setting an element: it holds the value, and every other element what it held (R100). -/
theorem elemOf_setElem (f : Fmt) (hf : f.width ≤ 32) (e e' b : Nat) (t : List (Nat × Elem)) :
    elemOf f (setElem f e b t) e' = if e' = e then b % 2 ^ f.width else elemOf f t e' := by
  rw [elemOf_eq, elemOf_eq]
  unfold setElem
  by_cases hp : f.pack = 1
  · rw [if_pos hp, hp]
    simp only [Nat.div_one, Nat.mod_one, Nat.zero_mul, pow_zero, tget_tset]
    split
    · exact extElem_mod f b hf
    · rfl
  · rw [if_neg hp]
    obtain ⟨h1, h2⟩ := pack_dvd f
    have hw : f.width = 32 / f.pack := h2.resolve_left hp
    have hpp := pack_pos f
    have hm := Nat.mod_lt e hpp
    have hm' := Nat.mod_lt e' hpp
    have hd := Nat.div_add_mod e f.pack
    have hd' := Nat.div_add_mod e' f.pack
    rw [← hw] at h1 ⊢
    simp only [tget_tset]
    by_cases hc : e' / f.pack = e / f.pack
    · rw [if_pos hc, hc]
      have hle : ∀ m, m < f.pack → m * f.width + f.width ≤ 32 := by
        intro m hlt
        rw [← h1]
        nlinarith
      rw [slot_put _ b _ _ f.width (hle _ hm) (hle _ hm') (BitVec.isLt _) ?_]
      · by_cases hee : e' = e
        · subst hee; simp
        · have hne : e' % f.pack ≠ e % f.pack := by
            intro h; rw [hc, h, hd] at hd'; exact hee hd'.symm
          have hw0 := width_pos f
          have hSne : e' % f.pack * f.width ≠ e % f.pack * f.width := fun h => hne (Nat.eq_of_mul_eq_mul_right hw0 h)
          rw [if_neg hSne, if_neg hee]
      · rcases Nat.lt_trichotomy (e' % f.pack) (e % f.pack) with h | h | h
        · right; left; nlinarith
        · left; rw [h]
        · right; right; nlinarith
    · rw [if_neg hc, if_neg (fun h => hc (by rw [h]))]

/-! ## The mould -/

/-- One element of the mould: its value and flags where it is active, zero or what it was where it is not (R110). -/
def mouldStep (f : Fmt) (act : Nat → Bool) (mz : Bool) (F : Nat → Nat × Flags) (acc : List (Nat × Elem) × Flags) (e : Nat) :
    List (Nat × Elem) × Flags :=
  if act e then (setElem f e (F e).1 acc.1, acc.2 ||| (F e).2) else if mz then (setElem f e 0 acc.1, acc.2) else acc

/-- The fold of the mould, element by element. -/
theorem mould_fold (f : Fmt) (hf : f.width ≤ 32) (act : Nat → Bool) (mz : Bool) (F : Nat → Nat × Flags) (l : List Nat) :
    ∀ acc : List (Nat × Elem) × Flags, l.Nodup →
      (∀ e, elemOf f (l.foldl (mouldStep f act mz F) acc).1 e =
        if e ∈ l then masked (act e) mz ((F e).1 % 2 ^ f.width) (elemOf f acc.1 e) else elemOf f acc.1 e) ∧
      ∀ k, (l.foldl (mouldStep f act mz F) acc).2.getLsbD k = true ↔
        acc.2.getLsbD k = true ∨ ∃ e ∈ l, act e = true ∧ (F e).2.getLsbD k = true := by
  induction l with
  | nil => intro acc _; simp
  | cons a l ih =>
      intro acc hn
      obtain ⟨ha, hl⟩ := List.nodup_cons.1 hn
      obtain ⟨h1, h2⟩ := ih (mouldStep f act mz F acc a) hl
      have hs : ∀ e, elemOf f (mouldStep f act mz F acc a).1 e =
          if e = a then masked (act a) mz ((F a).1 % 2 ^ f.width) (elemOf f acc.1 a) else elemOf f acc.1 e := by
        intro e
        unfold mouldStep masked
        by_cases hea : e = a
        · subst hea
          cases act e <;> cases mz <;> simp [elemOf_setElem f hf]
        · cases act a <;> cases mz <;> simp [elemOf_setElem f hf, hea]
      have hg : ∀ k, (mouldStep f act mz F acc a).2.getLsbD k = true ↔
          acc.2.getLsbD k = true ∨ act a = true ∧ (F a).2.getLsbD k = true := by
        intro k
        unfold mouldStep
        cases act a <;> cases mz <;> simp
      refine ⟨fun e => ?_, fun k => ?_⟩
      · rw [List.foldl_cons, h1, hs]
        by_cases hea : e = a
        · subst hea; simp [ha]
        · simp [hea]
      · rw [List.foldl_cons, h2, hg]
        simp only [List.mem_cons, exists_eq_or_imp, or_assoc]

/-- A result that a vector destination takes. -/
theorem putV_room {d : Operand} {h : Hart} (hr : VRoom d h) (t : List (Nat × Elem)) : ∃ h', putV d t h = .ok h' := by
  cases d with
  | q n =>
      obtain ⟨h1, h2⟩ := hr
      have h1' : ¬ Config.vectorQueueDepth ≤ (h.vq (n.toNat - 8)).length := by omega
      simp only [putV, pushV]
      cases hb : h.stream (n.toNat - 8) with
      | none => exact ⟨_, by simp only; rw [if_neg h1']⟩
      | some b =>
          obtain ⟨h3, h4⟩ := h2 b hb
          exact ⟨_, by simp only [h3, h4, Bool.not_true, Bool.false_eq_true, if_false]; rw [if_neg h1']⟩
  | _ => exact ⟨_, rfl⟩

/-- Everything that entering the queue can do (R18, R170, R399): the guard is false, the queue is frozen, it is full, or the
instruction enters it. -/
theorem entering_cases (i : Instr) (c : Ctl) (f : State → State) (s : State) :
    (s.hart.guard c = false ∧ entering i c f s = .next s.advance) ∨
    (s.hart.guard c = true ∧
      ((s.hart.vqf = true ∧ entering i c f s = .next s.endTask) ∨
        (s.hart.vqf = false ∧
          ((Config.commandQueueDepth ≤ s.hart.vcq.length ∧ entering i c f s = .next (s.await i)) ∨
            (s.hart.vcq.length < Config.commandQueueDepth ∧ entering i c f s = .next (f s)))))) := by
  unfold entering
  cases hg : s.hart.guard c
  · exact .inl ⟨rfl, guarded_off _ hg⟩
  · refine .inr ⟨rfl, ?_⟩
    rw [guarded_on _ hg]
    cases hq : s.hart.vqf
    · refine .inr ⟨rfl, ?_⟩
      by_cases hl : Config.commandQueueDepth ≤ s.hart.vcq.length
      · exact .inl ⟨hl, by simp [hl]⟩
      · exact .inr ⟨by omega, by simp [hl]⟩
    · exact .inl ⟨rfl, by simp⟩

/-- An instruction that nothing keeps from its effect completes with the state its run gives. -/
theorem issueV_done {i : Instr} {c : Ctl} {run : Env → State → VRes} {s t : State} (h : Issues c s)
    (hr : run (s.envOf i) s.issued = .done t) : issueV i c run s = .next t := by
  obtain ⟨hg, hq, hi⟩ := h
  have hl : ¬ Config.commandQueueDepth ≤ s.hart.vcq.length := by
    have : s.hart.vcq = [] := by
      simp only [State.vectorIdle, Bool.and_eq_true, List.isEmpty_iff] at hi
      exact hi.1.1
    rw [this]
    decide
  unfold issueV entering
  rw [guarded_on _ hg]
  simp only [hq, Bool.false_eq_true, if_false]
  rw [if_neg hl]
  simp only [hi, if_true]
  rw [hr]

theorem takeV_keeps {o : Operand} {v : Env} {h h' : Hart} {x : VSrc} (e : takeV o v h = .ok (x, h')) :
    h'.vstart = h.vstart ∧ h'.m = h.m ∧ h'.vl = h.vl := by
  cases o with
  | q n =>
      simp only [takeV] at e
      split at e
      · split at e
        · cases e
        · cases e; exact ⟨rfl, rfl, rfl⟩
      · split at e
        · next h1 => 
          unfold popV at h1
          split at h1
          · split at h1
            · cases h1
            · cases h1; cases e; exact ⟨rfl, rfl, rfl⟩
          · split at h1
            · cases h1
            · split at h1
              · split at h1 <;> cases h1
              · cases h1; cases e; exact ⟨rfl, rfl, rfl⟩
        · cases e
        · cases e
  | _ => cases e; exact ⟨rfl, rfl, rfl⟩

theorem elements_all (v : Env) (hv : v.grp = none) (p first n e : Nat) :
    e ∈ elements v p first n ↔ first ≤ e ∧ e < n := by
  unfold elements
  rw [hv]
  simp only [List.mem_map, List.mem_range]
  constructor
  · rintro ⟨i, hi, rfl⟩; omega
  · rintro ⟨h1, h2⟩; exact ⟨e - first, by omega, by omega⟩

theorem elements_nodup (v : Env) (hv : v.grp = none) (p first n : Nat) : (elements v p first n).Nodup := by
  unfold elements
  rw [hv]
  exact List.Nodup.map (fun a b h => by simpa using h) (List.nodup_range)

/-- The elementwise mould does what R110 says. -/
theorem elementwise_of (i : Instr) (c : Ctl) (o : VOps) (f : Fmt) (hf : f.width ≤ 32)
    (G : Hart → VSrc → VSrc → VSrc → Nat → Nat × Flags)
    (h : ∀ s, exec i s = issueV i c (fun v s => mould o f G v s) s) :
    Elementwise i c o f (fun h x y d e => G h x y (.vec d) e) := by
  intro s x y h1 hi hw hs hr
  obtain ⟨h0, ha, hb⟩ := hs
  have hv0 : s.issued.hart.vstart = s.hart.vstart := rfl
  have hva : h1.vstart = s.hart.vstart := by rw [(takeV_keeps hb).1, (takeV_keeps ha).1, hv0]
  let act := fun e => active h1 o.x.msk o.x.mn f.pack e
  let F := fun e => G h1 x y (.vec (oldV o.d h1)) e
  let l := elements (s.envOf i) f.pack s.hart.vstart.toNat (f.pack * s.vlen)
  obtain ⟨hE, hG⟩ := mould_fold f hf act o.x.mz F l (oldV o.d h1, 0) (elements_nodup _ rfl _ _ _)
  let r := l.foldl (mouldStep f act o.x.mz F) (oldV o.d h1, 0)
  have hroom : VRoom o.d { h1.flag r.2 with vstart := 0 } := by
    cases hd : o.d <;> rw [hd] at hr <;> exact hr
  obtain ⟨h', hp⟩ := putV_room hroom r.1
  refine ⟨r.1, r.2, h', ?_, hp, ?_, ?_⟩
  · rw [h]
    apply issueV_done hi
    show mould o f G (s.envOf i) s.issued = _
    unfold mould withV
    have hn : ¬ ((namesQueue [o.d, o.a, o.b] && decide (s.issued.hart.vstart ≠ 0)) = true) := by
      intro hc
      simp only [Bool.and_eq_true, decide_eq_true_eq] at hc
      exact hc.2 (hw hc.1)
    have hn' : ¬ (namesQueue [o.d, o.a, o.b] = true ∧ s.issued.hart.vstart ≠ 0) := fun hc => hc.2 (hw hc.1)
    first
      | rw [if_neg hn']
      | rw [if_neg hn]
    rw [ha]
    dsimp only
    rw [hb]
    dsimp only
    have hfold : (elements (s.envOf i) f.pack h1.vstart.toNat (f.pack * (s.envOf i).n)).foldl
        (fun (acc : List (Nat × Elem) × Flags) e =>
          if active h1 o.x.msk o.x.mn f.pack e then
            let (b, g) := G h1 x y (.vec (oldV o.d h1)) e
            (setElem f e b acc.1, acc.2 ||| g)
          else if o.x.mz then (setElem f e 0 acc.1, acc.2)
          else acc) (oldV o.d h1, 0) = r := by
      rw [hva]
      rfl
    rw [hfold]
    unfold finishV
    rw [hp]
    rfl
  · intro e
    rw [hE]
    simp only [l, elements_all _ (rfl : (s.envOf i).grp = none)]
    rfl
  · intro k
    rw [hG]
    simp only [l, elements_all _ (rfl : (s.envOf i).grp = none)]
    constructor
    · rintro (h | ⟨e, ⟨h2, h3⟩, h4, h5⟩)
      · simp at h
      · exact ⟨e, h2, h3, h4, h5⟩
    · rintro ⟨e, h2, h3, h4, h5⟩
      exact .inr ⟨e, ⟨h2, h3⟩, h4, h5⟩

/-! ## Modifiers of sources that are read whole (R25, R203) -/

/-- Wrapping an exact result changes no bit of it (R43). -/
theorem ofInt_wrapTo (f : Fmt) (x : Int) : BitVec.ofInt f.width (wrapTo f x) = BitVec.ofInt f.width x := by
  obtain ⟨-, k, hk⟩ := wrapTo_spec f x
  apply BitVec.eq_of_toInt_eq
  rw [BitVec.toInt_ofInt, BitVec.toInt_ofInt]
  conv_rhs => rw [hk]
  rw [Int.add_mul_bmod_self_right]

theorem swz64_zero (w : Word) : swz64 0 w = w := by
  show w.extractLsb' 32 32 ++ w.extractLsb' 0 32 = w
  apply BitVec.eq_of_getLsbD_eq
  intro i hi
  simp only [BitVec.getLsbD_append, BitVec.getLsbD_extractLsb']
  by_cases h : i < 32
  · simp [h]
  · simp [h, show 32 + (i - 32) = i by omega, show i - 32 < 32 by omega]

/-- A 64-bit value without modifiers (R25). -/
theorem full64_plain (w : Word) : (full64 false Mods.none w).1 = w := by
  show BitVec.ofInt 64 (wrapTo .i64 (swz64 0 w).toInt) = w
  rw [show BitVec.ofInt 64 (wrapTo .i64 (swz64 0 w).toInt) = BitVec.ofInt 64 (swz64 0 w).toInt from ofInt_wrapTo .i64 _,
    BitVec.ofInt_toInt, swz64_zero]

theorem ofNat_wrapNat (w : Nat) (x : Int) : BitVec.ofNat w (wrapNat w x) = BitVec.ofInt w x := by
  obtain ⟨k, hk⟩ := wrapNat_spec w x
  rw [← BitVec.ofInt_natCast]
  apply BitVec.eq_of_toInt_eq
  rw [BitVec.toInt_ofInt, BitVec.toInt_ofInt]
  conv_rhs => rw [hk]
  rw [Int.add_mul_bmod_self_right]

theorem fmtRead_i32 (c : BitVec 32) : fmtRead .i32 c.toNat = c.toInt := by
  show signedOf 32 c.toNat = c.toInt
  unfold signedOf
  rw [Nat.mod_eq_of_lt c.isLt, BitVec.toInt_eq_toNat_cond]

/-- An index of vldx and vstx is its container after the swizzle, with ABS and NEG applied to it as its format reads it (R25,
R203). -/
theorem indexElem_eq (o : VMOps) (h : Hart) (e : Nat) (k : BitVec 5) (m : Mods) (hb : o.b = .v k m) :
    indexElem o h e = BitVec.ofInt 32 (absNeg m (if o.si then (swz m.swz (h.rv k.toNat e)).toInt
      else ((swz m.swz (h.rv k.toNat e)).toNat : Int))) := by
  unfold indexElem
  rw [hb]
  have hr (f : Fmt) (hf : f = .i32 ∨ f = .n32) :
      rawElem f m false (.vec (tget [] h.v k.toNat)) e = (swz m.swz (h.rv k.toNat e)).toNat := by
    rcases hf with rfl | rfl <;> simp [rawElem, VSrc.container, Fmt.pack, Fmt.width, Hart.rv, Nat.mod_one] <;> exact BitVec.isLt _
  have hm (f : Fmt) (hf : f.isFloat = false) (hw : f.width = 32) :
      BitVec.ofNat 32 (moveElem f m (.vec (tget [] h.v k.toNat)) e)
        = BitVec.ofInt 32 (absNeg m (fmtRead f (rawElem f m false (.vec (tget [] h.v k.toNat)) e))) := by
    unfold moveElem intElem fitTo
    rw [hf, hw]
    simp only [Bool.false_eq_true, if_false]
    rw [ofNat_wrapNat, ← hw, ofInt_wrapTo]
  cases hs : o.si
  · simp only [Bool.false_eq_true, if_false]
    rw [hm .n32 rfl rfl, hr .n32 (.inr rfl)]
    simp only [fmtRead, Fmt.signed, Bool.false_eq_true, if_false, Fmt.width]
    rw [Nat.mod_eq_of_lt (BitVec.isLt _)]
  · simp only [if_true]
    rw [hm .i32 rfl rfl, hr .i32 (.inl rfl), fmtRead_i32]

end Sys2Proof.Machine
end

