-- ==== Sys2Proof/Tests/Slice0.lean ====
section
/-! SUPPORT. Tests: ill-formed terms that WellFormed refuses, words written out from the spec's encodings, single steps
on small states, and for every statement with hypotheses a witness that meets them. -/

namespace Sys2Proof.Tests

open Sys2Proof.Machine Sys2Proof.Safety

-- one proof after the other: each waits for the kernel, and many at once would need a thread each
set_option Elab.async false

/-! ## Small states -/

/-- No guard and no hint. -/
def c0 : Ctl := ⟨false, 0, 0, false⟩
/-- A scalar register operand without modifiers. -/
def sr (n : BitVec 6) : Operand := .s n Mods.none
/-- A vector register operand without modifiers. -/
def vr (n : BitVec 5) : Operand := .v n Mods.none
/-- X without any field. -/
def x0 : VX := ⟨false, 0, false, 0, 0, false, 0⟩
/-- X with mask m1. -/
def x1 : VX := { x0 with msk := true, mn := 1 }

/-- A running hart of partition 0: s1 = 0x10000, s2 = 7, s3 = -1, v1 = (1, 2, 3, 4), vl = 4, m1 with elements 0 and 2. -/
def hart0 : Hart := { Hart.reset with
  run := .running
  pc := 0x20000
  s := [(1, 0x10000), (2, 7), (3, BitVec.allOnes 64)]
  v := [(1, [(0, 1), (1, 2), (2, 3), (3, 4)])]
  m := [(1, [(0, 0xFF), (2, 0xFF)])]
  vl := 4 }

/-- The package with that hart on hart slot 0, which holds lane group 0; its page 0x10000 is frame 1, tracked, writable
and executable at user level. -/
def st0 : State := { State.reset with
  hart := hart0
  cores := [(0, { Core.reset with lat := [(0, 1)] })]
  tlb := [⟨.core 0, 0, 0x10000, 0x10000, 0x10000, true, true, 2⟩]
  owners := [(1, 0x0100)]
  mem := [⟨0x10000, 0x34⟩, ⟨0x10001, 0x92⟩] }

/-- st0 with a changed hart. -/
def stH (f : Hart → Hart) : State := { st0 with hart := f hart0 }
/-- st0 with a changed package. -/
def stP (f : Pkg → Pkg) : State := { st0 with pkg := f Pkg.reset }
/-- st0 in which the hart holds tile slot 0 too. -/
def stT : State := { st0 with cores := [(0, { Core.reset with
  lat := [(0, 1)], tiles := [(0, { Tile.reset with holder := some (hart0.key 0) })] })] }

/-- What a next state holds. -/
def after (o : Out) (p : State → Bool) : Bool := match o with | .next t => p t | _ => false
/-- A check that passed. -/
def okOf {α β : Type} (x : Except α β) : Bool := match x with | .ok _ => true | _ => false
/-- A check that passed has an answer. -/
theorem okOf_ok {α β : Type} {x : Except α β} (h : okOf x = true) : ∃ y, x = .ok y := by
  cases x with
  | error e => cases h
  | ok y => exact ⟨y, rfl⟩
/-- A check that passed with an answer of which p holds. -/
def okThen {α β : Type} (x : Except α β) (p : β → Bool) : Bool := match x with | .ok y => p y | _ => false
/-- It has that answer. -/
theorem okThen_ok {α β : Type} {x : Except α β} {p : β → Bool} (h : okThen x p = true) : ∃ y, x = .ok y ∧ p y = true := by
  cases x with
  | error e => cases h
  | ok y => exact ⟨y, rfl, h⟩
/-- Checks that all passed have their answers. -/
theorem okOf_all {n : Nat} {f : Nat → Except Trap Acc} (h : ∀ e < n, okOf (f e) = true) :
    ∃ acc : Nat → Acc, ∀ e < n, f e = .ok (acc e) := by
  refine ⟨fun e => match f e with | .ok a => a | .error _ => ⟨[], []⟩, fun e he => ?_⟩
  obtain ⟨a, ha⟩ := okOf_ok (h e he)
  simp only [ha]
/-- A step that answered a next state has one. -/
theorem after_next {o : Out} {p : State → Bool} (h : after o p = true) : ∃ t, o = .next t ∧ p t = true := by
  cases o with
  | next t => exact ⟨t, rfl, h⟩
  | fault f => cases h
  | refused r => cases h

/-! ## Ill-formed terms (one for each check of WellFormed) -/

theorem test_wf_good : (Instr.add c0 ⟨.i64, true, sr 3, sr 4, .immW 5⟩).wf = true := by decide +kernel
theorem test_wf_event : (Instr.coldReset).wf = false := by decide +kernel
theorem test_wf_guard : (Instr.nop ⟨true, 0, 0, false⟩).wf = false := by decide +kernel
theorem test_wf_hintbit : (Instr.nop ⟨false, 0, 0, true⟩).wf = false := by decide +kernel
theorem test_wf_disp : (Instr.br c0 2).wf = false := by decide +kernel
theorem test_wf_rel : (Instr.bc c0 .eq true 1 (sr 2) 0).wf = false := by decide +kernel
theorem test_wf_bc_imm32 : (Instr.bc c0 .lt false 1 (.immW 2) 0).wf = false := by decide +kernel
theorem test_wf_dbnz_s0 : (Instr.dbnz c0 0 12).wf = false := by decide +kernel
theorem test_wf_ifpf_level : (Instr.ifpf c0 0 ⟨1, 0⟩ (sr 2)).wf = false := by decide +kernel
theorem test_wf_scalar_fmt : (Instr.add c0 ⟨.f32, false, sr 3, sr 4, sr 5⟩).wf = false := by decide +kernel
theorem test_wf_scalar_sat : (Instr.and c0 ⟨.i32, true, sr 3, sr 4, sr 5⟩).wf = false := by decide +kernel
theorem test_wf_scalar_neg : (Instr.add c0 ⟨.n32, false, sr 3, .s 4 ⟨false, 0, true, false⟩, sr 5⟩).wf = false := by decide +kernel
theorem test_wf_dest_mods : (Instr.add c0 ⟨.i32, false, .s 3 ⟨false, 1, false, false⟩, sr 4, sr 5⟩).wf = false := by decide +kernel
theorem test_wf_dest_imm : (Instr.add c0 ⟨.i32, false, .imm 3, sr 4, sr 5⟩).wf = false := by decide +kernel
theorem test_wf_count_b : (Instr.clz c0 ⟨.i32, false, sr 3, sr 4, sr 5⟩).wf = false := by decide +kernel
theorem test_wf_field_width : (Instr.bfx c0 ⟨.i32, false, sr 3, sr 4, .none⟩ 20 12).wf = false := by decide +kernel
theorem test_wf_zext_signed : (Instr.zext c0 ⟨.i8, false, sr 3, sr 4, .none⟩).wf = false := by decide +kernel
theorem test_wf_li_reg : (Instr.li c0 (sr 1) (sr 2)).wf = false := by decide +kernel
theorem test_wf_sr_unassigned : (Instr.getsr c0 (sr 1) 0x005).wf = false := by decide +kernel
theorem test_wf_sr_readonly : (Instr.putsr c0 0x00A (sr 1)).wf = false := by decide +kernel
theorem test_wf_ld_fmt : (Instr.ld c0 .f32 (sr 1) 2 (.imm 0)).wf = false := by decide +kernel
theorem test_wf_mask_field : (Instr.vadd c0 ⟨.i32, false, vr 1, vr 2, vr 3, { x0 with mn := 1 }⟩).wf = false := by decide +kernel
theorem test_wf_round_code : (Instr.vfadd c0 ⟨.f32, false, vr 1, vr 2, vr 3, { x0 with rm := 5 }⟩).wf = false := by decide +kernel
theorem test_wf_wd_scalar : (Instr.vmul c0 ⟨.i32, false, vr 1, vr 2, sr 3, { x0 with wd := true }⟩).wf = false := by decide +kernel
theorem test_wf_vmadd_queue : (Instr.vmadd c0 ⟨.i32, false, .q 8, vr 2, vr 3, x0⟩).wf = false := by decide +kernel
theorem test_wf_vector_fmt : (Instr.vadd c0 ⟨.f32, false, vr 1, vr 2, vr 3, x0⟩).wf = false := by decide +kernel
theorem test_wf_vcmp_dest : (Instr.vcmp c0 ⟨.i32, false, .pm 1, vr 2, vr 3, x0⟩).wf = false := by decide +kernel
theorem test_wf_vsel_mask : (Instr.vsel c0 ⟨.i32, false, vr 1, vr 2, vr 3, x0⟩).wf = false := by decide +kernel
theorem test_wf_vxch_sel : (Instr.vxch c0 ⟨.i32, false, vr 1, vr 2, .none, { x0 with sel := 13 }⟩).wf = false := by decide +kernel
theorem test_wf_vred_op : (Instr.vred c0 ⟨.f32, false, sr 1, vr 2, .none, { x0 with sel := 3 }⟩).wf = false := by decide +kernel
theorem test_wf_cvt_pair : (Instr.vcvt c0 ⟨.i16x2, false, vr 1, vr 2, .none, { x0 with aux := 2 }⟩).wf = false := by decide +kernel
theorem test_wf_vst_mz : (Instr.vst c0 ⟨.i32, 1, 0, ⟨2, 0⟩, sr 3, true, 1, true, false, false⟩).wf = false := by decide +kernel
theorem test_wf_vld_scale : (Instr.vld c0 ⟨.i32, 1, 0, ⟨2, 0⟩, sr 3, false, 0, false, true, false⟩).wf = false := by decide +kernel
theorem test_wf_vbind_scale : (Instr.vbind c0 .i32 true false 0 ⟨1, 0⟩).wf = false := by decide +kernel
theorem test_wf_setts_fmt : (Instr.setts c0 .i32 (sr 1) (sr 2) (sr 3)).wf = false := by decide +kernel
theorem test_wf_mma_vq2 : (Instr.mma c0 .vq2 0 1 (sr 2) 0).wf = false := by decide +kernel
theorem test_wf_amo_cas : (Instr.amo c0 7 .device .i64 (.q 1) 2 (sr 3) 0).wf = false := by decide +kernel
theorem test_wf_vamo_op : (Instr.vamo c0 6 .device .i32 1 2 3 false 0 false false).wf = false := by decide +kernel
theorem test_wf_lprec_len : (Instr.lprec c0 5 none 0 0 0 0 0 0 0).wf = false := by decide +kernel
theorem test_wf_farm_s0 : (Instr.farmNext c0 0 1 2).wf = false := by decide +kernel
theorem test_wf_brk_imm32 : (Instr.brk c0 (.immW 1)).wf = false := by decide +kernel

/-! ## Words from the spec's encodings (R17, R22, R23, R27, R28, and the tables of each instruction) -/

/-- nop: OP 0x00, FN 0x00, D, A and B class 111 (R33). -/
theorem test_decode_nop : decode (0x00#8 ++ 0#6 ++ 0#4 ++ 0#6 ++ 0x38000#18 ++ 0x38000#18 ++ 0x38000#18 ++ 0#18)
    = .ok (.nop c0) := by decide +kernel
/-- The word of all zeros has D of class 000, so it is no nop (R33, R35). -/
theorem test_decode_zero : okOf (decode 0) = false := by decide +kernel
/-- br with displacement -12: B is class 110 with W = 1 and bits 31:18, X bits 17:0 (R27, R87). -/
theorem test_decode_br : decode (0x01#8 ++ 0#6 ++ 0#4 ++ 0#6 ++ 0x38000#18 ++ 0x38000#18 ++ 6#3 ++ 1#1 ++ 0x3FFF#14 ++ 0x3FFF4#18)
    = .ok (.br c0 (BitVec.ofInt 32 (-12))) := by decide +kernel
/-- li s7, 100000: OP 0x28, D class 000, B class 110 with W = 1 (R27, R81). -/
theorem test_decode_li : decode (0x28#8 ++ 0#6 ++ 0#4 ++ 0#6 ++ 0#3 ++ 7#6 ++ 0#9 ++ 0x38000#18 ++ 6#3 ++ 1#1 ++ 0#14 ++ 100000#18)
    = .ok (.li c0 (sr 7) (.immW 100000)) := by decide +kernel
/-- getsr s9, fflags: OP 0x2F, FN 0x00, index 0x003 in X (R92). -/
theorem test_decode_getsr : decode (0x2F#8 ++ 0#6 ++ 0#4 ++ 0#6 ++ 0#3 ++ 9#6 ++ 0#9 ++ 0x38000#18 ++ 0x38000#18 ++ 0x003#18)
    = .ok (.getsr c0 (sr 9) 0x003) := by decide +kernel
/-- vdot.f32 s3, v4, v5: OP 0x87 (R126). -/
theorem test_decode_vdot : decode (0x87#8 ++ 0x08#6 ++ 0#4 ++ 0#6 ++ 0#3 ++ 3#6 ++ 0#9 ++ 1#3 ++ 0#1 ++ 4#5 ++ 0#9
      ++ 1#3 ++ 0#1 ++ 5#5 ++ 0#9 ++ 0#18)
    = .ok (.vdot c0 ⟨.f32, false, sr 3, vr 4, vr 5, x0⟩) := by decide +kernel
/-- setvl.i32 s5, s6: OP 0xD0 (R165). -/
theorem test_decode_setvl : decode (0xD0#8 ++ 0x02#6 ++ 0#4 ++ 0#6 ++ 0#3 ++ 5#6 ++ 0#9 ++ 0x38000#18 ++ 0#3 ++ 6#6 ++ 0#9 ++ 0#18)
    = .ok (.setvl c0 .i32 (sr 5) (sr 6)) := by decide +kernel
/-- halt: OP 0xE3, every operand class 111 (R403). -/
theorem test_decode_halt : decode (0xE3#8 ++ 0#6 ++ 0#4 ++ 0#6 ++ 0x38000#18 ++ 0x38000#18 ++ 0x38000#18 ++ 0#18)
    = .ok (.halt c0) := by decide +kernel
/-- tsc s8: OP 0xE7 (R421). -/
theorem test_decode_tsc : decode (0xE7#8 ++ 0#6 ++ 0#4 ++ 0#6 ++ 0#3 ++ 8#6 ++ 0#9 ++ 0x38000#18 ++ 0x38000#18 ++ 0#18)
    = .ok (.tsc c0 (sr 8)) := by decide +kernel
/-- An operand number out of its class is illegal: v32 (R23, R35). -/
theorem test_decode_v32 : okOf (decode (0x40#8 ++ 2#6 ++ 0#4 ++ 0#6 ++ 1#3 ++ 32#6 ++ 0#9 ++ 1#3 ++ 0#6 ++ 0#9
      ++ 1#3 ++ 0#6 ++ 0#9 ++ 0#18)) = false := by decide +kernel
/-- The bytes of a word lie with the lowest first (R14): the example of 03_scalar_instructions.md. -/
theorem test_decode_bytes : (decodeBytes [0xDC, 0xFF, 0x03, 0x28, 0x00, 0x80, 0xC0, 0xFF, 0xFF, 0x00, 0x40, 0x03]) =
    .ok (.bc c0 .lt false 4 (sr 5) (BitVec.ofInt 36 (-36)), []) := by decide +kernel
/-- vld.f32 v5, [s4 + s6], m1: OP 0x90 (R202, R203). -/
theorem test_decode_vld : decode (0x90#8 ++ 0x08#6 ++ 0#4 ++ 0#6 ++ 1#3 ++ 0#1 ++ 5#5 ++ 0#9 ++ 0#3 ++ 4#6 ++ 0#9
      ++ 0#3 ++ 6#6 ++ 0#9 ++ 1#1 ++ 1#3 ++ 0#14)
    = .ok (.vld c0 ⟨.f32, 5, 0, ⟨4, 0⟩, sr 6, true, 1, false, false, false⟩) := by decide +kernel
/-- vfadd.f16.rup v1, v2, v3: OP 0x60, RM in X[12:10] (R53, R108, R119). -/
theorem test_decode_vfadd : decode (0x60#8 ++ 0x09#6 ++ 0#4 ++ 0#6 ++ 1#3 ++ 0#1 ++ 1#5 ++ 0#9 ++ 1#3 ++ 0#1 ++ 2#5 ++ 0#9
      ++ 1#3 ++ 0#1 ++ 3#5 ++ 0#9 ++ 0#5 ++ 2#3 ++ 0#10)
    = .ok (.vfadd c0 ⟨.f16, false, vr 1, vr 2, vr 3, { x0 with rm := 2 }⟩) := by decide +kernel
/-- mand m1, m2, m3: OP 0x8B, FN 0, class 011 with numbers 8 to 15 (R132). -/
theorem test_decode_mand : decode (0x8B#8 ++ 0#6 ++ 0#4 ++ 0#6 ++ 3#3 ++ 9#6 ++ 0#9 ++ 3#3 ++ 10#6 ++ 0#9 ++ 3#3 ++ 11#6 ++ 0#9
      ++ 0#18) = .ok (.mand c0 1 2 3) := by decide +kernel
/-- mzero a2: OP 0xA4, D class 100 (R151). -/
theorem test_decode_mzero : decode (0xA4#8 ++ 0#6 ++ 0#4 ++ 0#6 ++ 4#3 ++ 2#6 ++ 0#9 ++ 0x38000#18 ++ 0x38000#18 ++ 0#18)
    = .ok (.mzero c0 2) := by decide +kernel
/-- sem.clr 5: OP 0xB8, A a 14-bit immediate (R265). -/
theorem test_decode_semclr : decode (0xB8#8 ++ 0#6 ++ 0#4 ++ 0#6 ++ 0x38000#18 ++ 6#3 ++ 0#1 ++ 5#14 ++ 0x38000#18 ++ 0#18)
    = .ok (.semClr c0 (.imm 5)) := by decide +kernel
/-- pop s3, res2: OP 0xC1, A class 101, number 10 (R280). -/
theorem test_decode_pop : decode (0xC1#8 ++ 0#6 ++ 0#4 ++ 0#6 ++ 0#3 ++ 3#6 ++ 0#9 ++ 5#3 ++ 10#6 ++ 0#9 ++ 0x38000#18 ++ 0#18)
    = .ok (.pop c0 (sr 3) 2) := by decide +kernel

/-! ## Single steps -/

/-- 14 + 14 in i8 stays; -100 - 100 saturates to -128 with .s (R43, R76). -/
theorem test_add_sat : after (exec (.add c0 ⟨.i8, true, sr 4, .imm 0x3F9C, .imm 0x3F9C⟩) st0) (fun t =>
    decide (t.hart.rs 4 = BitVec.ofInt 64 (-128)) && decide (t.hart.fflags = 0x20)) = true := by decide +kernel
/-- A zero divisor gives all ones and no flag (R44). -/
theorem test_div_zero : after (exec (.div c0 ⟨.n32, false, sr 4, sr 2, sr 0⟩) st0) (fun t =>
    decide (t.hart.rs 4 = 0xFFFFFFFF) && decide (t.hart.fflags = 0)) = true := by decide +kernel
/-- A shift by the width or more shifts every bit out (R77). -/
theorem test_shl_width : after (exec (.shl c0 ⟨.i32, false, sr 4, sr 2, .imm 32⟩) st0) (fun t =>
    decide (t.hart.rs 4 = 0)) = true := by decide +kernel
/-- A write to s0 is discarded, and the program counter advances (R71). -/
theorem test_write_s0 : after (exec (.li c0 (sr 0) (.imm 5)) st0) (fun t =>
    decide (t.hart.rs 0 = 0) && decide (t.hart.pc = 0x2000C)) = true := by decide +kernel
/-- cmp.lt.n p2, s2, -1 is true, since the immediate is sign-extended first (R83). -/
theorem test_cmp_nat : after (exec (.cmp c0 .lt true 2 2 (.imm 0x3FFF)) st0) (fun t => t.hart.rp 2) = true := by
  decide +kernel
/-- jcall s1, s1 goes to the old s1 (R90). -/
theorem test_jcall_same : after (exec (.jcall c0 1 ⟨1, 0⟩) st0) (fun t =>
    decide (t.hart.pc = 0x10000) && decide (t.hart.rs 1 = 0x2000C)) = true := by decide +kernel
/-- A target with bits 1:0 nonzero raises Misaligned Target, code 0x06 of R395, with tval A, and writes no link (R90). -/
theorem test_jcall_misaligned : after (exec (.jcall c0 4 ⟨2, 0⟩) st0) (fun t =>
    decide (t.hart.tval = 7) && decide (t.hart.rs 4 = 0) && decide (t.hart.tpc = 0x20000)) = true := by decide +kernel
/-- dbnz with a count of 0 wraps and branches (R89). -/
theorem test_dbnz_wraps : after (exec (.dbnz c0 4 24) st0) (fun t =>
    decide (t.hart.pc = 0x20018) && decide (t.hart.rs 4 = BitVec.allOnes 64)) = true := by decide +kernel
/-- ld.i16 sign-extends the bytes 34 92, lowest first (R7, R199). -/
theorem test_ld_sign : after (exec (.ld c0 .i16 (sr 4) 1 (.imm 0)) st0) (fun t =>
    decide (t.hart.rs 4 = 0xFFFFFFFFFFFF9234)) = true := by decide +kernel
/-- st.i16 stores the two low bytes, and no more (R199). -/
theorem test_st_low : after (exec (.st c0 .i16 (sr 2) 1 (.imm 2)) st0) (fun t =>
    decide (t.rawByte 0x10002 = 7) && decide (t.rawByte 0x10003 = 0) && decide (t.rawByte 0x10001 = 0x92)) = true := by
  decide +kernel
/-- A masked vadd with MZ clears the inactive elements (R110). -/
theorem test_vadd_masked : after (exec (.vadd c0 ⟨.i32, false, vr 1, vr 1, vr 1, { x1 with mz := true }⟩) st0) (fun t =>
    decide ((List.range 5).map (t.hart.rv 1) = [2, 0, 6, 0, 0])) = true := by decide +kernel
/-- vred.i32 s4, v1 sums 1 to 4 (R124). -/
theorem test_vred_sum : after (exec (.vred c0 ⟨.i32, false, sr 4, vr 1, .none, x0⟩) st0) (fun t =>
    decide (t.hart.rs 4 = 10)) = true := by decide +kernel
/-- vxch with distance 1 swaps neighbours (R123). -/
theorem test_vxch : after (exec (.vxch c0 ⟨.i32, false, vr 2, vr 1, .none, x0⟩) st0) (fun t =>
    decide ((List.range 4).map (t.hart.rv 2) = [2, 1, 4, 3])) = true := by decide +kernel
/-- 1.0 / 3.0 rounds to 0x3EAAAAAB and is inexact (R53, R119). -/
theorem test_vfdiv : after (exec (.vfdiv c0 ⟨.f32, false, vr 3, vr 1, vr 2, x0⟩)
    (stH fun h => { h with v := [(1, [(0, 0x3F800000)]), (2, [(0, 0x40400000)])], vl := 1, rm := 0 })) (fun t =>
    decide (t.hart.rv 3 0 = 0x3EAAAAAB) && decide (t.hart.fflags = 1)) = true := by decide +kernel
/-- amo.add delivers the old value and stores the sum (R252). -/
theorem test_amo : after (exec (.amo c0 0 .device .n32 (sr 4) 1 (sr 2) 0) st0) (fun t =>
    decide (t.hart.rs 4 = 0x9234) && decide (t.rawByte 0x10000 = 0x3B)) = true := by decide +kernel
/-- ecall returns to the next instruction, and its handler runs at supervisor level (R397, R401). -/
theorem test_ecall : after (exec (.ecall c0 (.imm 9)) st0) (fun t =>
    decide (t.hart.tCause = 0x1B) && decide (t.hart.tspc = 0x2000C) && decide (t.hart.level = .supervisor)) = true := by
  decide +kernel
/-- A word that is no instruction traps when a step meets it, with bits 95:32 in tval (R36). -/
theorem test_step_illegal : after (step (st0.withFetchWord 96 0x0B0000000000000100000002)) (fun t =>
    decide (t.hart.tCause = 1) && decide (t.hart.tval = 0x0B00000000000001)) = true := by decide +kernel
/-- A step from reset runs a placed instruction. -/
theorem test_step_placed : after (step (State.reset.withFetchWord 96 0x100ED4018000800028C00000)) (fun t =>
    decide (t.hart.pc = 12)) = true := by decide +kernel

/-! ## Witnesses: every hypothesis of a statement can be met, with the others of its clause -/

/-- DecodeEncode, DecodeStrict. -/
theorem test_wit_encoding : (Instr.nop c0).wf = true ∧ decode 0x00FC00E00038000E00000000 = .ok (.pad c0) :=
  ⟨by decide +kernel, by decide +kernel⟩
/-- ScalarArithmetic, ScalarLogic, ScalarDivision with a divisor that is not 0, ScalarShifts with an amount of the width. -/
theorem test_wit_scalar : st0.hart.guard c0 = true ∧ Sources (sr 1) (sr 2) st0.hart 0x10000 7 st0.hart ∧
    Room (sr 4) st0.hart ∧ Fmt.i8.scalar = true ∧ (opnd .i8 false Mods.none 7).1 ≠ 0 ∧
    Sources (sr 1) (.imm 8) st0.hart 0x10000 8 st0.hart :=
  ⟨by decide, ⟨hart0, by decide +kernel, by decide +kernel⟩, (fun _ h => nomatch h), by decide, by decide,
    ⟨hart0, by decide +kernel, by decide +kernel⟩⟩
/-- The same from queues, whose heads are read A first, and with a full queue's last place as the destination; a zero
divisor for ScalarDivision. -/
theorem test_wit_scalar_queue :
    let h : Hart := { hart0 with qs := [(0, [5, 0])] }
    h.guard c0 = true ∧ Sources (.q 0) (.q 0) h 5 0 { hart0 with qs := [] } ∧ Room (.q 1) h ∧
      (opnd .i8 false Mods.none 0).1 = 0 :=
  ⟨by decide, ⟨{ hart0 with qs := [(0, [0])] }, by decide +kernel, by decide +kernel⟩,
    (fun n h => by cases h; decide +kernel), by decide⟩
/-- CountsAndFields: a zero pattern, one that is not zero, and the longest fields of bfx and bfi. -/
theorem test_wit_counts :
    let o : SOps := ⟨.i32, false, sr 4, sr 1, .none⟩
    o.b = .none ∧ st0.hart.guard c0 = true ∧ takeS o.a st0.hart = some (0x10000, hart0) ∧ Room o.d hart0 ∧
      pattern o 0 = 0 ∧ pattern o 0x10000 ≠ 0 ∧ (Instr.bfx c0 o 0 31).wf = true ∧ (Instr.bfi c0 o 31 0).wf = true ∧
      (Instr.sext c0 o).wf = true ∧ (Instr.zext c0 { o with fmt := .n32 }).wf = true :=
  ⟨rfl, by decide, by decide +kernel, (fun _ h => nomatch h), by decide, by decide, by decide +kernel, by decide +kernel,
    by decide +kernel, by decide +kernel⟩
/-- Moves, Predicates. -/
theorem test_wit_moves : st0.hart.guard c0 = true ∧ takeS (.imm 5) st0.hart = some (5, hart0) ∧ Room (sr 4) hart0 ∧
    Sources (sr 1) (sr 2) st0.hart 0x10000 7 st0.hart :=
  ⟨by decide, by decide +kernel, (fun _ h => nomatch h), ⟨hart0, by decide +kernel, by decide +kernel⟩⟩
/-- Transfers: an aligned target and one that is not, dbnz at its last pass and before it. -/
theorem test_wit_transfers : st0.hart.guard c0 = true ∧ takeS (.imm 5) st0.hart = some (5, hart0) ∧ (4 : BitVec 6) ≠ 0 ∧
    (st0.hart.rs 1).toNat % 4 = 0 ∧ (st0.hart.rs 2).toNat % 4 ≠ 0 ∧
    (stH fun h => { h with s := [(4, 1)] }).hart.rs 4 = 1 ∧ st0.hart.rs 2 ≠ 1 :=
  ⟨by decide, by decide +kernel, by decide, by decide +kernel, by decide +kernel, by decide +kernel, by decide +kernel⟩
/-- GuardedOff. -/
theorem test_wit_guard :
    let c : Ctl := ⟨false, 1, 0, false⟩
    let o : SOps := ⟨.i64, false, sr 3, sr 4, sr 5⟩
    (Instr.add c o).ctl? = some c ∧ (Instr.add c o).wf = true ∧ st0.hart.guard c = false ∧ ∀ c', Instr.add c o ≠ .pad c' :=
  ⟨by decide +kernel, by decide +kernel, by decide +kernel, fun _ h => nomatch h⟩
/-- ScalarLoads: an unaligned load, and an acquiring one. -/
theorem test_wit_loads : st0.hart.guard c0 = true ∧ takeS (.imm 1) st0.hart = some (1, hart0) ∧
    (∃ acc, st0.check st0.agent ⟨0x10001, 8, .load, false, false⟩ = .ok acc) ∧
    (∃ acc, st0.check st0.agent ⟨0x10000, 8, .load, false, true⟩ = .ok acc) ∧
    ∀ cid acc, Room (sr 4) (st0.loadAt cid acc).2.hart :=
  ⟨by decide, by decide +kernel, okOf_ok (by decide +kernel), okOf_ok (by decide +kernel), fun _ _ _ h => nomatch h⟩
/-- ScalarStores: an access that passes, and one that fails its translation. -/
theorem test_wit_stores : st0.hart.guard c0 = true ∧ takeS (.imm 0) st0.hart = some (0, hart0) ∧
    takeS (sr 2) hart0 = some (7, hart0) ∧
    (∃ acc, st0.check st0.agent ⟨0x10000, 8, .store, false, true⟩ = .ok acc ∧
      decide (st0.logFull (State.recordAddrs acc) = none) = true) ∧
    st0.check st0.agent ⟨7, 8, .store, false, false⟩ = .error ⟨.translation, 7⟩ :=
  ⟨by decide, by decide +kernel, by decide +kernel, okThen_ok (by decide +kernel),
    by decide +kernel⟩
/-- TrapEntry, from user and from management level. -/
theorem test_wit_trap : st0.terminal ⟨.service, 0⟩ = false ∧ st0.elasticTrap ⟨.service, 0⟩ = false ∧
    (stH fun h => { h with level := .management }).terminal ⟨.service, 0⟩ = false := by decide +kernel
/-- SystemCalls, IllegalInstruction. -/
theorem test_wit_calls : st0.hart.guard c0 = true ∧ takeS (.imm 9) st0.hart = some (9, hart0) ∧ st0.hart.inh = false ∧
    st0.hart.dAct = false ∧ st0.hart.fj = false := ⟨by decide, by decide +kernel, rfl, rfl, rfl⟩
/-- TrapReturn: user level; outside a handler; in a handler above user level. -/
theorem test_wit_tret : st0.hart.level = .user ∧ st0.hart.inh = false ∧
    let s := stH fun h => { h with level := .supervisor, inh := true }
    s.hart.guard c0 = true ∧ s.hart.level ≠ .user ∧ s.hart.inh = true := by decide +kernel
/-- EndsAndYields: nothing outstanding; with work left behind; a yield asked for, and none. -/
theorem test_wit_ends : st0.hart.guard c0 = true ∧ st0.hart.dAct = false ∧ st0.hart.inh = false ∧ st0.quiet = true ∧
    st0.hart.yreq = false ∧ (stH fun h => { h with yreq := true }).hart.yreq = true := by decide +kernel
/-- TimeAndMarks: guest time with HIDE and without, an assigned counter and one that is none. -/
theorem test_wit_time : st0.hart.guard c0 = true ∧ Room (sr 4) st0.hart ∧ (st0.partAt 0).gtHide = false ∧
    takeS (.imm 16) st0.hart = some (16, hart0) ∧ st0.quiet = true ∧ st0.noRoom 10 = false :=
  ⟨by decide, (fun _ h => nomatch h), by decide +kernel, by decide +kernel, by decide +kernel, by decide +kernel⟩
/-- StepRunsDecoded: a placed instruction, and a word that is none; hart 0 runs neither a nest nor a doff routine. -/
def placed (w : Nat) : State := st0.withFetchWord 96 w
theorem test_wit_step :
    let s := placed 0x100ED4018000800028C00000
    s.schedule = [] ∧ s.pkg.quiesced = false ∧ s.hart.run = .running ∧ zoneStopped s = false ∧ boundary s = none ∧
      s.vectorStep = none ∧ s.hart.waiting = none ∧
      (∃ r, s.fetch s.hart.pc = .ok r ∧ (decide (r.2.countDoff.1 = false) && !r.2.hart.inNest r.2.hart.pc &&
        decide (r.2.hart.dAct = false) && okThen (decode (BitVec.ofNat 96 (leNat r.1))) fun i =>
          !mustWait i r.2 && !nestFault i r.2 && after (exec i r.2) fun _ => true) = true) ∧
      (∃ r, (placed 0).fetch (placed 0).hart.pc = .ok r ∧ (!okOf (decode (BitVec.ofNat 96 (leNat r.1)))) = true) :=
  ⟨by decide +kernel, by decide +kernel, by decide +kernel, by decide +kernel, by decide +kernel, by decide +kernel,
    by decide +kernel, okThen_ok (by decide +kernel), okThen_ok (by decide +kernel)⟩
/-- StepRunsDecoded: a halt in the body of a nest. -/
theorem test_wit_step_nest :
    let s := (placed 0xE30000E00038000E00000000).onH fun h => { h with zloop := some ⟨[], [], [], [], [], 0, 0xFFFFFFF⟩ }
    (boundary s = none ∧ s.vectorStep = none) ∧ ∃ r, s.fetch s.hart.pc = .ok r ∧ (decide (r.2.countDoff.1 = false) &&
      okThen (decode (BitVec.ofNat 96 (leNat r.1))) fun i => !mustWait i r.2 && nestFault i r.2) = true :=
  ⟨⟨by decide +kernel, by decide +kernel⟩, okThen_ok (by decide +kernel)⟩
/-- OnlyColdResetEndsQuiescence: the quiesced package steps by a cold reset, by a read of the host, and by time. -/
theorem test_wit_quiesced :
    let s (t : Turn) : State := { stP (fun p => { p with quiesced := true }) with schedule := [t] }
    (∀ t, (s t).pkg.quiesced = true) ∧ (∃ t, step (s (.event .coldReset)) = .next t ∧ (!t.pkg.quiesced) = true) ∧
      (∃ t, step (s (.event (.hostLinkAccess false 0 [0]))) = .next t ∧ t.pkg.quiesced = true) :=
  ⟨fun _ => rfl, after_next (by decide +kernel), after_next (by decide +kernel)⟩
/-- MemoryFormKept, MemoryIsItsReads. -/
theorem test_wit_memory : MemoryForm st0 ∧ (∃ t, step (placed 0x100ED4018000800028C00000) = .next t ∧
      Memory.wf t.mem = true) ∧ MemoryForm (placed 0x100ED4018000800028C00000) ∧ st0.pkg.migFwd = false :=
  ⟨by unfold MemoryForm; decide +kernel, after_next (p := fun t => Memory.wf t.mem) (by decide +kernel),
    by unfold MemoryForm; decide +kernel, rfl⟩
/-- AccessChecks: an access that meets each check, and one that fails each alone. -/
theorem test_wit_checks :
    let q : Req := ⟨0x10000, 8, .load, false, true⟩
    let leaf (attr : BitVec 2) (u : Bool) (pa : Nat) : State := { st0 with tlb := [⟨.core 0, 0, 0x10000, 0x10000, pa, u, true, attr⟩] }
    let a : Agent := st0.agent
    0 < q.n ∧ q.va.toNat % 4096 + q.n ≤ 4096 ∧ (st0.partAt a.pid).cwEn = false ∧ okOf (st0.check a q) = true ∧
      st0.check a { q with va := 1 <<< 57 } = .error ⟨.translation, 1 <<< 57⟩ ∧
      st0.check a { q with va := 0x10004 } = .error ⟨.misaligned, 0x10004⟩ ∧
      st0.check { a with ranges := some [] } q = .error ⟨.range, 0x10000⟩ ∧
      (st0.lookup a.cache a.pid 0x30000).1 = .invalid ∧ st0.check a { q with va := 0x30000 } = .error ⟨.translation, 0x30000⟩ ∧
      ({ st0 with parts := [(0, { Part.reset with ptroot := 2 ^ 28 })] } : State).check a { q with va := 0x30000 }
        = .error ⟨.protection, 0x30000⟩ ∧
      (leaf 2 false 0x10000).check a q = .error ⟨.protection, 0x10000⟩ ∧
      (leaf 1 true 0x10000).check a { q with kind := .store } = .error ⟨.protection, 0x10000⟩ ∧
      (leaf 2 true 0x20000).check a q = .error ⟨.protection, 0x10000⟩ ∧
      (leaf 2 true (2 ^ 51)).check a q = .error ⟨.remote, 0x10000⟩ ∧
      ({ st0 with poison := [0x10000 / 128] } : State).check a q = .error ⟨.dataError, 0x10000⟩ := by
  decide +kernel

/-- Issues: the vector instructions. -/
theorem test_wit_issues : Issues c0 st0 := ⟨by decide +kernel, by decide +kernel, by decide +kernel⟩
/-- VectorInteger, VectorFloat, VectorPermutes, VectorReductions, VectorConversions over a register and a scalar, with
elements in range. -/
theorem test_wit_vsources :
    let i : Instr := .vadd c0 ⟨.i32, false, vr 2, vr 1, sr 2, x0⟩
    Fmt.i32.vector = true ∧ st0.hart.vstart = 0 ∧ namesQueue [vr 2, vr 1, sr 2] = false ∧
    VSources (vr 1) (sr 2) (st0.envOf i) st0.issued.hart (.vec [(0, 1), (1, 2), (2, 3), (3, 4)]) (.scal 7) st0.issued.hart ∧
    VRoom (vr 2) st0.issued.hart ∧ 0 < Fmt.i32.pack * st0.vlen :=
  ⟨by decide, rfl, by decide, ⟨st0.issued.hart, by rfl, by rfl⟩, trivial, by decide +kernel⟩
/-- The same from one queue entry into a queue with one place left. -/
theorem test_wit_vqueue :
    let s := stH fun h => { h with qv := [(0, [[(0, 5)]]), (1, [[], [], []])] }
    let i : Instr := .vadd c0 ⟨.i32, false, .q 9, .q 8, vr 1, x0⟩
    VSources (.q 8) (vr 1) (s.envOf i) s.issued.hart (.vec [(0, 5)]) (.vec [(0, 1), (1, 2), (2, 3), (3, 4)])
      { s.issued.hart with qv := [(1, [[], [], []])] } ∧ VRoom (.q 9) { s.issued.hart with qv := [(1, [[], [], []])] } :=
  ⟨⟨_, by rfl, by rfl⟩, by decide +kernel, fun b h => nomatch h⟩
/-- VectorMasks: a comparison into m0, and room for a count. -/
theorem test_wit_masks : (Operand.pm 8 = .pm ((0 : BitVec 4) + 8)) ∧ ((0 : BitVec 4).toNat < 8) ∧
    ({ x0 with aux := 8 } : VX).rel = some .lt ∧ st0.hart.vstart = 0 ∧ Room (sr 4) st0.hart :=
  ⟨by decide, by decide, by decide, rfl, fun _ h => nomatch h⟩
/-- VectorReductions over no element, into a register and into a queue. -/
theorem test_wit_reduce_none : Fmt.i32.pack * (stH fun h => { h with vl := 0 }).vlen = 0 ∧ (∀ k, vr 2 ≠ .q k) ∧
    Room (.q 1) st0.hart := ⟨by decide +kernel, (fun _ h => nomatch h), fun n h => by cases h; decide +kernel⟩
/-- VectorConversions: a stochastic instruction, and one that is not. -/
theorem test_wit_stochastic :
    let o : VOps := ⟨.i8, false, vr 2, vr 1, .none, { x0 with aux := 8, rm := 4 }⟩
    stochastic o st0.hart = true ∧ stochastic { o with x := { o.x with rm := 0 } } st0.hart = false := by decide +kernel
/-- VectorLoads: no active element, and one that loads. -/
theorem test_wit_vloads : LoadsOf 4 [] st0.issued [] st0.issued ∧
    ∃ bs t, LoadsOf 4 [0x10000] st0.issued bs t := by
  obtain ⟨r, hr⟩ := okOf_ok (x := st0.issued.load 0x10000 4 true true) (by decide +kernel)
  exact ⟨⟨rfl, rfl⟩, [r.1], r.2, r.1, r.2, [], hr, ⟨rfl, rfl⟩, rfl⟩
/-- VectorStores: no active element, and one that stores. -/
theorem test_wit_vstores : StoresOf (recordOf 0 st0) [] st0.issued [] st0.issued ∧
    (∃ ws t, StoresOf (recordOf 0 st0) [(0x10000, [1, 2, 3, 4])] st0.issued ws t) ∧ st0.logged = false ∧
    st0.pkg.migFwd = false := by
  obtain ⟨acc, ha, hl⟩ := okThen_ok (x := st0.issued.check st0.issued.agent ⟨0x10000, 4, .store, true, true⟩)
    (p := fun acc => decide (st0.issued.logFull (State.recordAddrs acc) = none)) (by decide +kernel)
  exact ⟨⟨rfl, rfl⟩, ⟨_, _, acc, [], ha, of_decide_eq_true hl, ⟨rfl, rfl⟩, rfl⟩, by decide +kernel, rfl⟩
/-- VectorLoads and VectorStores: an element that passes its check before one that fails it, and one whose record finds
no room. -/
theorem test_wit_vfaults :
    (∃ bs t trap, LoadsOf 4 [0x10000] st0.issued bs t ∧ t.load 0x30000 4 true true = .error trap ∧ trap.cause ≠ .held) ∧
    (∃ trap, StoresOf (recordOf 0 st0) [] st0.issued [] st0.issued ∧
      st0.issued.check st0.issued.agent ⟨0x30000, 4, .store, true, true⟩ = .error trap ∧ trap.cause ≠ .held) ∧
    let s := stH fun h => { h with lEn := true, lSz := 12, lhd := 64 }
    ∃ acc x, s.issued.check s.issued.agent ⟨0x10000, 4, .store, true, true⟩ = .ok acc ∧
      s.issued.logFull (State.recordAddrs acc) = some x := by
  obtain ⟨r, hr, hf⟩ := okThen_ok (x := st0.issued.load 0x10000 4 true true)
    (p := fun r => match r.2.load 0x30000 4 true true with | .error t => decide (t.cause ≠ .held) | _ => false)
    (by decide +kernel)
  obtain ⟨acc, ha, hl⟩ := okThen_ok
    (x := (stH fun h => { h with lEn := true, lSz := 12, lhd := 64 }).issued.check
      (stH fun h => { h with lEn := true, lSz := 12, lhd := 64 }).issued.agent ⟨0x10000, 4, .store, true, true⟩)
    (p := fun acc =>
      ((stH fun h => { h with lEn := true, lSz := 12, lhd := 64 }).issued.logFull (State.recordAddrs acc)).isSome)
    (by decide +kernel)
  obtain ⟨x, hx⟩ := Option.isSome_iff_exists.mp hl
  refine ⟨?_, ⟨⟨.translation, 0x30000⟩, ⟨rfl, rfl⟩, by decide +kernel, by decide⟩, acc, x, ha, hx⟩
  split at hf
  · rename_i t ht
    exact ⟨[r.1], r.2, t, ⟨r.1, r.2, [], hr, ⟨rfl, rfl⟩, rfl⟩, ht, of_decide_eq_true hf⟩
  · cases hf

/-- QueuesAndStreams: a load with a place left in its queue, and a store of a queue's entry. -/
theorem test_wit_queues : Issues c0 st0 ∧ st0.hart.vstart = 0 ∧ st0.hart.stream 0 = none ∧
    (∃ acc : Nat → Acc, ∀ e < st0.vlen, st0.issued.check st0.issued.agent ⟨st0.hart.rs 1 + operandOf st0.hart (.imm 8)
      + BitVec.ofNat 64 (e * fmtBytes .i32), fmtBytes .i32, .load, true, true⟩ = .ok (acc e)) ∧
    (∃ acc : Nat → Acc, ∀ e < st0.vlen, st0.issued.check st0.issued.agent ⟨st0.hart.rs 1 + operandOf st0.hart (.imm 8)
      + BitVec.ofNat 64 (e * fmtBytes .i32), fmtBytes .i32, .store, true, true⟩ = .ok (acc e)) ∧
    (st0.hart.vq 0).length < Config.vectorQueueDepth ∧ (∀ a, st0.issued.logFull [a] = none) ∧
    (stH fun h => { h with qv := [(0, [[(0, 5)]])] }).hart.vq 0 = [[(0, 5)]] :=
  ⟨test_wit_issues, rfl, rfl, okOf_all (by decide +kernel), okOf_all (by decide +kernel), by decide +kernel,
    (fun _ => by rfl), by decide +kernel⟩
/-- A load stream of one entry of two elements, unscaled or scaled. -/
def stream0 (store sc : Bool) : Stream :=
  ⟨.e4m3, store, sc, 0x10000, 1, 16, 2, 0x10100, 1, 2, 1, 0, [], none, 0x20000, 0, 0, [], .user⟩
/-- QueuesAndStreams: descriptors with count 0 and with another, and the ends of bindings. -/
theorem test_wit_bind :
    let ok (s : State) : Prop := (s.hart.rs 1).toNat % 64 = 0 ∧ s.hart.stream 0 = none ∧ s.hart.vq 0 = [] ∧
      ∃ r, s.issued.load (s.hart.rs 1) 64 true true = .ok r ∧
        ((List.range 64).all fun k => decide (k < 28) || (decide (32 ≤ k) && decide (k < 48)) ||
          decide (r.1.getD k 0 = 0)) = true
    ok { st0 with mem := [] } ∧ ok { st0 with mem := [⟨0x10018, 2⟩] } ∧
      (stH fun h => h.setStream 0 (some (stream0 false false))).hart.stream 0 = some (stream0 false false) ∧
      (stream0 true false).trap = none :=
  ⟨⟨by decide +kernel, rfl, rfl, okThen_ok (by decide +kernel)⟩, ⟨by decide +kernel, rfl, rfl, okThen_ok (by decide +kernel)⟩,
    by decide +kernel, rfl⟩
/-- QueuesAndStreams: an entry of a scaled load stream, and the last entry of a store stream. -/
theorem test_wit_stream :
    let u : State := (stH fun h => (h.setStream 0 (some (stream0 true false))).setVq 0 [[(0, 1), (1, 2)]]).focus 0
    let passes (k : Kind) : Prop := ∃ acc : Nat → Acc, ∀ e < 2, u.check { u.agent with level := .user }
      ⟨0x10000 + BitVec.ofNat 64 1 * 16 + BitVec.ofNat 64 e * 1, fmtBytes .e4m3, k, true, true⟩ = .ok (acc e)
    u.hart.stream 0 = some (stream0 true false) ∧ (stream0 true false).done + 1 = (stream0 true false).count ∧
      passes .load ∧ passes .store ∧ (∃ sacc : Nat → Acc, ∀ k < (2 + 31) / 32, u.check { u.agent with level := .user }
        ⟨0x10100 + BitVec.ofNat 64 1 * 1 + BitVec.ofNat 64 k, 1, .load, true, true⟩ = .ok (sacc k)) ∧
      u.hart.vq 0 = [[(0, 1), (1, 2)]] ∧ (u.hart.vq 0).length < Config.vectorQueueDepth ∧ (∀ a, u.logFull [a] = none) :=
  ⟨by decide +kernel, rfl, okOf_all (by decide +kernel), okOf_all (by decide +kernel), okOf_all (by decide +kernel),
    by decide +kernel, by decide +kernel, fun _ => by rfl⟩
/-- StashControl: an emptied slot, the least and the greatest size; the dirty lines of stdrop. -/
theorem test_wit_stash :
    (operandOf st0.hart (.imm 0)).toNat = 0 ∧ canonical (st0.hart.rs 1) = true ∧
    (st0.hart.rs 1).toNat % 4096 = 0 ∧ (127 * 4096) % 4096 = 0 ∧ 127 * 4096 + 4096 ≤ 524288 ∧
    (operandOf (stH fun h => { h with s := [(2, 4096)] }).hart (sr 2)).toNat = 2 ^ 12 ∧
    (operandOf (stH fun h => { h with s := [(2, 524288)] }).hart (sr 2)).toNat = 2 ^ 19 ∧ canonical 0x80000 = true ∧
    0x80000 % 524288 = 0 ∧ rivalSlots st0 st0.coreNo 0 = [] ∧ st0.logged = false ∧ st0.pkg.migFwd = false ∧
    st0.dirty.Pairwise (fun d e => d.pline ≠ e.pline) ∧ (∀ d ∈ st0.dirty, d.home.length = 128) := by
  decide +kernel
/-- MatrixControl, TileLoads, TileComputes: a slot that is held, and one that is not. -/
theorem test_wit_tile : Issues c0 stT ∧ stT.holds 0 = true ∧ stT.holds 1 = false ∧ stT.hart.vcq = [] ∧
    Room (sr 4) stT.hart ∧ stT.hart.vstart = 0 :=
  ⟨⟨by decide, by decide, by decide +kernel⟩, by decide +kernel, by decide +kernel, rfl, (fun _ h => nomatch h), rfl⟩
/-- TileLoads: a codebook and the weights of one row that memory gives, at the greatest offset of the format. -/
theorem test_wit_weights :
    let s : State := { stT with hart := { stT.hart with tk := 1, tn := 64 } }
    (operandOf s.hart (sr 1)).toNat % 4 = 0 ∧ (∃ r, readRanges [(operandOf s.hart (sr 1), 1024)] s.issued = .ok r) ∧
    0 < min s.hart.tk.toNat (kmax (s.tileAt 0).wfmt) ∧ 1023 + min s.hart.tk.toNat (kmax (s.tileAt 0).wfmt) ≤ kmax .i8 ∧
    (s.tileAt 0).wfmt = .i8 ∧
    ∃ r, readRanges [(s.hart.rs 1 + BitVec.ofNat 64 0 * operandOf s.hart (sr 2), rowBytes .i8 64)] s.issued = .ok r :=
  ⟨by decide +kernel, okOf_ok (by decide +kernel), by decide +kernel, by decide +kernel, by decide +kernel,
    okOf_ok (by decide +kernel)⟩
/-- TileComputes: accumulators without poison, and a shape of one row of one column. -/
theorem test_wit_mma :
    let s : State := { stT with hart := { stT.hart with tk := 1, tn := 1, tm := 1 } }
    let i : Instr := .mma c0 .i8 0 1 (sr 2) 0
    (∀ e < 4, 64 * 0 + e ∉ (s.tileAt 0).poison) ∧
    mmaFault .i8 (s.tileAt 0) 0 0 1 1 (s.hart.rs 1) (operandOf s.hart (sr 2)) (s.envOf i) = none ∧
    ∃ r, readRanges (((List.range 1).map fun i => (s.hart.rs 1 + BitVec.ofNat 64 i * operandOf s.hart (sr 2), rowBytes .i8 1))
      ++ scaleRanges s.hart.bindA 1 1 ++ scaleRanges s.hart.bindB 1 1) s.issued = .ok r :=
  ⟨by decide +kernel, by decide +kernel, okOf_ok (by decide +kernel)⟩
/-- Atomics: a compare-and-exchange that finds its value and one that does not, and a vamo over four words. -/
theorem test_wit_atomics :
    takeS (sr 2) st0.hart = some (7, hart0) ∧
    (∃ acc, st0.check st0.agent ⟨st0.hart.rs 1 + (0 : BitVec 13).signExtend 64, 8, .rmw, false, true⟩ = .ok acc ∧
      (decide (fmtRead .i64 (leNat (st0.bytesAt acc)) = 0x9234) && decide (st0.logFull (State.recordAddrs acc) = none))
        = true) ∧
    (opnd .i64 false Mods.none ((stH fun h => { h with s := [(4, 0x9234)] }).hart.rs 4)).1 = 0x9234 ∧
    (opnd .i64 false Mods.none (st0.hart.rs 4)).1 ≠ 0x9234 ∧
    (let s := stH fun h => { h with v := [(1, [(0, 0), (1, 4), (2, 0), (3, 8)])] }
     ∀ e < 4, okOf (s.issued.check s.issued.agent ⟨s.hart.rs 1 + (s.hart.rv 1 e).setWidth 64, 4, .rmw, true, true⟩) = true) :=
  ⟨by decide +kernel, okThen_ok (by decide +kernel), by decide +kernel, by decide +kernel, by decide +kernel⟩

/-- BarriersAndSemaphores: a barrier that may be set, one in use with its last arrival, the greatest PEND that fits, and
a phase that differs and one that does not. -/
theorem test_wit_barrier :
    let x : Barrier := ⟨1, 1, 0, 3, st0.ownerTag⟩
    let s : State := st0.setBarrier 0 5 x
    Sources (sr 2) (.imm 1) st0.hart 7 1 st0.hart ∧ (7 : Word).toNat < 65536 ∧ (7 : Word).toNat / 512 ≤ 96 ∧
    (st0.barrier 0 7).owner = st0.ownerTag ∧ (1 : Word).toNat ≤ 4095 ∧ s.barrier 0 5 = x ∧ x.count ≠ 0 ∧
    x.owner = s.ownerTag ∧ (2 ^ 35 - 1 : Word).toNat < 2 ^ 35 ∧ x.pend.toInt + (2 ^ 35 - 1 : Word).toNat < 2 ^ 35 ∧
    x.arr ≠ 0 ∧ x.phase ≠ (2 : Word).setWidth 16 ∧ takeS (.imm 5) s.hart = some (5, s.hart) :=
  ⟨⟨hart0, by decide +kernel, by decide +kernel⟩, by decide, by decide, by decide +kernel, by decide, by decide +kernel,
    by decide, by decide +kernel, by decide, by decide, by decide, by decide, by decide +kernel⟩
/-- BarriersAndSemaphores: a cluster that the partition owns, with a free bit and one that it waits for; a cluster that
it does not own; a wait that its word satisfies. -/
theorem test_wit_semaphore :
    let cl : Cluster := { Cluster.reset with crEn := true, wait := [⟨5, 0⟩] }
    let s : State := { st0 with clusters := [(0, cl)] }
    s.clusterAt s.clusterNo = cl ∧ cl.crPid = s.hart.pid ∧ takeS (.imm 5) s.hart = some (5, hart0) ∧
    cl.sem.getLsbD 5 = false ∧ (∀ r, (cl.wait.find? fun r => r.bit == 5) = some r → r.hart = s.cur) ∧
    Sources (.imm 63) (sr 2) s.hart 63 7 hart0 ∧ (st0.clusterAt st0.clusterNo).crEn = false ∧
    (∃ r, st0.load 0x10000 8 false true = .ok r ∧ relHolds64 .ne false (BitVec.ofNat 64 (leNat r.1)) 7 = true) :=
  ⟨by decide +kernel, rfl, by decide +kernel, by decide, (fun r h => by cases h; rfl),
    ⟨hart0, by decide +kernel, by decide +kernel⟩, by decide +kernel, okThen_ok (by decide +kernel)⟩
/-- EnginePorts: a header word of a command of two words, of a whole command of one word, room in the port, a result,
and a pair of the copy engine. -/
theorem test_wit_ports :
    let s := stH fun h => { h with eport := 1 }
    s.hart.guard c0 = true ∧ s.hart.engine 0 = some (.copy 0) ∧ takeS (.imm 0x102) s.hart = some (0x102, s.hart) ∧
    (s.hart.port 0).part = [] ∧ (0x102 : Word).toNat % 256 = 2 ∧ (0x101 : Word).toNat % 256 = 1 ∧
    (s.hart.port 0).used < 32 ∧ (∀ n, s.noRoom n = false) ∧ s.hart.engine 7 = none ∧
    ((s.hart.modPort 0 fun p => { p with results := [9] }).port 0).results = [9] :=
  ⟨by decide, by decide +kernel, by decide +kernel, by decide +kernel, by decide, by decide, by decide +kernel,
    (fun n => by rfl), by decide +kernel, by decide +kernel⟩
/-- SetVectorLength, Strips. -/
theorem test_wit_lanes : st0.hart.episode = none ∧ st0.hart.vcq = [] ∧ (∀ q, q ∈ st0.hart.streams → q.2 = none) ∧
    takeS (sr 2) st0.hart = some (7, hart0) ∧ Room (sr 4) hart0 ∧ Issues c0 st0 ∧ st0.hart.vstart = 0 ∧ 0 < st0.vlen :=
  ⟨rfl, rfl, (fun q h => nomatch h), by decide +kernel, (fun _ h => nomatch h), test_wit_issues, rfl, by decide +kernel⟩
/-- A launch of one hart with the farm of elements lo to hi. -/
def launch0 (next hi : Word) : Launch :=
  { seq := 1, pid := 0, queue := none, slot := 0, st := .running, cid := some 0, entry := 0, param := 0, harts := 1,
    lreq := 0, pri := 0, therm := 0, tag := 0, cpl := 0, sig := 0, eport := 0, recov := false, farm := true,
    compact := false, bitmap := false, flo := 0, fhi := hi, fbmp := 0, seed := 0, weight := 0,
    ranges := [⟨0x10000, 0x10000, false⟩], units := none,
    placed := 1, ended := 0, status := 0, stopping := false, leases := [], frames := [], unlogged := false, logs := [],
    torn := 0, next := next, pool := [] }
/-- Strips: a farm that is done, and one with elements left. -/
theorem test_wit_farm :
    let s (n : Word) : State := { stH (fun h => { h with launch := some 1 }) with launches := [launch0 n 6] }
    (s 6).myLaunch = some (launch0 6 6) ∧ (launch0 6 6).fhi.toNat ≤ (launch0 6 6).next.toNat ∧ (launch0 6 6).pool = [] ∧
    (s 2).myLaunch = some (launch0 2 6) ∧ (launch0 2 6).next.toNat < (launch0 2 6).fhi.toNat := by decide +kernel
/-- TileClaims: a slot held, a free slot that is shared or reserved to the partition, a slot held by another, and a
doff routine with refusals left. -/
theorem test_wit_claims :
    let core (t : Tile) (r : BitVec 36) : State := { st0 with cores := [(0, { Core.reset with tiles := [(0, t)], tres := r })] }
    stT.holds 0 = true ∧ st0.holds 0 = false ∧ ((st0.coreAt 0).tile 0).holder = none ∧
    (∀ r ∈ (st0.coreAt 0).recalls, r.slot ≠ 0) ∧ st0.hart.dAct = false ∧ (st0.coreAt 0).tres.getLsbD 8 = false ∧
    ((core Tile.reset 0x100).coreAt 0).tres.getLsbD 8 = true ∧
    ((core Tile.reset 0x100).coreAt 0).tres.extractLsb' 0 8 = st0.hart.pid ∧
    (((core { Tile.reset with holder := some 5 } 0).coreAt 0).tile 0).holder = some 5 ∧ (5 : Nat) ≠ st0.hart.key st0.cur ∧
    stT.hart.vcq = [] ∧
    (let s := stH fun h => { h with dAct := true, dNref := 2 }
     s.hart.dAct = true ∧ (s.hart.forget s.pkg.time).dNref ≠ 3 ∧ headOf 0 (s.coreAt 0).recalls = none) := by decide +kernel
/-- LoopNests: a descriptor of one dimension and of the one register s5, with a count of 2 and with 0, and one that is malformed. -/
theorem test_wit_nest :
    let s (m : List Host.Cell) : State := { st0 with mem := m }
    let u32 (d : List Byte) (k : Nat) : Nat := leNat ((d.drop k).take 4)
    let ok (d : List Byte) : Bool := decide (u32 d 0 % 8 = 1) && decide (u32 d 0 / 8 % 8 = 1) && decide (u32 d 0 < 64) &&
      (List.range 4).all fun i => decide ((d.getD (4 + i) 0).toNat = if i < 1 then 5 else 0)
    (st0.hart.rs 1).toNat % 64 = 0 ∧ st0.hart.guard c0 = true ∧ st0.hart.dAct = false ∧ st0.hart.vcq = [] ∧
    (∃ r, (s []).load (st0.hart.rs 1) 128 true false = .ok r ∧
      (decide (r.1.length = 128) && decide (u32 r.1 0 % 8 = 0)) = true) ∧
    (∃ r, (s [⟨0x10000, 0x09⟩, ⟨0x10004, 5⟩]).load (st0.hart.rs 1) 128 true false = .ok r ∧
      (decide (r.1.length = 128) && ok r.1 && decide (u32 r.1 8 = 0)) = true) ∧
    (∃ r, (s [⟨0x10000, 0x09⟩, ⟨0x10004, 5⟩, ⟨0x10008, 2⟩]).load (st0.hart.rs 1) 128 true false = .ok r ∧
      (decide (r.1.length = 128) && ok r.1 && decide (u32 r.1 8 = 2)) = true) :=
  ⟨by decide +kernel, by decide +kernel, rfl, rfl, okThen_ok (by decide +kernel), okThen_ok (by decide +kernel),
    okThen_ok (by decide +kernel)⟩
/-- The record of a load at address a in iteration k of a loop whose one instruction is at 0x2000C. -/
def rec0 (k : Nat) (a : Word) : TraceRec :=
  ⟨k, 0x2000C, .ld c0 .i64 (sr 4) 5 (.imm 0), true, false, some (a, 8), a.toNat, false, true, none⟩
/-- A mark of that loop with N = 3 that has trained in iteration 0, and at the second lpend in iteration 1. -/
def mark0 (st : MarkState) (it : Word) (trace : List TraceRec) : Mark :=
  { Mark.reset with state := st, n := 3, t := 2, prec := 0x20000, body := 0x2000C, endA := 0x20000, it := it, trace := trace }
/-- LoopMarks: no mark; no iteration; element-step mode; no brk in the body; a plain loop that goes back and one that
ends; a resumed one; training that goes on, that confirms, and that fails. -/
theorem test_wit_marks :
    let s (m : Mark) : State := stH fun h => { h with mark := m }
    st0.hart.mark.state = .none ∧ st0.hart.rs 0 = 0 ∧ st0.hart.rs 2 ≠ 0 ∧ st0.hart.estep = false ∧
    hasBrk st0 0x2000C 1 = false ∧ (s (mark0 .plain 0 [])).hart.pc = (mark0 .plain 0 []).endA ∧
    (0 : Word) + 1 < 3 ∧ ¬ (2 : Word) + 1 < 3 ∧ ((0 : Word) + 1).toNat ≠ 2 ∧ ((1 : Word) + 1).toNat = 2 ∧
    (s (mark0 .training 1 [])).quiet = true ∧
    confirm (s (mark0 .training 2 [rec0 0 0x10000, rec0 1 0x10008])) = none ∧
    confirm (s (mark0 .training 2 [rec0 0 0x10000, rec0 1 0x10007])) = some (2, 3) ∧ st0.quiet = true := by
  decide +kernel

/-- NestedLaunches: a packet of one hart at 0x10000, well formed and without ranges, and an identifier that is free. -/
theorem test_wit_nested :
    let s : State := { st0 with mem := [⟨0x10000, 1⟩, ⟨0x10001, 3⟩, ⟨0x10018, 1⟩] }
    s.hart.vcq = [] ∧ s.hart.episode = none ∧ s.hart.dAct = false ∧ (s.hart.rs 1).toNat % 64 = 0 ∧
    (∃ r, loadBytes ((List.range 256).map fun k => s.hart.rs 1 + BitVec.ofNat 64 k) s = .ok r ∧
      (decide (pf r.1 0 1 = 1) && decide (packetBad r.1 = none) && decide (strayRange [] (packetRanges r.1) = none)) = true) ∧
    s.pkg.cids.head? = some 0 ∧ s.myLaunch = none ∧
    (s.launches.filter fun l => l.pid == s.hart.pid && l.queue.isNone).length < 64 ∧
    Room (sr 4) s.hart ∧ takeS (sr 2) s.hart = some (7, hart0) :=
  ⟨rfl, rfl, rfl, by decide +kernel, okThen_ok (by decide +kernel), by decide +kernel, by decide +kernel,
    by decide +kernel, (fun _ h => nomatch h), by decide +kernel⟩
/-- SystemRegisters: below the level of an index, at it, and a user-level write that is turned away. -/
theorem test_wit_sysregs : st0.hart.guard c0 = true ∧ st0.hart.level = .user ∧ (0x200 ≤ (0x200 : BitVec 12).toNat) ∧
    ¬ (1 ≤ (0x100 : BitVec 12).toNat ∧ (0x100 : BitVec 12).toNat ≤ 4) ∧ st0.quiet = true ∧
    (stH fun h => { h with level := .management }).hart.level = .management ∧
    takeS (sr 2) st0.hart = some (7, hart0) := by decide +kernel
/-- HostAndPeers: device memory that the host, peer 3 and the Fjoir port are admitted to, and what they are not. -/
theorem test_wit_host :
    let s := stP fun p => { p with peersUp := [3], fpeer := [(0, 1)], fjpen := [(0, 1)] }
    (∀ k < 8, 0x10000 + k < 2 ^ 40 ∧ (s.owner ((0x10000 + k) / 65536)).toNat / 256 = 1) ∧
    bit256 s.pkg.fpeer ((s.owner 1).setWidth 8) = true ∧ bit256 s.pkg.fjpen ((s.owner 1).setWidth 8) = true ∧
    s.owner 2 = 0 ∧ 3 ∈ s.pkg.peersUp ∧ 575 ∉ s.pkg.peersUp ∧ 0x10000 % 8 = 0 ∧ 0x10001 % 8 ≠ 0 ∧ s.pkg.migFwd = false := by
  decide +kernel
/-- DebugPort: a hart that the port may reach, empty, running and halted; one that it may not reach. -/
theorem test_wit_debug :
    let s := stP fun p => { p with fjpen := [(0, 1)] }
    let halted : State := { s with hart := { hart0 with run := .halted, estep := true } }
    fjoirMay 0 st0 = false ∧ fjoirMay 0 s = true ∧ fjoirMay 12287 s = true ∧ (s.hartAt 0).run = .running ∧
    (s.hartAt 12287).run = .empty ∧ (halted.hartAt 0).run = .halted ∧ (halted.hartAt 0).lPart = false ∧
    (halted.hartAt 0).estep = true ∧ srAssigned 0x001 = true ∧ srReadOnly 0x001 = false ∧
    (halted.hartAt 0).lMarks = [] ∧ (halted.hartAt 0).mark.state = .none ∧
    ((0 : BitVec 8).toNat = 0) ∧ 8 < (9 : BitVec 8).toNat := by decide +kernel
/-- The waiting instruction i of the hart completes in state s. -/
def wakesIn (i : Instr) (s : State) : Bool :=
  let s : State := { s with hart := { s.hart with waiting := some i } }
  decide (s.hart.run = .running) && !zoneStopped s && !mustWait i s && after (exec i s) fun t => decide (t.hart.waiting = none)
/-- WaitsEnd: what the waiting instructions of each kind need to complete. -/
theorem test_wit_waits :
    wakesIn (.barWait c0 (.imm 5) (.imm 2)) (st0.setBarrier 0 5 ⟨1, 1, 0, 3, st0.ownerTag⟩) = true ∧
    wakesIn (.wait c0 .ne false (sr 4) ⟨1, 0⟩ (sr 2) .device false) st0 = true ∧
    wakesIn (.pop c0 (sr 4) 0) (stH fun h => { h with eport := 1 }.modPort 0 fun p => { p with results := [9] }) = true ∧
    wakesIn (.semTas c0 (.imm 5))
      { st0 with clusters := [(0, { Cluster.reset with crEn := true, wait := [⟨5, 0⟩] })] } = true ∧
    wakesIn (.mov c0 (sr 4) (.q 0)) (stH fun h => { h with qs := [(0, [1])] }) = true := by
  decide +kernel
/-- WaitsEnd: a trap that waits in the queue, a recall that is due, a delay that ends, and a refusal that expires. -/
theorem test_wit_pending :
    let e : VEntry := ⟨0x20000, .vpret c0, st0.envOf (.vpret c0), some (⟨.vectorThread, 1⟩, 0), false⟩
    let q := stH fun h => { h with vcq := [e] }
    let tile (d : Option Word) : Tile := { Tile.reset with holder := some 0, cls := .negotiated, doff := 0x30000, delay := d }
    let r (d : Option Word) : State := { st0 with cores := [(0, { Core.reset with
      tiles := [(0, tile d)], recalls := [⟨0, some 8, .negotiated, 0, 0⟩] })] }
    q.hart.vqf = false ∧ q.terminal ⟨.vectorThread, 1⟩ = false ∧ q.elasticTrap ⟨.vectorThread, 1⟩ = false ∧
    ((List.range 4).find? (r none).recalled) = some 0 ∧ (((r (some 5)).coreAt 0).tile 0).delay = some 5 ∧
    (5 : Word) ≤ (stP fun p => { p with time := 5 }).pkg.time ∧
    1000000 ≤ ((stP fun p => { p with time := 1000000 }).pkg.time - 0).toNat := by decide +kernel
/-- Scheduling: a yield to ask for, a quantum that expires while others wait, a passed deadline, a saved context to
restore. -/
theorem test_wit_yields :
    let l1 : Launch := { launch0 0 0 with harts := 20000, placed := 1 }
    let s : State := { stH (fun h => { h with launch := some 1, ticks := 10000 }) with launches := [l1] }
    let c : Saved := ⟨{ hart0 with run := .empty }, 1, 0, 0, 0, .yield, 0, []⟩
    let w : State := { st0 with saved := [c] }
    (s.hartAt 0).run ≠ .empty ∧ (s.hartAt 0).yreq = false ∧
    max s.pkg.sqnt.toNat 1 * max (s.hartAt 0).lwt.toNat 1 ≤ (s.hartAt 0).ticks ∧
    freeSlots s 0 < readyContexts s 0 (s.prioOf (some 1)) ∧
    deadlinePassed { hart0 with yreq := true, ydl := 0 } = true ∧
    w.saved[0]? = some c ∧ restorable w 0 c 1 = true ∧ w.opaqueAt c.hart.area = c.opaqueCells := by decide +kernel
/-- Scheduling: a launch in each state that an event takes on, and a latch and a watchdog that are due. -/
theorem test_wit_launches :
    let l (st : LState) : Launch := { launch0 0 0 with st := st, ranges := [], placed := if st = .running then 1 else 0 }
    let s (st : LState) : State := { State.reset with launches := [l st] }
    ((s .parsed).launches.find? fun l => l.st = .parsed && !l.stopping) = some (l .parsed) ∧ (s .parsed).pkg.cids.head? = some 0 ∧
    ((s .leasing).launches.find? fun l => l.seq.toNat = 1) = some (l .leasing) ∧
    (∀ p ∈ pinnedPages (l .leasing), resident (s .leasing) 0 p = true) ∧
    (s .leasing).shares (some (0, (byteOf (s .leasing).pkg.ctcls 0).toNat)) ≤ 920 ∧
    (l .ready).placed < (l .ready).harts ∧ (∀ m ∈ (s .ready).launches, isAhead (l .ready) m (s .ready) = false) ∧
    chosenCore (l .ready) (s .ready) = some 0 ∧ 7 ∈ fittingSlots (l .ready) (s .ready) 0 ∧
    (l .ready).placed + 1 = (l .ready).harts ∧ hasContexts (s .running) 1 = false ∧
    (s .running).orphans = [] ∧ latchDue (stP fun p => { p with ctsrEn := true }).pkg = true ∧
    (let q : State := { State.reset with mem := [⟨16, 1⟩], queues := [(0, ⟨some ⟨0, [], []⟩, 1000, none, none⟩)] }
     wdogTicks q 0 ≠ 0 ∧ outstanding q 0 = true ∧ wdogTicks q 0 ≤ (queueAt q 0).wd) := by decide +kernel

/-- Page tables from 0x30000 on that map the first GiB to itself, for every access (R381, R382). -/
def tables : List Host.Cell :=
  [⟨0x30000, 1⟩, ⟨0x30001, 1⟩, ⟨0x30002, 3⟩, ⟨0x30100, 1⟩, ⟨0x30101, 2⟩, ⟨0x30102, 3⟩, ⟨0x30200, 0x3B⟩]
/-- Partition 0 with those tables. -/
def parts0 : List (Nat × Part) := [(0, { Part.reset with ptroot := 0x30 })]
/-- A package whose queue table is at 0x20000 and whose queue 0, of 16 slots at 0x10000, is on. -/
def stQ (tail : Byte) (slot : List Host.Cell) (q : List (Nat × Queue)) : State := { st0 with
  pkg := { Pkg.reset with qtBase := 0x20 }
  mem := slot ++ [⟨0x20002, 1⟩, ⟨0x20008, 16⟩, ⟨0x2000E, 1⟩] ++ (if tail = 0 then [] else [⟨0x20080, tail⟩]) ++ tables
  parts := parts0
  queues := q }
/-- QueuePackets: an empty queue, and one with a LAUNCH packet at HEAD. -/
theorem test_wit_queue_parse :
    let s := stQ 4 [⟨0x10000, 1⟩, ⟨0x10001, 3⟩, ⟨0x10018, 1⟩] []
    let ring := BitVec.ofNat 64 (queueField s 0 0 8)
    queueOn s 0 = true ∧ (queueAt s 0).packet = none ∧ controlOk s 0 = true ∧
    (BitVec.ofNat 64 (queueField (stQ 0 [] []) 0 128 8) - queueHead (stQ 0 [] []) 0).toNat = 0 ∧
    (BitVec.ofNat 64 (queueField s 0 128 8) - queueHead s 0).toNat = 4 ∧
    ((readSlots (queuePid s 0) ring 16 1 (queueHead s 0) s).any fun r =>
      decide (packetSlots (pf r.1 0 1) = some 4) && decide (headerBad r.1 = none)) = true ∧
    ((readSlots (queuePid s 0) ring 16 4 (queueHead s 0) s).any fun r =>
      decide (packetBad r.1 = none) && decide (pf r.1 0 1 = 1)) = true := by decide +kernel
/-- QueuePackets: a FENCE whose one condition is 0x10000 = 0x9234, a SIGNAL, an EDGE, a MODULE load and unload. -/
theorem test_wit_queue_packets :
    let addr : List Byte := [0, 0, 1, 0, 0, 0, 0, 0]
    let s (p : List Byte) : State := stQ 1 [⟨0x10000, 0x34⟩, ⟨0x10001, 0x92⟩] [(0, ⟨some ⟨0, p, []⟩, 0, none, none⟩)]
    let fence : List Byte := [2, 3, 0, 0, 0, 0, 0, 0, 1] ++ List.replicate 7 0 ++ addr ++ [0x34, 0x92] ++ List.replicate 222 0
    queueOn (s fence) 0 = true ∧ (queueAt (s fence) 0).packet = some ⟨0, fence, []⟩ ∧ pf fence 8 1 % 16 = 1 ∧
    ((fencePass 0 fence (List.range 1) [] (s fence)).any fun r => decide (0 ∈ r.1)) = true ∧
    ((fencePass 0 (fence.set 24 0) (List.range 1) [] (s fence)).any fun r => decide (0 ∉ r.1)) = true ∧
    ((queueWrite 0 0x10000 (bytesOf 8 5) (s fence)).isSome && (queueRmw 0 0x10000 (· + 1) (s fence)).isSome) = true ∧
    ((queueCheck 0 0x10000 8 .rmw (s fence)).any fun acc =>
      decide (0 < (wordOf ((s fence).bytesAt acc)).toInt) && (queueRmw 0 0x10000 (· - 1) (s fence)).isSome) = true ∧
    (s fence).launches = [] := by decide +kernel
/-- FabricWrites: a shootdown to start and one in progress, a migration to start, refused and in progress, groups that
are no blocks, a bank that is off, a frame of the package. -/
theorem test_wit_fabric :
    st0.pkg.tsnBusy = false ∧ (stP fun p => { p with tsnBusy := true }).pkg.tsnBusy = true ∧
    (0xFFFFFF : BitVec 36).toNat * 65536 < 2 ^ 40 ∧ st0.pkg.migBusy = false ∧ st0.owner 2 = st0.owner 3 ∧
    st0.owner 1 ≠ st0.owner 3 ∧ (stP fun p => { p with migBusy := true }).pkg.migBusy = true ∧
    State.blocksOk { Core.reset with pgrph := 0x0101010101010101 } = true ∧
    State.blocksOk { Core.reset with pgrpl := 0x000100 } = false ∧
    (0 : Word).getLsbD 63 = false ∧ st0.pkg.migFwd = false ∧ byteOf 0 7 ≠ byteOf 0x0100000000000000 7 := by decide +kernel
/-- A delivered command. -/
def cmd0 (ws : List Word) (tgt : Byte) : Cmd :=
  { words := ws, seq := 7, pc := 0x20000, level := .user, begun := false, wp := 0, counted := 0, outcome := none,
    badBar := false, parts := [], failed := [], switched := none, stalled := false, after := 0, ext := [], tgt := tgt,
    start := 0, group := [], rank := 0, core := 0, fin := none }
/-- A hart with one command. -/
def stC (c : Cmd) : State := { stH (fun h => h.modPort 0 fun p => { p with cmds := [c] }) with
  mem := st0.mem ++ tables, parts := parts0 }
/-- EngineCommands: a command that each engine does not accept. -/
theorem test_wit_engine_refused :
    let refuses (tgt : Byte) (e : Engine) : Bool :=
      ((jobAt 0 0 (stC (cmd0 [0xFF01] tgt))).any fun p => decide (p.1 = e)) && !e.accepts 0xFF
    (refuses 1 (.copy 0) && refuses 0x10 .indirect && refuses 0x50 .reduction && refuses 0x60 (.attention 0) &&
      refuses 0xE0 .collective) = true := by decide +kernel
/-- A copy of four bytes from 0x10000 to 0x10100. -/
def copy0 (wp : Nat) : Cmd := { cmd0 [0x100000104, 0x10000, 0x10100, 4] 1 with begun := true, wp := wp }
/-- EngineCommands: a copy whose bytes are all written, and one at its last byte. -/
theorem test_wit_copy :
    copyOk (copy0 3) = true ∧ (copy0 4).total ≤ (copy0 4).wp ∧ (copy0 3).wp < (copy0 3).total ∧
    ((jobAt 0 0 (stC (copy0 3))).any fun p => decide (p.1 = .copy 0) &&
      (match p.2.read ((copy0 3).addrs 3).1 1 (stC (copy0 3)) with
        | .ok (b, u) => (match p.2.write ((copy0 3).addrs 3).2 b false u with | .ok _ => true | _ => false)
        | _ => false)) = true := by decide +kernel
/-- EngineCommands: a gather and a scatter of one word, a reduction of one buffer of one element, and an attention. -/
theorem test_wit_engine_runs :
    let g (opc : Word) := cmd0 [0x1200000008 + opc * 256, 0x10010, 1, 0, 0x10200, 4, 0x10300, 0] 0x10
    let r := cmd0 [0x2006, 0x10010, 1, 0x10100, 0x10200, 5] 0x50
    let a := cmd0 [0x100003008, 0, 0, 0, 0, 0, 0, 0] 0x60
    let s (c : Cmd) : State := { stC c with mem := ⟨0x10012, 1⟩ :: tables }
    (indirectOk (g 0x10) && indirectOk (g 0x11) && reductionOk r && attentionOk a) = true ∧
    ((jobAt 0 0 (stC (g 0x10))).any fun p => (indirectElems p.2 false 1 0 0 [] (stC (g 0x10))).isSome) = true ∧
    ((jobAt 0 0 (stC (g 0x11))).any fun p => (indirectElems p.2 true 1 0 0 [] (stC (g 0x11))).isSome) = true ∧
    ((jobAt 0 0 (s r)).any fun p => (p.2.conclude (s r) (reduce p.2 (s r))).isSome) = true ∧
    ((jobAt 0 0 (stC a)).any fun p => decide (p.1 = .attention 0) &&
      (p.2.conclude (stC a) (attend p.2 (stackOfJob p.2) (stC a))).isSome) = true := by decide +kernel
/-- A collective of two packages with no element, taken, with the contributions and failures of a list. -/
def coll0 (begun : Bool) (parts : List (Nat × List Elem)) (failed : List Nat) : Cmd :=
  { cmd0 [0x4008, 0x10000, 0x10100, 0, 0x10200, 0x10240, 0, 0] 0xE0 with
    begun := begun, group := [0, 1], rank := 0, parts := parts, failed := failed }
/-- EngineCommands: a collective to take, one whose contributions are all there, one that waits, and one that failed. -/
theorem test_wit_collective :
    let c := coll0 true [(0, []), (1, [])] []
    let f := coll0 true [(0, [])] [1]
    let n := coll0 false [] []
    collectiveOk c = true ∧ c.complete = true ∧
    ((jobAt 0 0 (stC n)).any fun p => decide (p.1 = .collective) && (beginCollective p.2 (stC n)).isSome) = true ∧
    ((jobAt 0 0 (stC c)).any fun p => (p.2.conclude (stC c) (completeCollective p.2 (stC c))).isSome) = true ∧
    (1 ≠ c.rank ∧ 1 < c.group.length ∧ 1 ∉ c.failed ∧ (∀ p ∈ (coll0 true [(0, [])] []).parts, p.1 ≠ 1)) ∧
    (f.failed ≠ [] ∧ missingOk f false [1] = true ∧ ((jobAt 0 0 (stC f)).any fun p =>
      match p.2.write 0x10240 (leBytes 8 1 ++ missingMask [1] ++ leBytes 48 0) false (stC f) with
      | .ok _ => true | _ => false) = true) := by decide +kernel
/-- EngineCommands: a command whose outcome joins a result port with a place left, a decrement of the last byte at the
least PEND, and a replay that runs. -/
theorem test_wit_results :
    let c : Cmd := { cmd0 [0x4008] 0xE0 with outcome := some (0, 0) }
    let x : Hart := hart0.modPort 0 fun p => { p with cmds := [c], results := List.replicate 15 0 }
    let d : Cmd := { cmd0 [0x900000104, 0, 0, 4] 1 with wp := 4, counted := 3 }
    ctxOf ({ st0 with hart := x } : State) 0 = some (0, x) ∧ (x.port 0).cmds = [c] ∧ State.uncounted c = false ∧
    (x.port 0).results.length < 16 ∧ ((stC d).hart.port 0).cmds.find? State.uncounted = some d ∧ d.counted + 1 ≤ d.wp ∧
    copyOk d = true ∧ 0 ≤ (BitVec.ofInt 36 (-2 ^ 35 + 1)).toInt - 1 + 2 ^ 35 ∧
    (let m : Mark := { Mark.reset with state := .replaying, replay := .running }
     m.state = .replaying ∧ m.replay = .running) := by decide +kernel
/-- CoolingZones: a zone that is short and one that is not, F at its ends of the steps, temperatures at TCRIT and TSHUT,
a flow that is too low and one that recovers, a lost pressure, and each step of an evacuation. -/
theorem test_wit_zones :
    let z (f : Zone → Zone) : State := { st0 with zonesC := [(0, f Zone.compute)] }
    ((z fun x => { x with f := 5 }).zoneAt 0).f ≠ 0 ∧ (st0.zoneAt 0).evac = 0 ∧ (st0.zoneAt 0).lfHold = false ∧
    (st0.zoneAt 0).flow.toNat < st0.share 0 ∧ 4 < (5 : BitVec 5).toNat ∧
    ¬ (((z fun x => { x with f := 15, flow := 4 }).zoneAt 0).flow.toNat < (z fun x => { x with f := 15, flow := 4 }).share 0 ∨
      8 * st0.pkg.tmax.toNat ≤ ((z fun x => { x with f := 15, flow := 4 }).zoneAt 0).temp.toNat) ∧
    ((z fun x => { x with f := 15, flow := 4 }).zoneAt 0).f.toNat < 16 ∧
    (0 : BitVec 12).toNat < 8 * st0.pkg.tcrit.toNat ∧ 8 * st0.pkg.tcrit.toNat ≤ (760 : BitVec 12).toNat ∧
    (839 : BitVec 12).toNat < 8 * st0.pkg.tshut.toNat ∧ 8 * st0.pkg.tshut.toNat ≤ (840 : BitVec 12).toNat ∧
    100 * (1 : BitVec 10).toNat < st0.pkg.lowf.toNat * st0.share 0 ∧ st0.pkg.lowf.toNat * st0.share 0 ≤ 100 * (2 : BitVec 10).toNat ∧
    (∀ y < 80, (st0.zoneAt y).evac ≠ 3) ∧ (149 : BitVec 16) < st0.pkg.pmin ∧
    ((z fun x => { x with lfHold := true }).zoneAt 0).lfHold = true ∧
    (∀ k ∈ ([1, 2, 3, 4] : List (BitVec 3)), ((z fun x => { x with evac := k }).zoneAt 0).evac = k) ∧
    ((z fun x => { x with evac := 4, att := 2 }).zoneAt 0).att = 2 := by decide +kernel
/-- ErrorsAndReset. -/
theorem test_wit_errors :
    (2 ^ 40 - 1 < 2 ^ 40) ∧ (st0.hartAt 0).launch = none ∧ st0.pkg.scrubEn = true ∧ (65535 < 65536) ∧
    (∀ l ∈ ([5] : List Nat), l ∈ ([5, 6] : List Nat)) ∧ (∀ l ∈ ([5, 6] : List Nat), l * 128 < 2 ^ 40) ∧
    8 ≤ tget 0 (stP fun p => { p with spares := [(0, 8)] }).pkg.spares 0 := by decide +kernel

/-! ## Witnesses of the clauses on late stores, terminal traps, stopped slices and the rest -/

/-- ScalarStores: a store that becomes visible late, and one whose bytes read back. -/
theorem test_wit_late_store :
    (stH fun h => { h with lag := true }).hart.lag = true ∧ st0.logged = false ∧ st0.pkg.migFwd = false ∧ st0.pkg.fwds = [] ∧
    ∃ acc, st0.check st0.agent ⟨0x10000, 8, .store, false, false⟩ = .ok acc ∧
      (decide (acc.chunks.Pairwise fun c d => c.pa + c.n ≤ d.pa ∨ d.pa + d.n ≤ c.pa) &&
        acc.chunks.all fun p => decide (isDevice p.pa = true ∧ p.attr ≠ 3)) = true :=
  ⟨rfl, by decide +kernel, rfl, rfl, okThen_ok (by decide +kernel)⟩
/-- st0 with a launch that the hart runs. -/
def stL (f : Hart → Hart) : State := { stH (fun h => f { h with launch := some 1 }) with launches := [launch0 0 0] }
/-- TrapEntry: each ground of a terminal trap, a frozen queue, and management level. -/
theorem test_wit_terminal :
    (stL id).terminal ⟨.range, 0⟩ = true ∧ (stL id).isPinned 0x10000 = true ∧
    (stL fun h => { h with dAct := true }).terminal ⟨.privilege, 0⟩ = true ∧
    (stL fun h => { h with inh := true }).terminal ⟨.service, 0⟩ = true ∧ (stL id).hart.level ≠ .management ∧
    (stL id).hart.launch = some 1 ∧
    (stH fun h => { h with inh := true, level := .management }).terminal ⟨.service, 0⟩ = true ∧
    isQueued (.vadd c0 ⟨.i32, false, vr 1, vr 1, vr 1, x0⟩) = true ∧
    (Instr.vadd c0 ⟨.i32, false, vr 1, vr 1, vr 1, x0⟩).ctl? = some c0 ∧ (stL fun h => { h with vqf := true }).hart.vqf = true := by
  decide +kernel
/-- An instruction that enters a frozen queue ends its task with STATUS 2 (R399). -/
theorem test_frozen_queue : after (exec (.vadd c0 ⟨.i32, false, vr 1, vr 1, vr 1, x0⟩) (stL fun h => { h with vqf := true }))
    (fun t => decide (t.hart.run = .empty) && t.launches.all fun l => l.stopping && decide (l.status = 2)) = true := by
  decide +kernel
/-- A hart that halts keeps its registers in its slot (R403). -/
theorem test_halt_keeps : after (exec (.halt c0) st0) (fun t => decide (t.hart.run = .empty) && decide (t.hart.rs 2 = 7)) = true := by
  decide +kernel
/-- EndsAndYields, TimeAndMarks: no eviction, and streams that have written what they hold. -/
theorem test_wit_ends_more : st0.hart.evict = false ∧ st0.hart.idle = true ∧ st0.hart.sbuf = [] ∧ st0.streamsWritten = true ∧
    State.hasWork (hart0.modPort 0 fun p => { p with cmds := [cmd0 [1] 1] }) = true := by decide +kernel
/-- StepRunsDecoded: the instruction after the 256th of a doff routine. -/
theorem test_wit_step_doff :
    let s := (placed 0x100ED4018000800028C00000).onH fun h => { h with dAct := true, dIcnt := 256 }
    boundary s = none ∧ s.vectorStep = none ∧ ∃ r, s.fetch s.hart.pc = .ok r ∧
      (r.2.countDoff.1 && okOf (decode (BitVec.ofNat 96 (leNat r.1)))) = true :=
  ⟨by decide +kernel, by decide +kernel, okThen_ok (by decide +kernel)⟩
/-- AccessChecks: a line and a table at a home slice whose zone is stopped. -/
theorem test_wit_held :
    let s : State := { st0 with zonesB := [(64, { Zone.base with f := 0 })] }
    s.check s.agent ⟨0x10000, 8, .load, false, true⟩ = .error ⟨.held, 0x10000⟩ ∧
    (s.lookup s.agent.cache s.agent.pid 0x30000).1 = .held ∧
    s.check s.agent ⟨0x30000, 8, .load, false, true⟩ = .error ⟨.held, 0x30000⟩ := by decide +kernel
/-- VectorStores: stores that do not overlap. -/
theorem test_wit_vstores_apart : ∃ acc, st0.issued.check st0.issued.agent ⟨0x10000, 4, .store, true, true⟩ = .ok acc ∧
    decide ((([(acc, [(1 : Byte), 2, 3, 4])] : List (Acc × List Byte)).flatMap fun p => p.1.chunks).Pairwise fun c d =>
      c.pa + c.n ≤ d.pa ∨ d.pa + d.n ≤ c.pa) = true := okThen_ok (by decide +kernel)
/-- QueuesAndStreams: nothing earlier is left for a stream to wait for. -/
theorem test_wit_stream_order : vectorBelow streamOrder 0 hart0 = false ∧ appendedBehind (stream0 true false) hart0 = false ∧
    hart0.run = .running ∧ hart0.vqf = false ∧ hart0.sbuf = [] := by decide +kernel
/-- MatrixControl: room in the queue for mscale. -/
theorem test_wit_mscale : st0.hart.vqf = false ∧ st0.hart.vcq.length < Config.commandQueueDepth := by decide +kernel
/-- Atomics: a vamo whose addresses are few, on a private page, and one that goes to the home slices. -/
theorem test_wit_home :
    let s : State := { st0 with
      cores := [(0, { Core.reset with lat := [(0, 1)], vathr := 1 })]
      tlb := [⟨.core 0, 0, 0x10000, 0x10000, 0x10000, true, true, 0⟩] }
    s.vlen / (s.coreAt s.coreNo).vathr.toNat = 4 ∧ (s.coreAt s.coreNo).vathr.toNat ≠ 0 ∧
    (∃ acc, s.issued.check s.issued.agent ⟨0x10000, 4, .rmw, true, true⟩ = .ok acc ∧
      (acc.chunks.all fun p => decide (p.attr = 0)) = true) ∧
    st0.vlen / (st0.coreAt st0.coreNo).vathr.toNat = 0 :=
  ⟨by decide +kernel, by decide +kernel, okThen_ok (by decide +kernel), by decide +kernel⟩
/-- Strips: a vpret that the group of a block meets. -/
theorem test_wit_vpret :
    let s := (placed (encode (.vpret c0)).toNat).onH fun h => { h with
      episode := some ⟨st0.envOf (.vpret c0), [(0, 0x20000), (1, 0x2000C)], [0], 0x20000, 16, 0x1FFF4⟩ }
    s.hart.run = .running ∧ s.hart.vqf = false ∧ s.hart.hold = false ∧
    ({ s.hart with p := (st0.envOf (.vpret c0)).p } : Hart).guard c0 = true ∧
    ∃ r, s.fetch 0x20000 = .ok r ∧ decide (decode (BitVec.ofNat 96 (leNat r.1)) = .ok (.vpret c0)) = true :=
  ⟨by decide +kernel, by decide +kernel, by decide +kernel, by decide +kernel, okThen_ok (by decide +kernel)⟩
/-- LoopMarks: the last iteration of a training, and a replay that has finished and one that has departed. -/
theorem test_wit_marks_more :
    (mark0 .training 2 []).state = .training ∧ ¬ (2 : Word) + 1 < 3 ∧
    (stH fun h => { h with mark := { mark0 .replaying 3 [] with replay := .finished } }).hart.mark.replay ≠ .running ∧
    (stH fun h => { h with mark := { mark0 .replaying 2 [] with replay := .departed 0x11 9 } }).hart.mark.replay
      = .departed 0x11 9 := by decide +kernel
/-- NestedLaunches, HostAndPeers, DebugPort, FabricWrites: no launch of the next number, no stopped zone, no late store. -/
theorem test_wit_quiet_package : (∀ l ∈ st0.launches, l.seq ≠ st0.pkg.seqCount + 1) ∧ st0.rangeHeld 0x10000 8 = false ∧
    zoneStopped (st0.focus 0) = false ∧ st0.pkg.fwds = [] ∧ (∀ n, (st0.hartAt n).sbuf = []) := by
  refine ⟨by decide, by decide +kernel, by decide +kernel, rfl, fun n => ?_⟩
  unfold State.hartAt
  split <;> rfl
/-- EngineCommands: the first of two commands that have completed, a copy at work, and a collective that is late. -/
theorem test_wit_engine_order :
    let a : Cmd := { cmd0 [0x4008] 0xE0 with outcome := some (0, 0), fin := some 0 }
    let b : Cmd := { cmd0 [0x4008] 0xE0 with seq := 8, outcome := some (0, 0), fin := some 1 }
    let d : Cmd := { cmd0 [0x900000104, 0, 0, 4] 1 with wp := 4, counted := 3 }
    a ∈ [b, a] ∧ (∀ x ∈ [b, a], x ≠ a → ∀ i, x.fin = some i → 0 < i) ∧
    ((stC d).hart.port 0).cmds.find? State.uncounted = some d ∧ isCopy (.copy 0) = true ∧
    max ((coll0 true [] []).words.getD 6 0).toNat 1 * 1000 ≤ ((stP fun p => { p with time := 1000 }).pkg.time - 0).toNat := by
  refine ⟨by decide, fun x hx hn i hi => ?_, by decide +kernel, rfl, by decide +kernel⟩
  rcases List.mem_cons.1 hx with rfl | hx
  · cases hi; decide
  · exact absurd (List.mem_singleton.1 hx) hn
/-- CoolingZones: another zone is purged. -/
theorem test_wit_purge : ∃ y < 80, (({ st0 with zonesC := [(1, { Zone.compute with evac := 3 })] } : State).zoneAt y).evac = 3 :=
  ⟨1, by decide, by decide +kernel⟩
/-- ErrorsAndReset: a dirty line, a row of lines, a row in residue mode with nothing corrected, and a bank without spares that
has posted nothing in this period. -/
theorem test_wit_rows :
    (∃ d ∈ ({ st0 with dirty := [⟨0, 0, 0, 0x200, 0x200, []⟩] } : State).dirty, d.core = 0) ∧
    (∃ bank row, bank < 65536 ∧ ∀ l ∈ ([5] : List Nat), l * 128 < 2 ^ 40 ∧ State.rowOf (l * 128) = bank + 65536 * row) ∧
    (7 ∈ ({ st0 with residue := [7] } : State).residue → ([] : List Nat) = []) ∧ 7 ∉ st0.residue ∧
    0 ∉ (scrubPeriod (stP fun p => { p with spares := [(0, 8)] })).pkg.exhausted := by
  refine ⟨⟨_, .head _, rfl⟩, ⟨State.rowOf (5 * 128) % 65536, State.rowOf (5 * 128) / 65536, Nat.mod_lt _ (by decide),
    fun l hl => ?_⟩, fun _ => rfl, by decide, by decide +kernel⟩
  rw [List.mem_singleton.1 hl]
  exact ⟨by decide, (Nat.mod_add_div _ _).symm⟩
/-- The hart of s, waiting with instruction i, may go on with it. -/
def readyTo (i : Instr) (s : State) : Bool :=
  let x : State := { s with hart := { s.hart with waiting := some i } }.focus 0
  decide (x.hart.waiting = some i) && decide (x.hart.run = .running) && !zoneStopped x && !mustWait i x && !nestFault i x
    && decide (x.hart.sbuf = []) && !x.hart.heldUp
/-- WaitsEnd: instructions of each kind that may go on, whose sources, names and queues meet the rest. -/
theorem test_wit_ready :
    readyTo (.barWait c0 (.imm 5) (.imm 2)) (st0.setBarrier 0 5 ⟨1, 1, 0, 3, st0.ownerTag⟩) = true ∧
    barrierOf st0 5 = some (0, 5) ∧ Sources (.imm 5) (.imm 2) hart0 5 2 hart0 ∧
    readyTo (.wait c0 .ne false (sr 4) ⟨1, 0⟩ (sr 2) .device false) st0 = true ∧
    readyTo (.pop c0 (sr 4) 0) (stH fun h => { h with eport := 1 }.modPort 0 fun p => { p with results := [9] }) = true ∧
    readyTo (.peek c0 (sr 4) 0) (stH fun h => { h with eport := 1 }.modPort 0 fun p => { p with results := [9] }) = true ∧
    readyTo (.semTas c0 (.imm 5)) { st0 with clusters := [(0, { Cluster.reset with crEn := true, wait := [⟨5, 0⟩] })] } = true ∧
    readyTo (.mov c0 (sr 4) (.q 0)) (stH fun h => { h with qs := [(0, [1])] }) = true ∧
    Res.q 0 ∈ scalarReads (.mov c0 (sr 4) (.q 0)) ∧ Res.q 1 ∈ scalarWrites (.mov c0 (.q 1) (sr 2)) :=
  ⟨by decide +kernel, by decide +kernel, ⟨hart0, by decide +kernel, by decide +kernel⟩, by decide +kernel, by decide +kernel,
    by decide +kernel, by decide +kernel, by decide +kernel, by decide +kernel, by decide +kernel⟩
/-- WaitsEnd: a queued instruction that takes the entry of its queue; no granted request; a hart whose queue is empty. -/
theorem test_wit_vector_waits :
    let i : Instr := .vmov c0 ⟨.i32, false, vr 2, .q 8, .none, x0⟩
    let s := stH fun h => { h with qv := [(0, [[(0, 5)]])], vcq := [⟨0x20000, i, st0.envOf i, none, false⟩] }
    s.hart.waiting = none ∧ zoneStopped s = false ∧ s.vectorStep.isSome = true ∧ Res.q 8 ∈ readsOf i ∧
    settleTreq st0 = none ∧ hart0.idle = true ∧ hart0.vsets = [] ∧ hart0.vqf = false := by decide +kernel
/-- Scheduling: a context whose slot the launch at the head of the ready list needs. -/
theorem test_wit_yield_request :
    let l : Launch := { launch0 0 0 with seq := 2, pid := 1, st := .ready, ranges := [], placed := 0 }
    let m : Launch := { launch0 0 0 with pid := 1, pri := 5 }
    let s : State := { stH (fun h => { h with launch := some 1, pid := 1 }) with launches := [m, l] }
    headLaunch s 1 = some l ∧ canYield s l (s.hartAt 0) = true ∧ placeable l (yielded s 1) = false ∧
    (∀ n ∈ s.slots, canYield s l (s.hartAt n) = true → yieldsBefore s (s.hartAt n) (s.hartAt 0) = false) := by decide +kernel
/-- Scheduling: a launch that waits first for flow, by lnch and by its packet; a launch that nothing holds; a reset. -/
theorem test_wit_schedule_more :
    let l : Launch := { launch0 0 0 with st := .leasing, ranges := [], placed := 0, queue := some 0 }
    let s : State := { State.reset with launches := [l], queues := [(0, ⟨some ⟨0, [], []⟩, 0, none, none⟩)] }
    let r : Reset := ⟨0, 1, 0, 0, [], [], [], []⟩
    let t : State := { State.reset with queues := [(0, ⟨none, 0, none, some r⟩)], schedule := [.resetStep 0] }
    l.stopping = false ∧ (if l.seq ∈ s.pkg.grants then s.pkg.grants else s.pkg.grants ++ [l.seq]).head? = some l.seq ∧
    (queueAt s 0).packet = some ⟨0, [], []⟩ ∧ (0 : Word) = l.slot ∧ inReset s 1 = false ∧ endHeld l s = false ∧
    resetting s (queuePid s 0) = false ∧ (queueAt t 0).expiry = some r ∧ 1 ≤ r.step ∧ r.step ≤ 3 ∧ t.pkg.quiesced = false ∧
    settleTreq (st0.focus 0) = none := by decide +kernel
/-- QueuePackets: a queue whose turn it is, one whose control line is malformed, one whose packet is not all written, and no
stopped slice. -/
theorem test_wit_queue_turn :
    let s := stQ 4 [⟨0x10000, 1⟩, ⟨0x10001, 3⟩, ⟨0x10018, 1⟩] []
    let u : State := { s with pkg := { s.pkg with served := 0 } }
    let short := stQ 1 [⟨0x10000, 1⟩, ⟨0x10001, 3⟩] []
    resetting s (queuePid s 0) = false ∧ inTurn s 0 = true ∧ ringHeld 0 u = false ∧
    (BitVec.ofNat 64 (queueField short 0 128 8) - queueHead short 0).toNat = 1 ∧
    ((readSlots (queuePid short 0) 0x10000 16 1 (queueHead short 0) short).any fun r => decide (pf r.1 1 1 + 1 = 4)) = true ∧
    controlOk ({ s with mem := s.mem.filter fun c => c.1 ≠ 0x20008 } : State) 0 = false ∧
    packetHeld 0 ⟨0, [], []⟩ s = false := by decide +kernel
/-- Strips: a vfetch that the group of a block meets. -/
theorem test_wit_block_vfetch :
    let s := (placed (encode (.vfetch c0 (some 1) 24)).toNat).onH fun h => { h with
      episode := some ⟨st0.envOf (.vpret c0), [(0, 0x20000), (1, 0x2000C)], [0], 0x20000, 16, 0x1FFF4⟩ }
    s.hart.run = .running ∧ s.hart.vqf = false ∧ s.hart.hold = false ∧
    ({ s.hart with p := (st0.envOf (.vpret c0)).p } : Hart).guard c0 = true ∧
    ∃ r, s.fetch 0x20000 = .ok r ∧ decide (decode (BitVec.ofNat 96 (leNat r.1)) = .ok (.vfetch c0 (some 1) 24)) = true :=
  ⟨by decide +kernel, by decide +kernel, by decide +kernel, by decide +kernel, okThen_ok (by decide +kernel)⟩
/-- WaitsEnd: an instruction of the queue that has its effect at its issue, and one that traps there. -/
theorem test_wit_queue_order (i : Instr) (hi : i = .vadd c0 ⟨.i32, false, vr 2, vr 1, vr 1, x0⟩ ∨ i = .vpret c0) :
    Issues c0 st0 ∧ isQueued i = true ∧
    mayBegin { st0.issued with hart := { st0.issued.hart with vcq := [⟨st0.hart.pc, i, st0.envOf i, none, false⟩] } } [] ⟨st0.hart.pc, i, st0.envOf i, none, false⟩ = true ∧
    after (exec i st0) (fun t => decide (t.hart.vcq.map (·.trap) =
      if i = .vpret c0 then [some (⟨.vectorThread, 1⟩, 0)] else [])) = true := by
  rcases hi with rfl | rfl <;>
    exact ⟨⟨by decide +kernel, by decide +kernel, by decide +kernel⟩, by decide, by decide +kernel, by decide +kernel⟩

/-! ## Witnesses of the engines' results, the replays, the nests and the stopped slices -/

/-- No base-die zone of st0 is stopped, so nothing there waits for a home slice: records, the journal, the save area, a queue's
table, a purge, a rollback or a range. -/
theorem test_wit_none_held : (∀ n, st0.appendHeld n = false) ∧ st0.areaHeld = false ∧ st0.journalHeld = false ∧
    (∀ p va n, st0.purgeHeld p va n = false) ∧ (∀ q, tableHeld st0 q = false) ∧ reverseHeld (st0.focus 0) = false ∧
    (∀ k, rollbackHeld k st0 = false) ∧ (∀ pa n, st0.rangeHeld pa n = false) ∧ ownersHeld [] st0 = false :=
  ⟨appendHeld_none rfl, areaHeld_none rfl, journalHeld_none rfl, purgeHeld_none rfl, tableHeld_none rfl, reverseHeld_none rfl,
    fun _ => rollbackHeld_none rfl _, rangeHeld_none rfl, rfl⟩
/-- EndsAndYields: a halt in a handler with nothing outstanding. -/
theorem test_wit_halt_handler :
    let s := stL fun h => { h with inh := true }
    s.hart.guard c0 = true ∧ s.hart.dAct = false ∧ s.hart.inh = true ∧ s.quiet = true ∧ s.hart.launch = some 1 := by
  decide +kernel
/-- Strips: a vpret behind queued work, and one that is the oldest entry. -/
theorem test_wit_vpret_queued :
    let e : VEntry := ⟨0x20000, .vpret c0, st0.envOf (.vpret c0), none, false⟩
    let s := stH fun h => { h with vcq := [e] }
    s.vectorIdle = false ∧ s.hart.vqf = false ∧ s.hart.vcq.length < Config.commandQueueDepth ∧ s.hart.run = .running ∧
      s.hart.hold = false ∧ s.hart.episode = none ∧ settledFor s.hart e = true := by decide +kernel
/-- QueuesAndStreams: a hart whose zone runs. -/
theorem test_wit_stream_zone :
    zoneStopped ((stH fun h => h.setStream 0 (some (stream0 true false))).focus 0) = false := by decide +kernel
/-- A nest of one dimension of two passes that steps s5 by 3. -/
def nest0 (k : Nat) : ZLoop := ⟨[5], [7], [2], [[3]], [k], 0x20000, 0x20018⟩
/-- LoopNests: a body's end with a tuple left and after the last one, and an instruction of the body. -/
theorem test_wit_nest_back :
    let s (k : Nat) (pc : Addr) : State := stH fun h => { h with zloop := some (nest0 k), pc := pc }
    (s 0 0x20018).hart.zloop = some (nest0 0) ∧ (s 0 0x20000).hart.pc ≠ (nest0 0).stop ∧ (s 0 0x20018).hart.pc = (nest0 0).stop ∧
    ([0] : List Nat).length = (nest0 0).counts.length ∧ (∀ k < 1, ([1] : List Nat).getD k 0 < (nest0 0).counts.getD k 0) ∧
    0 * ((nest0 0).counts.take 0).prod + 1 < (nest0 0).counts.prod ∧
    ¬ 1 * ((nest0 1).counts.take 0).prod + 1 < (nest0 1).counts.prod ∧ (nest0 0).regs.Nodup ∧
    (∀ r ∈ (nest0 0).regs, r ≠ 0) ∧ (s 0 0x20000).hart.inNest (s 0 0x20000).hart.pc = true ∧
    (s 0 0x20000).hart.waiting = none ∧ (s 0 0x20000).hart.run = .running ∧ (s 0 0x20018).hart.vcq = [] := by decide +kernel
/-- LoopMarks: marks of each state that lpjoin ends, with a carried register of each kind, one of them in the snapshot. -/
theorem test_wit_marks_join :
    let m (st : MarkState) (x : ReplayState) : Mark := { mark0 st 3 [] with
      first := 4, kinds := [0, 1], base := [8, 9], delta := [2, 0], snap := ⟨[(5, 6)], [], [], []⟩, replay := x }
    let s (st : MarkState) (x : ReplayState) : State := stH fun h => { h with mark := m st x }
    (s .training .finished).quiet = true ∧ (s .training .finished).hart.mark.state = .training ∧
    (s .resumed .finished).quiet = true ∧ (s .resumed .finished).hart.mark.state = .resumed ∧
    (s .replaying .finished).quiet = true ∧ (s .replaying (.departed 0x11 2)).quiet = true ∧
    ReplayState.finished ≠ .running ∧ ReplayState.departed 0x11 2 ≠ .running ∧
    (0 < 2 ∧ 0 < 4 + 0 ∧ ∀ p ∈ ([(5, 6)] : List (Nat × Word)), p.1 ≠ 4) ∧
    ([(5, 6)] : List (Nat × Word)).Pairwise (fun a b => a.1 ≠ b.1) ∧ (0 < 5 ∧ (5, 6) ∈ ([(5, 6)] : List (Nat × Word))) ∧
    (∀ j < 2, (7 : Nat) ≠ 4 + j) := by decide +kernel
/-- SystemRegisters: a read of fflags behind queued work, and one of vstart under a frozen queue. -/
theorem test_wit_sysregs_wait :
    let e : VEntry := ⟨0x20000, .vpret c0, st0.envOf (.vpret c0), none, false⟩
    let s := stH fun h => { h with vcq := [e] }
    s.quiet = false ∧ s.hart.vqf = false ∧ (stH fun h => { h with vcq := [e], vqf := true }).quiet = false ∧
      (stH fun h => { h with vcq := [e], vqf := true }).hart.vqf = true := by decide +kernel
/-- WaitsEnd: no release is under way. -/
theorem test_wit_releasing : st0.releasing = false ∧ stT.releasing = false := by decide +kernel
/-- Scheduling: the addresses that a launch pins, and a launch whose queue has dropped its packet at HEAD. -/
theorem test_wit_pinned : (∀ a ∈ pinnedAddrs (launch0 0 0), canonical a = true) ∧
    (queueAt State.reset 0).packet = none ∧ queueHead State.reset 0 = (launch0 0 0).slot :=
  ⟨List.all_eq_true.1 (by decide +kernel), by decide +kernel, by decide +kernel⟩
/-- QueuePackets: a queue that goes on up to the TAIL it has read, with the packet's slots there and with one missing. -/
theorem test_wit_queue_goes_on :
    let p : List Host.Cell := [⟨0x10000, 1⟩, ⟨0x10001, 3⟩, ⟨0x10018, 1⟩]
    let s := stQ 4 p [(0, ⟨none, 0, some 4, none⟩)]
    let short := stQ 4 p [(0, ⟨none, 0, some 1, none⟩)]
    s.zonesB = [] ∧ queueOn s 0 = true ∧ resetting s (queuePid s 0) = false ∧ (queueAt s 0).packet = none ∧
    slotsLeft (stQ 4 p []) 0 = 0 ∧ inTurn (stQ 4 p []) 0 = true ∧
    (queueAt s 0).till = some 4 ∧ ((4 : Word) - queueHead s 0).toNat = 4 ∧
    (BitVec.ofNat 64 (queueField s 0 128 8) - queueHead s 0).toNat = 4 ∧ (queueAt short 0).till = some 1 ∧
    ((readSlots (queuePid s 0) 0x10000 16 1 (queueHead s 0) s).any fun r =>
      decide (pf r.1 1 1 % 16 + 1 = 4) && decide (headerBad r.1 = none)) = true ∧
    ((readSlots (queuePid s 0) 0x10000 16 4 (queueHead s 0) s).any fun r => decide (packetBad r.1 = none)) = true := by
  decide +kernel
/-- An engine's answer of which p holds. -/
def ansThen {α : Type} (x : Ans α) (p : α → Bool) : Bool := match x with | .ok y => p y | _ => false
/-- It has that answer. -/
theorem ansThen_ok {α : Type} {x : Ans α} {p : α → Bool} (h : ansThen x p = true) : ∃ y, x = .ok y ∧ p y = true := by
  cases x <;> first | exact ⟨_, rfl, h⟩ | cases h
/-- The command's job, of which p holds. -/
theorem job_some {s : State} {p : Engine → Job → Bool} (h : ((jobAt 0 0 s).any fun q => p q.1 q.2) = true) :
    ∃ e j, jobAt 0 0 s = some (e, j) ∧ p e j = true := by
  cases hj : jobAt 0 0 s with
  | none => rw [hj] at h; cases h
  | some q => rw [hj] at h; exact ⟨q.1, q.2, rfl, h⟩
/-- EngineCommands: a copy whose source is not mapped. -/
theorem test_wit_copy_bad :
    let c : Cmd := { cmd0 [0x100000104, 0x50000000, 0x10100, 4] 1 with begun := true }
    ∃ e j, jobAt 0 0 (stC c) = some (e, j) ∧ (isCopy e && copyOk j.cmd && decide (j.cmd.wp < j.cmd.total) &&
      (match j.read (j.cmd.addrs j.cmd.wp).1 1 (stC c) with | .bad _ => true | _ => false)) = true :=
  job_some (by decide +kernel)
/-- A command of the indirect streams of one element at the given data. -/
def indirect0 (opc data : Word) : Cmd := cmd0 [0x1200000008 + opc * 256, 0x10010, 1, 0, data, 4, 0x10300, 0] 0x10
/-- EngineCommands: a gather and a scatter that move their one element, and one that is refused. -/
theorem test_wit_indirect (scatter : Bool) :
    let opc : Word := if scatter then 0x11 else 0x10
    (∃ e j, jobAt 0 0 (stC (indirect0 opc 0x10200)) = some (e, j) ∧ (decide (e = .indirect) && indirectOk j.cmd) = true ∧
      ∃ w t, MovesElem j scatter 0 (stC (indirect0 opc 0x10200)) t w) ∧
    ∃ e j, jobAt 0 0 (stC (indirect0 opc 0x50000000)) = some (e, j) ∧ (decide (e = .indirect) && indirectOk j.cmd &&
      (match indirectElem j scatter 0 (stC (indirect0 opc 0x50000000)) with | .bad st => decide (st ≠ 0) | _ => false)) = true := by
  refine ⟨?_, job_some (by cases scatter <;> decide +kernel)⟩
  obtain ⟨e, j, hj, hp⟩ := job_some (s := stC (indirect0 (if scatter then 0x11 else 0x10) 0x10200))
    (p := fun e j => (decide (e = .indirect) && indirectOk j.cmd) && ansThen (indirectElem j scatter 0
      (stC (indirect0 (if scatter then 0x11 else 0x10) 0x10200))) fun _ => true) (by cases scatter <;> decide +kernel)
  obtain ⟨h1, h2⟩ := Bool.and_eq_true_iff.1 hp
  obtain ⟨r, hr, -⟩ := ansThen_ok h2
  exact ⟨e, j, hj, h1, r.1, r.2, movesElem_of_indirectElem hr⟩
/-- EngineCommands: a reduction of one buffer of one element, which the engine reads and then writes with its flag. -/
theorem test_wit_reduction :
    let c := cmd0 [0x2006, 0x10010, 1, 0x10100, 0x10200, 5] 0x50
    let s : State := { stC c with mem := ⟨0x10012, 1⟩ :: tables }
    ∃ e j, jobAt 0 0 s = some (e, j) ∧ (decide (e = .reduction) && reductionOk j.cmd && decide (j.cmd.field 0 36 4 + 1 = 1)
        && decide (j.cmd.field 0 32 1 = 0)) = true ∧ ∃ s0 xs u w s1 wf v,
      JobReads j 8 [0x10010] s [0x10000] s0 ∧ JobReads j 4 [0x10000] s0 xs u ∧
      j.write 0x10100 (leBytes 4 (redNaN .f32 (pairTree (addBits .f32 .rne) (negZero .f32) xs).1).1) false
        { u with fresh := u.fresh + 1 } = .ok (w, s1) ∧
      j.write 0x10200 (bytesOf 8 5) true (s1.cover w) = .ok (wf, v) := by
  intro c s
  obtain ⟨e, j, hj, hp⟩ := job_some (s := s) (p := fun e j => (decide (e = .reduction) && reductionOk j.cmd
      && decide (j.cmd.field 0 36 4 + 1 = 1) && decide (j.cmd.field 0 32 1 = 0)) &&
    ansThen (j.readMany 8 [0x10010] s) fun r => decide (r.1 = [0x10000]) && ansThen (j.readMany 4 [0x10000] r.2) fun q =>
      ansThen (j.write 0x10100 (leBytes 4 (redNaN .f32 (pairTree (addBits .f32 .rne) (negZero .f32) q.1).1).1) false
        { q.2 with fresh := q.2.fresh + 1 }) fun w => ansThen (j.write 0x10200 (bytesOf 8 5) true (w.2.cover w.1)) fun _ => true)
    (by decide +kernel)
  obtain ⟨h1, h2⟩ := Bool.and_eq_true_iff.1 hp
  obtain ⟨r, hr, h2⟩ := ansThen_ok h2
  obtain ⟨hx, h2⟩ := Bool.and_eq_true_iff.1 h2
  obtain ⟨q, hq, h2⟩ := ansThen_ok h2
  obtain ⟨w, hw, h2⟩ := ansThen_ok h2
  obtain ⟨f, hf, -⟩ := ansThen_ok h2
  exact ⟨e, j, hj, h1, r.2, q.1, q.2, w.1, w.2, f.1, f.2, of_decide_eq_true hx ▸ jobReads_of_readMany hr,
    jobReads_of_readMany hq, hw, hf⟩
/-- An attention of one token: query at 0x10200, block table at 0x10300, page list of one entry at 0x10100, result at 0x10400. -/
def attention0 (n : Word) : Cmd := cmd0 [0x100003008, 0x10200, 0x10300, 0, n, 0x10400, 0x10100, 1] 0x60
/-- Memory in which that list names frame 1. -/
def stA (c : Cmd) (m : List Host.Cell) : State := { stC c with mem := [⟨0x10100, 1⟩, ⟨0x10102, 1⟩] ++ m ++ tables }
/-- A row of zeros is intact. -/
theorem residue_zeros : ResidueRight 1 (List.replicate 34 0) := by
  intro b hb
  interval_cases b
  decide +kernel
/-- EngineCommands: the pool's first page, a query that is damaged, and an attention of one token. -/
theorem test_wit_attention :
    let s := stA (attention0 1) []
    (∃ e j, jobAt 0 0 s = some (e, j) ∧ (decide (e = .attention 0) && attentionOk j.cmd && !j.cmd.stalled
        && decide (j.cmd.field 0 32 4 = 1)) = true ∧ ∃ qb s0 bt s1 kb vb w v,
      j.read 0x10200 34 s = .ok (qb, s0) ∧ ResidueRight 1 qb ∧ j.read 0x10300 4 s0 = .ok (bt, s1) ∧ leNat bt = 0 ∧
      (∃ r, j.read 0x10100 8 s1 = .ok r ∧ leNat r.1 = 0x10001) ∧ isDevice 0x10000 = true ∧ s1.admits j.agent 0x10000 = true ∧
      s1.rangeHeld 0x10000 34 = false ∧ s1.poisoned 0x10000 34 = false ∧ poolBytes j 8 0 34 s1 = .ok kb ∧ ResidueRight 1 kb ∧
      poolBytes j 8 1024 34 s1 = .ok vb ∧ ResidueRight 1 vb ∧ j.write 0x10400 (List.replicate 128 0) false s1 = .ok (w, v)) ∧
    ∃ e j, jobAt 0 0 (stA (attention0 0) [⟨0x10200, 1⟩]) = some (e, j) ∧ e = .attention 0 ∧ ∃ qb s0,
      j.read 0x10200 34 (stA (attention0 0) [⟨0x10200, 1⟩]) = .ok (qb, s0) ∧ ¬ ResidueRight 1 qb := by
  intro s
  constructor
  · obtain ⟨e, j, hj, hp⟩ := job_some (s := s) (p := fun e j => (decide (e = .attention 0) && attentionOk j.cmd && !j.cmd.stalled
        && decide (j.cmd.field 0 32 4 = 1)) && ansThen (j.read 0x10200 34 s) fun q => decide (q.1 = List.replicate 34 0) &&
        ansThen (j.read 0x10300 4 q.2) fun b => decide (leNat b.1 = 0) && ansThen (j.read 0x10100 8 b.2) fun r =>
          decide (leNat r.1 = 0x10001) && (decide (isDevice 0x10000 = true) && b.2.admits j.agent 0x10000) &&
          (!b.2.rangeHeld 0x10000 34 && !b.2.poisoned 0x10000 34) && ansThen (poolBytes j 8 0 34 b.2) fun k => decide (k = List.replicate 34 0) &&
            ansThen (poolBytes j 8 1024 34 b.2) fun x => decide (x = List.replicate 34 0) &&
              ansThen (j.write 0x10400 (List.replicate 128 0) false b.2) fun _ => true) (by decide +kernel)
    simp only [Bool.and_eq_true] at hp
    obtain ⟨h1, h2⟩ := hp
    obtain ⟨q, hq, h2⟩ := ansThen_ok h2
    simp only [Bool.and_eq_true] at h2
    obtain ⟨b, hb, h3⟩ := ansThen_ok h2.2
    simp only [Bool.and_eq_true] at h3
    obtain ⟨r, hr, h4⟩ := ansThen_ok h3.2
    simp only [Bool.and_eq_true] at h4
    obtain ⟨k, hk, h5⟩ := ansThen_ok h4.2
    simp only [Bool.and_eq_true] at h5
    obtain ⟨x, hx, h6⟩ := ansThen_ok h5.2
    simp only [Bool.and_eq_true] at h6
    obtain ⟨w, hw, -⟩ := ansThen_ok h6.2
    have zeros {l : List Byte} (h : decide (l = List.replicate 34 0) = true) : ResidueRight 1 l := by
      rw [of_decide_eq_true h]; exact residue_zeros
    exact ⟨e, j, hj, by simpa only [Bool.and_eq_true] using h1, q.1, q.2, b.1, b.2, k, x, w.1, w.2, hq, zeros h2.1, hb,
      of_decide_eq_true h3.1, ⟨r, hr, of_decide_eq_true h4.1.1.1⟩, of_decide_eq_true h4.1.1.2.1, h4.1.1.2.2,
      by simpa using h4.1.2.1, by simpa using h4.1.2.2, hk, zeros h5.1, hx, zeros h6.1, hw⟩
  · obtain ⟨e, j, hj, hp⟩ := job_some (s := stA (attention0 0) [⟨0x10200, 1⟩]) (p := fun e j => decide (e = .attention 0) &&
      ansThen (j.read 0x10200 34 (stA (attention0 0) [⟨0x10200, 1⟩])) fun q => decide (q.1 = 1 :: List.replicate 33 0))
      (by decide +kernel)
    simp only [Bool.and_eq_true] at hp
    obtain ⟨q, hq, h2⟩ := ansThen_ok hp.2
    refine ⟨e, j, hj, of_decide_eq_true hp.1, q.1, q.2, hq, fun h => ?_⟩
    have h := h 0 (by decide)
    rw [of_decide_eq_true h2] at h
    exact absurd h (by decide +kernel)
/-- A collective of one element, its group table at 0x10200 and its status block at 0x10240. -/
def allReduce0 (begun : Bool) (parts : List (Nat × List Elem)) (failed : List Nat) (sw : Option (List Elem)) : Cmd :=
  { cmd0 [0x4008, 0x10000, 0x10100, 1, 0x10200, 0x10240, 0, 0] 0xE0 with
    begun := begun, group := if begun then [0, 1] else [], rank := 0, parts := parts, failed := failed, switched := sw }
/-- EngineCommands: a group table of packages 0 and 1, whose own element the engine reads, one that names a package twice, and
one of no package. -/
theorem test_wit_group (m : List Host.Cell) (hm : m = [⟨0x10200, 2⟩, ⟨0x10206, 1⟩] ∨ m = [⟨0x10200, 2⟩] ∨ m = []) :
    let s : State := { stC (allReduce0 false [] [] none) with mem := m ++ tables }
    ∃ e j, jobAt 0 0 s = some (e, j) ∧ (decide (e = .collective) && collectiveOk j.cmd && decide (j.cmd.group = [])) = true ∧
      ∃ gr s1 pkgs s2 own s3, JobReads j 2 [0x10200, 0x10200 + 2] s gr s1 ∧
      JobReads j 2 ((List.range (gr.getD 0 0)).map fun r => 0x10200 + BitVec.ofNat 64 (4 + 2 * r)) s1 pkgs s2 ∧
      JobReads j 4 [0x10000] s2 own s3 ∧
      ((gr = [2, 0] ∧ (pkgs = [0, 1] ∨ pkgs = [0, 0])) ∨ gr = [0, 0]) := by
  intro s
  obtain ⟨e, j, hj, hp⟩ := job_some (s := s) (p := fun e j =>
    (decide (e = .collective) && collectiveOk j.cmd && decide (j.cmd.group = [])) &&
    ansThen (j.readMany 2 [0x10200, 0x10200 + 2] s) fun g =>
      ansThen (j.readMany 2 ((List.range (g.1.getD 0 0)).map fun r => 0x10200 + BitVec.ofNat 64 (4 + 2 * r)) g.2) fun p =>
        decide ((g.1 = [2, 0] ∧ (p.1 = [0, 1] ∨ p.1 = [0, 0])) ∨ g.1 = [0, 0]) && ansThen (j.readMany 4 [0x10000] p.2) fun _ =>
          true) (by rcases hm with rfl | rfl | rfl <;> decide +kernel)
  obtain ⟨h1, h2⟩ := Bool.and_eq_true_iff.1 hp
  obtain ⟨g, hg, h2⟩ := ansThen_ok h2
  obtain ⟨p, hp, h2⟩ := ansThen_ok h2
  obtain ⟨hx, h2⟩ := Bool.and_eq_true_iff.1 h2
  obtain ⟨o, ho, -⟩ := ansThen_ok h2
  exact ⟨e, j, hj, h1, g.1, g.2, p.1, p.2, o.1, o.2, jobReads_of_readMany hg, jobReads_of_readMany hp, jobReads_of_readMany ho,
    of_decide_eq_true hx⟩
/-- EngineCommands: sums of the ring and of the switch, which the engine writes with the status block. -/
theorem test_wit_sums :
    let writes (parts : List (Nat × List Elem)) (sw : Option (List Elem)) : Bool :=
      let c := allReduce0 true parts [] sw
      (jobAt 0 0 (stC c)).any fun q => decide (q.1 = .collective) && decide (q.2.cmd.group ≠ []) &&
        decide (q.2.cmd.failed = []) && decide (q.2.cmd.switched = sw) &&
        ansThen (q.2.write 0x10100 (leBytes 4 3) false { stC c with fresh := (stC c).fresh + 1 + 1 }) fun w =>
          ansThen (q.2.write 0x10240 (leBytes 8 0) false w.2) fun _ => true
    writes [(0, [1]), (1, [2])] none = true ∧ writes [(0, [1])] (some [3]) = true ∧
      ([(0, [1]), (1, [2])] : List (Nat × List Elem)).length = [0, 1].length ∧ ([3] : List Elem).length = 1 := by decide +kernel
/-- EngineCommands: a rank that failed before TMO, one that is missing after it, and the report of either. -/
theorem test_wit_missing :
    let f := allReduce0 true [(0, [1])] [1] none
    let l := allReduce0 true [(0, [1])] [] none
    let late (t : Word) (c : Cmd) : Bool :=
      decide (max ((c.words.getD 6 0).toNat % 2 ^ 32) 1 * 1000 ≤ ((stP fun p => { p with time := t }).pkg.time - c.start).toNat)
    late 0 f = false ∧ f.failed ≠ [] ∧ late 1000 l = true ∧ ([1] : List Nat) ≠ [] ∧ ([1] : List Nat).Nodup ∧
    (∀ r ∈ ([1] : List Nat), r < f.group.length ∧ r ≠ f.rank) ∧ (∀ r ∈ f.failed, r ∈ ([1] : List Nat)) ∧
    (∀ r ∈ ([1] : List Nat), ∀ p ∈ l.parts, p.1 ≠ r) ∧ l.switched = none ∧
    (∀ r < l.group.length, r ∈ ([1] : List Nat) ↔ (r ∈ l.failed ∨ ∀ p ∈ l.parts, p.1 ≠ r)) ∧
    ((jobAt 0 0 (stC f)).any fun q =>
      ansThen (q.2.write 0x10240 (leBytes 8 1 ++ missingMask [1] ++ leBytes 48 0) false (stC f)) fun _ => true) = true := by
  decide +kernel
/-- A replay at iteration 1 of 3 of a loop whose body adds 8 to the carried register s5 and loads from there. -/
def replay0 : Mark := { mark0 .replaying 0 [⟨0, 0x2000C, .ld c0 .i64 (sr 4) 5 (.imm 0), true, false, some (0x10008, 8), 0, false,
    true, none⟩, ⟨0, 0x20018, .addi c0 ⟨.i64, false, sr 5, sr 5, .imm 0⟩ 8, true, false, none, 0, false, true, none⟩] with
  replay := .running, next := 1, first := 5, kinds := [0], base := [0x10000], delta := [8] }
/-- A launch of that hart with a lease of page 1. -/
def stReplay : State := { stH (fun h => { h with launch := some 1, mark := replay0 }) with
  launches := [{ launch0 0 0 with leases := [1] }]
  tlb := [⟨.base 0, 0, 0x10000, 0x10000, 0x10000, true, true, 2⟩] }
/-- EngineCommands: the checks, the room and the run of an iteration's records. -/
theorem test_wit_replay :
    ctxOf stReplay 0 = some (0, stReplay.hart) ∧ stReplay.hart.mark.state = .replaying ∧ stReplay.hart.mark.replay = .running ∧
    let start : State := { stReplay.focus 0 with hart := replayHart stReplay.hart (Config.freeWord 0), fresh := 1 }
    (∃ rooms, replayChecks replay0 replay0.trace [] start = .ok rooms ∧ noRoomFor start 0 rooms = none) ∧
    (∀ n, start.appendHeld n = false) ∧ ∃ r, BodyRuns replay0 replay0.trace start r := by
  refine ⟨by decide +kernel, rfl, rfl, ?_, fun _ => appendHeld_none rfl _, ?_⟩
  · obtain ⟨r, hr, hp⟩ := okThen_ok (x := replayChecks replay0 replay0.trace []
      { stReplay.focus 0 with hart := replayHart stReplay.hart (Config.freeWord 0), fresh := 1 }) (p := fun r =>
        decide (noRoomFor { stReplay.focus 0 with hart := replayHart stReplay.hart (Config.freeWord 0), fresh := 1 } 0 r = none))
      (by decide +kernel)
    exact ⟨r, hr, of_decide_eq_true hp⟩
  · obtain ⟨r, hr⟩ := okOf_ok (x := replayPath replay0 replay0.trace
      { stReplay.focus 0 with hart := replayHart stReplay.hart (Config.freeWord 0), fresh := 1 }) (by decide +kernel)
    exact ⟨r, bodyRuns_of_replayPath hr⟩
/-- EngineCommands: accesses of a replay that pass: a load by each form, and a store with room for its record. -/
theorem test_wit_replay_access :
    let s : State := { stReplay with hart := replayHart stReplay.hart 0 }
    let passes (i : Instr) : Bool := match bodyAccess i s.hart with
      | some (va, n) => okThen (s.check (replayAgent 0 s) ⟨va, n, if isStore i then .store else .load, true, true⟩) fun acc =>
          !notHeld s acc && decide (s.logFull (State.recordAddrs acc) = none)
      | none => false
    let o : VMOps := ⟨.i32, 1, 0, ⟨5, 0⟩, .imm 0, false, 0, false, false, false⟩
    (passes (.ld c0 .i64 (sr 4) 5 (.imm 0)) && passes (.ldx c0 .i64 (sr 4) 5 0 0) && passes (.vld c0 o) && passes (.vst c0 o) &&
      passes (.st c0 .i64 (sr 4) 5 (.imm 0))) = true ∧ s.logged = false ∧ s.pkg.migFwd = false ∧ s.pkg.fwds = [] := by
  decide +kernel
/-- EngineCommands: operations of a body, scalar ones and a vector one of one position. -/
theorem test_wit_replay_ops :
    let s := stH fun h => { h with vl := 1 }
    after (exec (.add c0 ⟨.i64, false, sr 4, sr 1, sr 2⟩) s) (fun _ => true) = true ∧
    after (exec (.vadd c0 ⟨.i32, false, vr 2, vr 1, vr 1, x0⟩) s) (fun t => decide (t.hart.vcq = [])) = true ∧
    (s.hart.guard c0 = true ∧ s.vlen = 1) ∧ after (exec (.cmp c0 .lt false 1 2 (.imm 3)) s) (fun _ => true) = true := by
  decide +kernel
/-- EngineCommands: no forwarded frame, so the bytes that an engine writes read back at their address. -/
theorem test_wit_engine_write :
    ((jobAt 0 0 (stC (copy0 3))).any fun q => ansThen (q.2.write 0x10100 [5] false (stC (copy0 3))) fun _ => true) = true ∧
    (stC (copy0 3)).pkg.migFwd = false ∧ (stC (copy0 3)).pkg.fwds = [] := by decide +kernel
/-- StepRunsDecoded: pad at the program counter. -/
theorem test_wit_step_pad :
    let s := placed 0x00FC00E00038000E00000000
    s.schedule = [] ∧ boundary s = none ∧ s.vectorStep = none ∧ ∃ r, s.fetch s.hart.pc = .ok r ∧
      decide (decode (BitVec.ofNat 96 (leNat r.1)) = .ok (.pad c0)) = true :=
  ⟨by decide +kernel, by decide +kernel, by decide +kernel, okThen_ok (by decide +kernel)⟩
/-- TrapEntry: a fetch that fails, of a hart of a launch and at management level. -/
theorem test_wit_fetch_fault : (stL id).terminal ⟨.fetch, 0⟩ = true ∧ (stL id).hart.evict = false ∧
    (stH fun h => { h with level := .management, inh := true }).terminal ⟨.fetch, 0⟩ = true := by decide +kernel
/-- StepRunsDecoded: a mwait behind an instruction that waits for the entry of its queue, and a program counter whose page is not
mapped. -/
theorem test_wit_step_waits :
    let i : Instr := .vmov c0 ⟨.i32, false, vr 2, .q 8, .none, x0⟩
    let s := stH fun h => { h with vcq := [⟨0x20000, i, st0.envOf i, none, false⟩,
      ⟨0x2000C, .mwait c0 (some 1), st0.envOf (.mwait c0 (some 1)), none, false⟩] }
    let f := stH fun h => { h with pc := 0x50000000 }
    (s.schedule = [] ∧ boundary s = none ∧ s.vectorStep = none ∧ s.hart.waiting = none ∧ s.hart.vqf = false) ∧
    boundary f = none ∧ f.vectorStep = none ∧ f.hart.waiting = none ∧
    (match f.fetch f.hart.pc with | .error t => decide (t.cause ≠ .held) | .ok _ => false) = true := by decide +kernel
/-- TrapEntry: an Illegal Instruction of a handler, which is terminal. -/
theorem test_wit_illegal_terminal : (stL fun h => { h with inh := true }).terminal ⟨.illegal, 5⟩ = true ∧
    (stL fun h => { h with inh := true }).hart.evict = false ∧ (stL fun h => { h with inh := true }).hart.level ≠ .management := by
  decide +kernel
/-- TimeAndMarks: a tsc that finds its queue full, and one that has waited there since time 9. -/
theorem test_wit_tsc_waits :
    let full := stH fun h => { h with qs := [(0, List.replicate 16 0)] }
    let s := stH fun h => { h with waiting := some (.tsc c0 (.q 0)), tscAt := some 9 }
    full.hart.guard c0 = true ∧ full.hart.waiting = none ∧ putS (.q 0) 1 full.hart = none ∧
    s.hart.waiting = some (.tsc c0 (.q 0)) ∧ s.hart.tscAt = some 9 ∧ Room (.q 0) s.hart := by
  refine ⟨by decide +kernel, rfl, by decide +kernel, rfl, rfl, fun n hn => ?_⟩
  cases hn
  decide +kernel
/-- NestedLaunches: an ipurge behind a queued store, one behind a queued load, and a block that its hart can fetch. -/
theorem test_wit_purge_queue :
    let o : VMOps := ⟨.i32, 1, 0, ⟨5, 0⟩, .imm 0, false, 0, false, false, false⟩
    let e (i : Instr) : VEntry := ⟨0x20000, i, st0.envOf i, none, false⟩
    writesMem (e (.vst c0 o)).instr = true ∧ writesMem (e (.vld c0 o)).instr = false ∧
    (stH fun h => { h with vcq := [e (.vld c0 o)] }).hart.episode = none ∧
    ((0x10000, 4) ∈ blocks (4 / 4096 + 2) (0x10000 : Word) 4 ∧ st0.window st0.agent 0x10000 = some (0x10000, 0) ∧
      (match (st0.lookup st0.agent.cache st0.hart.pid 0x10000).1 with | .leaf _ => true | _ => false) = true) := by
  decide +kernel
/-- ErrorsAndReset: a bring-up that goes on writes C in the journal's control line. -/
theorem test_cold_reset_control : after (exec .coldReset State.reset) (fun t =>
    t.pkg.jEn && decide (t.rawByte 8 = 204) && decide (t.owner 0 = 1)) = true := by decide +kernel
/-- WaitsEnd, Scheduling, EngineCommands: zones that run, for a hart and for a command of each engine, and zones that are stopped. -/
theorem test_wit_zone_off :
    let off (z : Nat) : State := if z < 64 then { st0 with zonesC := [(z, { Zone.compute with f := 0 })] }
      else { st0 with zonesB := [(z, { Zone.base with f := 0 })] }
    zoneStopped (st0.focus 0) = false ∧ zoneStopped ((off 0).focus 0) = true ∧
    (∀ t ∈ ([1, 5, 0x10, 0x50, 0x60, 0xE0] : List Byte), (cmd0 [] t).stopped 0 st0 = false) ∧
    (cmd0 [] 1).stopped 0 (off 0) = true ∧ (cmd0 [] 0x4F).stopped 0 (off 79) = true ∧ (cmd0 [] 0x51).stopped 0 (off 65) = true ∧
    (cmd0 [] 0xDF).stopped 0 (off 79) = true ∧ (stReplay.zoneAt (64 + replay0.slice / 16)).f ≠ 0 ∧
    ((off 64).zoneAt (64 + replay0.slice / 16)).f = 0 := by decide +kernel
/-- EngineCommands: a copy that has ended with a byte to count, before another command. -/
theorem test_wit_counting :
    let d : Cmd := { cmd0 [0x900000104, 0, 0, 4] 1 with wp := 4, counted := 3, outcome := some (0, 0) }
    let s : State := stH fun h => h.modPort 0 fun p => { p with cmds := [d, copy0 0] }
    (s.hart.port 0).cmds = [d, copy0 0] ∧ d.outcome ≠ none ∧ State.uncounted d = true ∧ jobAt 0 0 s = none := by decide +kernel
/-- The elastic fault of a queued load saves its context, after the other vector stream has gone on: a later vmov of it has
written v9, and the load alone is left (R407 step 2, R412). -/
theorem test_elastic_drain :
    let o : VMOps := ⟨.i32, 1, 0, ⟨5, 0⟩, .imm 0, false, 0, false, false, false⟩
    let i : Instr := .vmov c0 ⟨.i32, false, vr 9, .imm 7, .none, x0⟩
    let s : State := { stH (fun h => { h with launch := some 1, vcq := [
        ⟨0x20000, .vld c0 o, st0.envOf (.vld c0 o), some (⟨.translation, 0x50000⟩, 0), false⟩,
        ⟨0x2000C, i, { st0.envOf i with seq := 1 }, none, false⟩] }) with
      launches := [{ launch0 0 0 with ranges := [⟨0x50000, 0x10000, true⟩] }] }
    s.elasticTrap ⟨.translation, 0x50000⟩ = true ∧ (s.takePending.any fun t => t.saved.any fun c =>
      decide (c.reason = .elastic) && decide (c.hart.vcq.length = 1) && decide (c.hart.rv 9 0 = 7)) = true := by decide +kernel
/-- Words with modifiers that their instructions do not forbid, built from the fields of R17, R22 and R24: jr s20.rb,
vst.n32 v5.rn, [s4.sw + s6.b0], vldx.f32 v5, [s4 + -|v6|] with signed indices, and wait.lt.system s3, [s4.sw], -s5. -/
theorem test_decode_modifiers :
    decode 0x080000E00002880E00000000 = .ok (.jr c0 ⟨20, 4⟩) ∧
    decode 0x93180022B800820032800000 =
      .ok (.vst c0 ⟨.n32, 5, 7, ⟨4, 1⟩, .s 6 ⟨false, 5, false, false⟩, false, 0, false, false, false⟩) ∧
    decode 0x922000228000800230600800 =
      .ok (.vldx c0 ⟨.f32, 5, 0, ⟨4, 0⟩, .v 6 ⟨false, 0, true, true⟩, false, 0, false, false, true⟩) ∧
    decode 0xBC4000018000820028420000 =
      .ok (.wait c0 .lt false (sr 3) ⟨4, 1⟩ (.s 5 ⟨false, 0, true, false⟩) .system false) := by decide +kernel
/-- The same words where R24 forbids the modifier: NEG on a target, SWZ on the destination of a load, and NEG and ABS on indices
read as natural numbers. -/
theorem test_decode_modifiers_illegal :
    ([0x080000E00002810E00000000, 0x90180022B800820032800000, 0x922000228000800230600000] : List IWord).all
      (fun w => match decode w with | .ok _ => false | .error _ => true) = true := by decide +kernel
/-- jr s1.sw goes to s1 with the halves of each container swapped (R25, R26, R90). -/
theorem test_jr_swizzle : after (exec (.jr c0 ⟨1, 1⟩) (stH fun h => { h with s := [(1, 0x000C0001)] })) (fun t =>
    decide (t.hart.pc = 0x1000C)) = true := by decide +kernel
/-- A vldq that waits on a full queue stops its own stream alone: the vfetch behind it begins its episode, whose vadd runs, and whose
vld waits (R170, R172). -/
theorem test_episode_beside :
    let f : Instr := .vfetch c0 none 0x100
    let ld : Instr := .vldq c0 .i32 0 ⟨1, 0⟩ (.imm 0)
    let full : State := stH fun h => { h with qv := [(0, List.replicate 4 [(0, 5)])], vcq := [
      ⟨0x20000, ld, st0.envOf ld, none, false⟩, ⟨0x2000C, f, { st0.envOf f with seq := 1 }, none, false⟩] }
    let block (i : Instr) : State := (placed (encode i).toNat).onH fun h => { h with
      qv := [(0, List.replicate 4 [(0, 5)])], vcq := [⟨0x1F000, ld, st0.envOf ld, none, false⟩]
      episode := some ⟨{ st0.envOf (.vpret c0) with seq := 1 }, [(0, 0x20000), (1, 0x20000)], [0, 1], 0x20000, 16, 0x1FFF4⟩ }
    let vadd : Instr := .vadd c0 ⟨.i32, false, vr 9, vr 1, vr 1, x0⟩
    let vld : Instr := .vld c0 ⟨.i32, 9, 0, ⟨1, 0⟩, .imm 0, false, 0, false, false, false⟩
    (full.vectorStep.any fun t => t.hart.episode.isSome && decide (t.hart.vcq.length = 1)) = true ∧
    (block vadd).vectorStep.isSome = true ∧ (block vld).vectorStep = none ∧
    ({ block vld with hart := { (block vld).hart with vcq := [] } } : State).vectorStep.isSome = true ∧
    (∃ ep, (block vadd).hart.episode = some ep ∧ (block vadd).olderRun ep = none) := by
  refine ⟨by decide +kernel, by decide +kernel, by decide +kernel, by decide +kernel, _, rfl, by decide +kernel⟩
/-- The end of a load stream's binding holds no store back, and that of a store stream does while it has entries to write (R209). -/
theorem test_holds_stores :
    let b (st : Bool) : Stream := ⟨.i32, st, false, 0x10000, 4, 0, 9, 0, 0, 4, 9, 9, [], none, 0x20000, 0, 0, [], .user⟩
    let u : Instr := .vunbind c0 0
    let s (st : Bool) (q : List (List (Nat × Elem))) : Hart := (stH fun h => { h with
      streams := [(0, some (b st))], qv := [(0, q)], vcq := [⟨0x20000, u, st0.envOf u, none, false⟩] }).hart
    holdsStores (s false [[]]) = false ∧ holdsStores (s true [[]]) = true ∧ holdsStores (s true []) = false := by decide +kernel
/-- A saved mask position at or above the saved vl comes back as zero, whatever the area holds there (R183). -/
theorem test_restored_mask :
    let c : Saved := ⟨{ st0.hart with vl := 2, csave := 0x100 }, 0, 0x20000, 0x20000, 1, .yield, 0, []⟩
    let s : State := { st0 with mem := [(0x130001, 0xFF), (0x130005, 0xFF)] }
    (restoredHart s c Hart.reset).rmask 0 1 = 0xFF ∧ (restoredHart s c Hart.reset).rmask 0 5 = 0 := by decide +kernel
/-- A STEP in training notes where a queued vld has gone (R314, R417). -/
theorem test_step_place :
    let i : Instr := .vld c0 ⟨.i32, 9, 0, ⟨1, 0⟩, .imm 0, false, 0, false, false, false⟩
    let e : VEntry := ⟨0x2000C, i, st0.envOf i, none, false⟩
    let r : TraceRec := { rec0 0 0x10000 with instr := i, acc := some (0x10000, 4), pa := 0, queued := some st0.hart.vseq }
    let s : State := stH fun h => { h with mark := mark0 .training 1 [r], vcq := [e] }
    (stepEntry e [] s).hart.mark.trace.map (fun t => (t.pa, t.queued)) = [(0x10000, none)] := by decide +kernel
/-- A frame that an earlier migration still forwards has moved with the frame it is forwarded to (R352, R390). -/
theorem test_frames_of : (stP fun p => { p with fwds := [(1, 2), (2, 3)] }).framesOf 1 = [3, 2, 1] := by decide +kernel
/-- Policy 01 with a full buffer: where the window at TAIL is the one that wcur names, since the snapshot of the next is being
appended, nothing is discarded; once wcur has moved on, TAIL goes to that snapshot (R420, R426). -/
theorem test_current_window :
    let s (w : BitVec 32) : State := stH fun h => { h with
      lPol := 1, lSz := 12, lhd := 64, ltl := 0, lMarks := [⟨5, 1, 10⟩], wcur := w }
    (s 0).hart.lSlots = 64 ∧ ((s 0).makeRoom 1 2).hart.lLost = true ∧ ((s 0).makeRoom 1 2).hart.ltl = 0 ∧
    ((s 1).makeRoom 1 2).hart.lLost = false ∧ ((s 1).makeRoom 1 2).hart.ltl = 5 := by decide +kernel
/-- DebugPort: a halted hart whose core does not step, and one that does in a stopped zone. -/
theorem test_wit_debug_states :
    let s (estep : Bool) (zs : List (Nat × Zone)) : State := { stP (fun p => { p with fjpen := [(0, 1)] }) with
      hart := { hart0 with run := .halted, estep := estep }, zonesC := zs }
    let off := [(0, { Zone.compute with f := 0 })]
    fjoirMay 0 (s false []) = true ∧ ((s false []).hartAt 0).run = .halted ∧ ((s false []).hartAt 0).estep = false ∧
    fjoirMay 0 (s true off) = true ∧ ((s true off).hartAt 0).run = .halted ∧ ((s true off).hartAt 0).estep = true ∧
    zoneStopped ((s true off).focus 0) = true ∧ zoneStopped ((s true []).focus 0) = false := by decide +kernel
/-- Scheduling: a launch whose last hart has halted as its queue expires, and one that step 2 stops. -/
theorem test_wit_halted_launch :
    let l : Launch := { launch0 0 0 with st := .running, ranges := [], placed := 1, ended := 1 }
    let m : Launch := { l with seq := 2, ended := 0 }
    let r : Reset := ⟨0, 1, 0, 0, [], [], [], [1]⟩
    let s : State := { State.reset with
      launches := [l, m], queues := [(0, ⟨none, 0, none, some r⟩)], schedule := [.resetStep 0] }
    l.ended = l.harts ∧ l.stopping = false ∧ l.pid = r.pid ∧ l.seq ∈ r.halted ∧ m.seq ∉ r.halted ∧
    ((queueAt (expire 0 s) 0).expiry.map Reset.halted) = some [1] ∧
    after (step s) (fun t => decide ((queueAt t 0).expiry.map Reset.stopped = some [2])) = true := by decide +kernel
/-- ErrorsAndReset: the scrubber of a stack that runs, and of one that is stopped (R463). -/
theorem test_wit_scrub_zone :
    let s : State := { stP (fun p => { p with scrubEn := true }) with zonesB := [(65, { Zone.base with f := 0 })] }
    s.zoneOff (64 + 0 / 4096) = false ∧ s.zoneOff (64 + 4096 / 4096) = true ∧ s.pkg.scrubEn = true := by decide +kernel
/-- EngineCommands: a row of the pool at a home slice of a stopped zone stalls (R463). -/
theorem test_pool_held :
    ∃ e j, jobAt 0 0 (stA (attention0 1) []) = some (e, j) ∧ (match poolBytes j 8 0 34
      { stA (attention0 1) [] with zonesB := [(64 + 0x10000 / 2048 % 16, { Zone.base with f := 0 })] } with
      | .stall => true | _ => false) = true := job_some (by decide +kernel)

end Sys2Proof.Tests
end

section
/-! PROOFS. Scalar loads that pass their checks (R199, R200). -/

namespace Sys2Proof.Proofs

open Sys2Proof.Machine Sys2Proof.Safety

/-- Sources that can be read are handed on, with the hart that is left of them (R72). -/
theorem withSources_of (i : Instr) {a b : Operand} (f : Word → Word → State → State) {s : State} {x y : Word} {h : Hart}
    (hs : Sources a b s.hart x y h) : withSources i a b f s = f x y { s with hart := h } := by
  obtain ⟨h1, ha, hb⟩ := hs
  simp only [withSources, ha, hb]

/-- A scalar register as operand A is read as it stands and removes no queue entry, so B sees the same hart. -/
theorem sources_register (n : BitVec 6) (m : Mods) {b : Operand} {h h' : Hart} {y : Word} (hb : takeS b h = some (y, h')) :
    Sources (.s n m) b h (h.rs n.toNat) y h' := ⟨h, rfl, hb⟩

/-- A result delivered to a destination that takes it completes the instruction. -/
theorem deliver_completes (i : Instr) (before : State) {d : Operand} {v : Word} {s : State} {h : Hart}
    (hp : putS d v s.hart = some h) : deliver i before d v s = completed s h := by
  simp only [deliver, hp]
  rfl

/-- A load whose access passes its checks answers the bytes of the access and the state that performing it leaves. -/
theorem load_of_check {s : State} {va : Word} {n : Nat} {vec al : Bool} {acc : Acc}
    (hc : s.check s.agent ⟨va, n, .load, vec, al⟩ = .ok acc) :
    s.load va n vec al = .ok (s.bytesAt acc, (s.loadAt s.hart.holder acc).2) := by
  simp only [State.load, hc, State.loadAt]

/-- A load into D whose access passes its checks completes where D takes the bytes of the access, extended by the format. -/
theorem loadTo_completes (i : Instr) {f : Fmt} {d : Operand} {al : Bool} {ea : Word} {s : State} {acc : Acc} {h : Hart}
    (hc : s.check s.agent ⟨ea, f.width / 8, .load, false, al⟩ = .ok acc)
    (hp : putS d (ext f (fmtRead f (leNat (s.bytesAt acc)))) (s.loadAt s.hart.holder acc).2.hart = some h) :
    loadTo i f d al ea s = completed (s.loadAt s.hart.holder acc).2 h := by
  simp only [loadTo, fmtBytes, load_of_check hc, deliver_completes i s hp]

/-- An instruction that loads from an address ea of its two sources completes with the bytes there, extended by its format,
where the access passes its checks and the destination has room. -/
theorem load_completes {i : Instr} {c : Ctl} {f : Fmt} {d a b : Operand} {al : Bool} (ea : Word → Word → Word)
    (he : ∀ s, exec i s = guarded c s (withSources i a b fun x y => loadTo i f d al (ea x y)))
    {s : State} {x y : Word} {h : Hart} {acc : Acc} (hg : s.hart.guard c = true) (hs : Sources a b s.hart x y h) :
    let s1 : State := { s with hart := h }
    let s2 : State := (s1.loadAt s1.hart.holder acc).2
    s1.check s1.agent ⟨ea x y, f.width / 8, .load, false, al⟩ = .ok acc → Room d s2.hart →
      ∃ h', putS d (ext f (fmtRead f (leNat (s1.bytesAt acc)))) s2.hart = some h' ∧ exec i s = .next (completed s2 h') := by
  intro s1 s2 hc hr
  obtain ⟨h', hp⟩ := putS_room hr (ext f (fmtRead f (leNat (s1.bytesAt acc))))
  refine ⟨h', hp, ?_⟩
  rw [he, guarded_on _ hg, withSources_of i _ hs, loadTo_completes i hc hp]

/-- Settles O14: ld, ld.aq and ldx are `load_completes` at their addresses A + B, A + B and A + B * size + disp. -/
theorem scalarLoads : Obligations.ScalarLoads := by
  intro c f sc d a b bo disp s hg
  refine ⟨fun y h hb => ⟨fun acc => ?ld, fun acc => ?ldAq⟩, fun acc => ?ldx⟩
  case ld => exact load_completes (fun x y => x + y) (fun _ => rfl) hg (sources_register a Mods.none hb)
  case ldAq => exact load_completes (fun x y => x + y) (fun _ => rfl) hg (sources_register a Mods.none hb)
  case ldx =>
    have hb : takeS (.s b Mods.none) s.hart = some (s.hart.rs b.toNat, s.hart) := rfl
    exact load_completes (fun x y => x + y * BitVec.ofNat 64 (fmtBytes f) + disp.signExtend 64) (fun _ => rfl) hg
      (sources_register a Mods.none hb)

end Sys2Proof.Proofs
end

section
/-! PROOFS. What a cold reset leaves in slots and system registers (R8). -/

namespace Sys2Proof.Proofs

open Sys2Proof.Machine Sys2Proof.Safety

/-! ## The slots -/

theorem hartAt_reset (h : Nat) : State.reset.hartAt h = Hart.reset := by
  unfold State.hartAt
  split <;> rfl

/-- No slot differs from its reset state, so another focus changes nothing but the number of the focused hart. -/
theorem focus_reset (h : Nat) : State.reset.focus h = { State.reset with cur := h } := by
  unfold State.focus
  split
  · next e => rw [e]
  · rfl

/-! ## The focused hart's number in a read of a system register -/

/-- A hart register depends on the number of the focused hart through its lane groups alone. -/
theorem readHart_cur {s : State} {n : Nat} (hg : ({ s with cur := n } : State).groups = s.groups) (i : Nat) :
    readHart { s with cur := n } i = readHart s i := by
  unfold readHart
  rw [hg]

/-- A supervisor register depends on the number of the focused hart through its core and its cluster alone. -/
theorem readSuper_cur {s : State} {n : Nat}
    (hc : ({ s with cur := n } : State).coreAt ({ s with cur := n } : State).coreNo = s.coreAt s.coreNo)
    (hk : ({ s with cur := n } : State).clusterAt ({ s with cur := n } : State).clusterNo = s.clusterAt s.clusterNo)
    (i : Nat) : readSuper { s with cur := n } i = readSuper s i := by
  unfold readSuper
  rw [hc, hk]
  rfl

/-- A management register does not depend on the number of the focused hart. -/
theorem readManage_cur (s : State) (n i : Nat) : readManage { s with cur := n } i = readManage s i := rfl

/-- A system register reads alike on two harts that hold as many lane groups and whose cores and clusters are alike. -/
theorem readSr_cur {s : State} {n : Nat} (hg : ({ s with cur := n } : State).groups = s.groups)
    (hc : ({ s with cur := n } : State).coreAt ({ s with cur := n } : State).coreNo = s.coreAt s.coreNo)
    (hk : ({ s with cur := n } : State).clusterAt ({ s with cur := n } : State).clusterNo = s.clusterAt s.clusterNo)
    (i : BitVec 12) : readSr { s with cur := n } i = readSr s i := by
  unfold readSr
  simp only [readHart_cur hg, readSuper_cur hc hk, readManage_cur]

/-- After a cold reset no hart holds a lane group (R162). -/
theorem groups_reset (h : Nat) : ({ State.reset with cur := h } : State).groups = 0 := by
  simp [State.groups, State.coreAt, State.reset, Core.heldBy, Core.reset, tget]

/-- After a cold reset a system register reads alike on every hart. -/
theorem readSr_focus_reset (h : Nat) (i : BitVec 12) : readSr (State.reset.focus h) i = readSr State.reset i := by
  rw [focus_reset]
  exact readSr_cur ((groups_reset h).trans (groups_reset 0).symm) rfl rfl i

/-! ## The values -/

/-- A Boolean pass over a list of registers: it evaluates each of them once, where the bounded ∀ would be decided slowly. -/
theorem readSr_eq_zero_of_all {s : State} {l : List (BitVec 12)} (h : l.all (fun i => readSr s i == 0) = true) :
    ∀ i ∈ l, readSr s i = 0 := fun i hi => beq_iff_eq.1 (List.all_eq_true.1 h i hi)

/-- Settles O27: every slot is `Hart.reset`, and by `readSr_focus_reset` one evaluation of each register serves every hart. -/
theorem resetState : Obligations.ResetState := by
  refine ⟨fun h => by rw [hartAt_reset]; rfl, fun h => ?_⟩
  simp only [readSr_focus_reset]
  refine ⟨readSr_eq_zero_of_all ?zeros, ?values⟩
  case zeros => decide +kernel
  case values => decide +kernel

end Sys2Proof.Proofs
end

section
/-! PROOFS. The decoder and the encoder agree (R14, R35, R37). -/

namespace Sys2Proof.Proofs

open Sys2Proof.Laws

/-- Only an instruction of a word has a guard, so no other row is well formed. -/
theorem ctl_of_wf {i : Instr} (hw : i.wf = true) : ∃ c, i.ctl? = some c ∧ c.ok i.isMem = true ∧ i.formOk = true := by
  unfold Instr.wf at hw
  split at hw
  · next c hc => exact ⟨c, hc, Bool.and_eq_true_iff.1 hw⟩
  · cases hw

/-- A well-formed instruction decodes from its own encoding: one lemma of the family `RoundTrip` per instruction. -/
theorem decode_encode (i : Instr) (hw : i.wf = true) : decode (encode i) = .ok i := by
  cases i with
  | nop => exact RoundTrip.nop _ hw
  | pad => exact RoundTrip.pad _ hw
  | br => exact RoundTrip.br _ _ hw
  | brl => exact RoundTrip.brl _ _ hw
  | bc => exact RoundTrip.bc _ _ _ _ _ _ hw
  | dbnz => exact RoundTrip.dbnz _ _ _ hw
  | call => exact RoundTrip.call _ _ _ hw
  | calll => exact RoundTrip.calll _ _ _ hw
  | jcall => exact RoundTrip.jcall _ _ _ hw
  | jr => exact RoundTrip.jr _ _ hw
  | ret => exact RoundTrip.ret _ _ hw
  | ifpf => exact RoundTrip.ifpf _ _ _ _ hw
  | add => exact RoundTrip.add _ _ hw
  | sub => exact RoundTrip.sub _ _ hw
  | addi => exact RoundTrip.addi _ _ _ hw
  | mul => exact RoundTrip.mul _ _ hw
  | mulh => exact RoundTrip.mulh _ _ hw
  | div => exact RoundTrip.div _ _ hw
  | rem => exact RoundTrip.rem _ _ hw
  | min => exact RoundTrip.min _ _ hw
  | max => exact RoundTrip.max _ _ hw
  | and => exact RoundTrip.and _ _ hw
  | or => exact RoundTrip.or _ _ hw
  | xor => exact RoundTrip.xor _ _ hw
  | andn => exact RoundTrip.andn _ _ hw
  | shl => exact RoundTrip.shl _ _ hw
  | shr => exact RoundTrip.shr _ _ hw
  | sra => exact RoundTrip.sra _ _ hw
  | rot => exact RoundTrip.rot _ _ hw
  | clz => exact RoundTrip.clz _ _ hw
  | ctz => exact RoundTrip.ctz _ _ hw
  | popc => exact RoundTrip.popc _ _ hw
  | bfx => exact RoundTrip.bfx _ _ _ _ hw
  | bfi => exact RoundTrip.bfi _ _ _ _ hw
  | sext => exact RoundTrip.sext _ _ hw
  | zext => exact RoundTrip.zext _ _ hw
  | li => exact RoundTrip.li _ _ _ hw
  | lih => exact RoundTrip.lih _ _ _ hw
  | mov => exact RoundTrip.mov _ _ _ hw
  | lea => exact RoundTrip.lea _ _ _ _ _ _ hw
  | cmp => exact RoundTrip.cmp _ _ _ _ _ _ hw
  | sel => exact RoundTrip.sel _ _ _ _ _ _ hw
  | pand => exact RoundTrip.pand _ _ _ _ hw
  | por => exact RoundTrip.por _ _ _ _ hw
  | pxor => exact RoundTrip.pxor _ _ _ _ hw
  | pnot => exact RoundTrip.pnot _ _ _ hw
  | getsr => exact RoundTrip.getsr _ _ _ hw
  | putsr => exact RoundTrip.putsr _ _ _ hw
  | ld => exact RoundTrip.ld _ _ _ _ _ hw
  | st => exact RoundTrip.st _ _ _ _ _ hw
  | ldAq => exact RoundTrip.ldAq _ _ _ _ _ _ hw
  | stRl => exact RoundTrip.stRl _ _ _ _ _ _ hw
  | ldx => exact RoundTrip.ldx _ _ _ _ _ _ hw
  | prf => exact RoundTrip.prf _ _ _ hw
  | vadd => exact RoundTrip.vadd _ _ hw
  | vsub => exact RoundTrip.vsub _ _ hw
  | vmul => exact RoundTrip.vmul _ _ hw
  | vmulh => exact RoundTrip.vmulh _ _ hw
  | vmadd => exact RoundTrip.vmadd _ _ hw
  | vmin => exact RoundTrip.vmin _ _ hw
  | vmax => exact RoundTrip.vmax _ _ hw
  | vabsd => exact RoundTrip.vabsd _ _ hw
  | vavg => exact RoundTrip.vavg _ _ hw
  | vand => exact RoundTrip.vand _ _ hw
  | vor => exact RoundTrip.vor _ _ hw
  | vxor => exact RoundTrip.vxor _ _ hw
  | vandn => exact RoundTrip.vandn _ _ hw
  | vshl => exact RoundTrip.vshl _ _ hw
  | vshr => exact RoundTrip.vshr _ _ hw
  | vsra => exact RoundTrip.vsra _ _ hw
  | vcmp => exact RoundTrip.vcmp _ _ hw
  | vsel => exact RoundTrip.vsel _ _ hw
  | vmov => exact RoundTrip.vmov _ _ hw
  | vbcast => exact RoundTrip.vbcast _ _ hw
  | vid => exact RoundTrip.vid _ _ hw
  | vclz => exact RoundTrip.vclz _ _ hw
  | vpopc => exact RoundTrip.vpopc _ _ hw
  | vdot4 => exact RoundTrip.vdot4 _ _ hw
  | vfadd => exact RoundTrip.vfadd _ _ hw
  | vfsub => exact RoundTrip.vfsub _ _ hw
  | vfmul => exact RoundTrip.vfmul _ _ hw
  | vfma => exact RoundTrip.vfma _ _ hw
  | vfmin => exact RoundTrip.vfmin _ _ hw
  | vfmax => exact RoundTrip.vfmax _ _ hw
  | vfcmp => exact RoundTrip.vfcmp _ _ hw
  | vfdiv => exact RoundTrip.vfdiv _ _ hw
  | vfsqrt => exact RoundTrip.vfsqrt _ _ hw
  | vfrcp => exact RoundTrip.vfrcp _ _ hw
  | vfrsq => exact RoundTrip.vfrsq _ _ hw
  | vfexp2 => exact RoundTrip.vfexp2 _ _ hw
  | vflog2 => exact RoundTrip.vflog2 _ _ hw
  | vfscl => exact RoundTrip.vfscl _ _ hw
  | vfrnd => exact RoundTrip.vfrnd _ _ hw
  | vxch => exact RoundTrip.vxch _ _ hw
  | vperm => exact RoundTrip.vperm _ _ hw
  | vslide => exact RoundTrip.vslide _ _ hw
  | vcompress => exact RoundTrip.vcompress _ _ hw
  | vexpand => exact RoundTrip.vexpand _ _ hw
  | vred => exact RoundTrip.vred _ _ hw
  | vredsc => exact RoundTrip.vredsc _ _ hw
  | vdot => exact RoundTrip.vdot _ _ hw
  | vcvt => exact RoundTrip.vcvt _ _ hw
  | vpack => exact RoundTrip.vpack _ _ hw
  | vunpack => exact RoundTrip.vunpack _ _ hw
  | mand => exact RoundTrip.mand _ _ _ _ hw
  | mor => exact RoundTrip.mor _ _ _ _ hw
  | mnot => exact RoundTrip.mnot _ _ _ hw
  | mpopc => exact RoundTrip.mpopc _ _ _ _ hw
  | mfirst => exact RoundTrip.mfirst _ _ _ _ hw
  | vld => exact RoundTrip.vld _ _ hw
  | vlds => exact RoundTrip.vlds _ _ hw
  | vldx => exact RoundTrip.vldx _ _ hw
  | vst => exact RoundTrip.vst _ _ hw
  | vsts => exact RoundTrip.vsts _ _ hw
  | vstx => exact RoundTrip.vstx _ _ hw
  | vldq => exact RoundTrip.vldq _ _ _ _ _ hw
  | vstq => exact RoundTrip.vstq _ _ _ _ _ hw
  | vbind => exact RoundTrip.vbind _ _ _ _ _ _ hw
  | vunbind => exact RoundTrip.vunbind _ _ hw
  | stmap => exact RoundTrip.stmap _ _ _ _ _ hw
  | stwb => exact RoundTrip.stwb _ _ _ hw
  | stdrop => exact RoundTrip.stdrop _ _ _ hw
  | setts => exact RoundTrip.setts _ _ _ _ _ hw
  | wfmt => exact RoundTrip.wfmt _ _ _ _ hw
  | wload => exact RoundTrip.wload _ _ _ _ _ hw
  | mscale => exact RoundTrip.mscale _ _ _ _ _ hw
  | mzero => exact RoundTrip.mzero _ _ hw
  | maccLd => exact RoundTrip.maccLd _ _ _ _ hw
  | mova => exact RoundTrip.mova _ _ _ _ _ _ _ hw
  | mma => exact RoundTrip.mma _ _ _ _ _ _ hw
  | mwait => exact RoundTrip.mwait _ _ hw
  | mstat => exact RoundTrip.mstat _ _ _ hw
  | amo => exact RoundTrip.amo _ _ _ _ _ _ _ _ hw
  | vamo => exact RoundTrip.vamo _ _ _ _ _ _ _ _ _ _ _ hw
  | barInit => exact RoundTrip.barInit _ _ _ hw
  | barArrive => exact RoundTrip.barArrive _ _ _ _ hw
  | barExpect => exact RoundTrip.barExpect _ _ _ hw
  | barWait => exact RoundTrip.barWait _ _ _ hw
  | barTest => exact RoundTrip.barTest _ _ _ hw
  | semTas => exact RoundTrip.semTas _ _ hw
  | semClr => exact RoundTrip.semClr _ _ hw
  | crLd => exact RoundTrip.crLd _ _ _ hw
  | crSt => exact RoundTrip.crSt _ _ _ hw
  | fnc => exact RoundTrip.fnc _ _ _ hw
  | wait => exact RoundTrip.wait _ _ _ _ _ _ _ _ hw
  | push => exact RoundTrip.push _ _ _ _ hw
  | pop => exact RoundTrip.pop _ _ _ hw
  | peek => exact RoundTrip.peek _ _ _ hw
  | qlen => exact RoundTrip.qlen _ _ _ hw
  | cpwp => exact RoundTrip.cpwp _ _ _ _ hw
  | zloop => exact RoundTrip.zloop _ _ _ hw
  | lnch => exact RoundTrip.lnch _ _ _ hw
  | ipurge => exact RoundTrip.ipurge _ _ _ hw
  | setvl => exact RoundTrip.setvl _ _ _ _ hw
  | vfetch => exact RoundTrip.vfetch _ _ _ hw
  | vpret => exact RoundTrip.vpret _ hw
  | farmNext => exact RoundTrip.farmNext _ _ _ _ hw
  | lprec => exact RoundTrip.lprec _ _ _ _ _ _ _ _ _ _ hw
  | lpend => exact RoundTrip.lpend _ hw
  | lpjoin => exact RoundTrip.lpjoin _ hw
  | treqFixed => exact RoundTrip.treqFixed _ _ hw
  | treqNeg => exact RoundTrip.treqNeg _ _ _ hw
  | treqPool => exact RoundTrip.treqPool _ _ _ _ hw
  | trel => exact RoundTrip.trel _ _ hw
  | doffretFinished => exact RoundTrip.doffretFinished _ hw
  | doffretSummarised => exact RoundTrip.doffretSummarised _ hw
  | doffretRefused => exact RoundTrip.doffretRefused _ hw
  | yield => exact RoundTrip.yield _ hw
  | trap => exact RoundTrip.trap _ _ hw
  | tret => exact RoundTrip.tret _ hw
  | ecall => exact RoundTrip.ecall _ _ hw
  | halt => exact RoundTrip.halt _ hw
  | sync => exact RoundTrip.sync _ hw
  | brk => exact RoundTrip.brk _ _ hw
  | wmark => exact RoundTrip.wmark _ _ hw
  | tsc => exact RoundTrip.tsc _ _ hw
  | cnt => exact RoundTrip.cnt _ _ _ hw
  | _ => obtain ⟨c, hc, -⟩ := ctl_of_wf hw; cases hc

/-- Settles O1: the first 12 bytes are those of the word, which decodes by `decode_encode`. -/
theorem decodeEncode : Obligations.DecodeEncode := by
  intro i rest hw
  have hlen : (wordBytes (encode i)).length = instrBytes := wordBytes_length _
  have hshort : ¬ (wordBytes (encode i) ++ rest).length < instrBytes := by rw [List.length_append, hlen]; omega
  rw [decodeBytes, if_neg hshort, List.take_left' hlen, List.drop_left' hlen, ofNat_wordBytes, decode_encode i hw]

/-- What decodes is well formed, and its encoding is the word. -/
theorem decode_ok {w : IWord} {i : Instr} (h : decode w = .ok i) : i.wf = true ∧ encode i = w := by
  unfold decode at h
  split at h
  · cases h
  split at h
  · cases h
  split at h
  · cases h
  next hwf =>
    split at h
    · cases h
    next he => cases h; exact ⟨by simpa using hwf, by simpa using he⟩

/-- Settles O2: by `decode_ok` a word is the encoding of what it decodes to. -/
theorem decodeStrict : Obligations.DecodeStrict :=
  ⟨fun _ _ h => decode_ok h, fun _ _ _ hv hw => (decode_ok hv).2.symm.trans (decode_ok hw).2⟩

/-- Settles O3: each of these words is a fixed value, and the decoder is evaluated on it. -/
theorem decodeWords : Obligations.DecodeWords := by
  unfold Obligations.DecodeWords
  decide +kernel

end Sys2Proof.Proofs
end

section
/-! PROOFS. Guards (R18) and the instructions without an effect (R33, R91, R201). -/

namespace Sys2Proof.Proofs

open Sys2Proof.Machine Sys2Proof.Safety

/-- The guard reads its predicate, and p0 as true. -/
theorem guard_eq (c : Ctl) (h : Hart) : h.guard c = xor c.neg (decide (c.p = 0) || h.p.getLsbD c.p.toNat) := by
  have hp : (c.p.toNat == 0) = decide (c.p = 0) := by
    rw [Bool.eq_iff_iff, beq_iff_eq, decide_eq_true_iff, BitVec.toNat_eq]
    rfl
  rw [Hart.guard, Hart.rp, hp]

/-- A legal guard is not the negation of p0. -/
theorem guard_of_ok {c : Ctl} {mem : Bool} (h : c.ok mem = true) : ¬ (c.neg = true ∧ c.p = 0) := by
  rintro ⟨hn, hp⟩
  simp [Ctl.ok, hn, hp] at h

/-- Each instruction of a word other than pad is an `if` on its guard, whose second branch only advances. -/
theorem exec_guard_off {i : Instr} {c : Ctl} {s : State} (hc : i.ctl? = some c) (hp : ∀ c', i ≠ .pad c')
    (hg : s.hart.guard c = false) : exec i s = .next s.advance := by
  have hoff : ¬ s.hart.guard c = true := Bool.eq_false_iff.1 hg
  cases i with
  | pad c' => exact absurd rfl (hp c')
  | _ => cases hc <;> exact if_neg hoff

/-- Settles O13: the guard's value, its legality, and that a false one leaves the advance alone. -/
theorem guardedOff : Obligations.GuardedOff := by
  refine ⟨fun c h => guard_eq c h, fun i c hc hw => ?_, fun i c s hc hg hp => exec_guard_off hc hp hg⟩
  obtain ⟨c', hc', hok, -⟩ := ctl_of_wf hw
  cases hc.symm.trans hc'
  exact guard_of_ok hok

/-- What advances under either value of its guard completes and does nothing else. -/
theorem guarded_advance (c : Ctl) (s : State) : guarded c s State.advance = .next (completed s s.hart) :=
  ite_self _

/-- Settles O12: the guarded effect of each is `State.advance`. -/
theorem noEffect : Obligations.NoEffect := fun c _ _ _ _ s =>
  ⟨guarded_advance c s, guarded_advance c s, guarded_advance c s⟩

end Sys2Proof.Proofs
end

section
/-! PROOFS. What reads and writes of memory leave alone: every context, the package registers and the answers. -/

namespace Sys2Proof.Proofs

open Sys2Proof.Machine Sys2Proof.Safety

/-- What of a state neither a read nor a write of memory changes. -/
structure Contexts where
  cur : Nat
  hart : Hart
  others : List (Nat × Hart)
  pkg : Pkg
  launches : List Launch
  saved : List Saved
  orphans : List (Nat × Hart)
  replies : List Reply

/-- The contexts of a state. -/
def contexts (s : State) : Contexts :=
  ⟨s.cur, s.hart, s.others, s.pkg, s.launches, s.saved, s.orphans, s.replies⟩

/-- A fold keeps what each of its steps keeps. -/
theorem foldl_keeps {α γ : Type} (g : State → γ) (f : State → α → State) (hf : ∀ s x, g (f s x) = g s) (l : List α) :
    ∀ s, g (l.foldl f s) = g s := by
  induction l with
  | nil => exact fun _ => rfl
  | cons x l ih => exact fun s => (ih (f s x)).trans (hf s x)

/-! ## Writes -/

@[simp] theorem contexts_putBytes (bs : List Byte) : ∀ (pa : Nat) (s : State), contexts (s.putBytes pa bs) = contexts s := by
  induction bs with
  | nil => exact fun _ _ => rfl
  | cons b bs ih => exact fun pa s => ih (pa + 1) (s.putByte pa b)

@[simp] theorem contexts_setTags (pa n : Nat) (t : BitVec 28) (s : State) : contexts (s.setTags pa n t) = contexts s := by
  refine foldl_keeps contexts _ ?_ _ s
  exact fun _ _ => rfl

@[simp] theorem contexts_recode (pa n : Nat) (s : State) : contexts (s.recode pa n) = contexts s := by
  unfold State.recode; split <;> rfl

@[simp] theorem contexts_patchHome (pa : Nat) (bs : List Byte) (s : State) : contexts (s.patchHome pa bs) = contexts s := by
  unfold State.patchHome; split <;> rfl

@[simp] theorem contexts_write (pa : Nat) (bs : List Byte) (t : BitVec 28) (s : State) :
    contexts (s.write pa bs t) = contexts s := by
  unfold State.write
  dsimp only
  split <;> simp

@[simp] theorem contexts_writeDev (pa : Nat) (bs : List Byte) (s : State) : contexts (s.writeDev pa bs) = contexts s := by
  simp [State.writeDev]

@[simp] theorem contexts_writeControl (s : State) : contexts s.writeControl = contexts s := contexts_writeDev _ _ s

@[simp] theorem contexts_cover (ws : List (Nat × Nat)) (s : State) : contexts (s.cover ws) = contexts s := by
  unfold State.cover; split <;> rfl

/-! ## Stashes and translation caches -/

@[simp] theorem contexts_keep (fills : List TlbEntry) (s : State) : contexts (s.keep fills) = contexts s := by
  unfold State.keep; split <;> rfl

@[simp] theorem keep_mem (fills : List TlbEntry) (s : State) : (s.keep fills).mem = s.mem := by
  unfold State.keep; split <;> rfl

@[simp] theorem contexts_moveLine (core : Nat) (o : Holder) (v p : Nat) (s : State) :
    contexts (s.moveLine core o v p) = contexts s := rfl

@[simp] theorem contexts_soil (core : Nat) (o : Holder) (v p : Nat) (s : State) :
    contexts (s.soil core o v p) = contexts s := by
  unfold State.soil; split <;> rfl

@[simp] theorem soil_mem (core : Nat) (o : Holder) (v p : Nat) (s : State) : (s.soil core o v p).mem = s.mem := by
  unfold State.soil; split <;> rfl

/-- Holding a line writes lines back and powers a bank: neither contexts nor bytes change. -/
theorem holdLine_keeps {γ : Type} (g : State → γ) (hd : ∀ s f, g (State.cleanIf f s) = g s)
    (hc : ∀ s c f, g (State.modCore c f s) = g s) (core : Nat) (cid : BitVec 12) (v p : Nat) (s : State) :
    g (s.holdLine core cid v p) = g s := by
  unfold State.holdLine
  dsimp only
  repeat' split
  all_goals simp only [hc, hd]

/-- Taking lines to a stash keeps what each step of it keeps. -/
theorem eachLine_keeps {γ : Type} (g : State → γ) (hd : ∀ s f, g (State.cleanIf f s) = g s)
    (hc : ∀ s c f, g (State.modCore c f s) = g s) {f : Nat → Nat → State → State} (hf : ∀ v p s, g (f v p s) = g s)
    (cid : BitVec 12) (c : Chunk) (s : State) : g (s.eachLine cid c f) = g s :=
  foldl_keeps g _ (fun s _ => (hf _ _ _).trans (holdLine_keeps g hd hc _ _ _ _ s)) _ s

@[simp] theorem contexts_soilChunk (o : Holder) (c : Chunk) (bs : List Byte) (s : State) :
    contexts (s.soilChunk o c bs) = contexts s := by
  unfold State.soilChunk
  split
  · exact eachLine_keeps contexts (fun _ _ => rfl) (fun _ _ _ => rfl) (fun v p s => contexts_soil c.core o v p s) _ _ s
  · exact contexts_patchHome _ _ s

@[simp] theorem soilChunk_mem (o : Holder) (c : Chunk) (bs : List Byte) (s : State) :
    (s.soilChunk o c bs).mem = s.mem := by
  unfold State.soilChunk
  split
  · exact eachLine_keeps State.mem (fun _ _ => rfl) (fun _ _ _ => rfl) (fun v p s => soil_mem c.core o v p s) _ _ s
  · exact State.patchHome_mem _ _ s

@[simp] theorem contexts_touch (o : Holder) (c : Chunk) (s : State) : contexts (s.touch o c) = contexts s := by
  unfold State.touch
  repeat' split
  · exact eachLine_keeps contexts (fun _ _ => rfl) (fun _ _ _ => rfl) (contexts_moveLine c.core o) _ _ s
  · exact eachLine_keeps contexts (fun _ _ => rfl) (fun _ _ _ => rfl) (fun _ _ _ => rfl) _ _ s
  · rfl

@[simp] theorem touch_mem (o : Holder) (c : Chunk) (s : State) : (s.touch o c).mem = s.mem := by
  unfold State.touch
  repeat' split
  · exact eachLine_keeps State.mem (f := State.moveLine c.core o) (fun _ _ => rfl) (fun _ _ _ => rfl) (fun _ _ _ => rfl) _ _ s
  · exact eachLine_keeps State.mem (fun _ _ => rfl) (fun _ _ _ => rfl) (fun _ _ _ => rfl) _ _ s
  · rfl

/-- A load changes no context. -/
theorem contexts_loadAt (o : Holder) (acc : Acc) (s : State) : contexts (s.loadAt o acc).2 = contexts s :=
  (foldl_keeps contexts _ (fun s c => contexts_touch o c s) _ _).trans (contexts_keep _ s)

/-- A load changes no byte. -/
theorem loadAt_mem (o : Holder) (acc : Acc) (s : State) : (s.loadAt o acc).2.mem = s.mem :=
  (foldl_keeps State.mem _ (fun s c => touch_mem o c s) _ _).trans (keep_mem _ s)

/-! ## The journal -/

theorem contexts_modPkg (f : Pkg → Pkg) (s : State) : contexts (s.modPkg f) = { contexts s with pkg := f s.pkg } := rfl

/-- An entry of the journal changes the package registers alone, and of those JHEAD. -/
theorem contexts_journal (type code : Byte) (pid : Option Byte) (queue : Option Nat) (cid : Option (BitVec 12))
    (slot lseq pc qual aux : Word) (payload : List Byte) (s : State) :
    ∃ p, contexts (s.journal type code pid queue cid slot lseq pc qual aux payload) = { contexts s with pkg := p } := by
  unfold State.journal
  split
  · exact ⟨s.pkg, rfl⟩
  · dsimp only
    rw [contexts_writeControl, contexts_modPkg, contexts_writeDev, contexts_writeDev, contexts_writeDev]
    exact ⟨_, rfl⟩

/-- A package fault leaves every hart alone, and answers the host. -/
theorem packageFault_frame (cls : Byte) (aux : Word) (s : State) :
    (s.packageFault cls aux).hart = s.hart ∧ (s.packageFault cls aux).replies = s.replies ++ [.cxlUncorrectable] := by
  unfold State.packageFault
  generalize ht : s.journal 0x09 cls none none none 0 (BitVec.allOnes 64) 0 0 aux [] = t
  obtain ⟨p, hp⟩ := contexts_journal 0x09 cls none none none 0 (BitVec.allOnes 64) 0 0 aux [] s
  rw [ht] at hp
  exact ⟨congrArg Contexts.hart hp, congrArg (fun x : Contexts => x.replies ++ [.cxlUncorrectable]) hp⟩

end Sys2Proof.Proofs
end

section
/-! PROOFS. What ends a task: late stores become visible, a context leaves, and a launch is stopped (R399, R403). -/

namespace Sys2Proof.Proofs

open Sys2Proof.Machine Sys2Proof.Safety

/-! ## Changes of one launch -/

/-- The launches of t are those of s, of which the one of sequence number q alone may have changed. -/
def OnlyLaunch (q : Option Word) (s t : State) : Prop :=
  ∃ g : Launch → Launch, (∀ l, some l.seq ≠ q → g l = l) ∧ (∀ l, (g l).seq = l.seq) ∧ t.launches = s.launches.map g

theorem onlyLaunch_of_eq {q : Option Word} {s t : State} (h : t.launches = s.launches) : OnlyLaunch q s t :=
  ⟨id, fun _ _ => rfl, fun _ => rfl, by rw [h, List.map_id]⟩

theorem onlyLaunch_of_contexts {q : Option Word} {s t : State} (h : contexts t = contexts s) : OnlyLaunch q s t :=
  onlyLaunch_of_eq (congrArg Contexts.launches h)

theorem OnlyLaunch.trans {q : Option Word} {s t u : State} (h : OnlyLaunch q s t) (h' : OnlyLaunch q t u) :
    OnlyLaunch q s u := by
  obtain ⟨f, hf, hfs, ht⟩ := h
  obtain ⟨g, hg, hgs, hu⟩ := h'
  refine ⟨g ∘ f, fun l hl => ?_, fun l => (hgs _).trans (hfs l), by rw [hu, ht, List.map_map]⟩
  rw [Function.comp_apply, hf l hl, hg l hl]

theorem onlyLaunch_modLaunch (q : Word) (f : Launch → Launch) (hf : ∀ l, (f l).seq = l.seq) (s : State) :
    OnlyLaunch (some q) s (s.modLaunch q f) := by
  refine ⟨fun l => if l.seq = q then f l else l, fun l hl => if_neg fun h => hl (congrArg some h), fun l => ?_, rfl⟩
  dsimp only
  split
  · exact hf l
  · rfl

theorem onlyLaunch_markFrame (q : Option Word) (pa : Nat) (s : State) : OnlyLaunch q s (s.markFrame q pa) := by
  unfold State.markFrame
  split
  · exact onlyLaunch_of_eq rfl
  split
  · refine onlyLaunch_modLaunch _ _ (fun l => ?_) s
    split <;> rfl
  · exact onlyLaunch_of_eq rfl

theorem onlyLaunch_countEnd (h : Hart) (s : State) : OnlyLaunch h.launch s (s.countEnd h) := by
  unfold State.countEnd
  split
  · exact onlyLaunch_of_eq rfl
  · next q hq =>
    rw [hq]
    refine onlyLaunch_modLaunch q _ ?_ s
    exact fun _ => rfl

/-! ## Stores of a hart -/

/-- A hart without what its stores write of it: the lining, the unlogged bit, the counters and the late stores themselves. -/
def unlined (h : Hart) : Hart :=
  { h with sbuf := [], unlogged := false, lLost := false, lhd := 0, ltl := 0, lMarks := [], counters := [] }

/-- A field that `unlined` does not clear is the same in two harts that are alike after it. -/
theorem eq_of_unlined {γ : Type} {h h' : Hart} (g : Hart → γ) (hg : ∀ h, g (unlined h) = g h)
    (hu : unlined h' = unlined h) : g h' = g h := by rw [← hg h', hu, hg]

/-- What no store of the focused hart changes. -/
def skeleton (s : State) : Contexts := { contexts s with hart := unlined s.hart, launches := [] }

theorem skeleton_of_contexts {s t : State} (h : contexts t = contexts s) : skeleton t = skeleton s := by
  have hh : t.hart = s.hart := congrArg Contexts.hart h
  rw [skeleton, skeleton, h, hh]

theorem skeleton_markFrame (q : Option Word) (pa : Nat) (s : State) : skeleton (s.markFrame q pa) = skeleton s := by
  unfold State.markFrame
  repeat' split
  all_goals rfl

theorem skeleton_noteWrite (s : State) : skeleton s.noteWrite = skeleton s := by
  unfold State.noteWrite
  split <;> rfl

/-- Stores of the hart lead from s to t: they change neither the contexts, but for what `unlined` clears, nor another launch than
the hart's own. -/
def Stored (s t : State) : Prop := skeleton t = skeleton s ∧ OnlyLaunch s.hart.launch s t

theorem Stored.hart {s t : State} (h : Stored s t) : unlined t.hart = unlined s.hart := congrArg Contexts.hart h.1

theorem Stored.launch {s t : State} (h : Stored s t) : t.hart.launch = s.hart.launch :=
  eq_of_unlined Hart.launch (fun _ => rfl) h.hart

theorem Stored.trans {s t u : State} (h : Stored s t) (h' : Stored t u) : Stored s u :=
  ⟨h'.1.trans h.1, h.2.trans (h.launch ▸ h'.2)⟩

theorem stored_of_contexts {s t : State} (h : contexts t = contexts s) : Stored s t :=
  ⟨skeleton_of_contexts h, onlyLaunch_of_contexts h⟩

theorem Stored.refl (s : State) : Stored s s := stored_of_contexts rfl

theorem stored_markFrame (pa : Nat) (s : State) : Stored s (s.markFrame s.hart.launch pa) :=
  ⟨skeleton_markFrame _ pa s, onlyLaunch_markFrame _ pa s⟩

theorem stored_noteWrite (s : State) : Stored s s.noteWrite := by
  refine ⟨skeleton_noteWrite s, onlyLaunch_of_eq ?_⟩
  unfold State.noteWrite
  split <;> rfl

/-- The write of one part of a store, and the notes of it. -/
def writePart (o : Holder) (c : Chunk) (bs : List Byte) (t : BitVec 28) (s : State) : State :=
  let w := (s.soilChunk o c bs).write c.pa bs t
  (w.markFrame w.hart.launch c.pa).noteWrite

theorem stored_writePart (o : Holder) (c : Chunk) (bs : List Byte) (t : BitVec 28) (s : State) :
    Stored s (writePart o c bs t s) := by
  have hw : contexts ((s.soilChunk o c bs).write c.pa bs t) = contexts s := by simp
  exact ((stored_of_contexts hw).trans (stored_markFrame _ _)).trans (stored_noteWrite _)

theorem lateChunks_cons (c : Chunk) (cs : List Chunk) (bs : List Byte) (s : State) :
    State.lateChunks (c :: cs) bs s =
      State.lateChunks cs (bs.drop c.n) (writePart s.hart.holder c (bs.take c.n) s.myTag s) := rfl

theorem stored_lateChunks (cs : List Chunk) : ∀ (bs : List Byte) (s : State), Stored s (State.lateChunks cs bs s) := by
  induction cs with
  | nil => exact fun _ s => Stored.refl s
  | cons c cs ih =>
    intro bs s
    rw [lateChunks_cons]
    exact (stored_writePart _ c _ _ s).trans (ih _ _)

theorem stored_lateStore (s : State) : Stored s s.lateStore := by
  unfold State.lateStore
  split
  · exact Stored.refl s
  · next x xs _ =>
    have h0 : Stored s (s.onH fun h => { h with sbuf := xs }) := ⟨rfl, onlyLaunch_of_eq rfl⟩
    exact (h0.trans (stored_lateChunks _ _ _)).trans (stored_of_contexts (contexts_cover _ _))

/-- Every late store that becomes visible is a store of the hart. -/
theorem stored_lateStores (s : State) : Stored s s.lateStores := by
  unfold State.lateStores
  generalize s.hart.sbuf = l
  induction l generalizing s with
  | nil => exact Stored.refl s
  | cons _ l ih => exact (stored_lateStore s).trans (ih _)

theorem lateStores_nil {s : State} (h : s.hart.sbuf = []) : s.lateStores = s := by
  rw [State.lateStores, h, List.foldl_nil]

/-! ## A context leaves -/

/-- What is left in the slot of a context that has left: no context and no late store, and unless a tenant switch clears the
slot the trap registers. -/
structure LeftBehind (h h' : Hart) : Prop where
  run : h'.run = .empty
  sbuf : h'.sbuf = []
  trap : h.evict = false → h'.tVq = h.tVq ∧ h'.tCause = h.tCause ∧ h'.tpc = h.tpc ∧ h'.tval = h.tval

/-- The slot of a context that leaves. -/
def vacated (h : Hart) : Hart := if h.evict then Hart.reset else h.ended

theorem leftBehind_vacated {h h' : Hart} (hu : unlined h' = unlined h) : LeftBehind h (vacated h') := by
  have keeps {γ : Type} (g : Hart → γ) (hg : ∀ h, g (unlined h) = g h) : g h' = g h := eq_of_unlined g hg hu
  have hev := keeps Hart.evict fun _ => rfl
  cases he : h'.evict with
  | true =>
    rw [vacated, if_pos he]
    exact ⟨rfl, rfl, fun h0 => by rw [hev, h0] at he; cases he⟩
  | false =>
    rw [vacated, if_neg (Bool.eq_false_iff.1 he)]
    exact ⟨rfl, rfl, fun _ => ⟨keeps Hart.tVq fun _ => rfl, keeps Hart.tCause fun _ => rfl, keeps Hart.tpc fun _ => rfl,
      keeps Hart.tval fun _ => rfl⟩⟩

/-- The contexts of a state and its bytes, without the package registers. -/
def outline (s : State) : Contexts × List Host.Cell := ({ contexts s with pkg := Pkg.reset }, s.mem)

/-- The same with another hart in the focused slot. -/
def outlineWith (h : Hart) (s : State) : Contexts × List Host.Cell := ({ contexts s with hart := h, pkg := Pkg.reset }, s.mem)

theorem outline_withdraw (n : Nat) (s : State) : outline (s.withdraw n) = outline s := rfl

theorem outline_carryCounters (n : Nat) (comes : Bool) (h : Hart) (s : State) :
    outline (s.carryCounters n comes h) = outline s := rfl

theorem outline_modCore (c : Nat) (f : Core → Core) (s : State) : outline (s.modCore c f) = outline s := rfl

theorem outline_dropTiles (k : Nat) (s : State) : outline (s.dropTiles k) = outline s := rfl

theorem outline_emptyMaps (h : Hart) (s : State) : outline (s.emptyMaps h) = outline s := rfl

/-- What a context gives back when it leaves, before its slot is vacated. -/
def givenBack (tiles : Bool) (s : State) : State :=
  let t := (s.withdraw s.cur).carryCounters s.cur false s.hart
  let t := t.modCore t.coreNo fun c => c.release t.hartNo
  let t := if tiles then t.dropTiles (s.hart.key s.cur) else t
  t.emptyMaps t.hart

theorem leaveWith_eq (tiles : Bool) (s : State) :
    s.leaveWith tiles = (givenBack tiles s.lateStores).vacate (givenBack tiles s.lateStores).hart.ended := rfl

theorem outline_givenBack (tiles : Bool) (s : State) : outline (givenBack tiles s) = outline s := by
  cases tiles <;>
    simp only [givenBack, outline_emptyMaps, outline_dropTiles, outline_modCore, outline_carryCounters, outline_withdraw,
      if_true, if_false, Bool.false_eq_true]

/-- Vacating the slot of a context that has ended changes the slot, and no byte. -/
theorem outline_vacate (s : State) : outline (s.vacate s.hart.ended) = outlineWith (vacated s.hart) s := by
  unfold State.vacate vacated
  cases s.hart.evict <;> rfl

theorem outlineWith_congr {s t : State} (e : outline t = outline s) :
    outlineWith (vacated t.hart) t = outlineWith (vacated s.hart) s :=
  congrArg (fun x : Contexts × List Host.Cell => ({ x.1 with hart := vacated x.1.hart, pkg := Pkg.reset }, x.2)) e

/-- A context that leaves changes its slot, and no byte once its stores are visible. -/
theorem outline_leaveWith (tiles : Bool) (s : State) :
    outline (s.leaveWith tiles) = outlineWith (vacated s.lateStores.hart) s.lateStores := by
  rw [leaveWith_eq, outline_vacate, outlineWith_congr (outline_givenBack tiles _)]

/-! ## The end of a context whose launch is being stopped -/

/-- A context of launch q, focused in s, has left in t. -/
structure Leaves (q : Word) (s t : State) : Prop where
  cur : t.cur = s.cur
  others : t.others = s.others
  saved : t.saved = s.saved
  orphans : t.orphans = s.orphans
  left : LeftBehind s.hart t.hart
  launches : OnlyLaunch (some q) s t
  mem : s.hart.sbuf = [] → t.mem = s.mem

/-- The end of the focused context of a launch that is being stopped. -/
def stopFocused (tiles : Bool) (s : State) : State := (s.lateStores.countEnd s.lateStores.hart).leaveWith tiles

theorem countEnd_keeps {γ : Type} (g : State → γ) (hg : ∀ q f s, g (State.modLaunch q f s) = g s) (h : Hart) (s : State) :
    g (s.countEnd h) = g s := by
  unfold State.countEnd
  split
  · rfl
  · exact hg _ _ s

theorem stored_countEnd {h : Hart} {s : State} (hl : s.hart.launch = h.launch) : Stored s (s.countEnd h) :=
  ⟨countEnd_keeps skeleton (fun _ _ _ => rfl) h s, hl ▸ onlyLaunch_countEnd h s⟩

theorem leaves_stopFocused (tiles : Bool) {q : Word} {s : State} (hq : s.hart.launch = some q) :
    Leaves q s (stopFocused tiles s) := by
  generalize hc : s.lateStores.countEnd s.lateStores.hart = c
  have hcs : Stored s c := hc ▸ (stored_lateStores s).trans (stored_countEnd rfl)
  have hu : Stored s c.lateStores := hcs.trans (stored_lateStores c)
  have ho : outline (stopFocused tiles s) = outlineWith (vacated c.lateStores.hart) c.lateStores := by
    rw [stopFocused, hc, outline_leaveWith]
  refine ⟨(congrArg (fun x => x.1.cur) ho).trans (congrArg Contexts.cur hu.1),
    (congrArg (fun x => x.1.others) ho).trans (congrArg Contexts.others hu.1),
    (congrArg (fun x => x.1.saved) ho).trans (congrArg Contexts.saved hu.1),
    (congrArg (fun x => x.1.orphans) ho).trans (congrArg Contexts.orphans hu.1), ?_, ?_, fun hs => ?_⟩
  · exact (congrArg (fun x => x.1.hart) ho : (stopFocused tiles s).hart = _) ▸ leftBehind_vacated hu.hart
  · exact hq ▸ hu.2.trans (onlyLaunch_of_eq (congrArg (fun x => x.1.launches) ho))
  · have hm : c.mem = s.mem ∧ c.hart = s.hart := by
      rw [← hc, lateStores_nil hs]
      exact ⟨countEnd_keeps State.mem (fun _ _ _ => rfl) _ s, countEnd_keeps State.hart (fun _ _ _ => rfl) _ s⟩
    have hl : c.lateStores = c := lateStores_nil (hm.2 ▸ hs)
    exact (congrArg (fun x => x.2) ho).trans ((congrArg State.mem hl).trans hm.1)

/-! ## Acting on another slot (R161) -/

theorem focus_cur (n : Nat) (s : State) : (s.focus n).cur = n := by
  unfold State.focus
  split
  · next h => exact h.symm
  · rfl

theorem focus_hart (n : Nat) (s : State) : (s.focus n).hart = s.hartAt n := by
  unfold State.focus State.hartAt
  split <;> rfl

/-- Another focus changes no slot. -/
theorem hartAt_focus (n m : Nat) (s : State) : (s.focus n).hartAt m = s.hartAt m := by
  by_cases hn : n = s.cur
  · rw [State.focus, if_pos hn]
  · have hf : (s.focus n).others = tset Hart.reset (tset Hart.reset s.others s.cur s.hart) n Hart.reset := by
      rw [State.focus, if_neg hn]
    by_cases hm : m = n
    · rw [State.hartAt, focus_cur, if_pos hm, focus_hart, hm]
    · rw [State.hartAt, focus_cur, if_neg hm, hf, tget_tset_other _ _ _ hm, tget_tset, State.hartAt]

/-- What a change of the focus leaves alone. -/
theorem focus_frame (n : Nat) (s : State) : (s.focus n).saved = s.saved ∧ (s.focus n).orphans = s.orphans ∧
    (s.focus n).launches = s.launches ∧ (s.focus n).mem = s.mem := by
  unfold State.focus
  split <;> exact ⟨rfl, rfl, rfl, rfl⟩

/-- Acting on slot n by a step that stays there changes slot n alone. -/
theorem hartAt_atHart {n : Nat} {f : State → State} {s : State} (hc : (f (s.focus n)).cur = (s.focus n).cur)
    (ho : (f (s.focus n)).others = (s.focus n).others) (m : Nat) :
    (s.atHart n f).hartAt m = if m = n then (f (s.focus n)).hart else s.hartAt m := by
  have hcur : (f (s.focus n)).cur = n := hc.trans (focus_cur n s)
  rw [State.atHart, hartAt_focus]
  by_cases hm : m = n
  · rw [if_pos hm, State.hartAt, hcur, if_pos hm]
  · rw [if_neg hm, State.hartAt, hcur, if_neg hm, ho, ← hartAt_focus n m s, State.hartAt, focus_cur, if_neg hm]

/-! ## A launch is stopped -/

/-- The stop of launch q has led from s to t, in which the slots of a list have been gone through. -/
structure Stopped (q : Word) (s t : State) : Prop where
  cur : t.cur = s.cur
  saved : t.saved = s.saved
  orphans : t.orphans = s.orphans
  slot : ∀ m, t.hartAt m = s.hartAt m ∨ LeftBehind (s.hartAt m) (t.hartAt m)
  launches : OnlyLaunch (some q) s t
  mem : (∀ m, (s.hartAt m).sbuf = []) → t.mem = s.mem

/-- What the stop of a launch does at one slot. -/
def stopSlot (tiles : Bool) (q : Word) (s : State) (n : Nat) : State :=
  if (s.hartAt n).run ≠ .empty && (s.hartAt n).launch = some q then s.atHart n (stopFocused tiles) else s

/-- The hart runs, or is halted in, a context of launch q. -/
def RunsIn (q : Word) (h : Hart) : Prop := h.run ≠ .empty ∧ h.launch = some q

theorem not_runsIn_of_left {q : Word} {h h' : Hart} (hl : LeftBehind h h') : ¬ RunsIn q h' := fun hr => hr.1 hl.run

theorem stopSlot_idle (tiles : Bool) {q : Word} {s : State} {n : Nat} (hr : ¬ RunsIn q (s.hartAt n)) :
    stopSlot tiles q s n = s := if_neg (by simpa [RunsIn] using hr)

theorem stopSlot_runs (tiles : Bool) {q : Word} {s : State} {n : Nat} (hr : RunsIn q (s.hartAt n)) :
    stopSlot tiles q s n = s.atHart n (stopFocused tiles) := if_pos (by simpa [RunsIn] using hr)

theorem leaves_focus (tiles : Bool) {q : Word} {s : State} {n : Nat} (hr : RunsIn q (s.hartAt n)) :
    Leaves q (s.focus n) (stopFocused tiles (s.focus n)) := leaves_stopFocused tiles (by rw [focus_hart]; exact hr.2)

theorem hartAt_stopSlot (tiles : Bool) {q : Word} {s : State} {n : Nat} (hr : RunsIn q (s.hartAt n)) (m : Nat) :
    (stopSlot tiles q s n).hartAt m = if m = n then (stopFocused tiles (s.focus n)).hart else s.hartAt m := by
  rw [stopSlot_runs tiles hr, hartAt_atHart (leaves_focus tiles hr).cur (leaves_focus tiles hr).others]

theorem Stopped.refl (q : Word) (s : State) : Stopped q s s :=
  ⟨rfl, rfl, rfl, fun _ => .inl rfl, onlyLaunch_of_eq rfl, fun _ => rfl⟩

theorem Stopped.step (tiles : Bool) {q : Word} {s t : State} (h : Stopped q s t) (n : Nat) :
    Stopped q s (stopSlot tiles q t n) := by
  by_cases hr : RunsIn q (t.hartAt n)
  · have hsn : t.hartAt n = s.hartAt n := (h.slot n).resolve_right fun hl => not_runsIn_of_left hl hr
    have hl := leaves_focus tiles hr
    obtain ⟨fs, fo, fl, fm⟩ := focus_frame n t
    obtain ⟨gs, go, gl, gm⟩ := focus_frame t.cur (stopFocused tiles (t.focus n))
    have he : stopSlot tiles q t n = (stopFocused tiles (t.focus n)).focus t.cur := stopSlot_runs tiles hr
    refine ⟨?_, ?_, ?_, fun m => ?_, ?_, fun hb => ?_⟩
    · rw [he, focus_cur, h.cur]
    · rw [he, gs, hl.saved, fs, h.saved]
    · rw [he, go, hl.orphans, fo, h.orphans]
    · rw [hartAt_stopSlot tiles hr]
      by_cases hm : m = n
      · rw [if_pos hm, hm, ← hsn, ← focus_hart n t]; exact .inr hl.left
      · rw [if_neg hm]; exact h.slot m
    · rw [he]
      exact h.launches.trans ((onlyLaunch_of_eq fl).trans (hl.launches.trans (onlyLaunch_of_eq gl)))
    · rw [he, gm, hl.mem (by rw [focus_hart, hsn]; exact hb n), fm, h.mem hb]
  · rw [stopSlot_idle tiles hr]; exact h

theorem Stopped.foldl (tiles : Bool) {q : Word} {s : State} (l : List Nat) :
    ∀ {t : State}, Stopped q s t → Stopped q s (l.foldl (stopSlot tiles q) t) := by
  induction l with
  | nil => exact fun h => h
  | cons n l ih => exact fun h => ih (h.step tiles n)

/-- A slot that has been gone through runs no context of the launch, and none comes to run one. -/
theorem not_runsIn_stopSlot (tiles : Bool) {q : Word} {s : State} {n m : Nat} (h : m = n ∨ ¬ RunsIn q (s.hartAt m)) :
    ¬ RunsIn q ((stopSlot tiles q s n).hartAt m) := by
  by_cases hr : RunsIn q (s.hartAt n)
  · rw [hartAt_stopSlot tiles hr]
    by_cases hm : m = n
    · rw [if_pos hm]; exact not_runsIn_of_left (leaves_focus tiles hr).left
    · rw [if_neg hm]; exact h.resolve_left hm
  · rw [stopSlot_idle tiles hr]
    rcases h with rfl | h
    · exact hr
    · exact h

theorem not_runsIn_foldl (tiles : Bool) {q : Word} {m : Nat} (l : List Nat) :
    ∀ {s : State}, (m ∈ l ∨ ¬ RunsIn q (s.hartAt m)) → ¬ RunsIn q ((l.foldl (stopSlot tiles q) s).hartAt m) := by
  induction l with
  | nil => exact fun h => h.resolve_left List.not_mem_nil
  | cons n l ih =>
    intro s h
    refine ih ?_
    rcases h with hm | hm
    · rcases List.mem_cons.1 hm with rfl | hl
      · exact .inr (not_runsIn_stopSlot tiles (.inl rfl))
      · exact .inl hl
    · exact .inr (not_runsIn_stopSlot tiles (.inr hm))

/-- A slot that is not listed is empty. -/
theorem not_runsIn_of_not_slot {q : Word} {s : State} {m : Nat} (h : m ∉ s.slots) : ¬ RunsIn q (s.hartAt m) := by
  have hm : m ≠ s.cur := fun e => h (e ▸ List.mem_cons_self)
  have ho : ∀ p ∈ s.others, p.1 ≠ m := fun p hp e => h (List.mem_cons_of_mem _ (e ▸ List.mem_map_of_mem hp))
  rw [State.hartAt, if_neg hm, tget_absent _ _ _ ho]
  exact fun hr => hr.1 rfl

/-- Every context of a launch that runs or is halted leaves when the launch is stopped. -/
theorem stopSlots (tiles : Bool) (q : Word) (s : State) :
    Stopped q s (s.slots.foldl (stopSlot tiles q) s) ∧ ∀ m, ¬ RunsIn q ((s.slots.foldl (stopSlot tiles q) s).hartAt m) :=
  ⟨(Stopped.refl q s).foldl tiles _, fun _ => not_runsIn_foldl tiles _ ((em _).imp_right not_runsIn_of_not_slot)⟩

/-! ## Saved contexts of the launch -/

/-- What the stop of a launch does for one of its saved contexts. -/
def stopSaved (tiles : Bool) (s : State) (c : Saved) : State :=
  let s := (s.countEnd c.hart).emptyMaps c.hart
  if tiles then s.dropTiles (c.hart.key 0) else s

/-- It keeps what changes of launches, of dirty lines and of cores keep. -/
theorem stopSaved_keeps {γ : Type} (g : State → γ) (hg : ∀ q f s, g (State.modLaunch q f s) = g s)
    (hd : ∀ h s, g (State.emptyMaps h s) = g s) (ht : ∀ k s, g (State.dropTiles k s) = g s) (tiles : Bool) (s : State)
    (c : Saved) : g (stopSaved tiles s c) = g s := by
  unfold stopSaved
  cases tiles
  · exact (hd _ _).trans (countEnd_keeps g hg _ s)
  · exact (ht _ _).trans ((hd _ _).trans (countEnd_keeps g hg _ s))

theorem onlyLaunch_stopSaved (tiles : Bool) (s : State) (c : Saved) : OnlyLaunch c.hart.launch s (stopSaved tiles s c) := by
  refine (onlyLaunch_countEnd c.hart s).trans (onlyLaunch_of_eq ?_)
  cases tiles <;> rfl

theorem onlyLaunch_foldl_stopSaved (tiles : Bool) {q : Word} (l : List Saved) (hl : ∀ c ∈ l, c.hart.launch = some q) :
    ∀ s, OnlyLaunch (some q) s (l.foldl (stopSaved tiles) s) := by
  induction l with
  | nil => exact fun _ => onlyLaunch_of_eq rfl
  | cons c l ih =>
    intro s
    exact (hl c List.mem_cons_self ▸ onlyLaunch_stopSaved tiles s c).trans
      (ih (fun c' h => hl c' (List.mem_cons_of_mem _ h)) _)

/-- The contexts that are saved or have halted with work left, without those of launch q. -/
def dropContexts (q : Word) (s : State) : State :=
  { s with
    saved := s.saved.filter fun c => c.hart.launch ≠ some q
    orphans := s.orphans.filter fun c => c.2.launch ≠ some q }

/-- The end of the stop: the launch is being stopped, with the STATUS it ends with. -/
def markStopping (q : Word) (status : Byte) (unlogged : Bool) (s : State) : State :=
  s.modLaunch q fun l => { l with stopping := true, status := status, unlogged := l.unlogged || unlogged }

theorem stopLaunchWith_eq (tiles : Bool) (q : Word) (status : Byte) (s : State) :
    ∃ u, s.stopLaunchWith tiles q status = markStopping q status u (dropContexts q
      (((s.slots.foldl (stopSlot tiles q) s).saved.filter fun c => c.hart.launch = some q).foldl (stopSaved tiles)
        (s.slots.foldl (stopSlot tiles q) s))) := ⟨_, rfl⟩

/-- The slots and the bytes of a state: what neither the saved contexts' end nor the bookkeeping of a stop changes. -/
structure Slots where
  cur : Nat
  hart : Hart
  others : List (Nat × Hart)
  mem : List Host.Cell

/-- The slots of a state. -/
def slotsOf (s : State) : Slots := ⟨s.cur, s.hart, s.others, s.mem⟩

theorem hartAt_of_slotsOf {s t : State} (h : slotsOf t = slotsOf s) (n : Nat) : t.hartAt n = s.hartAt n := by
  have hc : t.cur = s.cur := congrArg Slots.cur h
  have hh : t.hart = s.hart := congrArg Slots.hart h
  have ho : t.others = s.others := congrArg Slots.others h
  rw [State.hartAt, hc, hh, ho, State.hartAt]

/-- The end of the saved contexts keeps what `stopSaved_keeps` says. -/
theorem foldl_stopSaved_keeps {γ : Type} (g : State → γ) (hg : ∀ q f s, g (State.modLaunch q f s) = g s)
    (hd : ∀ h s, g (State.emptyMaps h s) = g s) (ht : ∀ k s, g (State.dropTiles k s) = g s) (tiles : Bool)
    (l : List Saved) (s : State) : g (l.foldl (stopSaved tiles) s) = g s :=
  foldl_keeps g _ (stopSaved_keeps g hg hd ht tiles) l s

theorem mem_of_markStopping {q : Word} {status : Byte} {unlogged : Bool} {s : State} {l : Launch}
    (h : l ∈ (markStopping q status unlogged s).launches) (hl : l.seq = q) : l.stopping = true ∧ l.status = status := by
  obtain ⟨l0, -, rfl⟩ := List.mem_map.1 h
  dsimp only at hl ⊢
  by_cases h0 : l0.seq = q
  · rw [if_pos h0]; exact ⟨rfl, rfl⟩
  · rw [if_neg h0] at hl; exact absurd hl h0

theorem OnlyLaunch.mem_iff {q : Word} {s t : State} (h : OnlyLaunch (some q) s t) {l : Launch} (hl : l.seq ≠ q) :
    l ∈ t.launches ↔ l ∈ s.launches := by
  obtain ⟨g, hg, hs, ht⟩ := h
  have keeps {k : Launch} (hk : k.seq ≠ q) : g k = k := hg k fun h => hk (Option.some.inj h)
  rw [ht, List.mem_map]
  constructor
  · rintro ⟨k, hk, rfl⟩
    rw [keeps (hs k ▸ hl)]; exact hk
  · exact fun h => ⟨l, h, keeps hl⟩

/-- The stop of a launch with its STATUS. -/
theorem stopLaunch_ends (q : Word) (s : State) (hq : s.hart.launch = some q) :
    TaskEnds q s (s.stopLaunch q 2) ∧
      ((s.stopLaunch q 2).hart = s.hart ∨ LeftBehind s.hart (s.stopLaunch q 2).hart) := by
  obtain ⟨unlogged, he⟩ := stopLaunchWith_eq true q 2 s
  obtain ⟨hv, hnone⟩ := stopSlots true q s
  rw [State.stopLaunch, he]
  generalize s.slots.foldl (stopSlot true q) s = v at hv hnone
  have hgone : ∀ c ∈ v.saved.filter fun c => c.hart.launch = some q, c.hart.launch = some q :=
    fun c hc => of_decide_eq_true (List.mem_filter.1 hc).2
  generalize (v.saved.filter fun c => c.hart.launch = some q) = gone at hgone
  generalize hw : gone.foldl (stopSaved true) v = w
  generalize hu : markStopping q 2 unlogged (dropContexts q w) = u
  have hslots : slotsOf u = slotsOf v := by
    rw [← hu, ← hw]
    exact foldl_stopSaved_keeps slotsOf (fun _ _ _ => rfl) (fun _ _ => rfl) (fun _ _ => rfl) _ _ v
  have hat := hartAt_of_slotsOf hslots
  have hcur : u.cur = s.cur := (congrArg Slots.cur hslots).trans hv.cur
  have hhart {t : State} : t.hart = t.hartAt t.cur := (if_pos rfl).symm
  have hslot : u.hart = s.hart ∨ LeftBehind s.hart u.hart := by
    rw [hhart, hcur, hat, hhart (t := s)]
    exact hv.slot s.cur
  have honly : OnlyLaunch (some q) s u := by
    refine hv.launches.trans ((hw ▸ onlyLaunch_foldl_stopSaved true gone hgone v).trans ?_)
    rw [← hu]
    refine OnlyLaunch.trans (onlyLaunch_of_eq rfl) (onlyLaunch_modLaunch q _ ?_ _)
    exact fun _ => rfl
  have hidle : ∀ n, ¬ RunsIn q (u.hartAt n) := fun n => hat n ▸ hnone n
  refine ⟨⟨?_, fun n hr hl => hidle n ⟨hr, hl⟩, fun c hc => ?_, fun c hc => ?_, fun l hl => ?_, fun l => honly.mem_iff,
    hcur, fun hb => (congrArg Slots.mem hslots).trans (hv.mem hb)⟩, hslot⟩
  · rcases hslot with h | h
    · by_contra hr
      exact hidle u.cur ⟨hhart ▸ hr, by rw [← hhart, h, hq]⟩
    · exact h.run
  · rw [← hu] at hc
    exact of_decide_eq_true (List.mem_filter.1 hc).2
  · rw [← hu] at hc
    exact of_decide_eq_true (List.mem_filter.1 hc).2
  · rw [← hu] at hl
    exact mem_of_markStopping hl

/-- The end of a task leaves the focused slot as it was, or with its context gone. -/
theorem endTask_hart (s : State) : s.endTask.hart = s.hart ∨ LeftBehind s.hart s.endTask.hart := by
  unfold State.endTask
  split
  · next q hq => exact (stopLaunch_ends q s hq).2
  · have ho : s.leave.hart = vacated s.lateStores.hart := congrArg (fun x => x.1.hart) (outline_leaveWith true s)
    exact .inr (ho ▸ leftBehind_vacated (stored_lateStores s).hart)

/-- A task that ends as R399 says. -/
theorem taskEnds_endTask {q : Word} {s : State} (hq : s.hart.launch = some q) : TaskEnds q s s.endTask := by
  unfold State.endTask
  rw [hq]
  exact (stopLaunch_ends q s hq).1

end Sys2Proof.Proofs
end

section
/-! PROOFS. Traps of the scalar stream: entry into the handler, terminal traps, and the illegal instruction (R34, R36, R397, R399). -/

namespace Sys2Proof.Proofs

open Sys2Proof.Machine Sys2Proof.Safety

/-! ## Entry into the handler -/

theorem pcWord_zero (a : Addr) : pcWord a 0 = BitVec.ofNat 64 a.toNat := by
  have ha := a.isLt
  apply BitVec.eq_of_toNat_eq
  rw [pcWord, BitVec.toNat_append, BitVec.toNat_ofNat, BitVec.toNat_ofNat, Nat.mod_eq_of_lt (b := 2 ^ 64) (by omega)]
  simp

/-- The address that a register of trap vectors names has bits 1:0 zero. -/
theorem append_zero_bits (x : BitVec 55) : x ++ (0 : BitVec 2) = BitVec.ofNat 57 (4 * x.toNat) := by
  have hx := x.isLt
  apply BitVec.eq_of_toNat_eq
  rw [BitVec.toNat_append, BitVec.toNat_ofNat, Nat.mod_eq_of_lt (by omega), Nat.shiftLeft_eq]
  simp [Nat.mul_comm]

/-- Abandoning a training changes the mark table and the cause of the loop's end alone. -/
theorem abandon_keeps {γ : Type} (g : Hart → γ) (hg : ∀ h m c, g { h with mark := m, lpcause := c } = g h) (h : Hart) :
    g h.abandon = g h := by
  unfold Hart.abandon
  split
  · exact hg _ _ _
  · rfl

/-- The hart of a handler that has been entered from h (R397). -/
def inHandler (t : Trap) (resume : Addr) (h : Hart) : Hart :=
  { h.abandon with
    waiting := none
    tVq := false
    tCause := t.cause.code
    tpc := BitVec.ofNat 64 h.pc.toNat
    tval := t.tval
    tspc := BitVec.ofNat 64 resume.toNat
    pprv := h.level.code
    inh := true
    level := if h.level = .management then .management else .supervisor
    pc := BitVec.ofNat 57 (4 * (if h.level = .management then h.mtvec else h.tvec).toNat) }

theorem enterHandler_hart (t : Trap) (resume : Addr) (s : State) :
    (s.enterHandler false t (pcWord s.hart.pc 0) (pcWord resume 0)).hart = inHandler t resume s.hart := by
  have hl : s.hart.abandon.level = s.hart.level := abandon_keeps Hart.level (fun _ _ _ => rfl) _
  have hm : s.hart.abandon.mtvec = s.hart.mtvec := abandon_keeps Hart.mtvec (fun _ _ _ => rfl) _
  have ht : s.hart.abandon.tvec = s.hart.tvec := abandon_keeps Hart.tvec (fun _ _ _ => rfl) _
  have hpc : (if s.hart.abandon.level = .management then s.hart.abandon.mtvec ++ (0 : BitVec 2)
      else s.hart.abandon.tvec ++ (0 : BitVec 2)) =
      BitVec.ofNat 57 (4 * (if s.hart.level = .management then s.hart.mtvec else s.hart.tvec).toNat) := by
    rw [hl, hm, ht]
    split <;> exact append_zero_bits _
  have he : (s.enterHandler false t (pcWord s.hart.pc 0) (pcWord resume 0)).hart = ({ s.hart.abandon with
      waiting := none, tVq := false, tCause := t.cause.code, tpc := pcWord s.hart.pc 0, tval := t.tval
      tspc := pcWord resume 0, vqf := s.hart.abandon.vqf || false, pprv := s.hart.abandon.level.code, inh := true
      level := if s.hart.abandon.level = Level.management then Level.management else Level.supervisor
      pc := if s.hart.abandon.level = Level.management then s.hart.abandon.mtvec ++ (0 : BitVec 2)
        else s.hart.abandon.tvec ++ (0 : BitVec 2) } : Hart) := rfl
  rw [he, hpc, hl, Bool.or_false, pcWord_zero, pcWord_zero, inHandler]

/-- A trap that is neither terminal nor elastic enters the handler. -/
theorem takeTrapTo_handler {t : Trap} {s : State} (hc : t.cause ≠ .held) (ht : s.terminal t = false)
    (he : s.elasticTrap t = false) (resume : Addr) :
    s.takeTrapTo t resume = s.enterHandler false t (pcWord s.hart.pc 0) (pcWord resume 0) := by
  simp [State.takeTrapTo, hc, ht, he]

/-- What entering the handler does to the state (R397). -/
theorem takeTrapTo_enters {t : Trap} {s : State} (hc : t.cause ≠ .held) (ht : s.terminal t = false)
    (he : s.elasticTrap t = false) (resume : Addr) :
    (s.takeTrapTo t resume).hart = inHandler t resume s.hart ∧ (s.takeTrapTo t resume).mem = s.mem ∧
      (s.takeTrapTo t resume).pkg = s.pkg ∧ (s.takeTrapTo t resume).cur = s.cur ∧
      (s.takeTrapTo t resume).others = s.others := by
  rw [takeTrapTo_handler hc ht he]
  exact ⟨enterHandler_hart t resume s, rfl, rfl, rfl, rfl⟩

/-! ## Terminal traps (R399) -/

theorem terminal_iff (t : Trap) (s : State) : s.terminal t = true ↔
    (t.cause = .range ∨ t.cause = .fetch ∨ (t.cause = .translation ∧ s.isPinned t.tval = true) ∨
      (s.hart.dAct = true ∧ t.cause ≠ .doff) ∨ s.hart.inh = true) := by
  simp only [State.terminal, Bool.or_eq_true, Bool.and_eq_true, beq_iff_eq, bne_iff_ne, or_assoc]

/-- The state at whose end a terminal trap is taken: the trap is recorded where R15 and R36 say. -/
def recorded (t : Trap) (s : State) : State := s.onH (State.recordTrap false t s.hart.pc)

theorem takeTrapTo_terminal {t : Trap} {s : State} (hc : t.cause ≠ .held) (ht : s.terminal t = true) (resume : Addr) :
    s.takeTrapTo t resume =
      if (recorded t s).hart.level = .management then (recorded t s).packageFault 7 (t.cause.code.setWidth 64)
      else (recorded t s).endTask := by
  have h0 : ¬ (t.cause = .held || (!s.terminal t && s.elasticTrap t && s.areaHeld)) = true := by simp [hc, ht]
  rw [State.takeTrapTo, if_neg h0, if_pos ht]
  rfl

/-- Recording a trap keeps everything but the trap registers. -/
theorem recordTrap_keeps {γ : Type} (g : Hart → γ)
    (hg : ∀ h vq cause pc tval, g { h with tVq := vq, tCause := cause, tpc := pc, tval := tval } = g h) (vq : Bool) (t : Trap)
    (pc : Addr) (h : Hart) : g (State.recordTrap vq t pc h) = g h := by
  unfold State.recordTrap
  split
  · exact hg _ _ _ _ _
  · rfl

theorem recordTrap_eq (t : Trap) (pc : Addr) (h : Hart) :
    State.recordTrap false t pc h = if t.cause = .fetch ∨ t.cause = .illegal then
      { h with tVq := false, tCause := t.cause.code, tpc := BitVec.ofNat 64 pc.toNat, tval := t.tval } else h := by
  simp only [State.recordTrap, pcWord_zero, Bool.or_eq_true, decide_eq_true_eq]

theorem recorded_sbuf (t : Trap) (s : State) (n : Nat) : ((recorded t s).hartAt n).sbuf = (s.hartAt n).sbuf := by
  by_cases hn : n = s.cur
  · rw [State.hartAt, State.hartAt, if_pos hn, if_pos (show n = (recorded t s).cur from hn)]
    exact recordTrap_keeps Hart.sbuf (fun _ _ _ _ _ => rfl) _ _ _ _
  · rw [State.hartAt, State.hartAt, if_neg hn, if_neg (show ¬ n = (recorded t s).cur from hn)]
    rfl

/-- The task of a terminal trap ends as it does without the record. -/
theorem taskEnds_recorded {q : Word} {t : Trap} {s : State} (hq : s.hart.launch = some q) :
    TaskEnds q s (recorded t s).endTask := by
  have hq' : (recorded t s).hart.launch = some q :=
    (recordTrap_keeps Hart.launch (fun _ _ _ _ _ => rfl) _ _ _ _).trans hq
  obtain ⟨hrun, hslots, hsaved, horphans, hstop, hother, hcur, hmem⟩ := taskEnds_endTask hq'
  exact ⟨hrun, hslots, hsaved, horphans, hstop, hother, hcur, fun hb => hmem fun n => (recorded_sbuf t s n).trans (hb n)⟩

/-- The trap registers that a fetch fault and an illegal instruction leave. -/
def Records (t : Trap) (s : State) (h : Hart) : Prop :=
  h.tVq = false ∧ h.tCause = t.cause.code ∧ h.tpc = BitVec.ofNat 64 s.hart.pc.toNat ∧ h.tval = t.tval

theorem records_recorded {t : Trap} (s : State) (h : t.cause = .fetch ∨ t.cause = .illegal) :
    Records t s (recorded t s).hart := by
  have hr : (recorded t s).hart = _ := recordTrap_eq t s.hart.pc s.hart
  rw [hr, if_pos h]
  exact ⟨rfl, rfl, rfl, rfl⟩

theorem LeftBehind.records {t : Trap} {s : State} {h h' : Hart} (hl : LeftBehind h h') (he : h.evict = false)
    (hr : Records t s h) : Records t s h' := by
  obtain ⟨hvq, hcause, hpc, hval⟩ := hl.trap he
  obtain ⟨rvq, rcause, rpc, rval⟩ := hr
  exact ⟨hvq.trans rvq, hcause.trans rcause, hpc.trans rpc, hval.trans rval⟩

/-- A fetch fault and an illegal instruction that end the task leave their trap registers, unless a tenant switch clears the
slot. -/
theorem records_endTask {t : Trap} {s : State} (h : t.cause = .fetch ∨ t.cause = .illegal) (he : s.hart.evict = false) :
    Records t s (recorded t s).endTask.hart := by
  have he' : (recorded t s).hart.evict = false := (recordTrap_keeps Hart.evict (fun _ _ _ _ _ => rfl) _ _ _ _).trans he
  rcases endTask_hart (recorded t s) with hh | hl
  · rw [hh]; exact records_recorded s h
  · exact hl.records he' (records_recorded s h)

theorem recorded_level (t : Trap) (s : State) : (recorded t s).hart.level = s.hart.level :=
  recordTrap_keeps Hart.level (fun _ _ _ _ _ => rfl) _ _ _ _

/-- An instruction of the queue that meets a frozen queue ends the task. -/
theorem exec_frozen {i : Instr} {c : Ctl} {s : State} (hc : i.ctl? = some c) (hi : isQueued i = true)
    (hg : s.hart.guard c = true) (hv : s.hart.vqf = true) : exec i s = .next s.endTask := by
  cases i with
  | _ => cases hc <;> cases hi <;> exact (if_pos hg).trans (congrArg Host.Outcome.next (if_pos hv))

/-- A terminal trap at management level is a package fault. -/
theorem takeTrapTo_packageFault {t : Trap} {s : State} (hc : t.cause ≠ .held) (ht : s.terminal t = true)
    (hl : s.hart.level = .management) (resume : Addr) :
    s.takeTrapTo t resume = (recorded t s).packageFault 7 (t.cause.code.setWidth 64) := by
  rw [takeTrapTo_terminal hc ht, if_pos ((recorded_level t s).trans hl)]

/-- A terminal trap below management level ends the task. -/
theorem takeTrapTo_endTask {t : Trap} {s : State} (hc : t.cause ≠ .held) (ht : s.terminal t = true)
    (hl : s.hart.level ≠ .management) (resume : Addr) : s.takeTrapTo t resume = (recorded t s).endTask := by
  rw [takeTrapTo_terminal hc ht, if_neg fun h => hl ((recorded_level t s).symm.trans h)]

/-- What a terminal trap records survives its end. -/
theorem records_terminal {t : Trap} {s : State} (hc : t.cause ≠ .held) (ht : s.terminal t = true)
    (h : t.cause = .fetch ∨ t.cause = .illegal) (he : s.hart.evict = false) (resume : Addr) :
    Records t s (s.takeTrapTo t resume).hart := by
  by_cases hl : s.hart.level = .management
  · rw [takeTrapTo_packageFault hc ht hl, (packageFault_frame _ _ _).1]
    exact records_recorded s h
  · rw [takeTrapTo_endTask hc ht hl]
    exact records_endTask h he

/-- Settles O16: a trap enters the handler, is a package fault, or ends the task. -/
theorem trapEntry : Obligations.TrapEntry := by
  refine ⟨fun t resume s hc ht he => takeTrapTo_enters hc ht he resume, terminal_iff, fun t resume s hc ht => ⟨?_, ?_, ?_⟩,
    fun i c s hc hi hg hv => ⟨exec_frozen hc hi hg hv, fun q hq => taskEnds_endTask hq⟩⟩
  · intro q hl hq
    rw [takeTrapTo_endTask hc ht hl]
    exact taskEnds_recorded hq
  · exact fun h he => records_terminal hc ht h he resume
  · intro hl
    obtain ⟨hh, hr⟩ := packageFault_frame 7 (t.cause.code.setWidth 64) (recorded t s)
    rw [takeTrapTo_packageFault hc ht hl]
    exact ⟨rfl, rfl, hh.trans (recordTrap_eq t s.hart.pc s.hart), hr⟩

/-! ## Illegal instructions (R34, R36) -/

/-- The registers, predicates, masks, queues and flags that an Illegal Instruction leaves alone. -/
def registersOf (h : Hart) :=
  (h.s, h.p, h.v, h.m, h.qs, h.qv, h.fflags, h.vstart, h.lhd)

theorem registersOf_inHandler (t : Trap) (resume : Addr) (h : Hart) : registersOf (inHandler t resume h) = registersOf h :=
  abandon_keeps registersOf (fun _ _ _ => rfl) h

/-- tval of an Illegal Instruction is bits 95:32 of the word. -/
theorem extractLsb'_eq_div (w : IWord) : w.extractLsb' 32 64 = BitVec.ofNat 64 (w.toNat / 2 ^ 32) := by
  apply BitVec.eq_of_toNat_eq
  rw [BitVec.extractLsb'_toNat, BitVec.toNat_ofNat, Nat.shiftRight_eq_div_pow]

theorem not_terminal_illegal {v : Word} {s : State} (hi : s.hart.inh = false) (hd : s.hart.dAct = false) :
    s.terminal ⟨.illegal, v⟩ = false := by
  rw [Bool.eq_false_iff, Ne, terminal_iff]
  simp [hi, hd]

/-- What an Illegal Instruction does outside a handler and a doff routine. -/
theorem illegal_enters {v : Word} {s : State} (hi : s.hart.inh = false) (hd : s.hart.dAct = false) :
    (s.takeTrap ⟨.illegal, v⟩).hart = inHandler ⟨.illegal, v⟩ s.hart.pc s.hart ∧ (s.takeTrap ⟨.illegal, v⟩).mem = s.mem := by
  obtain ⟨hh, hm, -⟩ := takeTrapTo_enters (t := ⟨.illegal, v⟩) (s := s) Cause.noConfusion (not_terminal_illegal hi hd) rfl s.hart.pc
  exact ⟨hh, hm⟩

/-- An instruction that is an Illegal Instruction with tval v. -/
theorem illegal_traps {i : Instr} {v : Word} {s : State} (hi : s.hart.inh = false) (hd : s.hart.dAct = false)
    (he : exec i s = .next (s.takeTrap ⟨.illegal, v⟩)) :
    ∃ t, exec i s = .next t ∧ t.hart.tCause = 0x01 ∧ t.hart.tpc = BitVec.ofNat 64 s.hart.pc.toNat ∧ t.hart.tval = v ∧
      registersOf t.hart = registersOf s.hart ∧ t.mem = s.mem := by
  obtain ⟨hh, hm⟩ := illegal_enters (v := v) hi hd
  refine ⟨_, he, ?_⟩
  rw [hh]
  exact ⟨rfl, rfl, rfl, registersOf_inHandler _ _ _, hm⟩

theorem registersOf_eq {h h' : Hart} (e : registersOf h' = registersOf h) :
    h'.s = h.s ∧ h'.p = h.p ∧ h'.v = h.v ∧ h'.m = h.m ∧ h'.qs = h.qs ∧ h'.qv = h.qv ∧ h'.fflags = h.fflags ∧
      h'.vstart = h.vstart ∧ h'.lhd = h.lhd := by
  simpa only [registersOf, Prod.mk.injEq] using e

/-- The word of an unguarded pad, in its bits 95:32. -/
theorem encode_pad : (encode (.pad ⟨false, 0, 0, false⟩)).extractLsb' 32 64 = 0x00FC00E00038000E := by decide

/-- Settles O18: both raise the trap of `illegal_traps`. -/
theorem illegalInstruction : Obligations.IllegalInstruction := by
  intro c w s hi hd
  refine ⟨?_, ?_⟩
  · obtain ⟨t, he, hcause, hpc, hval, hregs, hm⟩ := illegal_traps (i := .illegalInstruction w) hi hd rfl
    obtain ⟨h1, h2, h3, h4, h5, h6, h7, h8, h9⟩ := registersOf_eq hregs
    exact ⟨t, he, hcause, hpc, hval.trans (extractLsb'_eq_div w), h1, h2, h3, h4, h5, h6, h7, h8, h9, hm⟩
  · rintro rfl
    obtain ⟨t, he, hcause, hpc, hval, hregs, hm⟩ := illegal_traps (i := .pad ⟨false, 0, 0, false⟩) hi hd rfl
    obtain ⟨h1, h2, h3, h4, h5, h6, h7, h8, h9⟩ := registersOf_eq hregs
    exact ⟨t, he, hcause, hpc, hval.trans encode_pad, h1, h2, h3, h4, h5, h6, h7, h8, h9, hm⟩

end Sys2Proof.Proofs
end

section
/-! PROOFS. The step of the machine where nothing else is due: fetch, decode and run (R14, R156, R340, R395). -/

namespace Sys2Proof.Proofs

open Sys2Proof.Machine Sys2Proof.Safety

/-- Where nothing else is due, a step fetches and runs. -/
theorem step_eq_fetchAndRun {s : State} (hs : s.schedule = []) (hq : s.pkg.quiesced = false) (hr : s.hart.run = .running)
    (hz : zoneStopped s = false) (hb : boundary s = none) (hv : s.vectorStep = none) (hw : s.hart.waiting = none) :
    step s = fetchAndRun exec s := by
  rw [step, nextStep, hs]
  dsimp only
  rw [if_neg (Bool.eq_false_iff.1 hq), hartStep, if_neg (not_not_intro hr), if_neg (Bool.eq_false_iff.1 hz), hb]
  dsimp only
  rw [hv]
  dsimp only
  rw [hw]

theorem isMwait_iff (i : Instr) : isMwait i = true ↔ ∃ c n, i = .mwait c n := by
  constructor
  · unfold isMwait
    split
    · exact fun _ => ⟨_, _, rfl⟩
    · exact fun h => by cases h
  · rintro ⟨c, n, rfl⟩; rfl

theorem awaitsMatrix_iff (s : State) :
    s.awaitsMatrix = true ↔ s.hart.vqf = false ∧ ∃ e ∈ s.hart.vcq, ∃ c n, e.instr = .mwait c n := by
  simp only [State.awaitsMatrix, Bool.and_eq_true, Bool.not_eq_true', List.any_eq_true, isMwait_iff]

/-- While a mwait has not completed nothing is fetched. -/
theorem fetchAndRun_awaits {s : State} (h : s.awaitsMatrix = true) (run : Instr → State → Out) :
    fetchAndRun run s = .next s := if_pos h

theorem fetchAndRun_error {s : State} {t : Trap} (h : s.awaitsMatrix = false) (hf : s.fetch s.hart.pc = .error t)
    (hc : t.cause ≠ .held) (run : Instr → State → Out) : fetchAndRun run s = .next (s.takeTrap t) := by
  rw [fetchAndRun, if_neg (Bool.eq_false_iff.1 h), hf]
  dsimp only
  rw [if_neg hc]

theorem fetchAndRun_ok {s u : State} {bs : List Byte} (h : s.awaitsMatrix = false)
    (hf : s.fetch s.hart.pc = .ok (bs, u)) (run : Instr → State → Out) :
    fetchAndRun run s = runWord run (BitVec.ofNat 96 (leNat bs)) u := by
  rw [fetchAndRun, if_neg (Bool.eq_false_iff.1 h), hf]

/-! ## The word (R34 to R36) -/

theorem isPad_iff (i : Instr) : isPad i = true ↔ ∃ c, i = .pad c := by
  constructor
  · unfold isPad
    split
    · exact fun _ => ⟨_, rfl⟩
    · exact fun h => by cases h
  · rintro ⟨c, rfl⟩; rfl

theorem runWord_error {w : IWord} {s : State} {e : DecodeError} (h : decode w = .error e) :
    runWord exec w s = exec (.illegalInstruction w) s := by
  rw [runWord, h]
  rfl

theorem runWord_pad {w : IWord} {c : Ctl} (h : decode w = .ok (.pad c)) (run : Instr → State → Out) (s : State) :
    runWord run w s = run (.pad c) s := by
  rw [runWord, h]
  exact if_pos rfl

theorem runWord_instr {w : IWord} {i : Instr} (h : decode w = .ok i) (hp : ∀ c, i ≠ .pad c) (run : Instr → State → Out)
    (s : State) : runWord run w s = beforeInstr (runInstr run i) s := by
  rw [runWord, h]
  refine if_neg fun h => ?_
  obtain ⟨c, rfl⟩ := (isPad_iff i).1 h
  exact hp c rfl

/-! ## Around the instruction -/

/-- The bound of a doff routine is exceeded (R340). -/
theorem beforeInstr_bound {s : State} (h : s.countDoff.1 = true) (run : State → Out) :
    beforeInstr run s = .next (s.countDoff.2.doffViolation 1) := by
  rw [beforeInstr, show s.countDoff = (true, s.countDoff.2) from Prod.ext h rfl]

theorem beforeInstr_runs {s : State} (h : s.countDoff.1 = false) (run : State → Out) :
    beforeInstr run s = run s.countDoff.2 := by
  rw [beforeInstr, show s.countDoff = (false, s.countDoff.2) from Prod.ext h rfl]

theorem countDoff_outside {s : State} (h : s.hart.dAct = false) : s.countDoff = (false, s) := by
  rw [State.countDoff, h]
  rfl

/-- The state in which instruction i runs: late stores that it must not pass are visible. -/
def runsIn (i : Instr) (s : State) : State := if s.hart.sbuf = [] ∨ showsStores i = false then s else s.lateStores

theorem runsIn_eq (i : Instr) (s : State) :
    (if s.hart.sbuf.isEmpty || !showsStores i then s else s.lateStores) = runsIn i s := by
  simp only [runsIn, Bool.or_eq_true, List.isEmpty_iff, Bool.not_eq_true']

theorem runInstr_waits {i : Instr} {s : State} (h : mustWait i s = true) (run : Instr → State → Out) :
    runInstr run i s = .next (s.await i) := if_pos h

theorem runInstr_forbidden {i : Instr} {s : State} (hw : mustWait i s = false) (h : nestFault i s = true)
    (run : Instr → State → Out) : runInstr run i s = .next (s.takeTrap ⟨.loopNest, 2⟩) := by
  rw [runInstr, if_neg (Bool.eq_false_iff.1 hw), if_pos h]

/-- What an instruction that nothing holds back does, and what follows it. -/
theorem runInstr_runs {i : Instr} {s t : State} (hw : mustWait i s = false) (hn : nestFault i s = false)
    {run : Instr → State → Out} (ht : run i (runsIn i s) = .next t) :
    runInstr run i s = if t.hart.heldUp = true then .next ((runsIn i s).await i)
      else .next (afterInstr i (runsIn i s) (drainedFault (runsIn i s) t)) := by
  rw [runInstr, if_neg (Bool.eq_false_iff.1 hw), if_neg (Bool.eq_false_iff.1 hn), runsIn_eq]
  dsimp only
  rw [ht]
  rfl

/-- A hart whose vector streams are empty drains nothing. -/
theorem drainedFault_idle {pre : State} (h : pre.hart.idle = true) (post : State) : drainedFault pre post = post := by
  rw [drainedFault, h]
  rfl

/-- Settles O22, by what each part of a step does. -/
theorem stepRunsDecoded : Obligations.StepRunsDecoded := by
  intro s hs hq hr hz hb hv hw
  have hstep := step_eq_fetchAndRun hs hq hr hz hb hv hw
  refine ⟨fun hf hm => hstep.trans (fetchAndRun_awaits ((awaitsMatrix_iff s).2 ⟨hf, hm⟩) exec), fun hm => ?_⟩
  have hfree : s.awaitsMatrix = false := by
    refine Bool.eq_false_iff.2 fun h => ?_
    obtain ⟨hf, e, he, c, n, hi⟩ := (awaitsMatrix_iff s).1 h
    rcases hm with hm | hm
    · rw [hf] at hm; cases hm
    · exact hm e he c n hi
  refine ⟨fun t ht hc => hstep.trans (fetchAndRun_error hfree ht hc exec), fun u bs hfetch => ?_⟩
  have hword := hstep.trans (fetchAndRun_ok hfree hfetch exec)
  refine ⟨fun e he => hword.trans (runWord_error he), fun c hc => hword.trans (runWord_pad hc exec u),
    fun i hi hp hd => ?_, fun hd i hi hp => ?_, countDoff_outside⟩
  · rw [hword, runWord_instr hi hp, beforeInstr_bound hd]
  · have hrun : step s = runInstr exec i u.countDoff.2 := by rw [hword, runWord_instr hi hp, beforeInstr_runs hd]
    refine ⟨fun h => hrun.trans (runInstr_waits h exec), fun h hn => hrun.trans (runInstr_forbidden h hn exec),
      fun h hn t ht => ⟨fun hh => ?_, fun hh => ⟨?_, fun hidle => drainedFault_idle hidle t⟩⟩⟩
    · rw [hrun, runInstr_runs h hn ht, if_pos hh, runsIn]
    · rw [hrun, runInstr_runs h hn ht, if_neg (Bool.eq_false_iff.1 hh), runsIn]

end Sys2Proof.Proofs
end

section
/-! PROOFS. A load does not read the vector registers: it commutes with writes to them (R198, R203). -/

namespace Sys2Proof.Proofs

open Sys2Proof.Machine Sys2Proof.Safety

/-! ## A load and the parts of its access -/

/-- A load whose check passes. -/
theorem load_ok_iff (s : State) (a : Word) (n : Nat) (b : List Byte) (s' : State) : s.load a n true true = .ok (b, s') ↔
    ∃ acc, s.check s.agent ⟨a, n, .load, true, true⟩ = .ok acc ∧ s.loadAt s.hart.holder acc = (b, s') := by
  unfold State.load
  cases s.check s.agent ⟨a, n, .load, true, true⟩ with
  | error t => simp
  | ok acc => simp

/-- A load whose check fails. -/
theorem load_error_iff (s : State) (a : Word) (n : Nat) (t : Trap) :
    s.load a n true true = .error t ↔ s.check s.agent ⟨a, n, .load, true, true⟩ = .error t := by
  unfold State.load
  cases s.check s.agent ⟨a, n, .load, true, true⟩ with
  | error t => simp
  | ok acc => simp

/-- A line of another context at the offset of a line that comes to be held is written back (R190). -/
def displaced (core : Nat) (cid : BitVec 12) (vline : Nat) (s : State) : State :=
  if !s.dirty.any fun d => d.core = core && d.cid ≠ cid then s
  else
    match s.mappedAt core cid vline with
    | none => s
    | some o => s.cleanIf fun d => d.core = core && d.cid ≠ cid && s.mappedAt core d.cid d.vline == some o

/-- The bank of a line in a core's stash has power (R457). -/
def powered (core pline : Nat) (s : State) : State :=
  if (s.coreAt core).sgate = BitVec.allOnes 64 then s
  else s.modCore core fun c => { c with sgate := c.sgate ||| ((1 : Word) <<< (Config.bankOf pline).toNat) }

theorem holdLine_eq (core : Nat) (cid : BitVec 12) (vline pline : Nat) (s : State) :
    s.holdLine core cid vline pline = powered core pline (displaced core cid vline s) := rfl

/-! ## The vector registers -/

/-- A state with other vector registers. -/
def setV (v : List (Nat × List (Nat × Elem))) (s : State) : State := s.onH fun h => { h with v := v }

section
variable (v : List (Nat × List (Nat × Elem))) (s : State)

@[simp] theorem walkFrom_setV (pid : Byte) (va : Word) (l : Nat) :
    ∀ table, (setV v s).walkFrom pid va l table = s.walkFrom pid va l table := by
  induction l with
  | zero => exact fun _ => rfl
  | succ l ih =>
    intro table
    rw [State.walkFrom, State.walkFrom]
    simp only [ih]
    rfl

@[simp] theorem lookup_setV (cache : Option Cache) (pid : Byte) (va : Word) :
    (setV v s).lookup cache pid va = s.lookup cache pid va := by
  unfold State.lookup
  rw [walkFrom_setV]
  rfl

/-- The stash map of a slot does not depend on the vector registers. -/
theorem hartAt_setV {γ : Type} (g : Hart → γ) (hg : ∀ h, g { h with v := v } = g h) (n : Nat) :
    g ((setV v s).hartAt n) = g (s.hartAt n) := by
  by_cases hn : n = s.cur
  · rw [State.hartAt, if_pos (show n = (setV v s).cur from hn), State.hartAt, if_pos hn]
    exact hg s.hart
  · rw [State.hartAt, if_neg (show ¬ n = (setV v s).cur from hn), State.hartAt, if_neg hn]
    rfl

@[simp] theorem mapsOf_setV (cid : BitVec 12) : (setV v s).mapsOf cid = s.mapsOf cid := by
  unfold State.mapsOf
  congr 1
  refine List.flatMap_congr fun n _ => ?_
  exact hartAt_setV v s (fun h => if h.run ≠ .empty && h.cid = cid then h.stmap else []) (fun _ => rfl) n

@[simp] theorem window_setV (a : Agent) (va : Word) : (setV v s).window a va = s.window a va := by
  unfold State.window
  rw [mapsOf_setV]
  rfl

@[simp] theorem resolve_setV (a : Agent) (l : List (Word × Nat)) : (setV v s).resolve a l = s.resolve a l := by
  induction l with
  | nil => rfl
  | cons p l ih => rw [State.resolve, State.resolve, window_setV, ih]

@[simp] theorem translate_setV (a : Agent) (l : List (Word × Nat × Word × Nat)) :
    (setV v s).translate a l = s.translate a l := by
  induction l with
  | nil => rfl
  | cons p l ih => rw [State.translate, State.translate, lookup_setV, ih]

@[simp] theorem check_setV (a : Agent) (q : Req) : (setV v s).check a q = s.check a q := by
  unfold State.check
  simp only [resolve_setV, translate_setV]
  rfl

@[simp] theorem keep_setV (fills : List TlbEntry) : (setV v s).keep fills = setV v (s.keep fills) := by
  unfold State.keep
  split <;> rfl

@[simp] theorem mappedAt_setV (core : Nat) (cid : BitVec 12) (vline : Nat) :
    (setV v s).mappedAt core cid vline = s.mappedAt core cid vline := by
  unfold State.mappedAt
  rw [mapsOf_setV]

/-- A change that is made under a test which the vector registers do not decide. -/
theorem ite_setV {p : Prop} [Decidable p] {x y : State} {a b : State} (ha : x = setV v a) (hb : y = setV v b) :
    (if p then x else y) = setV v (if p then a else b) := by
  split
  · exact ha
  · exact hb

@[simp] theorem displaced_setV (core : Nat) (cid : BitVec 12) (vline : Nat) :
    displaced core cid vline (setV v s) = setV v (displaced core cid vline s) := by
  unfold displaced
  refine ite_setV v rfl ?_
  rw [mappedAt_setV]
  cases s.mappedAt core cid vline with
  | none => rfl
  | some o =>
    simp only [mappedAt_setV]
    rfl

@[simp] theorem holdLine_setV (core : Nat) (cid : BitVec 12) (vline pline : Nat) :
    (setV v s).holdLine core cid vline pline = setV v (s.holdLine core cid vline pline) := by
  rw [holdLine_eq, holdLine_eq, displaced_setV]
  exact ite_setV v rfl rfl

theorem eachLine_setV {f : Nat → Nat → State → State} (hf : ∀ a b s, f a b (setV v s) = setV v (f a b s)) (cid : BitVec 12)
    (c : Chunk) : (setV v s).eachLine cid c f = setV v (s.eachLine cid c f) := by
  refine List.foldl_hom (setV v) (fun s l => ?_)
  dsimp only
  rw [holdLine_setV, hf]

@[simp] theorem touch_setV (o : Holder) (c : Chunk) : (setV v s).touch o c = setV v (s.touch o c) := by
  unfold State.touch
  refine ite_setV v (eachLine_setV v s ?_ _ _) (ite_setV v (eachLine_setV v s ?_ _ _) rfl)
  all_goals exact fun _ _ _ => rfl

theorem loadAt_setV (o : Holder) (acc : Acc) :
    (setV v s).loadAt o acc = ((s.loadAt o acc).1, setV v (s.loadAt o acc).2) := by
  unfold State.loadAt
  rw [keep_setV, List.foldl_hom (setV v) fun s c => touch_setV v s o c]
  rfl

/-- A load reads alike whatever the vector registers hold. -/
theorem load_setV_ok {a : Word} {n : Nat} {b : List Byte} {s' : State} (h : s.load a n true true = .ok (b, s')) :
    (setV v s).load a n true true = .ok (b, setV v s') := by
  obtain ⟨acc, hacc, hl⟩ := (load_ok_iff s a n b s').1 h
  refine (load_ok_iff _ a n b _).2 ⟨acc, (check_setV v s s.agent _).trans hacc, ?_⟩
  rw [show (setV v s).hart.holder = s.hart.holder from rfl, loadAt_setV, hl]

/-- A load fails alike whatever the vector registers hold. -/
theorem load_setV_error {a : Word} {n : Nat} {t : Trap} (h : s.load a n true true = .error t) :
    (setV v s).load a n true true = .error t :=
  (load_error_iff _ a n t).2 ((check_setV v s s.agent _).trans ((load_error_iff s a n t).1 h))

end

end Sys2Proof.Proofs
end

section
/-! PROOFS. Vector loads, element by element up to the first check that fails (R39, R203 to R205). -/

namespace Sys2Proof.Proofs

open Sys2Proof.Machine Sys2Proof.Safety

/-! ## The elements of an instruction in order -/

/-- The elements of an instruction of which no group is open, from the first to the last. -/
theorem elements_eq_range' {v : Env} (hv : v.grp = none) (p first n : Nat) :
    elements v p first n = List.range' first (n - first) := by
  rw [elements, hv, List.range'_eq_map_range]

theorem filter_le_range (first n : Nat) :
    (List.range n).filter (fun e => decide (first ≤ e)) = List.range' first (n - first) := by
  rcases Nat.le_total first n with h | h
  · have hr : List.range n = List.range first ++ List.range' first (n - first) := by
      have := List.range'_append_1 (s := 0) (m := first) (n := n - first)
      rwa [Nat.zero_add, Nat.add_sub_cancel' h, ← List.range_eq_range', ← List.range_eq_range', eq_comm] at this
    rw [hr, List.filter_append, List.filter_eq_nil_iff.2, List.filter_eq_self.2, List.nil_append]
    · intro e he
      rw [List.mem_range'_1] at he
      simpa using he.1
    · intro e he
      rw [List.mem_range] at he
      simpa using he
  · rw [Nat.sub_eq_zero_of_le h, List.filter_eq_nil_iff.2]
    · rfl
    · intro e he
      rw [List.mem_range] at he
      simp only [decide_eq_true_eq]
      omega

/-- The active elements from vstart on. -/
theorem activeElements_eq (act : Nat → Bool) (first n : Nat) :
    ((List.range n).filter fun e => decide (first ≤ e) && act e) = (List.range' first (n - first)).filter act := by
  rw [← filter_le_range, List.filter_filter]
  exact List.filter_congr fun e _ => Bool.and_comm _ _

/-- Where an active element stands in the list of all elements. -/
theorem split_range' {act : Nat → Bool} {first k : Nat} {below above : List Nat} {e : Nat}
    (h : (List.range' first k).filter act = below ++ e :: above) :
    ∃ post, List.range' first k = List.range' first (e - first) ++ e :: post ∧
      (List.range' first (e - first)).filter act = below ∧ act e = true := by
  obtain ⟨l₁, l₂, hl, hbelow, hrest⟩ := List.filter_eq_append_iff.1 h
  obtain ⟨l₃, post, hl₂, hnone, he, -⟩ := List.filter_eq_cons_iff.1 hrest
  have hsplit : List.range' first k = (l₁ ++ l₃) ++ e :: post := by rw [hl, hl₂, List.append_assoc]
  obtain ⟨m, -, hpre, hpost⟩ := List.range'_eq_append_iff.1 hsplit
  obtain ⟨hfirst, -, -⟩ := List.range'_eq_cons_iff.1 hpost.symm
  have hbelow' : (l₁ ++ l₃).filter act = below := by
    rw [List.filter_append, hbelow, List.filter_eq_nil_iff.2 hnone, List.append_nil]
  obtain rfl : m = e - first := by omega
  exact ⟨post, hpre ▸ hsplit, hpre ▸ hbelow', he⟩

/-! ## Vector registers that a load has written -/

/-- Register r with its element e written. -/
def written (r e : Nat) (x : Elem) (v : List (Nat × List (Nat × Elem))) : List (Nat × List (Nat × Elem)) :=
  tset [] v r (tset 0 (tget [] v r) e x)

theorem wv_setV (r e : Nat) (x : Elem) (v : List (Nat × List (Nat × Elem))) (s : State) :
    (setV v s).onH (Hart.wv r e x) = setV (written r e x v) s := rfl

theorem tget_written (r e r' e' : Nat) (x : Elem) (v : List (Nat × List (Nat × Elem))) :
    tget 0 (tget [] (written r e x v) r') e' = if r' = r ∧ e' = e then x else tget 0 (tget [] v r') e' :=
  Hart.rv_wv r e r' e' x { Hart.reset with v := v }

/-- The elements of l have been loaded: v' holds what was read for the active ones, bs in their order. -/
def Loaded (o : VMOps) (act : Nat → Bool) (l : List Nat) (bs : List (List Byte)) (v v' : List (Nat × List (Nat × Elem))) :
    Prop :=
  ∀ r e, tget 0 (tget [] v' r) e =
    if r = o.d.toNat ∧ e ∈ l then
      (if act e then extElem o.fmt (leNat (bs.getD ((l.filter act).idxOf e) [])) else if o.mz then 0 else tget 0 (tget [] v r) e)
    else tget 0 (tget [] v r) e

section
variable {o : VMOps} {act : Nat → Bool} {l : List Nat} {e : Nat} {bs : List (List Byte)} {v v' : List (Nat × List (Nat × Elem))}

theorem loaded_nil : Loaded o act [] [] v v := fun r e => by simp

theorem Loaded.cons_active {b : List Byte} (he : act e = true) (hl : e ∉ l)
    (h : Loaded o act l bs (written o.d.toNat e (extElem o.fmt (leNat b)) v) v') : Loaded o act (e :: l) (b :: bs) v v' := by
  intro r e'
  rw [h r e', tget_written, List.filter_cons_of_pos he]
  by_cases hr : r = o.d.toNat
  · by_cases hee : e' = e
    · subst hee
      simp [hr, hl, he]
    · simp [hr, hee, List.idxOf_cons_ne _ (Ne.symm hee)]
  · simp [hr]

/-- What an inactive element leaves in the vector registers. -/
def skipped (o : VMOps) (e : Nat) (v : List (Nat × List (Nat × Elem))) : List (Nat × List (Nat × Elem)) :=
  if o.mz then written o.d.toNat e 0 v else v

theorem Loaded.cons_inactive (he : act e = false) (hl : e ∉ l) (h : Loaded o act l bs (skipped o e v) v') :
    Loaded o act (e :: l) bs v v' := by
  intro r e'
  have hs : tget 0 (tget [] (skipped o e v) r) e' =
      if r = o.d.toNat ∧ e' = e ∧ o.mz = true then 0 else tget 0 (tget [] v r) e' := by
    unfold skipped
    by_cases hm : o.mz = true
    · rw [if_pos hm, tget_written]; simp [hm]
    · rw [if_neg hm]; simp [hm]
  rw [h r e', hs, List.filter_cons_of_neg (by simp [he])]
  by_cases hr : r = o.d.toNat
  · by_cases hee : e' = e
    · subst hee
      simp [hr, hl, he]
    · simp [hr, hee]
  · simp [hr]

end

/-! ## The loads of a list of elements -/

section
variable {o : VMOps} {env : Env} {ea : Nat → Word} {act : Nat → Bool} {e : Nat}

theorem loadElems_inactive (he : act e = false) (l : List Nat) (v : List (Nat × List (Nat × Elem))) (s : State) :
    loadElems o env ea act (e :: l) (setV v s) = loadElems o env ea act l (setV (skipped o e v) s) := by
  rw [loadElems, if_neg (Bool.eq_false_iff.1 he), skipped]
  cases o.mz <;> rfl

theorem loadElems_ok {b : List Byte} {s s' : State} (he : act e = true)
    (hl : s.load (ea e) (fmtBytes o.fmt) true true = .ok (b, s')) (l : List Nat) (v : List (Nat × List (Nat × Elem))) :
    loadElems o env ea act (e :: l) (setV v s) =
      loadElems o env ea act l (setV (written o.d.toNat e (extElem o.fmt (leNat b)) v) s') := by
  rw [loadElems, if_pos he, load_setV_ok v s hl]
  rfl

theorem loadElems_error {t : Trap} {s : State} (he : act e = true)
    (hl : s.load (ea e) (fmtBytes o.fmt) true true = .error t) (l : List Nat) (v : List (Nat × List (Nat × Elem))) :
    loadElems o env ea act (e :: l) (setV v s) = (setV v s, some (t, e)) := by
  rw [loadElems, if_pos he, load_setV_error v s hl]

/-- Elements that all pass their checks are loaded, and what follows them goes on from there. -/
theorem loadElems_append (l l' : List Nat) (hl : l.Nodup) : ∀ {s t : State} {bs : List (List Byte)}
    {v : List (Nat × List (Nat × Elem))}, LoadsOf (fmtBytes o.fmt) ((l.filter act).map ea) s bs t →
    ∃ v', loadElems o env ea act (l ++ l') (setV v s) = loadElems o env ea act l' (setV v' t) ∧ Loaded o act l bs v v' := by
  induction l with
  | nil =>
    rintro s t bs v ⟨rfl, rfl⟩
    exact ⟨v, rfl, loaded_nil⟩
  | cons e l ih =>
    intro s t bs v hloads
    obtain ⟨hel, hl⟩ := List.nodup_cons.1 hl
    cases he : act e with
    | false =>
      rw [List.filter_cons_of_neg (by simp [he])] at hloads
      obtain ⟨v', hv', hL⟩ := ih hl (v := skipped o e v) hloads
      exact ⟨v', (loadElems_inactive he _ v s).trans hv', hL.cons_inactive he hel⟩
    | true =>
      rw [List.filter_cons_of_pos he] at hloads
      obtain ⟨b, s', bs', hload, hrest, rfl⟩ := hloads
      obtain ⟨v', hv', hL⟩ := ih hl (v := written o.d.toNat e (extElem o.fmt (leNat b)) v) hrest
      exact ⟨v', (loadElems_ok he hload _ v).trans hv', hL.cons_active he hel⟩

end

/-- Loads change no context and no byte. -/
theorem loadsOf_frame {n : Nat} (as : List Word) : ∀ {s t : State} {bs : List (List Byte)}, LoadsOf n as s bs t →
    contexts t = contexts s ∧ t.mem = s.mem := by
  induction as with
  | nil => rintro s t bs ⟨-, rfl⟩; exact ⟨rfl, rfl⟩
  | cons a as ih =>
    rintro s t bs ⟨b, s', bs', hload, hrest, -⟩
    obtain ⟨acc, -, hacc⟩ := (load_ok_iff s a n b s').1 hload
    obtain ⟨hc, hm⟩ := ih hrest
    have hs' : s' = (s.loadAt s.hart.holder acc).2 := (congrArg Prod.snd hacc).symm
    rw [hc, hm, hs']
    exact ⟨contexts_loadAt _ _ _, loadAt_mem _ _ _⟩

/-! ## The instruction in the queue -/

theorem vcq_of_issues {c : Ctl} {s : State} (h : Issues c s) : s.hart.vcq = [] := by
  obtain ⟨-, -, hi⟩ := h
  simp only [State.vectorIdle, Bool.and_eq_true, List.isEmpty_iff] at hi
  exact hi.1.1

/-- Nothing keeps the instruction from entering the queue. -/
theorem entering_issues {i : Instr} {c : Ctl} {s : State} (h : Issues c s) (f : State → State) :
    entering i c f s = .next (f s) := by
  have hempty := vcq_of_issues h
  obtain ⟨hg, hq, -⟩ := h
  rcases entering_cases i c f s with ⟨h0, -⟩ | ⟨-, ⟨h0, -⟩ | ⟨-, ⟨h0, -⟩ | ⟨-, h0⟩⟩⟩
  · rw [hg] at h0; cases h0
  · rw [hq] at h0; cases h0
  · rw [hempty] at h0; exact absurd h0 (by decide)
  · exact h0

/-- The instruction heads the queue with the trap that its run raises (R39). -/
theorem issueV_trap {i : Instr} {c : Ctl} {run : Env → State → VRes} {s s' : State} {t : Trap} {e : Nat} (h : Issues c s)
    (hr : run (s.envOf i) s.issued = .trap t s' e) (hc : t.cause ≠ .held) :
    issueV i c run s = .next (s'.enqueue i (s.envOf i) (some (t, e))) := by
  have hidle : s.vectorIdle = true := h.2.2
  rw [issueV, entering_issues h]
  dsimp only
  rw [if_pos hidle, hr]
  dsimp only
  rw [if_neg hc]

/-- The state of a trapped instruction at the head of the queue. -/
theorem enqueue_head {i : Instr} {s t : State} (x : Option (Trap × Nat)) (hf : fences i = false) (hq : t.hart.vcq = []) :
    t.enqueue i (s.envOf i) x =
      { t with hart := { t.hart with vcq := [⟨s.hart.pc, i, s.envOf i, x, false⟩] } } := by
  rw [State.enqueue, hf, State.onH, hq]
  rfl

/-! ## Vector loads -/

/-- The active elements of a vector memory instruction from vstart on. -/
def activeElements (o : VMOps) (s : State) : List Nat :=
  (List.range s.vlen).filter fun e => decide (s.hart.vstart.toNat ≤ e) && active s.hart o.msk o.mn 1 e

theorem activeElements_range' (o : VMOps) (s : State) : activeElements o s =
    (List.range' s.hart.vstart.toNat (s.vlen - s.hart.vstart.toNat)).filter (active s.hart o.msk o.mn 1) :=
  activeElements_eq _ _ _

/-- The vector registers hold what was loaded for the elements below hi, and what s holds elsewhere. -/
def HoldsLoaded (o : VMOps) (s : State) (v' : List (Nat × List (Nat × Elem))) (bs : List (List Byte)) (hi : Nat) : Prop :=
  ∀ r e, tget 0 (tget [] v' r) e =
    if r = o.d.toNat ∧ s.hart.vstart.toNat ≤ e ∧ e < hi then
      (if active s.hart o.msk o.mn 1 e then extElem o.fmt (leNat (bs.getD ((activeElements o s).idxOf e) []))
        else if o.mz then 0 else s.hart.rv r e)
    else s.hart.rv r e

theorem Loaded.holds {o : VMOps} {s : State} {k hi : Nat} {bs : List (List Byte)} {v' : List (Nat × List (Nat × Elem))}
    (hhi : ∀ e, e ∈ List.range' s.hart.vstart.toNat k ↔ s.hart.vstart.toNat ≤ e ∧ e < hi)
    (hidx : ∀ e ∈ (List.range' s.hart.vstart.toNat k).filter (active s.hart o.msk o.mn 1), (activeElements o s).idxOf e =
      ((List.range' s.hart.vstart.toNat k).filter (active s.hart o.msk o.mn 1)).idxOf e)
    (h : Loaded o (active s.hart o.msk o.mn 1) (List.range' s.hart.vstart.toNat k) bs s.hart.v v') :
    HoldsLoaded o s v' bs hi := by
  intro r e
  rw [h r e]
  simp only [hhi]
  by_cases hin : r = o.d.toNat ∧ s.hart.vstart.toNat ≤ e ∧ e < hi
  · rw [if_pos hin, if_pos hin]
    by_cases he : active s.hart o.msk o.mn 1 e = true
    · rw [if_pos he, if_pos he, hidx e (List.mem_filter.2 ⟨(hhi e).2 hin.2, he⟩)]
    · rw [if_neg he, if_neg he]
      rfl
  · rw [if_neg hin, if_neg hin]
    rfl

theorem mem_range'_sub {first n e : Nat} : e ∈ List.range' first (n - first) ↔ first ≤ e ∧ e < n := by
  rw [List.mem_range'_1]
  omega

theorem loadVector_done {o : VMOps} {EA : Hart → Nat → Word} {v : Env} {s t : State} (hv : v.grp = none)
    (h : loadElems o v (EA s.hart) (active s.hart o.msk o.mn 1)
      (List.range' s.hart.vstart.toNat (v.n - s.hart.vstart.toNat)) s = (t, none)) :
    loadVector o EA v s = .done (t.onH fun h => { h with vstart := 0 }) := by
  rw [loadVector, elements_eq_range' hv, h]

theorem loadVector_trap {o : VMOps} {EA : Hart → Nat → Word} {v : Env} {s t : State} {x : Trap} {e : Nat} (hv : v.grp = none)
    (h : loadElems o v (EA s.hart) (active s.hart o.msk o.mn 1)
      (List.range' s.hart.vstart.toNat (v.n - s.hart.vstart.toNat)) s = (t, some (x, e))) :
    loadVector o EA v s = .trap x t e := by
  rw [loadVector, elements_eq_range' hv, h]

section
variable {i : Instr} {c : Ctl} {o : VMOps} {s : State} {run : Env → State → VRes} {EA : Hart → Nat → Word}

/-- A vector load whose active elements all pass their checks. -/
theorem vectorLoad_done (hi : Issues c s) (hx : exec i s = issueV i c run s)
    (hrun : run (s.envOf i) s.issued = loadVector o EA (s.envOf i) s.issued) {bs : List (List Byte)} {t : State}
    (hl : LoadsOf (fmtBytes o.fmt) ((activeElements o s).map (EA s.issued.hart)) s.issued bs t) :
    t.mem = s.mem ∧ ∃ v', exec i s = .next { t with hart := { t.hart with v := v', vstart := 0 } } ∧
      HoldsLoaded o s v' bs s.vlen := by
  obtain ⟨-, hm⟩ := loadsOf_frame _ hl
  rw [activeElements_range'] at hl
  obtain ⟨v', hv', hL⟩ := loadElems_append (env := s.envOf i) _ [] List.nodup_range' hl (v := s.hart.v)
  rw [List.append_nil] at hv'
  refine ⟨hm, v', ?_, hL.holds (fun e => mem_range'_sub) fun e _ => by rw [activeElements_range']⟩
  rw [hx]
  exact issueV_done hi (hrun.trans (loadVector_done rfl hv'))

/-- A vector load up to the first check that fails. -/
theorem vectorLoad_trap (hi : Issues c s) (hx : exec i s = issueV i c run s) (hf : fences i = false)
    (hrun : run (s.envOf i) s.issued = loadVector o EA (s.envOf i) s.issued) {below above : List Nat} {e : Nat}
    {bs : List (List Byte)} {t : State} {trap : Trap} (hes : activeElements o s = below ++ e :: above)
    (hl : LoadsOf (fmtBytes o.fmt) (below.map (EA s.issued.hart)) s.issued bs t)
    (ht : t.load (EA s.issued.hart e) (fmtBytes o.fmt) true true = .error trap) (hc : trap.cause ≠ .held) :
    t.mem = s.mem ∧ ∃ v', exec i s = .next { t with hart := { t.hart with
      v := v', vcq := [⟨s.hart.pc, i, s.envOf i, some (trap, e), false⟩] } } ∧ HoldsLoaded o s v' bs e := by
  obtain ⟨hctx, hm⟩ := loadsOf_frame _ hl
  obtain ⟨post, hsplit, hbelow, he⟩ := split_range' ((activeElements_range' o s).symm.trans hes)
  rw [← hbelow] at hl
  obtain ⟨v', hv', hL⟩ := loadElems_append (env := s.envOf i) _ (e :: post) List.nodup_range' hl (v := s.hart.v)
  rw [← hsplit, loadElems_error he ht] at hv'
  have hq : (setV v' t).hart.vcq = [] := (congrArg (fun x : Contexts => x.hart.vcq) hctx).trans (vcq_of_issues hi)
  refine ⟨hm, v', ?_, hL.holds (fun e => mem_range'_sub) fun e' he' => ?_⟩
  · rw [hx, issueV_trap hi (hrun.trans (loadVector_trap rfl hv')) hc, enqueue_head _ hf hq]
    rfl
  · rw [hbelow] at he' ⊢
    rw [hes, List.idxOf_append_of_mem he']

end

/-- The address of element e of vldx and vstx (R25, R203). -/
theorem eaIndex_eq (o : VMOps) (i : Instr) (s : State) (e : Nat) {k : BitVec 5} {m : Mods} (hb : o.b = .v k m) :
    eaIndex o (s.envOf i) s.issued.hart e = swz64 o.a.swz (s.hart.rs o.a.n.toNat) +
      (if o.si then (BitVec.ofInt 32 (absNeg m (if o.si then (swz m.swz (s.hart.rv k.toNat e)).toInt
          else ((swz m.swz (s.hart.rv k.toNat e)).toNat : Int)))).signExtend 64
        else (BitVec.ofInt 32 (absNeg m (if o.si then (swz m.swz (s.hart.rv k.toNat e)).toInt
          else ((swz m.swz (s.hart.rv k.toNat e)).toNat : Int)))).setWidth 64) *
      BitVec.ofNat 64 (if o.sc then fmtBytes o.fmt else 1) := by
  rw [eaIndex, indexElem_eq o s.issued.hart e k m hb]
  rfl

/-- Settles O35, each form by its element addresses. -/
theorem vectorLoads : Obligations.VectorLoads := by
  intro c o s hi
  refine ⟨⟨fun bs t hl => ?_, fun below e above bs t trap hes hl ht hc => ?_⟩,
    ⟨fun bs t hl => ?_, fun below e above bs t trap hes hl ht hc => ?_⟩, fun k m hb => ?_⟩
  · exact vectorLoad_done (i := .vld c o) (run := runVld o) hi rfl rfl hl
  · exact vectorLoad_trap (i := .vld c o) (run := runVld o) hi rfl rfl rfl hes hl ht hc
  · exact vectorLoad_done (i := .vlds c o) (run := runVlds o) hi rfl rfl hl
  · exact vectorLoad_trap (i := .vlds c o) (run := runVlds o) hi rfl rfl rfl hes hl ht hc
  · have hea := funext fun e => eaIndex_eq o (.vldx c o) s e hb
    refine ⟨fun bs t hl => ?_, fun below e above bs t trap hes hl ht hc => ?_⟩
    · exact vectorLoad_done (i := .vldx c o) (run := runVldx o) hi rfl rfl (hea ▸ hl)
    · exact vectorLoad_trap (i := .vldx c o) (run := runVldx o) hi rfl rfl rfl hes (hea ▸ hl) (hea ▸ ht) hc

end Sys2Proof.Proofs
end

section
/-! PROOFS. Stores of the focused hart: what they leave alone, the bytes they write, and the parts of a checked access
(R198, R203, R423). -/

namespace Sys2Proof.Proofs

open Sys2Proof.Machine Sys2Proof.Safety

/-! ## The lining -/

/-- A change of the hart that only concerns its lining. -/
theorem stored_onH {f : Hart → Hart} (hf : ∀ h, unlined (f h) = unlined h) (s : State) : Stored s (s.onH f) := by
  refine ⟨?_, onlyLaunch_of_eq rfl⟩
  show ({ contexts s with hart := unlined (f s.hart), launches := [] } : Contexts) = _
  rw [hf]
  rfl

theorem stored_makeRoom (n : Nat) : ∀ (fuel : Nat) (s : State), Stored s (s.makeRoom n fuel) := by
  intro fuel
  induction fuel with
  | zero => exact fun s => Stored.refl s
  | succ fuel ih =>
    intro s
    unfold State.makeRoom
    dsimp only
    split
    · exact Stored.refl s
    · split
      · split
        · refine Stored.trans (stored_onH ?_ s) (ih _)
          exact fun _ => rfl
        · refine stored_onH ?_ s
          exact fun _ => rfl
      · refine stored_onH ?_ s
        exact fun _ => rfl

theorem stored_appendSlot (bs : List Byte) (s : State) : Stored s (s.appendSlot bs) := by
  refine (stored_of_contexts (contexts_writeDev _ _ s)).trans (stored_onH ?_ _)
  exact fun _ => rfl

theorem stored_append (r : Record) (s : State) : Stored s (s.append r) := by
  unfold State.append
  split
  · exact Stored.refl s
  dsimp only
  split
  · exact stored_makeRoom _ _ _
  · refine ((stored_makeRoom _ _ _).trans (stored_appendSlot _ _)).trans (stored_onH ?_ _)
    exact fun _ => rfl

theorem stored_foldl {α : Type} (f : State → α → State) (hf : ∀ s x, Stored s (f s x)) (l : List α) :
    ∀ s, Stored s (l.foldl f s) := by
  induction l with
  | nil => exact fun s => Stored.refl s
  | cons x l ih => exact fun s => (hf s x).trans (ih _)

theorem stored_logChunk (m : RecMeta) (c : Chunk) (bs : List Byte) (s : State) : Stored s (s.logChunk m c bs) := by
  unfold State.logChunk
  split
  · exact Stored.refl s
  · exact stored_foldl _ (fun _ _ => stored_append _ _) _ s

/-- A part of a store: its records, then its bytes. -/
theorem storeChunk_eq (m : RecMeta) (c : Chunk) (bs : List Byte) (s : State) : s.storeChunk m c bs =
    writePart (s.logChunk m c bs).hart.holder c bs
      ((s.logChunk m c bs).soilChunk (s.logChunk m c bs).hart.holder c bs).myTag (s.logChunk m c bs) := rfl

theorem stored_storeChunk (m : RecMeta) (c : Chunk) (bs : List Byte) (s : State) : Stored s (s.storeChunk m c bs) := by
  rw [storeChunk_eq]
  exact (stored_logChunk m c bs s).trans (stored_writePart _ _ _ _ _)

theorem stored_storeChunks (m : RecMeta) (cs : List Chunk) :
    ∀ (bs : List Byte) (s : State), Stored s (s.storeChunks m cs bs) := by
  induction cs with
  | nil => exact fun _ s => Stored.refl s
  | cons c cs ih => exact fun bs s => (stored_storeChunk m c _ s).trans (ih _ _)

theorem stored_storeAt (m : RecMeta) (acc : Acc) (bs : List Byte) (s : State) : Stored s (s.storeAt m acc bs) :=
  (stored_of_contexts (contexts_keep _ s)).trans (stored_storeChunks m _ _ _)

/-! ## Bytes of a store that nothing logs -/

/-- Nothing is logged, and no frame moves. -/
structure Plain (s : State) : Prop where
  logged : s.logged = false
  migFwd : s.pkg.migFwd = false
  fwds : s.pkg.fwds = []

theorem byte_congr {s t : State} (hm : t.mem = s.mem) (hp : t.pkg = s.pkg) (a : Nat) : t.byte a = s.byte a := by
  rw [State.byte, State.byte, State.forward_congr hp, State.rawByte, hm, State.rawByte]

/-- Without a migration, a byte reads what was last written to it. -/
theorem byte_putBytes {s : State} (hm : s.pkg.migFwd = false) (hf : s.pkg.fwds = []) (pa a : Nat) (bs : List Byte) :
    (s.putBytes pa bs).byte a = if pa ≤ a ∧ a < pa + bs.length then bs.getD (a - pa) 0 else s.byte a := by
  split
  · next h =>
    obtain ⟨i, rfl⟩ := Nat.exists_eq_add_of_le h.1
    have hi : i < bs.length := by omega
    rw [State.byte_putBytes_at bs pa i s hm hf hi, Nat.add_sub_cancel_left, List.getD_eq_getElem _ _ hi]
  · next h =>
    refine State.byte_putBytes_other bs pa a s fun i hi => ?_
    rw [State.forward_of_not_fwd hm hf, State.forward_of_not_fwd hm hf]
    omega

theorem markFrame_mem_pkg (q : Option Word) (pa : Nat) (s : State) :
    (s.markFrame q pa).mem = s.mem ∧ (s.markFrame q pa).pkg = s.pkg := by
  unfold State.markFrame
  repeat' split
  all_goals exact ⟨rfl, rfl⟩

theorem noteWrite_mem_pkg (s : State) : s.noteWrite.mem = s.mem ∧ s.noteWrite.pkg = s.pkg := by
  unfold State.noteWrite
  split <;> exact ⟨rfl, rfl⟩

theorem logged_of_contexts {s t : State} (h : contexts t = contexts s) : t.logged = s.logged :=
  congrArg (fun x : Contexts => x.hart.lining && !x.hart.lLost) h

theorem logged_markFrame (q : Option Word) (pa : Nat) (s : State) : (s.markFrame q pa).logged = s.logged := by
  unfold State.markFrame
  repeat' split
  all_goals rfl

theorem logged_noteWrite (s : State) : s.noteWrite.logged = s.logged := by
  unfold State.noteWrite
  split <;> rfl

section
variable {s : State}

theorem Plain.of_contexts {t : State} (h : Plain s) (hc : contexts t = contexts s) : Plain t := by
  have hp : t.pkg = s.pkg := congrArg Contexts.pkg hc
  exact ⟨(logged_of_contexts hc).trans h.logged, hp ▸ h.migFwd, hp ▸ h.fwds⟩

theorem Plain.writePart (h : Plain s) (o : Holder) (c : Chunk) (bs : List Byte) (t : BitVec 28) :
    Plain (writePart o c bs t s) := by
  have hp : (Proofs.writePart o c bs t s).pkg = s.pkg := congrArg Contexts.pkg (stored_writePart o c bs t s).1
  refine ⟨?_, hp ▸ h.migFwd, hp ▸ h.fwds⟩
  rw [Proofs.writePart, logged_noteWrite, logged_markFrame, logged_of_contexts (contexts_write _ _ _ _),
    logged_of_contexts (contexts_soilChunk _ _ _ _), h.logged]

theorem byte_writePart (h : Plain s) (o : Holder) (c : Chunk) (bs : List Byte) (t : BitVec 28) (a : Nat) :
    (Proofs.writePart o c bs t s).byte a = if c.pa ≤ a ∧ a < c.pa + bs.length then bs.getD (a - c.pa) 0 else s.byte a := by
  have hs : Plain (s.soilChunk o c bs) := h.of_contexts (contexts_soilChunk o c bs s)
  have hp : (s.soilChunk o c bs).pkg = s.pkg := congrArg Contexts.pkg (contexts_soilChunk o c bs s)
  obtain ⟨nm, np⟩ := noteWrite_mem_pkg (((s.soilChunk o c bs).write c.pa bs t).markFrame
    ((s.soilChunk o c bs).write c.pa bs t).hart.launch c.pa)
  obtain ⟨mm, mp⟩ := markFrame_mem_pkg ((s.soilChunk o c bs).write c.pa bs t).hart.launch c.pa
    ((s.soilChunk o c bs).write c.pa bs t)
  rw [Proofs.writePart, byte_congr (nm.trans mm) (np.trans mp), State.byte_write, byte_putBytes hs.migFwd hs.fwds,
    byte_congr (soilChunk_mem o c bs s) hp]

theorem storeChunk_plain (h : Plain s) (m : RecMeta) (c : Chunk) (bs : List Byte) :
    ∃ o t, s.storeChunk m c bs = Proofs.writePart o c bs t s := by
  have hl : s.logChunk m c bs = s := if_pos (by rw [h.logged]; rfl)
  rw [storeChunk_eq, hl]
  exact ⟨_, _, rfl⟩

theorem Plain.storeChunk (h : Plain s) (m : RecMeta) (c : Chunk) (bs : List Byte) : Plain (s.storeChunk m c bs) := by
  obtain ⟨o, t, he⟩ := storeChunk_plain h m c bs
  exact he ▸ h.writePart o c bs t

theorem byte_storeChunk (h : Plain s) (m : RecMeta) (c : Chunk) (bs : List Byte) (a : Nat) :
    (s.storeChunk m c bs).byte a = if c.pa ≤ a ∧ a < c.pa + bs.length then bs.getD (a - c.pa) 0 else s.byte a := by
  obtain ⟨o, t, he⟩ := storeChunk_plain h m c bs
  rw [he, byte_writePart h]

end

/-- Address a lies in no part of a list. -/
def Outside (cs : List Chunk) (a : Nat) : Prop := ∀ c ∈ cs, a < c.pa ∨ c.pa + c.n ≤ a

/-- The parts of a store do not overlap. -/
def Apart (c d : Chunk) : Prop := c.pa + c.n ≤ d.pa ∨ d.pa + d.n ≤ c.pa

theorem bytes_congr {s t : State} {pa n : Nat} (h : ∀ i < n, t.byte (pa + i) = s.byte (pa + i)) :
    t.bytes pa n = s.bytes pa n :=
  List.map_congr_left fun i hi => h i (List.mem_range.1 hi)

/-- A part that overlaps none of the parts of a list. -/
theorem outside_of_apart {c : Chunk} {cs : List Chunk} (h : ∀ d ∈ cs, Apart c d) {i : Nat} (hi : i < c.n) :
    Outside cs (c.pa + i) := by
  intro d hd
  have := h d hd
  unfold Apart at this
  omega

theorem Plain.storeChunks (m : RecMeta) (cs : List Chunk) :
    ∀ (bs : List Byte) {s : State}, Plain s → Plain (s.storeChunks m cs bs) := by
  induction cs with
  | nil => exact fun _ _ h => h
  | cons c cs ih => exact fun bs _ h => ih _ (h.storeChunk m c _)

theorem byte_storeChunks_outside (m : RecMeta) {a : Nat} (cs : List Chunk) : ∀ (bs : List Byte) {s : State}, Plain s →
    Outside cs a → (s.storeChunks m cs bs).byte a = s.byte a := by
  induction cs with
  | nil => exact fun _ _ _ _ => rfl
  | cons c cs ih =>
    intro bs s h ho
    obtain ⟨hc, hcs⟩ := List.forall_mem_cons.1 ho
    have hlen := List.length_take_le c.n bs
    have hout : ¬ (c.pa ≤ a ∧ a < c.pa + (bs.take c.n).length) := by omega
    rw [State.storeChunks, ih _ (h.storeChunk m c _) hcs, byte_storeChunk h, if_neg hout]

/-- The parts of a store that do not overlap read back as its bytes. -/
theorem bytes_storeChunks (m : RecMeta) (cs : List Chunk) : ∀ (bs : List Byte) {s : State}, Plain s → cs.Pairwise Apart →
    (cs.map Chunk.n).sum = bs.length → (cs.flatMap fun c => (s.storeChunks m cs bs).bytes c.pa c.n) = bs := by
  induction cs with
  | nil =>
    intro bs s _ _ hn
    exact (List.length_eq_zero_iff.1 hn.symm).symm
  | cons c cs ih =>
    intro bs s h hp hn
    obtain ⟨hc, hcs⟩ := List.pairwise_cons.1 hp
    rw [List.map_cons, List.sum_cons] at hn
    have hlen : (bs.take c.n).length = c.n := by rw [List.length_take]; omega
    have hhead : (s.storeChunks m (c :: cs) bs).bytes c.pa c.n = bs.take c.n := by
      apply List.ext_getElem
      · rw [hlen]; simp [State.bytes]
      · intro i hi hi'
        have hin : i < c.n := by simpa [State.bytes] using hi
        have hb : (s.storeChunk m c (bs.take c.n)).byte (c.pa + i) = (bs.take c.n).getD i 0 := by
          rw [byte_storeChunk h, if_pos ⟨by omega, by omega⟩, Nat.add_sub_cancel_left]
        simp only [State.bytes, List.getElem_map, List.getElem_range]
        rw [State.storeChunks, byte_storeChunks_outside m cs _ (h.storeChunk m c _) (outside_of_apart hc hin), hb,
          List.getD_eq_getElem _ _ hi']
    rw [List.flatMap_cons, hhead, State.storeChunks, ih _ (h.storeChunk m c _) hcs (by rw [List.length_drop]; omega),
      List.take_append_drop]

theorem Plain.storeAt {s : State} (h : Plain s) (m : RecMeta) (acc : Acc) (bs : List Byte) : Plain (s.storeAt m acc bs) :=
  Plain.storeChunks m _ _ (h.of_contexts (contexts_keep _ s))

theorem byte_keep (fills : List TlbEntry) (s : State) (a : Nat) : (s.keep fills).byte a = s.byte a :=
  byte_congr (keep_mem fills s) (congrArg Contexts.pkg (contexts_keep fills s)) a

theorem byte_storeAt_outside {s : State} (h : Plain s) (m : RecMeta) {acc : Acc} (bs : List Byte) {a : Nat}
    (ho : Outside acc.chunks a) : (s.storeAt m acc bs).byte a = s.byte a :=
  (byte_storeChunks_outside m _ bs (h.of_contexts (contexts_keep _ s)) ho).trans (byte_keep _ s a)

theorem bytesAt_storeAt {s : State} (h : Plain s) (m : RecMeta) {acc : Acc} {bs : List Byte}
    (hp : acc.chunks.Pairwise Apart) (hn : (acc.chunks.map Chunk.n).sum = bs.length) :
    (s.storeAt m acc bs).bytesAt acc = bs :=
  bytes_storeChunks m _ bs (h.of_contexts (contexts_keep _ s)) hp hn

/-- Where no frame moves, a store is made at the addresses of its parts. -/
theorem extents_plain {s : State} (h : Plain s) (acc : Acc) : s.extents acc = acc.chunks.map fun c => (c.pa, c.n) := by
  have hs (c : Chunk) : s.spans c = [(c.pa, c.n)] := by
    rw [State.spans, h.migFwd, State.forward_of_not_fwd h.migFwd h.fwds]
    rfl
  rw [State.extents, List.flatMap_congr fun c _ => hs c, List.map_eq_flatMap]

/-! ## The parts of a checked access -/

theorem blocks_zero (fuel : Nat) (va : Word) : blocks fuel va 0 = [] := by
  cases fuel <;> rfl

theorem sum_blocks (fuel : Nat) : ∀ (va : Word) (n : Nat), va.toNat % 4096 + n ≤ fuel * 4096 →
    ((blocks fuel va n).map Prod.snd).sum = n := by
  induction fuel with
  | zero =>
    intro va n h
    rw [show n = 0 by omega]
    rfl
  | succ fuel ih =>
    intro va n h
    by_cases h0 : n = 0
    · rw [h0, blocks_zero]; rfl
    rw [blocks, if_neg h0]
    dsimp only
    rw [List.map_cons, List.sum_cons]
    rcases Nat.le_total n (4096 - va.toNat % 4096) with hn | hn
    · rw [Nat.min_eq_left hn, Nat.sub_self, blocks_zero]; rfl
    · have hva : (va + BitVec.ofNat 64 (4096 - va.toNat % 4096)).toNat % 4096 = 0 := by
        rw [BitVec.toNat_add, BitVec.toNat_ofNat]
        omega
      rw [Nat.min_eq_right hn, ih _ _ (by rw [hva]; omega)]
      omega

theorem resolve_lengths {s : State} {a : Agent} (l : List (Word × Nat)) : ∀ {ps}, s.resolve a l = some ps →
    ps.map (fun p => p.2.1) = l.map Prod.snd := by
  induction l with
  | nil => rintro ps ⟨⟩; rfl
  | cons p l ih =>
    intro ps h
    rw [State.resolve] at h
    split at h
    · next m c r _ hr => cases h; rw [List.map_cons, List.map_cons, ih hr]
    · cases h

theorem translate_lengths {s : State} {a : Agent} (l : List (Word × Nat × Word × Nat)) : ∀ {cs}, s.translate a l = .ok cs →
    cs.map (fun c => c.1.n) = l.map fun p => p.2.1 := by
  induction l with
  | nil => rintro cs ⟨⟩; rfl
  | cons p l ih =>
    intro cs h
    rw [State.translate] at h
    split at h
    · cases h
    · cases h
    · split at h
      · cases h
      · next r hr => cases h; rw [List.map_cons, List.map_cons, ih hr]
    · split at h
      · cases h
      · next r hr => cases h; rw [List.map_cons, List.map_cons, ih hr]

/-- A check that passes has passed each test that would have failed it. -/
theorem ok_of_ite_error {p : Prop} [Decidable p] {e : Trap} {x : Except Trap Acc} {y : Acc}
    (h : (if p then .error e else x) = .ok y) : x = .ok y := by
  split at h
  · cases h
  · exact h

/-- The parts of a checked access are those that its address resolves and translates to. -/
theorem check_parts {s : State} {a : Agent} {q : Req} {acc : Acc} (h : s.check a q = .ok acc) (h0 : q.n ≠ 0) :
    ∃ ps cs, s.resolve a (blocks (q.n / 4096 + 2) q.va q.n) = some ps ∧ s.translate a ps = .ok cs ∧
      acc.chunks = cs.map (·.1) := by
  rw [State.check, if_neg h0] at h
  replace h := ok_of_ite_error (ok_of_ite_error h)
  cases hps : s.resolve a (blocks (q.n / 4096 + 2) q.va q.n) with
  | none => rw [hps] at h; cases h
  | some ps =>
    rw [hps] at h
    replace h := ok_of_ite_error h
    cases hcs : s.translate a ps with
    | error e => rw [hcs] at h; cases h
    | ok cs =>
      rw [hcs] at h
      replace h := ok_of_ite_error (ok_of_ite_error (ok_of_ite_error (ok_of_ite_error h)))
      exact ⟨ps, cs, rfl, hcs, (congrArg Acc.chunks (Except.ok.inj h)).symm⟩

/-- The parts of a checked access have its length. -/
theorem check_lengths {s : State} {a : Agent} {q : Req} {acc : Acc} (h : s.check a q = .ok acc) :
    (acc.chunks.map Chunk.n).sum = q.n := by
  by_cases h0 : q.n = 0
  · rw [State.check, if_pos h0] at h
    cases h
    exact h0.symm
  · obtain ⟨ps, cs, hps, hcs, hacc⟩ := check_parts h h0
    calc (acc.chunks.map Chunk.n).sum = (cs.map fun c => c.1.n).sum := by rw [hacc, List.map_map]; rfl
      _ = ((blocks (q.n / 4096 + 2) q.va q.n).map Prod.snd).sum := by
        rw [translate_lengths ps hcs, resolve_lengths _ hps]
      _ = q.n := sum_blocks _ _ _ (by omega)

end Sys2Proof.Proofs
end

section
/-! PROOFS. Vector stores, element by element up to the first check that fails (R39, R203 to R205, R423, R426, R436). -/

namespace Sys2Proof.Proofs

open Sys2Proof.Machine Sys2Proof.Safety

/-! ## Stores one after the other -/

theorem storesOf_data {m : RecMeta} (l : List (Word × List Byte)) : ∀ {s t : State} {ps : List (Acc × List Byte)},
    StoresOf m l s ps t → ps.map (fun p => p.2) = l.map fun p => p.2 := by
  induction l with
  | nil => rintro s t ps ⟨rfl, -⟩; rfl
  | cons p l ih =>
    rintro s t ps ⟨acc, ws, -, -, hrest, rfl⟩
    rw [List.map_cons, List.map_cons, ih hrest]

theorem stored_storesOf {m : RecMeta} (l : List (Word × List Byte)) : ∀ {s t : State} {ps : List (Acc × List Byte)},
    StoresOf m l s ps t → Stored s t := by
  induction l with
  | nil => rintro s t ps ⟨-, rfl⟩; exact Stored.refl _
  | cons p l ih =>
    rintro s t ps ⟨acc, ws, -, -, hrest, -⟩
    exact (stored_storeAt m acc p.2 s).trans (ih hrest)

/-- The parts of all accesses of a list. -/
def partsOf (ps : List (Acc × List Byte)) : List Chunk := ps.flatMap fun p => p.1.chunks

theorem plain_storesOf {m : RecMeta} (l : List (Word × List Byte)) : ∀ {s t : State} {ps : List (Acc × List Byte)},
    Plain s → StoresOf m l s ps t → Plain t := by
  induction l with
  | nil => rintro s t ps h ⟨-, rfl⟩; exact h
  | cons p l ih =>
    rintro s t ps h ⟨acc, ws, -, -, hrest, -⟩
    exact ih (h.storeAt m acc p.2) hrest

/-- Stores that nothing logs leave every byte outside their parts. -/
theorem byte_storesOf_outside {m : RecMeta} {a : Nat} (l : List (Word × List Byte)) :
    ∀ {s t : State} {ps : List (Acc × List Byte)}, Plain s → StoresOf m l s ps t → Outside (partsOf ps) a →
      t.byte a = s.byte a := by
  induction l with
  | nil => rintro s t ps - ⟨-, rfl⟩ -; rfl
  | cons p l ih =>
    rintro s t ps h ⟨acc, ws, -, -, hrest, rfl⟩ ho
    obtain ⟨hacc, hws⟩ := List.forall_mem_append.1 (show Outside (acc.chunks ++ partsOf ws) a from ho)
    exact (ih (h.storeAt m acc p.2) hrest hws).trans (byte_storeAt_outside h m p.2 hacc)

/-- Stores that nothing logs and whose parts do not overlap read back. -/
theorem bytesAt_storesOf {m : RecMeta} (l : List (Word × List Byte)) :
    ∀ {s t : State} {ps : List (Acc × List Byte)}, Plain s → StoresOf m l s ps t → (partsOf ps).Pairwise Apart →
      ∀ p ∈ ps, t.bytesAt p.1 = p.2 := by
  induction l with
  | nil => rintro s t ps - ⟨rfl, -⟩ - p hp; cases hp
  | cons p l ih =>
    rintro s t ps h ⟨acc, ws, hacc, -, hrest, rfl⟩ hp
    obtain ⟨hpacc, hpws, hcross⟩ := List.pairwise_append.1 (show (acc.chunks ++ partsOf ws).Pairwise Apart from hp)
    refine List.forall_mem_cons.2 ⟨?_, ih (h.storeAt m acc p.2) hrest hpws⟩
    have hkeep : t.bytesAt acc = (s.storeAt m acc p.2).bytesAt acc :=
      List.flatMap_congr fun c hc => bytes_congr fun i hi =>
        byte_storesOf_outside l (h.storeAt m acc p.2) hrest (outside_of_apart (hcross c hc) hi)
    exact hkeep.trans (bytesAt_storeAt h m hpacc (check_lengths hacc))

/-! ## Poison that a store clears (R436) -/

/-- What a list of writes covers depends on the writes alone. -/
theorem coveredLine_congr {ws ws' : List (Nat × Nat)} (h : ∀ w, w ∈ ws ↔ w ∈ ws') : State.coveredLine ws = State.coveredLine ws' := by
  funext line
  have hany (f : Nat × Nat → Bool) : ws.any f = ws'.any f := by
    rw [Bool.eq_iff_iff, List.any_eq_true, List.any_eq_true]
    simp only [h]
  exact congrArg (List.all (List.range 128)) (funext fun i => hany _)

theorem cover_congr {ws ws' : List (Nat × Nat)} (h : ∀ w, w ∈ ws ↔ w ∈ ws') (s : State) : s.cover ws = s.cover ws' := by
  rw [State.cover, State.cover, coveredLine_congr h]

theorem cover_mem (ws : List (Nat × Nat)) (s : State) : (s.cover ws).mem = s.mem := by
  unfold State.cover
  split <;> rfl

theorem cover_hart (ws : List (Nat × Nat)) (s : State) : (s.cover ws).hart = s.hart :=
  congrArg Contexts.hart (contexts_cover ws s)

theorem extents_congr {s t : State} (h : t.pkg = s.pkg) (acc : Acc) : t.extents acc = s.extents acc := by
  refine List.flatMap_congr fun c _ => ?_
  rw [State.spans, State.spans, h]
  simp only [State.forward_congr h]

/-- Ranges found while an instruction runs are those of the state before it. -/
theorem cover_issued {s : State} {ps : List (Acc × List Byte)} {ws : List (Nat × Nat)}
    (h : ∀ w, w ∈ ws ↔ w ∈ [] ∨ w ∈ ps.flatMap fun p => s.issued.extents p.1) (t : State) :
    t.cover ws = t.cover (ps.flatMap fun p => s.extents p.1) := by
  refine cover_congr (fun w => ?_) t
  rw [h, List.flatMap_congr fun p _ => extents_congr (s := s) (t := s.issued) rfl p.1]
  simp

/-! ## The stores of a list of elements -/

section
variable {o : VMOps} {env : Env} {data : Nat → Elem} {ea : Nat → Word} {act : Nat → Bool} {e : Nat}

theorem storeElems_inactive (he : act e = false) (l : List Nat) (ws : List (Nat × Nat)) (s : State) :
    storeElems o env data ea act (e :: l) ws s = storeElems o env data ea act l ws s := by
  rw [storeElems, if_neg (Bool.eq_false_iff.1 he)]

theorem storeElems_ok {acc : Acc} {s : State} (he : act e = true)
    (hc : s.check s.agent ⟨ea e, fmtBytes o.fmt, .store, true, true⟩ = .ok acc)
    (hf : s.logFull (State.recordAddrs acc) = none) (l : List Nat) (ws : List (Nat × Nat)) :
    storeElems o env data ea act (e :: l) ws s = storeElems o env data ea act l (s.extents acc ++ ws)
      (s.storeAt (recV env 0) acc (leBytes (fmtBytes o.fmt) (data e).toNat)) := by
  rw [storeElems, if_pos he]
  dsimp only
  rw [hc]
  dsimp only
  rw [hf]

/-- The check of a store fails with a trap, or its records do not fit. -/
def StoreFails (s : State) (a : Word) (n : Nat) (trap : Trap) : Prop :=
  s.check s.agent ⟨a, n, .store, true, true⟩ = .error trap ∧ trap.cause ≠ .held ∨
    ∃ acc x, s.check s.agent ⟨a, n, .store, true, true⟩ = .ok acc ∧ s.logFull (State.recordAddrs acc) = some x ∧
      trap = ⟨.liningFull, x⟩

theorem StoreFails.not_held {s : State} {a : Word} {n : Nat} {trap : Trap} (h : StoreFails s a n trap) :
    trap.cause ≠ .held := by
  rcases h with ⟨-, h⟩ | ⟨acc, x, -, -, rfl⟩
  · exact h
  · exact Cause.noConfusion

theorem storeElems_fails {trap : Trap} {s : State} (he : act e = true) (h : StoreFails s (ea e) (fmtBytes o.fmt) trap)
    (l : List Nat) (ws : List (Nat × Nat)) : storeElems o env data ea act (e :: l) ws s = (s, ws, some (trap, e)) := by
  rw [storeElems, if_pos he]
  dsimp only
  rcases h with ⟨hc, -⟩ | ⟨acc, x, hc, hx, rfl⟩
  · rw [hc]
  · rw [hc]
    dsimp only
    rw [hx]

/-- Elements that all pass their checks are stored, and what follows them goes on from there, with their ranges. -/
theorem storeElems_append (l l' : List Nat) : ∀ {s t : State} {ps : List (Acc × List Byte)} (ws : List (Nat × Nat)),
    StoresOf (recV env 0) ((l.filter act).map fun e => (ea e, leBytes (fmtBytes o.fmt) (data e).toNat)) s ps t →
    ∃ ws', storeElems o env data ea act (l ++ l') ws s = storeElems o env data ea act l' ws' t ∧
      ∀ w, w ∈ ws' ↔ w ∈ ws ∨ w ∈ ps.flatMap fun p => s.extents p.1 := by
  induction l with
  | nil =>
    rintro s t ps ws ⟨rfl, rfl⟩
    exact ⟨ws, rfl, fun w => by simp⟩
  | cons e l ih =>
    intro s t ps ws hs
    cases he : act e with
    | false =>
      rw [List.filter_cons_of_neg (by simp [he])] at hs
      obtain ⟨ws', hw, hmem⟩ := ih ws hs
      exact ⟨ws', (storeElems_inactive he _ ws s).trans hw, hmem⟩
    | true =>
      rw [List.filter_cons_of_pos he] at hs
      obtain ⟨acc, ps', hc, hf, hrest, rfl⟩ := hs
      rw [leBytes_length] at hc
      obtain ⟨ws', hw, hmem⟩ := ih (s.extents acc ++ ws) hrest
      refine ⟨ws', (storeElems_ok he hc hf _ ws).trans hw, fun w => ?_⟩
      have hpkg : (s.storeAt (recV env 0) acc (leBytes (fmtBytes o.fmt) (data e).toNat)).pkg = s.pkg :=
        congrArg Contexts.pkg (stored_storeAt _ acc _ s).1
      rw [hmem, List.flatMap_cons, List.mem_append, List.mem_append, List.flatMap_congr fun p _ => extents_congr hpkg p.1]
      tauto

end

/-! ## Vector stores -/

/-- The bytes that element e of a vector store writes. -/
def storeData (o : VMOps) (s : State) (e : Nat) : List Byte :=
  leBytes (fmtBytes o.fmt) (swz o.dswz (s.hart.rv o.d.toNat e)).toNat

/-- The elements of l, and no other, have been stored in u by the accesses of ps. -/
def HoldsStored (o : VMOps) (s : State) (l : List Nat) (ps : List (Acc × List Byte)) (u : State) : Prop :=
  u.hart.v = s.hart.v ∧ u.hart.s = s.hart.s ∧ u.hart.m = s.hart.m ∧ ps.map (fun p => p.2) = l.map (storeData o s) ∧
    (s.logged = false → s.pkg.migFwd = false → s.pkg.fwds = [] →
      (∀ a, (∀ w ∈ ps.flatMap (fun p => s.extents p.1), a < w.1 ∨ w.1 + w.2 ≤ a) → u.byte a = s.byte a) ∧
      ((ps.flatMap fun p => p.1.chunks).Pairwise (fun c d => c.pa + c.n ≤ d.pa ∨ d.pa + d.n ≤ c.pa) →
        ∀ p ∈ ps, u.bytesAt p.1 = p.2))

/-- An address outside the ranges of accesses lies in none of their parts. -/
theorem outside_of_extents {s : State} (h : Plain s) {ps : List (Acc × List Byte)} {a : Nat}
    (ho : ∀ w ∈ ps.flatMap (fun p => s.extents p.1), a < w.1 ∨ w.1 + w.2 ≤ a) : Outside (partsOf ps) a := by
  intro c hc
  obtain ⟨p, hp, hcp⟩ := List.mem_flatMap.1 hc
  refine ho (c.pa, c.n) (List.mem_flatMap.2 ⟨p, hp, ?_⟩)
  rw [extents_plain h]
  exact List.mem_map_of_mem hcp

/-- What stores of elements leave in a state that differs from theirs in poison and in the focused hart alone. -/
theorem holdsStored {o : VMOps} {s t u : State} {m : RecMeta} {EA : Nat → Word} {l : List Nat} {ps : List (Acc × List Byte)}
    (hs : StoresOf m (l.map fun e => (EA e, storeData o s e)) s.issued ps t)
    (hm : u.mem = t.mem) (hp : u.pkg = t.pkg) (hv : u.hart.v = t.hart.v) (hreg : u.hart.s = t.hart.s)
    (hmask : u.hart.m = t.hart.m) : HoldsStored o s l ps u := by
  have ht := stored_storesOf _ hs
  have kept {γ : Type} (g : Hart → γ) (hg : ∀ h, g (unlined h) = g h) (hi : g s.issued.hart = g s.hart) :
      g t.hart = g s.hart := (eq_of_unlined g hg ht.hart).trans hi
  refine ⟨hv.trans (kept Hart.v (fun _ => rfl) rfl), hreg.trans (kept Hart.s (fun _ => rfl) rfl),
    hmask.trans (kept Hart.m (fun _ => rfl) rfl), ?_, fun hlog hmig hfwd => ?_⟩
  · rw [storesOf_data _ hs, List.map_map]
    rfl
  · have h : Plain s := ⟨hlog, hmig, hfwd⟩
    have h' : Plain s.issued := ⟨hlog, hmig, hfwd⟩
    have outside (a : Nat) (ho : Outside (partsOf ps) a) : t.byte a = s.byte a :=
      (byte_storesOf_outside _ h' hs ho).trans (byte_congr rfl rfl a)
    have hb (a : Nat) : u.byte a = t.byte a := byte_congr hm hp a
    refine ⟨fun a ho => (hb a).trans (outside a (outside_of_extents h ho)), fun hpair p hmem => ?_⟩
    have hat : u.bytesAt p.1 = t.bytesAt p.1 := List.flatMap_congr fun c _ => bytes_congr fun i _ => hb _
    exact hat.trans (bytesAt_storesOf _ h' hs hpair p hmem)

theorem storeVector_done {o : VMOps} {EA : Hart → Nat → Word} {v : Env} {s t : State} {ws : List (Nat × Nat)}
    (hv : v.grp = none)
    (h : storeElems o v (fun e => swz o.dswz (s.hart.rv o.d.toNat e)) (EA s.hart) (active s.hart o.msk o.mn 1)
      (List.range' s.hart.vstart.toNat (v.n - s.hart.vstart.toNat)) [] s = (t, ws, none)) :
    storeVector o EA v s = .done ((t.cover ws).onH fun h => { h with vstart := 0 }) := by
  rw [storeVector, elements_eq_range' hv, h]

theorem storeVector_trap {o : VMOps} {EA : Hart → Nat → Word} {v : Env} {s t : State} {ws : List (Nat × Nat)} {x : Trap}
    {e : Nat} (hv : v.grp = none)
    (h : storeElems o v (fun e => swz o.dswz (s.hart.rv o.d.toNat e)) (EA s.hart) (active s.hart o.msk o.mn 1)
      (List.range' s.hart.vstart.toNat (v.n - s.hart.vstart.toNat)) [] s = (t, ws, some (x, e))) :
    storeVector o EA v s = .trap x (t.cover ws) e := by
  rw [storeVector, elements_eq_range' hv, h]

section
variable {i : Instr} {c : Ctl} {o : VMOps} {s : State} {run : Env → State → VRes} {EA : Hart → Nat → Word}

/-- A vector store whose active elements all pass their checks and whose records fit. -/
theorem vectorStore_done (hi : Issues c s) (hx : exec i s = issueV i c run s)
    (hrun : run (s.envOf i) s.issued = storeVector o EA (s.envOf i) s.issued) {ps : List (Acc × List Byte)} {t : State}
    (hs : StoresOf (recordOf 0 s) ((activeElements o s).map fun e => (EA s.issued.hart e, storeData o s e)) s.issued ps t) :
    let u : State := { t.cover (ps.flatMap fun p => s.extents p.1) with hart := { t.hart with vstart := 0 } }
    exec i s = .next u ∧ HoldsStored o s (activeElements o s) ps u := by
  refine ⟨?_, holdsStored hs (cover_mem _ t) (congrArg Contexts.pkg (contexts_cover _ t)) rfl rfl rfl⟩
  rw [activeElements_range'] at hs
  obtain ⟨ws, hws, hmem⟩ := storeElems_append (env := s.envOf i) _ [] [] hs
  rw [List.append_nil] at hws
  rw [hx, issueV_done hi (hrun.trans (storeVector_done rfl hws)), cover_issued hmem t, State.onH, cover_hart]

/-- A vector store up to the first check that fails, or to the first record without room. -/
theorem vectorStore_trap (hi : Issues c s) (hx : exec i s = issueV i c run s) (hf : fences i = false)
    (hrun : run (s.envOf i) s.issued = storeVector o EA (s.envOf i) s.issued) {below above : List Nat} {e : Nat}
    {ps : List (Acc × List Byte)} {t : State} {trap : Trap} (hes : activeElements o s = below ++ e :: above)
    (hs : StoresOf (recordOf 0 s) (below.map fun e => (EA s.issued.hart e, storeData o s e)) s.issued ps t)
    (ht : StoreFails t (EA s.issued.hart e) (fmtBytes o.fmt) trap) :
    let u : State := { t.cover (ps.flatMap fun p => s.extents p.1) with hart := { t.hart with
      vcq := [⟨s.hart.pc, i, s.envOf i, some (trap, e), false⟩] } }
    exec i s = .next u ∧ HoldsStored o s below ps u := by
  refine ⟨?_, holdsStored hs (cover_mem _ t) (congrArg Contexts.pkg (contexts_cover _ t)) rfl rfl rfl⟩
  have hq : t.hart.vcq = [] :=
    (eq_of_unlined Hart.vcq (fun _ => rfl) (stored_storesOf _ hs).hart).trans (vcq_of_issues hi)
  obtain ⟨post, hsplit, hbelow, he⟩ := split_range' ((activeElements_range' o s).symm.trans hes)
  rw [← hbelow] at hs
  obtain ⟨ws, hws, hmem⟩ := storeElems_append (env := s.envOf i) _ (e :: post) [] hs
  rw [← hsplit, storeElems_fails he ht] at hws
  rw [hx, issueV_trap hi (hrun.trans (storeVector_trap rfl hws)) ht.not_held, cover_issued hmem t,
    enqueue_head _ hf ((congrArg Hart.vcq (cover_hart _ t)).trans hq), cover_hart]

end

/-- Settles O36, each form by its element addresses. -/
theorem vectorStores : Obligations.VectorStores := by
  intro c o s hi
  refine ⟨⟨fun ps t hs => ?_, fun below e above ps t trap hes hs ht => ?_⟩,
    ⟨fun ps t hs => ?_, fun below e above ps t trap hes hs ht => ?_⟩, fun k m hb => ?_⟩
  · exact vectorStore_done (i := .vst c o) (run := runVst o) (EA := fun _ => eaUnit o (s.envOf (.vst c o))) hi rfl rfl hs
  · exact vectorStore_trap (i := .vst c o) (run := runVst o) hi rfl rfl rfl hes hs ht
  · exact vectorStore_done (i := .vsts c o) (run := runVsts o) hi rfl rfl hs
  · exact vectorStore_trap (i := .vsts c o) (run := runVsts o) hi rfl rfl rfl hes hs ht
  · have hea := funext fun e => eaIndex_eq o (.vstx c o) s e hb
    refine ⟨fun ps t hs => ?_, fun below e above ps t trap hes hs ht => ?_⟩
    · exact vectorStore_done (i := .vstx c o) (run := runVstx o) hi rfl rfl (hea ▸ hs)
    · exact vectorStore_trap (i := .vstx c o) (run := runVstx o) hi rfl rfl rfl hes (hea ▸ hs) (hea ▸ ht)

end Sys2Proof.Proofs
end

section
/-! PROOFS. Exact scalar arithmetic, division and remainder (R43, R44, R74, R76). -/

namespace Sys2Proof.Proofs

open Sys2Proof.Machine Sys2Proof.Safety

/-- Settles O4: `scalarResult_of` for the exact function of each form. -/
theorem scalarArithmetic : Obligations.ScalarArithmetic := by
  intro c o simm
  refine ⟨?add, ?sub, ?addi, ?mul, ?mulh, ?min, ?max⟩
  all_goals exact scalarResult_of _ c o _ fun _ => rfl

/-! ## The quotient of R44 -/

/-- The quotient by zero has every bit set. -/
theorem wrapNat_quotient_zero (f : Fmt) :
    wrapNat f.width (if f.signed then -1 else fmtHi f) = 2 ^ f.width - 1 := by
  cases f <;> decide

theorem quotient_zero (f : Fmt) (sat : Bool) (a : Int) :
    quotient f sat a 0 = (if f.signed then -1 else fmtHi f, 0) := if_pos rfl

theorem quotient_nonzero (f : Fmt) (sat : Bool) (a : Int) {b : Int} (hb : b ≠ 0) :
    quotient f sat a b = fitTo f sat (Int.tdiv a b) := if_neg hb

/-- Settles O6: rem is a case of `scalarResult_of`, and div delivers the quotient of R44. -/
theorem scalarDivision : Obligations.ScalarDivision := by
  intro c o _
  refine ⟨scalarResult_of _ c o _ fun _ => rfl, fun s x y h hg hs hr => ?_⟩
  let a := opnd o.fmt o.sat o.a.mods x
  let b := opnd o.fmt o.sat o.b.mods y
  let q := quotient o.fmt o.sat a.1 b.1
  obtain ⟨h', hp⟩ := putS_room (room_flag hr (a.2 ||| b.2 ||| q.2)) (ext o.fmt q.1)
  refine ⟨q.1, q.2, h', hp, (guarded_on _ hg).trans ?_, fun hb => ?_, fun hb => ?_⟩
  · exact congrArg _ (alu_completes (.div c o) _ hs hp)
  · have hq : q = _ := (congrArg (quotient o.fmt o.sat a.1) hb).trans (quotient_zero _ _ _)
    rw [hq]
    exact ⟨rfl, wrapNat_quotient_zero _⟩
  · have hq : q = _ := quotient_nonzero _ _ _ hb
    rw [hq]
    exact fitTo_spec _ _ _

end Sys2Proof.Proofs
end

section
/-! PROOFS. The elementwise vector instructions, integer and floating-point (R43, R53, R105 to R122). -/

namespace Sys2Proof.Proofs

open Sys2Proof.Machine Sys2Proof.Safety

/-! ## The moulds -/

section
variable {i : Instr} {c : Ctl} {o : VOps} (hf : o.fmt.vector = true)
include hf

/-- An instruction whose run is the mould with G, in any other form F of G. -/
theorem elementwise_mould {run : Env → State → VRes} {G : Hart → VSrc → VSrc → VSrc → Nat → Nat × Flags}
    {F : Hart → VSrc → VSrc → List (Nat × Elem) → Nat → Nat × Flags} (h : ∀ s, exec i s = issueV i c run s)
    (hr : ∀ v s, run v s = mould o o.fmt G v s) (hF : ∀ h x y d e, G h x y (.vec d) e = F h x y d e) :
    Elementwise i c o o.fmt F := by
  obtain rfl : run = fun v s => mould o o.fmt G v s := funext fun v => funext (hr v)
  obtain rfl : (fun h x y d e => G h x y (.vec d) e) = F := by funext h x y d e; exact hF h x y d e
  exact elementwise_of i c o o.fmt (width_le o.fmt hf) G h

/-- The mould of an exact integer operation (R111). -/
theorem elementwise_intMould {f : Int → Int → Int → Int} (h : ∀ s, exec i s = issueV i c (intMould o f) s) :
    Elementwise i c o o.fmt (intF o f) := elementwise_mould hf h (fun _ _ => rfl) fun _ _ _ _ _ => rfl

/-- The mould of an operation on patterns (R111). -/
theorem elementwise_bitMould {f : Nat → Nat → Nat} (h : ∀ s, exec i s = issueV i c (bitMould o f) s) :
    Elementwise i c o o.fmt (patF f o) := elementwise_mould hf h (fun _ _ => rfl) fun _ _ _ _ _ => rfl

/-- The mould of a shift (R112). -/
theorem elementwise_shiftMould {f : Int → Nat → Int} (h : ∀ s, exec i s = issueV i c (shiftMould o f) s) :
    Elementwise i c o o.fmt (shiftF o f) := elementwise_mould hf h (fun _ _ => rfl) fun _ _ _ _ _ => rfl

/-- The mould of a count over each element (R116). -/
theorem elementwise_countMould {f : Nat → Nat → Nat} (h : ∀ s, exec i s = issueV i c (countMould o f) s) :
    Elementwise i c o o.fmt (patF (fun a _ => f o.fmt.width a) { o with b := o.a }) :=
  elementwise_mould hf h (fun _ _ => rfl) fun _ _ _ _ _ => rfl

/-- The mould of an operation with one rounding (R119). -/
theorem elementwise_fpMould {f : Bool → Fp → Fp → Fp → Fp × Flags} (h : ∀ s, exec i s = issueV i c (fpMould o f) s) :
    Elementwise i c o o.fmt (fpF o f) := elementwise_mould hf h (fun _ _ => rfl) fun _ _ _ _ _ => rfl

/-- The mould of an estimate (R122). -/
theorem elementwise_estMould {f : Fp → Fp × Flags} (h : ∀ s, exec i s = issueV i c (estMould o f) s) :
    Elementwise i c o o.fmt (estF o f) := elementwise_mould hf h (fun _ _ => rfl) fun _ _ _ _ _ => rfl

end

/-! ## Integers -/

/-- The sum that vdot4 folds over the four positions of an element, written out (R117). -/
theorem foldl_products (p q : Nat → Int × Flags) :
    (List.range 4).foldl (fun (acc : Int × Flags) k => (acc.1 + (p k).1 * (q k).1, acc.2 ||| (p k).2 ||| (q k).2)) (0, 0) =
      ((p 0).1 * (q 0).1 + (p 1).1 * (q 1).1 + (p 2).1 * (q 2).1 + (p 3).1 * (q 3).1,
        (p 0).2 ||| (q 0).2 ||| (p 1).2 ||| (q 1).2 ||| (p 2).2 ||| (q 2).2 ||| (p 3).2 ||| (q 3).2) := by
  simp [List.range_succ]

/-- Element e of vdot4: the products p and q of its positions, added to its old value d. -/
def dot4 (sat : Bool) (p q : Nat → Int × Flags) (d : Int) : Nat × Flags :=
  let t := (List.range 4).foldl (fun (acc : Int × Flags) k =>
    (acc.1 + (p k).1 * (q k).1, acc.2 ||| (p k).2 ||| (q k).2)) (0, 0)
  (wrapNat 32 (fitTo .i32 sat (t.1 + d)).1, t.2 ||| (fitTo .i32 sat (t.1 + d)).2)

theorem dot4_eq (sat : Bool) (a b : Nat → Int × Flags) (d : Int) : dot4 sat a b d =
    let r := fitTo .i32 sat ((a 0).1 * (b 0).1 + (a 1).1 * (b 1).1 + (a 2).1 * (b 2).1 + (a 3).1 * (b 3).1 + d)
    (wrapNat 32 r.1, (a 0).2 ||| (b 0).2 ||| (a 1).2 ||| (b 1).2 ||| (a 2).2 ||| (b 2).2 ||| (a 3).2 ||| (b 3).2 ||| r.2) := by
  simp only [dot4, foldl_products]

theorem elementwise_vdot4 (c : Ctl) (o : VOps) : Elementwise (.vdot4 c o) c o .i32 fun _ x y d e =>
    dot4 o.sat (fun k => intElem .i8x4 o.sat o.a.mods false x (4 * e + k))
      (fun k => intElem .i8x4 o.sat o.b.mods false y (4 * e + k)) (intElem .i32 false Mods.none false (.vec d) e).1 :=
  elementwise_of (.vdot4 c o) c o .i32 (by decide) _ fun _ => rfl

/-- Settles O29: each instruction is its mould with its function of the elements. -/
theorem vectorInteger : Obligations.VectorInteger := by
  intro c o hf
  have int {i f} (h : ∀ s, exec i s = issueV i c (intMould o f) s) := elementwise_intMould hf h
  have bits {i f} (h : ∀ s, exec i s = issueV i c (bitMould o f) s) := elementwise_bitMould hf h
  have shift {i f} (h : ∀ s, exec i s = issueV i c (shiftMould o f) s) := elementwise_shiftMould hf h
  have count {i f} (h : ∀ s, exec i s = issueV i c (countMould o f) s) := elementwise_countMould hf h
  have each {i run G F} (h : ∀ s, exec i s = issueV i c run s) := elementwise_mould (G := G) (F := F) hf h
  refine ⟨int fun _ => rfl, int fun _ => rfl, int fun _ => rfl, int fun _ => rfl, int fun _ => rfl, int fun _ => rfl,
    int fun _ => rfl, ?vabsd, int fun _ => rfl, bits fun _ => rfl, bits fun _ => rfl, bits fun _ => rfl, bits fun _ => rfl,
    shift fun _ => rfl, shift fun _ => rfl, shift fun _ => rfl, ?vsel, ?vmov, ?vbcast, ?vid, count fun _ => rfl,
    count fun _ => rfl, ?vdot4⟩
  case vabsd =>
    simp only [Int.abs_eq_natAbs]
    exact int fun _ => rfl
  case vsel =>
    exact elementwise_mould (o := { o with x := { o.x with msk := false } }) hf (fun _ => rfl) (fun _ _ => rfl)
      fun _ _ _ _ _ => rfl
  case vmov => exact each (fun _ => rfl) (fun _ _ => rfl) fun _ _ _ _ _ => rfl
  case vbcast => exact each (fun _ => rfl) (fun _ _ => rfl) fun _ _ _ _ _ => rfl
  case vid => exact each (fun _ => rfl) (fun _ _ => rfl) fun _ _ _ _ _ => rfl
  case vdot4 =>
    have h := elementwise_vdot4 c o
    simp only [dot4_eq] at h
    exact h

/-! ## Floating point -/

/-- Settles O30: each instruction is its mould with its function of the elements. -/
theorem vectorFloat : Obligations.VectorFloat := by
  intro c o hf
  have op {i f} (h : ∀ s, exec i s = issueV i c (fpMould o f) s) := elementwise_fpMould hf h
  have est {i f} (h : ∀ s, exec i s = issueV i c (estMould o f) s) := elementwise_estMould hf h
  have each {i run G F} (h : ∀ s, exec i s = issueV i c run s) := elementwise_mould (G := G) (F := F) hf h
  refine ⟨op fun _ => rfl, op fun _ => rfl, op fun _ => rfl, op fun _ => rfl, op fun _ => rfl, op fun _ => rfl,
    ?vfscl, ?vfrnd, ?vfmin, ?vfmax, est fun _ => rfl, est fun _ => rfl, est fun _ => rfl, est fun _ => rfl⟩
  case vfscl => exact each (fun _ => rfl) (fun _ _ => rfl) fun _ _ _ _ _ => rfl
  case vfrnd => exact each (fun _ => rfl) (fun _ _ => rfl) fun _ _ _ _ _ => rfl
  case vfmin => exact each (fun _ => rfl) (fun _ _ => rfl) fun _ _ _ _ _ => rfl
  case vfmax => exact each (fun _ => rfl) (fun _ _ => rfl) fun _ _ _ _ _ => rfl

end Sys2Proof.Proofs
end

section
/-! PROOFS. Reductions by the pairwise tree (R46, R65 to R67, R124 to R127). -/

namespace Sys2Proof.Proofs

open Sys2Proof.Machine Sys2Proof.Safety

/-- Sources that can be read are handed on, where the instruction is not a whole one stopped at an element (R105, R107). -/
theorem withV_of {whole : Bool} {a b : Operand} {v : Env} {s : State} {x y : VSrc} {h : Hart} (f : VSrc → VSrc → Hart → VRes)
    (hw : whole = true → s.hart.vstart = 0) (hs : VSources a b v s.hart x y h) : withV whole a b v f s = f x y h := by
  obtain ⟨h1, ha, hb⟩ := hs
  have hn : ¬ (whole && decide (s.hart.vstart ≠ 0)) = true := by
    rw [Bool.and_eq_true, decide_eq_true_eq]
    exact fun hc => hc.2 (hw hc.1)
  simp only [withV, ha, hb]
  exact if_neg hn

/-! ## Delivering the result (R124, R127) -/

theorem flag_none (h : Hart) : h.flag 0 = h := by
  have hz : h.fflags ||| 0 = h.fflags := BitVec.or_zero
  rw [Hart.flag_eq, hz]

/-- A destination with room receives the result of a reduction. -/
theorem reduceTo_done (s : State) {d : Operand} {f : Fmt} (hf : f.width ≤ 32) (r : Nat) (g : Flags) {h : Hart} (hr : Room d h) :
    ∃ t, reduceTo s.issued d f r (h.flag g) = .done t ∧ ReducedTo s d f r g h t := by
  cases d with
  | v k m => exact ⟨_, rfl, _, rfl, fun e => elemOf_setElem f hf 0 e r _⟩
  | _ =>
    obtain ⟨h', hp⟩ := putS_room (room_flag hr g) (if f.isFloat then BitVec.ofNat 64 r else ext f (fmtRead f r))
    exact ⟨ranQueued s h', by simp only [reduceTo, finishS, hp]; rfl, h', hp, rfl⟩

/-- Over no element a destination that is no queue keeps its value. -/
theorem reduceNone_kept (s : State) {d : Operand} (f : Fmt) (ident : Nat) (h : Hart) (hd : ∀ k, d ≠ .q k) :
    reduceNone s d f ident h = .done { s with hart := h } := by
  cases d with
  | q k => exact absurd rfl (hd k)
  | _ => rfl

/-! ## The mould of a reduction -/

/-- A whole instruction that delivers what R gives over the elements of the vector length, or the identity over none. -/
def reduceWith (o : VOps) (f : Fmt) (ident : RMode → Nat) (R : RMode → Hart → VSrc → VSrc → Nat → Nat × Flags) (v : Env)
    (s : State) : VRes :=
  withV true o.a o.b v (fun x y h =>
    let n := o.fmt.pack * v.n
    if n = 0 then reduceNone s o.d f (ident (modeV o h)) h
    else reduceTo s o.d f (R (modeV o h) h x y n).1 (h.flag (R (modeV o h) h x y n).2)) s

theorem reduces_of {i : Instr} {c : Ctl} {o : VOps} {f : Fmt} (hf : f.width ≤ 32) {ident : RMode → Nat}
    {R : RMode → Hart → VSrc → VSrc → Nat → Nat × Flags} {run : Env → State → VRes} (h : ∀ s, exec i s = issueV i c run s)
    (hrun : ∀ v s, run v s = reduceWith o f ident R v s) : Reduces i c o f ident R := by
  intro s x y h1 hi hv hs hr
  have heq : run (s.envOf i) s.issued = _ := (hrun _ _).trans (withV_of _ (fun _ => hv) hs)
  have ends {t : State} (ht : run (s.envOf i) s.issued = .done t) : exec i s = .next t := (h s).trans (issueV_done hi ht)
  refine ⟨fun hn => ?_, fun hn hd => ?_, fun hn k hk => ?_⟩
  · obtain ⟨t, ht, hred⟩ := reduceTo_done s hf (R (modeV o h1) h1 x y (o.fmt.pack * s.vlen)).1
      (R (modeV o h1) h1 x y (o.fmt.pack * s.vlen)).2 hr
    exact ⟨t, ends (heq.trans ((if_neg hn.ne').trans ht)), hred⟩
  · exact ends (heq.trans ((if_pos hn).trans (reduceNone_kept _ _ _ _ hd)))
  · obtain ⟨t, ht, hred⟩ := reduceTo_done s hf (ident (modeV o h1)) 0 hr
    rw [flag_none] at ht
    refine ⟨t, ends (heq.trans ((if_pos hn).trans ?_)), hred⟩
    rw [hk] at ht ⊢
    exact ht

/-- Settles O33: each instruction is the mould of `reduces_of` with its reduction. -/
theorem vectorReductions : Obligations.VectorReductions := by
  intro c o hf
  have hw := width_le o.fmt hf
  exact ⟨reduces_of hw (fun _ => rfl) fun _ _ => rfl, reduces_of hw (fun _ => rfl) fun _ _ => rfl,
    reduces_of (by decide) (fun _ => rfl) fun _ _ => rfl⟩

end Sys2Proof.Proofs
end

section
/-! PROOFS. Conversions, packing and unpacking (R56, R57, R128 to R131). -/

namespace Sys2Proof.Proofs

open Sys2Proof.Machine Sys2Proof.Safety

/-! ## Elements folded into a vector destination -/

/-- Taking the sources leaves vstart alone. -/
theorem vsources_vstart {a b : Operand} {v : Env} {h h' : Hart} {x y : VSrc} (hs : VSources a b v h x y h') :
    h'.vstart = h.vstart := by
  obtain ⟨h1, ha, hb⟩ := hs
  exact (takeV_keeps hb).1.trans (takeV_keeps ha).1

/-- A destination with room takes the elements of a list, which are those of P, each with its value and flags where it is active
(R110). -/
theorem finishV_fold {d : Operand} {h : Hart} (hr : VRoom d h) {f : Fmt} (hf : f.width ≤ 32) (s : State) (act : Nat → Bool)
    (mz : Bool) (F : Nat → Nat × Flags) {l : List Nat} (hl : l.Nodup) {P : Nat → Prop} [DecidablePred P]
    (hP : ∀ e, e ∈ l ↔ P e) :
    let r := l.foldl (mouldStep f act mz F) (oldV d h, 0)
    ∃ t g h', finishV s d r.1 (h.flag r.2) = .done { s with hart := h' } ∧
      putV d t { h.flag g with vstart := 0 } = .ok h' ∧
      (∀ e, elemOf f t e = if P e then masked (act e) mz ((F e).1 % 2 ^ f.width) (elemOf f (oldV d h) e)
        else elemOf f (oldV d h) e) ∧
      ∀ k, g.getLsbD k = true ↔ ∃ e, P e ∧ act e = true ∧ (F e).2.getLsbD k = true := by
  intro r
  have hr' : VRoom d { h.flag r.2 with vstart := 0 } := by cases d <;> exact hr
  obtain ⟨h', hp⟩ := putV_room hr' r.1
  obtain ⟨hE, hG⟩ := mould_fold f hf act mz F l (oldV d h, 0) hl
  refine ⟨r.1, r.2, h', by simp only [finishV, hp], hp, fun e => (hE e).trans ?_, fun k => (hG k).trans ?_⟩
  · simp only [hP]
  · simp [hP]

/-! ## The count of stochastic roundings (R56) -/

/-- The hart of an instruction that has completed, with the count of srseed. -/
def counted (o : VOps) (before h : Hart) : Hart := { h with ctr := h.ctr + (if stochastic o before then 1 else 0) }

theorem countSr_done (o : VOps) (before : Hart) (s : State) (h : Hart) :
    countSr o before (.done { s with hart := h }) = .done { s with hart := counted o before h } := by
  unfold countSr counted
  cases stochastic o before
  · have hz : h.ctr + 0 = h.ctr := BitVec.add_zero _
    simp only [Bool.false_eq_true, if_false, hz]
  · rfl

/-! ## Packing (R130) -/

/-- The positions of the containers that n packed elements touch. -/
theorem le_packed {p : Nat} (hp : 0 < p) (n : Nat) : n ≤ (n + p - 1) / p * p := by
  have hd := Nat.div_add_mod (n + p - 1) p
  have hm := Nat.mod_lt (n + p - 1) hp
  rw [Nat.mul_comm] at hd
  omega

/-- Where vpack writes: the active elements, and the rest of the last container. -/
def packActive (n : Nat) (act : Nat → Bool) (e : Nat) : Bool := decide (n ≤ e) || act e

/-- What vpack writes there: zero behind the last element. -/
def packElem (n : Nat) (F : Nat → Nat × Flags) (e : Nat) : Nat × Flags := if n ≤ e then (0, 0) else F e

section
variable {n e : Nat} (act : Nat → Bool) (F : Nat → Nat × Flags)

theorem packActive_of_lt (h : e < n) : packActive n act e = act e := by
  rw [packActive, decide_eq_false (Nat.not_le.2 h), Bool.false_or]

theorem packActive_of_le (h : n ≤ e) : packActive n act e = true := by
  rw [packActive, decide_eq_true h, Bool.true_or]

theorem packElem_of_lt (h : e < n) : packElem n F e = F e := if_neg (Nat.not_le.2 h)

theorem packElem_of_le (h : n ≤ e) : packElem n F e = (0, 0) := if_pos h

theorem mouldStep_pack (f : Fmt) (mz : Bool) : mouldStep f (packActive n act) mz (packElem n F) =
    fun acc e => if n ≤ e then (setElem f e 0 acc.1, acc.2) else mouldStep f act mz F acc e := by
  funext acc e
  rcases Nat.lt_or_ge e n with he | he
  · rw [if_neg (Nat.not_le.2 he), mouldStep, mouldStep, packActive_of_lt _ he, packElem_of_lt _ he]
  · have hz : acc.2 ||| 0 = acc.2 := BitVec.or_zero
    rw [if_pos he, mouldStep, packActive_of_le _ he, packElem_of_le _ he, if_pos rfl, hz]

end

/-! ## The instructions -/

section
variable {c : Ctl} {o : VOps} {s : State} {x y : VSrc} {h : Hart} (hf : o.fmt.vector = true) (hi : Issues c s)
  (hr : VRoom o.d h)
include hf hi hr

theorem vcvt_completes (hq : namesQueue [o.d, o.a, o.b] = true → s.hart.vstart = 0)
    (hs : VSources o.a o.b (s.envOf (.vcvt c o)) s.issued.hart x y h) :
    ∃ t g h', exec (.vcvt c o) s = .next (ranQueued s (counted o s.hart h')) ∧
      putV o.d t { h.flag g with vstart := 0 } = .ok h' ∧
      (∀ e, elemOf o.fmt t e = if s.hart.vstart.toNat ≤ e ∧ e < o.fmt.pack * s.vlen then
        masked (active h o.x.msk o.x.mn o.fmt.pack e) o.x.mz ((cvtElem true o h x e).1 % 2 ^ o.fmt.width)
          (elemOf o.fmt (oldV o.d h) e) else elemOf o.fmt (oldV o.d h) e) ∧
      ∀ k, g.getLsbD k = true ↔ ∃ e, s.hart.vstart.toNat ≤ e ∧ e < o.fmt.pack * s.vlen ∧
        active h o.x.msk o.x.mn o.fmt.pack e = true ∧ (cvtElem true o h x e).2.getLsbD k = true := by
  have hv : h.vstart = s.hart.vstart := (vsources_vstart hs :)
  have hmem := elements_all (s.envOf (.vcvt c o)) rfl o.fmt.pack h.vstart.toNat (o.fmt.pack * s.vlen)
  obtain ⟨t, g, h', hfin, hput, hE, hG⟩ := finishV_fold hr (width_le o.fmt hf) s.issued
    (active h o.x.msk o.x.mn o.fmt.pack) o.x.mz (cvtElem true o h x) (elements_nodup _ rfl _ _ _) hmem
  rw [hv] at hE hG
  refine ⟨t, g, h', issueV_done hi ?_, hput, hE, fun k => (hG k).trans (by simp only [and_assoc])⟩
  exact (congrArg (countSr o s.issued.hart) ((withV_of (s := s.issued) _ hq hs).trans hfin)).trans (countSr_done o _ _ _)

theorem vpack_completes (hv : s.hart.vstart = 0) (hs : VSources o.a o.b (s.envOf (.vpack c o)) s.issued.hart x y h) :
    ∃ t g h', exec (.vpack c o) s = .next (ranQueued s (counted o s.hart h')) ∧
      putV o.d t { h.flag g with vstart := 0 } = .ok h' ∧
      (∀ e, elemOf o.fmt t e = if e < s.vlen then
          masked (active h o.x.msk o.x.mn 1 e) o.x.mz ((cvtElem true o h x e).1 % 2 ^ o.fmt.width)
            (elemOf o.fmt (oldV o.d h) e)
        else if e < (s.vlen + o.fmt.pack - 1) / o.fmt.pack * o.fmt.pack then 0 else elemOf o.fmt (oldV o.d h) e) ∧
      ∀ k, g.getLsbD k = true ↔ ∃ e, 0 ≤ e ∧ e < s.vlen ∧
        active h o.x.msk o.x.mn 1 e = true ∧ (cvtElem true o h x e).2.getLsbD k = true := by
  have hle := le_packed (pack_pos o.fmt) s.vlen
  obtain ⟨t, g, h', hfin, hput, hE, hG⟩ := finishV_fold hr (width_le o.fmt hf) s.issued
    (packActive s.vlen (active h o.x.msk o.x.mn 1)) o.x.mz (packElem s.vlen (cvtElem true o h x)) List.nodup_range
    fun _ => List.mem_range (n := (s.vlen + o.fmt.pack - 1) / o.fmt.pack * o.fmt.pack)
  rw [mouldStep_pack] at hfin
  refine ⟨t, g, h', issueV_done hi ?_, hput, fun e => (hE e).trans ?_, fun k => (hG k).trans ⟨?_, ?_⟩⟩
  · exact (congrArg (countSr o s.issued.hart) ((withV_of (s := s.issued) _ (fun _ => hv) hs).trans hfin)).trans
      (countSr_done o _ _ _)
  · rcases Nat.lt_or_ge e s.vlen with he | he
    · rw [if_pos (lt_of_lt_of_le he hle), if_pos he, packActive_of_lt _ he, packElem_of_lt _ he]
    · rw [if_neg (Nat.not_lt.2 he), packActive_of_le _ he, packElem_of_le _ he, masked, if_pos rfl, Nat.zero_mod]
  · rintro ⟨e, -, ha, hk⟩
    rcases Nat.lt_or_ge e s.vlen with he | he
    · rw [packActive_of_lt _ he] at ha
      rw [packElem_of_lt _ he] at hk
      exact ⟨e, e.zero_le, he, ha, hk⟩
    · rw [packElem_of_le _ he] at hk
      simp at hk
  · rintro ⟨e, -, he, ha, hk⟩
    exact ⟨e, lt_of_lt_of_le he hle, (packActive_of_lt _ he).trans ha, by rw [packElem_of_lt _ he]; exact hk⟩

theorem vunpack_completes (hv : s.hart.vstart = 0)
    (hs : VSources o.a o.b (s.envOf (.vunpack c o)) s.issued.hart x y h) :
    ∃ t g h', exec (.vunpack c o) s = .next (ranQueued s h') ∧ putV o.d t { h.flag g with vstart := 0 } = .ok h' ∧
      (∀ e, elemOf o.fmt t e = if e < s.vlen then
        masked (active h o.x.msk o.x.mn 1 e) o.x.mz ((cvtElem false o h x e).1 % 2 ^ o.fmt.width)
          (elemOf o.fmt (oldV o.d h) e) else elemOf o.fmt (oldV o.d h) e) ∧
      ∀ k, g.getLsbD k = true ↔ ∃ e, 0 ≤ e ∧ e < s.vlen ∧
        active h o.x.msk o.x.mn 1 e = true ∧ (cvtElem false o h x e).2.getLsbD k = true := by
  obtain ⟨t, g, h', hfin, hput, hE, hG⟩ := finishV_fold hr (width_le o.fmt hf) s.issued
    (active h o.x.msk o.x.mn 1) o.x.mz (cvtElem false o h x) List.nodup_range fun _ => List.mem_range (n := s.vlen)
  refine ⟨t, g, h', issueV_done hi ((withV_of (s := s.issued) _ (fun _ => hv) hs).trans hfin), hput, hE,
    fun k => (hG k).trans ?_⟩
  simp only [Nat.zero_le, true_and]

end

/-- Settles O34: the three instructions fold the conversions of their elements into D. -/
theorem vectorConversions : Obligations.VectorConversions := by
  intro c o hf s x y h hi hr
  exact ⟨fun hq hs => vcvt_completes hf hi hr hq hs, fun hv hs => vpack_completes hf hi hr hv hs,
    fun hv hs => vunpack_completes hf hi hr hv hs⟩

end Sys2Proof.Proofs
end

section
/-! PROOFS. Multiply-accumulate on a tile, and accumulators moved to vectors (R68, R69, R138, R152, R154, R435). -/

namespace Sys2Proof.Proofs

open Sys2Proof.Machine Sys2Proof.Safety

/-! ## A table whose entries a list rewrites, with flags -/

section
variable {α β : Type} [DecidableEq β] (d : β) (κ : α → Nat) (F : α → β → β × Flags)

/-- The entry of p becomes what F makes of it, and its flags are set. -/
def tableStep (acc : List (Nat × β) × Flags) (p : α) : List (Nat × β) × Flags :=
  (tset d acc.1 (κ p) (F p (tget d acc.1 (κ p))).1, acc.2 ||| (F p (tget d acc.1 (κ p))).2)

/-- Entries of different keys are each rewritten once, and no other entry changes. -/
theorem foldl_tableStep (l : List α) : ∀ (acc : List (Nat × β) × Flags), (l.map κ).Nodup →
    (∀ p ∈ l, tget d (l.foldl (tableStep d κ F) acc).1 (κ p) = (F p (tget d acc.1 (κ p))).1) ∧
    (∀ k, (∀ p ∈ l, κ p ≠ k) → tget d (l.foldl (tableStep d κ F) acc).1 k = tget d acc.1 k) ∧
    ∀ b, (l.foldl (tableStep d κ F) acc).2.getLsbD b = true ↔
      acc.2.getLsbD b = true ∨ ∃ p ∈ l, (F p (tget d acc.1 (κ p))).2.getLsbD b = true := by
  induction l with
  | nil => intro acc _; simp
  | cons a l ih =>
    intro acc hn
    obtain ⟨ha, hl⟩ := List.nodup_cons.1 (List.map_cons ▸ hn)
    obtain ⟨hnew, hold, hflags⟩ := ih (tableStep d κ F acc a) hl
    have hne : ∀ p ∈ l, κ p ≠ κ a := fun p hp e => ha (e ▸ List.mem_map_of_mem hp)
    have hkeep : ∀ k, k ≠ κ a → tget d (tableStep d κ F acc a).1 k = tget d acc.1 k := fun k hk => tget_tset_other d _ _ hk
    rw [List.foldl_cons]
    refine ⟨fun p hp => ?_, fun k hk => ?_, fun b => ?_⟩
    · rcases List.mem_cons.1 hp with rfl | hp
      · rw [hold _ hne]; exact tget_tset_same d _ _ _
      · rw [hnew p hp, hkeep _ (hne p hp)]
    · obtain ⟨hka, hkl⟩ := List.forall_mem_cons.1 hk
      rw [hold k hkl, hkeep k hka.symm]
    · have hrest : (∃ p ∈ l, (F p (tget d (tableStep d κ F acc a).1 (κ p))).2.getLsbD b = true) ↔
          ∃ p ∈ l, (F p (tget d acc.1 (κ p))).2.getLsbD b = true :=
        exists_congr fun p => and_congr_right fun hp => by rw [hkeep _ (hne p hp)]
      rw [hflags, hrest]
      simp only [tableStep, BitVec.getLsbD_or, Bool.or_eq_true, List.mem_cons, exists_eq_or_imp, or_assoc]

end

/-! ## A slot that is held (R158) -/

theorem withSlot_held {n : Nat} {v : Env} {s : State} (hv : v.held = true) (hs : s.holds n = true)
    (f : Tile → State → VRes) : withSlot n v f s = f (s.tileAt n) s := by
  rw [withSlot, hv, hs]
  rfl

/-! ## mova (R154) -/

theorem accElems_eq (v : Env) (row0 : Nat) :
    accElems v row0 = ((List.range v.n).map fun e => (e, 64 * row0 + e)).filter fun p => decide (p.2 < 4096) := by
  have hk : (fun e => (e, 64 * (row0 + e / 64) + e % 64)) = fun e => (e, 64 * row0 + e) := by
    funext e
    rw [Prod.mk.injEq]
    exact ⟨rfl, by omega⟩
  rw [accElems, hk]

theorem mem_accElems {v : Env} {row0 : Nat} {p : Nat × Nat} :
    p ∈ accElems v row0 ↔ (p.1 < v.n ∧ 64 * row0 + p.1 < 4096) ∧ p.2 = 64 * row0 + p.1 := by
  rw [accElems_eq, List.mem_filter, List.mem_map, decide_eq_true_eq]
  constructor
  · rintro ⟨⟨e, he, rfl⟩, hlt⟩
    exact ⟨⟨List.mem_range.1 he, hlt⟩, rfl⟩
  · obtain ⟨e, k⟩ := p
    rintro ⟨⟨he, hlt⟩, hk⟩
    exact ⟨⟨e, List.mem_range.2 he, by rw [← hk]⟩, hk ▸ hlt⟩

theorem accElems_nodup (v : Env) (row0 : Nat) : ((accElems v row0).map Prod.fst).Nodup := by
  have hs : ((accElems v row0).map Prod.fst).Sublist ((List.range v.n).map id) := by
    rw [accElems_eq]
    exact (List.filter_sublist.map Prod.fst).trans (by rw [List.map_map]; exact List.Sublist.refl _)
  exact hs.nodup (by rw [List.map_id]; exact List.nodup_range)

/-- An accumulator element of pattern x in format f (R154). -/
def movaElem (f : Fmt) (sat : Bool) (mode : RMode) (x : Nat) : Nat × Flags :=
  if f = .f32 then (x, 0) else cvt f .f32 sat mode x

/-- What mova writes for one element. -/
def movaStep (f : Fmt) (sat : Bool) (mode : RMode) (acc : List (Nat × Elem)) (p : Nat × Nat) (_ : Elem) : Elem × Flags :=
  let y := movaElem f sat mode (tget 0 acc p.2).toNat
  (extElem f y.1, y.2)

theorem runMova_done {f : Fmt} {sat : Bool} {d : BitVec 5} {n : BitVec 2} {rm : BitVec 3} {row0 : BitVec 6} {v : Env} {s : State}
    (hv : s.hart.vstart = 0) (held : v.held = true) (hs : s.holds n.toNat = true)
    (hp : ∀ p ∈ accElems v row0.toNat, p.2 ∉ (s.tileAt n.toNat).poison) :
    let r := (accElems v row0.toNat).foldl (tableStep 0 Prod.fst
      (movaStep f sat (modeOf rm s.hart.rm none) (s.tileAt n.toNat).acc)) (tget [] s.hart.v d.toNat, 0)
    runMova f sat d n rm row0 v s = .done (s.onH fun h => { h.flag r.2 with v := tset [] h.v d.toNat r.1 }) := by
  have hfind : (accElems v row0.toNat).find? (fun p => (s.tileAt n.toNat).poison.contains p.2) = none := by
    rw [List.find?_eq_none]
    exact fun p hm => by simpa using hp p hm
  intro r
  rw [runMova, if_neg (not_not_intro hv), withSlot_held held hs]
  simp only [hfind]
  rfl

theorem mova_completes {c : Ctl} {n : BitVec 2} {s : State} (hi : Issues c s) (hs : s.holds n.toNat = true)
    (f : Fmt) (sat : Bool) (d : BitVec 5) (rm : BitVec 3) (row0 : BitVec 6) (hv : s.hart.vstart = 0)
    (hp : ∀ e, e < s.vlen ∧ 64 * row0.toNat + e < 4096 → 64 * row0.toNat + e ∉ (s.tileAt n.toNat).poison) :
    let hit (e : Nat) : Prop := e < s.vlen ∧ 64 * row0.toNat + e < 4096
    let y (e : Nat) := movaElem f sat (modeOf rm s.hart.rm none) (tget 0 (s.tileAt n.toNat).acc (64 * row0.toNat + e)).toNat
    ∃ u g, exec (.mova c f sat d n rm row0) s =
        .next (ranQueued s { s.issued.hart.flag g with v := tset [] s.hart.v d.toNat u }) ∧
      (∀ e, hit e → tget 0 u e = extElem f (y e).1) ∧ (∀ e, ¬ hit e → tget 0 u e = s.hart.rv d.toNat e) ∧
      ∀ k, g.getLsbD k = true ↔ ∃ e, hit e ∧ (y e).2.getLsbD k = true := by
  intro hit y
  let v := s.envOf (.mova c f sat d n rm row0)
  have hrun := runMova_done (f := f) (sat := sat) (d := d) (rm := rm) (s := s.issued) (v := v) hv hs hs
    fun p hm => by
      obtain ⟨hhit, hk⟩ := mem_accElems.1 hm
      exact hk ▸ hp p.1 hhit
  obtain ⟨hnew, hold, hflags⟩ := foldl_tableStep 0 Prod.fst
    (movaStep f sat (modeOf rm s.hart.rm none) (s.tileAt n.toNat).acc) (accElems v row0.toNat)
    (tget [] s.hart.v d.toNat, 0) (accElems_nodup v row0.toNat)
  have hmem (e : Nat) (he : hit e) : (e, 64 * row0.toNat + e) ∈ accElems v row0.toNat := mem_accElems.2 ⟨he, rfl⟩
  refine ⟨_, _, issueV_done hi hrun, fun e he => hnew _ (hmem e he), fun e he => hold e ?_, fun k => (hflags k).trans ?_⟩
  · rintro p hm rfl
    exact he (mem_accElems.1 hm).1
  · constructor
    · rintro (h0 | ⟨⟨e, key⟩, hm, hk⟩)
      · simp at h0
      · obtain ⟨hhit, hkey⟩ := mem_accElems.1 hm
        obtain rfl : key = 64 * row0.toNat + e := hkey
        exact ⟨e, hhit, hk⟩
    · rintro ⟨e, he, hk⟩
      exact .inr ⟨_, hmem e he, hk⟩

/-! ## Rows of elements (R149, R152) -/

theorem rowElems_eq (f : Fmt) (bs : List Byte) (n : Nat) : rowElems f bs n = (List.range n).map (rowElem f bs) := by
  unfold rowElems
  by_cases hf : f = .e2m1
  · rw [if_pos hf]
    refine List.map_congr_left fun j _ => ?_
    rw [rowElem, if_pos hf]
    rcases Nat.mod_two_eq_zero_or_one j with hj | hj <;> simp [hj]
  · rw [if_neg hf]
    exact List.map_congr_left fun j _ => by rw [rowElem, if_neg hf]

/-- A list with the place of each entry. -/
theorem zipIdx_eq_map_range {α : Type} (l : List α) (d : α) :
    l.zipIdx = (List.range l.length).map fun i => (l.getD i d, i) := by
  apply List.ext_getElem
  · simp
  · intro i h1 h2
    have hi : i < l.length := by simpa using h1
    simp [List.getD_eq_getElem?_getD, hi]

/-! ## Reads that a matrix instruction makes (R143, R158) -/

/-- As many rows are read as ranges are named. -/
theorem readRanges_length {rs : List (Word × Nat)} {s u : State} {bs : List (List Byte)}
    (h : readRanges rs s = .ok (bs, u)) : bs.length = rs.length := by
  unfold readRanges at h
  dsimp only at h
  repeat' split at h
  all_goals cases h
  simp

/-- Reads that all pass their checks are performed one after the other. -/
theorem readRanges_state {rs : List (Word × Nat)} {s u : State} {bs : List (List Byte)}
    (h : readRanges rs s = .ok (bs, u)) :
    ∃ accs : List Acc, u = accs.foldl (fun s a => (s.loadAt s.hart.holder a).2) s := by
  unfold readRanges at h
  dsimp only at h
  repeat' split at h
  all_goals cases h
  exact ⟨_, rfl⟩

/-- The tile slots of core k. -/
def tilesOf (k : Nat) (s : State) : List (Nat × Tile) := (s.coreAt k).tiles

theorem tilesOf_powered (k core pline : Nat) (s : State) : tilesOf k (powered core pline s) = tilesOf k s := by
  unfold powered
  split
  · rfl
  · rw [tilesOf, State.coreAt_modCore]
    split
    · next hk => rw [hk]; rfl
    · rfl

theorem tilesOf_holdLine (k core : Nat) (cid : BitVec 12) (vline pline : Nat) (s : State) :
    tilesOf k (s.holdLine core cid vline pline) = tilesOf k s := by
  rw [holdLine_eq, tilesOf_powered]
  unfold displaced
  repeat' split
  all_goals rfl

theorem tilesOf_touch (k : Nat) (o : Holder) (c : Chunk) (s : State) : tilesOf k (s.touch o c) = tilesOf k s := by
  have each {f : Nat → Nat → State → State} (hf : ∀ v p t, tilesOf k (f v p t) = tilesOf k t) :
      tilesOf k (s.eachLine o.cid c f) = tilesOf k s :=
    foldl_keeps (tilesOf k) _ (fun t _ => (hf _ _ _).trans (tilesOf_holdLine k _ _ _ _ t)) _ s
  unfold State.touch
  repeat' split
  · exact each fun _ _ _ => rfl
  · exact each fun _ _ _ => rfl
  · rfl

theorem tilesOf_keep (k : Nat) (fills : List TlbEntry) (s : State) : tilesOf k (s.keep fills) = tilesOf k s := by
  unfold State.keep; split <;> rfl

/-- Reads change no tile slot. -/
theorem tilesOf_loadAt (k : Nat) (o : Holder) (acc : Acc) (s : State) : tilesOf k (s.loadAt o acc).2 = tilesOf k s :=
  (foldl_keeps (tilesOf k) _ (fun s c => tilesOf_touch k o c s) _ _).trans (tilesOf_keep k _ s)

theorem tileAt_readRanges {rs : List (Word × Nat)} {s u : State} {bs : List (List Byte)}
    (h : readRanges rs s = .ok (bs, u)) (n : Nat) : u.tileAt n = s.tileAt n := by
  obtain ⟨accs, rfl⟩ := readRanges_state h
  have hcur := congrArg Contexts.cur (foldl_keeps contexts _ (fun s a => contexts_loadAt s.hart.holder a s) accs s)
  have htiles (k : Nat) := foldl_keeps (tilesOf k) _ (fun s a => tilesOf_loadAt k s.hart.holder a s) accs s
  generalize accs.foldl (fun s a => (s.loadAt s.hart.holder a).2) s = u at hcur htiles
  have hcore : u.coreNo = s.coreNo := congrArg (· / Config.hartsPerCore) hcur
  rw [State.tileAt, hcore]
  exact congrArg (fun t => tget Tile.reset t n) (htiles _)

/-! ## mma (R68, R69, R152) -/

/-- Element (i, j) of a product whose rows, columns and scales are given, from its old value. -/
def mmaCell (nb : Nat) (row col : Nat → List Fp) (sa sb : Nat → List Nat) (p : Nat × Nat) (old : Elem) : Elem × Flags :=
  let r := mmaElem nb (row p.1) (col p.2) (sa p.1) (sb p.2) old.toNat
  (BitVec.ofNat 32 r.1, r.2)

/-- The place of element (i, j) in an accumulator. -/
def accKey (p : Nat × Nat) : Nat := 64 * p.1 + p.2

/-- The elements of m rows and n columns, row by row. -/
def cells (m n : Nat) : List (Nat × Nat) := (List.range m).flatMap fun i => (List.range n).map fun j => (i, j)

theorem mem_cells {m n : Nat} {p : Nat × Nat} : p ∈ cells m n ↔ p.1 < m ∧ p.2 < n := by
  obtain ⟨i, j⟩ := p
  simp [cells]

theorem accKey_inj {p q : Nat × Nat} (hp : p.2 < 64) (hq : q.2 < 64) (h : accKey p = accKey q) : p = q := by
  unfold accKey at h
  exact Prod.ext (by omega) (by omega)

theorem nodup_accKey_cells (m : Nat) {n : Nat} (hn : n ≤ 64) : ((cells m n).map accKey).Nodup := by
  refine List.Nodup.map_on (fun p hp q hq => ?_) ?_
  · exact accKey_inj (lt_of_lt_of_le (mem_cells.1 hp).2 hn) (lt_of_lt_of_le (mem_cells.1 hq).2 hn)
  · exact List.Nodup.product List.nodup_range List.nodup_range

/-- What a product makes of an accumulator t, and its flags. -/
theorem foldl_cells {m n : Nat} (hn : n ≤ 64) (F : Nat × Nat → Elem → Elem × Flags) (t : List (Nat × Elem)) :
    let r := (cells m n).foldl (tableStep 0 accKey F) (t, 0)
    (∀ i j, j < 64 → tget 0 r.1 (64 * i + j) =
      if i < m ∧ j < n then (F (i, j) (tget 0 t (64 * i + j))).1 else tget 0 t (64 * i + j)) ∧
    ∀ k, r.2.getLsbD k = true ↔ ∃ i < m, ∃ j < n, (F (i, j) (tget 0 t (64 * i + j))).2.getLsbD k = true := by
  obtain ⟨hnew, hold, hflags⟩ := foldl_tableStep 0 accKey F (cells m n) (t, 0) (nodup_accKey_cells m hn)
  refine ⟨fun i j hj => ?_, fun k => (hflags k).trans ⟨?_, ?_⟩⟩
  · by_cases hij : i < m ∧ j < n
    · rw [if_pos hij]
      exact hnew (i, j) (mem_cells.2 hij)
    · rw [if_neg hij]
      refine hold _ fun p hp he => hij ?_
      have hp' := mem_cells.1 hp
      rwa [accKey_inj (q := (i, j)) (lt_of_lt_of_le hp'.2 hn) hj he] at hp'
  · rintro (h0 | ⟨p, hp, hk⟩)
    · simp at h0
    · exact ⟨p.1, (mem_cells.1 hp).1, p.2, (mem_cells.1 hp).2, hk⟩
  · rintro ⟨i, him, j, hjn, hk⟩
    exact .inr ⟨(i, j), mem_cells.2 ⟨him, hjn⟩, hk⟩

/-- The fold that mma runs over rows and columns is that over the elements. -/
theorem foldl_rows_cols (nb : Nat) (rows cols : List (List Fp)) (sa sb : Nat → List Nat) (acc : List (Nat × Elem) × Flags) :
    rows.zipIdx.foldl (fun (acc : List (Nat × Elem) × Flags) p =>
      cols.zipIdx.foldl (fun (acc : List (Nat × Elem) × Flags) q =>
        (tset 0 acc.1 (64 * p.2 + q.2) (BitVec.ofNat 32 (mmaElem nb p.1 q.1 (sa p.2) (sb q.2)
          (tget 0 acc.1 (64 * p.2 + q.2)).toNat).1),
          acc.2 ||| (mmaElem nb p.1 q.1 (sa p.2) (sb q.2) (tget 0 acc.1 (64 * p.2 + q.2)).toNat).2)) acc) acc =
    (cells rows.length cols.length).foldl
      (tableStep 0 accKey (mmaCell nb (fun i => rows.getD i []) (fun j => cols.getD j []) sa sb)) acc := by
  rw [zipIdx_eq_map_range rows [], zipIdx_eq_map_range cols []]
  simp only [cells, List.foldl_flatMap, List.foldl_map]
  rfl

/-- Row i of the left operand, of tk elements from its bytes (R152). -/
def leftRow (f : Fmt) (tk : Nat) (bs : List (List Byte)) (i : Nat) : List Fp :=
  (List.range tk).map fun k => elemValue f (rowElem f (bs.getD i []) k)

/-- Column j of the weights of a slot (R152). -/
def weightCol (t : Tile) (kofs tk j : Nat) : List Fp := (weightRows t kofs tk).map fun r => r.getD j (fpInt 0)

/-- The scale bytes of row i of the left operand, and of column j of the weights (R150). -/
def leftScales (A : Binding) (tm : Nat) (bs : List (List Byte)) (i : Nat) : List Nat :=
  if A.count = 0 then [] else (bs.getD (tm + i) []).map BitVec.toNat

def colScales (A B : Binding) (tm : Nat) (bs : List (List Byte)) (j : Nat) : List Nat :=
  if B.count = 0 then [] else (bs.getD ((if A.count = 0 then tm else 2 * tm) + j) []).map BitVec.toNat

/-- The elements that mma gives an accumulator, and its flags, as the model folds them. -/
def mmaFold (f : Fmt) (t : Tile) (kofs tk tm tn : Nat) (A : Binding) (bs : List (List Byte)) : List (Nat × Elem) × Flags :=
  let rows := (bs.take tm).map fun b => (rowElems f b tk).map (elemValue f)
  let rest := bs.drop tm
  let sa := if A.count = 0 then [] else rest.take tm
  let sb := if A.count = 0 then rest else rest.drop tm
  let nats := fun (l : List Byte) => l.map BitVec.toNat
  let cols := (List.range tn).map fun j => (weightRows t kofs tk).map fun r => r.getD j (fpInt 0)
  rows.zipIdx.foldl (fun (acc : List (Nat × Elem) × Flags) p =>
    cols.zipIdx.foldl (fun (acc : List (Nat × Elem) × Flags) q =>
      let r := mmaElem ((tk + 31) / 32) p.1 q.1 (nats (sa.getD p.2 [])) (nats (sb.getD q.2 []))
        (tget 0 acc.1 (64 * p.2 + q.2)).toNat
      (tset 0 acc.1 (64 * p.2 + q.2) (BitVec.ofNat 32 r.1), acc.2 ||| r.2)) acc) (t.acc, 0)

section
variable {f : Fmt} {t : Tile} {kofs tk tm tn : Nat} {A B : Binding} {bs : List (List Byte)}

theorem rows_getD {i : Nat} (hi : i < tm) (hl : tm ≤ bs.length) :
    ((bs.take tm).map fun b => (rowElems f b tk).map (elemValue f)).getD i [] = leftRow f tk bs i := by
  have hib : i < bs.length := lt_of_lt_of_le hi hl
  simp [List.getD_eq_getElem?_getD, hi, hib, leftRow, rowElems_eq]

theorem cols_getD {j : Nat} (hj : j < tn) :
    ((List.range tn).map fun j => (weightRows t kofs tk).map fun r => r.getD j (fpInt 0)).getD j [] = weightCol t kofs tk j := by
  simp [List.getD_eq_getElem?_getD, hj, weightCol]

theorem leftScales_getD {i : Nat} (hi : i < tm) :
    ((if A.count = 0 then [] else (bs.drop tm).take tm).getD i []).map BitVec.toNat = leftScales A tm bs i := by
  unfold leftScales
  split
  · simp
  · simp [List.getD_eq_getElem?_getD, hi]

theorem colScales_getD (hl : bs.length = tm + (if A.count = 0 then 0 else tm) + (if B.count = 0 then 0 else tn)) (j : Nat) :
    ((if A.count = 0 then bs.drop tm else (bs.drop tm).drop tm).getD j []).map BitVec.toNat = colScales A B tm bs j := by
  have hd : (if A.count = 0 then bs.drop tm else (bs.drop tm).drop tm) = bs.drop (if A.count = 0 then tm else 2 * tm) := by
    split
    · rfl
    · rw [List.drop_drop, two_mul]
  have hg : (bs.drop (if A.count = 0 then tm else 2 * tm)).getD j [] = bs.getD ((if A.count = 0 then tm else 2 * tm) + j) [] := by
    simp [List.getD_eq_getElem?_getD]
  rw [hd, hg, colScales]
  by_cases hB : B.count = 0
  · have hout : bs.length ≤ (if A.count = 0 then tm else 2 * tm) + j := by
      rw [if_pos hB] at hl
      by_cases hA : A.count = 0
      · rw [if_pos hA] at hl ⊢; omega
      · rw [if_neg hA] at hl ⊢; omega
    rw [if_pos hB, List.getD_eq_default _ _ hout, List.map_nil]
  · rw [if_neg hB]

/-- The fold, in terms of the bytes that were read. -/
theorem mmaFold_spec (hn : tn ≤ 64)
    (hl : bs.length = tm + (if A.count = 0 then 0 else tm) + (if B.count = 0 then 0 else tn)) :
    let r (i j : Nat) := mmaElem ((tk + 31) / 32) (leftRow f tk bs i) (weightCol t kofs tk j) (leftScales A tm bs i)
      (colScales A B tm bs j) (tget 0 t.acc (64 * i + j)).toNat
    (∀ i j, j < 64 → tget 0 (mmaFold f t kofs tk tm tn A bs).1 (64 * i + j) =
      if i < tm ∧ j < tn then BitVec.ofNat 32 (r i j).1 else tget 0 t.acc (64 * i + j)) ∧
    ∀ k, (mmaFold f t kofs tk tm tn A bs).2.getLsbD k = true ↔ ∃ i < tm, ∃ j < tn, (r i j).2.getLsbD k = true := by
  intro r
  have hle : tm ≤ bs.length := by omega
  let rows := (bs.take tm).map fun b => (rowElems f b tk).map (elemValue f)
  let cols := (List.range tn).map fun j => (weightRows t kofs tk).map fun r => r.getD j (fpInt 0)
  let F := mmaCell ((tk + 31) / 32) (fun i => rows.getD i []) (fun j => cols.getD j [])
    (fun i => ((if A.count = 0 then [] else (bs.drop tm).take tm).getD i []).map BitVec.toNat)
    (fun j => ((if A.count = 0 then bs.drop tm else (bs.drop tm).drop tm).getD j []).map BitVec.toNat)
  have hF {i j : Nat} (hi : i < tm) (hj : j < tn) :
      F (i, j) (tget 0 t.acc (64 * i + j)) = (BitVec.ofNat 32 (r i j).1, (r i j).2) := by
    simp only [F, mmaCell, rows, cols, rows_getD hi hle, cols_getD hj, leftScales_getD hi, colScales_getD hl, r]
  have hfold : mmaFold f t kofs tk tm tn A bs = (cells tm tn).foldl (tableStep 0 accKey F) (t.acc, 0) := by
    have hrows : rows.length = tm := by simp [rows, hle]
    have hcols : cols.length = tn := by simp [cols]
    have h := foldl_rows_cols ((tk + 31) / 32) rows cols
      (fun i => ((if A.count = 0 then [] else (bs.drop tm).take tm).getD i []).map BitVec.toNat)
      (fun j => ((if A.count = 0 then bs.drop tm else (bs.drop tm).drop tm).getD j []).map BitVec.toNat) (t.acc, 0)
    rw [hrows, hcols] at h
    exact h
  obtain ⟨hacc, hflags⟩ := foldl_cells (m := tm) hn F t.acc
  rw [hfold]
  refine ⟨fun i j hj => (hacc i j hj).trans ?_, fun k => (hflags k).trans ?_⟩
  · by_cases hij : i < tm ∧ j < tn
    · rw [if_pos hij, if_pos hij, hF hij.1 hij.2]
    · rw [if_neg hij, if_neg hij]
  · exact exists_congr fun i => and_congr_right fun hi => exists_congr fun j => and_congr_right fun hj => by rw [hF hi hj]

end

/-- An operand of a matrix instruction at its issue. -/
theorem operand_envOf (i : Instr) (s : State) (o : Operand) : (s.envOf i).operand o = operandOf s.hart o := by
  cases o <;> rfl

theorem runMma_done {f : Fmt} {n : BitVec 2} {a : BitVec 6} {b : Operand} {kofs : BitVec 12} {v : Env} {s u : State}
    {bs : List (List Byte)} (held : v.held = true) (hs : s.holds n.toNat = true) :
    let t := s.tileAt n.toNat
    let tk := depthOf v t
    let tm := min v.tm.toNat 64
    let tn := min v.tn.toNat 64
    let nb := (tk + 31) / 32
    0 < tk → 0 < tm → 0 < tn → mmaFault f t n.toNat kofs.toNat tk nb (v.rs a.toNat) (v.operand b) v = none →
    readRanges (((List.range tm).map fun i => (v.rs a.toNat + BitVec.ofNat 64 i * v.operand b, rowBytes f tk))
      ++ scaleRanges v.bindA tm nb ++ scaleRanges v.bindB tn nb) s = .ok (bs, u) →
    runMma f n a b kofs v s = .done ((u.modTile n.toNat fun t' =>
      { t' with acc := (mmaFold f t kofs.toNat tk tm tn v.bindA bs).1 }).onH
        (Hart.flag (mmaFold f t kofs.toNat tk tm tn v.bindA bs).2)) := by
  intro t tk tm tn nb hk hm hn hfault hread
  have h0 : (decide (tk = 0) || decide (tm = 0) || decide (tn = 0)) = false := by
    simp [hk.ne', hm.ne', hn.ne']
  rw [runMma, withSlot_held held hs]
  simp only [t, tk, tm, tn, nb] at hfault hread h0
  simp only [hfault, h0, hread]
  rfl

/-- A change of a slot writes what it makes of the tile there. -/
theorem modTile_eq (n : Nat) (f : Tile → Tile) (s : State) : s.modTile n f = s.modTile n fun _ => f (s.tileAt n) := rfl

theorem scaleRanges_length (B : Binding) (rows nb : Nat) :
    (scaleRanges B rows nb).length = if B.count = 0 then 0 else rows := by
  unfold scaleRanges
  split <;> simp

theorem mma_completes {c : Ctl} {n : BitVec 2} {s : State} (hi : Issues c s) (hs : s.holds n.toNat = true) (f : Fmt) (a : BitVec 6)
    (b : Operand) (kofs : BitVec 12) (bs : List (List Byte)) (u : State) :
    let t := s.tileAt n.toNat
    let tk := min s.hart.tk.toNat (kmax t.wfmt)
    let tm := min s.hart.tm.toNat 64
    let tn := min s.hart.tn.toNat 64
    let nb := (tk + 31) / 32
    let A := s.hart.bindA
    let B := s.hart.bindB
    0 < tk → 0 < tm → 0 < tn →
    mmaFault f t n.toNat kofs.toNat tk nb (s.hart.rs a.toNat) (operandOf s.hart b) (s.envOf (.mma c f n a b kofs)) = none →
    readRanges (((List.range tm).map fun i => (s.hart.rs a.toNat + BitVec.ofNat 64 i * operandOf s.hart b, rowBytes f tk))
      ++ scaleRanges A tm nb ++ scaleRanges B tn nb) s.issued = .ok (bs, u) →
    let r (i j : Nat) := mmaElem nb (leftRow f tk bs i) (weightCol t kofs.toNat tk j) (leftScales A tm bs i)
      (colScales A B tm bs j) (tget 0 t.acc (64 * i + j)).toNat
    ∃ acc g, exec (.mma c f n a b kofs) s = .next ((u.modTile n.toNat fun _ => { t with acc := acc }).onH (Hart.flag g)) ∧
      (∀ i j, j < 64 → tget 0 acc (64 * i + j) =
        if i < tm ∧ j < tn then BitVec.ofNat 32 (r i j).1 else tget 0 t.acc (64 * i + j)) ∧
      ∀ k, g.getLsbD k = true ↔ ∃ i < tm, ∃ j < tn, (r i j).2.getLsbD k = true := by
  intro t tk tm tn nb A B hk hm hn hfault hread r
  have hlen : bs.length = tm + (if A.count = 0 then 0 else tm) + (if B.count = 0 then 0 else tn) := by
    rw [readRanges_length hread, List.length_append, List.length_append, List.length_map, List.length_range,
      scaleRanges_length, scaleRanges_length]
  obtain ⟨hacc, hflags⟩ := mmaFold_spec (f := f) (t := t) (kofs := kofs.toNat) (tk := tk) (Nat.min_le_right _ 64) hlen
  have hrun := runMma_done (f := f) (n := n) (a := a) (b := b) (kofs := kofs) (v := s.envOf (.mma c f n a b kofs))
    (s := s.issued) (u := u) (bs := bs) hs hs hk hm hn (by rw [operand_envOf]; exact hfault) (by rw [operand_envOf]; exact hread)
  refine ⟨_, _, (issueV_done hi hrun).trans ?_, hacc, hflags⟩
  have ht : u.tileAt n.toNat = t := tileAt_readRanges hread n.toNat
  rw [modTile_eq, ht]
  rfl

/-- Settles O41: mova writes the elements of `accElems`, and mma those of `cells`. -/
theorem tileComputes : Obligations.TileComputes := by
  intro c n s hi hs
  exact ⟨fun f sat d rm row0 hv hp => mova_completes hi hs f sat d rm row0 hv hp,
    fun f a b kofs bs u => mma_completes hi hs f a b kofs bs u⟩

end Sys2Proof.Proofs
end

section
/-! PROOFS. SystemRegisters (O51): getsr and putsr, and what a write of a system register reads back (R40, R64, R92 to R95). -/

namespace Sys2Proof.Proofs

open Sys2Proof.Machine Sys2Proof.Safety

/-! ## Fields -/

/-- A field that is taken from a word and put back where it stood is the word under the mask of the field. -/
theorem at_fld (v : Word) (lo w : Nat) : at_ lo (fld v lo w) = v &&& (BitVec.ofNat 64 (2 ^ w - 1) <<< lo) := by
  apply BitVec.eq_of_getLsbD_eq
  intro i hi
  simp only [at_, fld, BitVec.getLsbD_shiftLeft, BitVec.getLsbD_setWidth, BitVec.getLsbD_extractLsb', BitVec.getLsbD_and,
    BitVec.getLsbD_ofNat, Nat.testBit_two_pow_sub_one, hi, decide_true, Bool.true_and]
  rcases Nat.lt_or_ge i lo with h | h
  · simp [h]
  · have hs : lo + (i - lo) = i := by omega
    have hw : i - lo < 64 := by omega
    simp [Nat.not_lt.2 h, hs, hw, Bool.and_comm]

theorem field_eq {v m : Word} (lo w : Nat) (hm : BitVec.ofNat 64 (2 ^ w - 1) <<< lo = m) : at_ lo (fld v lo w) = v &&& m :=
  hm ▸ at_fld v lo w

/-- Two fields that are put back together are the word under the masks of both. -/
theorem fields_eq {v m : Word} (lo w lo' w' : Nat)
    (hm : BitVec.ofNat 64 (2 ^ w - 1) <<< lo ||| BitVec.ofNat 64 (2 ^ w' - 1) <<< lo' = m) :
    at_ lo (fld v lo w) ||| at_ lo' (fld v lo' w') = v &&& m := by
  rw [at_fld, at_fld, ← BitVec.and_or_distrib_left, hm]

theorem word_eq (v : Word) : v = v &&& 0xFFFFFFFFFFFFFFFF := BitVec.and_allOnes.symm

theorem ofBool_getLsbD (v : Word) : BitVec.ofBool (v.getLsbD 0) = fld v 0 1 := by
  apply BitVec.eq_of_getLsbD_eq
  intro i hi
  obtain rfl : i = 0 := by omega
  simp [fld]

/-! ## What is written reads back -/

/-- The fields of the registers that read back as they were written: the index and the mask of the fields. -/
def fieldMasks : List (Nat × Word) :=
  [(0x001, 0x1FFF), (0x002, 7), (0x003, 0x3F), (0x004, 0xFFFFFFFFFFFFFFFF), (0x008, 1), (0x009, 0xFFFFFFFF),
    (0x100, 0x7F), (0x101, 0x7F), (0x102, 0xFFF), (0x104, 0xFFFFFFFFFFFFFFFC), (0x211, 0xFC0FFFFFFFFFF000),
    (0x401, 0xFFFFFFFFFFFFFFFC), (0x402, 0xFFFFFFFFFFFFFFFF), (0x403, 0xFFFFFFFFFFFFFFFC),
    (0x405, 0x01FFFFFFFFFFFFFC), (0x406, 0xFFFFFFFFFFFFFFFF), (0x407, 0x000FFFFFFFFFF000),
    (0x408, 0xFFFFFFFF), (0x411, 0xFF), (0x412, 0x7F), (0x414, 0xFF), (0x430, 0xFFFFFFFFFFFFFFFF),
    (0x431, 0xFFFFFFFF), (0x440, 0xFFFFFFFFF), (0x451, 0xFFFFFFFF), (0x460, 0xFF), (0x469, 0xFFFFFFFFF),
    (0x480, 0xFFFFFFFFFFFFFFFF), (0x494, 0xFFFFFFFFFFFFFFFF), (0x809, 0x01FFFFFFFFFFFFFC), (0x880, 0x7F),
    (0x885, 0xFFFFFFFFFFFFFFFF), (0x891, 0xFFFF)]

/-- What is written to the register at index i reads back under the mask m; vstart and srseed once no earlier work is left. -/
def ReadsBack (i : Nat) (m : Word) : Prop :=
  ∀ (v : Word) (s : State), (i = 0x001 ∨ i = 0x004 → s.hart.idle = true) →
    readSr (writeSr (BitVec.ofNat 12 i) v s) (BitVec.ofNat 12 i) = v &&& m

/-- A field of the focused core that is written reads back. -/
theorem coreField_eq {v m : Word} (f : Core → Core) (g : Core → Word) (s : State) (hm : ∀ c, g (f c) = v &&& m) :
    g ((s.modCore s.coreNo f).coreAt (s.modCore s.coreNo f).coreNo) = v &&& m := by
  show g ((s.modCore s.coreNo f).coreAt s.coreNo) = _
  rw [State.coreAt_modCore, if_pos rfl, hm]

theorem readsBack_vstart : ReadsBack 0x001 0x1FFF := by
  intro v s hi
  have hw : writeSr (BitVec.ofNat 12 0x001) v s = s.onH fun h => { h with vstart := fld v 0 13 } := by
    show s.onH (Hart.setVstart (fld v 0 13)) = _
    simp [State.onH, Hart.setVstart, hi (.inl rfl)]
  rw [hw]
  exact field_eq 0 13 (by decide)

theorem readsBack_srseed : ReadsBack 0x004 0xFFFFFFFFFFFFFFFF := by
  intro v s hi
  have hw : writeSr (BitVec.ofNat 12 0x004) v s = s.onH fun h => { h with seed := fld v 32 32, ctr := fld v 0 32 } := by
    show s.onH (Hart.setSeed (fld v 32 32) (fld v 0 32)) = _
    simp [State.onH, Hart.setSeed, hi (.inr rfl)]
  rw [hw]
  exact fields_eq 32 32 0 32 (by decide)

theorem setFflags_fflags (f : BitVec 6) (h : Hart) : (h.setFflags f).fflags = f := by
  unfold Hart.setFflags
  split <;> rfl

theorem readsBack_fflags : ReadsBack 0x003 0x3F := by
  intro v s _
  show at_ 0 (s.hart.setFflags (fld v 0 6)).fflags = _
  rw [setFflags_fflags]
  exact field_eq 0 6 (by decide)

theorem readsBack_yreq : ReadsBack 0x008 1 := by
  intro v s _
  show at_ 0 (BitVec.ofBool (v.getLsbD 0)) = _
  rw [ofBool_getLsbD]
  exact field_eq 0 1 (by decide)

theorem readsBack_gtoff : ReadsBack 0x480 0xFFFFFFFFFFFFFFFF := by
  intro v s _
  show ((s.modPart s.hart.psel fun p => { p with gtoff := v }).partAt s.hart.psel).gtoff = _
  rw [State.partAt, State.modPart_parts, tget_tset_same]
  exact word_eq v

theorem writeSgate_cur (core : Nat) (v : Word) (s : State) : (s.writeSgate core v).cur = s.cur := by
  unfold State.writeSgate
  dsimp only
  split <;> rfl

theorem readsBack_sgate : ReadsBack 0x494 0xFFFFFFFFFFFFFFFF := by
  intro v s _
  have hn : (s.writeSgate s.coreNo v).coreNo = s.coreNo := congrArg (· / Config.hartsPerCore) (writeSgate_cur _ v s)
  show ((s.writeSgate s.coreNo v).coreAt (s.writeSgate s.coreNo v).coreNo).sgate = _
  rw [hn, State.writeSgate, State.coreAt_modCore, if_pos rfl]
  exact word_eq v

/-- Every field of the list reads back. -/
theorem readsBack_fieldMasks : ∀ p ∈ fieldMasks, ReadsBack p.1 p.2 := by
  simp only [fieldMasks, List.forall_mem_cons]
  exact ⟨readsBack_vstart, fun _ _ _ => field_eq 0 3 (by decide), readsBack_fflags, readsBack_srseed, readsBack_yreq,
    fun _ _ _ => field_eq 0 32 (by decide), fun _ _ _ => field_eq 0 7 (by decide), fun _ _ _ => field_eq 0 7 (by decide),
    fun _ _ _ => field_eq 0 12 (by decide), fun _ _ _ => rfl, fun _ _ _ => fields_eq 12 40 58 6 (by decide),
    fun _ _ _ => rfl, fun v _ _ => word_eq v, fun _ _ _ => rfl, fun _ _ _ => field_eq 2 55 (by decide),
    fun v _ _ => word_eq v, fun _ _ _ => field_eq 12 40 (by decide), fun _ _ _ => field_eq 0 32 (by decide),
    fun _ _ _ => field_eq 0 8 (by decide),
    fun v s _ => coreField_eq (fun c => { c with cdens := fld v 0 7 }) (fun c => at_ 0 c.cdens) s
      fun _ => field_eq 0 7 (by decide),
    fun v s _ => coreField_eq (fun c => { c with vathr := fld v 0 8 }) (fun c => at_ 0 c.vathr) s
      fun _ => field_eq 0 8 (by decide),
    fun v _ _ => word_eq v, fun _ _ _ => field_eq 0 32 (by decide),
    fun v s _ => coreField_eq (fun c => { c with tres := fld v 0 36 }) (fun c => at_ 0 c.tres) s
      fun _ => field_eq 0 36 (by decide),
    fun _ _ _ => field_eq 0 32 (by decide), fun _ _ _ => field_eq 0 8 (by decide), fun _ _ _ => field_eq 0 36 (by decide),
    readsBack_gtoff, readsBack_sgate, fun _ _ _ => field_eq 2 55 (by decide), fun _ _ _ => field_eq 0 7 (by decide),
    fun v _ _ => word_eq v, fun _ _ _ => field_eq 0 16 (by decide), List.forall_mem_nil _⟩

/-! ## What a write leaves of the focused hart and of the memory: each register with an effect of its own -/

@[simp] theorem setVstart_pc (v : BitVec 13) (h : Hart) : (h.setVstart v).pc = h.pc := by
  unfold Hart.setVstart
  split <;> rfl

@[simp] theorem setSeed_pc (seed ctr : BitVec 32) (h : Hart) : (h.setSeed seed ctr).pc = h.pc := by
  unfold Hart.setSeed
  split <;> rfl

@[simp] theorem setFflags_pc (f : BitVec 6) (h : Hart) : (h.setFflags f).pc = h.pc := by
  unfold Hart.setFflags
  split <;> rfl

@[simp] theorem forget_pc (now : Word) (h : Hart) : (h.forget now).pc = h.pc := rfl

@[simp] theorem writeEport_mem (v : Word) (s : State) : (s.writeEport v).mem = s.mem := rfl

/-- Changes of the focused hart that keep the pc. -/
theorem foldl_pc (f : Hart → Nat → Hart) (hf : ∀ h k, (f h k).pc = h.pc) (l : List Nat) :
    ∀ h, (l.foldl f h).pc = h.pc := by
  induction l with
  | nil => exact fun _ => rfl
  | cons k l ih => exact fun h => (ih _).trans (hf h k)

@[simp] theorem writeEport_pc (v : Word) (s : State) : (s.writeEport v).hart.pc = s.hart.pc := by
  refine foldl_pc _ (fun h k => ?_) (List.range 8) s.hart
  split <;> rfl

@[simp] theorem writeSgate_hart (core : Nat) (v : Word) (s : State) : (s.writeSgate core v).hart = s.hart := by
  unfold State.writeSgate
  dsimp only
  split <;> rfl

@[simp] theorem writeSgate_mem (core : Nat) (v : Word) (s : State) : (s.writeSgate core v).mem = s.mem := by
  unfold State.writeSgate
  dsimp only
  split <;> rfl

@[simp] theorem rereadLists_pc (s : State) : s.rereadLists.hart.pc = s.hart.pc := rfl

@[simp] theorem rereadLists_mem (s : State) : s.rereadLists.mem = s.mem := rfl

@[simp] theorem startShootdown_pc (n : BitVec 32) (s : State) : (s.startShootdown n).hart.pc = s.hart.pc := rfl

@[simp] theorem startShootdown_mem (n : BitVec 32) (s : State) : (s.startShootdown n).mem = s.mem := rfl

@[simp] theorem startMigration_hart (src : BitVec 36) (s : State) : (s.startMigration src).hart = s.hart := by
  unfold State.startMigration
  repeat' split
  all_goals rfl

@[simp] theorem startMigration_mem (src : BitVec 36) (s : State) : (s.startMigration src).mem = s.mem := by
  unfold State.startMigration
  repeat' split
  all_goals rfl

@[simp] theorem writeCrown_hart (cluster : Nat) (en : Bool) (p : Byte) (s : State) :
    (s.writeCrown cluster en p).hart = s.hart := rfl

@[simp] theorem writeCrown_mem (cluster : Nat) (en : Bool) (p : Byte) (s : State) :
    (s.writeCrown cluster en p).mem = s.mem := rfl

@[simp] theorem writeWgate_hart (v : BitVec 16) (s : State) : (s.writeWgate v).hart = s.hart := rfl

@[simp] theorem writeWgate_mem (v : BitVec 16) (s : State) : (s.writeWgate v).mem = s.mem := rfl

@[simp] theorem modZone_hart (z : Nat) (f : Zone → Zone) (s : State) : (s.modZone z f).hart = s.hart := by
  unfold State.modZone
  repeat' split
  all_goals rfl

@[simp] theorem modZone_mem (z : Nat) (f : Zone → Zone) (s : State) : (s.modZone z f).mem = s.mem := by
  unfold State.modZone
  repeat' split
  all_goals rfl

@[simp] theorem writeControl_hart (s : State) : s.writeControl.hart = s.hart :=
  congrArg Contexts.hart (contexts_writeControl s)

@[simp] theorem writeRpois_hart (go : Bool) (frame : BitVec 36) (s : State) : (s.writeRpois go frame).hart = s.hart := by
  unfold State.writeRpois
  dsimp only
  split <;> rfl

/-! ## fown: the late stores of every hart become visible (R388) -/

theorem showStores_of_none {s : State} (hb : ∀ n, (s.hartAt n).sbuf = []) : s.showStores = s := by
  have hn : (s.slots.filter fun n => !(s.hartAt n).sbuf.isEmpty) = [] := by simp [hb]
  rw [State.showStores, hn, List.foldl_nil]

/-- The stores of a slot that become visible leave the focus and the pc of the focused hart. -/
theorem atHart_lateStores_pc (n : Nat) (s : State) :
    (s.atHart n State.lateStores).cur = s.cur ∧ (s.atHart n State.lateStores).hart.pc = s.hart.pc := by
  have hstored := stored_lateStores (s.focus n)
  have hc := focus_cur s.cur (s.focus n).lateStores
  have hat := hartAt_atHart (f := State.lateStores) (congrArg Contexts.cur hstored.1) (congrArg Contexts.others hstored.1) s.cur
  have hpc : (s.focus n).lateStores.hart.pc = (s.hartAt n).pc := by
    rw [← focus_hart]; exact eq_of_unlined Hart.pc (fun _ => rfl) hstored.hart
  refine ⟨hc, ?_⟩
  rw [State.hartAt, if_pos (show s.cur = (s.atHart n State.lateStores).cur from hc.symm)] at hat
  rw [hat]
  split
  · next h => rw [hpc, ← h, State.hartAt, if_pos rfl]
  · rw [State.hartAt, if_pos rfl]

theorem showStores_pc (s : State) : s.showStores.hart.pc = s.hart.pc :=
  congrArg Prod.snd (foldl_keeps (fun s => (s.cur, s.hart.pc)) _
    (fun s n => Prod.ext (atHart_lateStores_pc n s).1 (atHart_lateStores_pc n s).2) _ s)

theorem setOwner_pc (o : BitVec 16) (frame : BitVec 36) (s : State) : (s.setOwner o frame).hart.pc = s.hart.pc := by
  unfold State.setOwner
  split
  · rfl
  · exact showStores_pc s

theorem setOwner_mem (o : BitVec 16) (frame : BitVec 36) {s : State} (hb : ∀ n, (s.hartAt n).sbuf = []) :
    (s.setOwner o frame).mem = s.mem := by
  unfold State.setOwner
  rw [showStores_of_none hb]
  split <;> rfl

@[simp] theorem writeFown_pc (rd : Bool) (o : BitVec 16) (frame : BitVec 36) (s : State) :
    (s.writeFown rd o frame).hart.pc = s.hart.pc := by
  cases rd with
  | true => rfl
  | false => exact setOwner_pc o frame s

theorem writeFown_mem (rd : Bool) (o : BitVec 16) (frame : BitVec 36) {s : State} (hb : ∀ n, (s.hartAt n).sbuf = []) :
    (s.writeFown rd o frame).mem = s.mem := by
  cases rd with
  | true => rfl
  | false => exact setOwner_mem o frame hb

/-! ## phart: harts of another partition leave, and empty slots are cleared (R392, R393) -/

theorem recallTenants_slots (core : Nat) (ps : List Byte) (s : State) : slotsOf (s.recallTenants core ps) = slotsOf s :=
  foldl_keeps slotsOf (fun s p => s.recallTenant core p) (fun _ _ => rfl) _ s

/-- From s to t the focus and the memory stay, and a context in the focused slot stays at its pc. -/
structure StaysPut (s t : State) : Prop where
  cur : t.cur = s.cur
  mem : t.mem = s.mem
  pc : s.hart.run ≠ .empty → t.hart.run = s.hart.run ∧ t.hart.pc = s.hart.pc

theorem StaysPut.of_slots {s t : State} (h : slotsOf t = slotsOf s) : StaysPut s t := by
  have hh : t.hart = s.hart := congrArg Slots.hart h
  exact ⟨congrArg Slots.cur h, congrArg Slots.mem h, fun _ => by rw [hh]; exact ⟨rfl, rfl⟩⟩

theorem StaysPut.trans {s t u : State} (h : StaysPut s t) (h' : StaysPut t u) : StaysPut s u := by
  refine ⟨h'.cur.trans h.cur, h'.mem.trans h.mem, fun hr => ?_⟩
  obtain ⟨hrun, hpc⟩ := h.pc hr
  obtain ⟨hrun', hpc'⟩ := h'.pc (hrun ▸ hr)
  exact ⟨hrun'.trans hrun, hpc'.trans hpc⟩

theorem StaysPut.foldl {α : Type} {f : State → α → State} (hf : ∀ s x, StaysPut s (f s x)) (l : List α) :
    ∀ s, StaysPut s (l.foldl f s) := by
  induction l with
  | nil => exact fun _ => .of_slots rfl
  | cons x l ih => exact fun s => (hf s x).trans (ih (f s x))

/-- A change of slot n that keeps a context there at its pc. -/
theorem staysPut_modHart {n : Nat} {f : Hart → Hart} {s : State}
    (hf : (s.hartAt n).run ≠ .empty → (f (s.hartAt n)).run = (s.hartAt n).run ∧ (f (s.hartAt n)).pc = (s.hartAt n).pc) :
    StaysPut s (s.modHart n f) := by
  have hc : (s.modHart n f).cur = s.cur := focus_cur s.cur _
  have hm : (s.modHart n f).mem = s.mem := (focus_frame s.cur _).2.2.2.trans (focus_frame n s).2.2.2
  have hat : (s.modHart n f).hart = if s.cur = n then f (s.hartAt n) else s.hart := by
    have h := hartAt_atHart (n := n) (f := State.onH f) (s := s) rfl rfl s.cur
    rw [State.hartAt, if_pos (show s.cur = (s.atHart n (State.onH f)).cur from hc.symm), State.hartAt, if_pos rfl,
      State.onH_hart, focus_hart] at h
    exact h
  refine ⟨hc, hm, fun hr => ?_⟩
  rw [hat]
  split
  · next h =>
    have hs : s.hartAt n = s.hart := by rw [State.hartAt, if_pos h.symm]
    rw [hs] at hf ⊢
    exact hf hr
  · exact ⟨rfl, rfl⟩

theorem staysPut_reassign (core : Nat) (old new : Byte) (i : Nat) (s : State) : StaysPut s (s.reassign core old new i) := by
  unfold State.reassign
  dsimp only
  split
  · refine staysPut_modHart fun _ => ?_
    split <;> exact ⟨rfl, rfl⟩
  · next he =>
    have hseq : StaysPut s (s.sequence core old) := .of_slots rfl
    exact hseq.trans (staysPut_modHart fun hr => absurd hr he)

theorem staysPut_writePhart (core : Nat) (v : Word) (s : State) : StaysPut s (s.writePhart core v) := by
  have hrecall ps := StaysPut.of_slots (recallTenants_slots core ps s)
  exact ((hrecall _).trans (.foldl (fun _ _ => staysPut_reassign _ _ _ _ _) _ _)).trans (.of_slots rfl)

/-! ## pgrpl and pgrph: launches that no core can run any more are stopped (R392, R411) -/

/-- The stop of a launch writes no byte of memory and leaves no late store where none waits. -/
theorem stopLaunch_quiet (q : Word) (status : Byte) {s : State} (hb : ∀ n, (s.hartAt n).sbuf = []) :
    (s.stopLaunch q status).mem = s.mem ∧ ∀ n, ((s.stopLaunch q status).hartAt n).sbuf = [] := by
  obtain ⟨unlogged, he⟩ := stopLaunchWith_eq true q status s
  have hv := (stopSlots true q s).1
  have hslots : slotsOf (s.stopLaunch q status) = slotsOf (s.slots.foldl (stopSlot true q) s) := by
    rw [State.stopLaunch, he]
    exact foldl_stopSaved_keeps slotsOf (fun _ _ _ => rfl) (fun _ _ => rfl) (fun _ _ => rfl) _ _ _
  refine ⟨(congrArg Slots.mem hslots).trans (hv.mem hb), fun n => ?_⟩
  rw [hartAt_of_slotsOf hslots]
  rcases hv.slot n with h | h
  · rw [h]; exact hb n
  · exact h.sbuf

theorem foldl_stopLaunch_mem (status : Byte) (l : List Word) : ∀ {s : State}, (∀ n, (s.hartAt n).sbuf = []) →
    (l.foldl (fun s q => s.stopLaunch q status) s).mem = s.mem := by
  induction l with
  | nil => exact fun _ => rfl
  | cons q l ih =>
    intro s hb
    obtain ⟨hm, hb'⟩ := stopLaunch_quiet q status hb
    exact (ih hb').trans hm

theorem writePgrp_mem (core : Nat) (high : Bool) (v : Word) {s : State} (hb : ∀ n, (s.hartAt n).sbuf = []) :
    (s.writePgrp core high v).mem = s.mem := by
  unfold State.writePgrp
  extract_lets old new moved s₁ s₂ u
  split
  · rfl
  · have hslots : slotsOf u = slotsOf s :=
      (foldl_keeps slotsOf (fun s p => s.sequence core p) (fun _ _ => rfl) _ s₁).trans (recallTenants_slots core _ s)
    have hm : u.mem = s.mem := congrArg Slots.mem hslots
    split
    · exact hm
    · exact (foldl_stopLaunch_mem 2 _ fun n => by rw [hartAt_of_slotsOf hslots]; exact hb n).trans hm

/-! ## A write of any register -/

theorem writeHart_pc (i : Nat) (v : Word) (s : State) : (writeHart i v s).hart.pc = s.hart.pc := by
  unfold writeHart
  split
  all_goals simp [apply_ite Hart.pc]

theorem writeHart_mem (i : Nat) (v : Word) (s : State) : (writeHart i v s).mem = s.mem := by
  unfold writeHart
  split
  all_goals rfl

theorem writeSuper_pc {i : Nat} (v : Word) {s : State} (hl : i ≠ 0x471) (hh : i ≠ 0x472) (hr : s.hart.run ≠ .empty) :
    (writeSuper i v s).hart.pc = s.hart.pc := by
  have hphart := ((staysPut_writePhart s.coreNo v s).pc hr).2
  unfold writeSuper
  dsimp only
  split
  all_goals simp [hphart, apply_ite State.hart, apply_ite Hart.pc] at hl hh ⊢
  
theorem writeSuper_mem {i : Nat} (v : Word) {s : State} (hj : i ≠ 0x490) (hb : ∀ n, (s.hartAt n).sbuf = []) :
    (writeSuper i v s).mem = s.mem := by
  have hphart := (staysPut_writePhart s.coreNo v s).mem
  unfold writeSuper
  dsimp only
  split
  all_goals simp [hphart, apply_ite State.mem, writePgrp_mem _ _ _ hb, writeFown_mem _ _ _ hb] at hj ⊢
  
theorem writeManage_pc (i : Nat) (v : Word) (s : State) : (writeManage i v s).hart.pc = s.hart.pc := by
  unfold writeManage
  split
  all_goals simp

theorem writeManage_mem {i : Nat} (v : Word) (s : State) (hi : i ≠ 0x803) : (writeManage i v s).mem = s.mem := by
  unfold writeManage
  split
  all_goals simp at hi ⊢

/-- A write of any register but pgrpl and pgrph leaves the pc of the focused hart, where a context is in its slot. -/
theorem writeSr_pc {i : BitVec 12} (v : Word) {s : State} (hl : i.toNat ≠ 0x471) (hh : i.toNat ≠ 0x472)
    (hr : s.hart.run ≠ .empty) : (writeSr i v s).hart.pc = s.hart.pc := by
  unfold writeSr
  dsimp only
  split
  · exact writeHart_pc _ v s
  split
  · exact writeSuper_pc v hl hh hr
  · exact writeManage_pc _ v s

/-- A write of any register but rpois and the journal's writes no byte of memory, where no late store waits. -/
theorem writeSr_mem {i : BitVec 12} (v : Word) {s : State} (hi : i.toNat ≠ 0x803) (hj : i.toNat ≠ 0x490)
    (hb : ∀ n, (s.hartAt n).sbuf = []) : (writeSr i v s).mem = s.mem := by
  unfold writeSr
  dsimp only
  split
  · exact writeHart_mem _ v s
  split
  · exact writeSuper_mem v hj hb
  · exact writeManage_mem v s hi

/-- What is written to the fields of a register reads back. -/
theorem writeSr_reads_back {i : BitVec 12} {m : Word} (v : Word) {s : State} (hm : (i.toNat, m) ∈ fieldMasks)
    (hq : i.toNat = 0x001 ∨ i.toNat = 0x004 → s.hart.idle = true) : readSr (writeSr i v s) i = v &&& m := by
  have hi : BitVec.ofNat 12 i.toNat = i := BitVec.eq_of_toNat_eq (by simp)
  have h := readsBack_fieldMasks _ hm v s hq
  rwa [hi] at h

/-! ## Access by level (R93 to R95) -/

/-- The level of a hart lies below the level of an index. -/
def BelowIndex (l : Level) (i : Nat) : Prop := (0x200 ≤ i ∧ l = .user) ∨ (0x800 ≤ i ∧ l ≠ .management)

theorem belowIndex_iff (l : Level) (idx : BitVec 12) : l.rank < (srLevel idx).rank ↔ BelowIndex l idx.toNat := by
  unfold srLevel BelowIndex
  cases l <;> split_ifs <;> simp [Level.rank] <;> omega

theorem srQueued_iff (idx : BitVec 12) : srQueued idx = true ↔ idx.toNat ∈ [0x001, 0x003, 0x004] := by
  simp [srQueued, ← BitVec.toNat_inj, or_assoc]

theorem readable_iff (idx : BitVec 12) (s : State) :
    s.readable idx = true ↔ s.quiet = true ∨ (s.hart.vqf = true ∧ idx.toNat = 0x001) := by
  simp [State.readable, ← BitVec.toNat_inj]

theorem srUserWritable_iff (idx : BitVec 12) : srUserWritable idx = true ↔ 1 ≤ idx.toNat ∧ idx.toNat ≤ 4 := by
  simp [srUserWritable]

/-! ## The source of putsr -/

/-- A scalar source takes at most an entry of a queue with it. -/
theorem takeS_frame {o : Operand} {x : Word} {h h' : Hart} (ht : takeS o h = some (x, h')) : ∃ qs, h' = { h with qs := qs } := by
  cases o with
  | q n =>
    simp only [takeS] at ht
    split at ht
    · exact absurd ht (by simp)
    · exact ⟨_, (congrArg Prod.snd (Option.some.inj ht)).symm⟩
  | _ => exact ⟨h.qs, (congrArg Prod.snd (Option.some.inj ht)).symm⟩

/-! ## The statement -/

theorem exec_getsr (c : Ctl) (d : Operand) (idx : BitVec 12) (s : State) : exec (.getsr c d idx) s = execGetsr c d idx s := rfl

theorem exec_putsr (c : Ctl) (idx : BitVec 12) (a : Operand) (s : State) : exec (.putsr c idx a) s = execPutsr c idx a s := rfl

/-- getsr below the level of the index (R94). -/
theorem getsr_below {c : Ctl} (d : Operand) {idx : BitVec 12} {s : State} (hg : s.hart.guard c = true)
    (hb : BelowIndex s.hart.level idx.toNat) :
    exec (.getsr c d idx) s = .next (s.takeTrap ⟨.privilege, idx.setWidth 64⟩) := by
  rw [exec_getsr, execGetsr, guarded_on _ hg, if_pos ((belowIndex_iff _ _).2 hb)]

/-- getsr of a register that queued work writes waits for that work (R95). -/
theorem getsr_awaits {c : Ctl} (d : Operand) {idx : BitVec 12} {s : State} (hg : s.hart.guard c = true)
    (hb : ¬ BelowIndex s.hart.level idx.toNat) (hq : srQueued idx = true) (hr : ¬ s.readable idx = true) :
    exec (.getsr c d idx) s = .next (s.await (.getsr c d idx)) := by
  rw [exec_getsr, execGetsr, guarded_on _ hg, if_neg (mt (belowIndex_iff _ _).1 hb), if_pos (by simp [hq, hr])]

/-- getsr delivers the register (R92). -/
theorem getsr_delivers {c : Ctl} (d : Operand) {idx : BitVec 12} {s : State} (hg : s.hart.guard c = true)
    (hb : ¬ BelowIndex s.hart.level idx.toNat) (hr : srQueued idx = true → s.readable idx = true) :
    Delivers (.getsr c d idx) s s d (readSr s idx) := by
  intro hroom
  obtain ⟨h', hp⟩ := putS_room hroom (readSr s idx)
  refine ⟨h', hp, ?_⟩
  rw [exec_getsr, execGetsr, guarded_on _ hg, if_neg (mt (belowIndex_iff _ _).1 hb), if_neg (by simpa using hr),
    deliver_completes _ _ hp]

/-- putsr below the level of the index, or by user level where that may not write it (R93, R94). -/
theorem putsr_refused {c : Ctl} (a : Operand) {idx : BitVec 12} {s : State} (hg : s.hart.guard c = true)
    (hb : BelowIndex s.hart.level idx.toNat ∨ (s.hart.level = .user ∧ ¬ (1 ≤ idx.toNat ∧ idx.toNat ≤ 4))) :
    exec (.putsr c idx a) s = .next (s.takeTrap ⟨.privilege, idx.setWidth 64⟩) := by
  rw [← belowIndex_iff, ← srUserWritable_iff] at hb
  rw [exec_putsr, execPutsr, guarded_on _ hg, if_pos (by simpa using hb)]

/-- putsr writes the register, and the next instruction is at pc + 12 (R64, R92). -/
theorem putsr_writes {c : Ctl} {a : Operand} {idx : BitVec 12} {s : State} {x : Word} {h : Hart} (hg : s.hart.guard c = true)
    (hb : ¬ BelowIndex s.hart.level idx.toNat) (hu : ¬ (s.hart.level = .user ∧ ¬ (1 ≤ idx.toNat ∧ idx.toNat ≤ 4)))
    (ht : takeS a s.hart = some (x, h)) : exec (.putsr c idx a) s = .next (writeSr idx x (completed s h)) := by
  rw [← belowIndex_iff] at hb
  rw [← srUserWritable_iff] at hu
  rw [exec_putsr, execPutsr, guarded_on _ hg, if_neg (by simpa [hb] using hu)]
  have hs : Sources a .none s.hart x 0 h := ⟨h, ht, rfl⟩
  rw [withSources_of _ _ hs]
  rfl

/-- Where no late store waits, none waits once an instruction has completed with the same late stores. -/
theorem sbuf_completed {s : State} {h : Hart} (hh : h.sbuf = s.hart.sbuf) (n : Nat) (hb : (s.hartAt n).sbuf = []) :
    ((completed s h).hartAt n).sbuf = [] := by
  by_cases hn : n = s.cur
  · rw [State.hartAt, if_pos hn] at hb
    rw [State.hartAt, if_pos (show n = (completed s h).cur from hn)]
    exact hh.trans hb
  · rw [State.hartAt, if_neg hn] at hb
    rw [State.hartAt, if_neg (show n ≠ (completed s h).cur from hn)]
    exact hb

/-- Settles O51: each register with an effect of its own has its frame above, and the fields that read back are listed. -/
theorem systemRegisters : Obligations.SystemRegisters := by
  intro c d a idx s x h hg
  refine ⟨getsr_below d hg, fun hb hs => ?_, fun hb hs => ?_, putsr_refused a hg, fun hb hu ht => ?_⟩
  · exact getsr_delivers d hg hb fun hq => (readable_iff idx s).2 (hs ((srQueued_iff idx).1 hq))
  · rw [← srQueued_iff, ← readable_iff, Classical.not_imp] at hs
    exact getsr_awaits d hg hb hs.1 hs.2
  · obtain ⟨qs, rfl⟩ := takeS_frame ht
    refine ⟨_, putsr_writes hg hb hu ht, fun hl hh hr => ?_, fun hi hj hn => ?_, fun m hq hm => ?_⟩
    · exact writeSr_pc x hl hh hr
    · refine writeSr_mem x hi hj fun n => sbuf_completed ?_ n (hn n)
      rfl
    · exact writeSr_reads_back x hm hq

end Sys2Proof.Proofs
end

section
/-! PROOFS. Logic, shifts and rotations of the scalar stream, bit by bit (R43, R76, R77). -/

namespace Sys2Proof.Proofs

open Sys2Proof.Machine Sys2Proof.Safety

/-! ## Patterns and readings as bit vectors (R42, R43) -/

/-- A pattern of w bits has none from bit w on. -/
theorem testBit_wrapNat_of_le {w k : Nat} (hk : w ≤ k) (x : Int) : (wrapNat w x).testBit k = false :=
  BitVec.getLsbD_of_ge (BitVec.ofInt w x) k hk

/-- The bits of a natural number below w are its pattern. -/
theorem wrapNat_natCast (w n : Nat) : wrapNat w (n : Int) = n % 2 ^ w := by
  rw [wrapNat, ← Int.natCast_emod, Int.toNat_natCast]

theorem signedOf_eq_toInt (w n : Nat) : signedOf w n = (BitVec.ofNat w n).toInt := by
  rw [BitVec.toInt_eq_toNat_cond, BitVec.toNat_ofNat]
  rfl

/-! ## Logic (R76) -/

/-- A kind-T computation on patterns has the result of its function. -/
theorem scalarResult_bitAlu {i : Instr} {c : Ctl} {o : SOps} (f : Nat → Nat → Nat)
    (h : ∀ s, exec i s = guarded c s (alu i o.a o.b o.d (bitAlu o f))) :
    ScalarResult i c o fun a b => (f (wrapNat o.fmt.width a) (wrapNat o.fmt.width b) : Nat) :=
  scalarResult_of i c o _ h

/-- Bits of a and of the complement of b, where both have at most w bits. -/
theorem testBit_andn {w a b : Nat} (hb : b < 2 ^ w) (k : Nat) :
    (a &&& (2 ^ w - 1 - b)).testBit k = (decide (k < w) && (a.testBit k && !b.testBit k)) := by
  rw [Nat.testBit_and, Nat.sub_sub, Nat.add_comm 1 b, Nat.testBit_two_pow_sub_succ hb, Bool.and_left_comm]

/-- A function that keeps two clear bits clear has no bit of two patterns of w bits from bit w on. -/
theorem testBit_patterns {f : Bool → Bool → Bool} (hf : f false false = false) (w : Nat) (a b : Int) (k : Nat) :
    f ((wrapNat w a).testBit k) ((wrapNat w b).testBit k) =
      (decide (k < w) && f ((wrapNat w a).testBit k) ((wrapNat w b).testBit k)) := by
  by_cases hk : k < w
  · simp [hk]
  · simp [hk, testBit_wrapNat_of_le (Nat.le_of_not_lt hk), hf]

/-- Settles O5: each form is the operation of `Nat` on the patterns, whose bits are known. -/
theorem scalarLogic : Obligations.ScalarLogic := by
  intro c o
  have bits {f : Bool → Bool → Bool} (hf : f false false = false) := testBit_patterns hf o.fmt.width
  refine ⟨⟨_, scalarResult_bitAlu (fun a b => a &&& b) fun _ => rfl, fun a b => ⟨_, rfl, fun k => ?and⟩⟩,
    ⟨_, scalarResult_bitAlu (fun a b => a ||| b) fun _ => rfl, fun a b => ⟨_, rfl, fun k => ?or⟩⟩,
    ⟨_, scalarResult_bitAlu (fun a b => a ^^^ b) fun _ => rfl, fun a b => ⟨_, rfl, fun k => ?xor⟩⟩,
    ⟨_, scalarResult_bitAlu (fun a b => a &&& (2 ^ o.fmt.width - 1 - b)) fun _ => rfl, fun a b => ⟨_, rfl, fun k => ?andn⟩⟩⟩
  case and => exact (Nat.testBit_and _ _ k).trans (bits (f := and) rfl a b k)
  case or => exact (Nat.testBit_or _ _ k).trans (bits (f := or) rfl a b k)
  case xor => exact (Nat.testBit_xor _ _ k).trans (bits (f := xor) rfl a b k)
  case andn => exact testBit_andn (BitVec.ofInt o.fmt.width b).isLt k

/-! ## Shifts and rotations (R77) -/

/-- Bits of a pattern shifted right with its top bit: those above the amount, and the top bit from there on. -/
theorem testBit_sraNat {w : Nat} (hw : 0 < w) (x : Int) (n k : Nat) :
    (sraNat w (wrapNat w x) n).testBit k =
      (decide (k < w) && (wrapNat w x).testBit (min (k + min n w) (w - 1))) := by
  let b := BitVec.ofInt w x
  have hs : sraNat w (wrapNat w x) n = (b.sshiftRight (min n w)).toNat := by
    have hq : signedOf w (wrapNat w x) / (2 ^ min n w : Nat) = (b.sshiftRight (min n w)).toInt := by
      rw [BitVec.toInt_sshiftRight, Int.shiftRight_eq_div_pow, signedOf_eq_toInt, ofNat_wrapNat]
    rw [sraNat, hq]
    exact congrArg BitVec.toNat (BitVec.ofInt_toInt (x := b.sshiftRight (min n w)))
  rw [hs]
  change BitVec.getLsbD _ k = (_ && b.getLsbD _)
  rw [BitVec.getLsbD_sshiftRight, BitVec.msb_eq_getLsbD_last]
  by_cases hk : k < w
  · by_cases hi : min n w + k < w
    · simp [hk, hi, show min (k + min n w) (w - 1) = min n w + k by omega]
    · simp [hk, hi, show min (k + min n w) (w - 1) = w - 1 by omega]
  · simp [hk]

/-- Bit k of a rotated pattern is the bit of the pattern that the rotation takes there. -/
theorem testBit_rotNat {w a : Nat} (hw : 0 < w) (ha : a < 2 ^ w) (n k : Nat) :
    (rotNat w a n).testBit k = (decide (k < w) && a.testBit ((k + (w - n % w)) % w)) := by
  have hr := Nat.mod_lt n hw
  unfold rotNat
  generalize n % w = r at *
  have hsplit : 2 ^ w = 2 ^ r * 2 ^ (w - r) := by rw [← Nat.pow_add, Nat.add_sub_cancel' hr.le]
  have hhigh : a / 2 ^ (w - r) < 2 ^ r := Nat.div_lt_of_lt_mul (by rwa [Nat.mul_comm, ← hsplit])
  rw [hsplit, Nat.mul_comm a, Nat.mul_mod_mul_left, Nat.testBit_two_pow_mul_add _ hhigh, Nat.testBit_mod_two_pow,
    Nat.testBit_div_two_pow]
  by_cases hk : k < r
  · rw [if_pos hk, Nat.mod_eq_of_lt (by omega)]
    simp [hk.trans hr]
  · rw [if_neg hk, show k + (w - r) = k - r + w by omega, Nat.add_mod_right]
    by_cases hkw : k < w
    · rw [Nat.mod_eq_of_lt (by omega : k - r < w)]
      simp [hkw, show k - r < w - r by omega]
    · simp [hkw, show ¬ k - r < w - r by omega]

/-- Settles O7: each form is its shift of R77, whose bits are known. -/
theorem scalarShifts : Obligations.ScalarShifts := by
  intro c o
  have hw := width_pos o.fmt
  have hlt (a : Int) : wrapNat o.fmt.width a < 2 ^ o.fmt.width := (BitVec.ofInt o.fmt.width a).isLt
  refine ⟨shiftResult_of _ c o _ fun _ => rfl,
    ⟨_, shiftResult_of _ c o _ fun _ => rfl, fun a n => ⟨_, rfl, fun k => ?shr⟩⟩,
    ⟨_, shiftResult_of _ c o _ fun _ => rfl, fun a n => ⟨_, rfl, testBit_sraNat hw a n⟩⟩,
    ⟨_, shiftResult_of _ c o _ fun _ => rfl, fun a n => ⟨_, rfl, testBit_rotNat hw (hlt a) n⟩⟩⟩
  case shr => rw [shrNat, Nat.testBit_div_two_pow, Nat.add_comm]

end Sys2Proof.Proofs
end

section
/-! PROOFS. Counts, bit fields and extensions of the scalar stream (R74, R78 to R80). -/

namespace Sys2Proof.Proofs

open Sys2Proof.Machine Sys2Proof.Safety

/-! ## Computations of one source -/

/-- A computation of one source that sets no flag completes with its value. -/
theorem unaryResult_of {i : Instr} {c : Ctl} {a d : Operand} (v : Word → Word) {P : Word → Word → Prop}
    (he : ∀ s, exec i s = guarded c s (alu i a .none d fun x _ => (v x, 0))) (hP : ∀ x, P x (v x)) :
    UnaryResult i c a d P := by
  intro s x h hg ht hr
  obtain ⟨h', hp⟩ := putS_room hr (v x)
  have hs : Sources a .none s.hart x 0 h := ⟨h, ht, rfl⟩
  refine ⟨v x, h', hP x, hp, ?_⟩
  rw [he, guarded_on _ hg, alu_completes i (fun x _ => (v x, 0)) hs ((flag_none h).symm ▸ hp)]

/-! ## Wrapped values and their 64-bit extensions (R43, R74) -/

theorem wrapTo_eq (f : Fmt) (x : Int) :
    wrapTo f x = if f.signed then (BitVec.ofInt f.width x).toInt else ((BitVec.ofInt f.width x).toNat : Int) := by
  have hm : wrapNat f.width x % 2 ^ f.width = wrapNat f.width x := Nat.mod_eq_of_lt (BitVec.ofInt f.width x).isLt
  rw [wrapTo, fmtRead, signedOf_eq_toInt, ofNat_wrapNat, hm]
  rfl

/-- Wrapping twice is wrapping once. -/
theorem wrapTo_wrapTo (f : Fmt) (x : Int) : wrapTo f (wrapTo f x) = wrapTo f x := by
  rw [wrapTo_eq f (wrapTo f x), ofInt_wrapTo, ← wrapTo_eq]

/-- The pattern of a wrapped value is that of the value. -/
theorem wrapNat_wrapTo (f : Fmt) (x : Int) : wrapNat f.width (wrapTo f x) = wrapNat f.width x :=
  congrArg BitVec.toNat (ofInt_wrapTo f x)

/-- An operand without .s is wrapped. -/
theorem wrapTo_opnd (f : Fmt) (m : Mods) (x : Word) : wrapTo f (opnd f false m x).1 = (opnd f false m x).1 :=
  wrapTo_wrapTo f _

theorem width_le_64 (f : Fmt) : f.width ≤ 64 := by cases f <;> decide

theorem ext_eq (f : Fmt) (x : Int) :
    ext f x = if f.signed then (BitVec.ofInt f.width x).signExtend 64 else (BitVec.ofInt f.width x).setWidth 64 := by
  rw [ext, wrapTo_eq]
  split
  · rfl
  · rw [BitVec.ofInt_natCast, BitVec.ofNat_toNat]

/-- Bits of Ext: the pattern, and above it the sign of a signed format. -/
theorem getLsbD_ext (f : Fmt) (x : Int) {k : Nat} (hk : k < 64) :
    (ext f x).getLsbD k =
      if k < f.width then (wrapNat f.width x).testBit k else f.signed && (wrapNat f.width x).testBit (f.width - 1) := by
  rw [ext_eq]
  cases f.signed
  · rw [if_neg Bool.false_ne_true, BitVec.getLsbD_setWidth]
    by_cases hw : k < f.width
    · simp only [hk, hw, decide_true, Bool.true_and, if_true]
      rfl
    · simp [hw, BitVec.getLsbD_of_ge _ _ (Nat.le_of_not_lt hw)]
  · rw [if_pos rfl, BitVec.getLsbD_signExtend, BitVec.msb_eq_getLsbD_last]
    simp only [hk, decide_true, Bool.true_and]
    rfl

/-- Bits of Ext of a natural number. -/
theorem getLsbD_ext_natCast (f : Fmt) (n : Nat) {k : Nat} (hk : k < 64) :
    (ext f n).getLsbD k = if k < f.width then n.testBit k else f.signed && n.testBit (f.width - 1) := by
  have hw := width_pos f
  rw [getLsbD_ext f n hk, wrapNat_natCast, Nat.testBit_mod_two_pow, Nat.testBit_mod_two_pow,
    decide_eq_true (by omega : f.width - 1 < f.width), Bool.true_and]
  by_cases hkw : k < f.width
  · rw [if_pos hkw, if_pos hkw, decide_eq_true hkw, Bool.true_and]
  · rw [if_neg hkw, if_neg hkw]

theorem toInt_ext {f : Fmt} (hf : f.signed = true) (x : Int) : (ext f x).toInt = wrapTo f x := by
  rw [ext_eq, wrapTo_eq, if_pos hf, if_pos hf, BitVec.toInt_signExtend_of_le (width_le_64 f)]

theorem toNat_ext {f : Fmt} (hf : ¬ f.signed = true) (x : Int) : ((ext f x).toNat : Int) = wrapTo f x := by
  rw [ext_eq, wrapTo_eq, if_neg hf, if_neg hf, BitVec.toNat_setWidth_of_le (width_le_64 f)]

/-! ## Counts (R78) -/

theorem pattern_lt (o : SOps) (x : Word) : pattern o x < 2 ^ o.fmt.width := (BitVec.ofInt o.fmt.width _).isLt

/-- A count of at most w fits in 64 bits. -/
theorem toNat_count {f : Fmt} {n : Nat} (h : n ≤ f.width) : (BitVec.ofNat 64 n).toNat = n := by
  have := width_le_64 f
  exact Nat.mod_eq_of_lt (by omega)

/-- The leading zeros of a pattern that is not zero. -/
theorem clzNat_spec {w a : Nat} (ha : a ≠ 0) (hlt : a < 2 ^ w) :
    clzNat w a < w ∧ 2 ^ (w - 1 - clzNat w a) ≤ a ∧ a < 2 ^ (w - clzNat w a) := by
  have hl : Nat.log2 a < w := (Nat.log2_lt ha).2 hlt
  rw [clzNat, if_neg ha, show w - 1 - (w - 1 - Nat.log2 a) = Nat.log2 a by omega,
    show w - (w - 1 - Nat.log2 a) = Nat.log2 a + 1 by omega]
  exact ⟨by omega, Nat.log2_self_le ha, Nat.lt_log2_self⟩

/-- 2^n divides a number exactly when its n lowest bits are clear. -/
theorem two_pow_dvd_iff (n a : Nat) : 2 ^ n ∣ a ↔ ∀ j < n, a.testBit j = false := by
  rw [Nat.dvd_iff_mod_eq_zero]
  constructor
  · intro h j hj
    have hb := Nat.testBit_mod_two_pow a n j
    rw [h, Nat.zero_testBit, decide_eq_true hj, Bool.true_and] at hb
    exact hb.symm
  · intro h
    refine Nat.eq_of_testBit_eq fun j => ?_
    rw [Nat.testBit_mod_two_pow, Nat.zero_testBit]
    by_cases hj : j < n
    · rw [h j hj, Bool.and_false]
    · rw [decide_eq_false hj, Bool.false_and]

/-- The trailing zeros of a pattern that is not zero. -/
theorem ctzNat_spec {w a : Nat} (ha : a ≠ 0) (hlt : a < 2 ^ w) :
    ctzNat w a < w ∧ 2 ^ ctzNat w a ∣ a ∧ ¬ 2 ^ (ctzNat w a + 1) ∣ a := by
  obtain ⟨n, hn, hfind⟩ : ∃ n < w, (List.range w).find? (fun i => a.testBit i) = some n := by
    obtain ⟨j, hj⟩ := Nat.exists_testBit_of_ne_zero ha
    have hjw : j < w := Nat.lt_of_not_le fun h =>
      absurd hj (by simp [Nat.testBit_lt_two_pow (hlt.trans_le (Nat.pow_le_pow_right two_pos h))])
    have hsome : ((List.range w).find? fun i => a.testBit i).isSome :=
      List.find?_isSome.2 ⟨j, List.mem_range.2 hjw, hj⟩
    obtain ⟨n, hn⟩ := Option.isSome_iff_exists.1 hsome
    exact ⟨n, List.mem_range.1 (List.mem_of_find?_eq_some hn), hn⟩
  obtain ⟨hbit, -, hbelow⟩ := List.find?_range_eq_some.1 hfind
  rw [ctzNat, hfind, Option.getD_some]
  refine ⟨hn, (two_pow_dvd_iff n a).2 fun j hj => by simpa using hbelow j hj, fun h => ?_⟩
  exact absurd ((two_pow_dvd_iff (n + 1) a).1 h n n.lt_succ_self) (by simp [hbit])

theorem clzNat_zero (w : Nat) : clzNat w 0 = w := if_pos rfl

theorem ctzNat_zero (w : Nat) : ctzNat w 0 = w := by
  rw [ctzNat, List.find?_eq_none.2 (by simp), Option.getD_none]

theorem popcNat_eq (w a : Nat) : popcNat w a = ((Finset.range w).filter fun k => a.testBit k = true).card := by
  simp [popcNat, Finset.card, Finset.filter, Finset.range, Multiset.range]

theorem clzNat_le (w a : Nat) : clzNat w a ≤ w := by
  unfold clzNat
  split <;> omega

theorem ctzNat_le {w a : Nat} (hlt : a < 2 ^ w) : ctzNat w a ≤ w := by
  by_cases ha : a = 0
  · rw [ha, ctzNat_zero]
  · exact (ctzNat_spec ha hlt).1.le

theorem popcNat_le (w a : Nat) : popcNat w a ≤ w :=
  (List.length_filter_le _ _).trans_eq List.length_range

/-- A count of the pattern of A that is at most w completes with it. -/
theorem unaryResult_countAlu {i : Instr} {c : Ctl} {o : SOps} (f : Nat → Nat → Nat) {P : Word → Word → Prop}
    (he : ∀ s, exec i s = guarded c s (alu i o.a .none o.d (countAlu o f)))
    (hle : ∀ x, f o.fmt.width (pattern o x) ≤ o.fmt.width)
    (hP : ∀ x r, r.toNat = f o.fmt.width (pattern o x) → P x r) : UnaryResult i c o.a o.d P :=
  unaryResult_of (fun x => BitVec.ofNat 64 (f o.fmt.width (pattern o x))) he fun x => hP x _ (toNat_count (hle x))

/-! ## Bit fields (R79) -/

/-- The field that bfx extracts, read with the sign of the format. -/
def fieldOf (o : SOps) (pos len1 : BitVec 6) (x : Word) : Word :=
  let f := pattern o x / 2 ^ pos.toNat % 2 ^ (len1.toNat + 1)
  BitVec.ofInt 64 (if o.fmt.signed then signedOf (len1.toNat + 1) f else (f : Int))

theorem getLsbD_fieldOf (o : SOps) (pos len1 : BitVec 6) (x : Word) {k : Nat} (hk : k < 64) :
    (fieldOf o pos len1 x).getLsbD k =
      if k ≤ len1.toNat then (pattern o x).testBit (pos.toNat + k)
      else o.fmt.signed && (pattern o x).testBit (pos.toNat + len1.toNat) := by
  have hbit (j : Nat) : (pattern o x / 2 ^ pos.toNat % 2 ^ (len1.toNat + 1)).testBit j =
      (decide (j < len1.toNat + 1) && (pattern o x).testBit (pos.toNat + j)) := by
    rw [Nat.testBit_mod_two_pow, Nat.testBit_div_two_pow, Nat.add_comm pos.toNat]
  rw [fieldOf]
  generalize pattern o x / 2 ^ pos.toNat % 2 ^ (len1.toNat + 1) = f at hbit ⊢
  cases o.fmt.signed
  · rw [if_neg Bool.false_ne_true, BitVec.ofInt_natCast, BitVec.getLsbD_ofNat, hbit]
    by_cases hl : k ≤ len1.toNat <;> simp [hk, hl]
  · rw [if_pos rfl, signedOf_eq_toInt]
    change ((BitVec.ofNat (len1.toNat + 1) f).signExtend 64).getLsbD k = _
    rw [BitVec.getLsbD_signExtend, BitVec.msb_eq_getLsbD_last, BitVec.getLsbD_ofNat, BitVec.getLsbD_ofNat, hbit, hbit]
    by_cases hl : k ≤ len1.toNat <;> simp [hk, hl]

/-- The pattern d whose field of len1 + 1 bits at pos holds those of a. -/
def replaced (pos len1 : BitVec 6) (d a : Nat) : Nat :=
  d % 2 ^ pos.toNat + a % 2 ^ (len1.toNat + 1) * 2 ^ pos.toNat +
    d / (2 ^ pos.toNat * 2 ^ (len1.toNat + 1)) * (2 ^ pos.toNat * 2 ^ (len1.toNat + 1))

theorem testBit_replaced (pos len1 : BitVec 6) (d a j : Nat) :
    (replaced pos len1 d a).testBit j =
      if pos.toNat ≤ j ∧ j ≤ pos.toNat + len1.toNat then a.testBit (j - pos.toNat) else d.testBit j := by
  have hbits := put_bits d a pos.toNat (len1.toNat + 1) j
  rw [Nat.pow_add 2 pos.toNat, Nat.add_assoc, Nat.add_comm (_ * _), Nat.add_comm (_ * _)] at hbits
  rw [replaced, hbits]
  grind

theorem exec_bfi (c : Ctl) (o : SOps) (pos len1 : BitVec 6) (s : State) :
    exec (.bfi c o pos len1) s = execBfi c o pos len1 s := rfl

/-- bfi completes with Ext of the old pattern, whose field the pattern of A has replaced. -/
theorem bfi_completes {c : Ctl} {o : SOps} (pos len1 : BitVec 6) {s : State} {x : Word} {h : Hart} {n : BitVec 6} {m : Mods}
    (hd : o.d = .s n m) (hg : s.hart.guard c = true) (ht : takeS o.a s.hart = some (x, h)) :
    exec (.bfi c o pos len1) s = .next (completed s (h.ws n.toNat (ext o.fmt (replaced pos len1
      (wrapNat o.fmt.width (opnd o.fmt false Mods.none (s.hart.rs n.toNat)).1) (pattern o x) : Nat)))) := by
  have hs : Sources o.a .none s.hart x 0 h := ⟨h, ht, rfl⟩
  rw [exec_bfi, execBfi, guarded_on _ hg, hd, alu_completes _ _ hs]
  rw [flag_none]
  rfl

/-- The old pattern of bfi is the destination's as the format reads it. -/
theorem wrapNat_opnd_none (f : Fmt) (x : Word) :
    wrapNat f.width (opnd f false Mods.none x).1 = wrapNat f.width (fmtRead f x.toNat) := by
  rw [opnd, show swz64 Mods.none.swz x = x from swz64_zero x]
  exact wrapNat_wrapTo f _

/-! ## Extensions (R80) -/

/-- The form of a legal instruction is one of its own (R35). -/
theorem formOk_of_wf {i : Instr} (hw : i.wf = true) : i.formOk = true := by
  obtain ⟨c, -, -, hform⟩ := ctl_of_wf hw
  exact hform

/-- A legal instruction of one source has one of its formats. -/
theorem fmts_of_sops1Ok {fmts : Fmt → Bool} {o : SOps} (h : sops1Ok fmts o = true) : fmts o.fmt = true := by
  simp only [sops1Ok, Bool.and_eq_true] at h
  tauto

/-- The formats of sext are signed. -/
theorem signed_of_sext {c : Ctl} {o : SOps} (hw : Instr.wf (.sext c o) = true) : o.fmt.signed = true := by
  have hf := fmts_of_sops1Ok (fmts := fun f => decide (f = .i8) || decide (f = .i16) || decide (f = .i32)) (formOk_of_wf hw)
  revert hf
  cases o.fmt <;> decide

/-- The formats of zext are natural. -/
theorem unsigned_of_zext {c : Ctl} {o : SOps} (hw : Instr.wf (.zext c o) = true) : ¬ o.fmt.signed = true := by
  have hf := fmts_of_sops1Ok (fmts := fun f => decide (f = .n8) || decide (f = .n16) || decide (f = .n32)) (formOk_of_wf hw)
  revert hf
  cases o.fmt <;> decide

/-- Settles O8: the counts are those of the pattern, and bits of a field or of an extension are those of `getLsbD_ext`. -/
theorem countsAndFields : Obligations.CountsAndFields := by
  refine ⟨fun c o _ => ⟨?clz, ?ctz, ?popc⟩, fun c o pos len1 => ⟨fun _ => ?bfx, fun hw s x h n m hd hg ht => ?bfi,
    fun hw => ?sext, fun hw => ?zext⟩⟩
  case clz =>
    refine unaryResult_countAlu clzNat (fun _ => rfl) (fun x => clzNat_le _ _) fun x r hr => ?_
    rw [hr]
    split
    · next h0 => rw [h0, clzNat_zero]
    · next h0 => exact clzNat_spec h0 (pattern_lt o x)
  case ctz =>
    refine unaryResult_countAlu ctzNat (fun _ => rfl) (fun x => ctzNat_le (pattern_lt o x)) fun x r hr => ?_
    rw [hr]
    split
    · next h0 => rw [h0, ctzNat_zero]
    · next h0 => exact ctzNat_spec h0 (pattern_lt o x)
  case popc =>
    refine unaryResult_countAlu popcNat (fun _ => rfl) (fun x => popcNat_le _ _) fun x r hr => ?_
    rw [hr, popcNat_eq]
  case bfx => exact unaryResult_of (fieldOf o pos len1) (fun _ => rfl) fun x k hk => getLsbD_fieldOf o pos len1 x hk
  case bfi =>
    refine ⟨_, bfi_completes pos len1 hd hg ht, fun k hk => ?_⟩
    rw [getLsbD_ext_natCast _ _ hk, wrapNat_opnd_none]
    simp only [testBit_replaced]
  case sext =>
    refine unaryResult_of (fun x => ext o.fmt (opnd o.fmt false o.a.mods x).1) (fun _ => rfl) fun x => ?_
    rw [toInt_ext (signed_of_sext hw), wrapTo_opnd]
  case zext =>
    refine unaryResult_of (fun x => ext o.fmt (opnd o.fmt false o.a.mods x).1) (fun _ => rfl) fun x => ?_
    rw [toNat_ext (unsigned_of_zext hw), wrapTo_opnd]

end Sys2Proof.Proofs
end

section
/-! PROOFS. Moves, selection, predicates and transfers of control of the scalar stream (R31, R71, R81 to R90). -/

namespace Sys2Proof.Proofs

open Sys2Proof.Machine Sys2Proof.Safety

/-- With a true guard an instruction of the scalar stream has its effect. -/
theorem exec_of_guard {i : Instr} {c : Ctl} {f : State → State} {s t : State} (he : exec i s = guarded c s f)
    (hg : s.hart.guard c = true) (hf : f s = t) : exec i s = .next t := by
  rw [he, guarded_on f hg, hf]

/-! ## Moves, addresses and selection (R81, R82, R84) -/

/-- A computation that sets no flag completes with its value. -/
theorem alu_completes_plain (i : Instr) {a b d : Operand} (f : Word → Word → Word) {s : State} {x y : Word} {h h' : Hart}
    (hs : Sources a b s.hart x y h) (hp : putS d (f x y) h = some h') :
    alu i a b d (fun x y => (f x y, 0)) s = completed s h' :=
  alu_completes i _ hs ((flag_none h).symm ▸ hp)

/-- A register as the second source is read as it stands: the first one removes at most a queue entry. -/
theorem sources_then_register (n : BitVec 6) (m : Mods) {b : Operand} {h h' : Hart} {x : Word} (hb : takeS b h = some (x, h')) :
    Sources b (.s n m) h x (h.rs n.toNat) h' := by
  obtain ⟨qs, rfl⟩ := takeS_frame hb
  exact ⟨_, hb, rfl⟩

/-- Two 32-bit halves, as a number. -/
theorem halves_eq (x y : Word) :
    x.extractLsb' 0 32 ++ y.extractLsb' 0 32 = BitVec.ofNat 64 (x.toNat % 2 ^ 32 * 2 ^ 32 + y.toNat % 2 ^ 32) := by
  apply BitVec.eq_of_toNat_eq
  rw [BitVec.toNat_append, BitVec.extractLsb'_toNat, BitVec.extractLsb'_toNat, Nat.shiftRight_zero, Nat.shiftRight_zero,
    ← Nat.shiftLeft_add_eq_or_of_lt (Nat.mod_lt _ (by decide)), Nat.shiftLeft_eq, BitVec.toNat_ofNat]
  omega

/-- The address of lea. -/
theorem leaAddress_eq (x y : Word) (sh : BitVec 3) (disp : BitVec 15) :
    x + y <<< sh.toNat + disp.signExtend 64 = x + y * BitVec.ofNat 64 (2 ^ sh.toNat) + BitVec.ofInt 64 disp.toInt := by
  have hp : BitVec.twoPow 64 sh.toNat = BitVec.ofNat 64 (2 ^ sh.toNat) := BitVec.eq_of_toNat_eq (by simp)
  rw [BitVec.shiftLeft_eq_mul_twoPow, hp]
  rfl

/-- Settles O9: each is a computation that sets no flag. -/
theorem moves : Obligations.Moves := by
  refine ⟨fun c d b => unaryResult_of id (fun _ => rfl) fun _ => rfl, fun c d b s x h hg ht => ?lih,
    fun c d a => unaryResult_of (swz64 a.mods.swz) (fun _ => rfl) fun _ => rfl,
    fun c d a b sh disp s y h hg ht => ?lea, fun c d a b neg pn s x y h hg hs hr => ?sel⟩
  case lih =>
    rw [← halves_eq]
    exact exec_of_guard rfl hg ((alu_completes_plain (.lih c d b)
      (fun x y => x.extractLsb' 0 32 ++ y.extractLsb' 0 32) (sources_then_register d Mods.none ht) rfl))
  case lea =>
    rw [← leaAddress_eq]
    exact exec_of_guard rfl hg ((alu_completes_plain (.lea c d a b sh disp)
      (fun x y => x + y <<< sh.toNat + disp.signExtend 64) (sources_register a Mods.none ht) rfl))
  case sel =>
    obtain ⟨h', hp⟩ := putS_room hr
      (if xor neg (s.hart.rp pn.toNat) then swz64 a.mods.swz x else swz64 b.mods.swz y)
    exact ⟨h', hp, exec_of_guard rfl hg ((alu_completes_plain (.sel c d a b neg pn)
      (fun x y => if xor neg (s.hart.rp pn.toNat) then swz64 a.mods.swz x else swz64 b.mods.swz y) hs hp))⟩

/-! ## Predicates (R31, R83, R85) -/

/-- A comparison of natural numbers, relation by relation. -/
theorem relHolds64_natural (r : Rel) (x y : Word) : relHolds64 r true x y =
    match r with
    | .eq => decide (x = y) | .ne => decide (x ≠ y) | .lt => x.ult y | .ge => y.ule x | .le => x.ule y | .gt => y.ult x := by
  cases r <;> simp [relHolds64, relHolds, BitVec.ult, BitVec.ule, BitVec.toNat_inj]

/-- A comparison of signed numbers, relation by relation. -/
theorem relHolds64_signed (r : Rel) (x y : Word) : relHolds64 r false x y =
    match r with
    | .eq => decide (x = y) | .ne => decide (x ≠ y) | .lt => x.slt y | .ge => y.sle x | .le => x.sle y | .gt => y.slt x := by
  cases r <;> simp [relHolds64, relHolds, BitVec.slt, BitVec.sle, BitVec.toInt_inj]

/-- cmp completes with the outcome of its relation. -/
theorem cmp_completes {c : Ctl} (r : Rel) (nat : Bool) (d : BitVec 3) (a : BitVec 6) {b : Operand} {s : State} {y : Word} {h : Hart}
    (hg : s.hart.guard c = true) (ht : takeS b s.hart = some (y, h)) :
    exec (.cmp c r nat d a b) s = .next (completed s (h.wp d.toNat (relHolds64 r nat (s.hart.rs a.toNat) y))) :=
  exec_of_guard rfl hg ((withSources_of _ _ (sources_register a Mods.none ht)))

theorem exec_pand (c : Ctl) (d a b : BitVec 3) (s : State) : exec (.pand c d a b) s = execPand c d a b s := rfl

theorem exec_por (c : Ctl) (d a b : BitVec 3) (s : State) : exec (.por c d a b) s = execPor c d a b s := rfl

theorem exec_pxor (c : Ctl) (d a b : BitVec 3) (s : State) : exec (.pxor c d a b) s = execPxor c d a b s := rfl

theorem exec_pnot (c : Ctl) (d a : BitVec 3) (s : State) : exec (.pnot c d a) s = execPnot c d a s := rfl

/-- Settles O10: `cmp_completes`, and the function of each predicate instruction as its guard lets it run. -/
theorem predicates : Obligations.Predicates := by
  refine ⟨fun c r nat d a b s y h hg ht => ?cmp, fun c d a b s hg => ⟨?pand, ?por, ?pxor, ?pnot⟩⟩
  case pand => exact exec_of_guard (exec_pand c d a b s) hg rfl
  case por => exact exec_of_guard (exec_por c d a b s) hg rfl
  case pxor => exact exec_of_guard (exec_pxor c d a b s) hg rfl
  case pnot => exact exec_of_guard (exec_pnot c d a s) hg rfl
  rw [cmp_completes r nat d a hg ht]
  cases nat
  · rw [relHolds64_signed]
    rfl
  · rw [relHolds64_natural]
    rfl

/-! ## Transfers of control (R86 to R90) -/

theorem linkOf_eq (s : State) : linkOf s = BitVec.ofNat 64 (s.hart.pc + 12).toNat := by
  apply BitVec.eq_of_toNat_eq
  rw [linkOf, pcWord, BitVec.toNat_append, BitVec.toNat_ofNat]
  have := (s.hart.pc + 12).isLt
  simp only [BitVec.toNat_ofNat, Nat.zero_mod, Nat.zero_shiftLeft, Nat.zero_or]
  omega

/-- Bits 1:0 of an address are zero exactly when 4 divides it. -/
theorem aligned_iff (t : Word) : t.extractLsb' 0 2 = 0 ↔ t.toNat % 4 = 0 := by
  rw [← BitVec.toNat_inj, BitVec.extractLsb'_toNat, Nat.shiftRight_zero]
  rfl

/-- The address of an aligned target. -/
theorem pcOf_aligned {t : Word} (ht : t.toNat % 4 = 0) : pcOf t = BitVec.ofNat 57 t.toNat := by
  have hlow (k : Nat) (hk : k < 2) : t.getLsbD k = false := by
    have hb := congrArg (fun b => b.getLsbD k) ((aligned_iff t).2 ht)
    simpa [hk] using hb
  have hmask : t &&& ~~~(3 : Word) = t := by
    apply BitVec.eq_of_getLsbD_eq
    intro k hk
    rw [BitVec.getLsbD_and, BitVec.getLsbD_not, decide_eq_true hk, Bool.true_and]
    match k with
    | 0 => rw [hlow 0 (by decide), Bool.false_and]
    | 1 => rw [hlow 1 (by decide), Bool.false_and]
    | k + 2 =>
      have h3 : (3 : Word).getLsbD (k + 2) = false := by simp [BitVec.getLsbD_ofNat, Nat.testBit_succ]
      rw [h3, Bool.not_false, Bool.and_true]
  rw [pcOf, pcField, hmask]
  exact BitVec.eq_of_toNat_eq (by simp [BitVec.extractLsb'_toNat])

/-- An indirect transfer to an aligned target goes there once the link is written. -/
theorem indirect_aligned {t : Word} (ht : t.toNat % 4 = 0) (link : State → State) (s : State) :
    indirect t link s = jumped (link s) (BitVec.ofNat 57 t.toNat) := by
  rw [indirect, if_neg (not_not.2 ((aligned_iff t).2 ht)), pcOf_aligned ht]
  rfl

/-- An indirect transfer to a misaligned target traps, and no link is written. -/
theorem indirect_misaligned {t : Word} (ht : t.toNat % 4 ≠ 0) (link : State → State) (s : State) :
    indirect t link s = s.takeTrap ⟨.misalignedTarget, t⟩ := by
  rw [indirect, if_pos (mt (aligned_iff t).1 ht)]

theorem exec_dbnz (c : Ctl) (d : BitVec 6) (disp : BitVec 32) (s : State) : exec (.dbnz c d disp) s = execDbnz c d disp s := rfl

/-- dbnz counts its register down and branches unless that leaves zero. -/
theorem dbnz_completes {c : Ctl} {d : BitVec 6} (disp : BitVec 32) {s : State} (hg : s.hart.guard c = true) :
    exec (.dbnz c d disp) s = .next
      (let h := s.hart.ws d.toNat (s.hart.rs d.toNat - 1)
       if s.hart.rs d.toNat = 1 then completed s h
       else jumped { s with hart := h } (s.hart.pc + BitVec.ofInt 57 disp.toInt)) := by
  have hpc (v : Word) : (s.hart.ws d.toNat v).pc = s.hart.pc := by rw [Hart.ws_eq]
  refine exec_of_guard (exec_dbnz c d disp s) hg ?_
  by_cases h1 : s.hart.rs d.toNat = 1
  · rw [if_pos h1, if_neg (by simp [h1])]
    rfl
  · rw [if_neg h1, if_pos (sub_ne_zero.2 h1)]
    dsimp only [State.onH]
    rw [hpc]
    rfl

theorem exec_call (c : Ctl) (d : BitVec 6) (disp : BitVec 32) (s : State) : exec (.call c d disp) s = execCall c d disp s := rfl

theorem exec_calll (c : Ctl) (d : BitVec 6) (disp : BitVec 64) (s : State) : exec (.calll c d disp) s = execCalll c d disp s := rfl

theorem exec_jcall (c : Ctl) (d : BitVec 6) (a : SSrc) (s : State) : exec (.jcall c d a) s = execJcall c d a s := rfl

theorem exec_jr (c : Ctl) (a : SSrc) (s : State) : exec (.jr c a) s = execJr c a s := rfl

theorem exec_ret (c : Ctl) (a : SSrc) (s : State) : exec (.ret c a) s = execRet c a s := rfl

/-- Settles O11: direct targets are computed at the issue, and indirect ones are aligned or trap. -/
theorem transfers : Obligations.Transfers := by
  refine ⟨⟨fun c d s hg => exec_of_guard rfl hg rfl, fun c d s hg => exec_of_guard rfl hg rfl, fun c d disp s hg => ?call,
    fun c d disp s hg => ?calll, fun c r nat a b d s y h hg ht => ?bc, fun c d disp s hg _ => dbnz_completes disp hg⟩,
    fun c d a s hg => ⟨fun ht => ⟨?jcall, ?jr, ?ret⟩, fun ht => ⟨?_, ?_, ?_⟩⟩⟩
  case call => exact linkOf_eq s ▸ exec_of_guard (exec_call c d disp s) hg rfl
  case calll => exact linkOf_eq s ▸ exec_of_guard (exec_calll c d disp s) hg rfl
  case bc => exact exec_of_guard rfl hg (withSources_of _ _ (sources_register a Mods.none ht))
  case jcall => exact linkOf_eq s ▸ exec_of_guard (exec_jcall c d a s) hg (indirect_aligned ht _ s)
  case jr => exact exec_of_guard (exec_jr c a s) hg (indirect_aligned ht id s)
  case ret => exact exec_of_guard (exec_ret c a s) hg (indirect_aligned ht id s)
  · exact exec_of_guard (exec_jcall c d a s) hg (indirect_misaligned ht _ s)
  · exact exec_of_guard (exec_jr c a s) hg (indirect_misaligned ht id s)
  · exact exec_of_guard (exec_ret c a s) hg (indirect_misaligned ht id s)

end Sys2Proof.Proofs
end

section
/-! PROOFS. Why WaitsEnd fails: a queued instruction and a trace that already knows its number (R170, R172, R314, R315). -/

namespace Sys2Proof.Proofs

open Sys2Proof.Machine Sys2Proof.Safety

/-- The guard p0, which is true, and no hint. -/
def always : Ctl := ⟨false, 0, 0, false⟩

/-- A record of an access to a word at 0x1000, still to be placed by the queued instruction of number 0. -/
def pendingRecord : TraceRec where
  iter := 0
  pc := 0
  instr := .mwait always none
  on := true
  val := false
  acc := some (0x1000, 4)
  pa := 0
  far := false
  ok := true
  queued := some 0

/-- A running hart in training, whose trace holds that record while it has issued nothing: number 0 is the next. -/
def recordedAhead : State :=
  { State.reset with hart := { Hart.reset with
      run := .running
      mark := { Mark.reset with state := .training, trace := [pendingRecord] } } }

/-- The numbers of queued instructions that the trace of the focused hart waits for. -/
def traceNumbers (s : State) : List (Option Nat) := s.hart.mark.trace.map TraceRec.queued

theorem exec_mwait (c : Ctl) (n : Option (BitVec 2)) (s : State) : exec (.mwait c n) s = execMwait c n s := rfl

/-- mwait of every slot completes at its issue where nothing keeps it from its effect (R156). -/
theorem mwait_issues {c : Ctl} {s : State} (hi : Issues c s) : exec (.mwait c none) s = .next s.issued := by
  rw [exec_mwait, execMwait]
  exact issueV_done hi rfl

/-- The mwait of `recordedAhead` as an entry of the queue. -/
def aheadEntry : VEntry := ⟨0, .mwait always none, recordedAhead.envOf (.mwait always none), none, false⟩

/-- `recordedAhead` once its mwait has entered the queue. -/
def aheadQueued : State :=
  { recordedAhead.issued with hart := { recordedAhead.issued.hart with vcq := [aheadEntry] } }

/-- Performed from the queue, the instruction places the record, which then waits for no number. -/
theorem aheadQueued_vectorStep : aheadQueued.vectorStep.map traceNumbers = some [none] := by
  decide +kernel

/-- Refutes O54: an instruction that issues to an idle queue leaves the trace of a training as it is, and one that is performed
from the queue places the record that waits for its number. The two differ in `recordedAhead`, whose trace waits for the number
that the hart gives next. `noteTrace` gives a record the number of an instruction that has issued, so the statement needs a premise
that excludes such a trace, and has none. -/
theorem not_waitsEnd : ¬ Obligations.WaitsEnd := by
  intro hall
  have hi : Issues always recordedAhead := ⟨rfl, rfl, rfl⟩
  obtain ⟨-, -, -, -, -, -, -, hqueue, -⟩ := hall 0 recordedAhead
  have hstep := (hqueue (.mwait always none) always recordedAhead.issued rfl rfl (fun _ _ _ _ _ h => nomatch h) hi rfl
    (by decide +kernel) (mwait_issues hi)).1 rfl
  have hn := congrArg (Option.map traceNumbers) hstep
  have : some [none] = some [some 0] := aheadQueued_vectorStep.symm.trans hn
  exact absurd this (by decide)

end Sys2Proof.Proofs
end

section
/-! PROOFS. Comparisons into masks, mask logic, counts and searches (R101, R113, R121, R132, R133). -/

namespace Sys2Proof.Proofs

open Sys2Proof.Machine Sys2Proof.Safety

/-! ## The mask bits of an element (R101) -/

theorem pack_bits (f : Fmt) : f.pack * (8 / f.pack) = 8 := by cases f <;> decide

/-- Bit i of the w bits of a byte from place S on. -/
theorem getLsbD_maskField (w S : Nat) {i : Nat} (hi : i < 8) :
    (BitVec.ofNat 8 ((2 ^ w - 1) * 2 ^ S)).getLsbD i = decide (S ≤ i ∧ i - S < w) := by
  rw [BitVec.getLsbD_ofNat, Nat.testBit_mul_two_pow, Nat.testBit_two_pow_sub_one, decide_eq_true hi, Bool.true_and,
    Bool.decide_and]

/-- Setting bits of a byte to b. -/
theorem getLsbD_setBits (old m : Byte) (b : Bool) {i : Nat} (hi : i < 8) :
    (if b then old ||| m else old &&& ~~~m).getLsbD i = if m.getLsbD i then b else old.getLsbD i := by
  cases b
  · rw [if_neg Bool.false_ne_true, BitVec.getLsbD_and, BitVec.getLsbD_not, decide_eq_true hi]
    cases m.getLsbD i <;> simp
  · rw [if_pos rfl, BitVec.getLsbD_or]
    cases m.getLsbD i <;> simp

/-- Elements whose mask bits lie in one byte have theirs at different places. -/
theorem inField_iff {p e e' j : Nat} (hj : j < 8 / p) : (e % p * (8 / p) ≤ e' % p * (8 / p) + j ∧
    e' % p * (8 / p) + j - e % p * (8 / p) < 8 / p) ↔ e' % p = e % p := by
  generalize 8 / p = w at *
  have hdiv : (e' % p * w + j) / w = e' % p := by
    rw [Nat.add_comm, Nat.add_mul_div_right _ _ (by omega), Nat.div_eq_of_lt hj, Nat.zero_add]
  constructor
  · rintro ⟨hle, hlt⟩
    rw [← hdiv]
    exact Nat.div_eq_of_lt_le hle (by rw [Nat.succ_mul]; omega)
  · intro h
    rw [h]
    omega

/-- Setting the mask bits of an element: they hold the value, and every other bit what it held (R101). -/
theorem maskBit_setMbits {p : Nat} (hp : p * (8 / p) = 8) (e : Nat) (b : Bool) (t : List (Nat × Byte)) (e' : Nat) {j : Nat}
    (hj : j < 8 / p) : maskBit (setMbits p e b t) p e' j = if e' = e then b else maskBit t p e' j := by
  have hp0 : 0 < p := Nat.pos_of_ne_zero fun h => by rw [h, Nat.zero_mul] at hp; exact absurd hp (by decide)
  rw [maskBit, setMbits, tget_tset]
  by_cases hc : e' / p = e / p
  · have hi : e' % p * (8 / p) + j < 8 := by
      have := Nat.mul_le_mul_right (8 / p) (Nat.succ_le_of_lt (Nat.mod_lt e' hp0))
      rw [Nat.succ_mul, hp] at this
      omega
    have hiff : e' % p = e % p ↔ e' = e :=
      ⟨fun hm => by rw [← Nat.div_add_mod e' p, ← Nat.div_add_mod e p, hc, hm], fun h => h ▸ rfl⟩
    rw [if_pos hc, getLsbD_setBits _ _ _ hi, getLsbD_maskField _ _ hi]
    simp only [inField_iff hj, hiff, decide_eq_true_eq, maskBit, hc]
  · rw [if_neg hc, if_neg fun h : e' = e => hc (h ▸ rfl)]
    rfl

/-! ## Comparisons (R113, R121) -/

/-- One element of a comparison: its mask bits and flags where it is active, zero or what they were where it is not (R110). -/
def maskStep (p : Nat) (act : Nat → Bool) (mz : Bool) (F : Nat → Bool × Flags) (acc : List (Nat × Byte) × Flags) (e : Nat) :
    List (Nat × Byte) × Flags :=
  if act e then (setMbits p e (F e).1 acc.1, acc.2 ||| (F e).2) else if mz then (setMbits p e false acc.1, acc.2) else acc

section
variable {p : Nat} (hp : p * (8 / p) = 8) (act : Nat → Bool) (mz : Bool) (F : Nat → Bool × Flags)
include hp

theorem maskBit_maskStep (acc : List (Nat × Byte) × Flags) (a e : Nat) {j : Nat} (hj : j < 8 / p) :
    maskBit (maskStep p act mz F acc a).1 p e j =
      if e = a then (if act a then (F a).1 else !mz && maskBit acc.1 p a j) else maskBit acc.1 p e j := by
  unfold maskStep
  by_cases hea : e = a
  · subst hea
    cases act e <;> cases mz <;> simp [maskBit_setMbits hp _ _ _ _ hj]
  · cases act a <;> cases mz <;> simp [maskBit_setMbits hp _ _ _ _ hj, hea]

omit hp in
theorem flags_maskStep (acc : List (Nat × Byte) × Flags) (a k : Nat) :
    (maskStep p act mz F acc a).2.getLsbD k = true ↔ acc.2.getLsbD k = true ∨ act a = true ∧ (F a).2.getLsbD k = true := by
  unfold maskStep
  cases act a <;> cases mz <;> simp

/-- The fold of a comparison, element by element. -/
theorem foldl_maskStep (l : List Nat) : ∀ acc : List (Nat × Byte) × Flags, l.Nodup →
    (∀ e j, j < 8 / p → maskBit (l.foldl (maskStep p act mz F) acc).1 p e j =
      if e ∈ l then (if act e then (F e).1 else !mz && maskBit acc.1 p e j) else maskBit acc.1 p e j) ∧
    ∀ k, (l.foldl (maskStep p act mz F) acc).2.getLsbD k = true ↔
      acc.2.getLsbD k = true ∨ ∃ e ∈ l, act e = true ∧ (F e).2.getLsbD k = true := by
  induction l with
  | nil => intro acc _; simp
  | cons a l ih =>
    intro acc hn
    obtain ⟨ha, hl⟩ := List.nodup_cons.1 hn
    obtain ⟨hbits, hflags⟩ := ih (maskStep p act mz F acc a) hl
    refine ⟨fun e j hj => ?_, fun k => ?_⟩
    · rw [List.foldl_cons, hbits e j hj, maskBit_maskStep hp act mz F acc a e hj]
      by_cases hea : e = a
      · subst hea; simp [ha]
      · simp [hea]
    · rw [List.foldl_cons, hflags, flags_maskStep]
      simp only [List.mem_cons, exists_eq_or_imp, or_assoc]

end

theorem maskNo_pm {k : BitVec 4} (hk : k.toNat < 8) : maskNo (.pm (k + 8)) = k.toNat := by
  have h8 : (8 : BitVec 4).toNat = 8 := rfl
  rw [maskNo, BitVec.toNat_add, h8]
  omega

/-- A comparison folds the outcomes of its elements into its mask. -/
theorem comparesInto_of {i : Instr} {c : Ctl} {o : VOps} {F : Rel → VSrc → VSrc → Nat → Bool × Flags}
    (h : ∀ s, exec i s = issueV i c (cmpMould o F) s) : ComparesInto i c o F := by
  intro s x y h1 k r hi hq hs hd hk hr
  let l := elements (s.envOf i) o.fmt.pack h1.vstart.toNat (o.fmt.pack * s.vlen)
  have hmem (e : Nat) : e ∈ l ↔ s.hart.vstart.toNat ≤ e ∧ e < o.fmt.pack * s.vlen := by
    rw [elements_all _ rfl, vsources_vstart hs]
    rfl
  let u := l.foldl (maskStep o.fmt.pack (active h1 o.x.msk o.x.mn o.fmt.pack) o.x.mz (F r x y)) (tget [] h1.m k.toNat, 0)
  obtain ⟨hbits, hflags⟩ := foldl_maskStep (pack_bits o.fmt) (active h1 o.x.msk o.x.mn o.fmt.pack) o.x.mz (F r x y) l
    (tget [] h1.m k.toNat, 0) (elements_nodup _ rfl _ _ _)
  refine ⟨u.1, u.2, (h s).trans (issueV_done hi ?_), fun e j hj => ?_, fun b => ?_⟩
  · refine (withV_of (s := s.issued) _ hq hs).trans ?_
    simp only [hd, maskNo_pm hk, hr, Option.getD_some]
    rfl
  · rw [hbits e j hj]
    simp only [hmem]
  · refine (hflags b).trans ?_
    simp [hmem, and_assoc]

/-! ## Mask logic (R132) -/

/-- A whole instruction without vector operands at element 0 runs. -/
theorem withV_none {v : Env} {s : State} (hv : s.hart.vstart = 0) (f : VSrc → VSrc → Hart → VRes) :
    withV true .none .none v f s = f (.scal 0) (.scal 0) s.hart :=
  withV_of f (fun _ => hv) ⟨s.hart, rfl, rfl⟩

/-- A table of which the keys of a list are set. -/
theorem tget_foldl_tset {α : Type} [DecidableEq α] (d : α) (g : Nat → α) (l : List Nat) (k : Nat) :
    ∀ t : List (Nat × α), tget d (l.foldl (fun t e => tset d t e (g e)) t) k = if k ∈ l then g k else tget d t k := by
  induction l with
  | nil => exact fun _ => rfl
  | cons a l ih =>
    intro t
    rw [List.foldl_cons, ih, tget_tset]
    by_cases hka : k = a <;> simp [hka]

/-- A combination of masks writes the positions of the vector length, and keeps the others. -/
theorem maskOp_completes {i : Instr} {c : Ctl} {d : BitVec 3} {s : State} (f : Hart → Nat → Byte)
    (h : exec i s = issueV i c (maskOp d f) s) (hi : Issues c s) (hv : s.hart.vstart = 0) :
    ∃ m, exec i s = .next (ranQueued s { s.issued.hart with m := tset [] s.hart.m d.toNat m }) ∧
      ∀ e, tget 0 m e = if e < s.vlen then f s.issued.hart e else s.hart.rmask d.toNat e := by
  refine ⟨_, h.trans (issueV_done hi (withV_none (s := s.issued) hv _)), fun e => ?_⟩
  rw [tget_foldl_tset]
  simp only [List.mem_range]
  rfl

/-! ## Counts and searches (R133) -/

/-- The counted elements of a mask, in increasing order. -/
def countedList (a : BitVec 3) (x : VX) (h : Hart) (n : Nat) : List Nat :=
  (List.range n).filter fun e => mbit h a.toNat (2 ^ (x.sel.toNat % 4)) e && active h x.msk x.mn (2 ^ (x.sel.toNat % 4)) e

/-- The counted elements of a mask as a set. -/
def countedSet (a : BitVec 3) (x : VX) (h : Hart) (n : Nat) : Finset Nat :=
  (Finset.range n).filter fun e => maskBit (tget [] h.m a.toNat) (2 ^ (x.sel.toNat % 4)) e 0 = true ∧
    active h x.msk x.mn (2 ^ (x.sel.toNat % 4)) e = true

theorem countedList_toFinset (a : BitVec 3) (x : VX) (h : Hart) (n : Nat) :
    (countedList a x h n).toFinset = countedSet a x h n := by
  ext e
  rw [List.mem_toFinset, countedList, countedSet, List.mem_filter, Finset.mem_filter, List.mem_range, Finset.mem_range,
    Bool.and_eq_true]
  rfl

theorem mem_countedList {a : BitVec 3} {x : VX} {h : Hart} {n e : Nat} :
    e ∈ countedList a x h n ↔ e ∈ countedSet a x h n := by
  rw [← countedList_toFinset, List.mem_toFinset]

theorem countedList_increasing (a : BitVec 3) (x : VX) (h : Hart) (n : Nat) : (countedList a x h n).Pairwise (· < ·) :=
  List.pairwise_lt_range.filter _

theorem countedList_length (a : BitVec 3) (x : VX) (h : Hart) (n : Nat) :
    (countedList a x h n).length = (countedSet a x h n).card := by
  rw [← countedList_toFinset, List.toFinset_card_of_nodup ((countedList_increasing a x h n).imp Nat.ne_of_lt)]

/-- The answer of mfirst: the first of a list, or all ones. -/
def firstOr (l : List Nat) : Word := match l with | [] => BitVec.allOnes 64 | e :: _ => BitVec.ofNat 64 e

/-- The first of an increasing list is its least. -/
theorem firstOr_least {l : List Nat} (hl : l.Pairwise (· < ·)) {e : Nat} (he : e ∈ l) (hmin : ∀ j ∈ l, e ≤ j)
    (hlt : e < 2 ^ 64) : (firstOr l).toNat = e := by
  cases l with
  | nil => exact absurd he List.not_mem_nil
  | cons a l =>
    have hae : a = e := by
      rcases List.mem_cons.1 he with rfl | he
      · rfl
      · exact absurd ((List.pairwise_cons.1 hl).1 e he) (Nat.not_lt.2 (hmin a List.mem_cons_self))
    rw [firstOr, hae, BitVec.toNat_ofNat, Nat.mod_eq_of_lt hlt]

/-- The elements of a mask are few: a vector length has 11 bits. -/
theorem elements_lt (s : State) (k : Nat) : 2 ^ (k % 4) * s.vlen < 2 ^ 64 := by
  have hv : s.vlen < 2 ^ 11 := (Nat.min_le_left _ _).trans_lt s.hart.vl.isLt
  have hp : 2 ^ (k % 4) ≤ 2 ^ 3 := Nat.pow_le_pow_right (by decide) (by omega)
  calc 2 ^ (k % 4) * s.vlen ≤ 2 ^ 3 * 2 ^ 11 := Nat.mul_le_mul hp hv.le
    _ < 2 ^ 64 := by decide

/-- An inspection of a mask delivers what f makes of the counted elements. -/
theorem maskScan_completes {i : Instr} {c : Ctl} {d : Operand} {a : BitVec 3} {x : VX} {s : State} (f : List Nat → Word)
    (h : exec i s = issueV i c (maskScan d a x f) s) (hi : Issues c s) (hv : s.hart.vstart = 0) (hr : Room d s.hart) :
    ∃ h', putS d (f (countedList a x s.hart (2 ^ (x.sel.toNat % 4) * s.vlen))) s.issued.hart = some h' ∧
      exec i s = .next (ranQueued s h') := by
  obtain ⟨h', hp⟩ := putS_room (h := s.issued.hart) hr (f (countedList a x s.hart (2 ^ (x.sel.toNat % 4) * s.vlen)))
  refine ⟨h', hp, h.trans (issueV_done hi ((withV_none (s := s.issued) hv _).trans ?_))⟩
  have hfin : finishS s.issued d (f (countedList a x s.hart (2 ^ (x.sel.toNat % 4) * s.vlen))) s.issued.hart =
      .done (ranQueued s h') := by
    rw [finishS, hp]
    rfl
  exact hfin

/-- Settles O31: comparisons, mask logic, and the counted elements as a list and as a set. -/
theorem vectorMasks : Obligations.VectorMasks := by
  refine ⟨fun c o _ => ⟨comparesInto_of fun _ => rfl, comparesInto_of fun _ => rfl⟩, fun c d a b s hi hv =>
    ⟨maskOp_completes (i := .mand c d a b) (fun h e => h.rmask a.toNat e &&& h.rmask b.toNat e) rfl hi hv,
      maskOp_completes (i := .mor c d a b) (fun h e => h.rmask a.toNat e ||| h.rmask b.toNat e) rfl hi hv,
      maskOp_completes (i := .mnot c d a) (fun h e => ~~~h.rmask a.toNat e) rfl hi hv, fun od x hr => ⟨?mpopc, ?mfirst⟩⟩⟩
  case mpopc =>
    have h := maskScan_completes (i := .mpopc c od a x) (a := a) (x := x) (fun l => BitVec.ofNat 64 l.length) rfl hi hv hr
    rw [countedList_length] at h
    exact h
  case mfirst =>
    let l := countedList a x s.hart (2 ^ (x.sel.toNat % 4) * s.vlen)
    obtain ⟨h', hp, hx⟩ := maskScan_completes (i := .mfirst c od a x) (a := a) (x := x) firstOr rfl hi hv hr
    refine ⟨firstOr l, h', hp, hx, fun hnone => ?_, fun e he hmin => ?_⟩
    · have hl : l = [] := (List.toFinset_eq_empty_iff _).1 ((countedList_toFinset _ _ _ _).trans hnone)
      rw [hl]
      rfl
    · have hlt : e < 2 ^ (x.sel.toNat % 4) * s.vlen := Finset.mem_range.1 (Finset.mem_filter.1 he).1
      exact firstOr_least (countedList_increasing _ _ _ _) (mem_countedList.2 he)
        (fun j hj => hmin j (mem_countedList.1 hj)) (hlt.trans (elements_lt s _))

end Sys2Proof.Proofs
end

section
/-! PROOFS. Permutes, compress and expand (R105, R123). -/

namespace Sys2Proof.Proofs

open Sys2Proof.Machine Sys2Proof.Safety

/-! ## Whole instructions with a vector result -/

/-- A destination with room takes the result of an instruction that sets no flag. -/
theorem finishV_done {d : Operand} {h : Hart} (hr : VRoom d h) (s : State) (t : List (Nat × Elem)) :
    ∃ h', finishV s d t h = .done { s with hart := h' } ∧ putV d t { h with vstart := 0 } = .ok h' := by
  have hr' : VRoom d { h with vstart := 0 } := by cases d <;> exact hr
  obtain ⟨h', hp⟩ := putV_room hr' t
  exact ⟨h', by simp only [finishV, hp], hp⟩

/-- A whole instruction at element 0 completes with the vector T that it makes of its sources (R105). -/
theorem whole_completes {i : Instr} {c : Ctl} {o : VOps} {run : Env → State → VRes}
    (T : VSrc → VSrc → Hart → List (Nat × Elem)) {s : State} {x y : VSrc} {h : Hart} (hx : exec i s = issueV i c run s)
    (hrun : run (s.envOf i) s.issued =
      withV true o.a o.b (s.envOf i) (fun x y h => finishV s.issued o.d (T x y h) h) s.issued)
    (hi : Issues c s) (hv : s.hart.vstart = 0) (hs : VSources o.a o.b (s.envOf i) s.issued.hart x y h) (hr : VRoom o.d h) :
    ∃ h', exec i s = .next (ranQueued s h') ∧ putV o.d (T x y h) { h with vstart := 0 } = .ok h' := by
  obtain ⟨h', hfin, hput⟩ := finishV_done hr s.issued (T x y h)
  refine ⟨h', hx.trans (issueV_done hi ?_), hput⟩
  exact hrun.trans ((withV_of (s := s.issued) _ (fun _ => hv) hs).trans hfin)

/-! ## Permutes -/

/-- The vector of a permute: each active element in turn (R123). -/
def permuted (f : Fmt) (act : Nat → Bool) (mz : Bool) (G : Nat → Nat) (n : Nat) (t : List (Nat × Elem)) : List (Nat × Elem) :=
  (List.range n).foldl (fun t e => if act e then setElem f e (G e) t else if mz then setElem f e 0 t else t) t

/-- A permute is the elementwise mould without flags. -/
theorem permuted_eq_mould (f : Fmt) (act : Nat → Bool) (mz : Bool) (G : Nat → Nat) (n : Nat) (t : List (Nat × Elem)) :
    permuted f act mz G n t = ((List.range n).foldl (mouldStep f act mz fun e => (G e, 0)) (t, 0)).1 := by
  refine List.foldl_hom Prod.fst (init := (t, (0 : Flags))) fun acc e => ?_
  rw [mouldStep]
  cases act e <;> cases mz <;> rfl

theorem elemOf_permuted {f : Fmt} (hf : f.width ≤ 32) (act : Nat → Bool) (mz : Bool) (G : Nat → Nat) (n : Nat)
    (t : List (Nat × Elem)) (e : Nat) : elemOf f (permuted f act mz G n t) e =
      if e < n then masked (act e) mz (G e % 2 ^ f.width) (elemOf f t e) else elemOf f t e := by
  rw [permuted_eq_mould, (mould_fold f hf act mz _ _ (t, 0) List.nodup_range).1 e]
  simp only [List.mem_range]

/-- An instruction whose run is `permute` of G, in any other form F of G. -/
theorem permutesInto_of {i : Instr} {c : Ctl} {o : VOps} (hf : o.fmt.vector = true) {F G : Nat → VSrc → VSrc → Nat → Nat}
    (h : ∀ s, exec i s = issueV i c (permute o G) s) (hG : ∀ n x y e, G n x y e = F n x y e) : PermutesInto i c o F := by
  obtain rfl : G = F := by funext n x y e; exact hG n x y e
  intro s x y h1 hi hv hs hr
  let n := o.fmt.pack * s.vlen
  obtain ⟨h', hx, hput⟩ := whole_completes
    (fun x y h => permuted o.fmt (active h o.x.msk o.x.mn o.fmt.pack) o.x.mz (G n x y) n (oldV o.d h)) (h s) rfl hi hv hs hr
  exact ⟨_, h', hx, hput, elemOf_permuted (width_le o.fmt hf) _ _ _ _ _⟩

/-- The range test of vslide. -/
theorem ite_inside (j : Int) (n a b : Nat) : (if 0 ≤ j && j < n then a else b) = if 0 ≤ j ∧ j < n then a else b := by
  simp only [Bool.and_eq_true, decide_eq_true_eq]

/-! ## Elements written at the places of a list -/

/-- The values of a list written at their places, one after the other. -/
def placed {α : Type} (f : Fmt) (pos val : α → Nat) (l : List α) (t : List (Nat × Elem)) : List (Nat × Elem) :=
  l.foldl (fun t p => setElem f (pos p) (val p) t) t

section
variable {α : Type} {f : Fmt} (hf : f.width ≤ 32) {pos : α → Nat} (val : α → Nat)
include hf

theorem elemOf_placed_other (l : List α) {e : Nat} : ∀ t : List (Nat × Elem), (∀ p ∈ l, pos p ≠ e) →
    elemOf f (placed f pos val l t) e = elemOf f t e := by
  induction l with
  | nil => exact fun _ _ => rfl
  | cons a l ih =>
    intro t hne
    obtain ⟨ha, hl⟩ := List.forall_mem_cons.1 hne
    exact (ih _ hl).trans ((elemOf_setElem f hf _ _ _ _).trans (if_neg ha.symm))

theorem elemOf_placed_mem {l : List α} : ∀ (t : List (Nat × Elem)), (l.map pos).Nodup → ∀ p ∈ l,
    elemOf f (placed f pos val l t) (pos p) = val p % 2 ^ f.width := by
  induction l with
  | nil => exact fun _ _ p hp => absurd hp List.not_mem_nil
  | cons a l ih =>
    intro t hn p hp
    obtain ⟨ha, hl⟩ := List.nodup_cons.1 (List.map_cons ▸ hn)
    rcases List.mem_cons.1 hp with rfl | hp
    · have hne : ∀ q ∈ l, pos q ≠ pos p := fun q hq e => ha (e ▸ List.mem_map_of_mem hq)
      exact (elemOf_placed_other hf val l _ hne).trans ((elemOf_setElem f hf _ _ _ _).trans (if_pos rfl))
    · exact ih _ hl p hp

end

/-- Zeros written at n places from k on, where MZ asks for them (R102). -/
def zeroed (f : Fmt) (mz : Bool) (k n : Nat) (t : List (Nat × Elem)) : List (Nat × Elem) :=
  if mz then placed f (fun i => k + i) (fun _ => 0) (List.range n) t else t

theorem elemOf_zeroed {f : Fmt} (hf : f.width ≤ 32) (mz : Bool) (k n : Nat) (t : List (Nat × Elem)) (e : Nat) :
    elemOf f (zeroed f mz k n t) e = if (k ≤ e ∧ e < k + n) ∧ mz = true then 0 else elemOf f t e := by
  cases mz
  · exact (if_neg fun h => Bool.noConfusion h.2).symm
  · by_cases he : k ≤ e ∧ e < k + n
    · rw [if_pos ⟨he, rfl⟩]
      have hn : ((List.range n).map fun i => k + i).Nodup := List.nodup_range.map fun _ _ h => Nat.add_left_cancel h
      have := elemOf_placed_mem hf (fun _ => 0) t hn (e - k) (List.mem_range.2 (by omega))
      rwa [Nat.add_sub_cancel' he.1, Nat.zero_mod] at this
    · rw [if_neg fun h => he h.1]
      refine elemOf_placed_other hf _ _ t fun i hi h => he ?_
      have := List.mem_range.1 hi
      omega

/-! ## The active elements and their ranks -/

theorem mem_activeList {o : VOps} {h : Hart} {n e : Nat} :
    e ∈ activeList o h n ↔ e < n ∧ active h o.x.msk o.x.mn o.fmt.pack e = true := by
  rw [activeList, List.mem_filter, List.mem_range]

theorem activeList_increasing (o : VOps) (h : Hart) (n : Nat) : (activeList o h n).Pairwise (· < ·) :=
  List.pairwise_lt_range.filter _

theorem activeList_length_le (o : VOps) (h : Hart) (n : Nat) : (activeList o h n).length ≤ n :=
  (List.length_filter_le _ _).trans_eq List.length_range

/-- In an increasing list the index of an element is the number of smaller ones. -/
theorem length_filter_lt_getElem {l : List Nat} (hl : l.Pairwise (· < ·)) {i : Nat} (hi : i < l.length) :
    (l.filter fun j => decide (j < l[i])).length = i := by
  have hsplit : l = l.take i ++ l[i] :: l.drop (i + 1) := by
    rw [← List.drop_eq_getElem_cons hi, List.take_append_drop]
  have hp := hl
  rw [hsplit, List.pairwise_append, List.pairwise_cons] at hp
  obtain ⟨-, ⟨habove, -⟩, hbelow⟩ := hp
  have h1 : (l.take i).filter (fun j => decide (j < l[i])) = l.take i :=
    List.filter_eq_self.2 fun j hj => decide_eq_true (hbelow j hj _ List.mem_cons_self)
  have h2 : (l[i] :: l.drop (i + 1)).filter (fun j => decide (j < l[i])) = [] := by
    refine List.filter_eq_nil_iff.2 (List.forall_mem_cons.2 ⟨by simp, fun j hj => ?_⟩)
    simpa using (habove j hj).le
  calc (l.filter fun j => decide (j < l[i])).length
      = ((l.take i ++ l[i] :: l.drop (i + 1)).filter fun j => decide (j < l[i])).length := by rw [← hsplit]
    _ = (l.take i).length := by rw [List.filter_append, h1, h2, List.append_nil]
    _ = i := List.length_take_of_le hi.le

theorem getElem_mem_zipIdx {α : Type} {l : List α} {i : Nat} (hi : i < l.length) : (l[i], i) ∈ l.zipIdx :=
  List.mem_zipIdx_iff_getElem?.2 (List.getElem?_eq_getElem hi)

/-! ## Compress and expand -/

/-- The vector of vcompress: element i of the active ones at place i, and with MZ zeros behind them (R123). -/
def compressed (f : Fmt) (el : Nat → Nat) (mz : Bool) (act : List Nat) (n : Nat) (t : List (Nat × Elem)) : List (Nat × Elem) :=
  zeroed f mz act.length (n - act.length) (placed f Prod.snd (fun p => el p.1) act.zipIdx t)

theorem elemOf_compressed {f : Fmt} (hf : f.width ≤ 32) (el : Nat → Nat) (mz : Bool) {act : List Nat} {n : Nat}
    (hn : act.length ≤ n) (t : List (Nat × Elem)) (e : Nat) : elemOf f (compressed f el mz act n t) e =
      if hx : e < act.length then el act[e] % 2 ^ f.width else if e < n ∧ mz = true then 0 else elemOf f t e := by
  rw [compressed, elemOf_zeroed hf, Nat.add_sub_cancel' hn]
  by_cases hx : e < act.length
  · have hnd : (act.zipIdx.map Prod.snd).Nodup := by
      rw [List.zipIdx_map_snd]
      exact List.nodup_range'
    rw [dif_pos hx, if_neg fun h => absurd h.1.1 (Nat.not_le.2 hx)]
    exact elemOf_placed_mem hf (pos := Prod.snd) (fun p => el p.1) t hnd (act[e], e) (getElem_mem_zipIdx hx)
  · have hne : ∀ p ∈ act.zipIdx, p.2 ≠ e := fun p hp h => hx (h ▸ List.snd_lt_of_mem_zipIdx hp)
    rw [dif_neg hx, elemOf_placed_other hf _ _ t hne]
    simp only [Nat.le_of_not_lt hx, true_and]

/-- The vector of vexpand: element i at the place of active element i, over zeros with MZ (R123). -/
def expanded (f : Fmt) (el : Nat → Nat) (mz : Bool) (act : List Nat) (n : Nat) (t : List (Nat × Elem)) : List (Nat × Elem) :=
  placed f Prod.fst (fun p => el p.2) act.zipIdx (zeroed f mz 0 n t)

theorem elemOf_expanded_mem {f : Fmt} (hf : f.width ≤ 32) (el : Nat → Nat) (mz : Bool) {act : List Nat}
    (hs : act.Pairwise (· < ·)) (n : Nat) (t : List (Nat × Elem)) {e : Nat} (he : e ∈ act) :
    elemOf f (expanded f el mz act n t) e = el (act.filter fun j => decide (j < e)).length % 2 ^ f.width := by
  obtain ⟨i, hi, rfl⟩ := List.mem_iff_getElem.1 he
  rw [length_filter_lt_getElem hs hi]
  have hnd : (act.zipIdx.map Prod.fst).Nodup := by
    rw [List.zipIdx_map_fst]
    exact hs.imp Nat.ne_of_lt
  exact elemOf_placed_mem hf (pos := Prod.fst) (fun p => el p.2) _ hnd (act[i], i) (getElem_mem_zipIdx hi)

theorem elemOf_expanded_other {f : Fmt} (hf : f.width ≤ 32) (el : Nat → Nat) (mz : Bool) {act : List Nat} (n : Nat)
    (t : List (Nat × Elem)) {e : Nat} (he : e ∉ act) :
    elemOf f (expanded f el mz act n t) e = if e < n ∧ mz = true then 0 else elemOf f t e := by
  have hne : ∀ p ∈ act.zipIdx, p.1 ≠ e := fun p hp h => he (h ▸ List.fst_mem_of_mem_zipIdx hp)
  rw [expanded, elemOf_placed_other hf _ _ _ hne, elemOf_zeroed hf]
  simp only [Nat.zero_le, true_and, Nat.zero_add]

theorem runVexpand_eq (o : VOps) (v : Env) (s : State) : runVexpand o v s = withV true o.a o.b v (fun x _ h =>
    finishV s o.d (expanded o.fmt (moveElem o.fmt o.a.mods x) o.x.mz (activeList o h (o.fmt.pack * v.n)) (o.fmt.pack * v.n)
      (oldV o.d h)) h) s := by
  simp only [expanded, zeroed, Nat.zero_add]
  rfl

section
variable {c : Ctl} {o : VOps} {s : State} {x y : VSrc} {h : Hart} (hf : o.fmt.vector = true) (hi : Issues c s)
  (hv : s.hart.vstart = 0) (hr : VRoom o.d h)
include hf hi hv hr

theorem vcompress_completes (hs : VSources o.a o.b (s.envOf (.vcompress c o)) s.issued.hart x y h) :
    let act := activeList o h (o.fmt.pack * s.vlen)
    ∃ t h', exec (.vcompress c o) s = .next (ranQueued s h') ∧ putV o.d t { h with vstart := 0 } = .ok h' ∧
      ∀ e, elemOf o.fmt t e =
        if hx : e < act.length then moveElem o.fmt o.a.mods x act[e] % 2 ^ o.fmt.width
        else if e < o.fmt.pack * s.vlen ∧ o.x.mz = true then 0 else elemOf o.fmt (oldV o.d h) e := by
  let n := o.fmt.pack * s.vlen
  obtain ⟨h', hx, hput⟩ := whole_completes (i := .vcompress c o) (run := runVcompress o)
    (fun x _ h => compressed o.fmt (moveElem o.fmt o.a.mods x) o.x.mz (activeList o h n) n (oldV o.d h)) rfl rfl hi hv hs hr
  exact ⟨_, h', hx, hput, elemOf_compressed (width_le o.fmt hf) _ _ (activeList_length_le o h n) _⟩

theorem vexpand_completes (hs : VSources o.a o.b (s.envOf (.vexpand c o)) s.issued.hart x y h) :
    ∃ t h', exec (.vexpand c o) s = .next (ranQueued s h') ∧ putV o.d t { h with vstart := 0 } = .ok h' ∧
      ∀ e, elemOf o.fmt t e =
        if e < o.fmt.pack * s.vlen then
          masked (active h o.x.msk o.x.mn o.fmt.pack e) o.x.mz
            (moveElem o.fmt o.a.mods x
              ((activeList o h (o.fmt.pack * s.vlen)).filter fun j => decide (j < e)).length % 2 ^ o.fmt.width)
            (elemOf o.fmt (oldV o.d h) e)
        else elemOf o.fmt (oldV o.d h) e := by
  let n := o.fmt.pack * s.vlen
  have hw := width_le o.fmt hf
  obtain ⟨h', hx, hput⟩ := whole_completes (i := .vexpand c o) (run := runVexpand o)
    (fun x _ h => expanded o.fmt (moveElem o.fmt o.a.mods x) o.x.mz (activeList o h n) n (oldV o.d h)) rfl
    (runVexpand_eq o _ _) hi hv hs hr
  · refine ⟨_, h', hx, hput, fun e => ?_⟩
    by_cases he : e ∈ activeList o h n
    · obtain ⟨hlt, hact⟩ := mem_activeList.1 he
      rw [if_pos hlt, hact, elemOf_expanded_mem hw _ _ (activeList_increasing o h n) n _ he]
      rfl
    · rw [elemOf_expanded_other hw _ _ n _ he]
      by_cases hlt : e < n
      · have hact : active h o.x.msk o.x.mn o.fmt.pack e = false :=
          Bool.eq_false_iff.2 fun ha => he (mem_activeList.2 ⟨hlt, ha⟩)
        rw [if_pos hlt, hact]
        simp only [hlt, true_and]
        rfl
      · rw [if_neg hlt, if_neg fun h => hlt h.1]

end

/-- Settles O32: three forms are `permute` with their source index, and the other two write at the places of a list. -/
theorem vectorPermutes : Obligations.VectorPermutes := by
  intro c o hf
  refine ⟨permutesInto_of hf (fun _ => rfl) fun n x y e => ?vxch, permutesInto_of hf (fun _ => rfl) fun _ _ _ _ => rfl,
    permutesInto_of hf (fun _ => rfl) fun n x y e => ?vslide, fun s x y h hi hv hr =>
      ⟨fun hs => vcompress_completes hf hi hv hr hs, fun hs => vexpand_completes hf hi hv hr hs⟩⟩
  case vxch => exact apply_ite (moveElem o.fmt o.a.mods x) _ _ _
  case vslide => exact ite_inside _ _ _ _

end Sys2Proof.Proofs
end

section
/-! PROOFS. Shapes, scale bindings, the status word of a slot and the matrix wait (R142, R147, R150, R156 to R158). -/

namespace Sys2Proof.Proofs

open Sys2Proof.Machine Sys2Proof.Safety

/-! ## Shapes and scale bindings (R147, R150) -/

/-- Kmax of R141, by the width of the weights. -/
theorem kmax_eq (f : Fmt) :
    kmax f = if f = .e2m1 ∨ f = .vq2 then 2048 else if f = .bf16 ∨ f = .f16 then 512 else 1024 := by
  cases f <;> rfl

theorem setts_completes {c : Ctl} {s : State} (hg : s.hart.guard c = true) (wf : Fmt) (m n k : Operand) :
    exec (.setts c wf m n k) s = .next (completed s { s.hart with
      tm := BitVec.ofNat 7 (min (natOperand s.hart m) 64)
      tn := BitVec.ofNat 7 (min (natOperand s.hart n) 64)
      tk := BitVec.ofNat 12 (min (natOperand s.hart k) (kmax wf)) }) := by
  show execSetts c wf m n k s = _
  exact guarded_on _ hg

/-- An instruction with a true guard enters a queue that is neither frozen nor full (R170). -/
theorem entering_room {c : Ctl} {s : State} (hg : s.hart.guard c = true) (hq : s.hart.vqf = false)
    (hl : s.hart.vcq.length < Config.commandQueueDepth) (i : Instr) (f : State → State) :
    entering i c f s = .next (f s) := by
  rcases entering_cases i c f s with ⟨hoff, -⟩ | ⟨-, ⟨hfrozen, -⟩ | ⟨-, ⟨hfull, -⟩ | ⟨-, hrun⟩⟩⟩
  · rw [hg] at hoff; cases hoff
  · rw [hq] at hfrozen; cases hfrozen
  · exact absurd hl (Nat.not_lt.2 hfull)
  · exact hrun

/-- The binding of a base, a pitch and a count: none where the count is 0 (R150). -/
def scaleBinding (h : Hart) (a : BitVec 6) (b : Operand) (count : BitVec 12) : Binding :=
  if count = 0 then ⟨0, 0, 0⟩ else ⟨h.rs a.toNat, BitVec.ofNat 64 (natOperand h b), count⟩

theorem mscale_completes {c : Ctl} {s : State} (hg : s.hart.guard c = true) (ofB : Bool) (a : BitVec 6) (b : Operand)
    (count : BitVec 12) (hq : s.hart.vqf = false) (hl : s.hart.vcq.length < Config.commandQueueDepth) :
    exec (.mscale c ofB a b count) s = .next (completed s
      (if ofB then { s.hart with bindB := scaleBinding s.hart a b count }
        else { s.hart with bindA := scaleBinding s.hart a b count })) := by
  show execMscale c ofB a b count s = _
  exact entering_room hg hq hl _ _

/-! ## The status word of a slot (R157) -/

/-- With nothing queued no matrix work is outstanding. -/
theorem matrixBusy_of_empty {s : State} (h : s.hart.vcq = []) (slot : Option Nat) : s.matrixBusy slot = false := by
  rw [State.matrixBusy, h, List.any_nil]

/-- The status word with nothing queued: HELD, RECALLED, WFMT and KMAX of a slot that is held, and otherwise 0. -/
theorem mstatWord_of_empty {s : State} (h : s.hart.vcq = []) (n : Nat) :
    s.mstatWord n = if s.holds n then
      BitVec.ofNat 64 (1 + (if (s.coreAt s.coreNo).recalls.any fun r => r.slot == n then 4 else 0)
        + (s.tileAt n).wfmt.code.toNat * 2 ^ 8 + kmax (s.tileAt n).wfmt * 2 ^ 16)
      else 0 := by
  rw [State.mstatWord, matrixBusy_of_empty h]
  cases s.holds n <;> rfl

theorem mstat_completes {c : Ctl} {s : State} (hi : Issues c s) {d : Operand} (n : BitVec 2) (hr : Room d s.hart) :
    ∃ h', exec (.mstat c d n) s = .next (ranQueued s h') ∧ putS d (s.mstatWord n.toNat) s.issued.hart = some h' := by
  obtain ⟨h', hp⟩ := putS_room (h := s.issued.hart) hr (s.mstatWord n.toNat)
  have hrun : runMstat d (s.envOf (.mstat c d n)) s.issued = .done (ranQueued s h') := by
    show finishS s.issued d (s.mstatWord n.toNat) s.issued.hart = _
    rw [finishS, hp]
    rfl
  exact ⟨h', issueV_done hi hrun, hp⟩

/-! ## The wait (R156, R158) -/

/-- An instruction that names a slot that its hart did not hold at its issue traps (R158). -/
theorem withSlot_not_held {n : Nat} {v : Env} (hv : v.held = false) (f : Tile → State → VRes) (s : State) :
    withSlot n v f s = .trap ⟨.tileNotHeld, BitVec.ofNat 64 n⟩ s 0 := by
  rw [withSlot, hv]
  rfl

/-- mwait of a slot that is held completes at its issue where nothing is queued. -/
theorem mwait_held {c : Ctl} {s : State} (hi : Issues c s) {n : BitVec 2} (hs : s.holds n.toNat = true) :
    exec (.mwait c (some n)) s = .next s.issued := by
  rw [exec_mwait, execMwait]
  exact issueV_done hi (withSlot_held (v := s.envOf (.mwait c (some n))) (s := s.issued) hs hs fun _ s => .done s)

/-- mwait of a slot that is not held enters the queue, to trap there. -/
theorem mwait_not_held {c : Ctl} {s : State} (hi : Issues c s) {n : BitVec 2} (hs : s.holds n.toNat = false) :
    exec (.mwait c (some n)) s = .next (ranQueued s { s.issued.hart with
      vcq := [⟨s.hart.pc, .mwait c (some n), s.envOf (.mwait c (some n)),
        some (⟨.tileNotHeld, n.setWidth 64⟩, 0), false⟩] }) := by
  have htrap : runMwait (some n) (s.envOf (.mwait c (some n))) s.issued = .trap ⟨.tileNotHeld, n.setWidth 64⟩ s.issued 0 := by
    rw [← BitVec.ofNat_toNat]
    exact withSlot_not_held (v := s.envOf (.mwait c (some n))) hs (fun _ s => .done s) s.issued
  rw [exec_mwait, execMwait, issueV_trap hi htrap (fun h => nomatch h), enqueue_head (t := s.issued) _ rfl (vcq_of_issues hi)]
  rfl

/-- Settles O39: each instruction has its effect at its issue, and a mwait that traps heads the queue. -/
theorem matrixControl : Obligations.MatrixControl := by
  intro c s hg
  refine ⟨fun wf m n k => ?setts, fun ofB a b count hq hl => mscale_completes hg ofB a b count hq hl,
    fun hi => ⟨fun d n hr => ?mstat, mwait_issues hi, fun n => ⟨mwait_held hi, mwait_not_held hi⟩⟩⟩
  case setts =>
    rw [← kmax_eq]
    exact setts_completes hg wf m n k
  case mstat =>
    rw [← mstatWord_of_empty (vcq_of_issues hi)]
    exact mstat_completes hi n hr

end Sys2Proof.Proofs
end

section
/-! PROOFS. Weight formats, weights, and zeroing and loading accumulators (R138, R148, R149, R151, R155). -/

namespace Sys2Proof.Proofs

open Sys2Proof.Machine Sys2Proof.Safety

/-! ## A table whose entries a list sets -/

/-- Values that depend on their keys alone are set at the keys of a list, and no other entry changes. -/
theorem tget_foldl_keyed {α β : Type} [DecidableEq β] (d : β) (κ : α → Nat) (F : α → β) (G : Nat → β) {l : List α}
    (hF : ∀ p ∈ l, F p = G (κ p)) (t : List (Nat × β)) (k : Nat) :
    tget d (l.foldl (fun t p => tset d t (κ p) (F p)) t) k = if k ∈ l.map κ then G k else tget d t k := by
  have hfold : l.foldl (fun t p => tset d t (κ p) (F p)) t = (l.map κ).foldl (fun t e => tset d t e (G e)) t := by
    rw [List.foldl_map]
    exact List.foldl_ext _ _ t fun t p hp => by rw [hF p hp]
  rw [hfold, tget_foldl_tset]

/-! ## An instruction that changes a slot that is held (R158) -/

/-- An instruction whose run ends with a change of slot n of u leaves there what the change makes of the tile that s has. -/
theorem slot_becomes {i : Instr} {c : Ctl} {run : Env → State → VRes} {s u : State} (hx : exec i s = issueV i c run s)
    (hi : Issues c s) {n : Nat} (ht : u.tileAt n = s.tileAt n) (f : Tile → Tile)
    (hrun : run (s.envOf i) s.issued = .done (u.modTile n f)) :
    exec i s = .next (u.modTile n fun _ => f (s.tileAt n)) := by
  rw [hx, issueV_done hi hrun, modTile_eq, ht]

/-! ## wfmt (R148) -/

/-- The codebook of the bytes of 256 words (R50). -/
def codebookOf (bs : List Byte) : List (Nat × Elem) :=
  (wordsOf 4 bs 256).zipIdx.foldl (fun t p => tset 0 t p.2 (BitVec.ofNat 32 p.1)) []

/-- Entry k of a codebook is the word at byte 4k. -/
theorem tget_codebookOf (bs : List Byte) (k : Nat) :
    tget 0 (codebookOf bs) k = if k < 256 then BitVec.ofNat 32 (leNat ((bs.drop (4 * k)).take 4)) else 0 := by
  have hwords : (wordsOf 4 bs 256).zipIdx = (List.range 256).map fun i => (leNat ((bs.drop (4 * i)).take 4), i) := by
    rw [zipIdx_eq_map_range _ 0]
    simp only [wordsOf, List.length_map, List.length_range]
    refine List.map_congr_left fun i hi => ?_
    simp [List.getD_eq_getElem?_getD, List.mem_range.1 hi]
  rw [codebookOf, hwords, List.foldl_map,
    tget_foldl_tset 0 fun i => BitVec.ofNat 32 (leNat ((bs.drop (4 * i)).take 4))]
  simp only [List.mem_range]
  rfl

section
variable {n : BitVec 2} {v : Env} {s u : State} (held : v.held = true) (hs : s.holds n.toNat = true)
include held hs

theorem runWfmt_plain {wf : Fmt} (hw : wf ≠ .vq2) (a : Operand) :
    runWfmt wf n a v s = .done (s.modTile n.toNat fun t => { t with wfmt := wf, weights := [] }) := by
  rw [runWfmt, withSlot_held held hs, if_neg hw]

theorem runWfmt_codebook {a : Operand} {bs : List (List Byte)} (ha : (v.operand a).toNat % 4 = 0)
    (hread : readRanges [(v.operand a, 1024)] s = .ok (bs, u)) :
    runWfmt .vq2 n a v s = .done (u.modTile n.toNat fun t =>
      { t with wfmt := .vq2, weights := [], codebook := codebookOf (bs.flatMap id) }) := by
  rw [runWfmt, withSlot_held held hs, if_pos rfl]
  dsimp only
  rw [if_neg (not_not_intro ha), hread]
  rfl

end

/-- A read of one range gives the bytes of that range. -/
theorem flatMap_of_one_range {r : Word × Nat} {s u : State} {bs : List (List Byte)} (h : readRanges [r] s = .ok (bs, u)) :
    bs.flatMap id = bs.headD [] := by
  obtain ⟨b, rfl⟩ := List.length_eq_one_iff.1 (readRanges_length h)
  simp

/-! ## wload (R149) -/

/-- The weights w once rows of n elements of format f, whose bytes are bs, are loaded from row k0 on, as the model folds them. -/
def loadedWeights (f : Fmt) (n k0 : Nat) (bs : List (List Byte)) (w : List (Nat × BitVec 16)) : List (Nat × BitVec 16) :=
  bs.zipIdx.foldl (fun w p => (rowElems f p.1 n).zipIdx.foldl (fun w q =>
    tset 0 w (64 * (k0 + p.2) + q.2) (BitVec.ofNat 16 q.1)) w) w

/-- The place in a weight share of element p.2 of the row p.1 rows after row k0. -/
def weightKey (k0 : Nat) (p : Nat × Nat) : Nat := 64 * (k0 + p.1) + p.2

/-- The fold over rows and their elements is that over the elements of all rows. -/
theorem loadedWeights_eq (f : Fmt) (n k0 : Nat) (bs : List (List Byte)) (w : List (Nat × BitVec 16)) :
    loadedWeights f n k0 bs w = (cells bs.length n).foldl (fun w p =>
      tset 0 w (weightKey k0 p) (BitVec.ofNat 16 (rowElem f (bs.getD p.1 []) p.2))) w := by
  have hrow (b : List Byte) : (rowElems f b n).zipIdx = (List.range n).map fun j => (rowElem f b j, j) := by
    rw [rowElems_eq, zipIdx_eq_map_range _ 0]
    simp only [List.length_map, List.length_range]
    refine List.map_congr_left fun j hj => ?_
    simp [List.getD_eq_getElem?_getD, List.mem_range.1 hj]
  unfold loadedWeights
  rw [zipIdx_eq_map_range bs []]
  simp only [hrow, cells, List.foldl_flatMap, List.foldl_map]
  rfl

theorem mem_weightKeys {m n k0 k j : Nat} (hn : n ≤ 64) (hj : j < 64) :
    64 * k + j ∈ (cells m n).map (weightKey k0) ↔ k0 ≤ k ∧ k < k0 + m ∧ j < n := by
  rw [List.mem_map]
  constructor
  · rintro ⟨p, hp, hk⟩
    obtain ⟨h1, h2⟩ := mem_cells.1 hp
    unfold weightKey at hk
    omega
  · rintro ⟨h1, h2, h3⟩
    refine ⟨(k - k0, j), mem_cells.2 ⟨by simp only; omega, h3⟩, ?_⟩
    rw [weightKey, Nat.add_sub_cancel' h1]

/-- A load sets the elements of its rows, and keeps every other weight. -/
theorem tget_loadedWeights (f : Fmt) {n : Nat} (hn : n ≤ 64) (k0 : Nat) (bs : List (List Byte)) (w : List (Nat × BitVec 16))
    (k : Nat) {j : Nat} (hj : j < 64) :
    tget 0 (loadedWeights f n k0 bs w) (64 * k + j) =
      if k0 ≤ k ∧ k < k0 + bs.length ∧ j < n then BitVec.ofNat 16 (rowElem f (bs.getD (k - k0) []) j)
      else tget 0 w (64 * k + j) := by
  let G (key : Nat) : BitVec 16 := BitVec.ofNat 16 (rowElem f (bs.getD (key / 64 - k0) []) (key % 64))
  have hG : ∀ p ∈ cells bs.length n, BitVec.ofNat 16 (rowElem f (bs.getD p.1 []) p.2) = G (weightKey k0 p) := by
    intro p hp
    have hlt := (mem_cells.1 hp).2
    have hrow : weightKey k0 p / 64 - k0 = p.1 := by unfold weightKey; omega
    have hcol : weightKey k0 p % 64 = p.2 := by unfold weightKey; omega
    simp only [G, hrow, hcol]
  have hat : G (64 * k + j) = BitVec.ofNat 16 (rowElem f (bs.getD (k - k0) []) j) := by
    have hrow : (64 * k + j) / 64 = k := by omega
    have hcol : (64 * k + j) % 64 = j := by omega
    simp only [G, hrow, hcol]
  rw [loadedWeights_eq, tget_foldl_keyed 0 (weightKey k0) _ G hG, hat]
  simp only [mem_weightKeys hn hj]

/-- Rows that end within Kmax, from a whole index row on for VQ2, are in place (R149). -/
theorem badKofs_of {t : Tile} {kofs tk : Nat} (hk : kofs + tk ≤ kmax t.wfmt) (hv : t.wfmt = .vq2 → kofs % 8 = 0) :
    badKofs t kofs tk = false := by
  have hvq : (t.wfmt == .vq2 && kofs % 8 != 0) = false := by
    by_cases h : t.wfmt = .vq2
    · simp [hv h]
    · simp [h]
  rw [badKofs, hvq, decide_eq_false (Nat.not_lt.2 hk)]
  rfl

theorem getLsbD_zero_of_even {x : Word} (h : x.toNat % 2 = 0) : x.getLsbD 0 = false := by
  rw [← BitVec.testBit_toNat, Nat.testBit_zero, h]
  rfl

/-- The check of alignment passes where an address and a pitch of a 16-bit format are even (R149). -/
theorem aligned16_of {f : Fmt} {x y : Word} (h : f = .bf16 ∨ f = .f16 → x.toNat % 2 = 0 ∧ y.toNat % 2 = 0) :
    (is16 f && (x.getLsbD 0 || y.getLsbD 0)) = false := by
  by_cases hf : f = .bf16 ∨ f = .f16
  · obtain ⟨hx, hy⟩ := h hf
    rw [getLsbD_zero_of_even hx, getLsbD_zero_of_even hy]
    exact Bool.and_false _
  · have h16 : is16 f = false := by simpa [is16] using hf
    rw [h16]
    rfl

theorem runWload_done {n : BitVec 2} {a : BitVec 6} {b : Operand} {kofs : BitVec 12} {v : Env} {s u : State}
    {bs : List (List Byte)} (held : v.held = true) (hs : s.holds n.toNat = true) :
    let t := s.tileAt n.toNat
    let tk := depthOf v t
    let tn := min v.tn.toNat 64
    0 < tk → 0 < tn → badKofs t kofs.toNat tk = false →
    (is16 t.wfmt && ((v.rs a.toNat).getLsbD 0 || (v.operand b).getLsbD 0)) = false →
    readRanges ((List.range (if t.wfmt = .vq2 then (tk + 7) / 8 else tk)).map fun k =>
      (v.rs a.toNat + BitVec.ofNat 64 k * v.operand b, rowBytes t.wfmt tn)) s = .ok (bs, u) →
    runWload n a b kofs v s = .done (u.modTile n.toNat fun t' => { t' with
      weights := loadedWeights t'.wfmt tn (if t.wfmt = .vq2 then kofs.toNat / 8 else kofs.toNat) bs t'.weights }) := by
  intro t tk tn hk hn hkofs h16 hread
  have h0 : ¬ (decide (tk = 0) || decide (tn = 0)) = true := by simp [hk.ne', hn.ne']
  simp only [t, tk, tn] at hkofs h16 hread h0
  rw [runWload, withSlot_held held hs]
  dsimp only
  rw [hkofs, h16, if_neg Bool.false_ne_true, if_neg Bool.false_ne_true, if_neg h0, hread]
  rfl

/-! ## mzero and macc.ld (R151, R155) -/

theorem runMzero_done {n : BitVec 2} {v : Env} {s : State} (held : v.held = true) (hs : s.holds n.toNat = true) :
    runMzero n v s = .done (s.modTile n.toNat fun t => { t with acc := [], poison := [] }) := by
  rw [runMzero, withSlot_held held hs]

/-- The accumulator elements that macc.ld sets lie from row row0 on, as many as the vector length, up to the last row. -/
theorem mem_accKeys {v : Env} {row0 k : Nat} :
    k ∈ (accElems v row0).map Prod.snd ↔ 64 * row0 ≤ k ∧ k < 4096 ∧ k - 64 * row0 < v.n := by
  rw [List.mem_map]
  constructor
  · rintro ⟨p, hp, rfl⟩
    obtain ⟨⟨h1, h2⟩, h3⟩ := mem_accElems.1 hp
    omega
  · rintro ⟨h1, h2, h3⟩
    exact ⟨(k - 64 * row0, k), mem_accElems.2 ⟨⟨h3, by simp only; omega⟩, by simp only; omega⟩, rfl⟩

/-- The elements of vector register r, set in the accumulator a as the model folds them. -/
def loadedAcc (v : Env) (row0 : Nat) (r : Nat → Elem) (a : List (Nat × Elem)) : List (Nat × Elem) :=
  (accElems v row0).foldl (fun a p => tset 0 a p.2 (r p.1)) a

theorem tget_loadedAcc (v : Env) (row0 : Nat) (r : Nat → Elem) (a : List (Nat × Elem)) (k : Nat) :
    tget 0 (loadedAcc v row0 r a) k =
      if 64 * row0 ≤ k ∧ k < 4096 ∧ k - 64 * row0 < v.n then r (k - 64 * row0) else tget 0 a k := by
  have hF : ∀ p ∈ accElems v row0, r p.1 = r (p.2 - 64 * row0) := fun p hp => by
    rw [(mem_accElems.1 hp).2, Nat.add_sub_cancel_left]
  rw [loadedAcc, tget_foldl_keyed 0 Prod.snd (fun p => r p.1) (fun k => r (k - 64 * row0)) hF]
  simp only [mem_accKeys]

/-- The elements that stay poisoned: those that are not set. -/
def keptPoison (v : Env) (row0 : Nat) (p : List Nat) : List Nat := p.filter fun k => !(accElems v row0).any fun q => q.2 = k

theorem mem_keptPoison {v : Env} {row0 : Nat} {p : List Nat} {k : Nat} :
    k ∈ keptPoison v row0 p ↔ k ∈ p ∧ ¬ (64 * row0 ≤ k ∧ k < 4096 ∧ k - 64 * row0 < v.n) := by
  have hset : (accElems v row0).any (fun q => q.2 = k) = true ↔ k ∈ (accElems v row0).map Prod.snd := by
    rw [List.any_eq_true, List.mem_map]
    simp only [decide_eq_true_eq]
  rw [keptPoison, List.mem_filter, ← mem_accKeys, ← hset, Bool.not_eq_true', Bool.not_eq_true]

theorem runMaccLd_done {n : BitVec 2} {v : Env} {s : State} (held : v.held = true) (hs : s.holds n.toNat = true)
    (hv : s.hart.vstart = 0) (r : BitVec 5) (row0 : BitVec 6) :
    runMaccLd n r row0 v s = .done (s.modTile n.toNat fun t => { t with
      acc := loadedAcc v row0.toNat (s.hart.rv r.toNat) t.acc, poison := keptPoison v row0.toNat t.poison }) := by
  rw [runMaccLd, if_neg (not_not_intro hv), withSlot_held held hs]
  rfl

/-! ## The instructions -/

section
variable {c : Ctl} {n : BitVec 2} {s : State} (hi : Issues c s) (hs : s.holds n.toNat = true)
include hi hs

theorem wfmt_codebook_completes {a : Operand} {bs : List (List Byte)} {u : State}
    (ha : (operandOf s.hart a).toNat % 4 = 0) (hread : readRanges [(operandOf s.hart a, 1024)] s.issued = .ok (bs, u)) :
    exec (.wfmt c .vq2 n a) s = .next (u.modTile n.toNat fun _ => { s.tileAt n.toNat with
      wfmt := .vq2, weights := [], codebook := codebookOf (bs.headD []) }) := by
  rw [← operand_envOf (.wfmt c .vq2 n a)] at ha hread
  rw [← flatMap_of_one_range hread]
  exact slot_becomes rfl hi (tileAt_readRanges hread n.toNat) _ (runWfmt_codebook (s := s.issued) hs hs ha hread)

theorem wload_completes (a : BitVec 6) (b : Operand) (kofs : BitVec 12) (bs : List (List Byte)) (u : State) :
    let t := s.tileAt n.toNat
    let tk := min s.hart.tk.toNat (kmax t.wfmt)
    let tn := min s.hart.tn.toNat 64
    let rows := if t.wfmt = .vq2 then (tk + 7) / 8 else tk
    let first := if t.wfmt = .vq2 then kofs.toNat / 8 else kofs.toNat
    0 < tk → 0 < tn → kofs.toNat + tk ≤ kmax t.wfmt → (t.wfmt = .vq2 → kofs.toNat % 8 = 0) →
    (t.wfmt = .bf16 ∨ t.wfmt = .f16 → (s.hart.rs a.toNat).toNat % 2 = 0 ∧ (operandOf s.hart b).toNat % 2 = 0) →
    readRanges ((List.range rows).map fun k =>
      (s.hart.rs a.toNat + BitVec.ofNat 64 k * operandOf s.hart b, rowBytes t.wfmt tn)) s.issued = .ok (bs, u) →
    ∃ w, exec (.wload c n a b kofs) s = .next (u.modTile n.toNat fun _ => { t with weights := w }) ∧
      ∀ k j, j < 64 → tget 0 w (64 * k + j) =
        if first ≤ k ∧ k < first + rows ∧ j < tn then BitVec.ofNat 16 (rowElem t.wfmt (bs.getD (k - first) []) j)
        else tget 0 t.weights (64 * k + j) := by
  intro t tk tn rows first hk hn hfit hvq h16 hread
  have hlen : bs.length = rows := by rw [readRanges_length hread, List.length_map, List.length_range]
  have ht := tileAt_readRanges hread n.toNat
  have hrun := runWload_done (n := n) (a := a) (b := b) (kofs := kofs) (v := s.envOf (.wload c n a b kofs)) (s := s.issued)
    hs hs hk hn (badKofs_of hfit hvq) (by rw [operand_envOf]; exact aligned16_of h16)
    (by rw [operand_envOf]; exact hread)
  refine ⟨_, slot_becomes rfl hi ht _ hrun, fun k j hj => ?_⟩
  rw [← hlen]
  exact tget_loadedWeights t.wfmt (Nat.min_le_right _ 64) first bs t.weights k hj

theorem maccLd_completes (r : BitVec 5) (row0 : BitVec 6) (hv : s.hart.vstart = 0) :
    let v := s.envOf (.maccLd c n r row0)
    exec (.maccLd c n r row0) s = .next (s.issued.modTile n.toNat fun _ => { s.tileAt n.toNat with
      acc := loadedAcc v row0.toNat (s.hart.rv r.toNat) (s.tileAt n.toNat).acc
      poison := keptPoison v row0.toNat (s.tileAt n.toNat).poison }) :=
  slot_becomes (u := s.issued) rfl hi rfl _ (runMaccLd_done (s := s.issued) hs hs hv r row0)

theorem mzero_completes : exec (.mzero c n) s =
    .next (s.issued.modTile n.toNat fun _ => { s.tileAt n.toNat with acc := [], poison := [] }) :=
  slot_becomes (u := s.issued) rfl hi rfl _ (runMzero_done (v := s.envOf (.mzero c n)) (s := s.issued) hs hs)

end

/-- Settles O40: each instruction changes its slot alone, and a table that it fills reads back as its elements. -/
theorem tileLoads : Obligations.TileLoads := by
  intro c n s hi hs t becomes
  refine ⟨fun wf a hw => slot_becomes (u := s.issued) rfl hi rfl _ (runWfmt_plain (s := s.issued) hs hs hw a),
    fun a bs u ha hread => ⟨_, wfmt_codebook_completes hi hs ha hread, tget_codebookOf _⟩,
    fun a b kofs bs u => wload_completes hi hs a b kofs bs u, mzero_completes hi hs, fun r row0 hv => ?maccLd⟩
  case maccLd =>
    have hacc := tget_loadedAcc (s.envOf (.maccLd c n r row0)) row0.toNat (s.hart.rv r.toNat) t.acc
    exact ⟨_, _, maccLd_completes hi hs r row0 hv, fun k hk => (hacc k).trans (if_pos hk),
      fun k hk => (hacc k).trans (if_neg hk), fun k => mem_keptPoison⟩

end Sys2Proof.Proofs
end

section
/-! PROOFS. What a setvl leaves, and why SetVectorLength fails without a premise on its destination (R164 to R166). -/

namespace Sys2Proof.Proofs

open Sys2Proof.Machine Sys2Proof.Safety

/-! ## Lane groups (R162, R165) -/

/-- Setting the keys of a list to one value. -/
theorem tget_foldl_const {α : Type} [DecidableEq α] (d x : α) (l : List Nat) (t : List (Nat × α)) (k : Nat) :
    tget d (l.foldl (fun t i => tset d t i x) t) k = if k ∈ l then x else tget d t k :=
  tget_foldl_tset d (fun _ => x) l k t

theorem mem_heldBy {c : Core} {h i : Nat} : i ∈ c.heldBy h ↔ i < Config.laneGroups ∧ tget 0 c.lat i = h + 1 := by
  simp [Core.heldBy]

theorem lat_of_free {c : Core} {p : Byte} {i : Nat} (hi : i ∈ c.freeOf p) :
    i < Config.laneGroups ∧ tget 0 c.lat i = 0 := by
  simp only [Core.freeOf, List.mem_filter, List.mem_range, Bool.and_eq_true, decide_eq_true_eq] at hi
  exact ⟨hi.1, hi.2.1⟩

theorem nodup_heldBy (c : Core) (h : Nat) : (c.heldBy h).Nodup := List.nodup_range.filter _

theorem nodup_freeOf (c : Core) (p : Byte) : (c.freeOf p).Nodup := List.nodup_range.filter _

/-- In a list without repetition the first g members are those that do not stand behind them. -/
theorem mem_take_iff {l : List Nat} (hl : l.Nodup) (g i : Nat) : i ∈ l.take g ↔ i ∈ l ∧ i ∉ l.drop g := by
  have hdis := List.disjoint_take_drop hl (le_refl g)
  constructor
  · exact fun hi => ⟨List.mem_of_mem_take hi, fun hd => hdis hi hd⟩
  · rintro ⟨hi, hd⟩
    rw [← List.take_append_drop g l, List.mem_append] at hi
    exact hi.resolve_right hd

/-- A core on which hart h keeps its lowest g groups, and takes the lowest free ones of partition p for those that it lacks. -/
def regroupedCore (g h : Nat) (p : Byte) (c : Core) : Core :=
  let kept := ((c.heldBy h).drop g).foldl (fun l i => tset 0 l i 0) c.lat
  { c with lat := ((c.freeOf p).take (g - (c.heldBy h).length)).foldl (fun l i => tset 0 l i (h + 1)) kept }

theorem heldBy_regrouped (g h : Nat) (p : Byte) (c : Core) : ((regroupedCore g h p c).heldBy h).Perm
    ((c.heldBy h).take g ++ (c.freeOf p).take (g - (c.heldBy h).length)) := by
  have hdis : List.Disjoint ((c.heldBy h).take g) ((c.freeOf p).take (g - (c.heldBy h).length)) := fun i hh hf =>
    Nat.succ_ne_zero h ((mem_heldBy.1 (List.mem_of_mem_take hh)).2.symm.trans (lat_of_free (List.mem_of_mem_take hf)).2)
  have hnodup := List.Nodup.append ((nodup_heldBy c h).sublist (List.take_sublist g _))
    ((nodup_freeOf c p).sublist (List.take_sublist _ _)) hdis
  refine (List.perm_ext_iff_of_nodup (nodup_heldBy _ _) hnodup).2 fun i => ?_
  rw [mem_heldBy, List.mem_append, mem_take_iff (nodup_heldBy c h), mem_heldBy, regroupedCore]
  dsimp only
  rw [tget_foldl_const, tget_foldl_const]
  by_cases hf : i ∈ (c.freeOf p).take (g - (c.heldBy h).length)
  · simp [hf, (lat_of_free (List.mem_of_mem_take hf)).1]
  · by_cases hd : i ∈ (c.heldBy h).drop g <;> simp [hf, hd]

/-- The hart comes to hold as many groups as it is granted, where it holds or finds that many. -/
theorem length_heldBy_regrouped {g h : Nat} {p : Byte} {c : Core} (hg : g ≤ (c.heldBy h).length + (c.freeOf p).length) :
    ((regroupedCore g h p c).heldBy h).length = g := by
  rw [(heldBy_regrouped g h p c).length_eq, List.length_append, List.length_take, List.length_take]
  omega

theorem groups_regroup {g : Nat} {s : State} (hg : g ≤ s.groups + ((s.coreAt s.coreNo).freeOf s.hart.pid).length) :
    (s.regroup g).groups = g := by
  have hc : (s.regroup g).coreAt s.coreNo = regroupedCore g s.hartNo s.hart.pid (s.coreAt s.coreNo) := by
    rw [State.regroup, State.coreAt_modCore, if_pos rfl]
    rfl
  show (((s.regroup g).coreAt s.coreNo).heldBy s.hartNo).length = g
  rw [hc]
  exact length_heldBy_regrouped hg

/-! ## Migration (R166) -/

/-- Entries below a key are kept, and the others read the default. -/
theorem tget_tbelow {α : Type} (d : α) (n : Nat) (l : List (Nat × α)) (k : Nat) :
    tget d (tbelow n l) k = if k < n then tget d l k else d := by
  by_cases hk : k < n
  · rw [if_pos hk]
    exact tget_filter d (fun i => decide (i < n)) l k (decide_eq_true hk)
  · rw [if_neg hk]
    refine tget_absent d _ k fun q hq he => hk ?_
    have hlt := (List.mem_filter.1 hq).2
    rw [he] at hlt
    exact of_decide_eq_true hlt

/-- Every table of the first n keeps its entries below vl, and reads the default from there on. -/
theorem tget_migrated {α : Type} [DecidableEq α] (d : α) (vl n : Nat) (t : List (Nat × List (Nat × α))) {r : Nat}
    (hr : r < n) (e : Nat) : tget d (tget [] ((List.range n).foldl (fun u r => tset [] u r (tbelow vl (tget [] t r))) []) r) e =
      if e < vl then tget d (tget [] t r) e else d := by
  rw [tget_foldl_tset [] (fun r => tbelow vl (tget [] t r)), if_pos (List.mem_range.2 hr), tget_tbelow]

theorem rv_migrate (vl : Nat) (s : State) {r : Nat} (hr : r < 32) (e : Nat) :
    (s.migrate vl).hart.rv r e = if e < vl then s.hart.rv r e else 0 := tget_migrated 0 vl 32 s.hart.v hr e

theorem rmask_migrate (vl : Nat) (s : State) {k : Nat} (hk : k < 8) (e : Nat) :
    (s.migrate vl).hart.rmask k e = if e < vl then s.hart.rmask k e else 0 := tget_migrated 0 vl 8 s.hart.m hk e

/-! ## setvl (R165) -/

/-- The state of a setvl that is granted demand, groups and vector length, before D takes its result. -/
def granted (k : Nat × Nat × Nat) (h : Hart) (s : State) : State :=
  (({ s with hart := { h with demand := k.1 } } : State).regroup k.2.1).migrate k.2.2

/-- The elements that a setvl grants: those asked for, and no more than its positions hold. -/
def grantedElements (f : Fmt) (req : Word) (s : State) : Word :=
  BitVec.ofNat 64 (min req.toNat (f.pack * (grant f req.toNat s).2.2))

section
variable {c : Ctl} {d b : Operand} {s : State} {req : Word} {h : Hart} (hg : s.hart.guard c = true)
  (he : s.hart.episode = none) (hq : s.hart.vcq = []) (hs : ∀ q, q ∈ s.hart.streams → q.2 = none)
  (ht : takeS b s.hart = some (req, h))
include hg he hq hs ht

/-- With nothing queued and no stream bound, setvl completes with its grant, whatever its destination makes of the result. -/
theorem setvl_delivers (f : Fmt) {h' : Hart}
    (hp : putS d (grantedElements f req s) (granted (grant f req.toNat s) h s).hart = some h') :
    exec (.setvl c f d b) s = .next (completed (granted (grant f req.toNat s) h s) h') := by
  have hwork : ¬ (s.hart.episode.isSome || s.hart.vcq.any fun e => laneWork e.instr) = true := by
    rw [he, hq]
    exact Bool.false_ne_true
  have hstreams : ¬ (s.hart.streams.any fun p => p.2.isSome) = true := by
    rw [List.any_eq_true]
    rintro ⟨q, hm, hsome⟩
    rw [hs q hm] at hsome
    cases hsome
  show execSetvl c f d b s = _
  rw [execSetvl, guarded_on _ hg]
  dsimp only
  rw [if_neg hwork, if_neg hstreams, withSources_of _ _ (⟨s.hart, rfl, ht⟩ : Sources .none b s.hart 0 req h)]
  exact congrArg Host.Outcome.next (deliver_completes (s := granted (grant f req.toNat s) h s) _ s hp)

end

/-- A destination that is no predicate takes its result into the scalar registers and queues alone. -/
theorem putS_frame {o : Operand} {v : Word} {h h' : Hart} (hp : putS o v h = some h') (ho : ∀ n, o ≠ .pm n) :
    ∃ r qs, h' = { h with s := r, qs := qs } := by
  cases o with
  | s n m => exact ⟨_, h.qs, (Option.some.inj hp).symm.trans (Hart.ws_eq _ _ _)⟩
  | q n =>
    simp only [putS] at hp
    split at hp
    · cases hp
    · exact ⟨h.s, _, (Option.some.inj hp).symm⟩
  | pm n => exact absurd rfl (ho n)
  | _ => exact ⟨h.s, h.qs, (Option.some.inj hp).symm⟩

theorem ne_pm_of_isSqp {o : Operand} (h : o.isSqp = true) (n : BitVec 4) : o ≠ .pm n := by
  rintro rfl
  exact absurd h Bool.false_ne_true

theorem destination_of_wf {c : Ctl} {f : Fmt} {d b : Operand} (hw : Instr.wf (.setvl c f d b) = true) : d.isSqp = true := by
  have hform : (f.vector && d.isSqp && b.isSqii) = true := formOk_of_wf hw
  simp only [Bool.and_eq_true] at hform
  exact hform.1.2

/-- The claim of SetVectorLength for a setvl of the instruction set: its destination is a scalar register or a scalar queue. -/
theorem setvl_completes (c : Ctl) (f : Fmt) (d b : Operand) (s : State) (req : Word) (h : Hart)
    (hw : Instr.wf (.setvl c f d b) = true) :
    s.hart.guard c = true → s.hart.episode = none → s.hart.vcq = [] → (∀ q, q ∈ s.hart.streams → q.2 = none) →
    takeS b s.hart = some (req, h) → Room d h →
    let pos := (req.toNat + f.pack - 1) / f.pack
    let dem := min ((pos + 63) / 64) ((s.coreAt s.coreNo).gpart s.hart.pid)
    let target := match (targets ((s.coreAt s.coreNo).gpart s.hart.pid) (s.claims dem)).find? fun k => k.h = s.hartNo with
      | some k => k.t
      | none => 0
    let g := min dem (min target (s.groups + ((s.coreAt s.coreNo).freeOf s.hart.pid).length))
    let vl := min pos (64 * g)
    g ≤ dem ∧ ∃ t, exec (.setvl c f d b) s = .next t ∧ t.hart.demand = dem ∧ t.hart.vl = BitVec.ofNat 11 vl ∧
      t.groups = g ∧ t.hart.pc = h.pc + 12 ∧ t.mem = s.mem ∧ t.hart.p = h.p ∧ t.hart.fflags = h.fflags ∧
      (∀ r < 32, ∀ e, t.hart.rv r e = if e < vl then h.rv r e else 0) ∧
      (∀ k < 8, ∀ e, t.hart.rmask k e = if e < vl then h.rmask k e else 0) ∧
      (∀ n m, d = .s n m → ∀ r, t.hart.rs r =
        if r = n.toNat ∧ r ≠ 0 then BitVec.ofNat 64 (min req.toNat (f.pack * vl)) else h.rs r) := by
  intro hg he hq hs ht hr pos dem target g vl
  obtain ⟨qs, rfl⟩ := takeS_frame ht
  have hr' : Room d (granted (grant f req.toNat s) { s.hart with qs := qs } s).hart := hr
  obtain ⟨h', hp⟩ := putS_room hr' (grantedElements f req s)
  have hregs : ∀ n m, d = .s n m → ∀ r, h'.rs r =
      if r = n.toNat ∧ r ≠ 0 then grantedElements f req s else ({ s.hart with qs := qs } : Hart).rs r := by
    rintro n m rfl r
    rw [← Option.some.inj hp, Hart.rs_ws]
    exact if_congr (and_congr_right fun hrn => by rw [hrn]) rfl rfl
  have hgroups : (granted (grant f req.toNat s) { s.hart with qs := qs } s).groups = g :=
    groups_regroup (s := { s with hart := { s.hart with qs := qs, demand := dem } })
      ((Nat.min_le_right _ _).trans (Nat.min_le_right _ _))
  obtain ⟨r, qs', rfl⟩ := putS_frame hp (ne_pm_of_isSqp (destination_of_wf hw))
  exact ⟨Nat.min_le_left _ _, _, setvl_delivers hg he hq hs ht f hp, rfl, rfl, hgroups, rfl, rfl, rfl, rfl,
    fun r hr e => rv_migrate vl _ hr e, fun k hk e => rmask_migrate vl _ hk e, hregs⟩

/-! ## The destination that the statement leaves open -/

/-- A hart with p1 set. -/
def predicateSet : State := { State.reset with hart := { Hart.reset with run := .running, p := 2 } }

/-- Refutes O45: its claim that the predicates stay as they are fails where D is a predicate. The statement is about every operand
as D, where R165 admits scalar registers and scalar queues alone: in `predicateSet` a request of 0 elements with p1 as D clears p1.
It holds of every setvl of the instruction set (`setvl_completes`), and lacks that premise. -/
theorem not_setVectorLength : ¬ Obligations.SetVectorLength := by
  intro hall
  have hx := setvl_delivers (c := always) (d := .pm 1) (b := .imm 0) (s := predicateSet) rfl rfl rfl (fun q hq => nomatch hq) rfl
    .i32 rfl
  obtain ⟨-, t, ht, -, -, -, -, -, hp, -⟩ :=
    hall always .i32 (.pm 1) (.imm 0) predicateSet 0 predicateSet.hart rfl rfl rfl (fun q hq => nomatch hq) rfl
      fun n h => nomatch h
  cases hx.symm.trans ht
  exact absurd hp (by decide +kernel)

end Sys2Proof.Proofs
end

section
/-! PROOFS. Vector-fetched blocks and the strips of a farm (R174 to R180). -/

namespace Sys2Proof.Proofs

open Sys2Proof.Machine Sys2Proof.Safety

/-! ## vfetch and vpret at their issue (R170, R175, R178) -/

/-- The elements below n that take part in an episode: those that the mask has, where there is one (R175). -/
def participants (m : Option (BitVec 3)) (h : Hart) (n : Nat) : List Nat :=
  (List.range n).filter fun e => match m with | some k => mbit h k.toNat 1 e | none => true

/-- The state in which an episode of the given elements has begun with the values v of its vfetch (R175). -/
def beginEpisode (v : Env) (es : List Nat) (disp : BitVec 32) (s : State) : State :=
  s.onH fun h => { h with episode := some ⟨v, es.map fun e => (e, v.pc + dispAddr disp), [], 0, 0, v.pc⟩ }

theorem runVfetch_eq (m : Option (BitVec 3)) (disp : BitVec 32) (v : Env) (s : State) : runVfetch m disp v s =
    if s.hart.vstart ≠ 0 then .trap (vectorStart s.hart) s 0
    else if (participants m s.hart v.n).isEmpty then .done s
    else .done (beginEpisode v (participants m s.hart v.n) disp s) := by
  cases m <;> rfl

/-- An episode begins with every participant at the block that the vfetch names, and there is none without participants. -/
theorem runVfetch_done {s : State} (hv : s.hart.vstart = 0) (m : Option (BitVec 3)) (disp : BitVec 32) (v : Env) :
    runVfetch m disp v s = .done (if participants m s.hart v.n = [] then s
      else beginEpisode v (participants m s.hart v.n) disp s) := by
  rw [runVfetch_eq, if_neg (not_not_intro hv), apply_ite VRes.done]
  simp only [List.isEmpty_iff]

theorem vfetch_completes {c : Ctl} {s : State} (hi : Issues c s) (hv : s.hart.vstart = 0) (m : Option (BitVec 3))
    (disp : BitVec 32) : exec (.vfetch c m disp) s =
      .next (if participants m s.hart s.vlen = [] then s.issued else ranQueued s { s.issued.hart with
        episode := some ⟨s.envOf (.vfetch c m disp),
          (participants m s.hart s.vlen).map fun e => (e, s.hart.pc + dispAddr disp), [], 0, 0, s.hart.pc⟩ }) :=
  issueV_done (run := runVfetch m disp) hi (runVfetch_done (s := s.issued) hv m disp _)

theorem exec_vpret (c : Ctl) (s : State) : exec (.vpret c) s = issueV (.vpret c) c runVpret s := rfl

/-- vpret of the control thread enters an idle queue with its trap. -/
theorem vpret_traps {c : Ctl} {s : State} (hi : Issues c s) :
    exec (.vpret c) s = .next (ranQueued s { s.issued.hart with
      vcq := [⟨s.hart.pc, .vpret c, s.envOf (.vpret c), some (⟨.vectorThread, 1⟩, 0), false⟩] }) := by
  rw [exec_vpret, issueV_trap (run := runVpret) hi rfl (fun h => nomatch h),
    enqueue_head (t := s.issued) _ rfl (vcq_of_issues hi)]
  rfl

/-- An instruction that work holds back enters the queue with the values of its issue. -/
theorem issueV_waits {i : Instr} {c : Ctl} {s : State} (hg : s.hart.guard c = true) (hq : s.hart.vqf = false)
    (hb : s.vectorIdle = false) (hl : s.hart.vcq.length < Config.commandQueueDepth) (run : Env → State → VRes) :
    issueV i c run s = .next (s.issued.enqueue i (s.envOf i) none) := by
  rw [issueV, entering_room hg hq hl]
  dsimp only
  rw [hb, if_neg Bool.false_ne_true]

theorem vpret_waits {c : Ctl} {s : State} (hg : s.hart.guard c = true) (hq : s.hart.vqf = false)
    (hb : s.vectorIdle = false) (hl : s.hart.vcq.length < Config.commandQueueDepth) :
    exec (.vpret c) s = .next (ranQueued s { s.issued.hart with
      vcq := s.hart.vcq ++ [⟨s.hart.pc, .vpret c, s.envOf (.vpret c), none, false⟩] }) := by
  rw [exec_vpret, issueV_waits hg hq hb hl]
  rfl

/-! ## A step of the vector streams (R170, R176) -/

/-- Settling sets vstart, SEED and CTR and the values that wait for them, and nothing else. -/
theorem settle_keeps {γ : Type} (g : Hart → γ)
    (hv : ∀ h v vs, g { h with vstart := v, vsets := vs } = g h)
    (hs : ∀ h a b rs, g { h with seed := a, ctr := b, srsets := rs } = g h) (h : Hart) : g h.settle = g h := by
  refine (List.foldlRecOn _ _ (motive := fun x => g x = g _) rfl fun x hx p _ => ?_).trans
    (List.foldlRecOn _ _ (motive := fun x => g x = g h) rfl fun x hx p _ => ?_)
  · split
    · exact hx
    · exact (hs _ _ _ _).trans hx
  · split
    · exact hx
    · exact (hv _ _ _).trans hx

@[simp] theorem settle_s (h : Hart) : h.settle.s = h.s := settle_keeps Hart.s (fun _ _ _ => rfl) (fun _ _ _ _ => rfl) h
@[simp] theorem settle_v (h : Hart) : h.settle.v = h.v := settle_keeps Hart.v (fun _ _ _ => rfl) (fun _ _ _ _ => rfl) h
@[simp] theorem settle_pc (h : Hart) : h.settle.pc = h.pc := settle_keeps Hart.pc (fun _ _ _ => rfl) (fun _ _ _ _ => rfl) h
@[simp] theorem settle_vcq (h : Hart) : h.settle.vcq = h.vcq := settle_keeps Hart.vcq (fun _ _ _ => rfl) (fun _ _ _ _ => rfl) h
@[simp] theorem settle_episode (h : Hart) : h.settle.episode = h.episode :=
  settle_keeps Hart.episode (fun _ _ _ => rfl) (fun _ _ _ _ => rfl) h

section
variable {s : State} (hr : s.hart.run = .running) (hq : s.hart.vqf = false) (hh : s.hart.hold = false)
include hr hq hh

theorem vectorRuns_of : s.vectorRuns = true := by
  rw [State.vectorRuns, hr, hq, hh]
  rfl

/-- Without an episode a step is one of the queue. -/
theorem vectorStep_queue (he : s.hart.episode = none) :
    s.vectorStep = (runFirst (fun _ => true) [] s.hart.vcq s).map fun p => p.2.onH Hart.settle := by
  rw [State.vectorStep, vectorRuns_of hr hq hh, he]
  rfl

/-- With an episode that no older access holds back, a step is one of its block. -/
theorem vectorStep_episode {ep : Episode} (he : s.hart.episode = some ep) (ho : s.olderRun ep = none) {t : State}
    (ht : s.episodeRun ep = some (t, none)) : s.vectorStep = some (t.onH Hart.settle) := by
  rw [State.vectorStep, vectorRuns_of hr hq hh, he]
  dsimp only
  rw [State.episodeStep, ho, ht]
  rfl

end

/-! ## vpret of the control thread in the queue (R178, log 83) -/

/-- A vpret begins at the head of the queue once vstart, SEED and CTR have settled for it: it names no queue and stores
nothing. -/
theorem mayBegin_vpret {s : State} {e : VEntry} {c : Ctl} (hi : e.instr = .vpret c) (ht : e.trap = none)
    (hs : settledFor s.hart e = true) : mayBegin s [] e = true := by
  obtain ⟨pc, i, env, trap, stopped⟩ := e
  cases hi
  cases ht
  rw [mayBegin, hs]
  rfl

/-- Performed from the queue, vpret raises Vector-Thread Fault 1, and writes no memory. -/
theorem runEntry_vpret (c : Ctl) (v : Env) (s : State) :
    ∃ t, runEntry (.vpret c) v s = .trap ⟨.vectorThread, 1⟩ t 0 ∧ t.mem = s.mem :=
  ⟨_, rfl, rfl⟩

/-- The vpret at the head of the queue comes to hold its trap. -/
theorem vectorStep_vpret {s : State} {e : VEntry} {es : List VEntry} {c : Ctl} (hr : s.hart.run = .running)
    (hq : s.hart.vqf = false) (hh : s.hart.hold = false) (he : s.hart.episode = none) (hc : s.hart.vcq = e :: es)
    (hi : e.instr = .vpret c) (ht : e.trap = none) (hs : settledFor s.hart e = true) :
    ∃ t, s.vectorStep = some t ∧ t.mem = s.mem ∧
      t.hart.vcq = { e with trap := some (⟨.vectorThread, 1⟩, 0) } :: es := by
  obtain ⟨t, hrun, hmem⟩ := runEntry_vpret c e.env (s.onH fun h => { h with vcq := es })
  have hfirst : runFirst (fun _ => true) [] (e :: es) s =
      some (e, t.onH fun h => { h with vcq := { e with trap := some (⟨.vectorThread, 1⟩, 0) } :: es }) := by
    rw [runFirst, mayBegin_vpret hi ht hs, Bool.true_and, if_pos rfl, hi, List.nil_append, hrun]
    rfl
  rw [vectorStep_queue hr hq hh he, hc, hfirst]
  exact ⟨_, rfl, hmem, settle_vcq _⟩

/-! ## The instruction of a block (R176) -/

/-- Fetching an instruction fills translation caches alone. -/
theorem fetchWord_frame {s u : State} {a : Addr} {bs : List Byte} (h : s.fetchWord a = .ok (bs, u)) :
    u.hart = s.hart ∧ u.mem = s.mem := by
  unfold State.fetchWord at h
  dsimp only at h
  split at h
  · cases h
  · cases h
    exact ⟨congrArg Contexts.hart (contexts_keep _ s), keep_mem _ s⟩

theorem fetch_frame {s u : State} {a : Addr} {bs : List Byte} (h : s.fetch a = .ok (bs, u)) :
    u.hart = s.hart ∧ u.mem = s.mem := by
  unfold State.fetch at h
  split at h
  · cases h
  next s0 h0 =>
    split at h
    · cases h
    next s1 h1 =>
      split at h
      · cases h
      next s2 h2 =>
        cases h
        obtain ⟨hh0, hm0⟩ := fetchWord_frame h0
        obtain ⟨hh1, hm1⟩ := fetchWord_frame h1
        obtain ⟨hh2, hm2⟩ := fetchWord_frame h2
        exact ⟨hh2.trans (hh1.trans hh0), hm2.trans (hm1.trans hm0)⟩

/-- The guard and hints of the word of an instruction that accesses no memory are those of the instruction. -/
theorem ctlOf_of_decode {w : IWord} {i : Instr} {c : Ctl} (hd : decode w = .ok i) (hc : i.ctl? = some c)
    (hm : i.isMem = false) {op : BitVec 8} {fn : BitVec 6} {d a b x : BitVec 18} (he : encode i = mkWord op fn c d a b x) :
    ctlOf false w = c := by
  obtain ⟨hw, hew⟩ := decode_ok hd
  obtain ⟨c', hc', hok, -⟩ := ctl_of_wf hw
  cases hc.symm.trans hc'
  rw [← hew, he]
  refine mkWord_ctl _ _ _ _ _ _ _ false (fun h => nomatch h) fun _ => ?_
  rw [hm, Ctl.ok] at hok
  simpa using (Bool.and_eq_true_iff.1 hok).2

/-- What a block's fetch leaves: the state in which its instruction runs. -/
def fetched (s u : State) : State := u.atLevel s.hart.level

theorem fetched_frame {s u : State} {l : Level} {a : Addr} {bs : List Byte} (h : (s.atLevel l).fetch a = .ok (bs, u)) :
    (fetched s u).hart = s.hart ∧ (fetched s u).mem = s.mem := by
  obtain ⟨hh, hm⟩ := fetch_frame h
  refine ⟨?_, hm⟩
  show ({ u.hart with level := s.hart.level } : Hart) = s.hart
  rw [hh]
  rfl

/-- A block in progress runs the instruction at its address. -/
theorem episodeRun_instr {ep : Episode} {s u t : State} {bs : List Byte} {i : Instr} (hg : ep.group ≠ [])
    (hf : (s.atLevel ep.env.level).fetch ep.at_ = .ok (bs, u)) (hd : decode (BitVec.ofNat 96 (leNat bs)) = .ok i)
    (hb : (fetched s u).runBlock ep i (ctlOf false (BitVec.ofNat 96 (leNat bs))) = some (t, none)) :
    s.episodeRun ep = some (t, none) := by
  rw [State.episodeRun, State.pickGroup, if_pos hg]
  dsimp only
  rw [hf]
  dsimp only
  rw [hd]
  dsimp only
  rw [show (u.atLevel s.hart.level).runBlock ep i _ = _ from hb]
  rfl

/-- The participants once the group has left its block, each of it for where f sends it or for good (R176, R178). -/
def pcsAfter (ep : Episode) (f : Nat → Option Addr) : List (Nat × Addr) :=
  ep.pcs.filterMap fun p => if ep.group.contains p.1 then (f p.1).map fun a => (p.1, a) else some p

theorem pcsAfter_done (ep : Episode) : pcsAfter ep (fun _ => none) = ep.pcs.filter fun p => !ep.group.contains p.1 := by
  rw [pcsAfter, ← List.filterMap_eq_filter]
  refine List.filterMap_congr fun p _ => ?_
  rw [Option.guard]
  cases ep.group.contains p.1 <;> rfl

theorem pcsAfter_goes (ep : Episode) (f : Nat → Addr) : pcsAfter ep (fun e => some (f e)) =
    ep.pcs.map fun p => if ep.group.contains p.1 then (p.1, f p.1) else p := by
  rw [pcsAfter, ← List.filterMap_eq_map]
  refine List.filterMap_congr fun p _ => ?_
  rw [Function.comp_apply]
  cases ep.group.contains p.1 <;> rfl

/-- The episode that goes on with the given participants, or has ended with the last of them (R178). -/
def goesOn (ep : Episode) (pcs : List (Nat × Addr)) : Option Episode :=
  if pcs = [] then none else some { ep with pcs := pcs, group := [] }

theorem endBlock_eq (ep : Episode) (f : Nat → Option Addr) (s : State) :
    s.endBlock ep f = s.onH fun h => { h with episode := goesOn ep (pcsAfter ep f) } := by
  rw [goesOn, ← if_congr List.isEmpty_iff rfl rfl]
  rfl

section
variable {ep : Episode} {c : Ctl} {s : State} (hg : ({ s.hart with p := ep.env.p } : Hart).guard c = true)
include hg

theorem runBlock_vpret : s.runBlock ep (.vpret c) c = some (s.endBlock ep fun _ => none, none) := by
  rw [State.runBlock, hg]
  rfl

/-- Where a vfetch of a block sends a virtual processor: to the block that it names, or on (R178). -/
def sendsTo (m : Option (BitVec 3)) (disp : BitVec 32) (a : Addr) (h : Hart) (e : Nat) : Addr :=
  if (match m with | some k => mbit h k.toNat 1 e | none => true) then a + dispAddr disp else a + 12

theorem runBlock_vfetch (m : Option (BitVec 3)) (disp : BitVec 32) : s.runBlock ep (.vfetch c m disp) c =
    some (s.endBlock ep fun e => some (sendsTo m disp ep.at_ s.hart e), none) := by
  rw [State.runBlock, hg]
  cases m <;> rfl

end

/-- A block whose instruction ends it for its group: a step leaves memory, registers and the program counter of the control
thread as they are, and the episode as the group leaves it. -/
theorem vectorStep_block {ep : Episode} {s u : State} {bs : List Byte} {i : Instr} {c : Ctl} (hr : s.hart.run = .running)
    (hq : s.hart.vqf = false) (hh : s.hart.hold = false) (he : s.hart.episode = some ep) (hg : ep.group ≠ [])
    (ho : s.olderRun ep = none) (hf : (s.atLevel ep.env.level).fetch ep.at_ = .ok (bs, u))
    (hd : decode (BitVec.ofNat 96 (leNat bs)) = .ok i) (hc : ctlOf false (BitVec.ofNat 96 (leNat bs)) = c)
    (f : Hart → Nat → Option Addr)
    (hb : ∀ t : State, t.hart = s.hart → t.runBlock ep i c = some (t.endBlock ep (f t.hart), none)) :
    ∃ t, s.vectorStep = some t ∧ t.mem = s.mem ∧ t.hart.s = s.hart.s ∧ t.hart.v = s.hart.v ∧ t.hart.pc = s.hart.pc ∧
      t.hart.episode = goesOn ep (pcsAfter ep (f s.hart)) := by
  subst hc
  obtain ⟨hhart, hmem⟩ := fetched_frame hf
  have hrun := hb (fetched s u) hhart
  rw [endBlock_eq, hhart] at hrun
  exact ⟨_, vectorStep_episode hr hq hh he ho (episodeRun_instr hg hf hd hrun), hmem,
    (settle_s _).trans (congrArg Hart.s hhart :), (settle_v _).trans (congrArg Hart.v hhart :),
    (settle_pc _).trans (congrArg Hart.pc hhart :), settle_episode _⟩

/-! ## Strip farms (R179, R180) -/

/-- A farm whose elements are all claimed, with an empty pool, delivers all ones. -/
theorem farmLoop_finished {l : Launch} {s : State} (hl : s.myLaunch = some l) (hd : l.fhi.toNat ≤ l.next.toNat)
    (hp : l.pool = []) (d : BitVec 6) (m : BitVec 3) (r : BitVec 5) (n dens : Nat) (full : Bool) (fuel : Nat) :
    farmLoop d m r n dens full (fuel + 1) s = .done (s.onH (Hart.ws d.toNat (BitVec.allOnes 64))) := by
  rw [farmLoop, hl]
  dsimp only
  rw [decide_eq_false (Nat.not_lt.2 hd), hp]
  rfl

/-- A farm without bitmap and compaction delivers its next strip, all of it active. -/
theorem farmLoop_strip {l : Launch} {s : State} (hl : s.myLaunch = some l) (hd : l.next.toNat < l.fhi.toNat)
    (hb : l.bitmap = false) (hc : l.compact = false) (d : BitVec 6) (m : BitVec 3) (r : BitVec 5) (n dens fuel : Nat) :
    let len := min n (l.fhi.toNat - l.next.toNat)
    farmLoop d m r n dens false (fuel + 1) s = .done (farmDeliver d m r n (l.next - l.flo) (List.range len)
      (fun e => (l.next - l.flo).toNat + e) (s.modLaunch l.seq fun l => { l with next := l.next + BitVec.ofNat 64 len })) := by
  rw [farmLoop, hl]
  dsimp only
  rw [decide_eq_true hd, activeOf, hb, hc]
  rfl

theorem runFarmNext_loop {l : Launch} {v : Env} {s : State} (hv : s.hart.vstart = 0) (hl : s.myLaunch = some l)
    (hf : l.farm = true) (hn : 0 < v.n) (d : BitVec 6) (m : BitVec 3) (r : BitVec 5) : runFarmNext d m r v s =
      farmLoop d m r v.n (min (s.coreAt s.coreNo).cdens.toNat 100) (decide (8 ≤ l.pool.length)) 10 s := by
  rw [runFarmNext, if_neg (not_not_intro hv), hl]
  dsimp only
  rw [hf, if_neg (Nat.ne_of_gt hn)]
  rfl

/-- A position of one element holds one mask value (R99, R101). -/
theorem setMbits_one (e : Nat) (t : List (Nat × Byte)) : setMbits 1 e true t = tset 0 t e 0xFF := by
  have hall (x : Byte) : x ||| BitVec.ofNat 8 ((2 ^ (8 / 1) - 1) * 2 ^ 0) = 0xFF := BitVec.or_allOnes
  simp only [setMbits, Nat.div_one, Nat.mod_one, Nat.zero_mul, if_true]
  exact congrArg (tset 0 t e) (hall _)

/-- The mask of a strip is set at its elements, and nowhere else. -/
theorem tget_stripMask (len e : Nat) :
    tget 0 ((List.range len).foldl (fun t i => setMbits 1 i true t) []) e = if e < len then (0xFF : Byte) else 0 := by
  simp only [setMbits_one]
  rw [tget_foldl_tset]
  simp only [List.mem_range]
  rfl

section
variable {c : Ctl} {s : State} {l : Launch} (hi : Issues c s) (hv : s.hart.vstart = 0) (hl : s.myLaunch = some l)
  (hf : l.farm = true) (hn : 0 < s.vlen)
include hi hv hl hf hn

theorem farmNext_finished (hd : l.fhi.toNat ≤ l.next.toNat) (hp : l.pool = []) (d : BitVec 6) (m : BitVec 3) (r : BitVec 5) :
    exec (.farmNext c d m r) s = .next (ranQueued s (s.issued.hart.ws d.toNat (BitVec.allOnes 64))) :=
  issueV_done (run := runFarmNext d m r) hi
    ((runFarmNext_loop (s := s.issued) hv hl hf hn d m r).trans (farmLoop_finished (s := s.issued) hl hd hp d m r _ _ _ 9))

theorem farmNext_strip (hd : l.next.toNat < l.fhi.toNat) (hp : l.pool.length < 8) (hb : l.bitmap = false)
    (hc : l.compact = false) (d : BitVec 6) (m : BitVec 3) (r : BitVec 5) :
    let len := min s.vlen (l.fhi.toNat - l.next.toNat)
    exec (.farmNext c d m r) s = .next (farmDeliver d m r s.vlen (l.next - l.flo) (List.range len)
      (fun e => (l.next - l.flo).toNat + e)
      (s.issued.modLaunch l.seq fun l => { l with next := l.next + BitVec.ofNat 64 len })) := by
  have hloop := runFarmNext_loop (v := s.envOf (.farmNext c d m r)) (s := s.issued) hv hl hf hn d m r
  rw [decide_eq_false (Nat.not_le.2 hp)] at hloop
  exact issueV_done (run := runFarmNext d m r) hi (hloop.trans (farmLoop_strip (s := s.issued) hl hd hb hc d m r _ _ 9))

end

/-- Settles O46: the issue of each instruction, the trap of a queued vpret, and the two ends of a block. -/
theorem strips : Obligations.Strips := by
  refine ⟨fun c m disp s hi hv => ?vfetch, fun c s hi => vpret_traps hi, fun c s hg hq hb hl => vpret_waits hg hq hb hl,
    fun c s e es hr hq hh he hc hi ht hs => vectorStep_vpret hr hq hh he hc hi ht hs,
    fun c ep s u bs hr hq hh he hg ho hf hd hp => ?blockVpret,
    fun c m disp ep s u bs hr hq hh he hg ho hne hf hd hp => ?blockVfetch,
    fun c d m r s l hi hv hl hf hn => ⟨fun hd hp => farmNext_finished hi hv hl hf hn hd hp d m r,
      fun hd hp hb hc => ?strip⟩⟩
  case vfetch => cases m <;> exact vfetch_completes hi hv _ disp
  case blockVpret =>
    have hblock := vectorStep_block hr hq hh he hg ho hf hd (ctlOf_of_decode hd rfl rfl rfl) (fun _ _ => none)
      fun t ht => runBlock_vpret (ht ▸ hp)
    rw [pcsAfter_done] at hblock
    exact hblock
  case blockVfetch =>
    have hblock := vectorStep_block hr hq hh he hg ho hf hd (ctlOf_of_decode hd rfl rfl rfl)
      (fun h e => some (sendsTo m disp ep.at_ h e)) fun t ht => runBlock_vfetch (ht ▸ hp) m disp
    rw [pcsAfter_goes, goesOn, if_neg (by rwa [List.map_eq_nil_iff])] at hblock
    cases m <;> exact hblock
  case strip =>
    refine ⟨_, _, farmNext_strip hi hv hl hf hn hd hp hb hc d m r, tget_stripMask _, fun e => ?_⟩
    rw [tget_foldl_tset]
    simp only [List.mem_range]
    rfl

end Sys2Proof.Proofs
end

section
/-! PROOFS. The canonical form of memory, and memory as what it reads (R185, R380, R390). -/

namespace Sys2Proof.Proofs

open Sys2Proof.Machine Sys2Proof.Safety

/-- Settles O24: nothing is listed after a cold reset (log 3). -/
theorem memoryFormAtReset : Obligations.MemoryFormAtReset := twf_nil 0

/-- Without a migration, a write of bytes leaves every byte outside its range alone. -/
theorem byte_putBytes_outside {s : State} (hm : s.pkg.migFwd = false) (hf : s.pkg.fwds = []) {pa a : Nat} {bs : List Byte}
    (ha : a < pa ∨ pa + bs.length ≤ a) : (s.putBytes pa bs).byte a = s.byte a := by
  refine State.byte_putBytes_other bs pa a s fun i hi => ?_
  rw [State.forward_of_not_fwd hm hf, State.forward_of_not_fwd hm hf]
  omega

/-- Settles O26: tables in canonical form that read alike are equal, and a run of bytes reads back as written. -/
theorem memoryIsItsReads : Obligations.MemoryIsItsReads :=
  ⟨fun _ _ hs ht h => State.mem_ext hs ht h, fun s pa bs hm hf =>
    ⟨State.bytes_putBytes pa bs s hm hf, fun _ ha => byte_putBytes_outside hm hf ha⟩⟩

end Sys2Proof.Proofs
end

section
/-! PROOFS. The canonical form of memory through the shared operations of the state: what writes bytes, what only reads them, and
what ends, saves or traps a context (R185, R380, R397 to R412, R423). -/

namespace Sys2Proof.Proofs

open Sys2Proof.Machine Sys2Proof.Safety

/-! ## How the form passes through a state

A change of any field but `mem` keeps the form by definition: where a rule below asks for the form of such a state, the form
of the state before is the proof. -/

variable {s t : State}

theorem form_of_mem (e : t.mem = s.mem) (h : MemoryForm s) : MemoryForm t := by
  unfold MemoryForm
  rwa [e]

theorem form_iff : MemoryForm s ↔ Memory.wf s.mem = true := Iff.rfl

theorem form_ite {c : Prop} [Decidable c] (hs : MemoryForm s) (ht : MemoryForm t) : MemoryForm (if c then s else t) := by
  split
  · exact hs
  · exact ht

/-- The form of the state of a pair. -/
theorem form_fst {α : Type} {p : State × α} {x : α} (e : p = (t, x)) (h : MemoryForm p.1) : MemoryForm t := by
  rw [e] at h
  exact h

theorem form_snd {α : Type} {p : α × State} {x : α} (e : p = (x, t)) (h : MemoryForm p.2) : MemoryForm t := by
  rw [e] at h
  exact h

/-- A fold keeps the form where each of its steps does. -/
theorem form_foldl {α : Type} {f : State → α → State} {l : List α} (hf : ∀ {s} x, MemoryForm s → MemoryForm (f s x))
    (h : MemoryForm s) : MemoryForm (l.foldl f s) := by
  induction l generalizing s with
  | nil => exact h
  | cons x l ih => exact ih (hf x h)

theorem form_onH {f : Hart → Hart} (h : MemoryForm s) : MemoryForm (s.onH f) := h

theorem form_modPkg {f : Pkg → Pkg} (h : MemoryForm s) : MemoryForm (s.modPkg f) := h

theorem form_focus {n : Nat} (h : MemoryForm s) : MemoryForm (s.focus n) := form_of_mem (focus_frame n s).2.2.2 h

theorem form_atHart {n : Nat} {f : State → State} (hf : ∀ {s}, MemoryForm s → MemoryForm (f s)) (h : MemoryForm s) :
    MemoryForm (s.atHart n f) := form_focus (hf (form_focus h))

theorem form_modHart {n : Nat} {f : Hart → Hart} (h : MemoryForm s) : MemoryForm (s.modHart n f) := form_atHart (fun h => h) h

theorem form_modZone {z : Nat} {f : Zone → Zone} (h : MemoryForm s) : MemoryForm (s.modZone z f) :=
  form_of_mem (modZone_mem z f s) h

/-! ## Writes of bytes: the only changes of memory -/

variable {pa n : Nat} {bs : List Byte}

theorem form_putBytes (h : MemoryForm s) : MemoryForm (s.putBytes pa bs) := State.wf_putBytes bs pa h

theorem form_write {g : BitVec 28} (h : MemoryForm s) : MemoryForm (s.write pa bs g) := State.wf_write h pa bs g

theorem form_writeDev (h : MemoryForm s) : MemoryForm (s.writeDev pa bs) := State.wf_writeDev h pa bs

theorem form_fillDev (h : MemoryForm s) : MemoryForm (s.fillDev pa bs) := State.wf_fillDev h pa bs

theorem form_fillOpaque (h : MemoryForm s) : MemoryForm (s.fillOpaque pa n) := State.wf_fillOpaque h pa n

/-! ## Notes of a write: poison, frames, dirty lines and the lining -/

theorem form_cover {ws : List (Nat × Nat)} (h : MemoryForm s) : MemoryForm (s.cover ws) := by
  unfold State.cover
  exact form_ite h h

theorem form_setPoison {l : Nat} (h : MemoryForm s) : MemoryForm (s.setPoison l) := by
  unfold State.setPoison
  exact form_ite h h

theorem form_markFrame {q : Option Word} (h : MemoryForm s) : MemoryForm (s.markFrame q pa) := by
  unfold State.markFrame
  split
  · exact h
  · exact form_ite h h

theorem form_noteWrite (h : MemoryForm s) : MemoryForm s.noteWrite := by
  unfold State.noteWrite
  exact form_ite h h

theorem form_patchHome (h : MemoryForm s) : MemoryForm (s.patchHome pa bs) := form_of_mem (State.patchHome_mem pa bs s) h

theorem form_soilChunk {o : Holder} {c : Chunk} (h : MemoryForm s) : MemoryForm (s.soilChunk o c bs) :=
  form_of_mem (soilChunk_mem o c bs s) h

theorem form_makeRoom {fuel : Nat} (h : MemoryForm s) : MemoryForm (s.makeRoom n fuel) := by
  induction fuel generalizing s with
  | zero => exact h
  | succ fuel ih =>
    unfold State.makeRoom
    refine form_ite h ?_
    split
    · exact form_ite (ih h) h
    · exact h

theorem form_appendSlot (h : MemoryForm s) : MemoryForm (s.appendSlot bs) := form_onH (form_writeDev h)

theorem form_appendSlots {bss : List (List Byte)} (h : MemoryForm s) : MemoryForm (s.appendSlots bss) := by
  induction bss generalizing s with
  | nil => exact h
  | cons b bss ih =>
    unfold State.appendSlots
    exact form_ite (form_makeRoom h) (ih (form_appendSlot (form_makeRoom h)))

theorem form_append {r : Record} (h : MemoryForm s) : MemoryForm (s.append r) := by
  unfold State.append
  exact form_ite h (form_ite (form_makeRoom h) (form_onH (form_appendSlot (form_makeRoom h))))

/-! ## Late stores -/

theorem form_writePart {o : Holder} {c : Chunk} {g : BitVec 28} (h : MemoryForm s) : MemoryForm (writePart o c bs g s) :=
  form_noteWrite (form_markFrame (form_write (form_soilChunk h)))

theorem form_lateChunks {cs : List Chunk} (h : MemoryForm s) : MemoryForm (State.lateChunks cs bs s) := by
  induction cs generalizing bs s with
  | nil => exact h
  | cons c cs ih => rw [lateChunks_cons]; exact ih (form_writePart h)

theorem form_lateStore (h : MemoryForm s) : MemoryForm s.lateStore := by
  unfold State.lateStore
  split
  · exact h
  · exact form_cover (form_lateChunks h)

theorem form_lateStores (h : MemoryForm s) : MemoryForm s.lateStores := form_foldl (fun _ => form_lateStore) h

/-! ## A context leaves, and a launch is stopped -/

theorem form_countEnd {k : Hart} (h : MemoryForm s) : MemoryForm (s.countEnd k) := by
  unfold State.countEnd
  split
  · exact h
  · exact h

theorem form_vacate {x : Hart} (h : MemoryForm s) : MemoryForm (s.vacate x) := form_ite h h

theorem form_withdraw {n : Nat} (h : MemoryForm s) : MemoryForm (s.withdraw n) := h

theorem form_carryCounters {slot : Bool} {x : Hart} {n : Nat} (h : MemoryForm s) : MemoryForm (s.carryCounters n slot x) :=
  form_modPkg h

theorem form_modCore {n : Nat} {f : Core → Core} (h : MemoryForm s) : MemoryForm (s.modCore n f) := h

theorem form_emptyMaps {x : Hart} (h : MemoryForm s) : MemoryForm (s.emptyMaps x) := h

theorem form_cleanIf {f : Dirty → Bool} (h : MemoryForm s) : MemoryForm (s.cleanIf f) := h

theorem form_givenBack {tiles : Bool} (h : MemoryForm s) : MemoryForm (givenBack tiles s) := by
  unfold givenBack
  extract_lets t₁ t₂ t₃
  have h₂ : MemoryForm t₂ := form_modCore (form_carryCounters (form_withdraw h) : MemoryForm t₁)
  exact form_emptyMaps (form_ite h₂ h₂ : MemoryForm t₃)

theorem form_leaveWith {tiles : Bool} (h : MemoryForm s) : MemoryForm (s.leaveWith tiles) := by
  rw [leaveWith_eq]
  exact form_vacate (form_givenBack (form_lateStores h))

theorem form_leave (h : MemoryForm s) : MemoryForm s.leave := form_leaveWith h

theorem form_stopSaved {tiles : Bool} {c : Saved} (h : MemoryForm s) : MemoryForm (stopSaved tiles s c) :=
  form_ite (form_countEnd h) (form_countEnd h)

theorem form_stopSlot {tiles : Bool} {q : Word} (h : MemoryForm s) : MemoryForm (stopSlot tiles q s n) := by
  unfold stopSlot
  exact form_ite (form_atHart (fun h => form_leaveWith (form_countEnd (form_lateStores h))) h) h

theorem form_stopLaunchWith {tiles : Bool} {q : Word} {status : Byte} (h : MemoryForm s) :
    MemoryForm (s.stopLaunchWith tiles q status) := by
  obtain ⟨u, e⟩ := stopLaunchWith_eq tiles q status s
  rw [e]
  exact form_foldl (fun _ => form_stopSaved) (form_foldl (fun _ => form_stopSlot) h)

theorem form_stopLaunch {q : Word} {status : Byte} (h : MemoryForm s) : MemoryForm (s.stopLaunch q status) :=
  form_stopLaunchWith h

/-! ## The journal and the save area -/

theorem form_writeControl (h : MemoryForm s) : MemoryForm s.writeControl := form_writeDev h

theorem form_enableJournal (h : MemoryForm s) : MemoryForm s.enableJournal := form_writeControl h

theorem form_journal {type code : Byte} {pid : Option Byte} {queue : Option Nat} {cid : Option (BitVec 12)}
    {slot lseq pc qual aux : Word} {payload : List Byte} (h : MemoryForm s) :
    MemoryForm (s.journal type code pid queue cid slot lseq pc qual aux payload) := by
  unfold State.journal
  refine form_ite h ?_
  extract_lets i a rest s₁ s₂ s₃
  have h₁ : MemoryForm s₁ := form_writeDev h
  have h₂ : MemoryForm s₂ := form_writeDev h₁
  have h₃ : MemoryForm s₃ := form_writeDev h₂
  exact form_writeControl (form_modPkg h₃)

theorem form_packageFault {cls : Byte} {aux : Word} (h : MemoryForm s) : MemoryForm (s.packageFault cls aux) := by
  unfold State.packageFault
  extract_lets s₁
  have hs : MemoryForm s₁ := form_journal h
  exact form_iff.2 hs

theorem form_writeArea {r : Reason} {spc fva : Word} {groups : Nat} (h : MemoryForm s) :
    MemoryForm (s.writeArea r spc fva groups) :=
  form_fillOpaque (form_fillDev (form_fillOpaque (form_fillOpaque (form_fillDev h))))

theorem form_saveContext {r : Reason} {spc fva : Word} (h : MemoryForm s) : MemoryForm (s.saveContext r spc fva) := by
  unfold State.saveContext
  extract_lets s₁ groups s₂ k src kept c s₃ s₄ s₅
  have h₁ : MemoryForm s₁ := form_onH (form_withdraw (form_lateStores h))
  have h₂ : MemoryForm s₂ := form_writeArea h₁
  have h₃ : MemoryForm s₃ := form_carryCounters h₂
  exact form_vacate (form_cleanIf (form_modCore h₃ : MemoryForm s₄) : MemoryForm s₅)

/-! ## Traps -/

variable {tr : Trap} {a : Addr}

theorem form_endTask (h : MemoryForm s) : MemoryForm s.endTask := by
  unfold State.endTask
  split
  · exact form_stopLaunch h
  · exact form_leave h

theorem form_terminate {vq : Bool} (h : MemoryForm s) : MemoryForm (s.terminate vq tr a) :=
  form_ite (form_packageFault h) (form_endTask h)

theorem form_takeTrapTo (h : MemoryForm s) : MemoryForm (s.takeTrapTo tr a) :=
  form_ite h (form_ite (form_terminate h) (form_ite (form_saveContext h) h))

theorem form_takeTrap (h : MemoryForm s) : MemoryForm (s.takeTrap tr) := form_takeTrapTo h

theorem form_takeVectorTrap {i : Instr} {stopped : Bool} (h : MemoryForm s) :
    MemoryForm (s.takeVectorTrap tr i a stopped n) := by
  unfold State.takeVectorTrap
  have hs {e : Nat} : MemoryForm (if stopped then s.onH fun h => { h with vstart := BitVec.ofNat 13 e } else s) := form_ite h h
  exact form_ite (form_terminate hs) (form_ite (form_ite hs (form_saveContext hs)) hs)

theorem form_doffViolation {code : Nat} (h : MemoryForm s) : MemoryForm (s.doffViolation code) := form_takeTrap h

/-! ## Accesses of the focused hart -/

variable {m : RecMeta} {acc : Acc} {va : Word} {vec al : Bool}

theorem form_keep {fills : List TlbEntry} (h : MemoryForm s) : MemoryForm (s.keep fills) := form_of_mem (keep_mem fills s) h

theorem form_loadAt {o : Holder} (h : MemoryForm s) : MemoryForm (s.loadAt o acc).2 := form_of_mem (loadAt_mem o acc s) h

theorem form_logChunk {c : Chunk} (h : MemoryForm s) : MemoryForm (s.logChunk m c bs) := by
  unfold State.logChunk
  exact form_ite h (form_foldl (fun _ => form_append) h)

theorem form_storeChunk {c : Chunk} (h : MemoryForm s) : MemoryForm (s.storeChunk m c bs) :=
  form_noteWrite (form_markFrame (form_write (form_soilChunk (form_logChunk h))))

theorem form_storeChunks {cs : List Chunk} (h : MemoryForm s) : MemoryForm (State.storeChunks m cs bs s) := by
  induction cs generalizing bs s with
  | nil => exact h
  | cons c cs ih => exact ih (form_storeChunk h)

theorem form_storeAt (h : MemoryForm s) : MemoryForm (s.storeAt m acc bs) := form_storeChunks (form_keep h)

theorem form_load (h : MemoryForm s) (e : s.load va n vec al = .ok (bs, t)) : MemoryForm t := by
  unfold State.load at e
  split at e
  · cases e
  · obtain rfl : _ = t := congrArg Prod.snd (Except.ok.inj e)
    exact form_loadAt h

theorem form_store (h : MemoryForm s) (e : s.store va bs vec al m = .ok t) : MemoryForm t := by
  unfold State.store at e
  split at e
  · cases e
  split at e
  · cases e
  · obtain rfl := Except.ok.inj e
    exact form_cover (form_storeAt h)

theorem form_dropWords {f : CachedWord → Bool} (h : MemoryForm s) : MemoryForm (s.dropWords f) := form_ite h h

theorem form_purge {g : Agent} (h : MemoryForm s) : MemoryForm (s.purge g va n) := form_ite h (form_dropWords h)

theorem form_fillWord {k : Nat} (h : MemoryForm s) : MemoryForm (s.fillWord k pa) := form_ite h h

theorem form_fetchWord (h : MemoryForm s) (e : s.fetchWord a = .ok (bs, t)) : MemoryForm t := by
  unfold State.fetchWord at e
  dsimp only at e
  split at e
  · cases e
  · obtain rfl : _ = t := congrArg Prod.snd (Except.ok.inj e)
    exact form_keep h

theorem form_fetch (h : MemoryForm s) (e : s.fetch a = .ok (bs, t)) : MemoryForm t := by
  unfold State.fetch at e
  split at e
  · cases e
  split at e
  · cases e
  split at e
  · cases e
  · obtain rfl : _ = t := congrArg Prod.snd (Except.ok.inj e)
    exact form_fetchWord (form_fetchWord (form_fetchWord h ‹_›) ‹_›) ‹_›

end Sys2Proof.Proofs
end

section
/-! PROOFS. The canonical form of memory through the scalar instructions and the queued ones on vectors and masks
(R73, R76 to R91, R111 to R133, R199 to R201, R251 to R268). -/

namespace Sys2Proof.Proofs

open Sys2Proof.Machine Sys2Proof.Safety

variable {s t : State}

/-! ## Answers -/

/-- The state that an answer goes on from has its memory in canonical form. -/
def OutForm : Out → Prop
  | .next t => MemoryForm t
  | _ => True

/-- A queued instruction leaves memory in canonical form, completed or trapped. -/
def VForm : VRes → Prop
  | .done t => MemoryForm t
  | .wait => True
  | .trap _ t _ => MemoryForm t

/-- A state that may be missing has its memory in canonical form. -/
def OptForm : Option State → Prop
  | some t => MemoryForm t
  | none => True

theorem form_of_done {r : VRes} (hr : VForm r) (e : r = .done t) : MemoryForm t := by
  rw [e] at hr
  exact hr

theorem form_of_trap {r : VRes} {tr : Trap} {n : Nat} (hr : VForm r) (e : r = .trap tr t n) : MemoryForm t := by
  rw [e] at hr
  exact hr

theorem form_due {r : Option State} (h : MemoryForm s) (hr : OptForm r) : OutForm (due s r) := by
  cases r with
  | none => exact h
  | some t => exact hr

theorem form_guarded {c : Ctl} {f : State → State} (h : MemoryForm s) (hf : MemoryForm (f s)) : OutForm (guarded c s f) := by
  unfold guarded
  split
  · exact hf
  · exact h

theorem vForm_ite {c : Prop} [Decidable c] {x y : VRes} (hx : VForm x) (hy : VForm y) : VForm (if c then x else y) := by
  split
  · exact hx
  · exact hy

theorem optForm_some (h : MemoryForm s) : OptForm (some s) := h

theorem optForm_ite {c : Prop} [Decidable c] {x y : Option State} (hx : OptForm x) (hy : OptForm y) :
    OptForm (if c then x else y) := by
  split
  · exact hx
  · exact hy

theorem outForm_ite {c : Prop} [Decidable c] {x y : Out} (hx : OutForm x) (hy : OutForm y) :
    OutForm (if c then x else y) := by
  split
  · exact hx
  · exact hy

theorem optForm_map {f : State → State} {r : Option State} (hf : ∀ {s}, MemoryForm s → MemoryForm (f s)) (hr : OptForm r) :
    OptForm (r.map f) := by
  cases r with
  | none => trivial
  | some t => exact hf hr

/-! ## The operands and results of the scalar stream (R72, R74) -/

variable {i : Instr} {a b d : Operand} {v : Word} {f : Fmt} {al : Bool}

theorem form_alu {g : Word → Word → Word × Flags} (h : MemoryForm s) : MemoryForm (alu i a b d g s) := by
  unfold alu
  repeat' split
  all_goals exact h

theorem form_withSources {g : Word → Word → State → State} (h : MemoryForm s)
    (hg : ∀ {t} x y, MemoryForm t → MemoryForm (g x y t)) : MemoryForm (withSources i a b g s) := by
  unfold withSources
  split
  · exact h
  split
  · exact h
  · exact hg _ _ h

theorem form_deliver (hs : MemoryForm s) (ht : MemoryForm t) : MemoryForm (deliver i s d v t) := by
  unfold deliver
  split
  · exact hs
  · exact ht

theorem form_loadTo (h : MemoryForm s) : MemoryForm (loadTo i f d al v s) := by
  unfold loadTo
  split
  · exact form_takeTrap h
  · exact form_deliver h (form_load h ‹_›)

theorem form_plainStore {bs : List Byte} (h : MemoryForm s) (e : s.plainStore v bs = .ok t) : MemoryForm t := by
  unfold State.plainStore at e
  split at e
  · exact form_store h e
  split at e
  · cases e
  split at e
  · obtain rfl := Except.ok.inj e
    exact form_keep h
  · exact form_store (form_lateStores h) e

theorem form_storeFrom (h : MemoryForm s) : MemoryForm (storeFrom i f d al v s) := by
  unfold storeFrom
  split
  · exact h
  next x k _ =>
    have hk : MemoryForm ({ s with hart := k } : State) := h
    dsimp only
    split
    · exact form_takeTrap h
    next u e =>
      show MemoryForm u
      split at e
      · exact form_store hk e
      · exact form_plainStore hk e

theorem form_indirect {g : State → State} (hg : MemoryForm (g s)) (h : MemoryForm s) : MemoryForm (indirect v g s) :=
  form_ite (form_takeTrap h) hg

theorem form_illegal {w : IWord} (h : MemoryForm s) : MemoryForm (illegal w s) := form_takeTrap h

/-! ## Atomics, barriers and communication registers (R251 to R268) -/

theorem form_amoAt {op : Nat} {x y z : Int} {acc : Acc} (h : MemoryForm s) (e : amoAt f op x y acc s = .ok (z, t)) :
    MemoryForm t := by
  unfold amoAt at e
  dsimp only at e
  split at e
  · obtain rfl : _ = t := congrArg Prod.snd (Except.ok.inj e)
    exact form_loadAt h
  split at e
  · cases e
  · obtain rfl : _ = t := congrArg Prod.snd (Except.ok.inj e)
    exact form_storeAt h

theorem form_barrierFault {code : Nat} (h : MemoryForm s) : MemoryForm (barrierFault code s) := form_takeTrap h

theorem form_withComm {bits : Nat} {g : Nat → Word → State → State} (h : MemoryForm s)
    (hg : ∀ {t} n x, MemoryForm t → MemoryForm (g n x t)) : MemoryForm (withComm i a b bits g s) :=
  form_withSources h fun _ _ ht => form_ite (form_takeTrap h) (hg _ _ ht)

variable {c : Ctl}

theorem form_execAmo {op : BitVec 3} {sc : Scope} {r : BitVec 6} {disp : BitVec 13} (h : MemoryForm s) :
    OutForm (execAmo c op sc f d r b disp s) := by
  refine form_guarded h (form_withSources h fun x y ht => ?_)
  split
  · exact form_takeTrap h
  dsimp only
  split
  · exact form_takeTrap h
  · exact form_deliver h (form_amoAt ht ‹_›)

theorem form_execBarInit (h : MemoryForm s) : OutForm (execBarInit c a b s) := by
  refine form_guarded h (form_withSources h fun x y ht => ?_)
  split
  · exact form_barrierFault h
  · exact form_ite (form_barrierFault h) (form_ite (form_barrierFault h) ht)

theorem form_execBarArrive (h : MemoryForm s) : OutForm (execBarArrive c d a b s) := by
  refine form_guarded h (form_withSources h fun x y ht => ?_)
  split
  · exact form_barrierFault h
  refine form_ite (form_barrierFault h) (form_ite (form_barrierFault h) (form_ite (form_barrierFault h) ?_))
  split
  · exact form_barrierFault h
  · exact form_deliver h ht

theorem form_execBarExpect (h : MemoryForm s) : OutForm (execBarExpect c a b s) := by
  refine form_guarded h (form_withSources h fun x y ht => ?_)
  split
  · exact form_barrierFault h
  refine form_ite (form_barrierFault h) (form_ite (form_barrierFault h) ?_)
  split
  · exact form_barrierFault h
  · exact ht

theorem form_execBarWait (h : MemoryForm s) : OutForm (execBarWait c a b s) := by
  refine form_guarded h (form_withSources h fun x y ht => ?_)
  split
  · exact form_barrierFault h
  · exact form_ite (form_barrierFault h) (form_ite h ht)

theorem form_execBarTest (h : MemoryForm s) : OutForm (execBarTest c d a s) := by
  refine form_guarded h (form_withSources h fun x y ht => ?_)
  split
  · exact form_barrierFault h
  · exact form_ite (form_barrierFault h) (form_deliver h ht)

theorem form_execSemTas (h : MemoryForm s) : OutForm (execSemTas c a s) :=
  form_guarded h (form_withComm h fun _ _ ht => form_ite ht h)

theorem form_execCrLd (h : MemoryForm s) : OutForm (execCrLd c d a s) :=
  form_guarded h (form_withComm h fun _ _ ht => form_deliver h ht)

theorem form_execWait {r : Rel} {nat : Bool} {x : SSrc} {sc : Scope} {w32 : Bool} (h : MemoryForm s) :
    OutForm (execWait c r nat d x b sc w32 s) := by
  refine form_guarded h (form_withSources h fun x y ht => ?_)
  split
  · exact form_takeTrap h
  · exact form_ite (form_deliver h (form_load ht ‹_›)) h

/-! ## Instructions of the queue at their issue (R170, R399) -/

theorem form_entering {g : State → State} (h : MemoryForm s) (hg : MemoryForm (g s)) : OutForm (entering i c g s) :=
  form_guarded h (form_ite (form_endTask h) (form_ite h hg))

theorem form_issueV {run : Env → State → VRes} (h : MemoryForm s) (hr : VForm (run (s.envOf i) s.issued)) :
    OutForm (issueV i c run s) := by
  refine form_entering h (form_ite ?_ h)
  split
  next e => exact form_of_done hr e
  next => exact h
  next e => exact form_ite h (form_of_trap hr e : MemoryForm _)

/-! ## Vector operands and the moulds of vector instructions (R105 to R110) -/

variable {o : VOps} {e : Env} {k : Hart}

theorem vForm_withV {whole : Bool} {g : VSrc → VSrc → Hart → VRes} (h : MemoryForm s) (hg : ∀ x y k, VForm (g x y k)) :
    VForm (withV whole a b e g s) := by
  unfold withV
  refine vForm_ite h ?_
  split
  · trivial
  · exact h
  split
  · trivial
  · exact h
  · exact hg _ _ _

theorem vForm_finishV {l : List (Nat × Elem)} (h : MemoryForm s) : VForm (finishV s d l k) := by
  unfold finishV
  split
  · exact h
  · trivial
  · exact h

theorem vForm_finishS (h : MemoryForm s) : VForm (finishS s d v k) := by
  unfold finishS
  split
  · exact h
  · trivial

theorem vForm_mould {F : Hart → VSrc → VSrc → VSrc → Nat → Nat × Flags} (h : MemoryForm s) : VForm (mould o f F e s) :=
  vForm_withV h fun _ _ _ => vForm_finishV h

theorem vForm_intMould {g : Int → Int → Int → Int} (h : MemoryForm s) : VForm (intMould o g e s) := vForm_mould h

theorem vForm_bitMould {g : Nat → Nat → Nat} (h : MemoryForm s) : VForm (bitMould o g e s) := vForm_mould h

theorem vForm_shiftMould {g : Int → Nat → Int} (h : MemoryForm s) : VForm (shiftMould o g e s) := vForm_mould h

theorem vForm_countMould {g : Nat → Nat → Nat} (h : MemoryForm s) : VForm (countMould o g e s) := by
  unfold countMould
  exact vForm_mould h

theorem vForm_fpMould {g : Bool → Fp → Fp → Fp → Fp × Flags} (h : MemoryForm s) : VForm (fpMould o g e s) := by
  unfold fpMould
  exact vForm_mould h

theorem vForm_estMould {g : Fp → Fp × Flags} (h : MemoryForm s) : VForm (estMould o g e s) := by
  unfold estMould
  exact vForm_mould h

theorem vForm_cmpMould {F : Rel → VSrc → VSrc → Nat → Bool × Flags} (h : MemoryForm s) : VForm (cmpMould o F e s) :=
  vForm_withV h fun _ _ _ => h

theorem vForm_permute {F : Nat → VSrc → VSrc → Nat → Nat} (h : MemoryForm s) : VForm (permute o F e s) :=
  vForm_withV h fun _ _ _ => vForm_finishV h

theorem vForm_runVcompress (h : MemoryForm s) : VForm (runVcompress o e s) := vForm_withV h fun _ _ _ => vForm_finishV h

theorem vForm_runVexpand (h : MemoryForm s) : VForm (runVexpand o e s) := vForm_withV h fun _ _ _ => vForm_finishV h

theorem vForm_reduceTo {r : Nat} (h : MemoryForm s) : VForm (reduceTo s d f r k) := by
  unfold reduceTo
  split
  · exact vForm_finishV h
  · exact vForm_finishS h

theorem vForm_reduceNone {r : Nat} (h : MemoryForm s) : VForm (reduceNone s d f r k) := by
  unfold reduceNone
  split
  · exact vForm_reduceTo h
  · exact h

theorem vForm_runVred (h : MemoryForm s) : VForm (runVred o e s) :=
  vForm_withV h fun _ _ _ => vForm_ite (vForm_reduceNone h) (vForm_reduceTo h)

theorem vForm_runVredsc (h : MemoryForm s) : VForm (runVredsc o e s) :=
  vForm_withV h fun _ _ _ => vForm_ite (vForm_reduceNone h) (vForm_reduceTo h)

theorem vForm_runVdot (h : MemoryForm s) : VForm (runVdot o e s) :=
  vForm_withV h fun _ _ _ => vForm_ite (vForm_reduceNone h) (vForm_reduceTo h)

theorem vForm_countSr {r : VRes} (h : VForm r) : VForm (countSr o k r) := by
  unfold countSr
  split
  · exact vForm_ite h h
  · exact h

theorem vForm_runVcvt (h : MemoryForm s) : VForm (runVcvt o e s) := vForm_countSr (vForm_mould h)

theorem vForm_runVpack (h : MemoryForm s) : VForm (runVpack o e s) :=
  vForm_countSr (vForm_withV h fun _ _ _ => vForm_finishV h)

theorem vForm_runVunpack (h : MemoryForm s) : VForm (runVunpack o e s) := vForm_withV h fun _ _ _ => vForm_finishV h

theorem vForm_maskOp {r : BitVec 3} {g : Hart → Nat → Byte} (h : MemoryForm s) : VForm (maskOp r g e s) :=
  vForm_withV h fun _ _ _ => h

theorem vForm_maskScan {r : BitVec 3} {x : VX} {g : List Nat → Word} (h : MemoryForm s) : VForm (maskScan d r x g e s) :=
  vForm_withV h fun _ _ _ => vForm_finishS h

end Sys2Proof.Proofs
end

section
/-! PROOFS. The canonical form of memory through the accesses of the vector agent (R202 to R214, R255 to R257). -/

namespace Sys2Proof.Proofs

open Sys2Proof.Machine Sys2Proof.Safety

variable {s t : State} {o : VMOps} {v : Env} {f : Fmt} {q : BitVec 3}

/-! ## Element by element (R203) -/

theorem form_loadElems {ea : Nat → Word} {act : Nat → Bool} {es : List Nat} (h : MemoryForm s) :
    MemoryForm (loadElems o v ea act es s).1 := by
  induction es generalizing s with
  | nil => exact h
  | cons e es ih =>
    unfold loadElems
    split
    · split
      · exact h
      · next bs u e =>
        have hu : MemoryForm u := form_load h e
        exact ih hu
    split
    · exact ih h
    · exact ih h

theorem form_storeElems {data : Nat → Elem} {ea : Nat → Word} {act : Nat → Bool} {es : List Nat} {ws : List (Nat × Nat)}
    (h : MemoryForm s) : MemoryForm (storeElems o v data ea act es ws s).1 := by
  induction es generalizing s ws with
  | nil => exact h
  | cons e es ih =>
    unfold storeElems
    split
    · dsimp only
      split
      · exact h
      split
      · exact h
      · exact ih (form_storeAt h)
    · exact ih h

theorem vForm_loadVector {ea : Hart → Nat → Word} (h : MemoryForm s) : VForm (loadVector o ea v s) := by
  unfold loadVector
  dsimp only
  split
  next e => exact form_fst e (form_loadElems h)
  next e => exact (form_fst e (form_loadElems h) : MemoryForm _)

theorem vForm_storeVector {ea : Hart → Nat → Word} (h : MemoryForm s) : VForm (storeVector o ea v s) := by
  unfold storeVector
  dsimp only
  split
  next e => exact form_cover (form_fst e (form_storeElems h))
  next e => exact form_cover (form_fst e (form_storeElems h))

/-! ## Whole transfers (R206) -/

theorem form_readAll {as : List Acc} {k : Nat} {l : List (Nat × Elem)} (h : MemoryForm s) :
    MemoryForm (readAll f as k l s).2 := by
  induction as generalizing s k l with
  | nil => exact h
  | cons a as ih => exact ih (form_loadAt h)

theorem form_writeAll {m : RecMeta} {as : List Acc} {k : Nat} {l : List (Nat × Elem)} (h : MemoryForm s) :
    MemoryForm (writeAll f m as k l s) := by
  induction as generalizing s k with
  | nil => exact h
  | cons a as ih => exact ih (form_storeAt h)

theorem form_storeWhole {m : RecMeta} {g : Agent} {as : List Word} {l : List (Nat × Elem)} (h : MemoryForm s)
    (e : storeWhole f m g as l s = .ok t) : MemoryForm t := by
  unfold storeWhole at e
  split at e
  · cases e
  split at e
  · cases e
  · obtain rfl := Except.ok.inj e
    exact form_cover (form_writeAll h)

theorem vForm_runVldq {a : SSrc} {b : Operand} (h : MemoryForm s) : VForm (runVldq f q a b v s) := by
  unfold runVldq
  refine vForm_ite h (vForm_ite h (vForm_ite trivial ?_))
  split
  · exact h
  · exact form_readAll h

theorem vForm_runVstq {a : SSrc} {b : Operand} (h : MemoryForm s) : VForm (runVstq f q a b v s) := by
  unfold runVstq
  refine vForm_ite h (vForm_ite h ?_)
  split
  · trivial
  split
  · exact h
  · next u e =>
    show MemoryForm u
    exact form_storeWhole h e

/-! ## Bound streams (R207 to R211) -/

theorem vForm_runVbind {sc st : Bool} {a : SSrc} (h : MemoryForm s) : VForm (runVbind f sc st q a v s) := by
  unfold runVbind
  refine vForm_ite h (vForm_ite h ?_)
  split
  · exact h
  · next bs u e =>
    have hu : MemoryForm u := form_load h e
    exact vForm_ite h (form_ite hu hu)

theorem vForm_runVunbind (h : MemoryForm s) : VForm (runVunbind q v s) := by
  unfold runVunbind
  split
  · exact h
  refine vForm_ite ?_ h
  split
  · exact h
  · exact vForm_ite trivial h

theorem optForm_fetchEntry {n : Nat} (h : MemoryForm s) : OptForm (fetchEntry n s) := by
  unfold fetchEntry
  split
  · trivial
  refine optForm_ite trivial ?_
  split
  · exact optForm_ite trivial h
  · exact optForm_ite trivial h
  · exact form_readAll (form_readAll h)

theorem optForm_writeEntry {n : Nat} (h : MemoryForm s) : OptForm (writeEntry n s) := by
  unfold writeEntry
  split
  · trivial
  refine optForm_ite trivial ?_
  split
  · trivial
  dsimp only
  split
  · exact optForm_ite trivial (form_lateStores h)
  · next u e =>
    show MemoryForm u
    exact form_storeWhole (form_lateStores h) e

theorem form_execLoadStreamFetch {n k : Nat} (h : MemoryForm s) : OutForm (execLoadStreamFetch n k s) :=
  form_due h (optForm_map form_focus (optForm_fetchEntry (form_focus h)))

theorem form_execStoreStreamWrite {n k : Nat} (h : MemoryForm s) : OutForm (execStoreStreamWrite n k s) :=
  form_due h (optForm_map form_focus (optForm_writeEntry (form_focus h)))

/-! ## Stash control and vector atomics (R212 to R214, R256) -/

theorem vForm_runStmap {slot : BitVec 5} {soff : BitVec 7} {a : BitVec 6} {b : Operand} (h : MemoryForm s) :
    VForm (runStmap slot soff a b v s) :=
  vForm_ite h (vForm_ite h (vForm_ite h (vForm_ite h (vForm_ite h h))))

theorem form_dropLine {d : Dirty} (h : MemoryForm s) : MemoryForm (dropLine v d s) := by
  unfold dropLine
  extract_lets pa va s₁
  have hs : MemoryForm s₁ := form_ite (form_foldl (fun _ => form_append) h) h
  exact form_iff.2 (form_putBytes hs)

theorem vForm_runStdrop {a : BitVec 6} {b : Operand} (h : MemoryForm s) : VForm (runStdrop a b v s) := by
  unfold runStdrop
  refine vForm_ite trivial ?_
  split
  · exact h
  · exact form_foldl (fun _ => form_dropLine) h

theorem form_amoOne {op : Nat} {acc : Acc} {xs : List Nat} (h : MemoryForm s) : MemoryForm (amoOne f op v acc xs s) :=
  form_iff.2 (form_storeAt h)

theorem vForm_runVamo {op : BitVec 3} {d : BitVec 5} {a : BitVec 6} {b : BitVec 5} {msk : Bool} {mn : BitVec 3}
    {scaled si : Bool} (h : MemoryForm s) : VForm (runVamo op f d a b msk mn scaled si v s) := by
  unfold runVamo
  refine vForm_ite h ?_
  dsimp only
  split
  · exact h
  split
  · exact h
  split
  · exact h
  · exact form_foldl (fun _ => form_amoOne) h

end Sys2Proof.Proofs
end

section
/-! PROOFS. The canonical form of memory through matrix instructions, vector-fetched blocks and strip claims
(R147 to R158, R175 to R180). -/

namespace Sys2Proof.Proofs

open Sys2Proof.Machine Sys2Proof.Safety

variable {s t : State} {v : Env} {f : Fmt}

/-! ## Tiles (R147 to R158) -/

theorem form_readRanges {rs : List (Word × Nat)} {bss : List (List Byte)} (h : MemoryForm s)
    (e : readRanges rs s = .ok (bss, t)) : MemoryForm t := by
  unfold readRanges at e
  dsimp only at e
  split at e
  · cases e
  split at e
  · cases e
  split at e
  · cases e
  · obtain rfl : _ = t := congrArg Prod.snd (Except.ok.inj e)
    exact form_foldl (fun _ => form_loadAt) h

theorem vForm_withSlot {n : Nat} {g : Tile → State → VRes} (h : MemoryForm s) (hg : ∀ x, VForm (g x s)) :
    VForm (withSlot n v g s) := vForm_ite h (hg _)

theorem vForm_runWfmt {wf : Fmt} {n : BitVec 2} {a : Operand} (h : MemoryForm s) : VForm (runWfmt wf n a v s) := by
  refine vForm_withSlot h fun _ => vForm_ite (vForm_ite h ?_) h
  split
  · exact h
  · next e => exact (form_readRanges h e : MemoryForm _)

theorem vForm_runWload {n : BitVec 2} {a : BitVec 6} {b : Operand} {kofs : BitVec 12} (h : MemoryForm s) :
    VForm (runWload n a b kofs v s) := by
  refine vForm_withSlot h fun _ => vForm_ite h (vForm_ite h (vForm_ite h ?_))
  extract_lets rows first
  split
  · exact h
  · next e => exact (form_readRanges h e : MemoryForm _)

theorem vForm_runMzero {n : BitVec 2} (h : MemoryForm s) : VForm (runMzero n v s) := vForm_withSlot h fun _ => h

theorem vForm_runMaccLd {n : BitVec 2} {r : BitVec 5} {row0 : BitVec 6} (h : MemoryForm s) :
    VForm (runMaccLd n r row0 v s) := vForm_ite h (vForm_withSlot h fun _ => h)

theorem vForm_runMova {sat : Bool} {d : BitVec 5} {n : BitVec 2} {rm : BitVec 3} {row0 : BitVec 6} (h : MemoryForm s) :
    VForm (runMova f sat d n rm row0 v s) := by
  refine vForm_ite h (vForm_withSlot h fun x => ?_)
  dsimp only
  split
  · exact h
  · exact h

theorem vForm_runMma {n : BitVec 2} {a : BitVec 6} {b : Operand} {kofs : BitVec 12} (h : MemoryForm s) :
    VForm (runMma f n a b kofs v s) := by
  refine vForm_withSlot h fun x => ?_
  dsimp only
  split
  · exact h
  refine vForm_ite h ?_
  split
  · exact h
  · next e => exact (form_readRanges h e : MemoryForm _)

theorem vForm_runMwait {acc : Option (BitVec 2)} (h : MemoryForm s) : VForm (runMwait acc v s) := by
  unfold runMwait
  split
  · exact vForm_withSlot h fun _ => h
  · exact h

theorem vForm_runMstat {d : Operand} (h : MemoryForm s) : VForm (runMstat d v s) := vForm_finishS h

/-! ## Vector length and blocks (R165, R175) -/

theorem form_execSetvl {c : Ctl} {d b : Operand} (h : MemoryForm s) : OutForm (execSetvl c f d b s) :=
  form_guarded h (form_ite h (form_ite (form_takeTrap h) (form_withSources h fun _ _ ht => form_deliver h ht)))

theorem vForm_runVfetch {m : Option (BitVec 3)} {disp : BitVec 32} (h : MemoryForm s) : VForm (runVfetch m disp v s) :=
  vForm_ite h (vForm_ite h h)

/-! ## Strip farms (R180) -/

theorem form_loadBytes {as : List Word} {bs : List Byte} (h : MemoryForm s) (e : loadBytes as s = .ok (bs, t)) :
    MemoryForm t := by
  induction as generalizing s bs with
  | nil =>
    obtain rfl : _ = t := congrArg Prod.snd (Except.ok.inj e)
    exact h
  | cons a as ih =>
    unfold loadBytes at e
    split at e
    · cases e
    split at e
    · cases e
    · obtain rfl : _ = t := congrArg Prod.snd (Except.ok.inj e)
      exact ih (form_load h ‹_›) ‹_›

theorem form_activeOf {l : Launch} {start : Word} {len : Nat} {as : List Nat} (h : MemoryForm s)
    (e : activeOf l start len s = .ok (as, t)) : MemoryForm t := by
  unfold activeOf at e
  split at e
  · obtain rfl : _ = t := congrArg Prod.snd (Except.ok.inj e)
    exact h
  dsimp only at e
  split at e
  · cases e
  · obtain rfl : _ = t := congrArg Prod.snd (Except.ok.inj e)
    exact form_loadBytes h ‹_›

theorem vForm_farmLoop {d : BitVec 6} {m : BitVec 3} {r : BitVec 5} {n dens : Nat} {full : Bool} {fuel : Nat}
    (h : MemoryForm s) : VForm (farmLoop d m r n dens full fuel s) := by
  induction fuel generalizing s full with
  | zero => exact h
  | succ fuel ih =>
    unfold farmLoop
    split
    · exact h
    refine vForm_ite ?_ ?_
    · dsimp only
      split
      · exact h
      · next as u e =>
        have hu : MemoryForm u := form_activeOf h e
        exact vForm_ite (ih hu) hu
    · split
      · exact h
      split
      · exact h
      · exact h

theorem vForm_runFarmNext {d : BitVec 6} {m : BitVec 3} {r : BitVec 5} (h : MemoryForm s) : VForm (runFarmNext d m r v s) := by
  unfold runFarmNext
  refine vForm_ite h ?_
  split
  · exact h
  · exact vForm_ite h (vForm_ite h (vForm_farmLoop h))

end Sys2Proof.Proofs
end

section
/-! PROOFS. The canonical form of memory through the vector command queue: its instructions, its steps, blocks, drains and
precise traps (R170 to R178, R398, R407). -/

namespace Sys2Proof.Proofs

open Sys2Proof.Machine Sys2Proof.Safety

variable {s t : State} {i : Instr} {v : Env} {e : VEntry} {es : List VEntry} {ep : Episode}

/-! ## The effect of a queued instruction -/

theorem vForm_runQueued (h : MemoryForm s) : VForm (runQueued i v s) := by
  cases i
  all_goals dsimp only [runQueued]
  case vadd | vsub | vmul | vmulh | vmadd | vmin | vmax | vabsd | vavg => exact vForm_intMould h
  case vand | vor | vxor | vandn => exact vForm_bitMould h
  case vshl | vshr | vsra => exact vForm_shiftMould h
  case vclz | vpopc => exact vForm_countMould h
  case vfadd | vfsub | vfmul | vfma | vfdiv | vfsqrt => exact vForm_fpMould h
  case vfrcp | vfrsq | vfexp2 | vflog2 => exact vForm_estMould h
  case vsel | vmov | vbcast | vid | vdot4 | vfscl | vfrnd | vfmin | vfmax => exact vForm_mould h
  case vcmp | vfcmp => exact vForm_cmpMould h
  case vxch | vperm | vslide => exact vForm_permute h
  case vcompress => exact vForm_runVcompress h
  case vexpand => exact vForm_runVexpand h
  case vred => exact vForm_runVred h
  case vredsc => exact vForm_runVredsc h
  case vdot => exact vForm_runVdot h
  case vcvt => exact vForm_runVcvt h
  case vpack => exact vForm_runVpack h
  case vunpack => exact vForm_runVunpack h
  case mand | mor | mnot => exact vForm_maskOp h
  case mpopc | mfirst => exact vForm_maskScan h
  case vld | vlds | vldx => exact vForm_loadVector h
  case vst | vsts | vstx => exact vForm_storeVector h
  case vldq => exact vForm_runVldq h
  case vstq => exact vForm_runVstq h
  case vbind => exact vForm_runVbind h
  case vunbind => exact vForm_runVunbind h
  case stmap => exact vForm_runStmap h
  case stdrop => exact vForm_runStdrop h
  case wfmt => exact vForm_runWfmt h
  case wload => exact vForm_runWload h
  case mzero => exact vForm_runMzero h
  case maccLd => exact vForm_runMaccLd h
  case mova => exact vForm_runMova h
  case mma => exact vForm_runMma h
  case vamo => exact vForm_runVamo h
  case vfetch => exact vForm_runVfetch h
  case mwait => exact vForm_runMwait h
  case mstat => exact vForm_runMstat h
  case farmNext => exact vForm_runFarmNext h
  all_goals exact h

theorem vForm_runEntry (h : MemoryForm s) : VForm (runEntry i v s) := by
  have hr : VForm (runQueued i v (s.onH fun x => { x with rm := v.rm, level := v.level })) := vForm_runQueued h
  unfold runEntry
  dsimp only
  split
  next e => exact (form_of_done hr e : MemoryForm _)
  next => trivial
  next e => exact vForm_ite trivial (form_of_trap hr e : MemoryForm _)

/-- The state of a queued instruction that has completed, and of one that has raised a trap. -/
theorem form_done (h : MemoryForm s) (e : runEntry i v s = .done t) : MemoryForm t :=
  form_of_done (vForm_runEntry h) e

theorem form_trap {tr : Trap} {k : Nat} (h : MemoryForm s) (e : runEntry i v s = .trap tr t k) : MemoryForm t :=
  form_of_trap (vForm_runEntry h) e

/-! ## Steps of the queue -/

theorem form_notePlace {pre post : State} (h : MemoryForm post) : MemoryForm (notePlace e pre post) := form_ite h h

theorem form_runFirst {ok : VEntry → Bool} {earlier : List VEntry} {x : VEntry} (h : MemoryForm s)
    (hr : runFirst ok earlier es s = some (x, t)) : MemoryForm t := by
  induction es generalizing earlier with
  | nil => cases hr
  | cons e es ih =>
    unfold runFirst at hr
    dsimp only at hr
    split at hr
    · split at hr
      · next u e =>
        obtain rfl : _ = t := congrArg Prod.snd (Option.some.inj hr)
        have hu : MemoryForm u := form_done (s := s.onH _) h e
        exact form_notePlace hu
      · exact ih hr
      · next u k e =>
        split at hr
        · obtain rfl : _ = t := congrArg Prod.snd (Option.some.inj hr)
          exact (form_trap (s := s.onH _) h e : MemoryForm u)
        · exact ih hr
    · exact ih hr

/-! ## Blocks (R176, R177) -/

/-- The state of an answer of a block, whether or not its instruction has raised a trap. -/
def BlockForm (r : Option (State × Option State.BlockTrap)) : Prop := ∀ x ∈ r, MemoryForm x.1

theorem blockForm_none : BlockForm none := fun _ h => by cases h

theorem blockForm_some {b : Option State.BlockTrap} (h : MemoryForm s) : BlockForm (some (s, b)) := by
  rintro _ ⟨⟩
  exact h

theorem form_nextInBlock (h : MemoryForm s) : MemoryForm (s.nextInBlock ep) := form_ite h h

theorem blockForm_runBlock {c : Ctl} (h : MemoryForm s) : BlockForm (s.runBlock ep i c) := by
  unfold State.runBlock
  dsimp only
  split
  · exact blockForm_some h
  split
  · exact blockForm_some (form_nextInBlock h)
  split
  · exact blockForm_some h
  split
  · exact blockForm_none
  split
  · exact blockForm_some h
  · exact blockForm_some h
  split
  · exact blockForm_some (form_nextInBlock (form_done h ‹_›))
  · exact blockForm_none
  · next u k e => exact blockForm_some (form_trap h e : MemoryForm u)

theorem blockForm_filter {p : State × Option State.BlockTrap → Bool} {r : Option (State × Option State.BlockTrap)}
    (h : BlockForm r) : BlockForm (r.filter p) := fun x hx => h x (Option.mem_filter_iff.1 hx).1

theorem blockForm_episodeRun (h : MemoryForm s) : BlockForm (s.episodeRun ep) := by
  unfold State.episodeRun
  refine blockForm_filter ?_
  split
  · exact blockForm_some h
  dsimp only
  split
  · split
    · exact blockForm_none
    · exact blockForm_some h
  next ep _ _ bs u e =>
  have hu : MemoryForm u := form_fetch (s := s.atLevel ep.env.level) h e
  split
  · exact blockForm_some hu
  · exact blockForm_runBlock hu

theorem optForm_episodeStep (h : MemoryForm s) : OptForm (s.episodeStep ep) := by
  unfold State.episodeStep
  split
  next p e => exact form_runFirst h (show _ = some (p.1, p.2) from e)
  have hr := blockForm_episodeRun (ep := ep) h
  cases e : s.episodeRun ep with
  | none => trivial
  | some r =>
    obtain ⟨u, b⟩ := r
    have hu : MemoryForm u := hr _ e
    cases b with
    | none => exact hu
    | some b => exact form_takeVectorTrap hu

theorem optForm_vectorStep (h : MemoryForm s) : OptForm s.vectorStep := by
  unfold State.vectorStep
  refine optForm_ite trivial ?_
  split
  · exact optForm_map (fun h => h) (optForm_episodeStep h)
  cases e : runFirst (fun _ => true) [] s.hart.vcq s with
  | none => trivial
  | some p =>
    obtain ⟨x, u⟩ := p
    exact (form_runFirst h e : MemoryForm u)

/-! ## The drain of a save, and precise traps (R398, R407) -/

theorem vForm_runGranules {k : Nat} (h : MemoryForm s) : VForm (s.runGranules k e es) := by
  unfold State.runGranules
  dsimp only
  split
  next u e => exact (form_done (s := s.onH _) h e : MemoryForm u)
  next => trivial
  next u k e => exact (form_trap (s := s.onH _) h e : MemoryForm u)

theorem form_drainStop {left : Nat} (h : MemoryForm s) : MemoryForm (s.drainStop left) := by
  unfold State.drainStop
  split
  · exact h
  refine form_ite ?_ h
  have hr := fun e es => vForm_runGranules (k := left) (e := e) (es := es) h
  split
  next e => exact form_of_done (hr _ _) e
  next => exact h
  next e => exact form_of_trap (hr _ _) e

theorem form_drain {fuel left : Nat} (h : MemoryForm s) : MemoryForm (State.drain fuel left s) := by
  induction fuel generalizing s left with
  | zero => exact h
  | succ fuel ih =>
    unfold State.drain
    refine form_ite h ?_
    split
    next ep _ =>
      have hb := blockForm_episodeRun (ep := ep) h
      split
      next u e =>
        have hu : MemoryForm u := form_runFirst h e
        exact ih hu
      next u _ e =>
        have hu : MemoryForm u := hb _ e
        exact ih hu
      next u b _ e =>
        have hu : MemoryForm u := hb _ e
        exact form_ite hu hu
      next => exact form_ite h (form_drainStop h)
    next =>
      split
      next e u hr =>
        have hu : MemoryForm u := form_runFirst h hr
        exact ih hu
      next => exact form_drainStop h

theorem form_drainAll (h : MemoryForm s) : MemoryForm s.drainAll := by
  unfold State.drainAll
  extract_lets u
  have hu : MemoryForm u := form_drain h
  split
  · split
    · exact form_ite hu hu
    · exact hu
  · exact hu

theorem optForm_takePending (h : MemoryForm s) : OptForm s.takePending := by
  unfold State.takePending
  split
  · trivial
  split
  · trivial
  refine optForm_ite trivial ?_
  extract_lets u stop
  have hu : MemoryForm u := form_ite (form_drainAll h) h
  exact optForm_some (form_onH (form_takeVectorTrap (form_onH hu)))

end Sys2Proof.Proofs
end

section
/-! PROOFS. The canonical form of memory through writes of system registers, traps, marks and the ends of harts
(R92 to R95, R385 to R393, R401 to R424, R436). -/

namespace Sys2Proof.Proofs

open Sys2Proof.Machine Sys2Proof.Safety

variable {s t : State} {c : Ctl} {a b d : Operand}

/-! ## Effects of register writes on the package -/

theorem form_showStores (h : MemoryForm s) : MemoryForm s.showStores :=
  form_foldl (fun _ => form_atHart form_lateStores) h

theorem form_setOwner {o : BitVec 16} {frame : BitVec 36} (h : MemoryForm s) : MemoryForm (s.setOwner o frame) :=
  form_ite h (form_showStores h)

theorem form_writeFown {rd : Bool} {o : BitVec 16} {frame : BitVec 36} (h : MemoryForm s) :
    MemoryForm (s.writeFown rd o frame) := form_ite (form_modPkg h) (form_modPkg (form_setOwner h))

theorem form_startShootdown {n : BitVec 32} (h : MemoryForm s) : MemoryForm (s.startShootdown n) :=
  form_of_mem (startShootdown_mem n s) h

theorem form_endShootdown (h : MemoryForm s) : MemoryForm s.endShootdown := form_iff.2 (form_showStores h)

theorem form_startMigration {src : BitVec 36} (h : MemoryForm s) : MemoryForm (s.startMigration src) :=
  form_of_mem (startMigration_mem src s) h

theorem form_writePhart {core : Nat} {v : Word} (h : MemoryForm s) : MemoryForm (s.writePhart core v) :=
  form_of_mem (staysPut_writePhart core v s).mem h

theorem form_writePgrp {core : Nat} {high : Bool} {v : Word} (h : MemoryForm s) : MemoryForm (s.writePgrp core high v) := by
  unfold State.writePgrp
  extract_lets old new moved s₁ s₂ s₃
  have h₁ : MemoryForm s₁ := form_foldl (fun _ h => h) h
  have h₂ : MemoryForm s₂ := form_foldl (fun _ h => h) h₁
  have h₃ : MemoryForm s₃ := h₂
  exact form_ite h (form_ite h₃ (form_foldl (fun _ => form_stopLaunch) h₃))

theorem form_writeSgate {core : Nat} {v : Word} (h : MemoryForm s) : MemoryForm (s.writeSgate core v) :=
  form_of_mem (writeSgate_mem core v s) h

/-- A frame that is zeroed loses its entries, and the others stay in order (R436). -/
theorem form_clearFrame {frame : Nat} (h : MemoryForm s) : MemoryForm (s.clearFrame frame) := twf_filter 0 _ h

theorem form_writeRpois {go : Bool} {frame : BitVec 36} (h : MemoryForm s) : MemoryForm (s.writeRpois go frame) :=
  form_ite (form_clearFrame (s := s.modPkg _) h) h

/-! ## A write of any register (R92) -/

theorem form_writeHart {i : Nat} {v : Word} (h : MemoryForm s) : MemoryForm (writeHart i v s) :=
  form_of_mem (writeHart_mem i v s) h

theorem form_writeSuper {i : Nat} {v : Word} (h : MemoryForm s) : MemoryForm (writeSuper i v s) := by
  unfold writeSuper
  dsimp only
  split
  -- 0x432, 0x465, 0x466 and 0x468: list rereads, shootdowns, frame owners and migrations
  case h_17 => exact form_ite h h
  case h_25 => exact form_ite h (form_ite h (form_startShootdown h))
  case h_26 => exact form_writeFown h
  case h_27 => exact form_ite (form_startMigration h) h
  -- 0x470 to 0x472: partitions of harts and groups; 0x490 and 0x494: the journal and the stash banks
  case h_30 => exact form_writePhart h
  case h_31 | h_32 => exact form_writePgrp h
  case h_40 => exact form_ite (form_writeControl (s := s.modPkg _) h) h
  case h_41 => exact form_writeSgate h
  all_goals exact h

theorem form_writeManage {i : Nat} {v : Word} (h : MemoryForm s) : MemoryForm (writeManage i v s) := by
  unfold writeManage
  split
  -- 0x803 and 0x881: the frame to clear and the least share of a zone
  case h_4 => exact form_writeRpois h
  case h_11 => exact form_modZone h
  all_goals exact h

theorem form_writeSr {i : BitVec 12} {v : Word} (h : MemoryForm s) : MemoryForm (writeSr i v s) :=
  form_ite (form_writeHart h) (form_ite (form_writeSuper h) (form_writeManage h))

theorem form_execGetsr {idx : BitVec 12} (h : MemoryForm s) : OutForm (execGetsr c d idx s) :=
  form_guarded h (form_ite (form_takeTrap h) (form_ite h (form_deliver h h)))

theorem form_execPutsr {idx : BitVec 12} (h : MemoryForm s) : OutForm (execPutsr c idx a s) :=
  form_guarded h (form_ite (form_takeTrap h) (form_withSources h fun _ _ ht => form_writeSr ht))

/-! ## Traps, ends and marks -/

theorem form_unlessDoff {f : State → State} (h : MemoryForm s) (hf : MemoryForm (f s)) : MemoryForm (unlessDoff f s) :=
  form_ite (form_doffViolation h) hf

theorem form_execTrap (h : MemoryForm s) : OutForm (execTrap c b s) :=
  form_guarded h (form_withSources h fun _ _ ht => form_takeTrapTo ht)

theorem form_execEcall (h : MemoryForm s) : OutForm (execEcall c b s) :=
  form_guarded h (form_withSources h fun _ _ ht => form_takeTrapTo ht)

theorem form_execTret (h : MemoryForm s) : OutForm (execTret c s) := form_guarded h (form_ite (form_takeTrap h) h)

theorem form_endHart (h : MemoryForm s) : MemoryForm (endHart s) := by
  have hl : MemoryForm ((s.lateStores.countEnd s.lateStores.hart).onH (Hart.bump 1 1)).leave :=
    form_leave (form_onH (form_countEnd (form_lateStores h)))
  unfold endHart
  exact form_ite hl hl

theorem form_execHalt (h : MemoryForm s) : OutForm (execHalt c s) :=
  form_guarded h (form_unlessDoff h (form_ite h (form_ite (form_endTask h) (form_endHart h))))

theorem form_execSync (h : MemoryForm s) : OutForm (execSync c s) := form_guarded h (form_ite h h)

theorem form_execYield (h : MemoryForm s) : OutForm (execYield c s) :=
  form_guarded h (form_unlessDoff h (form_ite h (form_ite h (form_saveContext (form_onH (form_drainAll h))))))

theorem form_debugHalt {r : BitVec 4} (h : MemoryForm s) : MemoryForm (s.debugHalt r) :=
  form_onH (form_drainAll (s := s.lateStores.withdraw s.cur) (form_lateStores h))

theorem form_execBrk (h : MemoryForm s) : OutForm (execBrk c b s) :=
  form_guarded h (form_ite h (form_ite (form_debugHalt h) (form_takeTrap h)))

theorem form_appendSnapshot {w : BitVec 32} (h : MemoryForm s) : MemoryForm (s.appendSnapshot w) := by
  unfold State.appendSnapshot
  extract_lets pay head first s₁
  have h₁ : MemoryForm s₁ := form_appendSlots h
  exact form_ite h (form_ite h₁ (form_onH (form_appendSlots (form_onH h₁))))

theorem form_execWmark (h : MemoryForm s) : OutForm (execWmark c d s) :=
  form_guarded h (form_ite h (form_ite (form_takeTrap h) (form_deliver h (form_onH (form_appendSnapshot h)))))

theorem form_execTsc (h : MemoryForm s) : OutForm (execTsc c d s) := by
  refine form_guarded h ?_
  dsimp only
  split
  · exact h
  · exact h

theorem form_execCnt (h : MemoryForm s) : OutForm (execCnt c d a s) :=
  form_guarded h (form_withSources h fun _ _ ht => form_deliver h ht)

end Sys2Proof.Proofs
end

section
/-! PROOFS. The canonical form of memory through tile claims, doff routines and the port instructions
(R274 to R287, R331 to R344). -/

namespace Sys2Proof.Proofs

open Sys2Proof.Machine Sys2Proof.Safety

variable {s t : State} {c : Ctl} {i : Instr} {a b d : Operand}

/-! ## Tile slots and doff routines -/

theorem form_tileFault {code : Nat} (h : MemoryForm s) : MemoryForm (tileFault code s) := form_takeTrap h

theorem form_treqWait {n : Nat} {cls : TileClass} {doff : Addr} (h : MemoryForm s) : MemoryForm (treqWait i n cls doff s) := by
  refine form_ite h ?_
  split
  · exact h
  · exact form_doffViolation h
  · exact form_tileFault h
  all_goals exact h

theorem form_execTreqPool {n : BitVec 2} {r : BitVec 6} {disp : BitVec 32} (h : MemoryForm s) :
    OutForm (execTreqPool c n r disp s) := by
  refine form_guarded h ?_
  split
  · exact h
  · exact form_doffViolation h
  · exact form_tileFault h
  all_goals exact h

theorem form_releaseTile {n : Nat} (h : MemoryForm s) : MemoryForm (s.releaseTile n) := form_ite h h

theorem form_execTrel {n : BitVec 2} (h : MemoryForm s) : OutForm (execTrel c n s) :=
  form_guarded h (form_ite h (form_ite h (form_onH (form_releaseTile h))))

theorem form_doffDone {last : BitVec 2} (h : MemoryForm s) : MemoryForm (doffDone i last s) :=
  form_ite (form_tileFault h) (form_ite h (form_onH (form_releaseTile h)))

theorem form_execDoffretRefused (h : MemoryForm s) : OutForm (execDoffretRefused c s) := by
  refine form_guarded h (form_ite (form_tileFault h) ?_)
  extract_lets n s₁ s₂ s₃
  have h₁ : MemoryForm s₁ := h
  have h₃ : MemoryForm s₃ := form_ite (s := s₂.modTile n _) h h
  exact form_ite (form_doffViolation h₁) (form_ite (form_doffViolation h₁) (form_onH h₃))

theorem optForm_doffEntry (h : MemoryForm s) : OptForm s.doffEntry := by
  unfold State.doffEntry
  refine optForm_ite trivial ?_
  split
  · trivial
  · exact h

theorem form_execRefusalDelayEnd {core slot : Nat} (h : MemoryForm s) : OutForm (execRefusalDelayEnd core slot s) := by
  refine form_due h ?_
  split
  · exact optForm_ite trivial h
  · trivial

theorem form_execRefusalWindowExpiry {n : Nat} (h : MemoryForm s) : OutForm (execRefusalWindowExpiry n s) :=
  form_due h (optForm_ite (form_modHart h) trivial)

/-! ## Ports -/

theorem form_portFault {code port : Nat} (h : MemoryForm s) : MemoryForm (portFault code port s) := form_takeTrap h

theorem form_deliverCmd {k : Nat} {ws : List Word} {seq : BitVec 32} (h : MemoryForm s) : MemoryForm (deliverCmd k ws seq s) :=
  form_onH (form_ite (form_append h) h)

theorem form_pushWord {k : Nat} {x : Word} {seq : BitVec 32} (h : MemoryForm s)
    (e : pushWord k x s = some (.ok (seq, t))) : MemoryForm t := by
  unfold pushWord at e
  extract_lets k' p first len seq' words s₁ at e
  have h₂ : MemoryForm s₁ := h
  split at e
  · cases e
  split at e
  · cases e
  split at e
  · obtain rfl : _ = t := congrArg Prod.snd (Except.ok.inj (Option.some.inj e))
    exact h₂
  split at e
  all_goals
    split at e
    · cases e
    · obtain rfl : _ = t := congrArg Prod.snd (Except.ok.inj (Option.some.inj e))
      exact form_deliverCmd h₂

theorem form_execPush {k : BitVec 3} (h : MemoryForm s) : OutForm (execPush c d k b s) := by
  refine form_guarded h (form_ite (form_portFault h) (form_withSources h fun x y ht => ?_))
  split
  · exact h
  · exact form_takeTrap h
  · exact form_deliver h (form_pushWord ht ‹_›)

theorem form_withResult {k : Nat} {f : Word → List Word → State → State} (h : MemoryForm s)
    (hf : ∀ x l, MemoryForm (f x l s)) : MemoryForm (withResult i k f s) := by
  unfold withResult
  split
  · exact form_ite (form_portFault h) h
  · exact hf _ _

theorem form_execPop {k : BitVec 3} (h : MemoryForm s) : OutForm (execPop c d k s) :=
  form_guarded h (form_withResult h fun _ _ => form_deliver h (form_onH h))

theorem form_execPeek {k : BitVec 3} (h : MemoryForm s) : OutForm (execPeek c d k s) :=
  form_guarded h (form_withResult h fun _ _ => form_deliver h h)

theorem form_execCpwp {k : BitVec 3} (h : MemoryForm s) : OutForm (execCpwp c d k b s) := by
  refine form_guarded h ?_
  dsimp only
  split
  · exact form_portFault h
  · exact form_ite (form_portFault h) (form_withSources h fun _ _ ht => form_deliver h ht)

/-! ## Loop nests -/

theorem form_loadBlock {va : Word} {n al : Nat} {bs : List Byte} (h : MemoryForm s)
    (e : loadBlock va n al s = .ok (bs, t)) : MemoryForm t := by
  unfold loadBlock at e
  split at e
  · cases e
  · exact form_load h e

theorem form_execZloop {r : BitVec 6} {len1 : BitVec 4} (h : MemoryForm s) : OutForm (execZloop c r len1 s) := by
  refine form_guarded h (form_unlessDoff h ?_)
  dsimp only
  split
  · exact form_takeTrap h
  · next bs u e =>
    have hu : MemoryForm u := form_loadBlock h e
    exact form_ite (form_takeTrap h) (form_ite hu (form_ite hu hu))

theorem form_loopBack (h : MemoryForm s) : MemoryForm s.loopBack := by
  unfold State.loopBack
  split
  · exact h
  refine form_ite h ?_
  split
  · exact h
  · exact h

end Sys2Proof.Proofs
end

section
/-! PROOFS. The canonical form of memory through the asynchronous engines (R274 to R278, R288 to R302). -/

namespace Sys2Proof.Proofs

open Sys2Proof.Machine Sys2Proof.Safety

variable {s t : State}

/-! ## The context that an event names -/

theorem form_modCtx {n : Nat} {f : Hart → Hart} (h : MemoryForm s) : MemoryForm (modCtx n f s) := by
  unfold modCtx
  refine form_ite (form_modHart h) ?_
  split
  · exact form_of_mem (s := s) rfl h
  · exact form_of_mem (s := s) rfl h

theorem form_modJob {ok : Cmd → Bool} {n k : Nat} {f : Cmd → Cmd} (h : MemoryForm s) : MemoryForm (modJob ok n k f s) :=
  form_modCtx h

theorem form_modOwing {n k : Nat} {f : Cmd → Cmd} (h : MemoryForm s) : MemoryForm (modOwing n k f s) := form_modCtx h

theorem form_modCmd {n k : Nat} {f : Cmd → Cmd} (h : MemoryForm s) : MemoryForm (modCmd n k f s) := form_modJob h

theorem form_finish {n k : Nat} {status aux : Byte} (h : MemoryForm s) : MemoryForm (finish n k status aux s) := form_modCmd h

/-! ## Answers of an engine's accesses -/

/-- The state in the answer of an engine's step, where it has one, has its memory in canonical form. -/
def AnsForm {α : Type} (p : α → State) : Ans α → Prop
  | .ok a => MemoryForm (p a)
  | _ => True

variable {α β : Type} {p : α → State} {q : β → State} {x : Ans α} {f : α → Ans β}

theorem ansForm_bind (hx : AnsForm p x) (hf : ∀ a, MemoryForm (p a) → AnsForm q (f a)) : AnsForm q (x.bind f) := by
  cases x with
  | ok a => exact hf a hx
  | stall => trivial
  | stop => trivial
  | bad e => trivial

/-- An access that gives no state goes on from the state before. -/
theorem ansForm_stay (h : MemoryForm s) : AnsForm (fun _ => s) x := by
  cases x with
  | ok a => exact h
  | stall => trivial
  | stop => trivial
  | bad e => trivial

theorem ansForm_ite {c : Prop} [Decidable c] {y : Ans α} (hx : AnsForm p x) (hy : AnsForm p y) :
    AnsForm p (if c then x else y) := by
  split
  · exact hx
  · exact hy

theorem form_of_ok {a : α} (hx : AnsForm p x) (e : x = .ok a) : MemoryForm (p a) := by
  rw [e] at hx
  exact hx

/-! ## Checked accesses of an engine (R278) -/

variable {j : Job} {acc : Acc} {va : Word} {n : Nat} {bs : List Byte} {store al : Bool}

theorem form_jobStash (h : MemoryForm s) : MemoryForm (j.stash acc store s) := by
  unfold Job.stash
  refine form_ite (form_foldl (fun c hs => form_ite (form_soilChunk hs) ?_) (form_keep h)) (form_keep h)
  exact form_of_mem (touch_mem _ c _) hs

theorem ansForm_read (h : MemoryForm s) : AnsForm Prod.snd (j.read va n s) :=
  ansForm_bind (ansForm_stay h) fun _ => form_jobStash

theorem form_putChunks {own : Bool} {launch : Option Word} {cs : List Chunk} (h : MemoryForm s) :
    MemoryForm (putChunks own launch cs bs s) := by
  induction cs generalizing bs s with
  | nil => exact h
  | cons c cs ih => exact ih (form_markFrame (form_ite (form_write h) (form_writeDev h)))

theorem form_jobPut (h : MemoryForm s) : MemoryForm (j.put acc bs s) := form_putChunks (form_jobStash h)

theorem ansForm_write (h : MemoryForm s) : AnsForm Prod.snd (j.write va bs al s) :=
  ansForm_bind (ansForm_stay h) fun _ => form_jobPut

theorem form_stopTask (h : MemoryForm s) : MemoryForm (j.stopTask s) := by
  unfold Job.stopTask
  split
  · exact form_stopLaunch h
  · exact h

theorem optForm_conclude {x : Ans (Byte × Byte × State)} (h : MemoryForm s) (hx : AnsForm (fun r => r.2.2) x) :
    OptForm (j.conclude s x) := by
  unfold Job.conclude
  split
  · exact form_finish (form_of_ok hx rfl)
  · exact form_finish h
  · exact form_stopTask h
  · trivial

theorem ansForm_readMany {as : List Word} (h : MemoryForm s) : AnsForm Prod.snd (j.readMany n as s) := by
  induction as generalizing s with
  | nil => exact h
  | cons a as ih => exact ansForm_bind (ansForm_read h) fun _ hs => ansForm_bind (ih hs) fun _ ht => ht

/-! ## Taking a command (R227, R275) -/

variable {k opc : Nat}

theorem optForm_takeCommands {m : Nat} (h : MemoryForm s) : OptForm (takeCommands m k n s) := by
  unfold takeCommands
  split
  · trivial
  · exact optForm_ite trivial (form_modCtx h)

theorem form_engineEvent {m : Nat} {is : Engine → Bool} {wellFormed : Cmd → Bool} {run : Job → State → Option State}
    (h : MemoryForm s) (hr : ∀ j, OptForm (run j s)) : OutForm (engineEvent m k opc is wellFormed run s) := by
  refine form_due h ?_
  split
  · trivial
  · exact optForm_ite trivial (optForm_ite (form_finish h) (optForm_ite trivial (optForm_ite (form_finish h) (hr _))))

/-! ## The copy engine (R289 to R291) -/

variable {c : Cmd} {ext new : List (Nat × Nat)}

theorem form_coverNew (h : MemoryForm s) : MemoryForm (coverNew ext new s) := by
  unfold coverNew
  exact form_ite h h

theorem ansForm_copyByte (h : MemoryForm s) : AnsForm Prod.snd (copyByte j c s) :=
  ansForm_bind (ansForm_read h) fun _ hs => ansForm_bind (ansForm_write hs) fun _ ht => form_coverNew ht

theorem optForm_copyBytes (h : MemoryForm s) : OptForm (copyBytes j n c s) := by
  induction n generalizing c s with
  | zero => exact optForm_ite (form_modCmd h) (optForm_ite trivial (form_modCmd h))
  | succ n ih =>
    unfold copyBytes
    refine optForm_ite (form_modCmd h) ?_
    dsimp only
    split
    · exact ih (form_of_ok (ansForm_copyByte h) ‹_›)
    · exact optForm_ite trivial (form_modCmd h)
    · exact form_stopTask h
    · exact form_modCmd h

theorem form_execCopy {m : Nat} (h : MemoryForm s) : OutForm (execCopy m k n s) :=
  form_engineEvent h fun _ => optForm_copyBytes h

theorem form_execCopyDecrement {m : Nat} (h : MemoryForm s) : OutForm (execCopyDecrement m k n s) := by
  refine form_due h ?_
  split
  · trivial
  split
  · trivial
  refine optForm_ite trivial ?_
  dsimp only
  refine optForm_some ?_
  split
  · exact form_modOwing h
  · exact form_modOwing (s := s.setBarrier _ _ _) h

theorem form_execResultAppend {m : Nat} (h : MemoryForm s) : OutForm (execResultAppend m k s) := by
  refine form_due h ?_
  split
  · trivial
  refine optForm_ite trivial ?_
  cases Port.appendOne _ with
  | none => trivial
  | some p => exact form_modCtx h

/-! ## Indirect stream engines (R292, R293) -/

theorem ansForm_readIndex {base : Word} {i : Int} (h : MemoryForm s) : AnsForm Prod.snd (readIndex j base i s) :=
  ansForm_bind (ansForm_read h) fun _ hs => hs

theorem ansForm_indirectAddr {i : Nat} (h : MemoryForm s) : AnsForm Prod.snd (indirectAddr j i s) :=
  ansForm_bind
    (ansForm_bind (ansForm_readIndex h) fun _ hs => ansForm_ite (ansForm_readIndex hs) (p := Prod.snd) hs) fun _ hs => hs

theorem ansForm_indirectElem {scatter : Bool} {i : Nat} (h : MemoryForm s) : AnsForm Prod.snd (indirectElem j scatter i s) :=
  ansForm_bind (ansForm_indirectAddr h) fun _ hs => ansForm_bind (ansForm_read hs) fun _ ht => ansForm_write ht

theorem optForm_indirectElems {scatter : Bool} {i : Nat} {status : Byte} (h : MemoryForm s) :
    OptForm (indirectElems j scatter n i status ext s) := by
  induction n generalizing i status ext s with
  | zero => exact form_finish (form_cover h)
  | succ n ih =>
    unfold indirectElems
    split
    · exact ih (form_of_ok (ansForm_indirectElem h) ‹_›)
    · exact ih h
    · exact form_stopTask h
    · trivial

theorem form_execGather {m : Nat} (h : MemoryForm s) : OutForm (execGather m k s) :=
  form_engineEvent h fun _ => optForm_indirectElems h

theorem form_execScatter {m : Nat} (h : MemoryForm s) : OutForm (execScatter m k s) :=
  form_engineEvent h fun _ => optForm_indirectElems h

/-! ## The base-die reduction engine (R294, R295) -/

variable {bufs : List Word}

theorem ansForm_reduceElem {e : Nat} (h : MemoryForm s) : AnsForm (fun r => r.2.2) (reduceElem j bufs e s) :=
  ansForm_bind (ansForm_readMany h) fun _ hs => hs

theorem ansForm_readEither {as : List Word} (hs : MemoryForm s) (ht : MemoryForm t) :
    AnsForm Prod.snd (readEither j s as t) := by
  induction as generalizing t with
  | nil => exact ht
  | cons a as ih =>
    exact ansForm_bind (ansForm_read hs) fun _ _ => ansForm_bind (ansForm_read ht) fun _ hu =>
      ansForm_bind (ih hu) fun _ hv => hv

theorem ansForm_reduceElems {sum : Nat → State → Ans (List Byte × Flags × State)} {es : List Nat} {status : Byte} {g : Flags}
    (hsum : ∀ {s} e, MemoryForm s → AnsForm (fun r => r.2.2) (sum e s)) (h : MemoryForm s) :
    AnsForm (fun r => r.2.2) (reduceElems j sum es status g ext s) := by
  induction es generalizing status g ext s with
  | nil => exact form_cover h
  | cons e es ih =>
    unfold reduceElems
    dsimp only
    split
    next bs g' s' hs =>
      have h' : MemoryForm s' := form_of_ok (hsum e h) hs
      refine ansForm_ite (ih h') ?_
      split
      · exact ih (form_of_ok (ansForm_write (s := { s' with fresh := s'.fresh + 1 }) h') ‹_›)
      · exact ih h'
      · trivial
      · trivial
    · exact ih h
    · trivial
    · trivial

theorem ansForm_reduceAll (h : MemoryForm s) : AnsForm (fun r => r.2.2) (reduceAll j bufs s) := by
  have hs : MemoryForm ({ s with fresh := s.fresh + j.cmd.field 2 0 32 } : State) := h
  exact ansForm_ite (ansForm_reduceElems (fun _ ht => ansForm_bind (ansForm_readEither h ht) fun _ hu => hu) hs)
    (ansForm_reduceElems (fun _ => ansForm_reduceElem) h)

theorem ansForm_reduce (h : MemoryForm s) : AnsForm (fun r => r.2.2) (reduce j s) := by
  refine ansForm_bind (ansForm_readMany h) fun _ hs => ansForm_bind (ansForm_reduceAll hs) fun _ ht => ansForm_ite ht ?_
  split
  · exact form_cover (form_of_ok (ansForm_write ht) ‹_›)
  · exact ht
  · trivial
  · trivial

theorem form_execReduction {m : Nat} (h : MemoryForm s) : OutForm (execReduction m k s) :=
  form_engineEvent h fun _ => optForm_conclude h (ansForm_reduce h)

/-! ## Bank attention engines (R296 to R299) -/

theorem ansForm_attendFrom {row : Row} {i : Nat} {acc : Soft} (h : MemoryForm s) :
    AnsForm Prod.snd (attendFrom j row n i acc s) := by
  induction n generalizing i acc s with
  | zero => exact h
  | succ n ih =>
    exact ansForm_bind (ansForm_read h) fun _ hs => ansForm_bind (ansForm_stay hs) fun _ _ =>
      ansForm_bind (ansForm_stay hs) fun _ _ => ansForm_ite trivial (ih hs)

theorem form_residueRows {stack : Nat} (h : MemoryForm s) : MemoryForm (s.residueRows stack ext) := by
  unfold State.residueRows
  exact h

theorem ansForm_attend {stack : Nat} (h : MemoryForm s) : AnsForm (fun r => r.2.2) (attend j stack s) :=
  ansForm_bind (ansForm_read h) fun _ hs => ansForm_ite trivial <|
    ansForm_bind (ansForm_attendFrom hs) fun _ ht => ansForm_bind (ansForm_write ht) fun _ hu => form_residueRows (form_cover hu)

theorem form_execAttention {m : Nat} (h : MemoryForm s) : OutForm (execAttention m k s) :=
  form_engineEvent h fun _ => optForm_ite trivial (optForm_conclude h (ansForm_attend h))

theorem form_execAtlrGo (h : MemoryForm s) : OutForm (execAtlrGo s) := h

theorem form_execEportWrite {m : Nat} {v : Word} (h : MemoryForm s) : OutForm (execEportWrite m v s) :=
  form_atHart (fun h => h) h

/-! ## The collective engine (R300 to R302) -/

theorem optForm_beginCollective (h : MemoryForm s) : OptForm (beginCollective j s) := by
  unfold beginCollective
  extract_lets c grp table
  have ht : AnsForm (fun r => r.2.2.2) table :=
    ansForm_bind (ansForm_readMany h) fun _ hs => ansForm_ite trivial <|
      ansForm_bind (ansForm_readMany hs) fun _ ht => ansForm_ite trivial <|
        ansForm_bind (ansForm_readMany ht) fun _ hu => hu
  clear_value table
  split
  · exact form_modCmd (form_of_ok ht rfl)
  · exact form_finish h
  · exact form_stopTask h
  · trivial

theorem ansForm_completeCollective (h : MemoryForm s) : AnsForm (fun r => r.2.2) (completeCollective j s) := by
  unfold completeCollective
  extract_lets c sums aux s₁
  have h₁ : MemoryForm s₁ := h
  refine ansForm_bind (ansForm_write h₁) fun _ hs => ?_
  dsimp only
  split
  · exact form_cover (form_of_ok (ansForm_write hs) ‹_›)
  · trivial
  · trivial
  · exact form_cover hs

theorem form_execAllReduce {m : Nat} (h : MemoryForm s) : OutForm (execAllReduce m k s) :=
  form_engineEvent h fun _ => optForm_ite (optForm_beginCollective h)
    (optForm_ite (optForm_conclude h (ansForm_completeCollective h)) trivial)

theorem form_execCollectivePacket {m rank : Nat} {failed : Bool} {data : List (BitVec 32)} (h : MemoryForm s) :
    OutForm (execCollectivePacket m k rank failed data s) :=
  form_engineEvent h fun _ => optForm_ite trivial <| optForm_ite (optForm_ite trivial (form_modCmd h)) <|
    optForm_ite trivial <| optForm_ite (optForm_ite trivial (form_modCmd h)) <| optForm_ite trivial (form_modCmd h)

theorem form_execCollectiveTimeout {m : Nat} {missing : List Nat} (h : MemoryForm s) :
    OutForm (execCollectiveTimeout m k missing s) :=
  form_engineEvent h fun _ => optForm_ite trivial <|
    optForm_conclude h (ansForm_bind (ansForm_write h) fun _ hs => form_cover hs)

end Sys2Proof.Proofs
end

section
/-! PROOFS. The canonical form of memory through marked loops and their replay (R308 to R325). -/

namespace Sys2Proof.Proofs

open Sys2Proof.Machine Sys2Proof.Safety

variable {s t : State}

theorem form_noteTrace {i : Instr} {pre post : State} (h : MemoryForm post) : MemoryForm (noteTrace i pre post) :=
  form_ite h (form_ite h (form_ite h h))

/-! ## lprec, lpend and lpjoin (R310, R311, R319) -/

variable {c : Ctl}

theorem form_loopFault {code : Nat} (h : MemoryForm s) : MemoryForm (loopFault code s) := form_takeTrap h

theorem form_execLprec {d : BitVec 6} {a : Option (BitVec 6)} {len : BitVec 14} {nc : BitVec 2}
    {k0 k1 k2 k3 tr : BitVec 3} (h : MemoryForm s) : OutForm (execLprec c d a len nc k0 k1 k2 k3 tr s) :=
  form_guarded h (form_unlessDoff h (form_ite (form_loopFault h) (form_ite h (form_ite h h))))

theorem form_startReplay {it : Word} (h : MemoryForm s) : MemoryForm (startReplay it s) := h

theorem form_execLpend (h : MemoryForm s) : OutForm (execLpend c s) := by
  refine form_guarded h (form_unlessDoff h (form_ite (form_loopFault h) (form_ite (form_ite (form_ite h ?_) h) h)))
  dsimp only
  split
  · exact form_startReplay (s := s.onH _) h
  · exact h

theorem form_handBack (h : MemoryForm s) : MemoryForm (handBack s) := h

theorem form_execLpjoin (h : MemoryForm s) : OutForm (execLpjoin c s) := by
  refine form_guarded h (form_unlessDoff h (form_ite h ?_))
  split
  · exact h
  · exact form_ite h (form_handBack h)
  · exact h

/-! ## One replayed iteration (R317, R318, R323) -/

/-- The state of an answer that may be an error has its memory in canonical form. -/
def ExcForm {ε : Type} : Except ε State → Prop
  | .ok t => MemoryForm t
  | .error _ => True

theorem form_of_some {r : Option State} (hr : OptForm r) (e : r = some t) : MemoryForm t := by
  rw [e] at hr
  exact hr

theorem form_of_excOk {ε : Type} {r : Except ε State} (hr : ExcForm r) (e : r = .ok t) : MemoryForm t := by
  rw [e] at hr
  exact hr

theorem excForm_ite {ε : Type} {p : Prop} [Decidable p] {x y : Except ε State} (hx : ExcForm x) (hy : ExcForm y) :
    ExcForm (if p then x else y) := by
  split
  · exact hx
  · exact hy

theorem form_orSame {o : Out} (h : MemoryForm s) (ho : OutForm o) : MemoryForm (orSame s o) := by
  unfold orSame
  split
  · exact ho
  · exact h

/-- An operation of the body on vectors, as the replay runs it. -/
theorem optForm_replayQueued {i : Instr} (h : MemoryForm s) :
    OptForm (match runQueued i { s.envOf i with n := 1 } s with | .done t => some t | .wait => none | .trap .. => some s) := by
  split
  · exact form_of_done (vForm_runQueued h) ‹_›
  · trivial
  · exact h

theorem optForm_replayOp {i : Instr} (h : MemoryForm s) : OptForm (replayOp i s) := by
  have alu {i : Instr} {c : Ctl} {a b d : Operand} {f : Word → Word → Word × Flags} :
      MemoryForm (orSame s (guarded c s (alu i a b d f))) := form_orSame h (form_guarded h (form_alu h))
  have sel {c : Ctl} {d a b : Operand} {neg : Bool} {pn : BitVec 3} : MemoryForm (orSame s (execSel c d a b neg pn s)) := by
    refine form_orSame h (form_guarded h ?_)
    dsimp only
    exact form_alu h
  unfold replayOp
  split
  case h_13 => exact form_orSame h (form_guarded h (form_withSources h fun _ _ ht => ht))
  case h_14 => exact sel
  case h_17 => exact optForm_replayQueued h
  all_goals exact alu

variable {slice : Nat} {m : RecMeta} {bs : List Byte}

theorem form_replayChunks {cs : List Chunk} (h : MemoryForm s) : MemoryForm (replayChunks slice m cs bs s) := by
  induction cs generalizing bs s with
  | nil => exact h
  | cons c cs ih => exact ih (form_residueRows (form_markFrame (form_write (form_patchHome (form_logChunk h)))))

theorem excForm_replayAccess {prec : Addr} {it : Word} {i : Instr} (h : MemoryForm s) :
    ExcForm (replayAccess slice prec it i s) := by
  unfold replayAccess
  split
  · exact h
  dsimp only
  split
  · trivial
  refine excForm_ite trivial ?_
  split
  · exact form_keep h
  · exact form_keep h
  · exact form_keep h
  · split
    · trivial
    · exact form_cover (form_replayChunks (form_keep h))

theorem excForm_replayPath {k : Mark} {rs : List TraceRec} (h : MemoryForm s) : ExcForm (replayPath k rs s) := by
  induction rs generalizing s with
  | nil => exact h
  | cons r rs ih =>
    unfold replayPath
    refine excForm_ite trivial (excForm_ite (ih h) (excForm_ite trivial ?_))
    split
    · split
      · trivial
      · exact ih (form_of_excOk (excForm_replayAccess h) ‹_›)
    split
    · exact ih h
    · exact ih h
    split
    · trivial
    · exact ih (form_of_some (optForm_replayOp h) ‹_›)

theorem excForm_replayIteration {k : Mark} (h : MemoryForm s) : ExcForm (replayIteration k s) := by
  unfold replayIteration
  split
  · trivial
  refine excForm_ite trivial ?_
  split
  · trivial
  · exact excForm_replayPath h

theorem optForm_replayOnce {n k : Nat} {x : Hart} (h : MemoryForm s) : OptForm (replayOnce n k x s) := by
  unfold replayOnce
  extract_lets mk s₁ aside start
  have h₁ : MemoryForm s₁ := form_focus h
  have h₂ : MemoryForm start := h₁
  split
  · trivial
  · exact form_modCtx h
  next r e =>
    have hr : MemoryForm r := form_of_excOk (excForm_replayIteration h₂) e
    exact form_modCtx (form_focus (s := { r with hart := s₁.hart, saved := s.saved }) hr)

theorem form_execReplayIteration {n : Nat} (h : MemoryForm s) : OutForm (execReplayIteration n s) := by
  refine form_due h ?_
  split
  · trivial
  · exact optForm_ite trivial (optForm_replayOnce h)

end Sys2Proof.Proofs
end

section
/-! PROOFS. The canonical form of memory through command queues, packets and launches (R361 to R379, R461). -/

namespace Sys2Proof.Proofs

open Sys2Proof.Machine Sys2Proof.Safety

variable {s t : State}

theorem form_getD {r : Option State} (h : MemoryForm s) (hr : OptForm r) : MemoryForm (r.getD s) := by
  cases r with
  | none => exact h
  | some t => exact hr

/-! ## Accesses of the queue processor (R362) -/

variable {pid : Byte} {va : Word} {n q : Nat} {bs : List Byte} {p : Packet} {slot : Word} {l : Launch}

theorem form_queueRead (h : MemoryForm s) (e : queueRead pid va n s = some (bs, t)) : MemoryForm t := by
  unfold queueRead at e
  obtain ⟨acc, -, rfl⟩ : ∃ acc : Acc, queueCheck pid va n .load s = some acc ∧ s.keep acc.fills = t := by
    obtain ⟨acc, ha, hp⟩ := Option.map_eq_some_iff.1 e
    exact ⟨acc, ha, congrArg Prod.snd hp⟩
  exact form_keep h

theorem optForm_queueWrite (h : MemoryForm s) : OptForm (queueWrite pid va bs s) := by
  unfold queueWrite
  cases queueCheck pid va bs.length .store s with
  | none => trivial
  | some acc => exact form_putChunks (form_keep h)

theorem optForm_queueRmw {f : Word → Word} (h : MemoryForm s) : OptForm (queueRmw pid va f s) := by
  unfold queueRmw
  cases queueCheck pid va 8 .rmw s with
  | none => trivial
  | some acc => exact form_putChunks (form_keep h)

/-! ## The queue table (R361, R362) -/

theorem form_modQueue {f : Queue → Queue} (h : MemoryForm s) : MemoryForm (modQueue q f s) := h

theorem form_stopQueue {code : Byte} (h : MemoryForm s) : MemoryForm (stopQueue q code slot s) := by
  unfold stopQueue
  extract_lets b pid s₁ s₂ s₃
  have h₂ : MemoryForm s₂ := form_writeDev (form_writeDev h : MemoryForm s₁)
  exact form_journal (form_modQueue h₂ : MemoryForm s₃)

theorem form_retireSlots (h : MemoryForm s) : MemoryForm (retireSlots q slot n s) := form_modQueue (form_writeDev h)

theorem form_retire (h : MemoryForm s) : MemoryForm (retire q p s) := form_retireSlots h

/-! ## Parsing (R362, R363) -/

theorem form_readSlots {ring i : Word} {slots : Nat} (h : MemoryForm s)
    (e : readSlots pid ring slots n i s = some (bs, t)) : MemoryForm t := by
  induction n generalizing i s bs with
  | zero =>
    obtain rfl : s = t := congrArg Prod.snd (Option.some.inj e)
    exact h
  | succ n ih =>
    unfold readSlots at e
    split at e
    · cases e
    next b u hu =>
      obtain ⟨r, hr, hp⟩ := Option.map_eq_some_iff.1 e
      obtain rfl : r.2 = t := congrArg Prod.snd hp
      exact ih (form_queueRead h hu) hr

theorem form_parsePacket (h : MemoryForm s) : MemoryForm (parsePacket q n s) := by
  unfold parsePacket
  extract_lets head ring slots
  split
  · exact form_stopQueue h
  next b u hu =>
    refine form_ite (form_modQueue h) (form_ite (form_stopQueue (form_readSlots h hu)) ?_)
    split
    · exact form_stopQueue h
    next b v hv =>
      have hv : MemoryForm v := form_readSlots h hv
      exact form_ite (form_stopQueue hv) (form_ite hv (form_journal (form_modQueue hv)))

theorem form_execQueueSchedule (h : MemoryForm s) : OutForm (execQueueSchedule q s) := by
  unfold execQueueSchedule
  refine form_due h (optForm_ite trivial (optForm_ite (optForm_ite trivial (optForm_some (form_parsePacket h))) ?_))
  refine optForm_ite trivial ?_
  generalize controlOk s q = ok
  refine optForm_ite (optForm_some (form_stopQueue h)) ?_
  extract_lets tail s₁
  have h₁ : MemoryForm s₁ := form_modQueue (form_modPkg h)
  exact optForm_ite h₁ (optForm_ite trivial (optForm_some (form_parsePacket h₁)))

theorem form_withPacket {type : Nat} {f : Packet → State → Option State} (h : MemoryForm s) (hf : ∀ p, OptForm (f p s)) :
    OutForm (withPacket q type f s) := by
  refine form_due h ?_
  split
  · trivial
  · exact optForm_ite (hf _) trivial

theorem form_execPacketNop (h : MemoryForm s) : OutForm (execPacketNop q s) := form_withPacket h fun _ => form_retire h

theorem form_execPacketLaunch (h : MemoryForm s) : OutForm (execPacketLaunch q s) := by
  refine form_withPacket h fun _ => optForm_ite trivial ?_
  extract_lets seq l s₁
  have h₁ : MemoryForm s₁ := form_journal h
  exact form_iff.2 h₁

/-! ## FENCE, SIGNAL, EDGE and MODULE (R365 to R367, R378) -/

theorem form_fencePass {b : List Byte} {cs seen seen' : List Nat} (h : MemoryForm s)
    (e : fencePass pid b cs seen s = some (seen', t)) : MemoryForm t := by
  induction cs generalizing seen s with
  | nil =>
    obtain rfl : s = t := congrArg Prod.snd (Option.some.inj e)
    exact h
  | cons c cs ih =>
    unfold fencePass at e
    split at e
    · exact ih h e
    dsimp only at e
    split at e
    · cases e
    next hu => exact ih (form_queueRead h hu) e

theorem form_fenceStep (h : MemoryForm s) : MemoryForm (fenceStep q p s).1 := by
  unfold fenceStep
  dsimp only
  split
  · exact form_stopQueue h
  next seen u e =>
    have hu : MemoryForm u := form_fencePass h e
    split
    · exact form_retire hu
    · exact form_modQueue hu

theorem form_execPacketFence (h : MemoryForm s) : OutForm (execPacketFence q s) := form_withPacket h fun _ => form_fenceStep h

theorem form_execPacketFenceSatisfied (h : MemoryForm s) : OutForm (execPacketFenceSatisfied q s) :=
  form_withPacket h fun _ => optForm_ite (form_fenceStep h) trivial

theorem form_execPacketSignal (h : MemoryForm s) : OutForm (execPacketSignal q s) := by
  refine form_withPacket h fun p => ?_
  extract_lets pid done
  have hd : OptForm done := optForm_ite (optForm_queueWrite h) (optForm_queueRmw h)
  clear_value done
  cases done with
  | none => exact form_stopQueue h
  | some t => exact form_retire hd

theorem form_edgeStep (h : MemoryForm s) : MemoryForm (edgeStep q p s).1 := by
  unfold edgeStep
  dsimp only
  split
  · exact form_stopQueue h
  split
  · exact h
  split
  · exact form_stopQueue h
  · exact form_retire (form_of_some (optForm_queueRmw h) ‹_›)

theorem form_execPacketEdge (h : MemoryForm s) : OutForm (execPacketEdge q s) := form_withPacket h fun _ => form_edgeStep h

theorem form_execPacketEdgeTaken (h : MemoryForm s) : OutForm (execPacketEdgeTaken q s) :=
  form_withPacket h fun _ => optForm_ite (form_edgeStep h) trivial

theorem form_execPacketModuleLoad (h : MemoryForm s) : OutForm (execPacketModuleLoad q s) :=
  form_withPacket h fun _ => optForm_ite (form_retire (form_purge h)) trivial

theorem form_execPacketModuleUnload (h : MemoryForm s) : OutForm (execPacketModuleUnload q s) :=
  form_withPacket h fun _ => optForm_ite (form_retire (form_purge h)) trivial

/-! ## Parsed, Leasing, Ready (R370, R371, R386, R461) -/

theorem form_execCidAssign (h : MemoryForm s) : OutForm (execCidAssign n s) := by
  refine form_due h ?_
  split
  · exact optForm_ite trivial h
  · trivial

theorem optForm_reachGrant (h : MemoryForm s) : OptForm (reachGrant l s) := optForm_ite trivial h

theorem optForm_flowQueue (h : MemoryForm s) : OptForm (flowQueue n s) := by
  unfold flowQueue
  split
  · trivial
  · exact optForm_reachGrant h

theorem optForm_grantFlow (h : MemoryForm s) : OptForm (grantFlow l s) := optForm_ite trivial h

theorem optForm_lease (h : MemoryForm s) : OptForm (lease l s) := by
  unfold lease
  split
  · trivial
  next u e =>
    have hu : MemoryForm u := form_of_some (optForm_reachGrant h) e
    cases u.launchAt l.seq with
    | none => trivial
    | some _ => exact optForm_grantFlow hu

theorem form_execLeasingDone (h : MemoryForm s) : OutForm (execLeasingDone n s) := by
  refine form_due h ?_
  split
  · trivial
  split
  · trivial
  next u e =>
    have hu : MemoryForm u := form_of_some (optForm_lease h) e
    split
    · exact hu
    refine optForm_ite trivial ?_
    split
    · exact form_ite (form_retireSlots hu) hu
    · exact form_ite (form_retire hu) hu

/-! ## Placement (R372, R373) -/

variable {r : Nat}

theorem form_numberTurn (h : MemoryForm s) : MemoryForm (numberTurn n s) := form_modPkg (form_modHart h)

theorem form_modLaunch {f : Launch → Launch} (h : MemoryForm s) : MemoryForm (s.modLaunch slot f) := h

theorem form_placeOn (h : MemoryForm s) : MemoryForm (placeOn l r n s) :=
  form_modLaunch (form_numberTurn (form_modHart h))

/-- The choice of a core ranges over every core of the package: it and the slots that fit are kept opaque here. -/
theorem placeRest_succ (l : Launch) (n r : Nat) (s : State) :
    placeRest l (n + 1) r s = (chosenCore l s).bind fun c =>
      (fittingSlots l s c).head?.bind fun k => placeRest l n (r + 1) (placeOn l r k s) := by
  delta placeRest placeRest._f
  generalize chosenCore l = best
  generalize fittingSlots l = fits
  dsimp only
  cases best s with
  | none => rfl
  | some c =>
    dsimp only [Option.bind_some]
    cases fits s c with
    | nil => rfl
    | cons k ks => rfl

theorem optForm_placeRest (h : MemoryForm s) : OptForm (placeRest l n r s) := by
  induction n generalizing r s with
  | zero => exact h
  | succ n ih =>
    rw [placeRest_succ]
    cases chosenCore l s with
    | none => trivial
    | some c =>
      rw [Option.bind_some]
      cases fittingSlots l s c with
      | nil => trivial
      | cons k ks => exact ih (form_placeOn h)

theorem form_execHartPlacement {k : Nat} (h : MemoryForm s) : OutForm (execHartPlacement n r k s) := by
  refine form_due h ?_
  split
  · trivial
  refine optForm_ite trivial ?_
  split
  · trivial
  · exact optForm_ite trivial (optForm_ite (optForm_placeRest (form_placeOn h)) (form_placeOn h))

/-! ## The end of a launch (R369, R258, R370, R371) -/

theorem form_clearBarriers (h : MemoryForm s) : MemoryForm (clearBarriers n s) := h

theorem form_announceEnd {status : Byte} (h : MemoryForm s) : MemoryForm (announceEnd l status s) := by
  unfold announceEnd
  extract_lets s₁ record s₂
  have h₁ : MemoryForm s₁ := form_journal h
  have h₂ : MemoryForm s₂ := form_getD h₁ (optForm_queueWrite h₁)
  exact form_ite h₂ (form_getD h₂ (optForm_queueRmw h₂))

theorem form_freeLaunch (h : MemoryForm s) : MemoryForm (freeLaunch l s) := h

theorem form_forgetLaunch (h : MemoryForm s) : MemoryForm (forgetLaunch l s) := by
  unfold forgetLaunch
  extract_lets s₁
  have h₁ : MemoryForm s₁ := h
  split
  · exact form_modQueue h₁
  · exact h₁

theorem form_closeLaunch {status : Byte} (h : MemoryForm s) : MemoryForm (closeLaunch l status s) :=
  form_forgetLaunch (form_freeLaunch (form_announceEnd h))

theorem form_execLaunchEnd (h : MemoryForm s) : OutForm (execLaunchEnd n s) := by
  refine form_due h ?_
  split
  · trivial
  · exact optForm_ite trivial (form_closeLaunch h)

/-! ## lnch and ipurge (R374, R379) -/

variable {c : Ctl}

theorem form_launchFault {code byte : Nat} (h : MemoryForm s) : MemoryForm (launchFault code byte s) := form_takeTrap h

theorem form_execLnch {d : Operand} {a : BitVec 6} (h : MemoryForm s) : OutForm (execLnch c d a s) := by
  refine form_guarded h (form_unlessDoff h (form_ite h (form_ite (form_takeTrap h) ?_)))
  split
  · exact form_takeTrap h
  next b u e =>
    have hu : MemoryForm u := form_loadBytes h e
    dsimp only
    split
    · exact form_launchFault h
    split
    · exact form_launchFault h
    · exact h
    refine form_ite h ?_
    have hv {k : Pkg} {ls : List Launch} : MemoryForm ({ u with launches := ls, pkg := k } : State) := hu
    generalize hw : State.journal _ _ _ _ _ _ _ _ _ _ _ _ = w
    have h₂ : MemoryForm w := by
      rw [← hw]
      exact form_journal hv
    exact form_deliver h (form_getD (form_getD h₂ (optForm_reachGrant h₂)) (optForm_lease h₂))

theorem form_execIpurge {a : BitVec 6} {b : Operand} (h : MemoryForm s) : OutForm (execIpurge c a b s) :=
  form_guarded h (form_ite h (form_withSources h fun _ _ ht => form_ite h (form_purge ht)))

end Sys2Proof.Proofs
end

section
/-! PROOFS. The canonical form of memory through pre-emption and restore (R372, R405 to R412) and the steps of the package's
fabric (R360, R385, R388 to R393, R457). -/

namespace Sys2Proof.Proofs

open Sys2Proof.Machine Sys2Proof.Safety

variable {s t : State} {n : Nat}

/-! ## Yield requests and forced saves (R405 to R407) -/

theorem form_execYieldRequest (h : MemoryForm s) : OutForm (execYieldRequest n s) := by
  refine form_due h ?_
  dsimp only
  split
  · trivial
  · exact optForm_ite trivial (form_modHart h)

theorem form_execQuantumExpiry (h : MemoryForm s) : OutForm (execQuantumExpiry n s) :=
  form_due h (optForm_ite trivial (form_modHart h))

theorem form_saveAtBoundary {r : Reason} (h : MemoryForm s) : MemoryForm (saveAtBoundary r s) :=
  form_saveContext (form_drainAll (form_withdraw (form_lateStores h)))

/-! ## Restore (R183, R410 to R412) -/

theorem form_leaseFault {c : Saved} (h : MemoryForm s) : MemoryForm (leaseFault c s) := by
  unfold leaseFault
  split
  · exact form_modLaunch h
  · exact h

theorem form_regroup {g : Nat} (h : MemoryForm s) : MemoryForm (s.regroup g) := h

theorem form_restore {i : Nat} {c : Saved} (h : MemoryForm s) : MemoryForm (restore i n c s) := by
  have hl : MemoryForm ({ s with saved := s.saved.eraseIdx i } : State) := h
  unfold restore
  refine form_ite ?_ (form_atHart (fun h => form_ite h (form_regroup h))
    (form_carryCounters (form_numberTurn (form_modHart (form_leaseFault hl)))))
  split
  · exact form_stopLaunch h
  · exact hl

theorem form_execContextRestore {i : Nat} (h : MemoryForm s) : OutForm (execContextRestore i n s) := by
  refine form_due h ?_
  split
  · trivial
  · exact optForm_ite (form_restore h) trivial

/-! ## External agents (R389) -/

variable {pa : Nat} {bs : List Byte}

theorem form_externRead (h : MemoryForm s) : MemoryForm (externRead pa n s) := h

theorem form_externWrite (h : MemoryForm s) : MemoryForm (externWrite pa bs s) := form_cover (form_writeDev h)

theorem form_reply {r : Reply} (h : MemoryForm s) : MemoryForm (s.reply r) := h

theorem form_execHostLinkAccess {write : Bool} (h : MemoryForm s) : OutForm (execHostLinkAccess write pa bs s) :=
  form_due h (optForm_ite (form_ite h (form_reply h))
    (optForm_ite trivial (optForm_some (form_ite (form_externWrite h) (form_externRead h)))))

theorem form_execPeerAccess {peer : Nat} {write : Bool} (h : MemoryForm s) : OutForm (execPeerAccess peer write pa bs s) :=
  form_due h (optForm_ite trivial (optForm_ite (form_reply h)
    (optForm_ite trivial (optForm_some (form_ite (form_reply (form_externWrite h)) (form_externRead h))))))

/-! ## Shootdown, ownership and migration (R385, R388, R390) -/

theorem form_execShootdown {v : BitVec 32} (h : MemoryForm s) : OutForm (execShootdown v s) :=
  form_ite h (form_startShootdown h)

theorem form_execShootdownComplete (h : MemoryForm s) : OutForm (execShootdownComplete s) :=
  form_due h (optForm_ite (form_endShootdown h) trivial)

theorem form_execFownWrite {owner : BitVec 16} {frame : BitVec 36} (h : MemoryForm s) :
    OutForm (execFownWrite owner frame s) := form_writeFown h

theorem form_execFownRead {frame : BitVec 36} (h : MemoryForm s) : OutForm (execFownRead frame s) := form_writeFown h

theorem form_execMigrationStart {src : BitVec 36} (h : MemoryForm s) : OutForm (execMigrationStart src s) :=
  form_startMigration h

theorem form_copyLine (h : MemoryForm s) : MemoryForm (copyLine n s) := by
  unfold copyLine
  exact twf_tsets 0 _ _ (form_cleanIf h)

theorem form_endMigration (h : MemoryForm s) : MemoryForm s.endMigration := h

theorem form_execMigrationLineCopy (h : MemoryForm s) : OutForm (execMigrationLineCopy s) := by
  refine form_due h (optForm_ite trivial ?_)
  have hc : MemoryForm ((copyLine s.pkg.migDone s).modPkg fun p => { p with migDone := s.pkg.migDone + 1 }) :=
    form_modPkg (form_copyLine h)
  exact optForm_some (form_ite hc (form_endMigration hc))

/-! ## Peers, partition assignments and power gating (R391 to R393, R457) -/

theorem form_execPeerLinkUp {peer : Nat} (h : MemoryForm s) : OutForm (execPeerLinkUp peer s) :=
  form_due h (optForm_ite trivial h)

theorem form_execPeerLoss {peer : Nat} (h : MemoryForm s) : OutForm (execPeerLoss peer s) :=
  form_due h (optForm_ite trivial h)

variable {core : Nat} {v : Word}

theorem form_execPartitionGroupWrite {high : Bool} (h : MemoryForm s) : OutForm (execPartitionGroupWrite core high v s) :=
  form_writePgrp h

theorem form_execPhartWrite (h : MemoryForm s) : OutForm (execPhartWrite core v s) := form_writePhart h

theorem form_execCrownWrite (h : MemoryForm s) : OutForm (execCrownWrite core v s) := h

theorem form_execSgateWrite (h : MemoryForm s) : OutForm (execSgateWrite core v s) := form_writeSgate h

theorem form_execBankWake {bank : Nat} (h : MemoryForm s) : OutForm (execBankWake core bank s) :=
  form_due h (optForm_ite trivial h)

theorem form_execWgateWrite {v : BitVec 16} (h : MemoryForm s) : OutForm (execWgateWrite v s) := h

theorem form_execRpoisGo {frame : BitVec 36} (h : MemoryForm s) : OutForm (execRpoisGo frame s) := form_writeRpois h

end Sys2Proof.Proofs
end

section
/-! PROOFS. The canonical form of memory through the meaning of every instruction of a word and through one step of a hart
(R172, R338, R393, R398, R406, R416). -/

namespace Sys2Proof.Proofs

open Sys2Proof.Machine Sys2Proof.Safety

variable {s t : State} {i : Instr} {c : Ctl} {n : Nat}

/-! ## Instructions of a word -/

theorem form_issue (h : MemoryForm s) : OutForm (issueV i c (runQueued i) s) := form_issueV h (vForm_runQueued h)

theorem form_execBfi {o : SOps} {pos len1 : BitVec 6} (h : MemoryForm s) : OutForm (execBfi c o pos len1 s) := by
  refine form_guarded h ?_
  dsimp only
  exact form_alu h

theorem form_execBc {r : Rel} {nat : Bool} {a : BitVec 6} {b : Operand} {d : BitVec 36} (h : MemoryForm s) :
    OutForm (execBc c r nat a b d s) :=
  form_guarded h (form_withSources h fun _ _ ht => form_ite ht ht)

theorem form_execDbnz {d : BitVec 6} {disp : BitVec 32} (h : MemoryForm s) : OutForm (execDbnz c d disp s) := by
  refine form_guarded h ?_
  extract_lets x s₁
  have h₁ : MemoryForm s₁ := h
  exact form_ite h₁ h₁

/-- The instruction of a word keeps memory in canonical form. -/
theorem form_perform (h : MemoryForm s) : OutForm (perform i s) := by
  cases i
  all_goals dsimp only [perform]
  case add | sub | addi | mul | mulh | div | rem | min | max | and | or | xor | andn | shl | shr | sra | rot | clz | ctz | popc
      | bfx | sext | zext | li | lih | mov | lea | sel =>
    exact form_guarded h (form_alu h)
  case bfi => exact form_execBfi h
  case vadd | vsub | vmul | vmulh | vmadd | vmin | vmax | vabsd | vavg | vand | vor | vxor | vandn | vshl | vshr | vsra | vcmp
      | vsel | vmov | vbcast | vid | vclz | vpopc | vdot4 | vfadd | vfsub | vfmul | vfma | vfmin | vfmax | vfcmp | vfdiv | vfsqrt
      | vfrcp | vfrsq | vfexp2 | vflog2 | vfscl | vfrnd | vxch | vperm | vslide | vcompress | vexpand | vred | vredsc | vdot | vcvt
      | vpack | vunpack | mand | mor | mnot | mpopc | mfirst | vld | vlds | vldx | vst | vsts | vstx | vldq | vstq | vbind | vunbind
      | stmap | stwb | stdrop | vamo | wfmt | wload | mzero | maccLd | mova | mma | mwait | mstat | vfetch | vpret | farmNext =>
    exact form_issue h
  case nop | br | brl | call | calll | ifpf | prf | pand | por | pxor | pnot | setts | fnc =>
    refine form_guarded h ?_
    exact h
  case dbnz => exact form_execDbnz h
  case bc => exact form_execBc h
  case jcall | jr | ret =>
    refine form_guarded h (form_indirect ?_ h)
    exact h
  case cmp => exact form_guarded h (form_withSources h fun _ _ ht => ht)
  case ld | ldAq | ldx => exact form_guarded h (form_withSources h fun _ _ ht => form_loadTo ht)
  case st | stRl => exact form_guarded h (form_withSources h fun _ _ ht => form_storeFrom ht)
  case pad => exact form_illegal h
  case mscale => exact form_entering h h
  case getsr => exact form_execGetsr h
  case putsr => exact form_execPutsr h
  case amo => exact form_execAmo h
  case barInit => exact form_execBarInit h
  case barArrive => exact form_execBarArrive h
  case barExpect => exact form_execBarExpect h
  case barWait => exact form_execBarWait h
  case barTest => exact form_execBarTest h
  case semTas => exact form_execSemTas h
  case semClr | crSt => exact form_guarded h (form_withComm h fun _ _ ht => ht)
  case crLd => exact form_execCrLd h
  case wait => exact form_execWait h
  case push => exact form_execPush h
  case pop => exact form_execPop h
  case peek => exact form_execPeek h
  case qlen => exact form_guarded h (form_deliver h h)
  case cpwp => exact form_execCpwp h
  case zloop => exact form_execZloop h
  case lnch => exact form_execLnch h
  case ipurge => exact form_execIpurge h
  case setvl => exact form_execSetvl h
  case lprec => exact form_execLprec h
  case lpend => exact form_execLpend h
  case lpjoin => exact form_execLpjoin h
  case treqFixed | treqNeg => exact form_guarded h (form_treqWait h)
  case treqPool => exact form_execTreqPool h
  case trel => exact form_execTrel h
  case doffretFinished | doffretSummarised => exact form_guarded h (form_doffDone h)
  case doffretRefused => exact form_execDoffretRefused h
  case yield => exact form_execYield h
  case trap => exact form_execTrap h
  case tret => exact form_execTret h
  case ecall => exact form_execEcall h
  case halt => exact form_execHalt h
  case sync => exact form_execSync h
  case brk => exact form_execBrk h
  case wmark => exact form_execWmark h
  case tsc => exact form_execTsc h
  case cnt => exact form_execCnt h
  all_goals exact h

end Sys2Proof.Proofs
end

section
/-! PROOFS. The canonical form of memory through one step of a hart (R172, R338, R393, R398, R406, R416). -/

namespace Sys2Proof.Proofs

open Sys2Proof.Machine Sys2Proof.Safety

variable {s t : State} {i : Instr} {n : Nat}

/-! ## Around an instruction -/

theorem form_countDoff {b : Bool} (h : MemoryForm s) (e : s.countDoff = (b, t)) : MemoryForm t := by
  refine form_snd e ?_
  unfold State.countDoff
  split
  · exact h
  split
  · exact h
  · exact h

theorem form_afterInstr {pre post : State} (h : MemoryForm post) : MemoryForm (afterInstr i pre post) := by
  unfold afterInstr
  split
  · exact h
  extract_lets s₁ entered s₂ pass s₃ back
  have h₁ : MemoryForm s₁ := form_noteTrace h
  have h₂ : MemoryForm s₂ := form_ite h₁ h₁
  have h₃ : MemoryForm s₃ := form_ite h₂ h₂
  exact form_ite (form_loopBack h₃) h₃

theorem form_drainedFault {pre post : State} (hs : MemoryForm pre) (ht : MemoryForm post) :
    MemoryForm (drainedFault pre post) := by
  unfold drainedFault
  refine form_ite ht ?_
  split
  · exact form_ite (form_saveContext (form_drainAll hs)) ht
  · exact ht

theorem form_afterOut {pre : State} {o : Out} (h : MemoryForm pre) (ho : OutForm o) : OutForm (afterOut i pre o) := by
  cases o with
  | next post => exact form_afterInstr (form_drainedFault h ho)
  | _ => exact ho

section
variable {run : Instr → State → Out} (hrun : ∀ {i s}, MemoryForm s → OutForm (run i s))
include hrun

theorem form_runInstr (h : MemoryForm s) : OutForm (runInstr run i s) := by
  unfold runInstr
  split
  · exact h
  split
  · exact form_takeTrap h
  extract_lets s₁
  have h₁ : MemoryForm s₁ := form_ite h (form_lateStores h)
  have hr : OutForm (run i s₁) := hrun h₁
  split
  next e =>
    rw [e] at hr
    exact outForm_ite h₁ (form_afterOut h₁ hr)
  · exact hr

theorem form_runWord {w : IWord} (h : MemoryForm s) : OutForm (runWord run w s) := by
  unfold runWord
  split
  · exact form_illegal h
  refine outForm_ite (hrun h) ?_
  unfold beforeInstr
  split
  · exact form_doffViolation (form_countDoff h ‹_›)
  · exact form_runInstr hrun (form_countDoff h ‹_›)

theorem form_fetchAndRun (h : MemoryForm s) : OutForm (fetchAndRun run s) := by
  unfold fetchAndRun
  refine outForm_ite h ?_
  split
  · exact form_ite h (form_takeTrap h)
  · exact form_runWord hrun (form_fetch h ‹_›)

end

/-! ## Boundaries -/

theorem form_next (h : MemoryForm s) (e : runInstr perform i s = .next t) : MemoryForm t := by
  have hr : OutForm (runInstr perform i s) := form_runInstr form_perform h
  rw [e] at hr
  exact hr

theorem optForm_settleTreq (h : MemoryForm s) : OptForm (settleTreq s) := by
  have settled {j : Instr} : OptForm (match runInstr perform j s with
      | .next t => if t.hart.waiting.isNone then some t else none
      | _ => none) := by
    split
    · exact optForm_ite (form_next h ‹_›) trivial
    · trivial
  unfold settleTreq
  split
  · exact optForm_ite settled trivial
  · exact optForm_ite settled trivial
  · trivial

theorem form_granted (h : MemoryForm s) : MemoryForm (Machine.granted s) := form_getD h (optForm_settleTreq h)

theorem optForm_boundary (h : MemoryForm s) : OptForm (boundary s) := by
  unfold boundary
  split
  · exact form_of_some (optForm_settleTreq h) ‹_›
  split
  · exact form_of_some (optForm_takePending h) ‹_›
  split
  · exact form_of_some (optForm_doffEntry h) ‹_›
  · exact optForm_ite (form_ite h (form_saveAtBoundary h)) <|
      optForm_ite (form_ite h (form_saveAtBoundary h)) (optForm_ite (form_debugHalt h) trivial)

theorem form_betweenInstrs {f : State → Option State} (hf : ∀ {s}, MemoryForm s → OptForm (f s)) (h : MemoryForm s) :
    OutForm (betweenInstrs n f s) :=
  form_due h (optForm_ite trivial (optForm_map form_focus (hf (form_granted (form_focus h)))))

theorem form_execPreciseVectorTrap (h : MemoryForm s) : OutForm (execPreciseVectorTrap n s) :=
  form_betweenInstrs optForm_takePending h

theorem form_execDoffEntry (h : MemoryForm s) : OutForm (execDoffEntry n s) := form_betweenInstrs optForm_doffEntry h

theorem form_execForcedSave (h : MemoryForm s) : OutForm (execForcedSave n s) :=
  form_betweenInstrs (fun h => optForm_ite (form_saveAtBoundary h) trivial) h

theorem form_hartStep {run : Instr → State → Out} (hrun : ∀ {i s}, MemoryForm s → OutForm (run i s)) (h : MemoryForm s) :
    OutForm (hartStep run s) := by
  unfold hartStep
  refine outForm_ite trivial (outForm_ite h ?_)
  split
  · exact form_of_some (optForm_boundary h) ‹_›
  split
  · exact form_of_some (optForm_vectorStep h) ‹_›
  split
  · exact form_runInstr hrun h
  · exact form_fetchAndRun hrun h

/-! ## Completion of what waits (R172, R262, R266, R268, R281) -/

theorem optForm_completes {kind : Instr → Bool} (h : MemoryForm s) : OptForm (completes kind n s) := by
  unfold completes
  dsimp only
  split
  · trivial
  refine optForm_ite trivial ?_
  split
  · exact optForm_ite trivial (form_focus (form_next (form_focus h) ‹_›))
  · trivial

theorem form_execQueueWaitEnd (h : MemoryForm s) : OutForm (execQueueWaitEnd n s) := by
  refine form_due h ?_
  split
  · exact form_of_some (optForm_completes h) ‹_›
  · exact optForm_ite trivial (optForm_map form_focus (optForm_vectorStep (form_focus h)))

theorem form_execBarWaitCompletes (h : MemoryForm s) : OutForm (execBarWaitCompletes n s) := form_due h (optForm_completes h)

theorem form_execSemaphoreGrant {bit : Nat} (h : MemoryForm s) : OutForm (execSemaphoreGrant n bit s) := by
  refine form_due h ?_
  split
  · trivial
  · exact optForm_completes h

theorem form_execWaitSatisfied (h : MemoryForm s) : OutForm (execWaitSatisfied n s) := form_due h (optForm_completes h)

theorem form_execPopDataArrives (h : MemoryForm s) : OutForm (execPopDataArrives n s) := form_due h (optForm_completes h)

end Sys2Proof.Proofs
end

section
/-! PROOFS. The canonical form of memory through the Fjoir port (R415 to R417, R427, R428, R430). -/

namespace Sys2Proof.Proofs

open Sys2Proof.Machine Sys2Proof.Safety

variable {s t : State} {n tag : Nat}

/-! ## Command frames (R415) -/

theorem form_fjoir {status : Byte} {words : List Word} (h : MemoryForm s) : MemoryForm (fjoir tag status words s) := h

theorem form_onHalted {ok : Hart → Bool} {f : State → State} (h : MemoryForm s) (hf : MemoryForm (f s)) :
    OutForm (onHalted n tag ok f s) :=
  form_ite (form_fjoir h) (form_ite (form_fjoir h) (form_ite (form_fjoir h) hf))

theorem form_execFjoirUnassignedCode {code : BitVec 8} (h : MemoryForm s) : OutForm (execFjoirUnassignedCode code tag s) :=
  form_due h (optForm_ite trivial (form_fjoir h))

theorem form_execFjoirHalt (h : MemoryForm s) : OutForm (execFjoirHalt n tag s) :=
  form_ite (form_fjoir h) (form_ite (form_fjoir h) (form_ite (form_fjoir h) (form_fjoir (form_modHart h))))

theorem form_resumeHart (h : MemoryForm s) : MemoryForm (resumeHart s) := form_ite (form_endTask h) h

theorem form_execResume (h : MemoryForm s) : OutForm (execResume n tag s) :=
  form_onHalted h (form_fjoir (form_atHart form_resumeHart h))

/-! ## STEP (R417) -/

theorem form_stepEntry {e : VEntry} {es : List VEntry} (h : MemoryForm s) : MemoryForm (stepEntry e es s) := by
  unfold stepEntry
  extract_lets cut r
  have hr : VForm r := vForm_ite trivial (vForm_ite (vForm_runGranules h) (vForm_runEntry (s := s.onH _) h))
  clear_value r
  cases r with
  | done t => exact form_onH (form_notePlace (pre := s) hr)
  | wait => exact h
  | trap tr t k => exact form_onH (form_takeVectorTrap (s := t.onH _) hr)

theorem form_stepUnit (h : MemoryForm s) : MemoryForm (stepUnit s) := by
  have entry {s : State} (h : MemoryForm s) :
      MemoryForm (match s.hart.vcq with | e :: es => stepEntry e es s | [] => s) := by
    split
    · exact form_stepEntry h
    · exact h
  unfold stepUnit
  split
  · exact form_of_some (optForm_takePending h) ‹_›
  extract_lets entered fresh u v
  have hf : MemoryForm fresh := form_getD (form_granted h) (optForm_doffEntry (form_granted h))
  refine form_ite (form_orSame h (form_fetchAndRun form_perform hf)) ?_
  split
  · exact form_onH (form_getD h (optForm_episodeStep h))
  refine form_ite (entry h) ?_
  have hv : MemoryForm v := form_orSame hf (form_fetchAndRun form_perform (form_onH hf))
  exact form_ite (entry hv) hv

theorem form_stepHart (h : MemoryForm s) : MemoryForm (stepHart s) := by
  unfold stepHart
  extract_lets hold u v
  have hu : MemoryForm u := form_stepUnit (form_onH h)
  have hv : MemoryForm v := hu
  exact form_ite hu (form_ite hv (form_onH (form_withdraw hv)))

theorem form_execStep (h : MemoryForm s) : OutForm (execStep n tag s) :=
  form_onHalted h (form_ite h (form_fjoir (form_atHart form_stepHart h)))

/-! ## Registers and memory (R414, R415, R426) -/

theorem form_execRdreg {idx : Nat} (h : MemoryForm s) : OutForm (execRdreg n tag idx s) :=
  form_onHalted h (form_ite (form_ite (form_fjoir h) (form_fjoir h)) (form_ite (form_fjoir h) (form_fjoir h)))

theorem form_execWrreg {idx : Nat} {v : Word} (h : MemoryForm s) : OutForm (execWrreg n tag idx v s) :=
  form_onHalted h (form_ite (form_ite (form_fjoir (form_atHart form_writeSr h)) (form_fjoir h))
    (form_ite (form_fjoir (form_modHart h)) (form_fjoir h)))

variable {pa : Nat} {v : Word}

theorem form_execRdmem (h : MemoryForm s) : OutForm (execRdmem tag pa s) := by
  refine form_due h ?_
  split
  · exact form_fjoir h
  · exact optForm_ite trivial (form_fjoir h)

theorem form_execWrmem (h : MemoryForm s) : OutForm (execWrmem tag pa v s) := by
  refine form_due h ?_
  split
  · exact form_fjoir h
  · exact optForm_ite trivial (form_fjoir (form_externWrite h))

theorem form_execLtlWrite (h : MemoryForm s) : OutForm (execLtlWrite n v s) := form_atHart form_writeHart h

theorem form_execLctlLostClear (h : MemoryForm s) : OutForm (execLctlLostClear n s) := form_modHart h

/-! ## Reverse steps over the lining (R423, R427, R428) -/

theorem form_recode {k : Nat} (h : MemoryForm s) : MemoryForm (s.recode pa k) :=
  form_of_mem (State.recode_mem pa k s) h

theorem optForm_undo {cache : Option Cache} {pid : Byte} {mine : BitVec 28 → Bool} {r : Logged} (h : MemoryForm s) :
    OptForm (undo cache pid mine r s) := by
  unfold undo
  split
  · trivial
  · exact optForm_ite (form_recode (form_putBytes (form_patchHome h))) trivial

theorem form_undoSlots {is : List Word} {k : Nat} (h : MemoryForm s) : MemoryForm (undoSlots is k s).2.2 := by
  induction is generalizing k s with
  | nil => exact h
  | cons i is ih =>
    unfold undoSlots
    dsimp only
    split
    · exact ih h
    split
    · exact h
    · exact ih (form_onH (form_of_some (optForm_undo h) ‹_›))

theorem form_restoreSnapshot {k : Word} {w : BitVec 32} (h : MemoryForm s) : MemoryForm (restoreSnapshot k w s) := h

theorem form_reverseStep {w : BitVec 32} (h : MemoryForm s) : MemoryForm (reverseStep w s).2.2 := by
  unfold reverseStep
  dsimp only
  split
  · exact h
  split
  · exact h
  split
  · exact h
  have hu {is : List Word} {r : Option Word × Nat × State} (e : undoSlots is 0 s = r) : MemoryForm r.2.2 := e ▸ form_undoSlots h
  split
  next e => exact hu e
  next e => exact form_onH (hu e)
  next e => exact form_restoreSnapshot (hu e)

theorem form_execRstep {w : BitVec 32} (h : MemoryForm s) : OutForm (execRstep n tag w s) :=
  form_onHalted h (form_ite h (form_fjoir (form_focus (form_reverseStep (form_focus h)))))

/-! ## The counter time series (R430) -/

theorem form_execCounterLatch (h : MemoryForm s) : OutForm (execCounterLatch s) := by
  refine form_due h (optForm_ite trivial ?_)
  exact optForm_some (form_modPkg (form_foldl (fun _ => form_fillDev) h))

end Sys2Proof.Proofs
end

section
/-! PROOFS. The canonical form of memory through errors, recovery and resets (R432 to R448, R474), and through power, cooling and
the cold reset (R456 to R465). -/

namespace Sys2Proof.Proofs

open Sys2Proof.Machine Sys2Proof.Safety

variable {s t : State} {n q : Nat} {l : Launch} {r : Reset}

/-! ## Recovery of a stopped launch (R447, R448) -/

theorem form_rollbackAll {pid : Byte} {cid : BitVec 12} {us : List Undo} {ok : Bool} (h : MemoryForm s) :
    MemoryForm (rollbackAll pid cid us (ok, s)).2 := by
  induction us generalizing ok s with
  | nil => exact h
  | cons u us ih =>
    unfold rollbackAll
    split
    · exact ih (form_of_some (optForm_undo h) ‹_›)
    · exact ih h

theorem form_rollback (h : MemoryForm s) : MemoryForm (rollback l s).2 := form_rollbackAll h

theorem form_poisonFrames {fs : List Nat} (h : MemoryForm s) : MemoryForm (poisonFrames fs s) := h

theorem form_markEnd {status : Byte} (h : MemoryForm s) : MemoryForm (markEnd l status s) :=
  form_modLaunch (form_ite (form_poisonFrames h) h)

theorem form_recoverLaunch {k : Word} (h : MemoryForm s) : MemoryForm (recoverLaunch k s) := by
  unfold recoverLaunch
  split
  · exact h
  · exact form_ite (form_markEnd h) (form_ite (form_markEnd h) (form_markEnd (form_rollback h)))

theorem form_stopAndRecover {k : Word} (h : MemoryForm s) : MemoryForm (stopAndRecover k s) := by
  unfold stopAndRecover
  split
  · exact h
  · exact form_ite h (form_recoverLaunch (form_stopLaunch h))

/-! ## Uncorrectable errors (R432, R435) -/

theorem form_countUe (h : MemoryForm s) : MemoryForm (countUe s) := h

theorem form_countCe (h : MemoryForm s) : MemoryForm (countCe n s) := h

theorem form_errorEntry {code : Byte} {one : Option Launch} {pid : Option Byte} (h : MemoryForm s) :
    MemoryForm (errorEntry code one pid n s) := form_journal h

theorem form_poisonAs {code : Byte} (h : MemoryForm s) : MemoryForm (poisonAs code n s) := by
  unfold poisonAs
  extract_lets s₁
  have h₁ : MemoryForm s₁ := form_ite (form_packageFault (form_countUe h)) (form_errorEntry (form_countUe h))
  exact form_foldl (fun _ => form_setPoison) h₁

theorem form_poisonLine (h : MemoryForm s) : MemoryForm (poisonLine n s) := form_poisonAs h

theorem form_stopOwners {code : Byte} {one : Option Launch} {pid : Option Byte} {ls : List Launch} (h : MemoryForm s) :
    MemoryForm (stopOwners code one pid ls s) :=
  form_foldl (fun _ => form_stopAndRecover) (form_errorEntry (form_countUe h))

theorem form_strikeOwners {code : Byte} {one : Option Launch} {pid : Option Byte} {ls : List Launch} (h : MemoryForm s) :
    OutForm (strikeOwners code one pid ls s) := form_due h (optForm_ite trivial (form_stopOwners h))

/-! ## Scrubbing and sparing (R434, R437 to R439) -/

theorem form_spareRow (h : MemoryForm s) : MemoryForm (spareRow n s) := form_ite h (form_journal (form_modPkg h))

theorem form_scrubPeriod (h : MemoryForm s) : MemoryForm (scrubPeriod s) := form_ite h h

theorem form_countRow {row : Nat} (h : MemoryForm s) : MemoryForm (countRow n row s).2 :=
  form_modPkg (form_scrubPeriod (form_countCe h))

theorem optForm_corrected {pa : Option Nat} (h : MemoryForm s) : OptForm (corrected pa s) := by
  unfold corrected
  split
  · exact form_countCe h
  · exact optForm_ite trivial (optForm_some (form_ite (form_spareRow (form_countRow h)) (form_countRow h)))

theorem form_execScrubRow {bank row : Nat} {lines bad corrected : List Nat} (h : MemoryForm s) :
    OutForm (execScrubRow bank row lines bad corrected s) := by
  refine form_due h (optForm_ite trivial ?_)
  extract_lets u v w
  have hu : MemoryForm u := form_foldl (fun _ => form_poisonLine) h
  have hv : MemoryForm v := hu
  have hw : MemoryForm w.2 := form_countRow hv
  exact optForm_some (form_ite (form_spareRow hw) hw)

theorem form_execSparesExhausted (h : MemoryForm s) : OutForm (execSparesExhausted n s) :=
  form_due h (optForm_ite trivial (form_journal (form_modPkg (form_scrubPeriod h))))

/-! ## Where uncorrectable errors lie (R435) -/

theorem form_clean (h : MemoryForm s) : MemoryForm (s.clean n) := h

theorem form_execUncorrectableStateError {loc : StateLoc} (h : MemoryForm s) : OutForm (execUncorrectableStateError loc s) := by
  cases loc with
  | hart => exact form_strikeOwners h
  | barrier => exact form_strikeOwners h
  | comm => exact outForm_ite (form_strikeOwners h) (form_strikeOwners h)
  | accumulator core slot row col =>
    have he : MemoryForm (errorEntry 7 none none 0 (countUe s)) := form_errorEntry (form_countUe h)
    exact form_of_mem (s := errorEntry 7 none none 0 (countUe s)) rfl he
  | owner frame =>
    have he : MemoryForm (errorEntry 6 none none (frame * 65536) (countUe s)) := form_errorEntry (form_countUe h)
    exact form_of_mem (s := errorEntry 6 none none (frame * 65536) (countUe s)) rfl he
  | dram => exact form_due h (optForm_ite (form_spareRow (form_poisonLine h)) trivial)
  | stashLine => exact form_due h (optForm_ite (form_poisonAs (form_clean h)) trivial)
  | cacheLine => exact form_due h (optForm_ite (form_poisonAs h) trivial)
  | cleanLine => exact form_dropWords (form_countUe h)
  | translation => exact form_due h (optForm_ite h trivial)
  | queueProcessor => exact form_packageFault (form_countUe h)
  | journalLine => exact form_packageFault (form_countUe h)

/-! ## The queue watchdog (R444 to R446) -/

theorem form_clearPartition {p : Byte} (h : MemoryForm s) : MemoryForm (clearPartition p s) := by
  unfold clearPartition
  exact form_of_mem (s := s) rfl h

theorem form_expire (h : MemoryForm s) : MemoryForm (expire q s) := by
  unfold expire
  extract_lets p head mine oldest removed halted s₁ s₂ s₃ s₄
  have h₁ : MemoryForm s₁ := by
    clear_value oldest
    cases oldest with
    | none => exact form_journal h
    | some l => exact form_journal h
  have h₂ : MemoryForm s₂ := form_foldl (fun _ => form_modLaunch) h₁
  have h₃ : MemoryForm s₃ := form_modPkg h₂
  have h₄ : MemoryForm s₄ := form_foldl (fun _ => form_modQueue) h₃
  exact form_modQueue h₄

theorem form_stopPartition (h : MemoryForm s) : MemoryForm (stopPartition q r s) :=
  form_modQueue (form_foldl (fun _ => form_stopLaunchWith) h)

theorem form_recoverStopped (h : MemoryForm s) : MemoryForm (recoverStopped q r s) :=
  form_modQueue (form_foldl (fun _ => form_recoverLaunch) h)

theorem form_clearStopped (h : MemoryForm s) : MemoryForm (clearStopped q r s) := by
  unfold clearStopped
  extract_lets s₁ mine s₂ s₃
  have h₁ : MemoryForm s₁ := form_clearPartition h
  have h₂ : MemoryForm s₂ := h₁
  exact form_modQueue (form_foldl (fun _ => form_freeLaunch) h₂ : MemoryForm s₃)

theorem optForm_endStopped (h : MemoryForm s) : OptForm (endStopped q r s) := by
  unfold endStopped
  split
  · dsimp only
    split
    · exact form_modQueue h
    · exact optForm_ite trivial (form_modQueue (form_forgetLaunch (form_announceEnd h)))
  refine optForm_ite trivial ?_
  extract_lets k s₁ b s₂ s₃
  have h₁ : MemoryForm s₁ := form_journal h
  have h₂ : MemoryForm s₂ := form_writeDev h₁
  have h₃ : MemoryForm s₃ := form_writeDev h₂
  exact optForm_some (form_modQueue h₃)

theorem optForm_resetStep (h : MemoryForm s) : OptForm (resetStep q s) := by
  unfold resetStep
  split
  · trivial
  split
  · exact form_stopPartition h
  · exact optForm_ite trivial (form_recoverStopped h)
  · exact form_clearStopped h
  · exact optForm_endStopped h

theorem form_execWatchdogExpiry (h : MemoryForm s) : OutForm (execWatchdogExpiry q s) :=
  form_due h (optForm_ite (form_expire h) trivial)

theorem form_execCoreRailLoss (h : MemoryForm s) : OutForm (execCoreRailLoss s) := form_packageFault h

/-! ## Power and cooling (R456 to R464) -/

variable {z : Nat}

theorem form_everyCompute {f : Zone → Zone} (h : MemoryForm s) : MemoryForm (everyCompute f s) :=
  form_foldl (fun _ => form_modZone) h

theorem form_execPowerCapStep {watts : BitVec 16} (h : MemoryForm s) : OutForm (execPowerCapStep watts s) :=
  form_ite (form_everyCompute (form_modPkg h)) (form_modPkg h)

theorem form_execRailOvercurrent (h : MemoryForm s) : OutForm (execRailOvercurrent s) := form_everyCompute h

theorem form_execThrottleDown (h : MemoryForm s) : OutForm (execThrottleDown z s) :=
  form_due h (optForm_ite (form_modZone h) trivial)

theorem form_execThrottleUp (h : MemoryForm s) : OutForm (execThrottleUp z s) :=
  form_due h (optForm_ite (form_modZone h) trivial)

theorem form_execZminWrite {v : BitVec 5} (h : MemoryForm s) : OutForm (execZminWrite z v s) := form_modZone h

theorem form_execCtrapClear {v : BitVec 4} (h : MemoryForm s) : OutForm (execCtrapClear v s) := h

theorem form_execValveRegulation {valve : BitVec 8} {flow : BitVec 10} (h : MemoryForm s) :
    OutForm (execValveRegulation z valve flow s) := form_due h (optForm_ite (form_modZone h) trivial)

theorem form_sensorTrap {bit : Nat} (h : MemoryForm s) : MemoryForm (sensorTrap bit z s) := h

theorem form_execOverTemperature {temp : BitVec 12} (h : MemoryForm s) : OutForm (execOverTemperature z temp s) := by
  refine form_due h (optForm_ite trivial ?_)
  extract_lets s₁ hot s₂
  have h₁ : MemoryForm s₁ := form_modZone h
  have h₂ : MemoryForm s₂ := form_ite (form_modZone (form_sensorTrap h₁)) h₁
  exact optForm_some (form_ite (form_packageFault h₂) h₂)

theorem optForm_sense {volt : BitVec 12} {proc : Byte} {cond : BitVec 2} (h : MemoryForm s) :
    OptForm (sense z volt proc cond s) := optForm_ite trivial (form_modZone h)

theorem form_execLowFlow {flow : BitVec 10} (h : MemoryForm s) : OutForm (execLowFlow z flow s) := by
  refine form_due h (optForm_ite trivial ?_)
  exact optForm_some (form_ite (form_modZone h) (form_modZone (form_sensorTrap (form_modZone h))))

theorem form_execLowFlowRecovery {flow : BitVec 10} (h : MemoryForm s) : OutForm (execLowFlowRecovery z flow s) :=
  form_due h (optForm_ite trivial (form_modZone h))

theorem form_execPressureLoss {kpa : BitVec 16} (h : MemoryForm s) : OutForm (execPressureLoss z kpa s) :=
  form_due h (optForm_ite trivial (form_packageFault (form_sensorTrap h)))

theorem form_execDryChannel (h : MemoryForm s) : OutForm (execDryChannel z s) :=
  form_due h (optForm_ite trivial (optForm_ite h (form_modZone (form_sensorTrap h))))

theorem form_execEvacValveClose (h : MemoryForm s) : OutForm (execEvacValveClose z s) :=
  form_due h (optForm_ite (form_modZone h) trivial)

theorem form_execEvacPurge (h : MemoryForm s) : OutForm (execEvacPurge z s) :=
  form_due h (optForm_ite (form_modZone h) trivial)

theorem form_execEvacRefill (h : MemoryForm s) : OutForm (execEvacRefill z s) :=
  form_due h (optForm_ite (form_modZone h) trivial)

theorem form_openValves (h : MemoryForm s) : MemoryForm (openValves s) := form_foldl (fun _ => form_modZone) h

theorem form_execEvacCheck {wet : Bool} (h : MemoryForm s) : OutForm (execEvacCheck z wet s) := by
  refine form_due h (optForm_ite trivial (optForm_ite (form_modZone h) ?_))
  extract_lets s₁
  have h₁ : MemoryForm s₁ := form_modZone h
  exact optForm_ite (form_packageFault (form_openValves h₁)) (form_modZone h₁)

/-! ## Cold reset and firmware (R465) -/

theorem form_reset : MemoryForm State.reset := memoryFormAtReset

theorem form_execColdReset : OutForm (execColdReset s) := by
  unfold execColdReset
  extract_lets r₀ r₁ r₂ wet r₃ r₄
  have h₁ : MemoryForm r₁ := form_of_mem (s := State.reset) rfl form_reset
  have h₂ : MemoryForm r₂ := form_foldl (fun _ => form_modZone) h₁
  have h₃ : MemoryForm r₃ := form_ite (form_openValves h₂) h₂
  have h₄ : MemoryForm r₄ := form_modPkg h₃
  exact (form_ite (form_enableJournal h₄) h₄ : MemoryForm (if s.pkg.firmOk && wet then r₄.enableJournal else r₄))

theorem form_execFirmwareUpdate {image : List (BitVec 8)} {complete : Bool} (h : MemoryForm s) :
    OutForm (execFirmwareUpdate image complete s) := h

end Sys2Proof.Proofs
end

section
/-! PROOFS. The canonical form of memory through every step of the machine (R185, R380; log 3). -/

namespace Sys2Proof.Proofs

open Sys2Proof.Machine Sys2Proof.Safety

variable {s t : State} {i : Instr} {n : Nat}

/-- What `exec` gives an instruction of a word is what `perform` gives it; every other arm is an event's. -/
theorem form_exec (h : MemoryForm s) : OutForm (exec i s) := by
  have hw : OutForm (perform i s) := form_perform h
  cases i
  all_goals dsimp only [exec]
  case preciseVectorTrap => exact form_execPreciseVectorTrap h
  case queueWaitEnd => exact form_execQueueWaitEnd h
  case loadStreamFetch => exact form_execLoadStreamFetch h
  case storeStreamWrite => exact form_execStoreStreamWrite h
  case barWaitCompletes => exact form_execBarWaitCompletes h
  case semaphoreGrant => exact form_execSemaphoreGrant h
  case waitSatisfied => exact form_execWaitSatisfied h
  case popDataArrives => exact form_execPopDataArrives h
  case copy => exact form_execCopy h
  case copyDecrement => exact form_execCopyDecrement h
  case gather => exact form_execGather h
  case scatter => exact form_execScatter h
  case reduction => exact form_execReduction h
  case attention => exact form_execAttention h
  case allReduce => exact form_execAllReduce h
  case collectiveTimeout => exact form_execCollectiveTimeout h
  case resultAppend => exact form_execResultAppend h
  case atlrGo => exact form_execAtlrGo h
  case eportWrite => exact form_execEportWrite h
  case replayIteration => exact form_execReplayIteration h
  case doffEntry => exact form_execDoffEntry h
  case refusalDelayEnd => exact form_execRefusalDelayEnd h
  case yieldRequest => exact form_execYieldRequest h
  case quantumExpiry => exact form_execQuantumExpiry h
  case forcedSave => exact form_execForcedSave h
  case contextRestore => exact form_execContextRestore h
  case hostLinkAccess => exact form_execHostLinkAccess h
  case peerAccess => exact form_execPeerAccess h
  case queueSchedule => exact form_execQueueSchedule h
  case packetNop => exact form_execPacketNop h
  case packetLaunch => exact form_execPacketLaunch h
  case packetFence => exact form_execPacketFence h
  case packetSignal => exact form_execPacketSignal h
  case packetEdge => exact form_execPacketEdge h
  case packetModuleLoad => exact form_execPacketModuleLoad h
  case packetModuleUnload => exact form_execPacketModuleUnload h
  case cidAssign => exact form_execCidAssign h
  case leasingDone => exact form_execLeasingDone h
  case hartPlacement => exact form_execHartPlacement h
  case launchEnd => exact form_execLaunchEnd h
  case shootdown => exact form_execShootdown h
  case shootdownComplete => exact form_execShootdownComplete h
  case fownWrite => exact form_execFownWrite h
  case fownRead => exact form_execFownRead h
  case migrationStart => exact form_execMigrationStart h
  case migrationLineCopy => exact form_execMigrationLineCopy h
  case peerLinkUp => exact form_execPeerLinkUp h
  case peerLoss => exact form_execPeerLoss h
  case partitionGroupWrite => exact form_execPartitionGroupWrite h
  case phartWrite => exact form_execPhartWrite h
  case crownWrite => exact form_execCrownWrite h
  case step => exact form_execStep h
  case fjoirHalt => exact form_execFjoirHalt h
  case resume => exact form_execResume h
  case rstep => exact form_execRstep h
  case rdreg => exact form_execRdreg h
  case wrreg => exact form_execWrreg h
  case rdmem => exact form_execRdmem h
  case wrmem => exact form_execWrmem h
  case ltlWrite => exact form_execLtlWrite h
  case lctlLostClear => exact form_execLctlLostClear h
  case counterLatch => exact form_execCounterLatch h
  case uncorrectableStateError => exact form_execUncorrectableStateError h
  case rpoisGo => exact form_execRpoisGo h
  case scrubRow => exact form_execScrubRow h
  case sparesExhausted => exact form_execSparesExhausted h
  case watchdogExpiry => exact form_execWatchdogExpiry h
  case coreRailLoss => exact form_execCoreRailLoss h
  case powerCapStep => exact form_execPowerCapStep h
  case railOvercurrent => exact form_execRailOvercurrent h
  case throttleDown => exact form_execThrottleDown h
  case throttleUp => exact form_execThrottleUp h
  case sgateWrite => exact form_execSgateWrite h
  case bankWake => exact form_execBankWake h
  case wgateWrite => exact form_execWgateWrite h
  case zminWrite => exact form_execZminWrite h
  case ctrapClear => exact form_execCtrapClear h
  case overTemperature => exact form_execOverTemperature h
  case lowFlow => exact form_execLowFlow h
  case dryChannel => exact form_execDryChannel h
  case pressureLoss => exact form_execPressureLoss h
  case evacValveClose => exact form_execEvacValveClose h
  case evacPurge => exact form_execEvacPurge h
  case evacRefill => exact form_execEvacRefill h
  case evacCheck => exact form_execEvacCheck h
  case coldReset => exact form_execColdReset
  case firmwareUpdate => exact form_execFirmwareUpdate h
  case illegalInstruction => exact form_illegal h
  case fjoirUnassignedCode => exact form_execFjoirUnassignedCode h
  case packetFenceSatisfied => exact form_execPacketFenceSatisfied h
  case packetEdgeTaken => exact form_execPacketEdgeTaken h
  case collectivePacket => exact form_execCollectivePacket h
  case refusalWindowExpiry => exact form_execRefusalWindowExpiry h
  case lowFlowRecovery => exact form_execLowFlowRecovery h
  case valveRegulation => exact form_execValveRegulation h
  all_goals exact hw

/-! ## Time (R3, R372, R405, R421, R422, R444) -/

theorem form_modPart {p : Byte} {f : Part → Part} (h : MemoryForm s) : MemoryForm (s.modPart p f) := h

theorem form_elapse {ticks cycles : Nat} (h : MemoryForm s) : MemoryForm (Machine.elapse ticks cycles s) := by
  unfold Machine.elapse
  extract_lets pids qs s₁ s₂ s₃
  have h₁ : MemoryForm s₁ := form_modPkg h
  have h₂ : MemoryForm s₂ := form_foldl (fun _ => form_modPart) h₁
  have h₃ : MemoryForm s₃ := form_of_mem (s := s₂) rfl h₂
  exact form_foldl (fun _ => form_modQueue) h₃

/-! ## A peer lost behind accesses in flight (R391) -/

/-- Memory in canonical form, with the cells of one range of addresses taken from another memory in canonical form. -/
theorem wf_splice {m m' : List Host.Cell} {lo : Nat} (hm : Memory.wf m = true) (hm' : Memory.wf m' = true) (n : Nat) :
    Memory.wf (m.filter (fun c => c.1 < lo) ++ m'.filter (fun c => lo ≤ c.1 && c.1 < lo + n) ++ m.filter (fun c => lo + n ≤ c.1))
      = true := by
  unfold Memory.wf at *
  rw [twf_iff] at *
  refine ⟨?_, ?_⟩
  · rw [List.pairwise_append, List.pairwise_append]
    refine ⟨⟨hm.1.filter _, hm'.1.filter _, ?_⟩, hm.1.filter _, ?_⟩
    · intro p hp q hq
      simp only [List.mem_filter, decide_eq_true_eq, Bool.and_eq_true] at hp hq
      omega
    · intro p hp q hq
      simp only [List.mem_append, List.mem_filter, decide_eq_true_eq, Bool.and_eq_true] at hp hq
      omega
  · intro p hp
    simp only [List.mem_append, List.mem_filter] at hp
    obtain (⟨hp, -⟩ | ⟨hp, -⟩) | ⟨hp, -⟩ := hp
    · exact hm.2 p hp
    · exact hm'.2 p hp
    · exact hm.2 p hp

/-- A vector access run on some of its elements leaves memory in canonical form. -/
theorem vForm_accessAt {es : Nat → Bool} {r : VRes} {f : Hart → Hart} (h : MemoryForm s)
    (e : accessAt es s = some (r, f)) : VForm r := by
  unfold accessAt at e
  split at e
  · cases e
  split at e
  · split at e
    · cases e
    split at e
    · cases e
    dsimp only at e
    split at e
    · cases e
    split at e
    · obtain rfl := congrArg Prod.fst (Option.some.inj e)
      exact vForm_runEntry h
    · cases e
  · split at e
    · obtain rfl := congrArg Prod.fst (Option.some.inj e)
      exact vForm_runEntry (s := s.onH _) h
    · cases e
  · cases e

theorem form_answered {b : Nat} (h : MemoryForm s) : MemoryForm (answered b s) := by
  unfold answered
  split
  · exact h
  split
  next e => exact form_onH (vForm_accessAt h e)
  · exact h

section
variable {run : Instr → State → Out} (hrun : ∀ {i s}, MemoryForm s → OutForm (run i s))
include hrun

theorem wf_arrivals {es : List Nat} (h : MemoryForm s) : Memory.wf (arrivals run es s) = true := by
  unfold arrivals
  split
  · exact h
  split
  next e => exact vForm_accessAt h e
  next e => exact vForm_accessAt h e
  · exact h
  · exact form_orSame h (form_hartStep hrun h)

theorem form_meetLoss {peer b : Nat} {es : List Nat} (h : MemoryForm s) : MemoryForm (meetLoss run peer b es s) := by
  unfold meetLoss
  extract_lets up lo sent pkg down met
  have hu : MemoryForm up := form_answered h
  have hd : MemoryForm down := wf_splice hu (wf_arrivals hrun hu) (2 ^ 40)
  have hm : MemoryForm met := by
    unfold met
    split
    · exact form_onH hd
    · exact form_orSame hd (form_hartStep hrun hd)
  exact form_modPkg hm

theorem form_lossInFlight {peer : Nat} {harts : List (Nat × Nat × List Nat)} (h : MemoryForm s) :
    OutForm (lossInFlight run peer harts s) := by
  exact outForm_ite h (form_execPeerLoss (form_foldl (fun _ => form_atHart (form_meetLoss hrun)) h))

/-! ## Turns -/

theorem form_takeTurn {u : Turn} (h : MemoryForm s) : OutForm (takeTurn run u s) := by
  unfold takeTurn
  refine outForm_ite trivial ?_
  cases u with
  | event i => exact outForm_ite (hrun h) h
  | hart n => exact outForm_ite h (form_hartStep hrun (form_focus h))
  | elapse => exact form_due h (optForm_ite (form_elapse h) trivial)
  | count => exact form_due h (optForm_ite (form_modHart h) trivial)
  | hold => exact form_due h (optForm_ite (form_modHart h) trivial)
  | writeBack => exact form_due h (optForm_ite trivial (form_clean h))
  | drainFor => exact form_due h (optForm_ite (form_modHart h) trivial)
  | lag => exact form_due h (optForm_ite (form_atHart (fun h => form_onH (form_ite h (form_lateStores h))) h) trivial)
  | lateStore => exact form_due h (optForm_ite (form_atHart form_lateStore h) trivial)
  | engine => exact form_due h (optForm_takeCommands h)
  | cacheWord => exact form_due h (optForm_ite (form_fillWord h) trivial)
  | dropWord => exact form_dropWords h
  | lossInFlight => exact form_lossInFlight hrun h
  | corrected => exact form_due h (optForm_corrected h)
  | sense => exact form_due h (optForm_sense h)
  | flowQueue => exact form_due h (optForm_flowQueue h)
  | resetStep => exact form_due h (optForm_resetStep h)
  | fjoirImage => exact form_iff.2 h

theorem form_nextStep (h : MemoryForm s) : OutForm (nextStep run s) := by
  unfold nextStep
  split
  · exact form_takeTurn hrun (form_of_mem (s := s) rfl h)
  · exact outForm_ite trivial (form_hartStep hrun h)

end

/-- Settles O25: every function of the step writes memory only through `putBytes`, its fills and its copies, each of which
keeps the canonical form. -/
theorem memoryFormKept : Obligations.MemoryFormKept := by
  intro s t h e
  have hs : OutForm (step s) := form_nextStep form_exec h
  rw [e] at hs
  exact hs

end Sys2Proof.Proofs
end

section
/-! PROOFS. Stash maps, write-back and dropping of lines (R191, R195, R213, R214). -/

namespace Sys2Proof.Proofs

open Sys2Proof.Machine Sys2Proof.Safety

variable {s : State} {c : Ctl} {a : BitVec 6} {b : Operand} {v : Env} {d : Dirty}

/-! ## The lines of a range -/

/-- A line overlaps a range where one of its bytes is one of the range's, addresses wrapping at 2^64. -/
theorem lineIn_iff {x : Word} {n line : Nat} : lineIn x n line = true ↔ overlaps x n line := by
  have heq (k j : Nat) : x + BitVec.ofNat 64 k = BitVec.ofNat 64 (128 * line + j) ↔
      (x.toNat + k) % 2 ^ 64 = (128 * line + j) % 2 ^ 64 := by
    rw [← BitVec.toNat_inj]
    simp
  have hx := x.isLt
  simp only [lineIn, overlaps, heq, Bool.and_eq_true, decide_eq_true_eq, ne_eq]
  constructor
  · rintro ⟨hn, h⟩
    by_cases hk : (line * 128 + 127 + (2 ^ 64 - x.toNat)) % 2 ^ 64 < n
    · exact ⟨_, hk, 127, by omega, by omega⟩
    · exact ⟨n - 1, by omega, 127 - ((line * 128 + 127 + (2 ^ 64 - x.toNat)) % 2 ^ 64 - (n - 1)), by omega, by omega⟩
  · rintro ⟨k, hk, j, hj, h⟩
    exact ⟨by omega, by omega⟩

/-- The line is dirty for the context on the executing core and overlaps the range. -/
def Hit (s : State) (x : Word) (n : Nat) (d : Dirty) : Prop := d.core = s.coreNo ∧ d.cid = s.hart.cid ∧ overlaps x n d.vline

theorem hit_iff {x : Word} {n : Nat} :
    (decide (d.core = s.coreNo) && decide (d.cid = s.hart.cid) && lineIn x n d.vline) = true ↔ Hit s x n d := by
  simp only [Hit, Bool.and_eq_true, decide_eq_true_eq, lineIn_iff, and_assoc]

/-! ## stmap (R213) -/

/-- stmap completes with a slot set and lines written back: nothing else changes. -/
theorem stmap_maps {slot : BitVec 5} {soff : BitVec 7} (hi : Issues c s) (x : StashSlot) {old : StashSlot}
    (h : runStmap slot soff a b (s.envOf (.stmap c slot soff a b)) s.issued = .done ((cleanSlot old s.issued).onH fun h =>
      { h with stmap := tset StashSlot.reset h.stmap (32 * s.coreNo + slot.toNat) x })) :
    ∃ t, exec (.stmap c slot soff a b) s = .next t ∧ t.mem = s.mem ∧
      t = { s.issued with
        hart := { s.issued.hart with stmap := tset StashSlot.reset s.hart.stmap (32 * s.coreNo + slot.toNat) x }
        dirty := t.dirty } :=
  ⟨_, issueV_done hi h, rfl, rfl⟩

/-- The slots that a mapping may not overlap are those of the state at issue. -/
theorem rivalSlots_issued (s : State) (core k : Nat) : rivalSlots s.issued core k = rivalSlots s core k := by
  have hlive : (fun n => if n ≠ s.cur && (s.issued.hartAt n).run ≠ .empty && (s.issued.hartAt n).cid = s.hart.cid
        then (s.issued.hartAt n).stmap.filter fun e => e.1 / 32 == core else []) =
      fun n => if n ≠ s.cur && (s.hartAt n).run ≠ .empty && (s.hartAt n).cid = s.hart.cid
        then (s.hartAt n).stmap.filter fun e => e.1 / 32 == core else [] := by
    funext n
    by_cases hn : n = s.cur
    · simp [hn]
    · have : s.issued.hartAt n = s.hartAt n := by
        unfold State.hartAt
        rw [if_neg hn, if_neg (show n ≠ s.issued.cur from hn)]
        rfl
      rw [this]
  unfold rivalSlots
  exact congrArg (fun f => (((s.hart.stmap.filter fun e => e.1 / 32 == core && e.1 != 32 * core + k) ++ s.slots.flatMap f ++
    s.saved.flatMap fun c => if c.hart.cid = s.hart.cid then c.hart.stmap.filter fun e => e.1 / 32 == core else []).map (·.2))) hlive

theorem runStmap_empty {slot : BitVec 5} {soff : BitVec 7} (h : (v.operand b).toNat = 0) :
    runStmap slot soff a b v s = .done ((cleanSlot (tget StashSlot.reset s.hart.stmap (32 * s.coreNo + slot.toNat)) s).onH
      fun h => { h with stmap := tset StashSlot.reset h.stmap (32 * s.coreNo + slot.toNat) StashSlot.reset }) := by
  unfold runStmap
  rw [h]
  rfl

/-- An aligned power of two of memory that overlaps no other slot maps. -/
theorem runStmap_maps {slot : BitVec 5} {soff : BitVec 7} {n : Nat} (h12 : 12 ≤ n) (h19 : n ≤ 19)
    (hz : (v.operand b).toNat = 2 ^ n) (hc : canonical (v.rs a.toNat) = true) (hb : (v.rs a.toNat).toNat % 2 ^ n = 0)
    (ho : soff.toNat * 4096 % 2 ^ n = 0) (he : soff.toNat * 4096 + 2 ^ n ≤ 524288)
    (hr : ∀ x ∈ rivalSlots s s.coreNo slot.toNat, x = ⟨v.rs a.toNat, 2 ^ n, soff.toNat * 4096⟩ ∨
      soff.toNat * 4096 + 2 ^ n ≤ x.soff ∨ x.soff + x.size ≤ soff.toNat * 4096) :
    runStmap slot soff a b v s = .done ((cleanSlot (tget StashSlot.reset s.hart.stmap (32 * s.coreNo + slot.toNat)) s).onH
      fun h => { h with
        stmap := tset StashSlot.reset h.stmap (32 * s.coreNo + slot.toNat) ⟨v.rs a.toNat, 2 ^ n, soff.toNat * 4096⟩ }) := by
  have hlo : 4096 ≤ 2 ^ n := Nat.pow_le_pow_right (by decide : 0 < 2) h12
  have hhi : 2 ^ n ≤ 524288 := Nat.pow_le_pow_right (by decide : 0 < 2) h19
  have hfree : ((rivalSlots s s.coreNo slot.toNat).any fun x => decide (x ≠ ⟨v.rs a.toNat, 2 ^ n, soff.toNat * 4096⟩) &&
      decide (x.soff < soff.toNat * 4096 + 2 ^ n) && decide (soff.toNat * 4096 < x.soff + x.size)) = false := by
    rw [List.any_eq_false]
    intro x hx
    simp only [Bool.and_eq_true, decide_eq_true_eq, not_and, not_lt]
    rintro ⟨hne, hlt⟩
    obtain h | h | h := hr x hx
    · exact absurd h hne
    · omega
    · omega
  unfold runStmap
  dsimp only
  rw [hz, if_neg (by omega), if_neg (by simp [Nat.log2_two_pow]; omega), if_neg (by simp [hc, hb]), if_neg (by simp [ho]; omega),
    hfree]
  rfl

/-! ## stwb and stdrop (R214) -/

theorem stwb_writes (hi : Issues c s) : ∃ t, exec (.stwb c a b) s = .next t ∧ t = { s.issued with dirty := t.dirty } ∧
    ∀ d, d ∈ t.dirty ↔ d ∈ s.dirty ∧ ¬ Hit s (s.hart.rs a.toNat) (operandOf s.hart b).toNat d := by
  refine ⟨_, issueV_done (run := runStwb a b) hi rfl, rfl, fun d => ?_⟩
  show d ∈ s.dirty.filter _ ↔ _
  rw [List.mem_filter, Bool.not_eq_true', ← Bool.not_eq_true]
  exact and_congr_right fun _ => not_congr (by rw [operand_envOf]; exact hit_iff)

theorem insertLine_perm (d : Dirty) (l : List Dirty) : (insertLine d l).Perm (d :: l) := by
  induction l with
  | nil => exact .refl _
  | cons e l ih =>
    unfold insertLine
    split
    · exact .refl _
    · exact (ih.cons e).trans (.swap d e l)

/-- The dropped lines are those of the range, in some order. -/
theorem droppedLines_perm (s : State) (x : Word) (n : Nat) : (droppedLines s x n).Perm (s.dirty.filter fun d =>
    decide (d.core = s.coreNo) && decide (d.cid = s.hart.cid) && lineIn x n d.vline) := by
  unfold droppedLines
  generalize s.dirty.filter _ = l
  induction l with
  | nil => exact .refl _
  | cons d l ih => exact (insertLine_perm d _).trans (ih.cons d)

theorem mem_droppedLines {x : Word} {n : Nat} : d ∈ droppedLines s x n ↔ d ∈ s.dirty ∧ Hit s x n d := by
  rw [(droppedLines_perm s x n).mem_iff, List.mem_filter, hit_iff]

theorem putBytes_frame (pa : Nat) (bs : List Byte) (s : State) :
    s.putBytes pa bs = { s with mem := (s.putBytes pa bs).mem } := by
  induction bs generalizing pa s with
  | nil => rfl
  | cons x bs ih => exact ih (pa + 1) (s.putByte pa x)

/-- What dropping one line does outside a lining: its home bytes, and the line is no longer dirty. -/
theorem dropLine_eq (hl : s.logged = false) :
    dropLine v d s = { s with
      mem := (s.putBytes (d.pline * 128) d.home).mem, dirty := s.dirty.filter fun e => e.pline ≠ d.pline } := by
  unfold dropLine
  simp only [hl, Bool.false_eq_true, if_false]
  rw [putBytes_frame]

/-- Dropping lines with different places, outside a lining and without migrations. -/
theorem dropLines_spec {ds : List Dirty} (hl : s.logged = false) (hm : s.pkg.migFwd = false) (hf : s.pkg.fwds = [])
    (hd : ds.Pairwise fun d e => d.pline ≠ e.pline) (hh : ∀ d ∈ ds, d.home.length = 128) :
    let t := ds.foldl (fun s d => dropLine v d s) s
    t = { s with dirty := t.dirty, mem := t.mem } ∧
    (∀ e, e ∈ t.dirty ↔ e ∈ s.dirty ∧ ∀ d ∈ ds, e.pline ≠ d.pline) ∧
    ∀ p, (∀ d ∈ ds, d.pline = p / 128 → t.byte p = d.home.getD (p % 128) 0) ∧
      ((∀ d ∈ ds, d.pline ≠ p / 128) → t.byte p = s.byte p) := by
  induction ds generalizing s with
  | nil => simp
  | cons d ds ih =>
    obtain ⟨hne, hd⟩ := List.pairwise_cons.1 hd
    have hone (p : Nat) : (dropLine v d s).byte p =
        if d.pline = p / 128 then d.home.getD (p % 128) 0 else s.byte p := by
      have hb : (dropLine v d s).byte p = (s.putBytes (d.pline * 128) d.home).byte p := by
        rw [dropLine_eq hl, putBytes_frame]
        rfl
      rw [hb, byte_putBytes hm hf, hh d (List.mem_cons_self ..)]
      by_cases hp : d.pline = p / 128
      · rw [if_pos (by omega), if_pos hp, show p - d.pline * 128 = p % 128 by omega]
      · rw [if_neg (by omega), if_neg hp]
    obtain ⟨hframe, hdirty, hbyte⟩ := ih (s := dropLine v d s) (by rw [dropLine_eq hl]; exact hl) (by rw [dropLine_eq hl]; exact hm)
      (by rw [dropLine_eq hl]; exact hf) hd fun e he => hh e (List.mem_cons_of_mem _ he)
    refine ⟨?_, fun e => ?_, fun p => ⟨fun e he hp => ?_, fun hp => ?_⟩⟩
    · rw [List.foldl_cons, hframe, dropLine_eq hl]
    · rw [List.foldl_cons, hdirty, dropLine_eq hl]
      simp [List.mem_filter, and_assoc]
    · obtain rfl | he := List.mem_cons.1 he
      · rw [List.foldl_cons, (hbyte p).2 fun e' he' => hp ▸ (hne e' he').symm, hone, if_pos hp]
      · exact (hbyte p).1 e he hp
    · rw [List.foldl_cons, (hbyte p).2 fun e he => hp e (List.mem_cons_of_mem _ he), hone,
        if_neg (hp d (List.mem_cons_self ..))]

/-- Dirty lines with different places are told apart by their place. -/
theorem pline_injective {ds : List Dirty} (hp : ds.Pairwise fun d e => d.pline ≠ e.pline) {d e : Dirty} (hd : d ∈ ds)
    (he : e ∈ ds) (h : d.pline = e.pline) : e = d := by
  have : Std.Symm fun d e : Dirty => d.pline ≠ e.pline := ⟨fun _ _ h => h.symm⟩
  by_contra hne
  exact hp.forall hd he (Ne.symm hne) h

/-- Outside a lining no record is written, and none holds the drop back. -/
theorem runStdrop_unlogged (hl : s.logged = false) :
    runStdrop a b v s = .done ((droppedLines s (v.rs a.toNat) (v.operand b).toNat).foldl (fun s d => dropLine v d s) s) := by
  have hheld (n : Nat) : s.appendHeld n = false := by
    unfold State.logged at hl
    unfold State.appendHeld
    rw [Bool.and_assoc (decide _), hl]
    simp
  have hroom (n : Nat) : s.noRoom n = false := by
    unfold State.logged at hl
    unfold State.noRoom
    rw [hl]
    rfl
  unfold runStdrop State.logFull
  dsimp only
  rw [if_neg (by rw [hheld]; decide), if_neg (by rw [hroom]; decide)]

theorem stdrop_drops (hi : Issues c s) (hl : s.logged = false) (hm : s.pkg.migFwd = false) (hf : s.pkg.fwds = [])
    (hp : s.dirty.Pairwise fun d e => d.pline ≠ e.pline) (hh : ∀ d ∈ s.dirty, d.home.length = 128) :
    ∃ t, exec (.stdrop c a b) s = .next t ∧ t = { s.issued with dirty := t.dirty, mem := t.mem } ∧
      (∀ d, d ∈ t.dirty ↔ d ∈ s.dirty ∧ ¬ Hit s (s.hart.rs a.toNat) (operandOf s.hart b).toNat d) ∧
      ∀ p, (∀ d ∈ s.dirty, Hit s (s.hart.rs a.toNat) (operandOf s.hart b).toNat d → d.pline = p / 128 →
          t.byte p = d.home.getD (p % 128) 0) ∧
        ((∀ d ∈ s.dirty, Hit s (s.hart.rs a.toNat) (operandOf s.hart b).toNat d → d.pline ≠ p / 128) →
          t.byte p = s.byte p) := by
  have hmem {d : Dirty} : d ∈ droppedLines s.issued (s.hart.rs a.toNat) (operandOf s.hart b).toNat ↔
      d ∈ s.dirty ∧ Hit s (s.hart.rs a.toNat) (operandOf s.hart b).toNat d := mem_droppedLines
  have hpd : (droppedLines s.issued (s.hart.rs a.toNat) (operandOf s.hart b).toNat).Pairwise fun d e => d.pline ≠ e.pline :=
    ((droppedLines_perm _ _ _).pairwise_iff fun h => h.symm).2 (hp.filter _)
  have hrun : runStdrop a b (s.envOf (.stdrop c a b)) s.issued =
      .done ((droppedLines s.issued (s.hart.rs a.toNat) (operandOf s.hart b).toNat).foldl
        (fun t d => dropLine (s.envOf (.stdrop c a b)) d t) s.issued) := by
    rw [← operand_envOf (.stdrop c a b)]
    exact runStdrop_unlogged hl
  obtain ⟨hframe, hdirty, hbyte⟩ := dropLines_spec (v := s.envOf (.stdrop c a b)) (s := s.issued) hl hm hf hpd
    fun d hd => hh d (hmem.1 hd).1
  refine ⟨_, issueV_done (run := runStdrop a b) hi hrun, hframe, fun d => ?_, fun p => ⟨fun d hd hit hpl => ?_, fun h => ?_⟩⟩
  · rw [hdirty]
    refine and_congr_right fun hd => ⟨fun h hit => h d (hmem.2 ⟨hd, hit⟩) rfl, fun h e he hpl => ?_⟩
    obtain ⟨hes, hit⟩ := hmem.1 he
    exact h (pline_injective hp hd hes hpl ▸ hit)
  · exact (hbyte p).1 d (hmem.2 ⟨hd, hit⟩) hpl
  · exact (hbyte p).2 fun d hd => h d (hmem.1 hd).1 (hmem.1 hd).2

/-- Settles O38: stmap, stwb and stdrop each complete at issue; the model's test of a line against a range is the overlap of
their bytes, and lines with different places are dropped independently. -/
theorem stashControl : Obligations.StashControl := by
  refine ⟨fun c slot soff a b s hi => ⟨fun h0 => stmap_maps hi _ (runStmap_empty ?_), ?_⟩, fun c a b s hi =>
    ⟨stwb_writes hi, stdrop_drops hi⟩⟩
  · rw [operand_envOf]
    exact h0
  · intro n h12 h19 hz hc hb ho he hr
    dsimp only at hz hb ho he hr ⊢
    rw [hz] at hb ho he hr ⊢
    have hrun := runStmap_maps (v := s.envOf (.stmap c slot soff a b)) (s := s.issued) (a := a) (slot := slot) h12 h19
      ((congrArg _ (operand_envOf _ s b)).trans hz) hc hb ho he
    exact stmap_maps hi _ (hrun fun x hx => hr x (rivalSlots_issued s _ _ ▸ hx))

end Sys2Proof.Proofs
end

section
/-! PROOFS. The checks of an access within 4 KiB of virtual memory, outside the cluster window (R184, R194, R198, R380, R382, R388,
R391, R436, R463). -/

namespace Sys2Proof.Proofs

open Sys2Proof.Machine Sys2Proof.Safety

variable {s : State} {a : Agent} {q : Req}

/-! ## Each check as a statement of the spec -/

theorem canonical_iff {x : Word} : canonical x = true ↔ ∀ k, 56 ≤ k → k < 64 → x.getLsbD k = x.getLsbD 56 := by
  have hbit (i : Nat) (hi : i < 7) : (if x.getLsbD 56 then 0x7F#7 else 0#7).getLsbD i = x.getLsbD 56 := by
    cases x.getLsbD 56
    · simp
    · interval_cases i <;> rfl
  unfold canonical
  rw [beq_iff_eq]
  constructor
  · intro h k h56 h64
    obtain rfl | hk := Nat.eq_or_lt_of_le h56
    · rfl
    · have := congrArg (fun y : BitVec 7 => y.getLsbD (k - 57)) h
      simp only [hbit (k - 57) (by omega), BitVec.getLsbD_extractLsb', show k - 57 < 7 by omega, decide_true, Bool.true_and,
        show 57 + (k - 57) = k by omega] at this
      exact this
  · intro h
    refine BitVec.eq_of_getLsbD_eq fun i hi => ?_
    rw [hbit i hi, BitVec.getLsbD_extractLsb', decide_eq_true hi, Bool.true_and]
    exact h (57 + i) (by omega) (by omega)

/-- Both ends of the access are canonical (R184). -/
def EndsCanonical (q : Req) : Prop :=
  ∀ x : Word, (x = q.va ∨ x = q.va + BitVec.ofNat 64 (q.n - 1)) → ∀ k, 56 ≤ k → k < 64 → x.getLsbD k = x.getLsbD 56

theorem endsCanonical_iff :
    (canonical q.va && canonical (q.va + BitVec.ofNat 64 (q.n - 1))) = true ↔ EndsCanonical q := by
  rw [Bool.and_eq_true, canonical_iff, canonical_iff]
  constructor
  · rintro ⟨h₁, h₂⟩ x (rfl | rfl)
    · exact h₁
    · exact h₂
  · exact fun h => ⟨h _ (.inl rfl), h _ (.inr rfl)⟩

/-- The access lies in the declared memory of its launch (R368). -/
def Declared (a : Agent) (q : Req) : Prop :=
  q.kind = .fetch ∨ ∀ rs, a.ranges = some rs →
    ∃ r ∈ rs, r.base.toNat ≤ q.va.toNat ∧ q.va.toNat < r.base.toNat + r.len

/-- The access leaves the declared memory, as the model tests it. -/
def strays (a : Agent) (q : Req) : Bool :=
  q.kind ≠ .fetch && match a.ranges with | some rs => !inRanges rs q.va | none => false

theorem strays_iff : strays a q = true ↔ ¬ Declared a q := by
  unfold strays Declared inRanges
  cases a.ranges with
  | none => simp
  | some rs => simp

/-- The single part of an access within 4 KiB, with the place that its translation names. -/
def partAt (a : Agent) (q : Req) (e : TlbEntry) : Chunk :=
  ⟨q.va, q.va, a.core, e.pa + (q.va.toNat % 2 ^ 57 - e.va), q.n, e.attr⟩

/-- The permission check of R198 order 5. -/
def Permits (s : State) (a : Agent) (q : Req) (e : TlbEntry) (pa : Nat) : Prop :=
  (a.level = .user → e.u = true) ∧ (q.kind = .fetch → e.x = true) ∧ (q.kind = .store ∨ q.kind = .rmw → e.attr ≠ 1) ∧
    (e.attr = 3 → q.vec = false ∧ q.va.toNat % q.n = 0 ∧ (q.kind = .load ∨ q.kind = .store)) ∧ inRegion pa = true ∧
    (isDevice pa = true → (a.level = .user → s.owner (pa / 65536) = 0x0100 + a.pid.setWidth 16) ∧
      (a.level ≠ .user → s.owner (pa / 65536) = 1 ∨ (s.owner (pa / 65536)).toNat / 256 = 1))

/-- The upper byte of an owner, as bits and as a number. -/
theorem ownerByte_iff {o : BitVec 16} : o.extractLsb' 8 8 = 1#8 ↔ o.toNat / 256 = 1 := by
  rw [← BitVec.toNat_inj]
  have := o.isLt
  simp [BitVec.extractLsb'_toNat, Nat.shiftRight_eq_div_pow]
  omega

theorem admits_iff {pa : Nat} : s.admits a pa = true ↔
    (isDevice pa = true → (a.level = .user → s.owner (pa / 65536) = 0x0100 + a.pid.setWidth 16) ∧
      (a.level ≠ .user → s.owner (pa / 65536) = 1 ∨ (s.owner (pa / 65536)).toNat / 256 = 1)) := by
  unfold State.admits
  by_cases hd : isDevice pa = true <;> by_cases hu : a.level = .user <;> simp [hd, hu, ownerByte_iff]

theorem permitted_iff {e : TlbEntry} {c : Chunk} {hit : Bool} :
    s.permitted a q (c, some e, hit) = true ↔ Permits s a q e c.pa := by
  have huser : (e.u || decide (a.level ≠ .user)) = true ↔ (a.level = .user → e.u = true) := by
    by_cases a.level = .user <;> simp [*]
  have hdevice : (e.attr ≠ 3 || (!q.vec && q.va.toNat % q.n == 0 && (q.kind == .load || q.kind == .store))) = true ↔
      (e.attr = 3 → q.vec = false ∧ q.va.toNat % q.n = 0 ∧ (q.kind = .load ∨ q.kind = .store)) := by
    by_cases h : e.attr = 3#2 <;> simp [h, and_assoc]
  unfold State.permitted Permits
  rw [Bool.and_eq_true, Bool.and_eq_true, Bool.and_eq_true, Bool.and_eq_true, hdevice, huser, admits_iff]
  cases q.kind <;> simp [and_assoc]

/-! ## The chain of checks -/

/-- The checks of translated parts, orders 5 to 7 (R198, R391, R436, R463). -/
def partsChecked (s : State) (a : Agent) (q : Req) (cs : List (Chunk × Option TlbEntry × Bool)) : Except Trap Acc :=
  if !cs.all (s.permitted a q) then .error ⟨.protection, q.va⟩
  else if (cs.map (·.1)).any s.unreachable then .error ⟨.remote, q.va⟩
  else if (cs.map (·.1)).any s.waitsFor || s.recordsHeld a q.kind (cs.map (·.1)) then .error ⟨.held, q.va⟩
  else if q.kind ≠ .store && (cs.map (·.1)).any (fun c => s.poisoned c.pa c.n) then .error ⟨.dataError, q.va⟩
  else .ok ⟨cs.map (·.1), if a.cache.isNone then [] else cs.filterMap fun c => if c.2.2 then none else c.2.1⟩

theorem blocks_within {va : Word} {n : Nat} (hn : 0 < n) (hb : va.toNat % 4096 + n ≤ 4096) :
    blocks (n / 4096 + 2) va n = [(va, n)] := by
  unfold blocks
  dsimp only
  rw [if_neg (by omega), Nat.min_eq_left (by omega), Nat.sub_self]
  rfl

theorem resolve_within (hn : 0 < q.n) (hb : q.va.toNat % 4096 + q.n ≤ 4096) (hw : (s.partAt a.pid).cwEn = false) :
    s.resolve a (blocks (q.n / 4096 + 2) q.va q.n) = some [(q.va, q.n, q.va, a.core)] := by
  have hwin : s.window a q.va = some (q.va, a.core) := by
    unfold State.window
    simp [hw]
  rw [blocks_within hn hb, State.resolve, hwin]
  rfl

section
variable (hn : 0 < q.n) (hb : q.va.toNat % 4096 + q.n ≤ 4096) (hw : (s.partAt a.pid).cwEn = false)
include hn hb hw

/-- The checks before the translation, in their order (R184, R198). -/
theorem check_within : s.check a q =
    if !(canonical q.va && canonical (q.va + BitVec.ofNat 64 (q.n - 1))) then .error ⟨.translation, q.va⟩
    else if q.al && q.va.toNat % q.n ≠ 0 then .error ⟨.misaligned, q.va⟩
    else if strays a q then .error ⟨.range, q.va⟩
    else (s.translate a [(q.va, q.n, q.va, a.core)]).bind (partsChecked s a q) := by
  unfold State.check strays
  rw [if_neg (by omega), resolve_within hn hb hw]
  dsimp only
  cases a.ranges <;> simp only [List.any_cons, List.any_nil, Bool.or_false]
  all_goals cases s.translate a [(q.va, q.n, q.va, a.core)] <;> rfl

variable (h1 : EndsCanonical q) (h2 : q.al = true → q.va.toNat % q.n = 0) (h3 : Declared a q)
include h1 h2 h3

theorem check_translated : s.check a q = (s.translate a [(q.va, q.n, q.va, a.core)]).bind (partsChecked s a q) := by
  rw [check_within hn hb hw, if_neg (by rw [endsCanonical_iff.2 h1]; decide), if_neg (by simpa using h2),
    if_neg (by rw [strays_iff]; exact not_not_intro h3)]

theorem check_invalid (hl : (s.lookup a.cache a.pid q.va).1 = .invalid) : s.check a q = .error ⟨.translation, q.va⟩ := by
  rw [check_translated hn hb hw h1 h2 h3, State.translate]
  generalize s.lookup a.cache a.pid q.va = l at hl ⊢
  obtain ⟨w, hit⟩ := l
  subst hl
  rfl

theorem check_held (hl : (s.lookup a.cache a.pid q.va).1 = .held) : s.check a q = .error ⟨.held, q.va⟩ := by
  rw [check_translated hn hb hw h1 h2 h3, State.translate]
  generalize s.lookup a.cache a.pid q.va = l at hl ⊢
  obtain ⟨w, hit⟩ := l
  subst hl
  rfl

theorem check_badTable (hl : (s.lookup a.cache a.pid q.va).1 = .badTable) : s.check a q = .error ⟨.protection, q.va⟩ := by
  rw [check_translated hn hb hw h1 h2 h3, State.translate]
  generalize s.lookup a.cache a.pid q.va = l at hl ⊢
  obtain ⟨w, hit⟩ := l
  subst hl
  rfl

/-- A leaf names the part that the later checks are of. -/
theorem check_leaf {e : TlbEntry} (hl : (s.lookup a.cache a.pid q.va).1 = .leaf e) :
    ∃ hit, s.check a q = partsChecked s a q [(partAt a q e, some e, hit)] := by
  rw [check_translated hn hb hw h1 h2 h3, State.translate]
  generalize s.lookup a.cache a.pid q.va = l at hl ⊢
  obtain ⟨w, hit⟩ := l
  subst hl
  exact ⟨hit, rfl⟩

end

/-! ## The checks of the part -/

theorem unreachable_iff {c : Chunk} : s.unreachable c = true ↔ ¬ (isPeer c.pa = true → peerOf c.pa ∈ s.pkg.peersUp) := by
  unfold State.unreachable
  simp

theorem waitsFor_iff {c : Chunk} (hn : 0 < c.n) :
    s.waitsFor c = true ↔ ∃ l, c.pa / 128 ≤ l ∧ l * 128 < c.pa + c.n ∧ s.homeStopped (l * 128) = true := by
  unfold State.waitsFor State.linesOf State.linesIn
  simp only [List.any_eq_true, List.mem_map, List.mem_range]
  constructor
  · rintro ⟨l, ⟨i, hi, rfl⟩, h⟩
    exact ⟨_, by omega, by omega, h⟩
  · rintro ⟨l, h₁, h₂, h⟩
    exact ⟨l, ⟨l - c.pa / 128, by omega, by omega⟩, h⟩

/-- The records of a store wait for a slot at a stopped home slice (R423, R463). -/
def RecordsWait (s : State) (a : Agent) (q : Req) : Prop :=
  (q.kind = .store ∨ q.kind = .rmw) ∧ (∃ k, a.cache = some (.core k)) ∧ a.cid = s.hart.cid ∧ a.launch = s.hart.launch ∧
    s.appendHeld (pieces q.va q.n).length = true

theorem recordsHeld_iff {e : TlbEntry} : s.recordsHeld a q.kind [partAt a q e] = true ↔ RecordsWait s a q := by
  have hlen : (State.recordAddrs ⟨[partAt a q e], []⟩).length = (pieces q.va q.n).length := by
    simp [State.recordAddrs, partAt]
  have hzone : s.appendHeld (pieces q.va q.n).length = true → s.zonesB ≠ [] := by
    intro h
    simp only [State.appendHeld, Bool.and_eq_true, decide_eq_true_eq] at h
    exact h.1.1.1
  unfold State.recordsHeld RecordsWait
  rw [hlen]
  rcases a.cache with - | ⟨k⟩ | - | - | -
  case some.core => simpa [and_assoc] using fun _ _ _ h => hzone h
  all_goals simp

section
variable {e : TlbEntry} {hit : Bool}

theorem partsChecked_protection (h5 : ¬ Permits s a q e (partAt a q e).pa) :
    partsChecked s a q [(partAt a q e, some e, hit)] = .error ⟨.protection, q.va⟩ := by
  unfold partsChecked
  rw [if_pos]
  simp only [List.all_cons, List.all_nil, Bool.and_true, Bool.not_eq_true']
  rwa [← Bool.not_eq_true, permitted_iff]

variable (h5 : Permits s a q e (partAt a q e).pa)
include h5

/-- The checks after the permission check. -/
theorem partsChecked_permitted : partsChecked s a q [(partAt a q e, some e, hit)] =
    if s.unreachable (partAt a q e) then .error ⟨.remote, q.va⟩
    else if s.waitsFor (partAt a q e) || s.recordsHeld a q.kind [partAt a q e] then .error ⟨.held, q.va⟩
    else if q.kind ≠ .store && s.poisoned (partAt a q e).pa q.n then .error ⟨.dataError, q.va⟩
    else .ok ⟨[partAt a q e], if a.cache.isNone then [] else if hit then [] else [e]⟩ := by
  have hp : s.permitted a q (partAt a q e, some e, hit) = true := permitted_iff.2 h5
  have hfill : [(partAt a q e, some e, hit)].filterMap (fun c => if c.2.2 then none else c.2.1) = if hit then [] else [e] := by
    cases hit <;> rfl
  unfold partsChecked
  rw [if_neg (by simp [hp]), hfill]
  simp only [List.map_cons, List.map_nil, List.any_cons, List.any_nil, Bool.or_false]
  rfl

end

/-- Settles O28: an access within 4 KiB outside the cluster window has one part, so the chain of checks is a chain of conditions
on that part. -/
theorem accessChecks : Obligations.AccessChecks := by
  intro s a q hn hb hw c1 c2 c3
  refine ⟨fun h1 => ?_, fun h1 h2 => ?_, fun h1 h2 h3 => ?_, check_invalid hn hb hw, check_badTable hn hb hw,
    check_held hn hb hw, fun e h1 h2 h3 hl => ?_⟩
  · rw [check_within hn hb hw, if_pos]
    rw [Bool.not_eq_true', ← Bool.not_eq_true, endsCanonical_iff]
    exact h1
  · rw [check_within hn hb hw, if_neg (by rw [endsCanonical_iff.2 h1]; decide), if_pos]
    simpa [c2] using h2
  · rw [check_within hn hb hw, if_neg (by rw [endsCanonical_iff.2 h1]; decide), if_neg (by simpa using h2), if_pos]
    exact strays_iff.2 h3
  · intro pa owner c5 c6 records stopped c7
    obtain ⟨hit, hc⟩ := check_leaf hn hb hw h1 h2 h3 hl
    have hstop : (s.waitsFor (partAt a q e) || s.recordsHeld a q.kind [partAt a q e]) = true ↔ stopped := by
      rw [Bool.or_eq_true, recordsHeld_iff, waitsFor_iff hn]
      rfl
    have hpoison : (q.kind ≠ .store && s.poisoned (partAt a q e).pa q.n) = true ↔ ¬ c7 := by
      simp [c7, pa, partAt]
    refine ⟨fun h5 => hc.trans (partsChecked_protection h5), fun h5 h6 => ?_, fun h5 h6 hs => ?_, fun h5 h6 hs h7 => ?_,
      fun h5 h6 hs h7 => ?_⟩
    · rw [hc, partsChecked_permitted h5, if_pos (unreachable_iff.2 h6)]
    · rw [hc, partsChecked_permitted h5, if_neg (by rw [unreachable_iff]; exact not_not_intro h6), if_pos (hstop.2 hs)]
    · rw [hc, partsChecked_permitted h5, if_neg (by rw [unreachable_iff]; exact not_not_intro h6), if_neg (by rwa [hstop]),
        if_pos (hpoison.2 h7)]
    · refine ⟨⟨[partAt a q e], if a.cache.isNone then [] else if hit then [] else [e]⟩, ?_, List.append_nil _, fun hm => ?_⟩
      · rw [hc, partsChecked_permitted h5, if_neg (by rw [unreachable_iff]; exact not_not_intro h6), if_neg (by rwa [hstop]),
          if_neg (by rw [hpoison]; exact not_not_intro h7)]
      · simp [State.extents, State.spans, hm, partAt, pa]

end Sys2Proof.Proofs
end

section
/-! PROOFS. Scalar stores: what each outcome of their check does, and the bytes they leave (R199, R200, R221, R426). -/

namespace Sys2Proof.Proofs

open Sys2Proof.Machine Sys2Proof.Safety

/-! ## The store of the scalar agent -/

section
variable {s : State} {va : Word} {bs : List Byte} {vec al : Bool} {m : RecMeta} {acc : Acc}

/-- A store whose access passes its checks and whose records fit is performed. -/
theorem store_of_room (hc : s.check s.agent ⟨va, bs.length, .store, vec, al⟩ = .ok acc)
    (hf : s.logFull (State.recordAddrs acc) = none) :
    s.store va bs vec al m = .ok ((s.storeAt m acc bs).cover (s.extents acc)) := by
  simp only [State.store, hc, hf]

/-- A store whose records do not fit is one unit of the lining, and fails whole (R426). -/
theorem store_of_full {x : Word} (hc : s.check s.agent ⟨va, bs.length, .store, vec, al⟩ = .ok acc)
    (hf : s.logFull (State.recordAddrs acc) = some x) : s.store va bs vec al m = .error ⟨.liningFull, x⟩ := by
  simp only [State.store, hc, hf]

theorem store_of_error {e : Trap} (hc : s.check s.agent ⟨va, bs.length, .store, vec, al⟩ = .error e) :
    s.store va bs vec al m = .error e := by
  simp only [State.store, hc]

/-- A hart that does not lag makes its plain stores visible at once. -/
theorem plainStore_of_not_lag (hl : s.hart.lag = false) : s.plainStore va bs = s.store va bs false false (s.recOf 0) := by
  rw [State.plainStore, hl]
  rfl

/-- A plain store that may lag keeps its translations and waits behind the late stores before it (R221, R247). -/
theorem plainStore_of_lag (hl : s.hart.lag = true) (hc : s.check s.agent ⟨va, bs.length, .store, false, false⟩ = .ok acc)
    (hm : mayLag acc s = true) : s.plainStore va bs =
      .ok ((s.keep acc.fills).onH fun h => { h with sbuf := h.sbuf ++ [⟨acc.chunks, bs⟩] }) := by
  simp only [State.plainStore, hl, hc, hm]
  rfl

theorem mayLag_iff : mayLag acc s = true ↔
    s.hart.lag = true ∧ s.logged = false ∧ ∀ p ∈ acc.chunks, isDevice p.pa = true ∧ p.attr ≠ 3 := by
  simp [mayLag, and_assoc]

/-- A performed store that nothing logs reads back, where its parts do not overlap. -/
theorem bytesAt_completed_store (h : Plain s) (hp : acc.chunks.Pairwise Apart)
    (hc : s.check s.agent ⟨va, bs.length, .store, vec, al⟩ = .ok acc) (ws : List (Nat × Nat)) (g : Hart) :
    (completed ((s.storeAt m acc bs).cover ws) g).bytesAt acc = bs := by
  have hb (a : Nat) : (completed ((s.storeAt m acc bs).cover ws) g).byte a = (s.storeAt m acc bs).byte a :=
    byte_congr (cover_mem ws _) (congrArg Contexts.pkg (contexts_cover ws _)) a
  have hat : (completed ((s.storeAt m acc bs).cover ws) g).bytesAt acc = (s.storeAt m acc bs).bytesAt acc :=
    List.flatMap_congr fun _ _ => bytes_congr fun _ _ => hb _
  exact hat.trans (bytesAt_storeAt h m hp (check_lengths hc))

end

/-! ## The store of a scalar operand -/

section
variable {i : Instr} {f : Fmt} {d : Operand} {al : Bool} {ea v : Word} {s : State} {h h1 : Hart}

/-- The program counter and the window of a record are those before the sources were taken. -/
theorem recOf_takeS (hd : takeS d s.hart = some (v, h1)) (kind : Nat) :
    State.recOf { s with hart := h1 } kind = s.recOf kind := by
  obtain ⟨qs, rfl⟩ := takeS_frame hd
  rfl

/-- A store of D, of either kind, that does not lag is the store of the bytes of D at once. -/
theorem storeFrom_eq (hd : takeS d s.hart = some (v, h1)) (hl : al = false → s.hart.lag = false) :
    storeFrom i f d al ea s =
      match ({ s with hart := h1 } : State).store ea (leBytes (f.width / 8) v.toNat) false al
          (State.recOf { s with hart := h1 } 0) with
      | .error t => s.takeTrap t
      | .ok u => u.advance := by
  have hlag : h1.lag = s.hart.lag := by
    obtain ⟨qs, rfl⟩ := takeS_frame hd
    rfl
  cases al with
  | true =>
    simp only [storeFrom, hd, bytesOf, fmtBytes, recOf_takeS hd]
    rfl
  | false =>
    have hp := plainStore_of_not_lag (s := { s with hart := h1 }) (va := ea) (bs := leBytes (f.width / 8) v.toNat)
      (hlag.trans (hl rfl))
    simp only [storeFrom, hd, bytesOf, fmtBytes, ← hp]
    rfl

/-- A plain store of D that may lag completes with its bytes behind the late stores before it. -/
theorem storeFrom_late {acc : Acc} (hd : takeS d s.hart = some (v, h1)) (hl : h1.lag = true)
    (hc : ({ s with hart := h1 } : State).check (State.agent { s with hart := h1 })
      ⟨ea, f.width / 8, .store, false, false⟩ = .ok acc) (hm : mayLag acc { s with hart := h1 } = true) :
    storeFrom i f d false ea s = completed (State.keep acc.fills { s with hart := h1 })
      { h1 with sbuf := h1.sbuf ++ [⟨acc.chunks, leBytes (f.width / 8) v.toNat⟩] } := by
  rw [← leBytes_length (f.width / 8) v.toNat] at hc
  have hp := plainStore_of_lag hl hc hm
  have hk : (State.keep acc.fills { s with hart := h1 }).hart = h1 := congrArg Contexts.hart (contexts_keep _ _)
  simp only [storeFrom, hd, bytesOf, fmtBytes, Bool.false_eq_true, if_false, hp]
  simp only [State.advance, State.onH, hk]
  rfl

end

/-! ## The statement -/

/-- An instruction that stores D at the sum of its sources, and does not lag: its three outcomes. -/
theorem store_outcomes {i : Instr} {c : Ctl} {f : Fmt} {d a b : Operand} {al : Bool}
    (he : ∀ s, exec i s = guarded c s (withSources i a b fun x y => storeFrom i f d al (x + y)))
    {s : State} {x y v : Word} {h h1 : Hart} (hg : s.hart.guard c = true) (hs : Sources a b s.hart x y h)
    (hd : takeS d h = some (v, h1)) (hl : al = false → h.lag = false) :
    let s1 : State := { s with hart := h1 }
    let bs := leBytes (f.width / 8) v.toNat
    let q : Req := ⟨x + y, f.width / 8, .store, false, al⟩
    (∀ acc, s1.check s1.agent q = .ok acc → s1.logFull (State.recordAddrs acc) = none →
      let t := (s1.storeAt (s1.recOf 0) acc bs).cover (s1.extents acc)
      exec i s = .next (completed t t.hart) ∧
      (s1.logged = false → s1.pkg.migFwd = false → s1.pkg.fwds = [] → acc.chunks.Pairwise Apart →
        (completed t t.hart).bytesAt acc = bs)) ∧
    (∀ acc x, s1.check s1.agent q = .ok acc → s1.logFull (State.recordAddrs acc) = some x →
      exec i s = .next (({ s with hart := h } : State).takeTrap ⟨.liningFull, x⟩)) ∧
    ∀ e, s1.check s1.agent q = .error e → exec i s = .next (({ s with hart := h } : State).takeTrap e) := by
  intro s1 bs q
  have hq : q = ⟨x + y, bs.length, .store, false, al⟩ := by rw [leBytes_length]
  have hx : exec i s = .next (storeFrom i f d al (x + y) { s with hart := h }) := by
    rw [he, guarded_on _ hg, withSources_of i _ hs]
  rw [hx, storeFrom_eq (s := { s with hart := h }) hd hl, hq]
  refine ⟨fun acc hc hf => ⟨?performed, fun hlog hmig hfwd hp => ?bytes⟩, fun acc x hc hf => ?full, fun e hc => ?failed⟩
  case performed =>
    rw [store_of_room hc hf]
    rfl
  case bytes => exact bytesAt_completed_store ⟨hlog, hmig, hfwd⟩ hp hc _ _
  case full => rw [store_of_full hc hf]
  case failed => rw [store_of_error hc]

/-- Settles O15: st and st.rl are `store_outcomes`, and a store that lags is `storeFrom_late`. -/
theorem scalarStores : Obligations.ScalarStores := by
  intro c f sc d a bo s y v h h1 hg hb hd s1 bs req stores
  have hs := sources_register a Mods.none hb
  obtain ⟨qs, hh⟩ := takeS_frame hb
  obtain ⟨qs1, hh1⟩ := takeS_frame hd
  have hlag : h.lag = s.hart.lag := hh ▸ rfl
  have hlag1 : h1.lag = s.hart.lag := hh1 ▸ hlag
  have hsbuf : h1.sbuf = s.hart.sbuf := by rw [hh1, hh]
  have hlogged : s1.logged = s.logged := by
    show (h1.lining && !h1.lLost) = _
    rw [hh1, hh]
    rfl
  refine ⟨fun hl => ?plain, ?release, fun acc hl hlog hc hdev => ?late⟩
  case plain =>
    obtain ⟨hok, hbad⟩ := store_outcomes (i := .st c f d a bo) (fun _ => rfl) hg hs hd fun _ => hlag.trans hl
    exact ⟨fun acc hc hf => ⟨(hok acc hc hf).1, fun hlog => (hok acc hc hf).2 (hlogged.trans hlog)⟩, hbad⟩
  case release =>
    obtain ⟨hok, hbad⟩ := store_outcomes (i := .stRl c f sc d a bo) (al := true) (fun _ => rfl) hg hs hd nofun
    exact ⟨fun acc hc hf => ⟨(hok acc hc hf).1, fun hlog => (hok acc hc hf).2 (hlogged.trans hlog)⟩, hbad⟩
  case late =>
    have hm : mayLag acc s1 = true := mayLag_iff.2 ⟨hlag1.trans hl, hlogged.trans hlog, hdev⟩
    have hx : exec (.st c f d a bo) s =
        .next (storeFrom (.st c f d a bo) f d false (s.hart.rs a.toNat + y) { s with hart := h }) :=
      (guarded_on _ hg).trans (congrArg _ (withSources_of _ _ hs))
    rw [hx, storeFrom_late (s := { s with hart := h }) hd (hlag1.trans hl) hc hm, hsbuf]

end Sys2Proof.Proofs
end

section
/-! PROOFS. Whole transfers of vectors: what their loads leave alone, and what they read and write (R184, R187, R206, R457). -/

namespace Sys2Proof.Proofs

open Sys2Proof.Machine Sys2Proof.Safety

/-! ## What a load leaves alone -/

/-- A core without the power of the banks of its stash. -/
def ungated (k : Nat) (s : State) : Core := { s.coreAt k with sgate := 0 }

/-- A state without its cached translations, its dirty lines and its cores. -/
def uncached (s : State) : State := { s with tlb := [], dirty := [], cores := [] }

section
variable (s : State)

theorem ungated_powered (k core pline : Nat) : ungated k (powered core pline s) = ungated k s := by
  unfold powered
  split
  · rfl
  · rw [ungated, State.coreAt_modCore]
    split
    · next hk => rw [hk]; rfl
    · rfl

theorem ungated_holdLine (k core : Nat) (cid : BitVec 12) (vline pline : Nat) :
    ungated k (s.holdLine core cid vline pline) = ungated k s := by
  rw [holdLine_eq, ungated_powered]
  unfold displaced
  repeat' split
  all_goals rfl

theorem ungated_touch (k : Nat) (o : Holder) (c : Chunk) : ungated k (s.touch o c) = ungated k s := by
  have each {f : Nat → Nat → State → State} (hf : ∀ v p t, ungated k (f v p t) = ungated k t) :
      ungated k (s.eachLine o.cid c f) = ungated k s :=
    foldl_keeps (ungated k) _ (fun t _ => (hf _ _ _).trans (ungated_holdLine t k _ _ _ _)) _ s
  unfold State.touch
  repeat' split
  · exact each fun _ _ _ => rfl
  · exact each fun _ _ _ => rfl
  · rfl

theorem ungated_keep (k : Nat) (fills : List TlbEntry) : ungated k (s.keep fills) = ungated k s := by
  unfold State.keep; split <;> rfl

theorem ungated_loadAt (k : Nat) (o : Holder) (acc : Acc) : ungated k (s.loadAt o acc).2 = ungated k s :=
  (foldl_keeps (ungated k) _ (fun s c => ungated_touch s k o c) _ _).trans (ungated_keep s k _)

theorem uncached_touch (o : Holder) (c : Chunk) : uncached (s.touch o c) = uncached s := by
  unfold State.touch
  repeat' split
  · exact eachLine_keeps uncached (f := State.moveLine c.core o) (fun _ _ => rfl) (fun _ _ _ => rfl) (fun _ _ _ => rfl) _ _ s
  · exact eachLine_keeps uncached (fun _ _ => rfl) (fun _ _ _ => rfl) (fun _ _ _ => rfl) _ _ s
  · rfl

theorem uncached_keep (fills : List TlbEntry) : uncached (s.keep fills) = uncached s := by
  unfold State.keep; split <;> rfl

theorem uncached_loadAt (o : Holder) (acc : Acc) : uncached (s.loadAt o acc).2 = uncached s :=
  (foldl_keeps uncached _ (fun s c => uncached_touch s o c) _ _).trans (uncached_keep s _)

end

/-- Two states that differ in what loads change alone. -/
def Reads (s t : State) : Prop := uncached t = uncached s ∧ ∀ k, ungated k t = ungated k s

section
variable {s t u : State}

theorem Reads.refl (s : State) : Reads s s := ⟨rfl, fun _ => rfl⟩

theorem Reads.trans (h : Reads s t) (h' : Reads t u) : Reads s u :=
  ⟨h'.1.trans h.1, fun k => (h'.2 k).trans (h.2 k)⟩

theorem reads_loadAt (o : Holder) (acc : Acc) (s : State) : Reads s (s.loadAt o acc).2 :=
  ⟨uncached_loadAt s o acc, fun k => ungated_loadAt s k o acc⟩

theorem Reads.byte (h : Reads s t) (a : Nat) : t.byte a = s.byte a :=
  byte_congr (congrArg State.mem h.1 :) (congrArg State.pkg h.1 :) a

theorem Reads.bytesAt (h : Reads s t) (acc : Acc) : t.bytesAt acc = s.bytesAt acc :=
  List.flatMap_congr fun _ _ => bytes_congr fun _ _ => h.byte _

theorem Reads.hart (h : Reads s t) : t.hart = s.hart := (congrArg State.hart h.1 :)

/-- What loads leave, with a hart of one's own. -/
theorem Reads.loaded (h : Reads s t) (g : Hart) : loaded s { t with hart := g } g := by
  obtain ⟨hs, hk⟩ := h
  refine ⟨?_, fun k => ?_⟩
  · exact (congrArg (fun x : State => { x with hart := g, tlb := t.tlb, dirty := t.dirty, cores := t.cores }) hs :)
  · exact (congrArg (fun x : Core => { x with sgate := (t.coreAt k).sgate }) (hk k) :)

end

/-! ## Elements that all pass their checks -/

section
variable {n : Nat} {kind : Kind} {g : Agent} {s : State} {ea : Nat → Word} {acc : Nat → Acc} {f : Fmt} {m : RecMeta}

theorem checkAll_of_passes (l : List Nat) (h : ∀ e ∈ l, s.check g ⟨ea e, n, kind, true, true⟩ = .ok (acc e)) :
    checkAll n kind g s (l.map ea) = .ok (l.map acc) := by
  induction l with
  | nil => rfl
  | cons e l ih =>
    obtain ⟨he, hl⟩ := List.forall_mem_cons.1 h
    simp only [List.map_cons, checkAll, he, ih hl]

/-- The elements of a transfer of n elements all pass their checks. -/
theorem checkAll_range {len : Nat} (h : ∀ e < len, s.check g ⟨ea e, n, kind, true, true⟩ = .ok (acc e)) :
    checkAll n kind g s ((List.range len).map ea) = .ok ((List.range len).map acc) :=
  checkAll_of_passes _ fun e he => h e (List.mem_range.1 he)

/-- Elements k to k + len - 1 are read, each as its bytes stand before the first read. -/
theorem readAll_range' (f : Fmt) (acc : Nat → Acc) (len : Nat) : ∀ (k : Nat) (x : List (Nat × Elem)) (s : State),
    Reads s (readAll f ((List.range' k len).map acc) k x s).2 ∧
      ∀ e, tget 0 (readAll f ((List.range' k len).map acc) k x s).1 e =
        if k ≤ e ∧ e < k + len then extElem f (leNat (s.bytesAt (acc e))) else tget 0 x e := by
  induction len with
  | zero => exact fun k x s => ⟨Reads.refl s, fun e => (if_neg (by omega)).symm⟩
  | succ len ih =>
    intro k x s
    have hread := reads_loadAt s.hart.holder (acc k) s
    obtain ⟨hrest, hx⟩ := ih (k + 1) (tset 0 x k (extElem f (leNat (s.bytesAt (acc k))))) (s.loadAt s.hart.holder (acc k)).2
    refine ⟨hread.trans hrest, fun e => (hx e).trans ?_⟩
    rw [hread.bytesAt, tget_tset]
    by_cases he : e = k
    · subst he
      rw [if_neg (by omega), if_pos rfl, if_pos (by omega)]
    · rw [if_neg he]
      exact if_congr (by omega) rfl rfl

/-- The elements of a load are read, each as its bytes stand before the first read. -/
theorem readAll_range (f : Fmt) (acc : Nat → Acc) (len : Nat) (s : State) :
    Reads s (readAll f ((List.range len).map acc) 0 [] s).2 ∧
      ∀ e, tget 0 (readAll f ((List.range len).map acc) 0 [] s).1 e =
        if e < len then extElem f (leNat (s.bytesAt (acc e))) else 0 := by
  obtain ⟨hr, hx⟩ := readAll_range' f acc len 0 [] s
  rw [← List.range_eq_range'] at hr hx
  exact ⟨hr, fun e => (hx e).trans (if_congr (by omega) rfl rfl)⟩

/-- Elements k to k + len - 1 of a vector are written in their order. -/
theorem writeAll_range' (f : Fmt) (m : RecMeta) (acc : Nat → Acc) (x : List (Nat × Elem)) (len : Nat) : ∀ (k : Nat) (s : State),
    writeAll f m ((List.range' k len).map acc) k x s = (List.range' k len).foldl
      (fun u e => u.storeAt m (acc e) (leBytes (fmtBytes f) (tget 0 x e).toNat)) s := by
  induction len with
  | zero => exact fun _ _ => rfl
  | succ len ih => exact fun k s => ih (k + 1) _

/-- A vector of which every element passes its checks, and whose records fit, is stored. -/
theorem storeWhole_of_passes {len : Nat} (x : List (Nat × Elem))
    (h : ∀ e < len, s.check g ⟨ea e, fmtBytes f, .store, true, true⟩ = .ok (acc e))
    (hf : s.logFull ((List.range len).flatMap fun e => State.recordAddrs (acc e)) = none) :
    storeWhole f m g ((List.range len).map ea) x s =
      .ok (((List.range len).foldl (fun u e => u.storeAt m (acc e) (leBytes (fmtBytes f) (tget 0 x e).toNat)) s).cover
        ((List.range len).flatMap fun e => s.extents (acc e))) := by
  have hw := writeAll_range' f m acc x len 0 s
  rw [← List.range_eq_range'] at hw
  simp only [storeWhole, checkAll_range h, List.flatMap_map, hf, hw]

end

end Sys2Proof.Proofs
end

section
/-! PROOFS. Vector queues, and streams bound to them (R206 to R211, R423). -/

namespace Sys2Proof.Proofs

open Sys2Proof.Machine Sys2Proof.Safety

/-! ## Queues (R206) -/

/-- The element addresses of vldq and vstq at their issue. -/
theorem eaQueue_envOf (f : Fmt) (a : SSrc) (b : Operand) (i : Instr) (s : State) :
    eaQueue f a b (s.envOf i) = (List.range s.vlen).map fun e =>
      s.hart.src a + operandOf s.hart b + BitVec.ofNat 64 (e * fmtBytes f) := by
  rw [eaQueue, operand_envOf]
  rfl

/-- vldq appends the vector that it loads. -/
theorem vldq_appends (c : Ctl) (f : Fmt) (q : BitVec 3) (a : SSrc) (b : Operand) (s : State) (acc : Nat → Acc)
    (hi : Issues c s) (hv : s.hart.vstart = 0) (hs : s.hart.stream q.toNat = none)
    (hp : ∀ e < s.vlen, s.issued.check s.issued.agent
      ⟨s.hart.src a + operandOf s.hart b + BitVec.ofNat 64 (e * fmtBytes f), fmtBytes f, .load, true, true⟩ = .ok (acc e))
    (hroom : (s.hart.vq q.toNat).length < Config.vectorQueueDepth) :
    ∃ t x, exec (.vldq c f q a b) s = .next t ∧
      loaded s.issued t (s.issued.hart.setVq q.toNat (s.hart.vq q.toNat ++ [x])) ∧
      ∀ e, tget 0 x e = if e < s.vlen then extElem f (leNat (s.bytesAt (acc e))) else 0 := by
  have hv' : ¬ s.issued.hart.vstart ≠ 0 := not_not.2 hv
  have hs' : s.issued.hart.stream q.toNat = none := hs
  have hroom' : ¬ Config.vectorQueueDepth ≤ (s.issued.hart.vq q.toNat).length := Nat.not_le.2 hroom
  obtain ⟨hr, hx⟩ := readAll_range f acc s.vlen s.issued
  refine ⟨_, _, issueV_done hi ?_, hr.loaded _, hx⟩
  rw [runVldq, if_neg hv', hs', if_neg (by simp), if_neg hroom', eaQueue_envOf, checkAll_range hp]
  dsimp only
  rw [State.onH, hr.hart]
  rfl

/-- vstq stores the head of its queue, and removes it. -/
theorem vstq_removes (c : Ctl) (f : Fmt) (q : BitVec 3) (a : SSrc) (b : Operand) (s : State) (acc : Nat → Acc)
    (hi : Issues c s) (hv : s.hart.vstart = 0) (hs : s.hart.stream q.toNat = none)
    (hp : ∀ e < s.vlen, s.issued.check s.issued.agent
      ⟨s.hart.src a + operandOf s.hart b + BitVec.ofNat 64 (e * fmtBytes f), fmtBytes f, .store, true, true⟩ = .ok (acc e))
    (hf : s.issued.logFull ((List.range s.vlen).flatMap fun e => State.recordAddrs (acc e)) = none)
    (x : List (Nat × Elem)) (rest : List (List (Nat × Elem))) (hq : s.hart.vq q.toNat = x :: rest) :
    let u := ((List.range s.vlen).foldl (fun (u : State) e =>
      u.storeAt (recordOf 0 s) (acc e) (leBytes (fmtBytes f) (tget 0 x e).toNat)) s.issued).cover
        ((List.range s.vlen).flatMap fun e => s.extents (acc e))
    exec (.vstq c f q a b) s = .next { u with hart := u.hart.setVq q.toNat rest } := by
  have hv' : ¬ s.issued.hart.vstart ≠ 0 := not_not.2 hv
  have hs' : s.issued.hart.stream q.toNat = none := hs
  have hq' : s.issued.hart.vq q.toNat = x :: rest := hq
  refine issueV_done (run := runVstq f q a b) hi ?_
  rw [runVstq, if_neg hv', hs', if_neg (by simp), hq', eaQueue_envOf]
  dsimp only
  rw [storeWhole_of_passes x hp hf]
  rfl

/-! ## Binding (R207, R210) -/

/-- A run of zero bytes inside a list, as the list of them. -/
theorem take_drop_zero {bs : List Byte} {k n : Nat} (hl : k + n ≤ bs.length) (h : ∀ j, k ≤ j → j < k + n → bs.getD j 0 = 0) :
    (bs.drop k).take n = List.replicate n 0 := by
  refine List.eq_replicate_iff.2 ⟨by simp; omega, fun b hb => ?_⟩
  obtain ⟨i, hi, rfl⟩ := List.mem_iff_getElem.1 hb
  have hin : i < n := by
    rw [List.length_take] at hi
    omega
  rw [List.getElem_take, List.getElem_drop, ← List.getD_eq_getElem bs 0 (by omega)]
  exact h _ (by omega) (by omega)

/-- A load reads as many bytes as it names. -/
theorem load_length {s t : State} {a : Word} {n : Nat} {bs : List Byte} (h : s.load a n true true = .ok (bs, t)) :
    bs.length = n := by
  obtain ⟨acc, hc, hl⟩ := (load_ok_iff s a n bs t).1 h
  have hbs : s.bytesAt acc = bs := congrArg Prod.fst hl
  have hlen : (s.bytesAt acc).length = (acc.chunks.map Chunk.n).sum := by simp [State.bytesAt, State.bytes]
  rw [← hbs, hlen, check_lengths hc]

/-- A descriptor whose reserved bytes are zero passes the test of vbind for them. -/
theorem descriptor_reserved {bs : List Byte} (hl : bs.length = 64)
    (h : ∀ k, 28 ≤ k → k < 32 ∨ 48 ≤ k → bs.getD k 0 = 0) :
    (decide ((bs.drop 28).take 4 ≠ [0, 0, 0, 0]) || (bs.drop 48).any fun b => decide (b ≠ 0)) = false := by
  have hlow : (bs.drop 28).take 4 = [0, 0, 0, 0] := take_drop_zero (by omega) fun j h1 h2 => h j h1 (.inl h2)
  have hhigh : bs.drop 48 = List.replicate 16 0 := by
    rw [← take_drop_zero (k := 48) (n := 16) (by omega) fun j h1 _ => h j (by omega) (.inr h1), List.take_of_length_le]
    simp [hl]
  rw [hlow, hhigh]
  rfl

/-- vbind binds its queue to the stream of a descriptor, and a count of 0 binds nothing. -/
theorem vbind_binds (c : Ctl) (f : Fmt) (sc st : Bool) (q : BitVec 3) (a : SSrc) (s t : State) (bs : List Byte)
    (hi : Issues c s) (ha : (s.hart.src a).toNat % 64 = 0) (hs : s.hart.stream q.toNat = none)
    (hq : s.hart.vq q.toNat = []) (hl : s.issued.load (s.hart.src a) 64 true true = .ok (bs, t))
    (hz : ∀ k, 28 ≤ k → k < 32 ∨ 48 ≤ k → bs.getD k 0 = 0) :
    let w (k : Nat) : Word := BitVec.ofNat 64 (leNat ((bs.drop k).take 8))
    let count := leNat ((bs.drop 24).take 4)
    let bound : Stream := ⟨f, st, sc, w 0, w 8, w 16, count, w 32, w 40, s.vlen, 0, 0, [], none, s.hart.pc,
      s.hart.wcur, s.hart.vseq, [], s.hart.level⟩
    exec (.vbind c f sc st q a) s = .next
      (if count = 0 then t else { t with hart := t.hart.setStream q.toNat (some bound) }) := by
  intro w count bound
  have hsrc : (s.envOf (.vbind c f sc st q a)).src a = s.hart.src a := rfl
  have hs' : s.issued.hart.stream q.toNat = none := hs
  have hq' : s.issued.hart.vq q.toNat = [] := hq
  refine issueV_done (run := runVbind f sc st q a) hi ?_
  simp only [runVbind, hsrc, ha, hs', hq', hl]
  rw [if_neg (by simp), if_neg (by simp), if_neg (Bool.eq_false_iff.1 (descriptor_reserved (load_length hl) hz))]
  rfl

/-- vunbind ends a load stream with its entries, and a store stream that has written all of them. -/
theorem vunbind_ends (c : Ctl) (q : BitVec 3) (s : State) (hi : Issues c s) :
    (s.hart.stream q.toNat = none → exec (.vunbind c q) s = .next s.issued) ∧
    ∀ b, s.hart.stream q.toNat = some b →
      (b.store = false → exec (.vunbind c q) s =
        .next (ranQueued s ((s.issued.hart.setStream q.toNat none).setVq q.toNat []))) ∧
      (b.store = true → b.trap = none → s.hart.vq q.toNat = [] → exec (.vunbind c q) s =
        .next (ranQueued s (s.issued.hart.setStream q.toNat none))) := by
  have hrun {t : State} (h : runVunbind q (s.envOf (.vunbind c q)) s.issued = .done t) :
      exec (.vunbind c q) s = .next t := issueV_done (run := runVunbind q) hi h
  refine ⟨fun hs => hrun ?unbound, fun b hs => ⟨fun hb => hrun ?load, fun hb ht hq => hrun ?store⟩⟩
  case unbound =>
    have hs' : s.issued.hart.stream q.toNat = none := hs
    rw [runVunbind, hs']
  case load =>
    have hs' : s.issued.hart.stream q.toNat = some b := hs
    simp only [runVunbind, hs', hb]
    rfl
  case store =>
    have hs' : s.issued.hart.stream q.toNat = some b := hs
    have hq' : s.issued.hart.vq q.toNat = [] := hq
    simp only [runVunbind, hs', hb, ht, hq', ne_eq, not_true_eq_false, if_true, if_false]
    rfl

/-! ## The entries of a stream (R208, R209, R211) -/

/-- Element e of an entry, scaled to f32, with the flags of its rounding (R208). -/
def scaledElem (b : Stream) (x scales : List (Nat × Elem)) (e : Nat) : Nat × Flags :=
  if (tget 0 scales (e / 32)).toNat % 256 = 255 ∨ ∃ n, fpOf b.fmt (tget 0 x e).toNat = .nan n then (canonNaN .f32, fNV)
  else roundTo .f32 .rne false
    (fpScale (fpOf b.fmt (tget 0 x e).toNat) ((((tget 0 scales (e / 32)).toNat % 256 : Nat) : Int) - 127))

theorem scaleEntry_eq (b : Stream) (x scales : List (Nat × Elem)) : scaleEntry b x scales =
    (List.range b.len).foldl (fun (p : List (Nat × Elem) × Flags) e =>
      (tset 0 p.1 e (BitVec.ofNat 32 (scaledElem b x scales e).1), p.2 ||| (scaledElem b x scales e).2)) ([], 0) := by
  unfold scaleEntry
  refine congrArg (fun g => List.foldl g _ _) (funext fun p => funext fun e => ?_)
  dsimp only
  rw [scaledElem]
  generalize (tget 0 scales (e / 32)).toNat % 256 = scale
  cases fpOf b.fmt (tget 0 x e).toNat with
  | nan n => simp
  | _ => simp

/-- The elements of a scaled entry. -/
theorem tget_scaleEntry (b : Stream) (x scales : List (Nat × Elem)) (e : Nat) : tget 0 (scaleEntry b x scales).1 e =
    if e < b.len then BitVec.ofNat 32 (scaledElem b x scales e).1 else 0 := by
  have hfst : (scaleEntry b x scales).1 =
      (List.range b.len).foldl (fun t e => tset 0 t e (BitVec.ofNat 32 (scaledElem b x scales e).1)) [] := by
    rw [scaleEntry_eq]
    exact (List.foldl_hom Prod.fst fun _ _ => rfl).symm
  rw [hfst, tget_foldl_tset]
  exact if_congr List.mem_range rfl rfl

theorem extElem_n8 (n : Nat) : (extElem .n8 n).toNat % 256 = n % 256 := by
  show (BitVec.ofNat 32 (n % 2 ^ 8)).toNat % 256 = n % 256
  rw [BitVec.toNat_ofNat]
  omega

/-- How many scale bytes an entry has (R208). -/
def scaleCount (b : Stream) : Nat := if b.sc then (b.len + 31) / 32 else 0

theorem scaleAddrs_eq (b : Stream) (j : Nat) : b.scaleAddrs j = (List.range (scaleCount b)).map fun k =>
    b.sbase + BitVec.ofNat 64 j * b.sstr + BitVec.ofNat 64 k := by
  unfold Stream.scaleAddrs scaleCount
  cases b.sc <;> rfl

theorem streamsRun_of {s : State} (hr : s.hart.run = .running) (hq : s.hart.vqf = false) (hz : zoneStopped s = false) :
    streamsRun s = true := by
  rw [streamsRun, hr, hq, hz]
  rfl

/-- The elements and the flags of an entry whose elements x and scale bytes have been read. -/
def entryOf (b : Stream) (x scales : List (Nat × Elem)) : List (Nat × Elem) × Flags :=
  if b.sc then scaleEntry b x scales else (x, 0)

/-- Queue q with an entry of its stream b at its end (R208). -/
def appended (q : Nat) (b : Stream) (y : List (Nat × Elem) × Flags) (h : Hart) : Hart :=
  (h.setVq q (h.vq q ++ [y.1])).setStream q (some { b with done := b.done + 1, flags := b.flags ++ [y.2] })

section
variable {q : Nat} {s : State} {b : Stream} {acc sacc : Nat → Acc}

/-- A load stream with room, whose next entry passes its checks, appends that entry to its queue. -/
theorem fetchEntry_appends (hb : s.hart.stream q = some b) (ht : b.trap = none) (hd : b.done < b.count)
    (hrun : streamsRun s = true) (hst : b.store = false) (hbelow : vectorBelow streamOrder b.seq s.hart = false)
    (hroom : (s.hart.vq q).length < Config.vectorQueueDepth)
    (hp : ∀ e < b.len, s.check (s.agentAt b.level)
      ⟨b.base + BitVec.ofNat 64 b.done * b.vstr + BitVec.ofNat 64 e * b.estr, fmtBytes b.fmt, .load, true, true⟩ = .ok (acc e))
    (hsp : ∀ k < scaleCount b, s.check (s.agentAt b.level)
      ⟨b.sbase + BitVec.ofNat 64 b.done * b.sstr + BitVec.ofNat 64 k, 1, .load, true, true⟩ = .ok (sacc k)) :
    ∃ t x scales, Reads s t ∧
      (∀ e, tget 0 x e = if e < b.len then extElem b.fmt (leNat (s.bytesAt (acc e))) else 0) ∧
      (∀ k, tget 0 scales k = if k < scaleCount b then extElem .n8 (leNat (s.bytesAt (sacc k))) else 0) ∧
      fetchEntry q s = some { t with hart := appended q b (entryOf b x scales) s.hart } := by
  obtain ⟨hr, hx⟩ := readAll_range b.fmt acc b.len s
  obtain ⟨hr', hscales⟩ := readAll_range .n8 sacc (scaleCount b) (readAll b.fmt ((List.range b.len).map acc) 0 [] s).2
  have hrs := hr.trans hr'
  refine ⟨_, _, _, hrs, hx, fun k => (hscales k).trans (by rw [hr.bytesAt]), ?_⟩
  have hgo : (b.store || b.trap.isSome || decide (b.count ≤ b.done) ||
      decide (Config.vectorQueueDepth ≤ (s.hart.vq q).length) || !streamsRun s || vectorBelow streamOrder b.seq s.hart) =
      false := by
    simp [hst, ht, hd, hroom, hrun, hbelow]
  have hcheck : checkAll (fmtBytes b.fmt) .load (s.agentAt b.level) s (b.addrs b.done) = .ok ((List.range b.len).map acc) :=
    checkAll_range hp
  have hscale : checkAll 1 .load (s.agentAt b.level) s (b.scaleAddrs b.done) = .ok ((List.range (scaleCount b)).map sacc) := by
    rw [scaleAddrs_eq, checkAll_range hsp]
  rw [fetchEntry, hb]
  dsimp only
  rw [if_neg (Bool.eq_false_iff.1 hgo), hcheck, hscale]
  dsimp only
  rw [State.onH, hrs.hart]
  rfl

/-- A store stream whose oldest entry passes its checks, and whose records fit, writes that entry and removes it. -/
theorem writeEntry_writes (hb : s.hart.stream q = some b) (ht : b.trap = none) (hd : b.done < b.count)
    (hrun : streamsRun s = true) (hst : b.store = true) (happ : appendedBehind b s.hart = false) (hlate : s.hart.sbuf = [])
    (hp : ∀ e < b.len, s.check (s.agentAt b.level)
      ⟨b.base + BitVec.ofNat 64 b.done * b.vstr + BitVec.ofNat 64 e * b.estr, fmtBytes b.fmt, .store, true, true⟩ = .ok (acc e))
    (hf : s.logFull ((List.range b.len).flatMap fun e => State.recordAddrs (acc e)) = none)
    {x : List (Nat × Elem)} {rest : List (List (Nat × Elem))} (hq : s.hart.vq q = x :: rest) :
    let w := ((List.range b.len).foldl (fun (w : State) e =>
      w.storeAt ⟨0, pcWord b.pc 0, 0, b.win⟩ (acc e) (leBytes (fmtBytes b.fmt) (tget 0 x e).toNat)) s).cover
        ((List.range b.len).flatMap fun e => s.extents (acc e))
    let b' : Option Stream := if b.done + 1 = b.count then none
      else some { b with done := b.done + 1, apps := b.apps.filter fun p => p.1 ≠ b.done }
    writeEntry q s = some { w with hart := (w.hart.setVq q rest).setStream q b' } := by
  intro w b'
  have hgo : (!b.store || b.trap.isSome || decide (b.count ≤ b.done) || !streamsRun s || appendedBehind b s.hart) = false := by
    simp [hst, ht, hd, hrun, happ]
  have hnone : s.lateStores = s := by
    rw [State.lateStores, hlate]
    rfl
  have hstore : storeWhole b.fmt ⟨0, pcWord b.pc 0, 0, b.win⟩ (s.agentAt b.level) (b.addrs b.done) x s = .ok w :=
    storeWhole_of_passes x hp hf
  rw [writeEntry, hb]
  dsimp only
  rw [if_neg (Bool.eq_false_iff.1 hgo), hq]
  dsimp only
  rw [hnone, hstore]
  rfl

end

/-- An element of an entry of a load stream, from the bytes of the element and of its scale (R208). -/
theorem tget_entryOf {b : Stream} {x scales : List (Nat × Elem)} {el scale : Nat → Nat}
    (hx : ∀ e, tget 0 x e = if e < b.len then extElem b.fmt (el e) else 0)
    (hs : ∀ k, tget 0 scales k = if k < scaleCount b then extElem .n8 (scale k) else 0) (e : Nat) :
    tget 0 (entryOf b x scales).1 e = if b.len ≤ e then 0 else if b.sc = false then extElem b.fmt (el e)
      else if scale (e / 32) % 256 = 255 ∨ ∃ n, fpOf b.fmt (extElem b.fmt (el e)).toNat = .nan n then 0x7FC00000
      else BitVec.ofNat 32 (roundTo .f32 .rne false
        (fpScale (fpOf b.fmt (extElem b.fmt (el e)).toNat) (((scale (e / 32) % 256 : Nat) : Int) - 127))).1 := by
  cases hsc : b.sc with
  | false =>
    rw [entryOf, hsc]
    refine (hx e).trans ?_
    by_cases he : e < b.len
    · rw [if_pos he, if_neg (by omega), if_pos rfl]
    · rw [if_neg he, if_pos (by omega)]
  | true =>
    rw [entryOf, hsc, if_pos rfl, tget_scaleEntry]
    by_cases he : e < b.len
    · have hk : e / 32 < scaleCount b := by
        rw [scaleCount, hsc, if_pos rfl]
        omega
      have hb : (tget 0 scales (e / 32)).toNat % 256 = scale (e / 32) % 256 := by rw [hs, if_pos hk, extElem_n8]
      rw [if_pos he, if_neg (by omega), if_neg (by decide), scaledElem, hb, hx, if_pos he]
      split
      · rfl
      · rfl
    · rw [if_neg he, if_pos (by omega)]

/-- An event that performs in the focus of a hart leaves the focus as it was. -/
theorem exec_loadStreamFetch {h q : Nat} {s t : State} (hf : fetchEntry q (s.focus h) = some t) :
    exec (.loadStreamFetch h q) s = .next (t.focus s.cur) := by
  have he : exec (.loadStreamFetch h q) s = due s ((fetchEntry q (s.focus h)).map (State.focus s.cur)) := rfl
  rw [he, hf]
  rfl

theorem exec_storeStreamWrite {h q : Nat} {s t : State} (hf : writeEntry q (s.focus h) = some t) :
    exec (.storeStreamWrite h q) s = .next (t.focus s.cur) := by
  have he : exec (.storeStreamWrite h q) s = due s ((writeEntry q (s.focus h)).map (State.focus s.cur)) := rfl
  rw [he, hf]
  rfl

/-- Settles O37: the queues, the bindings, and the entries of streams, a load stream's element by element. -/
theorem queuesAndStreams : Obligations.QueuesAndStreams := by
  refine ⟨fun c f q a b s acc hi hv hs => ⟨?vldq, ?vstq⟩, ⟨?vbind, vunbind_ends⟩, ?streams⟩
  case vldq => exact vldq_appends c f q a b s acc hi hv hs
  case vstq => exact vstq_removes c f q a b s acc hi hv hs
  case vbind => exact vbind_binds
  case streams =>
    intro h q s b acc sacc u ea passes hb ht hd hrunning hqf hz
    have hrun := streamsRun_of hrunning hqf hz
    refine ⟨fun hst hbelow hroom hp hsp => ?fetch, fun hst happ hlate hp hf x rest hq => ?write⟩
    case fetch =>
      have hsp' : ∀ k < scaleCount b, u.check (u.agentAt b.level)
          ⟨b.sbase + BitVec.ofNat 64 b.done * b.sstr + BitVec.ofNat 64 k, 1, .load, true, true⟩ = .ok (sacc k) := by
        intro k hk
        cases hsc : b.sc with
        | false => simp [scaleCount, hsc] at hk
        | true => exact hsp hsc k (by simpa [scaleCount, hsc] using hk)
      obtain ⟨t, x, scales, hr, hx, hscales, hfetch⟩ := fetchEntry_appends hb ht hd hrun hst hbelow hroom hp hsp'
      refine ⟨_, _, _, exec_loadStreamFetch hfetch, hr.loaded _, fun hsc => ?_, tget_entryOf hx hscales⟩
      rw [entryOf, hsc]
      rfl
    case write => exact exec_storeStreamWrite (writeEntry_writes hb ht hd hrun hst happ hlate hp hf hq)

end Sys2Proof.Proofs
end

section
/-! PROOFS. Scalar and vector atomics (R252, R255 to R257). -/

namespace Sys2Proof.Proofs

open Sys2Proof.Machine Sys2Proof.Safety

/-! ## amo (R252) -/

/-- What amo stores, modulo 2^w, of the old value and the operand (R252). -/
def amoResult (w op : Nat) (old v : Int) : Int :=
  match op with
  | 0 => old + v
  | 1 => min old v
  | 2 => max old v
  | 3 => (wrapNat w old &&& wrapNat w v : Nat)
  | 4 => (wrapNat w old ||| wrapNat w v : Nat)
  | 5 => (wrapNat w old ^^^ wrapNat w v : Nat)
  | _ => v

theorem wrapNat_fmtRead (f : Fmt) (n : Nat) : wrapNat f.width (fmtRead f n) = wrapNat f.width (n : Int) := by
  have hw : wrapTo f (n : Int) = fmtRead f n := by
    simp only [wrapTo, wrapNat_natCast, fmtRead, signedOf, Nat.mod_mod]
  rw [← hw, wrapNat_wrapTo]

theorem wrapNat_amoNew (f : Fmt) (op : Nat) (old v : Int) :
    wrapNat f.width (amoNew f op old v) = wrapNat f.width (amoResult f.width op old v) := by
  match op with
  | 0 => exact wrapNat_wrapTo f _
  | 1 => exact congrArg (wrapNat _) (min_def old v).symm
  | 2 => exact congrArg (wrapNat _) (max_def old v).symm
  | 3 | 4 | 5 => exact wrapNat_fmtRead f _
  | _ + 6 => rfl

/-- An amo whose records fit, and whose comparison holds where it compares, stores. -/
theorem amoAt_stores {f : Fmt} {op : Nat} {v expected : Int} {acc : Acc} {s : State}
    (he : op = 7 → fmtRead f (leNat (s.bytesAt acc)) = expected) (hl : s.logFull (State.recordAddrs acc) = none) :
    amoAt f op v expected acc s = .ok (fmtRead f (leNat (s.bytesAt acc)), s.storeAt (s.recOf 1) acc
      (leBytes (fmtBytes f) (wrapNat f.width (amoResult f.width op (fmtRead f (leNat (s.bytesAt acc))) v)))) := by
  have hc : ¬ ((op = 7 && fmtRead f (leNat (s.bytesAt acc)) ≠ expected) = true) := by simpa using he
  simp only [amoAt, if_neg hc, hl, wrapNat_amoNew]

/-- A compare-and-exchange that finds another value is a load. -/
theorem amoAt_loads {f : Fmt} {op : Nat} {v expected : Int} {acc : Acc} {s : State} (ho : op = 7)
    (he : fmtRead f (leNat (s.bytesAt acc)) ≠ expected) :
    amoAt f op v expected acc s = .ok (fmtRead f (leNat (s.bytesAt acc)), (s.loadAt s.hart.holder acc).2) := by
  have hc : (op = 7 && fmtRead f (leNat (s.bytesAt acc)) ≠ expected) = true := by simp [ho, he]
  simp only [amoAt, if_pos hc]

/-- The value that a compare-and-exchange expects (R252). -/
def amoExpected (f : Fmt) (d : Operand) (h : Hart) : Int :=
  match d with | .s n _ => (opnd f false Mods.none (h.rs n.toNat)).1 | _ => 0

/-- How an amo of state s goes on from the answer of its check in state u. -/
def amoFrom (i : Instr) (f : Fmt) (op : Nat) (d : Operand) (v : Int) (s u : State) : Except Trap Acc → State
  | .error t => s.takeTrap t
  | .ok acc =>
      match amoAt f op v (amoExpected f d s.hart) acc u with
      | .error t => s.takeTrap t
      | .ok (old, t) => deliver i s d (ext f old) t

theorem exec_amo (c : Ctl) (op : BitVec 3) (sc : Scope) (f : Fmt) (d : Operand) (a : BitVec 6) (b : Operand) (disp : BitVec 13)
    (s : State) : exec (.amo c op sc f d a b disp) s = guarded c s fun s =>
      withSources (.amo c op sc f d a b disp) (.s a Mods.none) b (fun x y u =>
        amoFrom (.amo c op sc f d a b disp) f op.toNat d (opnd f false Mods.none y).1 s u
          (u.check u.agent ⟨x + disp.signExtend 64, fmtBytes f, .rmw, false, true⟩)) s := rfl

/-- An amo whose access passes its checks delivers the value that its performance finds. -/
theorem amo_delivers {c : Ctl} {op : BitVec 3} {sc : Scope} {f : Fmt} {d : Operand} {a : BitVec 6} {b : Operand}
    {disp : BitVec 13} {s t : State} {y : Word} {h : Hart} {acc : Acc} {old : Int}
    (hg : s.hart.guard c = true) (ht : takeS b s.hart = some (y, h))
    (hc : ({ s with hart := h } : State).check ({ s with hart := h } : State).agent
      ⟨s.hart.rs a.toNat + disp.signExtend 64, f.width / 8, .rmw, false, true⟩ = .ok acc)
    (hp : amoAt f op.toNat (opnd f false Mods.none y).1 (amoExpected f d s.hart) acc { s with hart := h } = .ok (old, t)) :
    Delivers (.amo c op sc f d a b disp) s t d (ext f old) := by
  intro hr
  obtain ⟨h', hd⟩ := putS_room hr (ext f old)
  refine ⟨h', hd, ?_⟩
  rw [exec_amo, guarded_on _ hg, withSources_of _ _ (sources_register a Mods.none ht), fmtBytes, hc]
  simp only [amoFrom, hp, deliver_completes _ s hd]

/-! ## vamo (R255 to R257) -/

/-- The elements of each address, in the order of their first (R256). -/
def grouped (l : List (Word × Nat)) : List (Word × List Nat) :=
  (l.map Prod.fst).eraseDups.map fun a => (a, (l.filter fun p => decide (p.1 = a)).map Prod.snd)

/-- One more element joins the group of its address, or begins one. -/
theorem grouped_append (l : List (Word × Nat)) (a : Word) (x : Nat) :
    grouped (l ++ [(a, x)]) = if (grouped l).any (fun p => p.1 = a)
      then (grouped l).map fun p => if p.1 = a then (a, p.2 ++ [x]) else p
      else grouped l ++ [(a, [x])] := by
  have hany : (grouped l).any (fun p => p.1 = a) = true ↔ a ∈ l.map Prod.fst := by
    simp [grouped, List.mem_eraseDups]
  by_cases ha : a ∈ l.map Prod.fst
  · rw [if_pos (hany.2 ha)]
    have he : ((l ++ [(a, x)]).map Prod.fst).eraseDups = (l.map Prod.fst).eraseDups := by
      simp [List.eraseDups_append, List.removeAll, ha]
    rw [grouped, he, grouped, List.map_map]
    refine List.map_congr_left fun b _ => ?_
    by_cases hb : b = a
    · simp [hb]
    · simp [hb, Ne.symm hb]
  · rw [if_neg (mt hany.1 ha)]
    have he : ((l ++ [(a, x)]).map Prod.fst).eraseDups = (l.map Prod.fst).eraseDups ++ [a] := by
      simp [List.eraseDups_append, List.removeAll, List.eraseDups_cons, ha]
    rw [grouped, he, grouped, List.map_append]
    congr 1
    · refine List.map_congr_left fun b hb => ?_
      have hba : a ≠ b := fun h => ha (h ▸ List.mem_eraseDups.1 hb)
      simp [hba]
    · have hn : l.filter (fun p => decide (p.1 = a)) = [] :=
        List.filter_eq_nil_iff.2 fun p hp => by simpa using fun h => ha (List.mem_map.2 ⟨p, hp, h⟩)
      simp [hn]

theorem groupAddrs_grouped (l : List (Word × Nat)) : ∀ k, groupAddrs l (grouped k) = grouped (k ++ l) := by
  induction l with
  | nil => exact fun k => by rw [groupAddrs, List.append_nil]
  | cons p l ih => exact fun k => by rw [groupAddrs, ← grouped_append, ih, List.append_assoc, List.singleton_append]

theorem grouped_map (es : List Nat) (ea : Nat → Word) (x : Nat → Nat) : grouped (es.map fun e => (ea e, x e)) =
    (es.map ea).eraseDups.map fun a => (a, (es.filter fun e => decide (ea e = a)).map x) := by
  simp only [grouped, List.map_map, List.filter_map, Function.comp_def]

theorem checkAll_addresses {n : Nat} {kind : Kind} {g : Agent} {s : State} {acc : Word → Acc} {l : List Word}
    (h : ∀ x ∈ l, s.check g ⟨x, n, kind, true, true⟩ = .ok (acc x)) : checkAll n kind g s l = .ok (l.map acc) := by
  simpa [List.map_map, Function.comp_def] using
    checkAll_of_passes (ea := BitVec.ofNat 64) (acc := fun k => acc (BitVec.ofNat 64 k)) (l.map BitVec.toNat) (by simpa using h)

/-- Where the accesses of a vamo are performed: at the home slices, or where the stashes hold their lines (R257). -/
def vamoPlace (home : Bool) : Acc → Acc := if home then Acc.atHome else id

/-- A vamo whose accesses pass their checks and whose records fit performs one read-modify-write for each address (R256). -/
theorem runVamo_done {op : BitVec 3} {f : Fmt} {d : BitVec 5} {a : BitVec 6} {b : BitVec 5} {msk : Bool} {mn : BitVec 3}
    {scaled si : Bool} {v : Env} {s : State} {acc : Word → Acc} (hv : s.hart.vstart = 0) :
    let es := (List.range v.n).filter (active s.hart msk mn 1)
    let ea (e : Nat) : Word := v.rs a.toNat + idxOf si (if scaled then 4 else 1) (s.hart.rv b.toNat e)
    let groups := (es.map ea).eraseDups.map fun x =>
      (x, (es.filter fun e => decide (ea e = x)).map fun e => (s.hart.rv d.toNat e).toNat)
    (∀ e ∈ es, s.check s.agent ⟨ea e, 4, .rmw, true, true⟩ = .ok (acc (ea e))) →
    s.logFull (groups.flatMap fun g => State.recordAddrs (acc g.1)) = none →
    runVamo op f d a b msk mn scaled si v s = .done (groups.foldl (fun u g => amoOne f op.toNat v
      (vamoPlace (vamoAtHome s v.n (groups.map fun g => acc g.1)) (acc g.1)) g.2 u) s) := by
  intro es ea groups hc hl
  have hes : checkAll 4 .rmw s.agent s (es.map ea) = .ok ((es.map ea).map acc) :=
    checkAll_addresses fun x hx => by
      obtain ⟨e, he, rfl⟩ := List.mem_map.1 hx
      exact hc e he
  have hgroups : groupAddrs (es.map fun e => (ea e, (s.hart.rv d.toNat e).toNat)) [] = groups :=
    (groupAddrs_grouped _ []).trans (grouped_map es ea _)
  have hpass : checkAll 4 .rmw s.agent s (groups.map Prod.fst) = .ok (groups.map fun g => acc g.1) := by
    refine (checkAll_addresses (acc := acc) fun x hx => ?_).trans (by rw [List.map_map]; rfl)
    obtain ⟨e, he, rfl⟩ : ∃ e ∈ es, ea e = x := by simpa [groups, List.mem_eraseDups] using hx
    exact hc e he
  have hlog : s.logFull ((groups.map fun g => acc g.1).flatMap State.recordAddrs) = none := by
    rw [List.flatMap_map]
    exact hl
  have hzip (home : Bool) (accs : List Acc) (hh : accs = groups.map fun g => acc g.1) :
      (if home then accs.map Acc.atHome else accs).zip groups = groups.map fun g => (vamoPlace home (acc g.1), g) := by
    subst hh
    have hself (F : Acc → Acc) : (groups.map fun g => F (acc g.1)).zip groups = groups.map fun g => (F (acc g.1), g) := by
      simpa using List.zip_map' (f := fun g : Word × List Nat => F (acc g.1)) (g := id) (l := groups)
    cases home
    · exact hself id
    · exact (congrArg (List.zip · groups) (List.map_map ..)).trans (hself Acc.atHome)
  unfold runVamo
  dsimp only
  rw [if_neg (by simp [hv]), hes]
  dsimp only
  rw [hgroups, hpass]
  dsimp only
  rw [hlog]
  dsimp only
  rw [hzip _ _ rfl, List.foldl_map]

theorem vamoAtHome_iff {s : State} {n : Nat} {groups : List (Word × List Nat)} {acc : Word → Acc} :
    vamoAtHome s n (groups.map fun g => acc g.1) = true ↔
      let div := (s.coreAt s.coreNo).vathr.toNat
      div = 0 ∨ n / div < groups.length ∨ ∃ g ∈ groups, ∃ p ∈ (acc g.1).chunks, p.attr ≠ 0 := by
  simp [vamoAtHome, or_assoc]

/-- Settles O42: amo delivers what its performance finds; vamo performs one read-modify-write for each group of its elements,
all of them where `vamoAtHome` says. -/
theorem atomics : Obligations.Atomics := by
  refine ⟨?amo, ?vamo⟩
  case amo =>
    intro c op sc f d a b disp s y h acc hg ht u i w hc old v expected new
    refine ⟨fun he hl => ?stores, fun ho he => amo_delivers hg ht hc (amoAt_loads (congrArg BitVec.toNat ho) he)⟩
    have hrec : u.recOf 1 = recordOf 1 s := by
      obtain ⟨qs, rfl⟩ := takeS_frame ht
      rfl
    have hp := amoAt_stores (f := f) (op := op.toNat) (v := v) (expected := amoExpected f d s.hart) (acc := acc) (s := u)
      (fun h7 => he (BitVec.eq_of_toNat_eq h7)) hl
    rw [hrec] at hp
    exact amo_delivers hg ht hc hp
  case vamo =>
    intro c op sc f d a b msk mn scaled si s acc hi hv i es ea hc groups hl div home performs
    have hruns : performs (vamoPlace (vamoAtHome s.issued s.vlen (groups.map fun g => acc g.1))) :=
      issueV_done (run := runVamo op f d a b msk mn scaled si) hi (runVamo_done hv hc hl)
    have hhome : vamoAtHome s.issued s.vlen (groups.map fun g => acc g.1) = true ↔ home := vamoAtHome_iff
    refine ⟨fun h => ?_, fun h => ?_⟩
    · rwa [hhome.2 h] at hruns
    · rwa [Bool.eq_false_iff.2 (mt hhome.1 h)] at hruns

end Sys2Proof.Proofs
end


section
/-! PROOFS. Named barriers, communication registers, fences and waits on a word (R258 to R268). -/

namespace Sys2Proof.Proofs

open Sys2Proof.Machine Sys2Proof.Safety

/-! ## Barriers (R258 to R262) -/

theorem barrierOf_eq {s : State} {name : Word} (hn : name.toNat < 65536) (hc : name.toNat / 512 ≤ 96) :
    barrierOf s name = some (if name.toNat / 512 = 0 then s.coreNo else 96 * s.clusterNo + (name.toNat / 512 - 1),
      name.toNat % 512) := by
  have h128 : name.toNat / 512 % 128 = name.toNat / 512 := Nat.mod_eq_of_lt (by omega)
  simp only [barrierOf, h128, Config.coresPerCluster, Nat.mul_comm s.clusterNo]
  rw [if_neg (by simp; omega)]

/-- PEND takes a count that leaves it in range (R261). -/
theorem pendAdd_eq {b : Barrier} {n : Word} (hn : n.toNat < 2 ^ 35) (hf : b.pend.toInt + n.toNat < 2 ^ 35) :
    pendAdd b n.toNat = some (b.pend + n.setWidth 36) := by
  have hlo := BitVec.le_toInt b.pend
  have hsum : BitVec.ofInt 36 (b.pend.toInt + n.toNat) = b.pend + n.setWidth 36 := by
    rw [BitVec.ofInt_add, BitVec.ofInt_toInt, BitVec.ofInt_natCast]
    rfl
  simp only [pendAdd, hsum]
  rw [if_neg (by simp; omega)]

theorem complete_eq (b : Barrier) :
    b.complete = if b.arr = 0 ∧ b.pend = 0 then { b with phase := b.phase + 1, arr := b.count } else b := by
  simp [Barrier.complete]

theorem usable_iff {s : State} {b : Barrier} : usable s b = true ↔ b.count ≠ 0 ∧ b.owner = s.ownerTag := by
  simp [usable]

/-- A deliver of a result to a destination with room. -/
theorem delivers_of {i : Instr} {s u : State} {d : Operand} {v : Word} (h : exec i s = .next (deliver i s d v u)) :
    Delivers i s u d v := by
  intro hr
  obtain ⟨h', hd⟩ := putS_room hr v
  exact ⟨h', hd, h.trans (congrArg _ (deliver_completes i s hd))⟩

section
variable {c : Ctl} {a b d : Operand} {s : State} {name n : Word} {h : Hart} {co k : Nat}

theorem barInit_sets (hg : s.hart.guard c = true) (hb : barrierOf s name = some (co, k)) (hs : Sources a b s.hart name n h)
    (ho : (s.barrier co k).owner = s.ownerTag ∨ s.ownerRuns (s.barrier co k).owner = false) (hn : n.toNat ≤ 4095) :
    exec (.barInit c a b) s = .next (completed (({ s with hart := h } : State).setBarrier co k
      ⟨n.setWidth 12, n.setWidth 12, 0, (s.barrier co k).phase,
        if n.setWidth 12 = (0 : BitVec 12) then (s.barrier co k).owner else s.ownerTag⟩) h) := by
  have he : exec (.barInit c a b) s = execBarInit c a b s := rfl
  rw [he, execBarInit, guarded_on _ hg, withSources_of _ _ hs, hb]
  dsimp only
  rw [if_neg (by simpa using fun h => ho.resolve_left h), if_neg (by omega)]
  rfl

theorem barArrive_counts (hg : s.hart.guard c = true) (hb : barrierOf s name = some (co, k)) (hs : Sources a b s.hart name n h)
    (hu : usable s (s.barrier co k) = true) (hn : n.toNat < 2 ^ 35) (hf : (s.barrier co k).pend.toInt + n.toNat < 2 ^ 35)
    (ha : (s.barrier co k).arr ≠ 0) :
    Delivers (.barArrive c d a b) s (({ s with hart := h } : State).setBarrier co k { s.barrier co k with
      pend := (s.barrier co k).pend + n.setWidth 36, arr := (s.barrier co k).arr - 1 }.complete) d
      ((s.barrier co k).phase.setWidth 64) := by
  apply delivers_of
  have he : exec (.barArrive c d a b) s = execBarArrive c d a b s := rfl
  rw [he, execBarArrive, guarded_on _ hg, withSources_of _ _ hs, hb]
  dsimp only
  rw [if_neg (by simp [hu]), if_neg ha, if_neg (by omega), pendAdd_eq hn hf]

theorem barExpect_counts (hg : s.hart.guard c = true) (hb : barrierOf s name = some (co, k)) (hs : Sources a b s.hart name n h)
    (hu : usable s (s.barrier co k) = true) (hn : n.toNat < 2 ^ 35) (hf : (s.barrier co k).pend.toInt + n.toNat < 2 ^ 35) :
    exec (.barExpect c a b) s = .next (completed (({ s with hart := h } : State).setBarrier co k { s.barrier co k with
      pend := (s.barrier co k).pend + n.setWidth 36 }.complete) h) := by
  have he : exec (.barExpect c a b) s = execBarExpect c a b s := rfl
  rw [he, execBarExpect, guarded_on _ hg, withSources_of _ _ hs, hb]
  dsimp only
  rw [if_neg (by simp [hu]), if_neg (by omega), pendAdd_eq hn hf]
  rfl

theorem barWait_ends (hg : s.hart.guard c = true) (hb : barrierOf s name = some (co, k)) (hs : Sources a b s.hart name n h)
    (hu : usable s (s.barrier co k) = true) (hp : (s.barrier co k).phase ≠ n.setWidth 16) :
    exec (.barWait c a b) s = .next (completed { s with hart := h } h) := by
  have he : exec (.barWait c a b) s = execBarWait c a b s := rfl
  rw [he, execBarWait, guarded_on _ hg, withSources_of _ _ hs, hb]
  dsimp only
  rw [if_neg (by simp [hu]), if_neg hp]
  rfl

theorem barTest_reads (hg : s.hart.guard c = true) (hb : barrierOf s name = some (co, k)) (ht : takeS a s.hart = some (name, h))
    (hu : usable s (s.barrier co k) = true) :
    Delivers (.barTest c d a) s { s with hart := h } d (s.barrier co k).word := by
  apply delivers_of
  have he : exec (.barTest c d a) s = execBarTest c d a s := rfl
  rw [he, execBarTest, guarded_on _ hg, withSources_of _ _ ⟨h, ht, rfl⟩, hb]
  dsimp only
  rw [if_neg (by simp [hu])]

end

/-! ## Communication registers (R265, R266) -/

section
variable {i : Instr} {c : Ctl} {a b d : Operand} {s : State} {x y : Word} {h : Hart} {bits : Nat} {f : Nat → Word → State → State}

theorem ownsComm_iff : s.ownsComm = true ↔
    (s.clusterAt s.clusterNo).crEn = true ∧ (s.clusterAt s.clusterNo).crPid = s.hart.pid := by
  simp [State.ownsComm]

theorem withComm_owned (ho : s.ownsComm = true) (hs : Sources a b s.hart x y h) :
    withComm i a b bits f s = f (x.toNat % 2 ^ bits) y { s with hart := h } := by
  rw [withComm, withSources_of _ _ hs]
  simp [ho]

theorem withComm_foreign (ho : ¬ s.ownsComm = true) (hs : Sources a b s.hart x y h) :
    withComm i a b bits f s = s.takeTrap ⟨.protection, BitVec.ofNat 64 (x.toNat % 2 ^ bits)⟩ := by
  rw [withComm, withSources_of _ _ hs]
  simp [ho]

/-- sem.tas obtains a clear bit that no other hart waits for before it (R266). -/
theorem semTas_obtains (hg : s.hart.guard c = true) (ho : s.ownsComm = true) (ht : takeS a s.hart = some (x, h))
    (hc : (s.clusterAt s.clusterNo).sem.getLsbD (x.toNat % 256) = false)
    (hw : ∀ r, ((s.clusterAt s.clusterNo).wait.find? fun r => r.bit == x.toNat % 256) = some r → r.hart = s.cur) :
    exec (.semTas c a) s = .next (completed (({ s with hart := h } : State).modCluster s.clusterNo fun cl => { cl with
      sem := cl.sem ||| 1#256 <<< (x.toNat % 256)
      wait := cl.wait.filter fun r => !(r.bit == x.toNat % 256 && r.hart == s.cur) }) h) := by
  have he : exec (.semTas c a) s = execSemTas c a s := rfl
  have hfirst : (match (s.clusterAt s.clusterNo).wait.find? fun r => r.bit == x.toNat % 256 with
      | some r => r.hart == s.cur
      | none => true) = true := by
    split
    · next r hr => simpa using hw r hr
    · rfl
  rw [he, execSemTas, guarded_on _ hg, withComm_owned ho ⟨h, ht, rfl⟩]
  rw [show x.toNat % 2 ^ 8 = x.toNat % 256 from rfl, if_pos (by rw [hc]; exact hfirst)]
  rfl

end

/-- Settles O43: each instruction completes from the barrier that its name gives, the registers of its cluster, or its word. -/
theorem barriersAndSemaphores : Obligations.BarriersAndSemaphores := by
  refine ⟨?barriers, ?registers⟩
  case barriers =>
    intro c a b d s name n h co k hg hn hc hk hco x u sets checked usable fits
    have hb : barrierOf s name = some (co, k) := by rw [hco, hk]; exact barrierOf_eq hn hc
    have hchecked (y : Barrier) : checked y = y.complete := (complete_eq y).symm
    refine ⟨barInit_sets hg hb, fun hs hu hf ha => ?_, fun hs hu hf => ?_, fun hs hu => barWait_ends hg hb hs (usable_iff.2 hu),
      fun ht hu => barTest_reads hg hb ht (usable_iff.2 hu)⟩
    · rw [hchecked]
      exact barArrive_counts hg hb hs (usable_iff.2 hu) hf.1 hf.2 ha
    · rw [hchecked]
      exact barExpect_counts hg hb hs (usable_iff.2 hu) hf.1 hf.2
  case registers =>
    intro c a b d s x y h hg cl u becomes n
    refine ⟨fun he hp => ?owned, fun ho ht => ?foreign, fun dir sc => ?fence, ?wait⟩
    case owned =>
      have ho := ownsComm_iff.2 ⟨he, hp⟩
      refine ⟨semTas_obtains hg ho, fun ht => ?clr, fun ht => delivers_of ?ld, fun hs => ?st⟩
      case clr =>
        have hx : exec (.semClr c a) s = execSemClr c a s := rfl
        rw [hx, execSemClr, guarded_on _ hg, withComm_owned ho ⟨h, ht, rfl⟩]
        rfl
      case ld =>
        have hx : exec (.crLd c d a) s = execCrLd c d a s := rfl
        rw [hx, execCrLd, guarded_on _ hg, withComm_owned ho ⟨h, ht, rfl⟩]
        rfl
      case st =>
        have hx : exec (.crSt c a b) s = execCrSt c a b s := rfl
        rw [hx, execCrSt, guarded_on _ hg, withComm_owned ho hs]
        rfl
    case foreign =>
      have hx : exec (.semClr c a) s = execSemClr c a s := rfl
      rw [hx, execSemClr, guarded_on _ hg, withComm_foreign (mt ownsComm_iff.1 ho) ⟨h, ht, rfl⟩]
      rfl
    case fence =>
      have hx : exec (.fnc c dir sc) s = execFnc c dir sc s := rfl
      have hdir (k : Nat) (hk : k < 4) : dir = BitVec.ofNat 2 k ↔ dir.toNat = k := by
        rw [← BitVec.toNat_inj, BitVec.toNat_ofNat, Nat.mod_eq_of_lt hk]
      rw [hx, execFnc, guarded_on _ hg]
      simp only [fenceAt, Bool.or_eq_true, decide_eq_true_eq, ← hdir _ (by decide : 0 < 4), ← hdir _ (by decide : 1 < 4),
        ← hdir _ (by decide : 2 < 4), ← hdir _ (by decide : 3 < 4)]
      rfl
    case wait =>
      intro r nat ra sc w32 bs t ht hl v hr
      have hx : exec (.wait c r nat d ra b sc w32) s = execWait c r nat d ra b sc w32 s := rfl
      apply delivers_of
      rw [hx, execWait, guarded_on _ hg, withSources_of _ _ (sources_register ra.n Mods.none ht)]
      dsimp only
      rw [show swz64 ra.swz (s.hart.rs ra.n.toNat) = s.hart.src ra from rfl, hl]
      dsimp only
      exact congrArg _ (if_pos hr)

end Sys2Proof.Proofs
end


section
/-! PROOFS. Shootdowns, ownership, migration, assignments, power gates and the zeroing of a frame (R265, R274, R299, R385, R388,
R390, R392, R436, R457). -/

namespace Sys2Proof.Proofs

open Sys2Proof.Machine Sys2Proof.Safety

/-! ## Tables -/

/-- A table whose entries f changes, where f keeps what g reads of them. -/
theorem tget_mapped {α γ : Type} (g : α → γ) {f : α → α} (hf : ∀ x, g (f x) = g x) (d : α) (l : List (Nat × α)) (k : Nat) :
    g (tget d (l.map fun p => (p.1, f p.2)) k) = g (tget d l k) := by
  induction l with
  | nil => rfl
  | cons p l ih =>
    by_cases hk : p.1 = k
    · simp only [List.map_cons, tget, if_pos hk, hf]
    · simp only [List.map_cons, tget, if_neg hk, ih]

/-- What is read of a table is the default or stands in it. -/
theorem tget_eq_or_mem {α : Type} (d : α) (l : List (Nat × α)) (k : Nat) : tget d l k = d ∨ (k, tget d l k) ∈ l := by
  induction l with
  | nil => exact .inl rfl
  | cons p l ih =>
    by_cases hk : p.1 = k
    · rw [tget, if_pos hk, ← hk]; exact .inr List.mem_cons_self
    · rw [tget, if_neg hk]; exact ih.imp_right (List.mem_cons_of_mem _)

/-- A run of keys reads the values that were set, and every other key what it held. -/
theorem tget_tsets {α : Type} [DecidableEq α] (d : α) (vs : List α) : ∀ (l : List (Nat × α)) (k j : Nat),
    tget d (tsets d l k vs) j = if k ≤ j ∧ j < k + vs.length then vs.getD (j - k) d else tget d l j := by
  induction vs with
  | nil => intro l k j; rw [tsets, if_neg (by simp)]
  | cons v vs ih =>
    intro l k j
    rw [tsets, ih, tget_tset, List.length_cons]
    rcases Nat.lt_trichotomy j k with h | h | h
    · rw [if_neg (by omega), if_neg (by omega), if_neg (by omega)]
    · subst h
      rw [if_neg (by omega), if_pos rfl, if_pos (by omega), Nat.sub_self, List.getD_cons_zero]
    · obtain ⟨i, rfl⟩ : ∃ i, j = k + 1 + i := ⟨j - (k + 1), by omega⟩
      rw [if_neg (by omega : ¬ k + 1 + i = k), show k + 1 + i - (k + 1) = i by omega, show k + 1 + i - k = i + 1 by omega,
        List.getD_cons_succ]
      exact if_congr (by omega) rfl rfl

/-! ## Late stores leave the owners, the package registers and the cores' assignments (R388, R392) -/

/-- The owners of the frames, and every core without the power of its banks. -/
def ledger (s : State) : List (Nat × BitVec 16) × (Nat → Core) := (s.owners, fun k => ungated k s)

theorem ledger_holdLine (core : Nat) (cid : BitVec 12) (v p : Nat) (s : State) :
    ledger (s.holdLine core cid v p) = ledger s :=
  Prod.ext (holdLine_keeps State.owners (fun _ _ => rfl) (fun _ _ _ => rfl) core cid v p s)
    (funext fun k => ungated_holdLine s k core cid v p)

theorem ledger_soilChunk (o : Holder) (c : Chunk) (bs : List Byte) (s : State) : ledger (s.soilChunk o c bs) = ledger s := by
  have hsoil (v p : Nat) (u : State) : ledger (u.soil c.core o v p) = ledger u := by
    unfold State.soil
    split <;> rfl
  unfold State.soilChunk
  split
  · exact foldl_keeps ledger _ (fun s _ => (hsoil _ _ _).trans (ledger_holdLine _ _ _ _ s)) _ s
  · unfold State.patchHome
    split <;> rfl

theorem ledger_putBytes (bs : List Byte) : ∀ (pa : Nat) (s : State), ledger (s.putBytes pa bs) = ledger s := by
  induction bs with
  | nil => exact fun _ _ => rfl
  | cons b bs ih => exact fun pa s => ih (pa + 1) (s.putByte pa b)

theorem ledger_write (pa : Nat) (bs : List Byte) (t : BitVec 28) (s : State) : ledger (s.write pa bs t) = ledger s := by
  have hr (u : State) : ledger (u.recode pa bs.length) = ledger u := by
    unfold State.recode
    split <;> rfl
  have ht (u : State) : ledger (u.setTags pa bs.length t) = ledger u := by
    refine foldl_keeps ledger _ ?_ _ u
    exact fun _ _ => rfl
  have hp := (hr _).trans (ledger_putBytes bs pa s)
  unfold State.write
  dsimp only
  split
  · exact (ht _).trans hp
  · exact hp

theorem ledger_writePart (o : Holder) (c : Chunk) (bs : List Byte) (t : BitVec 28) (s : State) :
    ledger (writePart o c bs t s) = ledger s := by
  have hn (u : State) : ledger u.noteWrite = ledger u := by
    unfold State.noteWrite
    split <;> rfl
  have hm (q : Option Word) (u : State) : ledger (u.markFrame q c.pa) = ledger u := by
    unfold State.markFrame
    repeat' split
    all_goals rfl
  exact (hn _).trans ((hm _ _).trans ((ledger_write _ _ _ _).trans (ledger_soilChunk _ _ _ s)))

theorem ledger_lateChunks (cs : List Chunk) : ∀ (bs : List Byte) (s : State),
    ledger (State.lateChunks cs bs s) = ledger s := by
  induction cs with
  | nil => exact fun _ _ => rfl
  | cons c cs ih =>
    intro bs s
    rw [lateChunks_cons, ih, ledger_writePart]

theorem ledger_lateStore (s : State) : ledger s.lateStore = ledger s := by
  have hc (ws : List (Nat × Nat)) (u : State) : ledger (u.cover ws) = ledger u := by
    unfold State.cover
    split <;> rfl
  unfold State.lateStore
  split
  · rfl
  · exact (hc _ _).trans (ledger_lateChunks _ _ _)

theorem ledger_lateStores (s : State) : ledger s.lateStores = ledger s :=
  foldl_keeps ledger _ (fun s _ => ledger_lateStore s) _ s

theorem ledger_focus (n : Nat) (s : State) : ledger (s.focus n) = ledger s := by
  unfold State.focus
  split <;> rfl

theorem focus_pkg (n : Nat) (s : State) : (s.focus n).pkg = s.pkg := by
  unfold State.focus
  split <;> rfl

/-- The late stores of every hart leave the owners, the cores' assignments and the package registers. -/
theorem showStores_keeps (s : State) : ledger s.showStores = ledger s ∧ s.showStores.pkg = s.pkg := by
  have hstep (s : State) (n : Nat) : (fun s => (ledger s, s.pkg)) (s.atHart n State.lateStores) = (ledger s, s.pkg) :=
    Prod.ext ((ledger_focus _ _).trans ((ledger_lateStores _).trans (ledger_focus n s)))
      ((focus_pkg _ _).trans ((congrArg Contexts.pkg (stored_lateStores (s.focus n)).1).trans (focus_pkg n s)))
  have h := foldl_keeps (fun s => (ledger s, s.pkg)) _ hstep (s.slots.filter fun n => !(s.hartAt n).sbuf.isEmpty) s
  exact ⟨congrArg Prod.fst h, congrArg Prod.snd h⟩

/-! ## The stop of a launch leaves the partitions of the lane groups (R392, R411) -/

/-- The partitions of the lane groups of a core, as its pgrpl and pgrph name them. -/
def pgrp (c : Core) : Word × Word := (c.pgrpl, c.pgrph)

/-- The same of core k. -/
def groupPids (k : Nat) (s : State) : Word × Word := pgrp (s.coreAt k)

theorem groupPids_of_ledger {s t : State} (h : ledger t = ledger s) (k : Nat) : groupPids k t = groupPids k s :=
  congrArg (fun x : List (Nat × BitVec 16) × (Nat → Core) => pgrp (x.2 k)) h

/-- A change of a core that leaves its pgrpl and pgrph. -/
theorem groupPids_modCore {f : Core → Core} (hf : ∀ c, pgrp (f c) = pgrp c) (k core : Nat) (s : State) :
    groupPids k (s.modCore core f) = groupPids k s := by
  rw [groupPids, State.coreAt_modCore]
  split
  · next hk => rw [hf, hk]; rfl
  · rfl

theorem pgrp_freeTile (n : Nat) (c : Core) : pgrp (c.freeTile n) = pgrp c := by
  unfold Core.freeTile
  dsimp only
  split <;> rfl

/-- A fold over a core keeps what each of its steps keeps. -/
theorem foldl_core {α γ : Type} (g : Core → γ) {f : Core → α → Core} (hf : ∀ c x, g (f c x) = g c) (l : List α) :
    ∀ c, g (l.foldl f c) = g c := by
  induction l with
  | nil => exact fun _ => rfl
  | cons x l ih => exact fun c => (ih _).trans (hf c x)

theorem pgrp_dropTiles (k : Nat) (c : Core) : pgrp (c.dropTiles k) = pgrp c := by
  unfold Core.dropTiles
  dsimp only
  rw [foldl_core pgrp]
  · rfl
  · intro c n
    split
    · exact pgrp_freeTile n c
    · rfl

theorem groupPids_dropTiles (k key : Nat) (s : State) : groupPids k (s.dropTiles key) = groupPids k s :=
  tget_mapped pgrp (pgrp_dropTiles key) Core.reset s.cores k

theorem groupPids_withdraw (k n : Nat) (s : State) : groupPids k (s.withdraw n) = groupPids k s :=
  groupPids_modCore (f := fun co => { co with recalls := co.recalls.filter fun r => !(r.key == some ((s.hartAt n).key n)) })
    (fun _ => rfl) k _ s

theorem groupPids_carryCounters (k n : Nat) (comes : Bool) (h : Hart) (s : State) :
    groupPids k (s.carryCounters n comes h) = groupPids k s := rfl

theorem groupPids_emptyMaps (k : Nat) (h : Hart) (s : State) : groupPids k (s.emptyMaps h) = groupPids k s := rfl

theorem groupPids_release (k core n : Nat) (s : State) :
    groupPids k (s.modCore core fun c => c.release n) = groupPids k s :=
  groupPids_modCore (f := Core.release n) (fun _ => rfl) k core s

theorem groupPids_givenBack (k : Nat) (tiles : Bool) (s : State) : groupPids k (givenBack tiles s) = groupPids k s := by
  cases tiles <;>
    simp only [givenBack, groupPids_emptyMaps, groupPids_dropTiles, groupPids_release, groupPids_carryCounters,
      groupPids_withdraw, if_true, if_false, Bool.false_eq_true]

theorem groupPids_stopFocused (k : Nat) (tiles : Bool) (s : State) :
    groupPids k (stopFocused tiles s) = groupPids k s := by
  have hv (t : State) : groupPids k (t.vacate t.hart.ended) = groupPids k t := by
    unfold State.vacate
    split <;> rfl
  have hl (t : State) := groupPids_of_ledger (ledger_lateStores t) k
  rw [stopFocused, leaveWith_eq, hv, groupPids_givenBack, hl, countEnd_keeps (groupPids k) (fun _ _ _ => rfl), hl]

theorem groupPids_stopLaunch (k : Nat) (q : Word) (status : Byte) (s : State) :
    groupPids k (s.stopLaunch q status) = groupPids k s := by
  obtain ⟨unlogged, he⟩ := stopLaunchWith_eq true q status s
  have hfocus (n : Nat) (t : State) : groupPids k (t.focus n) = groupPids k t := groupPids_of_ledger (ledger_focus n t) k
  have hslot (t : State) (n : Nat) : groupPids k (stopSlot true q t n) = groupPids k t := by
    unfold stopSlot
    split
    · rw [State.atHart, hfocus, groupPids_stopFocused, hfocus]
    · rfl
  rw [State.stopLaunch, he]
  exact (foldl_stopSaved_keeps (groupPids k) (fun _ _ _ => rfl) (fun _ _ => rfl) (fun _ _ => groupPids_dropTiles k _ _) _ _
    _).trans (foldl_keeps (groupPids k) _ hslot _ s)

/-- pgrpl or pgrph reads back the value written, where the block rule allows it. -/
theorem groupPids_writePgrp (core : Nat) (high : Bool) (v : Word) (s : State) :
    let new : Core := if high then { s.coreAt core with pgrph := v } else { s.coreAt core with pgrpl := v }
    State.blocksOk new = true → groupPids core (s.writePgrp core high v) = (new.pgrpl, new.pgrph) := by
  intro new hok
  have hset (t : State) : groupPids core (t.modCore core fun c => { c with pgrpl := new.pgrpl, pgrph := new.pgrph }) =
      (new.pgrpl, new.pgrph) := by
    rw [groupPids, State.coreAt_modCore, if_pos rfl, pgrp]
  have hb : (!State.blocksOk new) = false := by rw [hok]; rfl
  unfold State.writePgrp
  extract_lets old new' moved s₁ s₂ u
  rw [if_neg (Bool.eq_false_iff.1 hb)]
  split
  · exact hset _
  · exact (foldl_keeps (groupPids core) _ (fun t q => groupPids_stopLaunch core q 2 t) _ u).trans (hset _)

/-! ## Ownership and migration (R388, R390) -/

theorem isDevice_frame {frame : BitVec 36} (h : frame.toNat * 65536 < 2 ^ 40) : isDevice (frame.toNat * 65536) = true :=
  decide_eq_true h

theorem owner_setOwner {o : BitVec 16} {frame : BitVec 36} (hf : frame.toNat * 65536 < 2 ^ 40) (s : State) (k : Nat) :
    (s.setOwner o frame).owner k = if k = frame.toNat then o else s.owner k := by
  have ho : s.showStores.owners = s.owners := congrArg Prod.fst (showStores_keeps s).1
  rw [State.setOwner, isDevice_frame hf, if_neg (by simp)]
  show tget 0 (tset 0 s.showStores.owners frame.toNat o) k = _
  rw [ho, tget_tset]
  rfl

theorem setOwner_pkg (o : BitVec 16) (frame : BitVec 36) (s : State) : (s.setOwner o frame).pkg = s.pkg := by
  unfold State.setOwner
  split
  · rfl
  · exact (showStores_keeps s).2

theorem setOwner_dirty {o : BitVec 16} {frame : BitVec 36} (hf : frame.toNat * 65536 < 2 ^ 40) {s : State}
    (hb : ∀ n, (s.hartAt n).sbuf = []) (d : Dirty) :
    d ∈ (s.setOwner o frame).dirty ↔ d ∈ s.dirty ∧ d.pline / 512 ≠ frame.toNat := by
  rw [State.setOwner, isDevice_frame hf, if_neg (by simp), showStores_of_none hb]
  simp [State.cleanIf]

/-- A copied line of the migrating frame reads as its source did, and no other byte changes. -/
theorem rawByte_copyLine (i : Nat) (s : State) (a : Nat) :
    (copyLine i s).rawByte a = if a / 128 = s.pkg.movDst.toNat * 512 + i
      then s.rawByte ((s.pkg.movSrc.toNat * 512 + i) * 128 + a % 128) else s.rawByte a := by
  show tget 0 (tsets 0 s.mem ((s.pkg.movDst.toNat * 512 + i) * 128)
    ((List.range 128).map fun j => s.rawByte ((s.pkg.movSrc.toNat * 512 + i) * 128 + j))) a = _
  rw [tget_tsets, List.length_map, List.length_range]
  by_cases h : a / 128 = s.pkg.movDst.toNat * 512 + i
  · obtain ⟨j, hj, rfl⟩ : ∃ j < 128, a = (s.pkg.movDst.toNat * 512 + i) * 128 + j := ⟨a % 128, by omega, by omega⟩
    rw [if_pos h, if_pos (by omega), Nat.add_sub_cancel_left, List.getD_eq_getElem _ _ (by simpa using hj), List.getElem_map,
      List.getElem_range, show ((s.pkg.movDst.toNat * 512 + i) * 128 + j) % 128 = j by omega]
  · rw [if_neg h, if_neg (by omega)]
    rfl

/-! ## Shootdowns (R385) -/

theorem startShootdown_tlb (n : BitVec 32) (s : State) (e : TlbEntry) :
    e ∈ (s.startShootdown n).tlb ↔ e ∈ s.tlb ∧ ¬ (e.pid = s.pkg.tsvaPid ∧ (n = 0 ∨
      (e.va < (s.pkg.tsvaVa.toNat + n.toNat) * 65536 ∧ s.pkg.tsvaVa.toNat * 65536 < e.va + e.size))) := by
  have ht : (s.startShootdown n).tlb = s.tlb.filter fun e => !State.shotEntry { s.pkg with
    sdVa := s.pkg.tsvaVa, sdPid := s.pkg.tsvaPid, sdN := n } e := rfl
  rw [ht, List.mem_filter, Bool.not_eq_true', ← Bool.not_eq_true]
  refine and_congr_right fun _ => not_congr ?_
  simp [State.shotEntry]

theorem endShootdown_pkg (s : State) : s.endShootdown.pkg = { s.pkg with
    tsnBusy := false, fwds := s.pkg.fwds.filter (fun m => !s.pkg.sdEnds.contains m), sdEnds := [] } := by
  rw [← (showStores_keeps s).2]
  rfl

theorem endShootdown_mem {s : State} (hb : ∀ n, (s.hartAt n).sbuf = []) : s.endShootdown.mem = s.mem := by
  show s.showStores.mem = s.mem
  rw [showStores_of_none hb]

/-- No lease is left in the range of a shootdown that has completed (R386). -/
theorem endShootdown_leases {s : State} {l : Launch} (hl : l ∈ s.endShootdown.launches) {p : Nat} (hp : p ∈ l.leases) :
    State.covers s.pkg l.pid p = false := by
  have hpkg := (showStores_keeps s).2
  obtain ⟨l0, -, rfl⟩ := List.mem_map.1 hl
  rw [← hpkg]
  simpa using (List.mem_filter.1 hp).2

/-! ## Zeroing a frame (R436) -/

/-- Where no migration is in progress or forwarded, a line of a frame lies in that frame. -/
theorem holdsLine_iff {s : State} (hm : s.pkg.migFwd = false) (hf : s.pkg.fwds = []) (frame line : Nat) :
    s.holdsLine frame line = decide (line / 512 = frame) := by
  rw [State.holdsLine, State.forward_of_not_fwd hm hf, Bool.eq_iff_iff, beq_iff_eq, decide_eq_true_iff]
  omega

theorem clearFrame_poison {s : State} (hm : s.pkg.migFwd = false) (hf : s.pkg.fwds = []) {frame l : Nat}
    (hl : l ∈ (s.clearFrame frame).poison) : l / 512 ≠ frame := by
  have h := (List.mem_filter.1 hl).2
  rw [holdsLine_iff hm hf] at h
  simpa using h

theorem clearFrame_byte {s : State} (hm : s.pkg.migFwd = false) (hf : s.pkg.fwds = []) (frame a : Nat) :
    (s.clearFrame frame).byte a = if a / 65536 = frame then 0 else s.byte a := by
  have hline (k : Nat) : s.holdsLine frame (k / 128) = decide (k / 65536 = frame) := by
    rw [holdsLine_iff hm hf, Nat.div_div_eq_div_mul]
  rw [State.byte, State.byte, State.forward_of_not_fwd hm hf, State.forward_of_not_fwd (s := s.clearFrame frame) hm hf]
  show tget 0 (s.mem.filter fun c => !s.holdsLine frame (c.1 / 128)) a = _
  by_cases ha : a / 65536 = frame
  · rw [if_pos ha]
    refine tget_absent 0 _ _ fun p hp he => ?_
    have h := (List.mem_filter.1 hp).2
    rw [he, hline, ha] at h
    simp at h
  · rw [if_neg ha]
    exact tget_filter 0 (fun k => !s.holdsLine frame (k / 128)) s.mem a (by simp [hline, ha])

/-! ## eport and atlr (R274, R299) -/

/-- A port pair whose engine changes holds no partly pushed word, once the changes have been gone through up to it. -/
theorem foldl_dropPart {same : Nat → Prop} [DecidablePred same] {k : Nat} (hk : ¬ same k) (l : List Nat) :
    ∀ h : Hart, k ∈ l ∨ (h.port k).part = [] →
      ((l.foldl (fun (h' : Hart) j => if same j then h' else h'.modPort j fun p => { p with part := [] }) h).port k).part =
        [] := by
  induction l with
  | nil => exact fun h hp => hp.resolve_left List.not_mem_nil
  | cons j l ih =>
    intro h hp
    have hset : ((h.modPort j fun p => { p with part := [] }).port k).part = if k = j then [] else (h.port k).part := by
      show (tget Port.reset (tset Port.reset h.ports j _) k).part = _
      rw [tget_tset]
      split <;> rfl
    refine ih _ ?_
    dsimp only
    by_cases hj : k = j
    · rw [if_neg (hj ▸ hk), hset, if_pos hj]
      exact .inr rfl
    · refine (hp.imp_left fun hm => (List.mem_cons.1 hm).resolve_left hj).imp_right fun h0 => ?_
      split
      · exact h0
      · rw [hset, if_neg hj]; exact h0

theorem writeEport_part (v : Word) (s : State) {k : Nat} (hk : k < 8) (hne : byteOf s.hart.eport k ≠ byteOf v k) :
    ((s.writeEport v).hart.port k).part = [] :=
  foldl_dropPart (same := fun j => byteOf s.hart.eport j = byteOf v j) hne (List.range 8) s.hart
    (.inl (List.mem_range.2 hk))

/-- After a reread no command of the focused hart waits for its page list. -/
theorem rereadLists_stalled (s : State) (k : Nat) : ∀ c ∈ (s.rereadLists.hart.port k).cmds, c.stalled = false := by
  intro c hc
  rcases tget_eq_or_mem Port.reset s.rereadLists.hart.ports k with h | h
  · rw [Hart.port, h] at hc
    cases hc
  · obtain ⟨p, -, hp⟩ := List.mem_map.1 h
    have hk : (s.rereadLists.hart.port k).cmds = p.2.cmds.map fun c => { c with stalled := false } :=
      (congrArg (fun x : Nat × Port => x.2.cmds) hp).symm
    rw [hk] at hc
    obtain ⟨c0, -, rfl⟩ := List.mem_map.1 hc
    rfl

/-! ## The clauses -/

section
variable (s : State)

theorem shootdown_idle (n : BitVec 32) :
    (s.pkg.tsnBusy = true → exec (.shootdown n) s = .next s) ∧
      (s.pkg.tsnBusy = false → exec (.shootdown n) s = .next (s.startShootdown n)) :=
  ⟨fun hb => congrArg Host.Outcome.next (if_pos hb), fun hb => congrArg Host.Outcome.next (if_neg (by simp [hb]))⟩

theorem migrationStart_eq (src : BitVec 36) (hb : s.pkg.migBusy = false) :
    exec (.migrationStart src) s = .next { s with
      pkg := if s.owner src.toNat = s.owner s.pkg.migDst.toNat then
        { s.pkg with migSrc := src, migErr := false, migBusy := true, migDone := 0, migFwd := true, movSrc := src
                     movDst := s.pkg.migDst, moves := s.pkg.moves ++ [(src.toNat, s.pkg.migDst.toNat)] }
        else { s.pkg with migSrc := src, migErr := true } } := by
  refine congrArg Host.Outcome.next ?_
  rw [State.startMigration, if_neg (by simp [hb])]
  by_cases ho : s.owner src.toNat = s.owner s.pkg.migDst.toNat
  · rw [if_neg (not_not.2 ho), if_pos ho]; rfl
  · rw [if_pos ho, if_neg ho]; rfl

/-- The next line of a migration is copied, and the last one ends it (R390). -/
theorem migrationLineCopy_next (hb : s.pkg.migBusy = true)
    (hs : s.rangeHeld ((s.pkg.movSrc.toNat * 512 + s.pkg.migDone) * 128) 128 = false)
    (hd : s.rangeHeld ((s.pkg.movDst.toNat * 512 + s.pkg.migDone) * 128) 128 = false) :
    let t := (copyLine s.pkg.migDone s).modPkg fun p => { p with migDone := s.pkg.migDone + 1 }
    exec .migrationLineCopy s = .next (if s.pkg.migDone + 1 < 512 then t else t.endMigration) := by
  intro t
  have haddr (f : BitVec 36) : f.toNat * 65536 + s.pkg.migDone * 128 = (f.toNat * 512 + s.pkg.migDone) * 128 := by ring
  refine congrArg (fun r : Option State => Host.Outcome.next (r.getD s)) (if_neg ?_)
  simp only [haddr, hb, hs, hd]
  decide

theorem shootdownComplete_eq (hb : s.pkg.tsnBusy = true) : exec .shootdownComplete s = .next s.endShootdown :=
  congrArg (fun r : Option State => Host.Outcome.next (r.getD s)) (if_pos hb)

theorem writeFown_pkg (o : BitVec 16) (frame : BitVec 36) :
    (s.writeFown false o frame).pkg = { s.pkg with fownFrame := frame, fownOwner := o } :=
  congrArg (fun p : Pkg => { p with fownFrame := frame, fownOwner := o }) (setOwner_pkg o frame s)

theorem fownRead_eq {frame : BitVec 36} (hf : frame.toNat * 65536 < 2 ^ 40) :
    exec (.fownRead frame) s = .next { s with pkg := { s.pkg with
      fownFrame := frame, fownOwner := s.owner frame.toNat } } := by
  show Host.Outcome.next (s.modPkg fun p => { p with
    fownFrame := frame
    fownOwner := if isDevice (frame.toNat * 65536) then s.owner frame.toNat else p.fownOwner }) = _
  simp only [isDevice_frame hf, if_true]
  rfl

theorem partitionGroupWrite_refused (core : Nat) (high : Bool) (v : Word) :
    let new : Core := if high then { s.coreAt core with pgrph := v } else { s.coreAt core with pgrpl := v }
    State.blocksOk new = false → exec (.partitionGroupWrite core high v) s = .next s := by
  intro new hno
  have hb : (!State.blocksOk new) = true := by rw [hno]; rfl
  exact congrArg Host.Outcome.next (if_pos hb)

theorem writePhart_phart (core : Nat) (v : Word) : ((s.writePhart core v).coreAt core).phart = v := by
  rw [State.writePhart, State.coreAt_modCore, if_pos rfl]

theorem writeSgate_sgate (core : Nat) (v : Word) : ((s.writeSgate core v).coreAt core).sgate = v := by
  rw [State.writeSgate, State.coreAt_modCore, if_pos rfl]

/-- crown reads back what was written, and a new owner finds the registers zero (R265). -/
theorem writeCrown_clusterAt (cluster : Nat) (en : Bool) (p : Byte) :
    let c := s.clusterAt cluster
    let c' := (s.writeCrown cluster en p).clusterAt cluster
    c'.crEn = en ∧ c'.crPid = p ∧ ((c.crEn ≠ en ∨ c.crPid ≠ p) → c'.sem = 0 ∧ c'.cr = []) := by
  intro c c'
  have hc : c' = if c.crEn = en && c.crPid = p then c else { c with crEn := en, crPid := p, sem := 0, cr := [] } := by
    rw [show c' = _ from State.clusterAt_modCluster cluster cluster _ s, if_pos rfl]
  rw [hc]
  by_cases hsame : c.crEn = en ∧ c.crPid = p
  · rw [if_pos (by simpa using hsame)]
    exact ⟨hsame.1, hsame.2, fun h => absurd hsame (by tauto)⟩
  · rw [if_neg (by simpa using hsame)]
    exact ⟨rfl, rfl, fun _ => ⟨rfl, rfl⟩⟩

theorem bankWake_eq (core : Nat) {bank : Nat} (hbank : bank < 64) (hoff : (s.coreAt core).sgate.getLsbD bank = false) :
    exec (.bankWake core bank) s = .next (s.modCore core fun c => { c with sgate := c.sgate ||| 1#64 <<< bank }) := by
  refine congrArg (fun r : Option State => Host.Outcome.next (r.getD s)) (if_neg ?_)
  rw [hoff]
  simpa using hbank

theorem rpoisGo_eq {frame : BitVec 36} (hf : frame.toNat * 65536 < 2 ^ 40) :
    exec (.rpoisGo frame) s =
      .next ((s.modPkg fun p => { p with rpoisFrame := frame }).clearFrame frame.toNat) := by
  have hx : exec (.rpoisGo frame) s = .next (s.writeRpois true frame) := rfl
  rw [hx, State.writeRpois, isDevice_frame hf, Bool.true_and, if_pos rfl]

/-- A write of eport changes the slot of its hart alone. -/
theorem hartAt_eportWrite (h : Nat) (v : Word) :
    (s.atHart h (State.writeEport v)).hartAt h = ((s.focus h).writeEport v).hart := by
  rw [hartAt_atHart rfl rfl, if_pos rfl]

/-- The copy of a line leaves the package registers, and the end of a migration adds its forwarding. -/
theorem copied_pkg :
    let t := (copyLine s.pkg.migDone s).modPkg fun p => { p with migDone := s.pkg.migDone + 1 }
    (if s.pkg.migDone + 1 < 512 then t else t.endMigration).pkg =
      (if s.pkg.migDone + 1 < 512 then { s.pkg with migDone := s.pkg.migDone + 1 }
        else { s.pkg with migDone := s.pkg.migDone + 1, migBusy := false, migFwd := false
                          fwds := s.pkg.fwds ++ [(s.pkg.movSrc.toNat, s.pkg.movDst.toNat)] }) := by
  intro t
  split <;> rfl

theorem copied_rawByte (a : Nat) :
    let t := (copyLine s.pkg.migDone s).modPkg fun p => { p with migDone := s.pkg.migDone + 1 }
    (if s.pkg.migDone + 1 < 512 then t else t.endMigration).rawByte a =
      if a / 128 = s.pkg.movDst.toNat * 512 + s.pkg.migDone
        then s.rawByte ((s.pkg.movSrc.toNat * 512 + s.pkg.migDone) * 128 + a % 128) else s.rawByte a := by
  intro t
  rw [← rawByte_copyLine]
  split <;> rfl

end

/-- Settles O57: each event is the model's operation, of which the lemmas above say what it changes. -/
theorem fabricWrites : Obligations.FabricWrites := by
  unfold Obligations.FabricWrites
  intro s core v noneLate
  have hpid : v.extractLsb' 0 8 = v.setWidth 8 := by
    ext i hi
    simp
  refine ⟨fun n => ⟨(shootdown_idle s n).1, fun hb => ⟨_, (shootdown_idle s n).2 hb, rfl, rfl, startShootdown_tlb n s⟩⟩,
    fun hb => ⟨_, shootdownComplete_eq s hb, ?_, endShootdown_mem, fun m => ?_, fun l hl p => endShootdown_leases hl⟩,
    fun o frame hf => ⟨⟨_, rfl, owner_setOwner hf s, writeFown_pkg s o frame,
      fun hn => ⟨setOwner_mem o frame hn, setOwner_dirty hf hn⟩⟩, fownRead_eq s hf⟩,
    migrationStart_eq s, fun hb hs hd => ⟨_, migrationLineCopy_next s hb hs hd, copied_pkg s, copied_rawByte s⟩,
    fun high => ⟨partitionGroupWrite_refused s core high v, fun hok => ?_⟩,
    ⟨_, rfl, writePhart_phart s core v, (staysPut_writePhart core v s).mem⟩,
    fun cluster => ⟨_, rfl, hpid ▸ writeCrown_clusterAt s cluster (v.getLsbD 8) (v.extractLsb' 0 8)⟩,
    ⟨_, rfl, writeSgate_sgate s core v, writeSgate_mem core v s⟩, fun bank => bankWake_eq s core, fun w => rfl,
    fun frame hf hm hfw => ⟨_, rpoisGo_eq s hf, fun l => clearFrame_poison hm hfw, clearFrame_byte hm hfw frame.toNat⟩,
    fun h => ⟨_, rfl, ?_, fun k hk hne => ?_⟩, _, rfl, rfl, rereadLists_stalled s⟩
  · rw [endShootdown_pkg]
  · rw [endShootdown_pkg]
    simp
  · have hp := groupPids_writePgrp core high v s hok
    exact ⟨_, rfl, congrArg Prod.fst hp, congrArg Prod.snd hp, writePgrp_mem core high v⟩
  · rw [hartAt_eportWrite]
    rfl
  · rw [hartAt_eportWrite]
    exact writeEport_part v _ hk (by rwa [focus_hart])

end Sys2Proof.Proofs
end


section
/-! PROOFS. The engines' accesses (R278), and what an event of an engine does to the commands of its pair (R275 to R277). -/

namespace Sys2Proof.Proofs

open Sys2Proof.Machine Sys2Proof.Safety

/-! ## Writes part by part -/

/-- Perform the parts of a write by f, each with its share of the bytes. -/
def putParts (f : Chunk → List Byte → State → State) : List Chunk → List Byte → State → State
  | [], _, s => s
  | c :: cs, bs, s => putParts f cs (bs.drop c.n) (f c (bs.take c.n) s)

/-- A step that, in states of a kind which it keeps, makes the bytes of its part read w. -/
structure PutsPart (P : State → Prop) (f : Chunk → List Byte → State → State) : Prop where
  keeps : ∀ {c w s}, P s → P (f c w s)
  byte : ∀ {c w s a}, P s → (f c w s).byte a = if c.pa ≤ a ∧ a < c.pa + w.length then w.getD (a - c.pa) 0 else s.byte a

section
variable {P : State → Prop} {f : Chunk → List Byte → State → State} (hf : PutsPart P f)
include hf

theorem byte_putParts_outside {a : Nat} (cs : List Chunk) : ∀ (bs : List Byte) {s : State}, P s → Outside cs a →
    (putParts f cs bs s).byte a = s.byte a := by
  induction cs with
  | nil => exact fun _ _ _ _ => rfl
  | cons c cs ih =>
    intro bs s h ho
    obtain ⟨hc, hcs⟩ := List.forall_mem_cons.1 ho
    have hlen := List.length_take_le c.n bs
    rw [putParts, ih _ (hf.keeps h) hcs, hf.byte h, if_neg (by omega)]

/-- Parts that do not overlap read back as the bytes written. -/
theorem bytes_putParts (cs : List Chunk) : ∀ (bs : List Byte) {s : State}, P s → cs.Pairwise Apart →
    (cs.map Chunk.n).sum = bs.length → (cs.flatMap fun c => (putParts f cs bs s).bytes c.pa c.n) = bs := by
  induction cs with
  | nil => exact fun bs _ _ _ hn => (List.length_eq_zero_iff.1 hn.symm).symm
  | cons c cs ih =>
    intro bs s h hp hn
    obtain ⟨hc, hcs⟩ := List.pairwise_cons.1 hp
    rw [List.map_cons, List.sum_cons] at hn
    have hlen : (bs.take c.n).length = c.n := by rw [List.length_take]; omega
    have hhead : (putParts f (c :: cs) bs s).bytes c.pa c.n = bs.take c.n := by
      refine List.ext_getElem (by rw [hlen]; simp [State.bytes]) fun i hi hi' => ?_
      have hin : i < c.n := by simpa [State.bytes] using hi
      simp only [State.bytes, List.getElem_map, List.getElem_range]
      rw [putParts, byte_putParts_outside hf cs _ (hf.keeps h) (outside_of_apart hc hin), hf.byte h,
        if_pos ⟨by omega, by omega⟩, Nat.add_sub_cancel_left, List.getD_eq_getElem _ _ hi']
    rw [List.flatMap_cons, hhead, putParts, ih _ (hf.keeps h) hcs (by rw [List.length_drop]; omega), List.take_append_drop]

end

/-- What a write leaves of every part that a step of it leaves. -/
theorem putParts_keeps {γ : Type} (g : State → γ) {f : Chunk → List Byte → State → State}
    (hf : ∀ c w s, g (f c w s) = g s)
    (cs : List Chunk) : ∀ (bs : List Byte) (s : State), g (putParts f cs bs s) = g s := by
  induction cs with
  | nil => exact fun _ _ => rfl
  | cons c cs ih => exact fun bs s => (ih _ _).trans (hf c _ s)

/-! ## Checked accesses of an engine (R278) -/

/-- No frame moves. -/
def Settled (s : State) : Prop := s.pkg.migFwd = false ∧ s.pkg.fwds = []

theorem Settled.of_pkg {s t : State} (h : Settled s) (hp : t.pkg = s.pkg) : Settled t := by rwa [Settled, hp]

/-- What holds of every context, without what the launches hold. -/
def tenants (s : State) : Nat × Hart × List (Nat × Hart) × List Saved × List (Nat × Hart) :=
  (s.cur, s.hart, s.others, s.saved, s.orphans)

theorem tenants_of_contexts {s t : State} (h : contexts t = contexts s) : tenants t = tenants s :=
  congrArg (fun x : Contexts => (x.cur, x.hart, x.others, x.saved, x.orphans)) h

/-- The step by which an engine writes a part. -/
def enginePart (local_ : Bool) (launch : Option Word) (c : Chunk) (w : List Byte) (s : State) : State :=
  (if local_ && c.attr = 0 then s.write c.pa w (BitVec.allOnes 28) else s.writeDev c.pa w).markFrame launch c.pa

theorem putChunks_eq (local_ : Bool) (launch : Option Word) (cs : List Chunk) : ∀ (bs : List Byte) (s : State),
    putChunks local_ launch cs bs s = putParts (enginePart local_ launch) cs bs s := by
  induction cs with
  | nil => exact fun _ _ => rfl
  | cons c cs ih => exact fun bs s => ih _ _

theorem byte_writeDev {s : State} (h : Settled s) (pa a : Nat) (bs : List Byte) :
    (s.writeDev pa bs).byte a = if pa ≤ a ∧ a < pa + bs.length then bs.getD (a - pa) 0 else s.byte a := by
  have hp := State.patchHome_pkg pa bs s
  have h' := h.of_pkg hp
  rw [State.writeDev, State.byte_write, byte_putBytes h'.1 h'.2, byte_congr (State.patchHome_mem pa bs s) hp]

theorem enginePart_frame (local_ : Bool) (launch : Option Word) (c : Chunk) (w : List Byte) (s : State) :
    tenants (enginePart local_ launch c w s) = tenants s ∧ (enginePart local_ launch c w s).pkg = s.pkg := by
  have hmark (u : State) : tenants (u.markFrame launch c.pa) = tenants u := by
    unfold State.markFrame
    repeat' split
    all_goals rfl
  have hwrite : contexts (if local_ && c.attr = 0 then s.write c.pa w (BitVec.allOnes 28) else s.writeDev c.pa w) =
      contexts s := by
    split
    · exact contexts_write _ _ _ s
    · exact contexts_writeDev _ _ s
  exact ⟨(hmark _).trans (tenants_of_contexts hwrite), (markFrame_mem_pkg launch c.pa _).2.trans (congrArg Contexts.pkg hwrite)⟩

theorem putsPart_enginePart (local_ : Bool) (launch : Option Word) : PutsPart Settled (enginePart local_ launch) where
  keeps h := h.of_pkg (enginePart_frame _ _ _ _ _).2
  byte {c w s a} h := by
    obtain ⟨hm, hp⟩ := markFrame_mem_pkg launch c.pa
      (if local_ && c.attr = 0 then s.write c.pa w (BitVec.allOnes 28) else s.writeDev c.pa w)
    rw [enginePart, byte_congr hm hp]
    split
    · rw [State.byte_write, byte_putBytes h.1 h.2]
    · exact byte_writeDev h c.pa a w

variable {j : Job} {s u : State}

/-- An engine's access to the stashes changes neither contexts nor bytes. -/
theorem stash_frame (acc : Acc) (store : Bool) :
    contexts (j.stash acc store s) = contexts s ∧ (j.stash acc store s).mem = s.mem := by
  unfold Job.stash
  split
  · have hstep {γ : Type} (g : State → γ) (hs : ∀ c u, g (State.soilChunk j.agent.holder c [] u) = g u)
        (ht : ∀ c u, g (State.touch j.agent.holder c u) = g u) (u : State) (c : Chunk) :
        g (if store then u.soilChunk j.agent.holder c [] else u.touch j.agent.holder c) = g u := by
      split
      · exact hs c u
      · exact ht c u
    exact ⟨(foldl_keeps contexts _ (hstep contexts (fun c u => contexts_soilChunk _ c _ u) fun c u => contexts_touch _ c u)
      _ _).trans (contexts_keep _ s),
      (foldl_keeps State.mem _ (hstep State.mem (fun c u => soilChunk_mem _ c _ u) fun c u => touch_mem _ c u) _ _).trans
        (keep_mem _ s)⟩
  · exact ⟨contexts_keep _ s, keep_mem _ s⟩

theorem refusal_not_ok {α : Type} (t : Trap) (a : α) : (j.refusal t : Ans α) ≠ .ok a := by
  intro h
  unfold Job.refusal at h
  repeat' split at h
  all_goals cases h

theorem check_of_jobCheck {va : Word} {n : Nat} {kind : Kind} {al : Bool} {acc : Acc} (h : j.check va n kind al s = .ok acc) :
    s.check j.agent ⟨va, n, kind, true, al⟩ = .ok acc := by
  unfold Job.check at h
  split at h
  · next hc => cases h; exact hc
  · exact absurd h (refusal_not_ok _ _)

/-- A read of an engine passes the check, and gives the bytes at the checked address. -/
theorem read_ok {va : Word} {n : Nat} {b : List Byte} (h : j.read va n s = .ok (b, u)) :
    ∃ acc, s.check j.agent ⟨va, n, .load, true, false⟩ = .ok acc ∧ b = s.bytesAt acc ∧ u = j.stash acc false s := by
  obtain ⟨acc, hc, hu⟩ := Ans.bind_ok h
  cases hu
  exact ⟨acc, check_of_jobCheck hc, rfl, rfl⟩

theorem write_ok {va : Word} {bs : List Byte} {al : Bool} {w : List (Nat × Nat)} (h : j.write va bs al s = .ok (w, u)) :
    ∃ acc, s.check j.agent ⟨va, bs.length, .store, true, al⟩ = .ok acc ∧ w = s.extents acc ∧ u = j.put acc bs s := by
  obtain ⟨acc, hc, hu⟩ := Ans.bind_ok h
  cases hu
  exact ⟨acc, check_of_jobCheck hc, rfl, rfl⟩

theorem read_length {va : Word} {n : Nat} {b : List Byte} (h : j.read va n s = .ok (b, u)) : b.length = n := by
  obtain ⟨acc, hc, rfl, -⟩ := read_ok h
  rw [State.bytesAt, List.length_flatMap]
  simpa [State.bytes] using check_lengths hc

theorem read_frame {va : Word} {n : Nat} {b : List Byte} (h : j.read va n s = .ok (b, u)) :
    tenants u = tenants s ∧ u.mem = s.mem := by
  obtain ⟨acc, -, -, rfl⟩ := read_ok h
  obtain ⟨hc, hm⟩ := stash_frame (j := j) (s := s) acc false
  exact ⟨tenants_of_contexts hc, hm⟩

theorem write_frame {va : Word} {bs : List Byte} {al : Bool} {w : List (Nat × Nat)} (h : j.write va bs al s = .ok (w, u)) :
    tenants u = tenants s := by
  obtain ⟨acc, -, -, rfl⟩ := write_ok h
  rw [Job.put, putChunks_eq, putParts_keeps tenants fun _ _ _ => (enginePart_frame _ _ _ _ _).1]
  exact tenants_of_contexts (stash_frame acc true).1

/-- A checked write of an engine stores its bytes, and changes no other byte. -/
theorem put_bytes (h : Settled s) {acc : Acc} (hp : acc.chunks.Pairwise Apart) {bs : List Byte}
    (hn : (acc.chunks.map Chunk.n).sum = bs.length) :
    (j.put acc bs s).bytesAt acc = bs ∧ ∀ a, Outside acc.chunks a → (j.put acc bs s).byte a = s.byte a := by
  obtain ⟨hc, hm⟩ := stash_frame (j := j) (s := s) acc true
  have hpkg : (j.stash acc true s).pkg = s.pkg := congrArg Contexts.pkg hc
  have hf := putsPart_enginePart j.local_ j.agent.launch
  rw [Job.put, putChunks_eq]
  exact ⟨bytes_putParts hf _ bs (h.of_pkg hpkg) hp hn,
    fun a ho => (byte_putParts_outside hf _ bs (h.of_pkg hpkg) ho).trans (byte_congr hm hpkg a)⟩

/-! ## The context that an event names -/

theorem ctxOf_congr {s t : State} (h : tenants t = tenants s) (n : Nat) : ctxOf t n = ctxOf s n := by
  simp only [tenants, Prod.mk.injEq] at h
  obtain ⟨hcur, hhart, hothers, hsaved, horphans⟩ := h
  rw [ctxOf, ctxOf, State.hartAt, State.hartAt, hcur, hhart, hothers, hsaved, horphans]

theorem hartAt_modHart (n : Nat) (f : Hart → Hart) (s : State) : (s.modHart n f).hartAt n = f (s.hartAt n) := by
  rw [State.modHart, hartAt_atHart rfl rfl, if_pos rfl, State.onH_hart, focus_hart]

theorem modCtx_mem (h : Nat) (f : Hart → Hart) (s : State) : (modCtx h f s).mem = s.mem := by
  unfold modCtx
  split
  · exact (focus_frame s.cur _).2.2.2.trans (focus_frame h s).2.2.2
  · split <;> rfl

/-- The changed context stands where the event's number names it. -/
theorem ctxOf_modCtx {h n : Nat} {x : Hart} {s : State} (hx : ctxOf s h = some (n, x)) {f : Hart → Hart}
    (hf : (f x).run = x.run) : ctxOf (modCtx h f s) h = some (n, f x) := by
  by_cases hs : h < slotCount
  · rw [ctxOf, if_pos hs] at hx ⊢
    dsimp only at hx ⊢
    split at hx
    · cases hx
    · next hr =>
      cases hx
      rw [modCtx, if_pos hs, hartAt_modHart, if_neg (by rwa [hf])]
  · rw [ctxOf, if_neg hs] at hx ⊢
    rw [modCtx, if_neg hs]
    by_cases he : (h - slotCount) % 2 = 0
    · rw [if_pos he] at hx ⊢
      obtain ⟨c, hc, hcx⟩ := Option.map_eq_some_iff.1 hx
      cases hcx
      rw [if_pos he]
      simp [hc]
    · rw [if_neg he] at hx ⊢
      rw [if_neg he]
      simp [hx]

theorem modify_congr {α : Type} {l : List α} {i : Nat} {c : α} (hc : l[i]? = some c) {f g : α → α} (hfg : f c = g c) :
    l.modify i f = l.modify i g := by
  refine List.ext_getElem? fun k => ?_
  rw [List.getElem?_modify, List.getElem?_modify]
  split
  · next hk => rw [← hk, hc]; exact congrArg some hfg
  · rfl

/-- Changes that agree on the context give the same state. -/
theorem modCtx_congr {h n : Nat} {x : Hart} {s : State} (hx : ctxOf s h = some (n, x)) {f g : Hart → Hart} (hfg : f x = g x) :
    modCtx h f s = modCtx h g s := by
  by_cases hs : h < slotCount
  · have hh : s.hartAt h = x := by
      rw [ctxOf, if_pos hs] at hx
      dsimp only at hx
      split at hx <;> cases hx
      rfl
    have hfoc : State.onH f (s.focus h) = State.onH g (s.focus h) := by
      rw [State.onH, State.onH, focus_hart, hh, hfg]
    rw [modCtx, if_pos hs, modCtx, if_pos hs, State.modHart, State.atHart, hfoc]
    rfl
  · rw [ctxOf, if_neg hs] at hx
    rw [modCtx, if_neg hs, modCtx, if_neg hs]
    by_cases he : (h - slotCount) % 2 = 0
    · rw [if_pos he] at hx ⊢
      obtain ⟨c, hc, hcx⟩ := Option.map_eq_some_iff.1 hx
      cases hcx
      rw [if_pos he, modify_congr hc (f := fun c => { c with hart := f c.hart }) (g := fun c => { c with hart := g c.hart })
        (by rw [hfg])]
    · rw [if_neg he] at hx ⊢
      rw [if_neg he, modify_congr hx (f := fun p => (p.1, f p.2)) (g := fun p => (p.1, g p.2)) (by rw [hfg])]

/-! ## The commands of a pair (R275 to R277) -/

theorem port_modPort (k : Nat) (f : Port → Port) (x : Hart) : (x.modPort k f).port k = f (x.port k) := by
  show tget Port.reset (tset Port.reset x.ports k (f (x.port k))) k = _
  rw [tget_tset, if_pos rfl]

theorem mem_modNth {p : Cmd → Bool} (f : Cmd → Cmd) {c : Cmd} (l : List Cmd) : ∀ {n : Nat}, (l.filter p)[n]? = some c →
    f c ∈ modNth p f n l := by
  induction l with
  | nil => intro n h; simp at h
  | cons d l ih =>
    intro n h
    cases hp : p d with
    | false =>
      rw [List.filter_cons_of_neg (by simp [hp])] at h
      rw [modNth.eq_def]
      dsimp only
      rw [if_pos (by simp [hp])]
      exact List.mem_cons_of_mem _ (ih h)
    | true =>
      rw [List.filter_cons_of_pos hp] at h
      rw [modNth.eq_def]
      dsimp only
      rw [if_neg (by simp [hp])]
      cases n with
      | zero =>
        obtain rfl : d = c := Option.some.inj h
        exact List.mem_cons_self
      | succ n => exact List.mem_cons_of_mem _ (ih h)

/-- A command's number among those that have completed is all that settling a port changes of it. -/
theorem mem_settle {p : Port} {c : Cmd} (hc : c ∈ p.cmds) : ∃ fin, { c with fin := fin } ∈ p.settle.cmds := by
  refine ⟨if c.over && c.fin.isNone then some p.fins else c.fin, List.mem_map.2 ⟨c, hc, ?_⟩⟩
  split <;> rfl

/-- An event of the engine changes the command that it works on, and leaves it in its context's port. -/
theorem modJob_changes {ok : Cmd → Bool} {h k n : Nat} {x : Hart} {c : Cmd} {s : State} (hx : ctxOf s h = some (n, x))
    (hc : (x.port k).job ok = some c) (f : Cmd → Cmd) :
    ∃ y fin, ctxOf (modJob ok h k f s) h = some (n, y) ∧ { f c with fin := fin } ∈ (y.port k).cmds := by
  obtain ⟨fin, hfin⟩ := mem_settle (p := { x.port k with cmds := modNth ok f ((x.port k).workOn ok) (x.port k).cmds })
    (mem_modNth f _ hc)
  exact ⟨_, fin, ctxOf_modCtx hx rfl, by rwa [port_modPort]⟩

/-- What is known of the command at work. -/
theorem jobAt_spec {h k : Nat} {s : State} {e : Engine} {j : Job} (hj : jobAt h k s = some (e, j)) :
    ∃ n x, ctxOf s h = some (n, x) ∧ (x.port k).job Cmd.live = some j.cmd ∧ j.h = h ∧ j.k = k ∧
      engineOf j.cmd.tgt x.rank.toNat = some e := by
  unfold jobAt at hj
  split at hj
  · cases hj
  next n x hx =>
  split at hj
  · cases hj
  next c hc =>
  split at hj
  · cases hj
  next e' he =>
  split at hj
  · cases hj
    exact ⟨n, x, hx, hc, rfl, rfl, he⟩
  · cases hj

theorem live_of_jobAt {h k : Nat} {s : State} {e : Engine} {j : Job} (hj : jobAt h k s = some (e, j)) :
    j.cmd.outcome = none := by
  obtain ⟨n, x, -, hc, -⟩ := jobAt_spec hj
  have hm := (List.mem_filter.1 (List.mem_of_getElem? hc)).2
  simpa [Cmd.live] using hm

/-- An event of the engine, in a state with the same contexts, leaves the changed command in its port. -/
theorem modCmd_ended {h k : Nat} {s t : State} {e : Engine} {j : Job} (hj : jobAt h k s = some (e, j))
    (ht : tenants t = tenants s) (f : Cmd → Cmd) (hseq : (f j.cmd).seq = j.cmd.seq) {p : Cmd → Prop}
    (hp : ∀ fin, p { f j.cmd with fin := fin }) :
    ∃ n x c, ctxOf (modCmd h k f t) h = some (n, x) ∧ c ∈ (x.port k).cmds ∧ c.seq = j.cmd.seq ∧ p c := by
  obtain ⟨n, x, hx, hc, -⟩ := jobAt_spec hj
  obtain ⟨y, fin, hy, hm⟩ := modJob_changes ((ctxOf_congr ht h).trans hx) hc f
  exact ⟨n, y, _, hy, hm, hseq, hp fin⟩

end Sys2Proof.Proofs
end


section
/-! PROOFS. Events of the copy, indirect-stream, reduction and attention engines (R289 to R299). -/

namespace Sys2Proof.Proofs

open Sys2Proof.Machine Sys2Proof.Safety

/-! ## An event of an engine (R276) -/

theorem opcOf_eq (w : Word) : opcOf w = w.toNat / 256 % 256 := by
  simp [opcOf, byteOf, BitVec.extractLsb'_toNat, Nat.shiftRight_eq_div_pow]

section
variable {h k opc : Nat} {is : Engine → Bool} {ok : Cmd → Bool} {run : Job → State → Option State} {s : State} {e : Engine}
  {j : Job} (hj : jobAt h k s = some (e, j))
include hj

/-- A command that the engine does not accept ends with STATUS 1. -/
theorem engineEvent_refused (his : is e = true) (ha : e.accepts ((j.cmd.words.headD 0).toNat / 256 % 256) = false) :
    engineEvent h k opc is ok run s = .next (finish h k 1 0 s) := by
  rw [engineEvent, hj]
  dsimp only
  rw [if_neg (by simp [his]), if_pos (by rw [opcOf_eq, ha]; rfl)]
  rfl

theorem engineEvent_runs (his : is e = true) (ha : e.accepts opc = true)
    (ho : (j.cmd.words.headD 0).toNat / 256 % 256 = opc) (hok : ok j.cmd = true) :
    engineEvent h k opc is ok run s = due s (run j s) := by
  rw [engineEvent, hj]
  dsimp only
  rw [opcOf_eq, ho, if_neg (by simp [his]), if_neg (by simp [ha]), if_neg (by simp), if_neg (by simp [hok])]

end

/-- An engine that has no command to work on does nothing. -/
theorem engineEvent_idle {h k opc : Nat} {is : Engine → Bool} {ok : Cmd → Bool} {run : Job → State → Option State}
    {s : State} (hj : jobAt h k s = none) : engineEvent h k opc is ok run s = .next s := by
  rw [engineEvent, hj]
  rfl

/-! ## Copies (R290) -/

theorem coverNew_frame (ext new : List (Nat × Nat)) (s : State) :
    tenants (coverNew ext new s) = tenants s ∧ (coverNew ext new s).mem = s.mem := by
  unfold coverNew
  split <;> exact ⟨rfl, rfl⟩

section
variable {h k : Nat} {s : State} {e : Engine} {j : Job} (hj : jobAt h k s = some (e, j)) (hcopy : isCopy e = true)
include hj hcopy

theorem copy_runs (ho : (j.cmd.words.headD 0).toNat / 256 % 256 = 1) (hok : copyOk j.cmd = true) (n : Nat) :
    exec (.copy h k n) s = due s (copyBytes j n j.cmd s) := by
  refine engineEvent_runs hj hcopy ?_ ho hok
  cases e <;> simp [isCopy] at hcopy
  rfl

theorem copy_over (ho : (j.cmd.words.headD 0).toNat / 256 % 256 = 1) (hok : copyOk j.cmd = true)
    (hw : j.cmd.total ≤ j.cmd.wp) (n : Nat) : ∃ t, exec (.copy h k n) s = .next t ∧ t.mem = s.mem := by
  have hb : copyBytes j n j.cmd s = some (modCmd j.h j.k (fun _ => { j.cmd with begun := true, outcome := some (0, 0) }) s) := by
    rw [copyBytes.eq_def]
    exact if_pos hw
  exact ⟨_, by rw [copy_runs hj hcopy ho hok, hb]; rfl, modCtx_mem _ _ _⟩

/-- One byte of a copy whose read and whose write pass their checks. -/
theorem copy_byte (ho : (j.cmd.words.headD 0).toNat / 256 % 256 = 1) (hok : copyOk j.cmd = true)
    (hw : j.cmd.wp < j.cmd.total) {b : List Byte} {u v : State} {w : List (Nat × Nat)}
    (hr : j.read (j.cmd.addrs j.cmd.wp).1 1 s = .ok (b, u)) (hwr : j.write (j.cmd.addrs j.cmd.wp).2 b false u = .ok (w, v)) :
    ∃ t, exec (.copy h k 1) s = .next t ∧ t.mem = v.mem ∧ ∃ n x c, ctxOf t h = some (n, x) ∧ c ∈ (x.port k).cmds ∧
      c.seq = j.cmd.seq ∧ c.wp = j.cmd.wp + 1 ∧ c.outcome = if j.cmd.wp + 1 = j.cmd.total then some (0, 0) else none := by
  let ext := addExt j.cmd.ext w
  let c : Cmd := { j.cmd with begun := true, wp := j.cmd.wp + 1, ext := ext }
  have hbyte : copyByte j j.cmd s = .ok (c, coverNew ext w v) := by
    unfold copyByte
    dsimp only
    rw [hr, Ans.bind, hwr]
    rfl
  obtain ⟨-, -, -, -, hh, hk, -⟩ := jobAt_spec hj
  have hframe : tenants (coverNew ext w v) = tenants s :=
    (coverNew_frame _ _ v).1.trans ((write_frame hwr).trans (read_frame hr).1)
  have hstep : copyBytes j 1 j.cmd s = copyBytes j 0 c (coverNew ext w v) := by
    rw [copyBytes.eq_def]
    dsimp only
    rw [if_neg (by omega)]
    rw [hbyte]
  have hlast : copyBytes j 0 c (coverNew ext w v) = some (modCmd h k
      (fun _ => { c with outcome := if j.cmd.wp + 1 = j.cmd.total then some (0, 0) else none }) (coverNew ext w v)) := by
    rw [copyBytes.eq_def, hh, hk]
    dsimp only
    by_cases hend : j.cmd.wp + 1 = j.cmd.total
    · rw [if_pos (show c.total ≤ c.wp from hend.ge), if_pos hend]
    · rw [if_neg (show ¬ c.total ≤ c.wp from fun hle => hend (le_antisymm hw hle)), if_neg hend]
      rw [if_neg (show ¬ c.wp = j.cmd.wp from Nat.succ_ne_self _), ← live_of_jobAt hj]
  refine ⟨_, by rw [copy_runs hj hcopy ho hok, hstep, hlast]; rfl, (modCtx_mem _ _ _).trans (coverNew_frame _ _ v).2,
    modCmd_ended hj hframe _ rfl fun _ => ⟨rfl, rfl⟩⟩

/-- A refused read ends a copy at the byte that its write pointer names. -/
theorem copy_badRead (ho : (j.cmd.words.headD 0).toNat / 256 % 256 = 1) (hok : copyOk j.cmd = true)
    (hw : j.cmd.wp < j.cmd.total) {st : Byte} (hr : j.read (j.cmd.addrs j.cmd.wp).1 1 s = .bad st) :
    ∃ t, exec (.copy h k 1) s = .next t ∧ t.mem = s.mem ∧ ∃ n x c, ctxOf t h = some (n, x) ∧ c ∈ (x.port k).cmds ∧
      c.seq = j.cmd.seq ∧ c.wp = j.cmd.wp ∧ c.outcome = some (st, 0) := by
  have hbyte : copyByte j j.cmd s = .bad st := by
    unfold copyByte
    dsimp only
    rw [hr]
    rfl
  obtain ⟨-, -, -, -, hh, hk, -⟩ := jobAt_spec hj
  have hstep : copyBytes j 1 j.cmd s =
      some (modCmd h k (fun _ => { j.cmd with begun := true, outcome := some (st, 0) }) s) := by
    rw [copyBytes.eq_def]
    dsimp only
    rw [if_neg (by omega)]
    rw [hbyte, hh, hk]
  exact ⟨_, by rw [copy_runs hj hcopy ho hok, hstep]; rfl, modCtx_mem _ _ _, modCmd_ended hj rfl _ rfl fun _ => ⟨rfl, rfl⟩⟩

end

/-- The outcome that an event gives its command stands in the command's port, and changes no byte. -/
theorem finish_ends {h k : Nat} {u : State} {e : Engine} {j : Job} (hj : jobAt h k u = some (e, j)) (st aux : Byte) :
    (finish h k st aux u).mem = u.mem ∧ ∃ n x c, ctxOf (finish h k st aux u) h = some (n, x) ∧ c ∈ (x.port k).cmds ∧
      c.seq = j.cmd.seq ∧ c.outcome = some (st, aux) :=
  ⟨modCtx_mem _ _ _, modCmd_ended hj rfl _ rfl fun _ => rfl⟩

/-! ## Gathers and scatters (R293) -/

theorem indirect_moves {h k : Nat} {s : State} {j : Job} (hj : jobAt h k s = some (.indirect, j))
    (hok : indirectOk j.cmd = true) (scatter : Bool) {σ : Nat → State} {w : Nat → List (Nat × Nat)} {st : Nat → Byte}
    (h0 : σ 0 = s) {n : Nat} (hn : n = (j.cmd.words.getD 2 0).toNat % 2 ^ 32)
    (hm : ∀ e < n, (st e = 0 → MovesElem j scatter e (σ e) (σ (e + 1)) (w e)) ∧
      (st e ≠ 0 → indirectElem j scatter e (σ e) = .bad (st e) ∧ σ (e + 1) = σ e ∧ w e = [])) :
    indirectElems j scatter (j.cmd.field 2 0 32) 0 0 [] s = some (finish h k
      ((((List.range n).map st).find? fun x => x ≠ 0).getD 0) 0 ((σ n).cover (Safety.written w n))) := by
  obtain ⟨-, -, -, -, hh, hk, -⟩ := jobAt_spec hj
  have hlev : j.cmd.field 0 36 2 = 1 ∨ j.cmd.field 0 36 2 = 2 := by
    simp only [indirectOk, Bool.and_eq_true, Bool.or_eq_true, beq_iff_eq] at hok
    exact hok.1.1.1.2
  have hfield : j.cmd.field 2 0 32 = n := by rw [hn, Cmd.field, pow_zero, Nat.div_one]
  have hrun := indirectElems_run (j := j) (scatter := scatter) (σ := σ) (w := w) (st := st) (n := n) 0 0 [] fun e _ he => by
    obtain ⟨hmv, hbad⟩ := hm e (by omega)
    exact ⟨fun h0 => indirectElem_of_movesElem hlev (hmv h0), hbad⟩
  rw [Nat.zero_add, h0, ← List.range_eq_range'] at hrun
  rw [hfield, hrun, hh, hk, List.find?_cons]
  rfl

/-! ## Reductions (R295) -/

theorem leNat_lt (bs : List Byte) : leNat bs < 256 ^ bs.length := by
  induction bs with
  | nil => decide
  | cons b bs ih =>
    have := b.isLt
    rw [leNat, List.length_cons, pow_succ]
    omega

theorem jobReads_lt {j : Job} {n : Nat} {as : List Word} : ∀ {s t : State} {xs : List Nat}, JobReads j n as s xs t →
    ∀ x ∈ xs, x < 256 ^ n := by
  induction as with
  | nil => rintro s t xs ⟨rfl, -⟩ x hx; cases hx
  | cons a as ih =>
    rintro s t xs ⟨b, u, ys, hb, hr, rfl⟩
    refine List.forall_mem_cons.2 ⟨?_, ih hr⟩
    rw [← read_length hb]
    exact leNat_lt b

section
variable {h k : Nat} {s : State} {j : Job} (hj : jobAt h k s = some (.reduction, j))
include hj

/-- A reduction whose accesses all pass their checks writes the sums, and then its flag. -/
theorem reduction_sums (ho : (j.cmd.words.headD 0).toNat / 256 % 256 = 0x20) (hok : reductionOk j.cmd = true) :
    let word (i : Nat) : Word := j.cmd.words.getD i 0
    let size : Nat := if j.cmd.field 0 32 1 = 0 then 4 else 2
    let fmt : Fmt := if j.cmd.field 0 32 1 = 0 then .f32 else .bf16
    let n := (word 2).toNat % 2 ^ 32
    ∀ (bufs : List Nat) (σ u : Nat → State) (xs : Nat → List Nat) (w : Nat → List (Nat × Nat)) wf v,
      JobReads j 8 ((List.range (j.cmd.field 0 36 4 + 1)).map fun i => word 1 + BitVec.ofNat 64 (8 * i)) s bufs (σ 0) →
      (∀ b ∈ bufs, b = (word 3).toNat ∨ (word 3).toNat + n * size ≤ b ∨ b + n * size ≤ (word 3).toNat) →
      let sum (e : Nat) : Nat × Flags := pairTree (addBits fmt .rne) (negZero fmt) (xs e)
      (∀ e < n,
        JobReads j size (bufs.map fun b => BitVec.ofNat 64 b + BitVec.ofNat 64 (e * size)) (σ e) (xs e) (u e) ∧
        j.write (word 3 + BitVec.ofNat 64 (e * size)) (leBytes size (redNaN fmt (sum e).1).1) false
          { u e with fresh := (u e).fresh + 1 } = .ok (w e, σ (e + 1))) →
      j.write (word 4) (bytesOf 8 (word 5)) true ((σ n).cover (Safety.written w n)) = .ok (wf, v) →
      exec (.reduction h k) s = .next (finish h k 0
        (auxOf (allFlags (fun e => (sum e).2 ||| (redNaN fmt (sum e).1).2) n)) (v.cover wf)) := by
  intro word size fmt n bufs σ u xs w wf v hbufs hapart sum helems hflag
  obtain ⟨-, -, -, -, hh, hk, -⟩ := jobAt_spec hj
  have hfield : j.cmd.field 2 0 32 = n := by rw [Cmd.field, pow_zero, Nat.div_one]
  have hover : reduceOverlap j.cmd (bufs.map (BitVec.ofNat 64)) = false := by
    simp only [reduceOverlap, hfield, List.any_eq_false, List.mem_map]
    rintro _ ⟨b, hb, rfl⟩
    have hlt := jobReads_lt hbufs b hb
    have hnat : (BitVec.ofNat 64 b).toNat = b := Nat.mod_eq_of_lt (by omega)
    have hcase : b = (word 3).toNat ∨ (word 3).toNat + n * j.cmd.esize ≤ b ∨ b + n * j.cmd.esize ≤ (word 3).toNat :=
      hapart b hb
    rw [hnat]
    simp only [Bool.and_eq_true, decide_eq_true_eq, not_and, ne_eq]
    show ¬ b = (word 3).toNat ∧ b < (word 3).toNat + n * j.cmd.esize → ¬ (word 3).toNat < b + n * j.cmd.esize
    omega
  have hrun := reduceElems_run (j := j) (bufs := bufs.map (BitVec.ofNat 64)) (σ := σ) (u := u) (xs := xs) (w := w) (n := n) 0 0
    [] fun e _ he => by
      obtain ⟨hr, hw⟩ := helems e (by omega)
      rw [List.map_map]
      exact ⟨readMany_of_jobReads hr, hw⟩
  rw [Nat.zero_add, ← List.range_eq_range'] at hrun
  have hall : reduceAll j (bufs.map (BitVec.ofNat 64)) (σ 0) =
      .ok (0, allFlags (fun e => (sum e).2 ||| (redNaN fmt (sum e).1).2) n, (σ n).cover (Safety.written w n)) := by
    rw [reduceAll, hover, hfield]
    exact hrun
  have hreduce : reduce j s = .ok (0, auxOf (allFlags (fun e => (sum e).2 ||| (redNaN fmt (sum e).1).2) n), v.cover wf) := by
    rw [reduce]
    dsimp only
    rw [readMany_of_jobReads hbufs, Ans.bind]
    dsimp only
    rw [hall, Ans.bind]
    dsimp only
    rw [if_neg (by decide), show j.write (j.cmd.words.getD 4 0) (bytesOf 8 (j.cmd.words.getD 5 0)) true _ = _ from hflag]
    rfl
  have hx : exec (.reduction h k) s = due s (j.conclude s (reduce j s)) :=
    engineEvent_runs (is := (· == .reduction)) (run := fun j s => j.conclude s (reduce j s)) hj rfl rfl ho hok
  rw [hx, hreduce, Job.conclude, hh, hk]
  rfl

end

/-! ## Attention (R296 to R299) -/

/-- A range of the pool that lies in one 64 KiB page of the list. -/
theorem poolBytes_page {j : Job} {s u : State} {va : Word} {n : Nat} {pl : List Byte} (hn : 0 < n) :
    let off := (va - j.cmd.words.getD 3 0).toNat
    off % 65536 + n ≤ 65536 → off / 65536 < (j.cmd.words.getD 7 0).toNat % 2 ^ 32 →
    j.read (j.cmd.words.getD 6 0 + BitVec.ofNat 64 (8 * (off / 65536))) 8 s = .ok (pl, u) →
    let entry := leNat pl
    let pa := entry / 2 ^ 16 % 2 ^ 36 * 65536 + off % 65536
    entry % 2 ^ 16 = 1 → entry < 2 ^ 52 → isDevice pa = true → s.admits j.agent pa = true → s.rangeHeld pa n = false →
    s.poisoned pa n = false → poolBytes j 8 va n s = .ok (s.bytes pa n) := by
  intro off hpage hlast hr entry pa hvalid hent hdev hadm hheld hpois
  have hk : min n (65536 - off % 65536) = n := Nat.min_eq_left (by omega)
  have hfield : j.cmd.field 7 0 32 = (j.cmd.words.getD 7 0).toNat % 2 ^ 32 := by rw [Cmd.field, pow_zero, Nat.div_one]
  have hnat : (wordOf pl).toNat = entry := by
    rw [wordOf, BitVec.toNat_ofNat]
    exact Nat.mod_eq_of_lt (by omega)
  have hslice (i w : Nat) : ((wordOf pl).extractLsb' i w).toNat = entry / 2 ^ i % 2 ^ w := by
    rw [BitVec.extractLsb'_toNat, hnat, Nat.shiftRight_eq_div_pow]
  have hpa : ((wordOf pl).extractLsb' 16 36).toNat * 65536 + off % 65536 = pa := by rw [hslice]
  have hbad : (!(wordOf pl).getLsbD 0 || (wordOf pl).extractLsb' 52 12 ≠ 0 || (wordOf pl).extractLsb' 1 15 ≠ 0
      || !isDevice pa || !s.admits j.agent pa) = false := by
    have h0 : (wordOf pl).getLsbD 0 = true := by
      rw [BitVec.getLsbD, hnat, Nat.testBit_zero]
      simp; omega
    have h52 : (wordOf pl).extractLsb' 52 12 = 0 := BitVec.eq_of_toNat_eq (by rw [hslice]; simp; omega)
    have h1 : (wordOf pl).extractLsb' 1 15 = 0 := BitVec.eq_of_toNat_eq (by rw [hslice]; simp; omega)
    simp [h0, h52, h1, hdev, hadm]
  rw [poolBytes]
  dsimp only
  rw [if_neg (by omega), if_neg (by rw [hfield]; omega), hr, Ans.bind]
  dsimp only
  rw [hk, hpa, hbad, hheld, hpois, Nat.sub_self]
  simp [poolBytes, Ans.bind]

theorem poolBytes_zero {j : Job} (fuel : Nat) {va : Word} {s : State} {bs : List Byte}
    (h : poolBytes j fuel va 0 s = .ok bs) : bs = [] := by
  cases fuel <;> cases h <;> rfl

/-- The rest of a range of the pool that begins at a page, or anywhere, is as long as it is asked to be. -/
theorem poolBytes_length {j : Job} (fuel : Nat) : ∀ {va : Word} {n : Nat} {s : State} {bs : List Byte},
    (va - j.cmd.words.getD 3 0).toNat % 65536 + n ≤ 65536 * fuel → poolBytes j fuel va n s = .ok bs → bs.length = n := by
  induction fuel with
  | zero =>
    intro va n s bs hle h
    cases h
    simp only [List.length_nil]
    omega
  | succ fuel ih =>
    intro va n s bs hle h
    rw [poolBytes] at h
    dsimp only at h
    split at h
    · next h0 => cases h; exact h0.symm
    split at h
    · cases h
    obtain ⟨⟨pl, u⟩, -, h⟩ := Ans.bind_ok h
    dsimp only at h
    split at h
    · cases h
    split at h
    · cases h
    split at h
    · cases h
    obtain ⟨rest, hrest, h⟩ := Ans.bind_ok h
    cases h
    have hlen : rest.length = n - min n (65536 - (va - j.cmd.words.getD 3 0).toNat % 65536) := by
      rcases Nat.le_total n (65536 - (va - j.cmd.words.getD 3 0).toNat % 65536) with hn | hn
      · rw [Nat.min_eq_left hn, Nat.sub_self] at hrest ⊢
        rw [poolBytes_zero _ hrest]
        rfl
      · rw [Nat.min_eq_right hn] at hrest ⊢
        refine ih ?_ hrest
        have hoff : (va + BitVec.ofNat 64 (65536 - (va - j.cmd.words.getD 3 0).toNat % 65536) - j.cmd.words.getD 3 0).toNat
            % 65536 = 0 := by
          rw [show va + BitVec.ofNat 64 (65536 - (va - j.cmd.words.getD 3 0).toNat % 65536) - j.cmd.words.getD 3 0 =
            (va - j.cmd.words.getD 3 0) + BitVec.ofNat 64 (65536 - (va - j.cmd.words.getD 3 0).toNat % 65536) by ring,
            BitVec.toNat_add, BitVec.toNat_ofNat]
          omega
        rw [hoff]
        omega
    rw [List.length_append, hlen]
    simp only [State.bytes, List.length_map, List.length_range]
    omega

/-- The tokens of an attention in the terms of the rows' bytes. -/
theorem foldl_token {db sc : Nat} {q : List Byte} {kb vb : Nat → List Byte} (hq : 34 * db ≤ q.length) (l : List Nat)
    (hkv : ∀ t ∈ l, 34 * db ≤ (kb t).length ∧ 34 * db ≤ (vb t).length) : ∀ a : Soft, a.o.length = 32 * db →
    l.foldl (fun a t => a.token db sc (rowOfBytes db q) (rowOfBytes db (kb t)) (rowOfBytes db (vb t))) a =
      l.foldl (fun a t => softToken db sc q (kb t) (vb t) a) a ∧
    (l.foldl (fun a t => softToken db sc q (kb t) (vb t) a) a).o.length = 32 * db := by
  induction l with
  | nil => exact fun a ha => ⟨rfl, ha⟩
  | cons t l ih =>
    intro a ha
    obtain ⟨⟨hk, hv⟩, hl⟩ := List.forall_mem_cons.1 hkv
    rw [List.foldl_cons, List.foldl_cons, token_eq hq hk hv ha]
    exact ih hl _ (by simp [softToken])

section
variable {h k m : Nat} {s : State} {j : Job} (hj : jobAt h k s = some (.attention m, j))
include hj

theorem attention_runs (ho : (j.cmd.words.headD 0).toNat / 256 % 256 = 0x30) (hok : attentionOk j.cmd = true)
    (hst : j.cmd.stalled = false) : exec (.attention h k) s = due s (j.conclude s (attend j (stackOfJob j) s)) := by
  have hx := engineEvent_runs (is := isAttention) (run := fun j s =>
    if j.cmd.stalled && j.cmd.field 4 0 32 ≠ 0 then none else j.conclude s (attend j (stackOfJob j) s)) hj rfl rfl ho hok
  rw [hst] at hx
  exact hx

/-- A Q row whose residue bytes are not right ends the command with STATUS 7. -/
theorem attention_damaged (ho : (j.cmd.words.headD 0).toNat / 256 % 256 = 0x30) (hok : attentionOk j.cmd = true)
    (hst : j.cmd.stalled = false) {qb : List Byte} {u : State}
    (hr : j.read (j.cmd.words.getD 1 0) (34 * j.cmd.db) s = .ok (qb, u)) (hbad : ¬ ResidueRight j.cmd.db qb) :
    exec (.attention h k) s = .next (finish h k 7 0 s) := by
  obtain ⟨-, -, -, -, hh, hk, -⟩ := jobAt_spec hj
  have hres : (rowOfBytes j.cmd.db qb).residueOk j.cmd.db = false :=
    Bool.eq_false_iff.2 fun h => hbad ((residueOk_iff (read_length hr).ge).1 h)
  have hat : attend j (stackOfJob j) s = .bad 7 := by
    rw [attend]
    dsimp only
    rw [hr, Ans.bind]
    dsimp only
    rw [hres]
    rfl
  rw [attention_runs hj ho hok hst, hat, Job.conclude, hh, hk]
  rfl

omit hj in
/-- What an attention does once its tokens have been gone through, and its outputs are written. -/
theorem attend_writes {stack : Nat} {qb : List Byte} {u t v : State} {a : Soft} {w : List (Nat × Nat)}
    (hr : j.read (j.cmd.words.getD 1 0) (34 * j.cmd.db) s = .ok (qb, u))
    (hq : (rowOfBytes j.cmd.db qb).residueOk j.cmd.db = true)
    (hrun : attendFrom j (rowOfBytes j.cmd.db qb) (j.cmd.field 4 0 32) 0
      ⟨0xFF800000, 0, List.replicate (32 * j.cmd.db) 0, 0⟩ u = .ok (a, t)) {outs : List (Nat × Flags)}
    (houts : a.o.map (fun o => f32Of (fpDiv (fpOf .f32 o) (fpOf .f32 a.l))) = outs)
    (hw : j.write (j.cmd.words.getD 5 0) (outs.flatMap fun p => leBytes 4 p.1) false t = .ok (w, v)) :
    attend j stack s = .ok (0, auxOf (outs.foldl (fun g p => g ||| p.2) a.g), (v.cover w).residueRows stack w) := by
  have hinit : signBit .f32 + infBits .f32 = 0xFF800000 := by decide
  rw [attend]
  dsimp only
  rw [hr, Ans.bind]
  dsimp only
  rw [hq, hinit, if_neg (by decide), hrun, Ans.bind]
  dsimp only
  rw [houts, hw]
  rfl

/-- An attention whose rows are intact writes the result of its sequence over the tokens. -/
theorem attention_result (ho : (j.cmd.words.headD 0).toNat / 256 % 256 = 0x30) (hok : attentionOk j.cmd = true)
    (hst : j.cmd.stalled = false) :
    let word (i : Nat) : Word := j.cmd.words.getD i 0
    let db := j.cmd.field 0 32 4
    let rb := 64 * ((34 * db + 63) / 64)
    let n := (word 4).toNat % 2 ^ 32
    ∀ qb (σ : Nat → State), j.read (word 1) (34 * db) s = .ok (qb, σ 0) → ResidueRight db qb →
    ∀ (bt kb vb : Nat → List Byte) w v,
      (∀ t < n, j.read (word 2 + BitVec.ofNat 64 (4 * (t / 16))) 4 (σ t) = .ok (bt t, σ (t + 1)) ∧
        let page := word 3 + BitVec.ofNat 64 (32 * rb * leNat (bt t))
        poolBytes j 8 (page + BitVec.ofNat 64 (rb * (t % 16))) (34 * db) (σ (t + 1)) = .ok (kb t) ∧
        poolBytes j 8 (page + BitVec.ofNat 64 (rb * (16 + t % 16))) (34 * db) (σ (t + 1)) = .ok (vb t) ∧
        ResidueRight db (kb t) ∧ ResidueRight db (vb t)) →
      let a := (List.range n).foldl (fun a t => softToken db ((word 4).toNat / 2 ^ 32) qb (kb t) (vb t) a)
        ⟨0xFF800000, 0, List.replicate (32 * db) 0, 0⟩
      let out (i : Nat) : Nat × Flags := roundF32 (fpDiv (fpOf .f32 (a.o.getD i 0)) (fpOf .f32 a.l))
      j.write (word 5) ((List.range (32 * db)).flatMap fun i => leBytes 4 (out i).1) false (σ n) = .ok (w, v) →
      exec (.attention h k) s = .next (finish h k 0 (auxOf (a.g ||| allFlags (fun i => (out i).2) (32 * db)))
        ((v.cover w).residueRows (stackOfJob j) w)) := by
  intro word db rb n qb σ hr hq bt kb vb w v hrows a out hw
  obtain ⟨-, -, -, -, hh, hk, -⟩ := jobAt_spec hj
  have hn : j.cmd.field 4 0 32 = n := by rw [Cmd.field, pow_zero, Nat.div_one]
  have hsc : j.cmd.field 4 32 32 = (word 4).toNat / 2 ^ 32 := by
    have := (word 4).isLt
    rw [Cmd.field]
    exact Nat.mod_eq_of_lt (by omega)
  have hql : 34 * db ≤ qb.length := (read_length hr).ge
  have hdb : db ≤ 8 := by
    simp only [attentionOk, Bool.and_eq_true, decide_eq_true_eq] at hok
    exact hok.1.2
  have hlen {va : Word} {u : State} {bs : List Byte} (hp : poolBytes j 8 va (34 * db) u = .ok bs) :
      34 * db ≤ bs.length := (poolBytes_length 8 (by omega) hp).ge
  have hrun := attendFrom_run (j := j) (q := rowOfBytes db qb) (σ := σ) (bt := bt) (kb := kb) (vb := vb) (n := n) 0
    ⟨0xFF800000, 0, List.replicate (32 * db) 0, 0⟩ fun t _ ht => by
      obtain ⟨hb, hkp, hvp, hkr, hvr⟩ := hrows t (by omega)
      exact ⟨hb, hkp, hvp, (residueOk_iff (hlen hkp)).2 hkr, (residueOk_iff (hlen hvp)).2 hvr⟩
  obtain ⟨hfold, holen⟩ := foldl_token (sc := (word 4).toNat / 2 ^ 32) hql (List.range n) (fun t ht => by
      obtain ⟨-, hkp, hvp, -, -⟩ := hrows t (List.mem_range.1 ht)
      exact ⟨hlen hkp, hlen hvp⟩) ⟨0xFF800000, 0, List.replicate (32 * db) 0, 0⟩ (List.length_replicate ..)
  rw [Nat.zero_add, ← List.range_eq_range', hsc, show j.cmd.db = db from rfl, hfold] at hrun
  have houts : a.o.map (fun o => f32Of (fpDiv (fpOf .f32 o) (fpOf .f32 a.l))) = (List.range (32 * db)).map out := by
    refine List.ext_getElem (by rw [List.length_map, List.length_map, List.length_range]; exact holen) fun i h1 h2 => ?_
    have hi : i < a.o.length := by simpa using h1
    simp only [List.getElem_map, List.getElem_range, out, List.getD_eq_getElem _ _ hi]
    rfl
  have hflags : ((List.range (32 * db)).map out).foldl (fun g p => g ||| p.2) a.g =
      a.g ||| allFlags (fun i => (out i).2) (32 * db) := by
    rw [List.foldl_map, foldl_or_map (fun i => (out i).2)]
    rfl
  have hat := attend_writes (stack := stackOfJob j) hr ((residueOk_iff hql).2 hq) (by rw [hn]; exact hrun) houts
    (by rw [List.flatMap_map]; exact hw)
  rw [hflags] at hat
  rw [attention_runs hj ho hok hst, hat, Job.conclude, hh, hk]
  rfl

end

end Sys2Proof.Proofs
end


section
/-! PROOFS. Collectives: how one begins, completes, takes contributions in and reports who is missing (R300 to R302). -/

namespace Sys2Proof.Proofs

open Sys2Proof.Machine Sys2Proof.Safety

/-! ## A collective begins (R300, R301) -/

theorem field_low (c : Cmd) (i w : Nat) : c.field i 0 w = (c.words.getD i 0).toNat % 2 ^ w := by
  rw [Cmd.field, pow_zero, Nat.div_one]

section
variable {h k : Nat} {s : State} {j : Job} (hj : jobAt h k s = some (.collective, j))
  (ho : (j.cmd.words.headD 0).toNat / 256 % 256 = 0x40) (hok : collectiveOk j.cmd = true)
include hj ho hok

theorem allReduce_begins (hg : j.cmd.group = []) : exec (.allReduce h k) s = due s (beginCollective j s) := by
  have hx := engineEvent_runs (is := isCollective) (run := fun j s => if j.cmd.group.isEmpty then beginCollective j s
    else if j.cmd.complete then j.conclude s (completeCollective j s) else none) hj rfl rfl ho hok
  rw [hg] at hx
  exact hx

theorem collective_badGroup (hg : j.cmd.group = []) {g r : Nat} {s1 : State}
    (hr : JobReads j 2 [j.cmd.words.getD 4 0, j.cmd.words.getD 4 0 + 2] s [g, r] s1) (hbad : g < 2 ∨ 576 < g ∨ g ≤ r) :
    exec (.allReduce h k) s = .next (finish h k 1 0 s) := by
  obtain ⟨-, -, -, -, hh, hk, -⟩ := jobAt_spec hj
  have hcond : (decide (g < 2) || decide (576 < g) || decide (g ≤ r)) = true := by simpa [or_assoc] using hbad
  have hb : beginCollective j s = some (finish h k 1 0 s) := by
    rw [beginCollective]
    dsimp only
    rw [readMany_of_jobReads hr, Ans.bind]
    dsimp only
    rw [show [g, r].getD 0 0 = g from rfl, show [g, r].getD 1 0 = r from rfl]
    rw [if_pos hcond, hh, hk]
  rw [allReduce_begins hj ho hok hg, hb]
  rfl

section
variable (hg : j.cmd.group = []) {g r : Nat} {s1 s2 : State} {pkgs : List Nat}
  (hr : JobReads j 2 [j.cmd.words.getD 4 0, j.cmd.words.getD 4 0 + 2] s [g, r] s1) (h2 : 2 ≤ g) (h576 : g ≤ 576) (hrg : r < g)
  (hp : JobReads j 2 ((List.range g).map fun r => j.cmd.words.getD 4 0 + BitVec.ofNat 64 (4 + 2 * r)) s1 pkgs s2)
include hg hr h2 h576 hrg hp

theorem collective_badTable (hbad : (∃ p ∈ pkgs, 575 < p) ∨ ¬ pkgs.Nodup) :
    exec (.allReduce h k) s = .next (finish h k 1 0 s) := by
  obtain ⟨-, -, -, -, hh, hk, -⟩ := jobAt_spec hj
  have hcond : (decide (g < 2) || decide (576 < g) || decide (g ≤ r)) = false := by
    simp only [Bool.or_eq_false_iff, decide_eq_false_iff_not]
    omega
  have htable : ((pkgs.any fun p => decide (575 < p)) || !decide pkgs.Nodup) = true := by simpa using hbad
  have hb : beginCollective j s = some (finish h k 1 0 s) := by
    rw [beginCollective]
    dsimp only
    rw [readMany_of_jobReads hr, Ans.bind]
    dsimp only
    rw [show [g, r].getD 0 0 = g from rfl, show [g, r].getD 1 0 = r from rfl]
    rw [if_neg (Bool.eq_false_iff.1 hcond), readMany_of_jobReads hp, Ans.bind]
    dsimp only
    rw [if_pos htable, hh, hk]
  rw [allReduce_begins hj ho hok hg, hb]
  rfl

theorem collective_staged (hle : ∀ p ∈ pkgs, p ≤ 575) (hnd : pkgs.Nodup) {own : List Nat} {s3 : State}
    (hown : JobReads j (if j.cmd.field 0 32 1 = 0 then 4 else 2) ((List.range ((j.cmd.words.getD 3 0).toNat % 2 ^ 32)).map
      fun e => j.cmd.words.getD 1 0 + BitVec.ofNat 64 (e * if j.cmd.field 0 32 1 = 0 then 4 else 2)) s2 own s3) :
    exec (.allReduce h k) s = .next (modCmd h k (fun c => { c with
      begun := true, start := s3.pkg.time, group := pkgs, rank := r
      parts := [(r, own.map (BitVec.ofNat 32))] }) s3) := by
  obtain ⟨-, -, -, -, hh, hk, -⟩ := jobAt_spec hj
  have hcond : (decide (g < 2) || decide (576 < g) || decide (g ≤ r)) = false := by
    simp only [Bool.or_eq_false_iff, decide_eq_false_iff_not]
    omega
  have htable : ((pkgs.any fun p => decide (575 < p)) || !decide pkgs.Nodup) = false := by
    simpa [hnd] using hle
  have hread : j.readMany j.cmd.esize ((List.range (j.cmd.field 3 0 32)).map fun e =>
      j.cmd.words.getD 1 0 + BitVec.ofNat 64 (e * j.cmd.esize)) s2 = .ok (own, s3) := by
    rw [field_low]
    exact readMany_of_jobReads hown
  have hb : beginCollective j s = some (modCmd h k (fun c => { c with
      begun := true, start := s3.pkg.time, group := pkgs, rank := r
      parts := [(r, own.map (BitVec.ofNat 32))] }) s3) := by
    rw [beginCollective]
    dsimp only
    rw [readMany_of_jobReads hr, Ans.bind]
    dsimp only
    rw [show [g, r].getD 0 0 = g from rfl, show [g, r].getD 1 0 = r from rfl]
    rw [if_neg (Bool.eq_false_iff.1 hcond), readMany_of_jobReads hp, Ans.bind]
    dsimp only
    rw [if_neg (Bool.eq_false_iff.1 htable), hread, Ans.bind]
    dsimp only
    rw [hh, hk]
  rw [allReduce_begins hj ho hok hg, hb]
  rfl

end

/-! ## A collective ends (R301, R302) -/

omit hj ho hok in
/-- The sums of a collective that every rank has contributed to: the switch's, or for each element those of the ring in the
chunk that a free value gives it. -/
theorem collectiveSums_eq (c : Cmd) (fresh : Nat) {n : Nat} (hn : c.field 3 0 32 = n) (hg : c.group ≠ [])
    (hsw : ∀ l, c.switched = some l → l.length = n) :
    (collectiveSums c fresh).length = n ∧ (∀ l, c.switched = some l → collectiveSums c fresh = l.map BitVec.toNat) ∧
      (c.switched = none → ∀ e < n, ∃ x < c.group.length, (collectiveSums c fresh).getD e 0 = ringSum c x e) := by
  cases hs : c.switched with
  | some l =>
    have he : collectiveSums c fresh = l.map BitVec.toNat := by rw [collectiveSums, hs]
    exact ⟨by rw [he, List.length_map, hsw l hs], fun l' hl => by cases hl; exact he, fun h0 => by cases h0⟩
  | none =>
    have he : collectiveSums c fresh = (List.range n).map fun e =>
        ringSum c ((Config.freeWord (fresh + e)).toNat % c.group.length) e := by
      rw [collectiveSums, hs, hn]
    refine ⟨by rw [he, List.length_map, List.length_range], fun l hl => (nomatch hl), fun _ e hen => ?_⟩
    refine ⟨(Config.freeWord (fresh + e)).toNat % c.group.length, Nat.mod_lt _ (List.length_pos_of_ne_nil hg), ?_⟩
    rw [he, List.getD_eq_getElem _ _ (by simpa using hen), List.getElem_map, List.getElem_range]

theorem collective_completes (hg : j.cmd.group ≠ []) (hf : j.cmd.failed = [])
    (hparts : j.cmd.switched = none → j.cmd.parts.length = j.cmd.group.length)
    (hlen : (collectiveSums j.cmd s.fresh).length = (j.cmd.words.getD 3 0).toNat % 2 ^ 32)
    {w w' : List (Nat × Nat)} {v v' : State}
    (hw : j.write (j.cmd.words.getD 2 0) ((collectiveSums j.cmd s.fresh).flatMap fun x =>
      leBytes (if j.cmd.field 0 32 1 = 0 then 4 else 2) x) false
      { s with fresh := s.fresh + (j.cmd.words.getD 3 0).toNat % 2 ^ 32 + 1 } = .ok (w, v))
    (hw' : j.write (j.cmd.words.getD 5 0) (leBytes 8 0) false v = .ok (w', v')) :
    ∃ aux, exec (.allReduce h k) s = .next (finish h k 0 aux (v'.cover (w ++ w'))) := by
  obtain ⟨-, -, -, -, hh, hk, -⟩ := jobAt_spec hj
  have hc : j.cmd.complete = true := by
    rw [Cmd.complete, hf]
    cases hs : j.cmd.switched with
    | some l => rfl
    | none => simp [hparts hs]
  have hx := engineEvent_runs (is := isCollective) (run := fun j s => if j.cmd.group.isEmpty then beginCollective j s
    else if j.cmd.complete then j.conclude s (completeCollective j s) else none) hj rfl rfl ho hok
  rw [if_neg (by simpa using hg), if_pos hc] at hx
  have hcol : completeCollective j s = .ok (0, Config.freeByte s.fresh &&& 0x1F, v'.cover (w ++ w')) := by
    rw [completeCollective]
    dsimp only
    rw [hlen, show j.write _ ((collectiveSums j.cmd s.fresh).flatMap fun x => leBytes j.cmd.esize x) false _ = _ from hw,
      Ans.bind]
    dsimp only
    rw [show j.write _ (bytesOf 8 0) false v = _ from hw']
  rw [hcol, Job.conclude, hh, hk] at hx
  exact ⟨_, hx⟩

/-- A failure report of a rank, and a contribution that comes in time (R301, R302). -/
theorem collectivePacket_arrives {rank : Nat} (hne : rank ≠ j.cmd.rank) (hlt : rank < j.cmd.group.length) :
    (rank ∉ j.cmd.failed → ∀ data, exec (.collectivePacket h k rank true data) s =
      .next (modCmd h k (fun c => { c with failed := rank :: c.failed }) s)) ∧
    ((∀ p ∈ j.cmd.parts, p.1 ≠ rank) → j.cmd.overdue s = false → ∀ data : List Elem,
      data.length = (j.cmd.words.getD 3 0).toNat % 2 ^ 32 → exec (.collectivePacket h k rank false data) s =
        .next (modCmd h k (fun c => { c with parts := c.parts ++ [(rank, data)] }) s)) := by
  have hx (failed : Bool) (data : List Elem) := engineEvent_runs (is := isCollective) (run := fun j s =>
    if j.cmd.group.isEmpty || rank = j.cmd.rank || j.cmd.group.length < rank then none
    else if failed then
      (if rank = j.cmd.group.length || j.cmd.failed.contains rank then none
       else some (modCmd h k (fun c => { c with failed := rank :: c.failed }) s))
    else if data.length ≠ j.cmd.field 3 0 32 then none
    else if rank = j.cmd.group.length then
      (if j.cmd.nosw || j.cmd.switched.isSome then none
       else some (modCmd h k (fun c => { c with switched := some data }) s))
    else if j.cmd.overdue s || j.cmd.parts.any fun p => p.1 = rank then none
    else some (modCmd h k (fun c => { c with parts := c.parts ++ [(rank, data)] }) s)) hj rfl rfl ho hok
  have hhere : ¬ (j.cmd.group.isEmpty || decide (rank = j.cmd.rank) || decide (j.cmd.group.length < rank)) = true := by
    have hge : j.cmd.group ≠ [] := fun h0 => by rw [h0] at hlt; exact absurd hlt (Nat.not_lt_zero _)
    simp [hge, hne]
    omega
  refine ⟨fun hnf data => (hx true data).trans ?_, fun hnone hlate data hdata => (hx false data).trans ?_⟩
  · rw [if_neg hhere, if_pos rfl, if_neg (by simp [hnf]; omega)]
    rfl
  · have hnew : ¬ (j.cmd.overdue s || j.cmd.parts.any fun p => decide (p.1 = rank)) = true := by
      rw [hlate, Bool.false_or, List.any_eq_true]
      rintro ⟨p, hp, he⟩
      exact hnone p hp (of_decide_eq_true he)
    rw [if_neg hhere, if_neg (by simp), if_neg (by rw [field_low]; simp [hdata]), if_neg (by omega),
      if_neg hnew]
    rfl

/-- A collective that misses ranks reports them (R302). -/
theorem collectiveTimeout_reports {missing : List Nat} {w : List (Nat × Nat)} {u : State} (hg : j.cmd.group ≠ [])
    (hfail : j.cmd.failed ≠ [] ∨ j.cmd.overdue s = true) (hok' : missingOk j.cmd (j.cmd.overdue s) missing = true)
    (hw : j.write (j.cmd.words.getD 5 0) (leBytes 8 missing.length ++ missingMask missing ++ leBytes 48 0) false s = .ok (w, u))
    (hlen : missing.length < 2 ^ 64) :
    exec (.collectiveTimeout h k missing) s = .next (finish h k 5 (BitVec.ofNat 8 (min missing.length 255)) (u.cover w)) := by
  obtain ⟨-, -, -, -, hh, hk, -⟩ := jobAt_spec hj
  have hx := engineEvent_runs (is := isCollective) (run := fun j s =>
    if j.cmd.group.isEmpty || (j.cmd.failed == [] && !j.cmd.overdue s) || !missingOk j.cmd (j.cmd.overdue s) missing then none
    else j.conclude s ((j.write (j.cmd.words.getD 5 0)
      (bytesOf 8 (BitVec.ofNat 64 missing.length) ++ missingMask missing ++ leBytes 48 0) false s).bind fun (w, s) =>
        .ok (5, BitVec.ofNat 8 (min missing.length 255), s.cover w))) hj rfl rfl ho hok
  have hcount : bytesOf 8 (BitVec.ofNat 64 missing.length) = leBytes 8 missing.length := by
    rw [bytesOf, BitVec.toNat_ofNat, Nat.mod_eq_of_lt hlen]
  have hdue : j.cmd.failed = [] → j.cmd.overdue s = true := fun h0 => hfail.resolve_left (not_not_intro h0)
  refine hx.trans ?_
  rw [if_neg (by simpa [hok', hg] using hdue), hcount, hw, Ans.bind, Job.conclude, hh, hk]
  rfl

end

/-- The ranks that the engine can find missing, in the terms of R302. -/
theorem missingOk_of {c : Cmd} {late : Bool} {missing : List Nat} (hne : missing ≠ []) (hnd : missing.Nodup)
    (hin : ∀ r ∈ missing, r < c.group.length ∧ r ≠ c.rank) (hfail : ∀ r ∈ c.failed, r ∈ missing)
    (hwhy : ∀ r ∈ missing, r ∈ c.failed ∨ (late = true ∧ (∀ p ∈ c.parts, p.1 ≠ r) ∧ c.switched = none))
    (hall : late = true → (c.nosw = true ∨ 1 < c.parts.length) →
      ∀ r < c.group.length, r ∈ missing ↔ r ∈ c.failed ∨ ∀ p ∈ c.parts, p.1 ≠ r) :
    missingOk c late missing = true := by
  have hhere (r : Nat) : (!(c.parts.any fun (p : Nat × List Elem) => decide (p.1 = r))) = true ↔
      ∀ p ∈ c.parts, p.1 ≠ r := by
    simp
  simp only [missingOk, Bool.and_eq_true, Bool.or_eq_true, List.all_eq_true, decide_eq_true_eq, List.contains_iff_mem,
    Option.isNone_iff_eq_none, hhere, List.mem_range, beq_iff_eq]
  refine ⟨⟨⟨⟨⟨hne, hnd⟩, hin⟩, hfail⟩, fun r hr => ?_⟩, ?_⟩
  · exact (hwhy r hr).imp_right fun ⟨h1, h2, h3⟩ => ⟨⟨h1, h2⟩, h3⟩
  · by_cases hcond : late = true ∧ (c.nosw = true ∨ 1 < c.parts.length)
    · refine .inr fun r hr => Bool.eq_iff_iff.2 ?_
      rw [Bool.or_eq_true, hhere, List.contains_iff_mem, List.contains_iff_mem]
      exact hall hcond.1 hcond.2 r hr
    · left
      rw [Bool.not_eq_true', Bool.eq_false_iff]
      simpa using hcond

end Sys2Proof.Proofs
end


section
/-! PROOFS. The results of commands, what copies count against their barriers, and engines that a stopped zone or an uncounted
copy holds up (R219, R261, R264, R276, R277, R291, R463). -/

namespace Sys2Proof.Proofs

open Sys2Proof.Machine Sys2Proof.Safety

/-! ## Results (R276, R277) -/

theorem mem_of_firstOver {d : Cmd} (l : List Cmd) : firstOver l = some d → d ∈ l ∧ d.fin ≠ none := by
  induction l with
  | nil => intro h; cases h
  | cons x l ih =>
    intro h
    rw [firstOver] at h
    split at h
    · exact (ih h).imp_left (List.mem_cons_of_mem _)
    · next hx _ => cases h; exact ⟨List.mem_cons_self, by rw [hx]; exact Option.some_ne_none _⟩
    · next hx hl =>
      split at h <;> cases h
      · exact ⟨List.mem_cons_self, by rw [hx]; exact Option.some_ne_none _⟩
      · exact (ih hl).imp_left (List.mem_cons_of_mem _)

/-- The command that has completed before every other. -/
theorem firstOver_eq {c : Cmd} {m : Nat} (hf : c.fin = some m) (l : List Cmd) :
    c ∈ l → (∀ d ∈ l, d ≠ c → ∀ i, d.fin = some i → m < i) → firstOver l = some c := by
  induction l with
  | nil => intro h; cases h
  | cons x l ih =>
    intro hm hall
    obtain ⟨hx, hl⟩ := List.forall_mem_cons.1 hall
    rw [firstOver]
    by_cases hxc : x = c
    · rw [hxc, hf]
      cases hfl : firstOver l with
      | none => rfl
      | some d =>
        obtain ⟨hd, hfin⟩ := mem_of_firstOver l hfl
        obtain ⟨i, hi⟩ := Option.ne_none_iff_exists'.1 hfin
        have hle : m ≤ i := by
          by_cases hdc : d = c
          · rw [hdc, hf] at hi; exact (Option.some.inj hi).le
          · exact (hl d hd hdc i hi).le
        dsimp only
        rw [hi, Option.getD_some, if_pos hle]
    · rw [ih ((List.mem_cons.1 hm).resolve_left fun h => hxc h.symm) hl]
      cases hxf : x.fin with
      | none => rfl
      | some i =>
        dsimp only
        rw [hf, Option.getD_some, if_neg (by have := hx hxc i hxf; omega)]

theorem append_toNat {n m : Nat} (x : BitVec n) (y : BitVec m) : (x ++ y).toNat = x.toNat * 2 ^ m + y.toNat := by
  rw [BitVec.toNat_append, ← Nat.shiftLeft_add_eq_or_of_lt y.isLt, Nat.shiftLeft_eq]

/-- The fields of a result element (R276). -/
theorem result_eq (c : Cmd) (status aux : Byte) : c.result status aux = BitVec.ofNat 64 (c.seq.toNat + aux.toNat * 2 ^ 32
    + status.toNat * 2 ^ 40 + (c.words.headD 0).toNat / 2 ^ 16 % 2 ^ 16 * 2 ^ 48) := by
  have hseq := c.seq.isLt
  have haux := aux.isLt
  have hst := status.isLt
  have htag : ((c.words.headD 0).extractLsb' 16 16).toNat = (c.words.headD 0).toNat / 2 ^ 16 % 2 ^ 16 := by
    rw [BitVec.extractLsb'_toNat, Nat.shiftRight_eq_div_pow]
  apply BitVec.eq_of_toNat_eq
  rw [Cmd.result, append_toNat, append_toNat, append_toNat, htag, BitVec.toNat_ofNat]
  omega

/-- The result of the command that has completed first joins the result port. -/
theorem resultAppend_joins {h k n m : Nat} {x : Hart} {c : Cmd} {st aux : Byte} {s : State} (hx : ctxOf s h = some (n, x))
    (hh : h < 12288) (hc : c ∈ (x.port k).cmds) (hf : c.fin = some m)
    (hfirst : ∀ d ∈ (x.port k).cmds, d ≠ c → ∀ i, d.fin = some i → m < i) (hout : c.outcome = some (st, aux))
    (hroom : (x.port k).results.length < 16) (hrun : c.stopped x.rank.toNat s = false) :
    exec (.resultAppend h k) s = .next (modCtx h (Hart.modPort k fun p => { p with
      cmds := p.cmds.filter fun d => d.fin ≠ some m
      results := p.results ++ [BitVec.ofNat 64 (c.seq.toNat + aux.toNat * 2 ^ 32
        + (if st = 0 ∧ c.badBar = true then 4 else st.toNat) * 2 ^ 40
        + (c.words.headD 0).toNat / 2 ^ 16 % 2 ^ 16 * 2 ^ 48)]
      past := (c.seq, c.wp) :: p.past }) s) := by
  have hover := firstOver_eq hf _ hc hfirst
  have hstatus : (if st = 0 ∧ c.badBar = true then 4 else st.toNat) =
      (if (decide (st = 0) && c.badBar) = true then 4 else st).toNat := by
    by_cases hb : st = 0 ∧ c.badBar = true
    · rw [if_pos hb, if_pos (by simpa using hb)]; rfl
    · rw [if_neg hb, if_neg (by simpa using hb)]
  have hone : (x.port k).appendOne = some { x.port k with
      cmds := (x.port k).cmds.filter fun d => d.fin ≠ some m
      results := (x.port k).results ++ [BitVec.ofNat 64 (c.seq.toNat + aux.toNat * 2 ^ 32
        + (if st = 0 ∧ c.badBar = true then 4 else st.toNat) * 2 ^ 40
        + (c.words.headD 0).toNat / 2 ^ 16 % 2 ^ 16 * 2 ^ 48)]
      past := (c.seq, c.wp) :: (x.port k).past } := by
    rw [Port.appendOne, hover]
    dsimp only
    rw [hout]
    dsimp only
    rw [if_neg (show ¬ Config.resultPortElements ≤ _ from Nat.not_le.2 hroom), hstatus, ← result_eq, hf]
    simp
  show due s (match ctxOf s h with
    | none => none
    | some (_, x) =>
        if slotCount ≤ h || (firstOver (x.port k).cmds).any (Cmd.stopped · x.rank.toNat s) then none
        else (x.port k).appendOne.map fun p => modCtx h (Hart.modPort k fun _ => p) s) = _
  rw [hx]
  dsimp only
  have hslot : ¬ slotCount ≤ h := Nat.not_le.2 hh
  rw [hover, Option.any_some, hrun, hone, if_neg (by simp [hslot])]
  exact congrArg Host.Outcome.next (modCtx_congr hx rfl)

/-! ## What a copy counts (R261, R264, R291) -/

/-- PEND loses a count that leaves it in range (R261). -/
theorem pendAdd_neg {b : Barrier} {n : Nat} (hn : 1 ≤ n) (h : 0 ≤ b.pend.toInt - n + 2 ^ 35) :
    pendAdd b (-(n : Int)) = some (b.pend - BitVec.ofNat 36 n) := by
  have hhi := BitVec.toInt_lt (x := b.pend)
  have hsum : BitVec.ofInt 36 (b.pend.toInt + -(n : Int)) = b.pend - BitVec.ofNat 36 n := by
    rw [BitVec.ofInt_add, BitVec.ofInt_toInt, BitVec.ofInt_neg, BitVec.ofInt_natCast, BitVec.sub_eq_add_neg]
  simp only [pendAdd, hsum]
  rw [if_neg (by simp; omega)]

theorem modCtx_cores (h : Nat) (f : Hart → Hart) (s : State) : (modCtx h f s).cores = s.cores := by
  have hfocus (n : Nat) (t : State) : (t.focus n).cores = t.cores := by
    unfold State.focus
    split <;> rfl
  unfold modCtx
  split
  · exact (hfocus _ _).trans (hfocus h s)
  · split <;> rfl

theorem barrier_setBarrier (co k : Nat) (b : Barrier) (s : State) : (s.setBarrier co k b).barrier co k = b := by
  rw [State.barrier, State.setBarrier, State.coreAt_modCore, if_pos rfl, tget_tset, if_pos rfl]

theorem copyDecrement_counts {h k slot n : Nat} {x : Hart} {c : Cmd} {s : State} (hx : ctxOf s h = some (slot, x))
    (hc : (x.port k).cmds.find? State.uncounted = some c) (h1 : 1 ≤ n) (h4096 : n ≤ 4096) (hwp : c.counted + n ≤ c.wp)
    (hok : copyOk c = true) (hrun : c.stopped x.rank.toNat s = false) :
    let f := c.bar / 512
    let co := if f = 0 then c.core else c.core / 96 * 96 + (f - 1)
    let b := s.barrier co (c.bar % 512)
    0 ≤ b.pend.toInt - n + 2 ^ 35 →
    let b' : Barrier := { b with pend := b.pend - BitVec.ofNat 36 n }
    let b'' : Barrier := if b'.arr = 0 ∧ b'.pend = 0 then { b' with phase := b'.phase + 1, arr := b'.count } else b'
    ∃ t, exec (.copyDecrement h k n) s = .next t ∧ t.mem = s.mem ∧ t.barrier co (c.bar % 512) = b'' := by
  intro f co b hrange b' b''
  have hexec : exec (.copyDecrement h k n) s = .next (modOwing h k (fun c => { c with
      counted := c.counted + n, badBar := c.badBar || false }) (s.setBarrier co (c.bar % 512) b'.complete)) := by
    have he : exec (.copyDecrement h k n) s = execCopyDecrement h k n s := rfl
    rw [he, execCopyDecrement, hx]
    dsimp only
    rw [hc]
    dsimp only
    rw [if_neg (by simp [hok, hrun]; omega)]
    have hp : pendAdd (s.barrier (if c.bar / 512 = 0 then c.core
        else c.core / Config.coresPerCluster * Config.coresPerCluster + (c.bar / 512 - 1)) (c.bar % 512)) (-(n : Int)) =
        some (b.pend - BitVec.ofNat 36 n) := pendAdd_neg h1 hrange
    rw [hp]
    rfl
  have hb : (s.setBarrier co (c.bar % 512) b'.complete).barrier co (c.bar % 512) = b'' := by
    rw [barrier_setBarrier, complete_eq]
  refine ⟨_, hexec, modCtx_mem _ _ _, ?_⟩
  rw [State.barrier, State.coreAt, modOwing, modCtx_cores]
  exact hb

/-! ## Engines that do nothing (R219, R264, R458, R463) -/

theorem stopped_iff {c : Cmd} {rank : Nat} {s : State} {e : Engine} (he : engineOf c.tgt rank = some e) {z : Nat}
    (hz : e.stopped c.core c.tgt s = s.zoneOff z) : c.stopped rank s = true ↔ (s.zoneAt z).f = 0 := by
  rw [Cmd.stopped, he]
  dsimp only
  rw [hz, State.zoneOff, decide_eq_true_iff]

/-- The zone of an engine is that of its core or of its stack (R458). -/
theorem stopped_zones (c : Cmd) (rank : Nat) (s : State) :
    let t := c.tgt.toNat
    let off (z : Nat) : Prop := c.stopped rank s = true ↔ (s.zoneAt z).f = 0
    (1 ≤ t → t ≤ 5 → off (8 * (c.core / 192) + c.core % 192 / 24)) ∧
    (0x10 ≤ t → t < 0x50 → off (64 + (t - 0x10) / 4)) ∧ (0x50 ≤ t → t < 0x60 → off (64 + (t - 0x50))) ∧
    (0x60 ≤ t → t < 0xE0 → off (64 + (t - 0x60) / 8)) ∧ (t = 0xE0 → c.stopped rank s = false) := by
  intro t off
  refine ⟨fun h1 h5 => ?_, fun h1 h2 => ?_, fun h1 h2 => ?_, fun h1 h2 => ?_, fun h => ?_⟩
  · obtain ⟨n, hn⟩ : ∃ n, engineOf c.tgt rank = some (.copy n) := by
      unfold engineOf
      dsimp only
      rw [if_neg (by omega)]
      split
      · exact ⟨_, rfl⟩
      · rw [if_pos (by omega)]; exact ⟨_, rfl⟩
    exact stopped_iff hn rfl
  · have he : engineOf c.tgt rank = some .indirect := by
      unfold engineOf
      dsimp only
      rw [if_neg (by omega), if_neg (by omega), if_neg (by omega), if_pos (by simp; omega)]
    exact stopped_iff he rfl
  · have he : engineOf c.tgt rank = some .reduction := by
      unfold engineOf
      dsimp only
      rw [if_neg (by omega), if_neg (by omega), if_neg (by omega), if_neg (by simp; omega), if_pos (by simp; omega)]
    exact stopped_iff he rfl
  · have he : engineOf c.tgt rank = some (.attention ((t - 0x60) / 8)) := by
      unfold engineOf
      dsimp only
      rw [if_neg (by omega), if_neg (by omega), if_neg (by omega), if_neg (by simp; omega), if_neg (by simp; omega),
        if_pos (by simp; omega)]
    exact stopped_iff he rfl
  · have he : engineOf c.tgt rank = some .collective := by
      unfold engineOf
      dsimp only
      rw [if_neg (by omega), if_neg (by omega), if_neg (by omega), if_neg (by simp; omega), if_neg (by simp; omega),
        if_neg (by simp; omega), if_pos (by omega)]
    rw [Cmd.stopped, he]
    rfl

theorem jobAt_stopped {h k slot : Nat} {x : Hart} {c : Cmd} {s : State} (hx : ctxOf s h = some (slot, x))
    (hc : (x.port k).job Cmd.live = some c) (hs : c.stopped x.rank.toNat s = true) : jobAt h k s = none := by
  rw [Cmd.stopped] at hs
  rw [jobAt, hx]
  dsimp only
  rw [hc]
  dsimp only
  split
  · rfl
  · next e he =>
    rw [he] at hs
    dsimp only at hs
    rw [hs]
    simp

/-- No command is worked on behind a copy that has bytes to count. -/
theorem jobAt_uncounted {h k slot : Nat} {x : Hart} {d : Cmd} {rest : List Cmd} {s : State} (hx : ctxOf s h = some (slot, x))
    (hd : (x.port k).cmds = d :: rest) (ho : d.outcome ≠ none) (hu : State.uncounted d = true) : jobAt h k s = none := by
  have hlive : d.live = false := by
    rw [Cmd.live]
    cases hout : d.outcome with
    | none => exact absurd hout ho
    | some _ => rfl
  have hperf : d.performed = false := by simp [Cmd.performed, Cmd.over, hu]
  have hwork (c : Cmd) : (x.port k).mayWork x c = false := by
    rw [Port.mayWork, hd, beforeLive.eq_def]
    dsimp only
    rw [hlive]
    simp [hperf]
  rw [jobAt, hx]
  dsimp only
  split
  · rfl
  split
  · rfl
  rw [hwork]
  simp

/-- An engine without a command to work on does nothing. -/
theorem engine_idles {h k opc : Nat} {is : Engine → Bool} {ok : Cmd → Bool} {run : Job → State → Option State} {s : State}
    {i : Instr} (hi : exec i s = engineEvent h k opc is ok run s) (hj : jobAt h k s = none) : exec i s = .next s :=
  hi.trans (engineEvent_idle hj)

theorem engines_idle {h k : Nat} {s : State} (hj : jobAt h k s = none) :
    (∀ n, exec (.copy h k n) s = .next s) ∧
      ∀ i ∈ [Instr.gather h k, .scatter h k, .reduction h k, .attention h k], exec i s = .next s := by
  simp only [List.forall_mem_cons]
  exact ⟨fun n => engine_idles rfl hj, engine_idles rfl hj, engine_idles rfl hj,
    engine_idles (execReduction.eq_def h k s) hj, engine_idles (execAttention.eq_def h k s) hj, List.forall_mem_nil _⟩

theorem replayIteration_stopped {h slot : Nat} {x : Hart} {s : State} (hx : ctxOf s h = some (slot, x))
    (hz : (s.zoneAt (64 + x.mark.slice / 16)).f = 0) : exec (.replayIteration h) s = .next s := by
  have hoff : s.zoneOff (64 + x.mark.slice / 16) = true := decide_eq_true hz
  have he : exec (.replayIteration h) s = execReplayIteration h s := rfl
  rw [he, execReplayIteration, hx]
  dsimp only
  rw [hoff, Bool.or_true, if_pos rfl]
  rfl

end Sys2Proof.Proofs
end


section
/-! PROOFS. What no instruction of a replay's body changes: the hart in focus, the harts beside it, and the contexts that no
slot holds (R312, R317). -/

namespace Sys2Proof.Proofs

open Sys2Proof.Machine Sys2Proof.Safety

/-- The focus, the harts beside it, and the contexts without a slot. -/
def elsewhere (s : State) : Nat × List (Nat × Hart) × List (Nat × Hart) := (s.cur, s.others, s.orphans)

theorem elsewhere_of_contexts {s t : State} (h : contexts t = contexts s) : elsewhere t = elsewhere s :=
  congrArg (fun x : Contexts => (x.cur, x.others, x.orphans)) h

theorem elsewhere_of_stored {s t : State} (h : Stored s t) : elsewhere t = elsewhere s :=
  congrArg (fun x : Contexts => (x.cur, x.others, x.orphans)) h.1

/-- A queued instruction that completes changes nothing elsewhere. -/
def Stays (s : State) : VRes → Prop
  | .done t => elsewhere t = elsewhere s
  | _ => True

theorem Stays.trans {s u : State} {r : VRes} (hr : Stays u r) (h : elsewhere u = elsewhere s) : Stays s r := by
  cases r with
  | done t => exact Eq.trans hr h
  | wait => trivial
  | trap => trivial

theorem stays_ite {s : State} {c : Prop} [Decidable c] {x y : VRes} (hx : Stays s x) (hy : Stays s y) :
    Stays s (if c then x else y) := by
  split
  · exact hx
  · exact hy

variable {s t : State} {a b d : Operand} {e : Env} {k : Hart} {o : VOps}

/-! ## Vector operations (R105 to R133) -/

theorem stays_withV {whole : Bool} {g : VSrc → VSrc → Hart → VRes} (hg : ∀ x y k, Stays s (g x y k)) :
    Stays s (withV whole a b e g s) := by
  unfold withV
  refine stays_ite trivial ?_
  split
  · trivial
  · trivial
  split
  · trivial
  · trivial
  · exact hg _ _ _

theorem stays_finishV {l : List (Nat × Elem)} : Stays s (finishV s d l k) := by
  unfold finishV
  split
  · exact rfl
  · trivial
  · trivial

theorem stays_finishS {w : Word} : Stays s (finishS s d w k) := by
  unfold finishS
  split
  · exact rfl
  · trivial

theorem stays_mould {f : Fmt} {F : Hart → VSrc → VSrc → VSrc → Nat → Nat × Flags} : Stays s (mould o f F e s) :=
  stays_withV fun _ _ _ => stays_finishV

theorem stays_intMould {g : Int → Int → Int → Int} : Stays s (intMould o g e s) := stays_mould

theorem stays_bitMould {g : Nat → Nat → Nat} : Stays s (bitMould o g e s) := stays_mould

theorem stays_shiftMould {g : Int → Nat → Int} : Stays s (shiftMould o g e s) := stays_mould

theorem stays_countMould {g : Nat → Nat → Nat} : Stays s (countMould o g e s) := by
  unfold countMould
  exact stays_mould

theorem stays_fpMould {g : Bool → Fp → Fp → Fp → Fp × Flags} : Stays s (fpMould o g e s) := by
  unfold fpMould
  exact stays_mould

theorem stays_estMould {g : Fp → Fp × Flags} : Stays s (estMould o g e s) := by
  unfold estMould
  exact stays_mould

theorem stays_cmpMould {F : Rel → VSrc → VSrc → Nat → Bool × Flags} : Stays s (cmpMould o F e s) :=
  stays_withV fun _ _ _ => rfl

theorem stays_permute {F : Nat → VSrc → VSrc → Nat → Nat} : Stays s (permute o F e s) :=
  stays_withV fun _ _ _ => stays_finishV

theorem stays_runVcompress : Stays s (runVcompress o e s) := stays_withV fun _ _ _ => stays_finishV

theorem stays_runVexpand : Stays s (runVexpand o e s) := stays_withV fun _ _ _ => stays_finishV

theorem stays_runVunpack : Stays s (runVunpack o e s) := stays_withV fun _ _ _ => stays_finishV

theorem stays_reduceTo {f : Fmt} {r : Nat} : Stays s (reduceTo s d f r k) := by
  unfold reduceTo
  split
  · exact stays_finishV
  · exact stays_finishS

theorem stays_reduceNone {f : Fmt} {r : Nat} : Stays s (reduceNone s d f r k) := by
  unfold reduceNone
  split
  · exact stays_reduceTo
  · exact rfl

theorem stays_runVred : Stays s (runVred o e s) :=
  stays_withV fun _ _ _ => stays_ite stays_reduceNone stays_reduceTo

theorem stays_runVredsc : Stays s (runVredsc o e s) :=
  stays_withV fun _ _ _ => stays_ite stays_reduceNone stays_reduceTo

theorem stays_runVdot : Stays s (runVdot o e s) :=
  stays_withV fun _ _ _ => stays_ite stays_reduceNone stays_reduceTo

theorem stays_countSr {r : VRes} (h : Stays s r) : Stays s (countSr o k r) := by
  unfold countSr
  split
  · exact stays_ite h h
  · exact h

theorem stays_runVcvt : Stays s (runVcvt o e s) := stays_countSr stays_mould

theorem stays_runVpack : Stays s (runVpack o e s) := stays_countSr (stays_withV fun _ _ _ => stays_finishV)

theorem stays_maskOp {r : BitVec 3} {g : Hart → Nat → Byte} : Stays s (maskOp r g e s) :=
  stays_withV fun _ _ _ => rfl

theorem stays_maskScan {r : BitVec 3} {x : VX} {g : List Nat → Word} : Stays s (maskScan d r x g e s) :=
  stays_withV fun _ _ _ => stays_finishS

/-! ## Accesses (R202 to R214, R255 to R257) -/

variable {m : VMOps} {f : Fmt} {q : BitVec 3}

theorem elsewhere_loadAt (h : Holder) (acc : Acc) (s : State) : elsewhere (s.loadAt h acc).2 = elsewhere s :=
  elsewhere_of_contexts (contexts_loadAt h acc s)

theorem elsewhere_cover (ws : List (Nat × Nat)) (s : State) : elsewhere (s.cover ws) = elsewhere s :=
  elsewhere_of_contexts (contexts_cover ws s)

theorem elsewhere_storeAt (r : RecMeta) (acc : Acc) (bs : List Byte) (s : State) :
    elsewhere (s.storeAt r acc bs) = elsewhere s := elsewhere_of_stored (stored_storeAt r acc bs s)

theorem elsewhere_load {va : Word} {n : Nat} {vec al : Bool} {bs : List Byte} (h : s.load va n vec al = .ok (bs, t)) :
    elsewhere t = elsewhere s := by
  unfold State.load at h
  split at h
  · cases h
  · obtain rfl : _ = t := congrArg Prod.snd (Except.ok.inj h)
    exact elsewhere_loadAt _ _ s

theorem elsewhere_loadElems {ea : Nat → Word} {act : Nat → Bool} (es : List Nat) :
    ∀ s, elsewhere (loadElems m e ea act es s).1 = elsewhere s := by
  induction es with
  | nil => exact fun _ => rfl
  | cons x es ih =>
    intro s
    unfold loadElems
    split
    · split
      · exact rfl
      · next h =>
        have hu := elsewhere_load h
        exact (ih _).trans hu
    split
    · exact ih _
    · exact ih _

theorem elsewhere_storeElems {data : Nat → Elem} {ea : Nat → Word} {act : Nat → Bool} (es : List Nat) :
    ∀ ws s, elsewhere (storeElems m e data ea act es ws s).1 = elsewhere s := by
  induction es with
  | nil => exact fun _ _ => rfl
  | cons x es ih =>
    intro ws s
    unfold storeElems
    split
    · dsimp only
      split
      · exact rfl
      split
      · exact rfl
      · exact (ih _ _).trans (elsewhere_storeAt _ _ _ _)
    · exact ih _ _

theorem stays_loadVector {ea : Hart → Nat → Word} : Stays s (loadVector m ea e s) := by
  unfold loadVector
  dsimp only
  split
  · trivial
  next h => exact (congrArg (fun r => elsewhere r.1) h).symm.trans (elsewhere_loadElems _ s)

theorem stays_storeVector {ea : Hart → Nat → Word} : Stays s (storeVector m ea e s) := by
  unfold storeVector
  dsimp only
  split
  · trivial
  next h =>
    exact (elsewhere_cover _ _).trans ((congrArg (fun r => elsewhere r.1) h).symm.trans (elsewhere_storeElems _ _ s))

theorem elsewhere_readAll (as : List Acc) : ∀ n l s, elsewhere (readAll f as n l s).2 = elsewhere s := by
  induction as with
  | nil => exact fun _ _ _ => rfl
  | cons a as ih => exact fun n l s => (ih _ _ _).trans (elsewhere_loadAt _ a s)

theorem elsewhere_writeAll {r : RecMeta} (as : List Acc) : ∀ n l s, elsewhere (writeAll f r as n l s) = elsewhere s := by
  induction as with
  | nil => exact fun _ _ _ => rfl
  | cons a as ih => exact fun n l s => (ih _ _ _).trans (elsewhere_storeAt _ a _ s)

theorem elsewhere_storeWhole {r : RecMeta} {g : Agent} {as : List Word} {l : List (Nat × Elem)}
    (h : storeWhole f r g as l s = .ok t) : elsewhere t = elsewhere s := by
  unfold storeWhole at h
  split at h
  · cases h
  split at h
  · cases h
  · obtain rfl := Except.ok.inj h
    exact (elsewhere_cover _ _).trans (elsewhere_writeAll _ _ _ s)

theorem stays_runVldq {x : SSrc} : Stays s (runVldq f q x b e s) := by
  unfold runVldq
  refine stays_ite trivial (stays_ite trivial (stays_ite trivial ?_))
  split
  · trivial
  · exact elsewhere_readAll _ _ _ s

theorem stays_runVstq {x : SSrc} : Stays s (runVstq f q x b e s) := by
  unfold runVstq
  refine stays_ite trivial (stays_ite trivial ?_)
  split
  · trivial
  split
  · trivial
  · next h =>
    have hu := elsewhere_storeWhole h
    exact hu

theorem stays_runVbind {sc st : Bool} {x : SSrc} : Stays s (runVbind f sc st q x e s) := by
  unfold runVbind
  refine stays_ite trivial (stays_ite trivial ?_)
  split
  · trivial
  next h =>
    refine stays_ite trivial ?_
    show elsewhere (if _ then _ else _) = _
    have hu := elsewhere_load h
    split
    · exact hu
    · exact hu

theorem stays_runVunbind : Stays s (runVunbind q e s) := by
  unfold runVunbind
  split
  · exact rfl
  refine stays_ite ?_ rfl
  split
  · trivial
  · exact stays_ite trivial rfl

theorem stays_runStmap {slot : BitVec 5} {soff : BitVec 7} {x : BitVec 6} : Stays s (runStmap slot soff x b e s) :=
  stays_ite rfl (stays_ite trivial (stays_ite trivial (stays_ite trivial (stays_ite trivial rfl))))

theorem elsewhere_dropLine (d : Dirty) (s : State) : elsewhere (dropLine e d s) = elsewhere s := by
  have hlog (l : List Nat) (g : State → Nat → Record) : elsewhere (l.foldl (fun s i => s.append (g s i)) s) = elsewhere s :=
    elsewhere_of_stored (stored_foldl _ (fun _ _ => stored_append _ _) l s)
  unfold dropLine
  dsimp only
  split
  · exact (elsewhere_of_contexts (contexts_putBytes _ _ _)).trans (hlog _ _)
  · exact elsewhere_of_contexts (contexts_putBytes _ _ s)

theorem stays_runStdrop {x : BitVec 6} : Stays s (runStdrop x b e s) := by
  unfold runStdrop
  refine stays_ite trivial ?_
  split
  · trivial
  · refine foldl_keeps elsewhere _ ?_ _ s
    exact fun s d => elsewhere_dropLine d s

theorem stays_runVamo {op : BitVec 3} {r : BitVec 5} {x : BitVec 6} {y : BitVec 5} {msk : Bool} {mn : BitVec 3}
    {scaled si : Bool} : Stays s (runVamo op f r x y msk mn scaled si e s) := by
  unfold runVamo
  refine stays_ite trivial ?_
  dsimp only
  split
  · trivial
  split
  · trivial
  split
  · trivial
  · refine foldl_keeps elsewhere _ ?_ _ s
    exact fun s _ => elsewhere_storeAt _ _ _ s

/-! ## Tiles, blocks and strip farms (R147 to R158, R175 to R180) -/

theorem elsewhere_readRanges {rs : List (Word × Nat)} {bss : List (List Byte)} (h : readRanges rs s = .ok (bss, t)) :
    elsewhere t = elsewhere s := by
  obtain ⟨accs, rfl⟩ := readRanges_state h
  refine foldl_keeps elsewhere _ ?_ accs s
  exact fun s a => elsewhere_loadAt _ a s

theorem stays_withSlot {n : Nat} {g : Tile → State → VRes} (hg : ∀ x, Stays s (g x s)) : Stays s (withSlot n e g s) :=
  stays_ite trivial (hg _)

theorem stays_runWfmt {wf : Fmt} {n : BitVec 2} : Stays s (runWfmt wf n a e s) := by
  refine stays_withSlot fun _ => stays_ite (stays_ite trivial ?_) rfl
  split
  · trivial
  · next h =>
    have hu := elsewhere_readRanges h
    exact hu

theorem stays_runWload {n : BitVec 2} {x : BitVec 6} {kofs : BitVec 12} : Stays s (runWload n x b kofs e s) := by
  refine stays_withSlot fun _ => stays_ite trivial (stays_ite trivial (stays_ite rfl ?_))
  extract_lets rows first
  split
  · trivial
  · next h =>
    have hu := elsewhere_readRanges h
    exact hu

theorem stays_runMaccLd {n : BitVec 2} {r : BitVec 5} {row0 : BitVec 6} : Stays s (runMaccLd n r row0 e s) :=
  stays_ite trivial (stays_withSlot fun _ => rfl)

theorem stays_runMova {sat : Bool} {r : BitVec 5} {n : BitVec 2} {rm : BitVec 3} {row0 : BitVec 6} :
    Stays s (runMova f sat r n rm row0 e s) := by
  refine stays_ite trivial (stays_withSlot fun x => ?_)
  dsimp only
  split
  · trivial
  · exact rfl

theorem stays_runMma {n : BitVec 2} {x : BitVec 6} {kofs : BitVec 12} : Stays s (runMma f n x b kofs e s) := by
  refine stays_withSlot fun x => ?_
  dsimp only
  split
  · trivial
  refine stays_ite rfl ?_
  split
  · trivial
  · next h =>
    have hu := elsewhere_readRanges h
    exact hu

theorem stays_runMwait {acc : Option (BitVec 2)} : Stays s (runMwait acc e s) := by
  unfold runMwait
  split
  · exact stays_withSlot fun _ => rfl
  · exact rfl

theorem elsewhere_loadBytes (as : List Word) : ∀ {s t : State} {bs : List Byte}, loadBytes as s = .ok (bs, t) →
    elsewhere t = elsewhere s := by
  induction as with
  | nil =>
    intro s t bs h
    obtain rfl : _ = t := congrArg Prod.snd (Except.ok.inj h)
    rfl
  | cons a as ih =>
    intro s t bs h
    unfold loadBytes at h
    split at h
    · cases h
    next hl =>
      split at h
      · cases h
      next hr =>
        obtain rfl : _ = t := congrArg Prod.snd (Except.ok.inj h)
        exact (ih hr).trans (elsewhere_load hl)

theorem elsewhere_activeOf {l : Launch} {start : Word} {len : Nat} {as : List Nat} (h : activeOf l start len s = .ok (as, t)) :
    elsewhere t = elsewhere s := by
  unfold activeOf at h
  split at h
  · obtain rfl : _ = t := congrArg Prod.snd (Except.ok.inj h)
    rfl
  dsimp only at h
  split at h
  · cases h
  · next hl =>
    obtain rfl : _ = t := congrArg Prod.snd (Except.ok.inj h)
    exact elsewhere_loadBytes _ hl

theorem stays_farmLoop {x : BitVec 6} {r : BitVec 3} {y : BitVec 5} {n dens : Nat} (fuel : Nat) :
    ∀ full s, Stays s (farmLoop x r y n dens full fuel s) := by
  induction fuel with
  | zero => exact fun _ _ => rfl
  | succ fuel ih =>
    intro full s
    unfold farmLoop
    split
    · trivial
    refine stays_ite ?_ ?_
    · dsimp only
      split
      · trivial
      · next h =>
        have hu := elsewhere_activeOf h
        exact stays_ite ((ih _ _).trans hu) hu
    · split
      · exact rfl
      split
      · exact rfl
      · exact rfl

theorem stays_runFarmNext {x : BitVec 6} {r : BitVec 3} {y : BitVec 5} : Stays s (runFarmNext x r y e s) := by
  unfold runFarmNext
  refine stays_ite trivial ?_
  split
  · trivial
  · exact stays_ite trivial (stays_ite trivial (stays_farmLoop _ _ s))

/-! ## Every queued instruction -/

theorem stays_runQueued (i : Instr) : Stays s (runQueued i e s) := by
  cases i
  all_goals dsimp only [runQueued]
  case vadd | vsub | vmul | vmulh | vmadd | vmin | vmax | vabsd | vavg => exact stays_intMould
  case vand | vor | vxor | vandn => exact stays_bitMould
  case vshl | vshr | vsra => exact stays_shiftMould
  case vsel | vmov | vbcast | vid | vdot4 | vfscl | vfrnd | vfmin | vfmax => exact stays_mould
  case vclz | vpopc => exact stays_countMould
  case vfadd | vfsub | vfmul | vfma | vfdiv | vfsqrt => exact stays_fpMould
  case vfrcp | vfrsq | vfexp2 | vflog2 => exact stays_estMould
  case vcmp | vfcmp => exact stays_cmpMould
  case vxch | vperm | vslide => exact stays_permute
  case vcompress => exact stays_runVcompress
  case vexpand => exact stays_runVexpand
  case vred => exact stays_runVred
  case vredsc => exact stays_runVredsc
  case vdot => exact stays_runVdot
  case vcvt => exact stays_runVcvt
  case vpack => exact stays_runVpack
  case vunpack => exact stays_runVunpack
  case mand | mor | mnot => exact stays_maskOp
  case mpopc | mfirst => exact stays_maskScan
  case vld | vlds | vldx => exact stays_loadVector
  case vst | vsts | vstx => exact stays_storeVector
  case vldq => exact stays_runVldq
  case vstq => exact stays_runVstq
  case vbind => exact stays_runVbind
  case vunbind => exact stays_runVunbind
  case stmap => exact stays_runStmap
  case stdrop => exact stays_runStdrop
  case wfmt => exact stays_runWfmt
  case wload => exact stays_runWload
  case mzero => exact stays_withSlot fun _ => rfl
  case maccLd => exact stays_runMaccLd
  case mova => exact stays_runMova
  case mma => exact stays_runMma
  case vamo => exact stays_runVamo
  case vfetch => exact stays_ite trivial (stays_ite rfl rfl)
  case vpret => trivial
  case mwait => exact stays_runMwait
  case mstat => exact stays_finishS
  case farmNext => exact stays_runFarmNext
  all_goals exact rfl

end Sys2Proof.Proofs
end


section
/-! PROOFS. One replayed iteration: the registers it starts from, what its operations and accesses leave alone, and what it
leaves in its context (R317 to R323). -/

namespace Sys2Proof.Proofs

open Sys2Proof.Machine Sys2Proof.Safety

/-! ## The affine registers at the start (R316, R319) -/

/-- An entry of a fold over carried registers sets its own register alone. -/
theorem rs_foldl_carried {first j : Nat} {v : Word} {val : Nat × Nat × Res → Hart → Word} (hpos : 0 < first + j)
    (l : List (Nat × Nat × Res)) : ∀ (x : Hart), (∀ c ∈ l, c.1 = j → ∀ y, val c y = v) →
    ((∃ c ∈ l, c.1 = j) ∨ x.rs (first + j) = v) →
    (l.foldl (fun (y : Hart) c => y.ws (first + c.1) (val c y)) x).rs (first + j) = v := by
  induction l with
  | nil => exact fun _ _ hj => hj.resolve_left fun ⟨_, hc, _⟩ => nomatch hc
  | cons c l ih =>
    intro x hval hj
    obtain ⟨hc, hl⟩ := List.forall_mem_cons.1 hval
    refine ih _ hl ?_
    by_cases hcj : c.1 = j
    · refine .inr ?_
      rw [Hart.rs_ws, hcj, hc hcj x, if_pos ⟨rfl, hpos.ne'⟩]
    · refine hj.imp (fun ⟨d, hd, hdj⟩ => ⟨d, (List.mem_cons.1 hd).resolve_left fun h => hcj (h ▸ hdj), hdj⟩) fun hx => ?_
      rw [Hart.rs_ws, if_neg (by omega), hx]

theorem rs_carriedAt {m : Mark} {c : Nat} (i : Word) (x : Hart) (hc : c < m.kinds.length) (hpos : 0 < m.first + c)
    (hk : m.kinds.getD c 0 = 0) : (m.carriedAt i x).rs (m.first + c) = m.base.getD c 0 + i * m.delta.getD c 0 := by
  have hmem : (c, (0 : Nat), Res.s (m.first + c)) ∈ m.carried := by
    rw [Mark.carried, List.mem_map]
    refine ⟨(m.kinds[c], c), List.mk_mem_zipIdx_iff_getElem?.2 (List.getElem?_eq_getElem hc), ?_⟩
    rw [List.getD_eq_getElem?_getD, List.getElem?_eq_getElem hc, Option.getD_some] at hk
    rw [hk]; rfl
  refine rs_foldl_carried hpos m.carried x (fun d hd hdc y => ?_) (.inl ⟨_, hmem, rfl⟩)
  rw [Mark.carried, List.mem_map] at hd
  obtain ⟨⟨k, n⟩, hp, rfl⟩ := hd
  have hkind : m.kinds[n]? = some k := List.mk_mem_zipIdx_iff_getElem?.1 hp
  have hn : n = c := hdc
  rw [hn] at hkind
  rw [List.getD_eq_getElem?_getD, hkind] at hk
  have hk0 : k.toNat = 0 := congrArg BitVec.toNat hk
  dsimp only
  rw [if_pos hk0, hn]
  rfl

/-! ## What an operation leaves alone -/

variable {s t : State}

theorem elsewhere_alu {i : Instr} {a b d : Operand} {f : Word → Word → Word × Flags} :
    elsewhere (alu i a b d f s) = elsewhere s := by
  unfold alu
  repeat' split
  all_goals rfl

theorem elsewhere_guarded {c : Ctl} {f : State → State} (hf : elsewhere (f s) = elsewhere s) :
    elsewhere (orSame s (guarded c s f)) = elsewhere s := by
  unfold guarded
  split
  · exact hf
  · rfl

theorem elsewhere_execCmp {c : Ctl} {r : Rel} {nat : Bool} {d : BitVec 3} {a : BitVec 6} {b : Operand} :
    elsewhere (orSame s (execCmp c r nat d a b s)) = elsewhere s := by
  refine elsewhere_guarded ?_
  unfold withSources
  repeat' split
  all_goals rfl

theorem elsewhere_execSel {c : Ctl} {d a b : Operand} {neg : Bool} {p : BitVec 3} :
    elsewhere (orSame s (execSel c d a b neg p s)) = elsewhere s := by
  refine elsewhere_guarded ?_
  dsimp only
  exact elsewhere_alu

theorem elsewhere_replayQueued {i : Instr} {e : Env}
    (h : (match runQueued i e s with | .done t => some t | .wait => none | .trap .. => some s) = some t) :
    elsewhere t = elsewhere s := by
  have hr : Stays s (runQueued i e s) := stays_runQueued i
  split at h
  · next hd =>
    cases h
    rw [hd] at hr
    exact hr
  · cases h
  · cases h; rfl

theorem elsewhere_replayOp {i : Instr} (h : replayOp i s = some t) : elsewhere t = elsewhere s := by
  have alu {i : Instr} {c : Ctl} {a b d : Operand} {f : Word → Word → Word × Flags}
      (h : some (orSame s (guarded c s (alu i a b d f))) = some t) : elsewhere t = elsewhere s := by
    cases h
    exact elsewhere_guarded elsewhere_alu
  unfold replayOp at h
  dsimp only at h
  split at h
  case h_13 => cases h; exact elsewhere_execCmp
  case h_14 => cases h; exact elsewhere_execSel
  case h_17 => exact elsewhere_replayQueued h
  all_goals exact alu h

/-! ## What an access leaves alone -/

theorem contexts_residueRows (stack : Nat) (ws : List (Nat × Nat)) (s : State) :
    contexts (s.residueRows stack ws) = contexts s := rfl

/-- One part of a replayed store. -/
def replayPart (slice : Nat) (m : RecMeta) (c : Chunk) (bs : List Byte) (s : State) : State :=
  let u := (s.logChunk m c bs).patchHome c.pa bs
  let w := (u.write c.pa bs u.myTag).markFrame u.hart.launch c.pa
  w.residueRows (slice / 16) (w.spans c)

theorem stored_replayPart (slice : Nat) (m : RecMeta) (c : Chunk) (bs : List Byte) (s : State) :
    Stored s (replayPart slice m c bs s) := by
  have hu : Stored s ((s.logChunk m c bs).patchHome c.pa bs) :=
    (stored_logChunk m c bs s).trans (stored_of_contexts (contexts_patchHome _ _ _))
  have hw : Stored s (((s.logChunk m c bs).patchHome c.pa bs).write c.pa bs
      ((s.logChunk m c bs).patchHome c.pa bs).myTag) := hu.trans (stored_of_contexts (contexts_write _ _ _ _))
  have hm := hw.trans (stored_markFrame c.pa _)
  rw [hw.launch.trans hu.launch.symm] at hm
  exact hm.trans (stored_of_contexts (contexts_residueRows _ _ _))

theorem stored_replayChunks (slice : Nat) (m : RecMeta) (cs : List Chunk) :
    ∀ bs s, Stored s (replayChunks slice m cs bs s) := by
  induction cs with
  | nil => exact fun _ s => Stored.refl s
  | cons c cs ih => exact fun bs s => (stored_replayPart slice m c _ s).trans (ih _ _)

theorem elsewhere_replayAccess {slice : Nat} {prec : Addr} {it : Word} {i : Instr}
    (h : replayAccess slice prec it i s = .ok t) : elsewhere t = elsewhere s := by
  unfold replayAccess at h
  have hkeep (acc : Acc) : elsewhere (s.keep acc.fills) = elsewhere s := elsewhere_of_contexts (contexts_keep _ s)
  split at h
  · cases h; rfl
  split at h
  · cases h
  next acc _ =>
    split at h
    · cases h
    dsimp only at h
    split at h
    · cases h; exact hkeep acc
    · cases h; exact hkeep acc
    · cases h; exact hkeep acc
    · split at h
      · cases h
      · cases h
        exact (elsewhere_cover _ _).trans ((elsewhere_of_stored (stored_replayChunks _ _ _ _ _)).trans (hkeep acc))

/-! ## The whole path -/

theorem elsewhere_replayPath {m : Mark} (l : List TraceRec) : ∀ {s t : State}, replayPath m l s = .ok t →
    elsewhere t = elsewhere s := by
  induction l with
  | nil => intro s t h; cases h; rfl
  | cons r l ih =>
    intro s t h
    obtain ⟨-, off, on⟩ := bodyRuns_of_replayPath h
    cases hr : r.on with
    | false => exact ih (replayPath_of_bodyRuns (off hr))
    | true =>
      obtain ⟨-, u, hu, hx⟩ := on hr
      refine (ih (replayPath_of_bodyRuns hu)).trans ?_
      split at hx
      · exact elsewhere_replayAccess hx
      split at hx
      · rw [if_pos rfl] at hx; rw [hx]
      · rw [if_pos rfl] at hx; rw [hx]
      · rw [if_neg Bool.false_ne_true] at hx; exact elsewhere_replayOp hx

/-! ## What an iteration leaves in its context (R319, R323) -/

theorem ctxOf_focus (n h : Nat) (s : State) : ctxOf (s.focus n) h = ctxOf s h := by
  obtain ⟨hsaved, horphans, -⟩ := focus_frame n s
  rw [ctxOf, ctxOf, hartAt_focus, hsaved, horphans]

/-- The state in which an iteration of hart n's context starts. -/
def replayStart (h n : Nat) (x : Hart) (s : State) : State :=
  { s.focus n with
    hart := replayHart x (Config.freeWord s.fresh)
    saved := (s.focus n).saved ++ (if h = n then [] else [⟨(s.focus n).hart, n, 0, 0, 0, .yield, 0, []⟩])
    fresh := s.fresh + 1 }

/-- The contexts of the package stand as they stood before the iteration. -/
theorem ctxOf_back {h n : Nat} {x : Hart} {r : State} (hr : elsewhere r = elsewhere (replayStart h n x s)) :
    ctxOf (({ r with hart := (s.focus n).hart, saved := s.saved } : State).focus s.cur) h = ctxOf s h := by
  refine (ctxOf_focus _ _ _).trans (Eq.trans (ctxOf_congr ?_ h) (ctxOf_focus n h s))
  have hsaved : (s.focus n).saved = s.saved := (focus_frame n s).1
  obtain ⟨hc, ho, hp⟩ : r.cur = (s.focus n).cur ∧ r.others = (s.focus n).others ∧ r.orphans = (s.focus n).orphans :=
    ⟨congrArg (·.1) hr, congrArg (·.2.1) hr, congrArg (·.2.2) hr⟩
  rw [tenants, tenants, hsaved]
  dsimp only
  rw [hc, ho, hp]

/-- A context after an iteration whose last state is r. -/
def replayed (h : Nat) (m : Mark) (r : State) (y : Hart) : Hart :=
  { keepRecords r.hart (decide (h < slotCount)) y with
    mark := { y.mark with
      next := m.next + 1
      regs := captureRegs r.hart
      flags := r.hart.fflags
      replay := if m.next + 1 = m.n then .finished else .running } }

theorem replayOnce_ok {h n : Nat} {x : Hart} {r : State} (hr : Machine.replayIteration x.mark (replayStart h n x s) = .ok r) :
    replayOnce h n x s = some (modCtx h (replayed h x.mark r)
      (({ r with hart := (s.focus n).hart, saved := s.saved } : State).focus s.cur)) := by
  unfold replayOnce
  extract_lets m at_ aside start
  rw [show Machine.replayIteration m start = .ok r from hr]
  rfl

theorem replayIteration_runs {h n : Nat} {x : Hart} {r : State} {rooms : List (Byte × List Word)} (hx : ctxOf s h = some (n, x))
    (hs : x.mark.state = .replaying) (hrun : x.mark.replay = .running) (hz : (s.zoneAt (64 + x.mark.slice / 16)).f ≠ 0) :
    let m := x.mark
    let start := replayStart h n x s
    replayChecks m m.trace [] start = .ok rooms → noRoomFor start 0 rooms = none →
    start.appendHeld (rooms.map fun r => r.2.length).sum = false → BodyRuns m m.trace start r →
    ∃ t y slot, exec (.replayIteration h) s = .next t ∧ t.mem = r.mem ∧ ctxOf t h = some (slot, y) ∧
      y.mark.next = m.next + 1 ∧ y.mark.regs = captureRegs r.hart ∧ y.mark.flags = r.hart.fflags ∧
      y.mark.replay = (if m.next + 1 = m.n then .finished else .running) ∧
      y.s = x.s ∧ y.p = x.p ∧ y.v = x.v ∧ y.m = x.m ∧ y.pc = x.pc ∧ y.fflags = x.fflags := by
  intro m start hchecks hroom happ hbody
  have hpath : replayPath m m.trace start = .ok r := replayPath_of_bodyRuns hbody
  have hiter : Machine.replayIteration m start = .ok r := by
    rw [Machine.replayIteration, hchecks]
    dsimp only
    rw [if_neg (by rw [happ]; exact Bool.false_ne_true), hroom]
    exact hpath
  have hoff : s.zoneOff (64 + x.mark.slice / 16) = false := decide_eq_false hz
  have hback := ctxOf_back (elsewhere_replayPath _ hpath)
  rw [hx] at hback
  refine ⟨_, _, n, ?_, ?_, ctxOf_modCtx hback (f := replayed h m r) rfl, rfl, rfl, rfl, rfl, rfl, rfl, rfl, rfl, rfl, rfl⟩
  · have he : exec (.replayIteration h) s = execReplayIteration h s := rfl
    rw [he, execReplayIteration, hx]
    dsimp only
    rw [if_neg (by simp [hs, hrun, hoff])]
    exact congrArg (due s) (replayOnce_ok hiter)
  · rw [modCtx_mem, (focus_frame _ _).2.2.2]

end Sys2Proof.Proofs
end


section
/-! PROOFS. An operation of the body does to the replay's registers what its instruction does to those of a hart (R312, R317,
R318). -/

namespace Sys2Proof.Proofs

open Sys2Proof.Machine Sys2Proof.Safety

variable {s t : State} {i : Instr} {c : Ctl}

/-! ## Scalar operations -/

theorem replayOp_of_exec (hi : replayOp i s = some (orSame s (exec i s))) (h : exec i s = .next t) : replayOp i s = some t := by
  rw [hi, h]
  rfl

theorem replayOp_scalar (c : Ctl) (o : SOps) (s t : State) :
    ∀ i ∈ [Instr.add c o, .sub c o, .mul c o, .min c o, .max c o, .and c o, .or c o, .xor c o, .shl c o, .shr c o, .sra c o],
      exec i s = .next t → replayOp i s = some t := by
  simp only [List.forall_mem_cons]
  exact ⟨replayOp_of_exec rfl, replayOp_of_exec rfl, replayOp_of_exec rfl, replayOp_of_exec rfl, replayOp_of_exec rfl,
    replayOp_of_exec rfl, replayOp_of_exec rfl, replayOp_of_exec rfl, replayOp_of_exec rfl, replayOp_of_exec rfl,
    replayOp_of_exec rfl, List.forall_mem_nil _⟩

/-! ## Vector operations: an issue moves pc on and numbers the instruction, which the effect does not see -/

/-- A hart whose instruction has issued. -/
def onward (h : Hart) : Hart := { h with pc := h.pc + 12, waiting := none, vseq := h.vseq + 1 }

/-- An answer with its hart changed. -/
def gotWith {α : Type} (f : Hart → Hart) : Got (α × Hart) → Got (α × Hart)
  | .ok (a, h) => .ok (a, f h)
  | .wait => .wait
  | .trap t => .trap t

/-- An answered hart changed. -/
def gotHart (f : Hart → Hart) : Got Hart → Got Hart
  | .ok h => .ok (f h)
  | .wait => .wait
  | .trap t => .trap t

theorem popV_onward (n : Nat) (h : Hart) : popV n (onward h) = gotWith onward (popV n h) := by
  have hs : (onward h).stream n = h.stream n := rfl
  have hv : (onward h).vq n = h.vq n := rfl
  unfold popV
  rw [hs, hv]
  cases h.stream n with
  | none => cases h.vq n <;> rfl
  | some b =>
    dsimp only
    cases b.store with
    | true => rfl
    | false =>
      cases h.vq n with
      | nil => cases b.trap <;> rfl
      | cons x l => rfl

theorem pushV_onward (n : Nat) (x : List (Nat × Elem)) (h : Hart) :
    pushV n x (onward h) = gotHart onward (pushV n x h) := by
  have hs : (onward h).stream n = h.stream n := rfl
  have hv : (onward h).vq n = h.vq n := rfl
  unfold pushV
  rw [hs, hv]
  cases h.stream n with
  | none => dsimp only; split <;> rfl
  | some b =>
    dsimp only
    cases b.store with
    | false => rfl
    | true =>
      cases b.trap with
      | some e => rfl
      | none => simp only [Bool.not_true, Bool.false_eq_true, if_false]; split <;> rfl

theorem takeV_onward (o : Operand) (v : Env) (h : Hart) : takeV o v (onward h) = gotWith onward (takeV o v h) := by
  cases o with
  | q n =>
    have hq : (onward h).sq n.toNat = h.sq n.toNat := rfl
    unfold takeV
    dsimp only
    rw [hq, popV_onward]
    split
    · cases h.sq n.toNat <;> rfl
    · cases popV (n.toNat - 8) h <;> rfl
  | _ => rfl

theorem putV_onward (o : Operand) (x : List (Nat × Elem)) (h : Hart) : putV o x (onward h) = gotHart onward (putV o x h) := by
  cases o with
  | q n => exact pushV_onward _ x h
  | _ => rfl

/-- Where the second run completes, the first completes in the same way. -/
def Follows (r r' : VRes) : Prop := ∀ t, r' = .done t → ∃ u, r = .done u ∧ t = u.onH onward

theorem follows_wait {r : VRes} : Follows r .wait := fun _ h => nomatch h

theorem follows_trap {r : VRes} {e : Trap} {u : State} {n : Nat} : Follows r (.trap e u n) := fun _ h => nomatch h

theorem follows_withV {whole : Bool} {a b : Operand} {v : Env} {g g' : VSrc → VSrc → Hart → VRes}
    (hg : ∀ x y k, Follows (g x y k) (g' x y (onward k))) : Follows (withV whole a b v g s) (withV whole a b v g' s.issued) := by
  have hv : s.issued.hart = onward s.hart := rfl
  have hstart : (onward s.hart).vstart = s.hart.vstart := rfl
  unfold withV
  rw [hv, hstart, takeV_onward]
  split
  · exact follows_trap
  cases takeV a v s.hart with
  | wait => exact follows_wait
  | trap => exact follows_trap
  | ok p =>
    obtain ⟨x, k⟩ := p
    dsimp only [gotWith]
    rw [takeV_onward]
    cases takeV b v k with
    | wait => exact follows_wait
    | trap => exact follows_trap
    | ok p => exact hg x p.1 p.2

theorem follows_finishV {d : Operand} {x : List (Nat × Elem)} {k : Hart} :
    Follows (finishV s d x k) (finishV s.issued d x (onward k)) := by
  have hk : ({ onward k with vstart := 0 } : Hart) = onward { k with vstart := 0 } := rfl
  unfold finishV
  rw [hk, putV_onward]
  cases putV d x { k with vstart := 0 } with
  | wait => exact follows_wait
  | trap => exact follows_trap
  | ok k' => intro t h; cases h; exact ⟨_, rfl, rfl⟩

theorem follows_mould {o : VOps} {f : Fmt} {F : Hart → VSrc → VSrc → VSrc → Nat → Nat × Flags} {v : Env}
    (hF : ∀ h, F (onward h) = F h) : Follows (mould o f F v s) (mould o f F v s.issued) := by
  refine follows_withV fun x y k => ?_
  dsimp only
  rw [hF]
  exact follows_finishV

theorem follows_intMould {o : VOps} {g : Int → Int → Int → Int} {v : Env} :
    Follows (intMould o g v s) (intMould o g v s.issued) := follows_mould fun _ => rfl

theorem follows_bitMould {o : VOps} {g : Nat → Nat → Nat} {v : Env} :
    Follows (bitMould o g v s) (bitMould o g v s.issued) := follows_mould fun _ => rfl

theorem follows_shiftMould {o : VOps} {g : Int → Nat → Int} {v : Env} :
    Follows (shiftMould o g v s) (shiftMould o g v s.issued) := follows_mould fun _ => rfl

theorem follows_fpMould {o : VOps} {g : Bool → Fp → Fp → Fp → Fp × Flags} {v : Env} :
    Follows (fpMould o g v s) (fpMould o g v s.issued) := follows_mould fun _ => rfl

theorem follows_cmpMould {o : VOps} {F : Rel → VSrc → VSrc → Nat → Bool × Flags} {v : Env} :
    Follows (cmpMould o F v s) (cmpMould o F v s.issued) := by
  refine follows_withV fun x y k t h => ?_
  cases h
  exact ⟨_, rfl, rfl⟩

/-- An instruction that issues at once and leaves nothing in the queue has completed. -/
theorem run_of_issueV {run : Env → State → VRes} (hi : Issues c s) (h : issueV i c run s = .next t) (hq : t.hart.vcq = []) :
    run (s.envOf i) s.issued = .done t := by
  have hidle : s.vectorIdle = true := hi.2.2
  have hnot (u : State) (v : Env) (e : Option (Trap × Nat)) : u.enqueue i v e ≠ t := by
    rintro rfl
    exact List.append_ne_nil_of_right_ne_nil _ (List.cons_ne_nil _ _) hq
  rw [issueV, entering_issues hi] at h
  dsimp only at h
  rw [if_pos hidle] at h
  have h := Host.Outcome.next.inj h
  split at h
  · rw [← h]; assumption
  · exact absurd h (hnot _ _ _)
  · split at h
    · exact absurd h (hnot _ _ _)
    · exact absurd h (hnot _ _ _)

theorem replayOp_of_issue {run : Env → State → VRes} (hi : Issues c s) (hv : s.vlen = 1) (hx : exec i s = issueV i c run s)
    (hr : replayOp i s = match run { s.envOf i with n := 1 } s with | .done t => some t | .wait => none | .trap .. => some s)
    (hf : Follows (run (s.envOf i) s) (run (s.envOf i) s.issued)) (hq : t.hart.vcq = []) (h : exec i s = .next t) :
    ∃ u, replayOp i s = some u ∧ u.hart.v = t.hart.v ∧ u.hart.m = t.hart.m ∧ u.hart.fflags = t.hart.fflags ∧
      u.mem = t.mem := by
  have henv : { s.envOf i with n := 1 } = s.envOf i := by rw [← hv]; rfl
  obtain ⟨u, hu, rfl⟩ := hf t (run_of_issueV hi (hx.symm.trans h) hq)
  rw [hr, henv, hu]
  exact ⟨u, rfl, rfl, rfl, rfl, rfl⟩

theorem replayOp_vector (c : Ctl) (o : VOps) (s t : State) (hi : Issues c s) (hv : s.vlen = 1) (hq : t.hart.vcq = []) :
    ∀ i ∈ [Instr.vadd c o, .vsub c o, .vmul c o, .vmin c o, .vmax c o, .vand c o, .vor c o, .vxor c o, .vshl c o, .vshr c o,
        .vsra c o, .vsel c o, .vfadd c o, .vfsub c o, .vfmul c o, .vfmin c o, .vfmax c o, .vcmp c o, .vfcmp c o],
      exec i s = .next t → ∃ u, replayOp i s = some u ∧ u.hart.v = t.hart.v ∧ u.hart.m = t.hart.m ∧
        u.hart.fflags = t.hart.fflags ∧ u.mem = t.mem := by
  have run {i : Instr} {run : Env → State → VRes} (hx : exec i s = issueV i c run s) (hr : replayOp i s =
      match run { s.envOf i with n := 1 } s with | .done t => some t | .wait => none | .trap .. => some s)
      (hf : ∀ v, Follows (run v s) (run v s.issued)) := replayOp_of_issue hi hv hx hr (hf _) hq
  simp only [List.forall_mem_cons]
  exact ⟨run rfl rfl fun _ => follows_intMould, run rfl rfl fun _ => follows_intMould, run rfl rfl fun _ => follows_intMould,
    run rfl rfl fun _ => follows_intMould, run rfl rfl fun _ => follows_intMould, run rfl rfl fun _ => follows_bitMould,
    run rfl rfl fun _ => follows_bitMould, run rfl rfl fun _ => follows_bitMould, run rfl rfl fun _ => follows_shiftMould,
    run rfl rfl fun _ => follows_shiftMould, run rfl rfl fun _ => follows_shiftMould,
    run rfl rfl fun _ => follows_mould fun _ => rfl, run rfl rfl fun _ => follows_fpMould,
    run rfl rfl fun _ => follows_fpMould, run rfl rfl fun _ => follows_fpMould, run rfl rfl fun _ => follows_mould fun _ => rfl,
    run rfl rfl fun _ => follows_mould fun _ => rfl, run rfl rfl fun _ => follows_cmpMould,
    run rfl rfl fun _ => follows_cmpMould, List.forall_mem_nil _⟩

end Sys2Proof.Proofs
end


section
/-! PROOFS. The accesses of a replayed iteration (R317, R318, R323). -/

namespace Sys2Proof.Proofs

open Sys2Proof.Machine Sys2Proof.Safety

variable {slice : Nat} {prec : Addr} {it : Word} {i : Instr} {va : Word} {n : Nat} {acc : Acc} {s : State}

/-! ## The parts of a replayed store -/

theorem replayChunks_eq (slice : Nat) (m : RecMeta) (cs : List Chunk) : ∀ (bs : List Byte) (s : State),
    replayChunks slice m cs bs s = putParts (replayPart slice m) cs bs s := by
  induction cs with
  | nil => exact fun _ _ => rfl
  | cons c cs ih => exact fun bs s => ih _ _

theorem pkg_replayPart (slice : Nat) (m : RecMeta) (c : Chunk) (w : List Byte) (s : State) :
    (replayPart slice m c w s).pkg = s.pkg := congrArg Contexts.pkg (stored_replayPart slice m c w s).1

/-- Where nothing is logged, a part of a replayed store is a write of its bytes. -/
theorem byte_replayPart (h : Plain s) (slice : Nat) (m : RecMeta) (c : Chunk) (w : List Byte) (a : Nat) :
    (replayPart slice m c w s).byte a = if c.pa ≤ a ∧ a < c.pa + w.length then w.getD (a - c.pa) 0 else s.byte a := by
  have hl : s.logChunk m c w = s := if_pos (by rw [h.logged]; rfl)
  have hp : (s.patchHome c.pa w).pkg = s.pkg := State.patchHome_pkg c.pa w s
  have hu : Settled (s.patchHome c.pa w) := Settled.of_pkg ⟨h.migFwd, h.fwds⟩ hp
  have hmark := markFrame_mem_pkg (s.patchHome c.pa w).hart.launch c.pa
    ((s.patchHome c.pa w).write c.pa w (s.patchHome c.pa w).myTag)
  have hpart : (replayPart slice m c w s).byte a = ((s.patchHome c.pa w).write c.pa w (s.patchHome c.pa w).myTag).byte a := by
    rw [replayPart, hl]
    exact byte_congr hmark.1 hmark.2 a
  rw [hpart, State.byte_write, byte_putBytes hu.1 hu.2, byte_congr (State.patchHome_mem c.pa w s) hp]

theorem plain_replayPart (h : Plain s) (slice : Nat) (m : RecMeta) (c : Chunk) (w : List Byte) :
    Plain (replayPart slice m c w s) := by
  have hp := pkg_replayPart slice m c w s
  have hl : s.logChunk m c w = s := if_pos (by rw [h.logged]; rfl)
  refine ⟨?_, hp ▸ h.migFwd, hp ▸ h.fwds⟩
  rw [replayPart, hl, logged_of_contexts (contexts_residueRows _ _ _), logged_markFrame,
    logged_of_contexts (contexts_write _ _ _ _), logged_of_contexts (contexts_patchHome _ _ _), h.logged]

theorem putsPart_replayPart (slice : Nat) (m : RecMeta) : PutsPart Plain (replayPart slice m) where
  keeps h := plain_replayPart h slice m _ _
  byte h := byte_replayPart h slice m _ _ _

/-! ## A replayed store -/

theorem byte_cover (ws : List (Nat × Nat)) (s : State) (a : Nat) : (s.cover ws).byte a = s.byte a :=
  byte_congr (cover_mem ws s) (congrArg Contexts.pkg (contexts_cover ws s)) a

/-- The state after a checked store of a replay. -/
def replayStored (slice : Nat) (prec : Addr) (it : Word) (acc : Acc) (bs : List Byte) (s : State) : State :=
  (replayChunks slice (replayRec s prec it) acc.chunks bs (s.keep acc.fills)).cover (s.extents acc)

theorem hart_replayStored {γ : Type} (g : Hart → γ) (hg : ∀ h, g (unlined h) = g h) (bs : List Byte) :
    g (replayStored slice prec it acc bs s).hart = g s.hart := by
  have hkeep : (s.keep acc.fills).hart = s.hart := congrArg Contexts.hart (contexts_keep _ s)
  rw [replayStored, cover_hart, ← hkeep]
  exact eq_of_unlined g hg (stored_replayChunks _ _ _ _ _).hart

theorem bytes_replayStored (h : Plain s) (hp : acc.chunks.Pairwise Apart) {bs : List Byte}
    (hn : (acc.chunks.map Chunk.n).sum = bs.length) :
    (∀ a, Outside acc.chunks a → (replayStored slice prec it acc bs s).byte a = s.byte a) ∧
      (replayStored slice prec it acc bs s).bytesAt acc = bs := by
  have hk : Plain (s.keep acc.fills) := h.of_contexts (contexts_keep _ s)
  have hf := putsPart_replayPart slice (replayRec s prec it)
  have hcover (a : Nat) : (replayStored slice prec it acc bs s).byte a =
      (putParts (replayPart slice (replayRec s prec it)) acc.chunks bs (s.keep acc.fills)).byte a := by
    rw [replayStored, byte_cover, replayChunks_eq]
  refine ⟨fun a ho => by rw [hcover, byte_putParts_outside hf _ _ hk ho, byte_keep], ?_⟩
  have hbytes (c : Chunk) : (replayStored slice prec it acc bs s).bytes c.pa c.n =
      (putParts (replayPart slice (replayRec s prec it)) acc.chunks bs (s.keep acc.fills)).bytes c.pa c.n :=
    bytes_congr fun i _ => hcover _
  simp only [State.bytesAt, hbytes]
  exact bytes_putParts hf _ bs hk hp hn

theorem isStore_cases (h : isStore i = true) : (∃ c f d a b, i = .st c f d a b) ∨ ∃ c o, i = .vst c o := by
  unfold isStore at h
  split at h
  · exact .inl ⟨_, _, _, _, _, rfl⟩
  · exact .inr ⟨_, _, rfl⟩
  · cases h

/-- The effect of an access that has passed its checks. -/
def replayMoves (slice : Nat) (prec : Addr) (it : Word) (n : Nat) (acc : Acc) (s : State) : Instr → Except Byte State
  | .ld _ f d .. | .ldx _ f d .. =>
      .ok ((s.keep acc.fills).onH fun h => (putS d (ext f (fmtRead f (leNat (s.bytesAt acc)))) h).getD h)
  | .vld _ o => .ok ((s.keep acc.fills).onH (Hart.wv o.d.toNat 0 (extElem o.fmt (leNat (s.bytesAt acc)))))
  | i =>
      match s.logFull (State.recordAddrs acc) with
      | some _ => .error 0x13
      | none => .ok (replayStored slice prec it acc (match i with
          | .st _ _ d .. => bytesOf n (scalarValue d s.hart)
          | .vst _ o => leBytes n (swz o.dswz (s.hart.rv o.d.toNat 0)).toNat
          | _ => []) s)

section
variable (hb : bodyAccess i s.hart = some (va, n))
  (hc : s.check (replayAgent slice s) ⟨va, n, if isStore i then .store else .load, true, true⟩ = .ok acc)
  (hh : notHeld s acc = false)
include hb hc hh

theorem replayAccess_eq : replayAccess slice prec it i s = replayMoves slice prec it n acc s i := by
  rw [replayAccess, hb]
  dsimp only
  rw [hc]
  dsimp only
  rw [hh, if_neg Bool.false_ne_true]
  cases i <;> rfl

theorem replayAccess_st {c : Ctl} {f : Fmt} {d : Operand} {a : BitVec 6} {b : Operand} (hi : i = .st c f d a b)
    (hl : s.logFull (State.recordAddrs acc) = none) : replayAccess slice prec it i s =
      .ok (replayStored slice prec it acc (leBytes n (scalarValue d s.hart).toNat) s) := by
  rw [replayAccess_eq hb hc hh, hi]
  dsimp only [replayMoves]
  rw [hl]
  rfl

theorem replayAccess_vst {c : Ctl} {o : VMOps} (hi : i = .vst c o) (hl : s.logFull (State.recordAddrs acc) = none) :
    replayAccess slice prec it i s =
      .ok (replayStored slice prec it acc (leBytes n (swz o.dswz (s.hart.rv o.d.toNat 0)).toNat) s) := by
  rw [replayAccess_eq hb hc hh, hi]
  dsimp only [replayMoves]
  rw [hl]

/-- A replayed load of a scalar delivers the bytes at its checked address. -/
theorem replayAccess_load {f : Fmt} {d : Operand} {g : Hart}
    (hi : (∃ c a b, i = .ld c f d a b) ∨ ∃ c a b disp, i = .ldx c f d a b disp)
    (hg : putS d (ext f (fmtRead f (leNat (s.bytesAt acc)))) s.hart = some g) :
    replayAccess slice prec it i s = .ok { s.keep acc.fills with hart := g } := by
  have hk : (s.keep acc.fills).hart = s.hart := congrArg Contexts.hart (contexts_keep _ s)
  have hmoves : replayMoves slice prec it n acc s i =
      .ok ((s.keep acc.fills).onH fun h => (putS d (ext f (fmtRead f (leNat (s.bytesAt acc)))) h).getD h) := by
    rcases hi with ⟨c, a, b, rfl⟩ | ⟨c, a, b, disp, rfl⟩
    · rfl
    · rfl
  rw [replayAccess_eq hb hc hh, hmoves, State.onH, hk, hg]
  rfl

theorem replayAccess_vld {c : Ctl} {o : VMOps} (hi : i = .vld c o) : replayAccess slice prec it i s =
    .ok { s.keep acc.fills with hart := s.hart.wv o.d.toNat 0 (extElem o.fmt (leNat (s.bytesAt acc))) } := by
  have hk : (s.keep acc.fills).hart = s.hart := congrArg Contexts.hart (contexts_keep _ s)
  rw [replayAccess_eq hb hc hh, hi]
  dsimp only [replayMoves]
  rw [State.onH, hk]

/-- A replayed store stores its data at its checked address, and changes no other byte. -/
theorem replayAccess_store (hs : isStore i = true) (hl : s.logFull (State.recordAddrs acc) = none) :
    ∃ u, replayAccess slice prec it i s = .ok u ∧ u.hart.s = s.hart.s ∧ u.hart.v = s.hart.v ∧
      (s.logged = false → s.pkg.migFwd = false → s.pkg.fwds = [] → acc.chunks.Pairwise Apart →
        (∀ a, Outside acc.chunks a → u.byte a = s.byte a) ∧
        (∀ c f d a b, i = .st c f d a b → u.bytesAt acc = leBytes n (scalarValue d s.hart).toNat) ∧
        ∀ c o, i = .vst c o → u.bytesAt acc = leBytes n (swz o.dswz (s.hart.rv o.d.toNat 0)).toNat) := by
  have hn (x : Nat) : (acc.chunks.map Chunk.n).sum = (leBytes n x).length := by rw [check_lengths hc, leBytes_length]
  rcases isStore_cases hs with ⟨c, f, d, a, b, hi⟩ | ⟨c, o, hi⟩
  · refine ⟨_, replayAccess_st hb hc hh hi hl, hart_replayStored Hart.s (fun _ => rfl) _,
      hart_replayStored Hart.v (fun _ => rfl) _, fun hlog hm hf hp => ?_⟩
    obtain ⟨hout, hbytes⟩ := bytes_replayStored (slice := slice) (prec := prec) (it := it) ⟨hlog, hm, hf⟩ hp
      (hn (scalarValue d s.hart).toNat)
    refine ⟨hout, fun _ _ _ _ _ he => ?_, fun _ _ he => (nomatch hi.symm.trans he)⟩
    cases hi.symm.trans he
    exact hbytes
  · refine ⟨_, replayAccess_vst hb hc hh hi hl, hart_replayStored Hart.s (fun _ => rfl) _,
      hart_replayStored Hart.v (fun _ => rfl) _, fun hlog hm hf hp => ?_⟩
    obtain ⟨hout, hbytes⟩ := bytes_replayStored (slice := slice) (prec := prec) (it := it) ⟨hlog, hm, hf⟩ hp
      (hn (swz o.dswz (s.hart.rv o.d.toNat 0)).toNat)
    refine ⟨hout, fun _ _ _ _ _ he => (nomatch hi.symm.trans he), fun _ _ he => ?_⟩
    cases hi.symm.trans he
    exact hbytes

end

end Sys2Proof.Proofs
end


section
/-! PROOFS. The commands of the engines and their results (O58). -/

namespace Sys2Proof.Proofs

open Sys2Proof.Machine Sys2Proof.Safety

/-- A command that its engine does not accept ends with STATUS 1, and nothing is performed. -/
theorem engine_refuses {h k opc : Nat} {is : Engine → Bool} {ok : Cmd → Bool} {run : Job → State → Option State} {s : State}
    {e : Engine} {j : Job} {i : Instr} (hi : exec i s = engineEvent h k opc is ok run s) (hj : jobAt h k s = some (e, j))
    (his : is e = true) (ha : e.accepts ((j.cmd.words.headD 0).toNat / 256 % 256) = false) :
    exec i s = .next (finish h k 1 0 s) := hi.trans (engineEvent_refused hj his ha)

/-- A gather or a scatter of the elements that its command names. -/
theorem indirect_completes {h k : Nat} {s : State} {j : Job} (hj : jobAt h k s = some (.indirect, j))
    (hok : indirectOk j.cmd = true) (scatter : Bool) {i : Instr}
    (hi : exec i s = engineEvent h k (if scatter then 0x11 else 0x10) isIndirect indirectOk
      (fun j s => indirectElems j scatter (j.cmd.field 2 0 32) 0 0 [] s) s)
    (ho : (j.cmd.words.headD 0).toNat / 256 % 256 = if scatter then 0x11 else 0x10) :
    let n := (j.cmd.words.getD 2 0).toNat % 2 ^ 32
    ∀ (σ : Nat → State) (w : Nat → List (Nat × Nat)) (st : Nat → Byte), σ 0 = s →
      (∀ e < n, (st e = 0 → MovesElem j scatter e (σ e) (σ (e + 1)) (w e)) ∧
        (st e ≠ 0 → indirectElem j scatter e (σ e) = .bad (st e) ∧ σ (e + 1) = σ e ∧ w e = [])) →
      exec i s = .next (finish h k ((((List.range n).map st).find? fun x => x ≠ 0).getD 0) 0
        ((σ n).cover (Safety.written w n))) := by
  intro n σ w st h0 hm
  have ha : Engine.indirect.accepts (if scatter then 0x11 else 0x10) = true := by cases scatter <;> rfl
  rw [hi, engineEvent_runs hj rfl ha ho hok, indirect_moves hj hok scatter h0 rfl hm]
  rfl

/-- A collective whose contributions are all there, or whose sums the switch has answered. -/
theorem collective_sums {h k : Nat} {s : State} {j : Job} (hj : jobAt h k s = some (.collective, j))
    (ho : (j.cmd.words.headD 0).toNat / 256 % 256 = 0x40) (hok : collectiveOk j.cmd = true) :
    let n := (j.cmd.words.getD 3 0).toNat % 2 ^ 32
    j.cmd.group ≠ [] → j.cmd.failed = [] → (j.cmd.switched = none → j.cmd.parts.length = j.cmd.group.length) →
    (∀ l, j.cmd.switched = some l → l.length = n) →
    ∃ sums : List Nat, sums.length = n ∧ (∀ l, j.cmd.switched = some l → sums = l.map BitVec.toNat) ∧
      (j.cmd.switched = none → ∀ e < n, ∃ x < j.cmd.group.length, sums.getD e 0 = ringSum j.cmd x e) ∧
      ∀ w v w' v', j.write (j.cmd.words.getD 2 0)
          (sums.flatMap fun x => leBytes (if j.cmd.field 0 32 1 = 0 then 4 else 2) x) false
          { s with fresh := s.fresh + n + 1 } = .ok (w, v) →
        j.write (j.cmd.words.getD 5 0) (leBytes 8 0) false v = .ok (w', v') →
        ∃ aux, exec (.allReduce h k) s = .next (finish h k 0 aux (v'.cover (w ++ w'))) := by
  intro n hg hf hparts hsw
  obtain ⟨hlen, hswitch, hring⟩ := collectiveSums_eq j.cmd s.fresh (field_low _ _ _) hg hsw
  exact ⟨_, hlen, hswitch, hring, fun w v w' v' hw hw' => collective_completes hj ho hok hg hf hparts hlen hw hw'⟩

/-- Settles O58, clause by clause: the accesses and the ends of the engines' commands, each engine's own commands, the results,
the counts of copies and the stopped zones, and the replayed iteration with its operations and accesses. -/
theorem engineCommands : Obligations.EngineCommands := by
  unfold Obligations.EngineCommands
  refine ⟨fun j va s => ⟨fun n b u h => ?_, fun bs al w u h => ?_⟩, fun h k s => ?_⟩
  · obtain ⟨acc, hc, hb, -⟩ := read_ok h
    exact ⟨acc, hc, hb, (read_frame h).2⟩
  · obtain ⟨acc, hc, hw, rfl⟩ := write_ok h
    exact ⟨acc, hc, hw, fun hm hf hp => put_bytes ⟨hm, hf⟩ hp (check_lengths hc)⟩
  intro ended
  refine ⟨fun u e j st aux hj => finish_ends hj st aux, fun e j hj => ?_,
    fun n x c m st aux hx hh hc hf hfirst ho hroom hrun => resultAppend_joins hx hh hc hf hfirst ho hroom hrun,
    fun slot x c n hx hc h1 h4096 hwp hok hrun => copyDecrement_counts hx hc h1 h4096 hwp hok hrun,
    fun c rank => stopped_zones c rank s, fun slot x c hx => ⟨fun hstop => ?_, replayIteration_stopped hx⟩,
    fun n x hx hs hrun hz => ⟨fun c hc hpos hk => rs_carriedAt x.mark.next _ hc hpos hk,
      fun rooms r hchecks hroom happ hbody => replayIteration_runs hx hs hrun hz hchecks hroom happ hbody⟩,
    fun c o t => ⟨replayOp_scalar c o s t, fun _ => replayOp_of_exec rfl, fun _ _ _ _ _ => replayOp_of_exec rfl,
      fun _ _ _ _ _ => replayOp_of_exec rfl, fun _ _ => ⟨replayOp_of_exec rfl, replayOp_of_exec rfl⟩⟩,
    fun c o t hi hv hq => replayOp_vector c o s t hi hv hq, fun slice prec it i va n acc hb hc hh => ?_⟩
  · intro opc word size fmt refused
    refine ⟨fun hcopy => ⟨fun n => engine_refuses rfl hj hcopy, fun ho hok => ⟨copy_over hj hcopy ho hok,
      fun hw => ⟨fun b u w v hr hwr => copy_byte hj hcopy ho hok hw hr hwr,
        fun st hr => copy_badRead hj hcopy ho hok hw hr⟩⟩⟩,
      ?_, ?_, ?_, ?_⟩
    · rintro rfl
      exact ⟨engine_refuses rfl hj rfl, engine_refuses rfl hj rfl, fun hok =>
        ⟨indirect_completes hj hok false rfl, indirect_completes hj hok true rfl⟩⟩
    · rintro rfl
      exact ⟨engine_refuses (execReduction.eq_def h k s) hj rfl, reduction_sums hj⟩
    · rintro m rfl
      refine ⟨engine_refuses (execAttention.eq_def h k s) hj rfl, fun ho hok hst => ⟨?_, fun qb σ hr =>
        ⟨attention_damaged hj ho hok hst hr, attention_result hj ho hok hst qb σ hr⟩⟩⟩
      intro va bs pl u off hn hpage hlast hr entry pa hvalid hent hdev hadm hheld hpois hbs
      rw [hbs]
      exact poolBytes_page hn hpage hlast hr hvalid hent hdev hadm hheld hpois
    · rintro rfl
      refine ⟨engine_refuses (execAllReduce.eq_def h k s) hj rfl, fun ho hok => ?_⟩
      intro n late
      have hlate : j.cmd.overdue s = late := by rw [Cmd.overdue, field_low]
      refine ⟨fun hg g r s1 hr => ⟨collective_badGroup hj ho hok hg hr, fun h2 h576 hlt pkgs s2 hp =>
          ⟨collective_badTable hj ho hok hg hr h2 h576 hlt hp, fun hle hnd own s3 hown =>
            collective_staged hj ho hok hg hr h2 h576 hlt hp hle hnd hown⟩⟩,
        collective_sums hj ho hok, fun rank hne hlt => ?_, ?_⟩
      · rw [← hlate]
        exact collectivePacket_arrives hj ho hok hne hlt
      · intro missing w u hg hwhen absent hne hnd hin hfail hwhy hall hw hlen
        have hmiss : missingOk j.cmd (j.cmd.overdue s) missing = true := by
          rw [hlate]
          exact missingOk_of hne hnd hin hfail hwhy hall
        exact collectiveTimeout_reports hj ho hok hg (by rwa [hlate]) hmiss hw hlen
  · have hidle : jobAt h k s = none := by
      rcases hstop with ⟨hc, hs⟩ | ⟨d, rest, hd, ho, hu⟩
      · exact jobAt_stopped hx hc hs
      · exact jobAt_uncounted hx hd ho hu
    exact engines_idle hidle
  · intro does bs
    refine ⟨fun c f d a b g hi hg => replayAccess_load hb hc hh (.inl ⟨c, a, b, hi⟩) hg,
      fun c f d a b disp g hi hg => replayAccess_load hb hc hh (.inr ⟨c, a, b, disp, hi⟩) hg,
      fun c o hi => replayAccess_vld hb hc hh hi, replayAccess_store hb hc hh⟩

end Sys2Proof.Proofs
end


section
/-! PROOFS. The port instructions push, pop, peek, qlen and cpwp (R274 to R276, R280 to R282, R423). -/

namespace Sys2Proof.Proofs

open Sys2Proof.Machine Sys2Proof.Safety

/-! ## push (R280) -/

theorem lenOf_eq (w : Word) : lenOf w = w.toNat % 256 := by
  simp [lenOf, byteOf, BitVec.extractLsb'_toNat]

/-- The words of pair k's command once x stands behind those pushed before it. -/
def pushedWords (k : Nat) (x : Word) (h : Hart) : List Word := (h.port k).part ++ [x]

/-- The sequence number of the command that the next word of pair k belongs to. -/
def pushSeq (k : Nat) (h : Hart) : BitVec 32 := if (h.port k).part = [] then h.eseq else (h.port k).pseq

/-- The hart once pair k holds x as the last word of its unfinished command. -/
def pushed (k : Nat) (x : Word) (h : Hart) : Hart :=
  Hart.modPort k (fun p => { p with part := pushedWords k x h, pseq := pushSeq k h })
    { h with eseq := if (h.port k).part = [] then h.eseq + 1 else h.eseq }

/-- LEN of the command that the next word of pair k belongs to (R275). -/
def pushLen (k : Nat) (x : Word) (h : Hart) : Nat := ((pushedWords k x h).headD 0).toNat % 256

/-- The header of a command is the word pushed, where none stands before it. -/
theorem header_pushed (k : Nat) (x : Word) (h : Hart) :
    lenOf (if (h.port k).part.isEmpty then x else (h.port k).part.headD 0) = pushLen k x h := by
  rw [lenOf_eq, pushLen, pushedWords]
  cases (h.port k).part <;> rfl

/-- An instruction of the one source b decides by its value. -/
theorem withSource_of (i : Instr) {b : Operand} (f : Word → Word → State → State) {s : State} {x : Word} {h : Hart}
    (hb : takeS b s.hart = some (x, h)) : withSources i b .none f s = f x 0 { s with hart := h } :=
  withSources_of i f ⟨h, hb, rfl⟩

section
variable {k : Nat} {x : Word} {s : State} {e : Engine}

/-- A word for which its port has room joins its command, and is delivered with it where it is the last (R280). -/
theorem pushWord_joins (he : s.hart.engine k = some e)
    (hlen : (s.hart.port k).part = [] → 1 ≤ pushLen k x s.hart ∧ pushLen k x s.hart ≤ 16)
    (hused : (s.hart.port k).used < 32) (hheld : s.appendHeld 1 = false)
    (hroom : pushLen k x s.hart ≤ (pushedWords k x s.hart).length →
      e.accepts (((pushedWords k x s.hart).headD 0).toNat / 256 % 256) = true → s.noRoom 1 = false) :
    let u : State := { s with hart := pushed k x s.hart }
    pushWord k x s = some (.ok (pushSeq k s.hart,
      if (pushedWords k x s.hart).length < pushLen k x s.hart then u
      else deliverCmd k (pushedWords k x s.hart) (pushSeq k s.hart) u)) := by
  intro u
  have hbad : ¬ ((s.hart.port k).part.isEmpty &&
      (decide (pushLen k x s.hart = 0) || decide (16 < pushLen k x s.hart))) = true := by
    simp only [Bool.and_eq_true, List.isEmpty_iff, Bool.or_eq_true, decide_eq_true_eq]
    rintro ⟨hp, h⟩
    have := hlen hp
    omega
  have hfull : ¬ (decide (Config.commandPortWords ≤ (s.hart.port k).used) || s.appendHeld 1) = true := by
    rw [hheld, Bool.or_false, decide_eq_true_eq]
    exact not_le.2 hused
  unfold pushWord
  dsimp only
  rw [header_pushed, if_neg hbad, if_neg hfull]
  simp only [he, List.isEmpty_iff, opcOf_eq]
  by_cases hlt : (pushedWords k x s.hart).length < pushLen k x s.hart
  · rw [if_pos hlt]
    exact if_pos hlt
  · rw [if_neg hlt]
    refine (if_neg hlt).trans (if_neg fun hfits => ?_)
    rw [Bool.and_eq_true] at hfits
    exact absurd hfits.2 (Bool.eq_false_iff.1 (hroom (not_lt.1 hlt) hfits.1))

/-- The command that a push of its last word delivers (R275, R280). -/
def commandOf (k : Nat) (words : List Word) (seq : BitVec 32) (s : State) : Cmd :=
  { words := words, seq := seq, pc := s.hart.pc, level := s.hart.level, begun := false, wp := 0, counted := 0, outcome := none,
    badBar := false, parts := [], failed := [], switched := none, stalled := false, after := s.hart.vseq, ext := [],
    tgt := byteOf s.hart.eport k, start := 0, group := [], rank := 0, core := s.coreNo, fin := none }

/-- The command that a push delivers is recorded where its engine writes memory, and joins those of its pair (R280, R423). -/
theorem deliverCmd_joins (words : List Word) (seq : BitVec 32) (he : s.hart.engine k = some e) :
    let u := if e.accepts ((words.headD 0).toNat / 256 % 256) && s.logged then
        s.append ⟨0, 0, 0, 5, 0, pcWord s.hart.pc 0, 0x4000000000000000 ||| seq.setWidth 64, s.hart.wcur⟩ else s
    deliverCmd k words seq s = { u with hart := u.hart.modPort k fun p =>
      { p with part := [], cmds := p.cmds ++ [commandOf k words seq s], issued := seq :: p.issued } } := by
  intro u
  simp only [deliverCmd, he, opcOf_eq]
  rfl

/-- A push that completes its instruction delivers the sequence number of its command. -/
theorem push_delivers {c : Ctl} {d b : Operand} {k : BitVec 3} {h : Hart} {u : State} {seq : BitVec 32}
    (hg : s.hart.guard c = true) (he : s.hart.engine k.toNat = some e) (hb : takeS b s.hart = some (x, h))
    (hp : pushWord k.toNat x { s with hart := h } = some (.ok (seq, u))) :
    Delivers (.push c d k b) s u d (seq.setWidth 64) := by
  apply delivers_of
  show execPush c d k b s = _
  rw [execPush, guarded_on _ hg, if_neg (by simp [he]), withSource_of _ _ hb, hp]

end

/-! ## pop, peek, qlen and cpwp (R281, R282) -/

section
variable {c : Ctl} {d : Operand} {s : State} (hg : s.hart.guard c = true)

/-- An instruction that reads a pair with a result reads the oldest one. -/
theorem withResult_cons {i : Instr} {k : Nat} {f : Word → List Word → State → State} {x : Word} {rest : List Word}
    (hr : (s.hart.port k).results = x :: rest) : withResult i k f s = f x rest s := by
  simp only [withResult, hr]

include hg

theorem peek_delivers {k : BitVec 3} {x : Word} {rest : List Word} (hr : (s.hart.port k.toNat).results = x :: rest) :
    Delivers (.peek c d k) s s d x := by
  apply delivers_of
  show execPeek c d k s = _
  rw [execPeek, guarded_on _ hg, withResult_cons hr]

theorem pop_delivers {k : BitVec 3} {x : Word} {rest : List Word} (hr : (s.hart.port k.toNat).results = x :: rest) :
    Delivers (.pop c d k) s { s with hart := s.hart.modPort k.toNat fun p => { p with results := rest } } d x := by
  apply delivers_of
  show execPop c d k s = _
  rw [execPop, guarded_on _ hg, withResult_cons hr]
  rfl

theorem qlen_delivers (port : BitVec 4) :
    let p := s.hart.port (port.toNat % 8)
    Delivers (.qlen c d port) s s d (BitVec.ofNat 64
      (if s.hart.engine (port.toNat % 8) = none then 0 else if port.toNat < 8 then 32 - p.used else p.results.length)) := by
  apply delivers_of
  show execQlen c d port s = _
  rw [execQlen, guarded_on _ hg]
  simp only [Option.isNone_iff_eq_none]
  rfl

theorem cpwp_delivers {b : Operand} {k : BitVec 3} {x : Word} {h : Hart} {n : Nat}
    (he : s.hart.engine k.toNat = some (.copy n)) (hb : takeS b s.hart = some (x, h)) :
    Delivers (.cpwp c d k b) s { s with hart := h } d ((h.port k.toNat).pointer (x.setWidth 32)) := by
  apply delivers_of
  show execCpwp c d k b s = _
  rw [execCpwp, guarded_on _ hg]
  dsimp only
  rw [he]
  dsimp only
  rw [if_neg (by simp [isCopy]), withSource_of _ _ hb]

end

/-- Settles O44: a push joins its word to a command or delivers that, and the others deliver what their pair holds. -/
theorem enginePorts : Obligations.EnginePorts := by
  unfold Obligations.EnginePorts
  refine ⟨fun c d b k s x h e hg he hb => ?_, fun c d k s x rest hg hr => ⟨peek_delivers hg hr, pop_delivers hg hr⟩,
    fun c d port s hg => qlen_delivers hg port, fun c d b k s x h n hg he hb => cpwp_delivers hg he hb⟩
  intro p words seq len g hlen hused hheld
  obtain ⟨qs, rfl⟩ := takeS_frame hb
  have hjoins := pushWord_joins (k := k.toNat) (x := x) (s := { s with hart := { s.hart with qs := qs } }) he hlen hused hheld
  constructor
  · intro hlt
    refine push_delivers hg he hb ((hjoins fun hle => absurd hle (not_le.2 hlt)).trans ?_)
    exact congrArg (fun t => some (Except.ok (seq, t))) (if_pos hlt)
  · intro hle writes u hroom u'
    refine ⟨commandOf k.toNat words seq u, rfl, rfl, rfl, rfl, rfl, rfl, rfl, rfl, rfl, rfl, rfl,
      push_delivers hg he hb ((hjoins fun _ => hroom).trans ?_)⟩
    exact congrArg (fun t => some (Except.ok (seq, t)))
      ((if_neg (not_lt.2 hle)).trans (deliverCmd_joins (s := u) words seq he))

end Sys2Proof.Proofs
end


section
/-! PROOFS. The passes of a loop nest: its tuples, its stepped registers, and what follows an instruction of its body (R285). -/

namespace Sys2Proof.Proofs

open Sys2Proof.Machine Sys2Proof.Safety

/-! ## Tuples (R285) -/

/-- The place of a tuple among those of a nest: its indices are the digits, index 0 the lowest, to the bases of the counts. -/
def tuplePlace : List Nat → List Nat → Nat
  | [], _ | _, [] => 0
  | i :: is, n :: ns => i + n * tuplePlace is ns

/-- A tuple of a nest: an index below its count in every dimension. -/
def IsTuple (x counts : List Nat) : Prop := List.Forall₂ (· < ·) x counts

theorem isTuple_iff {x counts : List Nat} :
    IsTuple x counts ↔ x.length = counts.length ∧ ∀ k < counts.length, x.getD k 0 < counts.getD k 0 := by
  rw [IsTuple, List.forall₂_iff_get]
  refine and_congr_right fun hl => ⟨fun h k hk => ?_, fun h k h1 h2 => ?_⟩
  · rw [List.getD_eq_getElem _ _ (hl ▸ hk), List.getD_eq_getElem _ _ hk]
    exact h k _ _
  · have := h k h2
    rwa [List.getD_eq_getElem _ _ h1, List.getD_eq_getElem _ _ h2] at this

/-- Each index weighs the product of the counts below its dimension. -/
theorem tuplePlace_eq_sum : ∀ {x counts : List Nat}, x.length = counts.length →
    ((List.range counts.length).map fun k => x.getD k 0 * (counts.take k).prod).sum = tuplePlace x counts
  | [], [], _ => rfl
  | i :: is, n :: ns, h => by
    rw [tuplePlace, ← tuplePlace_eq_sum (Nat.succ.inj h), List.length_cons, List.range_succ_eq_map, List.map_cons,
      List.map_map, List.sum_cons, ← List.sum_map_mul_left]
    congr 2
    · simp
    · refine List.map_congr_left fun k _ => ?_
      simp [Nat.mul_left_comm]

theorem tuplePlace_lt_prod {x counts : List Nat} (h : IsTuple x counts) : tuplePlace x counts < counts.prod := by
  induction h with
  | nil => exact Nat.one_pos
  | @cons i n is ns hi _ ih =>
    rw [tuplePlace, List.prod_cons]
    calc i + n * tuplePlace is ns < n + n * tuplePlace is ns := Nat.add_lt_add_right hi _
      _ = n * (tuplePlace is ns + 1) := by ring
      _ ≤ n * ns.prod := Nat.mul_le_mul_left n ih

/-- Below the last place of a nest the next tuple has the next place. -/
theorem nextTuple_succ {x counts : List Nat} (h : IsTuple x counts) (hlt : tuplePlace x counts + 1 < counts.prod) :
    ∃ y, nextTuple x counts = some y ∧ IsTuple y counts ∧ tuplePlace y counts = tuplePlace x counts + 1 := by
  induction h with
  | nil => exact absurd hlt (lt_irrefl 1)
  | @cons i n is ns hi his ih =>
    rw [tuplePlace, List.prod_cons] at hlt
    by_cases hlast : i + 1 < n
    · exact ⟨(i + 1) :: is, if_pos hlast, .cons hlast his, by simp only [tuplePlace]; omega⟩
    · have hn : n = i + 1 := by omega
      have hcarry : i + n * tuplePlace is ns + 1 = n * (tuplePlace is ns + 1) := by rw [hn]; ring
      obtain ⟨y, hy, hty, hpy⟩ := ih (Nat.lt_of_mul_lt_mul_left (hcarry ▸ hlt))
      refine ⟨0 :: y, ?_, .cons (by omega) hty, ?_⟩
      · rw [nextTuple, if_neg hlast, hy, Option.map_some]
      · rw [tuplePlace, tuplePlace, hpy, hcarry, Nat.zero_add]

/-- After the last tuple there is none. -/
theorem nextTuple_last {x counts : List Nat} (h : IsTuple x counts) (hge : ¬ tuplePlace x counts + 1 < counts.prod) :
    nextTuple x counts = none := by
  induction h with
  | nil => rfl
  | @cons i n is ns hi his ih =>
    rw [tuplePlace, List.prod_cons] at hge
    have hbelow : n * (tuplePlace is ns + 1) ≤ n * ns.prod := Nat.mul_le_mul_left n (tuplePlace_lt_prod his)
    have hcarry : n * (tuplePlace is ns + 1) = n + n * tuplePlace is ns := by ring
    have hend : ns.prod ≤ tuplePlace is ns + 1 :=
      Nat.le_of_mul_le_mul_left (c := n) (by omega) (Nat.zero_lt_of_lt hi)
    rw [nextTuple, if_neg (by omega), ih (not_lt.2 hend), Option.map_none]

/-! ## The stepped registers (R285) -/

/-- Writes of registers in turn, each of its own value, leave every other register as it was. -/
theorem rs_writes_other {α : Type} (val : α → Word) {r : Nat} : ∀ (l : List (Nat × α)) (h : Hart),
    (∀ p ∈ l, p.1 ≠ r) → (l.foldl (fun (h : Hart) p => h.ws p.1 (val p.2)) h).rs r = h.rs r
  | [], _, _ => rfl
  | _ :: l, h, hr => by
    obtain ⟨hp, hl⟩ := List.forall_mem_cons.1 hr
    rw [List.foldl_cons, rs_writes_other val l _ hl, Hart.rs_ws, if_neg fun hrp => hp hrp.1.symm]

/-- Writes of registers in turn, none of them twice, leave each at its value. -/
theorem rs_writes_at {α : Type} (val : α → Word) {r : Nat} {x : α} (hr : r ≠ 0) (l : List (Nat × α)) (h : Hart)
    (hd : (l.map Prod.fst).Nodup) (hm : (r, x) ∈ l) :
    (l.foldl (fun (h : Hart) p => h.ws p.1 (val p.2)) h).rs r = val x := by
  induction l generalizing h with
  | nil => cases hm
  | cons q l ih =>
    rw [List.map_cons, List.nodup_cons] at hd
    obtain ⟨hq, hl⟩ := hd
    rw [List.foldl_cons]
    rcases List.mem_cons.1 hm with rfl | hm
    · rw [rs_writes_other val l _ fun p hp he => hq (List.mem_map.2 ⟨p, hp, he⟩), Hart.rs_ws, if_pos ⟨rfl, hr⟩]
    · exact ih _ hl hm

/-- The value of a register with this base and these strides at a loop's tuple. -/
def steppedValue (z : ZLoop) (q : Word × List Int) : Word :=
  q.1 + BitVec.ofInt 64 ((z.idx.zip q.2).map fun q => (q.1 : Int) * q.2).sum

theorem setRegs_eq (z : ZLoop) (h : Hart) : z.setRegs h =
    (z.regs.zip (z.base.zip z.strides)).foldl (fun (h : Hart) p => h.ws p.1 (steppedValue z p.2)) h := rfl

section
variable {z : ZLoop}

theorem rs_setRegs_other {r : Nat} (h : Hart) (hr : r ∉ z.regs) : (z.setRegs h).rs r = h.rs r :=
  rs_writes_other (steppedValue z) _ h fun _ hp he => hr (he ▸ (List.of_mem_zip hp).1)

/-- A register of a loop is its base plus the sum of index times stride (R285). -/
theorem rs_setRegs_at (h : Hart) (hd : z.regs.Nodup) (h0 : ∀ r ∈ z.regs, r ≠ 0) (hb : z.regs.length = z.base.length)
    (hs : z.regs.length = z.strides.length) {j : Nat} (hj : j < z.regs.length) :
    (z.setRegs h).rs (z.regs.getD j 0) = z.base.getD j 0
      + BitVec.ofInt 64 ((z.idx.zip (z.strides.getD j [])).map fun q => (q.1 : Int) * q.2).sum := by
  have hmem : (z.regs[j], z.base[j]'(hb ▸ hj), z.strides[j]'(hs ▸ hj)) ∈ z.regs.zip (z.base.zip z.strides) := by
    rw [List.mem_iff_getElem]
    exact ⟨j, by simp; omega, by simp⟩
  rw [List.getD_eq_getElem _ _ hj, List.getD_eq_getElem _ _ (hb ▸ hj), List.getD_eq_getElem _ _ (hs ▸ hj)]
  refine rs_writes_at (steppedValue z) (h0 _ (List.getElem_mem hj)) _ h ?_ hmem
  rwa [List.map_fst_zip (by simp; omega)]

end

/-- Nothing but scalar registers is stepped. -/
theorem setRegs_frame (z : ZLoop) (h : Hart) : ∃ r, z.setRegs h = { h with s := r } := by
  rw [setRegs_eq]
  generalize z.regs.zip (z.base.zip z.strides) = l
  induction l generalizing h with
  | nil => exact ⟨h.s, rfl⟩
  | cons p l ih =>
    obtain ⟨r, hr⟩ := ih (h.ws p.1 (steppedValue z p.2))
    exact ⟨r, hr.trans (by rw [Hart.ws_eq])⟩

/-! ## The end of a pass (R285) -/

theorem overtake_frame (rs : List Nat) (h : Hart) :
    h.overtake rs = { h with vcq := (h.overtake rs).vcq } ∧ (h.vcq = [] → (h.overtake rs).vcq = []) := by
  unfold Hart.overtake
  split
  · exact ⟨rfl, id⟩
  · exact ⟨rfl, fun hq => by simp [hq]⟩

section
variable {s : State} {z : ZLoop} (hz : s.hart.zloop = some z)
include hz

theorem loopBack_inside (hpc : s.hart.pc ≠ z.stop) : s.loopBack = s := by
  simp only [State.loopBack, hz, if_pos hpc]

theorem loopBack_next {x : List Nat} (hpc : s.hart.pc = z.stop) (hx : nextTuple z.idx z.counts = some x) :
    let y : ZLoop := { z with idx := x }
    s.loopBack = { s with hart := { (y.setRegs s.hart).overtake z.regs with zloop := some y, pc := z.start } } := by
  unfold State.loopBack
  rw [hz]
  dsimp only
  rw [if_neg (not_not.2 hpc), hx]
  rfl

theorem loopBack_ends (hpc : s.hart.pc = z.stop) (hx : nextTuple z.idx z.counts = none) :
    s.loopBack = { s with hart := { s.hart with zloop := none } } := by
  unfold State.loopBack
  rw [hz]
  dsimp only
  rw [if_neg (not_not.2 hpc), hx]
  rfl

/-- At the end of a pass a loop goes on with its next tuple, or ends after the last. -/
theorem loopBack_outcomes :
    let n := z.counts.length
    let legal (x : List Nat) : Prop := x.length = n ∧ ∀ k < n, x.getD k 0 < z.counts.getD k 0
    let place (x : List Nat) : Nat := ((List.range n).map fun k => x.getD k 0 * (z.counts.take k).prod).sum
    (s.hart.pc ≠ z.stop → s.loopBack = s) ∧
    (s.hart.pc = z.stop → legal z.idx → place z.idx + 1 < z.counts.prod →
      ∃ x t, legal x ∧ place x = place z.idx + 1 ∧ s.loopBack = t ∧ (s.hart.vcq = [] → t.hart.vcq = []) ∧
      t = { s with hart := { ({ z with idx := x } : ZLoop).setRegs s.hart with
        zloop := some { z with idx := x }, pc := z.start, vcq := t.hart.vcq } }) ∧
    (s.hart.pc = z.stop → legal z.idx → ¬ place z.idx + 1 < z.counts.prod →
      s.loopBack = { s with hart := { s.hart with zloop := none } }) := by
  intro n legal place
  have hplace {x : List Nat} (hx : legal x) : place x = tuplePlace x z.counts := tuplePlace_eq_sum hx.1
  refine ⟨loopBack_inside hz, fun hpc hlegal hlt => ?_, fun hpc hlegal hge => ?_⟩
  · rw [hplace hlegal] at hlt
    obtain ⟨x, hx, htuple, hnext⟩ := nextTuple_succ (isTuple_iff.2 hlegal) hlt
    have hxl : legal x := isTuple_iff.1 htuple
    obtain ⟨r, hr⟩ := setRegs_frame { z with idx := x } s.hart
    obtain ⟨hframe, hempty⟩ := overtake_frame z.regs (({ z with idx := x } : ZLoop).setRegs s.hart)
    refine ⟨x, s.loopBack, hxl, by rw [hplace hxl, hplace hlegal, hnext], rfl, fun hq => ?_, ?_⟩
    · rw [loopBack_next hz hpc hx]
      exact hempty (by rw [hr]; exact hq)
    · rw [loopBack_next hz hpc hx]
      dsimp only
      rw [hframe]
  · rw [hplace hlegal] at hge
    exact loopBack_ends hz hpc (nextTuple_last (isTuple_iff.2 hlegal) hge)

end

/-! ## What follows an instruction of the body -/

/-- What a step leaves for the end of a pass. -/
def passView (s : State) : List Host.Cell × List (Nat × Word) × Addr × Option ZLoop :=
  (s.mem, s.hart.s, s.hart.pc, s.hart.zloop)

theorem abandon_frame (h : Hart) : ∃ m cause, h.abandon = { h with mark := m, lpcause := cause } := by
  unfold Hart.abandon
  split
  · exact ⟨_, _, rfl⟩
  · exact ⟨h.mark, h.lpcause, rfl⟩

/-- A training changes its mark and its cause alone. -/
theorem noteTrace_frame (i : Instr) (pre post : State) :
    ∃ m cause, noteTrace i pre post = { post with hart := { post.hart with mark := m, lpcause := cause } } := by
  unfold noteTrace
  extract_lets m pc on moved inside acc waits place val r
  split
  · exact ⟨post.hart.mark, post.hart.lpcause, rfl⟩
  split
  · obtain ⟨m, cause, h⟩ := abandon_frame post.hart
    exact ⟨m, cause, congrArg (fun h => { post with hart := h }) h⟩
  split
  · exact ⟨post.hart.mark, post.hart.lpcause, rfl⟩
  · exact ⟨_, post.hart.lpcause, rfl⟩

/-- After an instruction of its body a loop goes on or ends, where the package has not stopped: what is counted, traced and
passed beside that is none of its registers. -/
theorem afterInstr_loopsBack (i : Instr) {pre post : State} (hnest : pre.hart.inNest pre.hart.pc = true)
    (hcur : post.cur = pre.cur) (hw : post.hart.waiting = none) (hr : post.hart.run = .running)
    (hinh : post.hart.inh = pre.hart.inh) (hdoff : post.hart.dAct = pre.hart.dAct) (hq : post.pkg.quiesced = false) :
    ∃ u : State, afterInstr i pre post = u.loopBack ∧ passView u = passView post := by
  have hruns : ¬ (decide (post.cur ≠ pre.cur) || post.hart.waiting.isSome ||
      decide (post.hart.run ≠ .running)) = true := by
    simp [hcur, hw, hr]
  obtain ⟨m, cause, hn⟩ := noteTrace_frame i pre post
  unfold afterInstr
  rw [if_neg hruns]
  extract_lets s₁ entered s₂ pass s₃ back
  have h₁ : passView s₁ = passView post := by rw [show s₁ = _ from hn]; rfl
  have hent : entered = false := by
    simp only [entered, show s₁ = _ from hn, hinh, hdoff, hq, Bool.and_not_self, Bool.or_self]
  have hback : back = true := by
    simp only [back, hnest, Bool.true_or]
  have h₂ : passView s₂ = passView post := by
    simp only [s₂]
    split <;> exact h₁
  have h₃ : passView s₃ = passView post := by
    simp only [s₃]
    split <;> exact h₂
  refine ⟨s₃, if_pos ?_, h₃⟩
  rw [hent, hback]
  rfl

end Sys2Proof.Proofs
end


section
/-! PROOFS. The descriptor of a zloop, and why LoopNests fails in a quiesced package (R284, R285, R287, R433). -/

namespace Sys2Proof.Proofs

open Sys2Proof.Machine Sys2Proof.Safety

/-! ## The descriptor (R285, R287) -/

/-- The 4-byte field of a descriptor at offset o. -/
def nestField (d : List Byte) (o : Nat) : Nat := leNat ((d.drop o).take 4)

/-- How many loops a descriptor names. -/
def nestDims (d : List Byte) : Nat := nestField d 0 % 8

/-- How many registers its loops step. -/
def nestSteps (d : List Byte) : Nat := nestField d 0 / 8 % 8

/-- The number of its stepped register i. -/
def nestReg (d : List Byte) (i : Nat) : Nat := (d.getD (4 + i) 0).toNat

/-- A well-formed descriptor: up to six loops, and up to four registers, which are distinct and none of which is s0. -/
def WellFormedNest (d : List Byte) : Prop :=
  1 ≤ nestDims d ∧ nestDims d ≤ 6 ∧ nestSteps d ≤ 4 ∧ nestField d 0 < 64 ∧
    (∀ i < 4, if i < nestSteps d then 1 ≤ nestReg d i ∧ nestReg d i ≤ 63 else nestReg d i = 0) ∧
    ∀ i < nestSteps d, ∀ j < i, nestReg d i ≠ nestReg d j

/-- A run of bytes inside a list, as the list of them. -/
theorem take_drop_eq_map {d : List Byte} {k n : Nat} (h : k + n ≤ d.length) :
    (d.drop k).take n = (List.range n).map fun i => d.getD (k + i) 0 := by
  refine List.ext_getElem (by simp; omega) fun i h1 h2 => ?_
  rw [List.length_map, List.length_range] at h2
  rw [List.getElem_take, List.getElem_drop, List.getElem_map, List.getElem_range, List.getD_eq_getElem _ _ (by omega)]

theorem nodup_map_range_iff {α : Type} (f : Nat → α) (n : Nat) :
    ((List.range n).map f).Nodup ↔ ∀ i < n, ∀ j < i, f i ≠ f j := by
  rw [List.nodup_map_iff_inj_on List.nodup_range]
  simp only [List.mem_range]
  refine ⟨fun h i hi j hj he => hj.ne' (h i hi j (hj.trans hi) he), fun h i hi j hj he => ?_⟩
  rcases lt_trichotomy i j with hij | hij | hij
  · exact absurd he.symm (h j hj i hij)
  · exact hij
  · exact absurd he (h i hi j hij)

section
variable {d : List Byte} (hl : d.length = 128)
include hl

theorem stepped_bytes (hn : nestSteps d ≤ 4) :
    ((d.drop 4).take 4).take (nestSteps d) = (List.range (nestSteps d)).map fun i => d.getD (4 + i) 0 := by
  rw [List.take_take, Nat.min_eq_left hn, take_drop_eq_map (by omega)]

theorem unused_bytes (hn : nestSteps d ≤ 4) : ((d.drop 4).take 4).drop (nestSteps d) =
    (List.range (4 - nestSteps d)).map fun i => d.getD (4 + nestSteps d + i) 0 := by
  rw [List.drop_take, List.drop_drop, take_drop_eq_map (by omega)]

theorem nestOk_iff : nestOk d = true ↔ WellFormedNest d := by
  have hsplit : (nestOk d = true) ↔ 1 ≤ nestDims d ∧ nestDims d ≤ 6 ∧ nestSteps d ≤ 4 ∧ nestField d 0 / 64 = 0 ∧
      (((d.drop 4).take 4).take (nestSteps d)).all (fun r => decide (1 ≤ r.toNat) && decide (r.toNat ≤ 63)) = true ∧
      (((d.drop 4).take 4).drop (nestSteps d)).all (fun r => r == 0) = true ∧
      (((d.drop 4).take 4).take (nestSteps d)).Nodup := by
    simp only [nestOk, Bool.and_eq_true, decide_eq_true_eq, beq_iff_eq, and_assoc]
    rfl
  rw [hsplit, WellFormedNest]
  refine and_congr_right fun _ => and_congr_right fun _ => and_congr_right fun hn => and_congr (by omega) ?_
  rw [stepped_bytes hl hn, unused_bytes hl hn, ← and_assoc]
  refine and_congr ?_ ?_
  · simp only [List.all_map, List.all_eq_true, List.mem_range, Function.comp_apply, Bool.and_eq_true, decide_eq_true_eq,
      beq_iff_eq]
    constructor
    · rintro ⟨hused, hzero⟩ i hi
      split
      · exact hused i ‹_›
      · have := hzero (i - nestSteps d) (by omega)
        rw [show 4 + nestSteps d + (i - nestSteps d) = 4 + i by omega] at this
        rw [nestReg, this]
        rfl
    · refine fun h => ⟨fun i hi => ?_, fun i hi => ?_⟩
      · have := h i (by omega)
        rwa [if_pos hi] at this
      · have := h (nestSteps d + i) (by omega)
        rw [if_neg (by omega)] at this
        exact BitVec.eq_of_toNat_eq (by rw [Nat.add_assoc]; exact this)
  · rw [nodup_map_range_iff]
    exact forall₄_congr fun i _ j _ => not_congr BitVec.toNat_inj.symm

/-- The loop state of a well-formed descriptor: its counts, registers and strides, the registers' values as their bases, and
every index 0. -/
theorem nestOf_eq (hn : nestSteps d ≤ 4) (h : Hart) (start stop : Addr) : nestOf d h start stop =
    { regs := (List.range (nestSteps d)).map (nestReg d)
      base := (List.range (nestSteps d)).map fun i => h.rs (nestReg d i)
      counts := (List.range (nestDims d)).map fun k => nestField d (8 + 4 * k)
      strides := (List.range (nestSteps d)).map fun i => (List.range (nestDims d)).map fun k =>
        (BitVec.ofNat 32 (nestField d (32 + 24 * i + 4 * k))).toInt
      idx := List.replicate (nestDims d) 0
      start := start
      stop := stop } := by
  have hregs : ((d.drop 4).take (nestSteps d)).map BitVec.toNat = (List.range (nestSteps d)).map (nestReg d) := by
    rw [take_drop_eq_map (by omega), List.map_map]
    rfl
  show ZLoop.mk (((d.drop 4).take (nestSteps d)).map BitVec.toNat)
    ((((d.drop 4).take (nestSteps d)).map BitVec.toNat).map h.rs) _ _ _ _ _ = _
  rw [hregs, List.map_map]
  simp only [signedOf_eq_toInt]
  rfl

end

/-! ## zloop (R284, R285, R287) -/

/-- A load changes nothing of its hart. -/
theorem load_hart {s t : State} {va : Word} {n : Nat} {vec al : Bool} {bs : List Byte}
    (h : s.load va n vec al = .ok (bs, t)) : t.hart = s.hart := by
  unfold State.load at h
  split at h
  · cases h
  · next acc _ =>
    obtain rfl : _ = t := congrArg Prod.snd (Except.ok.inj h)
    exact congrArg Contexts.hart (contexts_loadAt _ acc s)

/-- The address behind the body of a zloop at pc. -/
def nestStop (pc : Addr) (len1 : BitVec 4) : Addr := pc + 12 + BitVec.ofNat 57 (12 * (len1.toNat + 1))

/-- The loop that a zloop at the hart's pc begins. -/
def nestAt (d : List Byte) (len1 : BitVec 4) (h : Hart) : ZLoop := nestOf d h (h.pc + 12) (nestStop h.pc len1)

section
variable {c : Ctl} {a : BitVec 6} {len1 : BitVec 4} {s t : State} {d : List Byte} (hg : s.hart.guard c = true)
  (hdoff : s.hart.dAct = false) (ha : (s.hart.rs a.toNat).toNat % 64 = 0)
  (hload : s.load (s.hart.rs a.toNat) 128 true false = .ok (d, t)) (hl : d.length = 128)
include hg hdoff ha hload

/-- A zloop that reads its descriptor goes by what stands there. -/
theorem zloop_reads : exec (.zloop c a len1) s = .next (
    if !nestOk d then s.takeTrap ⟨.loopNest, 1⟩
    else if (nestAt d len1 s.hart).counts.contains 0 then t.jump (nestStop s.hart.pc len1)
    else if !s.hart.vqf && s.hart.vcq.any fun e => meet (writesLeft e) ((nestAt d len1 s.hart).regs.map Res.s) then
      t.await (.zloop c a len1)
    else (t.onH fun h => { (nestAt d len1 s.hart).setRegs h with zloop := some (nestAt d len1 s.hart) }).advance) := by
  have hblock : loadBlock (s.hart.rs a.toNat) 128 64 s = .ok (d, t) := by
    rw [loadBlock, if_neg (by simp [ha]), hload]
  have hstop : s.hart.pc + 12 + 12 * (len1.setWidth 57 + 1) = nestStop s.hart.pc len1 := by
    rw [nestStop, BitVec.ofNat_mul, BitVec.ofNat_add, BitVec.ofNat_toNat]
    rfl
  have hexec : exec (.zloop c a len1) s = execZloop c a len1 s := rfl
  rw [hexec, execZloop, guarded_on _ hg, unlessDoff, if_neg (by simp [hdoff])]
  dsimp only
  rw [hblock]
  dsimp only
  rw [hstop, load_hart hload]
  rfl

include hl

theorem zloop_malformed (hd : ¬ WellFormedNest d) : exec (.zloop c a len1) s = .next (s.takeTrap ⟨.loopNest, 1⟩) := by
  have hbad : nestOk d = false := Bool.eq_false_iff.2 fun h => hd ((nestOk_iff hl).1 h)
  rw [zloop_reads hg hdoff ha hload, hbad]
  rfl

/-- A zloop of a well-formed descriptor skips its body where a count is 0, and otherwise runs it at the first tuple, once no
queued work has a register of the loop to write. -/
theorem zloop_runs (hd : WellFormedNest d) :
    ((∃ k < nestDims d, nestField d (8 + 4 * k) = 0) →
      exec (.zloop c a len1) s =
        .next { t with hart := { t.hart with pc := nestStop s.hart.pc len1, waiting := none } }) ∧
    ((∀ k < nestDims d, nestField d (8 + 4 * k) ≠ 0) → (s.hart.vcq = [] ∨ s.hart.vqf = true) →
      exec (.zloop c a len1) s = .next (completed t { (nestAt d len1 s.hart).setRegs t.hart with
        zloop := some (nestAt d len1 s.hart), pc := s.hart.pc })) := by
  have hok : ¬ (!nestOk d) = true := by simp [(nestOk_iff hl).2 hd]
  obtain ⟨-, -, hn, -⟩ := hd
  have hcounts : (nestAt d len1 s.hart).counts.contains 0 = true ↔ ∃ k < nestDims d, nestField d (8 + 4 * k) = 0 := by
    rw [nestAt, nestOf_eq hl hn, List.contains_iff_mem, List.mem_map]
    simp only [List.mem_range]
  rw [zloop_reads hg hdoff ha hload, if_neg hok]
  constructor
  · exact fun hzero => congrArg Host.Outcome.next (if_pos (hcounts.2 hzero))
  · intro hpos hqueue
    have hfree : ¬ (!s.hart.vqf && s.hart.vcq.any fun e =>
        meet (writesLeft e) ((nestAt d len1 s.hart).regs.map Res.s)) = true := by
      rcases hqueue with hq | hq <;> simp [hq]
    rw [if_neg fun h => (hcounts.1 h).elim fun k hk => hpos k hk.1 hk.2, if_neg hfree]
    obtain ⟨r, hr⟩ := setRegs_frame (nestAt d len1 s.hart) t.hart
    have hpc : ((nestAt d len1 s.hart).setRegs t.hart).pc = s.hart.pc := by rw [hr, load_hart hload]
    rw [← hpc]
    rfl

end

/-! ## The quiesced package -/

/-- A quiesced package whose hart stands at the one instruction of a loop, with a second tuple to come. -/
def quiescedPass : State :=
  State.modPkg (fun p => { p with quiesced := true })
    { State.reset with hart := { Hart.reset with run := .running, zloop := some ⟨[], [], [2], [], [0], 0, 12⟩ } }

/-- Refutes O48: its last claim is about every pair of states, also those of a quiesced package, in which no hart takes a step
(R433) and what follows an instruction leaves out the next pass. A nop in `quiescedPass` leaves the hart behind the body, where
the claim has the loop go back to its start. The claim lacks the premise that the package is not quiesced, with which it holds
(`afterInstr_loopsBack`). The other claims hold as they stand: `zloop_malformed`, `zloop_runs` and `nestOf_eq` are the first,
`rs_setRegs_at` and `rs_setRegs_other` the second, `loopBack_outcomes` the third. -/
theorem not_loopNests : ¬ Obligations.LoopNests := by
  intro hall
  obtain ⟨-, -, -, hafter⟩ := hall
  obtain ⟨u, hu, -, -, hpc, hz⟩ :=
    hafter (.nop always) quiescedPass quiescedPass.advance (by decide +kernel) rfl rfl rfl rfl rfl
  have hback := loopBack_next (s := u) (x := [1]) hz hpc rfl
  have hstart : u.loopBack.hart.pc = 0 := by rw [hback]
  rw [← hu] at hstart
  exact absurd hstart (by decide +kernel)

end Sys2Proof.Proofs
end


section
/-! PROOFS. Marked loops: what lprec, lpend and lpjoin leave, and the registers that a replay hands back (R308 to R311, R319,
R320). -/

namespace Sys2Proof.Proofs

open Sys2Proof.Machine Sys2Proof.Safety

/-! ## The registers that a replay hands back (R319, R320) -/

/-- A hart after writes of scalar registers in turn. -/
def setScalars (l : List (Nat × Word)) (h : Hart) : Hart := l.foldl (fun (h : Hart) p => h.ws p.1 p.2) h

theorem setScalars_append (l l' : List (Nat × Word)) (h : Hart) : setScalars (l ++ l') h = setScalars l' (setScalars l h) :=
  List.foldl_append

theorem rs_setScalars_other {l : List (Nat × Word)} {r : Nat} (h : Hart) (hr : ∀ v, (r, v) ∉ l) :
    (setScalars l h).rs r = h.rs r :=
  rs_writes_other id l h fun p hp he => hr p.2 (he ▸ hp)

theorem rs_setScalars_at {l : List (Nat × Word)} {r : Nat} {v : Word} (h : Hart) (hr : r ≠ 0)
    (hd : (l.map Prod.fst).Nodup) (hm : (r, v) ∈ l) : (setScalars l h).rs r = v :=
  rs_writes_at id hr l h hd hm

/-- Updates in turn that each set one part of a hart set that part alone. -/
theorem foldl_sets {α β : Type} {f : Hart → α → Hart} {set : β → Hart → Hart} (hid : ∀ h, ∃ x, h = set x h)
    (hset : ∀ h x y, set y (set x h) = set y h) (hf : ∀ h a, ∃ x, f h a = set x h) :
    ∀ (l : List α) (h : Hart), ∃ x, l.foldl f h = set x h
  | [], h => hid h
  | a :: l, h => by
    obtain ⟨y, hy⟩ := hf h a
    obtain ⟨x, hx⟩ := foldl_sets hid hset hf l (f h a)
    exact ⟨x, hx.trans (by rw [hy, hset])⟩

theorem setScalars_frame (l : List (Nat × Word)) (h : Hart) : ∃ s, setScalars l h = { h with s := s } :=
  foldl_sets (set := fun s (h : Hart) => { h with s := s }) (fun h => ⟨h.s, rfl⟩) (fun _ _ _ => rfl)
    (fun h (p : Nat × Word) => ⟨_, Hart.ws_eq p.1 p.2 h⟩) l h

/-- The value of carried register j at the start of iteration i: an affine one its base and i steps, a reduction as the replay
has combined it. -/
def carriedValue (m : Mark) (i : Word) (j : Nat) : Word :=
  if m.kinds.getD j 0 = 0 then m.base.getD j 0 + i * m.delta.getD j 0 else tget 0 m.regs.s (m.first + j)

/-- The carried registers with their values at the start of iteration i. -/
def carriedWrites (m : Mark) (i : Word) : List (Nat × Word) :=
  (List.range m.kinds.length).map fun j => (m.first + j, carriedValue m i j)

theorem mem_carriedWrites {m : Mark} {i : Word} {r : Nat} {v : Word} :
    (r, v) ∈ carriedWrites m i ↔ ∃ j < m.kinds.length, m.first + j = r ∧ carriedValue m i j = v := by
  simp only [carriedWrites, List.mem_map, List.mem_range, Prod.mk.injEq]

theorem carriedWrites_nodup (m : Mark) (i : Word) : ((carriedWrites m i).map Prod.fst).Nodup := by
  rw [carriedWrites, List.map_map, nodup_map_range_iff]
  exact fun a _ b hb he => hb.ne' (Nat.add_left_cancel he)

theorem carriedAt_eq (m : Mark) (i : Word) (h : Hart) : m.carriedAt i h = setScalars (carriedWrites m i) h := by
  have hentries : carriedWrites m i = m.carried.map fun c => (m.first + c.1,
      if c.2.1 = 0 then m.base.getD c.1 0 + i * m.step c.1 else tget 0 m.regs.s (m.first + c.1)) := by
    refine List.ext_getElem (by simp [carriedWrites, Mark.carried]) fun j h1 h2 => ?_
    have hj : j < m.kinds.length := by simpa [carriedWrites] using h1
    have hkind : m.kinds.getD j 0 = 0 ↔ m.kinds[j].toNat = 0 := by
      rw [List.getD_eq_getElem _ _ hj]
      exact (BitVec.toNat_inj (y := 0)).symm
    simp only [carriedWrites, carriedValue, Mark.carried, Mark.step, List.getElem_map, List.getElem_range,
      List.getElem_zipIdx, Nat.zero_add, hkind]
  rw [hentries, setScalars, List.foldl_map]
  rfl

/-- Body registers put back are written in turn, and nothing but registers is. -/
theorem put_frame (b : BodyRegs) (h : Hart) :
    ∃ p v m, b.put h = { setScalars b.s h with p := p, v := v, m := m } := by
  obtain ⟨p, hp⟩ := foldl_sets (set := fun p (h : Hart) => { h with p := p }) (fun h => ⟨h.p, rfl⟩) (fun _ _ _ => rfl)
    (fun h q => ⟨_, Hart.wp_eq q.1 q.2 h⟩) b.p (setScalars b.s h)
  obtain ⟨v, hv⟩ := foldl_sets (set := fun v (h : Hart) => { h with v := v }) (fun h => ⟨h.v, rfl⟩) (fun _ _ _ => rfl)
    (fun h q => ⟨_, Hart.wv_eq q.1 0 q.2 h⟩) b.v { setScalars b.s h with p := p }
  obtain ⟨m, hm⟩ := foldl_sets (set := fun m (h : Hart) => { h with m := m }) (fun h => ⟨h.m, rfl⟩) (fun _ _ _ => rfl)
    (fun h q => ⟨_, Hart.wmask_eq q.1 0 q.2 h⟩) b.m { setScalars b.s h with p := p, v := v }
  refine ⟨p, v, m, Eq.trans ?_ hm⟩
  rw [← hv, ← hp]
  rfl

/-- A hart that has taken back its replay at iteration i. -/
def takenBack (m : Mark) (i : Word) (h : Hart) : Hart :=
  { m.snap.put (m.carriedAt i h) with fflags := h.fflags ||| m.flags, waiting := none, lpix := i }

/-- Its scalar registers are those of the carried ones and then those of the snapshot. -/
theorem takenBack_frame (m : Mark) (i : Word) (h : Hart) : ∃ p v k,
    takenBack m i h = { setScalars (carriedWrites m i ++ m.snap.s) h with
      p := p, v := v, m := k, fflags := h.fflags ||| m.flags, waiting := none, lpix := i } := by
  obtain ⟨p, v, k, hput⟩ := put_frame m.snap (m.carriedAt i h)
  refine ⟨p, v, k, ?_⟩
  rw [takenBack, hput, carriedAt_eq, setScalars_append]

theorem takenBack_rs (m : Mark) (i : Word) (h : Hart) (r : Nat) :
    (takenBack m i h).rs r = (setScalars m.snap.s (setScalars (carriedWrites m i) h)).rs r := by
  obtain ⟨p, v, k, hframe⟩ := takenBack_frame m i h
  rw [hframe, setScalars_append]
  rfl

theorem takenBack_pc (m : Mark) (i : Word) (h : Hart) : (takenBack m i h).pc = h.pc := by
  obtain ⟨p, v, k, hframe⟩ := takenBack_frame m i h
  obtain ⟨s, hs⟩ := setScalars_frame (carriedWrites m i ++ m.snap.s) h
  rw [hframe, hs]

/-- Carried registers that are not in the snapshot get their values at the iteration reached, body registers those of the
snapshot, and every other keeps its own. -/
theorem takenBack_registers (m : Mark) (i : Word) (h : Hart) :
    let snapped (r : Nat) : Prop := ∃ v, (r, v) ∈ m.snap.s
    let carries (r : Nat) : Prop := ∃ j < m.kinds.length, r = m.first + j
    (∀ j < m.kinds.length, 0 < m.first + j → ¬ snapped (m.first + j) →
      (takenBack m i h).rs (m.first + j) = carriedValue m i j) ∧
    (m.snap.s.Pairwise (fun a b => a.1 ≠ b.1) → ∀ r v, 0 < r → (r, v) ∈ m.snap.s → (takenBack m i h).rs r = v) ∧
    ∀ r, ¬ snapped r → ¬ carries r → (takenBack m i h).rs r = h.rs r := by
  refine ⟨fun j hj hpos hs => ?_, fun hd r v hpos hm => ?_, fun r hs hc => ?_⟩
  · rw [takenBack_rs, rs_setScalars_other _ (not_exists.1 hs)]
    exact rs_setScalars_at h hpos.ne' (carriedWrites_nodup m i) (mem_carriedWrites.2 ⟨j, hj, rfl, rfl⟩)
  · rw [takenBack_rs]
    exact rs_setScalars_at _ hpos.ne' (List.pairwise_map.2 hd) hm
  · rw [takenBack_rs, rs_setScalars_other _ (not_exists.1 hs), rs_setScalars_other]
    intro v hv
    obtain ⟨j, hj, hr, -⟩ := mem_carriedWrites.1 hv
    exact hc ⟨j, hj, hr.symm⟩

section
variable {s : State}

theorem handBack_finished (hr : s.hart.mark.replay = .finished) : handBack s = { s with hart :=
    { takenBack s.hart.mark s.hart.mark.n s.hart with
      lpcause := 1, lpdetail := 0, mark := Mark.reset, pc := s.hart.pc + 12 } } := by
  rw [← takenBack_pc s.hart.mark s.hart.mark.n]
  unfold handBack State.onH
  dsimp only
  rw [hr]
  rfl

theorem handBack_departed {cause detail : Byte} (hr : s.hart.mark.replay = .departed cause detail) :
    handBack s = { s with hart := { takenBack s.hart.mark s.hart.mark.next s.hart with
      lpcause := cause, lpdetail := detail, pc := s.hart.mark.body
      mark := { s.hart.mark with
        state := .resumed, it := s.hart.mark.next, joinA := s.hart.pc, trace := [] } } } := by
  rw [← takenBack_pc s.hart.mark s.hart.mark.next]
  unfold handBack State.onH
  dsimp only
  rw [hr]
  rfl

end

/-! ## The instructions of a loop mark (R310, R311, R319) -/

section
variable {c : Ctl} {s : State} (hg : s.hart.guard c = true) (hdoff : s.hart.dAct = false)
include hg hdoff

/-- With a true guard and outside a doff routine an instruction runs. -/
theorem guarded_unlessDoff (f : State → State) : guarded c s (unlessDoff f) = .next (f s) := by
  rw [guarded_on _ hg, unlessDoff, hdoff]
  rfl

/-- Without a mark lprec makes one of its operands, in iteration 0; the loop runs plain where it has no iteration, is stepped or
holds a brk, and trains otherwise. -/
theorem lprec_marks (d : BitVec 6) (a : Option (BitVec 6)) (len : BitVec 14) (nc : BitVec 2) (k0 k1 k2 k3 tr : BitVec 3)
    (hm : s.hart.mark.state = .none) :
    let n := s.hart.rs d.toNat
    let body := s.hart.pc + 12
    let last := body + BitVec.ofNat 57 (12 * len.toNat)
    ∃ m cause, exec (.lprec c d a len nc k0 k1 k2 k3 tr) s = .next { s with hart := { s.hart with
        mark := m, lpcause := cause, lpdetail := 0, waiting := none, pc := if n = 0 then last + 12 else body } } ∧
      m.n = n ∧ m.it = 0 ∧ m.prec = s.hart.pc ∧ m.body = body ∧ m.endA = last ∧
      m.t = (if tr = 0 then 3 else tr.toNat) ∧
      (n = 0 → m.state = .plain ∧ cause = 4) ∧
      (n ≠ 0 → s.hart.estep = true → m.state = .plain ∧ cause = 6) ∧
      (n ≠ 0 → s.hart.estep = false → hasBrk s body len.toNat = false → m.state = .training ∧ cause = 0) := by
  intro n body last
  have hlast : body + 12 * len.setWidth 57 = last := by
    rw [show last = body + BitVec.ofNat 57 (12 * len.toNat) from rfl, BitVec.ofNat_mul, BitVec.ofNat_toNat]
    rfl
  have hexec : exec (.lprec c d a len nc k0 k1 k2 k3 tr) s = execLprec c d a len nc k0 k1 k2 k3 tr s := rfl
  rw [hexec]
  unfold execLprec
  rw [guarded_unlessDoff hg hdoff]
  extract_lets h n' body' endA first kinds base _ m set
  have hnext (st : MarkState) (cause : Byte) (pc : Addr) : set st cause pc = { s with hart := { s.hart with
      mark := { m with state := st }, lpcause := cause, lpdetail := 0, waiting := none, pc := pc } } := rfl
  rw [if_neg (not_not.2 hm)]
  by_cases hn : n = 0
  · rw [if_pos hn, if_pos hn, hnext]
    exact ⟨_, 4, by rw [show endA = last from hlast], rfl, rfl, rfl, rfl, hlast, rfl, fun _ => ⟨rfl, rfl⟩,
      fun h => absurd hn h, fun h => absurd hn h⟩
  · rw [if_neg hn, if_neg hn]
    by_cases hplain : (h.estep || hasBrk s body' len.toNat) = true
    · rw [if_pos hplain, hnext]
      refine ⟨_, 6, rfl, rfl, rfl, rfl, rfl, hlast, rfl, fun h => absurd h hn, fun _ _ => ⟨rfl, rfl⟩, fun _ he hb => ?_⟩
      exact absurd hplain (by rw [show h.estep = false from he, show hasBrk s body' len.toNat = false from hb]; simp)
    · rw [if_neg hplain, hnext]
      refine ⟨_, 0, rfl, rfl, rfl, rfl, rfl, hlast, rfl, fun h => absurd h hn, fun _ he => ?_, fun _ _ _ => ⟨rfl, rfl⟩⟩
      exact absurd (by rw [show h.estep = true from he]; rfl) hplain

/-! ### lpend (R311) -/

/-- The mark of a loop that goes on with its next iteration; a training records the carried registers at its start. -/
def nextMark (c : Ctl) (h : Hart) : Mark :=
  { h.mark with
    it := h.mark.it + 1, guard := c.p.toNat
    starts := if h.mark.state = .training then
      h.mark.starts ++ [(List.range h.mark.kinds.length).map fun j => h.rs (h.mark.first + j)] else h.mark.starts }

section
variable (hmark : s.hart.mark.state ≠ .none) (hpc : s.hart.pc = s.hart.mark.endA)
include hmark hpc

omit hg hdoff in
theorem at_markEnd : ¬ (decide (s.hart.mark.state = .none) || decide (s.hart.pc ≠ s.hart.mark.endA)) = true := by
  simp [hmark, hpc]

/-- While iterations remain a loop goes back to its body, but for the end of its training. -/
theorem lpend_back (hlt : s.hart.mark.it + 1 < s.hart.mark.n)
    (ht : s.hart.mark.state = .training → (s.hart.mark.it + 1).toNat ≠ s.hart.mark.t) :
    exec (.lpend c) s = .next { s with hart := { s.hart with
      mark := nextMark c s.hart, pc := s.hart.mark.body, waiting := none } } := by
  have hgo : ¬ (decide (s.hart.mark.state = .training) && (s.hart.mark.it + 1).toNat == s.hart.mark.t) = true := by
    simpa using ht
  have hexec : exec (.lpend c) s = execLpend c s := rfl
  rw [hexec, execLpend, guarded_unlessDoff hg hdoff]
  exact congrArg Host.Outcome.next ((if_neg (at_markEnd hmark hpc)).trans ((if_pos hlt).trans (if_neg hgo)))

/-- After its last iteration a loop ends past its lpend, or past the lpjoin that resumed it. -/
theorem lpend_past (hge : ¬ s.hart.mark.it + 1 < s.hart.mark.n) :
    exec (.lpend c) s = .next { s with hart := { s.hart with
      waiting := none
      lpcause := if s.hart.mark.state = .training then 4 else s.hart.lpcause
      lpdetail := if s.hart.mark.state = .training then 0 else s.hart.lpdetail
      mark := if s.hart.mark.state = .resumed then Mark.reset else { s.hart.mark with
        it := s.hart.mark.it + 1
        state := if s.hart.mark.state = .training then .plain else s.hart.mark.state
        trace := if s.hart.mark.state = .training then [] else s.hart.mark.trace }
      pc := if s.hart.mark.state = .resumed then s.hart.mark.joinA + 12 else s.hart.mark.endA + 12 } } := by
  have hexec : exec (.lpend c) s = execLpend c s := rfl
  rw [hexec, execLpend, guarded_unlessDoff hg hdoff]
  exact congrArg Host.Outcome.next ((if_neg (at_markEnd hmark hpc)).trans (if_neg hge))

/-- A training that has its iterations goes by what confirm says. -/
theorem lpend_confirms (hlt : s.hart.mark.it + 1 < s.hart.mark.n) (htr : s.hart.mark.state = .training)
    (ht : (s.hart.mark.it + 1).toNat = s.hart.mark.t) (hq : s.quiet = true) :
    let u : State := { s with hart := { s.hart with mark := nextMark c s.hart } }
    exec (.lpend c) s = .next (match confirm u with
      | none => startReplay (s.hart.mark.it + 1) u
      | some (cause, detail) => { u with hart := { u.hart with
        mark := { u.hart.mark with state := .plain, trace := [] }
        pc := s.hart.mark.body, waiting := none, lpcause := cause, lpdetail := detail } }) := by
  intro u
  have hdone : (decide (s.hart.mark.state = .training) && (s.hart.mark.it + 1).toNat == s.hart.mark.t) = true := by
    rw [htr, ht, decide_eq_true rfl, Bool.true_and, beq_self_eq_true]
  have hidle : ¬ (!s.quiet) = true := by simp [hq]
  have hexec : exec (.lpend c) s = execLpend c s := rfl
  rw [hexec, execLpend, guarded_unlessDoff hg hdoff]
  refine congrArg Host.Outcome.next ((if_neg (at_markEnd hmark hpc)).trans
    ((if_pos hlt).trans ((if_pos hdone).trans ((if_neg hidle).trans ?_))))
  change (match confirm u with | none => _ | some (cause, detail) => _) = _
  cases confirm u <;> rfl

end

/-! ### lpjoin (R319) -/

section
variable (hq : s.quiet = true)
include hq

theorem lpjoin_unmarked (hs : s.hart.mark.state = .none) : exec (.lpjoin c) s = .next (completed s s.hart) := by
  have hexec : exec (.lpjoin c) s = execLpjoin c s := rfl
  rw [hexec, execLpjoin, guarded_unlessDoff hg hdoff]
  dsimp only
  rw [hq, hs]
  rfl

/-- A loop that its hart runs itself ends at an lpjoin, with the number of its iteration. -/
theorem lpjoin_ends (hs : s.hart.mark.state ≠ .none) (hr : s.hart.mark.state ≠ .replaying) :
    exec (.lpjoin c) s = .next (completed s { s.hart with
      lpcause := if s.hart.mark.state = .training then 3 else s.hart.lpcause
      lpdetail := if s.hart.mark.state = .training then 0 else s.hart.lpdetail
      lpix := s.hart.mark.it
      mark := Mark.reset }) := by
  have hexec : exec (.lpjoin c) s = execLpjoin c s := rfl
  rw [hexec, execLpjoin, guarded_unlessDoff hg hdoff]
  dsimp only
  rw [hq, if_neg (by simp)]
  split
  · exact absurd ‹_› hs
  · exact absurd ‹_› hr
  · rfl

theorem lpjoin_takesBack (hs : s.hart.mark.state = .replaying) (hr : s.hart.mark.replay ≠ .running) :
    exec (.lpjoin c) s = .next (handBack s) := by
  have hexec : exec (.lpjoin c) s = execLpjoin c s := rfl
  rw [hexec, execLpjoin, guarded_unlessDoff hg hdoff]
  dsimp only
  rw [hq, hs]
  exact congrArg Host.Outcome.next (if_neg hr)

end
end

/-- Settles O49: each instruction goes by its lemma above, in the state of its mark. -/
theorem loopMarks : Obligations.LoopMarks := by
  intro c s hg hdoff
  refine ⟨lprec_marks hg hdoff, ?_, ?_, ?_, fun hq => ⟨lpjoin_unmarked hg hdoff hq, fun hs => ?_, fun hs => ?_,
    fun hs => ?_, fun hs x hx hrun => ?_⟩⟩
  · rintro m rfl hpc hs
    have htrain : s.hart.mark.state ≠ .training := by rcases hs with h | h <;> simp [h]
    have hmark : s.hart.mark.state ≠ .none := by rcases hs with h | h <;> simp [h]
    refine ⟨fun hlt => ?_, fun hge => ⟨if s.hart.mark.state = .resumed then Mark.reset else
      { s.hart.mark with it := s.hart.mark.it + 1 }, ?_, fun hr => if_pos hr, fun hp => if_neg (by simp [hp])⟩⟩
    · rw [lpend_back hg hdoff hmark hpc hlt fun h => absurd h htrain, nextMark, if_neg htrain]
    · rw [lpend_past hg hdoff hmark hpc hge, if_neg htrain, if_neg htrain, if_neg htrain, if_neg htrain]
  · rintro m rfl hpc hs hlt now m'
    have hmark : s.hart.mark.state ≠ .none := by simp [hs]
    have hm' : nextMark c s.hart = m' := by rw [nextMark, if_pos hs]
    refine ⟨fun ht => ?_, fun ht hq => ?_⟩
    · rw [lpend_back hg hdoff hmark hpc hlt fun _ => ht, hm']
    · rw [lpend_confirms hg hdoff hmark hpc hlt hs ht hq, hm']
      dsimp only
      cases confirm { s with hart := { s.hart with mark := m' } } with
      | none => exact ⟨_, rfl, rfl, rfl, fun _ => ⟨rfl, rfl, rfl⟩, nofun⟩
      | some r => exact ⟨_, rfl, rfl, rfl, nofun, fun _ _ h => by cases h; exact ⟨rfl, rfl, rfl, rfl⟩⟩
  · rintro m rfl hpc hs hge
    rw [lpend_past hg hdoff (by simp [hs]) hpc hge]
    simp only [hs, if_true, reduceCtorEq, if_false]
  · rw [lpjoin_ends hg hdoff hq (by simp [hs]) (by simp [hs])]
    simp only [hs, reduceCtorEq, if_false]
  · rw [lpjoin_ends hg hdoff hq (by simp [hs]) (by simp [hs])]
    simp only [hs, reduceCtorEq, if_false]
  · rw [lpjoin_ends hg hdoff hq (by simp [hs]) (by simp [hs])]
    simp only [hs, if_true]
  · subst hx
    rw [lpjoin_takesBack hg hdoff hq hs hrun]
    cases hx : s.hart.mark.replay with
    | running => exact absurd hx hrun
    | finished =>
      obtain ⟨hcarried, hsnap, hother⟩ := takenBack_registers s.hart.mark s.hart.mark.n s.hart
      rw [handBack_finished hx]
      exact ⟨_, rfl, rfl, rfl, hcarried, hsnap, hother, rfl, fun _ => ⟨rfl, rfl, rfl, rfl, rfl⟩, nofun⟩
    | departed cause detail =>
      obtain ⟨hcarried, hsnap, hother⟩ := takenBack_registers s.hart.mark s.hart.mark.next s.hart
      rw [handBack_departed hx]
      refine ⟨_, rfl, rfl, rfl, hcarried, hsnap, hother, rfl, nofun, fun _ _ h => ?_⟩
      cases h
      exact ⟨rfl, rfl, rfl, rfl, rfl, rfl, rfl⟩

end Sys2Proof.Proofs
end

section
/-! PROOFS. The quiesced state: what the package still does in it, and why only a cold reset ends it (R433, log 79). -/

namespace Sys2Proof.Proofs

open Sys2Proof.Machine Sys2Proof.Safety

variable {s : State}

/-- An entry of the journal moves JHEAD, where the journal is enabled, and no other package register (R441). -/
theorem journal_pkg (type code : Byte) (pid : Option Byte) (queue : Option Nat) (cid : Option (BitVec 12))
    (slot lseq pc qual aux : Word) (payload : List Byte) (s : State) :
    (s.journal type code pid queue cid slot lseq pc qual aux payload).pkg =
      { s.pkg with jhead := if s.pkg.jEn then s.pkg.jhead + 1 else s.pkg.jhead } := by
  unfold State.journal
  cases hj : s.pkg.jEn with
  | false => simp only [Bool.not_false, if_true, Bool.false_eq_true, if_false]
  | true =>
    simp only [Bool.not_true, Bool.false_eq_true, if_false, if_true]
    simp only [State.writeControl, State.writeDev, State.write_pkg, State.patchHome_pkg, State.modPkg_pkg, hj]

/-- The package is quiesced. -/
def Quiesced (s : State) : Prop := s.pkg.quiesced = true

/-- The outcome of a step, where it is a state, is quiesced. -/
def OutQuiesced (o : Out) : Prop := ∀ t, o = .next t → Quiesced t

theorem outQuiesced_next {t : State} (h : Quiesced t) : OutQuiesced (.next t) := by
  rintro u ⟨⟩
  exact h

theorem outQuiesced_due {r : Option State} (h : Quiesced s) (hr : ∀ t, r = some t → Quiesced t) :
    OutQuiesced (due s r) := by
  cases r with
  | none => exact outQuiesced_next h
  | some t => exact outQuiesced_next (hr t rfl)

theorem quiesced_of_pkg {t : State} (hp : t.pkg = s.pkg) (h : Quiesced s) : Quiesced t := by
  rwa [Quiesced, hp]

/-- An event or input that, where it is due, has an effect that keeps the quiesced state. -/
theorem outQuiesced_dueIf {c : Prop} [Decidable c] {t : State} (h : Quiesced s) (ht : Quiesced t) :
    OutQuiesced (due s (if c then some t else none)) :=
  outQuiesced_due h fun u hu => by
    split at hu
    · exact Option.some.inj hu ▸ ht
    · cases hu

/-! ## The inputs that a quiesced package takes in -/

/-- Acting on a hart's slot changes the package registers as the action does. -/
theorem atHart_pkg (n : Nat) {f : State → State} (hf : ∀ u, (f u).pkg = u.pkg) (s : State) : (s.atHart n f).pkg = s.pkg :=
  (focus_pkg _ _).trans ((hf _).trans (focus_pkg n s))

theorem modHart_pkg (n : Nat) (f : Hart → Hart) (s : State) : (s.modHart n f).pkg = s.pkg :=
  atHart_pkg n (State.onH_pkg f) s

theorem lateStore_pkg (s : State) : s.lateStore.pkg = s.pkg := congrArg Contexts.pkg (stored_lateStore s).1

theorem lateStores_pkg (s : State) : s.lateStores.pkg = s.pkg := congrArg Contexts.pkg (stored_lateStores s).1

/-- Time moves the time base alone among the package registers. -/
theorem elapse_pkg (ticks cycles : Nat) (s : State) :
    (Machine.elapse ticks cycles s).pkg = { s.pkg with time := s.pkg.time + BitVec.ofNat 64 ticks } := by
  unfold Machine.elapse
  extract_lets pids qs s₁ s₂ s₃
  calc
    (qs.foldl (fun s q => modQueue q (fun x => { x with wd := x.wd + ticks }) s) s₃).pkg = s₃.pkg :=
      foldl_keeps State.pkg (fun s q => modQueue q (fun x => { x with wd := x.wd + ticks }) s) (fun _ _ => rfl) qs s₃
    _ = s₁.pkg := foldl_keeps State.pkg
      (fun s p => s.modPart p fun x => { x with ran := x.ran + BitVec.ofNat 64 ticks }) (fun _ _ => rfl) pids s₁

theorem quiesced_spareRow (row : Nat) (h : Quiesced s) : Quiesced (spareRow row s) := by
  unfold spareRow
  dsimp only
  split
  · exact h
  · rw [Quiesced, journal_pkg]
    exact h

theorem quiesced_countRow (n row : Nat) (h : Quiesced s) : Quiesced (countRow n row s).2 := by
  have hp : Quiesced (scrubPeriod (countCe n s)) := by
    unfold scrubPeriod
    dsimp only
    split <;> exact h
  exact hp

theorem quiesced_corrected {pa : Option Nat} {t : State} (h : Quiesced s) (ht : corrected pa s = some t) : Quiesced t := by
  have hrow (row : Nat) : Quiesced (countRow 1 row s).2 := quiesced_countRow 1 row h
  cases pa with
  | none =>
    obtain rfl := Option.some.inj ht
    exact h
  | some pa =>
    dsimp only [corrected] at ht
    split at ht
    · cases ht
    · obtain rfl := Option.some.inj ht
      split
      · exact quiesced_spareRow _ (hrow _)
      · exact hrow _

theorem modZone_pkg (z : Nat) (f : Zone → Zone) (s : State) : (s.modZone z f).pkg = s.pkg := by
  unfold State.modZone
  repeat' split
  all_goals rfl

theorem quiesced_sense {z : Nat} {volt : BitVec 12} {proc : Byte} {cond : BitVec 2} {t : State} (h : Quiesced s)
    (ht : sense z volt proc cond s = some t) : Quiesced t := by
  unfold sense at ht
  split at ht
  · cases ht
  · exact Option.some.inj ht ▸ quiesced_of_pkg (modZone_pkg _ _ s) h

/-! ## The events that it serves -/

/-- What `quiescedServes` admits, by name. -/
theorem quiescedServes_cases {i : Instr} (h : quiescedServes i = true) :
    i = .coldReset ∨ (∃ image ok, i = .firmwareUpdate image ok) ∨ ∃ pa data, i = .hostLinkAccess false pa data := by
  unfold quiescedServes at h
  split at h
  · next w pa data =>
    cases w with
    | false => exact .inr (.inr ⟨pa, data, rfl⟩)
    | true => cases h
  · exact .inl rfl
  · next image ok => exact .inr (.inl ⟨image, ok, rfl⟩)
  · cases h

/-- A read of the host changes the replies alone. -/
theorem quiesced_hostRead {pa : Nat} {data : List Byte} (h : Quiesced s) :
    OutQuiesced (exec (.hostLinkAccess false pa data) s) := by
  refine outQuiesced_due h fun t ht => ?_
  split at ht
  · exact Option.some.inj ht ▸ h
  split at ht
  · cases ht
  · exact Option.some.inj ht ▸ h

/-- An event that the quiesced package serves, but for a cold reset, leaves it quiesced. -/
theorem quiesced_served {i : Instr} (h : Quiesced s) (hs : quiescedServes i = true) (hc : i ≠ .coldReset) :
    OutQuiesced (exec i s) := by
  rcases quiescedServes_cases hs with rfl | ⟨image, ok, rfl⟩ | ⟨pa, data, rfl⟩
  · exact absurd rfl hc
  · exact outQuiesced_next h
  · exact quiesced_hostRead h

/-! ## The turns that it takes -/

/-- The first turn of the schedule is one that the quiesced package takes: another one is a fault (R433). -/
theorem step_quiesced {t : State} (h : Quiesced s) (hstep : step s = .next t) :
    ∃ u ts, s.schedule = u :: ts ∧ quiescedStops u = false ∧ takeTurn exec u { s with schedule := ts } = .next t := by
  unfold step nextStep at hstep
  split at hstep
  · next u ts hsched =>
    refine ⟨u, ts, hsched, ?_, hstep⟩
    unfold takeTurn at hstep
    split at hstep
    · cases hstep
    · next hn => simpa [show s.pkg.quiesced = true from h] using hn
  · rw [if_pos (show s.pkg.quiesced = true from h)] at hstep
    cases hstep

/-- A turn that the quiesced package takes leaves it quiesced, but for a cold reset. -/
theorem quiesced_takeTurn {u : Turn} (h : Quiesced s) (hu : quiescedStops u = false) (hc : u ≠ .event .coldReset) :
    OutQuiesced (takeTurn exec u s) := by
  unfold takeTurn
  rw [if_neg (by simp [hu])]
  cases u with
  | event i =>
    have hs : quiescedServes i = true := by simpa [quiescedStops] using hu
    dsimp only
    split
    · exact quiesced_served h hs fun e => hc (e ▸ rfl)
    · exact outQuiesced_next h
  | hart => cases hu
  | engine => cases hu
  | lossInFlight => cases hu
  | flowQueue => cases hu
  | resetStep => cases hu
  | elapse ticks cycles =>
    exact outQuiesced_dueIf h (by rw [Quiesced, elapse_pkg]; exact h)
  | count => exact outQuiesced_dueIf h (quiesced_of_pkg (modHart_pkg _ _ s) h)
  | hold => exact outQuiesced_dueIf h (quiesced_of_pkg (modHart_pkg _ _ s) h)
  | drainFor => exact outQuiesced_dueIf h (quiesced_of_pkg (modHart_pkg _ _ s) h)
  | writeBack pline =>
    refine outQuiesced_due h fun t ht => ?_
    split at ht
    · cases ht
    · exact Option.some.inj ht ▸ h
  | lag n on =>
    refine outQuiesced_dueIf h (quiesced_of_pkg (atHart_pkg n (fun u => ?_) s) h)
    cases on
    · exact lateStores_pkg u
    · rfl
  | lateStore n => exact outQuiesced_dueIf h (quiesced_of_pkg (atHart_pkg n lateStore_pkg s) h)
  | cacheWord n pa =>
    refine outQuiesced_dueIf h (quiesced_of_pkg ?_ h)
    unfold State.fillWord
    split <;> rfl
  | dropWord n pa =>
    refine outQuiesced_next (quiesced_of_pkg ?_ h)
    unfold State.dropWords
    split <;> rfl
  | corrected => exact outQuiesced_due h fun _ => quiesced_corrected h
  | sense => exact outQuiesced_due h fun _ => quiesced_sense h
  | fjoirImage => exact outQuiesced_next h

/-- Settles O23: the step is a turn that the quiesced package takes, each of which but a cold reset keeps the state. -/
theorem onlyColdResetEndsQuiescence : Obligations.OnlyColdResetEndsQuiescence := by
  intro s t hq hstep
  obtain ⟨u, ts, hsched, hu, hturn⟩ := step_quiesced hq hstep
  rw [hsched, List.head?_cons]
  have stopped {v : Turn} (hv : quiescedStops v = true) : some u ≠ some v := by
    rintro ⟨⟩
    exact Bool.false_ne_true (hu.symm.trans hv)
  refine ⟨?_, List.cons_ne_nil u ts, fun _ => stopped rfl, fun _ _ => stopped rfl, fun _ _ _ => stopped rfl,
    fun _ => stopped rfl, fun _ => stopped rfl, ?_⟩
  · by_cases hc : u = .event .coldReset
    · exact .inr (congrArg some hc)
    · exact .inl (quiesced_takeTurn (s := { s with schedule := ts }) hq hu hc t hturn)
  · rintro i ⟨⟩
    exact quiescedServes_cases (by simpa [quiescedStops] using hu)

end Sys2Proof.Proofs
end

section
/-! PROOFS. trap, ecall, brk and tret, and the instructions of time, counters and marks (R395 to R402, R419 to R425). -/

namespace Sys2Proof.Proofs

open Sys2Proof.Machine Sys2Proof.Safety

/-! ## Saved program counters (R40) -/

/-- The address of a saved program counter: bits 1:0 read 0, and the suffix is ignored. -/
theorem pcOf_eq (w : Word) : pcOf w = BitVec.ofNat 57 (4 * (w.toNat / 4)) := by
  have hbits (k : Nat) : (4 * (w.toNat / 4)).testBit k = (decide (2 ≤ k) && w.toNat.testBit k) := by
    rw [show 4 * (w.toNat / 4) = 2 ^ 2 * (w.toNat / 2 ^ 2) from rfl, Nat.testBit_two_pow_mul]
    by_cases hk : 2 ≤ k
    · simp only [hk, decide_true, Bool.true_and, Nat.testBit_div_two_pow, Nat.sub_add_cancel hk]
    · simp [hk]
  apply BitVec.eq_of_getLsbD_eq
  intro k hk
  rw [BitVec.getLsbD_ofNat, hbits, pcOf, pcField, BitVec.getLsbD_extractLsb', BitVec.getLsbD_and, BitVec.getLsbD_not,
    Nat.zero_add]
  have h3 : (3 : Word).getLsbD k = decide (k < 2) := by
    rcases k with - | - | k
    · rfl
    · rfl
    · have hlt : 3 < 2 ^ (k + 2) := lt_of_lt_of_le (by decide : 3 < 2 ^ 2) (Nat.pow_le_pow_right (by decide) (by omega))
      exact (Nat.testBit_lt_two_pow hlt).trans (decide_eq_false (by omega)).symm
  rw [h3]
  by_cases h2 : 2 ≤ k
  · simp [hk, h2, show k < 64 by omega, show ¬ k < 2 by omega, BitVec.getLsbD]
  · simp [h2, show k < 2 by omega]

/-! ## Software traps (R395, R397, R401, R419) -/

/-- A cause that is neither an access's nor a fetch's enters the handler outside a handler and a doff routine. -/
theorem software_enters {t : Trap} {s : State} (hi : s.hart.inh = false) (hd : s.hart.dAct = false)
    (ht : t.cause ∈ [Cause.software, Cause.service, Cause.breakpoint]) (resume : Addr) :
    (s.takeTrapTo t resume).hart = inHandler t resume s.hart ∧ (s.takeTrapTo t resume).mem = s.mem := by
  obtain ⟨cause, tval⟩ := t
  have hterm : s.terminal ⟨cause, tval⟩ = false := by
    rw [Bool.eq_false_iff, Ne, terminal_iff]
    rcases List.mem_cons.1 ht with rfl | ht
    · simp [hi, hd]
    · rcases List.mem_cons.1 ht with rfl | ht
      · simp [hi, hd]
      · obtain rfl := List.mem_singleton.1 ht
        simp [hi, hd]
  have hheld : cause ≠ .held := by rintro rfl; simp at ht
  have hela : s.elasticTrap ⟨cause, tval⟩ = false := by
    have hc : (cause == Cause.translation) = false := by
      rw [beq_eq_false_iff_ne]; rintro rfl; simp at ht
    rw [State.elasticTrap, hc, Bool.false_and]
  obtain ⟨hh, hm, -⟩ := takeTrapTo_enters hheld hterm hela resume
  exact ⟨hh, hm⟩

/-- The hart that a trap instruction leaves: its cause and value, the addresses, the level, and every register as it was. -/
theorem software_leaves {i : Instr} {s : State} {h : Hart} {cause : Cause} {x : Word} {resume : Addr}
    (hi : h.inh = false) (hd : h.dAct = false) (hf : ∃ qs, h = { s.hart with qs := qs })
    (hc : cause ∈ [Cause.software, Cause.service, Cause.breakpoint])
    (he : exec i s = .next (({ s with hart := h } : State).takeTrapTo ⟨cause, x⟩ resume)) :
    ∃ t, exec i s = .next t ∧ t.hart.tCause = cause.code ∧ t.hart.tval = x ∧
      t.hart.tpc = BitVec.ofNat 64 s.hart.pc.toNat ∧ t.hart.tspc = BitVec.ofNat 64 resume.toNat ∧
      t.hart.inh = true ∧ t.hart.pprv = s.hart.level.code ∧ t.hart.vqf = s.hart.vqf ∧ t.hart.level ≠ .user ∧
      t.hart.s = h.s ∧ t.hart.p = h.p ∧ t.hart.v = h.v ∧ t.hart.m = h.m ∧ t.hart.qs = h.qs ∧ t.mem = s.mem := by
  obtain ⟨hh, hm⟩ := software_enters (s := { s with hart := h }) (t := ⟨cause, x⟩) hi hd hc resume
  obtain ⟨hs, hp, hv, hmk, hqs, -⟩ := registersOf_eq (registersOf_inHandler ⟨cause, x⟩ resume h)
  have hvqf : (inHandler ⟨cause, x⟩ resume h).vqf = h.vqf := abandon_keeps Hart.vqf (fun _ _ _ => rfl) h
  have hlevel : (inHandler ⟨cause, x⟩ resume h).level ≠ .user := by
    unfold inHandler
    dsimp only
    split <;> simp
  refine ⟨_, he, ?_⟩
  rw [hh]
  obtain ⟨qs, rfl⟩ := hf
  exact ⟨rfl, rfl, rfl, rfl, rfl, rfl, hvqf, hlevel, hs, hp, hv, hmk, hqs, hm⟩

/-- Settles O17: the three instructions take their trap by `software_leaves`. -/
theorem systemCalls : Obligations.SystemCalls := by
  intro c b s x h hg hb hi hd enters
  have hf := takeS_frame hb
  have hih : h.inh = false := by obtain ⟨qs, rfl⟩ := hf; exact hi
  have hdh : h.dAct = false := by obtain ⟨qs, rfl⟩ := hf; exact hd
  have hpc : h.pc = s.hart.pc := by obtain ⟨qs, rfl⟩ := hf; rfl
  refine ⟨software_leaves hih hdh hf (cause := .software) (by decide) ?trap,
    software_leaves hih hdh hf (cause := .service) (by decide) ?ecall,
    fun hfj => software_leaves hi hd ⟨s.hart.qs, rfl⟩ (cause := .breakpoint) (by decide) ?brk⟩
  case trap =>
    show execTrap c b s = _
    rw [execTrap, guarded_on _ hg, withSource_of _ _ hb, ← hpc]
  case ecall =>
    show execEcall c b s = _
    rw [execEcall, guarded_on _ hg, withSource_of _ _ hb, ← hpc]
  case brk =>
    show execBrk c b s = _
    rw [execBrk, guarded_on _ hg, if_neg (by simp [hd]), if_neg (by simp [hfj])]
    simp only [hb]
    rfl

/-! ## tret (R402) -/

/-- The hart goes on at a level and an address, outside a handler, and its queue runs (R402). -/
def wentOn (l : Level) (a : Addr) (s : State) : State :=
  { s with hart := { s.hart with level := l, inh := false, vqf := false, waiting := none, pc := a } }

theorem returnTrap_eq (s : State) : s.returnTrap = wentOn (Level.ofCode s.hart.pprv) (pcOf s.hart.tspc) s := rfl

theorem ofCode_eq (b : BitVec 2) :
    Level.ofCode b = match b.toNat with | 0 => .user | 1 => .supervisor | _ => .management := by
  revert b
  decide

/-- Settles O19: tret is refused below a handler's level, and restores what the trap registers hold. -/
theorem trapReturn : Obligations.TrapReturn := by
  intro c s hg
  have hexec : exec (.tret c) s = .next (if s.hart.level = .user || !s.hart.inh then s.takeTrap ⟨.privilege, 0⟩
      else s.returnTrap) := (guarded_on _ hg : execTret c s = _)
  rw [hexec]
  refine ⟨fun h => ?refused, fun hl hi => ?returns⟩
  case refused => rw [if_pos (by simpa using h)]
  case returns =>
    rw [if_neg (by simp [hl, hi]), returnTrap_eq, pcOf_eq]
    exact congrArg (fun l => Host.Outcome.next (wentOn l _ s)) (ofCode_eq s.hart.pprv)

/-! ## tsc, cnt and wmark (R420 to R425) -/

section
variable {c : Ctl} {d : Operand} {s : State} (hg : s.hart.guard c = true)
include hg

/-- tsc with guest time t, where its destination has room. -/
theorem tsc_writes {t : Word}
    (ht : (if s.hart.waiting = some (.tsc c d) then
      s.hart.tscAt.getD (guestTime (s.partAt s.hart.pid) s.pkg.time) else guestTime (s.partAt s.hart.pid) s.pkg.time) = t)
    (hr : Room d s.hart) : ∃ h', putS d t s.hart = some h' ∧ exec (.tsc c d) s = .next (completed s h') := by
  obtain ⟨h', hp⟩ := putS_room hr t
  refine ⟨h', hp, ?_⟩
  show execTsc c d s = _
  rw [execTsc, guarded_on _ hg]
  simp only [ht, hp]
  rfl

/-- tsc keeps the guest time of its issue while its destination has no room. -/
theorem tsc_waits (hw : s.hart.waiting = none)
    (hp : putS d (guestTime (s.partAt s.hart.pid) s.pkg.time) s.hart = none) :
    exec (.tsc c d) s = .next { s with hart := { s.hart with
      waiting := some (.tsc c d), tscAt := some (guestTime (s.partAt s.hart.pid) s.pkg.time) } } := by
  show execTsc c d s = _
  rw [execTsc, guarded_on _ hg]
  simp only [hw, reduceCtorEq, if_false, hp]
  rfl

/-- cnt delivers the counter that A selects, or all ones. -/
theorem cnt_completes {a : Operand} {x : Word} {h : Hart} (ha : takeS a s.hart = some (x, h)) (hr : Room d h) :
    ∃ h', putS d (if x.toNat < 16 then s.hart.counter x.toNat else BitVec.allOnes 64) h = some h' ∧
      exec (.cnt c d a) s = .next (completed s h') := by
  obtain ⟨h', hp⟩ := putS_room hr (if x.toNat < 16 then s.hart.counter x.toNat else BitVec.allOnes 64)
  refine ⟨h', hp, ?_⟩
  show execCnt c d a s = _
  rw [execCnt, guarded_on _ hg, withSource_of _ _ ha, deliver_completes (s := { s with hart := h }) _ _ hp]
  rfl

/-- wmark opens the next window, once nothing earlier is unfinished and its ten slots have room. -/
theorem wmark_opens (hq : s.quiet = true) (hs : s.streamsWritten = true) (hn : s.noRoom 10 = false)
    (ha : s.appendHeld 10 = false) :
    let u := (s.appendSnapshot (s.hart.wcur + 1)).onH fun h => { h with wcur := s.hart.wcur + 1 }
    Room d u.hart → ∃ h', putS d (BitVec.ofNat 64 (s.hart.wcur + 1).toNat) u.hart = some h' ∧
      exec (.wmark c d) s = .next (completed u h') := by
  intro u hr
  obtain ⟨h', hp⟩ := putS_room hr (BitVec.ofNat 64 (s.hart.wcur + 1).toNat)
  refine ⟨h', hp, ?_⟩
  have hw : (s.hart.wcur + 1).setWidth 64 = BitVec.ofNat 64 (s.hart.wcur + 1).toNat := (BitVec.ofNat_toNat _ _).symm
  show execWmark c d s = _
  rw [execWmark, guarded_on _ hg, if_neg (by simp [hq, hs, ha])]
  dsimp only
  rw [if_neg (by simp [hn]), hw, deliver_completes (s := u) _ _ hp]

end

/-- Settles O21: each instruction goes by its lemma above. -/
theorem timeAndMarks : Obligations.TimeAndMarks := by
  refine ⟨fun c d s hg => ⟨fun hw => ⟨?now, fun hp => ⟨_, tsc_waits hg hw hp, rfl⟩⟩, fun t hw ht => ?kept⟩,
    fun c d a s x h hg ha hr => cnt_completes hg ha hr, fun c d s hg hq hs hn ha => wmark_opens hg hq hs hn ha⟩
  case now => exact tsc_writes hg (if_neg (by simp [hw]))
  case kept => exact tsc_writes hg (by rw [if_pos hw, ht]; rfl)

end Sys2Proof.Proofs
end

section
/-! PROOFS. halt, sync and yield, and what the save of a context leaves (R403 to R408). -/

namespace Sys2Proof.Proofs

open Sys2Proof.Machine Sys2Proof.Safety

/-! ## The save of a context (R407, R408) -/

theorem contexts_fillDev (pa : Nat) (bs : List Byte) (s : State) : contexts (s.fillDev pa bs) = contexts s := by
  unfold State.fillDev
  split
  · exact contexts_writeDev pa bs s
  · rfl

theorem contexts_fillOpaque (pa n : Nat) (s : State) : contexts (s.fillOpaque pa n) = contexts s :=
  contexts_fillDev pa _ s

/-- Writing a save area changes no context. -/
theorem contexts_writeArea (reason : Reason) (spc fva : Word) (groups : Nat) (s : State) :
    contexts (s.writeArea reason spc fva groups) = contexts s := by
  simp only [State.writeArea, contexts_fillOpaque, contexts_fillDev]
  rfl

/-- The context that a save keeps of a hart. -/
def keptHart (spc : Word) (h : Hart) : Hart :=
  { h.clearTraps with waiting := none, yreq := false, ydl := 0, pc := pcOf spc, drainFor := 2048, lag := false }

/-- The state of a save once its area is written: stores are visible, a training is abandoned, and the area holds the context. -/
def areaWritten (reason : Reason) (spc fva : Word) (s : State) : State :=
  let u := (s.lateStores.withdraw s.cur).onH Hart.abandon
  u.writeArea reason spc fva u.groups

/-- The save of a state whose area is written, before its slot is vacated. -/
def saveKept (c : Saved) (s : State) : State :=
  let t := ({ s with saved := s.saved ++ [c] }.carryCounters s.cur false s.hart).modCore s.coreNo (Core.release s.hartNo)
  t.cleanIf fun d => decide (d.core = t.coreNo) && decide (d.cid = s.hart.cid)

/-- The slot that a save leaves: mtvec and psel are of the slot (log 39). -/
def savedSlot (h : Hart) : Hart := { Hart.reset with mtvec := h.mtvec, psel := h.psel }

theorem saveContext_eq (reason : Reason) (spc fva : Word) (s : State) :
    ∃ c, s.saveContext reason spc fva = (saveKept c (areaWritten reason spc fva s)).vacate
        (savedSlot (areaWritten reason spc fva s).hart) ∧
      c.hart = keptHart spc (areaWritten reason spc fva s).hart ∧ c.reason = reason ∧ c.spc = spc ∧
      c.vpc = (areaWritten reason spc fva s).hart.vpcWord := by
  unfold State.saveContext
  extract_lets u groups w h kept saved c
  have hw : areaWritten reason spc fva s = w := rfl
  rw [hw]
  clear_value w
  exact ⟨c, rfl, rfl, rfl, rfl, rfl⟩

theorem contexts_areaWritten (reason : Reason) (spc fva : Word) (s : State) :
    contexts (areaWritten reason spc fva s) = contexts (s.lateStores.onH Hart.abandon) :=
  contexts_writeArea reason spc fva _ _

/-- A field of the hart that neither its stores nor a loop mark changes is the same once the area is written. -/
theorem areaWritten_keeps {γ : Type} (g : Hart → γ) (hu : ∀ h, g (unlined h) = g h)
    (ha : ∀ h m c, g { h with mark := m, lpcause := c } = g h) (reason : Reason) (spc fva : Word) (s : State) :
    g (areaWritten reason spc fva s).hart = g s.hart := by
  have hh : (areaWritten reason spc fva s).hart = s.lateStores.hart.abandon :=
    congrArg Contexts.hart (contexts_areaWritten reason spc fva s)
  rw [hh, abandon_keeps g ha]
  exact eq_of_unlined g hu (stored_lateStores s).hart

/-- A save adds the context to those that are saved, and leaves its slot empty but for what is of the slot (R408, log 39). -/
theorem saveContext_saves (reason : Reason) (spc fva : Word) {s : State} (he : s.hart.evict = false) :
    let t := s.saveContext reason spc fva
    ∃ k, t.saved = s.saved ++ [k] ∧ k.reason = reason ∧ k.spc = spc ∧ k.vpc = s.hart.vpcWord ∧ k.hart.s = s.hart.s ∧
      k.hart.demand = s.hart.demand ∧ t.hart = savedSlot s.hart ∧ t.cur = s.cur := by
  intro t
  have keeps {γ : Type} (g : Hart → γ) (hu : ∀ h, g (unlined h) = g h)
      (ha : ∀ h m c, g { h with mark := m, lpcause := c } = g h) := areaWritten_keeps g hu ha reason spc fva s
  have hs : contexts (areaWritten reason spc fva s) = _ := contexts_areaWritten reason spc fva s
  have hsk := (stored_lateStores s).1
  obtain ⟨k, ht, hk, hreason, hspc, hvpc⟩ := saveContext_eq reason spc fva s
  generalize areaWritten reason spc fva s = w at ht hk hvpc hs keeps
  have hev : (saveKept k w).hart.evict = false := (keeps Hart.evict (fun _ => rfl) fun _ _ _ => rfl).trans he
  have hv : t = (saveKept k w).onH fun _ => savedSlot w.hart := by
    rw [show t = _ from ht, State.vacate, if_neg (Bool.eq_false_iff.1 hev)]
  have hsaved : w.saved = s.saved := (congrArg Contexts.saved hs).trans (congrArg Contexts.saved hsk)
  have hcur : w.cur = s.cur := (congrArg Contexts.cur hs).trans (congrArg Contexts.cur hsk)
  refine ⟨k, ?_, hreason, hspc, hvpc.trans (keeps Hart.vpcWord (fun _ => rfl) fun _ _ _ => rfl), ?_, ?_, ?_, ?_⟩
  · rw [hv, ← hsaved]
    rfl
  · rw [hk]
    exact keeps Hart.s (fun _ => rfl) fun _ _ _ => rfl
  · rw [hk]
    exact keeps Hart.demand (fun _ => rfl) fun _ _ _ => rfl
  · rw [hv]
    exact keeps savedSlot (fun _ => rfl) fun _ _ _ => rfl
  · rw [hv, ← hcur]
    rfl

/-! ## The drain of a save with no vector work (R407) -/

theorem idle_iff {h : Hart} : h.idle = true ↔ h.vcq = [] ∧ h.episode = none := by
  simp [Hart.idle]

/-- VPC of a hart without vector work is 0 (R409). -/
theorem vpcWord_of_idle {h : Hart} (hi : h.idle = true) : h.vpcWord = 0 := by
  obtain ⟨hq, he⟩ := idle_iff.1 hi
  simp [Hart.vpcWord, Hart.oldest, Hart.oldestEpisode, hq, he]

/-- A drain with no vector work does nothing. -/
theorem drain_of_idle (fuel left : Nat) {s : State} (hi : s.hart.idle = true) : State.drain fuel left s = s := by
  obtain ⟨hq, he⟩ := idle_iff.1 hi
  cases fuel with
  | zero => rfl
  | succ fuel =>
    rw [State.drain]
    split
    · rfl
    · simp only [he, hq, runFirst, State.drainStop]

theorem drainAll_of_idle {s : State} (hi : s.hart.idle = true) : s.drainAll = s := by
  obtain ⟨hq, -⟩ := idle_iff.1 hi
  rw [State.drainAll, drain_of_idle _ _ hi]
  simp only [hq]

/-! ## The end of a hart (R403) -/

/-- A core of which hart h has released its lane groups. -/
theorem heldBy_release (h : Nat) (c : Core) : (c.release h).heldBy h = [] := by
  apply List.eq_nil_iff_forall_not_mem.2
  intro g hg
  obtain ⟨hlt, hlat⟩ := mem_heldBy.1 hg
  have hget : tget 0 (c.release h).lat g = if g ∈ c.heldBy h then 0 else tget 0 c.lat g := tget_foldl_const 0 0 _ _ g
  rw [hget] at hlat
  split at hlat
  · omega
  · next hn => exact hn (mem_heldBy.2 ⟨hlt, hlat⟩)

theorem lat_freeTile (n : Nat) (c : Core) : (c.freeTile n).lat = c.lat := by
  unfold Core.freeTile
  dsimp only
  split <;> rfl

theorem lat_dropTiles (k : Nat) (c : Core) : (c.dropTiles k).lat = c.lat := by
  unfold Core.dropTiles
  dsimp only
  rw [foldl_core Core.lat]
  intro c n
  split
  · exact lat_freeTile n c
  · rfl

/-- What a context gives back includes its lane groups. -/
theorem heldBy_givenBack (s : State) :
    ((givenBack true s).coreAt (givenBack true s).coreNo).heldBy (givenBack true s).hartNo = [] := by
  have hlat (t : State) (key n : Nat) : ((t.dropTiles key).coreAt n).heldBy s.hartNo = (t.coreAt n).heldBy s.hartNo :=
    tget_mapped (fun c => c.heldBy s.hartNo)
      (fun c => by rw [Core.heldBy, lat_dropTiles, Core.heldBy]) Core.reset t.cores n
  let t := (s.withdraw s.cur).carryCounters s.cur false s.hart
  have hr : ((t.modCore s.coreNo fun c => c.release s.hartNo).coreAt s.coreNo).heldBy s.hartNo = [] := by
    rw [State.coreAt_modCore, if_pos rfl]
    exact heldBy_release _ _
  exact (hlat _ (s.hart.key s.cur) s.coreNo).trans hr

/-- A hart that ends, before its context leaves: its stores are visible, its launch has counted it, and its halt has retired. -/
def ending (s : State) : State := (s.lateStores.countEnd s.lateStores.hart).onH (Hart.bump 1 1)

theorem endHart_eq (s : State) : endHart s =
    if State.hasWork s.lateStores.hart then
      { (ending s).leave with orphans := (ending s).leave.orphans ++ [(s.lateStores.cur, s.lateStores.hart)] }
    else (ending s).leave := rfl

theorem stored_ending (s : State) : Stored s (ending s) := by
  refine ((stored_lateStores s).trans (stored_countEnd rfl)).trans ⟨?_, onlyLaunch_of_eq rfl⟩
  rfl

/-- What the end of a hart makes of the package. -/
structure Ends (s t : State) : Prop where
  hart : ∃ h, unlined h = unlined s.hart ∧ t.hart = h.ended
  groups : (t.coreAt t.coreNo).heldBy t.hartNo = []
  cur : t.cur = s.cur
  mem : s.hart.sbuf = [] → t.mem = s.mem
  orphans : t.orphans = s.orphans

theorem givenBack_hart (tiles : Bool) (s : State) : (givenBack tiles s).hart = s.hart :=
  congrArg (fun x => x.1.hart) (outline_givenBack tiles s)

/-- A context that leaves has given back what it held, and its slot is empty, where no tenant switch clears the slot. -/
theorem leave_of_stays {s : State} (he : s.lateStores.hart.evict = false) :
    s.leave = (givenBack true s.lateStores).onH fun _ => s.lateStores.hart.ended := by
  rw [State.leave, leaveWith_eq]
  generalize s.lateStores = u at he
  rw [State.vacate, if_neg (by rw [givenBack_hart, he]; exact Bool.false_ne_true), givenBack_hart]

/-- Before its context leaves, the end of a hart with no late store changes no byte and no late store. -/
theorem ending_of_none {s : State} (hs : s.hart.sbuf = []) : (ending s).mem = s.mem ∧ (ending s).hart.sbuf = [] := by
  rw [ending, lateStores_nil hs]
  exact ⟨countEnd_keeps State.mem (fun _ _ _ => rfl) _ s,
    (congrArg Hart.sbuf (countEnd_keeps State.hart (fun _ _ _ => rfl) s.hart s)).trans hs⟩

/-- The context of a hart that ends leaves (R403), where no tenant switch clears its slot. -/
theorem ends_leave {s : State} (he : s.hart.evict = false) : Ends s (ending s).leave := by
  have hu : Stored s (ending s).lateStores := (stored_ending s).trans (stored_lateStores _)
  have hmem (hs : s.hart.sbuf = []) : (ending s).lateStores.mem = s.mem := by
    obtain ⟨hm, hb⟩ := ending_of_none hs
    rw [lateStores_nil hb, hm]
  rw [leave_of_stays ((eq_of_unlined Hart.evict (fun _ => rfl) hu.hart).trans he)]
  generalize (ending s).lateStores = u at hu hmem
  have ho := outline_givenBack true u
  exact ⟨⟨_, hu.hart, rfl⟩, heldBy_givenBack u, (congrArg (fun x => x.1.cur) ho).trans (congrArg Contexts.cur hu.1),
    fun hs => (congrArg (fun x => x.2) ho).trans (hmem hs),
    (congrArg (fun x => x.1.orphans) ho).trans (congrArg Contexts.orphans hu.1)⟩

/-- A hart that ends leaves its slot empty, and goes on as an orphan where a delivered command or a replay of it still runs. -/
theorem endHart_ends {s : State} (he : s.hart.evict = false) :
    ∃ o, Ends s { endHart s with orphans := s.orphans } ∧ (endHart s).orphans = s.orphans ++ o ∧
      (State.hasWork s.hart = true → s.hart.sbuf = [] → o = [(s.cur, s.hart)]) := by
  have hl := ends_leave he
  obtain ⟨hhart, hgroups, hcur, hmem, horphans⟩ := hl
  rw [endHart_eq]
  by_cases hw : State.hasWork s.lateStores.hart = true
  · rw [if_pos hw]
    refine ⟨_, ⟨hhart, hgroups, hcur, hmem, rfl⟩, congrArg (· ++ _) horphans, fun _ hs => ?_⟩
    rw [lateStores_nil hs]
  · rw [if_neg hw]
    refine ⟨[], ⟨hhart, hgroups, hcur, hmem, rfl⟩, by rw [horphans, List.append_nil], fun hw' hs => ?_⟩
    rw [lateStores_nil hs] at hw
    exact absurd hw' hw

/-! ## The statement -/

section
variable {c : Ctl} {s : State} (hg : s.hart.guard c = true) (hd : s.hart.dAct = false)
include hg hd

theorem halt_ends (hi : s.hart.inh = false) (hq : s.quiet = true) : exec (.halt c) s = .next (endHart s) := by
  show execHalt c s = _
  rw [execHalt, guarded_unlessDoff hg hd, if_neg (by simp [hq]), if_neg (by simp [hi])]

theorem halt_endsTask (hi : s.hart.inh = true) (hq : s.quiet = true) : exec (.halt c) s = .next s.endTask := by
  show execHalt c s = _
  rw [execHalt, guarded_unlessDoff hg hd, if_neg (by simp [hq]), if_pos hi]

theorem yield_unasked (hy : s.hart.yreq = false) : exec (.yield c) s = .next (completed s s.hart.abandon) := by
  show execYield c s = _
  rw [execYield, guarded_unlessDoff hg hd, if_pos (by simp [hy])]
  rfl

/-- A yield that was asked for has retired, and saves the context at the next instruction. -/
theorem yield_saves (hy : s.hart.yreq = true) (hi : s.hart.inh = false) (hidle : s.hart.idle = true)
    (ha : s.areaHeld = false) :
    exec (.yield c) s = .next ((s.onH (Hart.bump 1 1)).saveContext .yield (pcWord (s.hart.pc + 12) 0) 0) := by
  show execYield c s = _
  rw [execYield, guarded_unlessDoff hg hd, if_neg (by simp [hy, hi]), if_neg (by simp [ha]), drainAll_of_idle hidle]

end

/-- sync of a hart with nothing outstanding completes as a fence of both agents (R404). -/
theorem sync_completes {c : Ctl} {s : State} (hg : s.hart.guard c = true) (hq : s.quiet = true) : exec (.sync c) s =
    .next (completed s { s.hart with fence := s.hart.vseq, vfence := s.hart.vseq, sfence := s.hart.vseq }) := by
  show execSync c s = _
  rw [execSync, guarded_on _ hg, if_neg (by simp [hq])]
  rfl

/-- Settles O20: halt by `endHart_ends` and `taskEnds_endTask`, and yield by `saveContext_saves`. -/
theorem endsAndYields : Obligations.EndsAndYields := by
  refine ⟨fun c s hg hd hi hq he => ?halt, fun c s hg hd hi hq => ⟨halt_endsTask hg hd hi hq, fun q hl => taskEnds_endTask hl⟩,
    fun c s hg hd => ⟨sync_completes hg, yield_unasked hg hd, fun hy hi hidle he ha => ?yield⟩⟩
  case halt =>
    obtain ⟨o, ⟨⟨h, hu, hh⟩, hgroups, hcur, hmem, -⟩, ho, hwork⟩ := endHart_ends he
    have hh : (endHart s).hart = h.ended := hh
    have keeps {γ : Type} (g : Hart → γ) (hg : ∀ h, g (unlined h) = g h) : g h = g s.hart := eq_of_unlined g hg hu
    refine ⟨_, halt_ends hg hd hi hq, ?_⟩
    rw [hh]
    exact ⟨rfl, rfl, keeps Hart.s fun _ => rfl, keeps Hart.p fun _ => rfl, keeps Hart.v fun _ => rfl,
      keeps Hart.m fun _ => rfl, keeps Hart.vl fun _ => rfl, keeps Hart.vstart fun _ => rfl, keeps Hart.fflags fun _ => rfl,
      keeps Hart.lpix fun _ => rfl, keeps Hart.lpcause fun _ => rfl, keeps Hart.dLast fun _ => rfl,
      keeps Hart.dNref fun _ => rfl, rfl, rfl, rfl, rfl, rfl, hgroups, hcur, hmem, fun hw hs => by rw [ho, hwork hw hs]⟩
  case yield =>
    obtain ⟨k, hsaved, hreason, hspc, hvpc, hs, hdemand, hhart, -⟩ :=
      saveContext_saves .yield (pcWord (s.hart.pc + 12) 0) 0 (s := s.onH (Hart.bump 1 1)) he
    exact ⟨_, k, yield_saves hg hd hy hi hidle ha, hsaved, hreason, hspc.trans (pcWord_zero _),
      hvpc.trans (vpcWord_of_idle hidle), hs, hdemand, hhart⟩

end Sys2Proof.Proofs
end

section
/-! PROOFS. Claims and release of tile slots, and the return of a doff routine (R331 to R335, R341). -/

namespace Sys2Proof.Proofs

open Sys2Proof.Machine Sys2Proof.Safety

section
variable {c : Ctl} {n : BitVec 2} {s : State}

/-! ## What a claim meets (R334) -/

/-- Slot n of the focused hart's core is reserved (R332). -/
def reservedSlot (s : State) (n : Nat) : Bool := (s.coreAt s.coreNo).tres.getLsbD (9 * n + 8)

/-- Nobody holds slot n of the focused hart's core, and no request for it waits. -/
def FreeSlot (s : State) (n : Nat) : Prop :=
  ((s.coreAt s.coreNo).tile n).holder = none ∧ ∀ r ∈ (s.coreAt s.coreNo).recalls, r.slot ≠ n

theorem holder_of_holds {m : Nat} (h : s.holds m = true) :
    ((s.coreAt s.coreNo).tile m).holder = some (s.hart.key s.cur) := beq_iff_eq.1 h

theorem claim_held {m : Nat} (h : s.holds m = true) (cls : TileClass) : claim m cls s = .held :=
  if_pos (holder_of_holds h)

theorem not_requested {m : Nat} (h : FreeSlot s m) : s.requested m = false := by
  rw [State.requested, List.any_eq_false]
  intro r hr
  simp [h.2 r hr]

theorem not_waited {m k : Nat} (h : FreeSlot s m) :
    ((s.coreAt s.coreNo).recalls.any fun r => r.slot == m && r.key != some k) = false := by
  rw [List.any_eq_false]
  intro r hr
  simp [h.2 r hr]

/-- A free slot that is reserved for the hart's partition is granted to a fixed claim. -/
theorem claim_fixed {m : Nat} (h : FreeSlot s m) (hd : s.hart.dAct = false) (hr : reservedSlot s m = true)
    (hp : (s.coreAt s.coreNo).tres.extractLsb' (9 * m) 8 = s.hart.pid) : claim m .fixed s = .granted := by
  have hr : (s.coreAt s.coreNo).tres.getLsbD (9 * m + 8) = true := hr
  simp [claim, Core.reserved, h.1, hd, hr, hp, not_waited h]

/-- A free slot that is not reserved is granted to a negotiated claim. -/
theorem claim_negotiated {m : Nat} (h : FreeSlot s m) (hd : s.hart.dAct = false) (hr : reservedSlot s m = false) :
    claim m .negotiated s = .granted := by
  have hr : (s.coreAt s.coreNo).tres.getLsbD (9 * m + 8) = false := hr
  simp [claim, Core.reserved, h.1, hd, hr, not_waited h]

/-- A pool claim of a slot that is not reserved is granted where nobody holds it. -/
theorem claim_pool {m : Nat} (h : ((s.coreAt s.coreNo).tile m).holder = none) (hd : s.hart.dAct = false)
    (hr : reservedSlot s m = false) : claim m .pool s = .granted := by
  have hr : (s.coreAt s.coreNo).tres.getLsbD (9 * m + 8) = false := hr
  simp [claim, Core.reserved, h, hd, hr]

/-- It is refused where another context holds it. -/
theorem claim_pool_refused {m k : Nat} (h : ((s.coreAt s.coreNo).tile m).holder = some k) (hk : k ≠ s.hart.key s.cur)
    (hd : s.hart.dAct = false) (hr : reservedSlot s m = false) : claim m .pool s = .refused := by
  have hr : (s.coreAt s.coreNo).tres.getLsbD (9 * m + 8) = false := hr
  simp [claim, Core.reserved, h, hk, hd, hr]

/-! ## treq (R334) -/

theorem treqWait_held {m : Nat} (h : s.holds m = true) (i : Instr) (cls : TileClass) (doff : Addr) :
    treqWait i m cls doff s = completed s s.hart := by
  rw [treqWait, if_neg (by simp [h]), claim_held h]
  rfl

theorem treqWait_granted {m : Nat} {cls : TileClass} (h : FreeSlot s m) (hc : claim m cls s = .granted) (i : Instr)
    (doff : Addr) : treqWait i m cls doff s = completed (s.grantTile m cls doff) s.hart := by
  rw [treqWait, if_neg (by simp [not_requested h]), hc]
  rfl

section
variable (hg : s.hart.guard c = true)
include hg

theorem treqFixed_eq : exec (.treqFixed c n) s = .next (treqWait (.treqFixed c n) n.toNat .fixed 0 s) := by
  show execTreqFixed c n s = _
  rw [execTreqFixed, guarded_on _ hg]

theorem treqNeg_eq (disp : BitVec 32) : exec (.treqNeg c n disp) s =
    .next (treqWait (.treqNeg c n disp) n.toNat .negotiated (s.hart.pc + BitVec.ofInt 57 disp.toInt) s) := by
  show execTreqNeg c n disp s = _
  rw [execTreqNeg, guarded_on _ hg]
  rfl

theorem treqPool_held (h : s.holds n.toNat = true) (a : BitVec 6) (disp : BitVec 32) :
    exec (.treqPool c n a disp) s = .next (completed s (s.hart.ws a.toNat 1)) := by
  show execTreqPool c n a disp s = _
  rw [execTreqPool, guarded_on _ hg, claim_held h]
  rfl

theorem treqPool_granted (h : claim n.toNat .pool s = .granted) (a : BitVec 6) (disp : BitVec 32) :
    exec (.treqPool c n a disp) s =
      .next (completed (s.grantTile n.toNat .pool (s.hart.pc + BitVec.ofInt 57 disp.toInt)) (s.hart.ws a.toNat 1)) := by
  show execTreqPool c n a disp s = _
  rw [execTreqPool, guarded_on _ hg, h]
  rfl

theorem treqPool_refused (h : claim n.toNat .pool s = .refused) (a : BitVec 6) (disp : BitVec 32) :
    exec (.treqPool c n a disp) s = .next (completed s (s.hart.ws a.toNat 0)) := by
  show execTreqPool c n a disp s = _
  rw [execTreqPool, guarded_on _ hg, h]
  rfl

/-! ## trel (R335) -/

theorem trel_unheld (h : s.holds n.toNat = false) : exec (.trel c n) s = .next (completed s s.hart) := by
  show execTrel c n s = _
  rw [execTrel, guarded_on _ hg, if_pos (by simp [h])]
  rfl

theorem trel_frees (h : s.holds n.toNat = true) (hq : s.hart.vcq = []) :
    exec (.trel c n) s = .next (completed (s.modCore s.coreNo (Core.freeTile n.toNat)) s.hart) := by
  show execTrel c n s = _
  rw [execTrel, guarded_on _ hg, if_neg (by simp [h]), if_neg (by simp [matrixBusy_of_empty hq]), State.releaseTile, if_pos h]
  rfl

end

/-! ## The return of a doff routine (R341) -/

/-- The hart of a routine that has returned with an outcome. -/
def returned (last : BitVec 2) (h : Hart) : Hart :=
  { h with
    dLast := last, dLslot := h.dSlot, dAct := false, vstart := h.dSvst, pc := BitVec.ofNat 57 (4 * (h.tdpc.toNat / 4))
    waiting := none }

theorem doffReturn_eq (last : BitVec 2) (hi : s.hart.idle = true) :
    doffReturn last s = { s with hart := returned last s.hart } := by
  rw [doffReturn, State.onH, Hart.setVstart, if_pos (by simp [hi])]
  dsimp only
  rw [pcOf_eq]
  rfl

theorem releaseTile_hart (m : Nat) (s : State) : (s.releaseTile m).hart = s.hart := by
  unfold State.releaseTile
  split <;> rfl

/-- A routine that is finished or summarised frees its slot. -/
theorem doffDone_returns (i : Instr) (last : BitVec 2) (hd : s.hart.dAct = true) (hq : s.hart.vcq = [])
    (he : s.hart.episode = none) :
    doffDone i last s = { s.releaseTile s.hart.dSlot.toNat with hart := returned last s.hart } := by
  have hi : (s.releaseTile s.hart.dSlot.toNat).hart.idle = true := by
    rw [releaseTile_hart]
    exact idle_iff.2 ⟨hq, he⟩
  rw [doffDone, if_neg (by simp [hd]), if_neg (by simp [matrixBusy_of_empty hq]), doffReturn_eq _ hi, releaseTile_hart]

/-- A routine that is refused counts its refusal, while there are fewer than three and no tenant switch recalls the slot. -/
theorem doffretRefused_returns (hg : s.hart.guard c = true) (hd : s.hart.dAct = true) (hq : s.hart.vcq = [])
    (he : s.hart.episode = none) :
    let g := s.hart.forget s.pkg.time
    g.dNref ≠ 3 → (∀ r, headOf s.hart.dSlot.toNat (s.coreAt s.coreNo).recalls = some r → r.key ≠ none) →
    ∃ cores, exec (.doffretRefused c) s = .next { s with
      cores := cores
      hart := returned 3 { g with refusals := g.refusals ++ [s.pkg.time], dNref := g.dNref + 1 } } := by
  intro g hn hr
  have ht : (s.onH (Hart.forget s.pkg.time)).tenantRecall s.hart.dSlot.toNat = false := by
    unfold State.tenantRecall
    split
    · next r h => exact Option.isNone_eq_false_iff.2 (Option.ne_none_iff_isSome.1 (hr r h))
    · rfl
  let g' : Hart := { g with refusals := g.refusals ++ [s.pkg.time], dNref := g.dNref + 1 }
  have hi : g'.idle = true := idle_iff.2 ⟨hq, he⟩
  show ∃ cores, execDoffretRefused c s = _
  rw [execDoffretRefused, guarded_on _ hg, if_neg (by simp [hd])]
  dsimp only
  rw [if_neg (by simp [ht]), if_neg (show ¬ (s.onH (Hart.forget s.pkg.time)).hart.dNref = 3 from hn)]
  split
  · exact ⟨_, congrArg Host.Outcome.next (doffReturn_eq 3 hi)⟩
  · exact ⟨s.cores, congrArg Host.Outcome.next (doffReturn_eq 3 hi)⟩

end

/-- Settles O47: the claims by what they meet, and the returns by `returned`. -/
theorem tileClaims : Obligations.TileClaims := by
  intro c n s hg co granted reserved free
  refine ⟨fun h => ⟨?_, fun disp => ?_, treqPool_held hg h⟩, fun hf hd => ⟨fun hr hp => ?_, fun hr => ⟨fun disp => ?_, ?_⟩⟩,
    fun k a disp hr hd hk hne => ?_, trel_unheld hg, trel_frees hg, fun hd hq he => ⟨?_, ?_, ?_⟩⟩
  · rw [treqFixed_eq hg, treqWait_held h]
  · rw [treqNeg_eq hg, treqWait_held h]
  · rw [treqFixed_eq hg, treqWait_granted hf (claim_fixed hf hd hr hp)]
    rfl
  · rw [treqNeg_eq hg, treqWait_granted hf (claim_negotiated hf hd (Bool.eq_false_iff.2 hr))]
    rfl
  · exact treqPool_granted hg (claim_pool hf.1 hd (Bool.eq_false_iff.2 hr))
  · exact treqPool_refused hg (claim_pool_refused hk hne hd (Bool.eq_false_iff.2 hr)) a disp
  · show execDoffretFinished c s = _
    rw [execDoffretFinished, guarded_on _ hg, doffDone_returns _ _ hd hq he]
    rfl
  · show execDoffretSummarised c s = _
    rw [execDoffretSummarised, guarded_on _ hg, doffDone_returns _ _ hd hq he]
    rfl
  · exact doffretRefused_returns hg hd hq he

end Sys2Proof.Proofs
end

section
/-! PROOFS. Cooling zones: what a measurement, a brake and a step of an evacuation make of a zone (R456, R459 to R464). -/

namespace Sys2Proof.Proofs

open Sys2Proof.Machine Sys2Proof.Safety

variable {s t : State} {z : Nat}

/-! ## What a write of the device leaves unchanged -/

/-- A state without what a write of bytes changes: the bytes, their tags, the residue-mode rows and the stashes' lines. -/
def unwritten (s : State) : State := { s with mem := [], tags := [], residue := [], dirty := [] }

theorem unwritten_putBytes (bs : List Byte) : ∀ (pa : Nat) (s : State), unwritten (s.putBytes pa bs) = unwritten s := by
  induction bs with
  | nil => exact fun _ _ => rfl
  | cons b bs ih => exact fun pa s => ih (pa + 1) (s.putByte pa b)

theorem unwritten_setTags (pa n : Nat) (tag : BitVec 28) (s : State) : unwritten (s.setTags pa n tag) = unwritten s :=
  foldl_keeps unwritten (fun s i => { s with
    tags := tset (BitVec.allOnes 28) s.tags (s.forward ((pa / 128 + i) * 128) / 128) tag }) (fun _ _ => rfl) _ s

theorem unwritten_recode (pa n : Nat) (s : State) : unwritten (s.recode pa n) = unwritten s := by
  unfold State.recode
  split <;> rfl

theorem unwritten_patchHome (pa : Nat) (bs : List Byte) (s : State) : unwritten (s.patchHome pa bs) = unwritten s := by
  unfold State.patchHome
  split <;> rfl

theorem unwritten_write (pa : Nat) (bs : List Byte) (tag : BitVec 28) (s : State) :
    unwritten (s.write pa bs tag) = unwritten s := by
  have hput : unwritten ((s.putBytes pa bs).recode pa bs.length) = unwritten s := by
    rw [unwritten_recode, unwritten_putBytes]
  unfold State.write
  dsimp only
  split
  · exact (unwritten_setTags _ _ _ _).trans hput
  · exact hput

theorem unwritten_writeDev (pa : Nat) (bs : List Byte) (s : State) : unwritten (s.writeDev pa bs) = unwritten s :=
  (unwritten_write _ _ _ _).trans (unwritten_patchHome _ _ s)

/-- Two changes of the package registers that meet with the same writes around them. -/
theorem unwritten_modPkg {f : Pkg → Pkg} (h : unwritten t = unwritten s) :
    unwritten (t.modPkg f) = (unwritten s).modPkg f :=
  congrArg (State.modPkg f) h

/-- An entry of the journal writes bytes, and moves JHEAD (R441). -/
theorem unwritten_journal (type code : Byte) (pid : Option Byte) (queue : Option Nat) (cid : Option (BitVec 12))
    (slot lseq pc qual aux : Word) (payload : List Byte) (s : State) :
    unwritten (s.journal type code pid queue cid slot lseq pc qual aux payload) =
      (unwritten s).modPkg fun p => { p with jhead := if p.jEn then p.jhead + 1 else p.jhead } := by
  unfold State.journal
  cases hj : s.pkg.jEn with
  | false =>
    simp only [Bool.not_false, if_true]
    exact (show unwritten s = { unwritten s with pkg := { s.pkg with jhead := s.pkg.jhead } } from rfl).trans
      (by simp only [State.modPkg, unwritten, hj, Bool.false_eq_true, if_false])
  | true =>
    simp only [Bool.not_true, Bool.false_eq_true, if_false]
    refine (unwritten_writeDev _ _ _).trans ((unwritten_modPkg ((unwritten_writeDev _ _ _).trans
      ((unwritten_writeDev _ _ _).trans (unwritten_writeDev _ _ _)))).trans ?_)
    simp only [State.modPkg, unwritten, hj, if_true]

theorem zoneAt_of_unwritten (h : unwritten t = unwritten s) (k : Nat) : t.zoneAt k = s.zoneAt k :=
  (congrArg (fun u : State => u.zoneAt k) h :)

/-- A package fault quiesces the package, which keeps the zones and the sensor traps (R432, R433). -/
theorem packageFault_quiesces (cls : Byte) (aux : Word) (s : State) :
    (s.packageFault cls aux).pkg.quiesced = true ∧ (s.packageFault cls aux).pkg.fatal = true ∧
      (s.packageFault cls aux).pkg.ctZone = s.pkg.ctZone ∧ ∀ k, (s.packageFault cls aux).zoneAt k = s.zoneAt k := by
  have hj := unwritten_journal 0x09 cls none none none 0 (BitVec.allOnes 64) 0 0 aux [] s
  exact ⟨rfl, rfl, (congrArg (fun u : State => u.pkg.ctZone) hj :), fun k => (congrArg (fun u : State => u.zoneAt k) hj :)⟩

/-! ## Zones -/

/-- A change of a zone is that zone's alone. -/
theorem zoneAt_modZone (hz : z < 80) (f : Zone → Zone) (s : State) (k : Nat) :
    (s.modZone z f).zoneAt k = if k = z then f (s.zoneAt z) else s.zoneAt k := by
  by_cases hc : z < 64
  · by_cases hk : k < 64
    · simp only [State.modZone, State.zoneAt, hc, hk, if_true, tget_tset]
    · rw [if_neg (by omega)]
      simp only [State.modZone, State.zoneAt, hc, hk, if_true, if_false]
  · by_cases hk : k < 64
    · rw [if_neg (by omega)]
      simp only [State.modZone, State.zoneAt, hc, hz, hk, if_true, if_false]
    · by_cases hb : k < 80
      · simp only [State.modZone, State.zoneAt, hc, hz, hk, hb, if_true, if_false, tget_tset]
      · rw [if_neg (by omega)]
        simp only [State.modZone, State.zoneAt, hc, hz, hk, hb, if_true, if_false]

theorem zoneAt_modZone_same (hz : z < 80) (f : Zone → Zone) (s : State) : (s.modZone z f).zoneAt z = f (s.zoneAt z) := by
  rw [zoneAt_modZone hz, if_pos rfl]

/-- A change of a zone depends on what it makes of the zone alone. -/
theorem modZone_eq {f : Zone → Zone} {y : Zone} (h : f (s.zoneAt z) = y) : s.modZone z f = s.modZone z fun _ => y := by
  unfold State.modZone
  split
  · rw [h]
  · split
    · rw [h]
    · next hc hb => rw [← h, State.zoneAt, if_neg hc, if_neg hb]

/-- A change of each of some zones. -/
theorem zoneAt_foldl_modZone (g : Nat → Zone → Zone) (j : Nat) {l : List Nat} (hn : l.Nodup) (hl : ∀ k ∈ l, k < 80) :
    ∀ s : State, (l.foldl (fun s k => s.modZone k (g k)) s).zoneAt j =
      if j ∈ l then g j (s.zoneAt j) else s.zoneAt j := by
  induction l with
  | nil => exact fun _ => rfl
  | cons k l ih =>
    intro s
    obtain ⟨hk, hn⟩ := List.nodup_cons.mp hn
    rw [List.foldl_cons, ih hn fun i hi => hl i (List.mem_cons_of_mem k hi), zoneAt_modZone (hl k List.mem_cons_self)]
    by_cases hjk : j = k
    · subst hjk
      simp [hk]
    · simp [hjk]

theorem foldl_modZone_pkg (g : Nat → Zone → Zone) (l : List Nat) (s : State) :
    (l.foldl (fun s k => s.modZone k (g k)) s).pkg = s.pkg :=
  foldl_keeps State.pkg (fun s k => s.modZone k (g k)) (fun s k => modZone_pkg k (g k) s) l s

theorem everyCompute_pkg (f : Zone → Zone) (s : State) : (everyCompute f s).pkg = s.pkg :=
  foldl_modZone_pkg (fun _ => f) _ s

theorem zoneAt_everyCompute (f : Zone → Zone) (s : State) (hz : z < 64) :
    (everyCompute f s).zoneAt z = f (s.zoneAt z) := by
  refine (zoneAt_foldl_modZone (fun _ => f) z List.nodup_range (fun k hk => ?_) s).trans
    (if_pos (List.mem_range.mpr hz))
  have := List.mem_range.mp hk
  omega

theorem zoneAt_openValves (s : State) (hz : z < 80) : (openValves s).zoneAt z = { s.zoneAt z with valve := 255 } :=
  (zoneAt_foldl_modZone (fun _ x => { x with valve := 255 }) z List.nodup_range (fun _ hk => List.mem_range.mp hk) s).trans
    (if_pos (List.mem_range.mpr hz))

theorem zone_down_f (x : Zone) : x.down.f = if 4 < x.f.toNat then x.f - 1 else x.f := by
  unfold Zone.down
  split <;> rfl

theorem zone_brake_eq (x : Zone) : x.brake = { x with f := if x.f = 0 then 0 else 4 } := by
  unfold Zone.brake
  split
  · next h => rw [← h]
  · rfl

theorem purging_iff (s : State) : purging s = true ↔ ∃ y < 80, (s.zoneAt y).evac = 3 := by
  simp only [purging, List.any_eq_true, List.mem_range, decide_eq_true_eq]

/-- An event that is due has its effect. -/
theorem dueIf_next {c : Prop} [Decidable c] (h : c) (t s : State) : due s (if c then some t else none) = .next t := by
  rw [if_pos h]
  rfl

/-- An event that is due has made of a zone what it makes of it. -/
theorem due_modZone (z : Nat) (f : Zone → Zone) (s : State) :
    due s (some (s.modZone z f)) = .next (s.modZone z fun _ => f (s.zoneAt z)) :=
  congrArg Host.Outcome.next (modZone_eq rfl)

/-! ## Clock fractions (R456, R459) -/

theorem regulated_iff (hz : z < 80) : regulated z s = true ↔
    (s.zoneAt z).f ≠ 0 ∧ (s.zoneAt z).evac = 0 ∧ (s.zoneAt z).lfHold = false := by
  simp [regulated, hz, and_assoc]

theorem short_iff (z : Nat) (s : State) : short z s = true ↔
    (s.zoneAt z).flow.toNat < s.share z ∨ 8 * s.pkg.tmax.toNat ≤ (s.zoneAt z).temp.toNat := by
  simp only [short, Bool.or_eq_true, decide_eq_true_eq]

theorem throttleDown_steps (hr : regulated z s = true) (hs : short z s = true) (hf : 4 < (s.zoneAt z).f.toNat) :
    exec (.throttleDown z) s = .next (s.modZone z fun _ => { s.zoneAt z with f := (s.zoneAt z).f - 1 }) :=
  (dueIf_next (by simp [hr, hs, hf]) _ s).trans (congrArg Host.Outcome.next (modZone_eq (if_pos hf)))

theorem throttleUp_steps (hr : regulated z s = true) (hs : ¬ short z s = true) (hf : (s.zoneAt z).f.toNat < 16) :
    exec (.throttleUp z) s = .next (s.modZone z fun _ => { s.zoneAt z with f := (s.zoneAt z).f + 1 }) :=
  (dueIf_next (by simp [hr, hs, hf]) _ s).trans (congrArg Host.Outcome.next (modZone_eq rfl))

theorem powerCapStep_steps (w : BitVec 16) (s : State) :
    ∃ t, exec (.powerCapStep w) s = .next t ∧ t.pkg = { s.pkg with pnow := w } ∧
      (z < 64 → (t.zoneAt z).f =
        if s.pkg.pcap < w ∧ 4 < (s.zoneAt z).f.toNat then (s.zoneAt z).f - 1 else (s.zoneAt z).f) := by
  let u := s.modPkg fun p => { p with pnow := w }
  refine ⟨if s.pkg.pcap < w then everyCompute Zone.down u else u, rfl, ?_⟩
  by_cases hw : s.pkg.pcap < w
  · rw [if_pos hw]
    refine ⟨everyCompute_pkg _ u, fun hz => ?_⟩
    rw [zoneAt_everyCompute _ u hz, zone_down_f]
    simp only [hw, true_and]
    rfl
  · rw [if_neg hw]
    refine ⟨rfl, fun _ => ?_⟩
    simp only [hw, false_and, if_false]
    rfl

theorem railOvercurrent_brakes (s : State) :
    ∃ t, exec .railOvercurrent s = .next t ∧ t.pkg = s.pkg ∧
      (z < 64 → (t.zoneAt z).f = if (s.zoneAt z).f = 0 then 0 else 4) :=
  ⟨_, rfl, everyCompute_pkg _ s, fun hz => by rw [zoneAt_everyCompute _ _ hz, zone_brake_eq]⟩

/-! ## Sensor traps (R460 to R464) -/

theorem valveRegulation_sets (hz : z < 80) (valve : BitVec 8) (flow : BitVec 10)
    (he : (s.zoneAt z).evac = 0 ∨ (s.zoneAt z).evac = 4) :
    exec (.valveRegulation z valve flow) s =
      .next (s.modZone z fun _ => { s.zoneAt z with valve := valve, flow := flow }) :=
  (dueIf_next (by simpa [hz] using he) _ s).trans (congrArg Host.Outcome.next (modZone_eq rfl))

theorem sensorTrap_zoneAt (bit : Nat) (s : State) (k : Nat) : (sensorTrap bit z s).zoneAt k = s.zoneAt k := rfl

/-- A zone brakes with the bit of its sensor trap set; the changes around the brake are the caller's (R462). -/
theorem sensorTrap_brakes (hz : z < 80) (bit : Nat) (g f : Zone → Zone) (s : State) :
    ((sensorTrap bit z (s.modZone z g)).modZone z f).pkg = (sensorTrap bit z s).pkg ∧
      ((sensorTrap bit z (s.modZone z g)).modZone z f).zoneAt z = f (g (s.zoneAt z)) := by
  constructor
  · rw [modZone_pkg]
    unfold sensorTrap
    rw [State.modPkg_pkg, State.modPkg_pkg, modZone_pkg]
  · rw [zoneAt_modZone_same hz, sensorTrap_zoneAt, zoneAt_modZone_same hz]

/-- What a measured temperature makes of the zone, before the package may fault. -/
def heated (z : Nat) (temp : BitVec 12) (s : State) : State :=
  let u := s.modZone z fun x => { x with temp := temp }
  if 8 * s.pkg.tcrit.toNat ≤ temp.toNat ∧ (s.zoneAt z).evac = 0 then (sensorTrap 0 z u).modZone z Zone.brake else u

/-- A measured temperature brakes the zone at TCRIT, and at TSHUT the package faults (R462). -/
theorem overTemperature_next (hz : z < 80) (temp : BitVec 12) (s : State) :
    exec (.overTemperature z temp) s =
      .next (if 8 * s.pkg.tshut.toNat ≤ temp.toNat then (heated z temp s).packageFault 3 (BitVec.ofNat 64 z)
        else heated z temp s) := by
  have hdue : ¬ 80 ≤ z := by omega
  have hcool : (heated z temp s).pkg.tshut = s.pkg.tshut := by
    unfold heated
    dsimp only
    split
    · rw [(sensorTrap_brakes hz 0 _ _ s).1]
      rfl
    · rw [modZone_pkg]
  show execOverTemperature z temp s = _
  unfold execOverTemperature
  rw [if_neg hdue, ← hcool]
  unfold heated
  simp only [modZone_pkg, zoneAt_modZone_same hz, Bool.and_eq_true, decide_eq_true_eq]
  rfl

theorem overTemperature_measures (hz : z < 80) (temp : BitVec 12) (s : State) :
    let x := s.zoneAt z
    (temp.toNat < 8 * s.pkg.tcrit.toNat → temp.toNat < 8 * s.pkg.tshut.toNat →
      exec (.overTemperature z temp) s = .next (s.modZone z fun _ => { x with temp := temp })) ∧
    (8 * s.pkg.tcrit.toNat ≤ temp.toNat → temp.toNat < 8 * s.pkg.tshut.toNat → x.evac = 0 →
      ∃ t, exec (.overTemperature z temp) s = .next t ∧ t.pkg = (sensorTrap 0 z s).pkg ∧
        t.zoneAt z = { x with temp := temp, f := if x.f = 0 then 0 else 4 }) ∧
    (8 * s.pkg.tshut.toNat ≤ temp.toNat → ∃ t, exec (.overTemperature z temp) s = .next t ∧
      t.pkg.quiesced = true ∧ t.pkg.fatal = true) := by
  intro x
  have h := overTemperature_next hz temp s
  refine ⟨fun hc hs => ?_, fun hc hs he => ⟨_, h, ?_⟩, fun hs => ⟨_, h, ?_⟩⟩
  · rw [h, if_neg (by omega), heated, if_neg (by omega)]
    exact due_modZone z (fun x => { x with temp := temp }) s
  · rw [if_neg (by omega), heated, if_pos ⟨hc, he⟩]
    obtain ⟨hpkg, hzone⟩ := sensorTrap_brakes hz 0 (fun x => { x with temp := temp }) Zone.brake s
    exact ⟨hpkg, hzone.trans (zone_brake_eq _)⟩
  · rw [if_pos hs]
    obtain ⟨hq, hf, _, _⟩ := packageFault_quiesces 3 (BitVec.ofNat 64 z) (heated z temp s)
    exact ⟨hq, hf⟩

theorem lowFlow_iff (z : Nat) (flow : BitVec 10) (s : State) :
    lowFlow z flow s = true ↔ 100 * flow.toNat < s.pkg.lowf.toNat * s.share z := decide_eq_true_iff

/-- A measured flow changes no evacuation. -/
theorem purging_measured (hz : z < 80) (flow : BitVec 10) (s : State) :
    purging (s.modZone z fun x => { x with flow := flow }) = purging s := by
  have hsame (y : Nat) : ((s.modZone z fun x => { x with flow := flow }).zoneAt y).evac = (s.zoneAt y).evac := by
    rw [zoneAt_modZone hz]
    split
    · next hy => rw [hy]
    · rfl
  simp only [purging, hsame]

/-- A low flow: LF, unless a purge masks it (R462, R464). -/
theorem lowFlow_next (hz : z < 80) {flow : BitVec 10} (hl : lowFlow z flow s = true) :
    let u := s.modZone z fun x => { x with flow := flow }
    exec (.lowFlow z flow) s =
      .next (if purging s then u else (sensorTrap 1 z u).modZone z fun x => { x.brake with lfHold := true }) := by
  intro u
  have hdue : ¬ (decide (80 ≤ z) || !lowFlow z flow s) = true := by simpa [hl] using hz
  show execLowFlow z flow s = _
  unfold execLowFlow
  rw [if_neg hdue, ← purging_measured hz flow s]
  rfl

theorem lowFlow_traps (hz : z < 80) {flow : BitVec 10} (hl : lowFlow z flow s = true) :
    let x := s.zoneAt z
    ((∀ y < 80, (s.zoneAt y).evac ≠ 3) →
      ∃ t, exec (.lowFlow z flow) s = .next t ∧ t.pkg = (sensorTrap 1 z s).pkg ∧
        t.zoneAt z = { x with flow := flow, f := if x.f = 0 then 0 else 4, lfHold := true }) ∧
    ((∃ y < 80, (s.zoneAt y).evac = 3) →
      exec (.lowFlow z flow) s = .next (s.modZone z fun _ => { x with flow := flow })) := by
  intro x
  have h := lowFlow_next hz hl
  refine ⟨fun hp => ⟨_, h, ?_⟩, fun hp => h.trans ?_⟩
  · rw [if_neg fun hq => by obtain ⟨y, hy, he⟩ := (purging_iff s).mp hq; exact hp y hy he]
    obtain ⟨hpkg, hzone⟩ := sensorTrap_brakes hz 1 (fun x => { x with flow := flow })
      (fun y => { y.brake with lfHold := true }) s
    exact ⟨hpkg, hzone.trans (by rw [zone_brake_eq])⟩
  · rw [if_pos ((purging_iff s).mpr hp)]
    exact due_modZone z (fun x => { x with flow := flow }) s

theorem lowFlowRecovery_frees (hz : z < 80) {flow : BitVec 10} (hh : (s.zoneAt z).lfHold = true)
    (hl : ¬ lowFlow z flow s = true) :
    exec (.lowFlowRecovery z flow) s = .next (s.modZone z fun _ => { s.zoneAt z with flow := flow, lfHold := false }) := by
  have hdue : ¬ (decide (80 ≤ z) || !(s.zoneAt z).lfHold || lowFlow z flow s) = true := by simp [hh, hl, hz]
  show due s (if (decide (80 ≤ z) || !(s.zoneAt z).lfHold || lowFlow z flow s) = true then none else _) = _
  rw [if_neg hdue]
  exact due_modZone z _ s

theorem pressureLoss_faults {kpa : BitVec 16} (hk : kpa < s.pkg.pmin) (z : Nat) :
    ∃ t, exec (.pressureLoss z kpa) s = .next t ∧ t.pkg.quiesced = true ∧ t.pkg.fatal = true ∧
      t.pkg.ctZone = BitVec.ofNat 7 z := by
  obtain ⟨hq, hf, hc, _⟩ := packageFault_quiesces 4 (BitVec.ofNat 64 z) (sensorTrap 3 z s)
  refine ⟨_, ?_, hq, hf, hc.trans rfl⟩
  show due s (if s.pkg.pmin ≤ kpa then none else _) = _
  rw [if_neg (BitVec.not_le.mpr hk)]
  rfl

/-! ## The five steps of an evacuation (R463) -/

theorem dryChannel_stops (hz : z < 80) (he : (s.zoneAt z).evac = 0) :
    ∃ t, exec (.dryChannel z) s = .next t ∧ t.pkg = (sensorTrap 2 z s).pkg ∧
      t.zoneAt z = { s.zoneAt z with cond := 2, evac := 1, att := 0, f := 0, lfHold := false } := by
  refine ⟨(sensorTrap 2 z s).modZone z fun x => { x with cond := 2, evac := 1, att := 0, f := 0, lfHold := false }, ?_,
    modZone_pkg _ _ _, zoneAt_modZone_same hz _ _⟩
  show due s (if 80 ≤ z then none else if (s.zoneAt z).evac ≠ 0 then some s else _) = _
  rw [if_neg (by omega), if_neg (not_not.mpr he)]
  rfl

theorem evacValveClose_closes (hz : z < 80) (he : (s.zoneAt z).evac = 1) :
    exec (.evacValveClose z) s = .next (s.modZone z fun _ => { s.zoneAt z with evac := 2, valve := 0, vent := false }) :=
  (dueIf_next (by simp [hz, he]) _ s).trans (congrArg Host.Outcome.next (modZone_eq rfl))

theorem evacPurge_purges (hz : z < 80) (he : (s.zoneAt z).evac = 2) (hp : ∀ y < 80, (s.zoneAt y).evac ≠ 3) :
    exec (.evacPurge z) s = .next (s.modZone z fun _ => { s.zoneAt z with evac := 3, valve := 255, vent := true }) := by
  have hn : purging s = false := by
    rw [Bool.eq_false_iff, Ne, purging_iff]
    exact fun ⟨y, hy, h⟩ => hp y hy h
  exact (dueIf_next (by simp [hz, he, hn]) _ s).trans (congrArg Host.Outcome.next (modZone_eq rfl))

theorem evacRefill_refills (hz : z < 80) (he : (s.zoneAt z).evac = 3) :
    exec (.evacRefill z) s = .next (s.modZone z fun _ => { s.zoneAt z with evac := 4, vent := false }) :=
  (dueIf_next (by simp [hz, he]) _ s).trans (congrArg Host.Outcome.next (modZone_eq rfl))

/-- Step 5, in a zone that is there: it runs again, tries again, or the package faults. -/
theorem evacCheck_next (hz : z < 80) (wet : Bool) (he : (s.zoneAt z).evac = 4) :
    let u := s.modZone z fun x => { x with att := x.att + 1 }
    exec (.evacCheck z wet) s = .next (
      if wet then s.modZone z fun _ => { s.zoneAt z with cond := 0, evac := 0, f := 4, lfHold := false }
      else if (s.zoneAt z).att + 1 = 3 then (openValves u).packageFault 2 (BitVec.ofNat 64 z)
      else u.modZone z fun x => { x with evac := 2, valve := 0, vent := false }) := by
  intro u
  have hdue : ¬ (!(decide (z < 80) && decide ((s.zoneAt z).evac = 4))) = true := by simp [hz, he]
  show due s (if (!(decide (z < 80) && decide ((s.zoneAt z).evac = 4))) = true then none else _) = _
  rw [if_neg hdue]
  cases wet with
  | true => exact due_modZone z _ s
  | false =>
    have hatt : (u.zoneAt z).att = (s.zoneAt z).att + 1 := by rw [zoneAt_modZone_same hz]
    rw [← hatt]
    show due s (if (u.zoneAt z).att = 3 then some _ else some _) = _
    by_cases h3 : (u.zoneAt z).att = 3
    · rw [if_pos h3, if_pos h3]
      rfl
    · rw [if_neg h3, if_neg h3]
      rfl

theorem evacCheck_ends (hz : z < 80) (he : (s.zoneAt z).evac = 4) :
    let x := s.zoneAt z
    exec (.evacCheck z true) s = .next (s.modZone z fun _ => { x with cond := 0, evac := 0, f := 4, lfHold := false }) ∧
    (x.att ≠ 2 → exec (.evacCheck z false) s = .next ((s.modZone z fun _ => { x with att := x.att + 1 }).modZone z
      fun y => { y with evac := 2, valve := 0, vent := false })) ∧
    (x.att = 2 → ∃ t, exec (.evacCheck z false) s = .next t ∧ t.pkg.quiesced = true ∧ t.pkg.fatal = true ∧
      ∀ y < 80, (t.zoneAt y).valve = 255) := by
  intro x
  have hlast : x.att + 1 = 3 ↔ x.att = 2 := by
    generalize x.att = a
    bv_omega
  have h := evacCheck_next hz false he
  refine ⟨evacCheck_next hz true he, fun ha => ?_, fun ha => ⟨_, h, ?_⟩⟩
  · rw [h, if_neg Bool.false_ne_true, if_neg (mt hlast.mp ha)]
    exact congrArg (fun u => Host.Outcome.next (u.modZone z fun y => { y with evac := 2, valve := 0, vent := false }))
      (modZone_eq rfl)
  · rw [if_neg Bool.false_ne_true, if_pos (hlast.mpr ha)]
    obtain ⟨hq, hf, _, hzone⟩ := packageFault_quiesces 2 (BitVec.ofNat 64 z)
      (openValves (s.modZone z fun x => { x with att := x.att + 1 }))
    exact ⟨hq, hf, fun y hy => by rw [hzone, zoneAt_openValves _ hy]⟩

/-- Settles O59: a measurement, a brake or a step changes its zone alone, and a sensor trap sets its bit. -/
theorem coolingZones : Obligations.CoolingZones := by
  intro z s hz x sets flagged regulated isShort
  refine ⟨fun hr hs => throttleDown_steps ((regulated_iff hz).mpr hr) ((short_iff z s).mpr hs),
    fun hr hs => throttleUp_steps ((regulated_iff hz).mpr hr) (mt (short_iff z s).mp hs),
    fun w => powerCapStep_steps w s, railOvercurrent_brakes s, fun v => ⟨?_, rfl⟩, fun v => rfl,
    fun valve flow => valveRegulation_sets hz valve flow, fun temp => overTemperature_measures hz temp s,
    fun flow hl => lowFlow_traps hz ((lowFlow_iff z flow s).mpr hl),
    fun flow hh hl => lowFlowRecovery_frees hz hh fun h => absurd ((lowFlow_iff z flow s).mp h) (by omega),
    fun kpa hk => pressureLoss_faults hk z, dryChannel_stops hz, evacValveClose_closes hz, evacPurge_purges hz,
    evacRefill_refills hz, evacCheck_ends hz⟩
  show Host.Outcome.next (s.modZone (min z 80) _) = _
  rw [Nat.min_eq_left (by omega)]
  exact due_modZone z (fun x => { x with zmin := v }) s

end Sys2Proof.Proofs
end

section
/-! PROOFS. Uncorrectable errors, scrubbing and spare rows, and the cold reset (R432 to R441, R465, R474). -/

namespace Sys2Proof.Proofs

open Sys2Proof.Machine Sys2Proof.Safety

variable {s t : State}

/-! ## What the device's own writes keep -/

/-- The writes of an entry of the journal keep what every write of the device and every change of a register keeps. -/
theorem journal_keeps {P : State → Prop} (hw : ∀ pa bs u, P u → P (u.writeDev pa bs)) (hp : ∀ f u, P u → P (State.modPkg f u))
    (type code : Byte) (pid : Option Byte) (queue : Option Nat) (cid : Option (BitVec 12))
    (slot lseq pc qual aux : Word) (payload : List Byte) (h : P s) :
    P (s.journal type code pid queue cid slot lseq pc qual aux payload) := by
  unfold State.journal
  split
  · exact h
  · exact hw _ _ _ (hp _ _ (hw _ _ _ (hw _ _ _ (hw _ _ _ h))))

/-- The rows of t that are in residue mode are so in s. -/
def ResidueIn (s t : State) : Prop := ∀ r ∈ t.residue, r ∈ s.residue

theorem residueIn_writeDev (pa : Nat) (bs : List Byte) (h : ResidueIn s t) : ResidueIn s (t.writeDev pa bs) := by
  have hhome : ResidueIn s ((t.patchHome pa bs).putBytes pa bs) := by
    rw [putBytes_frame]
    unfold State.patchHome
    split <;> exact h
  have hcode : ResidueIn s (((t.patchHome pa bs).putBytes pa bs).recode pa bs.length) := by
    unfold State.recode
    split
    · exact hhome
    · exact fun r hr => hhome r (List.mem_of_mem_filter hr)
  unfold State.writeDev State.write
  dsimp only
  split
  · intro r hr
    exact hcode r ((foldl_keeps State.residue (fun s i => { s with
      tags := tset (BitVec.allOnes 28) s.tags (s.forward ((pa / 128 + i) * 128) / 128) (BitVec.allOnes 28) })
      (fun _ _ => rfl) _ _) ▸ hr)
  · exact hcode

/-- The device's writes change of a dirty line the bytes at its home alone. -/
theorem dirty_writeDev {β : Type} {g : Dirty → β} (hg : ∀ d home, g { d with home := home } = g d) (pa : Nat) (bs : List Byte)
    (s : State) : (s.writeDev pa bs).dirty.map g = s.dirty.map g := by
  have hhome : ((s.patchHome pa bs).putBytes pa bs).dirty.map g = s.dirty.map g := by
    rw [putBytes_frame]
    unfold State.patchHome
    split
    · rfl
    · exact (List.map_map ..).trans (List.map_congr_left fun d _ => hg d _)
  have hput : (((s.patchHome pa bs).putBytes pa bs).recode pa bs.length).dirty.map g = s.dirty.map g := by
    rw [← hhome]
    unfold State.recode
    split <;> rfl
  unfold State.writeDev State.write
  dsimp only
  split
  · exact (foldl_keeps (fun u => u.dirty.map g) (fun s i => { s with
      tags := tset (BitVec.allOnes 28) s.tags (s.forward ((pa / 128 + i) * 128) / 128) (BitVec.allOnes 28) })
      (fun _ _ => rfl) _ _).trans hput
  · exact hput

/-- The lines that are dirty. -/
def dirtyLines (s : State) : List Nat := s.dirty.map Dirty.pline

/-- What an entry of the journal keeps beside its contexts: poison, owners, cores, and of the rest as much as follows. -/
structure Posted (s t : State) : Prop where
  poison : t.poison = s.poison
  owners : t.owners = s.owners
  cores : t.cores = s.cores
  residue : ResidueIn s t
  dirty : dirtyLines t = dirtyLines s

theorem Posted.refl (s : State) : Posted s s := ⟨rfl, rfl, rfl, fun _ => id, rfl⟩

theorem Posted.trans {u : State} (h : Posted s t) (k : Posted t u) : Posted s u where
  poison := k.poison.trans h.poison
  owners := k.owners.trans h.owners
  cores := k.cores.trans h.cores
  residue := fun r hr => h.residue r (k.residue r hr)
  dirty := k.dirty.trans h.dirty

/-- A change of the package registers is none of these. -/
theorem Posted.of_modPkg {f : Pkg → Pkg} (h : Posted (s.modPkg f) t) : Posted s t :=
  ⟨h.poison, h.owners, h.cores, h.residue, h.dirty⟩

theorem posted_journal (type code : Byte) (pid : Option Byte) (queue : Option Nat) (cid : Option (BitVec 12))
    (slot lseq pc qual aux : Word) (payload : List Byte) (s : State) :
    Posted s (s.journal type code pid queue cid slot lseq pc qual aux payload) := by
  have hu := unwritten_journal type code pid queue cid slot lseq pc qual aux payload s
  exact {
    poison := (congrArg State.poison hu :)
    owners := (congrArg State.owners hu :)
    cores := (congrArg State.cores hu :)
    residue := journal_keeps (P := ResidueIn s) (fun pa bs _ => residueIn_writeDev pa bs) (fun _ _ => id) _ _ _ _ _ _ _ _ _ _ _
      fun _ => id
    dirty := journal_keeps (P := fun u => dirtyLines u = dirtyLines s) (fun pa bs u => (dirty_writeDev (fun _ _ => rfl) pa bs u).trans)
      (fun _ _ => id) _ _ _ _ _ _ _ _ _ _ _ rfl }

theorem posted_packageFault (cls : Byte) (aux : Word) (s : State) : Posted s (s.packageFault cls aux) := by
  obtain ⟨hp, ho, hc, hr, hd⟩ := posted_journal 0x09 cls none none none 0 (BitVec.allOnes 64) 0 0 aux [] s
  exact ⟨hp, ho, hc, hr, hd⟩

theorem packageFault_pkg (cls : Byte) (aux : Word) (s : State) :
    (s.packageFault cls aux).pkg =
      { s.pkg with jhead := if s.pkg.jEn then s.pkg.jhead + 1 else s.pkg.jhead, fatal := true, quiesced := true } := by
  unfold State.packageFault
  dsimp only
  rw [State.modPkg_pkg, journal_pkg]

/-! ## Errors (R432, R435) -/

/-- UE after one more error. -/
def nextUe (s : State) : BitVec 31 := if s.pkg.ue = BitVec.allOnes 31 then s.pkg.ue else s.pkg.ue + 1

theorem countUe_pkg (s : State) : (countUe s).pkg = { s.pkg with ue := nextUe s } := rfl

/-- The errors and the spares of t, of which s had the same but for UE. -/
structure Counted (s t : State) : Prop where
  ue : t.pkg.ue = nextUe s
  ce : t.pkg.ce = s.pkg.ce
  spares : t.pkg.spares = s.pkg.spares
  spared : t.pkg.spared = s.pkg.spared

theorem counted_errorEntry (code : Byte) (l : Option Launch) (pid : Option Byte) (pa : Nat) (s : State) :
    Counted s (errorEntry code l pid pa (countUe s)) ∧ Posted s (errorEntry code l pid pa (countUe s)) := by
  have hp := posted_journal 0x06 code ((l.map (·.pid)).or pid) (l.bind (·.queue)) (l.bind (·.cid))
    (match l with | some l => l.slot | none => 0) (match l with | some l => l.seq | none => BitVec.allOnes 64) 0 0
    (BitVec.ofNat 64 pa) [] (countUe s)
  refine ⟨?_, hp.of_modPkg⟩
  unfold errorEntry
  constructor <;> rw [journal_pkg, countUe_pkg]

theorem counted_packageFault (cls : Byte) (aux : Word) (s : State) :
    Counted s ((countUe s).packageFault cls aux) ∧ Posted s ((countUe s).packageFault cls aux) := by
  refine ⟨?_, (posted_packageFault cls aux (countUe s)).of_modPkg⟩
  constructor <;> rw [packageFault_pkg, countUe_pkg]

theorem setPoison_frame (l : Nat) (s : State) : s.setPoison l = { s with poison := (s.setPoison l).poison } := by
  unfold State.setPoison
  split <;> rfl

theorem mem_setPoison (l k : Nat) (s : State) : k ∈ (s.setPoison l).poison ↔ k = l ∨ k ∈ s.poison := by
  unfold State.setPoison
  split
  · next h =>
    refine ⟨.inr, ?_⟩
    rintro (rfl | hk)
    · exact List.contains_iff_mem.mp h
    · exact hk
  · exact List.mem_cons

theorem foldl_setPoison_frame (ls : List Nat) :
    ∀ s : State, ls.foldl (fun s l => s.setPoison l) s = { s with poison := (ls.foldl (fun s l => s.setPoison l) s).poison } := by
  induction ls with
  | nil => exact fun _ => rfl
  | cons l ls ih =>
    intro s
    rw [List.foldl_cons, ih (s.setPoison l), setPoison_frame l s]

theorem mem_foldl_setPoison (ls : List Nat) (k : Nat) :
    ∀ s : State, k ∈ (ls.foldl (fun s l => s.setPoison l) s).poison ↔ k ∈ ls ∨ k ∈ s.poison := by
  induction ls with
  | nil => simp
  | cons l ls ih =>
    intro s
    rw [List.foldl_cons, ih, mem_setPoison, List.mem_cons]
    tauto

/-- The line of the address is among those that the error poisons. -/
theorem mem_errorLines (s : State) (pa : Nat) : pa / 128 ∈ errorLines s pa := by
  unfold errorLines
  dsimp only
  split
  · next h =>
    simp only [Bool.and_eq_true, decide_eq_true_eq] at h
    obtain ⟨⟨_, hlo⟩, _⟩ := h
    unfold State.linesIn
    rw [List.mem_map]
    generalize hf : s.journalBase + 64 = first at hlo
    refine ⟨pa / 128 - (first + (pa - first) / 320 * 320) / 128, ?_, ?_⟩
    · rw [List.mem_range]
      omega
    · omega
  · exact List.mem_singleton_self _

/-- What poisoning the lines of an error changes. -/
structure Poisoned (pa : Nat) (s t : State) : Prop where
  counted : Counted s t
  lines : ∀ k, k ∈ t.poison ↔ k ∈ errorLines s pa ∨ k ∈ s.poison
  residue : ResidueIn s t
  dirty : dirtyLines t = dirtyLines s

theorem poisonAs_poisons (code : Byte) (pa : Nat) (s : State) : Poisoned pa s (poisonAs code pa s) := by
  have key (u : State) (h : Counted s u ∧ Posted s u) :
      Poisoned pa s ((errorLines s pa).foldl (fun s l => s.setPoison l) u) := by
    obtain ⟨⟨hue, hce, hsp, hsd⟩, hp⟩ := h
    have hlines (k : Nat) := mem_foldl_setPoison (errorLines s pa) k u
    rw [hp.poison] at hlines
    refine ⟨?_, hlines, ?_, ?_⟩
    · rw [foldl_setPoison_frame]
      exact ⟨hue, hce, hsp, hsd⟩
    · rw [foldl_setPoison_frame]
      exact hp.residue
    · rw [foldl_setPoison_frame]
      exact hp.dirty
  unfold poisonAs
  dsimp only
  split
  · exact key _ (counted_packageFault 6 0 s)
  · exact key _ (counted_errorEntry code none _ pa s)

theorem Poisoned.here {pa : Nat} (h : Poisoned pa s t) : pa / 128 ∈ t.poison := (h.lines _).mpr (.inl (mem_errorLines s pa))

theorem Poisoned.keeps {pa k : Nat} (h : Poisoned pa s t) (hk : k ∈ s.poison) : k ∈ t.poison := (h.lines k).mpr (.inr hk)

theorem poisonLine_poisons (pa : Nat) (s : State) : Poisoned pa s (poisonLine pa s) := poisonAs_poisons _ pa s

/-! ## Spare rows (R437 to R439) -/

/-- What sparing a row changes. -/
structure Spared (row : Nat) (s t : State) : Prop where
  posted : Posted s t
  ue : t.pkg.ue = s.pkg.ue
  ce : t.pkg.ce = s.pkg.ce
  spared : tget 0 s.pkg.spares (row % 65536) < 8 → (row % 65536, row / 65536) ∈ t.pkg.spared

theorem spareRow_spares (row : Nat) (s : State) : Spared row s (spareRow row s) := by
  unfold spareRow
  dsimp only
  split
  · next h => exact ⟨.refl s, rfl, rfl, fun hlt => absurd hlt (by omega)⟩
  · refine ⟨(posted_journal _ _ _ _ _ _ _ _ _ _ _ (s.modPkg _)).of_modPkg, ?_, ?_, fun _ => ?_⟩
    · rw [journal_pkg]
      rfl
    · rw [journal_pkg]
      rfl
    · rw [journal_pkg]
      exact List.mem_append_right _ (List.mem_singleton_self _)

theorem isDevice_iff (pa : Nat) : isDevice pa = true ↔ pa < 2 ^ 40 := decide_eq_true_iff

/-- An error at a row of device memory (R435, R439; log 73). -/
theorem dramError_poisons {pa : Nat} (hpa : pa < 2 ^ 40) (s : State) :
    ∃ t, exec (.uncorrectableStateError (.dram pa)) s = .next t ∧ t.pkg.ue = nextUe s ∧ pa / 128 ∈ t.poison ∧
      (∀ l ∈ s.poison, l ∈ t.poison) ∧
      (tget 0 s.pkg.spares (State.rowOf pa % 65536) < 8 →
        (State.rowOf pa % 65536, State.rowOf pa / 65536) ∈ t.pkg.spared) := by
  have hp := poisonLine_poisons pa s
  have hs := spareRow_spares (State.rowOf pa) (poisonLine pa s)
  refine ⟨_, dueIf_next ((isDevice_iff pa).mpr hpa) _ s, hs.ue.trans hp.counted.ue, ?_, fun l hl => ?_, fun hlt => ?_⟩
  · rw [hs.posted.poison]
    exact hp.here
  · rw [hs.posted.poison]
    exact hp.keeps hl
  · exact hs.spared (hp.counted.spares ▸ hlt)

/-- An error in a dirty line of a stash: the line is lost, and its place is poisoned (R435). -/
theorem stashError_poisons {core : Nat} {d : Dirty} (hd : d ∈ s.dirty) (hc : d.core = core) :
    ∃ t, exec (.uncorrectableStateError (.stashLine core d.pline)) s = .next t ∧ t.pkg.ue = nextUe s ∧
      s.forward (d.pline * 128) / 128 ∈ t.poison ∧ ∀ e ∈ t.dirty, e.pline ≠ d.pline := by
  have hp := poisonAs_poisons 2 (s.forward (d.pline * 128)) (s.clean d.pline)
  have hany : (s.dirty.any fun e => e.core = core && e.pline = d.pline) = true :=
    List.any_eq_true.mpr ⟨d, hd, by simp [hc]⟩
  refine ⟨_, dueIf_next hany _ s, hp.counted.ue, hp.here, fun e he hline => ?_⟩
  have hmem : e.pline ∈ dirtyLines (s.clean d.pline) := hp.dirty ▸ List.mem_map_of_mem he
  obtain ⟨x, hx, hxe⟩ := List.mem_map.mp hmem
  exact absurd (hxe.trans hline) (of_decide_eq_true (List.mem_filter.mp hx).2)

theorem ownerError_frees (frame : Nat) (s : State) :
    ∃ t, exec (.uncorrectableStateError (.owner frame)) s = .next t ∧ t.pkg.ue = nextUe s ∧ t.owner frame = 0 :=
  ⟨_, rfl, (counted_errorEntry 6 none none (frame * 65536) s).1.ue, tget_tset_same 0 _ frame 0⟩

theorem mem_insertNew (k : Nat) (l : List Nat) : k ∈ if l.contains k then l else k :: l := by
  split
  · next h => exact List.contains_iff_mem.mp h
  · exact List.mem_cons_self

theorem accumulatorError_poisons (core slot row col : Nat) (s : State) :
    ∃ t, exec (.uncorrectableStateError (.accumulator core slot row col)) s = .next t ∧ t.pkg.ue = nextUe s ∧
      64 * row + col ∈ ((t.coreAt core).tile slot).poison := by
  refine ⟨_, rfl, (counted_errorEntry 7 none none 0 s).1.ue, ?_⟩
  dsimp only [State.coreAt, State.modCore_cores]
  rw [tget_tset_same, Core.tile, Core.setTile, tget_tset_same]
  exact mem_insertNew _ _

/-- An error at the registers of a hart that runs no launch stops none (R435). -/
theorem hartError_counts {n : Nat} (hl : (s.hartAt n).launch = none) :
    ∃ t, exec (.uncorrectableStateError (.hart n)) s = .next t ∧ t.pkg.ue = nextUe s := by
  refine ⟨errorEntry 4 none none 0 (countUe s), ?_, (counted_errorEntry 4 none none 0 s).1.ue⟩
  show strikeOwners 4 ((s.hartAt n).launch.bind s.launchAt) none ((s.hartAt n).launch.bind s.launchAt).toList s = _
  rw [hl]
  have hheld : ¬ ownersHeld [] s = true := by simp [ownersHeld]
  unfold strikeOwners
  exact congrArg (due s) (if_neg hheld)

/-- A package fault is the end: FATAL, the quiesced state, and the error message (R432). -/
theorem packageFault_dies (cls : Byte) (aux : Word) (s : State) :
    (s.packageFault cls aux).pkg.fatal = true ∧ (s.packageFault cls aux).pkg.quiesced = true ∧
      (s.packageFault cls aux).replies = s.replies ++ [.cxlUncorrectable] :=
  ⟨rfl, rfl, (packageFault_frame cls aux s).2⟩

/-! ## Scrubbing (R434, R438, R439) -/

theorem scrubRow_stopped {bank : Nat} (row : Nat) (lines bad corrected : List Nat) (ho : s.zoneOff (64 + bank / 4096) = true) :
    exec (.scrubRow bank row lines bad corrected) s = .next s := by
  show due s (if (!s.pkg.scrubEn || decide (65536 ≤ bank) || s.zoneOff (64 + bank / 4096) || !bad.all lines.contains
    || !corrected.all lines.contains
    || !lines.all (fun l => isDevice (l * 128) && State.rowOf (l * 128) == bank + 65536 * row)
    || (s.residue.contains (bank + 65536 * row) && decide (corrected ≠ []))) = true then none else _) = _
  rw [if_pos (by simp [ho])]
  rfl

/-- The bad lines of a row that the scrubber visits come to be poisoned. -/
def scrubbed (bad : List Nat) (s : State) : State := bad.foldl (fun s l => poisonLine (l * 128) s) s

theorem scrubbed_poisons (bad : List Nat) : ∀ s : State,
    (scrubbed bad s).pkg.ce = s.pkg.ce ∧ (∀ l ∈ bad, l ∈ (scrubbed bad s).poison) ∧
      ∀ l ∈ s.poison, l ∈ (scrubbed bad s).poison := by
  induction bad with
  | nil => exact fun _ => ⟨rfl, fun _ h => absurd h List.not_mem_nil, fun _ => id⟩
  | cons b bad ih =>
    intro s
    have hp := poisonLine_poisons (b * 128) s
    obtain ⟨hce, hbad, hkeep⟩ := ih (poisonLine (b * 128) s)
    refine ⟨hce.trans hp.counted.ce, fun l hl => ?_, fun l hl => hkeep l (hp.keeps hl)⟩
    rcases List.mem_cons.mp hl with rfl | hl
    · refine hkeep l ?_
      have := hp.here
      rwa [Nat.mul_div_cancel l (by omega)] at this
    · exact hbad l hl

/-- A scrub period changes its own three registers. -/
theorem scrubPeriod_eq (s : State) : ∃ n errs done,
    scrubPeriod s = s.modPkg fun p => { p with scrubNo := n, rowErrs := errs, exhausted := done } := by
  unfold scrubPeriod
  dsimp only
  split
  · exact ⟨s.pkg.scrubNo, s.pkg.rowErrs, s.pkg.exhausted, rfl⟩
  · exact ⟨_, [], [], rfl⟩

/-- Counting n corrected errors of a row changes package registers alone, of which CE saturates. -/
theorem countRow_counts (n row : Nat) (s : State) : ∃ p, (countRow n row s).2 = { s with pkg := p } ∧
    p.ce.toNat = min (s.pkg.ce.toNat + n) (2 ^ 32 - 1) := by
  obtain ⟨k, errs, done, hp⟩ := scrubPeriod_eq (countCe n s)
  unfold countRow
  dsimp only
  rw [hp]
  refine ⟨_, rfl, ?_⟩
  show (BitVec.ofNat 32 (min (s.pkg.ce.toNat + n) (2 ^ 32 - 1))).toNat = _
  rw [BitVec.toNat_ofNat, Nat.mod_eq_of_lt (by omega)]

/-- The scrubber visits a row: its bad lines are poisoned, and it leaves residue mode (R434, R438). -/
theorem scrubRow_visits {bank row : Nat} {lines bad corrected : List Nat} (ho : s.zoneOff (64 + bank / 4096) = false)
    (he : s.pkg.scrubEn = true) (hb : bank < 65536) (hbad : ∀ l ∈ bad, l ∈ lines) (hcor : ∀ l ∈ corrected, l ∈ lines)
    (hrow : ∀ l ∈ lines, l * 128 < 2 ^ 40 ∧ State.rowOf (l * 128) = bank + 65536 * row)
    (hres : bank + 65536 * row ∈ s.residue → corrected = []) :
    ∃ t, exec (.scrubRow bank row lines bad corrected) s = .next t ∧ (∀ l ∈ bad, l ∈ t.poison) ∧
      bank + 65536 * row ∉ t.residue ∧
      t.pkg.ce.toNat = min (s.pkg.ce.toNat + corrected.length) (2 ^ 32 - 1) := by
  let id := bank + 65536 * row
  let u : State := { scrubbed bad s with residue := (scrubbed bad s).residue.filter fun r => r ≠ id }
  let v := (countRow corrected.length id u).2
  have hdue : ¬ (!s.pkg.scrubEn || decide (65536 ≤ bank) || s.zoneOff (64 + bank / 4096) || !bad.all lines.contains
      || !corrected.all lines.contains
      || !lines.all (fun l => isDevice (l * 128) && State.rowOf (l * 128) == bank + 65536 * row)
      || (s.residue.contains (bank + 65536 * row) && decide (corrected ≠ []))) = true := by
    have hb' : ¬ 65536 ≤ bank := by omega
    simpa [ho, he, hb', isDevice_iff] using ⟨⟨⟨hbad, hcor⟩, hrow⟩, hres⟩
  obtain ⟨hce, hpois, _⟩ := scrubbed_poisons bad s
  obtain ⟨p, hv, hcount⟩ : ∃ p, v = { u with pkg := p } ∧ _ := countRow_counts corrected.length id u
  have hvpois : v.poison = (scrubbed bad s).poison := by rw [hv]
  have hvres : id ∉ v.residue := by
    rw [hv]
    exact fun h => of_decide_eq_true (List.mem_filter.mp h).2 rfl
  have hvce : v.pkg.ce.toNat = min (s.pkg.ce.toNat + corrected.length) (2 ^ 32 - 1) := by rw [hv, hcount, ← hce]
  refine ⟨if (countRow corrected.length id u).1 || bad ≠ [] then spareRow id v else v, ?_, ?_⟩
  · show due s (if (!s.pkg.scrubEn || decide (65536 ≤ bank) || s.zoneOff (64 + bank / 4096) || !bad.all lines.contains
      || !corrected.all lines.contains
      || !lines.all (fun l => isDevice (l * 128) && State.rowOf (l * 128) == bank + 65536 * row)
      || (s.residue.contains (bank + 65536 * row) && decide (corrected ≠ []))) = true then none else _) = _
    rw [if_neg hdue]
    rfl
  · split
    · have hs := spareRow_spares id v
      refine ⟨fun l hl => ?_, fun h => hvres (hs.posted.residue id h), ?_⟩
      · rw [hs.posted.poison, hvpois]
        exact hpois l hl
      · rw [hs.ce, hvce]
    · exact ⟨fun l hl => hvpois ▸ hpois l hl, hvres, hvce⟩

theorem sparesExhausted_posts {bank : Nat} (hs : 8 ≤ tget 0 s.pkg.spares bank)
    (hx : bank ∉ (scrubPeriod s).pkg.exhausted) :
    ∃ t, exec (.sparesExhausted bank) s = .next t ∧ t.hart = s.hart ∧
      t.pkg = { (scrubPeriod s).pkg with
        exhausted := bank :: (scrubPeriod s).pkg.exhausted
        jhead := if s.pkg.jEn then s.pkg.jhead + 1 else s.pkg.jhead } := by
  obtain ⟨n, errs, done, hp⟩ := scrubPeriod_eq s
  unfold exec execSparesExhausted
  dsimp only
  rw [hp] at hx ⊢
  let u := s.modPkg fun p => { p with scrubNo := n, rowErrs := errs, exhausted := bank :: done }
  have hdue : ¬ (decide (tget 0 s.pkg.spares bank < 8) || done.contains bank) = true := by
    have hx' : bank ∉ done := hx
    simpa [hx'] using hs
  refine ⟨u.journal 0x08 0 none none none 0 (BitVec.allOnes 64) 0 0 (BitVec.ofNat 64 bank) [], ?_, ?_, ?_⟩
  · exact congrArg (due s) (if_neg hdue)
  · obtain ⟨p, hj⟩ := contexts_journal 0x08 0 none none none 0 (BitVec.allOnes 64) 0 0 (BitVec.ofNat 64 bank) [] u
    exact (congrArg Contexts.hart hj :)
  · rw [journal_pkg]
    rfl

/-! ## The cold reset (R441, R465; log 78) -/

/-- The reset state with what has not arrived still to come, and with the conductance of every channel that is not wet. -/
def sampled (s : State) : State :=
  (notWet s).foldl (fun (r : State) z => r.modZone z fun x => { x with cond := (s.zoneAt z).cond })
    { State.reset with schedule := s.schedule }

theorem notWet_lt {k : Nat} (h : k ∈ notWet s) : k < 80 := List.mem_range.mp (List.mem_filter.mp h).1

theorem mem_notWet {k : Nat} : k ∈ notWet s ↔ k < 80 ∧ (s.zoneAt k).cond ≠ 0 := by
  simp [notWet]

theorem zoneAt_sampled {z : Nat} (hz : z < 80) (s : State) :
    (sampled s).zoneAt z = { State.reset.zoneAt z with cond := (s.zoneAt z).cond } := by
  have hzone := zoneAt_foldl_modZone (fun z x => { x with cond := (s.zoneAt z).cond }) z
    (List.nodup_range.filter fun z => decide ((s.zoneAt z).cond ≠ 0)) (fun _ => notWet_lt (s := s))
    { State.reset with schedule := s.schedule }
  have hreset : (State.reset.zoneAt z).cond = 0 := by
    unfold State.zoneAt
    rw [if_pos hz]
    split <;> rfl
  refine hzone.trans ?_
  split
  · rfl
  · next h =>
    have hwet : (s.zoneAt z).cond = 0 := by
      by_contra hc
      exact h (mem_notWet.mpr ⟨hz, hc⟩)
    rw [hwet, ← hreset]
    rfl

/-- A state without what a bring-up writes: zones, registers, bytes and owners. -/
def unbrought (s : State) : State := { s with zonesC := [], zonesB := [], pkg := Pkg.reset, mem := [], owners := [] }

theorem unbrought_modZone {z : Nat} (hz : z < 80) (f : Zone → Zone) (s : State) : unbrought (s.modZone z f) = unbrought s := by
  unfold State.modZone
  split
  · rfl
  · rfl

theorem unbrought_foldl_modZone (g : Nat → Zone → Zone) {l : List Nat} (hl : ∀ k ∈ l, k < 80) :
    ∀ s : State, unbrought (l.foldl (fun s k => s.modZone k (g k)) s) = unbrought s := by
  induction l with
  | nil => exact fun _ => rfl
  | cons k l ih =>
    exact fun s => (ih (fun j hj => hl j (List.mem_cons_of_mem k hj)) _).trans (unbrought_modZone (hl k List.mem_cons_self) _ s)

theorem sampled_unbrought (s : State) : unbrought (sampled s) = { State.reset with schedule := s.schedule } :=
  unbrought_foldl_modZone (fun z x => { x with cond := (s.zoneAt z).cond }) (fun _ => notWet_lt) _

theorem sampled_pkg (s : State) : (sampled s).pkg = Pkg.reset :=
  foldl_modZone_pkg (fun z x => { x with cond := (s.zoneAt z).cond }) _ _

theorem modZone_owners (z : Nat) (f : Zone → Zone) (s : State) : (s.modZone z f).owners = s.owners := by
  unfold State.modZone
  repeat' split
  all_goals rfl

theorem foldl_modZone_mem (g : Nat → Zone → Zone) (l : List Nat) (s : State) :
    (l.foldl (fun s k => s.modZone k (g k)) s).mem = s.mem ∧
      (l.foldl (fun s k => s.modZone k (g k)) s).owners = s.owners :=
  ⟨foldl_keeps State.mem (fun s k => s.modZone k (g k)) (fun s k => modZone_mem k (g k) s) l s,
    foldl_keeps State.owners (fun s k => s.modZone k (g k)) (fun s k => modZone_owners k (g k) s) l s⟩

/-- Opening the valves changes zones alone. -/
theorem openValves_keeps (s : State) : unbrought (openValves s) = unbrought s ∧ (openValves s).mem = s.mem ∧
    (openValves s).owners = s.owners ∧ (openValves s).pkg = s.pkg := by
  obtain ⟨hm, ho⟩ := foldl_modZone_mem (fun _ x => { x with valve := 255 }) (List.range 80) s
  exact ⟨unbrought_foldl_modZone (fun _ x => { x with valve := 255 }) (fun _ => List.mem_range.mp) s, hm, ho,
    foldl_modZone_pkg (fun _ x => { x with valve := 255 }) _ s⟩

theorem sampled_mem (s : State) : (sampled s).mem = [] ∧ (sampled s).owners = [] :=
  foldl_modZone_mem (fun z x => { x with cond := (s.zoneAt z).cond }) _ _

/-- Tags that are all ones are not listed. -/
theorem setTags_ones (pa n : Nat) {s : State} (h : s.tags = []) : s.setTags pa n (BitVec.allOnes 28) = s := by
  unfold State.setTags
  generalize List.range _ = l
  induction l with
  | nil => rfl
  | cons i l ih =>
    rw [List.foldl_cons]
    refine (congrArg (fun u => List.foldl _ u l) ?_).trans ih
    rw [h, tset, if_pos rfl]
    exact congrArg (fun x => { s with tags := x }) h.symm

/-- The device's write where nothing is tagged, dirty or in residue mode writes its bytes. -/
theorem writeDev_clean (pa : Nat) (bs : List Byte) (ht : s.tags = []) (hr : s.residue = []) (hd : s.dirty = []) :
    s.writeDev pa bs = s.putBytes pa bs := by
  have hhome : s.patchHome pa bs = s := if_pos hd
  have hcode : (s.putBytes pa bs).recode pa bs.length = s.putBytes pa bs := by
    rw [putBytes_frame]
    exact if_pos hr
  unfold State.writeDev State.write
  dsimp only
  rw [hhome, hcode]
  split
  · refine setTags_ones pa bs.length ?_
    rw [putBytes_frame]
    exact ht
  · rfl

/-- The control line that a bring-up writes: no entry yet, and the entries that the area holds (R441). -/
theorem controlLine_bytes : ∀ a < 64,
    (bytesOf 8 (0 : Word) ++ leBytes 8 204 ++ leBytes 48 0).getD a 0 = if a = 8 then 204 else 0 := by decide

/-- Enabling the journal after a reset: the control line at 0, whose frame belongs to the supervisor (R441, R465). -/
theorem enableJournal_writes {r : State} (hm : r.mem = []) (ho : r.owners = []) (ht : r.tags = []) (hr : r.residue = [])
    (hd : r.dirty = []) (hf : r.pkg.fwds = []) (hg : r.pkg.migFwd = false) (hb : r.pkg.jBase = 0) (hz : r.pkg.jSz = 0)
    (hj : r.pkg.jhead = 0) :
    ∃ m, r.enableJournal = { r with mem := m, owners := [(0, 1)], pkg := { r.pkg with jEn := true } } ∧
      ∀ a, tget 0 m a = if a = 8 then 204 else 0 := by
  let u : State := { r with owners := [(0, 1)], pkg := { r.pkg with jEn := true } }
  have hsize : r.journalSize = 204 := by
    unfold State.journalSize
    rw [hz]
    rfl
  have hu : r.enableJournal = u.writeControl := by
    unfold State.enableJournal
    dsimp only
    rw [hsize, hb]
    unfold State.modPkg
    dsimp only
    rw [ho]
    rfl
  have hgu : u.pkg.migFwd = false := hg
  have hfu : u.pkg.fwds = [] := hf
  have hline : u.writeControl = u.putBytes 0 (bytesOf 8 (0 : Word) ++ leBytes 8 204 ++ leBytes 48 0) := by
    have hbase : u.journalBase = 0 := by
      show r.pkg.jBase.toNat * 2 ^ 16 = 0
      rw [hb]
      rfl
    have hs : u.journalSize = 204 := hsize
    have hh : u.pkg.jhead = 0 := hj
    unfold State.writeControl
    rw [hbase, hs, hh]
    exact writeDev_clean _ _ ht hr hd
  refine ⟨_, hu.trans (hline.trans (putBytes_frame _ _ u)), fun a => ?_⟩
  have hbyte := byte_putBytes hgu hfu 0 a (bytesOf 8 (0 : Word) ++ leBytes 8 204 ++ leBytes 48 0)
  have hraw : (u.putBytes 0 (bytesOf 8 (0 : Word) ++ leBytes 8 204 ++ leBytes 48 0)).byte a =
      tget 0 (u.putBytes 0 (bytesOf 8 (0 : Word) ++ leBytes 8 204 ++ leBytes 48 0)).mem a := by
    rw [State.byte, State.forward_congr (State.putBytes_pkg _ _ u), State.forward_of_not_fwd hgu hfu]
    rfl
  rw [← hraw, hbyte]
  have hlen : (bytesOf 8 (0 : Word) ++ leBytes 8 204 ++ leBytes 48 0).length = 64 := rfl
  rw [hlen, Nat.zero_add, Nat.sub_zero]
  by_cases ha : a < 64
  · rw [if_pos ⟨Nat.zero_le a, ha⟩]
    exact controlLine_bytes a ha
  · rw [if_neg fun h => ha h.2, if_neg (by omega), State.byte, State.forward_of_not_fwd hgu hfu, State.rawByte]
    show tget 0 r.mem a = 0
    rw [hm]
    rfl

theorem allWet_eq (s : State) : (notWet s == []) = (List.range 80).all fun z => (s.zoneAt z).cond = 0 := by
  rw [Bool.eq_iff_iff, beq_iff_eq, notWet, List.filter_eq_nil_iff, List.all_eq_true]
  simp

/-- What the bring-up goes on from: its valves are open where it stops at a dry zone, and the image is kept. -/
def broughtDown (image : List Byte) (ok wet : Bool) (shut opened : State) : State :=
  (if ok && !wet then opened else shut).modPkg fun p => { p with
    firmware := image, firmOk := ok, quiesced := !(ok && wet) }

/-- A state of which all but zones and registers is as after a reset, but for what has not arrived. -/
structure Blank (turns : List Turn) (s : State) : Prop where
  rest : unbrought s = { State.reset with schedule := turns }
  mem : s.mem = []
  owners : s.owners = []

theorem blank_broughtDown {turns : List Turn} {shut opened : State} (hs : Blank turns shut) (ho : Blank turns opened)
    (image : List Byte) (ok wet : Bool) : Blank turns (broughtDown image ok wet shut opened) := by
  unfold broughtDown
  split
  · exact ⟨ho.rest, ho.mem, ho.owners⟩
  · exact ⟨hs.rest, hs.mem, hs.owners⟩

theorem broughtDown_pkg {r : Pkg} {shut opened : State} (hs : shut.pkg = r) (ho : opened.pkg = r) (image : List Byte)
    (ok wet : Bool) : (broughtDown image ok wet shut opened).pkg =
      { r with firmware := image, firmOk := ok, quiesced := !(ok && wet) } := by
  unfold broughtDown
  rw [State.modPkg_pkg]
  split
  · rw [ho]
  · rw [hs]

theorem broughtDown_zoneAt (image : List Byte) (ok wet : Bool) (shut opened : State) (z : Nat) :
    (broughtDown image ok wet shut opened).zoneAt z = if ok && !wet then opened.zoneAt z else shut.zoneAt z := by
  unfold broughtDown
  split <;> rfl

theorem blank_sampled (s : State) : Blank s.schedule (sampled s) :=
  ⟨sampled_unbrought s, (sampled_mem s).1, (sampled_mem s).2⟩

theorem blank_openValves {turns : List Turn} (h : Blank turns s) : Blank turns (openValves s) := by
  obtain ⟨hu, hm, ho, _⟩ := openValves_keeps s
  exact ⟨hu.trans h.rest, hm.trans h.mem, ho.trans h.owners⟩

/-- The last step of the bring-up: the journal is enabled, or nothing (R441, R465). -/
def broughtUp (up : Bool) (d : State) : State := if up then d.enableJournal else d

theorem coldReset_next (s : State) :
    let d := broughtDown s.pkg.firmware s.pkg.firmOk (notWet s == []) (sampled s) (openValves (sampled s))
    exec .coldReset s = .next (broughtUp (s.pkg.firmOk && notWet s == []) d) := rfl

theorem broughtUp_pkg {r : Pkg} {d : State} {image : List Byte} {ok up : Bool} (hr : r.jEn = false)
    (hp : d.pkg = { r with firmware := image, firmOk := ok, quiesced := !up }) :
    (broughtUp up d).pkg = { r with firmware := image, firmOk := ok, jEn := up, quiesced := !up } := by
  cases up with
  | false => exact hp.trans (congrArg (fun j => ({ r with firmware := image, firmOk := ok, jEn := j, quiesced := true } : Pkg)) hr)
  | true =>
    show d.enableJournal.pkg = _
    unfold State.enableJournal State.writeControl State.writeDev
    dsimp only
    rw [State.write_pkg, State.patchHome_pkg]
    dsimp only [State.modPkg]
    rw [hp]

/-- Where the registers that the journal reads are as after a reset. -/
theorem broughtUp_eq {turns : List Turn} {d : State} {r : Pkg} (up : Bool) (hd : Blank turns d) (hp : d.pkg = r)
    (hf : r.fwds = []) (hg : r.migFwd = false) (hb : r.jBase = 0) (hz : r.jSz = 0) (hj : r.jhead = 0) :
    unbrought (broughtUp up d) = { State.reset with schedule := turns } ∧
      (∀ a, (broughtUp up d).rawByte a = if up = true ∧ a = 8 then 204 else 0) ∧
      (∀ f, (broughtUp up d).owner f = if up = true ∧ f = 0 then 0x0001 else 0) ∧
      ∀ z, (broughtUp up d).zoneAt z = d.zoneAt z := by
  obtain ⟨hu, hm, ho⟩ := hd
  subst hp
  cases up with
  | false =>
    refine ⟨hu, fun a => ?_, fun f => ?_, fun _ => rfl⟩
    · rw [if_neg fun h => Bool.false_ne_true h.1]
      show tget 0 d.mem a = 0
      rw [hm]
      rfl
    · rw [if_neg fun h => Bool.false_ne_true h.1]
      show tget 0 d.owners f = 0
      rw [ho]
      rfl
  | true =>
    obtain ⟨m, he, hbytes⟩ := enableJournal_writes hm ho (congrArg State.tags hu :) (congrArg State.residue hu :)
      (congrArg State.dirty hu :) hf hg hb hz hj
    rw [show broughtUp true d = d.enableJournal from rfl, he]
    refine ⟨hu, fun a => (hbytes a).trans ?_, fun f => ?_, fun _ => rfl⟩
    · simp only [true_and]
    · show (if 0 = f then (1 : BitVec 16) else 0) = _
      simp only [true_and, eq_comm]

/-- A cold reset keeps the schedule, samples the zones, and brings the package up where it can (R465; log 78). -/
theorem coldReset_resets (s : State) :
    let wet := (List.range 80).all fun z => (s.zoneAt z).cond = 0
    ∃ t, exec .coldReset s = .next t ∧ unbrought t = { State.reset with schedule := s.schedule } ∧
      (∀ a, t.rawByte a = if (s.pkg.firmOk && wet) = true ∧ a = 8 then 204 else 0) ∧
      (∀ f, t.owner f = if (s.pkg.firmOk && wet) = true ∧ f = 0 then 0x0001 else 0) ∧
      (∀ z < 80, t.zoneAt z =
        if s.pkg.firmOk && !wet then { State.reset.zoneAt z with cond := (s.zoneAt z).cond, valve := 255 }
        else { State.reset.zoneAt z with cond := (s.zoneAt z).cond }) ∧
      t.pkg = { Pkg.reset with
        firmware := s.pkg.firmware, firmOk := s.pkg.firmOk, jEn := s.pkg.firmOk && wet, quiesced := !(s.pkg.firmOk && wet) } := by
  have hb := blank_sampled s
  have hp := broughtDown_pkg (sampled_pkg s) ((openValves_keeps (sampled s)).2.2.2.trans (sampled_pkg s))
    s.pkg.firmware s.pkg.firmOk (notWet s == [])
  obtain ⟨hu, hbytes, howner, hzone⟩ := broughtUp_eq (s.pkg.firmOk && notWet s == [])
    (blank_broughtDown hb (blank_openValves hb) _ _ _) hp rfl rfl rfl rfl rfl
  rw [← allWet_eq]
  refine ⟨_, coldReset_next s, hu, hbytes, howner, fun z hz => ?_, broughtUp_pkg rfl hp⟩
  rw [hzone, broughtDown_zoneAt, zoneAt_openValves _ hz, zoneAt_sampled hz]

/-- Settles O60: an error counts in UE and poisons what it struck, and a cold reset brings up what it can. -/
theorem errorsAndReset : Obligations.ErrorsAndReset := by
  intro s counted dies
  have died {cls : Byte} {aux : Word} {u : State} (hr : u.replies = s.replies) :
      (u.packageFault cls aux).pkg.fatal = true ∧ (u.packageFault cls aux).pkg.quiesced = true ∧
        (u.packageFault cls aux).replies = s.replies ++ [.cxlUncorrectable] := hr ▸ packageFault_dies cls aux u
  refine ⟨fun pa hpa => dramError_poisons hpa s, fun core d hd hc => stashError_poisons hd hc,
    fun frame => ownerError_frees frame s, fun core slot row col => accumulatorError_poisons core slot row col s,
    fun n hl => hartError_counts hl, ⟨_, rfl, died rfl⟩, ⟨_, rfl, died rfl⟩, ⟨_, rfl, died rfl⟩,
    fun bank row lines bad corrected ho => scrubRow_stopped row lines bad corrected ho,
    fun bank row lines bad corrected ho he hb hbad hcor hrow hres => scrubRow_visits ho he hb hbad hcor hrow hres,
    fun bank hs hx => sparesExhausted_posts hs hx, fun image complete => rfl, ?_⟩
  obtain ⟨t, ht, hu, hbytes, howner, hzone, hpkg⟩ := coldReset_resets s
  have hup : t.pkg.jEn = (s.pkg.firmOk && (List.range 80).all fun z => (s.zoneAt z).cond = 0) := by rw [hpkg]
  have hwet : ((List.range 80).all fun z => (s.zoneAt z).cond = 0) = true ↔ ∀ z < 80, (s.zoneAt z).cond = 0 := by
    simp only [List.all_eq_true, List.mem_range, decide_eq_true_eq]
  refine ⟨t, ht, ?_, fun a => hup ▸ hbytes a, fun f => hup ▸ howner f, ?_, hpkg⟩
  · exact (congrArg (fun u : State => { u with
      zonesC := t.zonesC, zonesB := t.zonesB, pkg := t.pkg, mem := t.mem, owners := t.owners }) hu :)
  · intro z hz
    rw [hzone z hz]
    refine ⟨fun h => if_neg ?_, fun hw hf => if_pos ?_⟩
    · rcases h with h | h
      · rw [hwet.mpr h, Bool.not_true, Bool.and_false]
        exact Bool.false_ne_true
      · rw [h, Bool.false_and]
        exact Bool.false_ne_true
    · rw [hf, Bool.eq_false_iff.mpr (mt hwet.mp hw)]
      rfl

end Sys2Proof.Proofs
end

section
/-! PROOFS. Accesses of the host, of peers and of the Fjoir port to device memory, and links (R389, R391, R415). -/

namespace Sys2Proof.Proofs

open Sys2Proof.Machine Sys2Proof.Safety

variable {s : State} {pa : Nat} {data : List Byte}

/-! ## Who is admitted (R389) -/

theorem owner_class (o : BitVec 16) : o.extractLsb' 8 8 = 1 ↔ o.toNat / 256 = 1 := by
  rw [← BitVec.toNat_inj, BitVec.extractLsb'_toNat, Nat.shiftRight_eq_div_pow]
  have := o.isLt
  show o.toNat / 256 % 256 = 1 ↔ _
  omega

theorem owner_number (o : BitVec 16) : o.extractLsb' 0 8 = o.setWidth 8 := by
  rw [← BitVec.toNat_inj, BitVec.extractLsb'_toNat, BitVec.toNat_setWidth, Nat.shiftRight_zero]

/-- The owners of all of a range are such that the given agent is admitted. -/
def Admitted (ok : BitVec 16 → Prop) (pa n : Nat) (s : State) : Prop :=
  ∀ k < n, pa + k < 2 ^ 40 ∧ ok (s.owner ((pa + k) / 65536))

theorem externMay_iff (part : Byte → Bool) (kernel : Bool) (pa n : Nat) (s : State) :
    externMay part kernel pa n s = true ↔
      Admitted (fun o => kernel = true ∧ o = 1 ∨ o.toNat / 256 = 1 ∧ part (o.setWidth 8) = true) pa n s := by
  simp only [externMay, Admitted, List.all_eq_true, List.mem_range, Bool.and_eq_true, isDevice_iff, externAdmits,
    Bool.or_eq_true, decide_eq_true_eq, owner_class, owner_number]

/-! ## The access (R389, R425, R436) -/

/-- What of a dirty line says where it is held. -/
def heldAt (d : Dirty) : Nat × Byte × BitVec 12 × Nat × Nat := (d.core, d.pid, d.cid, d.vline, d.pline)

/-- A write from outside: contexts stay, lines stay dirty, and the range reads back the data. -/
structure Wrote (pa : Nat) (data : List Byte) (r : List Reply) (s t : State) : Prop where
  replies : t.replies = s.replies ++ r
  hart : t.hart = s.hart
  others : t.others = s.others
  cur : t.cur = s.cur
  pkg : t.pkg = s.pkg
  dirty : t.dirty.map heldAt = s.dirty.map heldAt
  bytes : s.pkg.migFwd = false → s.pkg.fwds = [] →
    t.bytes pa data.length = data ∧ ∀ a, a < pa ∨ pa + data.length ≤ a → t.byte a = s.byte a

theorem cover_dirty (ws : List (Nat × Nat)) (s : State) : (s.cover ws).dirty = s.dirty := by
  unfold State.cover
  split <;> rfl

theorem byte_externWrite (pa : Nat) (data : List Byte) (s : State) (a : Nat) :
    (externWrite pa data s).byte a = ((s.patchHome pa data).putBytes pa data).byte a := by
  unfold externWrite
  rw [byte_congr (cover_mem _ _) (congrArg Contexts.pkg (contexts_cover _ _))]
  exact State.byte_write _ _ _ _ a

theorem externWrite_writes (pa : Nat) (data : List Byte) (s : State) : Wrote pa data [] s (externWrite pa data s) := by
  have hc : contexts (externWrite pa data s) = contexts s := (contexts_cover _ _).trans (contexts_writeDev _ _ s)
  refine ⟨(congrArg Contexts.replies hc).trans (List.append_nil _).symm, congrArg Contexts.hart hc,
    congrArg Contexts.others hc, congrArg Contexts.cur hc, congrArg Contexts.pkg hc, ?_, fun hm hf => ⟨?_, fun a ha => ?_⟩⟩
  · rw [externWrite, cover_dirty]
    exact dirty_writeDev (fun _ _ => rfl) pa data s
  · have hm' : (s.patchHome pa data).pkg.migFwd = false := by rw [State.patchHome_pkg, hm]
    have hf' : (s.patchHome pa data).pkg.fwds = [] := by rw [State.patchHome_pkg, hf]
    refine Eq.trans (List.map_congr_left fun i _ => byte_externWrite pa data s (pa + i)) ?_
    exact State.bytes_putBytes pa data _ hm' hf'
  · have hm' : (s.patchHome pa data).pkg.migFwd = false := by rw [State.patchHome_pkg, hm]
    have hf' : (s.patchHome pa data).pkg.fwds = [] := by rw [State.patchHome_pkg, hf]
    rw [byte_externWrite, byte_putBytes_outside hm' hf' ha]
    exact byte_congr (State.patchHome_mem _ _ s) (State.patchHome_pkg _ _ s) a

/-- An answer beside a write. -/
theorem Wrote.answered {t : State} (h : Wrote pa data [] s t) (r : Reply) : Wrote pa data [r] s (t.reply r) where
  replies := by rw [State.reply, h.replies, List.append_nil]
  hart := h.hart
  others := h.others
  cur := h.cur
  pkg := h.pkg
  dirty := h.dirty
  bytes := h.bytes

theorem Wrote.parts {r : List Reply} {t : State} (h : Wrote pa data r s t) :
    t.replies = s.replies ++ r ∧ t.hart = s.hart ∧ t.others = s.others ∧ t.cur = s.cur ∧ t.pkg = s.pkg ∧
      t.dirty.map heldAt = s.dirty.map heldAt ∧ (s.pkg.migFwd = false → s.pkg.fwds = [] →
        t.bytes pa data.length = data ∧ ∀ a, a < pa ∨ pa + data.length ≤ a → t.byte a = s.byte a) :=
  ⟨h.replies, h.hart, h.others, h.cur, h.pkg, h.dirty, h.bytes⟩

/-! ## The host and the peers (R389, R391) -/

theorem hostLinkAccess_admitted (hr : s.rangeHeld pa data.length = false)
    (hm : externMay (fun _ => true) true pa data.length s = true) (w : Bool) :
    exec (.hostLinkAccess w pa data) s = .next (if w then externWrite pa data s else externRead pa data.length s) := by
  show execHostLinkAccess w pa data s = _
  unfold execHostLinkAccess
  rw [if_neg (by simp [hm]), if_neg (by simp [hr])]
  rfl

theorem hostLinkAccess_refused (hm : ¬ externMay (fun _ => true) true pa data.length s = true) (w : Bool) :
    exec (.hostLinkAccess w pa data) s = .next (if w then s else s.reply .error) := by
  show execHostLinkAccess w pa data s = _
  unfold execHostLinkAccess
  rw [if_pos (by simpa using hm)]
  rfl

theorem peerAccess_admitted {peer : Nat} (hu : peer ∈ s.pkg.peersUp) (hr : s.rangeHeld pa data.length = false)
    (hm : externMay (bit256 s.pkg.fpeer) false pa data.length s = true) (w : Bool) :
    exec (.peerAccess peer w pa data) s =
      .next (if w then (externWrite pa data s).reply .done else externRead pa data.length s) := by
  show execPeerAccess peer w pa data s = _
  unfold execPeerAccess
  rw [if_neg (by simp [hu]), if_neg (by simp [hm]), if_neg (by simp [hr])]
  rfl

theorem peerAccess_refused {peer : Nat} (hu : peer ∈ s.pkg.peersUp)
    (hm : ¬ externMay (bit256 s.pkg.fpeer) false pa data.length s = true) (w : Bool) :
    exec (.peerAccess peer w pa data) s = .next (s.reply .error) := by
  show execPeerAccess peer w pa data s = _
  unfold execPeerAccess
  rw [if_neg (by simp [hu]), if_pos (by simpa using hm)]
  rfl

theorem peerLoss_drops {peer : Nat} (hu : peer ∈ s.pkg.peersUp) : exec (.peerLoss peer) s =
    .next { s.modPkg fun p => { p with peersUp := p.peersUp.filter (· ≠ peer) } with
      tlb := s.tlb.filter fun e => !(isPeer e.pa && peerOf e.pa == peer) } := by
  show execPeerLoss peer s = _
  unfold execPeerLoss
  rw [if_neg (by simp [hu])]
  rfl

theorem peerLinkUp_adds {peer : Nat} (hp : peer < 576) (hu : peer ∉ s.pkg.peersUp) :
    exec (.peerLinkUp peer) s = .next (s.modPkg fun p => { p with peersUp := p.peersUp ++ [peer] }) := by
  show execPeerLinkUp peer s = _
  unfold execPeerLinkUp
  rw [if_neg (by simpa [hu] using hp)]
  rfl

/-! ## The Fjoir port's words (R415) -/

/-- The bytes of a word are what it was read from. -/
theorem leBytes_leNat : ∀ bs : List Byte, leBytes bs.length (leNat bs) = bs
  | [] => rfl
  | b :: bs => by
    have hb := b.isLt
    have hhead : BitVec.ofNat 8 (b.toNat + 256 * leNat bs) = b := by
      rw [← BitVec.toNat_inj, BitVec.toNat_ofNat]
      omega
    have htail : (b.toNat + 256 * leNat bs) / 256 = leNat bs := by omega
    show BitVec.ofNat 8 (b.toNat + 256 * leNat bs) :: leBytes bs.length ((b.toNat + 256 * leNat bs) / 256) = b :: bs
    rw [hhead, htail, leBytes_leNat bs]

theorem bytesOf_wordOf (h : data.length = 8) : bytesOf 8 (BitVec.ofNat 64 (leNat data)) = data := by
  have hlt := leNat_lt data
  rw [h] at hlt
  unfold bytesOf
  rw [BitVec.toNat_ofNat, Nat.mod_eq_of_lt (by omega)]
  exact h ▸ leBytes_leNat data

theorem fjoirMem_admitted (hp : pa % 8 = 0) (hd : pa < 2 ^ 40)
    (ho : s.owner (pa / 65536) = 1 ∨
      (s.owner (pa / 65536)).toNat / 256 = 1 ∧ bit256 s.pkg.fjpen ((s.owner (pa / 65536)).setWidth 8) = true) :
    fjoirMem pa s = none := by
  have hdev : isDevice pa = true := (isDevice_iff pa).mpr hd
  have hpeer : isPeer pa = false := by
    simp only [isPeer, Bool.and_eq_false_iff, decide_eq_false_iff_not]
    omega
  have hadmits : externAdmits (bit256 s.pkg.fjpen) true (s.owner (pa / 65536)) = true := by
    simp only [externAdmits, Bool.or_eq_true, Bool.and_eq_true, decide_eq_true_eq, owner_class, owner_number, true_and]
    exact ho
  unfold fjoirMem
  rw [if_neg (by simp [hp, inRegion, hdev, hpeer]), if_neg (by simp [hadmits])]

theorem fjoirMem_unaligned (hp : pa % 8 ≠ 0) : fjoirMem pa s = some 11 := by
  unfold fjoirMem
  rw [if_pos (by simp [hp])]

theorem wrmem_writes (hm : fjoirMem pa s = none) (hr : s.rangeHeld pa 8 = false) (tag : Nat) (v : Word) :
    exec (.wrmem tag pa v) s = .next (fjoir tag 0 [] (externWrite pa (bytesOf 8 v) s)) := by
  show execWrmem tag pa v s = _
  unfold execWrmem
  rw [hm]
  exact congrArg (due s) (if_neg (by simp [hr]))

theorem rdmem_reads (hm : fjoirMem pa s = none) (hr : s.rangeHeld pa 8 = false) (tag : Nat) :
    exec (.rdmem tag pa) s = .next (fjoir tag 0 [s.word8 pa] s) := by
  show execRdmem tag pa s = _
  unfold execRdmem
  rw [hm]
  exact congrArg (due s) (if_neg (by simp [hr]))

theorem fjoirWords_unaligned (hp : pa % 8 ≠ 0) (tag : Nat) (v : Word) :
    exec (.rdmem tag pa) s = .next (fjoir tag 11 [] s) ∧ exec (.wrmem tag pa v) s = .next (fjoir tag 11 [] s) := by
  have hm : fjoirMem pa s = some 11 := fjoirMem_unaligned hp
  constructor
  · show execRdmem tag pa s = _
    unfold execRdmem
    rw [hm]
    rfl
  · show execWrmem tag pa v s = _
    unfold execWrmem
    rw [hm]
    rfl

/-- Settles O52: an agent to whom the owners give access reads and writes the bytes, and any other is refused. -/
theorem hostAndPeers : Obligations.HostAndPeers := by
  intro pa data s hr admitted held wrote read host peerOk fjoirOk
  have hhost : admitted host ↔ externMay (fun _ => true) true pa data.length s = true := by
    rw [externMay_iff]
    simp only [true_and, and_true]
    rfl
  have hpeer : admitted peerOk ↔ externMay (bit256 s.pkg.fpeer) false pa data.length s = true := by
    rw [externMay_iff]
    simp only [Bool.false_eq_true, false_and, false_or]
    rfl
  have hwrote := externWrite_writes pa data s
  refine ⟨fun h => ⟨⟨_, hostLinkAccess_admitted hr (hhost.mp h) true, hwrote.parts⟩,
      hostLinkAccess_admitted hr (hhost.mp h) false⟩,
    fun h => ⟨hostLinkAccess_refused (mt hhost.mpr h) true, hostLinkAccess_refused (mt hhost.mpr h) false⟩,
    fun peer hu => ⟨fun h => ⟨⟨_, peerAccess_admitted hu hr (hpeer.mp h) true, (hwrote.answered .done).parts⟩,
        peerAccess_admitted hu hr (hpeer.mp h) false⟩,
      fun h w => peerAccess_refused hu (mt hpeer.mpr h) w, ⟨_, peerLoss_drops hu, rfl, rfl⟩⟩,
    fun peer hp hu => peerLinkUp_adds hp hu, fun hlen hp h tag => ?_, fun hp tag v => fjoirWords_unaligned hp tag v⟩
  obtain ⟨hdev, hown⟩ := h 0 (by omega)
  have hmem : fjoirMem pa s = none := fjoirMem_admitted hp hdev hown
  have hr8 : s.rangeHeld pa 8 = false := hlen ▸ hr
  refine ⟨⟨_, wrmem_writes hmem hr8 tag _, ?_⟩, rdmem_reads hmem hr8 tag⟩
  rw [bytesOf_wordOf hlen]
  exact (hwrote.answered (.fjoir tag 0 [])).parts

end Sys2Proof.Proofs
end

section
/-! PROOFS. The Fjoir port's commands on a hart: the checks in their order, and what each does at a halted one (R415 to R417,
R427). -/

namespace Sys2Proof.Proofs

open Sys2Proof.Machine Sys2Proof.Safety

variable {s : State} {n tag : Nat}

/-! ## The checks (R415) -/

/-- A hart that the port may not reach. -/
theorem onHalted_refused (hm : fjoirMay n s = false) (tag : Nat) (ok : Hart → Bool) (f : State → State) :
    onHalted n tag ok f s = .next (fjoir tag 8 [] s) := by
  unfold onHalted
  rw [hm]
  rfl

/-- The port may reach the slot of a hart. -/
structure Reached (n : Nat) (s : State) : Prop where
  may : fjoirMay n s = true
  slot : n < slotCount

theorem Reached.none (h : Reached n s) (he : (s.hartAt n).run = .empty) (tag : Nat) (ok : Hart → Bool) (f : State → State) :
    onHalted n tag ok f s = .next (fjoir tag 12 [] s) := by
  unfold onHalted
  rw [if_neg (by simp [h.may]), if_pos (by simp [he])]

theorem Reached.context (h : Reached n s) (he : (s.hartAt n).run ≠ .empty) :
    ¬ (decide (slotCount ≤ n) || decide ((s.hartAt n).run = .empty)) = true := by
  have := h.slot
  simp [he]
  omega

/-- A hart whose state is not the one that the command needs. -/
theorem Reached.unready (h : Reached n s) {ok : Hart → Bool} (he : (s.hartAt n).run ≠ .empty)
    (hn : (s.hartAt n).run ≠ .halted ∨ ok (s.hartAt n) = false) (tag : Nat) (f : State → State) :
    onHalted n tag ok f s = .next (fjoir tag 1 [] s) := by
  unfold onHalted
  rw [if_neg (by simp [h.may]), if_neg (h.context he), if_pos (by simpa using hn)]

/-- A halted hart on which the command acts. -/
theorem Reached.acts (h : Reached n s) {ok : Hart → Bool} (he : (s.hartAt n).run = .halted) (hok : ok (s.hartAt n) = true)
    (tag : Nat) (f : State → State) : onHalted n tag ok f s = .next (f s) := by
  have hne : (s.hartAt n).run ≠ .empty := by
    rw [he]
    exact Run.noConfusion
  unfold onHalted
  rw [if_neg (by simp [h.may]), if_neg (h.context hne), if_neg (by simp [he, hok])]

/-- A halted hart obeys a command that needs no more. -/
theorem Reached.obeys (h : Reached n s) (he : (s.hartAt n).run = .halted) (tag : Nat) (f : State → State) :
    onHalted n tag (fun _ => true) f s = .next (f s) := h.acts he (ok := fun _ => true) rfl tag f

theorem exec_resume : exec (.resume n tag) s =
    onHalted n tag (fun _ => true) (fun s => fjoir tag 0 [] (s.atHart n resumeHart)) s := rfl

theorem exec_step : exec (.step n tag) s = onHalted n tag Hart.estep
    (fun s => if zoneStopped (s.focus n) then s else fjoir tag 0 [] (s.atHart n stepHart)) s := rfl

theorem exec_rdreg {idx : Nat} : exec (.rdreg n tag idx) s = onHalted n tag (fun _ => true) (fun s =>
    if idx < 0x1000 then
      if srAssigned (BitVec.ofNat 12 idx) then fjoir tag 0 [readSr (s.focus n) (BitVec.ofNat 12 idx)] s
      else fjoir tag 10 [] s
    else if idx < 0x1040 then fjoir tag 0 [(s.hartAt n).rs (idx - 0x1000)] s
    else fjoir tag 10 [] s) s := rfl

theorem exec_wrreg {idx : Nat} {v : Word} : exec (.wrreg n tag idx v) s = onHalted n tag (fun _ => true) (fun s =>
    if idx < 0x1000 then
      if srAssigned (BitVec.ofNat 12 idx) && !srReadOnly (BitVec.ofNat 12 idx) then
        fjoir tag 0 [] (s.atHart n (writeSr (BitVec.ofNat 12 idx) v))
      else fjoir tag 10 [] s
    else if idx < 0x1040 then fjoir tag 0 [] (s.modHart n (Hart.ws (idx - 0x1000) v))
    else fjoir tag 10 [] s) s := rfl

theorem exec_rstep {w : BitVec 32} : exec (.rstep n tag w) s = onHalted n tag (fun _ => true) (fun s =>
    let r := reverseStep w (s.focus n)
    if r.1 ≠ 6 && r.1 ≠ 2 && reverseHeld (s.focus n) then s else fjoir tag r.1 r.2.1 (r.2.2.focus s.cur)) s := rfl

theorem run_ne_of {r q : Run} {x : Hart} (h : x.run = r) (hn : r ≠ q) : x.run ≠ q := h ▸ hn

theorem unassignedCode_answers {code : BitVec 8} (hc : code.toNat = 0 ∨ 8 < code.toNat) (tag : Nat) (s : State) :
    exec (.fjoirUnassignedCode code tag) s = .next (fjoir tag 9 [] s) := by
  have hn : ¬ (decide (1 ≤ code.toNat) && decide (code.toNat ≤ 8)) = true := by
    simp only [Bool.and_eq_true, decide_eq_true_eq]
    omega
  exact congrArg (due s) (if_neg hn)

/-! ## HALT (R415, R416) -/

theorem fjoirHalt_refused (hm : fjoirMay n s = false) (tag : Nat) :
    exec (.fjoirHalt n tag) s = .next (fjoir tag 8 [] s) := by
  show execFjoirHalt n tag s = _
  unfold execFjoirHalt
  rw [hm]
  rfl

theorem Reached.halt_none (h : Reached n s) (he : (s.hartAt n).run = .empty) (tag : Nat) :
    exec (.fjoirHalt n tag) s = .next (fjoir tag 12 [] s) := by
  show execFjoirHalt n tag s = _
  unfold execFjoirHalt
  rw [if_neg (by simp [h.may]), if_pos (by simp [he])]

/-- A HALT of a running hart asks for it (log 71). -/
theorem Reached.halt_asks (h : Reached n s) (he : (s.hartAt n).run = .running) (tag : Nat) :
    exec (.fjoirHalt n tag) s = .next (fjoir tag 0 [] (s.modHart n fun x => { x with haltReq := true })) := by
  show execFjoirHalt n tag s = _
  unfold execFjoirHalt
  rw [if_neg (by simp [h.may]), if_neg (h.context (run_ne_of he Run.noConfusion)), if_neg (run_ne_of he Run.noConfusion)]

/-! ## RESUME and STEP (R416, R417) -/

/-- RESUME leaves debug halt, where no reverse step has stopped part-way (R416). -/
theorem atHart_resumeHart (hp : (s.hartAt n).lPart = false) :
    s.atHart n resumeHart = s.modHart n fun x => { x.clearTraps with run := .running, hreason := 0 } := by
  have hf : (s.focus n).hart.lPart = false := focus_hart n s ▸ hp
  unfold State.atHart State.modHart State.atHart resumeHart
  rw [hf]
  rfl

/-- A STEP never leaves its hart running (R417). -/
theorem stepHart_stops (u : State) : (stepHart u).hart.run ≠ .running := by
  unfold stepHart
  dsimp only
  split
  · next h => exact run_ne_of h Run.noConfusion
  · split
    · next h => exact run_ne_of h Run.noConfusion
    · exact Run.noConfusion

/-! ## Registers (R414, R415) -/

theorem Reached.rdreg_special (h : Reached n s) (he : (s.hartAt n).run = .halted) (tag : Nat) {idx : BitVec 12}
    (ha : srAssigned idx = true) :
    exec (.rdreg n tag idx.toNat) s = .next (fjoir tag 0 [readSr (s.focus n) idx] s) := by
  have hlt : idx.toNat < 0x1000 := idx.isLt
  rw [exec_rdreg, h.obeys he]
  refine congrArg Host.Outcome.next ?_
  rw [if_pos hlt, BitVec.ofNat_toNat, BitVec.setWidth_eq, if_pos ha]

theorem Reached.wrreg_special (h : Reached n s) (he : (s.hartAt n).run = .halted) (tag : Nat) {idx : BitVec 12}
    (ha : srAssigned idx = true) (hw : srReadOnly idx = false) (v : Word) :
    exec (.wrreg n tag idx.toNat v) s = .next (fjoir tag 0 [] (s.atHart n (writeSr idx v))) := by
  have hlt : idx.toNat < 0x1000 := idx.isLt
  rw [exec_wrreg, h.obeys he]
  refine congrArg Host.Outcome.next ?_
  rw [if_pos hlt, BitVec.ofNat_toNat, BitVec.setWidth_eq, if_pos (by simp [ha, hw])]

theorem Reached.rdreg_scalar (h : Reached n s) (he : (s.hartAt n).run = .halted) (tag : Nat) {k : Nat} (hk : k < 64) :
    exec (.rdreg n tag (0x1000 + k)) s = .next (fjoir tag 0 [(s.hartAt n).rs k] s) := by
  rw [exec_rdreg, h.obeys he]
  refine congrArg Host.Outcome.next ?_
  rw [if_neg (by omega), if_pos (by omega), Nat.add_sub_cancel_left]

theorem Reached.wrreg_scalar (h : Reached n s) (he : (s.hartAt n).run = .halted) (tag : Nat) {k : Nat} (hk : k < 64) (v : Word) :
    exec (.wrreg n tag (0x1000 + k) v) s = .next (fjoir tag 0 [] (s.modHart n (Hart.ws k v))) := by
  rw [exec_wrreg, h.obeys he]
  refine congrArg Host.Outcome.next ?_
  rw [if_neg (by omega), if_pos (by omega), Nat.add_sub_cancel_left]

theorem ltlWrite_moves (n : Nat) (v : Word) (s : State) : exec (.ltlWrite n v) s =
    .next (s.modHart n fun x => if v < x.ltl ∨ x.lhd < v then x else { x with ltl := v }) := by
  have hw : writeHart 0x213 v = State.onH fun x => if v < x.ltl ∨ x.lhd < v then x else { x with ltl := v } := by
    funext s
    show State.onH (fun x => if decide (v < x.ltl) || decide (x.lhd < v) then x else { x with ltl := v }) s = _
    simp only [Bool.or_eq_true, decide_eq_true_eq]
  exact congrArg (fun f => Host.Outcome.next (s.atHart n f)) hw

/-! ## RSTEP (R427) -/

/-- Without a snapshot of the window there is nothing to step back to (R427). -/
theorem reverseStep_absent {w : BitVec 32} (hm : ∀ m ∈ s.hart.lMarks, m.win ≠ w) (hr : s.hart.mark.state = .none) :
    reverseStep w s = (2, [], s) := by
  have hrun : ¬ (s.hart.mark.state == .replaying && s.hart.mark.replay == .running) = true := by
    rw [hr]
    exact Bool.false_ne_true
  have hfind : (s.hart.lMarks.reverse.find? fun m =>
      m.win = w && m.size = 10 && decide (s.hart.ltl ≤ m.slot) && decide (m.slot < s.hart.lhd)) = none := by
    rw [List.find?_eq_none]
    intro m hmem
    simp [hm m (List.mem_reverse.mp hmem)]
  unfold reverseStep
  dsimp only
  rw [if_neg hrun, hfind]

theorem Reached.rstep_answers (h : Reached n s) (he : (s.hartAt n).run = .halted) (tag : Nat) (w : BitVec 32)
    (hh : reverseHeld (s.focus n) = false) :
    exec (.rstep n tag w) s = .next (fjoir tag (reverseStep w (s.focus n)).1 (reverseStep w (s.focus n)).2.1
      ((reverseStep w (s.focus n)).2.2.focus s.cur)) := by
  rw [exec_rstep, h.obeys he]
  exact congrArg Host.Outcome.next (if_neg (by simp [hh]))

/-- Settles O53: the checks answer in their order, and a halted hart is acted on. -/
theorem debugPort : Obligations.DebugPort := by
  intro n tag s x answer
  refine ⟨fun code hc => unassignedCode_answers hc tag s, fun hm => ?_, fun hm hslot => ?_, stepHart_stops,
    fun v => ltlWrite_moves n v s, rfl⟩
  · rw [exec_resume, exec_step, onHalted_refused hm, onHalted_refused hm]
    exact ⟨fjoirHalt_refused hm tag, rfl, rfl, fun w => exec_rstep.trans (onHalted_refused hm ..)⟩
  have hr : Reached n s := ⟨hm, hslot⟩
  refine ⟨fun he => ?_, fun he => ?_, fun he => ?_, fun he => hr.halt_asks he tag, fun he => ?_⟩
  · rw [exec_resume, exec_step, hr.none he, hr.none he]
    exact ⟨hr.halt_none he tag, rfl, rfl, fun w => exec_rstep.trans (hr.none he ..)⟩
  · have hne := run_ne_of he (q := .empty) Run.noConfusion
    have hnh := run_ne_of he (q := .halted) Run.noConfusion
    exact ⟨exec_resume.trans (hr.unready hne (.inl hnh) ..), fun w => exec_rstep.trans (hr.unready hne (.inl hnh) ..)⟩
  · rw [exec_step]
    rcases he with he | ⟨he, hs⟩
    · exact hr.unready (run_ne_of he Run.noConfusion) (.inl (run_ne_of he Run.noConfusion)) tag _
    · exact hr.unready (run_ne_of he Run.noConfusion) (.inr hs) tag _
  · refine ⟨fun hp => ?_, fun hs hz => ?_, fun hs hz => ?_,
      fun idx ha => ⟨hr.rdreg_special he tag ha, fun hw v => hr.wrreg_special he tag ha hw v⟩,
      fun k hk => ⟨hr.rdreg_scalar he tag hk, fun v => hr.wrreg_scalar he tag hk v⟩, fun w hh => ?_⟩
    · rw [exec_resume, hr.obeys he, atHart_resumeHart hp]
      rfl
    · rw [exec_step, hr.acts he hs, if_neg (by simp [hz])]
      rfl
    · rw [exec_step, hr.acts he hs, if_pos hz]
    · refine ⟨_, hr.rstep_answers he tag w hh, fun hm hn => ?_⟩
      rw [reverseStep_absent (by rwa [focus_hart]) (by rwa [focus_hart])]
      exact ⟨rfl, rfl⟩

end Sys2Proof.Proofs
end

section
/-! PROOFS. Launches that a hart makes, the leases and the flow they take, and instruction purges (R374, R379, R461). -/

namespace Sys2Proof.Proofs

open Sys2Proof.Machine Sys2Proof.Safety

variable {s t : State}

/-! ## Leases and flow (R370, R386, R461) -/

/-- What a launch has been given so far: none of it says which launch it is. -/
def Launch.bare (l : Launch) : Launch := { l with st := .parsed, leases := [], units := none }

/-- Launch l, in Leasing or Ready, is among the launches, and of the package its grants alone may differ from those given. -/
structure Leasing (l : Launch) (h : Hart) (seq : Word) (ids : List (BitVec 12)) (t : State) : Prop where
  hart : t.hart = h
  seqCount : t.pkg.seqCount = seq
  cids : t.pkg.cids = ids
  launch : ∃ m ∈ t.launches, Launch.bare m = Launch.bare l ∧ (m.st = .leasing ∨ m.st = .ready)

variable {l : Launch} {h : Hart} {seq : Word} {ids : List (BitVec 12)}

theorem leasing_reachGrant (hl : Leasing l h seq ids s) (ht : reachGrant l s = some t) : Leasing l h seq ids t := by
  unfold reachGrant at ht
  dsimp only at ht
  split at ht
  · cases ht
  · obtain rfl := Option.some.inj ht
    obtain ⟨m, hm, hb, hst⟩ := hl.launch
    refine ⟨hl.hart, hl.seqCount, hl.cids, if m.seq = l.seq then { m with leases := pinnedPages l } else m, ?_, ?_⟩
    · exact List.mem_map_of_mem hm
    · split <;> exact ⟨hb, hst⟩

theorem leasing_grantFlow {m : Launch} (hl : Leasing l h seq ids s) (hm : Launch.bare m = Launch.bare l)
    (ht : grantFlow m s = some t) : Leasing l h seq ids t := by
  unfold grantFlow at ht
  dsimp only at ht
  split at ht
  · cases ht
  · obtain rfl := Option.some.inj ht
    exact ⟨hl.hart, hl.seqCount, hl.cids, _, List.mem_append_right _ (List.mem_singleton_self _), hm, .inr rfl⟩

/-- Reaching the grant of flow changes of each launch what it has been given alone. -/
theorem reachGrant_launchAt {m : Launch} (ha : s.launchAt l.seq = some l) (ht : reachGrant l s = some t)
    (hm : t.launchAt l.seq = some m) : Launch.bare m = Launch.bare l := by
  unfold reachGrant at ht
  dsimp only at ht
  split at ht
  · cases ht
  · obtain rfl := Option.some.inj ht
    have hfind : (s.launches.map fun x => if x.seq = l.seq then { x with leases := pinnedPages l } else x).find?
        (fun x => x.seq = l.seq) = (s.launches.find? fun x => x.seq = l.seq).map fun x =>
          if x.seq = l.seq then { x with leases := pinnedPages l } else x := by
      rw [List.find?_map]
      congr 2
      funext x
      dsimp only [Function.comp]
      split <;> rfl
    have hmap : some m = (some l).map fun x : Launch => if x.seq = l.seq then { x with leases := pinnedPages l } else x :=
      hm.symm.trans (hfind.trans (congrArg _ ha))
    rw [Option.map_some, if_pos rfl] at hmap
    obtain rfl := Option.some.inj hmap
    rfl

theorem leasing_lease (hl : Leasing l h seq ids s) (ha : s.launchAt l.seq = some l) (ht : lease l s = some t) :
    Leasing l h seq ids t := by
  unfold lease at ht
  split at ht
  · cases ht
  · next u hu =>
    obtain ⟨m, hm, hg⟩ := Option.bind_eq_some_iff.mp ht
    exact leasing_grantFlow (leasing_reachGrant hl hu) (reachGrant_launchAt ha hu hm) hg

/-- A launch goes as far as it can. -/
theorem leasing_given (hl : Leasing l h seq ids s) (ha : s.launchAt l.seq = some l) :
    Leasing l h seq ids ((lease l s).getD ((reachGrant l s).getD s)) := by
  cases hlease : lease l s with
  | some t => exact leasing_lease hl ha hlease
  | none =>
    cases hreach : reachGrant l s with
    | some t => exact leasing_reachGrant hl hreach
    | none => exact hl

/-! ## lnch (R374) -/

theorem contexts_load {va : Word} {n : Nat} {vec al : Bool} {bs : List Byte} (hl : s.load va n vec al = .ok (bs, t)) :
    contexts t = contexts s := by
  unfold State.load at hl
  split at hl
  · cases hl
  · obtain rfl : _ = t := congrArg Prod.snd (Except.ok.inj hl)
    exact contexts_loadAt _ _ s

theorem contexts_loadBytes (as : List Word) : ∀ {s t : State} {bs : List Byte}, loadBytes as s = .ok (bs, t) →
    contexts t = contexts s := by
  induction as with
  | nil =>
    intro s t bs hl
    obtain rfl : _ = t := congrArg Prod.snd (Except.ok.inj hl)
    rfl
  | cons a as ih =>
    intro s t bs hl
    unfold loadBytes at hl
    split at hl
    · cases hl
    next hload =>
      split at hl
      · cases hl
      next hrest =>
        obtain rfl : _ = t := congrArg Prod.snd (Except.ok.inj hl)
        exact (ih hrest).trans (contexts_load hload)

/-- The launch that lnch makes of a packet, with the identifier freed least recently (R371, R374). -/
def nested (p : List Byte) (id : BitVec 12) (s : State) : Launch :=
  { launchOf p (s.pkg.seqCount + 1) s.hart.pid none 0 (max (pf p 30 1) (s.prioOf s.hart.launch)) with
    st := .leasing, cid := some id }

/-- The launch stands behind the others, and its journal entry is posted (R374, R441). -/
def nestedIn (p : List Byte) (id : BitVec 12) (ids : List (BitVec 12)) (s t : State) : State :=
  (({ t with launches := t.launches ++ [nested p id s] } : State).modPkg fun k =>
    { k with seqCount := s.pkg.seqCount + 1, cids := ids }).journal 0x01 1 (some s.hart.pid) none (some id) 0
      (s.pkg.seqCount + 1) (nested p id s).entry (launchQual (s.pkg.seqCount + 1)) (BitVec.ofNat 64 (pf p 4 4)) p

theorem nestedIn_launches {p : List Byte} {id : BitVec 12} (ht : contexts t = contexts s) :
    (nestedIn p id ids s t).launches = s.launches ++ [nested p id s] := by
  obtain ⟨k, hj⟩ := contexts_journal 0x01 1 (some s.hart.pid) none (some id) 0
    (s.pkg.seqCount + 1) (nested p id s).entry (launchQual (s.pkg.seqCount + 1)) (BitVec.ofNat 64 (pf p 4 4)) p
    (({ t with launches := t.launches ++ [nested p id s] } : State).modPkg fun k =>
      { k with seqCount := s.pkg.seqCount + 1, cids := ids })
  refine (congrArg Contexts.launches hj).trans ?_
  exact congrArg (· ++ [nested p id s]) (congrArg Contexts.launches ht)

theorem leasing_nestedIn {p : List Byte} {id : BitVec 12} (ht : contexts t = contexts s) :
    Leasing (nested p id s) s.hart (s.pkg.seqCount + 1) ids (nestedIn p id ids s t) := by
  refine ⟨?_, ?_, ?_, nested p id s, ?_, rfl, .inl rfl⟩
  · obtain ⟨k, hj⟩ := contexts_journal 0x01 1 (some s.hart.pid) none (some id) 0
      (s.pkg.seqCount + 1) (nested p id s).entry (launchQual (s.pkg.seqCount + 1)) (BitVec.ofNat 64 (pf p 4 4)) p
      (({ t with launches := t.launches ++ [nested p id s] } : State).modPkg fun k =>
        { k with seqCount := s.pkg.seqCount + 1, cids := ids })
    exact (congrArg Contexts.hart hj).trans (congrArg Contexts.hart ht)
  · rw [nestedIn, journal_pkg]
    rfl
  · rw [nestedIn, journal_pkg]
    rfl
  · rw [nestedIn_launches ht]
    exact List.mem_append_right _ (List.mem_singleton_self _)

/-- A sequence number that no launch has yet names the new launch. -/
theorem nestedIn_launchAt {p : List Byte} {id : BitVec 12} (ht : contexts t = contexts s)
    (hfresh : ∀ l ∈ s.launches, l.seq ≠ s.pkg.seqCount + 1) :
    (nestedIn p id ids s t).launchAt (nested p id s).seq = some (nested p id s) := by
  have hnone : (s.launches.find? fun l => l.seq = (nested p id s).seq) = none := by
    rw [List.find?_eq_none]
    exact fun l hl heq => hfresh l hl (of_decide_eq_true heq)
  rw [State.launchAt, nestedIn_launches ht, List.find?_append, hnone, Option.none_or, List.find?_cons_of_pos (by simp)]

/-- A result given to its destination leaves the program counter and the waiting instruction alone. -/
theorem putS_kept {o : Operand} {v : Word} {g g' : Hart} (hp : putS o v g = some g') :
    g' = { g' with pc := g.pc, waiting := g.waiting } := by
  cases o with
  | s n m =>
    obtain rfl := Option.some.inj hp
    rw [Hart.ws_eq]
  | q n =>
    simp only [putS] at hp
    split at hp
    · cases hp
    · exact Option.some.inj hp ▸ rfl
  | pm n =>
    obtain rfl := Option.some.inj hp
    unfold Hart.wp
    split <;> rfl
  | _ => exact Option.some.inj hp ▸ rfl

/-- lnch creates the launch that its packet describes, and delivers its sequence number (R374). -/
theorem lnch_launches {c : Ctl} (hg : s.hart.guard c = true) (he : s.hart.episode = none) {d : Operand} {a : BitVec 6}
    {p : List Byte} {id : BitVec 12} (hq : s.hart.vcq = []) (hd : s.hart.dAct = false)
    (ha : (s.hart.rs a.toNat).toNat % 64 = 0)
    (hp : loadBytes ((List.range 256).map fun k => s.hart.rs a.toNat + BitVec.ofNat 64 k) s = .ok (p, t))
    (h1 : pf p 0 1 = 1) (hb : packetBad p = none)
    (hr : strayRange (match s.myLaunch with | some l => l.ranges | none => []) (packetRanges p) = none)
    (hc : s.pkg.cids = id :: ids) (hfresh : ∀ l ∈ s.launches, l.seq ≠ s.pkg.seqCount + 1)
    (hn : (s.launches.filter fun l => l.pid == s.hart.pid && l.queue.isNone).length < 64) (hj : s.journalHeld = false)
    (hroom : Room d s.hart) :
    ∃ g u, putS d (s.pkg.seqCount + 1) s.hart = some g ∧
      Leasing (nested p id s) s.hart (s.pkg.seqCount + 1) ids u ∧ exec (.lnch c d a) s = .next (completed u g) := by
  have ht : contexts t = contexts s := contexts_loadBytes _ hp
  have hl := leasing_given (leasing_nestedIn (p := p) (id := id) (ids := ids) ht) (nestedIn_launchAt ht hfresh)
  obtain ⟨g, hput⟩ := putS_room hroom (s.pkg.seqCount + 1)
  refine ⟨g, _, hput, hl, ?_⟩
  have hdone : ¬ (!accessesDone s || s.journalHeld) = true := by simp [accessesDone, he, hq, hj]
  have halign : ¬ (canonical (s.hart.rs a.toNat) && decide ((s.hart.rs a.toNat).toNat % 64 ≠ 0)) = true := by simp [ha]
  show execLnch c d a s = _
  unfold execLnch
  rw [guarded_unlessDoff hg hd]
  refine congrArg Host.Outcome.next ?_
  rw [if_neg hdone, if_neg halign, hp]
  dsimp only
  rw [if_pos h1, hb]
  dsimp only
  split
  · next hr' => exact absurd (hr.symm.trans hr') (Option.some_ne_none _).symm
  · next hc' => exact absurd (hc.symm.trans hc') (List.cons_ne_nil _ _)
  · next hc' =>
    obtain ⟨rfl, rfl⟩ := List.cons.inj (hc.symm.trans hc')
    rw [if_neg (by omega)]
    exact deliver_completes _ s ((congrArg (putS d (s.pkg.seqCount + 1)) hl.hart).trans hput)

/-! ## ipurge (R378, R379) -/

section
variable (s : State) (qs : List (Nat × List Word))

/-- The state with other scalar queues at its hart. -/
def withQueues : State := { s with hart := { s.hart with qs := qs } }

theorem walkFrom_withQueues (pid : Byte) (va : Word) (n : Nat) :
    ∀ table, (withQueues s qs).walkFrom pid va n table = s.walkFrom pid va n table := by
  induction n with
  | zero => exact fun _ => rfl
  | succ n ih =>
    intro table
    rw [State.walkFrom, State.walkFrom]
    simp only [ih]
    rfl

theorem lookup_withQueues (cache : Option Cache) (pid : Byte) (va : Word) :
    (withQueues s qs).lookup cache pid va = s.lookup cache pid va := by
  unfold State.lookup
  rw [walkFrom_withQueues]
  rfl

theorem window_withQueues (g : Agent) (va : Word) : (withQueues s qs).window g va = s.window g va := by
  have hmaps : (withQueues s qs).mapsOf g.cid = s.mapsOf g.cid := by
    unfold State.mapsOf
    congr 1
    refine List.flatMap_congr fun n _ => ?_
    by_cases hn : n = s.cur
    · rw [State.hartAt, if_pos (show n = (withQueues s qs).cur from hn), State.hartAt, if_pos hn]
      rfl
    · rw [State.hartAt, if_neg (show ¬ n = (withQueues s qs).cur from hn), State.hartAt, if_neg hn]
      rfl
  unfold State.window
  rw [hmaps]
  rfl

theorem walksOf_withQueues (g : Agent) (va : Word) (n : Nat) : (withQueues s qs).walksOf g va n = s.walksOf g va n := by
  unfold State.walksOf
  simp only [window_withQueues, lookup_withQueues]

end

/-- What a purge leaves of the instruction caches. -/
structure Purged (g : Agent) (va : Word) (n : Nat) (s : State) (words : List CachedWord) : Prop where
  kept : ∀ w ∈ words, w ∈ s.icache
  all : n = 0 → words = s.icache
  dropped : ∀ x ∈ s.walksOf g va n, ∀ e, x.2 = .leaf e → ∀ w ∈ words,
    w.pa / 65536 ≠ (e.pa + (x.1.toNat % 2 ^ 57 - e.va)) / 65536

/-- A purge drops words of the instruction caches, and does nothing else (R379). -/
theorem purge_purges (g : Agent) (va : Word) (n : Nat) (s : State) :
    ∃ words, s.purge g va n = { s with icache := words } ∧ Purged g va n s words := by
  unfold State.purge
  split
  · next hnil => exact ⟨s.icache, rfl, fun _ => id, fun _ => rfl, fun _ _ _ _ w hw => absurd (hnil ▸ hw) List.not_mem_nil⟩
  · next hne =>
    dsimp only [State.dropWords]
    rw [if_neg hne]
    refine ⟨_, rfl, fun w hw => List.mem_of_mem_filter hw, fun hn => ?_, fun x hx e he w hw hpa => ?_⟩
    · have hnone : s.walksOf g va n = [] := by
        unfold State.walksOf
        rw [hn, blocks_zero]
        rfl
      rw [hnone, List.filterMap_nil]
      exact List.filter_eq_self.mpr fun _ _ => rfl
    · have hkeep := (List.mem_filter.mp hw).2
      refine absurd hkeep ?_
      rw [Bool.not_eq_true', Bool.not_eq_false, List.contains_iff_mem, List.mem_filterMap]
      exact ⟨x, hx, by rw [he, hpa]⟩

theorem mem_walksOf {g : Agent} {va m : Word} {n core : Nat} {p : Word × Nat} (hp : p ∈ blocks (n / 4096 + 2) va n)
    (hw : s.window g p.1 = some (m, core)) : (m, (s.lookup g.cache g.pid m).1) ∈ s.walksOf g va n :=
  List.mem_filterMap.mpr ⟨p, hp, by rw [hw]; rfl⟩

theorem ipurge_waits {c : Ctl} (hg : s.hart.guard c = true) (a : BitVec 6) (b : Operand)
    (hw : ∃ e ∈ s.hart.vcq, writesMem e.instr = true) : exec (.ipurge c a b) s = .next (s.await (.ipurge c a b)) := by
  have hany : (s.hart.vcq.any fun e => writesMem e.instr) = true := List.any_eq_true.mpr hw
  show execIpurge c a b s = _
  unfold execIpurge
  rw [guarded_on _ hg]
  exact congrArg Host.Outcome.next (if_pos (by simp [writesDone, hany]))

theorem ipurge_purges {c : Ctl} (hg : s.hart.guard c = true) (he : s.hart.episode = none) {a : BitVec 6} {b : Operand} {x : Word}
    (hb : takeS b s.hart = some (x, h)) (hw : ∀ e ∈ s.hart.vcq, writesMem e.instr = false)
    (hh : s.purgeHeld s.agent (s.hart.rs a.toNat) (min x.toNat (2 ^ 32)) = false) :
    ∃ words, exec (.ipurge c a b) s = .next { completed s h with icache := words } ∧
      Purged s.agent (s.hart.rs a.toNat) (min x.toNat (2 ^ 32)) s words := by
  obtain ⟨qs, rfl⟩ := takeS_frame hb
  obtain ⟨words, hpurge, hp⟩ := purge_purges s.agent (s.hart.rs a.toNat) (min x.toNat (2 ^ 32)) (withQueues s qs)
  refine ⟨words, ?_, hp.kept, hp.all, fun y hy => hp.dropped y (by rwa [walksOf_withQueues])⟩
  have hdone : ¬ (!writesDone s) = true := by simpa [writesDone, he] using hw
  show execIpurge c a b s = _
  unfold execIpurge
  rw [guarded_on _ hg]
  refine congrArg Host.Outcome.next ?_
  rw [if_neg hdone, withSource_of _ _ hb]
  refine (if_neg (ne_true_of_eq_false hh)).trans ?_
  exact (congrArg State.advance hpurge).trans rfl

/-- Settles O50: lnch leaves the launch of its packet, and ipurge what no page of its range maps. -/
theorem nestedLaunches : Obligations.NestedLaunches := by
  intro c s hg he
  refine ⟨fun d a p t id ids hq hd ha hp h1 hb hr hc hfresh hn hj hroom => ?_, fun a b x h hb => ⟨ipurge_waits hg a b, ?_⟩⟩
  · obtain ⟨g, u, hput, hl, hexec⟩ := lnch_launches hg he hq hd ha hp h1 hb hr hc hfresh hn hj hroom
    obtain ⟨m, hm, hbare, hst⟩ := hl.launch
    have hframe := putS_kept hput
    have field {β : Type} (f : Launch → β) (hf : ∀ l, f (Launch.bare l) = f l) : f m = f (nested p id s) :=
      (hf m).symm.trans ((congrArg f hbare).trans (hf _))
    refine ⟨_, m, hexec, ?_, ?_, hl.seqCount, hl.cids, hm, field (·.seq) fun _ => rfl, field (·.cid) fun _ => rfl,
      field (·.pid) fun _ => rfl, field (·.queue) fun _ => rfl, field (·.entry) fun _ => rfl, field (·.param) fun _ => rfl,
      field (·.harts) fun _ => rfl, field (·.pri) fun _ => rfl, hst⟩
    · rw [hput]
      exact congrArg some hframe
    · rw [hframe]
      rfl
  · intro hw hh
    obtain ⟨words, hexec, hp⟩ := ipurge_purges hg he hb hw hh
    exact ⟨words, hexec, hp.kept, hp.all, fun p hp' m core e hwin hlook => hp.dropped _ (mem_walksOf hp' hwin) e hlook⟩

end Sys2Proof.Proofs
end

section
/-! PROOFS. Queues: the turn of a queue, the parse of its packet, and the retirement of packets (R362 to R368, R378). -/

namespace Sys2Proof.Proofs

open Sys2Proof.Machine Sys2Proof.Safety

variable {s u t : State} {q : Nat} {p : Packet}

/-! ## The state of a queue -/

theorem queueAt_modQueue (q : Nat) (f : Queue → Queue) (s : State) : queueAt (modQueue q f s) q = f (queueAt s q) :=
  tget_tset_same Queue.reset s.queues q _

theorem queueAt_journal (q : Nat) (type code : Byte) (pid : Option Byte) (queue : Option Nat) (cid : Option (BitVec 12))
    (slot lseq pc qual aux : Word) (payload : List Byte) (s : State) :
    queueAt (s.journal type code pid queue cid slot lseq pc qual aux payload) q = queueAt s q :=
  (congrArg (fun u : State => queueAt u q) (unwritten_journal type code pid queue cid slot lseq pc qual aux payload s) :)

theorem writeDev_pkg (pa : Nat) (bs : List Byte) (s : State) : (s.writeDev pa bs).pkg = s.pkg :=
  congrArg Contexts.pkg (contexts_writeDev pa bs s)

theorem queueBase_writeDev (pa : Nat) (bs : List Byte) (s : State) (q : Nat) :
    queueBase (s.writeDev pa bs) q = queueBase s q :=
  congrArg (fun k : Pkg => k.qtBase.toNat * 4096 + 256 * q) (writeDev_pkg pa bs s)

theorem bytes_writeDev (hs : Settled s) (pa : Nat) (bs : List Byte) : (s.writeDev pa bs).bytes pa bs.length = bs := by
  refine List.ext_getElem (by simp [State.bytes]) fun i h1 h2 => ?_
  simp only [State.bytes, List.getElem_map, List.getElem_range]
  rw [byte_writeDev hs, if_pos (by omega), Nat.add_sub_cancel_left, List.getD_eq_getElem _ _ h2]

theorem bytes_writeDev_outside (hs : Settled s) {pa a n : Nat} {bs : List Byte} (ho : a + n ≤ pa ∨ pa + bs.length ≤ a) :
    (s.writeDev pa bs).bytes a n = s.bytes a n := by
  refine List.map_congr_left fun i hi => ?_
  have := List.mem_range.mp hi
  rw [byte_writeDev hs, if_neg (by omega)]

/-! ## Retirement (R363, R444) -/

/-- The packet of a queue has retired: HEAD has moved past it, and the watchdog starts anew. -/
structure Retired (q : Nat) (p : Packet) (u t : State) : Prop where
  eq : t = retire q p u
  packet : (queueAt t q).packet = none
  wd : (queueAt t q).wd = 0
  head : u.pkg.migFwd = false → u.pkg.fwds = [] →
    t.bytes (queueBase u q + 24) 8 = bytesOf 8 (p.slot + BitVec.ofNat 64 (p.bytes.length / 64))

theorem retire_retires (q : Nat) (p : Packet) (u : State) : Retired q p u (retire q p u) where
  eq := rfl
  packet := congrArg Queue.packet (queueAt_modQueue q _ _)
  wd := congrArg Queue.wd (queueAt_modQueue q _ _)
  head hm hf := by
    have h := bytes_writeDev ⟨hm, hf⟩ (queueBase u q + 24)
      (bytesOf 8 (p.slot + BitVec.ofNat 64 (p.bytes.length / 64)))
    rw [show (bytesOf 8 (p.slot + BitVec.ofNat 64 (p.bytes.length / 64))).length = 8 from leBytes_length 8 _] at h
    exact h

theorem Retired.parts (h : Retired q p u t) : t = retire q p u ∧ (queueAt t q).packet = none ∧ (queueAt t q).wd = 0 ∧
    (u.pkg.migFwd = false → u.pkg.fwds = [] →
      t.bytes (queueBase u q + 24) 8 = bytesOf 8 (p.slot + BitVec.ofNat 64 (p.bytes.length / 64))) :=
  ⟨h.eq, h.packet, h.wd, h.head⟩

/-! ## A queue that is served (R362 to R364) -/

/-- The processor serves the queue: it is on, its partition is not being reset, and its lines are not at a stopped slice. -/
structure Served (q : Nat) (s : State) : Prop where
  on : queueOn s q = true
  running : resetting s (queuePid s q) = false
  free : tableHeld s q = false

theorem Served.notHeld (h : Served q s) : ¬ (!queueOn s q || resetting s (queuePid s q) || tableHeld s q) = true := by
  simp [h.on, h.running, h.free]

/-- The state in which the queue's TAIL has been read, in its turn (R363). -/
def scheduled (q : Nat) (s : State) : State :=
  modQueue q (fun x => { x with till := some (BitVec.ofNat 64 (queueField s q 128 8)) })
    (s.modPkg fun k => { k with served := q })

theorem queueSchedule_stops (h : Served q s) (ht : inTurn s q = true) (hn : (queueAt s q).packet ≠ none ∨ slotsLeft s q = 0)
    (hc : controlOk s q = false) : exec (.queueSchedule q) s = .next (stopQueue q 1 (queueHead s q) s) := by
  have hnew : ¬ ((queueAt s q).packet.isNone && decide (slotsLeft s q ≠ 0)) = true := by
    rcases hn with hn | hn
    · simp [hn]
    · simp [hn]
  show execQueueSchedule q s = _
  unfold execQueueSchedule
  rw [if_neg h.notHeld, if_neg hnew, if_neg (by simp [ht]), if_pos (by simp [hc])]
  rfl

/-- A queue in its turn: its TAIL is read, and the packet at HEAD is parsed unless there is none or one is parsed. -/
theorem queueSchedule_next (h : Served q s) (ht : inTurn s q = true) (hn : (queueAt s q).packet ≠ none ∨ slotsLeft s q = 0)
    (hc : controlOk s q = true) : exec (.queueSchedule q) s = due s (
      if (queueAt s q).packet.isSome || queueAvail s q = 0 then some (scheduled q s)
      else if ringHeld q (scheduled q s) then none
      else some (parsePacket q (queueAvail s q) (scheduled q s))) := by
  have hnew : ¬ ((queueAt s q).packet.isNone && decide (slotsLeft s q ≠ 0)) = true := by
    rcases hn with hn | hn
    · simp [hn]
    · simp [hn]
  have hpacket : (queueAt (scheduled q s) q).packet = (queueAt s q).packet := by
    rw [scheduled, queueAt_modQueue]
    rfl
  have havail : queueAvail (scheduled q s) q = queueAvail s q := rfl
  show execQueueSchedule q s = _
  unfold execQueueSchedule
  rw [if_neg h.notHeld, if_neg hnew, if_neg (by simp [ht]), if_neg (by simp [hc]), ← hpacket, ← havail]
  rfl

/-- A queue goes on up to the TAIL that the processor has read (log 114). -/
theorem queueSchedule_goesOn (h : Served q s) (hn : (queueAt s q).packet = none) (hl : slotsLeft s q ≠ 0)
    (hr : ringHeld q s = false) : exec (.queueSchedule q) s = .next (parsePacket q (slotsLeft s q) s) := by
  show execQueueSchedule q s = _
  unfold execQueueSchedule
  rw [if_neg h.notHeld, if_pos (by simp [hn, hl]), if_neg (by simp [hr])]
  rfl

theorem slotsLeft_till {seen : Word} (ht : (queueAt s q).till = some seen)
    (hl : (seen - queueHead s q).toNat ≤ queueAvail s q) : slotsLeft s q = (seen - queueHead s q).toNat := by
  unfold slotsLeft
  rw [ht]
  exact if_pos hl

/-! ## The parse of a packet (R363, R364) -/

section
variable {hd : List Byte} {v : State} {avail : Nat}
  (hh : readSlots (queuePid s q) (BitVec.ofNat 64 (queueField s q 0 8)) (queueField s q 8 4) 1 (queueHead s q) s = some (hd, v))
include hh

/-- A packet of which some slot is not yet written waits for the next turn. -/
theorem parsePacket_part (hn : avail < pf hd 1 1 % 16 + 1) :
    parsePacket q avail s = modQueue q (fun x => { x with till := none }) s := by
  unfold parsePacket
  dsimp only
  rw [hh]
  exact if_pos hn

/-- A LAUNCH packet all of whose slots are written is parsed. -/
theorem parsePacket_parses {bs : List Byte} (hn : pf hd 1 1 % 16 + 1 ≤ avail) (hb : headerBad hd = none)
    (hp : readSlots (queuePid s q) (BitVec.ofNat 64 (queueField s q 0 8)) (queueField s q 8 4) (pf hd 1 1 % 16 + 1)
      (queueHead s q) s = some (bs, t)) (hok : packetBad bs = none) (h1 : pf bs 0 1 = 1) :
    parsePacket q avail s = modQueue q (fun x => { x with packet := some ⟨queueHead s q, bs, []⟩ }) t := by
  unfold parsePacket
  dsimp only
  rw [hh]
  dsimp only
  rw [if_neg (by omega), if_neg (by simp [hb]), hp]
  dsimp only
  rw [if_neg (by simp [hok]), if_pos h1]

end

/-! ## A queue whose control line is malformed (R362) -/

/-- A journal that is not enabled takes no entry. -/
theorem journal_off (hj : s.pkg.jEn = false) (type code : Byte) (pid : Option Byte) (queue : Option Nat) (cid : Option (BitVec 12))
    (slot lseq pc qual aux : Word) (payload : List Byte) :
    s.journal type code pid queue cid slot lseq pc qual aux payload = s := if_pos (by rw [hj]; rfl)

/-- The table with the slot at which a queue has stopped. -/
def errorSlot (q : Nat) (slot : Word) (s : State) : State := s.writeDev (queueBase s q + 32) (bytesOf 8 slot)

/-- The table with a queue disabled. -/
def disabled (q : Nat) (slot : Word) (s : State) : State :=
  (errorSlot q slot s).writeDev (queueBase s q + 14) [(errorSlot q slot s).byte (queueBase s q + 14) &&& 0xFE]

theorem stopQueue_eq (q : Nat) (code : Byte) (slot : Word) (s : State) : stopQueue q code slot s =
    (modQueue q (fun x => { x with packet := none, till := none }) (disabled q slot s)).journal 0x03 code
      (some (queuePid s q)) (some q) none slot (BitVec.allOnes 64) 0 0 0 [] := rfl

theorem disabled_pkg (q : Nat) (slot : Word) (s : State) : (disabled q slot s).pkg = s.pkg :=
  (writeDev_pkg _ _ _).trans (writeDev_pkg _ _ s)

theorem disabled_bytes (q : Nat) (slot : Word) (hs : Settled s) :
    (disabled q slot s).byte (queueBase s q + 14) = (errorSlot q slot s).byte (queueBase s q + 14) &&& 0xFE ∧
      (disabled q slot s).bytes (queueBase s q + 32) 8 = bytesOf 8 slot := by
  have hs1 : Settled (errorSlot q slot s) := hs.of_pkg (writeDev_pkg _ _ s)
  have hlen : (bytesOf 8 slot).length = 8 := leBytes_length 8 _
  constructor
  · rw [disabled, byte_writeDev hs1, if_pos ⟨le_refl _, by simp⟩, Nat.sub_self]
    rfl
  · rw [disabled, bytes_writeDev_outside hs1 (by right; simp), ← hlen]
    exact bytes_writeDev hs _ _

theorem stopQueue_packet (q : Nat) (code : Byte) (slot : Word) (s : State) :
    (queueAt (stopQueue q code slot s) q).packet = none := by
  rw [stopQueue_eq, queueAt_journal, queueAt_modQueue]

/-- Without a journal, stopping a queue writes its two fields in the table. -/
theorem stopQueue_writes (code : Byte) (slot : Word) (hj : s.pkg.jEn = false) (hs : Settled s) :
    queueOn (stopQueue q code slot s) q = false ∧ (stopQueue q code slot s).bytes (queueBase s q + 32) 8 = bytesOf 8 slot := by
  obtain ⟨hbyte, hslot⟩ := disabled_bytes q slot hs
  have hp := disabled_pkg q slot s
  rw [stopQueue_eq, journal_off (by rw [← hj, ← hp]; rfl)]
  generalize disabled q slot s = d at *
  refine ⟨?_, hslot⟩
  have hbase : queueBase (modQueue q (fun x => { x with packet := none, till := none }) d) q = queueBase s q :=
    congrArg (fun k : Pkg => k.qtBase.toNat * 4096 + 256 * q) hp
  have hbit : ((modQueue q (fun x => { x with packet := none, till := none }) d).byte (queueBase s q + 14)).getLsbD 0 = false := by
    show (d.byte (queueBase s q + 14)).getLsbD 0 = false
    rw [hbyte, BitVec.getLsbD_and]
    simp
  rw [queueOn, hbase, hbit, Bool.and_false]

/-! ## Packets (R364 to R368, R378) -/

/-- A packet of the queue whose accesses need not wait. -/
structure Parsed (q : Nat) (p : Packet) (s : State) : Prop where
  served : Served q s
  packet : (queueAt s q).packet = some p
  free : packetHeld q p s = false

/-- The step of a packet's own type acts on it. -/
theorem Parsed.acts (h : Parsed q p s) {type : Nat} (ht : pf p.bytes 0 1 = type) (f : Packet → State → Option State) :
    withPacket q type f s = due s (f p s) := by
  unfold withPacket
  rw [h.packet]
  exact congrArg (due s) (if_pos (by simp [h.served.on, h.served.running, h.served.free, h.free, ht]))

theorem Parsed.retires (h : Parsed q p s) {type : Nat} (ht : pf p.bytes 0 1 = type) {f : Packet → State → Option State}
    (hf : f p s = some (retire q p u)) : ∃ t, withPacket q type f s = .next t ∧ Retired q p u t :=
  ⟨_, by rw [h.acts ht, hf]; rfl, retire_retires q p u⟩

theorem exec_packetNop : exec (.packetNop q) s = withPacket q 0 (fun p s => some (retire q p s)) s := rfl

theorem exec_packetFence : exec (.packetFence q) s = withPacket q 2 (fun p s => some (fenceStep q p s).1) s := rfl

theorem exec_packetFenceSatisfied : exec (.packetFenceSatisfied q) s =
    withPacket q 2 (fun p s => if (fenceStep q p s).2 then some (fenceStep q p s).1 else none) s := rfl

theorem exec_packetSignal : exec (.packetSignal q) s = withPacket q 3 (fun p s =>
    let pid := queuePid s q
    let done := if pf p.bytes 24 1 = 0 then queueWrite pid (pw p.bytes 8) (bytesOf 8 (pw p.bytes 16)) s
      else queueRmw pid (pw p.bytes 8) (· + pw p.bytes 16) s
    some (match done with | none => stopQueue q 2 p.slot s | some s => retire q p s)) s := rfl

theorem exec_packetEdge : exec (.packetEdge q) s = withPacket q 4 (fun p s => some (edgeStep q p s).1) s := rfl

theorem exec_packetEdgeTaken : exec (.packetEdgeTaken q) s =
    withPacket q 4 (fun p s => if (edgeStep q p s).2 then some (edgeStep q p s).1 else none) s := rfl

theorem exec_packetModuleLoad : exec (.packetModuleLoad q) s = withPacket q 5 (fun p s => if pf p.bytes 8 1 = 1 then
    some (retire q p (s.purge (queueAgent (queuePid s q)) (pw p.bytes 16) (pf p.bytes 24 8))) else none) s := rfl

theorem Parsed.launch_parses (h : Parsed q p s) (ht : pf p.bytes 0 1 = 1)
    (hn : ∀ l ∈ s.launches, l.queue = some q → l.slot = p.slot → l.st ≠ .parsed ∧ l.st ≠ .leasing) :
    ∃ t, exec (.packetLaunch q) s = .next t ∧ t.pkg.seqCount = s.pkg.seqCount + 1 ∧
      t.launches = s.launches ++ [launchOf p.bytes (s.pkg.seqCount + 1) (queuePid s q) (some q) p.slot
        (max (pf p.bytes 30 1) (queueField s q 13 1))] := by
  have hnew : ¬ (s.launches.any fun l =>
      l.queue == some q && l.slot == p.slot && (l.st == .parsed || l.st == .leasing)) = true := by
    simp only [List.any_eq_true, Bool.and_eq_true, Bool.or_eq_true, beq_iff_eq, not_exists, not_and]
    intro l hl ⟨hq, hslot⟩ hst
    obtain ⟨hpar, hlea⟩ := hn l hl hq hslot
    exact hst.elim hpar hlea
  let l := launchOf p.bytes (s.pkg.seqCount + 1) (queuePid s q) (some q) p.slot
    (max (pf p.bytes 30 1) (queueField s q 13 1))
  let j := s.journal 0x01 1 (some (queuePid s q)) (some q) none p.slot (s.pkg.seqCount + 1) l.entry
    (launchQual (s.pkg.seqCount + 1)) (BitVec.ofNat 64 (pf p.bytes 4 4)) p.bytes
  refine ⟨({ j with launches := j.launches ++ [l] } : State).modPkg fun k => { k with seqCount := s.pkg.seqCount + 1 }, ?_, rfl, ?_⟩
  · show execPacketLaunch q s = _
    unfold execPacketLaunch
    rw [h.acts ht, if_neg hnew]
    rfl
  · obtain ⟨k, hj⟩ := contexts_journal 0x01 1 (some (queuePid s q)) (some q) none p.slot (s.pkg.seqCount + 1) l.entry
      (launchQual (s.pkg.seqCount + 1)) (BitVec.ofNat 64 (pf p.bytes 4 4)) p.bytes s
    exact congrArg (· ++ [l]) (congrArg Contexts.launches hj)

section
variable {seen : List Nat}
  (hpass : fencePass (queuePid s q) p.bytes (List.range (pf p.bytes 8 1 % 16)) p.seen s = some (seen, u))
include hpass

theorem fenceStep_satisfied (hall : ∀ k < pf p.bytes 8 1 % 16, k ∈ seen) : fenceStep q p s = (retire q p u, true) := by
  unfold fenceStep
  dsimp only
  rw [hpass]
  exact if_pos (by simpa using hall)

theorem fenceStep_waits (hnot : ¬ ∀ k < pf p.bytes 8 1 % 16, k ∈ seen) :
    fenceStep q p s = (modQueue q (fun x => { x with packet := some { p with seen := seen } }) u, false) := by
  unfold fenceStep
  dsimp only
  rw [hpass]
  exact if_neg (by simpa using hnot)

theorem Parsed.fence_passes (h : Parsed q p s) (ht : pf p.bytes 0 1 = 2) :
    ((∀ k < pf p.bytes 8 1 % 16, k ∈ seen) →
      (∃ t, exec (.packetFence q) s = .next t ∧ Retired q p u t) ∧
      ∃ t, exec (.packetFenceSatisfied q) s = .next t ∧ Retired q p u t) ∧
    (¬ (∀ k < pf p.bytes 8 1 % 16, k ∈ seen) → exec (.packetFence q) s =
      .next (modQueue q (fun x => { x with packet := some { p with seen := seen } }) u)) := by
  rw [exec_packetFence, exec_packetFenceSatisfied]
  refine ⟨fun hall => ⟨h.retires ht ?_, h.retires ht ?_⟩, fun hnot => (h.acts ht _).trans ?_⟩
  · rw [fenceStep_satisfied hpass hall]
  · rw [fenceStep_satisfied hpass hall]
    rfl
  · rw [fenceStep_waits hpass hnot]
    rfl

end

theorem Parsed.signal_writes (h : Parsed q p s) (ht : pf p.bytes 0 1 = 3)
    (hw : (if pf p.bytes 24 1 = 0 then queueWrite (queuePid s q) (pw p.bytes 8) (bytesOf 8 (pw p.bytes 16)) s
      else queueRmw (queuePid s q) (pw p.bytes 8) (· + pw p.bytes 16) s) = some u) :
    ∃ t, exec (.packetSignal q) s = .next t ∧ Retired q p u t := by
  rw [exec_packetSignal]
  refine h.retires ht ?_
  dsimp only
  rw [hw]

theorem edgeStep_takes {acc : Acc} (hc : queueCheck (queuePid s q) (pw p.bytes 8) 8 .rmw s = some acc)
    (hv : 0 < (wordOf (s.bytesAt acc)).toInt) (hw : queueRmw (queuePid s q) (pw p.bytes 8) (· - 1) s = some u) :
    edgeStep q p s = (retire q p u, true) := by
  unfold edgeStep
  dsimp only
  rw [hc]
  dsimp only
  rw [if_neg (by omega), hw]

theorem Parsed.edge_takes (h : Parsed q p s) (ht : pf p.bytes 0 1 = 4) {acc : Acc}
    (hc : queueCheck (queuePid s q) (pw p.bytes 8) 8 .rmw s = some acc)
    (hv : 0 < (wordOf (s.bytesAt acc)).toInt) (hw : queueRmw (queuePid s q) (pw p.bytes 8) (· - 1) s = some u) :
    (∃ t, exec (.packetEdge q) s = .next t ∧ Retired q p u t) ∧
      ∃ t, exec (.packetEdgeTaken q) s = .next t ∧ Retired q p u t := by
  rw [exec_packetEdge, exec_packetEdgeTaken]
  refine ⟨h.retires ht ?_, h.retires ht ?_⟩
  · rw [edgeStep_takes hc hv hw]
  · rw [edgeStep_takes hc hv hw]
    rfl

/-- A MODULE unload waits for no launch whose entry lies outside its range (R378). -/
theorem moduleFree {pid : Byte} {base len : Nat} (hn : ∀ l ∈ s.launches, l.pid = pid →
      l.st = .leasing ∨ l.st = .ready ∨ l.st = .running → l.entry.toNat < base ∨ base + len ≤ l.entry.toNat) :
    (s.launches.any fun l => l.pid == pid && (l.st == .leasing || l.st == .ready || l.st == .running)
      && decide (base ≤ l.entry.toNat) && decide (l.entry.toNat < base + len)) = false := by
  rw [List.any_eq_false]
  intro l hl
  simp only [Bool.and_eq_true, Bool.or_eq_true, beq_iff_eq, decide_eq_true_eq, or_assoc]
  rintro ⟨⟨⟨hp, hst⟩, hlo⟩, hhi⟩
  have := hn l hl hp hst
  omega

/-- A MODULE unload retires once no launch runs its code (R378). -/
theorem Parsed.module_unloads (h : Parsed q p s) (ht : pf p.bytes 0 1 = 5) (hl : pf p.bytes 8 1 = 2)
    (hn : ∀ l ∈ s.launches, l.pid = queuePid s q → l.st = .leasing ∨ l.st = .ready ∨ l.st = .running →
      l.entry.toNat < pf p.bytes 16 8 ∨ pf p.bytes 16 8 + pf p.bytes 24 8 ≤ l.entry.toNat) :
    ∃ t, exec (.packetModuleUnload q) s = .next t ∧
      Retired q p (s.purge (queueAgent (queuePid s q)) (pw p.bytes 16) (pf p.bytes 24 8)) t := by
  show ∃ t, execPacketModuleUnload q s = .next t ∧ _
  unfold execPacketModuleUnload
  exact h.retires ht (if_pos (by rw [moduleFree hn, hl]; rfl))

/-- Settles O56: the processor parses a queue's packet in its turn, and a packet retires once it has done its work. -/
theorem queuePackets : Obligations.QueuePackets := by
  intro q s hon hrun hfree retired head ring slots tail avail parses
  have hs : Served q s := ⟨hon, hrun, hfree⟩
  have parsed {u : State} {below : Nat} (hhead : queueHead u q = head) (hpid : queuePid u q = queuePid s q)
      (hring : BitVec.ofNat 64 (queueField u q 0 8) = ring) (hslots : queueField u q 8 4 = slots)
      (hexec : ringHeld q u = false → exec (.queueSchedule q) s = .next (parsePacket q below u)) : parses u below := by
    intro hr hd v hh
    rw [hexec hr]
    rw [← hhead, ← hpid, ← hring, ← hslots] at hh
    refine ⟨fun hn => congrArg Host.Outcome.next (parsePacket_part hh hn), fun p t hn hb hp hok h1 => ?_⟩
    rw [← hhead]
    rw [← hhead, ← hpid, ← hring, ← hslots] at hp
    exact congrArg Host.Outcome.next (parsePacket_parses hh hn hb hp hok h1)
  refine ⟨fun ht hn => ⟨fun hc => ?_, fun hc hw => ?_, fun hc hnone hav => ?_⟩, fun seen hnone htill hlo hhi => ?_,
    fun p hp hheld => ?_⟩
  · exact ⟨_, queueSchedule_stops hs ht hn hc, stopQueue_packet q 1 head s,
      fun hj hm hf => stopQueue_writes 1 head hj ⟨hm, hf⟩⟩
  · rw [queueSchedule_next hs ht hn hc, if_pos]
    · rfl
    · rcases hw with hw | hw
      · simp [Option.isSome_iff_ne_none.mpr hw]
      · simp [show queueAvail s q = 0 from hw]
  · refine parsed rfl rfl rfl rfl fun hr => ?_
    have hne : queueAvail s q ≠ 0 := Nat.pos_iff_ne_zero.mp hav
    rw [queueSchedule_next hs ht hn hc, if_neg (by simp [hnone, hne])]
    exact congrArg (due s) (if_neg (ne_true_of_eq_false hr))
  · refine parsed rfl rfl rfl rfl fun hr => ?_
    have hl := slotsLeft_till htill hhi
    rw [queueSchedule_goesOn hs hnone (hl ▸ Nat.pos_iff_ne_zero.mp hlo) hr, hl]
  · have h : Parsed q p s := ⟨hs, hp, hheld⟩
    have parts {o : Out} {u : State} (ht : ∃ t, o = .next t ∧ Retired q p u t) : ∃ t, o = .next t ∧ retired p u t := by
      obtain ⟨t, he, hr⟩ := ht
      exact ⟨t, he, hr.parts⟩
    refine ⟨fun ht => parts (by rw [exec_packetNop]; exact h.retires ht rfl), fun ht hn => h.launch_parses ht hn,
      fun ht seen u hpass => ?_,
      fun ht u hw => parts (h.signal_writes ht hw), fun ht acc u hc hv hw => ?_, fun ht => ⟨fun hl => ?_, fun hl hn => ?_⟩⟩
    · obtain ⟨hall, hnot⟩ := h.fence_passes hpass ht
      exact ⟨fun ha => ⟨parts (hall ha).1, parts (hall ha).2⟩, hnot⟩
    · obtain ⟨he, htaken⟩ := h.edge_takes ht hc hv hw
      exact ⟨parts he, parts htaken⟩
    · rw [exec_packetModuleLoad]
      exact parts (h.retires ht (if_pos hl))
    · exact parts (h.module_unloads ht hl hn)

end Sys2Proof.Proofs
end

section
/-! PROOFS. The turns that are still to come: what a reset's steps do to launches and contexts takes none of them (R445). -/

namespace Sys2Proof.Proofs

open Sys2Proof.Machine Sys2Proof.Safety

variable {s t : State}

theorem schedule_of_unwritten (h : unwritten t = unwritten s) : t.schedule = s.schedule := (congrArg State.schedule h :)

/-! ## Stores that become visible -/

theorem schedule_soilChunk (o : Holder) (c : Chunk) (bs : List Byte) (s : State) :
    (s.soilChunk o c bs).schedule = s.schedule := by
  have hsoil (v p : Nat) (u : State) : (u.soil c.core o v p).schedule = u.schedule := by
    unfold State.soil
    split <;> rfl
  unfold State.soilChunk
  split
  · exact eachLine_keeps State.schedule (fun _ _ => rfl) (fun _ _ _ => rfl) hsoil _ _ s
  · exact schedule_of_unwritten (unwritten_patchHome _ _ s)

theorem schedule_writePart (o : Holder) (c : Chunk) (bs : List Byte) (tag : BitVec 28) (s : State) :
    (writePart o c bs tag s).schedule = s.schedule := by
  have hnote (u : State) : u.noteWrite.schedule = u.schedule := by
    unfold State.noteWrite
    split <;> rfl
  have hmark (q : Option Word) (u : State) : (u.markFrame q c.pa).schedule = u.schedule := by
    unfold State.markFrame
    repeat' split
    all_goals rfl
  exact (hnote _).trans ((hmark _ _).trans
    ((schedule_of_unwritten (unwritten_write _ _ _ _)).trans (schedule_soilChunk _ _ _ s)))

theorem schedule_lateChunks (cs : List Chunk) : ∀ (bs : List Byte) (s : State),
    (State.lateChunks cs bs s).schedule = s.schedule := by
  induction cs with
  | nil => exact fun _ _ => rfl
  | cons c cs ih =>
    intro bs s
    rw [lateChunks_cons, ih, schedule_writePart]

theorem schedule_lateStore (s : State) : s.lateStore.schedule = s.schedule := by
  have hcover (ws : List (Nat × Nat)) (u : State) : (u.cover ws).schedule = u.schedule := by
    unfold State.cover
    split <;> rfl
  unfold State.lateStore
  split
  · rfl
  · exact (hcover _ _).trans (schedule_lateChunks _ _ _)

theorem schedule_lateStores (s : State) : s.lateStores.schedule = s.schedule :=
  foldl_keeps State.schedule (fun s (_ : LateStore) => s.lateStore) (fun s _ => schedule_lateStore s) _ s

/-! ## Contexts that leave -/

theorem schedule_focus (n : Nat) (s : State) : (s.focus n).schedule = s.schedule := by
  unfold State.focus
  split <;> rfl

theorem schedule_givenBack (tiles : Bool) (s : State) : (givenBack tiles s).schedule = s.schedule := by
  cases tiles <;> rfl

theorem schedule_vacate (x : Hart) (s : State) : (s.vacate x).schedule = s.schedule := by
  unfold State.vacate
  split <;> rfl

theorem schedule_stopFocused (tiles : Bool) (s : State) : (stopFocused tiles s).schedule = s.schedule := by
  rw [stopFocused, leaveWith_eq, schedule_vacate, schedule_givenBack, schedule_lateStores,
    countEnd_keeps State.schedule (fun _ _ _ => rfl), schedule_lateStores]

theorem schedule_stopSlot (tiles : Bool) (k : Word) (s : State) (n : Nat) : (stopSlot tiles k s n).schedule = s.schedule := by
  unfold stopSlot
  split
  · rw [State.atHart, schedule_focus, schedule_stopFocused, schedule_focus]
  · rfl

/-- The stop of a launch takes no turn. -/
theorem schedule_stopLaunchWith (tiles : Bool) (k : Word) (status : Byte) (s : State) :
    (s.stopLaunchWith tiles k status).schedule = s.schedule := by
  obtain ⟨u, he⟩ := stopLaunchWith_eq tiles k status s
  have hslots : (s.slots.foldl (stopSlot tiles k) s).schedule = s.schedule :=
    foldl_keeps State.schedule (stopSlot tiles k) (schedule_stopSlot tiles k) _ s
  rw [he]
  generalize s.slots.foldl (stopSlot tiles k) s = v at hslots ⊢
  refine Eq.trans ?_ hslots
  exact foldl_keeps State.schedule (stopSaved tiles)
    (stopSaved_keeps State.schedule (fun _ _ _ => rfl) (fun _ _ => rfl) (fun _ _ => rfl) tiles) _ v

/-! ## Recovery (R448) -/

theorem schedule_undo {cache : Option Cache} {pid : Byte} {mine : BitVec 28 → Bool} {r : Logged}
    (h : undo cache pid mine r s = some t) : t.schedule = s.schedule := by
  unfold undo at h
  split at h
  · cases h
  · split at h
    · obtain rfl := Option.some.inj h
      exact schedule_of_unwritten ((unwritten_recode _ _ _).trans
        ((unwritten_putBytes _ _ _).trans (unwritten_patchHome _ _ s)))
    · cases h

theorem schedule_rollbackAll (pid : Byte) (cid : BitVec 12) (us : List Undo) :
    ∀ r : Bool × State, (rollbackAll pid cid us r).2.schedule = r.2.schedule := by
  induction us with
  | nil => exact fun _ => rfl
  | cons u us ih =>
    intro r
    unfold rollbackAll
    split
    · next hu => exact (ih _).trans (schedule_undo hu)
    · exact ih _

theorem schedule_markEnd (l : Launch) (status : Byte) (s : State) : (markEnd l status s).schedule = s.schedule := by
  unfold markEnd
  dsimp only
  split <;> rfl

theorem schedule_recoverLaunch (k : Word) (s : State) : (recoverLaunch k s).schedule = s.schedule := by
  unfold recoverLaunch
  split
  · rfl
  · split
    · exact schedule_markEnd _ _ s
    · split
      · exact schedule_markEnd _ _ s
      · exact (schedule_markEnd _ _ _).trans (schedule_rollbackAll _ _ _ (true, s))

/-! ## What a reset clears (R445) -/

theorem schedule_clearPartition (p : Byte) (s : State) : (clearPartition p s).schedule = s.schedule := rfl

theorem schedule_freeLaunch (l : Launch) (s : State) : (freeLaunch l s).schedule = s.schedule := rfl

theorem schedule_stopPartition (q : Nat) (r : Reset) (s : State) : (stopPartition q r s).schedule = s.schedule :=
  foldl_keeps State.schedule (fun (s : State) k => s.stopLaunchWith false k 4)
    (fun s k => schedule_stopLaunchWith false k 4 s) _ s

theorem schedule_recoverStopped (q : Nat) (r : Reset) (s : State) : (recoverStopped q r s).schedule = s.schedule :=
  foldl_keeps State.schedule (fun s k => recoverLaunch k s) (fun s k => schedule_recoverLaunch k s) _ s

theorem schedule_clearStopped (q : Nat) (r : Reset) (s : State) : (clearStopped q r s).schedule = s.schedule := by
  unfold clearStopped
  dsimp only
  refine (foldl_keeps State.schedule (fun s l => freeLaunch l s) (fun s l => schedule_freeLaunch l s) _ _).trans ?_
  exact schedule_clearPartition r.pid s

/-! ## A recovery that waits does so whatever turns are to come (R463) -/

/-- The state with other turns to come. -/
def withTurns (ts : List Turn) (s : State) : State := { s with schedule := ts }

variable (ts : List Turn)

theorem walkFrom_withTurns (pid : Byte) (va : Word) (n : Nat) (s : State) :
    ∀ table, (withTurns ts s).walkFrom pid va n table = s.walkFrom pid va n table := by
  induction n with
  | zero => exact fun _ => rfl
  | succ n ih =>
    intro table
    rw [State.walkFrom, State.walkFrom]
    simp only [ih]
    rfl

theorem lookup_withTurns (cache : Option Cache) (pid : Byte) (va : Word) (s : State) :
    (withTurns ts s).lookup cache pid va = s.lookup cache pid va := by
  unfold State.lookup
  rw [walkFrom_withTurns]
  rfl

theorem recordHeld_withTurns (cache : Option Cache) (pid : Byte) (slot : Nat) (s : State) :
    recordHeld cache pid slot (withTurns ts s) = recordHeld cache pid slot s := by
  unfold recordHeld
  rw [lookup_withTurns]
  rfl

theorem rollbackHeld_withTurns (k : Word) (s : State) : rollbackHeld k (withTurns ts s) = rollbackHeld k s := by
  unfold rollbackHeld
  simp only [recordHeld_withTurns]
  rfl

/-! ## The steps of a reset (R445) -/

/-- The next step of a reset, up to the fourth, goes to the step after it. -/
theorem resetStep_goesOn {q : Nat} {r : Reset} (he : (queueAt s q).expiry = some r) (h1 : 1 ≤ r.step) (h3 : r.step ≤ 3)
    (hh : r.step = 2 → ∀ k ∈ r.left, rollbackHeld k s = false) :
    ∃ t r', resetStep q s = some t ∧ t.schedule = s.schedule ∧ (queueAt t q).expiry = some r' ∧ r'.step = r.step + 1 ∧
      (r.step = 1 → ∀ l ∈ s.launches, l.pid = r.pid → l.st = .running → (l.seq ∈ r'.stopped ↔ l.seq ∉ r.halted)) := by
  unfold resetStep
  rw [he]
  dsimp only
  split
  · next hs =>
    refine ⟨stopPartition q r s, _, rfl, schedule_stopPartition q r s, congrArg Queue.expiry (queueAt_modQueue q _ _),
      by rw [hs], fun _ l hl hp hst => ?_⟩
    rw [List.mem_map]
    constructor
    · rintro ⟨m, hm, heq⟩ hhalt
      simp [heq, hhalt] at hm
    · exact fun hn => ⟨l, List.mem_filter.mpr ⟨hl, by simp [hp, hst, hn]⟩, rfl⟩
  · next hs =>
    have hfree : ¬ (r.left.any fun k => rollbackHeld k s) = true := by simpa using hh hs
    rw [if_neg hfree]
    exact ⟨_, _, rfl, schedule_recoverStopped q r s, congrArg Queue.expiry (queueAt_modQueue q _ _), by rw [hs],
      fun h => by omega⟩
  · next hs =>
    exact ⟨_, _, rfl, schedule_clearStopped q r s, congrArg Queue.expiry (queueAt_modQueue q _ _), by rw [hs],
      fun h => by omega⟩
  · next n1 n2 n3 => exact ((show r.step = 1 ∨ r.step = 2 ∨ r.step = 3 by omega).elim n1 (·.elim n2 n3)).elim

/-- A turn of a reset takes its next step (R445, log 69). -/
theorem step_resetStep {q : Nat} {r : Reset} {ts : List Turn} (hs : s.schedule = .resetStep q :: ts)
    (hq : s.pkg.quiesced = false) (he : (queueAt s q).expiry = some r) (h1 : 1 ≤ r.step) (h3 : r.step ≤ 3)
    (hh : r.step = 2 → ∀ k ∈ r.left, rollbackHeld k s = false) :
    ∃ t r', step s = .next t ∧ t.schedule = ts ∧ (queueAt t q).expiry = some r' ∧ r'.step = r.step + 1 ∧
      (r.step = 1 → ∀ l ∈ s.launches, l.pid = r.pid → l.st = .running → (l.seq ∈ r'.stopped ↔ l.seq ∉ r.halted)) := by
  obtain ⟨t, r', hreset, hts, hexp, hstep, hstopped⟩ := resetStep_goesOn (s := withTurns ts s) he h1 h3
    fun h k hk => (rollbackHeld_withTurns ts k s).trans (hh h k hk)
  refine ⟨t, r', ?_, hts, hexp, hstep, hstopped⟩
  unfold step nextStep
  rw [hs]
  dsimp only [takeTurn]
  rw [if_neg (by simp [hq])]
  exact congrArg (due (withTurns ts s)) hreset

end Sys2Proof.Proofs
end

section
/-! PROOFS. The scheduler: yields, saves and restores, leases and placements, the end of a launch, and watchdogs (R369 to R373,
R405 to R410, R430, R444). -/

namespace Sys2Proof.Proofs

open Sys2Proof.Machine Sys2Proof.Safety

variable {s t : State} {n : Nat}

/-! ## A slot that changes -/

theorem modHart_frame (n : Nat) (f : Hart → Hart) (s : State) :
    (s.modHart n f).mem = s.mem ∧ (s.modHart n f).saved = s.saved ∧ (s.modHart n f).launches = s.launches := by
  obtain ⟨hsaved, -, hlaunches, hmem⟩ := focus_frame n s
  obtain ⟨ksaved, -, klaunches, kmem⟩ := focus_frame s.cur ((s.focus n).onH f)
  exact ⟨kmem.trans hmem, ksaved.trans hsaved, klaunches.trans hlaunches⟩

/-! ## Yields (R372, R405) -/

theorem yieldRequest_asks {l : Launch} (hl : headLaunch s (s.hartAt n).pid = some l) (hc : canYield s l (s.hartAt n) = true)
    (hp : placeable l (yielded s (s.hartAt n).pid) = false)
    (hf : ∀ m ∈ s.slots, canYield s l (s.hartAt m) = true → yieldsBefore s (s.hartAt m) (s.hartAt n) = false) :
    exec (.yieldRequest n) s = .next (s.modHart n Hart.askYield) := by
  have hany : (s.slots.any fun m => canYield s l (s.hartAt m) && yieldsBefore s (s.hartAt m) (s.hartAt n)) = false := by
    rw [List.any_eq_false]
    intro m hm hb
    obtain ⟨hy, hbefore⟩ := Bool.and_eq_true_iff.mp hb
    exact Bool.false_ne_true ((hf m hm hy).symm.trans hbefore)
  show execYieldRequest n s = _
  unfold execYieldRequest
  dsimp only
  rw [hl]
  exact congrArg (due s) (if_neg (by simp [hc, hp, hany]))

theorem quantumExpiry_asks (he : (s.hartAt n).run ≠ .empty) (hy : (s.hartAt n).yreq = false) (hl : (s.hartAt n).launch ≠ none)
    (hq : max s.pkg.sqnt.toNat 1 * max (s.hartAt n).lwt.toNat 1 ≤ (s.hartAt n).ticks)
    (hf : freeSlots s (s.hartAt n).pid < readyContexts s (s.hartAt n).pid (s.prioOf (s.hartAt n).launch)) :
    exec (.quantumExpiry n) s = .next (s.modHart n Hart.askYield) := by
  have hcontested : contested (s.hartAt n) s = true := by
    simp [contested, Option.isSome_iff_ne_none.mpr hl, hy, hf]
  have hticks : ¬ (s.hartAt n).ticks < quantumOf (s.hartAt n) s := Nat.not_lt.mpr hq
  exact congrArg (due s) (if_neg (by simp [he, hticks, hcontested]))

/-! ## Forced saves (R406, R407) -/

/-- A save at a boundary with nothing outstanding (R407, R408). -/
theorem saveAtBoundary_saves (reason : Reason) (hb : s.hart.sbuf = []) (hi : s.hart.idle = true) (he : s.hart.evict = false) :
    ∃ k, (saveAtBoundary reason s).saved = s.saved ++ [k] ∧ k.reason = reason ∧
      k.spc = BitVec.ofNat 64 s.hart.pc.toNat ∧ k.hart.s = s.hart.s ∧ k.hart.demand = s.hart.demand ∧
      (saveAtBoundary reason s).hart = savedSlot s.hart ∧ (saveAtBoundary reason s).cur = s.cur := by
  have hsave : saveAtBoundary reason s = (s.withdraw s.cur).saveContext reason (pcWord s.hart.pc 0) 0 := by
    unfold saveAtBoundary
    rw [lateStores_nil hb, drainAll_of_idle (s := s.withdraw s.cur) hi]
    rfl
  obtain ⟨k, hsaved, hreason, hspc, -, hs, hdemand, hhart, hcur⟩ :=
    saveContext_saves reason (pcWord s.hart.pc 0) 0 (s := s.withdraw s.cur) he
  rw [hsave]
  exact ⟨k, hsaved, hreason, hspc.trans (pcWord_zero _), hs, hdemand, hhart, hcur⟩

theorem forcedSave_saves (hr : (s.hartAt n).run = .running) (hy : (s.hartAt n).yreq = true) (hd : (s.hartAt n).ydl = 0)
    (ha : (s.hartAt n).dAct = false) (hi : (s.hartAt n).inh = false) (hidle : (s.hartAt n).idle = true)
    (hb : (s.hartAt n).sbuf = []) (he : (s.hartAt n).evict = false) (ht : settleTreq (s.focus n) = none)
    (hz : zoneStopped (s.focus n) = false) (hh : (s.focus n).areaHeld = false) :
    ∃ t k, exec (.forcedSave n) s = .next t ∧ t.saved = s.saved ++ [k] ∧ k.reason = .forced ∧
      k.spc = BitVec.ofNat 64 (s.hartAt n).pc.toNat ∧ k.hart.s = (s.hartAt n).s ∧ k.hart.demand = (s.hartAt n).demand ∧
      (t.hartAt n).run = .empty := by
  have hgranted : Machine.granted (s.focus n) = s.focus n := by rw [Machine.granted, ht, Option.getD_none]
  have hdeadline : deadlinePassed (s.hartAt n) = true := by simp [deadlinePassed, hr, hy, hd, ha, hi]
  have hf := focus_hart n s
  obtain ⟨k, hsaved, hreason, hspc, hs, hdemand, hhart, hcur⟩ :=
    saveAtBoundary_saves .forced (s := s.focus n) (by rwa [hf]) (by rwa [hf]) (by rwa [hf])
  rw [hf] at hspc hs hdemand
  refine ⟨(saveAtBoundary .forced (s.focus n)).focus s.cur, k, ?_, ?_, hreason, hspc, hs, hdemand, ?_⟩
  · show execForcedSave n s = _
    unfold execForcedSave betweenInstrs
    rw [if_neg (by simp [hz]), hgranted]
    dsimp only
    rw [if_pos (by simp [hdeadline, hh])]
    rfl
  · rw [(focus_frame _ _).1, hsaved, (focus_frame n s).1]
  · rw [hartAt_focus, State.hartAt, if_pos (hcur.trans (focus_cur n s)).symm, hhart]
    rfl

/-! ## Restore (R410) -/

/-- What the area gives back of the scalar registers (R409). -/
theorem rs_restoredHart (s : State) (c : Saved) (slot : Hart) {k : Nat} (h1 : 1 ≤ k) (hk : k < 64) :
    (restoredHart s c slot).rs k = s.word8 (c.hart.area + 0x100 + 8 * k) := by
  have hmem : k ∈ (List.range 63).map (· + 1) := List.mem_map.mpr ⟨k - 1, List.mem_range.mpr (by omega), by omega⟩
  rw [Hart.rs, if_neg (by omega), restoredHart]
  dsimp only
  generalize List.range 63 = ks at hmem
  rw [tget_foldl_keyed (0 : Word) (· + 1) (fun k => s.word8 (c.hart.area + 0x108 + 8 * k))
    (fun k => s.word8 (c.hart.area + 0x100 + 8 * k)) fun k _ => congrArg s.word8 (by omega)]
  exact if_pos hmem

/-- Where a restored context goes on (R410). -/
theorem restoredHart_goesOn (s : State) (c : Saved) (slot : Hart) : (restoredHart s c slot).run = .running ∧
    (restoredHart s c slot).pc = pcOf (s.word8 c.hart.area) ∧
    (restoredHart s c slot).demand = (if c.vpc = 0 then c.hart.demand else c.groups) ∧
    (restoredHart s c slot).vstart = BitVec.ofNat 13 (leNat (s.bytes (c.hart.area + 16) 2)) := by
  unfold restoredHart
  exact ⟨rfl, rfl, rfl, rfl⟩

theorem numberTurn_numbers (n : Nat) (s : State) : (numberTurn n s).mem = s.mem ∧ (numberTurn n s).saved = s.saved ∧
    (numberTurn n s).hartAt n = { s.hartAt n with turn := s.pkg.turns } := by
  obtain ⟨hmem, hsaved, -⟩ := modHart_frame n (fun y => { y with turn := s.pkg.turns }) s
  exact ⟨hmem, hsaved, hartAt_modHart n (fun y => { y with turn := s.pkg.turns }) s⟩

/-- The lane groups that a restored context takes (R183). -/
def takeGroups (c : Saved) (s : State) : State := if c.vpc = 0 then s else s.regroup c.groups

theorem takeGroups_frame (c : Saved) (s : State) : (takeGroups c s).cur = s.cur ∧ (takeGroups c s).others = s.others ∧
    (takeGroups c s).hart = s.hart ∧ (takeGroups c s).saved = s.saved ∧ (takeGroups c s).mem = s.mem := by
  unfold takeGroups
  split <;> exact ⟨rfl, rfl, rfl, rfl, rfl⟩

theorem atHart_takeGroups (n : Nat) (c : Saved) (s : State) : (s.atHart n (takeGroups c)).mem = s.mem ∧
    (s.atHart n (takeGroups c)).saved = s.saved ∧ (s.atHart n (takeGroups c)).hartAt n = s.hartAt n := by
  obtain ⟨fcur, fothers, fhart, fsaved, fmem⟩ := takeGroups_frame c (s.focus n)
  obtain ⟨hsaved, -, -, hmem⟩ := focus_frame n s
  obtain ⟨ksaved, -, -, kmem⟩ := focus_frame s.cur (takeGroups c (s.focus n))
  refine ⟨kmem.trans (fmem.trans hmem), ksaved.trans (fsaved.trans hsaved), ?_⟩
  rw [hartAt_atHart fcur fothers, if_pos rfl, fhart, focus_hart]

/-- Hart x comes to slot n as the next placement, with its results appended. -/
def placeBack (n : Nat) (x : Hart) (s : State) : State :=
  (numberTurn n (s.modHart n fun _ => x.appendResults)).carryCounters n true x

theorem placeBack_places (n : Nat) (x : Hart) (s : State) : (placeBack n x s).mem = s.mem ∧
    (placeBack n x s).saved = s.saved ∧ ∃ turn, (placeBack n x s).hartAt n = { x.appendResults with turn := turn } := by
  obtain ⟨m1, s1, -⟩ := modHart_frame n (fun _ => x.appendResults) s
  have hx := hartAt_modHart n (fun _ => x.appendResults) s
  unfold placeBack
  generalize s.modHart n (fun _ => x.appendResults) = v at *
  obtain ⟨m2, s2, h2⟩ := numberTurn_numbers n v
  rw [hx] at h2
  exact ⟨m2.trans m1, s2.trans s1, v.pkg.turns, h2⟩

theorem leaseFault_frame (c : Saved) (s : State) : (leaseFault c s).mem = s.mem ∧ (leaseFault c s).saved = s.saved := by
  unfold leaseFault
  split <;> exact ⟨rfl, rfl⟩

theorem restore_eq {i : Nat} {c : Saved} (ho : s.opaqueAt c.hart.area = c.opaqueCells) : restore i n c s =
    (placeBack n (restoredHart s c (s.hartAt n)) (leaseFault c { s with saved := s.saved.eraseIdx i })).atHart n
      (takeGroups c) := if_neg (not_not.mpr ho)

/-- A restored context has results appended, the number of its placement, and otherwise what its area gives back. -/
theorem restore_restores {i : Nat} {c : Saved} (ho : s.opaqueAt c.hart.area = c.opaqueCells) :
    (restore i n c s).saved = s.saved.eraseIdx i ∧ (restore i n c s).mem = s.mem ∧ ∃ turn,
      (restore i n c s).hartAt n = { (restoredHart s c (s.hartAt n)).appendResults with turn := turn } := by
  rw [restore_eq ho]
  generalize restoredHart s c (s.hartAt n) = x
  obtain ⟨m1, s1⟩ := leaseFault_frame c { s with saved := s.saved.eraseIdx i }
  generalize leaseFault c { s with saved := s.saved.eraseIdx i } = u at *
  obtain ⟨m2, s2, turn, h2⟩ := placeBack_places n x u
  generalize placeBack n x u = v at *
  obtain ⟨m3, s3, h3⟩ := atHart_takeGroups n c v
  exact ⟨s3.trans (s2.trans s1), m3.trans (m2.trans m1), turn, h3.trans h2⟩

theorem contextRestore_restores {i : Nat} {c : Saved} (hc : s.saved[i]? = some c) (hr : restorable s i c n = true)
    (ho : s.opaqueAt c.hart.area = c.opaqueCells) (hh : s.rangeHeld c.hart.area 0x52000 = false) :
    ∃ t, exec (.contextRestore i n) s = .next t ∧ t.saved = s.saved.eraseIdx i ∧ t.mem = s.mem ∧
      (t.hartAt n).run = .running ∧
      (t.hartAt n).pc = BitVec.ofNat 57 (4 * ((s.word8 c.hart.area).toNat / 4)) ∧
      (t.hartAt n).demand = (if c.vpc = 0 then c.hart.demand else c.groups) ∧
      (t.hartAt n).vstart = BitVec.ofNat 13 (leNat (s.bytes (c.hart.area + 16) 2)) ∧
      ∀ k, 1 ≤ k → k < 64 → (t.hartAt n).rs k = s.word8 (c.hart.area + 0x100 + 8 * k) := by
  obtain ⟨hsaved, hmem, turn, hhart⟩ := restore_restores (i := i) (n := n) ho
  refine ⟨restore i n c s, ?_, hsaved, hmem, ?_⟩
  · show execContextRestore i n s = _
    unfold execContextRestore
    rw [hc]
    exact congrArg (due s) (if_pos (by simp [hr, hh]))
  · obtain ⟨hrun, hpc, hdemand, hvstart⟩ := restoredHart_goesOn s c (s.hartAt n)
    have hrs (k : Nat) (h1 : 1 ≤ k) (hk : k < 64) := rs_restoredHart s c (s.hartAt n) h1 hk
    rw [hhart]
    generalize restoredHart s c (s.hartAt n) = x at *
    exact ⟨hrun, hpc.trans (pcOf_eq _), hdemand, hvstart, hrs⟩

/-! ## Identifiers, leases and flow (R370, R371, R386, R461) -/

theorem cidAssign_gives {seq : Nat} {l : Launch} {c : BitVec 12} {cs : List (BitVec 12)}
    (hl : (s.launches.find? fun l => l.st = .parsed && !l.stopping) = some l) (hs : l.seq.toNat = seq)
    (hc : s.pkg.cids = c :: cs) :
    exec (.cidAssign seq) s = .next ((s.modLaunch l.seq fun m => { m with st := .leasing, cid := some c }).modPkg
      fun p => { p with cids := cs }) := by
  show execCidAssign seq s = _
  unfold execCidAssign
  rw [hl, hc]
  exact congrArg (due s) (if_neg (not_not.mpr hs))

/-- A launch is found by the number of its sequence number. -/
theorem launchAt_of_find {seq : Nat} {l : Launch} (hl : (s.launches.find? fun l => l.seq.toNat = seq) = some l) :
    s.launchAt l.seq = some l ∧ l.seq.toNat = seq := by
  have hseq : l.seq.toNat = seq := by
    have hfound := List.find?_some hl
    exact of_decide_eq_true hfound
  refine ⟨?_, hseq⟩
  rw [State.launchAt, ← hl]
  congr 1
  funext m
  simp only [← hseq, BitVec.toNat_inj]

/-- A change of a launch that leaves what it counts for in the flow leaves every SHARE (R461). -/
theorem shares_modLaunch {f : Launch → Launch} (hf : ∀ l, (f l).granted = l.granted ∧ (f l).pid = l.pid ∧ (f l).units = l.units)
    (k : Word) (extra : Option (Byte × Nat)) (s : State) : (s.modLaunch k f).shares extra = s.shares extra := by
  have hheld (z : Nat) : ((s.modLaunch k f).launches.map fun l => if l.granted && s.ownsIn l.pid z then l.units.getD 0 else 0) =
      s.launches.map fun l => if l.granted && s.ownsIn l.pid z then l.units.getD 0 else 0 := by
    refine (List.map_map ..).trans (List.map_congr_left fun l _ => ?_)
    obtain ⟨hg, hp, hu⟩ := hf l
    dsimp only [Function.comp]
    split
    · rw [hg, hp, hu]
    · rfl
  have hshare (z : Nat) : (s.modLaunch k f).shareWith extra z = s.shareWith extra z := by
    unfold State.shareWith
    dsimp only
    rw [show ((s.modLaunch k f).launches.map fun l => if l.granted && (s.modLaunch k f).ownsIn l.pid z then l.units.getD 0 else 0) =
      _ from hheld z]
    rfl
  simp only [State.shares, hshare]

/-- The launches that wait for flow count for no SHARE (R461). -/
theorem shares_withGrants (ws : List Word) (extra : Option (Byte × Nat)) (s : State) :
    (s.modPkg fun p => { p with grants := ws }).shares extra = s.shares extra := by
  unfold State.shares State.shareWith
  rfl

/-- The launches that wait for flow once one more does (R461, log 64). -/
def waitsWith (k : Word) (s : State) : List Word := if k ∈ s.pkg.grants then s.pkg.grants else s.pkg.grants ++ [k]

/-- A launch has entered Ready, with its leases and its flow (R370, R372, R461). -/
def entered (l : Launch) (s : State) : State :=
  { s with
    launches := (s.launches.filter fun m => m.seq ≠ l.seq) ++ [{ l with
      st := .ready, leases := pinnedPages l, units := some (byteOf s.pkg.ctcls l.therm).toNat }]
    pkg := { s.pkg with grants := (waitsWith l.seq s).drop 1 } }

section
variable {l : Launch}

/-- The launch has taken its leases, and waits for flow. -/
def reached (l : Launch) (s : State) : State :=
  (s.modLaunch l.seq fun m => { m with leases := pinnedPages l }).modPkg fun p => { p with grants := waitsWith l.seq s }

theorem reachGrant_reaches (hst : l.st = .leasing) (hn : l.stopping = false) (hc : ∀ a ∈ pinnedAddrs l, canonical a = true)
    (hr : ∀ p ∈ pinnedPages l, resident s l.pid p = true) : reachGrant l s = some (reached l s) := by
  unfold reachGrant
  dsimp only
  rw [if_neg (by simp [hst, hn, List.all_eq_true.mpr hc, List.all_eq_true.mpr hr])]
  simp only [List.contains_iff_mem]
  rfl

theorem launchAt_reached (ha : s.launchAt l.seq = some l) :
    (reached l s).launchAt l.seq = some { l with leases := pinnedPages l } := by
  have hfind : (s.launches.map fun m => if m.seq = l.seq then { m with leases := pinnedPages l } else m).find?
      (fun m => m.seq = l.seq) = (s.launches.find? fun m => m.seq = l.seq).map fun m =>
        if m.seq = l.seq then { m with leases := pinnedPages l } else m := by
    rw [List.find?_map]
    congr 2
    funext m
    dsimp only [Function.comp]
    split <;> rfl
  refine hfind.trans ((congrArg (Option.map _) ha).trans ?_)
  rw [Option.map_some, if_pos rfl]

/-- The other launches, those that a change of one leaves. -/
theorem filter_modLaunch {f : Launch → Launch} (hf : ∀ m, (f m).seq = m.seq) (k : Word) (ls : List Launch) :
    ((ls.map fun m => if m.seq = k then f m else m).filter fun m => m.seq ≠ k) = ls.filter fun m => m.seq ≠ k := by
  induction ls with
  | nil => rfl
  | cons m ls ih =>
    rw [List.map_cons]
    by_cases hm : m.seq = k
    · rw [if_pos hm, List.filter_cons_of_neg (by simp [hf, hm]), List.filter_cons_of_neg (by simp [hm]), ih]
    · rw [if_neg hm, List.filter_cons_of_pos (by simp [hm]), List.filter_cons_of_pos (by simp [hm]), ih]

/-- The launch that waits first, with its leases taken, takes its flow (R461). -/
theorem grantFlow_grants {u : State} {m : Launch} (hg : u.pkg.grants.head? = some m.seq)
    (hp : (pinnedPages m).all m.leases.contains = true)
    (hs : u.shares (some (m.pid, (byteOf u.pkg.ctcls m.therm).toNat)) ≤ 920) :
    grantFlow m u = some { u with
      launches := (u.launches.filter fun x => x.seq ≠ m.seq) ++ [{ m with
        st := .ready, units := some (byteOf u.pkg.ctcls m.therm).toNat }]
      pkg := { u.pkg with grants := u.pkg.grants.drop 1 } } := by
  have hfits : ¬ 1024 - 104 < u.shares (some (m.pid, (byteOf u.pkg.ctcls m.therm).toNat)) := Nat.not_lt.mpr hs
  unfold grantFlow
  dsimp only
  generalize u.shares _ = shares at hfits ⊢
  rw [hp, if_neg (by simp [hg, hfits])]
  rfl

/-- A launch whose turn it is takes its leases and its flow (R386, R461). -/
theorem lease_enters (ha : s.launchAt l.seq = some l) (hst : l.st = .leasing) (hn : l.stopping = false)
    (hc : ∀ a ∈ pinnedAddrs l, canonical a = true) (hr : ∀ p ∈ pinnedPages l, resident s l.pid p = true)
    (hs : s.shares (some (l.pid, (byteOf s.pkg.ctcls l.therm).toNat)) ≤ 920) (hw : (waitsWith l.seq s).head? = some l.seq) :
    lease l s = some (entered l s) := by
  have hpages : (pinnedPages { l with leases := pinnedPages l }).all (pinnedPages l).contains = true :=
    List.all_eq_true.mpr fun p hp => List.contains_iff_mem.mpr hp
  have hshares : (reached l s).shares (some (l.pid, (byteOf s.pkg.ctcls l.therm).toNat)) ≤ 920 := by
    rw [reached, shares_withGrants,
      shares_modLaunch (f := fun m => { m with leases := pinnedPages l }) fun _ => ⟨rfl, rfl, rfl⟩]
    exact hs
  have hothers : ((reached l s).launches.filter fun m => m.seq ≠ l.seq) = s.launches.filter fun m => m.seq ≠ l.seq :=
    filter_modLaunch (f := fun m => { m with leases := pinnedPages l }) (fun _ => rfl) l.seq s.launches
  unfold lease
  rw [reachGrant_reaches hst hn hc hr]
  dsimp only
  rw [launchAt_reached ha, Option.bind_some,
    grantFlow_grants (u := reached l s) (m := { l with leases := pinnedPages l }) hw hpages hshares, hothers]
  rfl

/-- A launch leaves Leasing, and the packet of its queue retires (R364, R370). -/
theorem leasingDone_next {seq : Nat} (hl : (s.launches.find? fun l => l.seq.toNat = seq) = some l)
    (he : lease l s = some (entered l s)) :
    (l.queue = none → exec (.leasingDone seq) s = .next (entered l s)) ∧
    ∀ k, l.queue = some k → tableHeld s k = false →
      (∀ p, (queueAt s k).packet = some p → p.slot = l.slot →
        exec (.leasingDone seq) s = .next (retire k p (entered l s))) ∧
      ((queueAt s k).packet = none → queueHead s k = l.slot →
        exec (.leasingDone seq) s = .next (retireSlots k l.slot 4 (entered l s))) := by
  have hexec : exec (.leasingDone seq) s = execLeasingDone seq s := rfl
  rw [hexec]
  unfold execLeasingDone
  rw [hl]
  dsimp only
  rw [he]
  dsimp only
  refine ⟨fun hq => by rw [hq]; rfl, fun k hq hheld => ?_⟩
  rw [hq]
  dsimp only
  have hh : tableHeld (entered l s) k = false := hheld
  rw [if_neg (by simp [hh])]
  refine ⟨fun p hp hslot => ?_, fun hp hhead => ?_⟩
  · have hp' : (queueAt (entered l s) k).packet = some p := hp
    rw [hp']
    dsimp only
    rw [if_pos hslot]
    rfl
  · have hp' : (queueAt (entered l s) k).packet = none := hp
    have hh' : queueHead (entered l s) k = l.slot := hhead
    rw [hp']
    dsimp only
    rw [if_pos hh']
    rfl

/-! ## Placement (R372, R373) -/

theorem placeOn_places (l : Launch) (r : Nat) (s : State) : (placeOn l r n s).mem = s.mem ∧
    ∃ turn, (placeOn l r n s).hartAt n = { startHart l r (s.hartAt n) with turn := turn } := by
  obtain ⟨m1, -, -⟩ := modHart_frame n (startHart l r) s
  have hx := hartAt_modHart n (startHart l r) s
  generalize hv : s.modHart n (startHart l r) = v at m1 hx
  obtain ⟨m2, -, -⟩ := modHart_frame n (fun y => { y with turn := v.pkg.turns }) v
  unfold placeOn
  rw [hv]
  exact ⟨m2.trans m1, v.pkg.turns, (hartAt_modHart n (fun y => { y with turn := v.pkg.turns }) v).trans (by rw [hx])⟩

theorem modHart_cores (n : Nat) (f : Hart → Hart) (s : State) : (s.modHart n f).cores = s.cores := by
  have hfocus (k : Nat) (u : State) : (u.focus k).cores = u.cores := by
    unfold State.focus
    split <;> rfl
  exact (hfocus _ _).trans (hfocus n s)

theorem ownedHarts_placeOn (l : Launch) (r : Nat) (s : State) (p : Byte) : ownedHarts (placeOn l r n s) p = ownedHarts s p := by
  have hc : (placeOn l r n s).cores = s.cores := (modHart_cores _ _ _).trans (modHart_cores n _ s)
  unfold ownedHarts State.coreAt
  rw [hc]

/-- The next hart of a launch, where it is the last one or the launch does not start as a gang (R372). -/
theorem hartPlacement_places {seq c : Nat} (hl : (s.launches.find? fun l => l.seq.toNat = seq) = some l)
    (hst : l.st = .ready ∨ l.st = .running) (hn : l.stopping = false) (hp : l.placed < l.harts)
    (ha : ∀ m ∈ s.launches, isAhead l m s = false) (hc : chosenCore l s = some c) (hf : n ∈ fittingSlots l s c)
    (hg : ownedHarts s l.pid < l.harts ∨ l.placed + 1 = l.harts) :
    exec (.hartPlacement seq l.placed n) s = .next (placeOn l l.placed n s) := by
  have hahead : (s.launches.any fun m => isAhead l m s) = false := List.any_eq_false.mpr fun m hm => by simp [ha m hm]
  have hready : (l.st == .ready || l.st == .running) = true := by simpa using hst
  show execHartPlacement seq l.placed n s = _
  unfold execHartPlacement
  rw [hl]
  dsimp only
  rw [if_neg (by simp [hready, hn, hp, hahead]), hc]
  dsimp only
  rw [if_neg (by simp [hf]), ownedHarts_placeOn]
  split
  · next hgang =>
    have hlast : l.harts - l.placed - 1 = 0 := by omega
    rw [hlast]
    rfl
  · rfl

theorem rs_startHart (l : Launch) (r : Nat) (slot : Hart) (k : Nat) : (startHart l r slot).rs k =
    if k = 2 then l.param else if k = 3 then BitVec.ofNat 64 r else if k = 4 then BitVec.ofNat 64 l.harts else 0 := by
  unfold Hart.rs startHart
  dsimp only
  rw [tget_tset, tget_tset, tget_tset]
  by_cases h0 : k = 0
  · subst h0; rfl
  · by_cases h4 : k = 4
    · subst h4; rfl
    · by_cases h3 : k = 3
      · subst h3; rfl
      · by_cases h2 : k = 2
        · subst h2; rfl
        · simp only [h0, h2, h3, h4, if_false]
          rfl

/-! ## The end of a launch (R369, R371) -/

theorem putChunks_pkg (launch : Option Word) (cs : List Chunk) (bs : List Byte) (s : State) :
    (putChunks false launch cs bs s).pkg = s.pkg := by
  rw [putChunks_eq, putParts_keeps State.pkg fun _ _ _ => (enginePart_frame _ _ _ _ _).2]

theorem queueWrite_pkg {pid : Byte} {va : Word} {bs : List Byte} : ((queueWrite pid va bs s).getD s).pkg = s.pkg := by
  unfold queueWrite
  cases queueCheck pid va bs.length .store s with
  | none => rfl
  | some acc => exact (putChunks_pkg _ _ _ _).trans (congrArg Contexts.pkg (contexts_keep _ s))

theorem queueRmw_pkg {pid : Byte} {va : Word} {f : Word → Word} : ((queueRmw pid va f s).getD s).pkg = s.pkg := by
  unfold queueRmw
  cases queueCheck pid va 8 .rmw s with
  | none => rfl
  | some acc => exact (putChunks_pkg _ _ _ _).trans (congrArg Contexts.pkg (contexts_keep _ s))

theorem announceEnd_cids (l : Launch) (status : Byte) (s : State) : (announceEnd l status s).pkg.cids = s.pkg.cids := by
  unfold announceEnd
  dsimp only
  split
  · rw [queueWrite_pkg, journal_pkg]
  · rw [queueRmw_pkg, queueWrite_pkg, journal_pkg]

theorem closeLaunch_frees (l : Launch) (status : Byte) (s : State) :
    (∀ m ∈ (closeLaunch l status s).launches, m.seq ≠ l.seq) ∧
      (closeLaunch l status s).pkg.cids = (match l.cid with | some c => s.pkg.cids ++ [c] | none => s.pkg.cids) := by
  unfold closeLaunch
  have hc := announceEnd_cids l status s
  generalize announceEnd l status s = u at hc
  have hlaunches : (forgetLaunch l (freeLaunch l u)).launches = (freeLaunch l u).launches.filter fun x => x.seq ≠ l.seq := by
    unfold forgetLaunch
    split <;> rfl
  have hpkg : (forgetLaunch l (freeLaunch l u)).pkg = (freeLaunch l u).pkg := by
    unfold forgetLaunch
    split <;> rfl
  constructor
  · rw [hlaunches]
    exact fun m hm => of_decide_eq_true (List.mem_filter.mp hm).2
  · rw [hpkg, ← hc]
    unfold freeLaunch
    cases l.cid <;> rfl

theorem launchEnd_ends {seq : Nat} (hl : (s.launches.find? fun l => l.seq.toNat = seq) = some l) (hst : l.st = .running)
    (hx : hasContexts s l.seq = false) (he : l.stopping = true ∨ l.ended = l.harts) (hr : inReset s l.seq = false)
    (hh : endHeld l s = false) (ho : ∀ p ∈ s.orphans, p.2.launch = some l.seq → State.hasWork p.2 = false) :
    exec (.launchEnd seq) s = .next (closeLaunch l l.status s) := by
  have hdone : (l.stopping || l.ended == l.harts) = true := by simpa using he
  have horphans : (s.orphans.any fun p => p.2.launch == some l.seq && State.hasWork p.2) = false := by
    rw [List.any_eq_false]
    intro p hp hb
    obtain ⟨hq, hw⟩ := Bool.and_eq_true_iff.mp hb
    exact Bool.false_ne_true ((ho p hp (eq_of_beq hq)).symm.trans hw)
  show execLaunchEnd seq s = _
  unfold execLaunchEnd
  rw [hl]
  exact congrArg (due s) (if_neg (by simp [hst, hx, hdone, hr, hh, horphans]))

end

/-! ## Counter latches and watchdogs (R430, R444, R445) -/

/-- The records of some cores are written (R430). -/
def latchWritten (cores : List Nat) (s : State) : State := cores.foldl (fun (t : State) c =>
  t.fillDev (s.pkg.ctsrBase.toNat * 65536 + 576 * (64 * c + s.pkg.latches.toNat % 64)) (latchRecord c s)) s

theorem latchWritten_pkg (cores : List Nat) (s : State) : (latchWritten cores s).pkg = s.pkg :=
  congrArg Contexts.pkg (foldl_keeps contexts (fun (t : State) c =>
    t.fillDev (s.pkg.ctsrBase.toNat * 65536 + 576 * (64 * c + s.pkg.latches.toNat % 64)) (latchRecord c s))
    (fun t _ => contexts_fillDev _ _ t) cores s)

theorem counterLatch_latches (hd : latchDue s.pkg = true) : ∃ t, exec .counterLatch s = .next t ∧
    t.pkg.latches = s.pkg.latches + 1 ∧ t.pkg.latchTick = some s.pkg.time := by
  have hp := latchWritten_pkg (List.range Config.cores) s
  have hexec : exec .counterLatch s = execCounterLatch s := rfl
  rw [hexec]
  unfold execCounterLatch
  rw [if_neg (by simp [hd])]
  refine ⟨_, rfl, ?_, ?_⟩
  · exact congrArg (fun p : Pkg => p.latches + 1) hp
  · exact congrArg (fun p : Pkg => some p.time) hp

/-- The watchdogs of some queues start anew. -/
theorem wd_foldl (q : Nat) (qs : List Nat) : ∀ s : State, ((queueAt s q).wd = 0 ∨ q ∈ qs) →
    (queueAt (qs.foldl (fun s k => modQueue k (fun x => { x with wd := 0 }) s) s) q).wd = 0 := by
  induction qs with
  | nil => exact fun s h => h.resolve_right List.not_mem_nil
  | cons k qs ih =>
    intro s h
    refine ih _ ?_
    by_cases hk : q = k
    · subst hk
      exact .inl (congrArg Queue.wd (queueAt_modQueue q _ s))
    · have hsame : queueAt (modQueue k (fun x => { x with wd := 0 }) s) q = queueAt s q := tget_tset_other _ _ _ hk
      rw [hsame]
      exact h.imp_right fun hm => (List.mem_cons.mp hm).resolve_left hk

/-- The launches of a queue that an expiry removes, as they do not run. -/
def removedBy (q : Nat) (s : State) : List Word :=
  ((s.launches.filter fun l => l.queue == some q).filter fun l => l.st ≠ .running).map (·.seq)

/-- The launches of a partition that end normally at an expiry, as their last hart has halted. -/
def haltedBy (p : Byte) (s : State) : List Word :=
  (s.launches.filter fun l => l.pid == p && l.st == .running && !l.stopping && l.ended == l.harts).map (·.seq)

/-- The entry that an expiry posts, of the queue's oldest launch or of none, takes no time. -/
theorem time_expiryEntry (p : Byte) (q : Nat) (head : Word) (s : State) (oldest : Option Launch) :
    (match oldest with
      | some l => s.journal 0x04 0 (some p) (some q) l.cid head l.seq l.entry (launchQual l.seq) 0 []
      | none => s.journal 0x04 0 (some p) (some q) none head (BitVec.allOnes 64) 0 0 0 []).pkg.time = s.pkg.time := by
  cases oldest with
  | none => exact (congrArg Pkg.time (journal_pkg ..)).trans rfl
  | some l => exact (congrArg Pkg.time (journal_pkg ..)).trans rfl

/-- What an expiry leaves of the queue: its packet is removed, and a reset has begun at the present tick. -/
theorem expire_begins (q : Nat) (s : State) : ∃ head, queueAt (expire q s) q =
    ⟨none, 0, none, some ⟨queuePid s q, 1, s.pkg.time, head, removedBy q s, [], [], haltedBy (queuePid s q) s⟩⟩ := by
  unfold expire
  extract_lets p head mine oldest removed halted s1 s2 s3 s4
  refine ⟨head, ?_⟩
  have htime : s4.pkg.time = s.pkg.time := by
    have h1 : s1.pkg.time = s.pkg.time := time_expiryEntry p q head s oldest
    have h2 : s2.pkg = s1.pkg := foldl_keeps State.pkg
      (fun (s : State) k => s.modLaunch k fun l => { l with status := 3, stopping := true }) (fun _ _ => rfl) removed s1
    have h4 : s4.pkg = s3.pkg := foldl_keeps State.pkg
      (fun s k => modQueue k (fun x => { x with wd := 0 }) s) (fun _ _ => rfl) (q :: queuesOf s3 p) s3
    rw [h4, ← h1, ← h2]
    rfl
  have hwd : (queueAt s4 q).wd = 0 := wd_foldl q (q :: queuesOf s3 p) s3 (.inr List.mem_cons_self)
  rw [queueAt_modQueue, ← htime, ← hwd]
  rfl

theorem watchdogExpiry_begins {q : Nat} (hq : q ≤ s.pkg.qtNq.toNat) (hw : wdogTicks s q ≠ 0) (ho : outstanding s q = true)
    (hr : resetting s (queuePid s q) = false) (hx : wdogTicks s q ≤ (queueAt s q).wd) (hh : tableHeld s q = false) :
    exec (.watchdogExpiry q) s = .next (expire q s) :=
  dueIf_next (by simp [hq, hw, ho, hr, hx, hh]) _ s

/-- Settles O55: each event of the scheduler, in its own lemma, and the steps of a reset. -/
theorem scheduling : Obligations.Scheduling := by
  intro n seq q s x asked
  refine ⟨fun l hl hc hp hf => yieldRequest_asks hl hc hp hf, quantumExpiry_asks,
    fun hr hy hd ha hi hidle hb he ht hz hh => forcedSave_saves hr hy hd ha hi hidle hb he ht hz hh,
    fun i c hc hr ho hh => contextRestore_restores hc hr ho hh, fun l c cs hl hs hc => cidAssign_gives hl hs hc,
    fun l hl => ⟨fun hst hn hc hr hs hw => leasingDone_next hl (lease_enters (launchAt_of_find hl).1 hst hn hc hr hs hw),
      fun c hst hn hp ha hc hf hg => ?_, fun hst hx he hr hh ho => ?_⟩,
    counterLatch_latches, fun hq hw ho hr hx hh => ?_, fun ts r hs hq he h1 h3 hh => step_resetStep hs hq he h1 h3 hh⟩
  · obtain ⟨hmem, turn, hhart⟩ := placeOn_places (n := n) l l.placed s
    refine ⟨_, hartPlacement_places hl hst hn hp ha hc hf hg, hmem, ?_⟩
    rw [hhart]
    exact ⟨rfl, rfl, pcOf_eq _, rfl, rfl, rfl, rs_startHart l l.placed x, rfl, rfl⟩
  · obtain ⟨hforgot, hcids⟩ := closeLaunch_frees l l.status s
    exact ⟨_, launchEnd_ends hl hst hx he hr hh ho, hforgot, hcids⟩
  · obtain ⟨head, hbegun⟩ := expire_begins q s
    refine ⟨_, ⟨queuePid s q, 1, s.pkg.time, head, removedBy q s, [], [], haltedBy (queuePid s q) s⟩,
      watchdogExpiry_begins hq hw ho hr hx hh, ?_, ?_, ?_, rfl, rfl, rfl, fun l hl hq' hst => ?_,
      fun l hl hp hst hn hend => ?_⟩
    · rw [hbegun]
    · rw [hbegun]
    · rw [hbegun]
    · exact List.mem_map_of_mem (List.mem_filter.mpr ⟨List.mem_filter.mpr ⟨hl, by simp [hq']⟩, by simp [hst]⟩)
    · exact List.mem_map_of_mem (List.mem_filter.mpr ⟨hl, by simp [hp, hst, hn, hend]⟩)

end Sys2Proof.Proofs
end
